-- ==== Sys2Proof/Word.lean ====
section
/-! DEFINITION. The word types of the KG2-800 and the sparse table every repeated unit is held in. -/

namespace Sys2Proof

/-- A byte of memory. -/
abbrev Byte := BitVec 8

/-- A register, a word of memory, device time: 64 bits (R5, R15). -/
abbrev Word := BitVec 64

/-- A sparse table: keys strictly rising, no entry equal to what an unlisted key reads as. -/
abbrev Tbl (α : Type) := List (Nat × α)

end Sys2Proof
end

