-- ==== Sys2Proof/Config.lean ====
section
/-! DEFINITION. What a part or its owner fixes: product constants, the configuration image (R345),
firmware manifests (R394), and the values the manual leaves free (opaque, without a body). -/

namespace Sys2Proof

/-! Free values. DESIGN CHOICE (log entry 3): nothing constrains any of these. -/

/-- The converter code `k` of one reading, from −128 to 127 (R69, R74): the n-th reading taken. -/
opaque Config.reading : Nat → BitVec 8
/-- A random draw of the device (R118 SEED 0; R399 nonces; R389). -/
opaque Config.random : Nat → BitVec 64
/-- A value the manual leaves undefined and the device still produces. -/
opaque Config.unstated : Nat → BitVec 64
/-- EXP, RECIP and RSQRT in FP32 of an operand for which R127 states no result (an infinity; RECIP of a zero; RSQRT of a
zero or a negative number): fixed functions of the function code and the operand. -/
opaque Config.vecUnary : Nat → BitVec 32 → BitVec 32
/-- Which of the FP32 values within the bound of R127 EXP, RECIP, RSQRT and SOFTMAX give: by function code, operands and
element. -/
opaque Config.within : Nat → List (BitVec 32) → Nat → Nat
/-- Sign of a zero that MAX or MIN takes from a +0 and a −0 (R127 names neither), by function code. -/
opaque Config.zeroSign : Nat → Bool
/-- The half of a Q4 byte that holds no element, by function code. -/
opaque Config.padNibble : Nat → BitVec 4
/-- The sealed 256-bit seed of R389, which only key derivation reads. -/
opaque Config.seed : BitVec 256
/-- ML-DSA.KeyGen_internal of FIPS 204: the public and the private key of ξ (R389). -/
opaque Config.mlDsaKeyGen : BitVec 256 → List (BitVec 8) × List (BitVec 8)
/-- An Ed25519 signature by a private key, and an ML-DSA-65 signature by one (R403, R405): over what, counted as free values
are. -/
opaque Config.edSign : BitVec 256 → Nat → List (BitVec 8)
opaque Config.mlSign : List (BitVec 8) → Nat → List (BitVec 8)
/-- The SHA-384 and signature bytes the device answers an attestation with (R403 to R405). -/
opaque Config.attest : Nat → Nat → List (BitVec 8)
/-- Bytes of one chunk of a large SPDM response, less one (R403): the manual gives no DataTransferSize. -/
opaque Config.chunkSize : Fin 4096
/-- Content of a part of a CXL, SPDM or PLDM message that its own specification defines. -/
opaque Config.specData : Nat → Nat → List (BitVec 8)

/-- The k-th nearest PIC sensor of a ring among its bay's 16 (R310, R381): the manual gives no placement. -/
opaque Config.nearestPic : Nat → Nat → Fin 16

/-- The factory drive sets (R328, R331): lattice, table entry, temperature set. -/
opaque Config.factorySet : Nat → Nat → Nat → BitVec 12
/-- A trim as the probes have made it (R335): lattice, table entry, folds before, and how often its like was updated since. -/
opaque Config.trim : Nat → Nat → Nat → Nat → BitVec 8
/-- The gain (Q2.14) and the offset (1/16 LSB) of a readout chain after a number of updates (R328, R335): lattice, row, count. -/
opaque Config.readoutGain : Nat → Nat → Nat → BitVec 16
opaque Config.readoutOffset : Nat → Nat → Nat → BitVec 8
/-- The PIC sensors, of its bay's 16, beneath a lattice (R329). -/
opaque Config.beneath : Nat → List (Fin 16)
/-- The bias of a honeycomb where the journal has no record (R288), and its maximum (R291). -/
opaque Config.factoryBias : Nat → Nat
opaque Config.maxBias : Nat → Nat
/-- The k-th nearest PIC sensor of a PIC sensor, of its bay's 16 (R381). -/
opaque Config.nearestTo : Nat → Nat → Fin 16

/-- A word of configuration space that the manual does not lay out (R242): its number, the value last written, HOST_MEM in
GiB, Mem_Capable and Memory_Active. -/
opaque Config.cfgWord : Nat → BitVec 32 → Nat → Bool → Bool → BitVec 32
/-- A CXL component or device register (R431): its offset and the value last written; the manual leaves their layout to
the CXL specification. -/
opaque Config.cxlReg : Nat → BitVec 64 → BitVec 64
/-- What THM_DOM_DATA (0) or THM_SENS_DATA (1) shows for a selection that names no domain or sensor. -/
opaque Config.unselected : Nat → Nat → BitVec 64
/-- The 32-bit word of configuration space where a structure starts (R235, R242; log entry 57): 0 the PCI Express capability, 1
the PCIe DVSEC for CXL Devices, 2 the GPF DVSEC. -/
opaque Config.capAt : Nat → Nat
/-- What a write of a CXL component register sets the host's back-invalidate enable to, where it writes that (R237): offset
and value. -/
opaque Config.biSetting : Nat → BitVec 64 → Option Bool
/-- What an injection request of the Compliance DOE injects (R253): its code to a MODE of CXL_INJ_CTRL and a COUNT. -/
opaque Config.injection : Nat → Option (Fin 6 × BitVec 16)

/-- PLANE of an event-log entry (R419): the manual lists three planes and assigns none to an event code. -/
opaque Config.eventPlane : Nat → Fin 3

/-! Product constants the manual gives symbolically (R443 DEV_VENDOR, DEV_DEVICE, DEV_SERIAL). -/

/-- The 32 bytes of a LINK HELLO frame (R258), whose layout the manual does not give: device, port, highest version,
partition and credit counts to the byte at a place (log entry 49). -/
opaque Config.hello (dev port ver : Nat) (partition credits : List Nat) : Nat → BitVec 8
opaque Config.vendorId : BitVec 16
opaque Config.deviceId : BitVec 16
opaque Config.serial : BitVec 64

/-- Object signature verdicts (R392): what evaluating each signature and digest gives.
DESIGN CHOICE (log entry 9): an object carries them as data. -/
structure Verdict where
  ed : Bool
  ml : Bool
  digest : Bool
  deriving DecidableEq, Repr

/-- Both signatures verify and the digest holds. -/
def Verdict.ok (v : Verdict) : Bool := v.ed && v.ml && v.digest

/-- A firmware manifest and its image as a flash slot holds them (R394); `digest` is the image digest it states. -/
structure FwImage where
  version : Word
  svn : Nat
  commit : Bool
  fieldsOk : Bool
  digest : List Byte
  verdict : Verdict
  deriving DecidableEq, Repr

/-- An entry of the Keys section (R393): identifier, Ed25519 and ML-DSA-65 public key. -/
structure BundleKey where
  id : Word
  ed : List Byte
  ml : List Byte
  deriving DecidableEq, Repr

/-- A portal record of the configuration (R345). -/
structure Portal where
  base : Nat
  entries : Nat
  first : Nat
  leaseMs : Nat
  priority : Nat
  threads : Nat
  xfer : Nat
  share : Nat
  powerFloor : Nat
  permPower : Bool
  permSigned : Bool
  permFabric : Bool
  permHost : Bool
  attic : Nat
  regions : List (Nat × Nat)
  deriving DecidableEq, Repr

/-- A fabric window (R190); `partition` are the devices that may use it. -/
structure FabWindow where
  declared : Bool
  base : Nat
  size : Nat
  canRead : Bool
  canWrite : Bool
  canCas : Bool
  partition : List Nat
  deriving DecidableEq, Repr

/-- One segment of a route (R261 ROUTE). -/
structure Seg where
  port : Nat
  hops : Nat
  deriving DecidableEq, Repr

/-- A multicast group of a fabric profile (R279). -/
structure Group where
  id : Nat
  upstream : Option Nat
  down : List Nat
  member : Bool
  beneath : List (Nat × List Nat)
  flows : List Nat
  deriving DecidableEq, Repr

/-- A fabric profile (R285). `v1` names the destinations whose path includes a version 1 link beyond the first hop, which the
source holds signals for (R226; DESIGN CHOICE, log entry 22). -/
structure Profile where
  fibre : List Nat
  dateline : List Bool
  routes : List (Nat × List Seg)
  groups : List Group
  v1 : List Nat
  deriving DecidableEq, Repr

/-- Where the flash temperature comes from (R360). -/
inductive FlashTempSource where
  | none
  | register
  deriving DecidableEq, Repr

/-- The configuration's seven sections as data (R345). The byte layout of five of them is not given. -/
structure Configuration where
  -- Device
  device : Nat
  powerLimit : Nat
  latEn : List Bool
  grantLattice : Bool
  grantFabric : Bool
  grantRestart : Bool
  grantDiag : Bool
  flashTemp : FlashTempSource
  flashLo : Int
  flashHi : Int
  portEn : List Bool
  -- Memory
  hostMemGiB : Nat
  ctxBase : Nat
  storeBase : Nat
  storeMiB : Nat
  atticBase : Nat
  atticPages : Nat
  feWords : List Nat
  -- Portals
  portals : List Portal
  -- Fabric
  partition : List Nat
  windows : List FabWindow
  profiles : List Profile
  profile : Nat
  -- Optics: set value of each line, per honeycomb, 0.01 dBm
  lineSet : List (List Int)
  -- Keys: the class 2 bundle keys, in order (R393)
  keys : List BundleKey
  -- Limits
  holdTimeoutUs : Nat
  mcStallUs : Nat
  deriving DecidableEq, Repr

/-- A configuration image in a flash slot (R345): prefix, key class, the image digest (R355, R404), section
digests and content. -/
structure CfgImage where
  seq : Nat
  keyClass : Nat
  prefixOk : Bool
  digest : List Byte
  verdict : Verdict
  badSection : Nat
  reservedOk : Bool
  content : Configuration
  deriving DecidableEq, Repr

/-- What firmware update stages (R428). -/
inductive Staged where
  | firmware (i : FwImage)
  | config (i : CfgImage)
  deriving DecidableEq, Repr

/-- Values the Device, Memory and Limits sections take by default (R180, R18, R224, R282): the configuration
in use before any is applied. DESIGN CHOICE (log entry 7) where the manual names no default. -/
def Configuration.unset : Configuration where
  device := 0
  powerLimit := 900
  latEn := []
  grantLattice := false
  grantFabric := false
  grantRestart := false
  grantDiag := false
  flashTemp := .none
  flashLo := 0
  flashHi := 85
  portEn := []
  hostMemGiB := 64
  ctxBase := 0x0004_0000_0000
  storeBase := 0x0004_0080_0000
  storeMiB := 256
  atticBase := 0x0004_4000_0000
  atticPages := 0
  feWords := []
  portals := []
  partition := []
  windows := []
  profiles := []
  profile := 0
  lineSet := []
  keys := []
  holdTimeoutUs := 2000
  mcStallUs := 40

end Sys2Proof
end

