-- ==== Sys2Proof/Syntax.lean ====
section
/-! DEFINITION. The commands: one constructor of `Instr` per row of spec/opcode_table.json, with its operands.
Operands carry what comes from outside the event (who sends it, the unit, a value written, a measurement). -/

namespace Sys2Proof

/-- Register paths (R435). -/
inductive Path where
  | bar0 | i3c | vdm
  deriving DecidableEq, Repr

/-- The two MCTP bindings (R425). -/
inductive Ep where
  | i3c | vdm
  deriving DecidableEq, Repr

/-- The connections an SPDM requester uses (R403). -/
inductive Conn where
  | doe | i3c | vdm
  deriving DecidableEq, Repr

/-- Supply rails (R451). -/
inductive Rail where
  | core | sram | ana | drv | htr | las | dram | vpp | io | v18 | aux
  deriving DecidableEq, Repr

/-- Islands of a bay (01_engine_overview.md, Clock islands). -/
inductive BayIsland where
  | symbol | readout | rowCell | vector0 | vector1 | sequencer | temper | cellar | pantry | watch | monitor | heater
  deriving DecidableEq, Repr

/-- Islands of the hub. -/
inductive HubIsland where
  | cxl | relay | ports03 | ports47 | portMap | management | security | flash | event | landing | alwaysOn | deviceTime
  deriving DecidableEq, Repr

/-- One of the 60 islands. -/
inductive Island where
  | bay (b : Fin 4) (i : BayIsland)
  | hub (i : HubIsland)
  deriving DecidableEq, Repr

/-- Where an internal error arises (R411): an island, or a line of reserved cellar found poisoned, with its second copy where
that is poisoned too. -/
inductive ErrWhere where
  | island (i : Island)
  | reserved (lattice : Fin 8) (line : Nat) (second : Option Nat)
  deriving DecidableEq, Repr

/-- What drains (R89). -/
inductive DrainOf where
  | lattice (l : Fin 8)
  | thread (t : Fin 512)
  | context (c : Fin 4096)
  deriving DecidableEq, Repr

/-- What the error protection finds in a line or word that is read (R191, R197); `retried`: a beat of the bonded interface
came clean at a retry. -/
inductive LineCheck where
  | clean | corrected | uncorrectable | retried
  deriving DecidableEq, Repr

/-- A completed transfer's other end (R164). -/
inductive XferEnd where
  | pantry | cellar | landing | host | fabric
  deriving DecidableEq, Repr

/-- A Henxo frame: the 256-bit header, the payload and the link CRC of the trailer (R261). -/
structure Frame where
  hdr : BitVec 256
  payload : List Byte
  crc : Word
  deriving DecidableEq, Repr

/-- A temperature reading: a value in 1/256 °C, or an open or shorted sensor (R380). -/
inductive Sense where
  | value (t : Int)
  | isOpen
  | isShort
  deriving DecidableEq, Repr

/-- A monitor conversion's slot (R323, R324, R326). `presenting` lists the rings that present a comparator request at the
slot's boundary (R325). -/
inductive MonSlot where
  | readBack (m : Fin 1024) (p : BitVec 16) (currentLimit : Bool)
  | drop (m : Fin 1024) (v : BitVec 14) (presenting : List (Fin 1024))
  | err (m : Fin 1024) (e : BitVec 16)
  | sense (m : Fin 1024) (at256 : Bool) (p : BitVec 16) (currentLimit : Bool)
  | ringSlot (presenting : List (Fin 1024)) (e : BitVec 16)
  | reference (ch : Fin 4) (outOfTolerance : Bool) (presenting : List (Fin 1024))
  deriving DecidableEq, Repr

/-- AtomicOps of a peer (R235). -/
inductive AtomicKind where
  | fetchAdd (v : Word)
  | swap (v : Word)
  | cas (cmp new : Word)
  deriving DecidableEq, Repr

/-- The four event logs of the CXL mailbox (R251). -/
inductive EvLog where
  | informational | warning | failure | fatal
  deriving DecidableEq, Repr

/-- The commands of the KG2-800. -/
inductive Instr where
  | perstNDeassert (msSincePwrOk : Nat)
  | perstNAssert
  | perstDeferredEffect
  | pwrOkAssert
  | pwrOkDeassert
  | railOutOfWindow (r : Rail)
  | vddAuxPowerUp (clksel : Bool)
  | vddAuxLoss
  | nvmRestart (p : Path)
  | internalError (w : ErrWhere)
  | handshakeStall (i : Island)
  | burstBoundary (l : Fin 8)
  | shadowLoadComplete (l : Fin 8)
  | burstResolve (l : Fin 8)
  | drainComplete (d : DrainOf)
  | darkeningComplete (l : Fin 8)
  | latFenceReq (p : Path) (l : Fin 8)
  | latCtrlWrite (p : Path) (l : Fin 8) (v : Word)
  | searchComplete (l : Fin 8)
  | searchTimeout (l : Fin 8)
  | calCheckEnd (l : Fin 8)
  | suspectTimeout (l : Fin 8)
  | linePowerRecoveryTimeout (l : Fin 8)
  | readoutSelfTestEnd (l : Fin 8) (chain : Fin 513) (pass : Bool)
  | readoutRetestTimer (l : Fin 8) (chain : Fin 513)
  | matmul (t : Fin 512)
  | vec (t : Fin 512)
  | move (t : Fin 512)
  | gather (t : Fin 512)
  | route (t : Fin 512)
  | exit (t : Fin 512)
  | gate (t : Fin 512)
  | signal (t : Fin 512) (check : LineCheck)
  | wait (t : Fin 512) (check : LineCheck)
  | waitSatisfied (t : Fin 512)
  | waitTimeout (t : Fin 512)
  | putComplete (t : Fin 512)
  | takeReserve (t : Fin 512)
  | fence (t : Fin 512)
  | fenceComplete (t : Fin 512)
  | setmode (t : Fin 512)
  | branch (t : Fin 512) (check : LineCheck)
  | stepComplete (t : Fin 512) (k : Nat)
  | transferComplete (t : Fin 512) (src : XferEnd) (addr : BitVec 48) (bytes : Nat) (check : LineCheck)
  | larderFillComplete (b : Fin 4) (line : Nat) (check : LineCheck)
  | blockedStreamCheck (b : Fin 4)
  | bind (p : Fin 256) (e : Fin 4096) (ed ml : Bool) (keyIndex : Nat) (table bundle : LineCheck)
  | start (p : Fin 256) (e : Fin 4096)
  | startAdmitted (p : Fin 256) (e : Fin 4096)
  | reset (p : Fin 256) (e : Fin 4096)
  | release (p : Fin 256) (e : Fin 4096)
  | clearwarn (p : Fin 256) (e : Fin 4096)
  | heartSample (p : Fin 256) (e : Fin 4096)
  | leaseExpiry (p : Fin 256) (e : Fin 4096)
  | watchedWordWrite (addr : BitVec 48)
  | polledWordRead (b : Fin 4)
  | hostLineInvalidate (line : BitVec 46) (data : List Byte)
  | heldSignalTimeout (src : BitVec 15) (flow : BitVec 12)
  | allowanceEval
  | halfClockEnter
  | halfClockExit
  | packagePowerSample (watts : Nat)
  | scrubRead (b : Fin 4) (line : Nat) (check : LineCheck) (forced : Bool)
  | cxlLinkTrained (rate width : Nat) (level : Fin 3) (bi : Bool)
  | linkLoss
  | configRequest (off : BitVec 12) (wr : Option (BitVec 32))
  | cxlMemRead (peer : Bool) (h : BitVec 48) (check : LineCheck)
  | cxlMemWrite (peer : Bool) (h : BitVec 48) (data : List Byte) (check : LineCheck)
  | cxlAtomicOp (h : BitVec 48) (wide : Bool) (op : AtomicKind)
  | hostOwnershipRequest (h : BitVec 48) (exclusive : Bool) (check : LineCheck)
  | recallTimer (h : BitVec 48)
  | bisnpResponse (h : BitVec 48) (modified : Option (List Byte))
  | bar2Read (x : BitVec 36)
  | bar2Write (x : BitVec 36) (v : Word)
  | globalPersistentFlush
  | identify
  | getLog (id : Nat)
  | getEventRecords (log : EvLog)
  | clearEventRecords (log : EvLog) (count : Nat)
  | getEventInterruptPolicy
  | setEventInterruptPolicy (info warn fail fatal : BitVec 8)
  | getTimestamp
  | setTimestamp (v : Word)
  | tableAccess (handle : Nat)
  | complianceRequest (inject : Bool) (code : Nat)
  | injTxCrc (p : Path) (count : BitVec 16)
  | injRxCrc (p : Path) (count : BitVec 16)
  | injMemPoison (p : Path) (count : BitVec 16)
  | injCreditHold (p : Path) (count delayUs : BitVec 16)
  | injCreditHoldEnd
  | injCacheFail (p : Path) (count : BitVec 16)
  | lightDetected (p : Fin 8)
  | portTrainingDone (p : Fin 8) (lanes : BitVec 8) (peerVer : Nat) (peerDev : BitVec 15) (peerPort : Fin 8)
      (credits : List Nat)
  | portTrainingTimeout (p : Fin 8)
  | portTrainingRetry (p : Fin 8)
  | codewordReceived (p : Fin 8) (lane : Fin 8) (first : BitVec 7) (check : LineCheck)
  | laneRetrainDone (p : Fin 8) (lane : Fin 8) (ok : Bool)
  | retryTimeout (p : Fin 8) (lane : Fin 8)
  | idle (p : Fin 8) (lane : Fin 8) (f : Frame)
  | link (p : Fin 8) (lane : Fin 8) (f : Frame)
  | write (p : Fin 8) (lane : Fin 8) (f : Frame)
  | readReq (p : Fin 8) (lane : Fin 8) (f : Frame) (check : LineCheck)
  | readResp (p : Fin 8) (lane : Fin 8) (f : Frame)
  | casReq (p : Fin 8) (lane : Fin 8) (f : Frame) (check : LineCheck)
  | casResp (p : Fin 8) (lane : Fin 8) (f : Frame)
  | signalFrame (p : Fin 8) (lane : Fin 8) (f : Frame) (check : LineCheck)
  | e2eAck (p : Fin 8) (lane : Fin 8) (f : Frame)
  | e2eNack (p : Fin 8) (lane : Fin 8) (f : Frame)
  | mcWrite (p : Fin 8) (lane : Fin 8) (f : Frame)
  | mcOpen (p : Fin 8) (lane : Fin 8) (f : Frame)
  | mcAck (p : Fin 8) (lane : Fin 8) (f : Frame)
  | mcPrune (p : Fin 8) (lane : Fin 8) (f : Frame)
  | mcRepair (p : Fin 8) (lane : Fin 8) (f : Frame)
  | reservedFrame (p : Fin 8) (lane : Fin 8) (f : Frame)
  | e2eAckTimer (src : BitVec 15) (flow : BitVec 12)
  | flowTimeout (dst : BitVec 15) (flow : BitVec 12)
  | heldFrameTimeout (src : BitVec 15) (flow : BitVec 12)
  | mcWriteHoldTimeout (src : BitVec 15) (flow : BitVec 12)
  | mcStall (group : BitVec 10) (port : Fin 8)
  | hnxStall (p : Fin 8) (cls : Fin 4) (set : Fin 2)
  | portRetrain (path : Path) (p : Fin 8)
  | profileChange (path : Path) (v : BitVec 2)
  | hnxInjDropWire (path : Path) (v : Word)
  | hnxInjDropEarly (path : Path) (v : Word)
  | hnxInjBitFlip (path : Path) (v : Word)
  | hnxInjE2eFlip (path : Path) (v : Word)
  | hnxInjReorder (path : Path) (v : Word)
  | honeycombStartTimeout (h : Fin 10)
  | combRetry (h : Fin 10)
  | linePowerComparator (h : Fin 10)
  | linePowerSample (h : Fin 10) (powers : List Int)
  | biasReevaluation (h : Fin 10) (weakestInHand : Int) (bias : Nat) (after : Int)
  | identityFrame (l : Fin 8) (r : Fin 131072) (samples : Vector (BitVec 14) 12)
  | searchRampVisit (l : Fin 8) (r : Fin 131072) (drop : BitVec 14)
  | identityRoundDue (l : Fin 8)
  | identityRoundComplete (l : Fin 8) (readings : List (Nat × Int)) (lines : List (Nat × Nat))
  | relockRampStep (l : Fin 8) (r : Fin 131072) (drop : BitVec 14)
  | relockTimeout (l : Fin 8) (r : Fin 131072)
  | innerLoopVisit (l : Fin 8) (r : Fin 131072)
  | spanHoldEnd (q : Fin 16384)
  | feedforwardVisit (l : Fin 8) (r : Fin 131072) (deltaT : Int)
  | monitorConversion (k : Fin 1024) (slot : MonSlot)
  | heaterTick (q : Fin 16384)
  | bankSwap (p : Path) (b : Fin 4) (v : Word)
  | traceTrigger (p : Path) (b : Fin 4) (ch : Fin 4)
  | monTestCont (p : Path) (b : Fin 4) (v : Word)
  | rampStep (l : Fin 8)
  | residualPublish (l : Fin 8) (rms : BitVec 16) (bias : BitVec 16)
  | calEpisodeStart (p : Path) (l : Fin 8)
  | episodeInterval (l : Fin 8) (sweeps : Nat) (rms : BitVec 16) (bias : BitVec 16) (maxTrim : Nat)
  | episodeTimeout (l : Fin 8)
  | calSaveDue
  | calSaveRequest (p : Path)
  | calSaveComplete
  | journalPageProgram
  | compactionStart
  | jnlCompact (p : Path)
  | compactionSwitch
  | halfEraseDone
  | flashTempRead (r : Option Int)
  | powerRequest (b : Fin 4)
  | powerTransitionComplete (b : Fin 4)
  | powerRequestRetry (b : Fin 4)
  | proofSlice (b : Fin 4) (errs : List (Nat × BitVec 16))
  | idleStateWrite (p : Path) (b : Fin 4) (v : BitVec 3)
  | powerLimitSet (p : Path) (v : BitVec 10)
  | thermalSample (readings : List Sense)
  | powerLimitStep
  | telemetrySample
  | referenceLost
  | refMeasure (offset : BitVec 32)
  | pllLossOfLock (i : Island)
  | pllRelockTimeout (i : Island)
  | avsVoltageWrite (mv : Nat) (ack : Bool)
  | avsWriteRetry (ack : Bool)
  | tokenDebug (p : Path) (sig : Verdict) (digestOk : Bool)
  | ownerEnrol (p : Path) (sig : Verdict) (digestOk : Bool)
  | ownerRelease (p : Path) (sig : Verdict) (digestOk : Bool)
  | newNonce (p : Path)
  | tokenEnd (p : Path)
  | tokenExpiry
  | nonceExpiry
  | nonceRead (p : Path)
  | getVersion (c : Conn)
  | getCapabilities (c : Conn)
  | negotiateAlgorithms (c : Conn) (ed25519 sha384 : Bool)
  | getDigests (c : Conn)
  | getCertificate (c : Conn) (slot off len : Nat)
  | challenge (c : Conn) (slot : Nat) (nonce : BitVec 256)
  | getMeasurements (c : Conn) (index : Nat) (signed : Bool) (nonce : BitVec 256)
  | chunkGet (c : Conn) (seq : Nat)
  | getPqChain (c : Conn) (off : BitVec 32) (len : BitVec 16)
  | countersign (c : Conn)
  | fenceClear (p : Path) (v : BitVec 8)
  | mctpControl (ep : Ep) (setEid : Option (BitVec 8))
  | i3cAddressAssign (setdasa : Bool) (addr : BitVec 7)
  | submitTokenCmd (ep : Ep) (bytes : List Byte) (sig : Verdict) (digestOk : Bool)
  | readNonceCmd (ep : Ep)
  | readEventsCmd (ep : Ep) (seq : Word) (count : Nat)
  | readRegisterCmd (ep : Ep) (off : BitVec 26)
  | writeRegisterCmd (ep : Ep) (off : BitVec 26) (v : Word)
  | clearFenceCmd (ep : Ep) (l : Fin 8)
  | warmRestartCmd (ep : Ep)
  | upkeepPhaseCmd (ep : Ep)
  | getTid (ep : Ep)
  | getSensorReading (ep : Ep) (id : Nat)
  | setEffecter (ep : Ep) (id : Nat) (v : Nat)
  | pollPlatformEvent (ep : Ep)
  | requestUpdate (ep : Ep) (agent : Nat) (component : Nat)
  | firmwareDataReceived (ep : Ep) (agent : Nat) (bytes : Nat) (image : Option Staged)
  | verifyComplete (ep : Ep) (agent : Nat)
  | applyComplete (ep : Ep) (agent : Nat)
  | activateFirmware (ep : Ep) (agent : Nat)
  | cancelUpdate (ep : Ep) (agent : Nat)
  | updateAgentTimeout
  | larderFlush (p : Path) (b : Fin 4)
  | larderFlushDone (b : Fin 4)
  | evtAlertClear (p : Path) (v : Word)
  | devStatusChgClear (p : Path) (v : Word)
  | devStatusMaskWrite (p : Path) (v : Word)
  | msixUnmask (vector : Option (Fin 8))
  | registerWrite (off : BitVec 26) (bytes : Nat) (v : Word)
  | honeycombReady (h : Fin 10)
  | pllRelocked (i : Island)
  | cxlLinkRecovery
  | cxlFlitError (replay : Bool)
  deriving DecidableEq, Repr

end Sys2Proof
end

