-- ==== Sys2Proof/Decode.lean ====
section
/-! DEFINITION. Decoding of opcode-table words. The table gives no row any bits, so no word spells a command. -/

namespace Sys2Proof

/-- The command a word spells by the table's bits: the table has no row with bits. -/
def decodeTableWord (_nbits _w : Nat) : Option Instr := none

end Sys2Proof
end

