-- ==== Sys2Proof/Machine/State.lean ====
section
/-! DEFINITION. State as plain data: everything the manual gives the device, the queue of waiting commands, and
`State.reset`. Repeated units are sparse tables (`Tbl`) whose unlisted entries read as the unit after reset. -/

namespace Sys2Proof.Machine

/-- Why a command stops the model with a fault. -/
inductive Fault where
  /-- CXL_MEM_READ, CXL_MEM_WRITE, CXL_ATOMIC_OP, HOST_OWNERSHIP_REQUEST, BISNP_RESPONSE and RECALL_TIMER of an
  offset at or above HOST_MEM (R180: no such line in the host-managed range). Safe: the device has no such access. -/
  | outsideHostManaged
  deriving DecidableEq, Repr

/-- Why a command is refused by the model. -/
inductive Refusal where
  /-- A command whose meaning has not been written: raised by `exec`'s refused arms only. Safe. -/
  | notModelled (mnemonic : String)
  /-- An operand that no command of the row can carry (`Instr.wf` is false), such as a frame whose TYPE is another
  row's. Raised by the meanings of the frame rows and of THERMAL_SAMPLE. Safe: no such command exists. -/
  | illFormed
  deriving DecidableEq, Repr

/-! ## Lattices (R22 to R53, R76 to R90) -/

/-- LAT_STATE.STATE (R39, R40). -/
inductive LatState where
  | dark | searching | locked | serving | suspect | draining | fenced
  deriving DecidableEq, Repr

/-- The causes of SUSPECT (R44), in LAT_STATUS.SUSPECT_NOW order. -/
inductive Cause where
  | wrongLine | excursion | rateOfRise | linePower | readout
  deriving DecidableEq, Repr

/-- A piece of a MATMUL (R126): one plane of one tile over the vectors `all`, of which `todo` are still to pass, for
the logical rows from `lo` up to `hi` (R52). `h` is the repeat shift (R67); `rep` marks repeats (R86) and `suspectRep`
those of R47. `pin` is the lattice that took an earlier plane of the piece; `id` numbers the pieces of a step. -/
structure Chunk where
  thread : Nat
  uid : Nat
  tile : Nat
  plane : Nat
  group : Nat
  lo : Nat
  hi : Nat
  all : List Nat
  todo : List Nat
  h : Nat
  rep : Bool
  suspectRep : Bool
  pin : Option Nat
  id : Nat
  deriving DecidableEq, Repr

/-- A logical row of a loaded plane: its 256 codes (R23), the block row sums (R25), the zero-flagged blocks (R27), the
row exponent M_j (R66), and whether a block of exponent 255 makes its outputs NaN (R62). -/
structure PlaneRow where
  codes : List Int
  sums : List Int
  absent : List Bool
  exp : Int
  nan : Bool
  deriving DecidableEq, Repr

/-- A weight plane in shadow or active registers: the rows of the piece it was loaded for. -/
structure Plane where
  thread : Nat
  uid : Nat
  tile : Nat
  plane : Nat
  lo : Nat
  hi : Nat
  rows : List PlaneRow
  deriving DecidableEq, Repr

/-- An input vector as a burst launches it (R61 to R65, R101): codes after the shift, amplitudes α[b] in units of 2⁻⁷,
e_max, and the slices it issues. `zero` marks a vector of R63, `nan` one that holds a nonfinite block. -/
structure Launched where
  vec : Nat
  codes : List Int
  amp : List Nat
  emax : Int
  zero : Bool
  nan : Bool
  high : Bool
  low : Bool
  deriving DecidableEq, Repr

/-- An entry of the dead-element map (LAT_DEM_DATA). -/
structure DeadRing where
  row : Nat
  col : Nat
  kind : Nat
  handling : Nat
  parkW : Int
  canPark : Bool
  deriving DecidableEq, Repr

/-- A burst between its grant and its resolution (R85), with the step word, and the dead-element map at its grant.
`reads` is the free value number of its first reading, `adds` the additions the row cells had made for its step before it
(masked rows, height of the plane, number; R83). -/
structure Burst where
  chunk : Chunk
  ins : List Launched
  plane : Plane
  ctx : Nat
  ranges : List Nat
  reads : Nat
  suspect : Bool
  issued : Nat
  adds : List (List Nat × Nat × Nat)
  word : BitVec 256
  dead : List DeadRing
  deriving DecidableEq, Repr

/-- An open HOLD group on a lattice (R78). -/
structure HoldGroup where
  ctx : Nat
  thread : Nat
  uid : Nat
  group : Nat
  deriving DecidableEq, Repr

/-- Kinds of background bursts (R334, R336). -/
inductive Background where
  | identity | sweep | random
  deriving DecidableEq, Repr

/-- What a lattice's tables are computed from (R329, R331): T_L (1/256 °C), the factory sets alone or not, the folds before, and
the sweeps and random probe slots since the last of them, which the trims follow. -/
structure Tables where
  temp : Int
  factory : Bool
  folded : Nat
  swept : Nat
  randoms : Nat
  deriving DecidableEq, Repr

/-- A correction of a lattice's tables (R332): the tables it goes to, the steps its ramps have taken, its start, how many entries
ramp, and whether its unramped changes have taken effect. -/
structure Ramp where
  goal : Tables
  step : Nat
  start : Nat
  count : Nat
  landed : Bool
  deriving DecidableEq, Repr

/-- One lattice. `why` is the cause (LAT_STATE.CAUSE encoding) of the latest change of its target, `fencePending` that of
a pending fence (0 for none). `lfsr` is the probe generator's seed and `probeSlots` the probe slots since (R334). `acc` holds the accumulator slots of the row cells,
128 half-words for each logical row (log entry 39), `check` the checkpoint bank in the same layout (R76, R85). `orphan` is a
load that goes on after its piece has gone back (R42). `selfTest` holds
the readout chains in fault (512 for all of them at once) and how far their self-test is: 0 waits for the PLLs, 1 runs, 2 has
failed and runs again later; `selfFails` their failures with the time (R44, R48).
`tables` are those whose entries are all applied (none
before the first sample), `ramps` the corrections since, newest first; `sweeps` counts sweep bursts since parked weights were
last measured, `swept` those since the trims were last folded and `randoms` the random probe slots, and `folds` holds for each
fold these two and its T_L (R331, R335). `roundLeft` is 1 between the two bursts of an identity round, 2 between those of a forced one, and 3 after them (R297,
R341). `sweepDebt` is in units of 2⁻¹⁶
burst and `probeDebt` of 2⁻¹² slot (R336). -/
structure Lattice where
  state : LatState
  phase : Nat
  cause : Nat
  entryTime : Nat
  fencePending : Nat
  why : Nat
  toLocked : Bool
  held : List (Cause × Nat)
  leftServing : Option Nat
  suspectEntries : List Nat
  rewound : List Nat
  lateLogged : List (Nat × Nat)
  checkStart : Nat
  selfTest : List (Nat × Nat)
  selfFails : List (Nat × Nat)
  active : Option Plane
  shadow : Option Plane
  loading : Option Chunk
  orphan : Option Chunk
  sinceSwap : Nat
  guard : Bool
  lit : List Bool
  inflight : List Burst
  current : Option Chunk
  group : Option HoldGroup
  acc : Tbl (BitVec 16)
  check : Tbl (BitVec 16)
  roundDue : Bool
  roundLeft : Nat
  lastPass : Nat
  sweeps : Nat
  sweepDebt : Int
  probeDebt : Int
  forcedSweeps : Nat
  dem : List DeadRing
  ramps : List Ramp
  tables : Option Tables
  swept : Nat
  randoms : Nat
  folds : List (Nat × Nat × Int)
  episode : Option Nat
  episodeMet : Bool
  lfsr : BitVec 32
  probeSlots : Nat
  reseed : Bool
  outageFrom : Option Nat
  deriving DecidableEq, Repr

/-- A lattice after a cold reset: DARK, nothing loaded (R43). `sinceSwap` counts burst boundaries since the last
swap, held at 2, so that the first swap may take effect (R30). -/
def Lattice.reset : Lattice where
  state := .dark
  phase := 0
  cause := 0
  entryTime := 0
  fencePending := 0
  why := 0
  toLocked := false
  held := []
  leftServing := none
  suspectEntries := []
  rewound := []
  lateLogged := []
  checkStart := 0
  selfTest := []
  selfFails := []
  active := none
  shadow := none
  loading := none
  orphan := none
  sinceSwap := 2
  guard := false
  lit := []
  inflight := []
  current := none
  group := none
  acc := []
  check := []
  roundDue := false
  roundLeft := 0
  lastPass := 0
  sweeps := 0
  sweepDebt := 0
  probeDebt := 0
  forcedSweeps := 0
  dem := []
  ramps := []
  tables := none
  swept := 0
  randoms := 0
  folds := []
  episode := none
  episodeMet := false
  lfsr := 0
  probeSlots := 0
  reseed := true
  outageFrom := none

/-- TMP_COMB_STATUS.STATE (R288). -/
inductive CombState where
  | off | starting | ready | failed | rampingDown
  deriving DecidableEq, Repr

/-- One honeycomb (R288 to R291). Powers are in units of 0.01 dBm. -/
structure Comb where
  state : CombState
  ageing : Bool
  lowPower : Bool
  spacing : Bool
  wear : Nat
  bias : Nat
  held : Nat
  powers : List Int
  lastSample : Nat
  dropAt : Nat
  deriving DecidableEq, Repr

def Comb.reset : Comb where
  state := .off
  ageing := false
  lowPower := false
  spacing := false
  wear := 0
  bias := 0
  held := 0
  powers := []
  lastSample := 0
  dropAt := 0

/-! ## Threads and contexts (R116 to R151) -/

/-- Thread states (Threads and the sharing of units). -/
inductive ThState where
  | idle | ready | stalled | waiting
  deriving DecidableEq, Repr

/-- A wait in force (R132, R219): source, target, what CONS asks and the identifier. `hit` latches that some value of
the word satisfied it (R217), `uid` is the WAIT's place in the context's step count. -/
structure Waiting where
  src : Nat
  sid : Nat
  target : Nat
  cons : Bool
  timeout : Nat
  since : Nat
  hit : Bool
  uid : Nat
  deriving DecidableEq, Repr

/-- A step in progress (R120). `uid` is the step counter at its issue (R140); `writes` the mask and list ranges it
writes, as address and bytes (R108); `ctr` and `consumed` what its generators see (R153). For a MATMUL: `vectors` is N
(R157), `live` the vectors its mask passes, `dealt` and `repeats` the pieces no lattice holds, `started` what is started
of the partial tiles (vector, rows from, up to; R79), `outs` the HOLD groups written out, `adds` the additions made (lattice,
masked rows, height, number; R83), `ranges` the ranges of R70 by lattice, `pieces` the pieces numbered so far, `asked` how
many vectors of each piece have been requested (R166), `pairs` the pairs of a MOVE still to copy and `opnd` the bytes of an
ATOM pair's source that have come from another device (R128), `ready` the rows of S_OUT items that wait for earlier items and
`nextOut` how many items have left (R168), `ran` whether a plane was loaded (R100). -/
structure Active where
  uid : Nat
  pc : Nat
  word : BitVec 256
  begun : Nat
  vectors : Nat
  dealt : List Chunk
  repeats : List Chunk
  started : List (Nat × Nat × Nat)
  live : List Nat
  outs : List Nat
  adds : List (Nat × List Nat × Nat × Nat)
  ranges : List (Nat × List Nat)
  ctr : List (BitVec 32)
  consumed : Nat
  inflight : Nat
  pieces : Nat
  asked : List (Nat × Nat)
  ready : List (Nat × Nat × List Nat)
  nextOut : Nat
  ran : Bool
  gens : Nat
  done : Bool
  writes : List (Nat × Nat)
  pairs : List (Option Nat × Option Nat)
  atoms : List (Option Nat × Option Nat)
  opnd : Tbl Byte
  swapped : Bool
  operands : Option (Nat × Nat)
  engine : Nat
  deriving DecidableEq, Repr

/-- One hardware thread. -/
structure Thread where
  st : ThState
  ctx : Nat
  idx : Nat
  pc : Nat
  pred : Bool
  ctr : List (BitVec 32)
  consumed : Nat
  mode : Nat
  pend : List (Nat × Nat)
  taken : List Nat
  wait : Option Waiting
  putWait : Bool
  steps : List Active
  lostMark : Bool
  deriving DecidableEq, Repr

def Thread.reset : Thread where
  st := .idle
  ctx := 0
  idx := 0
  pc := 0
  pred := false
  ctr := [0, 0, 0, 0]
  consumed := 0
  mode := 0
  pend := []
  taken := []
  wait := none
  putWait := false
  steps := []
  lostMark := false

/-- Context states in the encoding order of the state word (R139). -/
inductive CtxState where
  | free | bound | running | waiting | draining | faulted
  deriving DecidableEq, Repr

/-- A thread's restart record (R142). -/
structure Restart where
  step : Nat
  pred : Bool
  putPending : Bool
  putStep : Nat
  ctr : List (BitVec 32)
  consumed : Nat
  deriving DecidableEq, Repr

/-- A valid leaf of the translation copy (R185): virtual 2 MiB page, page address, TARGET and W. -/
structure Leaf where
  vpage : Nat
  page : Nat
  target : Nat
  writable : Bool
  deriving DecidableEq, Repr

/-- What a sync identifier's signal mapping reaches (R208). -/
inductive SigMap where
  | own (host : Bool) (addr : Nat)
  | remote (dev : Nat) (window : Nat) (off : Nat) (flow : Nat)
  | put (bay : Nat) (addr : Nat)
  deriving DecidableEq, Repr

/-- An entry of a context's sync map (R208): bays with a watch slot and bays whose mapping is POLLED. -/
structure SyncEntry where
  sid : Nat
  sig : SigMap
  slots : List (Nat × Nat)
  polled : List Nat
  deriving DecidableEq, Repr

/-- A context table entry (R139) with its restart records, translation copy and sync map. `copy` holds the address of each
4 KiB table of the copy and which table it is: 0 the root, 1 + i the one entry i of the root names, 513 + 512·i + j the one
entry j of that names (R186). `pendingCmd` is a command or
lease expiry whose drain runs: its operation and sequence. -/
structure Ctx where
  st : CtxState
  warn : Bool
  admitWait : Bool
  drainTo : Nat
  fault : Nat
  faultStep : Nat
  faultThread : Nat
  portal : Nat
  entry : Nat
  tag : Word
  bundle : Nat
  xlatRoot : Nat
  copy : List (Nat × Nat)
  leaves : List Leaf
  atticPages : Nat
  attic : Nat
  syncmap : Nat
  sync : List SyncEntry
  seed : Word
  stepctr : BitVec 48
  stepExt : Nat
  priority : Nat
  qThreads : Nat
  qXfer : Nat
  qShare : Nat
  powerFloor : Nat
  bundleVa : Nat
  recipeVa : Nat
  recipe : Nat
  nSteps : Nat
  stencils : Nat
  nStencil : Nat
  wantThreads : List (Nat × Nat)
  ckpt : Nat
  published : Nat
  faultTime : Nat
  permPower : Bool
  permSigned : Bool
  permFabric : Bool
  map : List (Nat × Nat)
  restarts : List (Nat × Restart)
  endedL : List Nat
  deficit : List (Nat × Int)
  pendingCmd : Option (Nat × Option Nat)
  deriving DecidableEq, Repr

def Ctx.reset : Ctx where
  st := .free
  warn := false
  admitWait := false
  drainTo := 0
  fault := 0
  faultStep := 0
  faultThread := 0
  portal := 0
  entry := 0
  tag := 0
  bundle := 0
  xlatRoot := 0
  copy := []
  leaves := []
  atticPages := 0
  attic := 0
  syncmap := 0
  sync := []
  seed := 0
  stepctr := 0
  stepExt := 0
  priority := 0
  qThreads := 0
  qXfer := 0
  qShare := 0
  powerFloor := 0
  bundleVa := 0
  recipeVa := 0
  recipe := 0
  nSteps := 0
  stencils := 0
  nStencil := 0
  wantThreads := []
  ckpt := 0
  published := 0
  faultTime := 0
  permPower := false
  permSigned := false
  permFabric := false
  map := []
  restarts := []
  endedL := []
  deficit := []
  pendingCmd := none

/-- What the portal monitor keeps for a portal entry (R146, R148): the last command and result, the heartbeat last seen
while the entry was claimed and when it was first seen. -/
structure EntrySt where
  lastSeq : Option Nat
  result : Nat
  heart : Word
  heartAt : Option Nat
  deriving DecidableEq, Repr

def EntrySt.reset : EntrySt where
  lastSeq := none
  result := 0
  heart := 0
  heartAt := none

/-! ## Bays: power, larder, streams, watch slots, tagged words -/

/-- Power states, shallowest first (R363). -/
inductive PState where
  | run | dim | proof | cold | off
  deriving DecidableEq, Repr

/-- A line the larder holds (R169 to R171); the list of a bay runs from the most to the least recently used. -/
structure LarderLine where
  line : Nat
  prot : Bool
  deriving DecidableEq, Repr

/-- A larder fill in flight (R172). -/
structure Fill where
  line : Nat
  prot : Bool
  install : Bool
  deriving DecidableEq, Repr

/-- The streams of a step (R156). -/
inductive StreamName where
  | sIn | sIscale | sWgt | sWscale | sOut | sCarry | sA | sB | sSrc | sDst | sIdx | sMask
  deriving DecidableEq, Repr

/-- A transfer (R164): its first line in host or device memory, the virtual 2 MiB page it translates through, its bytes, the
pool space it takes, its hint. It serves
the vectors `first` up to `past` of the piece `piece` of a MATMUL. `waits` are the larder lines whose fills it waits for
(R172), `attic` its place in the attic while it is spilled (R176). -/
structure Xfer where
  host : Bool
  addr : Nat
  page : Nat
  len : Nat
  pool : Nat
  hint : Nat
  piece : Nat
  first : Nat
  past : Nat
  waits : List Nat
  attic : Nat
  deriving DecidableEq, Repr

/-- A stream of a step in progress (R161 to R178), which reads or writes. `todo` are transfers that hold no pool space:
reads not yet issued, writes not yet accepted. `flight` are those issued, `held` those that hold pool space otherwise: reads
that wait for their unit, writes not yet issued. `spilled` are those in the attic. -/
structure Stream where
  thread : Nat
  uid : Nat
  name : StreamName
  write : Bool
  begun : Nat
  depth : Nat
  todo : List Xfer
  flight : List Xfer
  held : List Xfer
  spilled : List Xfer
  blockedSince : Option Nat
  deriving DecidableEq, Repr

/-- A physical watch slot (R210). -/
structure Slot where
  valid : Bool
  host : Bool
  addr : Nat
  ctx : Nat
  ready : Bool
  sid : Nat
  deriving DecidableEq, Repr

def Slot.reset : Slot where
  valid := false
  host := false
  addr := 0
  ctx := 0
  ready := false
  sid := 0

/-- A waiting tagged operation (R199): true for PUT; `since` is the time it arrived. -/
structure FeOp where
  bay : Nat
  addr : Nat
  thread : Nat
  put : Bool
  value : Word
  since : Nat
  deriving DecidableEq, Repr

/-- A power transition in progress (R367): its target, and whether its blocks power down or up. -/
structure Transition where
  target : PState
  committed : Bool
  deriving DecidableEq, Repr

/-- One bay. `swaps` holds each loop class's last bank swap, as its time + 1 (R307); `lastIssue` is the thread of the bay
that issued last (R136; at reset the last one, so that thread 0 is first: DESIGN CHOICE, log entry 43);
`xlats` holds the bay's cached translations as context and virtual page, the most recently used first (R188).
`contOf` is the converter MON_TEST.CONT was written for (R326, R435), `released` the contexts whose threads here
released a step in the last 10 µs, with the time (R412). `held` holds writes to powered-down units (R440), oldest first:
path, offset, what the path's selectors chose, value. -/
structure Bay where
  power : PState
  trans : Option Transition
  pendReq : Option PState
  retryDue : Bool
  larder : List LarderLine
  fills : List Fill
  flushing : Bool
  streams : List Stream
  lastFreed : Nat
  cache : List Nat
  xlats : List (Nat × Nat)
  slots : Tbl Slot
  rise : Bool
  riseCalm : Nat
  upsets : List Nat
  upset : Bool
  swaps : Tbl Nat
  lastIssue : Nat
  contOf : Nat
  sliceAt : Option Nat
  held : List (Path × Nat × Nat × Word)
  released : List (Nat × Nat)
  deriving DecidableEq, Repr

def Bay.reset : Bay where
  power := .run
  trans := none
  pendReq := none
  retryDue := false
  larder := []
  fills := []
  flushing := false
  streams := []
  lastFreed := 0
  cache := []
  xlats := []
  slots := []
  rise := false
  riseCalm := 0
  upsets := []
  upset := false
  swaps := []
  lastIssue := 127
  contOf := 0
  sliceAt := none
  held := []
  released := []

/-! ## CXL (R235 to R253) -/

/-- CXL_LINK_STATUS.STATE. -/
inductive LinkState where
  | down | training | l0 | recovery
  deriving DecidableEq, Repr

/-- A line in the snoop filter, oldest first (R238). -/
structure Snooped where
  line : Nat
  exclusive : Bool
  recalled : Bool
  deriving DecidableEq, Repr

/-- What a device write held for a host response does to its line once the host's data is in (R238): store bytes; add
to or take from a signal word; set LOST; a compare and swap of an ATOM step (thread, step counter, flow) or of a CAS_REQ
frame; an AtomicOp of a peer. -/
inductive HeldOp where
  | bytes (d : List Byte)
  | add (n bay : Nat)
  | sub (c bay ctx sid : Nat)
  | lost
  | cas (cmp new thread uid flow : Nat)
  | casFrame (f : Frame)
  | peer (wide : Bool) (op : AtomicKind)
  deriving DecidableEq, Repr

/-- A device write held for a host response (R238): the line, the byte address, and the thread whose step wrote it + 1 (0
for none; R220). -/
structure HeldWrite where
  line : Nat
  addr : Nat
  op : HeldOp
  thread : Nat
  deriving DecidableEq, Repr

/-- The host port. `grants` holds ownership requests that wait for room in the snoop filter (R238): line, exclusive.
`msix` holds the message words of the MSI-X table, `regs` what was last written to the CXL component and device
registers (R431), each by its number of 8 bytes. -/
structure Cxl where
  state : LinkState
  rate : Nat
  width : Nat
  level : Nat
  bi : Bool
  crs : Bool
  memCapable : Bool
  memActive : Bool
  snoop : List Snooped
  waitInv : List Nat
  held : List HeldWrite
  grants : List (Nat × Bool)
  rasUnc : Bool
  rasHeader : List Byte
  aerCorr : Bool
  viral : Bool
  creditHeld : Bool
  cfgSpace : Tbl (BitVec 32)
  msix : Tbl Word
  regs : Tbl Word
  logs : List (List (List Byte))
  overflow : List Bool
  policy : List (BitVec 8)
  timestamp : Word
  timestampAt : Nat
  vecMask : List Bool
  funcMask : Bool
  pba : List Bool
  sent : List Nat
  corrAt : List (List Nat)
  deriving DecidableEq, Repr

def Cxl.reset : Cxl where
  state := .down
  rate := 0
  width := 0
  level := 0
  bi := false
  crs := true
  memCapable := true
  memActive := false
  snoop := []
  waitInv := []
  held := []
  grants := []
  rasUnc := false
  rasHeader := []
  aerCorr := false
  viral := false
  creditHeld := false
  cfgSpace := []
  msix := []
  regs := []
  logs := [[], [], [], []]
  overflow := [false, false, false, false]
  policy := [0, 0, 0, 0]
  timestamp := 0
  timestampAt := 0
  vecMask := [true, true, true, true, true, true, true, true]
  funcMask := false
  pba := [false, false, false, false, false, false, false, false]
  sent := [0, 0, 0, 0, 0, 0, 0, 0]
  corrAt := [[], [], [], []]

/-! ## Henxo (R254 to R287) -/

/-- HNX_PORT_STATUS.STATE. -/
inductive PortState where
  | disabled | dark | training | active | failed
  deriving DecidableEq, Repr

/-- One lane of a port (R256, R260, R264). `tries` counts the replays of each frame in `retry`; `deaf` is true from a codeword
discarded until the next that can be decoded and in which a frame starts. -/
structure Lane where
  nextFsn : Nat
  expected : Nat
  nakSent : Bool
  retry : List Frame
  badWords : Nat
  deaf : Bool
  tries : List Nat
  retrainFails : Nat
  retraining : Bool
  heldDown : Bool
  unacked : Nat
  owed : Bool
  deriving DecidableEq, Repr

def Lane.reset : Lane where
  nextFsn := 0
  expected := 0
  nakSent := false
  retry := []
  badWords := 0
  deaf := false
  tries := []
  retrainFails := 0
  retraining := false
  heldDown := false
  unacked := 0
  owed := false

/-- A frame that waits to be sent on a port: the port it came in on + 1 and the credit owed there (R266), 0 for a frame
of this device. -/
structure Queued where
  frame : Frame
  origin : Nat
  credit : Nat
  deriving DecidableEq, Repr

/-- One port. `credits` holds set 0 then set 1, each control, signal, bulk, multicast (R265). `out` is what the port
has put on its fibre, newest first. `sigGap` and `mix` count frames sent since the last signal and multicast frame (R267). -/
structure Port where
  state : PortState
  lanesUp : BitVec 8
  version : Nat
  peerDev : Nat
  peerPort : Nat
  lanes : Tbl Lane
  credits : List Nat
  owed : List Nat
  queue : List Queued
  out : List (Nat × Frame)
  injCount : Nat
  injHeld : List (Nat × Nat × Frame)
  stalled : List Bool
  moving : Bool
  sigGap : Nat
  mix : Nat
  deriving DecidableEq, Repr

def Port.reset : Port where
  state := .dark
  lanesUp := 0
  version := 0
  peerDev := 0
  peerPort := 0
  lanes := []
  credits := [0, 0, 0, 0, 0, 0, 0, 0]
  owed := [0, 0, 0, 0, 0, 0, 0, 0]
  queue := []
  out := []
  injCount := 0
  injHeld := []
  stalled := [false, false, false, false, false, false, false, false]
  moving := false
  sigGap := 0
  mix := 0

/-- A sequenced frame not yet acknowledged: the step it belongs to (R276), whether an answer is awaited and the bytes
answered so far; `dst` is where a read's data goes (an address value + 1, 0 for nowhere), `src` where a write's data
came from (the same form; R283), `data` the bytes themselves where they came from another device, `window` and `off` what it
reaches. -/
structure Sent where
  fseq : BitVec 32
  thread : Nat
  idx : Nat
  ctx : Nat
  pc : Nat
  uid : Nat
  answers : Bool
  got : Nat
  len : Nat
  dst : Nat
  src : Nat
  data : List Byte
  window : Nat
  off : Nat
  tag : Nat
  deriving DecidableEq, Repr

/-- A source flow entry (R273). Multicast flows have `mc`; `backlog` holds numbered frames that wait for the window or the
quota, `sigWait` signals held for a version 1 path (sequence number, N, window, offset, LOST; R226), `repairs` the transfers
that are repaired to some members as they go on (R283), `waiting` acknowledged requests whose answer is not complete, `members` the repaired members of a multicast flow, with
the last frame each has acknowledged and its last repair (R283). -/
structure SrcFlow where
  dst : Nat
  flow : Nat
  mc : Option Nat
  n : BitVec 32
  u : BitVec 32
  opened : BitVec 32
  sync : Bool
  unacked : List Sent
  lost : Bool
  sigWait : List (BitVec 32 × Nat × Nat × Nat × Bool)
  used : Nat
  transfer : Nat
  backlog : List Frame
  waiting : List Sent
  members : List (Nat × BitVec 32 × BitVec 32)
  repairs : List (Nat × List Nat)
  deriving DecidableEq, Repr

/-- A destination flow entry (R274); `via` is the port its last frame came in on. -/
structure DstFlow where
  src : Nat
  flow : Nat
  group : Option Nat
  o : BitVec 32
  e : BitVec 32
  skips : List (BitVec 32 × BitVec 32)
  heldFrames : List Frame
  heldSigs : List (Frame × Nat)
  commits : Nat
  ackDue : Bool
  rejected : List (BitVec 32)
  used : Nat
  via : Nat
  deriving DecidableEq, Repr

/-- A multicast branch at a replicator (R281, R282): the transfers it is pruned for (FLOW, TAG), the last MC_ACK of each
FLOW. -/
structure Branch where
  group : Nat
  port : Nat
  queue : List Frame
  pruned : List (Nat × Nat)
  lastAck : List (Nat × BitVec 32)
  deriving DecidableEq, Repr

/-- The Henxo engines in the hub. `mcWait` holds multicast frames that wait for room in the branch queues (R281): the
receiving port + 1 (0 at the source), the credit owed for the frame, and the frame. `mcAcked` holds the last MC_ACK of this
device's subtree for each group and FLOW (R281). `parked` are signals that wait in the receive buffers while the device holds
4,096 (R225): the port they came in on and the frame. `late` are requests of evicted source entries whose answer is awaited
(R273, R276): device, FLOW and the request. -/
structure Hnx where
  profile : Nat
  src : List SrcFlow
  dst : List DstFlow
  unopened : List Frame
  branches : List Branch
  v1Groups : List Nat
  busy : Bool
  mcWait : List (Nat × Nat × Frame)
  mcAcked : List (Nat × Nat × BitVec 32)
  parked : List (Nat × Frame)
  late : List (Nat × Nat × Sent)
  deriving DecidableEq, Repr

def Hnx.reset : Hnx where
  profile := 0
  src := []
  dst := []
  unopened := []
  branches := []
  v1Groups := []
  busy := false
  mcWait := []
  mcAcked := []
  parked := []
  late := []

/-! ## Rings, heaters, monitors (R288 to R327) -/

/-- TMP_RING_DATA.STATE. -/
inductive RingState where
  | off | searching | locked | parked | zeroHeld | relocking | deadUnparked
  deriving DecidableEq, Repr

/-- One ring. Signals are Q1.15 integers (R304); `rstar`, `r`, `v`, `a` are in units of 2⁻³¹ (R306). `cls` is the class
as written, `clsNow` and `bank` those its last inner sample used (R307). `atPass` and `temp` are the set-point (Q1.15) and
the PIC temperature (1/256 °C) at its last identity pass, or at parking (R295, R298). `excursion` is the t0 of a lock
excursion not yet checked (R300), `badSince` that of a run of bad read-backs (R327). `prevCode` is the code at a ramp's last
visit, the present one where the ramp has yet to read there; `inWindow` is when the lock error came into the comparator
window, `passed` whether the ring passed an identity round since it locked (R296). -/
structure Ring where
  cls : Nat
  clsNow : Nat
  st : RingState
  lockErr : Int
  code : Nat
  rstar : Int
  r : Int
  v : Int
  a : Int
  xi : List Int
  yi : List Int
  xo : List Int
  yo : List Int
  f : Int
  u : Int
  p : Int
  e : Option Int
  count : Nat
  bank : Nat
  errGain : Nat
  idFails : Nat
  wrongTimes : List Nat
  drop0 : Nat
  prevDrop : Nat
  prevCode : Nat
  rising : Bool
  maxima : List Nat
  goodSample : Nat
  masked : Bool
  fault : Nat
  lowReads : Nat
  shortReads : Nat
  badSince : Nat
  excursion : Option Nat
  temp : Int
  stopped : Bool
  atPass : Int
  marked : Bool
  inWindow : Option Nat
  passed : Bool
  deriving DecidableEq, Repr

def Ring.reset : Ring where
  cls := 0
  clsNow := 0
  st := .off
  lockErr := 0
  code := 0
  rstar := 0
  r := 0
  v := 0
  a := 0
  xi := [0, 0, 0]
  yi := [0, 0, 0]
  xo := [0, 0, 0]
  yo := [0, 0, 0]
  f := 0
  u := 0
  p := 0
  e := none
  count := 0
  bank := 0
  errGain := 0
  idFails := 0
  wrongTimes := []
  drop0 := 0
  prevDrop := 0
  prevCode := 0
  rising := false
  maxima := []
  goodSample := 0
  masked := false
  fault := 0
  lowReads := 0
  shortReads := 0
  badSince := 0
  excursion := none
  temp := 0
  stopped := false
  atPass := 0
  marked := false
  inWindow := none
  passed := false

/-- A code queue entry of a cluster (R314): its group, the target of each masked ring by its number in the group, the
span the codes were computed in, and the time it joined. -/
structure QEntry where
  group : Nat
  codes : Tbl Nat
  low : Bool
  joined : Nat
  deriving DecidableEq, Repr

/-- A heater tap of a ring (R315, R317): target, the span its target was computed in, applied code, driver output. -/
structure Tap where
  target : Nat
  low : Bool
  code : Nat
  out : Nat
  deriving DecidableEq, Repr

def Tap.reset : Tap where
  target := 0
  low := true
  code := 0
  out := 0

/-- One heater cluster (R313 to R321). `req` is true between a span request and the next tick (R318). -/
structure Cluster where
  high : Bool
  req : Bool
  hold : Bool
  wantHigh : Bool
  beforeHigh : Bool
  queue : List QEntry
  heldPush : List QEntry
  taps : Tbl Tap
  phase : BitVec 24
  ftw : Nat
  step : Nat
  rate : Nat
  tick : Nat
  amp : Nat
  dph : Nat
  den : Bool
  deriving DecidableEq, Repr

def Cluster.reset : Cluster where
  high := false
  req := false
  hold := false
  wantHigh := false
  beforeHigh := false
  queue := []
  heldPush := []
  taps := []
  phase := 0
  ftw := 68719
  step := 16
  rate := 1
  tick := 0
  amp := 8
  dph := 38
  den := true

/-- One monitor converter (R323 to R327): the ring it last accepted (R325), its drops, its reference channels out of
tolerance. -/
structure Conv where
  last : Nat
  drops : Nat
  refFault : List (Fin 4)
  deriving DecidableEq, Repr

def Conv.reset : Conv where
  last := 1023
  drops := 0
  refFault := []

/-- One trace channel (R312), newest entry first. -/
structure Trace where
  entries : List (Int × Nat)
  stopped : Bool
  remaining : Option Nat
  deriving DecidableEq, Repr

def Trace.reset : Trace where
  entries := []
  stopped := false
  remaining := none

/-! ## Power, thermal, clocks (R363 to R388) -/

/-- One temperature sensor (R377 to R381), in units of 1/256 °C: the last measured value (`has` false before any), the
reading used, why it is broken (`kind`, as THM_SENS_DATA.STATE encodes it), samples in a row that jumped, were far
from the median, or repeated a value, the range of each sensor of its domain over those repeats, samples in a row without
a broken condition, and whether it rose by more than 0.4 °C in the last interval. -/
structure Sensor where
  raw : Int
  has : Bool
  reading : Int
  kind : Nat
  jumps : Nat
  far : Nat
  same : Nat
  span : List (Int × Int)
  clean : Nat
  rose : Bool
  deriving DecidableEq, Repr

def Sensor.reset : Sensor where
  raw := 0
  has := false
  reading := 0
  kind := 0
  jumps := 0
  far := 0
  same := 0
  span := []
  clean := 0
  rose := false

/-- The power and thermal controllers of the hub. `avsWant` is a voltage whose write has not succeeded (R454); `trips`
counts a domain's samples in a row at its trip temperature, `levels` is its level against the thresholds of R427. -/
structure Power where
  limit : Nat
  samples : List Nat
  avg : Nat
  half : Bool
  avsMv : Nat
  avsWant : Option Nat
  avsAt : Option Nat
  trips : Tbl Nat
  levels : Tbl Nat
  throttling : Bool
  cool : Bool
  stepDue : Nat
  eightAt : Option Nat
  underAt : Option Nat
  tripLatched : Bool
  tripDomain : Nat
  tripSensor : Nat
  tripTime : Nat
  clkExt : Bool
  refOk : Bool
  unlocked : List Island
  deriving DecidableEq, Repr

def Power.reset : Power where
  limit := 0
  samples := []
  avg := 0
  half := false
  avsMv := 750
  avsWant := none
  avsAt := none
  trips := []
  levels := []
  throttling := false
  cool := false
  stepDue := 0
  eightAt := none
  underAt := none
  tripLatched := false
  tripDomain := 0
  tripSensor := 0
  tripTime := 0
  clkExt := false
  refOk := true
  unlocked := []

/-! ## Start, flash, journal (R343 to R362) -/

/-- Pins and rails as the board drives them (R384, R458). `perst` is true while PERST_N is asserted. -/
structure Pins where
  aux : Bool
  railsOk : Bool
  pwrOk : Bool
  perst : Bool
  deferred : Bool
  refArmed : Bool
  xspiReset : Bool
  deriving DecidableEq, Repr

/-- Where a start stands (NVM_START, R349 to R352). `on` is true while the device runs; `reread` during the
configuration re-read of a warm restart; `mgmtDown` from step 3 to the end of step 5 of a warm restart; `phase` the
part of the sequence that comes next (log entry 71), 0 for none. -/
structure Boot where
  on : Bool
  stage : Nat
  cause : Nat
  detail : Nat
  kind : Nat
  cfgFallback : Bool
  cfgSlot : Nat
  fwFallback : Bool
  fwSlot : Nat
  fwVersion : Word
  warmUs : Nat
  coldUs : Nat
  halt : Nat
  restarting : Bool
  reread : Bool
  mgmtDown : Bool
  afterHalt : Bool
  faultN : Bool
  wantFwSave : Bool
  outageFrom : Option Nat
  phase : Nat
  deriving DecidableEq, Repr

/-- Journal record types (R355). -/
inductive JKind where
  | snapBegin | snapEnd | event | configCommit | fwActivate | fence | fenceClear | laserBias | calCopy
  | sigFail | tokenAccept | tokenEnd | ownerEnrol | ownerRelease | svnCommit
  deriving DecidableEq, Repr

/-- A journal record (R354): sequence, type and payload words; `snap` marks a snapshot record. -/
structure JRec where
  seq : Nat
  kind : JKind
  payload : List Nat
  snap : Bool
  deriving DecidableEq, Repr

/-- The journal (R354 to R361). Lists are oldest first; `unwritten` holds appends not yet committed. -/
structure Journal where
  recs : List JRec
  other : List JRec
  unwritten : List JRec
  hold : List JRec
  half : Nat
  next : Nat
  erases0 : Nat
  erases1 : Nat
  compacting : Bool
  erasing : Bool
  lastCompact : Option Nat
  replayed : Nat
  torn : Nat
  tornIn : Nat
  windowOpen : Bool
  sensorBad : Bool
  flashTemp : Int
  hubMax : Int
  deriving DecidableEq, Repr

def Journal.reset : Journal where
  recs := []
  other := []
  unwritten := []
  hold := []
  half := 0
  next := 0
  erases0 := 0
  erases1 := 0
  compacting := false
  erasing := false
  lastCompact := none
  replayed := 0
  torn := 0
  tornIn := 0
  windowOpen := false
  sensorBad := false
  flashTemp := 0
  hubMax := 0

/-- What the flash device holds besides the journal (R343, R344). `calFolds` is the adapted sets of the copy in use, as
each lattice's folds (R331), `calOther` those of the other copy. -/
structure Flash where
  answers : Bool
  mib : Nat
  fwA : Option FwImage
  fwB : Option FwImage
  cfgA : Option CfgImage
  cfgB : Option CfgImage
  owner : Option (List Byte)
  calCopy : Nat
  calTime : Nat
  calBusy : Bool
  calFolds : List (List (Nat × Nat × Int))
  calOther : List (List (Nat × Nat × Int))
  deriving DecidableEq, Repr

/-! ## Security (R389 to R406) -/

/-- An active debug token (R400, R401). -/
structure Token where
  perms : BitVec 64
  expiry : Nat
  deriving DecidableEq, Repr

/-- The security block. `edKey`, `mlPublic` and `mlKey` are the identity keys that a start derives (R389). -/
structure Security where
  svn : Nat
  ownFuses : Nat
  nonce : Option (BitVec 256)
  nonceAt : Nat
  latched : List (BitVec 256)
  token : Option Token
  tokenResult : Nat
  buf : Tbl Byte
  verified : List (Word × List Byte)
  locked : Bool
  edKey : BitVec 256
  mlPublic : List Byte
  mlKey : List Byte
  deriving DecidableEq, Repr

def Security.reset : Security where
  svn := 0
  ownFuses := 0
  nonce := none
  nonceAt := 0
  latched := [0, 0, 0]
  token := none
  tokenResult := 0
  buf := []
  verified := []
  locked := false
  edKey := 0
  mlPublic := []
  mlKey := []

/-! ## Events and management (R407 to R430) -/

/-- An event-log entry (R419). -/
structure Event where
  time : Nat
  seq : Nat
  code : Nat
  severity : Nat
  plane : Nat
  unitKind : Nat
  unitId : Nat
  ctx : Nat
  params : List Nat
  deriving DecidableEq, Repr

/-- PLDM update states (MGT_STATUS.UPDATE). -/
inductive Update where
  | idle | learning | downloading | verifying | applying | ready
  deriving DecidableEq, Repr

/-- One SPDM connection (R403 to R405). -/
structure Spdm where
  versionGot : Bool
  capsGot : Bool
  negotiated : Bool
  signed : Bool
  large : List (BitVec 8)
  chunk : Nat
  deriving DecidableEq, Repr

def Spdm.reset : Spdm where
  versionGot := false
  capsGot := false
  negotiated := false
  signed := false
  large := []
  chunk := 0

/-- The management controller (R425 to R430). `telemetry` holds the last 10 ms sample of package power, L and EVT_AVAIL
(R14). -/
structure Mgmt where
  i3cAddr : BitVec 7
  eidI3c : BitVec 8
  eidVdm : BitVec 8
  update : Update
  agent : Option Nat
  component : Nat
  staged : Option Staged
  fwStaged : Bool
  spdm : List Spdm
  events : List Event
  states : List (Nat × Nat)
  telemetry : List Nat
  deriving DecidableEq, Repr

def Mgmt.reset : Mgmt where
  i3cAddr := 0
  eidI3c := 0
  eidVdm := 0
  update := .idle
  agent := none
  component := 0
  staged := none
  fwStaged := false
  spdm := [Spdm.reset, Spdm.reset, Spdm.reset]
  events := []
  states := []
  telemetry := [0, 0, 0]

/-- What the device answered to the last command that is answered. The MODEL's own field (log entry 5). -/
inductive Reply where
  | none
  | value (w : Word)
  | saturated (w : Word)
  | data (bytes : List Byte) (poison : Bool)
  | done
  | crs
  | notReady
  | error (code : Nat)
  deriving DecidableEq, Repr

/-- The latest burst a step issued on a lattice, for the lookback of R45, how many it issued there, and whether the step
is released (R121). -/
structure Issued where
  lat : Nat
  thread : Nat
  ctx : Nat
  uid : Nat
  time : Nat
  bursts : Nat
  released : Bool
  deriving DecidableEq, Repr

/-- The machine. -/
structure State where
  pending : List Instr
  free : Nat
  reply : Reply
  time : Nat
  pins : Pins
  boot : Boot
  cfg : Configuration
  cfgSeq : Nat
  flash : Flash
  jnl : Journal
  sec : Security
  log : List Event
  evHead : Nat
  flds : Tbl Word
  refusedAt : Tbl Nat
  mem : Tbl Byte
  hostMem : Tbl Byte
  poison : Tbl Bool
  wordErr : Tbl Bool
  feFull : Tbl Bool
  feOwner : Tbl Nat
  feOps : List FeOp
  lats : Tbl Lattice
  combs : Tbl Comb
  threads : Tbl Thread
  ctxs : Tbl Ctx
  entries : Tbl EntrySt
  admitQueue : List Nat
  issued : List Issued
  bays : Tbl Bay
  cxl : Cxl
  ports : Tbl Port
  hnx : Hnx
  rings : Tbl Ring
  coefs : Tbl Word
  clusters : Tbl Cluster
  convs : Tbl Conv
  traces : Tbl Trace
  power : Power
  sensors : Tbl Sensor
  mgmt : Mgmt
  deriving DecidableEq, Repr

/-- The machine right after reset: power is up and PERST_N is still asserted (the moment before PERST_N_DEASSERT),
every register field at its reset value (an unlisted field reads its reset value, `Machine/RegMap.lean`), an erased
flash device. DESIGN CHOICE: log entries 2, 3, 5, 6, 7, 8. -/
def State.reset : State where
  pending := []
  free := 0
  reply := .none
  time := 0
  pins := { aux := true, railsOk := true, pwrOk := true, perst := true, deferred := false, refArmed := true,
            xspiReset := true }
  boot := { on := false, stage := 0, cause := 0, detail := 0, kind := 0, cfgFallback := false, cfgSlot := 0,
            fwFallback := false, fwSlot := 0, fwVersion := 0, warmUs := 0, coldUs := 0, halt := 0,
            restarting := false, reread := false, mgmtDown := false, afterHalt := false, faultN := false,
            wantFwSave := false, outageFrom := none, phase := 0 }
  cfg := Configuration.unset
  cfgSeq := 0
  flash := { answers := true, mib := 512, fwA := none, fwB := none, cfgA := none, cfgB := none, owner := none,
             calCopy := 0, calTime := 0, calBusy := false,
             calFolds := [], calOther := [] }
  jnl := Journal.reset
  sec := Security.reset
  log := []
  evHead := 0
  flds := []
  refusedAt := []
  mem := []
  hostMem := []
  poison := []
  wordErr := []
  feFull := []
  feOwner := []
  feOps := []
  lats := []
  combs := []
  threads := []
  ctxs := []
  entries := []
  admitQueue := []
  issued := []
  bays := []
  cxl := Cxl.reset
  ports := []
  hnx := Hnx.reset
  rings := []
  coefs := []
  clusters := []
  convs := []
  traces := []
  power := Power.reset
  sensors := []
  mgmt := Mgmt.reset

end Sys2Proof.Machine
end

