-- ==== Sys2Proof/Machine/RegMap.lean ====
section
/-! DEFINITION. The register map (R431, R432, R443) and the field maps of every chapter: registers, their blocks and
offsets, and each field's place, access code (R6) and reset value (R7). -/

namespace Sys2Proof.Machine

/-- Register blocks of the block maps of R431 and R432. -/
inductive Block where
  | device | context | memoryMap | signalHold | cxl | henxo | fabricFault | port
  | power | thermal | clock | nvm | journal | calStore | security | event
  | management | comb | bay | sequencer | watch | temper | heater | monitor
  | cellar | lattice | rowCell | calibration | vector
  deriving DecidableEq, Repr

/-- Every register of the register index (R443); a numbered family (LAT_ROWMASK0 to LAT_ROWMASK7 and the like) is
one constructor with `subs` members. -/
inductive Reg where
  | latId | latCtrl | latState | latStatus | latRows | latEntryTime | latBursts
  | latSwaps | latSuspectCnt | latRewindCnt | latDemIndex | latDemData | latRowmask | latResid
  | latRange | latClipCnt | latFmtCnt | rowCtrl | rowOvfCnt | rowOvfCause | rowStatus
  | rowDrain | vecRedCnt | latSkipSlots | latSkipPlanes | vecRouteCnt | vecGateCnt | vecExitCnt
  | ctxSummary0 | ctxSummary1 | ctxSel | ctxData | ctxEventCnt | seqStatus | seqIssueCnt
  | seqGrantCnt | seqStreams | seqSpill | seqSpillTime | bayLarderCtrl | bayLarderHits | bayLarderMisses
  | bayLarderEvents | bayLarderInval | celEccCnt | celUeAddr | celPoison | celScrubStatus | bayCelScrubCtrl
  | bayPantryEcc | bayFeStatus | celMapHost | celMapStore | celMapAttic | celMapWin | wchSlots
  | wchWaiters | wchWake | wchEventCnt | wchSel | wchSlotData | wchSlotOwner | wchHoldCtrl
  | wchHoldStatus | wchHoldCnt | seqGov | cxlLinkStatus | cxlLinkCnt | cxlHdmStatus | cxlHdmCtrl
  | cxlHdmCnt | cxlCacheStatus | cxlDiagCtrl | cxlInjCtrl | hnxPortCtrl | hnxPortStatus | hnxLaneCnt
  | hnxRetryCnt | hnxCredits0 | hnxCredits1 | hnxTxFrames | hnxRxFrames | hnxPortEvt | hnxId
  | hnxFlowStatus | hnxFlowCnt | hnxMcCtrl | hnxMcCnt | hnxPmapCtrl | hnxPmapStatus | fltHnxCtrl
  | fltHnxCnt | tmpCtrl | tmpStatus | tmpEventCnt | tmpBankActive | tmpBankSwap | tmpBankBusy
  | tmpCoefSel | tmpCoefData | tmpRingSel | tmpRingData | tmpTraceCtrl | tmpTraceSel | tmpTraceData
  | tmpCombStatus | tmpCombLine | tmpCombEvents | htrSel | htrCluster | htrRing | htrEventCnt
  | monSel | monConv | monWin | monTest | calCtrl | calStatus | calDebt
  | calForcedCnt | calEventCnt | calConverged | calStoreCtrl | calStoreStatus | nvmStart | nvmStartTime
  | nvmCtrl | nvmCfg | nvmCfgPending | nvmTemp | jnlStatus | jnlSeq | jnlHold
  | jnlWear | jnlReplay | jnlCtrl | pwrLimit | pwrPkg | pwrEventCnt | pwrBayCtrl
  | pwrBayStatus | pwrProofCnt | thmStatus | thmPkg | thmDomSel | thmDomData | thmSensData
  | thmTrip | clkStatus | clkRef | secLock | secStatus | secNonce | secTokenCtrl
  | secTokenStatus | secFailCnt | secTokenBuf | evtHead | evtSel | evtAlert | evtAvail
  | evtAvailWarn | evtErrCnt | evtEntry | mgtStatus | mgtFenceCtrl | mgtStepSel | mgtStepExt
  | devVendor | devDevice | devRevision | devSerial | devFwVersion | devCap0 | devCap1
  | devTime | devStatus | devStatusChg | devStatusMask | devRefused | devScratch
  deriving DecidableEq, Repr

/-- Access codes of R6. -/
inductive Access where
  | ro | rw | w1c | wo | rwl
  deriving DecidableEq, Repr

/-- Reset domains of R7; `set` for a field the device writes during a start (reset column "—"). -/
inductive Domain where
  | cold | warm | ctx | set
  deriving DecidableEq, Repr

/-- A field of a register. `sel` marks a selector, which holds a value for each path (R435). -/
structure Fld where
  reg : Reg
  lo : Nat
  width : Nat
  acc : Access
  reset : Nat
  dom : Domain
  sel : Bool
  deriving DecidableEq, Repr


/-! Fields of 02_lattices.md. -/

/-- LAT_ID.HONEYCOMB[11:8] (R53); RO, reset lattice number (C). -/
def Fld.latIdHoneycomb : Fld := ⟨.latId, 8, 4, .ro, 0, .cold, false⟩
/-- LAT_ID.BAY[7:4] (R53); RO, reset bay number (C). -/
def Fld.latIdBay : Fld := ⟨.latId, 4, 4, .ro, 0, .cold, false⟩
/-- LAT_ID.LATTICE[3:0] (R53); RO, reset lattice number (C). -/
def Fld.latIdLattice : Fld := ⟨.latId, 0, 4, .ro, 0, .cold, false⟩
/-- LAT_CTRL.FENCE_REQ[4:4] (R53); WO, reset 0 (W). -/
def Fld.latCtrlFenceReq : Fld := ⟨.latCtrl, 4, 1, .wo, 0, .warm, false⟩
/-- LAT_CTRL.KEEP_LIT[1:1] (R53); RW, reset 1 (W). -/
def Fld.latCtrlKeepLit : Fld := ⟨.latCtrl, 1, 1, .rw, 1, .warm, false⟩
/-- LAT_CTRL.EN[0:0] (R53); RW, reset value from configuration (W). -/
def Fld.latCtrlEn : Fld := ⟨.latCtrl, 0, 1, .rw, 0, .warm, false⟩
/-- LAT_STATE.CAUSE[39:32] (R53); RO, reset —. -/
def Fld.latStateCause : Fld := ⟨.latState, 32, 8, .ro, 0, .set, false⟩
/-- LAT_STATE.TARGET[23:20] (R53); RO, reset —. -/
def Fld.latStateTarget : Fld := ⟨.latState, 20, 4, .ro, 0, .set, false⟩
/-- LAT_STATE.PHASE[19:16] (R53); RO, reset —. -/
def Fld.latStatePhase : Fld := ⟨.latState, 16, 4, .ro, 0, .set, false⟩
/-- LAT_STATE.STATE[3:0] (R53); RO, reset —. -/
def Fld.latStateState : Fld := ⟨.latState, 0, 4, .ro, 0, .set, false⟩
/-- LAT_STATUS.SUSPECT_NOW[36:32] (R53); RO, reset 0 (W). -/
def Fld.latStatusSuspectNow : Fld := ⟨.latStatus, 32, 5, .ro, 0, .warm, false⟩
/-- LAT_STATUS.CAL_STALE[15:15] (R53); RO, reset 0 (W). -/
def Fld.latStatusCalStale : Fld := ⟨.latStatus, 15, 1, .ro, 0, .warm, false⟩
/-- LAT_STATUS.SPLIT_ACTIVE[14:14] (R53); RO, reset 0 (W). -/
def Fld.latStatusSplitActive : Fld := ⟨.latStatus, 14, 1, .ro, 0, .warm, false⟩
/-- LAT_STATUS.PATCH_FULL[13:13] (R53); RO, reset 0 (C). -/
def Fld.latStatusPatchFull : Fld := ⟨.latStatus, 13, 1, .ro, 0, .cold, false⟩
/-- LAT_ROWS.PATCHED[46:40] (R53); RO, reset 0 (C). -/
def Fld.latRowsPatched : Fld := ⟨.latRows, 40, 7, .ro, 0, .cold, false⟩
/-- LAT_ROWS.DEAD[26:16] (R53); RO, reset 0 (C). -/
def Fld.latRowsDead : Fld := ⟨.latRows, 16, 11, .ro, 0, .cold, false⟩
/-- LAT_ROWS.AVAIL[9:0] (R53); RO, reset 512 (C). -/
def Fld.latRowsAvail : Fld := ⟨.latRows, 0, 10, .ro, 0x200, .cold, false⟩
/-- LAT_ENTRY_TIME.TIME[63:0] (R53); RO, reset 0 (C). -/
def Fld.latEntryTimeTime : Fld := ⟨.latEntryTime, 0, 64, .ro, 0, .cold, false⟩
/-- LAT_BURSTS.COUNT[63:0] (R53); RO, reset 0 (C). -/
def Fld.latBurstsCount : Fld := ⟨.latBursts, 0, 64, .ro, 0, .cold, false⟩
/-- LAT_SWAPS.COUNT[63:0] (R53); RO, reset 0 (C). -/
def Fld.latSwapsCount : Fld := ⟨.latSwaps, 0, 64, .ro, 0, .cold, false⟩
/-- LAT_SUSPECT_CNT.ENTRIES[63:32] (R53); RO, reset 0 (C). -/
def Fld.latSuspectCntEntries : Fld := ⟨.latSuspectCnt, 32, 32, .ro, 0, .cold, false⟩
/-- LAT_SUSPECT_CNT.REPEATS[31:0] (R53); RO, reset 0 (C). -/
def Fld.latSuspectCntRepeats : Fld := ⟨.latSuspectCnt, 0, 32, .ro, 0, .cold, false⟩
/-- LAT_REWIND_CNT.LATE[63:32] (R53); RO, reset 0 (C). -/
def Fld.latRewindCntLate : Fld := ⟨.latRewindCnt, 32, 32, .ro, 0, .cold, false⟩
/-- LAT_REWIND_CNT.REWINDS[31:0] (R53); RO, reset 0 (C). -/
def Fld.latRewindCntRewinds : Fld := ⟨.latRewindCnt, 0, 32, .ro, 0, .cold, false⟩
/-- LAT_DEM_INDEX.INDEX[9:0] (R53); RW, reset 0 (W). -/
def Fld.latDemIndexIndex : Fld := ⟨.latDemIndex, 0, 10, .rw, 0, .warm, true⟩
/-- LAT_DEM_DATA.PARK_W[55:48] (R53); RO, reset 0 (C). -/
def Fld.latDemDataParkW : Fld := ⟨.latDemData, 48, 8, .ro, 0, .cold, false⟩
/-- LAT_DEM_DATA.KIND[43:40] (R53); RO, reset 0 (C). -/
def Fld.latDemDataKind : Fld := ⟨.latDemData, 40, 4, .ro, 0, .cold, false⟩
/-- LAT_DEM_DATA.HANDLING[35:34] (R53); RO, reset 0 (C). -/
def Fld.latDemDataHandling : Fld := ⟨.latDemData, 34, 2, .ro, 0, .cold, false⟩
/-- LAT_DEM_DATA.ROW[16:8] (R53); RO, reset 0 (C). -/
def Fld.latDemDataRow : Fld := ⟨.latDemData, 8, 9, .ro, 0, .cold, false⟩
/-- LAT_DEM_DATA.COLUMN[7:0] (R53); RO, reset 0 (C). -/
def Fld.latDemDataColumn : Fld := ⟨.latDemData, 0, 8, .ro, 0, .cold, false⟩
/-- LAT_ROWMASK.MASK[63:0] (R53); RO, reset 0 (C). -/
def Fld.latRowmaskMask : Fld := ⟨.latRowmask, 0, 64, .ro, 0, .cold, false⟩

/-! Fields of 03_formats_numerics.md. -/

/-- LAT_RESID.PEAK[47:32] (R75); RO, reset 0 (W). -/
def Fld.latResidPeak : Fld := ⟨.latResid, 32, 16, .ro, 0, .warm, false⟩
/-- LAT_RESID.BIAS[31:16] (R75); RO, reset 0 (W). -/
def Fld.latResidBias : Fld := ⟨.latResid, 16, 16, .ro, 0, .warm, false⟩
/-- LAT_RESID.RMS[15:0] (R75); RO, reset 0 (W). -/
def Fld.latResidRms : Fld := ⟨.latResid, 0, 16, .ro, 0, .warm, false⟩
/-- LAT_RANGE.AUTO[16:16] (R75); RO, reset 0 (W). -/
def Fld.latRangeAuto : Fld := ⟨.latRange, 16, 1, .ro, 0, .warm, false⟩
/-- LAT_RANGE.LL[15:12] (R75); RO, reset 8 (W). -/
def Fld.latRangeLl : Fld := ⟨.latRange, 12, 4, .ro, 8, .warm, false⟩
/-- LAT_RANGE.HL[11:8] (R75); RO, reset 8 (W). -/
def Fld.latRangeHl : Fld := ⟨.latRange, 8, 4, .ro, 8, .warm, false⟩
/-- LAT_RANGE.LH[7:4] (R75); RO, reset 8 (W). -/
def Fld.latRangeLh : Fld := ⟨.latRange, 4, 4, .ro, 8, .warm, false⟩
/-- LAT_RANGE.HH[3:0] (R75); RO, reset 8 (W). -/
def Fld.latRangeHh : Fld := ⟨.latRange, 0, 4, .ro, 8, .warm, false⟩
/-- LAT_CLIP_CNT.COUNT[63:0] (R75); RO, reset 0 (C). -/
def Fld.latClipCntCount : Fld := ⟨.latClipCnt, 0, 64, .ro, 0, .cold, false⟩
/-- LAT_FMT_CNT.ALIGN[63:32] (R75); RO, reset 0 (C). -/
def Fld.latFmtCntAlign : Fld := ⟨.latFmtCnt, 32, 32, .ro, 0, .cold, false⟩
/-- LAT_FMT_CNT.NONFINITE[31:0] (R75); RO, reset 0 (C). -/
def Fld.latFmtCntNonfinite : Fld := ⟨.latFmtCnt, 0, 32, .ro, 0, .cold, false⟩

/-! Fields of 04_accumulation.md. -/

/-- ROW_CTRL.SR_FIXED[0:0] (R83); RW, reset 0 (W). -/
def Fld.rowCtrlSrFixed : Fld := ⟨.rowCtrl, 0, 1, .rw, 0, .warm, false⟩
/-- ROW_OVF_CNT.FAULTS[63:32] (R88); RO, reset 0 (C). -/
def Fld.rowOvfCntFaults : Fld := ⟨.rowOvfCnt, 32, 32, .ro, 0, .cold, false⟩
/-- ROW_OVF_CNT.REPEATS[31:0] (R88); RO, reset 0 (C). -/
def Fld.rowOvfCntRepeats : Fld := ⟨.rowOvfCnt, 0, 32, .ro, 0, .cold, false⟩
/-- ROW_OVF_CAUSE.INF[47:32] (R88); RO, reset 0 (C). -/
def Fld.rowOvfCauseInf : Fld := ⟨.rowOvfCause, 32, 16, .ro, 0, .cold, false⟩
/-- ROW_OVF_CAUSE.INT[31:16] (R88); RO, reset 0 (C). -/
def Fld.rowOvfCauseInt : Fld := ⟨.rowOvfCause, 16, 16, .ro, 0, .cold, false⟩
/-- ROW_OVF_CAUSE.CLIP[15:0] (R88); RO, reset 0 (C). -/
def Fld.rowOvfCauseClip : Fld := ⟨.rowOvfCause, 0, 16, .ro, 0, .cold, false⟩
/-- ROW_STATUS.HOLD_ACTIVE[63:63] (R90); RO, reset 0 (W). -/
def Fld.rowStatusHoldActive : Fld := ⟨.rowStatus, 63, 1, .ro, 0, .warm, false⟩
/-- ROW_STATUS.HOLD_CTX[59:48] (R90); RO, reset 0 (W). -/
def Fld.rowStatusHoldCtx : Fld := ⟨.rowStatus, 48, 12, .ro, 0, .warm, false⟩
/-- ROW_STATUS.PEND_REP[39:32] (R90); RO, reset 0 (W). -/
def Fld.rowStatusPendRep : Fld := ⟨.rowStatus, 32, 8, .ro, 0, .warm, false⟩
/-- ROW_STATUS.INFLIGHT[9:0] (R90); RO, reset 0 (W). -/
def Fld.rowStatusInflight : Fld := ⟨.rowStatus, 0, 10, .ro, 0, .warm, false⟩
/-- ROW_DRAIN.LOST[63:32] (R90); RO, reset 0 (C). -/
def Fld.rowDrainLost : Fld := ⟨.rowDrain, 32, 32, .ro, 0, .cold, false⟩
/-- ROW_DRAIN.MAX_NS[31:16] (R90); RO, reset 0 (W). -/
def Fld.rowDrainMaxNs : Fld := ⟨.rowDrain, 16, 16, .ro, 0, .warm, false⟩
/-- ROW_DRAIN.LAST_NS[15:0] (R90); RO, reset 0 (W). -/
def Fld.rowDrainLastNs : Fld := ⟨.rowDrain, 0, 16, .ro, 0, .warm, false⟩
/-- VEC_RED_CNT.OVF[63:32] (R94); RO, reset 0 (C). -/
def Fld.vecRedCntOvf : Fld := ⟨.vecRedCnt, 32, 32, .ro, 0, .cold, false⟩
/-- VEC_RED_CNT.DONE[31:0] (R94); RO, reset 0 (C). -/
def Fld.vecRedCntDone : Fld := ⟨.vecRedCnt, 0, 32, .ro, 0, .cold, false⟩

/-! Fields of 05_sparsity_conditional.md. -/

/-- LAT_SKIP_SLOTS.SLOTS[63:0] (R115); RO, reset 0 (C). -/
def Fld.latSkipSlotsSlots : Fld := ⟨.latSkipSlots, 0, 64, .ro, 0, .cold, false⟩
/-- LAT_SKIP_PLANES.ABSENT[63:32] (R115); RO, reset 0 (C). -/
def Fld.latSkipPlanesAbsent : Fld := ⟨.latSkipPlanes, 32, 32, .ro, 0, .cold, false⟩
/-- LAT_SKIP_PLANES.SKIPPED[31:0] (R115); RO, reset 0 (C). -/
def Fld.latSkipPlanesSkipped : Fld := ⟨.latSkipPlanes, 0, 32, .ro, 0, .cold, false⟩
/-- VEC_ROUTE_CNT.DROPPED[63:32] (R115); RO, reset 0 (C). -/
def Fld.vecRouteCntDropped : Fld := ⟨.vecRouteCnt, 32, 32, .ro, 0, .cold, false⟩
/-- VEC_ROUTE_CNT.STEPS[31:0] (R115); RO, reset 0 (C). -/
def Fld.vecRouteCntSteps : Fld := ⟨.vecRouteCnt, 0, 32, .ro, 0, .cold, false⟩
/-- VEC_GATE_CNT.OVER[63:32] (R115); RO, reset 0 (C). -/
def Fld.vecGateCntOver : Fld := ⟨.vecGateCnt, 32, 32, .ro, 0, .cold, false⟩
/-- VEC_GATE_CNT.STEPS[31:0] (R115); RO, reset 0 (C). -/
def Fld.vecGateCntSteps : Fld := ⟨.vecGateCnt, 0, 32, .ro, 0, .cold, false⟩
/-- VEC_EXIT_CNT.EXITED[63:32] (R115); RO, reset 0 (C). -/
def Fld.vecExitCntExited : Fld := ⟨.vecExitCnt, 32, 32, .ro, 0, .cold, false⟩
/-- VEC_EXIT_CNT.STEPS[31:0] (R115); RO, reset 0 (C). -/
def Fld.vecExitCntSteps : Fld := ⟨.vecExitCnt, 0, 32, .ro, 0, .cold, false⟩

/-! Fields of 06_recipes_threads_contexts.md. -/

/-- CTX_SUMMARY0.WAITING[60:48] (R151); RO, reset 0 (C). -/
def Fld.ctxSummary0Waiting : Fld := ⟨.ctxSummary0, 48, 13, .ro, 0, .cold, false⟩
/-- CTX_SUMMARY0.RUNNING[44:32] (R151); RO, reset 0 (C). -/
def Fld.ctxSummary0Running : Fld := ⟨.ctxSummary0, 32, 13, .ro, 0, .cold, false⟩
/-- CTX_SUMMARY0.BOUND[28:16] (R151); RO, reset 0 (C). -/
def Fld.ctxSummary0Bound : Fld := ⟨.ctxSummary0, 16, 13, .ro, 0, .cold, false⟩
/-- CTX_SUMMARY0.FREE[12:0] (R151); RO, reset 4,096 (C). -/
def Fld.ctxSummary0Free : Fld := ⟨.ctxSummary0, 0, 13, .ro, 0x1000, .cold, false⟩
/-- CTX_SUMMARY1.ADMIT_WAIT[44:32] (R151); RO, reset 0 (W). -/
def Fld.ctxSummary1AdmitWait : Fld := ⟨.ctxSummary1, 32, 13, .ro, 0, .warm, false⟩
/-- CTX_SUMMARY1.FAULTED[28:16] (R151); RO, reset 0 (C). -/
def Fld.ctxSummary1Faulted : Fld := ⟨.ctxSummary1, 16, 13, .ro, 0, .cold, false⟩
/-- CTX_SUMMARY1.DRAINING[12:0] (R151); RO, reset 0 (W). -/
def Fld.ctxSummary1Draining : Fld := ⟨.ctxSummary1, 0, 13, .ro, 0, .warm, false⟩
/-- CTX_SEL.WORD[20:16] (R151); RW, reset 0 (W). -/
def Fld.ctxSelWord : Fld := ⟨.ctxSel, 16, 5, .rw, 0, .warm, true⟩
/-- CTX_SEL.CONTEXT[11:0] (R151); RW, reset 0 (W). -/
def Fld.ctxSelContext : Fld := ⟨.ctxSel, 0, 12, .rw, 0, .warm, true⟩
/-- CTX_DATA.DATA[63:0] (R151); RO, reset 0 (W). -/
def Fld.ctxDataData : Fld := ⟨.ctxData, 0, 64, .ro, 0, .warm, false⟩
/-- CTX_EVENT_CNT.FAULTS[63:32] (R151); RO, reset 0 (C). -/
def Fld.ctxEventCntFaults : Fld := ⟨.ctxEventCnt, 32, 32, .ro, 0, .cold, false⟩
/-- CTX_EVENT_CNT.LEASES[31:16] (R151); RO, reset 0 (C). -/
def Fld.ctxEventCntLeases : Fld := ⟨.ctxEventCnt, 16, 16, .ro, 0, .cold, false⟩
/-- CTX_EVENT_CNT.REFUSED[15:0] (R151); RO, reset 0 (C). -/
def Fld.ctxEventCntRefused : Fld := ⟨.ctxEventCnt, 0, 16, .ro, 0, .cold, false⟩
/-- SEQ_STATUS.CACHED[38:32] (R151); RO, reset 0 (W). -/
def Fld.seqStatusCached : Fld := ⟨.seqStatus, 32, 7, .ro, 0, .warm, false⟩
/-- SEQ_STATUS.IDLE[31:24] (R151); RO, reset 128 (W). -/
def Fld.seqStatusIdle : Fld := ⟨.seqStatus, 24, 8, .ro, 0x80, .warm, false⟩
/-- SEQ_STATUS.WAITING[23:16] (R151); RO, reset 0 (W). -/
def Fld.seqStatusWaiting : Fld := ⟨.seqStatus, 16, 8, .ro, 0, .warm, false⟩
/-- SEQ_STATUS.STALLED[15:8] (R151); RO, reset 0 (W). -/
def Fld.seqStatusStalled : Fld := ⟨.seqStatus, 8, 8, .ro, 0, .warm, false⟩
/-- SEQ_STATUS.READY[7:0] (R151); RO, reset 0 (W). -/
def Fld.seqStatusReady : Fld := ⟨.seqStatus, 0, 8, .ro, 0, .warm, false⟩
/-- SEQ_ISSUE_CNT.STEPS[63:0] (R151); RO, reset 0 (C). -/
def Fld.seqIssueCntSteps : Fld := ⟨.seqIssueCnt, 0, 64, .ro, 0, .cold, false⟩
/-- SEQ_GRANT_CNT.YIELDS[63:32] (R151); RO, reset 0 (C). -/
def Fld.seqGrantCntYields : Fld := ⟨.seqGrantCnt, 32, 32, .ro, 0, .cold, false⟩
/-- SEQ_GRANT_CNT.IDLE_BURSTS[31:0] (R151); RO, reset 0 (C). -/
def Fld.seqGrantCntIdleBursts : Fld := ⟨.seqGrantCnt, 0, 32, .ro, 0, .cold, false⟩

/-! Fields of 07_stencils_larder.md. -/

/-- SEQ_STREAMS.POOL_KIB[47:32] (R178); RO, reset 0 (W). -/
def Fld.seqStreamsPoolKib : Fld := ⟨.seqStreams, 32, 16, .ro, 0, .warm, false⟩
/-- SEQ_STREAMS.BLOCKED[22:16] (R178); RO, reset 0 (W). -/
def Fld.seqStreamsBlocked : Fld := ⟨.seqStreams, 16, 7, .ro, 0, .warm, false⟩
/-- SEQ_STREAMS.ACTIVE[6:0] (R178); RO, reset 0 (W). -/
def Fld.seqStreamsActive : Fld := ⟨.seqStreams, 0, 7, .ro, 0, .warm, false⟩
/-- SEQ_SPILL.MIB[63:32] (R178); RO, reset 0 (C). -/
def Fld.seqSpillMib : Fld := ⟨.seqSpill, 32, 32, .ro, 0, .cold, false⟩
/-- SEQ_SPILL.EVENTS[31:0] (R178); RO, reset 0 (C). -/
def Fld.seqSpillEvents : Fld := ⟨.seqSpill, 0, 32, .ro, 0, .cold, false⟩
/-- SEQ_SPILL_TIME.TIME[63:0] (R178); RO, reset 0 (C). -/
def Fld.seqSpillTimeTime : Fld := ⟨.seqSpillTime, 0, 64, .ro, 0, .cold, false⟩
/-- BAY_LARDER_CTRL.FLUSH[8:8] (R178); WO, reset 0 (W). -/
def Fld.bayLarderCtrlFlush : Fld := ⟨.bayLarderCtrl, 8, 1, .wo, 0, .warm, false⟩
/-- BAY_LARDER_CTRL.PROT_WAYS[3:0] (R178); RW, reset 8 (W). -/
def Fld.bayLarderCtrlProtWays : Fld := ⟨.bayLarderCtrl, 0, 4, .rw, 8, .warm, false⟩
/-- BAY_LARDER_HITS.LINES[63:0] (R178); RO, reset 0 (C). -/
def Fld.bayLarderHitsLines : Fld := ⟨.bayLarderHits, 0, 64, .ro, 0, .cold, false⟩
/-- BAY_LARDER_MISSES.LINES[63:0] (R178); RO, reset 0 (C). -/
def Fld.bayLarderMissesLines : Fld := ⟨.bayLarderMisses, 0, 64, .ro, 0, .cold, false⟩
/-- BAY_LARDER_EVENTS.MERGED[63:32] (R178); RO, reset 0 (C). -/
def Fld.bayLarderEventsMerged : Fld := ⟨.bayLarderEvents, 32, 32, .ro, 0, .cold, false⟩
/-- BAY_LARDER_EVENTS.ECC_REFETCH[31:16] (R178); RO, reset 0 (C). -/
def Fld.bayLarderEventsEccRefetch : Fld := ⟨.bayLarderEvents, 16, 16, .ro, 0, .cold, false⟩
/-- BAY_LARDER_EVENTS.ECC_CORR[15:0] (R178); RO, reset 0 (C). -/
def Fld.bayLarderEventsEccCorr : Fld := ⟨.bayLarderEvents, 0, 16, .ro, 0, .cold, false⟩
/-- BAY_LARDER_INVAL.LINES[63:0] (R178); RO, reset 0 (C). -/
def Fld.bayLarderInvalLines : Fld := ⟨.bayLarderInval, 0, 64, .ro, 0, .cold, false⟩

/-! Fields of 08_cellar_pantry.md. -/

/-- CEL_ECC_CNT.CORR[63:32] (R200); RO, reset 0 (C). -/
def Fld.celEccCntCorr : Fld := ⟨.celEccCnt, 32, 32, .ro, 0, .cold, false⟩
/-- CEL_ECC_CNT.UNCORR[31:16] (R200); RO, reset 0 (C). -/
def Fld.celEccCntUncorr : Fld := ⟨.celEccCnt, 16, 16, .ro, 0, .cold, false⟩
/-- CEL_ECC_CNT.LINK_RETRY[15:0] (R200); RO, reset 0 (C). -/
def Fld.celEccCntLinkRetry : Fld := ⟨.celEccCnt, 0, 16, .ro, 0, .cold, false⟩
/-- CEL_UE_ADDR.SOURCE[63:62] (R200); RO, reset 0 (C). -/
def Fld.celUeAddrSource : Fld := ⟨.celUeAddr, 62, 2, .ro, 0, .cold, false⟩
/-- CEL_UE_ADDR.LINE[47:6] (R200); RO, reset 0 (C). -/
def Fld.celUeAddrLine : Fld := ⟨.celUeAddr, 6, 42, .ro, 0, .cold, false⟩
/-- CEL_POISON.LINES[31:0] (R200); RO, reset 0 (C). -/
def Fld.celPoisonLines : Fld := ⟨.celPoison, 0, 32, .ro, 0, .cold, false⟩
/-- CEL_SCRUB_STATUS.PASSES[63:32] (R200); RO, reset 0 (C). -/
def Fld.celScrubStatusPasses : Fld := ⟨.celScrubStatus, 32, 32, .ro, 0, .cold, false⟩
/-- CEL_SCRUB_STATUS.REFRESH_2X[17:17] (R200); RO, reset 0 (C). -/
def Fld.celScrubStatusRefresh2x : Fld := ⟨.celScrubStatus, 17, 1, .ro, 0, .cold, false⟩
/-- CEL_SCRUB_STATUS.FORCED[16:16] (R200); RO, reset 0 (C). -/
def Fld.celScrubStatusForced : Fld := ⟨.celScrubStatus, 16, 1, .ro, 0, .cold, false⟩
/-- CEL_SCRUB_STATUS.PROGRESS[15:0] (R200); RO, reset 0 (C). -/
def Fld.celScrubStatusProgress : Fld := ⟨.celScrubStatus, 0, 16, .ro, 0, .cold, false⟩
/-- BAY_CEL_SCRUB_CTRL.PASS_H[4:0] (R200); RW, reset 6 (W). -/
def Fld.bayCelScrubCtrlPassH : Fld := ⟨.bayCelScrubCtrl, 0, 5, .rw, 6, .warm, false⟩
/-- BAY_PANTRY_ECC.CORR[63:32] (R200); RO, reset 0 (C). -/
def Fld.bayPantryEccCorr : Fld := ⟨.bayPantryEcc, 32, 32, .ro, 0, .cold, false⟩
/-- BAY_PANTRY_ECC.UNCORR[31:0] (R200); RO, reset 0 (C). -/
def Fld.bayPantryEccUncorr : Fld := ⟨.bayPantryEcc, 0, 32, .ro, 0, .cold, false⟩
/-- BAY_FE_STATUS.WAITING[40:32] (R200); RO, reset 0 (W). -/
def Fld.bayFeStatusWaiting : Fld := ⟨.bayFeStatus, 32, 9, .ro, 0, .warm, false⟩
/-- BAY_FE_STATUS.WORDS[17:0] (R200); RO, reset configuration (W). -/
def Fld.bayFeStatusWords : Fld := ⟨.bayFeStatus, 0, 18, .ro, 0, .warm, false⟩
/-- CEL_MAP_HOST.HOST_GIB[8:0] (R200); RO, reset configuration (W). -/
def Fld.celMapHostHostGib : Fld := ⟨.celMapHost, 0, 9, .ro, 0, .warm, false⟩
/-- CEL_MAP_STORE.TABLES[63:32] (R200); RO, reset configuration (W). -/
def Fld.celMapStoreTables : Fld := ⟨.celMapStore, 32, 32, .ro, 0, .warm, false⟩
/-- CEL_MAP_STORE.USED[31:0] (R200); RO, reset 0 (W). -/
def Fld.celMapStoreUsed : Fld := ⟨.celMapStore, 0, 32, .ro, 0, .warm, false⟩
/-- CEL_MAP_ATTIC.PAGES[63:32] (R200); RO, reset configuration (W). -/
def Fld.celMapAtticPages : Fld := ⟨.celMapAttic, 32, 32, .ro, 0, .warm, false⟩
/-- CEL_MAP_ATTIC.FREE[31:0] (R200); RO, reset configuration (W). -/
def Fld.celMapAtticFree : Fld := ⟨.celMapAttic, 0, 32, .ro, 0, .warm, false⟩
/-- CEL_MAP_WIN.REJECTS[63:32] (R200); RO, reset 0 (C). -/
def Fld.celMapWinRejects : Fld := ⟨.celMapWin, 32, 32, .ro, 0, .cold, false⟩
/-- CEL_MAP_WIN.DECLARED[15:0] (R200); RO, reset configuration (W). -/
def Fld.celMapWinDeclared : Fld := ⟨.celMapWin, 0, 16, .ro, 0, .warm, false⟩

/-! Fields of 09_synchronization.md. -/

/-- WCH_SLOTS.POLLED[46:32] (R226); RO, reset 0 (W). -/
def Fld.wchSlotsPolled : Fld := ⟨.wchSlots, 32, 15, .ro, 0, .warm, false⟩
/-- WCH_SLOTS.USED[29:16] (R226); RO, reset 0 (W). -/
def Fld.wchSlotsUsed : Fld := ⟨.wchSlots, 16, 14, .ro, 0, .warm, false⟩
/-- WCH_SLOTS.READY_USED[7:0] (R226); RO, reset 0 (W). -/
def Fld.wchSlotsReadyUsed : Fld := ⟨.wchSlots, 0, 8, .ro, 0, .warm, false⟩
/-- WCH_WAITERS.GATED[8:8] (R226); RO, reset 0 (W). -/
def Fld.wchWaitersGated : Fld := ⟨.wchWaiters, 8, 1, .ro, 0, .warm, false⟩
/-- WCH_WAITERS.THREADS[7:0] (R226); RO, reset 0 (W). -/
def Fld.wchWaitersThreads : Fld := ⟨.wchWaiters, 0, 8, .ro, 0, .warm, false⟩
/-- WCH_WAKE.MAX_NS[31:16] (R226); RO, reset 0 (W). -/
def Fld.wchWakeMaxNs : Fld := ⟨.wchWake, 16, 16, .ro, 0, .warm, false⟩
/-- WCH_WAKE.LAST_NS[15:0] (R226); RO, reset 0 (W). -/
def Fld.wchWakeLastNs : Fld := ⟨.wchWake, 0, 16, .ro, 0, .warm, false⟩
/-- WCH_EVENT_CNT.UND[63:48] (R226); RO, reset 0 (C). -/
def Fld.wchEventCntUnd : Fld := ⟨.wchEventCnt, 48, 16, .ro, 0, .cold, false⟩
/-- WCH_EVENT_CNT.SAT[47:32] (R226); RO, reset 0 (C). -/
def Fld.wchEventCntSat : Fld := ⟨.wchEventCnt, 32, 16, .ro, 0, .cold, false⟩
/-- WCH_EVENT_CNT.SHORT[31:16] (R226); RO, reset 0 (C). -/
def Fld.wchEventCntShort : Fld := ⟨.wchEventCnt, 16, 16, .ro, 0, .cold, false⟩
/-- WCH_EVENT_CNT.TIMEOUTS[15:0] (R226); RO, reset 0 (C). -/
def Fld.wchEventCntTimeouts : Fld := ⟨.wchEventCnt, 0, 16, .ro, 0, .cold, false⟩
/-- WCH_SEL.SLOT[13:0] (R226); RW, reset 0 (W). -/
def Fld.wchSelSlot : Fld := ⟨.wchSel, 0, 14, .rw, 0, .warm, true⟩
/-- WCH_SLOT_DATA.VALID[63:63] (R226); RO, reset 0 (W). -/
def Fld.wchSlotDataValid : Fld := ⟨.wchSlotData, 63, 1, .ro, 0, .warm, false⟩
/-- WCH_SLOT_DATA.HOST[62:62] (R226); RO, reset 0 (W). -/
def Fld.wchSlotDataHost : Fld := ⟨.wchSlotData, 62, 1, .ro, 0, .warm, false⟩
/-- WCH_SLOT_DATA.ADDR[51:3] (R226); RO, reset 0 (W). -/
def Fld.wchSlotDataAddr : Fld := ⟨.wchSlotData, 3, 49, .ro, 0, .warm, false⟩
/-- WCH_SLOT_OWNER.CONTEXT[43:32] (R226); RO, reset 0 (W). -/
def Fld.wchSlotOwnerContext : Fld := ⟨.wchSlotOwner, 32, 12, .ro, 0, .warm, false⟩
/-- WCH_SLOT_OWNER.WAITERS[23:16] (R226); RO, reset 0 (W). -/
def Fld.wchSlotOwnerWaiters : Fld := ⟨.wchSlotOwner, 16, 8, .ro, 0, .warm, false⟩
/-- WCH_SLOT_OWNER.READY[10:10] (R226); RO, reset 0 (W). -/
def Fld.wchSlotOwnerReady : Fld := ⟨.wchSlotOwner, 10, 1, .ro, 0, .warm, false⟩
/-- WCH_SLOT_OWNER.SID[9:0] (R226); RO, reset 0 (W). -/
def Fld.wchSlotOwnerSid : Fld := ⟨.wchSlotOwner, 0, 10, .ro, 0, .warm, false⟩
/-- WCH_HOLD_CTRL.TIMEOUT_US[16:0] (R226); RWL, reset 2,000 (W). -/
def Fld.wchHoldCtrlTimeoutUs : Fld := ⟨.wchHoldCtrl, 0, 17, .rwl, 0x7d0, .warm, false⟩
/-- WCH_HOLD_STATUS.MAX[44:32] (R226); RO, reset 0 (W). -/
def Fld.wchHoldStatusMax : Fld := ⟨.wchHoldStatus, 32, 13, .ro, 0, .warm, false⟩
/-- WCH_HOLD_STATUS.NOW[12:0] (R226); RO, reset 0 (W). -/
def Fld.wchHoldStatusNow : Fld := ⟨.wchHoldStatus, 0, 13, .ro, 0, .warm, false⟩
/-- WCH_HOLD_CNT.HELD[63:32] (R226); RO, reset 0 (C). -/
def Fld.wchHoldCntHeld : Fld := ⟨.wchHoldCnt, 32, 32, .ro, 0, .cold, false⟩
/-- WCH_HOLD_CNT.LOST_RX[31:16] (R226); RO, reset 0 (C). -/
def Fld.wchHoldCntLostRx : Fld := ⟨.wchHoldCnt, 16, 16, .ro, 0, .cold, false⟩
/-- WCH_HOLD_CNT.LOST_TX[15:0] (R226); RO, reset 0 (C). -/
def Fld.wchHoldCntLostTx : Fld := ⟨.wchHoldCnt, 0, 16, .ro, 0, .cold, false⟩

/-! Fields of 10_throughput.md. -/

/-- SEQ_GOV.WITHHELD[63:32] (R234); RO, reset 0 (C). -/
def Fld.seqGovWithheld : Fld := ⟨.seqGov, 32, 32, .ro, 0, .cold, false⟩
/-- SEQ_GOV.MIN_ALLOW[22:16] (R234); RO, reset 64 (W). -/
def Fld.seqGovMinAllow : Fld := ⟨.seqGov, 16, 7, .ro, 0x40, .warm, false⟩
/-- SEQ_GOV.ALLOW[6:0] (R234); RO, reset 64 (W). -/
def Fld.seqGovAllow : Fld := ⟨.seqGov, 0, 7, .ro, 0x40, .warm, false⟩

/-! Fields of 11_cxl_host.md. -/

/-- CXL_LINK_STATUS.MEM_ACTIVE[29:29] (R253); RO, reset 0 (C). -/
def Fld.cxlLinkStatusMemActive : Fld := ⟨.cxlLinkStatus, 29, 1, .ro, 0, .cold, false⟩
/-- CXL_LINK_STATUS.CRS[28:28] (R253); RO, reset 1 (C). -/
def Fld.cxlLinkStatusCrs : Fld := ⟨.cxlLinkStatus, 28, 1, .ro, 1, .cold, false⟩
/-- CXL_LINK_STATUS.STATE[27:24] (R253); RO, reset 0 (C). -/
def Fld.cxlLinkStatusState : Fld := ⟨.cxlLinkStatus, 24, 4, .ro, 0, .cold, false⟩
/-- CXL_LINK_STATUS.BI_EN[21:21] (R253); RO, reset 0 (C). -/
def Fld.cxlLinkStatusBiEn : Fld := ⟨.cxlLinkStatus, 21, 1, .ro, 0, .cold, false⟩
/-- CXL_LINK_STATUS.FLIT[20:20] (R253); RO, reset 0 (C). -/
def Fld.cxlLinkStatusFlit : Fld := ⟨.cxlLinkStatus, 20, 1, .ro, 0, .cold, false⟩
/-- CXL_LINK_STATUS.LEVEL[18:16] (R253); RO, reset 0 (C). -/
def Fld.cxlLinkStatusLevel : Fld := ⟨.cxlLinkStatus, 16, 3, .ro, 0, .cold, false⟩
/-- CXL_LINK_STATUS.WIDTH[12:8] (R253); RO, reset 0 (C). -/
def Fld.cxlLinkStatusWidth : Fld := ⟨.cxlLinkStatus, 8, 5, .ro, 0, .cold, false⟩
/-- CXL_LINK_STATUS.RATE[3:0] (R253); RO, reset 0 (C). -/
def Fld.cxlLinkStatusRate : Fld := ⟨.cxlLinkStatus, 0, 4, .ro, 0, .cold, false⟩
/-- CXL_LINK_CNT.DOWN[63:48] (R253); RO, reset 0 (C). -/
def Fld.cxlLinkCntDown : Fld := ⟨.cxlLinkCnt, 48, 16, .ro, 0, .cold, false⟩
/-- CXL_LINK_CNT.RETRAIN[47:32] (R253); RO, reset 0 (C). -/
def Fld.cxlLinkCntRetrain : Fld := ⟨.cxlLinkCnt, 32, 16, .ro, 0, .cold, false⟩
/-- CXL_LINK_CNT.REPLAY[31:0] (R253); RO, reset 0 (C). -/
def Fld.cxlLinkCntReplay : Fld := ⟨.cxlLinkCnt, 0, 32, .ro, 0, .cold, false⟩
/-- CXL_HDM_STATUS.SF_FULL[32:32] (R253); RO, reset 0 (W). -/
def Fld.cxlHdmStatusSfFull : Fld := ⟨.cxlHdmStatus, 32, 1, .ro, 0, .warm, false⟩
/-- CXL_HDM_STATUS.SF_USED[20:0] (R253); RO, reset 0 (C). -/
def Fld.cxlHdmStatusSfUsed : Fld := ⟨.cxlHdmStatus, 0, 21, .ro, 0, .cold, false⟩
/-- CXL_HDM_CTRL.RECALL_NS[13:0] (R253); RW, reset 500 (W). -/
def Fld.cxlHdmCtrlRecallNs : Fld := ⟨.cxlHdmCtrl, 0, 14, .rw, 0x1f4, .warm, false⟩
/-- CXL_HDM_CNT.RECALLS[63:32] (R253); RO, reset 0 (C). -/
def Fld.cxlHdmCntRecalls : Fld := ⟨.cxlHdmCnt, 32, 32, .ro, 0, .cold, false⟩
/-- CXL_HDM_CNT.POISON_RD[31:16] (R253); RO, reset 0 (C). -/
def Fld.cxlHdmCntPoisonRd : Fld := ⟨.cxlHdmCnt, 16, 16, .ro, 0, .cold, false⟩
/-- CXL_HDM_CNT.INACTIVE[15:0] (R253); RO, reset 0 (C). -/
def Fld.cxlHdmCntInactive : Fld := ⟨.cxlHdmCnt, 0, 16, .ro, 0, .cold, false⟩
/-- CXL_CACHE_STATUS.OUTSTANDING[27:16] (R253); RO, reset 0 (C). -/
def Fld.cxlCacheStatusOutstanding : Fld := ⟨.cxlCacheStatus, 16, 12, .ro, 0, .cold, false⟩
/-- CXL_CACHE_STATUS.WATCHED[12:0] (R253); RO, reset 0 (C). -/
def Fld.cxlCacheStatusWatched : Fld := ⟨.cxlCacheStatus, 0, 13, .ro, 0, .cold, false⟩
/-- CXL_DIAG_CTRL.BASE[47:21] (R253); RW, reset 0 (W). -/
def Fld.cxlDiagCtrlBase : Fld := ⟨.cxlDiagCtrl, 21, 27, .rw, 0, .warm, false⟩
/-- CXL_DIAG_CTRL.EN[0:0] (R253); RW, reset 0 (W). -/
def Fld.cxlDiagCtrlEn : Fld := ⟨.cxlDiagCtrl, 0, 1, .rw, 0, .warm, false⟩
/-- CXL_INJ_CTRL.DELAY_US[47:32] (R253); RW, reset 0 (W). -/
def Fld.cxlInjCtrlDelayUs : Fld := ⟨.cxlInjCtrl, 32, 16, .rw, 0, .warm, false⟩
/-- CXL_INJ_CTRL.COUNT[31:16] (R253); RW, reset 0 (W). -/
def Fld.cxlInjCtrlCount : Fld := ⟨.cxlInjCtrl, 16, 16, .rw, 0, .warm, false⟩
/-- CXL_INJ_CTRL.MODE[2:0] (R253); RW, reset 0 (W). -/
def Fld.cxlInjCtrlMode : Fld := ⟨.cxlInjCtrl, 0, 3, .rw, 0, .warm, false⟩

/-! Fields of 12_henxo_fabric.md. -/

/-- HNX_PORT_CTRL.RETRAIN[8:8] (R287); WO, reset 0 (W). -/
def Fld.hnxPortCtrlRetrain : Fld := ⟨.hnxPortCtrl, 8, 1, .wo, 0, .warm, false⟩
/-- HNX_PORT_CTRL.MAX_VER[5:4] (R287); RW, reset 2 (W). -/
def Fld.hnxPortCtrlMaxVer : Fld := ⟨.hnxPortCtrl, 4, 2, .rw, 2, .warm, false⟩
/-- HNX_PORT_CTRL.EN[0:0] (R287); RW, reset value from configuration (W). -/
def Fld.hnxPortCtrlEn : Fld := ⟨.hnxPortCtrl, 0, 1, .rw, 0, .warm, false⟩
/-- HNX_PORT_STATUS.PEER_DEV[62:48] (R287); RO, reset 0 (C). -/
def Fld.hnxPortStatusPeerDev : Fld := ⟨.hnxPortStatus, 48, 15, .ro, 0, .cold, false⟩
/-- HNX_PORT_STATUS.PEER_PORT[46:44] (R287); RO, reset 0 (C). -/
def Fld.hnxPortStatusPeerPort : Fld := ⟨.hnxPortStatus, 44, 3, .ro, 0, .cold, false⟩
/-- HNX_PORT_STATUS.FIBRE[43:40] (R287); RO, reset profile (W). -/
def Fld.hnxPortStatusFibre : Fld := ⟨.hnxPortStatus, 40, 4, .ro, 0, .warm, false⟩
/-- HNX_PORT_STATUS.LANES_UP[31:24] (R287); RO, reset 0 (C). -/
def Fld.hnxPortStatusLanesUp : Fld := ⟨.hnxPortStatus, 24, 8, .ro, 0, .cold, false⟩
/-- HNX_PORT_STATUS.VERSION[17:16] (R287); RO, reset 0 (C). -/
def Fld.hnxPortStatusVersion : Fld := ⟨.hnxPortStatus, 16, 2, .ro, 0, .cold, false⟩
/-- HNX_PORT_STATUS.STATE[2:0] (R287); RO, reset 1 (C). -/
def Fld.hnxPortStatusState : Fld := ⟨.hnxPortStatus, 0, 3, .ro, 1, .cold, false⟩
/-- HNX_LANE_CNT.FEC_CORR[63:32] (R287); RO, reset 0 (C). -/
def Fld.hnxLaneCntFecCorr : Fld := ⟨.hnxLaneCnt, 32, 32, .ro, 0, .cold, false⟩
/-- HNX_LANE_CNT.FEC_UNCORR[31:16] (R287); RO, reset 0 (C). -/
def Fld.hnxLaneCntFecUncorr : Fld := ⟨.hnxLaneCnt, 16, 16, .ro, 0, .cold, false⟩
/-- HNX_LANE_CNT.RETRAINS[15:0] (R287); RO, reset 0 (C). -/
def Fld.hnxLaneCntRetrains : Fld := ⟨.hnxLaneCnt, 0, 16, .ro, 0, .cold, false⟩
/-- HNX_RETRY_CNT.REPLAYED[63:32] (R287); RO, reset 0 (C). -/
def Fld.hnxRetryCntReplayed : Fld := ⟨.hnxRetryCnt, 32, 32, .ro, 0, .cold, false⟩
/-- HNX_RETRY_CNT.NAKS[31:0] (R287); RO, reset 0 (C). -/
def Fld.hnxRetryCntNaks : Fld := ⟨.hnxRetryCnt, 0, 32, .ro, 0, .cold, false⟩
/-- HNX_CREDITS0.BULK[63:48] (R287); RO, reset 0 (C). -/
def Fld.hnxCredits0Bulk : Fld := ⟨.hnxCredits0, 48, 16, .ro, 0, .cold, false⟩
/-- HNX_CREDITS0.MCAST[47:32] (R287); RO, reset 0 (C). -/
def Fld.hnxCredits0Mcast : Fld := ⟨.hnxCredits0, 32, 16, .ro, 0, .cold, false⟩
/-- HNX_CREDITS0.SIGNAL[31:16] (R287); RO, reset 0 (C). -/
def Fld.hnxCredits0Signal : Fld := ⟨.hnxCredits0, 16, 16, .ro, 0, .cold, false⟩
/-- HNX_CREDITS0.CONTROL[15:0] (R287); RO, reset 0 (C). -/
def Fld.hnxCredits0Control : Fld := ⟨.hnxCredits0, 0, 16, .ro, 0, .cold, false⟩
/-- HNX_CREDITS1.BULK[63:48] (R287); RO, reset 0 (C). -/
def Fld.hnxCredits1Bulk : Fld := ⟨.hnxCredits1, 48, 16, .ro, 0, .cold, false⟩
/-- HNX_CREDITS1.MCAST[47:32] (R287); RO, reset 0 (C). -/
def Fld.hnxCredits1Mcast : Fld := ⟨.hnxCredits1, 32, 16, .ro, 0, .cold, false⟩
/-- HNX_CREDITS1.SIGNAL[31:16] (R287); RO, reset 0 (C). -/
def Fld.hnxCredits1Signal : Fld := ⟨.hnxCredits1, 16, 16, .ro, 0, .cold, false⟩
/-- HNX_CREDITS1.CONTROL[15:0] (R287); RO, reset 0 (C). -/
def Fld.hnxCredits1Control : Fld := ⟨.hnxCredits1, 0, 16, .ro, 0, .cold, false⟩
/-- HNX_TX_FRAMES.COUNT[63:0] (R287); RO, reset 0 (C). -/
def Fld.hnxTxFramesCount : Fld := ⟨.hnxTxFrames, 0, 64, .ro, 0, .cold, false⟩
/-- HNX_RX_FRAMES.COUNT[63:0] (R287); RO, reset 0 (C). -/
def Fld.hnxRxFramesCount : Fld := ⟨.hnxRxFrames, 0, 64, .ro, 0, .cold, false⟩
/-- HNX_PORT_EVT.STALLS[63:32] (R287); RO, reset 0 (C). -/
def Fld.hnxPortEvtStalls : Fld := ⟨.hnxPortEvt, 32, 32, .ro, 0, .cold, false⟩
/-- HNX_PORT_EVT.ROUTE_DISCARD[31:16] (R287); RO, reset 0 (C). -/
def Fld.hnxPortEvtRouteDiscard : Fld := ⟨.hnxPortEvt, 16, 16, .ro, 0, .cold, false⟩
/-- HNX_PORT_EVT.E2E_FAIL[15:0] (R287); RO, reset 0 (C). -/
def Fld.hnxPortEvtE2eFail : Fld := ⟨.hnxPortEvt, 0, 16, .ro, 0, .cold, false⟩
/-- HNX_ID.PROFILE[33:32] (R287); RO, reset 0 (W). -/
def Fld.hnxIdProfile : Fld := ⟨.hnxId, 32, 2, .ro, 0, .warm, false⟩
/-- HNX_ID.DEVICE[14:0] (R287); RO, reset configuration (W). -/
def Fld.hnxIdDevice : Fld := ⟨.hnxId, 0, 15, .ro, 0, .warm, false⟩
/-- HNX_FLOW_STATUS.RX_USED[62:48] (R287); RO, reset 0 (W). -/
def Fld.hnxFlowStatusRxUsed : Fld := ⟨.hnxFlowStatus, 48, 15, .ro, 0, .warm, false⟩
/-- HNX_FLOW_STATUS.TX_USED[46:32] (R287); RO, reset 0 (W). -/
def Fld.hnxFlowStatusTxUsed : Fld := ⟨.hnxFlowStatus, 32, 15, .ro, 0, .warm, false⟩
/-- HNX_FLOW_STATUS.POOL_KIB[13:0] (R287); RO, reset 0 (W). -/
def Fld.hnxFlowStatusPoolKib : Fld := ⟨.hnxFlowStatus, 0, 14, .ro, 0, .warm, false⟩
/-- HNX_FLOW_CNT.LOST_TX[63:32] (R287); RO, reset 0 (C). -/
def Fld.hnxFlowCntLostTx : Fld := ⟨.hnxFlowCnt, 32, 32, .ro, 0, .cold, false⟩
/-- HNX_FLOW_CNT.SKIPS[31:16] (R287); RO, reset 0 (C). -/
def Fld.hnxFlowCntSkips : Fld := ⟨.hnxFlowCnt, 16, 16, .ro, 0, .cold, false⟩
/-- HNX_FLOW_CNT.NACK_RX[15:0] (R287); RO, reset 0 (C). -/
def Fld.hnxFlowCntNackRx : Fld := ⟨.hnxFlowCnt, 0, 16, .ro, 0, .cold, false⟩
/-- HNX_MC_CTRL.STALL_US[13:0] (R287); RWL, reset 40 (W). -/
def Fld.hnxMcCtrlStallUs : Fld := ⟨.hnxMcCtrl, 0, 14, .rwl, 0x28, .warm, false⟩
/-- HNX_MC_CNT.REPAIRS[63:32] (R287); RO, reset 0 (C). -/
def Fld.hnxMcCntRepairs : Fld := ⟨.hnxMcCnt, 32, 32, .ro, 0, .cold, false⟩
/-- HNX_MC_CNT.PRUNES[31:16] (R287); RO, reset 0 (C). -/
def Fld.hnxMcCntPrunes : Fld := ⟨.hnxMcCnt, 16, 16, .ro, 0, .cold, false⟩
/-- HNX_MC_CNT.V1_GROUPS[15:0] (R287); RO, reset 0 (C). -/
def Fld.hnxMcCntV1Groups : Fld := ⟨.hnxMcCnt, 0, 16, .ro, 0, .cold, false⟩
/-- HNX_PMAP_CTRL.PROFILE[1:0] (R287); RW, reset value from configuration (W). -/
def Fld.hnxPmapCtrlProfile : Fld := ⟨.hnxPmapCtrl, 0, 2, .rw, 0, .warm, false⟩
/-- HNX_PMAP_STATUS.CHANGES[63:48] (R287); RO, reset 0 (C). -/
def Fld.hnxPmapStatusChanges : Fld := ⟨.hnxPmapStatus, 48, 16, .ro, 0, .cold, false⟩
/-- HNX_PMAP_STATUS.BUSY[32:32] (R287); RO, reset 0 (W). -/
def Fld.hnxPmapStatusBusy : Fld := ⟨.hnxPmapStatus, 32, 1, .ro, 0, .warm, false⟩
/-- HNX_PMAP_STATUS.MAP[31:0] (R287); RO, reset profile (W). -/
def Fld.hnxPmapStatusMap : Fld := ⟨.hnxPmapStatus, 0, 32, .ro, 0, .warm, false⟩
/-- FLT_HNX_CTRL.COUNT[63:48] (R287); RW, reset 0 (W). -/
def Fld.fltHnxCtrlCount : Fld := ⟨.fltHnxCtrl, 48, 16, .rw, 0, .warm, false⟩
/-- FLT_HNX_CTRL.INTERVAL[47:40] (R287); RW, reset 0 (W). -/
def Fld.fltHnxCtrlInterval : Fld := ⟨.fltHnxCtrl, 40, 8, .rw, 0, .warm, false⟩
/-- FLT_HNX_CTRL.DEPTH[39:32] (R287); RW, reset 0 (W). -/
def Fld.fltHnxCtrlDepth : Fld := ⟨.fltHnxCtrl, 32, 8, .rw, 0, .warm, false⟩
/-- FLT_HNX_CTRL.CLASSES[27:24] (R287); RW, reset 0 (W). -/
def Fld.fltHnxCtrlClasses : Fld := ⟨.fltHnxCtrl, 24, 4, .rw, 0, .warm, false⟩
/-- FLT_HNX_CTRL.LANES[23:16] (R287); RW, reset 0 (W). -/
def Fld.fltHnxCtrlLanes : Fld := ⟨.fltHnxCtrl, 16, 8, .rw, 0, .warm, false⟩
/-- FLT_HNX_CTRL.PORT[10:8] (R287); RW, reset 0 (W). -/
def Fld.fltHnxCtrlPort : Fld := ⟨.fltHnxCtrl, 8, 3, .rw, 0, .warm, false⟩
/-- FLT_HNX_CTRL.MODE[2:0] (R287); RW, reset 0 (W). -/
def Fld.fltHnxCtrlMode : Fld := ⟨.fltHnxCtrl, 0, 3, .rw, 0, .warm, false⟩
/-- FLT_HNX_CNT.DONE[31:0] (R287); RO, reset 0 (C). -/
def Fld.fltHnxCntDone : Fld := ⟨.fltHnxCnt, 0, 32, .ro, 0, .cold, false⟩

/-! Fields of 13_resonance_locking.md. -/

/-- TMP_CTRL.LOW_EN[16:16] (R312); RW, reset 0 (W). -/
def Fld.tmpCtrlLowEn : Fld := ⟨.tmpCtrl, 16, 1, .rw, 0, .warm, false⟩
/-- TMP_CTRL.ID_PERIOD[15:8] (R312); RW, reset 10 (W). -/
def Fld.tmpCtrlIdPeriod : Fld := ⟨.tmpCtrl, 8, 8, .rw, 0xa, .warm, false⟩
/-- TMP_STATUS.LOCKED[50:32] (R312); RO, reset 0 (C). -/
def Fld.tmpStatusLocked : Fld := ⟨.tmpStatus, 32, 19, .ro, 0, .cold, false⟩
/-- TMP_STATUS.FF_ACTIVE[16:16] (R312); RO, reset 0 (C). -/
def Fld.tmpStatusFfActive : Fld := ⟨.tmpStatus, 16, 1, .ro, 0, .cold, false⟩
/-- TMP_STATUS.RELOCKING[15:0] (R312); RO, reset 0 (C). -/
def Fld.tmpStatusRelocking : Fld := ⟨.tmpStatus, 0, 16, .ro, 0, .cold, false⟩
/-- TMP_EVENT_CNT.HOPS[63:48] (R312); RO, reset 0 (C). -/
def Fld.tmpEventCntHops : Fld := ⟨.tmpEventCnt, 48, 16, .ro, 0, .cold, false⟩
/-- TMP_EVENT_CNT.WRONG_LINE[47:32] (R312); RO, reset 0 (C). -/
def Fld.tmpEventCntWrongLine : Fld := ⟨.tmpEventCnt, 32, 16, .ro, 0, .cold, false⟩
/-- TMP_EVENT_CNT.SPAN_MOVES[31:16] (R312); RO, reset 0 (C). -/
def Fld.tmpEventCntSpanMoves : Fld := ⟨.tmpEventCnt, 16, 16, .ro, 0, .cold, false⟩
/-- TMP_EVENT_CNT.DEAD[15:0] (R312); RO, reset 0 (C). -/
def Fld.tmpEventCntDead : Fld := ⟨.tmpEventCnt, 0, 16, .ro, 0, .cold, false⟩
/-- TMP_BANK_ACTIVE.BANK[63:0] (R312); RO, reset 0 (C). -/
def Fld.tmpBankActiveBank : Fld := ⟨.tmpBankActive, 0, 64, .ro, 0, .cold, false⟩
/-- TMP_BANK_SWAP.SWAP[63:0] (R312); WO, reset 0 (W). -/
def Fld.tmpBankSwapSwap : Fld := ⟨.tmpBankSwap, 0, 64, .wo, 0, .warm, false⟩
/-- TMP_BANK_BUSY.BUSY[63:0] (R312); RO, reset 0 (C). -/
def Fld.tmpBankBusyBusy : Fld := ⟨.tmpBankBusy, 0, 64, .ro, 0, .cold, false⟩
/-- TMP_COEF_SEL.CLASS[13:8] (R312); RW, reset 0 (W). -/
def Fld.tmpCoefSelClass : Fld := ⟨.tmpCoefSel, 8, 6, .rw, 0, .warm, true⟩
/-- TMP_COEF_SEL.BANK[4:4] (R312); RW, reset 0 (W). -/
def Fld.tmpCoefSelBank : Fld := ⟨.tmpCoefSel, 4, 1, .rw, 0, .warm, true⟩
/-- TMP_COEF_SEL.WORD[2:0] (R312); RW, reset 0 (W). -/
def Fld.tmpCoefSelWord : Fld := ⟨.tmpCoefSel, 0, 3, .rw, 0, .warm, true⟩
/-- TMP_COEF_DATA.DATA[63:0] (R312); RW, reset class defaults (C). -/
def Fld.tmpCoefDataData : Fld := ⟨.tmpCoefData, 0, 64, .rw, 0, .cold, false⟩
/-- TMP_RING_SEL.RING[17:0] (R312); RW, reset 0 (W). -/
def Fld.tmpRingSelRing : Fld := ⟨.tmpRingSel, 0, 18, .rw, 0, .warm, true⟩
/-- TMP_RING_DATA.CLASS[63:58] (R312); RW, reset 0 (C). -/
def Fld.tmpRingDataClass : Fld := ⟨.tmpRingData, 58, 6, .rw, 0, .cold, false⟩
/-- TMP_RING_DATA.STATE[55:52] (R312); RO, reset 0 (C). -/
def Fld.tmpRingDataState : Fld := ⟨.tmpRingData, 52, 4, .ro, 0, .cold, false⟩
/-- TMP_RING_DATA.SPAN[51:51] (R312); RO, reset 0 (C). -/
def Fld.tmpRingDataSpan : Fld := ⟨.tmpRingData, 51, 1, .ro, 0, .cold, false⟩
/-- TMP_RING_DATA.LOCK_ERR[47:32] (R312); RO, reset 0 (C). -/
def Fld.tmpRingDataLockErr : Fld := ⟨.tmpRingData, 32, 16, .ro, 0, .cold, false⟩
/-- TMP_RING_DATA.CODE[27:16] (R312); RO, reset 0 (C). -/
def Fld.tmpRingDataCode : Fld := ⟨.tmpRingData, 16, 12, .ro, 0, .cold, false⟩
/-- TMP_RING_DATA.SETPOINT[15:0] (R312); RO, reset 0 (C). -/
def Fld.tmpRingDataSetpoint : Fld := ⟨.tmpRingData, 0, 16, .ro, 0, .cold, false⟩
/-- TMP_TRACE_CTRL.RING[49:32] (R312); RW, reset 0 (W). -/
def Fld.tmpTraceCtrlRing : Fld := ⟨.tmpTraceCtrl, 32, 18, .rw, 0, .warm, false⟩
/-- TMP_TRACE_CTRL.SIGNAL[27:24] (R312); RW, reset 0 (W). -/
def Fld.tmpTraceCtrlSignal : Fld := ⟨.tmpTraceCtrl, 24, 4, .rw, 0, .warm, false⟩
/-- TMP_TRACE_CTRL.TRIGGER[21:20] (R312); RW, reset 0 (W). -/
def Fld.tmpTraceCtrlTrigger : Fld := ⟨.tmpTraceCtrl, 20, 2, .rw, 0, .warm, false⟩
/-- TMP_TRACE_CTRL.MODE[17:16] (R312); RW, reset 0 (W). -/
def Fld.tmpTraceCtrlMode : Fld := ⟨.tmpTraceCtrl, 16, 2, .rw, 0, .warm, false⟩
/-- TMP_TRACE_CTRL.TRIG[15:15] (R312); WO, reset 0 (W). -/
def Fld.tmpTraceCtrlTrig : Fld := ⟨.tmpTraceCtrl, 15, 1, .wo, 0, .warm, false⟩
/-- TMP_TRACE_CTRL.STOPPED[14:14] (R312); RO, reset 0 (W). -/
def Fld.tmpTraceCtrlStopped : Fld := ⟨.tmpTraceCtrl, 14, 1, .ro, 0, .warm, false⟩
/-- TMP_TRACE_CTRL.POST[12:0] (R312); RW, reset 0 (W). -/
def Fld.tmpTraceCtrlPost : Fld := ⟨.tmpTraceCtrl, 0, 13, .rw, 0, .warm, false⟩
/-- TMP_TRACE_SEL.CHANNEL[14:13] (R312); RW, reset 0 (W). -/
def Fld.tmpTraceSelChannel : Fld := ⟨.tmpTraceSel, 13, 2, .rw, 0, .warm, true⟩
/-- TMP_TRACE_SEL.ENTRY[12:0] (R312); RW, reset 0 (W). -/
def Fld.tmpTraceSelEntry : Fld := ⟨.tmpTraceSel, 0, 13, .rw, 0, .warm, true⟩
/-- TMP_TRACE_DATA.VALUE[63:48] (R312); RO, reset 0 (W). -/
def Fld.tmpTraceDataValue : Fld := ⟨.tmpTraceData, 48, 16, .ro, 0, .warm, false⟩
/-- TMP_TRACE_DATA.TIME[47:0] (R312); RO, reset 0 (W). -/
def Fld.tmpTraceDataTime : Fld := ⟨.tmpTraceData, 0, 48, .ro, 0, .warm, false⟩
/-- TMP_COMB_STATUS.WEAR[55:48] (R312); RO, reset 0 (C). -/
def Fld.tmpCombStatusWear : Fld := ⟨.tmpCombStatus, 48, 8, .ro, 0, .cold, false⟩
/-- TMP_COMB_STATUS.AGEING[34:34] (R312); RO, reset 0 (C). -/
def Fld.tmpCombStatusAgeing : Fld := ⟨.tmpCombStatus, 34, 1, .ro, 0, .cold, false⟩
/-- TMP_COMB_STATUS.LOW_POWER[33:33] (R312); RO, reset 0 (C). -/
def Fld.tmpCombStatusLowPower : Fld := ⟨.tmpCombStatus, 33, 1, .ro, 0, .cold, false⟩
/-- TMP_COMB_STATUS.SPACING_LOCK[32:32] (R312); RO, reset 0 (C). -/
def Fld.tmpCombStatusSpacingLock : Fld := ⟨.tmpCombStatus, 32, 1, .ro, 0, .cold, false⟩
/-- TMP_COMB_STATUS.STATE[3:0] (R312); RO, reset 0 (C). -/
def Fld.tmpCombStatusState : Fld := ⟨.tmpCombStatus, 0, 4, .ro, 0, .cold, false⟩
/-- TMP_COMB_LINE.POWER[47:32] (R312); RO, reset 0 (C). -/
def Fld.tmpCombLinePower : Fld := ⟨.tmpCombLine, 32, 16, .ro, 0, .cold, false⟩
/-- TMP_COMB_LINE.SET[31:16] (R312); RO, reset configuration (W). -/
def Fld.tmpCombLineSet : Fld := ⟨.tmpCombLine, 16, 16, .ro, 0, .warm, false⟩
/-- TMP_COMB_LINE.LINE[6:0] (R312); RW, reset 0 (W). -/
def Fld.tmpCombLineLine : Fld := ⟨.tmpCombLine, 0, 7, .rw, 0, .warm, true⟩
/-- TMP_COMB_EVENTS.DROPS[63:32] (R312); RO, reset 0 (C). -/
def Fld.tmpCombEventsDrops : Fld := ⟨.tmpCombEvents, 32, 32, .ro, 0, .cold, false⟩
/-- TMP_COMB_EVENTS.STARTS[31:16] (R312); RO, reset 0 (C). -/
def Fld.tmpCombEventsStarts : Fld := ⟨.tmpCombEvents, 16, 16, .ro, 0, .cold, false⟩
/-- TMP_COMB_EVENTS.START_FAIL[15:0] (R312); RO, reset 0 (C). -/
def Fld.tmpCombEventsStartFail : Fld := ⟨.tmpCombEvents, 0, 16, .ro, 0, .cold, false⟩

/-! Fields of 14_heater_dacs_monitors.md. -/

/-- HTR_SEL.RING[21:16] (R327); RW, reset 0 (W). -/
def Fld.htrSelRing : Fld := ⟨.htrSel, 16, 6, .rw, 0, .warm, true⟩
/-- HTR_SEL.CLUSTER[11:0] (R327); RW, reset 0 (W). -/
def Fld.htrSelCluster : Fld := ⟨.htrSel, 0, 12, .rw, 0, .warm, true⟩
/-- HTR_CLUSTER.QDEPTH[62:58] (R327); RO, reset 0 (C). -/
def Fld.htrClusterQdepth : Fld := ⟨.htrCluster, 58, 5, .ro, 0, .cold, false⟩
/-- HTR_CLUSTER.HOLD[57:57] (R327); RO, reset 0 (C). -/
def Fld.htrClusterHold : Fld := ⟨.htrCluster, 57, 1, .ro, 0, .cold, false⟩
/-- HTR_CLUSTER.SPAN[56:56] (R327); RO, reset 0 (C). -/
def Fld.htrClusterSpan : Fld := ⟨.htrCluster, 56, 1, .ro, 0, .cold, false⟩
/-- HTR_CLUSTER.DEN[55:55] (R327); RW, reset 1 (C). -/
def Fld.htrClusterDen : Fld := ⟨.htrCluster, 55, 1, .rw, 1, .cold, false⟩
/-- HTR_CLUSTER.DPH[54:47] (R327); RW, reset 38 (C). -/
def Fld.htrClusterDph : Fld := ⟨.htrCluster, 47, 8, .rw, 0x26, .cold, false⟩
/-- HTR_CLUSTER.AMP[46:39] (R327); RW, reset 8 (C). -/
def Fld.htrClusterAmp : Fld := ⟨.htrCluster, 39, 8, .rw, 8, .cold, false⟩
/-- HTR_CLUSTER.RATE[38:31] (R327); RW, reset 1 (C). -/
def Fld.htrClusterRate : Fld := ⟨.htrCluster, 31, 8, .rw, 1, .cold, false⟩
/-- HTR_CLUSTER.STEP[30:19] (R327); RW, reset 16 (C). -/
def Fld.htrClusterStep : Fld := ⟨.htrCluster, 19, 12, .rw, 0x10, .cold, false⟩
/-- HTR_CLUSTER.FTW[18:0] (R327); RW, reset 68,719 (C). -/
def Fld.htrClusterFtw : Fld := ⟨.htrCluster, 0, 19, .rw, 0x10c6f, .cold, false⟩
/-- HTR_RING.FAULT[50:48] (R327); RO, reset 0 (C). -/
def Fld.htrRingFault : Fld := ⟨.htrRing, 48, 3, .ro, 0, .cold, false⟩
/-- HTR_RING.P[47:32] (R327); RO, reset 0 (C). -/
def Fld.htrRingP : Fld := ⟨.htrRing, 32, 16, .ro, 0, .cold, false⟩
/-- HTR_RING.TARGET[27:16] (R327); RO, reset 0 (C). -/
def Fld.htrRingTarget : Fld := ⟨.htrRing, 16, 12, .ro, 0, .cold, false⟩
/-- HTR_RING.CODE[11:0] (R327); RO, reset 0 (C). -/
def Fld.htrRingCode : Fld := ⟨.htrRing, 0, 12, .ro, 0, .cold, false⟩
/-- HTR_EVENT_CNT.FAULTS[63:48] (R327); RO, reset 0 (C). -/
def Fld.htrEventCntFaults : Fld := ⟨.htrEventCnt, 48, 16, .ro, 0, .cold, false⟩
/-- HTR_EVENT_CNT.HELD[47:32] (R327); RO, reset 0 (C). -/
def Fld.htrEventCntHeld : Fld := ⟨.htrEventCnt, 32, 16, .ro, 0, .cold, false⟩
/-- HTR_EVENT_CNT.MERGES[31:0] (R327); RO, reset 0 (C). -/
def Fld.htrEventCntMerges : Fld := ⟨.htrEventCnt, 0, 32, .ro, 0, .cold, false⟩
/-- MON_SEL.CONVERTER[7:0] (R327); RW, reset 0 (W). -/
def Fld.monSelConverter : Fld := ⟨.monSel, 0, 8, .rw, 0, .warm, true⟩
/-- MON_CONV.REF_FAULT[51:51] (R327); RO, reset 0 (C). -/
def Fld.monConvRefFault : Fld := ⟨.monConv, 51, 1, .ro, 0, .cold, false⟩
/-- MON_CONV.RELOCKING[50:40] (R327); RO, reset 0 (C). -/
def Fld.monConvRelocking : Fld := ⟨.monConv, 40, 11, .ro, 0, .cold, false⟩
/-- MON_CONV.MODE[33:32] (R327); RO, reset 0 (C). -/
def Fld.monConvMode : Fld := ⟨.monConv, 32, 2, .ro, 0, .cold, false⟩
/-- MON_CONV.DROPS[15:0] (R327); RO, reset 0 (C). -/
def Fld.monConvDrops : Fld := ⟨.monConv, 0, 16, .ro, 0, .cold, false⟩
/-- MON_WIN.CLASS[21:16] (R327); RW, reset 0 (W). -/
def Fld.monWinClass : Fld := ⟨.monWin, 16, 6, .rw, 0, .warm, true⟩
/-- MON_WIN.WIN[15:0] (R327); RW, reset 0x0400 (C), every class. -/
def Fld.monWinWin : Fld := ⟨.monWin, 0, 16, .rw, 0x400, .cold, false⟩
/-- MON_TEST.CONT[8:8] (R327); RW, reset 0 (W). -/
def Fld.monTestCont : Fld := ⟨.monTest, 8, 1, .rw, 0, .warm, false⟩
/-- MON_TEST.CONVERTER[7:0] (R327); RW, reset 0 (W). -/
def Fld.monTestConverter : Fld := ⟨.monTest, 0, 8, .rw, 0, .warm, true⟩

/-! Fields of 15_calibration.md. -/

/-- CAL_CTRL.USE_FACTORY[17:17] (R342); RW, reset 0 (W). -/
def Fld.calCtrlUseFactory : Fld := ⟨.calCtrl, 17, 1, .rw, 0, .warm, false⟩
/-- CAL_CTRL.START[16:16] (R342); WO, reset 0 (W). -/
def Fld.calCtrlStart : Fld := ⟨.calCtrl, 16, 1, .wo, 0, .warm, false⟩
/-- CAL_CTRL.SWEEP_LOG2[11:8] (R342); RW, reset 9 (W). -/
def Fld.calCtrlSweepLog2 : Fld := ⟨.calCtrl, 8, 4, .rw, 9, .warm, false⟩
/-- CAL_CTRL.PROBE_LOG2[3:0] (R342); RW, reset 8 (W). -/
def Fld.calCtrlProbeLog2 : Fld := ⟨.calCtrl, 0, 4, .rw, 8, .warm, false⟩
/-- CAL_STATUS.CAUSE[47:40] (R342); RO, reset 0 (W). -/
def Fld.calStatusCause : Fld := ⟨.calStatus, 40, 8, .ro, 0, .warm, false⟩
/-- CAL_STATUS.EPISODE_MS[39:32] (R342); RO, reset 0 (W). -/
def Fld.calStatusEpisodeMs : Fld := ⟨.calStatus, 32, 8, .ro, 0, .warm, false⟩
/-- CAL_STATUS.TEMP[31:16] (R342); RO, reset 0 (W). -/
def Fld.calStatusTemp : Fld := ⟨.calStatus, 16, 16, .ro, 0, .warm, false⟩
/-- CAL_STATUS.RAMP_STEP[12:8] (R342); RO, reset 0 (W). -/
def Fld.calStatusRampStep : Fld := ⟨.calStatus, 8, 5, .ro, 0, .warm, false⟩
/-- CAL_STATUS.RAMP[7:7] (R342); RO, reset 0 (W). -/
def Fld.calStatusRamp : Fld := ⟨.calStatus, 7, 1, .ro, 0, .warm, false⟩
/-- CAL_STATUS.STALE[6:6] (R342); RO, reset 0 (W). -/
def Fld.calStatusStale : Fld := ⟨.calStatus, 6, 1, .ro, 0, .warm, false⟩
/-- CAL_STATUS.STATE[1:0] (R342); RO, reset 0 (W). -/
def Fld.calStatusState : Fld := ⟨.calStatus, 0, 2, .ro, 0, .warm, false⟩
/-- CAL_DEBT.PROBE[63:32] (R342); RO, reset 0 (W). -/
def Fld.calDebtProbe : Fld := ⟨.calDebt, 32, 32, .ro, 0, .warm, false⟩
/-- CAL_DEBT.SWEEP[31:0] (R342); RO, reset 0 (W). -/
def Fld.calDebtSweep : Fld := ⟨.calDebt, 0, 32, .ro, 0, .warm, false⟩
/-- CAL_FORCED_CNT.PROBE[63:32] (R342); RO, reset 0 (C). -/
def Fld.calForcedCntProbe : Fld := ⟨.calForcedCnt, 32, 32, .ro, 0, .cold, false⟩
/-- CAL_FORCED_CNT.IDENT[31:16] (R342); RO, reset 0 (C). -/
def Fld.calForcedCntIdent : Fld := ⟨.calForcedCnt, 16, 16, .ro, 0, .cold, false⟩
/-- CAL_FORCED_CNT.SWEEP_K[15:0] (R342); RO, reset 0 (C). -/
def Fld.calForcedCntSweepK : Fld := ⟨.calForcedCnt, 0, 16, .ro, 0, .cold, false⟩
/-- CAL_EVENT_CNT.RAMPS[63:32] (R342); RO, reset 0 (C). -/
def Fld.calEventCntRamps : Fld := ⟨.calEventCnt, 32, 32, .ro, 0, .cold, false⟩
/-- CAL_EVENT_CNT.STALE[31:16] (R342); RO, reset 0 (C). -/
def Fld.calEventCntStale : Fld := ⟨.calEventCnt, 16, 16, .ro, 0, .cold, false⟩
/-- CAL_EVENT_CNT.EPISODES[15:0] (R342); RO, reset 0 (C). -/
def Fld.calEventCntEpisodes : Fld := ⟨.calEventCnt, 0, 16, .ro, 0, .cold, false⟩
/-- CAL_CONVERGED.TIME[63:0] (R342); RO, reset 0 (W). -/
def Fld.calConvergedTime : Fld := ⟨.calConverged, 0, 64, .ro, 0, .warm, false⟩
/-- CAL_STORE_CTRL.SAVE[0:0] (R342); WO, reset 0 (W). -/
def Fld.calStoreCtrlSave : Fld := ⟨.calStoreCtrl, 0, 1, .wo, 0, .warm, false⟩
/-- CAL_STORE_STATUS.BUSY[63:63] (R342); RO, reset 0 (W). -/
def Fld.calStoreStatusBusy : Fld := ⟨.calStoreStatus, 63, 1, .ro, 0, .warm, false⟩
/-- CAL_STORE_STATUS.COPY[62:62] (R342); RO, reset 0 (C). -/
def Fld.calStoreStatusCopy : Fld := ⟨.calStoreStatus, 62, 1, .ro, 0, .cold, false⟩
/-- CAL_STORE_STATUS.TIME[47:0] (R342); RO, reset 0 (C). -/
def Fld.calStoreStatusTime : Fld := ⟨.calStoreStatus, 0, 48, .ro, 0, .cold, false⟩

/-! Fields of 16_start_journal.md. -/

/-- NVM_START.DETAIL[47:40] (R362); RO, reset —. -/
def Fld.nvmStartDetail : Fld := ⟨.nvmStart, 40, 8, .ro, 0, .set, false⟩
/-- NVM_START.CAUSE[39:32] (R362); RO, reset —. -/
def Fld.nvmStartCause : Fld := ⟨.nvmStart, 32, 8, .ro, 0, .set, false⟩
/-- NVM_START.KIND[17:16] (R362); RO, reset —. -/
def Fld.nvmStartKind : Fld := ⟨.nvmStart, 16, 2, .ro, 0, .set, false⟩
/-- NVM_START.CFG_FALLBACK[11:11] (R362); RO, reset —. -/
def Fld.nvmStartCfgFallback : Fld := ⟨.nvmStart, 11, 1, .ro, 0, .set, false⟩
/-- NVM_START.CFG_SLOT[10:10] (R362); RO, reset —. -/
def Fld.nvmStartCfgSlot : Fld := ⟨.nvmStart, 10, 1, .ro, 0, .set, false⟩
/-- NVM_START.FW_FALLBACK[9:9] (R362); RO, reset —. -/
def Fld.nvmStartFwFallback : Fld := ⟨.nvmStart, 9, 1, .ro, 0, .set, false⟩
/-- NVM_START.FW_SLOT[8:8] (R362); RO, reset —. -/
def Fld.nvmStartFwSlot : Fld := ⟨.nvmStart, 8, 1, .ro, 0, .set, false⟩
/-- NVM_START.STAGE[3:0] (R362); RO, reset —. -/
def Fld.nvmStartStage : Fld := ⟨.nvmStart, 0, 4, .ro, 0, .set, false⟩
/-- NVM_START_TIME.WARM_US[63:32] (R362); RO, reset 0 (C). -/
def Fld.nvmStartTimeWarmUs : Fld := ⟨.nvmStartTime, 32, 32, .ro, 0, .cold, false⟩
/-- NVM_START_TIME.COLD_US[31:0] (R362); RO, reset —. -/
def Fld.nvmStartTimeColdUs : Fld := ⟨.nvmStartTime, 0, 32, .ro, 0, .set, false⟩
/-- NVM_CTRL.RESTART[0:0] (R362); WO, reset 0 (W). -/
def Fld.nvmCtrlRestart : Fld := ⟨.nvmCtrl, 0, 1, .wo, 0, .warm, false⟩
/-- NVM_CFG.ACTIVE_SEQ[63:0] (R362); RO, reset configuration (W). -/
def Fld.nvmCfgActiveSeq : Fld := ⟨.nvmCfg, 0, 64, .ro, 0, .warm, false⟩
/-- NVM_CFG_PENDING.SEQ[63:0] (R362); RO, reset 0 (W). -/
def Fld.nvmCfgPendingSeq : Fld := ⟨.nvmCfgPending, 0, 64, .ro, 0, .warm, false⟩
/-- NVM_TEMP.FLASH[47:32] (R362); RO, reset 0 (C). -/
def Fld.nvmTempFlash : Fld := ⟨.nvmTemp, 32, 16, .ro, 0, .cold, false⟩
/-- NVM_TEMP.HUB_MAX[31:16] (R362); RO, reset 0 (C). -/
def Fld.nvmTempHubMax : Fld := ⟨.nvmTemp, 16, 16, .ro, 0, .cold, false⟩
/-- NVM_TEMP.SENSOR_BAD[1:1] (R362); RO, reset 0 (C). -/
def Fld.nvmTempSensorBad : Fld := ⟨.nvmTemp, 1, 1, .ro, 0, .cold, false⟩
/-- NVM_TEMP.WRITE_OK[0:0] (R362); RO, reset 0 (C). -/
def Fld.nvmTempWriteOk : Fld := ⟨.nvmTemp, 0, 1, .ro, 0, .cold, false⟩
/-- JNL_STATUS.FILL[46:40] (R362); RO, reset —. -/
def Fld.jnlStatusFill : Fld := ⟨.jnlStatus, 40, 7, .ro, 0, .set, false⟩
/-- JNL_STATUS.COMPACTING[32:32] (R362); RO, reset 0 (C). -/
def Fld.jnlStatusCompacting : Fld := ⟨.jnlStatus, 32, 1, .ro, 0, .cold, false⟩
/-- JNL_STATUS.ERASING[2:2] (R362); RO, reset 0 (C). -/
def Fld.jnlStatusErasing : Fld := ⟨.jnlStatus, 2, 1, .ro, 0, .cold, false⟩
/-- JNL_STATUS.HALF[1:1] (R362); RO, reset —. -/
def Fld.jnlStatusHalf : Fld := ⟨.jnlStatus, 1, 1, .ro, 0, .set, false⟩
/-- JNL_STATUS.HOLDING[0:0] (R362); RO, reset 0 (C). -/
def Fld.jnlStatusHolding : Fld := ⟨.jnlStatus, 0, 1, .ro, 0, .cold, false⟩
/-- JNL_SEQ.NEXT[63:0] (R362); RO, reset —. -/
def Fld.jnlSeqNext : Fld := ⟨.jnlSeq, 0, 64, .ro, 0, .set, false⟩
/-- JNL_HOLD.DROPPED[63:32] (R362); RO, reset 0 (C). -/
def Fld.jnlHoldDropped : Fld := ⟨.jnlHold, 32, 32, .ro, 0, .cold, false⟩
/-- JNL_HOLD.RECORDS[12:0] (R362); RO, reset 0 (C). -/
def Fld.jnlHoldRecords : Fld := ⟨.jnlHold, 0, 13, .ro, 0, .cold, false⟩
/-- JNL_WEAR.EVENTS_DROPPED[63:48] (R362); RO, reset 0 (C). -/
def Fld.jnlWearEventsDropped : Fld := ⟨.jnlWear, 48, 16, .ro, 0, .cold, false⟩
/-- JNL_WEAR.ERASES1[47:24] (R362); RO, reset —. -/
def Fld.jnlWearErases1 : Fld := ⟨.jnlWear, 24, 24, .ro, 0, .set, false⟩
/-- JNL_WEAR.ERASES0[23:0] (R362); RO, reset —. -/
def Fld.jnlWearErases0 : Fld := ⟨.jnlWear, 0, 24, .ro, 0, .set, false⟩
/-- JNL_REPLAY.RECORDS[63:32] (R362); RO, reset —. -/
def Fld.jnlReplayRecords : Fld := ⟨.jnlReplay, 32, 32, .ro, 0, .set, false⟩
/-- JNL_REPLAY.TORN[31:16] (R362); RO, reset —. -/
def Fld.jnlReplayTorn : Fld := ⟨.jnlReplay, 16, 16, .ro, 0, .set, false⟩
/-- JNL_CTRL.COMPACT[0:0] (R362); WO, reset 0 (W). -/
def Fld.jnlCtrlCompact : Fld := ⟨.jnlCtrl, 0, 1, .wo, 0, .warm, false⟩

/-! Fields of 17_power_thermal_clocks.md. -/

/-- PWR_LIMIT.EFFECTIVE[41:32] (R388); RO, reset configuration (W). -/
def Fld.pwrLimitEffective : Fld := ⟨.pwrLimit, 32, 10, .ro, 0, .warm, false⟩
/-- PWR_LIMIT.SET[9:0] (R388); RW, reset configuration (W). -/
def Fld.pwrLimitSet : Fld := ⟨.pwrLimit, 0, 10, .rw, 0, .warm, false⟩
/-- PWR_PKG.PEAK_W[47:32] (R388); RO, reset 0 (W). -/
def Fld.pwrPkgPeakW : Fld := ⟨.pwrPkg, 32, 16, .ro, 0, .warm, false⟩
/-- PWR_PKG.HALF_CLK[16:16] (R388); RO, reset 0 (W). -/
def Fld.pwrPkgHalfClk : Fld := ⟨.pwrPkg, 16, 1, .ro, 0, .warm, false⟩
/-- PWR_PKG.AVG_W[15:0] (R388); RO, reset 0 (C). -/
def Fld.pwrPkgAvgW : Fld := ⟨.pwrPkg, 0, 16, .ro, 0, .cold, false⟩
/-- PWR_EVENT_CNT.STEPS_DOWN[63:32] (R388); RO, reset 0 (C). -/
def Fld.pwrEventCntStepsDown : Fld := ⟨.pwrEventCnt, 32, 32, .ro, 0, .cold, false⟩
/-- PWR_EVENT_CNT.RISE_CUTS[31:16] (R388); RO, reset 0 (C). -/
def Fld.pwrEventCntRiseCuts : Fld := ⟨.pwrEventCnt, 16, 16, .ro, 0, .cold, false⟩
/-- PWR_EVENT_CNT.REFUSED[15:0] (R388); RO, reset 0 (C). -/
def Fld.pwrEventCntRefused : Fld := ⟨.pwrEventCnt, 0, 16, .ro, 0, .cold, false⟩
/-- PWR_BAY_CTRL.PROOF_PERIOD[14:8] (R388); RW, reset 10 (W). -/
def Fld.pwrBayCtrlProofPeriod : Fld := ⟨.pwrBayCtrl, 8, 7, .rw, 0xa, .warm, false⟩
/-- PWR_BAY_CTRL.IDLE_STATE[2:0] (R388); RW, reset 0 (W). -/
def Fld.pwrBayCtrlIdleState : Fld := ⟨.pwrBayCtrl, 0, 3, .rw, 0, .warm, false⟩
/-- PWR_BAY_STATUS.LAST_CAUSE[63:56] (R388); RO, reset 0 (W). -/
def Fld.pwrBayStatusLastCause : Fld := ⟨.pwrBayStatus, 56, 8, .ro, 0, .warm, false⟩
/-- PWR_BAY_STATUS.LAST_BLOCK[55:52] (R388); RO, reset 0 (W). -/
def Fld.pwrBayStatusLastBlock : Fld := ⟨.pwrBayStatus, 52, 4, .ro, 0, .warm, false⟩
/-- PWR_BAY_STATUS.PEND_VALID[11:11] (R388); RO, reset 0 (W). -/
def Fld.pwrBayStatusPendValid : Fld := ⟨.pwrBayStatus, 11, 1, .ro, 0, .warm, false⟩
/-- PWR_BAY_STATUS.PENDING[10:8] (R388); RO, reset 0 (W). -/
def Fld.pwrBayStatusPending : Fld := ⟨.pwrBayStatus, 8, 3, .ro, 0, .warm, false⟩
/-- PWR_BAY_STATUS.BUSY[7:7] (R388); RO, reset 0 (W). -/
def Fld.pwrBayStatusBusy : Fld := ⟨.pwrBayStatus, 7, 1, .ro, 0, .warm, false⟩
/-- PWR_BAY_STATUS.TARGET[6:4] (R388); RO, reset 0 (W). -/
def Fld.pwrBayStatusTarget : Fld := ⟨.pwrBayStatus, 4, 3, .ro, 0, .warm, false⟩
/-- PWR_BAY_STATUS.STATE[2:0] (R388); RO, reset 0 (C). -/
def Fld.pwrBayStatusState : Fld := ⟨.pwrBayStatus, 0, 3, .ro, 0, .cold, false⟩
/-- PWR_PROOF_CNT.SLICES[63:32] (R388); RO, reset 0 (C). -/
def Fld.pwrProofCntSlices : Fld := ⟨.pwrProofCnt, 32, 32, .ro, 0, .cold, false⟩
/-- PWR_PROOF_CNT.TRIMS[31:16] (R388); RO, reset 0 (C). -/
def Fld.pwrProofCntTrims : Fld := ⟨.pwrProofCnt, 16, 16, .ro, 0, .cold, false⟩
/-- PWR_PROOF_CNT.MARKED[15:0] (R388); RO, reset 0 (C). -/
def Fld.pwrProofCntMarked : Fld := ⟨.pwrProofCnt, 0, 16, .ro, 0, .cold, false⟩
/-- THM_STATUS.RISE[11:8] (R388); RO, reset 0 (C). -/
def Fld.thmStatusRise : Fld := ⟨.thmStatus, 8, 4, .ro, 0, .cold, false⟩
/-- THM_STATUS.PIC_COLD[2:2] (R388); RO, reset 0 (C). -/
def Fld.thmStatusPicCold : Fld := ⟨.thmStatus, 2, 1, .ro, 0, .cold, false⟩
/-- THM_STATUS.ALERT[1:1] (R388); RO, reset 0 (C). -/
def Fld.thmStatusAlert : Fld := ⟨.thmStatus, 1, 1, .ro, 0, .cold, false⟩
/-- THM_STATUS.THROTTLING[0:0] (R388); RO, reset 0 (C). -/
def Fld.thmStatusThrottling : Fld := ⟨.thmStatus, 0, 1, .ro, 0, .cold, false⟩
/-- THM_PKG.DOMAIN[36:32] (R388); RO, reset 0 (C). -/
def Fld.thmPkgDomain : Fld := ⟨.thmPkg, 32, 5, .ro, 0, .cold, false⟩
/-- THM_PKG.MAX[15:0] (R388); RO, reset 0 (C). -/
def Fld.thmPkgMax : Fld := ⟨.thmPkg, 0, 16, .ro, 0, .cold, false⟩
/-- THM_DOM_SEL.SENSOR[12:5] (R388); RW, reset 0 (W). -/
def Fld.thmDomSelSensor : Fld := ⟨.thmDomSel, 5, 8, .rw, 0, .warm, true⟩
/-- THM_DOM_SEL.DOMAIN[4:0] (R388); RW, reset 0 (W). -/
def Fld.thmDomSelDomain : Fld := ⟨.thmDomSel, 0, 5, .rw, 0, .warm, true⟩
/-- THM_DOM_DATA.BROKEN[63:56] (R388); RO, reset 0 (C). -/
def Fld.thmDomDataBroken : Fld := ⟨.thmDomData, 56, 8, .ro, 0, .cold, false⟩
/-- THM_DOM_DATA.SENSOR[55:48] (R388); RO, reset 0 (C). -/
def Fld.thmDomDataSensor : Fld := ⟨.thmDomData, 48, 8, .ro, 0, .cold, false⟩
/-- THM_DOM_DATA.TRIP[47:32] (R388); RO, reset table value (C). -/
def Fld.thmDomDataTrip : Fld := ⟨.thmDomData, 32, 16, .ro, 0, .cold, false⟩
/-- THM_DOM_DATA.THROTTLE[31:16] (R388); RO, reset table value (C). -/
def Fld.thmDomDataThrottle : Fld := ⟨.thmDomData, 16, 16, .ro, 0, .cold, false⟩
/-- THM_DOM_DATA.TEMP[15:0] (R388); RO, reset 0 (C). -/
def Fld.thmDomDataTemp : Fld := ⟨.thmDomData, 0, 16, .ro, 0, .cold, false⟩
/-- THM_SENS_DATA.STATE[34:32] (R388); RO, reset 0 (C). -/
def Fld.thmSensDataState : Fld := ⟨.thmSensData, 32, 3, .ro, 0, .cold, false⟩
/-- THM_SENS_DATA.RAW[31:16] (R388); RO, reset 0 (C). -/
def Fld.thmSensDataRaw : Fld := ⟨.thmSensData, 16, 16, .ro, 0, .cold, false⟩
/-- THM_SENS_DATA.READING[15:0] (R388); RO, reset 0 (C). -/
def Fld.thmSensDataReading : Fld := ⟨.thmSensData, 0, 16, .ro, 0, .cold, false⟩
/-- THM_TRIP.LATCHED[63:63] (R388); RO, reset —. -/
def Fld.thmTripLatched : Fld := ⟨.thmTrip, 63, 1, .ro, 0, .set, false⟩
/-- THM_TRIP.DOMAIN[62:58] (R388); RO, reset —. -/
def Fld.thmTripDomain : Fld := ⟨.thmTrip, 58, 5, .ro, 0, .set, false⟩
/-- THM_TRIP.SENSOR[57:50] (R388); RO, reset —. -/
def Fld.thmTripSensor : Fld := ⟨.thmTrip, 50, 8, .ro, 0, .set, false⟩
/-- THM_TRIP.TIME[47:0] (R388); RO, reset —. -/
def Fld.thmTripTime : Fld := ⟨.thmTrip, 0, 48, .ro, 0, .set, false⟩
/-- CLK_STATUS.UNLOCKS[63:48] (R388); RO, reset 0 (C). -/
def Fld.clkStatusUnlocks : Fld := ⟨.clkStatus, 48, 16, .ro, 0, .cold, false⟩
/-- CLK_STATUS.UNLOCKED[47:40] (R388); RO, reset 0 (C). -/
def Fld.clkStatusUnlocked : Fld := ⟨.clkStatus, 40, 8, .ro, 0, .cold, false⟩
/-- CLK_STATUS.SOURCE[1:1] (R388); RO, reset CLKSEL (C). -/
def Fld.clkStatusSource : Fld := ⟨.clkStatus, 1, 1, .ro, 0, .cold, false⟩
/-- CLK_STATUS.REF_OK[0:0] (R388); RO, reset 0 (C). -/
def Fld.clkStatusRefOk : Fld := ⟨.clkStatus, 0, 1, .ro, 0, .cold, false⟩
/-- CLK_REF.VALID[32:32] (R388); RO, reset 0 (C). -/
def Fld.clkRefValid : Fld := ⟨.clkRef, 32, 1, .ro, 0, .cold, false⟩
/-- CLK_REF.OFFSET[31:0] (R388); RO, reset 0 (C). -/
def Fld.clkRefOffset : Fld := ⟨.clkRef, 0, 32, .ro, 0, .cold, false⟩

/-! Fields of 18_security.md. -/

/-- SEC_LOCK.LOCKED[0:0] (R406); RO, reset 0 (W). -/
def Fld.secLockLocked : Fld := ⟨.secLock, 0, 1, .ro, 0, .warm, false⟩
/-- SEC_STATUS.PERMS[63:56] (R406); RO, reset 0 (W). -/
def Fld.secStatusPerms : Fld := ⟨.secStatus, 56, 8, .ro, 0, .warm, false⟩
/-- SEC_STATUS.TOKEN[48:48] (R406); RO, reset 0 (W). -/
def Fld.secStatusToken : Fld := ⟨.secStatus, 48, 1, .ro, 0, .warm, false⟩
/-- SEC_STATUS.OWN_FUSES[45:40] (R406); RO, reset —. -/
def Fld.secStatusOwnFuses : Fld := ⟨.secStatus, 40, 6, .ro, 0, .set, false⟩
/-- SEC_STATUS.OWNER[32:32] (R406); RO, reset —. -/
def Fld.secStatusOwner : Fld := ⟨.secStatus, 32, 1, .ro, 0, .set, false⟩
/-- SEC_STATUS.SVN[6:0] (R406); RO, reset —. -/
def Fld.secStatusSvn : Fld := ⟨.secStatus, 0, 7, .ro, 0, .set, false⟩
/-- SEC_NONCE.NONCE[63:0] (R406); RO, reset —. -/
def Fld.secNonceNonce : Fld := ⟨.secNonce, 0, 64, .ro, 0, .set, false⟩
/-- SEC_TOKEN_CTRL.END[2:2] (R406); WO, reset 0 (W). -/
def Fld.secTokenCtrlEnd : Fld := ⟨.secTokenCtrl, 2, 1, .wo, 0, .warm, false⟩
/-- SEC_TOKEN_CTRL.NEW_NONCE[1:1] (R406); WO, reset 0 (W). -/
def Fld.secTokenCtrlNewNonce : Fld := ⟨.secTokenCtrl, 1, 1, .wo, 0, .warm, false⟩
/-- SEC_TOKEN_CTRL.SUBMIT[0:0] (R406); WO, reset 0 (W). -/
def Fld.secTokenCtrlSubmit : Fld := ⟨.secTokenCtrl, 0, 1, .wo, 0, .warm, false⟩
/-- SEC_TOKEN_STATUS.RESULT[63:60] (R406); RO, reset 0 (W). -/
def Fld.secTokenStatusResult : Fld := ⟨.secTokenStatus, 60, 4, .ro, 0, .warm, false⟩
/-- SEC_TOKEN_STATUS.EXPIRY[47:0] (R406); RO, reset 0 (W). -/
def Fld.secTokenStatusExpiry : Fld := ⟨.secTokenStatus, 0, 48, .ro, 0, .warm, false⟩
/-- SEC_FAIL_CNT.SIG[63:32] (R406); RO, reset 0 (C). -/
def Fld.secFailCntSig : Fld := ⟨.secFailCnt, 32, 32, .ro, 0, .cold, false⟩
/-- SEC_FAIL_CNT.TOKEN[31:0] (R406); RO, reset 0 (C). -/
def Fld.secFailCntToken : Fld := ⟨.secFailCnt, 0, 32, .ro, 0, .cold, false⟩
/-- SEC_TOKEN_BUF.DATA[63:0] (R406); WO, reset 0 (W). -/
def Fld.secTokenBufData : Fld := ⟨.secTokenBuf, 0, 64, .wo, 0, .warm, false⟩

/-! Fields of 19_availability_management.md. -/

/-- EVT_HEAD.SEQ[63:0] (R430); RO, reset 0 (C). -/
def Fld.evtHeadSeq : Fld := ⟨.evtHead, 0, 64, .ro, 0, .cold, false⟩
/-- EVT_SEL.SEQ[63:0] (R430); RW, reset 0 (W). -/
def Fld.evtSelSeq : Fld := ⟨.evtSel, 0, 64, .rw, 0, .warm, true⟩
/-- EVT_ALERT.HALT[6:6] (R430); W1C, reset 0 (C). -/
def Fld.evtAlertHalt : Fld := ⟨.evtAlert, 6, 1, .w1c, 0, .cold, false⟩
/-- EVT_ALERT.BUDGET[5:5] (R430); W1C, reset 0 (C). -/
def Fld.evtAlertBudget : Fld := ⟨.evtAlert, 5, 1, .w1c, 0, .cold, false⟩
/-- EVT_ALERT.JNL_DROP[4:4] (R430); W1C, reset 0 (C). -/
def Fld.evtAlertJnlDrop : Fld := ⟨.evtAlert, 4, 1, .w1c, 0, .cold, false⟩
/-- EVT_ALERT.AGEING[3:3] (R430); W1C, reset 0 (C). -/
def Fld.evtAlertAgeing : Fld := ⟨.evtAlert, 3, 1, .w1c, 0, .cold, false⟩
/-- EVT_ALERT.STALE[2:2] (R430); W1C, reset 0 (C). -/
def Fld.evtAlertStale : Fld := ⟨.evtAlert, 2, 1, .w1c, 0, .cold, false⟩
/-- EVT_ALERT.FENCE[1:1] (R430); W1C, reset 0 (C). -/
def Fld.evtAlertFence : Fld := ⟨.evtAlert, 1, 1, .w1c, 0, .cold, false⟩
/-- EVT_ALERT.ERROR[0:0] (R430); W1C, reset 0 (C). -/
def Fld.evtAlertError : Fld := ⟨.evtAlert, 0, 1, .w1c, 0, .cold, false⟩
/-- EVT_AVAIL.US[63:0] (R430); RO, reset 0 (C). -/
def Fld.evtAvailUs : Fld := ⟨.evtAvail, 0, 64, .ro, 0, .cold, false⟩
/-- EVT_AVAIL_WARN.MS[31:0] (R430); RW, reset 15,800 (W). -/
def Fld.evtAvailWarnMs : Fld := ⟨.evtAvailWarn, 0, 32, .rw, 0x3db8, .warm, false⟩
/-- EVT_ERR_CNT.UPSETS[63:48] (R430); RO, reset 0 (C). -/
def Fld.evtErrCntUpsets : Fld := ⟨.evtErrCnt, 48, 16, .ro, 0, .cold, false⟩
/-- EVT_ERR_CNT.INTERNAL[47:32] (R430); RO, reset 0 (C). -/
def Fld.evtErrCntInternal : Fld := ⟨.evtErrCnt, 32, 16, .ro, 0, .cold, false⟩
/-- EVT_ERR_CNT.WARN_PLUS[31:0] (R430); RO, reset 0 (C). -/
def Fld.evtErrCntWarnPlus : Fld := ⟨.evtErrCnt, 0, 32, .ro, 0, .cold, false⟩
/-- EVT_ENTRY.DATA[63:0] (R430); RO, reset 0 (C). -/
def Fld.evtEntryData : Fld := ⟨.evtEntry, 0, 64, .ro, 0, .cold, false⟩
/-- MGT_STATUS.I3C_ADDR[55:48] (R430); RO, reset 0 (C). -/
def Fld.mgtStatusI3cAddr : Fld := ⟨.mgtStatus, 48, 8, .ro, 0, .cold, false⟩
/-- MGT_STATUS.EID_I3C[47:40] (R430); RO, reset 0 (C). -/
def Fld.mgtStatusEidI3c : Fld := ⟨.mgtStatus, 40, 8, .ro, 0, .cold, false⟩
/-- MGT_STATUS.EID_VDM[39:32] (R430); RO, reset 0 (C). -/
def Fld.mgtStatusEidVdm : Fld := ⟨.mgtStatus, 32, 8, .ro, 0, .cold, false⟩
/-- MGT_STATUS.HALT[9:8] (R430); RO, reset 0 (C). -/
def Fld.mgtStatusHalt : Fld := ⟨.mgtStatus, 8, 2, .ro, 0, .cold, false⟩
/-- MGT_STATUS.UPDATE[2:0] (R430); RO, reset 0 (W). -/
def Fld.mgtStatusUpdate : Fld := ⟨.mgtStatus, 0, 3, .ro, 0, .warm, false⟩
/-- MGT_FENCE_CTRL.CLEAR[7:0] (R430); WO, reset 0 (W). -/
def Fld.mgtFenceCtrlClear : Fld := ⟨.mgtFenceCtrl, 0, 8, .wo, 0, .warm, false⟩
/-- MGT_STEP_SEL.CONTEXT[11:0] (R430); RW, reset 0 (W). -/
def Fld.mgtStepSelContext : Fld := ⟨.mgtStepSel, 0, 12, .rw, 0, .warm, true⟩
/-- MGT_STEP_EXT.STEPS[63:0] (R430); RO, reset 0 (X). -/
def Fld.mgtStepExtSteps : Fld := ⟨.mgtStepExt, 0, 64, .ro, 0, .ctx, false⟩

/-! Fields of 20_register_map.md. -/

/-- DEV_VENDOR.VENDOR[15:0] (R443); RO, reset Oxbecy vendor identifier (C). -/
def Fld.devVendorVendor : Fld := ⟨.devVendor, 0, 16, .ro, 0, .cold, false⟩
/-- DEV_DEVICE.DEVICE[15:0] (R443); RO, reset KG2-800 device identifier (C). -/
def Fld.devDeviceDevice : Fld := ⟨.devDevice, 0, 16, .ro, 0, .cold, false⟩
/-- DEV_REVISION.PACKAGE[15:8] (R443); RO, reset 0 (C). -/
def Fld.devRevisionPackage : Fld := ⟨.devRevision, 8, 8, .ro, 0, .cold, false⟩
/-- DEV_REVISION.SILICON[7:0] (R443); RO, reset 0xB0 (C). -/
def Fld.devRevisionSilicon : Fld := ⟨.devRevision, 0, 8, .ro, 0xb0, .cold, false⟩
/-- DEV_SERIAL.SERIAL[63:0] (R443); RO, reset fused value (C). -/
def Fld.devSerialSerial : Fld := ⟨.devSerial, 0, 64, .ro, 0, .cold, false⟩
/-- DEV_FW_VERSION.VERSION[63:0] (R443); RO, reset —. -/
def Fld.devFwVersionVersion : Fld := ⟨.devFwVersion, 0, 64, .ro, 0, .set, false⟩
/-- DEV_CAP0.THREADS[63:48] (R443); RO, reset 512 (C). -/
def Fld.devCap0Threads : Fld := ⟨.devCap0, 48, 16, .ro, 0x200, .cold, false⟩
/-- DEV_CAP0.CONTEXTS[47:32] (R443); RO, reset 4,096 (C). -/
def Fld.devCap0Contexts : Fld := ⟨.devCap0, 32, 16, .ro, 0x1000, .cold, false⟩
/-- DEV_CAP0.HONEYCOMBS[31:24] (R443); RO, reset 10 (C). -/
def Fld.devCap0Honeycombs : Fld := ⟨.devCap0, 24, 8, .ro, 0xa, .cold, false⟩
/-- DEV_CAP0.HNX_PORTS[23:16] (R443); RO, reset 8 (C). -/
def Fld.devCap0HnxPorts : Fld := ⟨.devCap0, 16, 8, .ro, 8, .cold, false⟩
/-- DEV_CAP0.BAYS[15:8] (R443); RO, reset 4 (C). -/
def Fld.devCap0Bays : Fld := ⟨.devCap0, 8, 8, .ro, 4, .cold, false⟩
/-- DEV_CAP0.LATTICES[7:0] (R443); RO, reset 8 (C). -/
def Fld.devCap0Lattices : Fld := ⟨.devCap0, 0, 8, .ro, 8, .cold, false⟩
/-- DEV_CAP1.BUNDLE_VER[59:56] (R443); RO, reset 1 (C). -/
def Fld.devCap1BundleVer : Fld := ⟨.devCap1, 56, 4, .ro, 1, .cold, false⟩
/-- DEV_CAP1.RECIPE_VER[55:52] (R443); RO, reset 1 (C). -/
def Fld.devCap1RecipeVer : Fld := ⟨.devCap1, 52, 4, .ro, 1, .cold, false⟩
/-- DEV_CAP1.HNX_VER[51:48] (R443); RO, reset 2 (C). -/
def Fld.devCap1HnxVer : Fld := ⟨.devCap1, 48, 4, .ro, 2, .cold, false⟩
/-- DEV_CAP1.HOST_MEM_MAX[40:32] (R443); RO, reset 256 (C). -/
def Fld.devCap1HostMemMax : Fld := ⟨.devCap1, 32, 9, .ro, 0x100, .cold, false⟩
/-- DEV_CAP1.SYNC_IDS[31:16] (R443); RO, reset 1,024 (C). -/
def Fld.devCap1SyncIds : Fld := ⟨.devCap1, 16, 16, .ro, 0x400, .cold, false⟩
/-- DEV_CAP1.CELLAR_GIB[15:0] (R443); RO, reset 384 (C). -/
def Fld.devCap1CellarGib : Fld := ⟨.devCap1, 0, 16, .ro, 0x180, .cold, false⟩
/-- DEV_TIME.TIME[63:0] (R443); RO, reset —. -/
def Fld.devTimeTime : Fld := ⟨.devTime, 0, 64, .ro, 0, .set, false⟩
/-- DEV_STATUS.SERVING[63:56] (R443); RO, reset —. -/
def Fld.devStatusServing : Fld := ⟨.devStatus, 56, 8, .ro, 0, .set, false⟩
/-- DEV_STATUS.FENCED[55:48] (R443); RO, reset —. -/
def Fld.devStatusFenced : Fld := ⟨.devStatus, 48, 8, .ro, 0, .set, false⟩
/-- DEV_STATUS.SUSPECT[47:40] (R443); RO, reset —. -/
def Fld.devStatusSuspect : Fld := ⟨.devStatus, 40, 8, .ro, 0, .set, false⟩
/-- DEV_STATUS.STALE[39:32] (R443); RO, reset —. -/
def Fld.devStatusStale : Fld := ⟨.devStatus, 32, 8, .ro, 0, .set, false⟩
/-- DEV_STATUS.HNX_ACTIVE[31:24] (R443); RO, reset —. -/
def Fld.devStatusHnxActive : Fld := ⟨.devStatus, 24, 8, .ro, 0, .set, false⟩
/-- DEV_STATUS.BAY_STATE[23:12] (R443); RO, reset —. -/
def Fld.devStatusBayState : Fld := ⟨.devStatus, 12, 12, .ro, 0, .set, false⟩
/-- DEV_STATUS.STAGE[11:8] (R443); RO, reset —. -/
def Fld.devStatusStage : Fld := ⟨.devStatus, 8, 4, .ro, 0, .set, false⟩
/-- DEV_STATUS.TRIP[7:7] (R443); RO, reset —. -/
def Fld.devStatusTrip : Fld := ⟨.devStatus, 7, 1, .ro, 0, .set, false⟩
/-- DEV_STATUS.HALT[6:6] (R443); RO, reset —. -/
def Fld.devStatusHalt : Fld := ⟨.devStatus, 6, 1, .ro, 0, .set, false⟩
/-- DEV_STATUS.ALERT[5:5] (R443); RO, reset —. -/
def Fld.devStatusAlert : Fld := ⟨.devStatus, 5, 1, .ro, 0, .set, false⟩
/-- DEV_STATUS.FAULT[4:4] (R443); RO, reset —. -/
def Fld.devStatusFault : Fld := ⟨.devStatus, 4, 1, .ro, 0, .set, false⟩
/-- DEV_STATUS.THROTTLE[3:3] (R443); RO, reset —. -/
def Fld.devStatusThrottle : Fld := ⟨.devStatus, 3, 1, .ro, 0, .set, false⟩
/-- DEV_STATUS.RESTARTING[2:2] (R443); RO, reset —. -/
def Fld.devStatusRestarting : Fld := ⟨.devStatus, 2, 1, .ro, 0, .set, false⟩
/-- DEV_STATUS.LOCKED[1:1] (R443); RO, reset —. -/
def Fld.devStatusLocked : Fld := ⟨.devStatus, 1, 1, .ro, 0, .set, false⟩
/-- DEV_STATUS.READY[0:0] (R443); RO, reset —. -/
def Fld.devStatusReady : Fld := ⟨.devStatus, 0, 1, .ro, 0, .set, false⟩
/-- DEV_STATUS_CHG.RESTART_DONE[9:9] (R443); W1C, reset 0 (C). -/
def Fld.devStatusChgRestartDone : Fld := ⟨.devStatusChg, 9, 1, .w1c, 0, .cold, false⟩
/-- DEV_STATUS_CHG.HALT[8:8] (R443); W1C, reset 0 (C). -/
def Fld.devStatusChgHalt : Fld := ⟨.devStatusChg, 8, 1, .w1c, 0, .cold, false⟩
/-- DEV_STATUS_CHG.STAGE[7:7] (R443); W1C, reset 0 (C). -/
def Fld.devStatusChgStage : Fld := ⟨.devStatusChg, 7, 1, .w1c, 0, .cold, false⟩
/-- DEV_STATUS_CHG.HNX[6:6] (R443); W1C, reset 0 (C). -/
def Fld.devStatusChgHnx : Fld := ⟨.devStatusChg, 6, 1, .w1c, 0, .cold, false⟩
/-- DEV_STATUS_CHG.BAY_STATE[5:5] (R443); W1C, reset 0 (C). -/
def Fld.devStatusChgBayState : Fld := ⟨.devStatusChg, 5, 1, .w1c, 0, .cold, false⟩
/-- DEV_STATUS_CHG.STALE[4:4] (R443); W1C, reset 0 (C). -/
def Fld.devStatusChgStale : Fld := ⟨.devStatusChg, 4, 1, .w1c, 0, .cold, false⟩
/-- DEV_STATUS_CHG.SUSPECT[3:3] (R443); W1C, reset 0 (C). -/
def Fld.devStatusChgSuspect : Fld := ⟨.devStatusChg, 3, 1, .w1c, 0, .cold, false⟩
/-- DEV_STATUS_CHG.FENCED[2:2] (R443); W1C, reset 0 (C). -/
def Fld.devStatusChgFenced : Fld := ⟨.devStatusChg, 2, 1, .w1c, 0, .cold, false⟩
/-- DEV_STATUS_CHG.SERVING[1:1] (R443); W1C, reset 0 (C). -/
def Fld.devStatusChgServing : Fld := ⟨.devStatusChg, 1, 1, .w1c, 0, .cold, false⟩
/-- DEV_STATUS_CHG.ALERT[0:0] (R443); W1C, reset 0 (C). -/
def Fld.devStatusChgAlert : Fld := ⟨.devStatusChg, 0, 1, .w1c, 0, .cold, false⟩
/-- DEV_STATUS_MASK.EN[9:0] (R443); RW, reset 0x354 (C). -/
def Fld.devStatusMaskEn : Fld := ⟨.devStatusMask, 0, 10, .rw, 0x354, .cold, false⟩
/-- DEV_REFUSED.COUNT[63:32] (R443); RO, reset 0 (C). -/
def Fld.devRefusedCount : Fld := ⟨.devRefused, 32, 32, .ro, 0, .cold, false⟩
/-- DEV_REFUSED.PATH[31:30] (R443); RO, reset 0 (C). -/
def Fld.devRefusedPath : Fld := ⟨.devRefused, 30, 2, .ro, 0, .cold, false⟩
/-- DEV_REFUSED.OFFSET[25:0] (R443); RO, reset 0 (C). -/
def Fld.devRefusedOffset : Fld := ⟨.devRefused, 0, 26, .ro, 0, .cold, false⟩
/-- DEV_SCRATCH.DATA[63:0] (R443); RW, reset 0 (W). -/
def Fld.devScratchData : Fld := ⟨.devScratch, 0, 64, .rw, 0, .warm, false⟩

/-- The fields of a register (its field map). -/
def Reg.fields : Reg → List Fld
  | .latId => [.latIdHoneycomb, .latIdBay, .latIdLattice]
  | .latCtrl => [.latCtrlFenceReq, .latCtrlKeepLit, .latCtrlEn]
  | .latState => [.latStateCause, .latStateTarget, .latStatePhase, .latStateState]
  | .latStatus => [.latStatusSuspectNow, .latStatusCalStale, .latStatusSplitActive, .latStatusPatchFull]
  | .latRows => [.latRowsPatched, .latRowsDead, .latRowsAvail]
  | .latEntryTime => [.latEntryTimeTime]
  | .latBursts => [.latBurstsCount]
  | .latSwaps => [.latSwapsCount]
  | .latSuspectCnt => [.latSuspectCntEntries, .latSuspectCntRepeats]
  | .latRewindCnt => [.latRewindCntLate, .latRewindCntRewinds]
  | .latDemIndex => [.latDemIndexIndex]
  | .latDemData => [.latDemDataParkW, .latDemDataKind, .latDemDataHandling, .latDemDataRow, .latDemDataColumn]
  | .latRowmask => [.latRowmaskMask]
  | .latResid => [.latResidPeak, .latResidBias, .latResidRms]
  | .latRange => [.latRangeAuto, .latRangeLl, .latRangeHl, .latRangeLh, .latRangeHh]
  | .latClipCnt => [.latClipCntCount]
  | .latFmtCnt => [.latFmtCntAlign, .latFmtCntNonfinite]
  | .rowCtrl => [.rowCtrlSrFixed]
  | .rowOvfCnt => [.rowOvfCntFaults, .rowOvfCntRepeats]
  | .rowOvfCause => [.rowOvfCauseInf, .rowOvfCauseInt, .rowOvfCauseClip]
  | .rowStatus => [.rowStatusHoldActive, .rowStatusHoldCtx, .rowStatusPendRep, .rowStatusInflight]
  | .rowDrain => [.rowDrainLost, .rowDrainMaxNs, .rowDrainLastNs]
  | .vecRedCnt => [.vecRedCntOvf, .vecRedCntDone]
  | .latSkipSlots => [.latSkipSlotsSlots]
  | .latSkipPlanes => [.latSkipPlanesAbsent, .latSkipPlanesSkipped]
  | .vecRouteCnt => [.vecRouteCntDropped, .vecRouteCntSteps]
  | .vecGateCnt => [.vecGateCntOver, .vecGateCntSteps]
  | .vecExitCnt => [.vecExitCntExited, .vecExitCntSteps]
  | .ctxSummary0 => [.ctxSummary0Waiting, .ctxSummary0Running, .ctxSummary0Bound, .ctxSummary0Free]
  | .ctxSummary1 => [.ctxSummary1AdmitWait, .ctxSummary1Faulted, .ctxSummary1Draining]
  | .ctxSel => [.ctxSelWord, .ctxSelContext]
  | .ctxData => [.ctxDataData]
  | .ctxEventCnt => [.ctxEventCntFaults, .ctxEventCntLeases, .ctxEventCntRefused]
  | .seqStatus => [.seqStatusCached, .seqStatusIdle, .seqStatusWaiting, .seqStatusStalled, .seqStatusReady]
  | .seqIssueCnt => [.seqIssueCntSteps]
  | .seqGrantCnt => [.seqGrantCntYields, .seqGrantCntIdleBursts]
  | .seqStreams => [.seqStreamsPoolKib, .seqStreamsBlocked, .seqStreamsActive]
  | .seqSpill => [.seqSpillMib, .seqSpillEvents]
  | .seqSpillTime => [.seqSpillTimeTime]
  | .bayLarderCtrl => [.bayLarderCtrlFlush, .bayLarderCtrlProtWays]
  | .bayLarderHits => [.bayLarderHitsLines]
  | .bayLarderMisses => [.bayLarderMissesLines]
  | .bayLarderEvents => [.bayLarderEventsMerged, .bayLarderEventsEccRefetch, .bayLarderEventsEccCorr]
  | .bayLarderInval => [.bayLarderInvalLines]
  | .celEccCnt => [.celEccCntCorr, .celEccCntUncorr, .celEccCntLinkRetry]
  | .celUeAddr => [.celUeAddrSource, .celUeAddrLine]
  | .celPoison => [.celPoisonLines]
  | .celScrubStatus => [.celScrubStatusPasses, .celScrubStatusRefresh2x, .celScrubStatusForced, .celScrubStatusProgress]
  | .bayCelScrubCtrl => [.bayCelScrubCtrlPassH]
  | .bayPantryEcc => [.bayPantryEccCorr, .bayPantryEccUncorr]
  | .bayFeStatus => [.bayFeStatusWaiting, .bayFeStatusWords]
  | .celMapHost => [.celMapHostHostGib]
  | .celMapStore => [.celMapStoreTables, .celMapStoreUsed]
  | .celMapAttic => [.celMapAtticPages, .celMapAtticFree]
  | .celMapWin => [.celMapWinRejects, .celMapWinDeclared]
  | .wchSlots => [.wchSlotsPolled, .wchSlotsUsed, .wchSlotsReadyUsed]
  | .wchWaiters => [.wchWaitersGated, .wchWaitersThreads]
  | .wchWake => [.wchWakeMaxNs, .wchWakeLastNs]
  | .wchEventCnt => [.wchEventCntUnd, .wchEventCntSat, .wchEventCntShort, .wchEventCntTimeouts]
  | .wchSel => [.wchSelSlot]
  | .wchSlotData => [.wchSlotDataValid, .wchSlotDataHost, .wchSlotDataAddr]
  | .wchSlotOwner => [.wchSlotOwnerContext, .wchSlotOwnerWaiters, .wchSlotOwnerReady, .wchSlotOwnerSid]
  | .wchHoldCtrl => [.wchHoldCtrlTimeoutUs]
  | .wchHoldStatus => [.wchHoldStatusMax, .wchHoldStatusNow]
  | .wchHoldCnt => [.wchHoldCntHeld, .wchHoldCntLostRx, .wchHoldCntLostTx]
  | .seqGov => [.seqGovWithheld, .seqGovMinAllow, .seqGovAllow]
  | .cxlLinkStatus => [.cxlLinkStatusMemActive, .cxlLinkStatusCrs, .cxlLinkStatusState, .cxlLinkStatusBiEn, .cxlLinkStatusFlit, .cxlLinkStatusLevel, .cxlLinkStatusWidth, .cxlLinkStatusRate]
  | .cxlLinkCnt => [.cxlLinkCntDown, .cxlLinkCntRetrain, .cxlLinkCntReplay]
  | .cxlHdmStatus => [.cxlHdmStatusSfFull, .cxlHdmStatusSfUsed]
  | .cxlHdmCtrl => [.cxlHdmCtrlRecallNs]
  | .cxlHdmCnt => [.cxlHdmCntRecalls, .cxlHdmCntPoisonRd, .cxlHdmCntInactive]
  | .cxlCacheStatus => [.cxlCacheStatusOutstanding, .cxlCacheStatusWatched]
  | .cxlDiagCtrl => [.cxlDiagCtrlBase, .cxlDiagCtrlEn]
  | .cxlInjCtrl => [.cxlInjCtrlDelayUs, .cxlInjCtrlCount, .cxlInjCtrlMode]
  | .hnxPortCtrl => [.hnxPortCtrlRetrain, .hnxPortCtrlMaxVer, .hnxPortCtrlEn]
  | .hnxPortStatus => [.hnxPortStatusPeerDev, .hnxPortStatusPeerPort, .hnxPortStatusFibre, .hnxPortStatusLanesUp, .hnxPortStatusVersion, .hnxPortStatusState]
  | .hnxLaneCnt => [.hnxLaneCntFecCorr, .hnxLaneCntFecUncorr, .hnxLaneCntRetrains]
  | .hnxRetryCnt => [.hnxRetryCntReplayed, .hnxRetryCntNaks]
  | .hnxCredits0 => [.hnxCredits0Bulk, .hnxCredits0Mcast, .hnxCredits0Signal, .hnxCredits0Control]
  | .hnxCredits1 => [.hnxCredits1Bulk, .hnxCredits1Mcast, .hnxCredits1Signal, .hnxCredits1Control]
  | .hnxTxFrames => [.hnxTxFramesCount]
  | .hnxRxFrames => [.hnxRxFramesCount]
  | .hnxPortEvt => [.hnxPortEvtStalls, .hnxPortEvtRouteDiscard, .hnxPortEvtE2eFail]
  | .hnxId => [.hnxIdProfile, .hnxIdDevice]
  | .hnxFlowStatus => [.hnxFlowStatusRxUsed, .hnxFlowStatusTxUsed, .hnxFlowStatusPoolKib]
  | .hnxFlowCnt => [.hnxFlowCntLostTx, .hnxFlowCntSkips, .hnxFlowCntNackRx]
  | .hnxMcCtrl => [.hnxMcCtrlStallUs]
  | .hnxMcCnt => [.hnxMcCntRepairs, .hnxMcCntPrunes, .hnxMcCntV1Groups]
  | .hnxPmapCtrl => [.hnxPmapCtrlProfile]
  | .hnxPmapStatus => [.hnxPmapStatusChanges, .hnxPmapStatusBusy, .hnxPmapStatusMap]
  | .fltHnxCtrl => [.fltHnxCtrlCount, .fltHnxCtrlInterval, .fltHnxCtrlDepth, .fltHnxCtrlClasses, .fltHnxCtrlLanes, .fltHnxCtrlPort, .fltHnxCtrlMode]
  | .fltHnxCnt => [.fltHnxCntDone]
  | .tmpCtrl => [.tmpCtrlLowEn, .tmpCtrlIdPeriod]
  | .tmpStatus => [.tmpStatusLocked, .tmpStatusFfActive, .tmpStatusRelocking]
  | .tmpEventCnt => [.tmpEventCntHops, .tmpEventCntWrongLine, .tmpEventCntSpanMoves, .tmpEventCntDead]
  | .tmpBankActive => [.tmpBankActiveBank]
  | .tmpBankSwap => [.tmpBankSwapSwap]
  | .tmpBankBusy => [.tmpBankBusyBusy]
  | .tmpCoefSel => [.tmpCoefSelClass, .tmpCoefSelBank, .tmpCoefSelWord]
  | .tmpCoefData => [.tmpCoefDataData]
  | .tmpRingSel => [.tmpRingSelRing]
  | .tmpRingData => [.tmpRingDataClass, .tmpRingDataState, .tmpRingDataSpan, .tmpRingDataLockErr, .tmpRingDataCode, .tmpRingDataSetpoint]
  | .tmpTraceCtrl => [.tmpTraceCtrlRing, .tmpTraceCtrlSignal, .tmpTraceCtrlTrigger, .tmpTraceCtrlMode, .tmpTraceCtrlTrig, .tmpTraceCtrlStopped, .tmpTraceCtrlPost]
  | .tmpTraceSel => [.tmpTraceSelChannel, .tmpTraceSelEntry]
  | .tmpTraceData => [.tmpTraceDataValue, .tmpTraceDataTime]
  | .tmpCombStatus => [.tmpCombStatusWear, .tmpCombStatusAgeing, .tmpCombStatusLowPower, .tmpCombStatusSpacingLock, .tmpCombStatusState]
  | .tmpCombLine => [.tmpCombLinePower, .tmpCombLineSet, .tmpCombLineLine]
  | .tmpCombEvents => [.tmpCombEventsDrops, .tmpCombEventsStarts, .tmpCombEventsStartFail]
  | .htrSel => [.htrSelRing, .htrSelCluster]
  | .htrCluster => [.htrClusterQdepth, .htrClusterHold, .htrClusterSpan, .htrClusterDen, .htrClusterDph, .htrClusterAmp, .htrClusterRate, .htrClusterStep, .htrClusterFtw]
  | .htrRing => [.htrRingFault, .htrRingP, .htrRingTarget, .htrRingCode]
  | .htrEventCnt => [.htrEventCntFaults, .htrEventCntHeld, .htrEventCntMerges]
  | .monSel => [.monSelConverter]
  | .monConv => [.monConvRefFault, .monConvRelocking, .monConvMode, .monConvDrops]
  | .monWin => [.monWinClass, .monWinWin]
  | .monTest => [.monTestCont, .monTestConverter]
  | .calCtrl => [.calCtrlUseFactory, .calCtrlStart, .calCtrlSweepLog2, .calCtrlProbeLog2]
  | .calStatus => [.calStatusCause, .calStatusEpisodeMs, .calStatusTemp, .calStatusRampStep, .calStatusRamp, .calStatusStale, .calStatusState]
  | .calDebt => [.calDebtProbe, .calDebtSweep]
  | .calForcedCnt => [.calForcedCntProbe, .calForcedCntIdent, .calForcedCntSweepK]
  | .calEventCnt => [.calEventCntRamps, .calEventCntStale, .calEventCntEpisodes]
  | .calConverged => [.calConvergedTime]
  | .calStoreCtrl => [.calStoreCtrlSave]
  | .calStoreStatus => [.calStoreStatusBusy, .calStoreStatusCopy, .calStoreStatusTime]
  | .nvmStart => [.nvmStartDetail, .nvmStartCause, .nvmStartKind, .nvmStartCfgFallback, .nvmStartCfgSlot, .nvmStartFwFallback, .nvmStartFwSlot, .nvmStartStage]
  | .nvmStartTime => [.nvmStartTimeWarmUs, .nvmStartTimeColdUs]
  | .nvmCtrl => [.nvmCtrlRestart]
  | .nvmCfg => [.nvmCfgActiveSeq]
  | .nvmCfgPending => [.nvmCfgPendingSeq]
  | .nvmTemp => [.nvmTempFlash, .nvmTempHubMax, .nvmTempSensorBad, .nvmTempWriteOk]
  | .jnlStatus => [.jnlStatusFill, .jnlStatusCompacting, .jnlStatusErasing, .jnlStatusHalf, .jnlStatusHolding]
  | .jnlSeq => [.jnlSeqNext]
  | .jnlHold => [.jnlHoldDropped, .jnlHoldRecords]
  | .jnlWear => [.jnlWearEventsDropped, .jnlWearErases1, .jnlWearErases0]
  | .jnlReplay => [.jnlReplayRecords, .jnlReplayTorn]
  | .jnlCtrl => [.jnlCtrlCompact]
  | .pwrLimit => [.pwrLimitEffective, .pwrLimitSet]
  | .pwrPkg => [.pwrPkgPeakW, .pwrPkgHalfClk, .pwrPkgAvgW]
  | .pwrEventCnt => [.pwrEventCntStepsDown, .pwrEventCntRiseCuts, .pwrEventCntRefused]
  | .pwrBayCtrl => [.pwrBayCtrlProofPeriod, .pwrBayCtrlIdleState]
  | .pwrBayStatus => [.pwrBayStatusLastCause, .pwrBayStatusLastBlock, .pwrBayStatusPendValid, .pwrBayStatusPending, .pwrBayStatusBusy, .pwrBayStatusTarget, .pwrBayStatusState]
  | .pwrProofCnt => [.pwrProofCntSlices, .pwrProofCntTrims, .pwrProofCntMarked]
  | .thmStatus => [.thmStatusRise, .thmStatusPicCold, .thmStatusAlert, .thmStatusThrottling]
  | .thmPkg => [.thmPkgDomain, .thmPkgMax]
  | .thmDomSel => [.thmDomSelSensor, .thmDomSelDomain]
  | .thmDomData => [.thmDomDataBroken, .thmDomDataSensor, .thmDomDataTrip, .thmDomDataThrottle, .thmDomDataTemp]
  | .thmSensData => [.thmSensDataState, .thmSensDataRaw, .thmSensDataReading]
  | .thmTrip => [.thmTripLatched, .thmTripDomain, .thmTripSensor, .thmTripTime]
  | .clkStatus => [.clkStatusUnlocks, .clkStatusUnlocked, .clkStatusSource, .clkStatusRefOk]
  | .clkRef => [.clkRefValid, .clkRefOffset]
  | .secLock => [.secLockLocked]
  | .secStatus => [.secStatusPerms, .secStatusToken, .secStatusOwnFuses, .secStatusOwner, .secStatusSvn]
  | .secNonce => [.secNonceNonce]
  | .secTokenCtrl => [.secTokenCtrlEnd, .secTokenCtrlNewNonce, .secTokenCtrlSubmit]
  | .secTokenStatus => [.secTokenStatusResult, .secTokenStatusExpiry]
  | .secFailCnt => [.secFailCntSig, .secFailCntToken]
  | .secTokenBuf => [.secTokenBufData]
  | .evtHead => [.evtHeadSeq]
  | .evtSel => [.evtSelSeq]
  | .evtAlert => [.evtAlertHalt, .evtAlertBudget, .evtAlertJnlDrop, .evtAlertAgeing, .evtAlertStale, .evtAlertFence, .evtAlertError]
  | .evtAvail => [.evtAvailUs]
  | .evtAvailWarn => [.evtAvailWarnMs]
  | .evtErrCnt => [.evtErrCntUpsets, .evtErrCntInternal, .evtErrCntWarnPlus]
  | .evtEntry => [.evtEntryData]
  | .mgtStatus => [.mgtStatusI3cAddr, .mgtStatusEidI3c, .mgtStatusEidVdm, .mgtStatusHalt, .mgtStatusUpdate]
  | .mgtFenceCtrl => [.mgtFenceCtrlClear]
  | .mgtStepSel => [.mgtStepSelContext]
  | .mgtStepExt => [.mgtStepExtSteps]
  | .devVendor => [.devVendorVendor]
  | .devDevice => [.devDeviceDevice]
  | .devRevision => [.devRevisionPackage, .devRevisionSilicon]
  | .devSerial => [.devSerialSerial]
  | .devFwVersion => [.devFwVersionVersion]
  | .devCap0 => [.devCap0Threads, .devCap0Contexts, .devCap0Honeycombs, .devCap0HnxPorts, .devCap0Bays, .devCap0Lattices]
  | .devCap1 => [.devCap1BundleVer, .devCap1RecipeVer, .devCap1HnxVer, .devCap1HostMemMax, .devCap1SyncIds, .devCap1CellarGib]
  | .devTime => [.devTimeTime]
  | .devStatus => [.devStatusServing, .devStatusFenced, .devStatusSuspect, .devStatusStale, .devStatusHnxActive, .devStatusBayState, .devStatusStage, .devStatusTrip, .devStatusHalt, .devStatusAlert, .devStatusFault, .devStatusThrottle, .devStatusRestarting, .devStatusLocked, .devStatusReady]
  | .devStatusChg => [.devStatusChgRestartDone, .devStatusChgHalt, .devStatusChgStage, .devStatusChgHnx, .devStatusChgBayState, .devStatusChgStale, .devStatusChgSuspect, .devStatusChgFenced, .devStatusChgServing, .devStatusChgAlert]
  | .devStatusMask => [.devStatusMaskEn]
  | .devRefused => [.devRefusedCount, .devRefusedPath, .devRefusedOffset]
  | .devScratch => [.devScratchData]

/-- The block a register lies in (R443). -/
def Reg.block : Reg → Block
  | .devVendor | .devDevice | .devRevision | .devSerial | .devFwVersion => .device
  | .devCap0 | .devCap1 | .devTime | .devStatus | .devStatusChg => .device
  | .devStatusMask | .devRefused | .devScratch => .device
  | .ctxSummary0 | .ctxSummary1 | .ctxSel | .ctxData | .ctxEventCnt => .context
  | .celMapHost | .celMapStore | .celMapAttic | .celMapWin => .memoryMap
  | .wchHoldCtrl | .wchHoldStatus | .wchHoldCnt => .signalHold
  | .cxlLinkStatus | .cxlLinkCnt | .cxlHdmStatus | .cxlHdmCtrl | .cxlHdmCnt => .cxl
  | .cxlCacheStatus | .cxlDiagCtrl | .cxlInjCtrl => .cxl
  | .hnxId | .hnxFlowStatus | .hnxFlowCnt | .hnxMcCtrl | .hnxMcCnt => .henxo
  | .hnxPmapCtrl | .hnxPmapStatus => .henxo
  | .fltHnxCtrl | .fltHnxCnt => .fabricFault
  | .hnxPortCtrl | .hnxPortStatus | .hnxLaneCnt | .hnxRetryCnt | .hnxCredits0 => .port
  | .hnxCredits1 | .hnxTxFrames | .hnxRxFrames | .hnxPortEvt => .port
  | .pwrLimit | .pwrPkg | .pwrEventCnt => .power
  | .thmStatus | .thmPkg | .thmDomSel | .thmDomData | .thmSensData => .thermal
  | .thmTrip => .thermal
  | .clkStatus | .clkRef => .clock
  | .nvmStart | .nvmStartTime | .nvmCtrl | .nvmCfg | .nvmCfgPending => .nvm
  | .nvmTemp => .nvm
  | .jnlStatus | .jnlSeq | .jnlHold | .jnlWear | .jnlReplay => .journal
  | .jnlCtrl => .journal
  | .calStoreCtrl | .calStoreStatus => .calStore
  | .secLock | .secStatus | .secNonce | .secTokenCtrl | .secTokenStatus => .security
  | .secFailCnt | .secTokenBuf => .security
  | .evtHead | .evtSel | .evtAlert | .evtAvail | .evtAvailWarn => .event
  | .evtErrCnt | .evtEntry => .event
  | .mgtStatus | .mgtFenceCtrl | .mgtStepSel | .mgtStepExt => .management
  | .tmpCombStatus | .tmpCombLine | .tmpCombEvents => .comb
  | .bayLarderCtrl | .bayLarderHits | .bayLarderMisses | .bayLarderEvents | .bayLarderInval => .bay
  | .bayCelScrubCtrl | .bayPantryEcc | .bayFeStatus | .pwrBayCtrl | .pwrBayStatus => .bay
  | .pwrProofCnt => .bay
  | .seqStatus | .seqIssueCnt | .seqGrantCnt | .seqStreams | .seqSpill => .sequencer
  | .seqSpillTime | .seqGov => .sequencer
  | .wchSlots | .wchWaiters | .wchWake | .wchEventCnt | .wchSel => .watch
  | .wchSlotData | .wchSlotOwner => .watch
  | .tmpCtrl | .tmpStatus | .tmpEventCnt | .tmpBankActive | .tmpBankSwap => .temper
  | .tmpBankBusy | .tmpCoefSel | .tmpCoefData | .tmpRingSel | .tmpRingData => .temper
  | .tmpTraceCtrl | .tmpTraceSel | .tmpTraceData => .temper
  | .htrSel | .htrCluster | .htrRing | .htrEventCnt => .heater
  | .monSel | .monConv | .monWin | .monTest => .monitor
  | .celEccCnt | .celUeAddr | .celPoison | .celScrubStatus => .cellar
  | .latId | .latCtrl | .latState | .latStatus | .latRows => .lattice
  | .latEntryTime | .latBursts | .latSwaps | .latSuspectCnt | .latRewindCnt => .lattice
  | .latDemIndex | .latDemData | .latRowmask | .latResid | .latRange => .lattice
  | .latClipCnt | .latFmtCnt | .latSkipSlots | .latSkipPlanes => .lattice
  | .rowCtrl | .rowOvfCnt | .rowOvfCause | .rowStatus | .rowDrain => .rowCell
  | .calCtrl | .calStatus | .calDebt | .calForcedCnt | .calEventCnt => .calibration
  | .calConverged => .calibration
  | .vecRedCnt | .vecRouteCnt | .vecGateCnt | .vecExitCnt => .vector

/-- A register's offset in its block (R443). -/
def Reg.off : Reg → Nat
  | .latId | .rowStatus | .ctxSummary0 | .seqStatus | .celEccCnt => 0x0
  | .celMapHost | .wchSlots | .wchHoldCtrl | .cxlLinkStatus | .hnxPortCtrl => 0x0
  | .hnxId | .fltHnxCtrl | .tmpCtrl | .tmpCombStatus | .htrSel => 0x0
  | .monSel | .calCtrl | .calStoreCtrl | .nvmStart | .jnlStatus => 0x0
  | .pwrLimit | .thmStatus | .clkStatus | .secLock | .evtHead => 0x0
  | .mgtStatus | .devVendor => 0x0
  | .latCtrl | .rowCtrl | .ctxSummary1 | .seqIssueCnt | .celUeAddr => 0x8
  | .celMapStore | .wchWaiters | .wchHoldStatus | .cxlLinkCnt | .hnxPortStatus => 0x8
  | .hnxFlowStatus | .fltHnxCnt | .tmpStatus | .tmpCombLine | .htrCluster => 0x8
  | .monConv | .calStatus | .calStoreStatus | .nvmStartTime | .jnlSeq => 0x8
  | .pwrPkg | .thmPkg | .clkRef | .secStatus | .evtSel => 0x8
  | .mgtFenceCtrl | .devDevice => 0x8
  | .latState | .rowOvfCnt | .ctxSel | .seqGrantCnt | .celPoison => 0x10
  | .celMapAttic | .wchWake | .wchHoldCnt | .cxlHdmStatus | .hnxLaneCnt => 0x10
  | .hnxFlowCnt | .tmpEventCnt | .tmpCombEvents | .htrRing | .monWin => 0x10
  | .calDebt | .nvmCtrl | .jnlHold | .pwrEventCnt | .thmDomSel => 0x10
  | .secNonce | .evtAlert | .mgtStepSel | .devRevision => 0x10
  | .latStatus | .rowOvfCause | .ctxData | .seqStreams | .celScrubStatus => 0x18
  | .celMapWin | .wchEventCnt | .cxlHdmCtrl | .hnxRetryCnt | .hnxMcCtrl => 0x18
  | .htrEventCnt | .monTest | .calForcedCnt | .nvmCfg | .jnlWear => 0x18
  | .thmDomData | .evtAvail | .mgtStepExt | .devSerial => 0x18
  | .latRows | .rowDrain | .ctxEventCnt | .seqSpill | .wchSel => 0x20
  | .cxlHdmCnt | .hnxCredits0 | .hnxMcCnt | .tmpBankActive | .calEventCnt => 0x20
  | .nvmCfgPending | .jnlReplay | .thmSensData | .evtAvailWarn | .devFwVersion => 0x20
  | .latEntryTime | .seqSpillTime | .wchSlotData | .cxlCacheStatus | .hnxCredits1 => 0x28
  | .hnxPmapCtrl | .tmpBankSwap | .calConverged | .nvmTemp | .jnlCtrl => 0x28
  | .thmTrip | .evtErrCnt | .devCap0 => 0x28
  | .latBursts | .wchSlotOwner | .seqGov | .cxlDiagCtrl | .hnxTxFrames => 0x30
  | .hnxPmapStatus | .tmpBankBusy | .secTokenCtrl | .devCap1 => 0x30
  | .latSwaps | .cxlInjCtrl | .hnxRxFrames | .tmpCoefSel | .secTokenStatus => 0x38
  | .devTime => 0x38
  | .latSuspectCnt | .vecRedCnt | .hnxPortEvt | .tmpCoefData | .secFailCnt => 0x40
  | .evtEntry | .devStatus => 0x40
  | .latRewindCnt | .vecRouteCnt | .tmpRingSel | .devStatusChg => 0x48
  | .latDemIndex | .vecGateCnt | .tmpRingData | .devStatusMask => 0x50
  | .latDemData | .vecExitCnt | .devRefused => 0x58
  | .tmpTraceCtrl | .devScratch => 0x60
  | .latRowmask | .tmpTraceSel => 0x80
  | .tmpTraceData => 0x88
  | .latResid => 0xc0
  | .latRange => 0xc8
  | .latClipCnt => 0xd0
  | .latFmtCnt => 0xd8
  | .latSkipSlots => 0xe0
  | .latSkipPlanes => 0xe8
  | .bayLarderCtrl => 0x100
  | .bayLarderHits => 0x108
  | .bayLarderMisses => 0x110
  | .bayLarderEvents => 0x118
  | .bayLarderInval => 0x120
  | .bayCelScrubCtrl => 0x128
  | .bayPantryEcc => 0x140
  | .bayFeStatus => 0x148
  | .pwrBayCtrl => 0x180
  | .pwrBayStatus => 0x188
  | .pwrProofCnt => 0x190
  | .secTokenBuf => 0x1000

/-- Instances of a block (R431, R432). -/
def Block.count : Block → Nat
  | .port => 8
  | .comb => 10
  | .bay | .sequencer | .watch | .temper | .heater | .monitor | .cellar => 4
  | .lattice | .rowCell | .calibration | .vector => 8
  | _ => 1

/-- BAR0 offset of instance `i` of a block (R431, R432). -/
def Block.base (i : Nat) : Block → Nat
  | .device => 0
  | .context => 0x1_0000
  | .memoryMap => 0x2_0000
  | .signalHold => 0x3_0000
  | .cxl => 0x4_0000
  | .henxo => 0x5_0000
  | .fabricFault => 0x6_0000
  | .port => 0x8_0000 + i * 0x1000
  | .power => 0x9_0000
  | .thermal => 0xA_0000
  | .clock => 0xB_0000
  | .nvm => 0xC_0000
  | .journal => 0xD_0000
  | .calStore => 0xE_0000
  | .security => 0xF_0000
  | .event => 0x10_0000
  | .management => 0x11_0000
  | .comb => 0x12_0000 + i * 0x1000
  | .bay => 0x100_0000 + i * 0x80_0000
  | .sequencer => 0x101_0000 + i * 0x80_0000
  | .watch => 0x102_0000 + i * 0x80_0000
  | .temper => 0x103_0000 + i * 0x80_0000
  | .heater => 0x104_0000 + i * 0x80_0000
  | .monitor => 0x105_0000 + i * 0x80_0000
  | .cellar => 0x106_0000 + i * 0x80_0000
  | .lattice => 0x110_0000 + i / 2 * 0x80_0000 + i % 2 * 0x1_0000
  | .rowCell => 0x112_0000 + i / 2 * 0x80_0000 + i % 2 * 0x1_0000
  | .calibration => 0x114_0000 + i / 2 * 0x80_0000 + i % 2 * 0x1_0000
  | .vector => 0x116_0000 + i / 2 * 0x80_0000 + i % 2 * 0x1_0000

/-- BAR0 offset of a register of instance `i` of its block. -/
def Reg.addr (r : Reg) (i : Nat) : Nat := r.block.base i + r.off

/-- How many registers of 8 bytes a numbered family has. -/
def Reg.subs : Reg → Nat
  | .latRowmask => 8
  | .tmpTraceCtrl => 4
  | .secNonce => 4
  | .secTokenBuf => 1024
  | .evtEntry => 8
  | _ => 1

/-- Every register. -/
def Reg.list0 : List Reg :=
  [.latId, .latCtrl, .latState, .latStatus, .latRows, .latEntryTime,
   .latBursts, .latSwaps, .latSuspectCnt, .latRewindCnt, .latDemIndex, .latDemData,
   .latRowmask, .latResid, .latRange, .latClipCnt, .latFmtCnt, .rowCtrl,
   .rowOvfCnt, .rowOvfCause, .rowStatus, .rowDrain, .vecRedCnt, .latSkipSlots,
   .latSkipPlanes, .vecRouteCnt, .vecGateCnt, .vecExitCnt, .ctxSummary0, .ctxSummary1]
def Reg.list1 : List Reg :=
  [.ctxSel, .ctxData, .ctxEventCnt, .seqStatus, .seqIssueCnt, .seqGrantCnt,
   .seqStreams, .seqSpill, .seqSpillTime, .bayLarderCtrl, .bayLarderHits, .bayLarderMisses,
   .bayLarderEvents, .bayLarderInval, .celEccCnt, .celUeAddr, .celPoison, .celScrubStatus,
   .bayCelScrubCtrl, .bayPantryEcc, .bayFeStatus, .celMapHost, .celMapStore, .celMapAttic,
   .celMapWin, .wchSlots, .wchWaiters, .wchWake, .wchEventCnt, .wchSel]
def Reg.list2 : List Reg :=
  [.wchSlotData, .wchSlotOwner, .wchHoldCtrl, .wchHoldStatus, .wchHoldCnt, .seqGov,
   .cxlLinkStatus, .cxlLinkCnt, .cxlHdmStatus, .cxlHdmCtrl, .cxlHdmCnt, .cxlCacheStatus,
   .cxlDiagCtrl, .cxlInjCtrl, .hnxPortCtrl, .hnxPortStatus, .hnxLaneCnt, .hnxRetryCnt,
   .hnxCredits0, .hnxCredits1, .hnxTxFrames, .hnxRxFrames, .hnxPortEvt, .hnxId,
   .hnxFlowStatus, .hnxFlowCnt, .hnxMcCtrl, .hnxMcCnt, .hnxPmapCtrl, .hnxPmapStatus]
def Reg.list3 : List Reg :=
  [.fltHnxCtrl, .fltHnxCnt, .tmpCtrl, .tmpStatus, .tmpEventCnt, .tmpBankActive,
   .tmpBankSwap, .tmpBankBusy, .tmpCoefSel, .tmpCoefData, .tmpRingSel, .tmpRingData,
   .tmpTraceCtrl, .tmpTraceSel, .tmpTraceData, .tmpCombStatus, .tmpCombLine, .tmpCombEvents,
   .htrSel, .htrCluster, .htrRing, .htrEventCnt, .monSel, .monConv,
   .monWin, .monTest, .calCtrl, .calStatus, .calDebt, .calForcedCnt]
def Reg.list4 : List Reg :=
  [.calEventCnt, .calConverged, .calStoreCtrl, .calStoreStatus, .nvmStart, .nvmStartTime,
   .nvmCtrl, .nvmCfg, .nvmCfgPending, .nvmTemp, .jnlStatus, .jnlSeq,
   .jnlHold, .jnlWear, .jnlReplay, .jnlCtrl, .pwrLimit, .pwrPkg,
   .pwrEventCnt, .pwrBayCtrl, .pwrBayStatus, .pwrProofCnt, .thmStatus, .thmPkg,
   .thmDomSel, .thmDomData, .thmSensData, .thmTrip, .clkStatus, .clkRef]
def Reg.list5 : List Reg :=
  [.secLock, .secStatus, .secNonce, .secTokenCtrl, .secTokenStatus, .secFailCnt,
   .secTokenBuf, .evtHead, .evtSel, .evtAlert, .evtAvail, .evtAvailWarn,
   .evtErrCnt, .evtEntry, .mgtStatus, .mgtFenceCtrl, .mgtStepSel, .mgtStepExt,
   .devVendor, .devDevice, .devRevision, .devSerial, .devFwVersion, .devCap0,
   .devCap1, .devTime, .devStatus, .devStatusChg, .devStatusMask, .devRefused]
def Reg.list6 : List Reg :=
  [.devScratch]
def Reg.all : List Reg := Reg.list0 ++ Reg.list1 ++ Reg.list2 ++ Reg.list3 ++ Reg.list4 ++ Reg.list5 ++ Reg.list6

end Sys2Proof.Machine
end

