-- ==== Sys2Proof/Machine/Ops.lean ====
section
/-! DEFINITION. Operations every meaning shares: sparse tables, state accessors, register fields and counters,
memory bytes, the journal, the event log, status-change bits and interrupts. -/

namespace Sys2Proof.Machine

/-- What a command answers. -/
abbrev Out := Host.Outcome State Fault Refusal

/-! ## Sparse tables -/

/-- The entry at key `k`; an unlisted key reads `d`. -/
def tget {α : Type} (d : α) : Tbl α → Nat → α
  | [], _ => d
  | (k', v) :: r, k => if k' = k then v else tget d r k

/-- A table without key `k`. -/
def tdel {α : Type} (t : Tbl α) (k : Nat) : Tbl α := t.filter fun e => e.1 != k

/-- List `v` at key `k`, before the keys above it. -/
def tins {α : Type} (k : Nat) (v : α) : Tbl α → Tbl α
  | [] => [(k, v)]
  | (k', v') :: r => if k < k' then (k, v) :: (k', v') :: r else (k', v') :: tins k v r

/-- Write `v` at key `k`, keeping the canonical form (keys rising, no entry equal to `d`). -/
def tset {α : Type} [DecidableEq α] (d : α) (t : Tbl α) (k : Nat) (v : α) : Tbl α :=
  if v = d then tdel t k else tins k v (tdel t k)

/-- The canonical form of a table: keys at least `lo` and strictly rising, no entry equal to `d`. -/
def twfFrom {α : Type} [DecidableEq α] (d : α) : Nat → Tbl α → Bool
  | _, [] => true
  | lo, (k, v) :: r => decide (lo ≤ k) && !decide (v = d) && twfFrom d (k + 1) r

/-- The canonical form of a table. -/
def twf {α : Type} [DecidableEq α] (d : α) (t : Tbl α) : Bool := twfFrom d 0 t

/-- The canonical form of a byte memory whose unlisted bytes read 0 (R183). -/
def Memory.wf (m : Tbl Byte) : Bool := twf 0 m

/-! ## Bits and numbers -/

/-- Bits [hi:lo] of a number. -/
def bitsOf (v hi lo : Nat) : Nat := v / 2 ^ lo % 2 ^ (hi - lo + 1)

/-- Bit `k` of a number. -/
def bitOf (v k : Nat) : Bool := v / 2 ^ k % 2 == 1

/-- The signed reading of the low `w` bits. -/
def signed (w v : Nat) : Int :=
  let m := v % 2 ^ w
  if 2 ^ (w - 1) ≤ m then (m : Int) - 2 ^ w else m

/-- Two's complement of `w` bits. -/
def twos (w : Nat) (x : Int) : Nat := (x % (2 ^ w : Int)).toNat

/-- Hold a value in a range. -/
def clampInt (lo hi x : Int) : Int := if x < lo then lo else if hi < x then hi else x

/-- Round half to even of `n / d`, `d > 0`. -/
def roundHalfEven (n d : Int) : Int :=
  let q := n / d
  let r := n % d
  if 2 * r < d then q else if d < 2 * r then q + 1 else if q % 2 = 0 then q else q + 1

def boolNat (b : Bool) : Nat := if b then 1 else 0

/-- Little-endian value of bytes (R4). -/
def leNat : List Byte → Nat
  | [] => 0
  | b :: r => b.toNat + 256 * leNat r

/-- The `n` low bytes of a number, little-endian (R4). -/
def leBytes : Nat → Nat → List Byte
  | 0, _ => []
  | n + 1, v => BitVec.ofNat 8 v :: leBytes n (v / 256)

/-- The numbers 0 to n − 1. -/
def upTo (n : Nat) : List Nat := List.range n

/-- Repeat an update over a list. -/
def forEach {α : Type} (l : List α) (f : State → α → State) (s : State) : State := l.foldl f s

/-! ## Accessors -/

def State.lat (s : State) (l : Nat) : Lattice := tget Lattice.reset s.lats l
def State.setLat (s : State) (l : Nat) (x : Lattice) : State := { s with lats := tset Lattice.reset s.lats l x }
def State.modLat (s : State) (l : Nat) (f : Lattice → Lattice) : State := s.setLat l (f (s.lat l))

def State.comb (s : State) (h : Nat) : Comb := tget Comb.reset s.combs h
def State.setComb (s : State) (h : Nat) (x : Comb) : State := { s with combs := tset Comb.reset s.combs h x }
def State.modComb (s : State) (h : Nat) (f : Comb → Comb) : State := s.setComb h (f (s.comb h))

def State.thread (s : State) (t : Nat) : Thread := tget Thread.reset s.threads t
def State.setThread (s : State) (t : Nat) (x : Thread) : State :=
  { s with threads := tset Thread.reset s.threads t x }
def State.modThread (s : State) (t : Nat) (f : Thread → Thread) : State := s.setThread t (f (s.thread t))

def State.ctx (s : State) (c : Nat) : Ctx := tget Ctx.reset s.ctxs c
def State.setCtx (s : State) (c : Nat) (x : Ctx) : State := { s with ctxs := tset Ctx.reset s.ctxs c x }
def State.modCtx (s : State) (c : Nat) (f : Ctx → Ctx) : State := s.setCtx c (f (s.ctx c))

/-- A portal entry's key: portal, entry. -/
def entryKey (p e : Nat) : Nat := p * 4096 + e
def State.entrySt (s : State) (k : Nat) : EntrySt := tget EntrySt.reset s.entries k
def State.setEntry (s : State) (k : Nat) (x : EntrySt) : State := { s with entries := tset EntrySt.reset s.entries k x }

def State.bay (s : State) (b : Nat) : Bay := tget Bay.reset s.bays b
def State.setBay (s : State) (b : Nat) (x : Bay) : State := { s with bays := tset Bay.reset s.bays b x }
def State.modBay (s : State) (b : Nat) (f : Bay → Bay) : State := s.setBay b (f (s.bay b))

def State.port (s : State) (p : Nat) : Port := tget Port.reset s.ports p
def State.setPort (s : State) (p : Nat) (x : Port) : State := { s with ports := tset Port.reset s.ports p x }
def State.modPort (s : State) (p : Nat) (f : Port → Port) : State := s.setPort p (f (s.port p))

def State.ring (s : State) (r : Nat) : Ring := tget Ring.reset s.rings r
def State.setRing (s : State) (r : Nat) (x : Ring) : State := { s with rings := tset Ring.reset s.rings r x }
def State.modRing (s : State) (r : Nat) (f : Ring → Ring) : State := s.setRing r (f (s.ring r))

def State.cluster (s : State) (q : Nat) : Cluster := tget Cluster.reset s.clusters q
def State.setCluster (s : State) (q : Nat) (x : Cluster) : State :=
  { s with clusters := tset Cluster.reset s.clusters q x }
def State.modCluster (s : State) (q : Nat) (f : Cluster → Cluster) : State := s.setCluster q (f (s.cluster q))

def State.conv (s : State) (k : Nat) : Conv := tget Conv.reset s.convs k
def State.setConv (s : State) (k : Nat) (x : Conv) : State := { s with convs := tset Conv.reset s.convs k x }

def State.trace (s : State) (k : Nat) : Trace := tget Trace.reset s.traces k
def State.setTrace (s : State) (k : Nat) (x : Trace) : State := { s with traces := tset Trace.reset s.traces k x }

def State.sensor (s : State) (k : Nat) : Sensor := tget Sensor.reset s.sensors k
def State.setSensor (s : State) (k : Nat) (x : Sensor) : State := { s with sensors := tset Sensor.reset s.sensors k x }

/-- Device time is within 8 ns of a multiple of a period, or of one moved by an offset (R16, R464); both in tenths of a
nanosecond. -/
def State.onPhase (s : State) (period offset : Nat) : Bool :=
  decide ((10 * s.time + 80 + period - offset % period) % period ≤ 160)

/-- Take the next free value number (log entry 3). -/
def State.drawn (s : State) (n : Nat) : State := { s with free := s.free + n }

/-! ## Register fields (R6, R7, R435) -/

/-- R435: BAR0 is path 0, I3C 1, PCIe VDM 2 (the numbering of R437). -/
def pathNum : Path → Nat
  | .bar0 => 0
  | .i3c => 1
  | .vdm => 2

/-- Where a field's value is held: register, field, instance, and the path for a selector. -/
def Fld.key (f : Fld) (inst path : Nat) : Nat :=
  ((f.reg.ctorIdx * 64 + f.lo) * 4096 + inst) * 4 + (if f.sel then path else 0)

/-- A field's value; the reset value where nothing has written it. -/
def State.fldAt (s : State) (f : Fld) (inst path : Nat) : Nat :=
  (tget (BitVec.ofNat 64 f.reset) s.flds (f.key inst path)).toNat

/-- Write a field, cut to its width. -/
def State.setFldAt (s : State) (f : Fld) (inst path v : Nat) : State :=
  { s with flds := tset (BitVec.ofNat 64 f.reset) s.flds (f.key inst path) (BitVec.ofNat 64 (v % 2 ^ f.width)) }

/-- The field of unit `inst` (not a selector). -/
def State.fld (s : State) (f : Fld) (inst : Nat := 0) : Nat := s.fldAt f inst 0
def State.setFld (s : State) (f : Fld) (inst v : Nat) : State := s.setFldAt f inst 0 v
def State.flag (s : State) (f : Fld) (inst : Nat := 0) : Bool := s.fld f inst != 0

/-- Add to a counter that saturates at its largest value and stays there (R424). -/
def State.bump (s : State) (f : Fld) (inst : Nat := 0) (n : Nat := 1) : State :=
  s.setFld f inst (min (s.fld f inst + n) (2 ^ f.width - 1))

/-- Keep the largest value seen, within the field. -/
def State.raise (s : State) (f : Fld) (inst v : Nat) : State :=
  s.setFld f inst (max (s.fld f inst) (min v (2 ^ f.width - 1)))

/-- Fields whose reset domain is W (R7), by register and place. -/
def warmKeys : List Nat :=
  Reg.all.flatMap fun r => (r.fields.filter fun f => f.dom == .warm).map fun f => r.ctorIdx * 64 + f.lo

/-- W fields whose reset value is the configuration's (R438): they take it when the configuration is applied. -/
def cfgKeys : List Nat :=
  [Fld.latCtrlEn, .pwrLimitSet, .hnxPortCtrlEn, .hnxPmapCtrlProfile].map fun f => f.reg.ctorIdx * 64 + f.lo

/-- Every other field with a W reset value takes it (R7, R353). -/
def State.resetWarmFields (s : State) : State :=
  let w := warmKeys
  { s with flds := s.flds.filter fun e => !(w.contains (e.1 / 16384)) || cfgKeys.contains (e.1 / 16384) }

/-! ## Interrupts, status changes, alerts -/

/-- Signal an MSI-X vector, or hold it pending under a mask (R252, R442). -/
def State.signalVector (s : State) (v : Nat) : State :=
  if s.cxl.funcMask || s.cxl.vecMask.getD v true then
    { s with cxl := { s.cxl with pba := s.cxl.pba.set v true } }
  else
    { s with cxl := { s.cxl with sent := s.cxl.sent.set v (s.cxl.sent.getD v 0 + 1) } }

/-- The W1C field of DEV_STATUS_CHG at bit `k`. -/
def chgFld : Nat → Fld
  | 0 => .devStatusChgAlert
  | 1 => .devStatusChgServing
  | 2 => .devStatusChgFenced
  | 3 => .devStatusChgSuspect
  | 4 => .devStatusChgStale
  | 5 => .devStatusChgBayState
  | 6 => .devStatusChgHnx
  | 7 => .devStatusChgStage
  | 8 => .devStatusChgHalt
  | _ => .devStatusChgRestartDone

/-- A DEV_STATUS_CHG bit is set; vector 5 is signalled for an enabled bit that goes from 0 to 1 (R442). -/
def State.markChg (s : State) (k : Nat) : State :=
  let was := s.flag (chgFld k)
  let s := s.setFld (chgFld k) 0 1
  if !was && bitOf (s.fld .devStatusMaskEn) k then s.signalVector 5 else s

/-- The W1C field of EVT_ALERT at bit `k`. -/
def alertFld : Nat → Fld
  | 0 => .evtAlertError
  | 1 => .evtAlertFence
  | 2 => .evtAlertStale
  | 3 => .evtAlertAgeing
  | 4 => .evtAlertJnlDrop
  | 5 => .evtAlertBudget
  | _ => .evtAlertHalt

/-- ALERT_N is asserted (R383, R423, R461). -/
def State.alertN (s : State) : Bool :=
  s.power.tripLatched ||
  (s.boot.on && ((upTo 7).any (fun k => s.flag (alertFld k)) || s.power.throttling ||
    (upTo 4).any (fun b => (s.bay b).rise) || decide (s.power.limit < s.fld .pwrLimitSet)))

/-- DEV_STATUS_CHG.ALERT is set when ALERT_N becomes asserted: `s0` before, `s` after. -/
def State.alertEdge (s0 s : State) : State := if s.alertN && !s0.alertN then s.markChg 0 else s

/-- Set a bit of EVT_ALERT (R423). -/
def State.setAlert (s : State) (k : Nat) : State := s.alertEdge (s.setFld (alertFld k) 0 1)

/-- The device works: it has started, is not halted and does not restart (R350, R352). -/
def State.inService (s : State) : Bool := s.boot.on && s.boot.stage != 15 && !s.boot.restarting

/-! ## The journal (R354 to R361) -/

/-- Record slots a journal entry takes: an EVENT takes two joined by CONT (R355). -/
def JRec.slots (r : JRec) : Nat := if r.kind = .event then 2 else 1

/-- Slots a list of records takes. -/
def slotsOf (l : List JRec) : Nat := l.foldl (fun n r => n + r.slots) 0

/-- Slots of a half (R354). -/
def halfSlots : Nat := 1048576

/-- Slots of the active half already programmed, torn ones among them (R354), and with the batch being gathered. -/
def Journal.filled (j : Journal) : Nat := slotsOf j.recs + j.tornIn
def Journal.used (j : Journal) : Nat := j.filled + slotsOf j.unwritten

/-- Append a record (R356): to the batch not yet committed while the window is open and nothing waits ahead of it,
else to the hold buffer, where an EVENT beyond the first 4,032 places is dropped and counted (R361). -/
def State.journal (s : State) (kind : JKind) (payload : List Nat) : State :=
  let r : JRec := { seq := s.jnl.next, kind := kind, payload := payload, snap := false }
  if s.jnl.windowOpen && s.jnl.hold.isEmpty &&
      decide (s.jnl.used + r.slots ≤ halfSlots) then
    { s with jnl := { s.jnl with unwritten := s.jnl.unwritten ++ [r], next := s.jnl.next + r.slots } }
  else if kind = .event && decide (4032 < slotsOf s.jnl.hold + 2) then
    (s.bump .jnlHoldDropped).setAlert 4
  else
    { s with jnl := { s.jnl with hold := s.jnl.hold ++ [r], next := s.jnl.next + r.slots } }

/-! ## The event log (R418 to R423) -/

/-- The events of R421. -/
inductive Ev where
  | refusedWrite | latFenced | latLateRepeat | latTileSplit | rowOvfFault | rowHoldLost | calStale
  | ctxFault | seqAtticSpill | celAtticShort | wchSat | wchUnderflow | wchSlotsShort | wchLostTx | wchLost
  | celUe | celWindowReject | tmpCombFail | tmpCombAgeing | tmpWrongLine | tmpRingDead | tmpBankRefused
  | monRefFault | cxlLinkDegraded | cxlLinkDown | cxlDiagReject | hnxStall | hnxMcV1 | pwrRefused
  | thmSensorBroken | thmTrip | clkUnlock | nvmRestartIgnored | nvmTempSensor | evtUpset | evtInternal | evtHalt
  | evtOutage | evtFenceClear | evtRestartDone
  deriving DecidableEq, Repr

/-- Event codes (R421). -/
def Ev.code : Ev → Nat
  | .refusedWrite => 0x0001 | .latFenced => 0x0101 | .latLateRepeat => 0x0102 | .latTileSplit => 0x0103
  | .rowOvfFault => 0x0104 | .rowHoldLost => 0x0105 | .calStale => 0x0106 | .ctxFault => 0x0201
  | .seqAtticSpill => 0x0202 | .celAtticShort => 0x0203 | .wchSat => 0x0204 | .wchUnderflow => 0x0205
  | .wchSlotsShort => 0x0206 | .wchLostTx => 0x0207 | .wchLost => 0x0208 | .celUe => 0x0301
  | .celWindowReject => 0x0302 | .tmpCombFail => 0x0401 | .tmpCombAgeing => 0x0402 | .tmpWrongLine => 0x0403
  | .tmpRingDead => 0x0404 | .tmpBankRefused => 0x0405 | .monRefFault => 0x0406 | .cxlLinkDegraded => 0x0501
  | .cxlLinkDown => 0x0502 | .cxlDiagReject => 0x0503 | .hnxStall => 0x0504 | .hnxMcV1 => 0x0505
  | .pwrRefused => 0x0601 | .thmSensorBroken => 0x0602 | .thmTrip => 0x0603 | .clkUnlock => 0x0604
  | .nvmRestartIgnored => 0x0605 | .nvmTempSensor => 0x0606 | .evtUpset => 0x0701 | .evtInternal => 0x0702
  | .evtHalt => 0x0703 | .evtOutage => 0x0704 | .evtFenceClear => 0x0705 | .evtRestartDone => 0x0706

/-- Severities (R421), in the numbering of R419. -/
def Ev.severity : Ev → Nat
  | .thmTrip | .evtHalt => 5
  | .evtInternal => 4
  | .latFenced | .celUe | .tmpCombFail | .cxlLinkDegraded | .cxlLinkDown | .evtUpset => 3
  | .latLateRepeat | .calStale | .celAtticShort | .wchSlotsShort | .wchLostTx | .wchLost | .tmpCombAgeing
  | .tmpRingDead | .monRefFault | .hnxStall | .thmSensorBroken | .clkUnlock | .nvmTempSensor | .evtOutage => 2
  | .refusedWrite | .latTileSplit | .rowOvfFault | .rowHoldLost | .ctxFault | .seqAtticSpill | .wchSat
  | .wchUnderflow | .celWindowReject | .cxlDiagReject | .tmpWrongLine | .tmpBankRefused | .hnxMcV1 | .pwrRefused
  | .nvmRestartIgnored | .evtFenceClear | .evtRestartDone => 1

/-- UNIT kinds of R419. -/
inductive UnitKind where
  | device | bay | lattice | vector | thread | comb | stack | port | sensor
  | clusterOf (b : Nat)
  | converter
  deriving DecidableEq, Repr

def UnitKind.num : UnitKind → Nat
  | .device => 0 | .bay => 1 | .lattice => 2 | .vector => 3 | .thread => 4 | .comb => 5 | .stack => 6
  | .port => 7 | .sensor => 8 | .clusterOf b => 9 + b | .converter => 13

/-- CONTEXT of an entry with no context (R419). -/
def noCtx : Nat := 0xFFFF

/-- The 64 bytes of an entry (R419). -/
def Event.bytes (e : Event) : List Byte :=
  leBytes 8 e.time ++ leBytes 8 e.seq ++ leBytes 2 e.code ++ leBytes 1 e.severity ++ leBytes 1 e.plane ++
  leBytes 2 (e.unitKind * 4096 + e.unitId) ++ leBytes 2 e.ctx ++
  ((upTo 5).flatMap fun k => leBytes 8 (e.params.getD k 0))

/-- An EVENT record's payload (R355): the entry. -/
def Event.words (e : Event) : List Nat :=
  [e.time, e.seq, e.code, e.severity, e.plane, e.unitKind, e.unitId, e.ctx] ++ e.params

/-- Add a record to a CXL event log of 64 records; a full log drops it and sets its overflow indication (R251).
The log's vector is signalled where its interrupt policy asks for MSI-X (R252; PRESUMED, log entry 15). -/
def State.cxlRecord (s : State) (k : Nat) (rec : List Byte) : State :=
  let log := s.cxl.logs.getD k []
  if decide (64 ≤ log.length) then { s with cxl := { s.cxl with overflow := s.cxl.overflow.set k true } }
  else
    let s := { s with cxl := { s.cxl with logs := s.cxl.logs.set k (log ++ [rec]) } }
    if (s.cxl.policy.getD k 0).toNat % 4 = 1 then s.signalVector (k + 1) else s

/-- CXL event log of a severity (R420): 1 Warning, 2 Failure, 3 Fatal. -/
def cxlLogOf (severity : Nat) : Nat := if severity = 5 then 3 else if 3 ≤ severity then 2 else 1

/-- Where an event of warning severity or above also goes (R420). -/
def State.spread (s : State) (e : Event) : State :=
  let s := s.bump .evtErrCntWarnPlus
  let s := if e.severity = 5 && !s.jnl.windowOpen then s else s.journal .event e.words
  let s := s.cxlRecord (cxlLogOf e.severity) e.bytes
  let s := if s.boot.mgmtDown then s else { s with mgmt := { s.mgmt with events := s.mgmt.events ++ [e] } }
  if 3 ≤ e.severity then s.setAlert 0 else s

/-- Log an event (R418, R465): the next entry of the ring of 8,192, numbered by EVT_HEAD. -/
def State.event (s : State) (ev : Ev) (uk : UnitKind) (uid ctx : Nat) (params : List Nat) : State :=
  let e : Event :=
    { time := s.time, seq := s.evHead, code := ev.code, severity := ev.severity,
      plane := (Config.eventPlane ev.code).val, unitKind := uk.num, unitId := uid, ctx := ctx, params := params }
  let s := { s with log := (e :: s.log).take 8192, evHead := s.evHead + 1 }
  if 2 ≤ ev.severity then s.spread e else s

/-! ## Availability (R407 to R410) -/

/-- Log an outage and add its weighted duration (ns) to EVT_AVAIL. `kind` 1 = device, 2 = lattice, 3 = bay
(numbered in the order R409 and R410 list what an outage may name; DEDUCED, log entry 16). -/
def State.outage (s : State) (kind : Nat) (uk : UnitKind) (uid dur weighted : Nat) : State :=
  let s := s.event .evtOutage uk uid noCtx [kind, dur, weighted]
  let s := s.bump .evtAvailUs 0 (weighted / 1000)
  if s.fld .evtAvailWarnMs * 1000 < s.fld .evtAvailUs then s.setAlert 5 else s

/-! ## State-sensor changes (R427) -/

/-- Queue a PLDM state-sensor change. -/
def State.sensorChange (s : State) (id v : Nat) : State :=
  if s.boot.mgmtDown then s else { s with mgmt := { s.mgmt with states := s.mgmt.states ++ [(id, v)] } }

/-! ## Refused writes (R437) -/

/-- A refused write: counted, recorded, and logged at most once per register and path in any 1 ms. -/
def State.refuse (s : State) (p : Path) (off v : Nat) : State :=
  let s := s.bump .devRefusedCount
  let s := (s.setFld .devRefusedOffset 0 (off / 8 * 8)).setFld .devRefusedPath 0 (pathNum p)
  let k := off / 8 * 4 + pathNum p
  -- held as time + 1, so that 0 means never
  let last := tget 0 s.refusedAt k
  if last = 0 || decide (last - 1 + 1000000 ≤ s.time) then
    ({ s with refusedAt := tset 0 s.refusedAt k (s.time + 1) }).event .refusedWrite .device 0 noCtx [off, pathNum p, v]
  else s

/-- The bay's power state that its units follow (R367): those of a deeper transition power down when it commits, those
of a shallower one power up as it starts. -/
def Bay.unitState (y : Bay) : PState :=
  match y.trans with
  | none => y.power
  | some t => if t.committed then t.target else y.power

/-- Blocks of a bay region whose unit a power state powers down (R363, R440). -/
def Block.down (p : PState) : Block → Bool
  | .temper | .monitor => !(p == .run || p == .dim)
  | .heater => p == .cold || p == .off
  | .rowCell => !(p == .run)
  | .vector => !(p == .run || p == .dim || p == .cold)
  | _ => false

/-- A write to a powered-down block of bay `b` is held, with what its path's selectors chose (R440). -/
def State.holdWrite (s : State) (p : Path) (b off sel v : Nat) : State :=
  s.modBay b fun y => { y with held := y.held ++ [(p, off, sel, BitVec.ofNat 64 v)] }

/-- Whether a register access of a path is served: not by BAR0 during the configuration re-read of a warm restart, nor
by management while its controller restarts (R439). -/
def State.served (s : State) (p : Path) : Bool :=
  s.boot.on && (match p with
    | .bar0 => !s.boot.reread
    | _ => !s.boot.mgmtDown)

/-- A permission of the active debug token (R398, R401): 0 is DEBUG, 1 FAULT_INJ. -/
def State.tokenPerm (s : State) (k : Nat) : Bool := s.sec.token.any fun t => t.perms.getLsbD k

/-- Whether the write comes from the host port (R436). -/
def isHost (p : Path) : Bool := p == .bar0

/-! ## Memory (R179 to R192) -/

/-- GiB and MiB in bytes. -/
def gib : Nat := 1073741824
def mib : Nat := 1048576

/-- What a device-physical address reaches (R179). -/
inductive Target where
  | cellar (stack : Nat)
  | pantry (bay : Nat)
  | landing
  | none
  deriving DecidableEq, Repr

/-- The device-physical map (R179). -/
def targetOf (a : Nat) : Target :=
  if a < 384 * gib then .cellar (a / (96 * gib))
  else if 0x0080_0000_0000 ≤ a && a < 0x0080_4000_0000 then
    (if a % 0x1000_0000 < 88 * mib then .pantry ((a - 0x0080_0000_0000) / 0x1000_0000) else .none)
  else if 0x0081_0000_0000 ≤ a && a < 0x0081_0000_0000 + 16 * mib then .landing
  else .none

/-- A byte of device memory. -/
def State.byte (s : State) (a : Nat) : Byte := tget 0 s.mem a
/-- A byte of host memory. -/
def State.hostByte (s : State) (a : Nat) : Byte := tget 0 s.hostMem a

/-- `n` bytes of a memory from address `a`. -/
def memBytes (m : Tbl Byte) (a : Nat) : Nat → List Byte
  | 0 => []
  | n + 1 => tget 0 m a :: memBytes m (a + 1) n

/-- Store bytes from address `a`. -/
def memStore (m : Tbl Byte) (a : Nat) : List Byte → Tbl Byte
  | [] => m
  | b :: r => memStore (tset 0 m a b) (a + 1) r

def State.bytes (s : State) (a n : Nat) : List Byte := memBytes s.mem a n
def State.hostBytes (s : State) (a n : Nat) : List Byte := memBytes s.hostMem a n
/-- A little-endian number of `n` bytes in device memory (R4). -/
def State.readNat (s : State) (a n : Nat) : Nat := leNat (s.bytes a n)
def State.hostNat (s : State) (a n : Nat) : Nat := leNat (s.hostBytes a n)

/-- Store bytes to device memory, nothing else. -/
def State.store (s : State) (a : Nat) (d : List Byte) : State := { s with mem := memStore s.mem a d }
/-- Store bytes to host memory, nothing else. -/
def State.hostStore (s : State) (a : Nat) (d : List Byte) : State := { s with hostMem := memStore s.hostMem a d }

/-- The 64-byte line of an address. -/
def lineOf (a : Nat) : Nat := a / 64

/-- Whether a cellar line is poisoned (R192). -/
def State.poisoned (s : State) (line : Nat) : Bool := tget false s.poison line
def State.setPoison (s : State) (line : Nat) (v : Bool) : State := { s with poison := tset false s.poison line v }

/-- Drop every listed byte in a range. -/
def memClear (m : Tbl Byte) (a n : Nat) : Tbl Byte := m.filter fun e => !(decide (a ≤ e.1) && decide (e.1 < a + n))

/-- Drop every listed flag in a range of keys. -/
def flagClear (t : Tbl Bool) (a n : Nat) : Tbl Bool := t.filter fun e => !(decide (a ≤ e.1) && decide (e.1 < a + n))

end Sys2Proof.Machine
end

