-- ==== Sys2Proof/Machine/Memory.lean ====
section
/-! DEFINITION. Reads and writes of memory with what they bring about (R172, R183, R192, R197, R212, R238), context
translation (R184 to R187), signal words (R201 to R206) and full/empty words (R198, R199). -/

namespace Sys2Proof.Machine

/-! ## The parts of a stack (R180) -/

/-- HOST_MEM in bytes. -/
def State.hostMemSize (s : State) : Nat := s.cfg.hostMemGiB * gib

/-- Device-physical address of host-managed offset `h` (R180). -/
def dpaOfHost (h : Nat) : Nat :=
  let n := h / (2 * mib)
  n % 4 * (96 * gib) + n / 4 * (2 * mib) + h % (2 * mib)

/-- Exposed cellar (R180). -/
def State.exposed (s : State) (a : Nat) : Bool :=
  decide (a < 384 * gib) && decide (a % (96 * gib) < s.hostMemSize / 4)

/-- Reserved cellar (R180). -/
def reservedCellar (a : Nat) : Bool := decide (a < 384 * gib) && decide (95 * gib ≤ a % (96 * gib))

/-- Private cellar (R180). -/
def State.privateCellar (s : State) (a : Nat) : Bool :=
  decide (a < 384 * gib) && !s.exposed a && !reservedCellar a

/-- The bay nearest a device-physical word: the stack's or pantry's bay, bay 0 for the landing buffer. -/
def bayOfAddr (a : Nat) : Nat :=
  match targetOf a with
  | .cellar b => b
  | .pantry b => b
  | _ => 0

/-! ## Errors in what is read (R191, R192, R197) -/

/-- A word of pantry or landing buffer in error (R197, R200). -/
def State.wordBad (s : State) (a : Nat) : Bool := tget false s.wordErr (a / 8)

/-- Lines from `a` for `n` bytes. -/
def linesOf (a n : Nat) : List Nat := if n = 0 then [] else (upTo ((a + n - 1) / 64 - a / 64 + 1)).map (· + a / 64)

/-- Whether a read of `n` device bytes at `a` meets a poisoned line or a word in error. -/
def State.readsBad (s : State) (a n : Nat) : Bool :=
  s.poison.any (fun e => e.2 && decide (a / 64 ≤ e.1) && decide (e.1 * 64 < a + n)) ||
  s.wordErr.any (fun e => e.2 && decide (a / 8 ≤ e.1) && decide (e.1 * 8 < a + n))

/-- CEL_UE_ADDR.SOURCE: `fabric` is the fabric or the device itself. -/
inductive UeReader where
  | stepOrLarder | scrub | host | fabric
  deriving DecidableEq, Repr

def UeReader.num : UeReader → Nat
  | .stepOrLarder => 0
  | .scrub => 1
  | .host => 2
  | .fabric => 3

/-- A corrected error in a cellar line read (R192); the 1,024th of a stack within 24 h adds a DRAM Event record (R251). -/
def State.corrected (s : State) (stack : Nat) : State :=
  let s := s.bump .celEccCntCorr stack
  let day := ((s.cxl.corrAt.getD stack []).filter fun τ => decide (s.time < τ + 86400000000000)) ++ [s.time]
  let s : State := { s with cxl := { s.cxl with corrAt := s.cxl.corrAt.set stack day } }
  if day.length = 1024 then s.cxlRecord 1 (Config.specData 1 stack) else s

/-- A beat of a stack's bonded interface was retried (R191). -/
def State.beatRetried (s : State) (stack : Nat) : State := s.bump .celEccCntLinkRetry stack

/-- An uncorrectable error in a cellar line: poisoned, counted, its address recorded, CEL_UE logged (R192). -/
def State.uncorrectable (s : State) (line : Nat) (src : UeReader) : State :=
  let stack := line * 64 / (96 * gib)
  let s := s.setPoison line true
  let s := s.bump .celEccCntUncorr stack
  let s := (s.setFld .celUeAddrLine stack line).setFld .celUeAddrSource stack src.num
  s.event .celUe .stack stack noCtx []

/-- What the error protection finds in the line or word read at `a` (R192, R197): of a line already poisoned, nothing new. -/
def State.checkAt (s : State) (a : Nat) (check : LineCheck) (src : UeReader) : State :=
  match check, targetOf a with
  | .clean, _ => s
  | .retried, .cellar st => s.beatRetried st
  | .retried, _ => s
  | .corrected, .cellar st => if s.poisoned (lineOf a) then s else s.corrected st
  | .corrected, .pantry b => s.bump .bayPantryEccCorr b
  | .corrected, _ => s
  | .uncorrectable, .cellar _ => if s.poisoned (lineOf a) then s else s.uncorrectable (lineOf a) src
  | .uncorrectable, .pantry b => ({ s with wordErr := tset false s.wordErr (a / 8) true }).bump .bayPantryEccUncorr b
  | .uncorrectable, _ => { s with wordErr := tset false s.wordErr (a / 8) true }

/-- One injection of CXL_INJ_CTRL is made (R253). -/
def State.injMade (s : State) : State := s.setFld .cxlInjCtrlCount 0 (s.fld .cxlInjCtrlCount - 1)

/-- Whether CXL_INJ_CTRL injects in a mode. -/
def State.injOn (s : State) (mode : Nat) : Bool :=
  s.fld .cxlInjCtrlMode == mode && decide (0 < s.fld .cxlInjCtrlCount)

/-- An uncorrectable error of the RAS capability, with its header log (R251). -/
def State.rasError (s : State) : State :=
  { (s.drawn 1) with cxl := { s.cxl with rasUnc := true, rasHeader := Config.specData 7 s.free } }

/-- Viral_Enable of the CXL Control register of the PCIe DVSEC for CXL Devices (layout PRESUMED, log entry 57). -/
def State.viralEnabled (s : State) : Bool := bitOf (tget 0 s.cxl.cfgSpace (Config.capAt 1 + 3)).toNat 14

/-- An access while Memory_Active is 0 is counted (R249). -/
def State.inactive (s : State) : State := s.bump .cxlHdmCntInactive

/-- A poisoned answer whose data is not given (R249); one to the host is counted. -/
def State.poisonAnswer (s : State) (host : Bool) (n : Nat) : State :=
  let d := (upTo n).map fun i => (Config.unstated (s.free + i)).setWidth 8
  let s := s.inactive
  { ((if host then s.bump .cxlHdmCntPoisonRd else s).drawn n) with reply := .data d true }

/-- A CXL.cache read of host memory: whether it brings its data. MODE 5 fails it (R253); poisoned data received from the
host is a RAS error (R251). -/
def State.cacheRead (s : State) (check : LineCheck) : State × Bool :=
  if s.injOn 5 then (s.injMade, false)
  else if check = .uncorrectable then (s.rasError, false)
  else (s, true)

/-- What the read of a word of device or host memory finds; false where a read of host memory fails. -/
def State.checkWord (s : State) (host : Bool) (a : Nat) (check : LineCheck) : State × Bool :=
  if host then s.cacheRead check else (s.checkAt a check .stepOrLarder, true)

/-! ## The context table, the restart records and the translation copies as memory (R139, R142, R186)

They have their home in `State.ctxs`; a read of the cellar where they lie sees what stands there (log entry 28). -/

/-- The state codes of R139. -/
def CtxState.code : CtxState → Nat
  | .free => 0
  | .bound => 1
  | .running => 2
  | .waiting => 3
  | .draining => 4
  | .faulted => 5

/-- Word `k` of a context table entry (R139). -/
def State.ctxWord (s : State) (c k : Nat) : Nat :=
  let x := s.ctx c
  match k with
  | 0 => x.fault * 2 ^ 56 + x.faultStep % 65536 * 2 ^ 40 + x.faultThread % 32 * 2 ^ 35 + x.entry % 4096 * 2 ^ 20 +
      x.portal * 2 ^ 12 + boolNat x.admitWait * 2 ^ 11 + boolNat x.warn * 2 ^ 10 + x.drainTo * 2 ^ 8 + x.st.code
  | 1 => x.tag.toNat
  | 2 => x.bundle
  | 3 => x.xlatRoot
  | 4 => x.leaves.length + x.atticPages * 2 ^ 32
  | 5 => x.syncmap
  | 6 => x.seed.toNat
  | 7 => x.stepctr.toNat + x.priority * 2 ^ 48
  | 8 => x.qThreads + x.qXfer * 2 ^ 8 + x.qShare * 2 ^ 24 + x.powerFloor * 2 ^ 32
  | 9 => x.recipe
  | 10 => x.attic
  | 11 => x.ckpt
  | 12 => x.published
  | 13 => x.faultTime
  | 14 => boolNat x.permPower + 2 * boolNat x.permSigned + 4 * boolNat x.permFabric
  | 15 => 0
  | k =>
    let slot (i : Nat) : Nat := match x.map.find? fun m => m.1 == i with
      | none => 0
      | some m => m.2 / 128 * 2 ^ 30 + m.2 % 128 * 2 ^ 23 + (s.thread m.2).pc % 65536
    slot (2 * (k - 16)) + slot (2 * (k - 16) + 1) * 2 ^ 32

/-- The restart record of a thread of a context (R142). -/
def Ctx.restart (x : Ctx) (i : Nat) : Option Restart := (x.restarts.find? fun r => r.1 == i).map (·.2)

/-- Word `k` of a restart record (R142). -/
def Restart.word (r : Restart) (k : Nat) : Nat :=
  let c (i : Nat) : Nat := (r.ctr.getD i 0).toNat
  match k with
  | 0 => r.step % 65536 + boolNat r.pred * 2 ^ 16 + boolNat r.putPending * 2 ^ 24 + c 0 * 2 ^ 32
  | 1 => c 1 + c 2 * 2 ^ 32
  | 2 => c 3 + r.putStep % 65536 * 2 ^ 32
  | _ => r.consumed

/-- Where the restart records of context `c` lie: after the context table (DESIGN CHOICE, log entry 28). -/
def State.ckptOf (s : State) (c : Nat) : Nat := s.cfg.ctxBase + mib + 1024 * c

/-- The address of the table of a context's copy that is table `k`, 0 for none. -/
def Ctx.tableAt (x : Ctx) (k : Nat) : Nat := ((x.copy.find? fun p => p.2 == k).map (·.1)).getD 0

/-- A leaf as its entry (R185). -/
def Leaf.entry (l : Leaf) : Nat := l.page + l.target * 8 + boolNat l.writable * 2 + 1

/-- Entry `i` of table `k` of a context's copy (R185, R186). -/
def Ctx.copyWord (x : Ctx) (k i : Nat) : Nat :=
  if 513 ≤ k then ((x.leaves.find? fun l => l.vpage == (k - 513) * 512 + i).map Leaf.entry).getD 0
  else
    let a := x.tableAt (if k = 0 then 1 + i else 513 + 512 * (k - 1) + i)
    if a = 0 then 0 else a + 1

/-- The word of these tables at an address, none elsewhere. -/
def State.tableWord (s : State) (a : Nat) : Option Nat :=
  let o := a - s.cfg.ctxBase
  if s.cfg.ctxBase ≤ a && o < mib then some (s.ctxWord (o / 256) (o % 256 / 8))
  else if s.cfg.ctxBase ≤ a && o < 5 * mib then
    some ((((s.ctx ((o - mib) / 1024)).restart (o % 1024 / 32)).map fun r => r.word (o % 32 / 8)).getD 0)
  else if s.cfg.storeBase ≤ a && a < s.cfg.storeBase + s.cfg.storeMiB * mib then
    s.ctxs.findSome? fun e => (e.2.copy.find? fun p => p.1 == a / 4096 * 4096).map fun p => e.2.copyWord p.2 (a % 4096 / 8)
  else none

/-- A byte of device memory as it is read. -/
def State.seenByte (s : State) (a : Nat) : Byte :=
  match s.tableWord a with
  | some w => BitVec.ofNat 8 (w / 256 ^ (a % 8))
  | none => s.byte a

/-- Whether a range meets the areas where these tables may lie. -/
def State.nearTables (s : State) (a n : Nat) : Bool :=
  (decide (a < s.cfg.ctxBase + 5 * mib) && decide (s.cfg.ctxBase < a + n)) ||
  (decide (a < s.cfg.storeBase + s.cfg.storeMiB * mib) && decide (s.cfg.storeBase < a + n))

/-- `n` bytes of device memory as they are read. -/
def State.seen (s : State) (a n : Nat) : List Byte :=
  if s.nearTables a n then (upTo n).map fun i => s.seenByte (a + i) else s.bytes a n

/-! ## Larder copies (R172) -/

/-- Invalidate every larder copy of the 512-byte line that holds `a`, in all four bays (R172). -/
def State.larderInvalidate (s : State) (a : Nat) : State :=
  let ln := a / 512
  forEach (upTo 4) (fun s b =>
    let y := s.bay b
    let hits := (y.larder.filter fun x => x.line == ln).length
    let y := { y with larder := y.larder.filter fun x => x.line != ln,
                      fills := y.fills.map fun f => if f.line = ln then { f with install := false } else f }
    (s.setBay b y).bump .bayLarderInvalLines b hits) s

/-! ## Signal and ready words (R144, R201) -/

/-- A word in device memory (`host = false`) or host memory. -/
def State.word (s : State) (host : Bool) (a : Nat) : Nat := if host then s.hostNat a 8 else s.readNat a 8

/-- COUNT of a signal word (R201). -/
def countOf (w : Nat) : Nat := w % 2 ^ 61

/-- Consumes of a signal word that are committed and held behind a BISnpInv of its line (R122, R238). -/
def State.heldConsumes (s : State) (a : Nat) : Nat :=
  s.cxl.held.foldl (fun n h => match h.op with
    | .sub c _ _ _ => if h.addr = a then n + c else n
    | _ => n) 0

/-- What a wait compares with: the word, less the committed consumes that have not reached it (R204). -/
def State.waitedCount (s : State) (host : Bool) (a : Nat) : Nat :=
  let w := s.word host a
  let p := if host then 0 else s.heldConsumes a
  w - min p (countOf w)

/-- Address of word `off` of a portal entry (R144). -/
def State.portalWord (s : State) (p e off : Nat) : Nat :=
  match s.cfg.portals[p]? with
  | none => off
  | some r => r.base + 64 * e + off

/-- The sync map entry of an identifier (R208). -/
def Ctx.syncOf (c : Ctx) (sid : Nat) : Option SyncEntry := c.sync.find? fun e => e.sid == sid

/-- Pending consumes of a thread on an identifier (R122). -/
def Thread.pendingOn (t : Thread) (sid : Nat) : Nat :=
  (t.pend.filter fun p => p.1 == sid).foldl (fun n p => n + p.2) 0

/-- The word a wait watches: host or device, address. -/
def waitWord (s : State) (th : Thread) (w : Waiting) : Option (Bool × Nat) :=
  let c := s.ctx th.ctx
  if w.src = 1 then some (false, s.portalWord c.portal c.entry 8)
  else match c.syncOf w.sid with
    | some { sig := .own h a, .. } => some (h, a)
    | _ => none

/-- Whether a wait on a count holds for the word's value `v` (R132, R204). -/
def waitHolds (th : Thread) (w : Waiting) (v : Nat) : Bool :=
  if w.src = 1 then decide (th.consumed + w.target ≤ v)
  else decide (w.target + th.pendingOn w.sid ≤ countOf v)

/-- Whether the wait is by a POLLED mapping in the thread's bay (R210, R211). -/
def waitPolled (s : State) (th : Thread) (w : Waiting) (bay : Nat) : Bool :=
  w.src == 0 && match (s.ctx th.ctx).syncOf w.sid with
    | some e => e.polled.contains bay
    | none => false

/-- Evaluate the waiters of a word for the value it holds now (R212, R217): a satisfied wait is latched. `polled`
selects waiters by POLLED mappings or by watch slots. -/
def State.evalWaiters (s : State) (polled : Bool) (bays : List Nat) (host : Bool) (a : Nat) : State :=
  let v := s.waitedCount host a
  if !host && s.readsBad a 8 then s
  else
    { s with threads := s.threads.map fun e =>
        match e.2.wait with
        | some w =>
          if (w.src = 0 || w.src = 1) && bays.contains (e.1 / 128) && waitWord s e.2 w == some (host, a) &&
              waitPolled s e.2 w (e.1 / 128) == polled && waitHolds e.2 w v then
            (e.1, { e.2 with wait := some { w with hit := true } })
          else e
        | none => e }

/-- Every bay. -/
def allBays : List Nat := [0, 1, 2, 3]

/-- Words of device memory in a byte range that threads wait on through a slot. -/
def waitedWords (s : State) (a n : Nat) : List Nat :=
  (s.threads.filterMap fun e => match e.2.wait with
    | some w => match waitWord s e.2 w with
      | some (false, x) => if decide (a < x + 8) && decide (x < a + n) then some x else none
      | _ => none
    | none => none).eraseDups

/-- A completed write is reported to the watch units (R212). -/
def State.reportWrite (s : State) (a n : Nat) : State :=
  forEach (waitedWords s a n) (fun s x => s.evalWaiters false allBays false x) s

/-! ## Writes -/

/-- Cut bytes at 64-byte lines. -/
def splitLines (a : Nat) : List Byte → List (Nat × List Byte)
  | [] => []
  | b :: r => match splitLines (a + 1) r with
    | [] => [(a, [b])]
    | (a', d) :: rest => if a % 64 = 63 then (a, [b]) :: (a', d) :: rest else (a, b :: d) :: rest

/-- Words of 8 bytes wholly inside a range. -/
def wholeWords (a n : Nat) : List Nat :=
  let lo := (a + 7) / 8
  let hi := (a + n) / 8
  (upTo (hi - lo)).map (· + lo)

/-- Complete a write that lies in one line: the bytes, poison cleared by a full line (R192), a pantry or landing word
written whole no longer in error (R197), larder copies invalidated (R172), watch units told (R212). -/
def State.applyPart (s : State) (a : Nat) (d : List Byte) : State :=
  let s := s.store a d
  let s := match targetOf a with
    | .cellar _ =>
      let s := if d.length = 64 then s.setPoison (lineOf a) false else s
      s.larderInvalidate a
    | _ => { s with wordErr := (wholeWords a d.length).foldl (fun t w => tset false t w false) s.wordErr }
  s.reportWrite a d.length

/-- Whether the host holds a line (R238). -/
def State.hostHolds (s : State) (line : Nat) : Bool := s.cxl.snoop.any fun x => x.line == line

/-- BISnpInv is sent for a line. -/
def State.sendInv (s : State) (line : Nat) : State :=
  { s with cxl := { s.cxl with
      waitInv := if s.cxl.waitInv.contains line then s.cxl.waitInv else s.cxl.waitInv ++ [line] } }

/-- A device write is held behind a BISnpInv of its line (R238). -/
def State.holdOp (s : State) (a : Nat) (op : HeldOp) : State :=
  let s := s.sendInv (lineOf a)
  { s with cxl := { s.cxl with held := s.cxl.held ++ [{ line := lineOf a, addr := a, op := op, thread := 0 }] } }

/-- The writes that `s'` holds and `s` does not are a thread's (R220). -/
def State.byThread (t : Nat) (s s' : State) : State :=
  let n := s.cxl.held.length
  { s' with cxl := { s'.cxl with
      held := s'.cxl.held.take n ++ (s'.cxl.held.drop n).map fun h => { h with thread := t + 1 } } }

/-- A device write to one line: held behind a BISnpInv while the host holds the line (R238). -/
def State.writePart (s : State) (a : Nat) (d : List Byte) : State :=
  if s.hostHolds (lineOf a) then s.holdOp a (.bytes d) else s.applyPart a d

/-- A write by the device to its own memory. -/
def State.devWrite (s : State) (a : Nat) (d : List Byte) : State :=
  forEach (splitLines a d) (fun s p => s.writePart p.1 p.2) s

/-- A write by the device to host memory (R247): the waiters of a word the device changes are re-evaluated (R213). -/
def State.hostWrite (s : State) (a : Nat) (d : List Byte) : State :=
  let s := s.hostStore a d
  let ws := (s.threads.filterMap fun e => match e.2.wait with
    | some w => match waitWord s e.2 w with
      | some (true, x) => if decide (a < x + 8) && decide (x < a + d.length) then some x else none
      | _ => none
    | none => none).eraseDups
  forEach ws (fun s x => s.evalWaiters false allBays true x) s

/-- A write to device or host memory. -/
def State.writeLoc (s : State) (host : Bool) (a : Nat) (d : List Byte) : State :=
  if host then s.hostWrite a d else s.devWrite a d

def State.readLoc (s : State) (host : Bool) (a n : Nat) : List Byte := if host then s.hostBytes a n else s.seen a n

/-- Write a 64-bit word. -/
def State.writeWord (s : State) (host : Bool) (a v : Nat) : State := s.writeLoc host a (leBytes 8 v)

/-- A SIGNAL of `n` (R202); `none` when the word's line is poisoned (R192). `bay` counts SAT. -/
def State.signalAdd (s : State) (host : Bool) (a n bay : Nat) : Option State :=
  if !host && s.readsBad a 8 then none
  else if !host && s.hostHolds (lineOf a) then some (s.holdOp a (.add n bay))
  else
    let w := s.word host a
    let c := countOf w + n
    if 2 ^ 61 ≤ c then
      let s := s.writeWord host a (w / 2 ^ 61 * 2 ^ 61 % 2 ^ 63 + 2 ^ 63 + (2 ^ 61 - 1))
      some ((s.bump .wchEventCntSat bay).event .wchSat .bay bay noCtx [])
    else some (s.writeWord host a (w / 2 ^ 61 * 2 ^ 61 + c))

/-- A consume of `c` (R203); `none` when the word's line is poisoned. -/
def State.consumeWord (s : State) (host : Bool) (a c bay ctx sid : Nat) : Option State :=
  if c = 0 then some s
  else if !host && s.readsBad a 8 then none
  else if !host && s.hostHolds (lineOf a) then some (s.holdOp a (.sub c bay ctx sid))
  else
    let w := s.word host a
    if c ≤ countOf w then some (s.writeWord host a (w - c))
    else
      let flags := w / 2 ^ 61 % 2 + (w / 2 ^ 63 * 4)
      let s := s.writeWord host a ((flags + 2) * 2 ^ 61)
      some ((s.bump .wchEventCntUnd bay).event .wchUnderflow .bay bay ctx [sid, c])

/-- Deliver a signal with LOST (R224): LOST set, COUNT unchanged, WCH_LOST logged with the source and the flow. -/
def State.deliverLost (s : State) (a src flow : Nat) : State :=
  let w := s.word false a
  let s := if bitOf w 61 then s
    else if s.hostHolds (lineOf a) then s.holdOp a .lost else s.writeWord false a (w + 2 ^ 61)
  (s.bump .wchHoldCntLostRx).event .wchLost .device 0 noCtx [src, flow]

/-! ## Translation (R184 to R187) -/

/-- An address value as R184 reads it. -/
inductive AddrKind where
  | own (va : Nat)
  | global (dev window off : Nat)
  | bad
  deriving DecidableEq, Repr

def addrKind (v : Nat) : AddrKind :=
  if bitOf v 63 then .global (bitsOf v 62 48) (bitsOf v 47 44) (bitsOf v 43 0)
  else if v < 2 ^ 48 then .own v
  else .bad

/-- Step fault codes (R123, R160). -/
def fltSync : Nat := 0x08
def fltTranslation : Nat := 0x10
def fltWriteProtect : Nat := 0x11
def fltAlignment : Nat := 0x12
def fltFormat : Nat := 0x20
def fltOverflow : Nat := 0x21
def fltParameter : Nat := 0x22
def fltEncoding : Nat := 0x30
def fltNesting : Nat := 0x31
def fltUnderrun : Nat := 0x32
def fltNull : Nat := 0x33
def fltAttic : Nat := 0x34
def fltMemory : Nat := 0x40

/-- The valid leaf of a virtual page in the context's copy (R185, R186). -/
def Ctx.leaf (c : Ctx) (va : Nat) : Option Leaf := c.leaves.find? fun l => l.vpage == va / (2 * mib)

/-- The copy's entries a translation of a virtual page walks (R185). -/
def Ctx.walk (c : Ctx) (v : Nat) : List Nat :=
  [c.tableAt 0 + 8 * (v / 2 ^ 18), c.tableAt (1 + v / 2 ^ 18) + 8 * (v / 512 % 512), c.tableAt (513 + v / 512) + 8 * (v % 512)]

/-- A bay translates a virtual page of a context: by its cache, which holds 4,096 leaves, or by a walk of the copy; none
where an entry the walk reads is poisoned (R188, R192). The least recently used leaf leaves a full cache (DESIGN CHOICE, log entry 50). -/
def State.translate (s : State) (b c v : Nat) : Option State :=
  let y := s.bay b
  if !y.xlats.contains (c, v) && ((s.ctx c).walk v).any (fun a => s.readsBad a 8) then none
  else some (s.setBay b { y with xlats := ((c, v) :: y.xlats.filter (· != (c, v))).take 4096 })

/-- A piece of a virtual range in one page: host or device, address, virtual page, bytes. -/
structure Piece where
  host : Bool
  addr : Nat
  page : Nat
  len : Nat
  deriving DecidableEq, Repr

/-- The pieces of `n` bytes at virtual address `va`, or the fault an access meets (R187). -/
def Ctx.pieces (c : Ctx) (write : Bool) (va n : Nat) : Except Nat (List Piece) :=
  if n = 0 then .ok []
  else if 2 ^ 48 < va + n then .error fltTranslation
  else
    let first := va / (2 * mib)
    let last := (va + n - 1) / (2 * mib)
    ((upTo (last - first + 1)).map (· + first)).mapM fun pg =>
      let lo := max va (pg * (2 * mib))
      let hi := min (va + n) ((pg + 1) * (2 * mib))
      match c.leaf lo with
      | none => .error fltTranslation
      | some l =>
        if write && !l.writable then .error fltWriteProtect
        else .ok { host := l.target == 3, addr := l.page + lo % (2 * mib), page := pg, len := hi - lo }

/-- Read `n` bytes at a virtual address; a poisoned line or a word in error is MEMORY (R192, R197). -/
def State.readVirt (s : State) (c : Ctx) (va n : Nat) : Except Nat (List Byte) := do
  let ps ← c.pieces false va n
  if ps.any fun p => !p.host && s.readsBad p.addr p.len then .error fltMemory
  else .ok (ps.flatMap fun p => s.readLoc p.host p.addr p.len)

/-- Write bytes along pieces. -/
def State.writePieces (s : State) : List Piece → List Byte → State
  | [], _ => s
  | p :: r, d => (s.writeLoc p.host p.addr (d.take p.len)).writePieces r (d.drop p.len)

/-- Write bytes at a virtual address. -/
def State.writeVirt (s : State) (c : Ctx) (va : Nat) (d : List Byte) : Except Nat State := do
  let ps ← c.pieces true va d.length
  .ok (s.writePieces ps d)

/-! ## Full/empty words (R198, R199) -/

/-- Whether a device-physical word is tagged: a word of the first FE_WORDS of a bay's pantry (R198). -/
def State.tagged (s : State) (a : Nat) : Bool :=
  match targetOf a with
  | .pantry b => decide (a % 8 = 0) && decide ((a % 0x1000_0000) / 8 < s.cfg.feWords.getD b 0)
  | _ => false

def State.isFull (s : State) (a : Nat) : Bool := tget false s.feFull (a / 8)
def State.setFull (s : State) (a : Nat) (v : Bool) : State := { s with feFull := tset false s.feFull (a / 8) v }

/-- The thread a full word is reserved to (R219); 0 for none, else thread + 1. -/
def State.reservedTo (s : State) (a : Nat) : Nat := tget 0 s.feOwner (a / 8)
def State.setReserved (s : State) (a v : Nat) : State := { s with feOwner := tset 0 s.feOwner (a / 8) v }

/-- Tagged operations waiting in a bay (at most 256). -/
def State.feWaiting (s : State) (b : Nat) : Nat := (s.feOps.filter fun o => o.bay == b).length

/-- The oldest waiting operation of a kind on a word. -/
def State.feOldest (s : State) (a : Nat) (put : Bool) : Option FeOp :=
  s.feOps.find? fun o => o.addr == a && o.put == put

end Sys2Proof.Machine
end

