-- ==== Sys2Proof/Machine/Numerics.lean ====
section
/-! DEFINITION. Number formats and digital arithmetic (R54 to R68, R76, R81 to R83, R92, R127): exact dyadic values,
FP32 and B16 (IEEE 754 binary32 and its upper half; PRESUMED, log entry 17), stochastic rounding, reduction trees. -/

namespace Sys2Proof.Machine

/-- A floating-point value: NaN, an infinity, or the exact value ±m·2^e. -/
inductive FV where
  | nan
  | inf (neg : Bool)
  | fin (neg : Bool) (m : Nat) (e : Int)
  deriving DecidableEq, Repr

/-- 2^k for any integer k as a numerator and denominator applied to n: n·2^k rounded half to even. -/
def scaleRound (n : Int) (k : Int) : Int :=
  if 0 ≤ k then n * 2 ^ k.toNat else roundHalfEven n (2 ^ (-k).toNat)

/-- n·2^k, rounded toward zero, for n ≥ 0. -/
def scaleTrunc (n : Nat) (k : Int) : Nat := if 0 ≤ k then n * 2 ^ k.toNat else n / 2 ^ (-k).toNat

/-- Read an FP32 pattern. -/
def f32 (v : Nat) : FV :=
  let neg := bitOf v 31
  let ex := bitsOf v 30 23
  let fr := bitsOf v 22 0
  if ex = 255 then (if fr = 0 then .inf neg else .nan)
  else if ex = 0 then .fin neg fr (-149)
  else .fin neg (fr + 2 ^ 23) ((ex : Int) - 150)

/-- Read a B16 pattern (the upper half of an FP32 pattern). -/
def b16 (v : Nat) : FV := f32 (v % 2 ^ 16 * 2 ^ 16)

/-- Encode the magnitude m·2^e with `p` significand bits over FP32's exponent range, ties to even; no sign. -/
def encodeMag (p : Nat) (m : Nat) (e : Int) : Nat :=
  if m = 0 then 0
  else
    let top : Int := (Nat.log2 m : Int) + e
    let q : Int := max (top - (p - 1)) (-126 - (p - 1))
    let mant := (scaleRound m (e - q)).toNat
    (q + 126 + (p - 1)).toNat * 2 ^ (p - 1) + mant

/-- Write an FP32 pattern, rounding to nearest, ties to even; a NaN is 0x7FC0_0000 (R127). -/
def toF32 : FV → Nat
  | .nan => 0x7FC0_0000
  | .inf neg => boolNat neg * 2 ^ 31 + 0x7F80_0000
  | .fin neg m e => boolNat neg * 2 ^ 31 + min (encodeMag 24 m e) 0x7F80_0000

/-- Write a B16 pattern; a NaN is 0x7FC0. -/
def toB16 : FV → Nat
  | .nan => 0x7FC0
  | .inf neg => boolNat neg * 2 ^ 15 + 0x7F80
  | .fin neg m e => boolNat neg * 2 ^ 15 + min (encodeMag 8 m e) 0x7F80

/-- The signed numerator of a finite value at exponent `e0 ≤ e`. -/
def atExp (neg : Bool) (m : Nat) (e e0 : Int) : Int :=
  let x : Int := m * 2 ^ (e - e0).toNat
  if neg then -x else x

/-- An exact value from a signed numerator; `zneg` is the sign of a zero. -/
def ofNum (x : Int) (e : Int) (zneg : Bool) : FV :=
  if x = 0 then .fin zneg 0 0 else .fin (decide (x < 0)) x.natAbs e

def FV.neg : FV → FV
  | .nan => .nan
  | .inf n => .inf (!n)
  | .fin n m e => .fin (!n) m e

/-- Exact sum. -/
def FV.add : FV → FV → FV
  | .nan, _ => .nan
  | _, .nan => .nan
  | .inf a, .inf b => if a = b then .inf a else .nan
  | .inf a, .fin _ _ _ => .inf a
  | .fin _ _ _, .inf b => .inf b
  | .fin na ma ea, .fin nb mb eb =>
    let e := min ea eb
    ofNum (atExp na ma ea e + atExp nb mb eb e) e (na && nb)

/-- Exact product. -/
def FV.mul : FV → FV → FV
  | .nan, _ => .nan
  | _, .nan => .nan
  | .inf a, .inf b => .inf (a != b)
  | .inf a, .fin n m _ => if m = 0 then .nan else .inf (a != n)
  | .fin n m _, .inf b => if m = 0 then .nan else .inf (n != b)
  | .fin na ma ea, .fin nb mb eb => .fin (na != nb) (ma * mb) (ea + eb)

/-- a ≤ b for values that are no NaN. -/
def FV.le : FV → FV → Bool
  | .nan, _ => false
  | _, .nan => false
  | .inf true, _ => true
  | _, .inf false => true
  | .inf false, _ => false
  | _, .inf true => false
  | .fin na ma ea, .fin nb mb eb =>
    let e := min ea eb
    decide (atExp na ma ea e ≤ atExp nb mb eb e)

def FV.isNan : FV → Bool
  | .nan => true
  | _ => false

def FV.isZero : FV → Bool
  | .fin _ 0 _ => true
  | _ => false

/-- Round to FP32 and read the result. -/
def FV.round32 (x : FV) : FV := f32 (toF32 x)

/-- Below the normal range a result is +0 (R92). -/
def FV.flush (x : FV) : FV :=
  match x with
  | .fin _ m e => if m = 0 || decide ((Nat.log2 m : Int) + e < -126) then .fin false 0 0 else x
  | y => y

/-! ## Element types of VEC (R127) -/

/-- TIN and TOUT. -/
inductive Ty where
  | fp32 | int32 | int48 | b16 | q8 | q4
  deriving DecidableEq, Repr

def tyOf : Nat → Option Ty
  | 0 => some .fp32
  | 1 => some .int32
  | 2 => some .int48
  | 3 => some .b16
  | 4 => some .q8
  | 5 => some .q4
  | _ => none

def Ty.isInt : Ty → Bool
  | .fp32 | .b16 => false
  | _ => true

/-- Value bits of a type. -/
def Ty.width : Ty → Nat
  | .fp32 | .int32 => 32
  | .int48 => 48
  | .b16 => 16
  | .q8 => 8
  | .q4 => 4

/-- Bytes of an item (R156): a Q4 item is one byte of two elements, INT48 is held in 64 bits. -/
def Ty.bytes : Ty → Nat
  | .fp32 | .int32 => 4
  | .int48 => 8
  | .b16 => 2
  | .q8 | .q4 => 1

/-- Read an element's pattern: an integer or a floating-point value. -/
def Ty.read (t : Ty) (v : Nat) : FV :=
  match t with
  | .fp32 => f32 v
  | .b16 => Sys2Proof.Machine.b16 v
  | t => ofNum (signed t.width v) 0 false

/-- Saturate an integer to a type's range. -/
def Ty.sat (t : Ty) (x : Int) : Int := clampInt (-(2 ^ (t.width - 1))) (2 ^ (t.width - 1) - 1) x

/-- The pattern of an integer in a type, sign-extended to the item. -/
def Ty.ofInt (t : Ty) (x : Int) : Nat := twos (if t = .int48 then 64 else t.width) x

/-- The nearest integer of a finite value, ties to even; an infinity the end of the range, NaN 0 (CONVERT). -/
def Ty.ofFV (t : Ty) : FV → Nat
  | .nan => t.ofInt 0
  | .inf neg => t.ofInt (if neg then -(2 ^ (t.width - 1)) else 2 ^ (t.width - 1) - 1)
  | .fin neg m e => t.ofInt (t.sat (scaleRound (if neg then -(m : Int) else m) e))

/-- Write a value in a type: CONVERT. B16 results are rounded once from the exact value. -/
def Ty.write (t : Ty) (x : FV) : Nat :=
  match t with
  | .fp32 => toF32 x
  | .b16 => toB16 x
  | t => t.ofFV x

/-- The integer of an exact integral value. -/
def FV.toInt : FV → Int
  | .fin neg m e => scaleRound (if neg then -(m : Int) else m) e
  | _ => 0

/-- Write the result of arithmetic: B16 arithmetic is carried out in FP32 and rounded again; integers saturate. -/
def Ty.writeArith (t : Ty) (x : FV) : Nat :=
  match t with
  | .fp32 => toF32 x
  | .b16 => toB16 x.round32
  | t => t.ofInt (t.sat x.toInt)

/-! ## The tree of R92 -/

/-- Combine neighbours at distance `w`: one round of R92 on a list of parts. -/
def treeRound {α : Type} (f : α → α → α) : List α → List α
  | a :: b :: r => f a b :: treeRound f r
  | l => l

/-- The tree of R92: rounds until one part is left. `n` bounds the rounds. -/
def treeFold {α : Type} (f : α → α → α) (d : α) : Nat → List α → α
  | 0, l => l.headD d
  | _ + 1, [] => d
  | _ + 1, [a] => a
  | n + 1, l => treeFold f d n (treeRound f l)

/-- FP32 addition of R92: nearest, ties to even, flushed below the normal range. -/
def redAdd (a b : FV) : FV := ((a.add b).round32).flush

/-- A sum of parts in FP32; `none` when a sum is infinite (R92). A NaN part gives NaN. -/
def sumFp (l : List FV) : Option FV :=
  let step (x y : Bool × FV) : Bool × FV :=
    let r := redAdd x.2 y.2
    (x.1 || y.1 || (match r with | .inf _ => true | _ => false), r)
  let r := treeFold step (false, .fin false 0 0) 64 (l.map fun x => (false, x))
  match r.1, r.2 with
  | true, _ => none
  | _, .inf _ => none
  | _, v => some v.flush

/-- A sum of integer parts into a type; `none` outside its range (R92). -/
def sumInt (t : Ty) (l : List Int) : Option Int :=
  let r := l.foldl (· + ·) 0
  if t.sat r = r then some r else none

/-- A reduction into type `t` (R92). -/
def reduceTo (t : Ty) (l : List FV) : Option Nat :=
  if t.isInt then (sumInt t (l.map FV.toInt)).map t.ofInt else (sumFp l).map t.write

/-! ## Accumulation (R81 to R83) -/

/-- `mix` of R83. -/
def mix (z : Word) : Word :=
  let z := (z ^^^ (z >>> 30)) * 0xBF58476D1CE4E5B9#64
  let z := (z ^^^ (z >>> 27)) * 0x94D049BB133111EB#64
  z ^^^ (z >>> 31)

/-- The draw for the n-th addition of a row cell in one issue of a step (R83). -/
def draw16 (seed : Word) (step lat row n : Nat) : Nat :=
  let k := mix (seed ^^^ mix (BitVec.ofNat 64 (step % 2 ^ 48 + lat * 2 ^ 48 + row * 2 ^ 51)))
  (mix (k + BitVec.ofNat 64 n * 0x9E3779B97F4A7C15#64)).toNat % 2 ^ 16

/-- An accumulator's value after an addition, or an overflow. -/
inductive Acc where
  | ok (v : Nat)
  | over
  deriving DecidableEq, Repr

/-- FP32 addition with stochastic rounding (R82): `a` an FP32 pattern, `p` the product, `r` the draw. -/
def srAdd (a : Nat) (p : FV) (r : Nat) : Acc :=
  match (f32 a).add p with
  | .nan => .ok 0x7FC0_0000
  | .inf _ => .over
  | .fin neg m e =>
    if m = 0 then .ok 0
    else
      let top : Int := (Nat.log2 m : Int) + e
      if 128 ≤ top then .over
      else if top < -126 then .ok 0
      else
        let q : Int := top - 23
        let t := scaleTrunc m (e - q)
        -- f16 = floor(frac * 65536) of the part below u = 2^q
        let f16 := scaleTrunc m (e - q + 16) % 65536
        let exact := decide (e ≥ q) || decide (m % 2 ^ (q - e).toNat = 0)
        let res := if exact then t else if r < f16 then t + 1 else t
        let bits := (q + 149).toNat * 2 ^ 23 + res
        if 0x7F80_0000 ≤ bits then .over else .ok (boolNat neg * 2 ^ 31 + bits)

/-- Integer accumulation (R81): exact, an overflow outside the range of `w` bits. -/
def intAdd (w : Nat) (a p : Int) : Option Int :=
  let x := a + p
  if decide (-(2 ^ (w - 1)) ≤ x) && decide (x ≤ 2 ^ (w - 1) - 1) then some x else none

/-- The FP32 product of R68: y·2^(4(a+w)) rounded to FP32, times an exact power of two; below the normal range it is
flushed to zero; `none` beyond the range. `y6` is y in units of 2⁻⁶ (R69). -/
def product32 (num : Int) (e2 : Int) (pow : Int) : Option FV :=
  match (ofNum num e2 false).round32 with
  | .fin neg m e =>
    let x : FV := .fin neg m (e + pow)
    if m = 0 then some (.fin false 0 0)
    else if 128 ≤ (Nat.log2 m : Int) + e + pow then none
    else some x.flush
  | _ => none

/-! ## Exponentials, reciprocals and square roots (R109, R113, R127)

Values are worked out in units of 2⁻³²⁰, far below half a unit of FP32 at any result it can hold. -/

/-- 2³²⁰ · ln 2, rounded down. -/
def ln2Fix : Nat :=
  1480553391661173448385607439722553250922680800745876974795605978609098082859138712941075737848984

/-- e^r in units of 2⁻³²⁰ for r below ln 2 in the same units: the series up to r⁸⁰/80!. -/
def expSeries (r : Nat) : Nat :=
  (upTo 80).foldr (fun i acc => 2 ^ 320 + r * acc / ((i + 1) * 2 ^ 320)) (2 ^ 320)

/-- A magnitude m·2^e in units of 2⁻³²⁰, held at 1,024. -/
def magFix (m : Nat) (e : Int) : Nat :=
  if 10 ≤ (Nat.log2 m : Int) + e then 2 ^ 330
  else if 0 ≤ e + 320 then m * 2 ^ (e + 320).toNat else m / 2 ^ (-(e + 320)).toNat

/-- e^x for x = d or −d in units of 2⁻³²⁰, as m·2^e. -/
def expOf (neg : Bool) (d : Nat) : Nat × Int :=
  let q : Int := (d / ln2Fix : Nat)
  let y := expSeries (d % ln2Fix)
  if neg then (2 ^ 640 / y, -320 - q) else (y, q - 320)

/-- The largest r below 2^n with r·r at most x. -/
def isqrt (x : Nat) : Nat → Nat → Nat
  | r, 0 => r
  | r, n + 1 => if (r + 2 ^ n) * (r + 2 ^ n) ≤ x then isqrt x (r + 2 ^ n) n else isqrt x r n

/-- 1/√(m·2^e) as a magnitude and an exponent. -/
def rsqrtOf (m : Nat) (e : Int) : Nat × Int :=
  let m' := if e % 2 = 0 then m else 2 * m
  let e' := if e % 2 = 0 then e else e - 1
  (isqrt (2 ^ 720 / m') 0 361, -360 - e' / 2)

/-- The magnitude of a nonnegative FP32 pattern; that of +∞ is 2¹²⁸ here. -/
def patternMag (p : Nat) : Nat × Int :=
  match f32 p with
  | .fin _ m e => (m, e)
  | _ => (2 ^ 24, 104)

/-- Whether the value of a pattern is within `k` units in the last place of m·2^e, at the place of the exact value. -/
def withinUlps (k m : Nat) (e : Int) (p : Nat) : Bool :=
  let v := patternMag p
  let u : Int := max ((Nat.log2 m : Int) + e - 23) (-149)
  let low := min (min v.2 e) u
  let at' (n : Nat) (x : Int) : Nat := n * 2 ^ (x - low).toNat
  let a := at' v.1 v.2
  let b := at' m e
  -- m·2^e itself is exact to a few units of 2^e
  decide (max a b - min a b ≤ at' k u + at' 65536 e)

/-- The patterns within `k` units in the last place of m·2^e; the nearest one where the range holds none. -/
def ulpRange (k m : Nat) (e : Int) : List Nat :=
  let near := min (encodeMag 24 m e) 0x7F80_0000
  let l := ((upTo (4 * k + 5)).map fun i => near + i - (2 * k + 2)).filter fun p =>
    decide (p ≤ 0x7F80_0000) && withinUlps k m e p
  if l.isEmpty then [near] else l.eraseDups

/-- A value within `k` units in the last place of m·2^e (R127): which one is free. -/
def freeNear (k func : Nat) (ops : List (BitVec 32)) (i m : Nat) (e : Int) : Nat :=
  let l := ulpRange k m e
  l.getD (Config.within func ops i % l.length) 0

/-- The softmax of a row of finite values and −∞: each entry's share in units of 2⁻³²⁰. -/
def softmaxShares (l : List FV) : List Nat :=
  let at149 (x : FV) : Int := match x with
    | .fin neg m e => atExp neg m e (-149)
    | _ => 0
  let fin (x : FV) : Bool := match x with
    | .fin _ _ _ => true
    | _ => false
  let top := match (l.filter fin).map at149 with
    | [] => 0
    | x :: r => r.foldl max x
  let es := l.map fun x =>
    if fin x then
      let y := expOf true (magFix (top - at149 x).toNat (-149))
      y.1 / 2 ^ (-320 - y.2).toNat
    else 0
  let sum := es.foldl (· + ·) 0
  es.map fun x => x * 2 ^ 320 / max 1 sum

end Sys2Proof.Machine
end

