-- ==== Sys2Proof/Machine/Operands.lean ====
section
/-! DEFINITION. What a step names: its fields and static faults (R119, R123, R125 to R135), and its streams: the
stencil machine and the items it emits (R152 to R160). -/

namespace Sys2Proof.Machine

/-! ## Steps (R119) -/

/-- The twelve steps. -/
inductive Op where
  | matmul | vec | move | gather | route | exit | gate | signal | wait | fence | setmode | branch
  deriving DecidableEq, Repr

/-- Opcode, bits [7:0] (R119); every other value is undefined. -/
def opOf (w : Nat) : Option Op :=
  match w % 256 with
  | 0x01 => some .matmul
  | 0x02 => some .vec
  | 0x03 => some .move
  | 0x04 => some .gather
  | 0x05 => some .route
  | 0x06 => some .exit
  | 0x07 => some .gate
  | 0x08 => some .signal
  | 0x09 => some .wait
  | 0x0A => some .fence
  | 0x0B => some .setmode
  | 0x0C => some .branch
  | _ => none

/-- ORDER, bit [8]. -/
def stepOrder (w : Nat) : Bool := bitOf w 8

/-- The bits a step may set: opcode, ORDER and the fields of its table, as [hi, lo] ranges. -/
def Op.fields : Op → List (Nat × Nat)
  | .matmul => [(211, 64), (54, 16)]
  | .vec => [(176, 112), (103, 16)]
  | .move => [(147, 20), (17, 16)]
  | .gather => [(215, 32), (16, 16)]
  | .route | .exit | .gate => [(111, 64)]
  | .signal => [(95, 64), (25, 16)]
  | .wait => [(159, 64), (41, 32), (18, 16)]
  | .fence => [(17, 16)]
  | .setmode => [(18, 16)]
  | .branch => [(95, 64), (47, 32), (21, 20), (18, 16)]

/-- The value of a word's bits in the ranges. -/
def maskTo (w : Nat) (l : List (Nat × Nat)) : Nat := l.foldl (fun a r => a + bitsOf w r.1 r.2 * 2 ^ r.2) 0

/-- A reserved bit of the step is 1 (R123 RESERVED). WAIT's TARGET is [124:64]. -/
def reservedSet (o : Op) (w : Nat) : Bool :=
  let fs := (8, 0) :: (match o with
    | .wait => [(159, 128), (124, 64), (41, 32), (18, 16)]
    | o => o.fields)
  decide (maskTo w fs ≠ w % 2 ^ 256)

/-! MATMUL (R125) -/
def mmMask (w : Nat) : Nat := bitsOf w 211 200
def mmCarry (w : Nat) : Nat := bitsOf w 199 188
def mmOut (w : Nat) : Nat := bitsOf w 187 176
def mmWscale (w : Nat) : Nat := bitsOf w 175 164
def mmWgt (w : Nat) : Nat := bitsOf w 163 152
def mmIscale (w : Nat) : Nat := bitsOf w 151 140
def mmIn (w : Nat) : Nat := bitsOf w 139 128
def mmGran (w : Nat) : Nat := bitsOf w 127 112 + 1
def mmPlanes (w : Nat) : Nat := bitsOf w 111 96
def mmVectors (w : Nat) : Nat := bitsOf w 95 64
def mmCols (w : Nat) : Nat := bitsOf w 54 46
def mmRows (w : Nat) : Nat := bitsOf w 45 36
def mmMasken (w : Nat) : Bool := bitOf w 35
def mmCin (w : Nat) : Bool := bitOf w 34
def mmNoskip (w : Nat) : Bool := bitOf w 33
def mmAuto (w : Nat) : Bool := bitOf w 32
def mmG (w : Nat) : Nat := bitsOf w 31 28
def mmMode (w : Nat) : Nat := bitsOf w 27 26
def mmAcc (w : Nat) : Nat := bitsOf w 25 24
def mmWimg (w : Nat) : Nat := bitsOf w 23 22
def mmPair (w : Nat) : Nat := bitsOf w 21 18
def mmLset (w : Nat) : Nat := bitsOf w 17 16

/-- Pairs whose weights take Q8 form: Q8 × Q8, the F8 pairs, B16 × B16. -/
def q8Weights (pair : Nat) : Bool := decide (3 ≤ pair) && decide (pair ≤ 8)

/-- Pairs INT32 and INT48 may accumulate (R64). -/
def intPair (pair : Nat) : Bool := pair == 0 || pair == 2 || pair == 3

/-! VEC (R127) -/
def vecMask (w : Nat) : Nat := bitsOf w 176 165
def vecGran (w : Nat) : Nat := bitsOf w 164 149 + 1
def vecMasken (w : Nat) : Bool := bitOf w 148
def vecOut (w : Nat) : Nat := bitsOf w 147 136
def vecB (w : Nat) : Nat := bitsOf w 135 124
def vecA (w : Nat) : Nat := bitsOf w 123 112
def vecK (w : Nat) : Nat := bitsOf w 103 96
def vecImm (w : Nat) : Nat := bitsOf w 95 64
def vecCount (w : Nat) : Nat := bitsOf w 63 32
def vecTout (w : Nat) : Nat := bitsOf w 31 28
def vecTin (w : Nat) : Nat := bitsOf w 27 24
def vecFunc (w : Nat) : Nat := bitsOf w 23 16

/-- The types each function accepts (R127). -/
def vecTypesOk (func tin tout : Nat) : Bool :=
  let fl (t : Nat) : Bool := t == 0 || t == 3
  let it (t : Nat) : Bool := t == 1 || t == 2
  if 5 < tin || 5 < tout then false
  else if func ≤ 4 || func == 6 || func == 7 || func == 0x11 then tin == tout && tin ≤ 3
  else if func == 8 || func == 9 || func == 10 then tin == tout && fl tin
  else if func == 0x0B then fl tin && fl tout
  else if func == 0x0C then (fl tin && tout == 0) || (it tin && it tout)
  else if func == 0x10 then (tin == 0 && tout == 0) || (it tin && it tout)
  else if func == 0x12 then true
  else if func == 0x13 then fl tin && (tout == 4 || tout == 5)
  else if func == 0x14 then tout == 0
  else false

/-! MOVE and GATHER (R128, R129) -/
def mvMask (w : Nat) : Nat := bitsOf w 147 136
def mvGran (w : Nat) : Nat := bitsOf w 135 120 + 1
def mvDst (w : Nat) : Nat := bitsOf w 119 108
def mvSrc (w : Nat) : Nat := bitsOf w 107 96
def mvCount (w : Nat) : Nat := bitsOf w 95 64
def mvLen (w : Nat) : Nat := bitsOf w 63 32
def mvFlow (w : Nat) : Nat := bitsOf w 31 20
def mvAtom (w : Nat) : Bool := bitOf w 17
def mvMasken (w : Nat) : Bool := bitOf w 16
def gaDst (w : Nat) : Nat := bitsOf w 215 204
def gaIdx (w : Nat) : Nat := bitsOf w 203 192
def gaLimit (w : Nat) : Nat := bitsOf w 191 160
def gaStride (w : Nat) : Nat := bitsOf w 159 128
def gaPooln (w : Nat) : Nat := bitsOf w 127 112
def gaTable (w : Nat) : Nat := bitsOf w 111 64
def gaRowbytes (w : Nat) : Nat := bitsOf w 63 32
def gaPool (w : Nat) : Bool := bitOf w 16

/-! ROUTE, EXIT, GATE (R130), SIGNAL, WAIT, FENCE, SETMODE, BRANCH (R131 to R135) -/
def stepParam (w : Nat) : Nat := bitsOf w 111 64
def sgSid (w : Nat) : Nat := bitsOf w 25 16
def sgN (w : Nat) : Nat := bitsOf w 95 64
def wtTimeout (w : Nat) : Nat := bitsOf w 159 128
def wtTarget (w : Nat) : Nat := bitsOf w 124 64
def wtSid (w : Nat) : Nat := bitsOf w 41 32
def wtCons (w : Nat) : Bool := bitOf w 18
def wtSrc (w : Nat) : Nat := bitsOf w 17 16
def fnScope (w : Nat) : Nat := bitsOf w 17 16
def smState (w : Nat) : Nat := bitsOf w 18 16
def brImm (w : Nat) : Nat := bitsOf w 95 64
def brTarget (w : Nat) : Nat := bitsOf w 47 32
def brC (w : Nat) : Nat := bitsOf w 21 20
def brCond (w : Nat) : Nat := bitsOf w 18 16

/-- "No stream" (R118). -/
def noStream : Nat := 0xFFF

/-- The stencil fields a step reads; C3 weights ignore S_WSCALE (R57). -/
def stencilFields (o : Op) (w : Nat) : List Nat :=
  match o with
  | .matmul => [mmIn w, mmIscale w, mmWgt w, mmOut w, mmCarry w, mmMask w] ++
      (if mmWimg w = 2 then [] else [mmWscale w])
  | .vec => [vecA w, vecB w, vecOut w, vecMask w]
  | .move => [mvSrc w, mvDst w, mvMask w]
  | .gather => [gaIdx w, gaDst w]
  | _ => []

/-- RANGE faults of R123. -/
def rangeFault (o : Op) (w : Nat) : Bool :=
  match o with
  | .matmul => decide (8 < mmG w) || mmMode w == 3 || mmAcc w == 3 || mmWimg w == 3 || decide (8 < mmPair w) ||
      decide (256 < mmCols w) || decide (512 < mmRows w)
  | .vec => !vecTypesOk (vecFunc w) (vecTin w) (vecTout w) ||
      ((vecFunc w == 0x0B || vecFunc w == 0x0C || vecFunc w == 0x11) && vecImm w == 0) ||
      (vecFunc w == 0x10 && (decide (vecK w < 2) || decide (64 < vecK w))) ||
      (vecFunc w == 0x11 && (decide (vecK w < 1) || decide (64 < vecK w) || decide (vecImm w < vecK w)))
  | .move => mvAtom w && mvLen w != 8
  | .gather => gaPooln w == 0 || (gaPool w && gaRowbytes w % 4 != 0)
  | .wait => wtSrc w == 3
  | .fence => fnScope w == 3
  | .setmode => decide (4 < smState w)
  | .branch => decide (5 < brCond w)
  | _ => false

/-- MODE faults of R123. -/
def modeFault (o : Op) (w : Nat) : Bool :=
  match o with
  | .matmul => mmLset w == 0 || (mmMode w == 0 && (q8Weights (mmPair w) || decide (1 < mmPlanes w))) ||
      ((mmAcc w == 0 || mmAcc w == 1) && !intPair (mmPair w))
  | _ => false

/-- The lowest static fault code of a step (R123, R147), 0 for none. -/
def staticFault (w nSteps nStencil : Nat) (permPower : Bool) : Nat :=
  match opOf w with
  | none => 0x01
  | some o =>
    if reservedSet o w then 0x02
    else if rangeFault o w then 0x03
    else if modeFault o w then 0x04
    else if o = .branch && decide (brCond w ≤ 3) && decide (nSteps ≤ brTarget w) then 0x05
    else if (stencilFields o w).any fun i => i != noStream && decide (nStencil ≤ i) then 0x06
    else if o = .setmode && !permPower then 0x07
    else if o = .matmul && mmWimg w == 2 && q8Weights (mmPair w) then 0x20
    else 0

/-! ## The stencil machine (R152 to R154) -/

/-- An open loop (R153). -/
structure OpenLoop where
  idx : Nat
  count : Nat
  first : Nat
  past : Nat
  amode : Nat
  pmode : Nat
  a : Nat
  p : Nat
  deriving DecidableEq, Repr

/-- Items emitted by one EMIT: `n` items from address `addr`, or null items; the larder hint; the number of its first
item. -/
structure Run where
  addr : Nat
  n : Nat
  null : Bool
  hint : Nat
  firstItem : Nat
  deriving DecidableEq, Repr

/-- A generator (R153); open loops innermost first; runs newest first. -/
structure Gen where
  pc : Nat
  a : Nat
  p : Nat
  x : Nat
  null : Bool
  loops : List OpenLoop
  out : List Run
  emitted : Nat
  deriving DecidableEq, Repr

/-- A run's start: every register zero (R153). -/
def Gen.start : Gen := { pc := 0, a := 0, p := 0, x := 0, null := false, loops := [], out := [], emitted := 0 }

/-- What a generator reads besides memory: the thread's counters and consumed count. -/
structure GenEnv where
  ctr : List Nat
  consumed : Nat
  deriving DecidableEq, Repr

/-- Length of a program: up to the first zero word (R152). -/
def progLen (ws : List Nat) : Nat := (ws.takeWhile (· ≠ 0)).length

/-- A nonzero word after the first zero word is an encoding fault (R152). -/
def tailNonzero (ws : List Nat) : Bool := ((ws.dropWhile (· ≠ 0)).any (· ≠ 0))

/-- What one operation does. -/
inductive GenStep where
  | go (g : Gen)
  | stop (g : Gen)
  | fault (code : Nat)
  deriving DecidableEq, Repr

/-- The end of an iteration of the innermost loop: the next iteration, or past the loop (R154 LOOP). -/
def loopEnd (g : Gen) (l : OpenLoop) (rest : List OpenLoop) : Gen :=
  if l.idx + 1 < l.count then
    { g with pc := l.first, a := if l.amode = 2 then l.a else g.a, p := if l.pmode = 2 then l.p else g.p,
             loops := { l with idx := l.idx + 1 } :: rest }
  else
    { g with a := if l.amode = 0 then g.a else l.a, p := if l.pmode = 0 then g.p else l.p, loops := rest }

/-- LOOP (R154). -/
def genLoop (env : GenEnv) (len w : Nat) (g : Gen) : GenStep :=
  let am := bitsOf w 28 27
  let pm := bitsOf w 26 25
  let body := bitsOf w 24 21
  let src := bitsOf w 20 18
  if am = 3 || pm = 3 || src = 7 || body = 0 then .fault fltEncoding
  else if 4 ≤ g.loops.length || len < g.pc + 1 + body ||
      g.loops.any (fun l => decide (l.past < g.pc + 1 + body)) then .fault fltNesting
  else
    let n := match src with
      | 0 => bitsOf w 17 0
      | 1 => g.x
      | 6 => min env.consumed (2 ^ 32 - 1)
      | k => env.ctr.getD (k - 2) 0
    if n = 0 then .go { g with pc := g.pc + 1 + body }
    else .go { g with pc := g.pc + 1,
                      loops := { idx := 0, count := n, first := g.pc + 1, past := g.pc + 1 + body, amode := am,
                                 pmode := pm, a := g.a, p := g.p } :: g.loops }

/-- ADD (R154). -/
def genAdd (env : GenEnv) (w : Nat) (g : Gen) : GenStep :=
  let src := bitsOf w 27 25
  if src = 7 then .fault fltEncoding
  else
    let v : Int := match src with
      | 0 => 1
      | 1 => signed 32 g.x
      | 6 => env.consumed
      | k => env.ctr.getD (k - 2) 0
    let d := v * signed 22 w * 2 ^ (8 * bitsOf w 24 22)
    if bitOf w 28 then .go { g with pc := g.pc + 1, p := twos 64 (g.p + d) }
    else .go { g with pc := g.pc + 1, a := twos 64 (g.a + d) }

/-- INDEX (R154); `rd` reads the 32-bit word at a context address. -/
def genIndex (rd : Nat → Except Nat Nat) (w : Nat) (g : Gen) : GenStep :=
  let src := bitsOf w 28 26
  let off := signed 22 w
  if bitsOf w 25 22 ≠ 0 || 6 ≤ src then .fault fltEncoding
  else if src ≤ 1 then
    match rd g.p with
    | .error c => .fault c
    | .ok v => .go { g with pc := g.pc + 1, x := twos 32 (v + off),
                            p := if src = 0 then (g.p + 4) % 2 ^ 64 else g.p }
  else
    match g.loops.reverse[src - 2]? with
    | none => .fault fltNesting
    | some l => .go { g with pc := g.pc + 1, x := twos 32 (l.idx + off) }

/-- CLAMP (R154). -/
def genClamp (w : Nat) (g : Gen) : GenStep :=
  let mode := bitsOf w 28 27
  let hi := bitsOf w 23 0
  let x := signed 32 g.x
  if mode = 3 || bitsOf w 26 24 ≠ 0 then .fault fltEncoding
  else if decide (0 ≤ x) && decide (x ≤ hi) then .go { g with pc := g.pc + 1 }
  else match mode with
    | 0 => .go { g with pc := g.pc + 1, x := if x < 0 then 0 else hi }
    | 1 => .go { g with pc := g.pc + 1, null := true }
    | _ => .fault fltNull

/-- EMIT (R154). -/
def genEmit (w : Nat) (g : Gen) : GenStep :=
  if bitsOf w 28 26 ≠ 0 || bitsOf w 19 16 ≠ 0 || bitsOf w 25 24 = 3 || 12 < bitsOf w 23 20 then .fault fltEncoding
  else
    let n := bitsOf w 15 0 + 1
    .go { g with pc := g.pc + 1, null := false, emitted := g.emitted + n,
                 out := { addr := g.a, n := n, null := g.null, hint := bitsOf w 25 24, firstItem := g.emitted } :: g.out }

/-- One operation, or the end of an iteration, or the end of the program. -/
def genStep (rd : Nat → Except Nat Nat) (env : GenEnv) (ws : List Nat) (g : Gen) : GenStep :=
  match g.loops with
  | l :: rest => if g.pc = l.past then .go (loopEnd g l rest) else genOp rd env ws g
  | [] => if progLen ws ≤ g.pc then .stop g else genOp rd env ws g
where
  /-- The operation at the generator's place (R154). -/
  genOp (rd : Nat → Except Nat Nat) (env : GenEnv) (ws : List Nat) (g : Gen) : GenStep :=
    let w := ws.getD g.pc 0
    match bitsOf w 31 29 with
    | 1 => genLoop env (progLen ws) w g
    | 2 => genAdd env w g
    | 3 => genIndex rd w g
    | 4 => genClamp w g
    | 5 => genEmit w g
    | _ => .fault fltEncoding

/-- Run until `need` items are emitted (all of them for `none`), the program ends, or a fault is reached. `n` bounds
the operations; no program runs as many as `genBound`. -/
def genRun (rd : Nat → Except Nat Nat) (env : GenEnv) (ws : List Nat) (need : Option Nat) : Nat → Gen → Except Nat Gen
  | 0, g => .ok g
  | n + 1, g =>
    if need.any fun k => decide (k ≤ g.emitted) then .ok g
    else match genStep rd env ws g with
      | .go g' => genRun rd env ws need n g'
      | .stop g' => .ok g'
      | .fault c => .error c

/-- Above the operations any run takes: 4 loops of at most 2³² iterations around at most 16 words. -/
def genBound : Nat := 2 ^ 140

/-! ## A step's streams (R156 to R160) -/

/-- The words of stencil `n` of a context (R118). -/
def stencilWords (s : State) (c : Ctx) (n : Nat) : Except Nat (List Nat) := do
  let b ← s.readVirt c (c.bundleVa + c.stencils + 64 * n) 64
  .ok ((upTo 16).map fun i => leNat ((b.drop (4 * i)).take 4))

/-- A context address a stencil reads an index from; a global address is refused (R184). -/
def readIndex (s : State) (c : Ctx) (p : Nat) : Except Nat Nat :=
  match addrKind p with
  | .own va => (s.readVirt c va 4).map leNat
  | _ => .error fltTranslation

/-- A thread's counters and consumed count as the step begins (R153). -/
def envOf (th : Thread) : GenEnv := { ctr := th.ctr.map BitVec.toNat, consumed := th.consumed }

/-- Run stencil `n`. -/
def runStencil (s : State) (c : Ctx) (th : Thread) (n : Nat) (need : Option Nat) : Except Nat Gen := do
  let ws ← stencilWords s c n
  if tailNonzero ws then .error fltEncoding
  else genRun (readIndex s c) (envOf th) ws need genBound Gen.start

/-- Alignment of an item of size `z`: the lesser of 64 and the largest power of two dividing it (R159). -/
def itemAlign (z : Nat) : Nat := if z = 0 then 1 else Nat.gcd z 64

/-- An item: its address value, none for a null item, the hint, and the number of the first item of its EMIT. -/
abbrev Item := Option Nat × Nat × Nat

/-- The items of runs, oldest run first, spaced `z` bytes. -/
def itemsOf (z : Nat) (rs : List Run) : List Item :=
  rs.flatMap fun r => (upTo r.n).map fun i => (if r.null then none else some ((r.addr + i * z) % 2 ^ 64), r.hint, r.firstItem)

/-- The first `need` items of a stream: UNDERRUN when it ends before, ALIGNMENT for a misaligned item, TRANSLATION for
a global address where `glob` is false or the context may not use the fabric (R157, R159, R184). -/
def streamItems (s : State) (c : Ctx) (th : Thread) (n z align need : Nat) (glob : Bool) : Except Nat (List Item) :=
  if n = noStream then .ok (List.replicate need (none, 0, 0))
  else do
    let g ← runStencil s c th n (some need)
    if g.emitted < need then .error fltUnderrun
    else
      let l := (itemsOf z g.out.reverse).take need
      if l.any fun i => i.1.any fun a => decide (a % align ≠ 0) then .error fltAlignment
      else if l.any fun i => i.1.any fun a => match addrKind a with
          | .own _ => false
          | .global _ _ _ => !(glob && c.permFabric)
          | .bad => true then .error fltTranslation
      else .ok l

/-- How many items a stream emits in all (R157). -/
def countItems (s : State) (c : Ctx) (th : Thread) (n : Nat) : Except Nat Nat :=
  if n = noStream then .ok 0 else (runStencil s c th n none).map (·.emitted)

/-- DEPTH of a stream: that of the first EMIT in word order (R154). -/
def streamDepth (ws : List Nat) : Nat :=
  match (ws.take (progLen ws)).find? fun w => bitsOf w 31 29 == 5 with
  | some w => bitsOf w 23 20
  | none => 0

/-- The local address of an item, null for none. -/
def itemVa (i : Item) : Option Nat := i.1.map (· % 2 ^ 48)

/-- Read an item of `z` bytes; a null item reads as zeros (R158). -/
def readItem (s : State) (c : Ctx) (i : Item) (z : Nat) : Except Nat (List Byte) :=
  match itemVa i with
  | none => .ok (List.replicate z 0)
  | some va => s.readVirt c va z

/-- Write an item; a null item is not written (R158). -/
def writeItem (s : State) (c : Ctx) (i : Item) (d : List Byte) : Except Nat State :=
  match itemVa i with
  | none => .ok s
  | some va => s.writeVirt c va d

/-- A stream named 0xFFF where the step must have one: nothing is emitted, so UNDERRUN when an item is needed (R157). -/
def needStream (n need : Nat) : Except Nat Unit :=
  if n = noStream && decide (0 < need) then .error fltUnderrun else .ok ()

end Sys2Proof.Machine
end

