-- ==== Sys2Proof/Machine/Contexts.lean ====
section
/-! DEFINITION. Threads and contexts: portal status, publishing, taking a fault (R124), ending and rewinding a thread
(R45, R122, R150, R219), drains (R89, R141), admission (R151). -/

namespace Sys2Proof.Machine

/-- Bay of a physical thread (R11). -/
def threadBay (t : Nat) : Nat := t / 128

/-- Portal and entry of a context (Portals, claims and ready words). -/
def State.portalOf (s : State) (c : Nat) : Option (Nat × Nat) :=
  (s.cfg.portals.zipIdx.find? fun x => decide (x.1.first ≤ c) && decide (c < x.1.first + x.1.entries)).map
    fun x => (x.2, c - x.1.first)

/-- Context of a portal entry. -/
def State.ctxOf (s : State) (p e : Nat) : Option Nat :=
  (s.cfg.portals[p]?).bind fun r => if e < r.entries then some (r.first + e) else none

/-- The STATUS word of a context's portal entry (R144). -/
def State.statusWord (s : State) (c : Nat) (es : EntrySt) : Nat :=
  let x := s.ctx c
  es.lastSeq.getD 0 % 2 ^ 32 * 2 ^ 32 + es.result * 2 ^ 24 + x.fault * 2 ^ 16 + c * 16 + boolNat x.warn * 8 + x.st.code

/-- Write the portal status of a context (R124, R144); it follows the state and WARN (DEDUCED, log entry 18). -/
def State.putStatus (s : State) (c : Nat) : State :=
  match s.portalOf c with
  | none => s
  | some (p, e) => s.writeWord false (s.portalWord p e 0x30) (s.statusWord c (s.entrySt (entryKey p e)))

/-- Change a context's state (R141). -/
def State.setCtxSt (s : State) (c : Nat) (st : CtxState) : State :=
  if (s.ctx c).st = st then s else (s.modCtx c fun x => { x with st := st }).putStatus c

/-- Set a context's accuracy warning (R149). -/
def State.setWarn (s : State) (c : Nat) : State :=
  if (s.ctx c).warn then s else (s.modCtx c fun x => { x with warn := true }).putStatus c

/-- Physical threads of a context that have not ended. -/
def Ctx.threads (x : Ctx) : List Nat := x.map.map (·.2)

/-- Publish the least consumed count when it rises (R150). -/
def State.publish (s : State) (c : Nat) : State :=
  let x := s.ctx c
  match (x.threads.map fun t => (s.thread t).consumed) ++ x.endedL with
  | [] => s
  | l :: ls =>
    let v := ls.foldl min l
    if x.published < v then
      let s := s.modCtx c fun x => { x with published := v }
      match s.portalOf c with
      | none => s
      | some (p, e) => s.writeWord false (s.portalWord p e 0x10) v
    else s

/-- RUNNING, WAITING or BOUND as its threads stand (R141). -/
def State.refreshCtx (s : State) (c : Nat) : State :=
  let x := s.ctx c
  if x.st = .running || x.st = .waiting then
    if x.map.isEmpty then s.setCtxSt c .bound
    else if x.threads.all fun t => (s.thread t).st == .waiting then s.setCtxSt c .waiting
    else s.setCtxSt c .running
  else s

/-- A fault of a context (R124): recorded, logged, the portal status written, and the context drains to FAULTED. -/
def State.ctxFault (s : State) (c code step thread : Nat) (uk : UnitKind) (uid stepctr : Nat) : State :=
  let x := s.ctx c
  let live := x.st = .running || x.st = .waiting
  if live || (x.st = .draining && x.drainTo ≠ 2) then
    let s := s.modCtx c fun x =>
      { x with fault := code, faultStep := step, faultThread := thread, faultTime := s.time, drainTo := 2,
               st := .draining }
    let s := s.bump .ctxEventCntFaults
    (s.event .ctxFault uk uid c [code, step, stepctr]).putStatus c
  else s

/-- Entry `c` of the context table is written whole, which clears poison of its lines (R192). -/
def State.cleanEntry (s : State) (c : Nat) : State :=
  { s with poison := flagClear s.poison ((s.cfg.ctxBase + 256 * c) / 64) 4 }

/-- Bringing a context into a bay's cache: it is there now, no entry can leave for it, or its entry is poisoned (R192). -/
inductive Cached where
  | there (s : State)
  | full
  | bad

/-- Bring a context into a bay's cache (R139): the least recently used entry with no READY or STALLED thread of the
bay leaves a full cache. -/
def State.cacheCtx (s : State) (b c : Nat) : Cached :=
  let y := s.bay b
  if y.cache.contains c then .there (s.setBay b { y with cache := c :: y.cache.erase c })
  else if s.readsBad (s.cfg.ctxBase + 256 * c) 256 then .bad
  else if y.cache.length < 64 then .there (s.setBay b { y with cache := c :: y.cache })
  else
    let busy (x : Nat) : Bool := (s.ctx x).threads.any fun t =>
      threadBay t == b && ((s.thread t).st == .ready || (s.thread t).st == .stalled)
    match y.cache.reverse.find? fun x => !busy x with
    | none => .full
    | some v => .there (s.setBay b { y with cache := c :: y.cache.erase v })

/-- The context of a thread faults with MEMORY (R192). -/
def State.threadMemoryFault (s : State) (t : Nat) : State :=
  let th := s.thread t
  s.ctxFault th.ctx fltMemory th.pc th.idx .thread t (s.ctx th.ctx).stepctr.toNat

/-- A thread becomes READY as its context is cached in its bay; while the cache has no room it waits (R139). -/
def State.makeReady (s : State) (t : Nat) : State :=
  match s.cacheCtx (threadBay t) (s.thread t).ctx with
  | .there s => s.modThread t fun th => { th with st := .ready }
  | .full => s.modThread t fun th => { th with st := .waiting }
  | .bad => (s.modThread t fun th => { th with st := .waiting }).threadMemoryFault t

/-- A context's cached translations are invalidated in every bay (R188). -/
def State.dropXlats (s : State) (c : Nat) : State :=
  forEach (upTo 4) (fun s b => s.modBay b fun y => { y with xlats := y.xlats.filter fun e => e.1 != c }) s

/-! ## Watch slots of ready words (R210) -/

/-- The least number from `n` on that satisfies `f`, within `k` tries. -/
def firstFrom (f : Nat → Bool) : Nat → Nat → Option Nat
  | 0, _ => none
  | k + 1, n => if f n then some n else firstFrom f k (n + 1)

def Bay.slot (y : Bay) (i : Nat) : Slot := tget Slot.reset y.slots i
def Bay.setSlot (y : Bay) (i : Nat) (x : Slot) : Bay := { y with slots := tset Slot.reset y.slots i x }

/-- The slot a context's ready word holds in a bay. -/
def Bay.readySlot (y : Bay) (c : Nat) : Option Nat :=
  (y.slots.find? fun e => e.2.valid && e.2.ready && e.2.ctx == c).map (·.1)

/-- Take one of slots 0 to 127 for a context's ready word, the lowest free (log entry 19). -/
def State.takeReadySlot (s : State) (b c : Nat) : State :=
  let y := s.bay b
  match y.readySlot c with
  | some _ => s
  | none => match firstFrom (fun i => !(y.slot i).valid) 128 0, s.portalOf c with
    | some i, some (p, e) =>
      s.setBay b (y.setSlot i { valid := true, host := false, addr := s.portalWord p e 8, ctx := c, ready := true, sid := 0 })
    | _, _ => s

/-- Return a context's ready-word slot where its last thread of the bay has ended. -/
def State.dropReadySlot (s : State) (b c : Nat) : State :=
  if (s.ctx c).threads.any fun t => threadBay t == b then s
  else match (s.bay b).readySlot c with
    | none => s
    | some i => s.modBay b fun y => y.setSlot i Slot.reset

/-! ## Work of a step on the lattices and streams -/

/-- Whether a chunk belongs to a thread (and a step, where given). -/
def Chunk.ofStep (k : Chunk) (t : Nat) (uid : Option Nat) : Bool := k.thread == t && uid.all (· == k.uid)

/-- A lattice without the chunks and HOLD group of a discarded step (R45, R87, R141). -/
def Lattice.dropStep (x : Lattice) (t : Nat) (uid : Option Nat) : Lattice :=
  let hold := x.group.any fun g => g.thread == t && uid.all (· == g.uid)
  let ld := x.loading.any fun k => k.ofStep t uid
  { x with current := x.current.filter (fun k => !k.ofStep t uid),
           loading := if ld then none else x.loading,
           orphan := x.orphan.filter (fun k => !k.ofStep t uid),
           shadow := if ld then none else x.shadow,
           group := if hold then none else x.group,
           acc := if hold then [] else x.acc,
           check := if hold then [] else x.check }

/-- Pool space of some transfers. -/
def poolOf (l : List Xfer) : Nat := l.foldl (fun n x => n + x.pool) 0

/-- Pool space a stream holds (R165). -/
def Stream.poolBytes (x : Stream) : Nat := poolOf x.flight + poolOf x.held

/-- Free the streams of a discarded step, spilled data included (R178). -/
def State.dropStreams (s : State) (t : Nat) (uid : Option Nat) : State :=
  let b := threadBay t
  let y := s.bay b
  let mine (x : Stream) : Bool := x.thread == t && uid.all (· == x.uid)
  let gone := y.streams.filter mine
  s.setBay b { y with streams := y.streams.filter (fun x => !mine x),
                      lastFreed := if gone.any (fun x => decide (0 < x.poolBytes)) then s.time else y.lastFreed }

/-- Discard a step in progress, or all of a thread's. Bursts in flight find no step and are discarded. -/
def State.dropSteps (s : State) (t : Nat) (uid : Option Nat) : State :=
  let s := { s with lats := (upTo 8).foldl (fun ls l =>
    tset Lattice.reset ls l ((tget Lattice.reset ls l).dropStep t uid)) s.lats }
  let s := s.dropStreams t uid
  let s := { s with issued := s.issued.filter fun i => !(i.thread == t && uid.all (· == i.uid) && !i.released) }
  s.modThread t fun th => { th with steps := th.steps.filter fun a => !(uid.all (· == a.uid)) }

/-! ## Faults (R123, R124) -/

/-- The units of a context's outstanding work that a drain waits for (R89). -/
def State.ctxInFlight (s : State) (c : Nat) : Bool :=
  (upTo 8).any fun l => (s.lat l).inflight.any fun b => b.ctx == c

/-- A runtime fault of a thread's step (R123, R124): the step stops, no further result of it is written. -/
def State.stepFault (s : State) (t code pc stepctr : Nat) : State :=
  let th := s.thread t
  (s.ctxFault th.ctx code pc th.idx .thread t stepctr).dropSteps t (some stepctr)

/-! ## Consumes and reservations (R122, R203, R219) -/

/-- Commit a thread's pending consumes in order; `false` when a word's line is poisoned (R192). -/
def State.commitConsumes (s : State) (t : Nat) : State × Bool :=
  let th := s.thread t
  let x := s.ctx th.ctx
  let r := th.pend.foldl (fun (a : State × Bool) p =>
    if !a.2 then a
    else match x.syncOf p.1 with
      | some { sig := .own h ad, .. } => match a.1.consumeWord h ad p.2 (threadBay t) th.ctx p.1 with
        | some s => (s, true)
        | none => (a.1, false)
      | _ => a) (s, true)
  (r.1.modThread t fun th => { th with pend := [] }, r.2)

/-- Commit a thread's reserved TAKEs: the tags become empty (R219). -/
def State.commitTakes (s : State) (t : Nat) : State :=
  let s := forEach (s.thread t).taken (fun s a => (s.setFull a false).setReserved a 0) s
  s.modThread t fun th => { th with taken := [] }

/-- Release a thread's reservations, leaving the words full (R219). -/
def State.releaseTakes (s : State) (t : Nat) : State :=
  let s := forEach (s.thread t).taken (fun s a => s.setReserved a 0) s
  s.modThread t fun th => { th with taken := [] }

/-! ## Ending and rewinding -/

/-- A thread ends (R150): consumes and reservations commit, L is kept for publishing, the thread is IDLE. Its steps that no
SIGNAL released are not looked back at (R45): a SUSPECT entry after its end neither rewinds nor logs them (DESIGN CHOICE,
log entry 33). -/
def State.endThread (s : State) (t : Nat) : State :=
  let th := s.thread t
  let c := th.ctx
  let (s, ok) := s.commitConsumes t
  let s := s.commitTakes t
  let s := if ok then s else s.ctxFault c fltMemory th.pc th.idx .thread t (s.ctx c).stepctr.toNat
  let s : State := { s with issued := s.issued.filter fun i => i.thread != t || i.released }
  let s := s.setThread t Thread.reset
  let s := s.modCtx c fun x =>
    { x with map := x.map.filter (fun m => m.2 != t), endedL := x.endedL ++ [th.consumed] }
  ((s.publish c).dropReadySlot (threadBay t) c).refreshCtx c

/-- Withdraw a thread's waiting TAKEs, or all its waiting tagged operations. -/
def State.withdrawTagged (s : State) (t : Nat) (puts : Bool) : State :=
  { s with feOps := s.feOps.filter fun o => !(o.thread == t && (puts || !o.put)) }

/-- A thread returns to IDLE as its context drains (R141); its waiting operations go with it (log entry 20). -/
def State.idleThread (s : State) (t : Nat) : State :=
  let c := (s.thread t).ctx
  let s := ((s.dropSteps t none).releaseTakes t).withdrawTagged t true
  let s := s.setThread t Thread.reset
  let s := s.modCtx c fun x => { x with map := x.map.filter fun m => m.2 != t }
  s.dropReadySlot (threadBay t) c

/-- Write a thread's restart record (R142). -/
def Ctx.setRestart (x : Ctx) (i : Nat) (r : Restart) : Ctx :=
  { x with restarts := (x.restarts.filter fun e => e.1 != i) ++ [(i, r)] }

/-- A thread is restored from its restart record (R45, R121, R122, R219); a waiting PUT stays (R218). -/
def State.rewindThread (s : State) (t : Nat) : State :=
  let th := s.thread t
  match (s.ctx th.ctx).restart th.idx with
  | none => s
  | some r =>
    let bad := s.readsBad ((s.ctx th.ctx).ckpt + 32 * th.idx) 32
    let s := ((s.dropSteps t none).releaseTakes t).withdrawTagged t false
    let s := if bad then s.threadMemoryFault t else s.makeReady t
    let s := s.modThread t fun th =>
      { th with pc := r.step, pred := r.pred, ctr := r.ctr, consumed := r.consumed, pend := [], wait := none,
                st := if th.putWait && th.st = .ready then .stalled else th.st }
    s.refreshCtx th.ctx

/-! ## Portals, admission, freeing -/

/-- Complete the command of a portal entry: its sequence, where it has one, and its result in STATUS (R144, R146). -/
def State.finishCmd (s : State) (p e : Nat) (seq : Option Nat) (result : Nat) : State :=
  let k := entryKey p e
  let es := s.entrySt k
  let s := s.setEntry k { es with lastSeq := seq.orElse (fun _ => es.lastSeq), result := result }
  match s.ctxOf p e with
  | none => s
  | some c => s.putStatus c

/-- Give back what a context holds: watch slots, its place in the admission queue (R141, R210). -/
def State.releaseSlots (s : State) (c : Nat) : State :=
  forEach (upTo 4) (fun s b => s.modBay b fun y =>
    { y with slots := y.slots.filter (fun e => e.2.ctx != c || !e.2.valid),
             cache := y.cache.filter (· != c), xlats := y.xlats.filter (fun e => e.1 != c), released := y.released.filter fun e => e.1 != c }) s

/-- The entry is cleared, then the claim word is written to 0 (R141). -/
def State.freeCtx (s : State) (c : Nat) : State :=
  let s := s.releaseSlots c
  let s := { s with admitQueue := s.admitQueue.filter (· != c), issued := s.issued.filter (·.ctx != c) }
  let s := ((s.setCtx c Ctx.reset).cleanEntry c).putStatus c
  match s.portalOf c with
  | none => s
  | some (p, e) => s.writeWord false (s.portalWord p e 0) 0

/-- Threads a context asks of a bay (R118). -/
def Ctx.asks (x : Ctx) (b : Nat) : Nat := (x.wantThreads.filter fun w => w.1 == b).length

/-- IDLE threads of a bay, lowest first. -/
def State.idleThreads (s : State) (b : Nat) : List Nat :=
  ((upTo 128).map (· + 128 * b)).filter fun t => (s.thread t).st == .idle

/-- Whether a waiting START may be admitted (R151). -/
def State.admissible (s : State) (c : Nat) : Bool :=
  let x := s.ctx c
  x.st == .bound && x.admitWait && ((upTo 4).all fun b => decide (x.asks b ≤ (s.idleThreads b).length)) &&
  (x.powerFloor == 0 || decide (275 + 25 * x.powerFloor ≤ s.power.limit))

/-- Contexts whose START waits, in order of priority, then of arrival (R151). -/
def State.admitOrder (s : State) : List Nat :=
  (upTo 8).reverse.flatMap fun p => s.admitQueue.filter fun c => (s.ctx c).priority == p

/-- A waiting START is the next to be admitted when no earlier one may be (DEDUCED, log entry 21). -/
def State.nextAdmitted (s : State) : Option Nat := s.admitOrder.find? s.admissible

/-- Create thread `i` of a context at step `pc` on physical thread `t`, with its restart record (R142, R151). -/
def State.createThread (s : State) (c i t pc : Nat) : State :=
  let s := (s.setThread t { Thread.reset with st := .waiting, ctx := c, idx := i, pc := pc }).makeReady t
  let s := s.modCtx c fun x =>
    { (x.setRestart i { step := pc, pred := false, putPending := false, putStep := 0, ctr := [0, 0, 0, 0],
                        consumed := 0 }) with map := x.map ++ [(i, t)] }
  s.takeReadySlot (threadBay t) c

/-- Create every thread of a context at its entry step, each on the lowest IDLE thread of its bay (log entry 19). -/
def State.createThreads (s : State) (c : Nat) : State :=
  forEach (s.ctx c).wantThreads.zipIdx (fun s w =>
    match s.idleThreads w.1.1 with
    | [] => s
    | t :: _ => s.createThread c w.2 t w.1.2) s

/-- Drain a context's RUNNING or WAITING work toward a state (R141). -/
def State.drainCtx (s : State) (c dest : Nat) (cmd : Option (Nat × Option Nat)) : State :=
  (s.modCtx c fun x => { x with drainTo := dest, pendingCmd := cmd }).setCtxSt c .draining

/-- RESET, RELEASE and lease expiry of a context that is BOUND, FAULTED or FREE (R141, R148, R151): what the command
does at once and its result, `none` for a state it does not act on. `op` is 3, 4 or 9. -/
def State.endContext (s : State) (c op : Nat) : State × Nat :=
  let x := s.ctx c
  match x.st with
  | .faulted => if op = 3 then (((s.dropXlats c).modCtx c fun x => { x with stepExt := 0 }).setCtxSt c .bound, 0) else (s.freeCtx c, if op = 9 then 9 else 0)
  | .bound =>
    if op = 3 then
      if x.admitWait then
        (({ s.dropXlats c with admitQueue := s.admitQueue.filter (· != c) }).modCtx c fun x =>
          { x with admitWait := false, stepExt := 0 }, 0)
      else (s, 1)
    else (s.freeCtx c, if op = 9 then 9 else 0)
  | .free =>
    if op = 9 then
      match s.portalOf c with
      | none => (s, 9)
      | some (p, e) => (s.writeWord false (s.portalWord p e 0) 0, 9)
    else (s, 1)
  | _ => (s, 1)

/-- The drain of a context completes (R89, R141): threads return to IDLE, DRAIN_TO is taken, and a command that
waited for it completes. -/
def State.ctxDrained (s : State) (c : Nat) : State :=
  let x := s.ctx c
  let s := forEach x.threads (fun s t => s.idleThread t) s
  let s := s.modCtx c fun x => { x with pendingCmd := none, endedL := [] }
  match x.pendingCmd, s.portalOf c with
  | some (op, seq), some (p, e) =>
    if x.drainTo = 2 then
      let (s, r) := (s.setCtxSt c .faulted).endContext c op
      s.finishCmd p e seq r
    else if x.drainTo = 1 then (((s.dropXlats c).modCtx c fun x => { x with stepExt := 0 }).setCtxSt c .bound).finishCmd p e seq 0
    else (s.freeCtx c).finishCmd p e seq (if op = 9 then 9 else 0)
  | _, _ =>
    if x.drainTo = 2 then s.setCtxSt c .faulted
    else if x.drainTo = 1 then s.setCtxSt c .bound
    else s.freeCtx c

end Sys2Proof.Machine
end

