-- ==== Sys2Proof/Machine/Sha.lean ====
section
/-! DEFINITION. SHA-384 (FIPS 180-4, which R117 and R394 name; PRESUMED, log entry 84), and HKDF over it (R389). Its constants are taken from their
definition: the fractional parts of roots of primes. -/

namespace Sys2Proof.Machine

/-- The integer part of the e-th root of a number below 2^(70 e): its bits from the top down. -/
def intRoot (e n : Nat) : Nat :=
  (upTo 70).foldr (fun b x => if (x + 2 ^ b) ^ e ≤ n then x + 2 ^ b else x) 0

/-- The primes below a bound. -/
def primesBelow (n : Nat) : List Nat :=
  (upTo n).filter fun p => decide (2 ≤ p) && (upTo p).all fun d => decide (d < 2) || p % d != 0

/-- The first 64 bits of the fractional part of the e-th root of a prime. -/
def rootWord (e p : Nat) : Word := BitVec.ofNat 64 (intRoot e (p * 2 ^ (64 * e)))

/-- The round constants: of the cube roots of the first 80 primes. -/
def shaRounds : List Word := (primesBelow 410).map (rootWord 3)

/-- The initial hash of SHA-384: of the square roots of the 9th to the 16th prime. -/
def shaStart : List Word := ((primesBelow 54).drop 8).map (rootWord 2)

/-- Three rotations to the right, or two and a shift. -/
def rot3 (a b c : Nat) (x : Word) : Word := x.rotateRight a ^^^ x.rotateRight b ^^^ x.rotateRight c
def rot2 (a b c : Nat) (x : Word) : Word := x.rotateRight a ^^^ x.rotateRight b ^^^ (x >>> c)

/-- One round: the working words, and the window of 16 schedule words, oldest first. -/
def shaRound (v : List Word × List Word) (k : Word) : List Word × List Word :=
  let h (i : Nat) : Word := v.1.getD i 0
  let w (i : Nat) : Word := v.2.getD i 0
  let choose := (h 4 &&& h 5) ^^^ (~~~(h 4) &&& h 6)
  let most := (h 0 &&& h 1) ^^^ (h 0 &&& h 2) ^^^ (h 1 &&& h 2)
  let t := h 7 + rot3 14 18 41 (h 4) + choose + k + w 0
  let u := rot3 28 34 39 (h 0) + most
  ([t + u, h 0, h 1, h 2, h 3 + t, h 4, h 5, h 6],
   v.2.drop 1 ++ [rot2 19 61 6 (w 14) + w 9 + rot2 1 8 7 (w 1) + w 0])

/-- 8 bytes as a big-endian word, and back. -/
def wordOf (b : List Byte) : Word := BitVec.ofNat 64 (leNat b.reverse)
def bytesOf (w : Word) : List Byte := (leBytes 8 w.toNat).reverse

/-- One block of 128 bytes. -/
def shaBlock (ks : List Word) (hash : List Word) (b : List Byte) : List Word :=
  let ws := (upTo 16).map fun i => wordOf ((b.drop (8 * i)).take 8)
  (hash.zip (ks.foldl shaRound (hash, ws)).1).map fun e => e.1 + e.2

/-- The padding of a message of `n` bytes: a 1 bit, zeros, and its length in bits as 16 bytes. -/
def shaPad (n : Nat) : List Byte :=
  (0x80 : Byte) :: (List.replicate ((239 - n % 128) % 128) 0 ++ (leBytes 16 (8 * n)).reverse)

/-- SHA-384: 48 bytes. -/
def sha384 (m : List Byte) : List Byte :=
  let p := m ++ shaPad m.length
  let ks := shaRounds
  let hash := (upTo (p.length / 128)).foldl (fun h i => shaBlock ks h ((p.drop (128 * i)).take 128)) shaStart
  (hash.take 6).flatMap bytesOf

/-- HMAC-SHA-384 of a message under a key of at most 128 bytes (RFC 2104). -/
def hmac (key m : List Byte) : List Byte :=
  let pad (x : Byte) : List Byte := (key ++ List.replicate (128 - key.length) 0).map (· ^^^ x)
  sha384 (pad 0x5C ++ sha384 (pad 0x36 ++ m))

/-- HKDF-SHA-384 of a seed without salt: 32 bytes with an info string (R389, RFC 5869). One block of output suffices. -/
def hkdf (seed : BitVec 256) (info : String) : BitVec 256 :=
  let prk := hmac (List.replicate 48 0) (leBytes 32 seed.toNat)
  let name : List Byte := info.toList.map fun c => BitVec.ofNat 8 c.toNat
  BitVec.ofNat 256 (leNat ((hmac prk (name ++ [1])).take 32))

end Sys2Proof.Machine
end

