-- ==== Sys2Proof/Machine/Bind.lean ====
section
/-! DEFINITION. The portal commands and what the portal monitor does of itself (R116 to R118, R139, R141, R144 to R151,
R181, R185, R186, R207, R208, R210, R391 to R393). -/

namespace Sys2Proof.Machine

/-! ## Results and guards (R144 to R146) -/

/-- Results of a portal command (R144). -/
def resOk : Nat := 0
def resBusy : Nat := 1
def resBadBundle : Nat := 2
def resSignature : Nat := 3
def resDigest : Nat := 4
def resStepInvalid : Nat := 5
def resXlatRefused : Nat := 6
def resQuota : Nat := 7
def resNotClaimed : Nat := 8
def resLeaseExpired : Nat := 9
def resUnknown : Nat := 10
def resRestarted : Nat := 11

/-- A command of a portal entry that is to be processed now. -/
structure PortalCmd where
  ctx : Nat
  op : Nat
  arg : Nat
  seq : Nat
  deriving DecidableEq, Repr

/-- The command an entry's CMD word holds, unless its sequence was the last processed or one is still being processed
(R144, R146). -/
def State.portalCmd (s : State) (p e : Nat) : Option PortalCmd :=
  if !s.inService then none
  else match s.ctxOf p e with
    | none => none
    | some c =>
      let w := s.readNat (s.portalWord p e 0x28) 8
      if (s.entrySt (entryKey p e)).lastSeq == some (w / 2 ^ 32) || (s.ctx c).pendingCmd.any (·.2.isSome) then none
      else some { ctx := c, op := w % 256, arg := bitsOf w 31 16, seq := w / 2 ^ 32 }

/-- Whether an entry is claimed (R144, R145). -/
def State.claimed (s : State) (p e : Nat) : Bool := s.readNat (s.portalWord p e 0) 8 != 0

/-- Process the command of an entry where it is operation `op`: NOT_CLAIMED while CLAIM is 0 (R145), UNKNOWN for an
operation that R144 does not list (log entry 25), else `f`. -/
def State.portalRun (s : State) (p e op : Nat) (f : PortalCmd → State) : State :=
  match s.portalCmd p e with
  | none => s
  | some k =>
    let unknown := k.op = 0 || decide (5 < k.op)
    if k.op ≠ op && !unknown then s
    else if !s.claimed p e then s.finishCmd p e (some k.seq) resNotClaimed
    else if unknown then s.finishCmd p e (some k.seq) resUnknown
    else f k

/-! ## The partner's page table (R185, R186) -/

/-- Whether a partner's table may lie at an address: cellar other than reserved, mappable pantry or landing buffer. -/
def tableAllowed (a : Nat) : Bool :=
  match targetOf a with
  | .none => false
  | .cellar _ => !reservedCellar a
  | _ => true

/-- A reserved bit of a level-1 or level-2 entry is set. -/
def upperReserved (e : Nat) : Bool := bitsOf e 63 48 != 0 || bitsOf e 11 1 != 0

/-- Address of the table a level-1 or level-2 entry names. -/
def nextTable (e : Nat) : Nat := bitsOf e 47 12 * 4096

/-- Whether a level-1 or level-2 entry passes. -/
def upperOk (e : Nat) : Bool := !upperReserved e && tableAllowed (nextTable e)

/-- Page address of a leaf. -/
def leafPage (e : Nat) : Nat := bitsOf e 51 21 * (2 * mib)

/-- Whether a page of a TARGET lies in its range of R179; reserved cellar cannot be mapped (R180). -/
def pageInTarget (target page : Nat) : Bool :=
  match target, targetOf page with
  | 0, .cellar _ => !reservedCellar page
  | 1, .pantry _ => true
  | 2, .landing => true
  | _, _ => false

/-- Whether a leaf passes (R186). -/
def leafOk (po : Portal) (e : Nat) : Bool :=
  bitsOf e 63 52 == 0 && bitsOf e 20 5 == 0 && !bitOf e 2 &&
  (if bitsOf e 4 3 = 3 then po.permHost
   else pageInTarget (bitsOf e 4 3) (leafPage e) &&
     po.regions.any fun r => decide (r.1 ≤ leafPage e) && decide (leafPage e + 2 * mib ≤ r.1 + r.2))

/-- The translation a leaf gives. -/
def mkLeaf (vpage e : Nat) : Leaf :=
  { vpage := vpage, page := leafPage e, target := bitsOf e 4 3, writable := bitOf e 1 }

/-- Read entry `i` of a table; `none` where its line is poisoned. -/
def State.tableEntry (s : State) (t i : Nat) : Option Nat :=
  if s.readsBad (t + 8 * i) 8 then none else some (leNat (s.seen (t + 8 * i) 8))

/-- Translate one virtual page by the partner's table, checking the entries met on the way (R147): the leaf, or the
result that refuses the BIND. -/
def State.partnerLeaf (s : State) (po : Portal) (root va : Nat) : Except Nat Leaf :=
  if 2 ^ 48 ≤ va then .error resBadBundle
  else if root % 4096 ≠ 0 || !tableAllowed root then .error resXlatRefused
  else match s.tableEntry root (bitsOf va 47 39) with
    | none => .error resXlatRefused
    | some e1 =>
      if !bitOf e1 0 then .error resBadBundle
      else if !upperOk e1 then .error resXlatRefused
      else match s.tableEntry (nextTable e1) (bitsOf va 38 30) with
        | none => .error resXlatRefused
        | some e2 =>
          if !bitOf e2 0 then .error resBadBundle
          else if !upperOk e2 then .error resXlatRefused
          else match s.tableEntry (nextTable e2) (bitsOf va 29 21) with
            | none => .error resXlatRefused
            | some e3 =>
              if !bitOf e3 0 then .error resBadBundle
              else if !leafOk po e3 then .error resXlatRefused
              else .ok (mkLeaf (va / (2 * mib)) e3)

/-- The pieces of a range of the bundle; a poisoned line or an unmapped page gives BAD_BUNDLE (R147, R192). -/
def State.bundlePieces (s : State) (po : Portal) (root va n : Nat) : Except Nat (List Piece) :=
  if n = 0 then .ok []
  else do
    let first := va / (2 * mib)
    let last := (va + n - 1) / (2 * mib)
    let ps ← ((upTo (last - first + 1)).map (· + first)).mapM fun pg => do
      let l ← s.partnerLeaf po root (pg * (2 * mib))
      let lo := max va (pg * (2 * mib))
      let hi := min (va + n) ((pg + 1) * (2 * mib))
      .ok ({ host := l.target == 3, addr := l.page + lo % (2 * mib), page := pg, len := hi - lo } : Piece)
    if ps.any fun p => !p.host && s.readsBad p.addr p.len then .error resBadBundle else .ok ps

/-- Bytes of the bundle. -/
def State.bundleBytes (s : State) (po : Portal) (root va n : Nat) : Except Nat (List Byte) := do
  let ps ← s.bundlePieces po root va n
  .ok (ps.flatMap fun p => s.readLoc p.host p.addr p.len)

/-- The entries of a table that hold a listed byte; every other entry reads 0, which is not valid. -/
def State.tableWords (s : State) (t : Nat) : List (Nat × Nat) :=
  let is := if s.nearTables t 4096 then upTo 512
    else ((s.mem.filter fun e => decide (t ≤ e.1) && decide (e.1 < t + 4096)).map fun e => (e.1 - t) / 8).eraseDups
  is.map fun i => (i, leNat (s.seen (t + 8 * i) 8))

/-- The valid entries of a table. -/
def State.validEntries (s : State) (t : Nat) : List (Nat × Nat) := (s.tableWords t).filter fun e => bitOf e.2 0

/-- Walk the whole table from the root (R186): its leaves and the tables that hold a valid entry (numbered as in
`Ctx.copy`), or XLAT_REFUSED. -/
def State.walkTable (s : State) (po : Portal) (root : Nat) : Except Nat (List Leaf × List Nat) :=
  if root % 4096 ≠ 0 || !tableAllowed root then .error resXlatRefused
  else do
    let l1 ← level root
    let r1 ← l1.mapM fun e1 => do
      if !upperOk e1.2 then .error resXlatRefused
      else do
        let l2 ← level (nextTable e1.2)
        let r2 ← l2.mapM fun e2 => do
          if !upperOk e2.2 then .error resXlatRefused
          else do
            let l3 ← level (nextTable e2.2)
            if l3.any fun e3 => !leafOk po e3.2 then .error resXlatRefused
            else .ok (l3.map fun e3 => mkLeaf (e1.1 * 2 ^ 18 + e2.1 * 2 ^ 9 + e3.1) e3.2,
              if l3.isEmpty then [] else [513 + 512 * e1.1 + e2.1])
        .ok (r2.flatMap (·.1), (if l2.isEmpty then [] else [1 + e1.1]) ++ r2.flatMap (·.2))
    .ok (r1.flatMap (·.1), (if l1.isEmpty then [] else [0]) ++ r1.flatMap (·.2))
where
  /-- The valid entries of a table BIND reads whole. -/
  level (t : Nat) : Except Nat (List (Nat × Nat)) :=
    if s.readsBad t 4096 then .error resXlatRefused else .ok (s.validEntries t)

/-! ## The bundle (R116 to R118, R391 to R393) -/

/-- A number of `n` bytes at offset `o` of a record. -/
def recAt (b : List Byte) (o n : Nat) : Nat := leNat ((b.drop o).take n)

/-- A section of a bundle. -/
structure BundleSection where
  ty : Nat
  verify : Bool
  off : Nat
  size : Nat
  deriving DecidableEq, Repr

/-- The header and section table of a prefix, or none where R116 refuses it. -/
def bundleSections (b : List Byte) : Option (List BundleSection) :=
  let count := recAt b 6 2
  let total := recAt b 8 8
  let entry (i : Nat) : BundleSection :=
    { ty := recAt b (0x80 + 32 * i) 2, verify := bitOf (recAt b (0x82 + 32 * i) 2) 0, off := recAt b (0x88 + 32 * i) 8,
      size := recAt b (0x90 + 32 * i) 8 }
  let clean (i : Nat) : Bool := recAt b (0x82 + 32 * i) 2 / 2 == 0 && recAt b (0x84 + 32 * i) 4 == 0 &&
    recAt b (0x98 + 32 * i) 8 == 0
  let good (x : BundleSection) : Bool := decide (1 ≤ x.ty) && decide (x.ty ≤ 6) && decide (x.off % 4096 = 0) &&
    decide (x.off + x.size ≤ total)
  if recAt b 0 4 ≠ 0x4B474231 || recAt b 4 2 ≠ 1 || count = 0 || decide (16 < count) || decide (2 < recAt b 24 1) ||
      recAt b 25 103 ≠ 0 then none
  else
    let l := (upTo count).map entry
    if ((upTo count).all clean) && l.all good && recAt b (0x80 + 32 * count) (32 * (16 - count)) == 0 then some l
    else none

/-- A recipe (R118). -/
structure Recipe where
  off : Nat
  threads : Nat
  steps : Nat
  stencils : Nat
  nStencil : Nat
  seed : Nat
  entries : List (Nat × Nat)
  deriving DecidableEq, Repr

/-- A refused BIND: result, static code, FAULT_STEP, FAULT_THREAD; `fail` names the signatures that failed. -/
structure BindFail where
  result : Nat
  code : Nat
  step : Nat
  thread : Nat
  fail : Nat
  deriving DecidableEq, Repr

def BindFail.of (r : Nat) : BindFail := { result := r, code := 0, step := 0, thread := 0, fail := 0 }

/-- An error result as a refusal. -/
def refusing {α : Type} (r : Except Nat α) : Except BindFail α :=
  match r with
  | .ok a => .ok a
  | .error e => .error (BindFail.of e)

/-- The recipe header and entry table at a section (R118, R147). -/
def readRecipe (b : List Byte) (x : BundleSection) (secs : List BundleSection) : Except BindFail Recipe :=
  let threads := recAt b 2 1
  let steps := recAt b 4 4
  let nst := recAt b 16 4
  let sten := recAt b 8 8
  let word (i : Nat) : Nat := recAt b (64 + 4 * i) 4
  let entries := (upTo threads).map fun i => (bitsOf (word i) 31 30, word i % 65536)
  if recAt b 0 2 ≠ 1 || threads = 0 || decide (32 < threads) || recAt b 3 1 ≠ 0 || steps = 0 || decide (65536 < steps) ||
      decide (4095 < nst) || recAt b 20 4 ≠ 0 || recAt b 32 32 ≠ 0 || decide (x.size < 192 + 32 * steps) ||
      (nst != 0 && !secs.any fun y => y.ty == 2 && y.off == sten && decide (64 * nst ≤ y.size)) ||
      ((upTo threads).any fun i => bitsOf (word i) 29 16 != 0) ||
      ((upTo 32).any fun i => decide (threads ≤ i) && word i != 0) then .error (BindFail.of resBadBundle)
  else match entries.zipIdx.find? fun e => decide (steps ≤ e.1.2) with
    | some e => .error { result := resStepInvalid, code := 0x05, step := e.1.2, thread := e.2, fail := 0 }
    | none => .ok { off := x.off, threads := threads, steps := steps, stencils := sten, nStencil := nst,
                    seed := recAt b 24 8, entries := entries }

/-- An owner is enrolled: an odd number of ownership fuses is blown (R396). -/
def State.ownerEnrolled (s : State) : Bool := s.sec.ownFuses % 2 == 1

/-- Signatures of a bundle that fail, bit 0 Ed25519 and bit 1 ML-DSA-65, under the key class and the keys in force
(R391 to R393). `edOk` and `mlOk` are what evaluating them gives (log entry 9); `keyIndex` names the entry whose Ed25519 signature verifies. -/
def State.bundleFails (s : State) (cls : Nat) (edOk mlOk : Bool) (keyIndex : Nat) : Nat :=
  if cls = 2 then
    if edOk && decide (keyIndex < s.cfg.keys.length) then (if mlOk then 0 else 2) else 3
  else if cls = 1 && !s.ownerEnrolled then 3
  else boolNat (!edOk) + 2 * boolNat (!mlOk)

/-- An object refused under R392: counted, and a SIG_FAIL record naming the object kind (the rows of R391 from 0) and
the signatures that failed. -/
def State.sigFail (s : State) (kind fails : Nat) : State := (s.bump .secFailCntSig).journal .sigFail [kind, fails]

/-! ## The sync declaration (R207, R208) -/

/-- An entry of the sync declaration. -/
structure SyncDecl where
  sid : Nat
  addr : Nat
  kind : Nat
  watch : Bool
  flow : Nat
  deriving DecidableEq, Repr

/-- The declared entries; one with a reserved field set declares nothing. -/
def syncDecls (b : List Byte) : List SyncDecl :=
  (upTo 1024).filterMap fun i =>
    let k := recAt b (16 * i + 8) 1
    if k = 0 || 2 < k || recAt b (16 * i + 9) 1 / 2 ≠ 0 || 4096 ≤ recAt b (16 * i + 10) 2 || recAt b (16 * i + 12) 4 ≠ 0 then
      none
    else some { sid := i, addr := recAt b (16 * i) 8, kind := k, watch := bitOf (recAt b (16 * i + 9) 1) 0,
                flow := recAt b (16 * i + 10) 2 }

/-- The signal mapping of a declared identifier (R208). -/
def syncSig (s : State) (c : Ctx) (bays : List Nat) (d : SyncDecl) : Option SigMap :=
  match d.kind, addrKind d.addr with
  | 1, .own va =>
    if va % 8 ≠ 0 then none
    else match c.leaf va with
      | some l => if l.writable then some (.own (l.target == 3) (l.page + va % (2 * mib))) else none
      | none => none
  | 1, .global dev win off => if c.permFabric && !d.watch then some (.remote dev win off d.flow) else none
  | 2, .own va => match c.leaf va with
    | some l =>
      let a := l.page + va % (2 * mib)
      if l.target = 1 && s.tagged a && bays.contains (bayOfAddr a) then some (.put (bayOfAddr a) a) else none
    | none => none
  | _, _ => none

/-- Host lines held Shared for watching (R213): those of valid slots on host words. -/
def State.hostLines (s : State) : List Nat :=
  (allBays.flatMap fun b => (s.bay b).slots.filterMap fun e =>
    if e.2.valid && e.2.host then some (lineOf e.2.addr) else none).eraseDups

/-- Give a wait mapping in a bay: a free slot from 128 up, the lowest (log entry 19), or POLLED (R210, R213). -/
def mapWait (c sid : Nat) (host : Bool) (addr : Nat) (r : State × SyncEntry) (b : Nat) :
    State × SyncEntry :=
  let lines := r.1.hostLines
  let full := host && !lines.contains (lineOf addr) && decide (4096 ≤ lines.length)
  let y := r.1.bay b
  if full then (r.1, { r.2 with polled := r.2.polled ++ [b] })
  else match firstFrom (fun i => !(y.slot i).valid) 16256 128 with
    | some i =>
      (r.1.setBay b (y.setSlot i { valid := true, host := host, addr := addr, ctx := c, ready := false, sid := sid }),
        { r.2 with slots := r.2.slots ++ [(b, i)] })
    | none => (r.1.bump .wchEventCntShort b, { r.2 with polled := r.2.polled ++ [b] })

/-- Map one identifier. -/
def State.mapSync (s : State) (c : Nat) (bays : List Nat) (d : SyncDecl) : State :=
  match syncSig s (s.ctx c) bays d with
  | none => s
  | some m =>
    let e : SyncEntry := { sid := d.sid, sig := m, slots := [], polled := [] }
    let r := match m with
      | .own h a => if d.watch then bays.foldl (mapWait c d.sid h a) (s, e) else (s, e)
      | _ => (s, e)
    r.1.modCtx c fun x => { x with sync := x.sync ++ [r.2] }

/-- Build the sync map (R208): the wait mappings of a bay that are left POLLED for want of a slot are logged (R210). -/
def State.mapAll (s : State) (c : Nat) (bays : List Nat) (ds : List SyncDecl) : State :=
  let s1 := forEach ds (fun s d => s.mapSync c bays d) s
  forEach bays (fun x b =>
    let n := (s1.ctx c).sync.foldl (fun n e => match e.sig with
      | .own h a =>
        if e.polled.contains b && !(h && !(s1.hostLines.contains (lineOf a)) && decide (4096 ≤ s1.hostLines.length))
        then n + 1 else n
      | _ => n) 0
    if n = 0 then x else x.event .wchSlotsShort .bay b c [n]) s1

/-! ## The translation store and the attic (R181, R186) -/

/-- 4 KiB tables of the translation store in use: copies and sync maps of 16 KiB (R208). -/
def State.storeUsed (s : State) : Nat :=
  s.ctxs.foldl (fun n e => if e.2.st = .free then n else n + e.2.copy.length + 4) 0

/-- Insert a range in order of its start. -/
def insRange (r : Nat × Nat) : List (Nat × Nat) → List (Nat × Nat)
  | [] => [r]
  | x :: l => if r.1 ≤ x.1 then r :: x :: l else x :: insRange r l

/-- The free runs of a pool of `n` pages, given the runs in use in order. -/
def freeRuns (n : Nat) : Nat → List (Nat × Nat) → List (Nat × Nat)
  | pos, [] => if pos < n then [(pos, n - pos)] else []
  | pos, x :: l => (if pos < x.1 then [(pos, x.1 - pos)] else []) ++ freeRuns n (x.1 + x.2) l

/-- The lowest `n` pages of some free runs. -/
def takePages : Nat → List (Nat × Nat) → List Nat
  | _, [] => []
  | n, x :: l => (upTo (min n x.2)).map (· + x.1) ++ takePages (n - x.2) l

/-- Free runs without their lowest `n` pages. -/
def dropPages : Nat → List (Nat × Nat) → List (Nat × Nat)
  | _, [] => []
  | n, x :: l => (x.1 + min n x.2, x.2 - n) :: dropPages (n - x.2) l

/-- Store pages for the `n` tables of a copy and for its sync map, where both fit: the lowest free pages, and the highest
four free pages in a row, aligned (DESIGN CHOICE, log entry 19). -/
def State.storePages (s : State) (n : Nat) : Option (List Nat × Nat) :=
  let page (a : Nat) : Nat := (a - s.cfg.storeBase) / 4096
  let used := (s.ctxs.filter fun e => e.2.st != .free).flatMap fun e =>
    (page e.2.syncmap, 4) :: e.2.copy.map fun p => (page p.1, 1)
  let free := freeRuns (s.cfg.storeMiB * 256) 0 (used.foldl (fun l r => insRange r l) [])
  let ps := takePages n free
  if ps.length < n then none
  else ((dropPages n free).reverse.findSome? fun r =>
    let top := (r.1 + r.2) / 4 * 4
    if r.1 + 4 ≤ top then some (top - 4) else none).map fun q => (ps, q)

/-- Attic pages for a context: the first free run that holds `want`, else the longest (DESIGN CHOICE, log entry 19). -/
def State.atticRun (s : State) (want : Nat) : Nat × Nat :=
  let used := (s.ctxs.filter fun e => decide (0 < e.2.atticPages)).foldl (fun l e =>
    insRange ((e.2.attic - s.cfg.atticBase) / (2 * mib), e.2.atticPages) l) []
  let free := freeRuns s.cfg.atticPages 0 used
  match free.find? fun r => decide (want ≤ r.2) with
  | some r => (r.1, want)
  | none => free.foldl (fun b r => if b.2 < r.2 then r else b) (0, 0)

/-! ## BIND (R147) -/

/-- What an accepted BIND has found. -/
structure Bound where
  recipe : Recipe
  leaves : List Leaf
  tables : List Nat
  pages : List Nat × Nat
  decls : List SyncDecl
  verified : Option (Word × List Byte)
  deriving DecidableEq, Repr

/-- The checks of R147 in their order; `root` is XLAT and `va` BUNDLE of the portal entry. -/
def State.bindCheck (s : State) (po : Portal) (root va arg : Nat) (edOk mlOk : Bool) (keyIndex : Nat) :
    Except BindFail Bound := do
  -- item 1
  let rd (o n : Nat) : Except BindFail (List Byte) := refusing (s.bundleBytes po root (va + o) n)
  if va % 4096 ≠ 0 then .error (BindFail.of resBadBundle)
  else do
    let pre ← rd 0 0x280
    match bundleSections pre with
    | none => .error (BindFail.of resBadBundle)
    | some secs => do
      let idn : Word := BitVec.ofNat 64 (recAt pre 16 8)
      let digested := secs.zipIdx.filter fun x => decide (x.1.ty ≤ 3) || x.1.verify
      let known ← if !po.permSigned then .ok none
        else do
          let dig ← rd 0x280 768
          let seen := s.sec.verified.contains (idn, dig)
          let _ ← if seen then .ok [] else refusing (s.bundlePieces po root (va + 0x580) 3456)
          let f := if seen then 0 else s.bundleFails (recAt pre 24 1) edOk mlOk keyIndex
          if f ≠ 0 then .error { BindFail.of resSignature with fail := f }
          else do
            let same ← digested.mapM fun x => do
              let b ← rd x.1.off x.1.size
              .ok (sha384 b == (dig.drop (48 * x.2)).take 48)
            if same.all id then .ok (some (idn, dig)) else .error (BindFail.of resDigest)
      -- item 2
      match secs[arg]? with
      | none => .error (BindFail.of resBadBundle)
      | some x =>
        if x.ty ≠ 1 || x.size < 192 then .error (BindFail.of resBadBundle)
        else do
          let hdr ← rd x.off 192
          let r ← readRecipe hdr x secs
          let decls ← match secs.find? fun y => y.ty == 3 with
            | none => .ok []
            | some y => (rd y.off (min 16384 y.size)).map syncDecls
          -- item 3: the copy and the sync map of 16 KiB must fit in the translation store
          let w ← refusing (s.walkTable po root)
          match s.storePages w.2.length with
          | none => .error (BindFail.of resXlatRefused)
          | some pages => do
            -- item 4
            let steps ← rd (x.off + 192) (32 * r.steps)
            match (upTo r.steps).find? fun i => staticFault (recAt steps (32 * i) 32) r.steps r.nStencil po.permPower != 0 with
            | some i => .error { result := resStepInvalid, step := i, thread := 0, fail := 0,
                                 code := staticFault (recAt steps (32 * i) 32) r.steps r.nStencil po.permPower }
            | none =>
              -- item 5
              if po.threads < r.threads then .error (BindFail.of resQuota)
              else .ok { recipe := r, leaves := w.1, tables := w.2, pages := pages, decls := decls, verified := known }

/-- A bundle that passed is kept among the last 64 (R117). -/
def keepVerified (l : List (Word × List Byte)) (k : Option (Word × List Byte)) : List (Word × List Byte) :=
  match k with
  | none => l
  | some x => let l := l.filter (· != x) ++ [x]
              l.drop (l.length - 64)

/-- Device-physical address of a virtual address under some leaves. -/
def physOf (ls : List Leaf) (va : Nat) : Nat :=
  match ls.find? fun l => l.vpage == va / (2 * mib) with
  | some l => l.page + va % (2 * mib)
  | none => 0

/-- The entry of context `c` as it is bound (R139, R181, R186). -/
def State.boundCtx (s : State) (p e c : Nat) (po : Portal) (va : Nat) (k : Bound) : Ctx :=
  let run := s.atticRun po.attic
  let r := k.recipe
  let copy := (k.pages.1.map fun n => s.cfg.storeBase + 4096 * n).zip k.tables
  { Ctx.reset with
    st := .bound, portal := p, entry := e, tag := BitVec.ofNat 64 (s.readNat (s.portalWord p e 0) 8),
    bundle := physOf k.leaves va, xlatRoot := ((copy.find? fun p => p.2 == 0).map (·.1)).getD 0, copy := copy, leaves := k.leaves,
    attic := s.cfg.atticBase + run.1 * (2 * mib), atticPages := run.2,
    syncmap := s.cfg.storeBase + 4096 * k.pages.2,
    seed := if r.seed = 0 then Config.random s.free else BitVec.ofNat 64 r.seed,
    priority := po.priority, qThreads := po.threads, qXfer := po.xfer, qShare := po.share, powerFloor := po.powerFloor,
    bundleVa := va, recipeVa := va + r.off, recipe := physOf k.leaves (va + r.off), nSteps := r.steps,
    stencils := r.stencils, nStencil := r.nStencil, wantThreads := r.entries,
    ckpt := s.ckptOf c,
    permPower := po.permPower, permSigned := po.permSigned, permFabric := po.permFabric }

/-- Bays an entry table names. -/
def baysOf (l : List (Nat × Nat)) : List Nat := allBays.filter fun b => l.any fun e => e.1 == b

/-- An accepted BIND (R141, R147, R181, R208). -/
def State.bindAccept (s : State) (p e c seq : Nat) (po : Portal) (va : Nat) (k : Bound) : State :=
  let x := s.boundCtx p e c po va k
  let s : State := { (s.drawn 1) with sec := { s.sec with verified := keepVerified s.sec.verified k.verified } }
  let s := ((s.releaseSlots c).setCtx c x).cleanEntry c
  let s := if x.atticPages < po.attic then s.event .celAtticShort .device 0 c [] else s
  (s.mapAll c (baysOf k.recipe.entries) k.decls).finishCmd p e (some seq) resOk

/-- A refused BIND: the context stays FREE, with the code and step of the refusal (R123, R147). -/
def State.bindRefuse (s : State) (p e c seq : Nat) (f : BindFail) : State :=
  let s := s.modCtx c fun x => { x with fault := f.code, faultStep := f.step, faultThread := f.thread }
  let s := s.bump .ctxEventCntRefused
  let s := if f.fail = 0 then s else s.sigFail 2 f.fail
  s.finishCmd p e (some seq) f.result

/-- What the reads of a BIND find in the line of the root's first entry and in the first line of the bundle (R192). -/
def State.bindReads (s : State) (po : Portal) (root va : Nat) (table bundle : LineCheck) : State :=
  let s := if tableAllowed root then s.checkAt root table .fabric else s
  match s.partnerLeaf po root va with
  | .ok l => if l.target = 3 then s else s.checkAt (l.page + va % (2 * mib)) bundle .fabric
  | .error _ => s

/-- BIND. -/
def execBind (p : Fin 256) (e : Fin 4096) (ed ml : Bool) (keyIndex : Nat) (table bundle : LineCheck) (s : State) : Out :=
  .next (s.portalRun p e 1 fun k =>
    match s.cfg.portals[p.val]? with
    | none => s
    | some po =>
      if (s.ctx k.ctx).st ≠ .free then s.finishCmd p e (some k.seq) resBusy
      else
        let root := s.readNat (s.portalWord p e 0x20) 8
        let va := s.readNat (s.portalWord p e 0x18) 8
        let s := s.bindReads po root va table bundle
        match s.bindCheck po root va k.arg ed ml keyIndex with
        | .error f => s.bindRefuse p e k.ctx k.seq f
        | .ok b => s.bindAccept p e k.ctx k.seq po va b)

/-! ## START, RESET, RELEASE, CLEARWARN (R141, R147, R149, R151) -/

/-- Threads a context's portal allows now (R147). -/
def State.threadQuota (s : State) (p c : Nat) : Nat := ((s.cfg.portals[p]?).map (·.threads)).getD (s.ctx c).qThreads

/-- START: the START waits to be admitted (R151), or is refused with QUOTA (R147). -/
def execStart (p : Fin 256) (e : Fin 4096) (s : State) : Out :=
  .next (s.portalRun p e 2 fun k =>
    let x := s.ctx k.ctx
    if x.st ≠ .bound || x.admitWait then s.finishCmd p e (some k.seq) resBusy
    else if s.threadQuota p k.ctx < x.wantThreads.length then
      (s.bump .ctxEventCntRefused).finishCmd p e (some k.seq) resQuota
    else
      let s := s.modCtx k.ctx fun x => { x with admitWait := true }
      ({ s with admitQueue := s.admitQueue ++ [k.ctx] }).finishCmd p e (some k.seq) resOk)

/-- START_ADMITTED: a waiting START is admitted and its threads are created (R141, R142, R151, R210). -/
def execStartAdmitted (p : Fin 256) (e : Fin 4096) (s : State) : Out :=
  match s.ctxOf p e with
  | none => .next s
  | some c =>
    if !s.inService || s.nextAdmitted ≠ some c then .next s
    else
      let s : State := { s with admitQueue := s.admitQueue.filter (· != c) }
      let s := (s.modCtx c fun x => { x with admitWait := false, endedL := [], restarts := [] })
      .next ((s.setCtxSt c .running).createThreads c)

/-- RESET, RELEASE or a lease expiry of a context (R89, R141, R148): a running context drains first, any other state is
acted on at once. One that meets a drain toward FAULTED is processed once the context is FAULTED; one that meets another
drain completes with BUSY. -/
def State.runEnd (s : State) (p e c op : Nat) (seq : Option Nat) : State :=
  match (s.ctx c).st with
  | .running | .waiting => s.drainCtx c (if op = 3 then 1 else 0) (some (op, seq))
  | .draining =>
    let x := s.ctx c
    if x.drainTo = 2 then
      (if x.pendingCmd.isNone then s.modCtx c fun x => { x with pendingCmd := some (op, seq) } else s)
    else s.finishCmd p e seq resBusy
  | _ =>
    let r := s.endContext c op
    r.1.finishCmd p e seq r.2

/-- RESET. -/
def execReset (p : Fin 256) (e : Fin 4096) (s : State) : Out :=
  .next (s.portalRun p e 3 fun k => s.runEnd p e k.ctx 3 (some k.seq))

/-- RELEASE. -/
def execRelease (p : Fin 256) (e : Fin 4096) (s : State) : Out :=
  .next (s.portalRun p e 4 fun k => s.runEnd p e k.ctx 4 (some k.seq))

/-- CLEARWARN (R149). -/
def execClearwarn (p : Fin 256) (e : Fin 4096) (s : State) : Out :=
  .next (s.portalRun p e 5 fun k =>
    (s.modCtx k.ctx fun x => { x with warn := false }).finishCmd p e (some k.seq) resOk)

/-- Every BIND that stands unprocessed in a claimed entry as a warm restart is accepted was in progress: it is abandoned
with result RESTARTED (R143; DESIGN CHOICE, log entry 45). -/
def State.abandonBinds (s : State) : State :=
  forEach s.cfg.portals.zipIdx (fun s x => forEach (upTo x.1.entries) (fun s e =>
    match s.portalCmd x.2 e with
    | none => s
    | some k =>
      if k.op = 1 && s.claimed x.2 e && (s.ctx k.ctx).st = .free then s.finishCmd x.2 e (some k.seq) resRestarted
      else s) s) s

/-! ## Leases (R148) -/

/-- Lease time of a portal, ms. -/
def State.leaseOf (s : State) (p : Nat) : Nat := ((s.cfg.portals[p]?).map (·.leaseMs)).getD 0

/-- HEART_SAMPLE: the heartbeat of a claimed entry, and since when it has been unchanged. -/
def execHeartSample (p : Fin 256) (e : Fin 4096) (s : State) : Out :=
  if !s.inService || s.leaseOf p = 0 || (s.ctxOf p e).isNone then .next s
  else
    let k := entryKey p e
    let es := s.entrySt k
    let h : Word := BitVec.ofNat 64 (s.readNat (s.portalWord p e 0x38) 8)
    if !s.claimed p e then .next (s.setEntry k { es with heartAt := none })
    else if es.heartAt.isSome && es.heart == h then .next s
    else .next (s.setEntry k { es with heart := h, heartAt := some s.time })

/-- LEASE_EXPIRY: a claimed entry whose heartbeat has not changed is released, after any command in progress. -/
def execLeaseExpiry (p : Fin 256) (e : Fin 4096) (s : State) : Out :=
  match s.ctxOf p e with
  | none => .next s
  | some c =>
    let es := s.entrySt (entryKey p e)
    let h := s.readNat (s.portalWord p e 0x38) 8
    if !s.inService || s.leaseOf p = 0 || !s.claimed p e || es.heartAt.isNone || es.heart.toNat ≠ h ||
        (s.ctx c).pendingCmd.isSome || ((s.ctx c).st = .draining && (s.ctx c).drainTo ≠ 2) then .next s
    else
      let s := (s.bump .ctxEventCntLeases).setEntry (entryKey p e) { es with heartAt := none }
      .next (s.runEnd p e c 9 none)

end Sys2Proof.Machine
end

