-- ==== Sys2Proof/Machine/Fabric.lean ====
section
/-! DEFINITION. Henxo frames and their transmission (R255 to R273, R287): header fields, checks, route, credits, lanes,
the source side of flows, and windows (R190). -/

namespace Sys2Proof.Machine

/-! ## Header fields (R261) -/

/-- Replace bits [hi:lo] of a number. -/
def putBits (x hi lo v : Nat) : Nat := x - bitsOf x hi lo * 2 ^ lo + v % 2 ^ (hi - lo + 1) * 2 ^ lo

/-- Bits [hi:lo] of a frame's header. -/
def fbits (f : Frame) (hi lo : Nat) : Nat := bitsOf f.hdr.toNat hi lo
def fput (f : Frame) (hi lo v : Nat) : Frame := { f with hdr := BitVec.ofNat 256 (putBits f.hdr.toNat hi lo v) }

def fType (f : Frame) : Nat := fbits f 3 0
def fClass (f : Frame) : Nat := fbits f 5 4
def fFlag (f : Frame) : Bool := bitOf f.hdr.toNat 6
def fSync (f : Frame) : Bool := bitOf f.hdr.toNat 7
def fDl (f : Frame) : Nat := fbits f 8 8
def fLen (f : Frame) : Nat := fbits f 17 9
def fFsn (f : Frame) : Nat := fbits f 29 18
def fAck (f : Frame) : Nat := fbits f 41 30
def fNak (f : Frame) : Bool := bitOf f.hdr.toNat 42
def fCrClass (f : Frame) : Nat := fbits f 44 43
def fCrSet (f : Frame) : Nat := fbits f 45 45
def fCrCount (f : Frame) : Nat := fbits f 49 46
def fSegIdx (f : Frame) : Nat := fbits f 51 50
def fSegPort (f : Frame) (i : Nat) : Nat := fbits f (54 + 9 * i) (52 + 9 * i)
def fSegHops (f : Frame) (i : Nat) : Nat := fbits f (60 + 9 * i) (55 + 9 * i)
def fSrc (f : Frame) : Nat := fbits f 102 88
def fDst (f : Frame) : Nat := fbits f 117 103
def fFlow (f : Frame) : Nat := fbits f 129 118
def fSeq (f : Frame) : BitVec 32 := BitVec.ofNat 32 (fbits f 161 130)
def fWindow (f : Frame) : Nat := fbits f 165 162
def fOff (f : Frame) : Nat := fbits f 209 166
def fTag (f : Frame) : Nat := fbits f 223 210
def fE2e (f : Frame) : Nat := fbits f 255 224
/-- The payload without its padding. -/
def fData (f : Frame) : List Byte := f.payload.take (fLen f)

/-- A frame of a multicast flow: MC_WRITE, or a SIGNAL of class 3 (R262). -/
def fMulti (f : Frame) : Bool := fType f == 10 || (fType f == 7 && fClass f == 3)

/-- Types that take a flow sequence number and commit in flow order (R262). -/
def fSequenced (f : Frame) : Bool := fType f == 2 || fType f == 3 || fType f == 5 || fType f == 10 || fType f == 14

/-! ## Checks (R263) -/

/-- One bit step of a reflected CRC of width `w`. -/
def crcBit (poly c : Nat) : Nat := if c % 2 = 1 then Nat.xor (c / 2) poly else c / 2

/-- A byte into a reflected CRC. -/
def crcByte (poly c : Nat) (b : Byte) : Nat := (upTo 8).foldl (fun c _ => crcBit poly c) (Nat.xor c b.toNat)

/-- A reflected CRC with initial value and final XOR all ones. -/
def crcOf (w poly : Nat) (d : List Byte) : Nat :=
  Nat.xor (d.foldl (crcByte poly) (2 ^ w - 1)) (2 ^ w - 1)

/-- 0x42F0_E1EB_A9EA_3693, reflected. -/
def poly64 : Nat := 0xC96C5795D7870F42
/-- Castagnoli's polynomial, reflected. -/
def poly32c : Nat := 0x82F63B78

/-- The link CRC (R263): header and padded payload. -/
def linkCrc (f : Frame) : Word := BitVec.ofNat 64 (crcOf 64 poly64 (leBytes 32 f.hdr.toNat ++ f.payload))

/-- The end-to-end check (R263). -/
def e2eOf (f : Frame) : Nat :=
  let h := putBits (putBits (putBits f.hdr.toNat 8 8 0) 87 18 0) 255 224 0
  crcOf 32 poly32c (leBytes 32 h ++ fData f)

def withE2e (f : Frame) : Frame := fput f 255 224 (e2eOf f)

/-- Pad to a multiple of 8 bytes (R261). -/
def pad8 (d : List Byte) : List Byte := d ++ List.replicate ((8 - d.length % 8) % 8) 0

/-- A frame with its E2E set, no route yet. -/
def mkFrame (ty cls flag : Nat) (sync : Bool) (src dst flow : Nat) (seq : BitVec 32) (window off tag : Nat)
    (d : List Byte) : Frame :=
  withE2e { hdr := BitVec.ofNat 256 (ty + cls * 2 ^ 4 + flag * 2 ^ 6 + boolNat sync * 2 ^ 7 + d.length * 2 ^ 9 +
              src * 2 ^ 88 + dst * 2 ^ 103 + flow * 2 ^ 118 + seq.toNat * 2 ^ 130 + window % 16 * 2 ^ 162 +
              off % 2 ^ 44 * 2 ^ 166 + tag % 2 ^ 14 * 2 ^ 210),
            payload := pad8 d, crc := 0 }

/-! ## Serial numbers (R272) -/

/-- a precedes b. -/
def seqBefore (a b : BitVec 32) : Bool := let d := (b - a).toNat; decide (1 ≤ d) && decide (d ≤ 2 ^ 31 - 1)
/-- a is b or precedes it. -/
def seqUpTo (a b : BitVec 32) : Bool := a == b || seqBefore a b

/-! ## Profiles and routes (R268, R285) -/

def State.activeProfile (s : State) : Option Profile := s.cfg.profiles[s.hnx.profile]?

/-- A device of the partition; this device belongs to its own. -/
def State.inPartition (s : State) (dev : Nat) : Bool := dev == s.cfg.device || s.cfg.partition.contains dev

/-- The route of a destination device; `none` when it is all zero or the device is outside the partition (R268). -/
def State.routeTo (s : State) (dst : Nat) : Option (List Seg) :=
  match s.activeProfile with
  | none => none
  | some p => match p.routes.find? fun r => r.1 == dst with
    | none => none
    | some r =>
      if (r.2.all fun g => g.port == 0 && g.hops == 0) || !s.inPartition dst then none else some r.2

/-- A window may be used by a device of its partition, and by this device (R184, R190). -/
def windowAdmits (w : FabWindow) (self dev : Nat) : Bool := dev == self || w.partition.contains dev

/-- Put a route into a header, at segment 0 (R261). -/
def withRoute (f : Frame) (r : List Seg) : Frame :=
  let f := fput (fput f 51 50 0) 8 8 0
  (upTo 4).foldl (fun f i => match r[i]? with
    | some g => fput (fput f (54 + 9 * i) (52 + 9 * i) g.port) (60 + 9 * i) (55 + 9 * i) g.hops
    | none => fput f (60 + 9 * i) (52 + 9 * i) 0) f

/-- The group a flow of this device is bound to (R279). -/
def State.boundGroup (s : State) (flow : Nat) : Option Group :=
  match s.activeProfile with
  | none => none
  | some p => p.groups.find? fun g => g.upstream.isNone && g.flows.contains flow

/-! ## Transmission on a port (R260 to R267, R287) -/

def Port.lane (x : Port) (k : Nat) : Lane := tget Lane.reset x.lanes k
def Port.setLane (x : Port) (k : Nat) (l : Lane) : Port := { x with lanes := tset Lane.reset x.lanes k l }

/-- Lanes that are up and not in retraining, in ascending order. -/
def Port.upLanes (x : Port) : List Nat :=
  (upTo 8).filter fun k => bitOf x.lanesUp.toNat k && !(x.lane k).retraining && !(x.lane k).heldDown

/-- Where a (class, set) count is held: control, signal, bulk, multicast of set 0, then of set 1. -/
def creditIdx (cls set : Nat) : Nat := set * 4 + cls

/-- The buffer set a frame takes on a link: a version 1 link has set 0 only (R259). -/
def Port.setOf (x : Port) (f : Frame) : Nat := if x.version = 1 then 0 else fDl f

/-- The lane of a frame (R267): striped for sequenced frames and responses, else the least loaded. -/
def Port.pickLane (x : Port) (f : Frame) : Option Nat :=
  let ls := x.upLanes
  let k :=
    if fSequenced f || fType f == 4 || fType f == 6 then
      ls[((fSeq f).toNat + fFlow f + fSrc f) % ls.length]?
    else (ls.map fun k => (k, (x.lane k).retry.length)).foldl (fun b e => match b with
      | some (_, n) => if e.2 < n then some e else b
      | none => some e) none |>.map (·.1)
  k.filter fun k => decide ((x.lane k).retry.length < 1024)

/-- A frame as a version 1 link carries it (R259). -/
def asVersion1 (f : Frame) : Frame := fput (fput (fput (fput f 8 8 0) 7 7 0) 223 210 0) 255 224 0

/-- Held signals of the device (R225). -/
def State.heldSignals (s : State) : Nat :=
  s.hnx.dst.foldl (fun n d => n + d.heldSigs.length) (s.hnx.unopened.filter fun f => fType f == 7).length

/-- The credits a frame returns: class, set and count; signal credits are withheld at the limit of R225. -/
def State.creditsDue (s : State) (x : Port) : Nat × Nat × Nat :=
  match (upTo 8).find? fun i => decide (0 < x.owed.getD i 0) && !(i % 4 == 1 && decide (4096 ≤ s.heldSignals)) with
  | some i => (i % 4, i / 4, min 15 (x.owed.getD i 0))
  | none => (0, 0, 0)

/-- Put a frame on a lane with its acknowledgement and credit fields and its link CRC (R261, R264). -/
def State.putOnFibre (s : State) (p k : Nat) (f : Frame) (nak : Bool) : State :=
  let x := s.port p
  let l := x.lane k
  let c := s.creditsDue x
  let f := fput f 41 30 ((l.expected + 4095) % 4096)
  let f := fput f 42 42 (boolNat nak)
  let f := fput (fput (fput f 44 43 c.1) 45 45 c.2.1) 49 46 c.2.2
  let i := creditIdx c.1 c.2.1
  let f := { f with crc := linkCrc f }
  let s := s.setPort p { (x.setLane k { l with owed := false }) with
    out := (k, f) :: x.out, owed := x.owed.set i (x.owed.getD i 0 - c.2.2) }
  if fType f = 0 then s else s.bump .hnxTxFramesCount p

/-- An IDLE frame on a lane (R264). -/
def State.sendIdle (s : State) (p k : Nat) (nak : Bool) : State :=
  s.putOnFibre p k { hdr := 0, payload := [], crc := 0 } nak

/-- Flip the bit that MODE 3 and 4 of R287 flip. -/
def flipBit (f : Frame) : Frame :=
  if fLen f = 0 then fput f 130 130 (1 - fbits f 130 130)
  else match f.payload with
    | b :: r => { f with payload := (b ^^^ 1) :: r }
    | [] => f

/-- A bit of the frame last put on the fibre is flipped behind its link CRC (R287). -/
def Port.flipLast (x : Port) : Port := match x.out with
  | (k, g) :: r => { x with out := (k, { flipBit g with crc := g.crc }) :: r }
  | [] => x

/-- Give a frame the lane's next FSN, keep it for retry and send it (R264). -/
def State.launch (s : State) (p k : Nat) (f : Frame) (mode : Nat) : State :=
  let x := s.port p
  let l := x.lane k
  let f := fput f 29 18 l.nextFsn
  let keep := if mode = 4 then flipBit f else f
  let s := s.setPort p (x.setLane k
    { l with nextFsn := (l.nextFsn + 1) % 4096, retry := l.retry ++ [keep], tries := l.tries ++ [0] })
  if mode = 1 then s.modPort p fun x => x.setLane k { x.lane k with owed := false }
  else if mode = 3 then
    (s.putOnFibre p k f false).modPort p Port.flipLast
  else s.putOnFibre p k keep false

/-- Whether R287 selects this frame, and the state with the interval counted. -/
def State.injSelect (s : State) (p k : Nat) (f : Frame) : State × Bool :=
  if s.fld .fltHnxCtrlMode = 0 || s.fld .fltHnxCtrlCount = 0 || s.fld .fltHnxCtrlPort ≠ p || fType f ≤ 1 ||
      !bitOf (s.fld .fltHnxCtrlClasses) (fClass f) || !bitOf (s.fld .fltHnxCtrlLanes) k then (s, false)
  else
    let n := (s.port p).injCount + 1
    if max 1 (s.fld .fltHnxCtrlInterval) ≤ n then
      (((s.modPort p fun x => { x with injCount := 0 }).setFld .fltHnxCtrlCount 0 (s.fld .fltHnxCtrlCount - 1)).bump
        .fltHnxCntDone, true)
    else (s.modPort p fun x => { x with injCount := n }, false)

/-- Frames held back by MODE 5 on a lane count a sent frame; those due are sent, as the retry buffer has room (R264, R287). -/
def State.injRelease (s : State) (p k : Nat) : State :=
  let x := s.port p
  let h := x.injHeld.map fun e => if e.1 = k then (e.1, e.2.1 - 1, e.2.2) else e
  let ready := h.filter fun e => e.1 == k && e.2.1 == 0
  let due := ready.take (1024 - (x.lane k).retry.length)
  let s := s.setPort p { x with injHeld := (ready.drop due.length) ++ (h.filter fun e => !(e.1 == k && e.2.1 == 0)) }
  forEach due (fun s e => s.launch p k e.2.2 0) s

/-- Send a frame on a lane under the fault injection of R287. -/
def State.transmit (s : State) (p k : Nat) (f : Frame) : State :=
  let r := s.injSelect p k f
  let mode := s.fld .fltHnxCtrlMode
  if r.2 && mode == 2 then r.1
  else if r.2 && mode == 5 then
    r.1.modPort p fun x => { x with injHeld := x.injHeld ++ [(k, max 1 (s.fld .fltHnxCtrlDepth), f)] }
  else (r.1.launch p k f (if r.2 then mode else 0)).injRelease p k

/-- Whether the port holds a credit and a lane for a frame (R266). -/
def Port.canSend (x : Port) (f : Frame) : Bool :=
  (fType f ≤ 1 || decide (0 < x.credits.getD (creditIdx (fClass f) (x.setOf f)) 0)) && (x.pickLane f).isSome

/-- The next frame the port may send (R267): the first sendable frame of the class that is due. -/
def Port.nextFrame (x : Port) : Option Queued :=
  let first (c : Nat) : Option Queued := x.queue.find? fun q => fClass q.frame == c && x.canSend q.frame
  match first 0 with
  | some f => some f
  | none =>
    let sig := first 1
    let bulk := first 2
    let mc := first 3
    let data := if 3 ≤ x.mix then mc.orElse fun _ => bulk else bulk.orElse fun _ => mc
    match sig, data with
    | some f, none => some f
    | some f, some d => if 3 ≤ x.sigGap then some f else some d
    | none, d => d

/-- The lane an IDLE frame goes on: one that owes an acknowledgement, else the first that is up. -/
def Port.idleLane (x : Port) : Option Nat := (x.upLanes.find? fun k => (x.lane k).owed).orElse fun _ => x.upLanes.head?

/-- A received frame has left its buffer: its credit is owed, and goes back on an IDLE frame (R266). -/
def State.giveCredit (s : State) (p i : Nat) : State :=
  let s := s.modPort p fun x => { x with owed := x.owed.set i (x.owed.getD i 0 + 1) }
  let x := s.port p
  match x.idleLane with
  | some k => if x.state = .active && decide (0 < (s.creditsDue x).2.2) then s.sendIdle p k false else s
  | none => s

/-- Send what credits and lanes allow, in the order of R267; `n` bounds the frames. -/
def State.pump (s : State) (p : Nat) : Nat → State
  | 0 => s
  | n + 1 =>
    let x := s.port p
    if x.state ≠ .active || x.moving then s
    else match x.nextFrame with
      | none => s
      | some q => match x.pickLane q.frame with
        | none => s
        | some k =>
          let f := q.frame
          let c := fClass f
          let i := creditIdx c (x.setOf f)
          let x := { x with queue := x.queue.erase q,
                            credits := if fType f ≤ 1 then x.credits else x.credits.set i (x.credits.getD i 0 - 1),
                            sigGap := if c = 1 then 0 else x.sigGap + 1,
                            mix := if c = 3 then 0 else if c = 2 then x.mix + 1 else x.mix }
          let s := (s.setPort p x).transmit p k (if x.version = 1 then asVersion1 f else f)
          let s := if q.origin = 0 then s else s.giveCredit (q.origin - 1) q.credit
          s.pump p n

/-- Send what a port may send now. -/
def State.pumpPort (s : State) (p : Nat) : State := s.pump p (s.port p).queue.length

/-- Queue a frame on a port and send what may be sent; `origin` and `credit` as in `Queued`. -/
def State.enqueueFrom (s : State) (p : Nat) (f : Frame) (origin credit : Nat) : State :=
  (s.modPort p fun x => { x with queue := x.queue ++ [{ frame := f, origin := origin, credit := credit }] }).pumpPort p

/-- Queue a frame of this device. -/
def State.enqueue (s : State) (p : Nat) (f : Frame) : State := s.enqueueFrom p f 0 0

/-- Queue a multicast control frame of one hop: never on a version 1 link (R259). -/
def State.enqueueTree (s : State) (p : Nat) (f : Frame) : State := if (s.port p).version = 1 then s else s.enqueue p f

/-! ## The frame stream of a lane (R255, R256) -/

/-- The bytes of a frame: header, padded payload, trailer (R261). -/
def frameBytes (f : Frame) : List Byte := leBytes 32 f.hdr.toNat ++ f.payload ++ leBytes 8 f.crc.toNat

/-- Where frames that lie back to back start. -/
def startsFrom : Nat → List Frame → List Nat
  | _, [] => []
  | o, f :: r => o :: startsFrom (o + (frameBytes f).length) r

/-- The frames a lane has put on its fibre, oldest first. -/
def Port.laneFrames (x : Port) (k : Nat) : List Frame := ((x.out.filter fun e => e.1 == k).map (·.2)).reverse

/-- Codeword `i` of a lane's stream: its 640 bytes and its control bits. -/
def Port.codeword (x : Port) (k i : Nat) : List Byte × Nat :=
  let fs := x.laneFrames k
  let first := (startsFrom 0 fs).find? fun o => decide (640 * i ≤ o) && decide (o < 640 * i + 640)
  (((fs.flatMap frameBytes).drop (640 * i)).take 640, k * 2 ^ 17 + (first.map fun o => (o - 640 * i) / 8).getD 127)
/-! ## Routing (R269) -/

/-- Where R269 takes a frame. -/
inductive Fwd where
  | deliver
  | send (port : Nat) (f : Frame)
  | fail (reason : Nat) (port : Option Nat)
  deriving DecidableEq, Repr

/-- Skip the used-up segments of a route; a new segment starts in set 0. `n` bounds the segments. -/
def skipSegs (f : Frame) : Nat → Option Frame
  | 0 => none
  | n + 1 =>
    let i := fSegIdx f
    if fSegHops f i ≠ 0 then some f
    else if i = 3 then none
    else skipSegs (fput (fput f 51 50 (i + 1)) 8 8 0) n

/-- One device's decision on a unicast frame (R269). -/
def State.routeFrame (s : State) (f : Frame) : Fwd :=
  if fDst f = s.cfg.device then .deliver
  else match skipSegs f 4 with
    | none => .fail 1 none
    | some f =>
      let i := fSegIdx f
      let p := fSegPort f i
      if (s.port p).state ≠ .active && !(s.port p).moving then .fail 2 (some p)
      else
        let dl := (s.activeProfile.map fun x => x.dateline.getD p false).getD false
        let f := if dl then fput f 8 8 1 else f
        .send p (fput f (60 + 9 * i) (55 + 9 * i) (fSegHops f i - 1))

end Sys2Proof.Machine
end

