-- ==== Sys2Proof/Machine/Flows.lean ====
section
/-! DEFINITION. Henxo flows at their source, and frames that leave or fail to leave this device (R222, R260, R264, R269,
R272, R273, R276). -/

namespace Sys2Proof.Machine

/-! ## Source flow entries (R273) -/

/-- The link version of the first hop toward a device. -/
def State.firstVersion (s : State) (dst : Nat) : Nat :=
  match s.routeTo dst with
  | none => 0
  | some r => match s.routeFrame (withRoute { hdr := BitVec.ofNat 256 (dst * 2 ^ 103), payload := [], crc := 0 } r) with
    | .send p _ => (s.port p).version
    | _ => 0

/-- Whether a path includes a version 1 link (R226): its first hop, or as the profile says (log entry 22). -/
def State.pathV1 (s : State) (dst : Nat) : Bool :=
  s.firstVersion dst == 1 || s.activeProfile.any fun p => p.v1.contains dst

/-- The entry of a flow; a multicast flow has one whatever device its addresses name (R279). -/
def State.srcFlow (s : State) (dst flow : Nat) (mc : Option Nat) : Option SrcFlow :=
  s.hnx.src.find? fun e => (e.dst == dst || mc.isSome) && e.flow == flow && e.mc == mc

/-- U follows the oldest unacknowledged frame. -/
def SrcFlow.settle (e : SrcFlow) : SrcFlow := { e with u := (e.unacked.head?.map (·.fseq)).getD e.n }

def State.setSrcFlow (s : State) (e : SrcFlow) : State :=
  let same (x : SrcFlow) : Bool := x.dst == e.dst && x.flow == e.flow && x.mc == e.mc
  let e := e.settle
  let src := if s.hnx.src.any same then s.hnx.src.map (fun x => if same x then e else x) else s.hnx.src ++ [e]
  { s with hnx := { s.hnx with src := src } }

/-- Weight and scale reads count against DEPTH only (R164). -/
def StreamName.isWeight : StreamName → Bool
  | .sWgt | .sWscale => true
  | _ => false

/-- Fabric transfers of a context in flight: its frames sent and not acknowledged, or not yet answered (R138). -/
def State.fabricUsed (s : State) (c : Nat) : Nat :=
  s.hnx.src.foldl (fun n e =>
    n + ((e.unacked.filter fun u => u.ctx == c && !e.backlog.any fun f => fSeq f == u.fseq) ++
      e.waiting.filter fun u => u.ctx == c).length) (s.hnx.late.filter fun u => u.2.2.ctx == c).length

/-- Transfers of a context in flight that count against XFER (R138, R164). -/
def State.xferUsed (s : State) (c : Nat) : Nat :=
  (upTo 4).foldl (fun n b => (s.bay b).streams.foldl (fun n x =>
    if !x.name.isWeight && (s.thread x.thread).ctx = c then n + x.flight.length else n) n) (s.fabricUsed c)

/-- The entry with the oldest use among some. -/
def oldestSrc (l : List SrcFlow) : Option SrcFlow :=
  l.foldl (fun b e => match b with
    | some x => if e.used < x.used then some e else some x
    | none => some e) none

/-! ## Loss beyond retry (R222, R276) -/

/-- The step a frame belongs to takes a fault: its context faults and the step stops. -/
def State.sentFault (s : State) (u : Sent) (code : Nat) : State :=
  let s := s.ctxFault u.ctx code u.pc u.idx .thread u.thread u.uid
  if (s.thread u.thread).ctx = u.ctx then s.dropSteps u.thread (some u.uid) else s

/-- A request of an evicted entry is no longer awaited. -/
def State.dropLate (s : State) (dst flow : Nat) (q : BitVec 32) : State :=
  { s with hnx := { s.hnx with late := s.hnx.late.filter fun u => !(u.1 == dst && u.2.1 == flow && u.2.2.fseq == q) } }

/-- A frame is lost beyond retry: counted; a lost write is logged, and the thread's next remote SIGNAL carries LOST; a
lost request faults its step with MEMORY. -/
def State.loseSent (s : State) (e : SrcFlow) (u : Sent) : State :=
  let e := (s.srcFlow e.dst e.flow e.mc).getD e
  let s := s.setSrcFlow { e with unacked := e.unacked.filter (·.fseq != u.fseq),
                                 waiting := e.waiting.filter (·.fseq != u.fseq),
                                 backlog := e.backlog.filter fun f => fSeq f != u.fseq }
  let s := (s.dropLate e.dst e.flow u.fseq).bump .hnxFlowCntLostTx
  if u.answers then s.sentFault u fltMemory
  else
    let s := s.event .wchLostTx .thread u.thread u.ctx [e.flow, e.mc.getD e.dst]
    s.modThread u.thread fun th => { th with lostMark := th.lostMark || (th.st != .idle && th.ctx == u.ctx) }

/-- A frame of this device cannot leave it: a sequenced frame is lost as under a NACK (R269, R276). -/
def State.ownFailed (s : State) (f : Frame) : State :=
  if !fSequenced f then s
  else
    let e := if fType f = 14 then s.srcFlow 0 (fFlow f) (some (fTag f))
      else if fType f = 10 then s.srcFlow 0 (fFlow f) (some (fDst f % 1024)) else s.srcFlow (fDst f) (fFlow f) none
    match e with
    | none => s
    | some e => match e.unacked.find? fun u => u.fseq == fSeq f with
      | none => s
      | some u => s.loseSent e u

/-! ## Sending (R269) -/

/-- Send a control frame to a device; one that cannot leave is dropped. -/
def State.sendCtl (s : State) (dst : Nat) (f : Frame) : State :=
  match s.routeTo dst with
  | none => s
  | some r => match s.routeFrame (withRoute f r) with
    | .send p f => if (s.port p).version = 1 && 10 ≤ fType f then s.bump .hnxPortEvtRouteDiscard p else s.enqueue p f
    | .fail _ (some p) => s.bump .hnxPortEvtRouteDiscard p
    | _ => s

/-- A frame made by this device toward `dst`: routed and queued. -/
def State.sendTo (s : State) (dst : Nat) (f : Frame) : State :=
  match s.routeTo dst with
  | none => s.ownFailed f
  | some r => match s.routeFrame (withRoute f r) with
    | .send p f =>
      if (s.port p).version = 1 && 10 ≤ fType f then (s.bump .hnxPortEvtRouteDiscard p).ownFailed f else s.enqueue p f
    | .fail _ (some p) => (s.bump .hnxPortEvtRouteDiscard p).ownFailed f
    | .fail _ none => s.ownFailed f
    | .deliver => s

/-- An E2E_NACK for a frame (R262, R269, R274): a control frame gets none. -/
def State.sendNack (s : State) (f : Frame) (reason : Nat) : State :=
  if fClass f = 0 then s
  else s.sendCtl (fSrc f) (mkFrame 9 0 0 false s.cfg.device (fSrc f) (fFlow f) 0 0 0 0
    (leBytes 8 ((fSeq f).toNat + 2 ^ 32 + reason * 2 ^ 48) ++ leBytes 8 (fDst f)))

/-! ## Lanes and ports that go down (R260, R264) -/

/-- Frames in a lane's retry buffer go on by other lanes, with new FSNs; each spends its credit again. -/
def Port.requeue (x : Port) (k : Nat) : Port :=
  let l := x.lane k
  let fs := l.retry.filter fun f => fType f != 1
  { x with queue := fs.map (fun f => { frame := f, origin := 0, credit := 0 }) ++ x.queue,
           credits := fs.foldl (fun c f =>
             let i := creditIdx (fClass f) (x.setOf f)
             c.set i (c.getD i 0 + 1)) x.credits }

/-- A lane is retrained (R260). -/
def State.retrainLane (s : State) (p k : Nat) : State :=
  let s := s.modPort p fun x =>
    (x.requeue k).setLane k { Lane.reset with retraining := true, retrainFails := (x.lane k).retrainFails }
  (s.bump .hnxLaneCntRetrains p).pumpPort p

/-- Replay a lane's retry buffer (R264); the eighth replay of a frame retrains the lane (R260). -/
def State.replay (s : State) (p k : Nat) : State :=
  let l := (s.port p).lane k
  if l.retry.isEmpty then s
  else
    let s := forEach l.retry (fun s f => (s.putOnFibre p k f false).bump .hnxRetryCntReplayed p) s
    let s := s.modPort p fun x => x.setLane k { x.lane k with tries := l.tries.map (· + 1) }
    if l.tries.any fun n => decide (8 ≤ n + 1) then s.retrainLane p k else s

/-- What the retry buffers of a port held is lost beyond retry (R260, R286): this device's own frames at once, those it
relayed at their source's flow timeout. -/
def State.loseRetry (s : State) (x : Port) : State :=
  forEach ((upTo 8).flatMap fun k => (x.lane k).retry) (fun s f => if fSrc f = s.cfg.device then s.ownFailed f else s) s

/-- A port leaves ACTIVE or training for `st` (R254, R260): what its retry buffers hold is lost, what waits for it is
discarded under R269. -/
def State.portDown (s : State) (p : Nat) (st : PortState) : State :=
  let x := s.port p
  let s := s.setPort p { Port.reset with state := st, peerDev := x.peerDev, peerPort := x.peerPort, out := x.out }
  let s := if x.state = .active then s.markChg 6 else s
  let s := s.loseRetry x
  forEach x.queue (fun s q =>
    let s := s.bump .hnxPortEvtRouteDiscard p
    let s := if fSrc q.frame = s.cfg.device then s.ownFailed q.frame else s.sendNack q.frame 2
    if q.origin = 0 then s else s.giveCredit (q.origin - 1) q.credit) s

/-- The ports of a honeycomb that goes dark (R254). -/
def State.combPortsDark (s : State) (h : Nat) : State :=
  if h < 8 then s
  else forEach (upTo 4) (fun s i =>
    let p := 4 * (h - 8) + i
    if (s.port p).state = .disabled then s else s.portDown p .dark) s

end Sys2Proof.Machine
end

