-- ==== Sys2Proof/Machine/Commit.lean ====
section
/-! DEFINITION. Henxo flows at their destination: windows (R190), committing in flow order (R274, R275, R277), remote
signals (R223 to R225, R278) and what a subtree reports upstream (R281). -/

namespace Sys2Proof.Machine

/-! ## Windows (R190) -/

/-- The operations a window may allow. -/
inductive WinOp where
  | read | write | cas
  deriving DecidableEq, Repr

/-- The device-physical address of an access through a window, or none where it is rejected (R190). -/
def State.windowAddr (s : State) (src window off len : Nat) (op : WinOp) : Option Nat :=
  match s.cfg.windows[window]? with
  | none => none
  | some w =>
    let ok := match op with
      | .read => w.canRead
      | .write => w.canWrite
      | .cas => w.canCas
    if w.declared && ok && decide (off + len ≤ w.size) && windowAdmits w s.cfg.device src then some (w.base + off) else none

/-- A rejected access is logged and counted (R190). -/
def State.windowReject (s : State) (src window : Nat) : State :=
  (s.bump .celMapWinRejects).event .celWindowReject .device 0 noCtx [src, window]

/-! ## Destination entries (R274) -/

def State.dstFlow (s : State) (src flow : Nat) : Option DstFlow :=
  s.hnx.dst.find? fun d => d.src == src && d.flow == flow

def State.setDst (s : State) (d : DstFlow) : State :=
  let same (x : DstFlow) : Bool := x.src == d.src && x.flow == d.flow
  let dst := if s.hnx.dst.any same then s.hnx.dst.map (fun x => if same x then d else x) else s.hnx.dst ++ [d]
  { s with hnx := { s.hnx with dst := dst } }

/-- The flow timeout, in ns (R224). -/
def State.flowTimeout (s : State) : Nat := s.fld .wchHoldCtrlTimeoutUs * 1000

/-- The least recently used entry that may be evicted. -/
def State.evictable (s : State) : Option DstFlow :=
  (s.hnx.dst.filter fun d => d.heldFrames.isEmpty && d.heldSigs.isEmpty && decide (d.used + s.flowTimeout ≤ s.time)).foldl
    (fun b d => match b with
      | some x => if d.used < x.used then some d else some x
      | none => some d) none

/-- FSEQ + 1 − TAG, the open value a signal's SYNC names (R273). -/
def openOfSignal (f : Frame) : BitVec 32 := fSeq f + 1 - BitVec.ofNat 32 (fTag f)

/-- Create or reinitialise an entry at `o`, with the signals held for that opening; `none` while the table is full. -/
def State.openDst (s : State) (src flow : Nat) (group : Option Nat) (o : BitVec 32) : Option State :=
  let mine (f : Frame) : Bool := fType f == 7 && fSrc f == src && fFlow f == flow
  let early := s.hnx.unopened.filter mine
  let sigs := match s.dstFlow src flow with
    | some d => d.heldSigs.filter fun h => fSync h.1 && openOfSignal h.1 == o
    | none => early.map fun f => (f, s.time)
  let d : DstFlow := { src := src, flow := flow, group := group, o := o, e := o, skips := [], heldFrames := [],
                       heldSigs := sigs, commits := 0, ackDue := false, rejected := [], used := s.time, via := 0 }
  let s := { s with hnx := { s.hnx with unopened := s.hnx.unopened.filter fun f => !mine f } }
  if (s.dstFlow src flow).isSome || s.hnx.dst.length < 16384 then some (s.setDst d)
  else match s.evictable with
    | none => none
    | some v => some ({ s with hnx := { s.hnx with dst := s.hnx.dst.filter (· != v) } }.setDst d)

/-- Bytes of the reorder pool in use: header, payload and trailer of each held frame (log entry 29). -/
def State.poolUsed (s : State) : Nat :=
  let size (f : Frame) : Nat := 40 + f.payload.length
  let un := (s.hnx.unopened.filter fun f => fType f != 7).foldl (fun n f => n + size f) 0
  s.hnx.dst.foldl (fun n d => d.heldFrames.foldl (fun n f => n + size f) n) un

/-- Whether the pool has room for a frame. -/
def State.poolRoom (s : State) (f : Frame) : Bool := decide (s.poolUsed + 40 + f.payload.length ≤ 8 * mib)

/-- E2E_ACK with FSEQ = E − 1 (R275). -/
def State.sendAck (s : State) (d : DstFlow) : State :=
  (s.setDst { d with commits := 0, ackDue := false }).sendCtl d.src
    (mkFrame 8 0 0 false s.cfg.device d.src d.flow (d.e - 1) 0 0 0 [])

/-! ## Committing one frame (R190, R192, R274) -/

/-- READ_RESP frames of a request: at most 256 bytes each, poisoned where their data is (R192, R262). -/
def State.answerRead (s : State) (f : Frame) (a n : Nat) : State :=
  forEach ((upTo ((n + 255) / 256)).map fun i => (256 * i, min 256 (n - 256 * i))) (fun s c =>
    s.sendTo (fSrc f) (mkFrame 4 2 (boolNat (s.readsBad (a + c.1) c.2)) false s.cfg.device (fSrc f) (fFlow f) (fSeq f)
      (fWindow f) (fOff f + c.1) 0 (s.seen (a + c.1) c.2))) s

/-- CAS_RESP of a request: the old value, or a poisoned answer (R262). -/
def State.answerCas (s : State) (f : Frame) (old : Option Nat) : State :=
  s.sendTo (fSrc f) (mkFrame 6 2 (boolNat old.isNone) false s.cfg.device (fSrc f) (fFlow f) (fSeq f) (fWindow f)
    (fOff f) 0 (leBytes 8 (old.getD 0)))

/-- A remote compare-and-swap on a word the host does not hold. -/
def State.casFor (s : State) (f : Frame) (a : Nat) : State :=
  if s.readsBad a 8 then s.answerCas f none
  else
    let old := s.readNat a 8
    let cmp := leNat ((fData f).take 8)
    let new := leNat (((fData f).drop 8).take 8)
    ((if old = cmp then s.writeWord false a new else s)).answerCas f (some old)

/-- Commit a sequenced frame; `true` when R190 rejects it. -/
def State.commitFrame (s : State) (f : Frame) (check : LineCheck) : State × Bool :=
  let n := if fType f = 3 then leNat ((fData f).take 8) % 8192 else if fType f = 5 then 8 else fLen f
  let op : WinOp := if fType f = 3 then .read else if fType f = 5 then .cas else .write
  match s.windowAddr (fSrc f) (fWindow f) (fOff f) n op with
  | none => ((s.windowReject (fSrc f) (fWindow f)).sendNack f 3, true)
  | some a =>
    if fType f = 3 then ((s.checkAt a check .fabric).answerRead f a n, false)
    else if fType f = 5 then
      let s := s.checkAt a check .fabric
      (if s.hostHolds (lineOf a) then s.holdOp a (.casFrame f) else s.casFor f a, false)
    else (s.devWrite a (fData f), false)

/-! ## Subtrees (R281) -/

def State.group? (s : State) (g : Nat) : Option Group :=
  s.activeProfile.bind fun p => p.groups.find? fun x => x.id == g

/-- A branch is pruned for a transfer of a flow. -/
def Branch.prunedFor (b : Branch) (flow : Nat) : Bool := b.pruned.any fun t => t.1 == flow

/-- What bounds a subtree's acknowledgement: E − 1 of this device where it is a member, and each unpruned branch. -/
def State.mcBounds (s : State) (g : Group) (flow : Nat) : List (Option (BitVec 32)) :=
  let own := if g.member then
      [(s.hnx.dst.find? fun d => d.flow == flow && d.group == some g.id).map fun d => d.e - 1] else []
  own ++ ((s.hnx.branches.filter fun b => b.group == g.id && !b.prunedFor flow).map fun b =>
    (b.lastAck.find? fun a => a.1 == flow).map (·.2))

/-- The least of some sequence numbers (R272). -/
def leastSeq : List (BitVec 32) → Option (BitVec 32)
  | [] => none
  | a :: r => some (r.foldl (fun m x => if seqBefore x m then x else m) a)

/-- The last MC_ACK of this device's own subtree. -/
def State.mcAck (s : State) (g flow : Nat) : Option (BitVec 32) :=
  (s.hnx.mcAcked.find? fun a => a.1 == g && a.2.1 == flow).map (·.2.2)

/-- Frames of a multicast flow that the tree and every repaired member have acknowledged leave the source's entry; a
member that has acknowledged its last repair leaves the list (R283). `tree` is none where every branch is pruned. -/
def SrcFlow.ackMulti (e : SrcFlow) (tree : Option (BitVec 32)) : SrcFlow :=
  let bound := tree.getD (e.n - 1)
  let covers (m : Nat × BitVec 32 × BitVec 32) (u : Sent) : Bool := seqUpTo u.fseq m.2.1 || seqBefore m.2.2 u.fseq
  { e with unacked := e.unacked.filter fun u => !(seqUpTo u.fseq bound && e.members.all fun m => covers m u),
           members := e.members.filter fun m => !seqUpTo m.2.2 m.2.1 }

/-- A device's subtree acknowledgement changed: MC_ACK goes upstream, or the source counts it (R281, R283). `src` is the
flow's source device. -/
def State.updateMc (s : State) (g src flow : Nat) : State :=
  match s.group? g with
  | none => s
  | some G =>
    let bs := s.mcBounds G flow
    if bs.any Option.isNone then s
    else
      let v := leastSeq (bs.filterMap id)
      match G.upstream with
      | none => match s.srcFlow 0 flow (some g) with
        | none => s
        | some e => s.setSrcFlow (e.ackMulti v)
      | some p => match v with
        | none => s
        | some v =>
          if s.mcAck g flow = some v then s
          else
            let rest := s.hnx.mcAcked.filter fun a => !(a.1 == g && a.2.1 == flow)
            let s := { s with hnx := { s.hnx with mcAcked := (g, flow, v) :: rest } }
            s.enqueueTree p (mkFrame 12 0 0 false s.cfg.device src flow v 0 0 g [])

/-! ## Remote signals (R192, R223, R224, R278) -/

/-- Apply a remote signal to its word, or deliver it with LOST. A poisoned word is not changed; `check` is what the read of
the word finds. -/
def State.applySignal (s : State) (f : Frame) (lost : Bool) (check : LineCheck) : State :=
  match s.windowAddr (fSrc f) (fWindow f) (fOff f) 8 .write with
  | none => s.windowReject (fSrc f) (fWindow f)
  | some a =>
    if s.readsBad a 8 then
      match targetOf a with
      | .cellar st => s.event .celUe .stack st noCtx []
      | _ => s
    else if check = .uncorrectable then s.checkAt a check .fabric
    else
    let s := s.checkAt a check .fabric
    if lost then s.deliverLost a (fSrc f) (fFlow f)
    else (s.signalAdd false a (leNat ((fData f).take 4)) (bayOfAddr a)).getD s

/-- One signal whose range is passed: rejections in its range make it LOST, and are used up (R278). -/
def State.deliverSignal (s : State) (f : Frame) (lost : Bool) (check : LineCheck) : State :=
  match s.dstFlow (fSrc f) (fFlow f) with
  | none => s.applySignal f lost check
  | some d =>
    let bad := d.rejected.any fun r => seqUpTo r (fSeq f)
    (s.setDst { d with rejected := d.rejected.filter fun r => !seqUpTo r (fSeq f) }).applySignal f (lost || bad) check

/-- Deliver the held signals of a flow whose FSEQ precedes E; an applied signal is acknowledged at once (R275, R278). -/
def State.releaseSignals (s : State) (src flow : Nat) (lost : Bool) : State :=
  match s.dstFlow src flow with
  | none => s
  | some d =>
    let due := d.heldSigs.filter fun h => seqBefore (fSeq h.1) d.e
    if due.isEmpty then s
    else
      let s := s.setDst { d with heldSigs := d.heldSigs.filter fun h => !seqBefore (fSeq h.1) d.e }
      let s := forEach due (fun s h => s.deliverSignal h.1 lost .clean) s
      match s.dstFlow src flow with
      | some d => if d.group.isNone then s.sendAck d else s
      | none => s

/-! ## In flow order (R274, R277) -/

/-- Commit a frame and keep its entry's account of it (R274, R275, R278). MC_WRITE is acknowledged by MC_ACK alone. -/
def State.commitOne (s : State) (src flow : Nat) (f : Frame) (check : LineCheck) : State :=
  let r := s.commitFrame f check
  match r.1.dstFlow src flow with
  | none => r.1
  | some d =>
    let e2e := fType f != 10
    let d := { d with commits := if e2e then d.commits + 1 else d.commits, ackDue := d.ackDue || e2e,
                      rejected := if r.2 then d.rejected ++ [fSeq f] else d.rejected }
    if 64 ≤ d.commits then (r.1.setDst d).sendAck d else r.1.setDst d

/-- Commit every held frame that now follows in order; `n` bounds them. -/
def State.followHeld (s : State) (src flow : Nat) : Nat → State
  | 0 => s
  | n + 1 => match s.dstFlow src flow with
    | none => s
    | some d => match d.heldFrames.find? fun f => fSeq f == d.e with
      | none => s
      | some f =>
        let s := s.setDst { d with e := d.e + 1, heldFrames := d.heldFrames.erase f }
        (s.commitOne src flow f .clean).followHeld src flow n

/-- What follows a change of E: held frames, signals and the subtree's acknowledgement. -/
def State.afterE (s : State) (src flow : Nat) (lost : Bool) : State :=
  let s := s.followHeld src flow (((s.dstFlow src flow).map (·.heldFrames.length)).getD 0)
  let s := s.releaseSignals src flow lost
  match s.dstFlow src flow with
  | some { group := some g, .. } => s.updateMc g src flow
  | _ => s

/-- Take a number out of skipped ranges. -/
def cutSkip (l : List (BitVec 32 × BitVec 32)) (q : BitVec 32) : List (BitVec 32 × BitVec 32) :=
  l.flatMap fun r =>
    if seqUpTo r.1 q && seqUpTo q r.2 then
      (if r.1 = q then [] else [(r.1, q - 1)]) ++ (if r.2 = q then [] else [(q + 1, r.2)])
    else [r]

/-- A sequenced frame of a flow whose entry exists, by the last four rows of R274. -/
def State.takeSeq (s : State) (d : DstFlow) (f : Frame) (check : LineCheck) : State :=
  let d := { d with used := s.time }
  let q := fSeq f
  if q = d.e then ((s.setDst { d with e := d.e + 1 }).commitOne d.src d.flow f check).afterE d.src d.flow false
  else if seqBefore d.e q then
    if d.heldFrames.any (fun g => fSeq g == q) then s.setDst d
    else if s.poolRoom f then s.setDst { d with heldFrames := d.heldFrames ++ [f] }
    else (s.setDst d).sendNack f 6
  else if d.skips.any (fun r => seqUpTo r.1 q && seqUpTo q r.2) then
    (s.setDst { d with skips := cutSkip d.skips q }).commitOne d.src d.flow f check
  else s.sendAck d

/-- A sequenced unicast frame at its destination, in by port `p` (R274); on a version 1 link the first frame of a flow,
numbered 0, opens it (R259). -/
def State.handleSeq (s : State) (f : Frame) (p : Nat) (check : LineCheck) : State :=
  let v1 := (s.port p).version == 1
  let src := fSrc f
  let flow := fFlow f
  let o := fSeq f - BitVec.ofNat 32 (fTag f)
  let opens := match s.dstFlow src flow with
    | none => fSync f || (v1 && fSeq f == 0)
    | some d => fSync f && d.o != o
  if opens then
    match s.openDst src flow none (if fSync f then o else 0) with
    | none => s.sendNack f 5
    | some s => match s.dstFlow src flow with
      | some d => (s.takeSeq { d with via := p } f check).releaseSignals src flow false
      | none => s
  else match s.dstFlow src flow with
    | none => s.sendNack f 4
    | some d => s.takeSeq { d with via := p } f check

/-- Hold a signal for its writes: with its entry `d`, or until its flow opens. A device that holds 4,096 leaves it in the
receive buffer of its port `p` (R225). -/
def State.holdSignal (s : State) (f : Frame) (p : Nat) (d : Option DstFlow) : State :=
  if 4096 ≤ s.heldSignals then { s with hnx := { s.hnx with parked := s.hnx.parked ++ [(p, f)] } }
  else
    let s : State := match d with
      | some d => s.setDst { d with heldSigs := d.heldSigs ++ [(f, s.time)], used := s.time }
      | none => { s with hnx := { s.hnx with unopened := s.hnx.unopened ++ [f] } }
    (s.bump .wchHoldCntHeld).raise .wchHoldStatusMax 0 s.heldSignals

/-- A SIGNAL frame at its target, in by port `p` (R223 to R226, R278); one on a version 1 link is applied on arrival. -/
def State.handleSignal (s : State) (f : Frame) (p : Nat) (v1 : Bool) (check : LineCheck) : State :=
  let src := fSrc f
  let flow := fFlow f
  if v1 then s.applySignal f (fFlag f) check
  else
    let s := if fSync f && (s.dstFlow src flow).isNone then (s.openDst src flow none (openOfSignal f)).getD s else s
    if fFlag f then s.applySignal f true check
    else match s.dstFlow src flow with
      | some d =>
        if seqBefore (fSeq f) d.e then (s.setDst { d with used := s.time }).deliverSignal f false check
        else s.holdSignal f p (some d)
      | none => s.holdSignal f p none

/-- Signals that wait in receive buffers are taken as held ones are applied (R225); `n` bounds them. -/
def State.unpark (s : State) : Nat → State
  | 0 => s
  | n + 1 => match s.hnx.parked with
    | [] => s
    | e :: r =>
      if s.heldSignals < 4096 then
        (({ s with hnx := { s.hnx with parked := r } }).handleSignal e.2 e.1 false .clean).unpark n
      else s

/-- Every signal that may now be taken from a receive buffer. -/
def State.takeParked (s : State) : State := s.unpark s.hnx.parked.length

/-- The least FSEQ of some frames. -/
def firstSeq (l : List Frame) : Option (BitVec 32) := leastSeq (l.map fSeq)

/-- The gap before the first held frame, or up to the first held signal, is skipped (R277). -/
def State.skipGap (s : State) (d : DstFlow) : State :=
  let sig := (firstSeq (d.heldSigs.map (·.1))).map (· + 1)
  let to? := match firstSeq d.heldFrames, sig with
    | some a, some b => some (if seqBefore b a then b else a)
    | some a, none => some a
    | none, b => b
  match to? with
  | none => s
  | some t =>
    let d := { d with e := t, skips := ((d.e, t - 1) :: d.skips).take 8 }
    ((s.setDst d).bump .hnxFlowCntSkips).afterE d.src d.flow true

end Sys2Proof.Machine
end

