-- ==== Sys2Proof/Machine/Multicast.lean ====
section
/-! DEFINITION. Multicast replication, pruning and repair (R279 to R284), and the sending side of flows (R273). -/

namespace Sys2Proof.Machine

/-! ## Repair (R283) -/

/-- Members beneath a branch, as the source's group table names branches: device · 8 + port. -/
def groupUnder (g : Group) (dev port : Nat) : List Nat :=
  ((g.beneath.find? fun b => b.1 == dev * 8 + port).map (·.2)).getD []

/-- A frame's data, read again from the MOVE's source items; `none` where they cannot be read. Data that came from another
device is sent as it came (DESIGN CHOICE, log entry 48). -/
def State.rereadData (s : State) (u : Sent) : Option (List Byte) :=
  if u.src = 0 then some (List.replicate u.len 0)
  else match addrKind (u.src - 1) with
    | .own va => match s.readVirt (s.ctx u.ctx) va u.len with
      | .ok d => some d
      | .error _ => none
    | .global dev w off =>
      if dev = s.cfg.device then (s.windowAddr dev w off u.len .read).map fun a => s.seen a u.len else some u.data
    | .bad => none

/-- MC_REPAIR frames of one frame of a transfer, to some members. -/
def State.repairFrame (s : State) (g flow : Nat) (u : Sent) (members : List Nat) : State :=
  forEach members (fun s m => match s.rereadData u with
    | none => s
    | some d => (s.sendTo m (mkFrame 14 2 0 false s.cfg.device m flow u.fseq u.window u.off g d)).bump
        .hnxMcCntRepairs) s

/-- The entry with `members` under repair up to a frame; what such a member has acknowledged before is at least what every
member has. -/
def SrcFlow.underRepair (e : SrcFlow) (members : List Nat) (last : BitVec 32) : SrcFlow :=
  let add (l : List (Nat × BitVec 32 × BitVec 32)) (m : Nat) : List (Nat × BitVec 32 × BitVec 32) :=
    match l.find? fun x => x.1 == m with
    | some x => l.map fun y => if y.1 = m then (m, x.2.1, last) else y
    | none => l ++ [(m, e.u - 1, last)]
  { e with members := members.foldl add e.members }

/-- MC_REPAIR frames of a transfer from `first` on, to each member beneath a pruned branch: those issued now, the rest as
they are issued. -/
def State.repair (s : State) (g : Group) (flow tag : Nat) (first : BitVec 32) (members : List Nat) : State :=
  match s.srcFlow 0 flow (some g.id) with
  | none => s
  | some e =>
    let us := e.unacked.filter fun u =>
      u.tag == tag && seqUpTo first u.fseq && !e.backlog.any fun f => fSeq f == u.fseq
    let e := { e with repairs := (e.repairs.filter fun r => r.1 == tag) ++ [(tag, members)] }
    match us.getLast? with
    | none => s.setSrcFlow e
    | some last => forEach us (fun s u => s.repairFrame g.id flow u members)
        (s.setSrcFlow (e.underRepair members last.fseq))

/-! ## Replication and pruning (R281, R282, R284) -/

/-- Change the branches of this device. -/
def State.mapBranches (s : State) (f : Branch → Branch) : State :=
  { s with hnx := { s.hnx with branches := s.hnx.branches.map f } }

/-- Whether a frame's transfer is pruned on a branch. -/
def Branch.skips (b : Branch) (f : Frame) : Bool := fType f == 10 && b.pruned.contains (fFlow f, fTag f)

/-- What a prune brings about for one transfer: the source repairs, any other device tells the source (R282, R283). `f` is
the first frame not sent. -/
def State.pruned (s : State) (g : Group) (port : Nat) (f : Frame) : State :=
  match g.upstream with
  | none => s.repair g (fFlow f) (fTag f) (fSeq f) (groupUnder g s.cfg.device port)
  | some up => s.enqueueTree up (mkFrame 13 0 0 false s.cfg.device (fSrc f) (fFlow f) 0 0 0 g.id
      (leBytes 8 ((fSeq f).toNat + s.cfg.device * 2 ^ 32 + port * 2 ^ 48) ++ leBytes 8 (fTag f)))

/-- Prune a branch for the transfer of `f`, its first frame not sent there. -/
def State.pruneFor (s : State) (g : Group) (port : Nat) (f : Frame) : State :=
  let s := s.mapBranches fun b =>
    if b.group = g.id && b.port = port then
      { b with pruned := (b.pruned.filter fun t => t.1 != fFlow f) ++ [(fFlow f, fTag f)] }
    else b
  ((s.bump .hnxMcCntPrunes).pruned g port f).updateMc g.id (fSrc f) (fFlow f)

/-- A branch's frames leave while its port can send them. `n` bounds them. -/
def State.pumpBranch (s : State) (g p : Nat) : Nat → State
  | 0 => s
  | n + 1 => match s.hnx.branches.find? fun b => b.group == g && b.port == p with
    | some { queue := f :: r, .. } =>
      let x := s.port p
      if x.state = .active && !x.moving && x.canSend f then
        let s := s.mapBranches fun b => if b.group = g && b.port = p then { b with queue := r } else b
        (s.enqueue p f).pumpBranch g p n
      else s
    | _ => s

/-- A branch on a version 1 link is pruned for every transfer (R284). -/
def State.pruneV1 (s : State) (f : Frame) : State :=
  if fType f ≠ 10 then s
  else match s.group? (fDst f % 1024) with
    | none => s
    | some g => forEach (s.hnx.branches.filter fun b => b.group == g.id) (fun s b =>
        if (s.port b.port).version = 1 && !b.skips f then s.pruneFor g b.port f else s) s

/-- Offer one frame to every branch of its group; `none` while an unpruned branch queue is full (R281). -/
def State.replicate (s : State) (f : Frame) : Option State :=
  let g := fDst f % 1024
  let s := s.pruneV1 f
  let bs := s.hnx.branches.filter fun b => b.group == g
  if bs.any (fun b => !b.skips f && decide (256 ≤ b.queue.length)) then none
  else
    let s := s.mapBranches fun b =>
      if b.group = g && !b.skips f then
        { b with queue := b.queue ++ [f],
                 pruned := if fType f = 10 then b.pruned.filter fun t => t.1 != fFlow f else b.pruned }
      else b
    some (forEach bs (fun s b => s.pumpBranch g b.port 257) s)

/-- Frames that wait for branch queues go on in order, group by group; a received frame returns its credit as it
leaves. `n` bounds the frames, `stuck` lists the groups that cannot go on. -/
def State.drainMc (s : State) : Nat → List Nat → State
  | 0, _ => s
  | n + 1, stuck =>
    match s.hnx.mcWait.find? fun w => !stuck.contains (fDst w.2.2 % 1024) with
    | none => s
    | some w => match s.replicate w.2.2 with
      | none => s.drainMc n (fDst w.2.2 % 1024 :: stuck)
      | some s =>
        let s := { s with hnx := { s.hnx with mcWait := s.hnx.mcWait.erase w } }
        let s := if w.1 = 0 then s else s.giveCredit (w.1 - 1) w.2.1
        s.drainMc n stuck

/-- Branch queues and what waits for them go on. -/
def State.pumpMc (s : State) : State :=
  let s := forEach s.hnx.branches (fun s b => s.pumpBranch b.group b.port 257) s
  s.drainMc s.hnx.mcWait.length []

/-- Deliver a multicast frame at a member (R278, R280, R281): MC_WRITE before its MC_OPEN waits in the reorder pool. -/
def State.deliverMc (s : State) (p : Nat) (f : Frame) (check : LineCheck) : State :=
  match s.group? (fDst f % 1024) with
  | none => s
  | some g =>
    if !g.member then s
    else if fType f = 7 then s.handleSignal f p false check
    else match s.dstFlow (fSrc f) (fFlow f) with
      | some d => s.takeSeq d f .clean
      | none =>
        if s.poolRoom f then { s with hnx := { s.hnx with unopened := s.hnx.unopened ++ [f] } } else s.sendNack f 6

/-- A multicast frame enters the replicator, and is delivered where this device is a member. -/
def State.enterMc (s : State) (inPort credit : Nat) (f : Frame) (check : LineCheck) : State :=
  let s := s.deliverMc (inPort - 1) f check
  let s := { s with hnx := { s.hnx with mcWait := s.hnx.mcWait ++ [(inPort, credit, f)] } }
  s.drainMc s.hnx.mcWait.length []

/-- MC_OPEN at this device (R280, R284): a member's entry opens with what waited for it, and the frame goes on to every
branch; a version 1 branch is logged once for its group. `origin` and `credit` are the port it came in on + 1 and its credit,
which goes back as the last copy leaves (R266). -/
def State.openMc (s : State) (f : Frame) (origin credit : Nat) : State :=
  match s.group? (fDst f % 1024) with
  | none => if origin = 0 then s else s.giveCredit (origin - 1) credit
  | some g =>
    let q := fSeq f
    let flow := fFlow f
    let s := s.mapBranches fun b =>
      if b.group = g.id then { b with lastAck := (flow, q - 1) :: b.lastAck.filter fun a => a.1 != flow } else b
    let bs := s.hnx.branches.filter fun b => b.group == g.id
    let last := (bs.filter fun b => (s.port b.port).version != 1).getLast?
    let s := if last.isNone && origin != 0 then s.giveCredit (origin - 1) credit else s
    let s := forEach bs (fun s b =>
      if (s.port b.port).version = 1 then
        if s.hnx.v1Groups.contains g.id then s
        else
          let s := { s with hnx := { s.hnx with v1Groups := s.hnx.v1Groups ++ [g.id] } }
          (s.event .hnxMcV1 .port b.port noCtx [g.id]).bump .hnxMcCntV1Groups
      else if last == some b then s.enqueueFrom b.port f origin credit
      else s.enqueue b.port f) s
    if !g.member then s
    else match s.openDst (fSrc f) flow (some g.id) q with
      | none => s
      | some s =>
        let mine (x : Frame) : Bool := fType x == 10 && fSrc x == fSrc f && fFlow x == flow
        let early := s.hnx.unopened.filter mine
        let s := { s with hnx := { s.hnx with unopened := s.hnx.unopened.filter fun x => !mine x } }
        let s := forEach early (fun s x => match s.dstFlow (fSrc f) flow with
          | some d => s.takeSeq d x .clean
          | none => s) s
        s.afterE (fSrc f) flow false

/-- MC_STALL passes for a branch's head frame without a credit (R282): the branch is pruned for every transfer in its
queue, which is discarded. -/
def State.pruneBranch (s : State) (g : Group) (port : Nat) : State :=
  match s.hnx.branches.find? fun b => b.group == g.id && b.port == port with
  | none => s
  | some b =>
    let firsts := (b.queue.filter fun f => fType f == 10).foldl (fun (l : List Frame) f =>
      if l.any (fun x => fFlow x == fFlow f && fTag x == fTag f) then l else l ++ [f]) []
    match firsts with
    | [] => s
    | _ :: _ =>
      let s := s.mapBranches fun b => if b.group = g.id && b.port = port then
          { b with queue := [], pruned := b.pruned ++ firsts.map fun f => (fFlow f, fTag f) } else b
      let s := forEach firsts (fun s f => (s.pruned g port f).updateMc g.id (fSrc f) (fFlow f)) (s.bump .hnxMcCntPrunes)
      s.drainMc s.hnx.mcWait.length []

/-! ## Opening and sending (R273, R280) -/

/-- The open entry of a flow, opened where needed; `none` while the table is full with nothing to evict (R273). A bound
flow sends MC_OPEN first (R280). -/
def State.openFlow (s : State) (dst flow : Nat) (mc : Option Nat) : Option (State × SrcFlow) :=
  match s.srcFlow dst flow mc with
  | some e => some (s, e)
  | none =>
    let o : BitVec 32 := if mc.isNone && s.pathV1 dst then 0 else BitVec.ofNat 32 s.time
    let e : SrcFlow := { dst := if mc.isSome then 0 else dst, flow := flow, mc := mc, n := o, u := o, opened := o,
                         sync := true, unacked := [], lost := false, sigWait := [], used := s.time, transfer := 0,
                         backlog := [], waiting := [], members := [], repairs := [] }
    let ready (s : State) : State × SrcFlow := match mc with
      | none => (s.setSrcFlow e, e)
      | some g => ((s.setSrcFlow e).openMc (mkFrame 11 0 0 false s.cfg.device g flow o 0 0 0 []) 0 0, e)
    if s.hnx.src.length < 16384 then some (ready s)
    else match oldestSrc (s.hnx.src.filter fun x => x.unacked.isEmpty) with
      | none => none
      | some v => some (ready { s with hnx := { s.hnx with
          src := s.hnx.src.filter (· != v), late := s.hnx.late ++ v.waiting.map fun u => (v.dst, v.flow, u) } })

/-- Hand a numbered frame of a flow to the ports: by route, or to the replicator of its group (R281). -/
def State.dispatchFrame (s : State) (e : SrcFlow) (f : Frame) : State :=
  match e.mc with
  | none => s.sendTo e.dst f
  | some _ => s.enterMc 0 0 f .clean

/-- A frame of a flow as it is sent: SYNC and TAG as the entry stands now (R273). -/
def SrcFlow.stamp (e : SrcFlow) (v1 : Bool) (f : Frame) : Frame :=
  if e.mc.isNone && e.sync && !v1 then
    withE2e (fput (fput f 7 7 1) 223 210 (fSeq f - e.opened).toNat)
  else f

/-- Send waiting frames of a flow while fewer than 16,383 are unacknowledged (R273) and the quota of their context allows
(R138); `n` bounds them. A frame of a transfer under repair is repaired as it is issued (R283). -/
def State.releaseFrames (s : State) (dst flow : Nat) (mc : Option Nat) : Nat → State
  | 0 => s
  | n + 1 => match s.srcFlow dst flow mc with
    | some e => match e.backlog with
      | [] => s
      | f :: r =>
        if 16383 ≤ e.unacked.length - e.backlog.length then s
        else match e.unacked.find? fun u => u.fseq == fSeq f with
          | none => (s.setSrcFlow { e with backlog := r }).releaseFrames dst flow mc n
          | some u =>
            if (s.ctx u.ctx).qXfer ≤ s.xferUsed u.ctx then
              s.modThread u.thread fun th => { th with st := if th.st = .ready then .stalled else th.st }
            else
              let ms := (e.repairs.filter fun x => x.1 == u.tag).flatMap (·.2)
              let s := s.setSrcFlow ({ e with backlog := r }.underRepair ms u.fseq)
              let s := s.dispatchFrame e (e.stamp (s.pathV1 e.dst) f)
              (match mc with
                | some g => s.repairFrame g flow u ms
                | none => s).releaseFrames dst flow mc n
    | none => s

/-- Every waiting frame of a flow that may be sent. -/
def State.releaseBacklog (s : State) (e : SrcFlow) : State := s.releaseFrames e.dst e.flow e.mc e.backlog.length

/-- The waiting frames of every flow go on, as a transfer has ended (R138). -/
def State.kickAll (s : State) : State :=
  forEach (s.hnx.src.filter fun e => !e.backlog.isEmpty) (fun s e => s.releaseBacklog e) s

/-- Issue a sequenced frame of a step on a flow (R273): `r` says what it reaches and whose it is. -/
def State.sendSeq (s : State) (e : SrcFlow) (ty : Nat) (r : Sent) (d : List Byte) : State × SrcFlow :=
  let tag := if e.mc.isSome then e.transfer else 0
  let cls := if e.mc.isSome then 3 else 2
  let ty := if e.mc.isSome && ty == 2 then 10 else ty
  let th := s.thread r.thread
  let pc := ((th.steps.find? fun a => a.uid == r.uid).map (·.pc)).getD th.pc
  let f := mkFrame ty cls 0 false s.cfg.device (e.mc.getD e.dst) e.flow e.n r.window r.off tag d
  let u := { r with fseq := e.n, tag := tag, ctx := th.ctx, idx := th.idx, pc := pc }
  let e := { e with n := e.n + 1, unacked := e.unacked ++ [u], used := s.time, backlog := e.backlog ++ [f] }
  let s := (s.setSrcFlow e).releaseBacklog e
  (s, (s.srcFlow e.dst e.flow e.mc).getD e)

/-- Cut `n` bytes at `off` into frames of at most 256 bytes (R261). -/
def frameCuts (off n : Nat) : List (Nat × Nat) :=
  (upTo ((n + 255) / 256)).map fun i => (off + 256 * i, min 256 (n - 256 * i))

/-- Cut a remote read at 4,096-byte blocks (R262). -/
def blockCuts (off n : Nat) : List (Nat × Nat) :=
  if n = 0 then [] else
  (upTo ((off + n - 1) / 4096 - off / 4096 + 1)).map fun i =>
    let lo := max off ((off / 4096 + i) * 4096)
    (lo, min (off + n) ((off / 4096 + i + 1) * 4096) - lo)

/-! ## Acknowledgement at the source (R226, R275, R283) -/

/-- Requests whose frames are acknowledged wait on for their answers. -/
def SrcFlow.acked (e : SrcFlow) (q : BitVec 32) : SrcFlow :=
  let done := e.unacked.filter fun u => seqUpTo u.fseq q
  { e with unacked := e.unacked.filter (fun u => !seqUpTo u.fseq q), waiting := e.waiting ++ done.filter (·.answers) }

end Sys2Proof.Machine
end

