-- ==== Sys2Proof/Machine/Issue.lean ====
section
/-! DEFINITION. Issuing a step (R119 to R121, R136, R138, R139, R140, R364): fetching it from the recipe, whether it may
begin, and its place among the thread's steps in progress. -/

namespace Sys2Proof.Machine

/-- Virtual address of a context's step (R118). -/
def Ctx.stepVa (x : Ctx) (pc : Nat) : Nat := x.recipeVa + 192 + 32 * pc

/-- The word of a thread's next step, read through the context's translation copy (log entry 13). -/
def State.fetchStep (s : State) (t : Nat) : Except Nat Nat :=
  let th := s.thread t
  let x := s.ctx th.ctx
  (s.readVirt x (x.stepVa th.pc) 32).map leNat

/-- Whether a thread has a next step to issue now: its context runs, no WAIT or PUT is unsatisfied (R120, R218). -/
def State.hasNext (s : State) (t : Nat) : Bool :=
  let th := s.thread t
  let x := s.ctx th.ctx
  s.inService && th.st != .idle && th.wait.isNone && !th.putWait &&
  (x.st == .running || x.st == .waiting) && decide (th.pc < x.nSteps) && !(s.bay (threadBay t)).upset

/-- Steps that begin only when every earlier step of the thread has completed (R120). -/
def Op.alone : Op → Bool
  | .signal | .fence | .setmode | .branch => true
  | _ => false

/-- Vector-engine steps (R137). -/
def Op.onEngine : Op → Bool
  | .vec | .route | .exit | .gate => true
  | _ => false

/-- Whether the bay's power state runs the units a step needs (R363, R364). A MATMUL in DIM or PROOF begins and waits
under R49; MOVE and GATHER need the pantry's stream buffer pool. -/
def PState.runs (p : PState) (o : Op) : Bool :=
  match o with
  | .matmul => p == .run || p == .dim || p == .proof
  | .vec | .route | .exit | .gate => p == .run || p == .dim || p == .cold
  | .move | .gather => p != .off
  | _ => true

/-- How deep a power state is (R365). -/
def PState.depth : PState → Nat
  | .run => 0
  | .dim => 1
  | .proof => 2
  | .cold => 3
  | .off => 4

/-- The state whose units take work: a block that has agreed to a deeper state takes none (R367). -/
def Bay.working (y : Bay) : PState :=
  match y.trans with
  | none => y.power
  | some t => if y.power.depth < t.target.depth then t.target else y.power

/-- Whether two byte ranges meet. -/
def rangesMeet (a n b m : Nat) : Bool := decide (0 < n) && decide (0 < m) && decide (a < b + m) && decide (b < a + n)

/-- The mask or list ranges written by the thread's steps in progress (R108). -/
def Thread.listRanges (th : Thread) : List (Nat × Nat) := th.steps.flatMap fun a => a.writes

/-- Whether a stencil reads an index from one of some ranges: it stops at the first such read. -/
def stencilMeets (s : State) (c : Ctx) (th : Thread) (rs : List (Nat × Nat)) (n need : Nat) : Bool :=
  if n = noStream then false
  else match stencilWords s c n with
    | .error _ => false
    | .ok ws =>
      let rd (p : Nat) : Except Nat Nat :=
        if rs.any fun r => rangesMeet r.1 r.2 p 4 then .error 0x1000 else readIndex s c p
      match genRun rd (envOf th) ws (some need) genBound Gen.start with
      | .error 0x1000 => true
      | _ => false

/-- Items a stream of a step may be asked for, for the search of R108. -/
def streamNeed (o : Op) (w : Nat) : Nat :=
  match o with
  | .matmul => mmVectors w * max 1 (mmPlanes w)
  | .vec => vecCount w * max 1 (vecK w)
  | .move => mvCount w
  | _ => 2 ^ 32

/-- Whether a step has a mask, and its stencil. -/
def maskStencil (o : Op) (w : Nat) : Option Nat :=
  match o with
  | .matmul => if mmMasken w then some (mmMask w) else none
  | .vec => if vecMasken w then some (vecMask w) else none
  | .move => if mvMasken w then some (mvMask w) else none
  | _ => none

/-- The data streams of a step. -/
def dataStencils (o : Op) (w : Nat) : List Nat :=
  match o with
  | .matmul => [mmIn w, mmIscale w, mmWgt w, mmOut w, mmCarry w] ++ (if mmWimg w = 2 then [] else [mmWscale w])
  | .vec => [vecA w, vecB w, vecOut w]
  | .move => [mvSrc w, mvDst w]
  | .gather => [gaIdx w, gaDst w]
  | _ => []

/-- Whether a step names a mask or list that a step in progress of the thread writes (R108). -/
def namesList (s : State) (c : Ctx) (th : Thread) (o : Op) (w : Nat) : Bool :=
  match th.listRanges with
  | [] => false
  | rs =>
    (match maskStencil o w with
      | some n => match streamItems s c th n 8 8 1 false with
        | .ok [i] => match itemVa i with
          | some va => rs.any fun r => rangesMeet r.1 r.2 va 8
          | none => false
        | _ => false
      | none => false) ||
    (dataStencils o w).any (fun n => stencilMeets s c th rs n (streamNeed o w)) ||
    (o == .exit && match s.readVirt c (stepParam w) 8 with
      | .ok b => rs.any fun r => rangesMeet r.1 r.2 (leNat b) 8
      | .error _ => false)

/-- Generators a step takes: one for each stream it names (R161). -/
def Op.streams (o : Op) (w : Nat) : List Nat :=
  ((dataStencils o w) ++ (maskStencil o w).toList).filter (· != noStream)

/-- Generators in use in a bay. -/
def State.gensUsed (s : State) (b : Nat) : Nat :=
  (s.threads.filter fun e => e.1 / 128 == b).foldl (fun n e => n + e.2.steps.foldl (fun m a => m + a.gens) 0) 0

/-- Whether the thread's next step `w` may begin (R108, R120, R161, R364). -/
def State.mayBegin (s : State) (t : Nat) (o : Op) (w : Nat) : Bool :=
  let th := s.thread t
  let b := threadBay t
  decide (th.steps.length < 4) &&
  (!(o.alone || stepOrder w) || th.steps.isEmpty) &&
  (s.bay b).working.runs o &&
  decide (s.gensUsed b + (o.streams w).length ≤ 64) &&
  !namesList s (s.ctx th.ctx) th o w

/-- Whether a READY thread can issue its next step now. -/
def State.canIssue (s : State) (t : Nat) : Bool :=
  (s.thread t).st == .ready && s.hasNext t && match s.fetchStep t with
    | .error _ => true
    | .ok w => (opOf w).any fun o => s.mayBegin t o w

/-- A thread's place in the order of issue of its bay (R136): the higher priority first, then round robin from the thread
after the one that issued last. -/
def State.issueRank (s : State) (t : Nat) : Nat :=
  (7 - (s.ctx (s.thread t).ctx).priority) * 128 + (t + 255 - (s.bay (threadBay t)).lastIssue) % 128

/-- Whether another READY thread of the bay goes before a thread (R136). -/
def State.outranked (s : State) (t : Nat) : Bool :=
  s.threads.any fun e => e.1 / 128 == threadBay t && e.1 != t && decide (s.issueRank e.1 < s.issueRank t) && s.canIssue e.1

/-- A thread's step is issued (R140): the step counter advances, the next step is the one after it. Its own counter
value is the one before the advance (DEDUCED, log entry 23). -/
def State.countIssue (s : State) (t : Nat) : State :=
  let c := (s.thread t).ctx
  let s := s.modCtx c fun x => { x with stepctr := x.stepctr + 1, stepExt := (x.stepExt + 1) % 2 ^ 64 }
  let s := (s.bump .seqIssueCntSteps (threadBay t)).modBay (threadBay t) fun y => { y with lastIssue := t % 128 }
  s.modThread t fun th => { th with pc := th.pc + 1, st := .ready }

/-- What comes of a command that names a step: it does not apply, the thread stalls, a fault, or the step begins. -/
inductive Begun where
  | no
  | stall
  | fault (code : Nat)
  | go (s : State) (w : Nat)

/-- Virtual pages the step's word, stencils and record or list lie in (R118, R130, R188). -/
def State.stepPages (s : State) (t : Nat) (o : Op) (w : Nat) : List Nat :=
  let th := s.thread t
  let x := s.ctx th.ctx
  let stencils := ((stencilFields o w).filter (· != noStream)).map fun n => x.bundleVa + x.stencils + 64 * n
  let param := if o = .route || o = .exit || o = .gate then [stepParam w] else []
  ((x.stepVa th.pc :: stencils ++ param).map (· / (2 * mib))).eraseDups

/-- A bay translates some virtual pages of a context, or one of them meets poison (R188, R192). -/
def State.translateAll (s : State) (b c : Nat) : List Nat → Option State
  | [] => some s
  | v :: l => (s.translate b c v).bind fun s => s.translateAll b c l

/-- Begin the thread's next step where it is an `o` step: not while another READY thread of its bay goes first (R136), nor
while its context finds no room in the bay's cache (R139). -/
def State.begin (s : State) (t : Nat) (o : Op) : Begun :=
  if !s.hasNext t then .no
  else match s.fetchStep t with
    | .error c => .fault c
    | .ok w =>
      if opOf w ≠ some o then .no
      else if !s.mayBegin t o w then .stall
      else if s.outranked t then .no
      else match s.cacheCtx (threadBay t) (s.thread t).ctx with
        | .full => .no
        | .bad => .fault fltMemory
        | .there s => match s.translateAll (threadBay t) (s.thread t).ctx (s.stepPages t o w) with
          | none => .fault fltMemory
          | some s => .go s w

/-- A thread is STALLED (Threads and the sharing of units). -/
def State.stall (s : State) (t : Nat) : State := s.modThread t fun th => { th with st := .stalled }

/-- A thread that has run past its last step with nothing in progress ends (R135, R150). -/
def State.maybeEnd (s : State) (t : Nat) : State :=
  let th := s.thread t
  if th.st ≠ .idle && decide ((s.ctx th.ctx).nSteps ≤ th.pc) && th.steps.isEmpty && th.wait.isNone && !th.putWait then
    s.endThread t
  else s.refreshCtx th.ctx

/-- Run a step that takes its whole effect as it issues: `f` gets the state with the step counted, the thread as it
was and the step word, and answers the next state, or a fault code with the state the fault leaves. -/
def State.instantStep (s : State) (t : Nat) (o : Op) (f : State → Thread → Nat → Except (Nat × State) State) :
    State :=
  match s.begin t o with
  | .no => s
  | .stall => s.stall t
  | .fault c => s.stepFault t c (s.thread t).pc (s.ctx (s.thread t).ctx).stepctr.toNat
  | .go s w =>
    let th := s.thread t
    let uid := (s.ctx th.ctx).stepctr.toNat
    let s := s.countIssue t
    match f s th w with
    | .error (c, s') => (s.byThread t s').stepFault t c th.pc uid
    | .ok s' => (s.byThread t s').maybeEnd t

/-- A fresh step in progress. -/
def Active.start (th : Thread) (uid pc w begun gens engine : Nat) : Active :=
  { uid := uid, pc := pc, word := BitVec.ofNat 256 w, begun := begun, vectors := 0, dealt := [], repeats := [],
    started := [], live := [], outs := [], adds := [], ranges := [], ctr := th.ctr, consumed := th.consumed,
    inflight := 0, pieces := 0, asked := [], ready := [], nextOut := 0, ran := false, gens := gens, done := true, writes := [],
    pairs := [], atoms := [], opnd := [], swapped := true,
    operands := none, engine := engine }

/-- The thread a step's generators see: its counters and consumed count as the step began (R153). -/
def Active.env (a : Active) : Thread := { Thread.reset with ctr := a.ctr, consumed := a.consumed }

/-- The vector engine of a bay first able to take a step, engine 2b on a tie (R137). -/
def State.pickEngine (s : State) (b : Nat) : Nat :=
  let busy (e : Nat) : Bool := s.threads.any fun x => x.1 / 128 == b && x.2.steps.any fun a =>
    a.engine == e && ((opOf a.word.toNat).any Op.onEngine)
  if !busy (2 * b) then 2 * b else if !busy (2 * b + 1) then 2 * b + 1 else 2 * b

/-- Run a step that stays in progress: `f` gets the state with the step counted and listed, the thread as it was,
the step word and its step counter, and answers the next state, or a fault code with the state the fault leaves. -/
def State.longStep (s : State) (t : Nat) (o : Op)
    (f : State → Thread → Nat → Nat → Except (Nat × State) State) : State :=
  match s.begin t o with
  | .no => s
  | .stall => s.stall t
  | .fault c => s.stepFault t c (s.thread t).pc (s.ctx (s.thread t).ctx).stepctr.toNat
  | .go s w =>
    let th := s.thread t
    let uid := (s.ctx th.ctx).stepctr.toNat
    let a := Active.start th uid th.pc w s.time (o.streams w).length (s.pickEngine (threadBay t))
    let s := (s.countIssue t).modThread t fun th => { th with steps := th.steps ++ [a] }
    match f s th w uid with
    | .error (c, s') => (s.byThread t s').stepFault t c th.pc uid
    | .ok s' => s.byThread t s'

/-- Change a step in progress. -/
def State.modStep (s : State) (t uid : Nat) (f : Active → Active) : State :=
  s.modThread t fun th => { th with steps := th.steps.map fun a => if a.uid = uid then f a else a }

def Thread.step? (th : Thread) (uid : Nat) : Option Active := th.steps.find? fun a => a.uid == uid

end Sys2Proof.Machine
end

