-- ==== Sys2Proof/Machine/Sync.lean ====
section
/-! DEFINITION. SIGNAL, WAIT, FENCE, SETMODE, BRANCH and what ends them; the watch units (R121, R122, R131 to R135,
R201 to R226). -/

namespace Sys2Proof.Machine

/-! ## SIGNAL (R121, R131, R202, R218, R223) -/

/-- Release every earlier step of a thread and write its restart record (R121, R142). -/
def State.releaseThread (s : State) (t : Nat) (put : Option Nat) : State :=
  let s : State := { s with issued := s.issued.map fun i => if i.thread = t then { i with released := true } else i }
  let th := s.thread t
  let s := s.modBay (threadBay t) fun y => { y with
    released := (th.ctx, s.time) :: y.released.filter fun e => e.1 != th.ctx && decide (s.time ≤ e.2 + 10000) }
  s.modCtx th.ctx fun x => x.setRestart th.idx
    { step := th.pc, pred := th.pred, putPending := put.isSome, putStep := put.getD 0, ctr := th.ctr,
      consumed := th.consumed }

/-- Put a waiting operation behind those that came before it: of one tick, by thread number (R199). -/
def insertFeOp (o : FeOp) : List FeOp → List FeOp
  | [] => [o]
  | x :: r => if x.since = o.since && decide (o.thread < x.thread) then o :: x :: r else x :: insertFeOp o r

/-- A tagged operation starts to wait (R199). Operations that arrive in one tick of device time count as of one cycle
(DESIGN CHOICE, log entry 44). -/
def State.addFeOp (s : State) (o : FeOp) : State := { s with feOps := insertFeOp { o with since := s.time } s.feOps }

/-- PUT of a value on a tagged word (R199, R218): it completes, or waits behind earlier operations. -/
def State.putWord (s : State) (t a v : Nat) : State :=
  if s.isFull a || (s.feOldest a true).isSome then
    let s := s.addFeOp { bay := threadBay t, addr := a, thread := t, put := true, value := BitVec.ofNat 64 v, since := 0 }
    s.modThread t fun th => { th with putWait := true, st := .stalled }
  else (s.writeWord false a v).setFull a true

/-- A signal frame of a flow (R223, R273): FSEQ is the last sequenced frame issued; LOST where `lost`. -/
def State.sendSignal (s : State) (e : SrcFlow) (fseq : BitVec 32) (n window off : Nat) (lost : Bool) : State :=
  let sync := e.sync && e.mc.isNone && !s.pathV1 e.dst
  let tag := if sync then (fseq + 1 - e.opened).toNat else 0
  let f := mkFrame 7 (if e.mc.isSome then 3 else 1) (boolNat lost) sync s.cfg.device (e.mc.getD e.dst) e.flow fseq
    window off tag (leBytes 8 (n % 2 ^ 32))
  let s := if lost then s.bump .wchHoldCntLostTx else s
  s.dispatchFrame e f

/-- A remote SIGNAL (R222, R223, R226): sent, or held here on a version 1 path until its writes are acknowledged. -/
def State.remoteSignal (s : State) (t dev window off flow n : Nat) : Except (Nat × State) State :=
  let mc := (s.boundGroup flow).map (·.id)
  let lost := (s.thread t).lostMark
  if dev = s.cfg.device && mc.isNone then
    match s.windowAddr dev window off 8 .write with
    | none => .error (fltTranslation, s.windowReject dev window)
    | some a =>
      if off % 8 ≠ 0 then .error (fltAlignment, s)
      else if s.readsBad a 8 then .error (fltMemory, s)
      else
        let s := s.modThread t fun th => { th with lostMark := false }
        if lost then .ok ((s.bump .wchHoldCntLostTx).deliverLost a dev flow)
        else match s.signalAdd false a n (bayOfAddr a) with
          | some s => .ok s
          | none => .error (fltMemory, s)
  else if mc.isNone && (s.routeTo dev).isNone then .error (fltTranslation, s)
  else match s.openFlow dev flow mc with
    | none => .error (0, s)
    | some (s, e) =>
      let s := s.modThread t fun th => { th with lostMark := false }
      if mc.isNone && s.pathV1 dev && !e.unacked.isEmpty then
        .ok (s.setSrcFlow { e with sigWait := e.sigWait ++ [(e.n - 1, n, window, off, lost)], used := s.time })
      else .ok ((s.setSrcFlow { e with used := s.time }).sendSignal e (e.n - 1) n window off lost)

/-- Whether a remote SIGNAL finds a source flow entry, now or by eviction (R273). -/
def State.flowReady (s : State) (dev flow : Nat) : Bool :=
  (s.openFlow dev flow ((s.boundGroup flow).map (·.id))).isSome

/-- Whether a SIGNAL must wait before it issues: a tagged bay holding 256 waiting operations (R199), a full source flow
table (R273), or a pantry word while the bay is OFF (R364). -/
def State.signalStalls (s : State) (t w : Nat) : Bool :=
  let th := s.thread t
  match (s.ctx th.ctx).syncOf (sgSid w) with
  | some { sig := .put b a, .. } =>
    b == threadBay t && ((s.bay b).power == .off ||
      ((s.isFull a || (s.feOldest a true).isSome) && decide (256 ≤ s.feWaiting b)))
  | some { sig := .remote d _ _ f, .. } =>
    ((s.boundGroup f).isSome || (d != s.cfg.device && (s.routeTo d).isSome)) && !s.flowReady d f
  | _ => false

/-- The first word a thread's pending consumes reach, as host or device and address (R122). -/
def State.firstConsume (s : State) (th : Thread) : Option (Bool × Nat) :=
  match th.pend with
  | [] => none
  | p :: _ => match (s.ctx th.ctx).syncOf p.1 with
    | some { sig := .own h a, .. } => some (h, a)
    | _ => none

/-- The effect of a SIGNAL as it issues (R121, R122, R202, R209, R218, R223). `check` is what the read of its own word finds,
or of the first word it takes a consume from where it has none on this device (R192). -/
def signalEffect (t : Nat) (check : LineCheck) (s : State) (th : Thread) (w : Nat) : Except (Nat × State) State :=
  let x := s.ctx th.ctx
  let b := threadBay t
  match x.syncOf (sgSid w) with
  | none => .error (fltSync, s)
  | some e =>
    match e.sig with
    | .put pb _ => if pb ≠ b then .error (fltSync, s) else run s e
    | _ => run s e
where
  /-- Commit, release, then the addition or the PUT. -/
  run (s : State) (e : SyncEntry) : Except (Nat × State) State :=
    let n := sgN w
    let (s, read) := match e.sig, s.firstConsume th with
      | .own h a, _ => s.checkWord h a check
      | _, some p => s.checkWord p.1 p.2 check
      | _, none => (s, true)
    let (s, ok) := if read then s.commitConsumes t else (s, false)
    if !ok then .error (fltMemory, s)
    else
      let s := s.commitTakes t
      match e.sig with
      | .own h a =>
        let s := s.releaseThread t none
        if n = 0 then .ok s
        else match s.signalAdd h a n (threadBay t) with
          | some s => .ok s
          | none => .error (fltMemory, s)
      | .put _ a =>
        let s := s.putWord t a n
        .ok (s.releaseThread t (if (s.thread t).putWait then some th.pc else none))
      | .remote d win off flow =>
        let s := s.releaseThread t none
        if n = 0 then .ok s
        else s.remoteSignal t d win off flow n

/-- SIGNAL. -/
def execSignal (t : Fin 512) (check : LineCheck) (s : State) : Out :=
  match s.begin t .signal with
  | .go _ w => if s.signalStalls t w then .next (s.stall t) else .next (s.instantStep t .signal (signalEffect t check))
  | _ => .next (s.instantStep t .signal (signalEffect t check))

/-- PUT_COMPLETE: the oldest waiting PUT of an empty word completes, and the restart record is updated (R199, R218). -/
def execPutComplete (t : Fin 512) (s : State) : Out :=
  match s.feOps.find? fun o => o.thread == t.val && o.put with
  | none => .next s
  | some o =>
    if s.isFull o.addr || s.feOldest o.addr true ≠ some o then .next s
    else
      let s : State := { s with feOps := s.feOps.erase o }
      let s := (s.writeWord false o.addr o.value.toNat).setFull o.addr true
      let th := s.thread t
      let s := s.modCtx th.ctx fun x => match x.restart th.idx with
        | some r => x.setRestart th.idx { r with putPending := false, putStep := 0 }
        | none => x
      .next ((s.modThread t fun th => { th with putWait := false, st := if th.st = .idle then .idle else .ready }).maybeEnd t)

/-! ## WAIT (R122, R132, R204, R209, R215 to R219, R366) -/

/-- A TAKE reserves its word (R219): counter 3, the predicate and the reservation. -/
def State.reserve (s : State) (t a : Nat) : State :=
  let v := s.readNat a 8
  (s.setReserved a (t + 1)).modThread t fun th =>
    { th with ctr := th.ctr.set 3 (BitVec.ofNat 32 v), pred := true, taken := th.taken ++ [a] }

/-- A TAKE that waited reads a word in error: its step faults with MEMORY (R197). -/
def State.takeFault (s : State) (t : Nat) : State :=
  let th := s.thread t
  (s.modThread t fun th => { th with wait := none }).stepFault t fltMemory (th.pc - 1) ((th.wait.map (·.uid)).getD 0)

/-- Whether a TAKE may reserve now: full, reserved to no other, no TAKE ahead of it. -/
def State.takeReady (s : State) (a : Nat) : Bool := s.isFull a && s.reservedTo a == 0

/-- What a satisfied wait on a count does (R122, R132, R150): the predicate, and what CONS asks. -/
def State.satisfy (s : State) (t : Nat) (w : Waiting) : State :=
  let s := (if (s.thread t).st = .waiting then s.makeReady t else s).modThread t fun th =>
    { th with pred := true, wait := none,
              pend := if w.src = 0 && w.cons then th.pend ++ [(w.sid, w.target)] else th.pend,
              consumed := if w.src = 1 && w.cons then th.consumed + w.target else th.consumed }
  if w.src = 1 && w.cons then s.publish (s.thread t).ctx else s

/-- The thread waits. -/
def State.block (s : State) (t : Nat) (w : Waiting) : State :=
  s.modThread t fun th => { th with wait := some w, st := .waiting }

/-- The power state a mode value names (R134). -/
def pstateOf : Nat → PState
  | 0 => .run
  | 1 => .dim
  | 2 => .proof
  | 3 => .cold
  | _ => .off

/-- Whether an identifier has a wait mapping in a bay (R208, R210). -/
def SyncEntry.waitsIn (e : SyncEntry) (b : Nat) : Bool := e.slots.any (fun x => x.1 == b) || e.polled.contains b

/-- The effect of a WAIT as it issues; `check` is what the read of its word finds (R192). -/
def waitEffect (t : Nat) (check : LineCheck) (s : State) (th : Thread) (w : Nat) : Except (Nat × State) State :=
  let x := s.ctx th.ctx
  let b := threadBay t
  let q : Waiting := { src := wtSrc w, sid := wtSid w, target := wtTarget w, cons := wtCons w, timeout := wtTimeout w,
                       since := s.time, hit := false, uid := (x.stepctr - 1).toNat }
  match wtSrc w with
  | 0 => match x.syncOf (wtSid w) with
    | none => .error (fltSync, s)
    | some e => match e.sig with
      | .own h a =>
        if !e.waitsIn b then .error (fltSync, s)
        else
        let (s, read) := s.checkWord h a check
        if !read || (!h && s.readsBad a 8) then .error (fltMemory, s)
        else if waitHolds th q (s.waitedCount h a) then .ok (s.satisfy t q)
        else .ok (s.block t q)
      | .put pb a =>
        if pb ≠ b then .error (fltSync, s)
        else
        let s := s.checkAt a check .stepOrLarder
        if s.readsBad a 8 then .error (fltMemory, s)
        else if s.takeReady a && (s.feOldest a false).isNone then .ok (s.reserve t a)
        else
          let s := s.addFeOp { bay := b, addr := a, thread := t, put := false, value := 0, since := 0 }
          .ok (s.block t q)
      | .remote _ _ _ _ => .error (fltSync, s)
  | 1 =>
    let a := s.portalWord x.portal x.entry 8
    let s := s.checkAt a check .stepOrLarder
    if s.readsBad a 8 then .error (fltMemory, s)
    else if waitHolds th q (s.readNat a 8) then .ok (s.satisfy t q)
    else .ok (s.block t q)
  | _ =>
    let y := s.bay b
    if y.power = pstateOf th.mode && y.trans.isNone then .ok (s.modThread t fun th => { th with pred := true })
    else .ok (s.block t q)

/-- Whether a WAIT must stall before it issues: a TAKE beyond 256 waiting operations (R199), or while the bay is OFF. -/
def State.waitStalls (s : State) (t w : Nat) : Bool :=
  let th := s.thread t
  wtSrc w == 0 && match (s.ctx th.ctx).syncOf (wtSid w) with
    | some { sig := .put b a, .. } =>
      b == threadBay t && ((s.bay b).power == .off ||
        (!(s.takeReady a && (s.feOldest a false).isNone) && decide (256 ≤ s.feWaiting b)))
    | _ => false

/-- WAIT. -/
def execWait (t : Fin 512) (check : LineCheck) (s : State) : Out :=
  match s.begin t .wait with
  | .go _ w => if s.waitStalls t w then .next (s.stall t) else .next (s.instantStep t .wait (waitEffect t check))
  | _ => .next (s.instantStep t .wait (waitEffect t check))

/-- A wake is timed (WCH_WAKE): its latency is a free value up to the figure of R215 (log entry 12); a wake by a POLLED
mapping does not count for MAX_NS. -/
def State.timeWake (s : State) (b bound : Nat) (polled : Bool) : State :=
  let v := (Config.unstated s.free).toNat % (bound + 1)
  let s := (s.drawn 1).setFld .wchWakeLastNs b v
  if polled then s else s.raise .wchWakeMaxNs b v

/-- The longest wake of a wait (R211, R215). -/
def wakeBound (host polled : Bool) : Nat :=
  if polled then (if host then 5000 else 3000) else if host then 1000 else 40

/-- WAIT_SATISFIED: a change satisfied a thread's WAIT on a signal word or ready word (R204, R214, R217). -/
def execWaitSatisfied (t : Fin 512) (s : State) : Out :=
  let th := s.thread t
  match th.wait with
  | none => .next s
  | some w =>
    if !w.hit then .next s
    else
      let polled := waitPolled s th w (threadBay t)
      let host := (waitWord s th w).any (·.1)
      .next (((s.satisfy t w).timeWake (threadBay t) (wakeBound host polled) polled).maybeEnd t)

/-- A waiting TAKE reserves its word, and its thread goes on (R199, R219). -/
def State.takeNow (s : State) (t : Nat) (o : FeOp) : State :=
  let s : State := { s with feOps := s.feOps.erase o }
  if s.readsBad o.addr 8 then s.takeFault t
  else (((s.reserve t o.addr).modThread t fun th => { th with wait := none }).makeReady t).timeWake (threadBay t) 65535 false

/-- The waiting TAKE of a thread, where its word is full for it now. -/
def State.takeDue (s : State) (t : Nat) : Option FeOp :=
  (s.feOps.find? fun o => o.thread == t && !o.put).filter fun o =>
    s.takeReady o.addr && s.feOldest o.addr false == some o

/-- WAIT_TIMEOUT: TIMEOUT expires before the WAIT is satisfied; a TAKE is withdrawn (R132, R216, R219, R366). A change that
has come by then wins, of a TAKE too; commands of one tick act in the order of the queue (DESIGN CHOICE, log entry 44). -/
def execWaitTimeout (t : Fin 512) (s : State) : Out :=
  let th := s.thread t
  match th.wait with
  | none => .next s
  | some w =>
    if w.timeout = 0 || w.hit then .next s
    else
      match s.takeDue t with
      | some o => .next ((s.takeNow t o).maybeEnd t)
      | none =>
        let s := s.withdrawTagged t false
        let s := (s.modThread t fun th => { th with pred := false, wait := none }).makeReady t
        .next (((s.bump .wchEventCntTimeouts (threadBay t)).timeWake (threadBay t) 40 false).maybeEnd t)

/-- TAKE_RESERVE: the oldest waiting TAKE of a full word reserves it (R199, R219). -/
def execTakeReserve (t : Fin 512) (s : State) : Out :=
  match s.takeDue t with
  | none => .next s
  | some o => .next ((s.takeNow t o).maybeEnd t)

/-- Waits with SRC = 2 of a bay's threads, whose mode is `m`, resolve with a predicate (R366). -/
def State.resolvePower (s : State) (b : Nat) (m : Nat → Bool) (pred : Bool) : State :=
  forEach ((upTo 128).map (· + 128 * b)) (fun s t =>
    let th := s.thread t
    match th.wait with
    | some { src := 2, .. } =>
      if m th.mode then
        ((s.modThread t fun th => { th with pred := pred, wait := none }).makeReady t).maybeEnd t
      else s
    | _ => s) s

/-! ## FENCE, SETMODE, BRANCH (R133 to R135, R220) -/

/-- FENCE: a drain request for the thread's bursts, and a wait for the visibility of its writes (R89, R220). -/
def execFence (t : Fin 512) (s : State) : Out :=
  .next (s.longStep t .fence fun s _ _ uid => .ok (s.modStep t uid fun a => { a with done := false }))

/-- Whether every write of the thread that a scope covers is visible: none waits for a host response (R220, R238), and for the fabric
scope every frame of the thread is acknowledged or lost (R222). -/
def State.fenceHolds (s : State) (t scope : Nat) : Bool :=
  let b := threadBay t
  (s.cxl.held.all fun h => h.thread != t + 1 || (scope == 0 && bayOfAddr h.addr != b)) &&
  (scope != 2 || s.hnx.src.all fun e => e.unacked.all fun u => u.thread != t)

/-- FENCE_COMPLETE (R220). -/
def execFenceComplete (t : Fin 512) (s : State) : Out :=
  match (s.thread t).steps.find? fun a => opOf a.word.toNat == some .fence with
  | none => .next s
  | some a =>
    if s.fenceHolds t (fnScope a.word.toNat) then
      .next ((s.modThread t fun th =>
        { th with steps := th.steps.erase a, st := if th.st = .stalled then .ready else th.st }).maybeEnd t)
    else .next s

/-- SETMODE: the thread's mode bits (R134). -/
def execSetmode (t : Fin 512) (s : State) : Out :=
  .next (s.instantStep t .setmode fun s _ w => .ok (s.modThread t fun th => { th with mode := smState w }))

/-- The effect of a BRANCH (R135); `check` is what the read of the first word an END takes a consume from finds (R192). -/
def branchEffect (t : Nat) (check : LineCheck) (s : State) (th : Thread) (w : Nat) : Except (Nat × State) State :=
  let goto (s : State) : State := s.modThread t fun th => { th with pc := brTarget w }
  match brCond w with
  | 0 => .ok (goto s)
  | 1 => .ok (if th.pred then goto s else s)
  | 2 => .ok (if th.pred then s else goto s)
  | 3 =>
    let v := th.ctr.getD (brC w) 0 - 1
    let s := s.modThread t fun th => { th with ctr := th.ctr.set (brC w) v }
    .ok (if v = 0 then s else goto s)
  | 4 => .ok (s.modThread t fun th => { th with ctr := th.ctr.set (brC w) (BitVec.ofNat 32 (brImm w)) })
  | _ =>
    let (s, read) := match s.firstConsume th with
      | some p => s.checkWord p.1 p.2 check
      | none => (s, true)
    if read then .ok (s.endThread t) else .error (fltMemory, s)

/-- BRANCH. -/
def execBranch (t : Fin 512) (check : LineCheck) (s : State) : Out :=
  .next (s.instantStep t .branch (branchEffect t check))

/-! ## Watch units (R210 to R214) -/

/-- WATCHED_WORD_WRITE: the watch unit reads the word and re-evaluates every waiter of its slot (R212). -/
def execWatchedWordWrite (addr : BitVec 48) (s : State) : Out :=
  .next (s.evalWaiters false allBays false (addr.toNat / 8 * 8))

/-- Words with POLLED mappings that threads of a bay wait on. -/
def State.polledWords (s : State) (b : Nat) : List (Bool × Nat) :=
  (s.threads.filterMap fun e => if e.1 / 128 = b then
      match e.2.wait with
      | some w => if waitPolled s e.2 w b then waitWord s e.2 w else none
      | none => none
    else none).eraseDups

/-- POLLED_WORD_READ: the watch unit of a bay reads each word with a POLLED mapping on which a thread waits (R211). -/
def execPolledWordRead (b : Fin 4) (s : State) : Out :=
  .next (if s.onPhase 20000 0 then forEach (s.polledWords b) (fun s p => s.evalWaiters true [b.val] p.1 p.2) s else s)

/-- HOST_LINE_INVALIDATE: the host has written a line; the device rereads it where it watches it and re-evaluates the
waiters (R213). -/
def execHostLineInvalidate (line : BitVec 46) (data : List Byte) (s : State) : Out :=
  let a := line.toNat * 64
  let s := s.hostStore a (data.take 64)
  .next (forEach (upTo 8) (fun s i => s.evalWaiters false allBays true (a + 8 * i)) s)

end Sys2Proof.Machine
end

