-- ==== Sys2Proof/Machine/Streams.lean ====
section
/-! DEFINITION. Streams in flight, the pool, the larder and the attic (R161 to R178), and the end of a step (R120). -/

namespace Sys2Proof.Machine

/-! ## Transfers (R164, R165) -/

/-- Bytes of the stream buffer pool of a bay (R165). -/
def poolSize : Nat := 8 * mib

/-- A byte range an item stands for: its EMIT, hint, place among its piece's vectors, host memory or not, address,
bytes. -/
structure ItemRange where
  emit : Nat
  hint : Nat
  pos : Nat
  host : Bool
  addr : Nat
  page : Nat
  len : Nat

/-- The ranges of an item of `z` bytes within 4,096-byte blocks; none for a null item. -/
def itemRanges (c : Ctx) (z pos : Nat) (i : Item) : List ItemRange :=
  match itemVa i with
  | none => []
  | some va => match c.pieces false va z with
    | .error _ => []
    | .ok ps => ps.flatMap fun p => (blockCuts p.addr p.len).map fun x =>
        { emit := i.2.2, hint := i.2.1, pos := pos, host := p.host, addr := x.1, page := p.page, len := x.2 }

/-- Merge a range into the one before it where both are of one EMIT, follow each other and lie in one block. -/
def mergeRange (l : List (ItemRange × Nat)) (r : ItemRange) : List (ItemRange × Nat) :=
  match l with
  | (q, past) :: rest =>
    if q.emit == r.emit && q.hint == r.hint && q.host == r.host && q.page == r.page && q.addr + q.len == r.addr &&
        q.addr / 4096 == r.addr / 4096 then ({ q with len := q.len + r.len }, r.pos + 1) :: rest
    else (r, r.pos + 1) :: (q, past) :: rest
  | [] => [(r, r.pos + 1)]

/-- The transfers of some items, each with its place: whole lines, with no pool space in the bay's own pantry (R165). -/
def transfersOf (c : Ctx) (b piece z : Nat) (items : List (Item × Nat)) : List Xfer :=
  let rs := (items.flatMap fun i => itemRanges c z i.2 i.1).foldl mergeRange []
  rs.reverse.map fun e =>
    let lo := e.1.addr / 64 * 64
    let n := (e.1.addr + e.1.len + 63) / 64 * 64 - lo
    { host := e.1.host, addr := lo, page := e.1.page, len := n,
      pool := if !e.1.host && targetOf lo == .pantry b then 0 else n,
      hint := e.1.hint, piece := piece, first := e.1.pos, past := e.2, waits := [], attic := 0 }

/-- Pool bytes in use. -/
def Bay.poolUsed (y : Bay) : Nat := y.streams.foldl (fun n x => n + x.poolBytes) 0

/-- MATMUL inputs wait in the pool for their burst (R166); the unit of every other read takes data as it arrives. -/
def StreamName.isInput : StreamName → Bool
  | .sIn | .sIscale => true
  | _ => false

/-! ## The larder (R169 to R173) -/

/-- Set of a line: 4,096 sets of 512-byte lines (R169). -/
def larderSet (line : Nat) : Nat := line % 4096

/-- Install a line (R171): an invalid way, else the least recently used normal line, else the least recently used
protected one; a set at its protected limit turns its oldest protected line into a normal one. -/
def larderInstall (ways : Nat) (l : List LarderLine) (line : Nat) (prot : Bool) : List LarderLine :=
  let l := l.filter fun x => x.line != line
  let inSet (x : LarderLine) : Bool := larderSet x.line == larderSet line
  let prots := l.filter fun x => inSet x && x.prot
  -- the demoted line becomes the most recently used normal line
  let l := if prot && decide (ways ≤ prots.length) then
      match prots.getLast? with
      | some v => { v with prot := false } :: l.filter (· != v)
      | none => l
    else l
  let prot := prot && decide (0 < ways)
  let l := if (l.filter inSet).length < 16 then l
    else match (l.filter fun x => inSet x && !x.prot).getLast?, (l.filter inSet).getLast? with
      | some v, _ => l.filter (· != v)
      | none, some v => l.filter (· != v)
      | none, none => l
  { line := line, prot := prot } :: l

/-- A read of a larder line: a hit, a merge with a fill in flight, or a miss, which starts a fill where the hint
allocates (R169, R170, R172). Answers whether the read waits for a fill. -/
def State.larderRead (s : State) (b line : Nat) (weight : Bool) (hint : Nat) : State × Bool :=
  let y := s.bay b
  if y.flushing then (s, false)
  else match y.larder.find? fun x => x.line == line with
    | some x => ((s.setBay b { y with larder := x :: y.larder.erase x }).bump .bayLarderHitsLines b, false)
    | none =>
      let s := s.bump .bayLarderMissesLines b
      if y.fills.any fun f => f.line == line then (s.bump .bayLarderEventsMerged b, true)
      else if hint = 1 || (hint = 0 && weight) then
        (s.modBay b fun y => { y with fills := y.fills ++ [{ line := line, prot := hint == 1, install := true }] }, true)
      else (s, false)

/-- The larder lines of a transfer: those of the cellar (R169). -/
def Xfer.lines (x : Xfer) : List Nat :=
  match x.host, targetOf x.addr with
  | false, .cellar _ => (upTo ((x.addr + x.len - 1) / 512 - x.addr / 512 + 1)).map (· + x.addr / 512)
  | _, _ => []

/-- A read transfer is issued: its lines meet the larder. -/
def State.fetch (s : State) (b : Nat) (weight : Bool) (x : Xfer) : State × Xfer :=
  x.lines.foldl (fun (r : State × Xfer) n =>
    let q := r.1.larderRead b n weight x.hint
    (q.1, if q.2 then { r.2 with waits := r.2.waits ++ [n] } else r.2)) (s, x)

/-- Read a tile ahead of its load into the larder (R167): nothing is returned to the stream, so only a hint that allocates
brings anything. -/
def State.prefetch (s : State) (b : Nat) (xs : List Xfer) : State :=
  forEach xs (fun s x => if x.hint = 2 then s else forEach x.lines (fun s n => (s.larderRead b n true x.hint).1) s) s

/-! ## Issuing transfers (R138, R164, R165, R175, R176) -/

/-- CXL.cache requests of a transfer, one for each line in host memory (R247). -/
def Xfer.requests (x : Xfer) : Nat := if x.host then x.len / 64 else 0

/-- CXL.cache requests in flight: those of the streams' transfers (R17). -/
def State.hostRequests (s : State) : Nat :=
  s.bays.foldl (fun n e => n + e.2.streams.foldl (fun m x => m + x.flight.foldl (fun k d => k + d.requests) 0) 0) 0

/-- What a stream does next. -/
inductive Next where
  | back (x : Xfer)
  | issue (x : Xfer)
  | accept (x : Xfer)
  | blocked
  | quota
  | rest

/-- A stream's next move with `free` bytes of the pool and `room` CXL.cache requests free: spilled data comes back first, in
its order; a read is issued where DEPTH, the quota, the pool and the requests to the host allow (R247); a write is issued
where the quota and the requests allow, and its data accepted where the pool allows. -/
def Stream.next (x : Stream) (free room : Nat) (quota : Bool) : Next :=
  match x.spilled, x.held, x.todo with
  | d :: _, _, _ => if d.pool ≤ free then .back d else .blocked
  | [], d :: _, t =>
    if x.write then
      if quota && decide (d.requests ≤ room) then .issue d
      else match t with
        | e :: _ => if e.pool ≤ free then .accept e else .blocked
        | [] => if quota then .rest else .quota
    else read t
  | [], [], t =>
    if x.write then match t with
      | e :: _ => if e.pool ≤ free then .accept e else .blocked
      | [] => .rest
    else read t
where
  /-- A read stream's next transfer. -/
  read (t : List Xfer) : Next :=
    match t with
    | [] => .rest
    | e :: _ =>
      if 2 ^ x.depth ≤ x.flight.length || decide (room < e.requests) then .rest
      else if !(quota || x.name.isWeight) then .quota
      else if e.pool ≤ free then .issue e else .blocked

/-- Fault a stream's step with MEMORY. -/
def State.streamFault (s : State) (x : Stream) : State :=
  match (s.thread x.thread).step? x.uid with
  | some a => s.stepFault x.thread fltMemory a.pc x.uid
  | none => s

/-- Move stream `i` of a bay on as far as it goes; `n` bounds the moves. A thread whose quota holds a transfer back is
STALLED (R138). A transfer that is issued is translated (R188). -/
def State.issueStream (s : State) (b i : Nat) : Nat → State
  | 0 => s
  | n + 1 =>
    let y := s.bay b
    match y.streams[i]? with
    | none => s
    | some x =>
      let c := (s.thread x.thread).ctx
      let put (s : State) (x : Stream) : State := s.modBay b fun y => { y with streams := y.streams.set i x }
      match x.next (poolSize - y.poolUsed) (2048 - s.hostRequests) (decide (s.xferUsed c < (s.ctx c).qXfer)) with
      | .back d => (put s { x with spilled := x.spilled.drop 1, held := x.held ++ [{ d with attic := 0 }],
                                   blockedSince := none }).issueStream b i n
      | .accept d =>
        (put s { x with todo := x.todo.drop 1, held := x.held ++ [d], blockedSince := none }).issueStream b i n
      | .issue d =>
        match s.translate b c d.page with
        | none => s.streamFault x
        | some s =>
        if x.write then
          (put s { x with held := x.held.drop 1, flight := x.flight ++ [d], blockedSince := none }).issueStream b i n
        else
          let r := s.fetch b x.name.isWeight d
          (put r.1 { x with todo := x.todo.drop 1, flight := x.flight ++ [r.2], blockedSince := none }).issueStream b i n
      | .blocked => put s { x with blockedSince := x.blockedSince.orElse fun _ => some s.time }
      | .quota => (put s { x with blockedSince := none }).modThread x.thread fun th =>
          { th with st := if th.st = .ready then .stalled else th.st }
      | .rest => put s { x with blockedSince := none }

/-- Transfers a stream has before it. -/
def Stream.moves (x : Stream) : Nat := 2 * (x.todo.length + x.held.length + x.spilled.length) + 1

/-- Every stream of a bay moves on, those of contexts of higher priority first (R228), in the order the streams began. -/
def State.regrant (s : State) (b : Nat) : State :=
  let pri (i : Nat) : Option Nat := ((s.bay b).streams[i]?).map fun x => (s.ctx (s.thread x.thread).ctx).priority
  let order := (upTo 8).reverse.flatMap fun p => (upTo (s.bay b).streams.length).filter fun i => pri i == some p
  forEach order (fun s i => s.issueStream b i ((((s.bay b).streams[i]?).map Stream.moves).getD 0)) s

/-- Every stream of every bay moves on: a quota is shared by a context's threads in all bays (R138). -/
def State.regrantAll (s : State) : State := forEach (upTo 4) (fun s b => s.regrant b) s

/-- Whether a stream of a bay is this stream of a step. -/
def Stream.is (x : Stream) (t uid : Nat) (name : StreamName) (write : Bool) : Bool :=
  x.thread == t && x.uid == uid && x.name == name && x.write == write

/-- Give a stream of a step transfers to make. -/
def State.addXfers (s : State) (t uid : Nat) (name : StreamName) (write : Bool) (depth : Nat) (xs : List Xfer) : State :=
  if xs.isEmpty || ((s.thread t).step? uid).isNone then s
  else s.modBay (threadBay t) fun y =>
    if y.streams.any fun x => x.is t uid name write then
      { y with streams := y.streams.map fun x => if x.is t uid name write then { x with todo := x.todo ++ xs } else x }
    else
      { y with streams := y.streams ++ [
        { thread := t, uid := uid, name := name, write := write,
          begun := (((s.thread t).step? uid).map (·.begun)).getD s.time, depth := depth, todo := xs, flight := [],
          held := [], spilled := [], blockedSince := none }] }

/-- DEPTH of the stencil of a stream (R154). -/
def depthOf (s : State) (c : Ctx) (n : Nat) : Nat :=
  match stencilWords s c n with
  | .ok ws => streamDepth ws
  | .error _ => 0

/-- Give a stream the transfers of some items of `z` bytes. -/
def State.openItems (s : State) (t uid : Nat) (name : StreamName) (write : Bool) (n : Nat) (items : List Item) (z : Nat) :
    State :=
  let c := s.ctx (s.thread t).ctx
  s.addXfers t uid name write (depthOf s c n) (transfersOf c (threadBay t) 0 z (items.map fun i => (i, 0)))

/-- The fill of a line has come in: no transfer of the bay waits for it. -/
def State.fillDone (s : State) (b line : Nat) : State :=
  s.modBay b fun y => { y with streams := y.streams.map fun x =>
    { x with flight := x.flight.map fun d => { d with waits := d.waits.filter (· != line) } } }

/-- LARDER_FILL_COMPLETE: the line arrives from the cellar; it is installed unless invalidated meanwhile, and the reads
that wait for it have its data. An uncorrectable error of the cellar line faults their steps (R172, R192). `check` speaks
of the first line of the fill. -/
def execLarderFillComplete (b : Fin 4) (line : Nat) (check : LineCheck) (s : State) : Out :=
  match (s.bay b).fills.find? fun f => f.line == line with
  | none => .next s
  | some f =>
    let s := s.modBay b fun y => { y with fills := y.fills.erase f }
    let waiting := (s.bay b).streams.filter fun x => x.flight.any fun d => d.waits.contains line
    match check with
    | .uncorrectable =>
      let s := s.uncorrectable (line * 8) .stepOrLarder
      .next (forEach waiting (fun s x => s.streamFault x) (s.fillDone b line))
    | _ =>
      let stack := line * 512 / (96 * gib)
      let s := if check = .corrected then s.corrected stack else if check = .retried then s.beatRetried stack else s
      let s := s.modBay b fun y =>
        if f.install && !y.flushing then
          { y with larder := larderInstall (s.fld .bayLarderCtrlProtWays b) y.larder line f.prot }
        else y
      .next (s.fillDone b line)

/-- A flush of a bay's larder starts: every line is invalid, fills in flight are not installed (R173). -/
def State.flushLarder (s : State) (b : Nat) : State :=
  s.modBay b fun y => { y with larder := [], flushing := true, fills := y.fills.map fun f => { f with install := false } }

/-- Whether the bay's power state runs the larder (R363). -/
def PState.larderOn (p : PState) : Bool := p == .run || p == .dim || p == .cold

/-- LARDER_FLUSH: a write of 1 to BAY_LARDER_CTRL.FLUSH (R173); held while the larder is powered down (R440). -/
def execLarderFlush (p : Path) (b : Fin 4) (s : State) : Out :=
  if !s.served p then .next s
  else if !(s.bay b).unitState.larderOn then
    .next (s.holdWrite p b (Reg.bayLarderCtrl.addr b) 0 (2 ^ 8 + s.fld .bayLarderCtrlProtWays b))
  else .next (s.flushLarder b)

/-- LARDER_FLUSH_DONE (R173). -/
def execLarderFlushDone (b : Fin 4) (s : State) : Out := .next (s.modBay b fun y => { y with flushing := false })

/-! ## The end of a transfer (R164, R191, R192, R197, R251, R253) -/

/-- Where the transfer of a thread that holds some bytes is: its stream and itself, the oldest in flight first. -/
def Bay.xferAt (y : Bay) (t : Nat) (write : Option Bool) (host : Bool) (a n : Nat) : Option (Nat × Stream × Xfer) :=
  y.streams.zipIdx.findSome? fun e =>
    if e.1.thread == t && write.all (· == e.1.write) then
      (e.1.flight.find? fun d => d.host == host && decide (d.addr ≤ a) && decide (a + n ≤ d.addr + d.len)).map fun d =>
        (e.2, e.1, d)
    else none

/-- Whether an address lies at an end. -/
def endHolds (e : XferEnd) (a : Nat) : Bool :=
  match e, targetOf a with
  | .host, _ => true
  | .cellar, .cellar _ => true
  | .pantry, .pantry _ => true
  | .landing, .landing => true
  | _, _ => false

/-- What the check of the data read brings about. -/
inductive Checked where
  | fine
  | fault
  | refetch

/-- The check of the data read: a line from the larder in error is fetched again (R173); the cellar, pantry, landing
buffer and host memory as R192, R197, R251 and R253 say. -/
def State.checkRead (s : State) (b a : Nat) (src : XferEnd) (check : LineCheck) : State × Checked :=
  match src with
  | .cellar =>
    if (s.bay b).larder.any fun x => x.line == a / 512 then
      match check with
      | .clean | .retried => (s, .fine)
      | .corrected => (s.bump .bayLarderEventsEccCorr b, .fine)
      | .uncorrectable =>
        let s := s.modBay b fun y => { y with larder := y.larder.filter fun x => x.line != a / 512 }
        (s.bump .bayLarderEventsEccRefetch b, .refetch)
    else match check with
      | .clean => (s, if s.poisoned (lineOf a) then .fault else .fine)
      | .retried => (s.beatRetried (a / (96 * gib)), if s.poisoned (lineOf a) then .fault else .fine)
      | .corrected => (s.corrected (a / (96 * gib)), .fine)
      | .uncorrectable => (s.uncorrectable (lineOf a) .stepOrLarder, .fault)
  | .pantry | .landing =>
    let n := bayOfAddr a
    match check with
    | .clean | .retried => (s, if s.wordBad a then .fault else .fine)
    | .corrected => (if src = .pantry then s.bump .bayPantryEccCorr n else s, .fine)
    | .uncorrectable =>
      let s : State := { s with wordErr := tset false s.wordErr (a / 8) true }
      (if src = .pantry then s.bump .bayPantryEccUncorr n else s, .fault)
  | .host =>
    match s.cacheRead check with
    | (s, true) => (s, .fine)
    | (s, false) => (s, .fault)
  | .fabric => (s, .fine)

/-- A transfer of stream `i` leaves the streams in flight: a MATMUL input stays in the pool for its burst, any other
gives its pool space back. -/
def State.endXfer (s : State) (b i : Nat) (x : Stream) (d : Xfer) : State :=
  let keep := !x.write && x.name.isInput
  s.modBay b fun y =>
    { y with streams := y.streams.set i { x with flight := x.flight.erase d,
                                                 held := if keep then x.held ++ [d] else x.held },
             lastFreed := if keep || d.pool = 0 then y.lastFreed else s.time }

/-- A transfer of a context has completed: its threads are no longer STALLED for it (R138). -/
def State.unstall (s : State) (c : Nat) : State :=
  { s with threads := s.threads.map fun e =>
      if e.2.ctx = c && e.2.st == .stalled && !e.2.putWait then (e.1, { e.2 with st := .ready }) else e }

/-- TRANSFER_COMPLETE: the transfer of the thread that holds these bytes completes, unless it waits for a fill of the
larder; the bytes read are checked (R164, R165, R172). -/
def execTransferComplete (t : Fin 512) (src : XferEnd) (addr : BitVec 48) (bytes : Nat) (check : LineCheck)
    (s : State) : Out :=
  let b := threadBay t
  let a := addr.toNat
  match (s.bay b).xferAt t none (src == .host) a bytes with
  | none => .next s
  | some (i, x, d) =>
    if !endHolds src a || (!x.write && !d.waits.isEmpty) then .next s
    else
      let wake (s : State) : State := (s.unstall (s.thread t).ctx).kickAll.regrantAll
      if x.write then .next (wake (s.endXfer b i x d))
      else match s.checkRead b a src check with
        | (s, .fine) => .next (wake (s.endXfer b i x d))
        | (s, .fault) => .next (wake ((s.endXfer b i x d).streamFault x))
        | (s, .refetch) =>
          let s := s.modBay b fun y => { y with
            fills := if y.fills.any fun f => f.line == a / 512 then y.fills
              else y.fills ++ [{ line := a / 512, prot := d.hint == 1, install := true }],
            streams := y.streams.set i { x with
              flight := x.flight.map fun e => if e = d then { e with waits := e.waits ++ [a / 512] } else e } }
          .next s

/-- The units take a MATMUL's inputs: those of a piece up to place `past` leave the pool (R165, R166). -/
def State.consume (s : State) (t uid piece past : Nat) : State :=
  let mine (x : Stream) : Bool := x.thread == t && x.uid == uid && x.name.isInput
  let used (d : Xfer) : Bool := d.piece == piece && decide (d.past ≤ past)
  s.modBay (threadBay t) fun y =>
    { y with streams := y.streams.map fun x => if mine x then { x with held := x.held.filter fun d => !used d } else x,
             lastFreed := if y.streams.any fun x => mine x && x.held.any fun d => used d && decide (0 < d.pool) then s.time
               else y.lastFreed }

/-! ## The attic (R175 to R177) -/

/-- The youngest of some streams: begun last, then the higher thread (R175). -/
def youngest (l : List (Nat × Stream)) : Option (Nat × Stream) :=
  l.foldl (fun b e => match b with
    | some x =>
      if x.2.begun < e.2.begun || (x.2.begun = e.2.begun && decide (x.2.thread < e.2.thread)) then some e else some x
    | none => some e) none

/-- What a context has in its attic: place and bytes. -/
def State.inAttic (s : State) (c : Nat) : List (Nat × Nat) :=
  (upTo 4).flatMap fun b => (s.bay b).streams.flatMap fun x =>
    if (s.thread x.thread).ctx = c then x.spilled.map fun d => (d.attic, d.len) else []

/-- The lowest place of an attic of `size` bytes where `n` bytes fit beside what it holds. -/
def atticPlace (size n : Nat) (used : List (Nat × Nat)) : Option Nat :=
  let fits (p : Nat) : Bool := decide (p + n ≤ size) && used.all fun u => decide (p + n ≤ u.1) || decide (u.1 + u.2 ≤ p)
  ((0 :: used.map fun u => u.1 + u.2).filter fits).foldl (fun r p => match r with
    | some q => some (min p q)
    | none => some p) none

/-- Places in the attic for some transfers, in order; none where they do not fit. -/
def atticPlaces (size : Nat) : List (Nat × Nat) → List Xfer → Option (List Xfer)
  | _, [] => some []
  | used, d :: r => do
    let p ← atticPlace size d.len used
    let l ← atticPlaces size (used ++ [(p, d.len)]) r
    pure ({ d with attic := p } :: l)

/-- Spill what a stream holds in the pool to its context's attic, or fault its step with ATTIC where it does not fit
(R176, R177). The bytes are those of the transfer's own place (log entry 26). -/
def State.spill (s : State) (b i : Nat) (x : Stream) : State :=
  let c := (s.thread x.thread).ctx
  let k := s.ctx c
  match atticPlaces (k.atticPages * (2 * mib)) (s.inAttic c) (x.held.filter fun d => decide (0 < d.pool)) with
  | none => match (s.thread x.thread).step? x.uid with
    | some a => s.stepFault x.thread fltAttic a.pc x.uid
    | none => s
  | some ds =>
    let n := poolOf ds
    let s := forEach ds (fun s d => s.devWrite (k.attic + d.attic) (s.readLoc d.host d.addr d.len)) s
    let s := s.modBay b fun y =>
      { y with streams := y.streams.set i { x with held := x.held.filter fun d => d.pool == 0, spilled := x.spilled ++ ds },
               lastFreed := s.time }
    let s := ((s.bump .seqSpillEvents b).bump .seqSpillMib b ((n + mib - 1) / mib)).setFld .seqSpillTimeTime b s.time
    (s.event .seqAtticSpill .thread x.thread c [n]).regrant b

/-- BLOCKED_STREAM_CHECK: streams that can move on do; with a stream blocked 20 µs and no pool space freed in that time, the youngest blocked stream
that holds pool space is spilled (R175). -/
def execBlockedStreamCheck (b : Fin 4) (s : State) : Out :=
  let s := s.regrant b
  let y := s.bay b
  let blocked := y.streams.zipIdx.filterMap fun e => if e.1.blockedSince.isSome then some (e.2, e.1) else none
  let due := blocked.any fun e => e.2.blockedSince.any fun τ => decide (τ + 20000 ≤ s.time)
  if due && decide (y.lastFreed + 20000 ≤ s.time) then
    match youngest (blocked.filter fun e => decide (0 < poolOf e.2.held)) with
    | none => .next s
    | some (i, x) => .next (s.spill b i x)
  else .next s

/-! ## The end of a step (R120, R150, R220) -/

/-- Whether a step's streams still hold or want data. -/
def State.streamsLeft (s : State) (t uid : Nat) : Bool :=
  (s.bay (threadBay t)).streams.any fun x =>
    x.thread == t && x.uid == uid && !(x.todo ++ x.flight ++ x.held ++ x.spilled).isEmpty

/-- Whether remote frames of a step are still to be issued or answered (R128, R220, R276). -/
def State.remoteLeft (s : State) (t uid : Nat) : Bool :=
  (s.hnx.src.any fun e => ((e.unacked ++ e.waiting).any fun u => u.thread == t && u.uid == uid && u.answers) ||
    (e.unacked.any fun u => u.thread == t && u.uid == uid && e.backlog.any fun f => fSeq f == u.fseq)) ||
  s.hnx.late.any fun u => u.2.2.thread == t && u.2.2.uid == uid

/-- Whether a step in progress has done all it has to do. -/
def State.stepFinished (s : State) (t : Nat) (a : Active) : Bool :=
  a.done && a.pairs.isEmpty && a.atoms.isEmpty && a.inflight == 0 && a.dealt.isEmpty && a.repeats.isEmpty &&
  !s.streamsLeft t a.uid && !s.remoteLeft t a.uid

/-- Counters of a vector engine for a step it completed (R137, VEC_RED_CNT to VEC_EXIT_CNT). -/
def State.countEngine (s : State) (a : Active) : State :=
  let w := a.word.toNat
  match opOf w with
  | some .vec => if vecFunc w = 0x10 then s.bump .vecRedCntDone a.engine else s
  | some .route => s.bump .vecRouteCntSteps a.engine
  | some .gate => s.bump .vecGateCntSteps a.engine
  | some .exit => s.bump .vecExitCntSteps a.engine
  | _ => s

/-- STEP_COMPLETE: the `k`-th step in progress of a thread completes; an ATOM MOVE sets the predicate (R120, R128). -/
def execStepComplete (t : Fin 512) (k : Nat) (s : State) : Out :=
  match (s.thread t).steps[k]? with
  | none => .next s
  | some a =>
    let w := a.word.toNat
    if !s.stepFinished t a || opOf w = some .fence then .next s
    else
      let s := (s.countEngine a).dropStreams t (some a.uid)
      let s := s.modThread t fun th =>
        { th with steps := th.steps.filter (·.uid != a.uid),
                  st := if th.st = .stalled then .ready else th.st,
                  pred := if opOf w = some .move && mvAtom w then a.swapped else th.pred }
      .next (s.maybeEnd t)

end Sys2Proof.Machine
end

