-- ==== Sys2Proof/Machine/Lattices.lean ====
section
/-! DEFINITION. Lattice states, fences, SUSPECT and its rewinds, drains, dead elements, honeycomb starts, calibration
episodes, and the power transitions that wait for drains (R39 to R53, R288, R337 to R340, R363 to R371). -/

namespace Sys2Proof.Machine

/-! ## Codes and targets -/

/-- LAT_STATE.STATE encoding. -/
def LatState.code : LatState → Nat
  | .dark => 0
  | .searching => 1
  | .locked => 2
  | .serving => 3
  | .suspect => 4
  | .draining => 5
  | .fenced => 6

/-- LAT_STATE.CAUSE of a cause of SUSPECT; the bit in LAT_STATUS.SUSPECT_NOW is this less 6. -/
def Cause.code : Cause → Nat
  | .wrongLine => 6
  | .excursion => 7
  | .rateOfRise => 8
  | .linePower => 9
  | .readout => 10

/-- TMP_COMB_STATUS.STATE encoding. -/
def CombState.code : CombState → Nat
  | .off => 0
  | .starting => 1
  | .ready => 2
  | .failed => 3
  | .rampingDown => 4

/-- The bay's power state as R39 reads it: lattices asked in the first phase of a transition drain to LOCKED, a
committed transition gives its target (R367). -/
def Bay.latPower (y : Bay) : PState :=
  match y.trans with
  | none => y.power
  | some t => if t.committed then t.target else if y.power = .run then .dim else y.power

/-- The target of a lattice (R39). -/
def State.latTarget (s : State) (l : Nat) : LatState :=
  let x := s.lat l
  let p := (s.bay (l / 2)).latPower
  let en := s.flag .latCtrlEn l
  if x.state = .fenced then .fenced
  else if p = .cold || p = .off then .dark
  else if !en && !s.flag .latCtrlKeepLit l then .dark
  else if !en || p = .dim || p = .proof then .locked
  else .serving

/-- A lattice has rings lit: SEARCHING, LOCKED, SERVING, SUSPECT or DRAINING (R40). -/
def LatState.lit : LatState → Bool
  | .dark | .fenced => false
  | _ => true

/-! ## Outages (R407 to R410) -/

/-- An outage of a lattice begins: its target is SERVING and it stopped serving for a cause that counts. -/
def State.startOutage (s : State) (l : Nat) : State :=
  s.modLat l fun x => { x with outageFrom := x.outageFrom.orElse fun _ => some s.time }

/-- The outage of a lattice ends: one of 1 ms or longer is logged, with weight 1/8. -/
def State.endOutage (s : State) (l : Nat) : State :=
  match (s.lat l).outageFrom with
  | none => s
  | some f =>
    let s := s.modLat l fun x => { x with outageFrom := none }
    let d := s.time - f
    if 1000000 ≤ d then s.outage 2 .lattice l d (d / 8) else s

/-! ## Honeycombs (R288) -/

/-- A honeycomb changes state; its PLDM state sensor reports the change (R427), and its ports go dark with it (R254). -/
def State.setCombSt (s : State) (h : Nat) (st : CombState) : State :=
  if (s.comb h).state = st then s
  else
    let s := (s.modComb h fun x => { x with state := st }).sensorChange (48 + h) st.code
    if st = .ready || st = .starting then s else s.combPortsDark h

/-- A honeycomb's bias: WEAR is its share of the maximum; AGEING is set and logged as it reaches 90 % (R291). -/
def State.setBias (s : State) (h v : Nat) : State :=
  let top := Config.maxBias h
  let ageing := decide (0 < v) && decide (90 * top ≤ 100 * v)
  let was := (s.comb h).ageing
  let s := s.modComb h fun x => { x with bias := v, wear := if top = 0 then 0 else min 100 (v * 100 / top), ageing := ageing }
  if ageing && !was then (s.event .tmpCombAgeing .comb h noCtx []).setAlert 3 else s

/-- A honeycomb starts (R288). -/
def State.startComb (s : State) (h : Nat) : State :=
  ((s.setCombSt h .starting).bump .tmpCombEventsStarts h).setBias h (s.comb h).held

/-- A honeycomb is off; one that failed to start stays FAILED. -/
def State.combOff (s : State) (h : Nat) : State :=
  let s := if (s.comb h).state = .failed then s else s.setCombSt h .off
  (s.modComb h fun x => { x with spacing := false, lowPower := false }).setBias h 0

/-- A honeycomb ramps down, unless its start failed. -/
def State.rampDown (s : State) (h : Nat) : State :=
  if (s.comb h).state = .failed then s else s.setCombSt h .rampingDown

/-! ## Calibration episodes (R337 to R339) -/

/-- CAL_STATUS.STALE of a lattice changes; DEV_STATUS_CHG follows, and EVT_ALERT.STALE is set while any is stale. -/
def State.setStale (s : State) (l : Nat) (v : Bool) : State :=
  if s.flag .calStatusStale l = v then s
  else
    let s := (s.setFld .calStatusStale l (boolNat v)).markChg 4
    if v then s.setAlert 2 else s

/-- Each locked ring's ERR gain is measured again, a free value (R328, R337). -/
def State.measureGains (s : State) (l : Nat) : State :=
  let k := s.free
  let s : State := { s with rings := s.rings.zipIdx.map fun e =>
    if e.1.1 / 131072 = l && e.1.2.st == .locked then
      (e.1.1, { e.1.2 with errGain := (Config.unstated (k + e.2)).toNat % 65536 })
    else e.1 }
  s.drawn s.rings.length

/-- A trigger of a calibration episode, in CAL_STATUS.CAUSE encoding (R337). -/
def State.startEpisode (s : State) (l cause : Nat) : State :=
  let x := s.lat l
  match x.state with
  | .locked | .serving | .suspect =>
    if x.episode.isSome then s
    else
      let s := s.modLat l fun x => { x with episode := some s.time, episodeMet := false }
      let s := if x.state = .locked then s.measureGains l else s
      (s.bump .calEventCntEpisodes l).setFld .calStatusCause l cause
  | _ => s

/-- An episode ends without converging: its lattice enters DARK or FENCED (R339). -/
def State.dropEpisode (s : State) (l : Nat) : State :=
  (s.modLat l fun x => { x with episode := none, episodeMet := false }).setStale l false

/-! ## The end of a start (R349, R352, R395, R410) -/

/-- A start still waits for a lattice: in a warm restart for one that step 2 made LOCKED. -/
def State.startWaits (s : State) (l : Nat) : Bool :=
  let x := s.lat l
  s.latTarget l == .serving && (if s.boot.kind = 2 then x.state == .locked && x.cause == 13 else x.state != .serving)

/-- STAGE changes. -/
def State.setStage (s : State) (v : Nat) : State :=
  if s.boot.stage = v then s
  else ({ s with boot := { s.boot with stage := v } }.markChg 7).sensorChange 65 v

/-- The firmware in use raises F where it commits its security version. -/
def State.commitSvn (s : State) : State :=
  match if s.boot.fwSlot = 0 then s.flash.fwA else s.flash.fwB with
  | none => s
  | some i =>
    if i.commit && decide (s.sec.svn < i.svn) then
      { s with sec := { s.sec with svn := i.svn } }.journal .svnCommit [i.svn]
    else s

/-- A cold start is complete: its time, and its outage where it follows a halt. -/
def State.coldDone (s : State) : State :=
  let us := s.time / 1000
  let halted := s.boot.afterHalt
  let s : State := { s with boot := { s.boot with coldUs := us, afterHalt := false } }
  if halted then s.outage 1 .device 0 (us * 1000) (us * 1000) else s

/-- A warm restart is complete: threads restart, what a halted start left ends, and the outage is counted. -/
def State.warmDone (s : State) : State :=
  let d := s.time - s.boot.outageFrom.getD s.time
  let s : State := { s with boot := { s.boot with
    warmUs := d / 1000, restarting := false, outageFrom := none, halt := 0,
    faultN := if s.boot.halt = 1 then false else s.boot.faultN } }
  let s := (s.markChg 9).event .evtRestartDone .device 0 noCtx []
  let s := s.outage 1 .device 0 d d
  forEach (upTo 8) (fun s l => if s.latTarget l = .serving && (s.lat l).state != .serving then s.startOutage l else s) s

/-- STAGE 5, when the last lattice a start waits for serves. -/
def State.finishStart (s : State) : State :=
  if s.boot.stage ≠ 4 || (upTo 8).any s.startWaits then s
  else
    let s := (s.setStage 5).commitSvn
    if s.boot.kind = 2 then s.warmDone else s.coldDone

/-! ## Entering a state (R40) -/

/-- Enter a state of R40: entry time, cause, phase, the status-change bits, the alert and the state sensor. -/
def State.enterLat (s : State) (l : Nat) (st : LatState) (phase cause : Nat) : State :=
  let x := s.lat l
  let served := x.state == .serving || x.state == .suspect
  let serves := st == .serving || st == .suspect
  let keep := serves || st == .locked || (st == .draining && x.toLocked)
  let s := s.setLat l { x with
    state := st, phase := phase, cause := cause, entryTime := s.time,
    held := if keep then x.held else [],
    selfTest := if keep then x.selfTest else [],
    leftServing := if !keep then none else if served && !serves then some s.time else x.leftServing }
  let s := if st = .locked && x.state ≠ .locked then s.setFld .latResidRms l 0 else s
  let s := if x.state ≠ st then s.sensorChange (32 + l) st.code else s
  let s := if (x.state == .serving) != (st == .serving) then s.markChg 1 else s
  let s := if (x.state == .fenced) != (st == .fenced) then s.markChg 2 else s
  let s := if st = .suspect && x.state ≠ .suspect then s.markChg 3 else s
  let s := if st = .fenced then s.setAlert 1 else s
  let s := if st = .dark || st = .fenced then s.dropEpisode l else s
  (if st = .serving || st = .fenced then s.endOutage l else s).finishStart

/-! ## Weight registers (R23, R25) -/

/-- The signed 4-bit code a ring's active or shadow weight register holds; after reset and darkening, and in a row the loaded
plane does not cover, it is 0 (DESIGN CHOICE, log entry 47). -/
def Lattice.weightCode (x : Lattice) (shadow : Bool) (row col : Nat) : BitVec 4 :=
  match if shadow then x.shadow else x.active with
  | some p => BitVec.ofInt 4 ((p.rows[row]?.map fun r => r.codes.getD col 0).getD 0)
  | none => 0

/-! ## Pieces a lattice holds -/

/-- Give a piece back to its step, ahead of the pieces not dealt, and free what it pinned. -/
def State.returnChunk (s : State) (k : Chunk) : State :=
  s.modStep k.thread k.uid fun a =>
    if k.rep then { a with repeats := k :: a.repeats } else { a with dealt := k :: a.dealt }

/-- Pieces pinned to a lattice may go to another (R126). -/
def State.unpin (s : State) (l : Nat) : State :=
  { s with threads := s.threads.map fun e => (e.1, { e.2 with steps := e.2.steps.map fun a =>
      { a with dealt := a.dealt.map fun k => if k.pin = some l then { k with pin := none } else k,
               repeats := a.repeats.map fun k => if k.pin = some l then { k with pin := none } else k } }) }

/-- A lattice that leaves SERVING keeps no piece (R126): what it holds returns to the steps. `shadow` says whether the
shadow registers stay valid, and a load in progress goes on (R42). -/
def State.returnPieces (s : State) (l : Nat) (shadow : Bool) : State :=
  let x := s.lat l
  let s := s.setLat l { x with
    current := none, loading := none, shadow := if shadow then x.shadow else none,
    orphan := if !shadow then none else if x.shadow.isNone then x.loading.orElse fun _ => x.orphan else none }
  let s := match x.loading with
    | some k => s.returnChunk k
    | none => s
  let s := match x.current with
    | some k => s.returnChunk k
    | none => s
  s.unpin l

/-! ## Searching, darkening, draining -/

/-- Forget the ring loops of a lattice, but for classes and recorded faults: rings off by their own entry are as their
lattice has them. -/
def State.clearRings (s : State) (l : Nat) : State :=
  { s with rings := s.rings.filterMap fun e =>
      if e.1 / 131072 = l then
        let x : Ring := { Ring.reset with cls := e.2.cls, clsNow := e.2.clsNow, bank := e.2.bank, fault := e.2.fault }
        if x = Ring.reset then none else some (e.1, x)
      else some e }

/-- The heater targets of a lattice go to code 0 and its clusters' queues empty (R40); `now` sets the codes too. -/
def State.zeroHeaters (s : State) (l : Nat) (now : Bool) : State :=
  { s with clusters := (s.clusters.map fun e =>
      if e.1 / 2048 = l then
        (e.1, { e.2 with
          queue := [], heldPush := [],
          taps := if now then [] else (e.2.taps.map fun t => (t.1, { t.2 with target := 0 })).filter fun t => t.2 ≠ Tap.reset })
      else e).filter fun e => e.2 ≠ Cluster.reset }

/-- A DARK lattice starts its honeycomb and enters SEARCHING (R40, R288). -/
def State.lightUp (s : State) (l cause : Nat) : State := (s.enterLat l .searching 0 cause).startComb l

/-- Darkening: heaters to code 0, then honeycomb l ramps down (R40). -/
def State.darken (s : State) (l : Nat) : State :=
  ((s.modLat l fun x => { x with phase := 1 }).zeroHeaters l false).rampDown l

/-- Enter DRAINING toward LOCKED, or toward DARK or FENCED (R40, R42, R89). -/
def State.drainLat (s : State) (l cause : Nat) (toLocked : Bool) : State :=
  let s := s.returnPieces l toLocked
  let s := s.modLat l fun x => { x with toLocked := toLocked }
  s.enterLat l .draining 0 cause

/-- A search is abandoned: darkening starts at once (R40). -/
def State.abandonSearch (s : State) (l cause : Nat) : State :=
  let s := s.modLat l fun x => { x with toLocked := false }
  ((s.enterLat l .draining 1 cause).zeroHeaters l false).rampDown l

/-- The span a cluster holds or was last asked for (R318): the span of codes now computed. -/
def Cluster.span (c : Cluster) : Bool := if c.req || c.hold then c.wantHigh else c.high

/-- A span is requested: a request during the hold changes only the span taken at its end. -/
def Cluster.ask (c : Cluster) (high : Bool) : Cluster :=
  if c.hold || c.req then { c with wantHigh := high } else { c with req := true, wantHigh := high, beforeHigh := c.high }

/-- The clusters of a lattice take their spans (R309): LOW where LOW_EN is 1 and every ring's set-point is at most
1.0 mW of 6 mW. -/
def State.chooseSpans (s : State) (l : Nat) : State :=
  let en := s.flag .tmpCtrlLowEn (l / 2)
  let hot := (s.rings.filter fun e => e.1 / 131072 == l && decide (2 ^ 31 < 6 * e.2.r)).map fun e => e.1 % 131072 / 64
  forEach (upTo 2048) (fun s k =>
    let q := l * 2048 + k
    let c := s.cluster q
    let high := !en || hot.contains k
    if c.span = high then s else s.setCluster q (c.ask high)) s

/-- A calibration check starts in LOCKED (R40, R337): spans are chosen, and rings marked in PROOF get an identity round
(R309, R373). -/
def State.startCheck (s : State) (l : Nat) : State :=
  let marked := s.rings.any fun e => e.1 / 131072 == l && e.2.marked
  let s := s.modLat l fun x => { x with phase := 1, checkStart := s.time, roundDue := x.roundDue || marked }
  (s.chooseSpans l).startEpisode l 1

/-- Whether the first LOCKED to SERVING row of R40 applies: SERVING or SUSPECT left less than 1 s ago. -/
def Lattice.quick (x : Lattice) (time : Nat) : Bool := x.leftServing.any fun τ => decide (time < τ + 1000000000)

/-- A lattice acts on its target where no burst boundary is needed (R40, R41). -/
def State.follow (s : State) (l : Nat) : State :=
  let x := s.lat l
  let tgt := s.latTarget l
  let s := if tgt = .serving || tgt = .fenced then s else s.endOutage l
  match x.state with
  | .dark =>
    if s.boot.on && 3 ≤ s.boot.stage && s.boot.stage ≠ 15 && (tgt = .locked || tgt = .serving) then s.lightUp l x.why else s
  | .searching => if tgt = .dark then s.abandonSearch l x.why else s
  | .locked =>
    if tgt = .dark then s.drainLat l x.why false
    else if tgt = .serving && x.phase = 0 && !x.quick s.time && !(s.bay (l / 2)).upset then s.startCheck l
    else s
  | _ => s

/-- A change that may change a lattice's target, with the cause it records. -/
def State.retarget (s : State) (l cause : Nat) : State := (s.modLat l fun x => { x with why := cause }).follow l

/-! ## Fences (R40, R48) -/

/-- A fence request or a persistent fault: logged, journalled, and the lattice goes to FENCED as R40 states. -/
def State.fenceLattice (s : State) (l cause : Nat) : State :=
  let x := s.lat l
  if x.state = .fenced || x.fencePending ≠ 0 then s
  else
    let s := s.event .latFenced .lattice l noCtx []
    let s := s.journal .fence [l, cause, s.time]
    match x.state with
    | .dark => s.enterLat l .fenced 0 cause
    | .searching => (s.modLat l fun x => { x with fencePending := cause }).abandonSearch l cause
    | .locked => (s.modLat l fun x => { x with fencePending := cause }).drainLat l cause false
    | _ => s.modLat l fun x => { x with fencePending := cause }

/-! ## Traces (R312) -/

/-- The trace channels of a bay triggered by an event of kind `k` (TMP_TRACE_CTRL.TRIGGER) on a ring that `p` accepts:
each records POST further entries. -/
def State.traceHit (s : State) (b k : Nat) (p : Nat → Bool) : State :=
  forEach (upTo 4) (fun s ch =>
    let i := b * 4 + ch
    let x := s.trace i
    if s.fld .tmpTraceCtrlMode i = 2 && s.fld .tmpTraceCtrlTrigger i = k && p (s.fld .tmpTraceCtrlRing i) && !x.stopped && x.remaining.isNone then
      let n := s.fld .tmpTraceCtrlPost i
      s.setTrace i { x with remaining := some n, stopped := decide (n = 0) }
    else s) s

/-! ## SUSPECT (R44, R45, R48) -/

/-- Steps 2 and 3 of R45 for a start of lookback `t0`. -/
def State.lookback (s : State) (l t0 : Nat) : State :=
  let hit := s.issued.filter fun i => i.lat == l && decide (t0 ≤ i.time)
  let live (i : Issued) : Bool :=
    !i.released && (s.thread i.thread).st != .idle && (s.thread i.thread).ctx == i.ctx
  let back := ((hit.filter live).map (·.thread)).dedup.filter fun t => !(s.lat l).rewound.contains t
  let reps := (hit.filter fun i => live i && back.contains i.thread).foldl (fun n i => n + i.bursts) 0
  let s := s.bump .latSuspectCntRepeats l reps
  let s := forEach back (fun s t => (s.rewindThread t).bump .latRewindCntRewinds l) s
  let s := s.modLat l fun x => { x with rewound := x.rewound ++ back }
  let late := hit.filter fun i => i.released && !(s.lat l).lateLogged.contains (i.thread, i.uid)
  let s := s.modLat l fun x => { x with lateLogged := x.lateLogged ++ late.map fun i => (i.thread, i.uid) }
  forEach (late.map (·.ctx)).dedup (fun s c =>
    let uids := (late.filter fun i => i.ctx == c).map (·.uid)
    let s := s.event .latLateRepeat .lattice l c [s.time - t0, uids.foldl min (uids.headD 0)]
    (s.bump .latRewindCntLate l).setWarn c) s

/-- Start the self-test of a readout chain that is not under test, once the PLLs of the symbol and readout islands are
locked (R44, R388). -/
def State.startSelfTest (s : State) (l chain : Nat) : State :=
  let b : Fin 4 := ⟨l / 2 % 4, Nat.mod_lt _ (by decide)⟩
  let off := s.power.unlocked.contains (.bay b .symbol) || s.power.unlocked.contains (.bay b .readout)
  let tests (l : List (Nat × Nat)) : List (Nat × Nat) :=
    if l.contains (chain, 1) then l else (chain, if off then 0 else 1) :: l.filter fun e => e.1 != chain
  s.modLat l fun x => { x with selfTest := tests x.selfTest }

/-- The self-tests of a lattice that wait for its PLLs start (R44). -/
def State.startSelfTests (s : State) (l : Nat) : State :=
  forEach ((s.lat l).selfTest.filter fun e => e.2 == 0) (fun s e => s.startSelfTest l e.1) s

/-- A cause of SUSPECT with its `t0` is detected (R44, R45, R48). -/
def State.raiseCause (s : State) (l : Nat) (c : Cause) (t0 : Nat) : State :=
  let x := s.lat l
  let hold (s : State) : State :=
    s.modLat l fun x => { x with held := if x.held.any (fun e => e.1 == c) then x.held else x.held ++ [(c, t0)] }
  match x.state with
  | .serving =>
    let s := s.returnPieces l true
    let recent := x.suspectEntries.filter (fun τ => decide (s.time < τ + 60000000000)) ++ [s.time]
    let s := s.modLat l fun x => { x with suspectEntries := recent, rewound := [], lateLogged := [], toLocked := true,
                                          inflight := x.inflight.map fun b => { b with suspect := true } }
    let s := ((s.enterLat l .suspect 0 c.code).startOutage l).bump .latSuspectCntEntries l
    let s := hold s
    let s := (s.lookback l t0).traceHit (l / 2) 2 (fun r => r / 131072 == l % 2)
    if 8 < recent.length then s.fenceLattice l 12 else s
  | .suspect => (hold s).lookback l t0
  | .locked => hold s
  | .draining => if x.toLocked && x.phase = 0 && x.fencePending = 0 then hold s else s
  | _ => s

/-- Faults of some readout chains are detected, with their `t0` (R44); 512 stands for every chain of the lattice. -/
def State.raiseReadout (s : State) (l : Nat) (chains : List Nat) (t0 : Nat) : State :=
  let s := s.raiseCause l .readout t0
  if (s.lat l).held.any (fun e => e.1 == .readout) then
    forEach (chains.filter fun c => !(s.lat l).selfTest.any fun e => e.1 == c) (fun s c => s.startSelfTest l c) s
  else s

/-- A cause of SUSPECT has cleared (R44): a thermal cause starts an episode (R337), and a calibration check that waited
for it counts its time from here (R40). -/
def State.clearCause (s : State) (l : Nat) (c : Cause) : State :=
  let x := s.lat l
  if x.held.any fun e => e.1 == c then
    let h := x.held.filter fun e => e.1 != c
    let s := s.setLat l { x with held := h, selfTest := if c = .readout then [] else x.selfTest,
                                 checkStart := if h.isEmpty && x.phase = 1 then s.time else x.checkStart }
    if c = .rateOfRise && x.state = .suspect then s.startEpisode l 3 else s
  else s

/-! ## Dead elements (R50 to R53) -/

/-- HANDLING of an entry (LAT_DEM_DATA): 0 patched, 1 row masked, 2 pending. -/
def DeadRing.isMask (d : DeadRing) : Bool := d.handling == 1

/-- Masked rows of a lattice. -/
def Lattice.maskedRows (x : Lattice) : List Nat := ((x.dem.filter DeadRing.isMask).map (·.row)).dedup

/-- Patched rings of a lattice. -/
def Lattice.patched (x : Lattice) : List DeadRing := x.dem.filter fun d => d.handling == 0

/-- LAT_ROWS.AVAIL: the rows not masked (R52). -/
def Lattice.avail (x : Lattice) : Nat := 512 - x.maskedRows.length

/-- Rule 3 of R50: while more than 64 remain, the row with the most, the lowest on a tie, is masked. -/
def maskWorst (dead : List DeadRing) : Nat → List Nat → List Nat
  | 0, m => m
  | n + 1, m =>
    let rest := dead.filter fun d => !m.contains d.row
    if rest.length ≤ 64 then m
    else
      let cnt (r : Nat) : Nat := (rest.filter fun d => d.row == r).length
      match (rest.map (·.row)).foldl (fun (b : Option Nat) r => match b with
          | none => some r
          | some q => if cnt q < cnt r || (cnt q = cnt r && decide (r < q)) then some r else some q) none with
      | none => m
      | some r => maskWorst dead n (m ++ [r])

/-- The rows R50 masks for a set of dead rings, rows already masked staying so. -/
def maskRows (dead : List DeadRing) (already : List Nat) : List Nat :=
  let m := already ++ ((dead.filter fun d => !d.canPark).map (·.row)).dedup
  let many := ((dead.map (·.row)).dedup).filter fun r => decide (4 < (dead.filter fun d => d.row == r).length)
  maskWorst dead 512 (m ++ many).dedup

/-- Give every entry its handling (R50). -/
def Lattice.resolveDead (x : Lattice) : Lattice :=
  let m := maskRows x.dem x.maskedRows
  { x with dem := x.dem.map fun d => { d with handling := if m.contains d.row then 1 else 0 } }

/-- The limits of R50: at most 32 masked rows and 1,024 entries, pending entries counted as R50 would handle them. -/
def Lattice.deadOk (x : Lattice) : Bool :=
  decide (x.dem.length ≤ 1024) && decide ((maskRows x.dem x.maskedRows).length ≤ 32)

/-- Whether an entry waits for the next swap (R302). -/
def Lattice.demPending (x : Lattice) : Bool := x.dem.any fun d => d.handling == 2

/-! ## LAT_CTRL (R39, R40) -/

/-- Whether a write on a path may change what a host grant guards (R346, R436). -/
def hostAllowed (p : Path) (grant : Bool) : Bool := !isHost p || grant

/-- EN and KEEP_LIT are written, and the target follows. -/
def State.writeEn (s : State) (l v : Nat) : State :=
  let was := s.flag .latCtrlEn l
  let s := (s.setFld .latCtrlEn l (v % 2)).setFld .latCtrlKeepLit l (bitsOf v 1 1)
  let why := if s.flag .latCtrlEn l && !was then 1 else if was && !s.flag .latCtrlEn l then 2 else
    if s.flag .latCtrlKeepLit l then 1 else 2
  s.retarget l why

/-- LAT_CTRL_WRITE. -/
def execLatCtrlWrite (p : Path) (l : Fin 8) (v : Word) (s : State) : Out :=
  if !s.served p then .next s
  else if !hostAllowed p s.cfg.grantLattice then .next (s.refuse p (Reg.latCtrl.addr l) v.toNat)
  else .next (s.writeEn l v.toNat)

/-- LAT_FENCE_REQ: a write of 1 to LAT_CTRL.FENCE_REQ (R40, R48). -/
def execLatFenceReq (p : Path) (l : Fin 8) (s : State) : Out :=
  if !s.served p then .next s
  else if !hostAllowed p s.cfg.grantLattice then .next (s.refuse p (Reg.latCtrl.addr l) 16)
  else .next (s.fenceLattice l 11)

/-! ## Ring states and the way into SERVING (R40, R295) -/

/-- The state a ring is in: its own, zero-held in a masked row, and searching from the start of the search (R295, R296). -/
def State.ringState (s : State) (l r : Nat) : RingState :=
  let x := s.lat l
  let st := (s.ring (l * 131072 + r)).st
  if x.state.lit && x.state ≠ .searching && x.maskedRows.contains (r / 256) then .zeroHeld
  else if st ≠ .off then st
  else if x.state = .searching && x.phase = 1 then .searching else .off

/-- A lattice enters SERVING (R40): the debts of R336 are zero. It holds no piece, so that its next step swaps in a plane
freshly loaded (R42). -/
def State.serve (s : State) (l cause : Nat) : State :=
  let s := s.enterLat l .serving 0 cause
  s.modLat l fun x => { x with fencePending := 0, sweepDebt := 0, probeDebt := 0 }

/-! ## Timers of SUSPECT (R44, R48) -/

/-- SUSPECT_TIMEOUT: SUSPECT, or a cause held in LOCKED toward SERVING, for more than 100 ms. -/
def execSuspectTimeout (l : Fin 8) (s : State) : Out :=
  let x := s.lat l
  if x.state = .suspect || (x.state = .locked && !x.held.isEmpty && s.latTarget l == .serving) then
    .next (s.fenceLattice l 12)
  else .next s

/-- LINE_POWER_RECOVERY_TIMEOUT: line power has not recovered in 100 ms. -/
def execLinePowerRecoveryTimeout (l : Fin 8) (s : State) : Out :=
  if (s.lat l).held.any fun e => e.1 == .linePower then .next (s.fenceLattice l 12) else .next s

/-- READOUT_SELF_TEST_END: the cause clears when the last chain in fault passes; a chain's second failure within 1 s is a
persistent fault. -/
def execReadoutSelfTestEnd (l : Fin 8) (chain : Fin 513) (pass : Bool) (s : State) : Out :=
  let x := s.lat l
  if !x.selfTest.contains (chain.val, 1) then .next s
  else
    let rest := x.selfTest.filter fun e => e.1 != chain.val
    if pass then
      let s := s.setLat l { x with selfTest := rest }
      .next (if rest.isEmpty then s.clearCause l .readout else s)
    else
      let fails := x.selfFails.filter (fun e => decide (s.time < e.2 + 1000000000)) ++ [(chain.val, s.time)]
      let s := s.setLat l { x with selfTest := (chain.val, 2) :: rest, selfFails := fails }
      .next (if 2 ≤ (fails.filter fun e => e.1 == chain.val).length then s.fenceLattice l 12 else s)

/-- READOUT_RETEST_TIMER: 10 ms after a chain's failed self-test it runs again while the cause holds. -/
def execReadoutRetestTimer (l : Fin 8) (chain : Fin 513) (s : State) : Out :=
  .next (if (s.lat l).selfTest.contains (chain.val, 2) then s.startSelfTest l chain else s)

/-! ## Power transitions that wait for lattices (R366, R367, R369) -/

/-- A bay's power state as PWR_BAY_STATUS and IDLE_STATE encode it. -/
def PState.code : PState → Nat := PState.depth

/-- Blocks power down, lattices follow (R367): a transition whose lattices have drained commits. -/
def State.tryCommit (s : State) (b : Nat) : State :=
  match (s.bay b).trans with
  | none => s
  | some t =>
    let idle (l : Nat) : Bool := match (s.lat l).state with
      | .serving | .suspect => false
      | .draining => !((s.lat l).toLocked && (s.lat l).phase == 0)
      | _ => true
    if t.committed || !(idle (2 * b) && idle (2 * b + 1)) then s
    else
      let s := s.modBay b fun y => { y with
        trans := some { t with committed := true },
        larder := if t.target.larderOn then y.larder else [], fills := if t.target.larderOn then y.fills else [] }
      (s.retarget (2 * b) 3).retarget (2 * b + 1) 3

/-! ## The end of a bay upset recovery (R412) -/

/-- A lattice of a bay in upset recovery is not yet through: it drains, or its identity round has not passed. -/
def State.upsetPending (s : State) (l : Nat) : Bool :=
  let x := s.lat l
  (x.state == .draining && x.toLocked && x.phase == 0) ||
  (x.state == .locked && (s.bay (l / 2)).latPower == .run && (x.roundDue || x.roundLeft != 0))

/-- The recovery ends: every thread of the bay is rewound, and its lattices serve again from LOCKED. -/
def State.tryEndUpset (s : State) (b : Nat) : State :=
  if !(s.bay b).upset || s.upsetPending (2 * b) || s.upsetPending (2 * b + 1) then s
  else
    let s := forEach ((upTo 128).map (· + 128 * b)) (fun s t =>
      let th := s.thread t
      let c := s.ctx th.ctx
      if th.st != .idle && (c.st == .running || c.st == .waiting) then s.rewindThread t else s) s
    s.modBay b fun y => { y with upset := false }

/-! ## Drains (R89, R90) -/

/-- An open HOLD group of a draining lattice is discarded, with its queued repeats, and its thread rewound (R90). -/
def State.loseHold (s : State) (l : Nat) : State :=
  match (s.lat l).group with
  | none => s
  | some g =>
    let reps := match (s.thread g.thread).step? g.uid with
      | some a => (a.repeats.filter fun k => k.group == g.group).length
      | none => 0
    let s := s.modLat l fun x => { x with group := none, acc := [] }
    let s := (s.event .rowHoldLost .lattice l g.ctx [g.uid, if reps = 0 then 1 else 2, reps]).bump .rowDrainLost l
    if (s.thread g.thread).st = .idle || (s.thread g.thread).ctx ≠ g.ctx then s else s.rewindThread g.thread

/-- A lattice's drain completes (R40, R89, R90). -/
def State.latDrained (s : State) (l : Nat) : State :=
  let x := s.lat l
  if x.state ≠ .draining || x.phase ≠ 0 || !x.inflight.isEmpty then s
  else
    let ns := min 65535 (s.time - x.entryTime)
    let s := (s.setFld .rowDrainLastNs l ns).raise .rowDrainMaxNs l ns
    let s := s.loseHold l
    if x.toLocked && x.fencePending = 0 then
      (((s.enterLat l .locked 0 x.cause).follow l).tryCommit (l / 2)).tryEndUpset (l / 2)
    else ((s.modLat l fun x => { x with toLocked := false, held := [] }).darken l).tryCommit (l / 2)

/-- DRAIN_COMPLETE: the in-flight count of a lattice, a thread or a context is zero (R89). A thread's drain is part of
its FENCE, which FENCE_COMPLETE ends. -/
def execDrainComplete (d : DrainOf) (s : State) : Out :=
  match d with
  | .lattice l => .next (s.latDrained l)
  | .thread _ => .next s
  | .context c => if (s.ctx c).st = .draining && !s.ctxInFlight c then .next (s.ctxDrained c) else .next s

/-- DARKENING_COMPLETE: heaters at code 0 and the honeycomb off, the lattice enters DARK or FENCED, and a DARK one
follows its target (R40, R41). -/
def execDarkeningComplete (l : Fin 8) (s : State) : Out :=
  let x := s.lat l
  if x.state = .draining && x.phase = 1 then
    let s := (((s.combOff l).clearRings l).zeroHeaters l true).modLat l fun x =>
      { x with fencePending := 0, active := none, shadow := none, loading := none, current := none }
    if x.fencePending ≠ 0 then .next ((s.enterLat l .fenced 0 x.fencePending).tryEndUpset (l / 2))
    else .next (((s.enterLat l .dark 0 x.cause).follow l).tryEndUpset (l / 2))
  else .next s

end Sys2Proof.Machine
end

