-- ==== Sys2Proof/Machine/Heaters.lean ====
section
/-! DEFINITION. Rings as the temper engines see them, loop classes, and the heater clusters: queues, the update clock,
the slew limiter, spans and dither (R303, R307, R313 to R321). -/

namespace Sys2Proof.Machine

/-! ## Rings -/

/-- A ring's key. -/
def ringKey (l r : Nat) : Nat := l * 131072 + r

/-- ρ of a ring, its index in its bay (R303). -/
def rhoOf (l r : Nat) : Nat := 131072 * (l % 2) + r

/-- A ring with the state it is in. -/
def State.ringNow (s : State) (l r : Nat) : Ring := { s.ring (ringKey l r) with st := s.ringState l r }

/-- The bay's power state that its blocks follow: a transition's target as soon as it is under way (R367). -/
def Bay.heading (y : Bay) : PState :=
  match y.trans with
  | none => y.power
  | some t => t.target

/-- The temper engine and monitor converters take work (R363, R367): in RUN and DIM. -/
def State.temperOn (s : State) (b : Nat) : Bool :=
  s.boot.on && ((s.bay b).heading == .run || (s.bay b).heading == .dim)

/-- The loops of a lattice in search are not closed yet: some ring is neither locked nor dead (R296 step 3). -/
def State.searchOpen (s : State) (l : Nat) : Bool :=
  let x := s.lat l
  x.state == .searching &&
    (x.phase != 1 ||
      decide ((s.rings.filter fun e => e.1 / 131072 == l && e.2.st != .off && e.2.st != .searching).length < 131072))

/-- A PIC temperature at a ring's nearest valid sensor (R310, R381), in 1/256 °C. -/
def State.ringTemp (s : State) (l r : Nat) : Int :=
  let at_ (k : Nat) : Nat := 40 * (l / 2) + 20 + (Config.nearestPic (ringKey l r) k).val
  let k := ((upTo 16).find? fun k => (s.sensor (at_ k)).kind == 0).getD 0
  (s.sensor (at_ k)).reading

/-! ## Loop classes (R305, R307) -/

/-- The default of each word of a coefficient set (TMP_COEF_DATA). -/
def coefDefault (w : Nat) : Word :=
  match w with
  | 0 => 0x4000
  | 1 => 0x7FFF_0000_0000_8000
  | 2 => 0xFE01_061D
  | 3 => 0x7FFF_0000_0000_8000
  | 4 => 0x0000_8000_0020_0000
  | 5 => 0x400
  | 6 => 0x0000_0111_0000_0000
  | 7 => 0x1000
  | _ => 0

/-- Where word `w` of a bank of a class of bay `b` is held. -/
def coefKey (b cls bank w : Nat) : Nat := ((b * 64 + cls) * 2 + bank) * 8 + w

/-- A word of a coefficient set. -/
def State.coef (s : State) (b cls bank w : Nat) : Nat := (tget (coefDefault w) s.coefs (coefKey b cls bank w)).toNat

/-- Write a word of a coefficient set. -/
def State.setCoef (s : State) (b cls bank w v : Nat) : State :=
  { s with coefs := tset (coefDefault w) s.coefs (coefKey b cls bank w) (BitVec.ofNat 64 v) }

/-- The bank in use by a class (TMP_BANK_ACTIVE). -/
def State.bankOf (s : State) (b cls : Nat) : Nat := boolNat (bitOf (s.fld .tmpBankActiveBank b) cls)

/-- G_FF of the class and bank a ring's last inner sample used. -/
def State.gff (s : State) (b : Nat) (x : Ring) : Int := bitsOf (s.coef b x.clsNow x.bank 6) 47 32

/-- HOP of the class and bank a ring's last inner sample used (R300). -/
def State.hop (s : State) (b : Nat) (x : Ring) : Int := bitsOf (s.coef b x.clsNow x.bank 7) 15 0

/-- WIN of a class (R322). -/
def State.window (s : State) (b cls : Nat) : Int := s.fld .monWinWin (b * 64 + cls)

/-- f = G_FF × ΔT, ΔT in 1/256 °C (R310); rounded half to even (DEDUCED). -/
def State.feedTerm (s : State) (b : Nat) (x : Ring) (dT : Int) : Int := roundHalfEven (s.gff b x * dT) 256

/-! ## Pushes (R314, R316) -/

/-- The codes of an entry merged with another's (R316): new codes replace the old ones, the masks join. -/
def QEntry.merge (old new : QEntry) : QEntry :=
  { old with codes := new.codes.foldl (fun t e => tset 4096 t e.1 e.2) old.codes, low := new.low }

/-- Replace the last entry that `p` accepts. -/
def replaceLast (p : QEntry → Bool) (f : QEntry → QEntry) (l : List QEntry) : List QEntry :=
  let r := l.reverse
  match r.findIdx? p with
  | none => l
  | some i => (r.modify i f).reverse

/-- What a push did. -/
inductive Pushed where
  | joined | merged | held
  deriving DecidableEq, Repr

/-- A push. The sixteen rings of one service visit share its entry: codes that join within one 30 ns step of the same
group are one push (R314). -/
def Cluster.push (c : Cluster) (e : QEntry) : Cluster × Pushed :=
  let same (o : QEntry) : Bool := o.group == e.group
  match c.queue.getLast? with
  | some o =>
    if same o && decide (e.joined < o.joined + 30) then
      ({ c with queue := replaceLast same (fun o => o.merge e) c.queue }, .joined)
    else if c.queue.length < 16 then ({ c with queue := c.queue ++ [e] }, .joined)
    else if c.queue.any same then ({ c with queue := replaceLast same (fun o => o.merge e) c.queue }, .merged)
    else ({ c with heldPush := c.heldPush ++ [e] }, .held)
  | none => ({ c with queue := [e] }, .joined)

/-- The cluster of a ring (R313). -/
def clusterOf (l r : Nat) : Nat := l / 2 * 4096 + rhoOf l r / 64

/-- Issue a heater code for a ring: the latest code and an entry of its cluster's queue. Nothing pops after a latched
trip, and nothing is queued (R320). -/
def State.issueCode (s : State) (l r code : Nat) : State :=
  let s := s.setRing (ringKey l r) { s.ringNow l r with code := code }
  if s.power.tripLatched then s
  else
    let q := clusterOf l r
    let c := s.cluster q
    let e : QEntry := { group := rhoOf l r % 64 / 16, codes := [(rhoOf l r % 16, code)], low := !c.span, joined := s.time }
    let p := c.push e
    let s := s.setCluster q p.1
    match p.2 with
    | .joined => s
    | .merged => s.bump .htrEventCntMerges (l / 2)
    | .held => s.bump .htrEventCntHeld (l / 2)

/-- A code from a fraction of HIGH full scale (R304), in the span codes are computed in. -/
def codeOf (high : Bool) (u : Int) : Nat := (clampInt 0 4095 (roundHalfEven u (if high then 8 else 2))).toNat

/-- The fraction of HIGH full scale of a code. -/
def powerOf (high : Bool) (code : Nat) : Int := code * (if high then 8 else 2)

/-- The span of a ring's codes. -/
def State.ringHigh (s : State) (l r : Nat) : Bool := (s.cluster (clusterOf l r)).span

/-- The tap of a ring. -/
def State.tap (s : State) (l r : Nat) : Tap := tget Tap.reset (s.cluster (clusterOf l r)).taps (rhoOf l r % 64)

/-- The rings of masked rows are zero-held: their heaters go to code 0 (R295). -/
def State.zeroHold (s : State) (l : Nat) : State :=
  let rows := (s.lat l).maskedRows
  forEach (s.rings.filter fun e => e.1 / 131072 == l && rows.contains (e.1 % 131072 / 256) && e.2.code != 0)
    (fun s e => s.issueCode l (e.1 % 131072) 0) s

/-! ## Span changes (R318) -/

/-- SPAN_HOLD_END: the span switches to the one last requested; targets of the other span are rescaled. -/
def Cluster.endHold (c : Cluster) : Cluster :=
  if !c.hold then c
  else
    let c := { c with hold := false }
    if c.wantHigh = c.beforeHigh then c
    else { c with
      high := c.wantHigh
      taps := c.taps.map fun t => (t.1,
        if t.2.low = c.wantHigh then
          { t.2 with low := !c.wantHigh,
                     target := if c.wantHigh then (roundHalfEven t.2.target 4).toNat else min (4 * t.2.target) 4095 }
        else t.2) }

/-- SPAN_HOLD_END. -/
def execSpanHoldEnd (q : Fin 16384) (s : State) : Out :=
  let c := (s.cluster q).endHold
  .next (s.setCluster q { c with taps := c.taps.filter fun t => t.2 ≠ Tap.reset })

/-! ## The update clock (R315, R317, R321) -/

/-- round(2,047 × sin(2π i / 256)) for the first quarter of the table. -/
def sineQuarter : List Nat :=
  [0, 50, 100, 151, 201, 251, 300, 350, 399, 449, 497, 546, 594, 642, 690, 737,
   783, 830, 875, 920, 965, 1009, 1052, 1095, 1137, 1179, 1219, 1259, 1299, 1337, 1375, 1411] ++
  [1447, 1483, 1517, 1550, 1582, 1614, 1644, 1674, 1702, 1729, 1756, 1781, 1805, 1828, 1850, 1871,
   1891, 1910, 1927, 1944, 1959, 1973, 1986, 1997, 2008, 2017, 2025, 2032, 2037, 2041, 2045, 2046, 2047]

/-- Table entry i of the sine generator (R321). -/
def sineTable (i : Nat) : Int :=
  let h := i % 128
  let v : Int := sineQuarter.getD (if h ≤ 64 then h else 128 - h) 0
  if i % 256 < 128 then v else -v

/-- The driver output of an applied code (R321). -/
def ditherOut (den high : Bool) (t : Int) (amp code : Nat) : Nat :=
  if code = 0 then 0
  else if !den then code
  else
    let d := roundHalfEven (t * amp) 2047
    (clampInt 0 4095 (code + if high then d else 4 * d)).toNat

/-- The limiter's move toward a target (R317). -/
def slew (step code target : Nat) : Nat := if code < target then min target (code + step) else max target (code - step)

/-- The head of the queue is popped where it joined at least 100 ns ago, and held pushes join (R315, R316). -/
def Cluster.pop (c : Cluster) (time : Nat) : Cluster :=
  match c.queue with
  | [] => c
  | e :: rest =>
    if time < e.joined + 100 then c
    else
      let room := 16 - rest.length
      { c with
        queue := rest ++ (c.heldPush.take room).map fun h => { h with joined := time }
        heldPush := c.heldPush.drop room
        taps := e.codes.foldl (fun t k =>
          let i := e.group * 16 + k.1
          tset Tap.reset t i { tget Tap.reset t i with target := k.2, low := e.low }) c.taps }

/-- One tick of a cluster: pop, hold or limiter, dither. -/
def Cluster.tickOnce (c : Cluster) (time : Nat) : Cluster :=
  let c := c.pop time
  let c := { c with phase := c.phase + BitVec.ofNat 24 c.ftw }
  let enter := c.req
  let c := if enter then { c with req := false, hold := true } else c
  let move := !c.hold && decide (c.rate ≤ c.tick + 1)
  let c := { c with tick := if c.rate ≤ c.tick + 1 then 0 else c.tick + 1 }
  let t := sineTable (c.phase.toNat / 2 ^ 16)
  { c with taps := (c.taps.map fun e =>
      let code := if c.hold then 0 else if move then slew c.step e.2.code e.2.target else e.2.code
      (e.1, { e.2 with code := code, out := ditherOut c.den c.high t c.amp code })).filter fun e => e.2 ≠ Tap.reset }

/-- The clusters of a bay are powered: in RUN, DIM and PROOF, and while its heaters run down (R363, R367). -/
def State.heatersOn (s : State) (b : Nat) : Bool :=
  let y := s.bay b
  s.boot.on && !((y.power == .cold || y.power == .off) && (y.heading == .cold || y.heading == .off))

/-- HEATER_TICK, every 409.6 ns. -/
def execHeaterTick (q : Fin 16384) (s : State) : Out :=
  if !s.heatersOn (q / 4096) || s.power.tripLatched || !s.onPhase 4096 0 then .next s
  else .next (s.setCluster q ((s.cluster q).tickOnce s.time))

/-- Every tap at code 0 in span LOW and every queue discarded (R319, R320): the settings of HTR_CLUSTER stay. -/
def State.clearHeaters (s : State) : State :=
  { s with clusters := (s.clusters.map fun e => (e.1, { e.2 with
      high := false, req := false, hold := false, queue := [], heldPush := [], taps := [] })).filter fun e =>
        e.2 ≠ Cluster.reset }

end Sys2Proof.Machine
end

