-- ==== Sys2Proof/Machine/Loops.lean ====
section
/-! DEFINITION. The temper engines' loops: compensators, the profile generator, feedforward, lock excursions, bank swaps
and traces (R300, R303 to R312). -/

namespace Sys2Proof.Machine

/-! ## The compensator (R305) -/

/-- A compensator's coefficients, signed Q1.15, and its shift k. -/
structure Comp where
  b : List Int
  a : List Int
  kb : Int
  k : Nat
  deriving DecidableEq, Repr

/-- A signed Q1.15 field of a coefficient word. -/
def q15 (w hi lo : Nat) : Int := signed 16 (bitsOf w hi lo)

/-- The inner (`outer` false) or outer compensator of a class's bank. -/
def State.comp (s : State) (b cls bank : Nat) (outer : Bool) : Comp :=
  let w0 := s.coef b cls bank (if outer then 2 else 0)
  let w1 := s.coef b cls bank (if outer then 3 else 1)
  let w6 := s.coef b cls bank 6
  { b := [q15 w0 15 0, q15 w0 31 16, q15 w0 47 32, q15 w0 63 48]
    a := [q15 w1 15 0, q15 w1 31 16, q15 w1 47 32]
    kb := q15 w1 63 48
    k := if outer then bitsOf w6 18 16 else bitsOf w6 2 0 }

/-- Saturate to 16 bits. -/
def sat16 (x : Int) : Int := clampInt (-32768) 32767 x

/-- Products of two lists, summed. -/
def dot (a b : List Int) : Int := (List.zipWith (· * ·) a b).foldl (· + ·) 0

/-- The accumulator: 40 bits, Q10.30, saturating. -/
def Comp.acc (c : Comp) (x0 : Int) (xs ys : List Int) : Int :=
  clampInt (-(2 ^ 39)) (2 ^ 39 - 1) (dot c.b (x0 :: xs) - dot c.a ys)

/-- v, before clamping. -/
def Comp.v (c : Comp) (x0 : Int) (xs ys : List Int) : Int := sat16 (roundHalfEven (c.acc x0 xs ys * 2 ^ c.k) 32768)

/-- y[0] from v and the clamped output: back-calculation, its product rounded half to even (DEDUCED, log entry 60). -/
def Comp.back (c : Comp) (v out : Int) : Int := sat16 (v + roundHalfEven (c.kb * (out - v)) 32768)

/-- Shift a value into a history of three. -/
def shiftIn (x : Int) (h : List Int) : List Int := (x :: h).take 3

/-! ## The profile generator (R306) -/

/-- Sign of a number. -/
def sgn (x : Int) : Int := if x < 0 then -1 else if 0 < x then 1 else 0

/-- One sample of the profile generator: r, v, a toward r*, within V, A and J. -/
def profile (V A J : Int) (rstar r v a : Int) : Int × Int × Int :=
  let d := rstar - r
  let vwant := sgn d * min V (Nat.sqrt (2 * A * d.natAbs).toNat)
  let a := a + clampInt (-J) J (clampInt (-A) A (vwant - v) - a)
  let v := clampInt (-V) V (v + a)
  if d.natAbs ≤ v.natAbs then (rstar, 0, 0) else (r + v, v, a)

/-- A fraction in units of 2⁻³¹ as Q1.15. -/
def toQ15 (x : Int) : Int := sat16 (roundHalfEven x 65536)

/-! ## Traces (R312) -/

/-- The value of a traced signal (TMP_TRACE_CTRL.SIGNAL); `v` is v before clamping. None for a reserved code. -/
def State.traceValue (s : State) (l r : Nat) (x : Ring) (v : Int) (sig : Nat) : Option Int :=
  match sig with
  | 0 => some x.lockErr
  | 1 => some (toQ15 x.rstar)
  | 2 => some (toQ15 x.r)
  | 3 => some x.p
  | 4 => some v
  | 5 => some x.code
  | 6 => some x.f
  | 7 => some (s.ringTemp l r)
  | _ => none

/-- Add an entry to a channel that has not stopped; the entries after a trigger count down. -/
def Trace.record (x : Trace) (e : Int × Nat) : Trace :=
  if x.stopped then x
  else
    let left := x.remaining.map (· - 1)
    { x with entries := (e :: x.entries).take 8192, remaining := left, stopped := left == some 0 }

/-- Record a ring's inner sample on the channels that trace it. -/
def State.traceSample (s : State) (l r : Nat) (v : Int) : State :=
  forEach (upTo 4) (fun s ch =>
    let i := l / 2 * 4 + ch
    let mode := s.fld .tmpTraceCtrlMode i
    if (mode = 1 || mode = 2) && s.fld .tmpTraceCtrlRing i = rhoOf l r then
      match s.traceValue l r (s.ring (ringKey l r)) v (s.fld .tmpTraceCtrlSignal i) with
      | some y => s.setTrace i ((s.trace i).record (y, s.time % 2 ^ 48))
      | none => s
    else s) s

/-- A channel whose trigger is the TRIG bit is triggered; `i` counts the channels of all bays. -/
def State.trigTrace (s : State) (i : Nat) : State :=
  let x := s.trace i
  if s.fld .tmpTraceCtrlMode i = 2 && s.fld .tmpTraceCtrlTrigger i = 0 && !x.stopped && x.remaining.isNone then
    let n := s.fld .tmpTraceCtrlPost i
    s.setTrace i { x with remaining := some n, stopped := decide (n = 0) }
  else s

/-- The RW fields of a channel's TMP_TRACE_CTRL as a write carries them, with TRIG. -/
def State.traceWord (s : State) (i : Nat) : Nat :=
  s.fld .tmpTraceCtrlRing i * 2 ^ 32 + s.fld .tmpTraceCtrlSignal i * 2 ^ 24 + s.fld .tmpTraceCtrlTrigger i * 2 ^ 20 +
    s.fld .tmpTraceCtrlMode i * 2 ^ 16 + 2 ^ 15 + s.fld .tmpTraceCtrlPost i

/-- TRACE_TRIGGER: a write of 1 to TRIG; held while the temper engine is powered down (R440). -/
def execTraceTrigger (p : Path) (b : Fin 4) (ch : Fin 4) (s : State) : Out :=
  let i := b.val * 4 + ch
  if !s.served p then .next s
  else if Block.down (s.bay b).unitState .temper then
    .next (s.holdWrite p b (Reg.tmpTraceCtrl.addr b + 8 * ch) 0 (s.traceWord i))
  else .next (s.trigTrace i)

/-! ## Lock excursions and the causes they hold (R300, R44) -/

/-- Rings of a lattice with an entry that satisfy `p`. -/
def State.anyRing (s : State) (l : Nat) (p : Ring → Bool) : Bool := s.rings.any fun e => e.1 / 131072 == l && p e.2

/-- The ring causes that no ring holds any more clear (R44). -/
def State.settle (s : State) (l : Nat) : State :=
  let s := if s.anyRing l (fun x => x.st == .relocking) then s else s.clearCause l .wrongLine
  if s.anyRing l (fun x => x.excursion.isSome) then s else s.clearCause l .excursion

/-- A lock excursion of a ring: counted, the cause raised with its t0, an identity round due within 1 ms. -/
def State.excursion (s : State) (l r t0 : Nat) : State :=
  let x := s.ringNow l r
  let s := (s.bump .tmpEventCntHops (l / 2)).traceHit (l / 2) 1 (· == rhoOf l r)
  match (s.lat l).state, x.excursion with
  | .locked, none | .serving, none | .suspect, none | .draining, none =>
    let s := s.setRing (ringKey l r) { x with excursion := some t0 }
    (s.modLat l fun y => { y with roundDue := true }).raiseCause l .excursion t0
  | _, _ => s

/-- The rate-of-rise cause clears once the flag is clear, no PIC of the bay is above 82 °C, and every ring's lock error
is within its window (R44, R311). -/
def State.tryClearRise (s : State) (l : Nat) : State :=
  let b := l / 2
  if !((s.lat l).held.any fun e => e.1 == .rateOfRise) || (s.bay b).rise ||
      (upTo 16).any (fun k => let x := s.sensor (40 * b + 20 + k); x.kind == 0 && decide (82 * 256 < x.reading)) ||
      s.anyRing l (fun x => x.st == .locked && decide (s.window b x.clsNow < x.lockErr.natAbs)) then s
  else s.clearCause l .rateOfRise

/-! ## Inner and outer samples (R303 to R306, R309) -/

/-- A LOW cluster of a serving lattice that needs more than 1.35 mW moves to HIGH: every ring of it has an excursion
(R309). 1.35 mW of 6 mW is above 7,372 of 32,768. -/
def State.spanMove (s : State) (l r : Nat) (u : Int) : State :=
  let q := clusterOf l r
  let c := s.cluster q
  let serving := (s.lat l).state == .serving || (s.lat l).state == .suspect
  if !serving || c.span || u ≤ 7372 then s
  else
    let s := (s.setCluster q (c.ask true)).bump .tmpEventCntSpanMoves (l / 2)
    forEach (upTo 64) (fun s k =>
      let r' := r / 64 * 64 + k
      if s.ringState l r' = .locked then s.excursion l r' s.time else s) s

/-- An outer sample: e is the latest conversion received since the previous one, else 0. -/
def Ring.outer (x : Ring) (c : Comp) (hi : Int) : Ring :=
  let e := x.e.getD 0
  let v := c.v e x.xo x.yo
  let out := clampInt 0 hi v
  { x with e := none, lockErr := e, rstar := out * 65536, xo := shiftIn e x.xo, yo := shiftIn (c.back v out) x.yo }

/-- An inner sample: x = r − f − p, saturated to 16 bits. Gives v before clamping too. -/
def Ring.inner (x : Ring) (c : Comp) (hi : Int) : Ring × Int :=
  let x0 := sat16 (toQ15 x.r - x.f - x.p)
  let v := c.v x0 x.xi x.yi
  let out := clampInt 0 hi v
  ({ x with u := out, xi := shiftIn x0 x.xi, yi := shiftIn (c.back v out) x.yi }, v)

/-- A monitor converter runs in continuous mode (R326). -/
def State.continuous (s : State) (b k : Nat) : Bool :=
  (s.flag .monTestCont b && (s.bay b).contOf == k) ||
    [2 * b, 2 * b + 1].any fun l => (s.lat l).state == .searching && (s.lat l).phase == 1 && s.searchOpen l

/-- A ring's inner sample (R303 to R306). -/
def State.innerVisit (s : State) (l r : Nat) : State :=
  let b := l / 2
  let x := s.ringNow l r
  let cls := x.cls
  let bank := s.bankOf b cls
  let high := s.ringHigh l r
  let hi : Int := if high then 32767 else 8191
  let due := x.count % 8 = rhoOf l r % 8
  -- the class and the bank written take effect at this sample
  let x := { x with clsNow := cls, bank := bank, count := x.count + 1, masked := false,
                    goodSample := if x.masked then x.goodSample else s.time,
                    p := if s.continuous b (r % 256) then powerOf (s.cluster (clusterOf l r)).high (s.tap l r).code else x.p }
  let x := if x.st = .locked && due then x.outer (s.comp b cls bank true) hi else x
  let w4 := s.coef b cls bank 4
  let x :=
    if x.st = .parked then
      let r := (x.atPass - s.feedTerm b x (s.ringTemp l r - x.temp)) * 65536
      { x with r := r, rstar := r, v := 0, a := 0 }
    else
      let m := profile (bitsOf w4 31 0) (bitsOf w4 63 32) (bitsOf (s.coef b cls bank 5) 31 0) x.rstar x.r x.v x.a
      { x with r := m.1, v := m.2.1, a := m.2.2 }
  let i := x.inner (s.comp b cls bank false) hi
  let s := (s.setRing (ringKey l r) i.1).spanMove l r i.1.u
  let s := (s.issueCode l r (codeOf (s.ringHigh l r) i.1.u)).traceSample l r i.2
  if due then s.tryClearRise l else s

/-- INNER_LOOP_VISIT, every 491.52 µs, 30 ns after the ring before it in its lane (R303, R464): visits of rings without a closed loop keep their time and change nothing. -/
def execInnerLoopVisit (l : Fin 8) (r : Fin 131072) (s : State) : Out :=
  let st := s.ringState l r
  if !s.temperOn (l / 2) || (s.bay (l / 2)).rise || !(st == .locked || st == .parked) || s.searchOpen l ||
      !s.onPhase 4915200 (300 * (rhoOf l r / 16)) then .next s
  else .next (s.innerVisit l r)

/-! ## Feedforward (R310) -/

/-- FEEDFORWARD_VISIT, every 81.92 µs, 5 ns after the ring before it in its lane: with the flag set, the code comes from the frozen u less f = G_FF × ΔT (in 1/256 °C). -/
def execFeedforwardVisit (l : Fin 8) (r : Fin 131072) (deltaT : Int) (s : State) : Out :=
  let x := s.ringNow l r
  if !s.temperOn (l / 2) || !(s.bay (l / 2)).rise || !(x.st == .locked || x.st == .parked) ||
      !s.onPhase 819200 (50 * (rhoOf l r / 16)) then .next s
  else
    let x := { x with f := s.feedTerm (l / 2) x deltaT }
    .next ((s.setRing (ringKey l r) x).issueCode l r (codeOf (s.ringHigh l r) (x.u - x.f)))

/-- f folded into the y histories and into r and r* (R310). -/
def Ring.fold (x : Ring) : Ring :=
  { x with yi := x.yi.map fun y => sat16 (y - x.f), yo := x.yo.map fun y => sat16 (y - x.f),
           r := x.r - x.f * 65536, rstar := x.rstar - x.f * 65536, f := 0 }

/-- Fold f of every ring of a bay. -/
def State.foldBay (s : State) (b : Nat) : State :=
  { s with rings := (s.rings.map fun e => if e.1 / 131072 / 2 = b && e.2.f ≠ 0 then (e.1, e.2.fold) else e).filter fun e =>
      e.2 ≠ Ring.reset }

/-! ## Bank swaps (R307) -/

/-- A class's swap is in progress: its rings take the other bank within 491.52 µs. -/
def State.swapBusy (s : State) (b k : Nat) : Bool :=
  let t := tget 0 (s.bay b).swaps k
  t ≠ 0 && decide (s.time < t - 1 + 491520)

/-- BANK_SWAP: a write of 1 to bit k switches class k; a class whose swap is in progress is refused and logged. -/
def State.bankSwap (s : State) (b v : Nat) : State :=
  forEach (upTo 64) (fun s k =>
    if !bitOf v k then s
    else if s.swapBusy b k then s.event .tmpBankRefused .bay b noCtx []
    else
      let s := s.setFld .tmpBankActiveBank b (Nat.xor (s.fld .tmpBankActiveBank b) (2 ^ k))
      s.modBay b fun y => { y with swaps := tset 0 y.swaps k (s.time + 1) }) s

/-- BANK_SWAP; held while the temper engine is powered down (R440). -/
def execBankSwap (p : Path) (b : Fin 4) (v : Word) (s : State) : Out :=
  if !s.served p then .next s
  else if Block.down (s.bay b).unitState .temper then .next (s.holdWrite p b (Reg.tmpBankSwap.addr b) 0 v.toNat)
  else .next (s.bankSwap b v.toNat)

end Sys2Proof.Machine
end

