-- ==== Sys2Proof/Machine/Calibration.lean ====
section
/-! DEFINITION. Calibration: drive tables and their ramps, residuals, episodes, and the store of adapted sets (R72, R73,
R328 to R340). -/

namespace Sys2Proof.Machine

/-! ## Tables (R328, R329, R331) -/

/-- The lower of the two temperature sets that bracket a T_L (R329): sets at 45, 53, 61, 69 and 77 °C. -/
def setBelow (t : Int) : Nat :=
  if t < 53 * 256 then 0 else if t < 61 * 256 then 1 else if t < 69 * 256 then 2 else 3

/-- PIC temperature of a temperature set, in 1/256 °C. -/
def setTemp (k : Nat) : Int := (45 + 8 * k) * 256

/-- T_L clamped to 42 °C to 82 °C. -/
def clampTL (t : Int) : Int := clampInt (42 * 256) (82 * 256) t

/-- A trim after some sweeps and random probe slots since fold number `epoch` (R335): zero after a fold, else a free value within
±64. A ring's trims change with every 64th sweep, a column's with every 4,096 readings, of which a slot gives 512. -/
def trimAt (l e epoch swept randoms : Nat) : Int :=
  let n := if e < 131072 * 16 then swept / 64 else randoms / 8
  if n = 0 then 0 else clampInt (-64) 64 (Config.trim l e epoch n).toInt

/-- Gain and offset trims of a readout chain (R328), updated with every 4,096 random readings of the chain. -/
def Lattice.readoutTrims (x : Lattice) (l row : Nat) : BitVec 16 × BitVec 8 :=
  (Config.readoutGain l row (x.randoms / 4096), Config.readoutOffset l row (x.randoms / 4096))

/-- Adapted delta of a set, a signed 8-bit value: every fold adds the trim to both bracketing sets (R331). -/
def adaptedDelta (l e k : Nat) (folds : List (Nat × Nat × Int)) : Int :=
  clampInt (-128) 127 (folds.zipIdx.foldl (fun a f =>
    let b := setBelow f.1.2.2
    if k = b || k = b + 1 then a + trimAt l e f.2 f.1.1 f.1.2.1 else a) 0)

/-- A working set's entry, after some folds. -/
def Lattice.setVal (x : Lattice) (l e k folded : Nat) (factory : Bool) : Int :=
  (Config.factorySet l e k).toNat + (if factory then 0 else adaptedDelta l e k (x.folds.take folded))

/-- An entry of some tables (R329): interpolated, plus the trim, rounded half to even and clamped. -/
def Lattice.entryAt (x : Lattice) (l e : Nat) (t : Tables) : Int :=
  let k := setBelow t.temp
  let d := x.setVal l e k t.folded t.factory
  let d' := x.setVal l e (k + 1) t.folded t.factory
  let tr := if t.factory then 0 else trimAt l e t.folded t.swept t.randoms
  clampInt 0 4095 (roundHalfEven ((d + tr) * 2048 + (d' - d) * (t.temp - setTemp k)) 2048)

/-- A ramp's value (R332): 16 equal steps rounded to whole codes, the remainder in the last. -/
def rampValue (v target : Int) (step : Nat) : Int :=
  if 16 ≤ step then target else v + step * roundHalfEven (target - v) 16

/-- An entry's drive code now: each correction in turn acts on the value applied when it started (R332, R333). -/
def Lattice.driveCode (x : Lattice) (l e : Nat) : Int :=
  match x.tables with
  | none => 0
  | some t => x.ramps.foldr (fun r v =>
      let g := x.entryAt l e r.goal
      if (g - v).natAbs ≤ 4 then (if r.landed then g else v) else rampValue v g r.step)
    (x.entryAt l e t)

/-- Table entries of a lattice: 16 of each ring, then 16 of each column. -/
def tableEntries : Nat := 131072 * 16 + 256 * 16

/-- The newest tables. -/
def Lattice.newest (x : Lattice) : Option Tables := (x.ramps.head?.map (·.goal)).orElse fun _ => x.tables

/-- T_L of a lattice (R329, R381): the mean of the PIC sensors beneath it, a broken one replaced by its nearest valid
one; rounded half to even, and clamped. -/
def State.tl (s : State) (l : Nat) : Int :=
  let base := 40 * (l / 2) + 20
  let pick (i : Nat) : Int :=
    let k := if (s.sensor (base + i)).kind = 0 then i else
      let at_ (k : Nat) : Nat := (Config.nearestTo (base + i) k).val
      at_ (((upTo 16).find? fun k => (s.sensor (base + at_ k)).kind == 0).getD 0)
    (s.sensor (base + k)).reading
  let v := (Config.beneath l).map fun i => pick i.val
  clampTL (if v.isEmpty then 0 else roundHalfEven (v.foldl (· + ·) 0) v.length)

/-- A correction to a T_L and the trims of now starts (R332): entries that change by more than 4 codes ramp. -/
def State.correct (s : State) (l : Nat) (t : Int) (factory : Bool) : State :=
  let x := s.lat l
  let g : Tables := { temp := t, factory := factory, folded := x.folds.length, swept := x.swept, randoms := x.randoms }
  match x.tables with
  | none => s.setLat l { x with tables := some g }
  | some _ =>
    let n := ((upTo tableEntries).filter fun e => decide (4 < (x.entryAt l e g - x.driveCode l e).natAbs)).length
    let r : Ramp := { goal := g, step := 0, start := s.time, count := n, landed := false }
    ((s.bump .calEventCntRamps l n).setFld .calStatusRampStep l 0).setLat l { x with ramps := r :: x.ramps }

/-- The trims have changed: a correction takes them in (R332, R335), once no rate-of-rise flag is set (R333). -/
def State.takeTrims (s : State) (l : Nat) : State :=
  match (s.lat l).newest with
  | some t => if t.factory || (s.bay (l / 2)).rise then s else s.correct l t.temp false
  | none => s

/-- The tables follow T_L (R329, R333): a change of 0.25 °C, or any change with `force`, while no rate-of-rise flag is
set. -/
def State.retune (s : State) (l : Nat) (force : Bool) : State :=
  let t := s.tl l
  if (s.bay (l / 2)).rise then s
  else match (s.lat l).newest with
  | none => s.correct l t (s.flag .calCtrlUseFactory l)
  | some u =>
    if (force && t ≠ u.temp) || 64 ≤ (t - u.temp).natAbs then s.correct l t (s.flag .calCtrlUseFactory l)
    else if force then s.takeTrims l else s

/-- RAMP_STEP: the latest correction's ramps take their next step; after the sixteenth every entry is at its target. -/
def execRampStep (l : Fin 8) (s : State) : Out :=
  let x := s.lat l
  match x.ramps with
  | [] => .next s
  | r :: rest =>
    let s := s.setFld .calStatusRampStep l (r.step + 1)
    if 15 ≤ r.step then .next (s.setLat l { x with ramps := [], tables := some r.goal })
    else .next (s.setLat l { x with ramps := { r with step := r.step + 1 } :: rest })

/-! ## Residuals (R72, R73) -/

/-- RESIDUAL_PUBLISH: RMS and BIAS in LSB × 2¹²; beyond 0.5 and 0.05 LSB a SERVING lattice that is not CAL_STALE is
recalibrated. -/
def execResidualPublish (l : Fin 8) (rms bias : BitVec 16) (s : State) : Out :=
  match (s.lat l).state with
  | .locked | .serving | .suspect =>
    let s := (s.setFld .latResidRms l rms.toNat).setFld .latResidBias l bias.toNat
    let s := s.raise .latResidPeak l rms.toNat
    if (s.lat l).state = .serving && !s.flag .calStatusStale l &&
        (decide (2048 < rms.toNat) || decide (4096 < 20 * bias.toInt.natAbs)) then .next (s.startEpisode l 2)
    else .next s
  | _ => .next s

/-! ## Episodes (R337 to R339) -/

/-- CAL_EPISODE_START: a write of 1 to CAL_CTRL.START. -/
def execCalEpisodeStart (p : Path) (l : Fin 8) (s : State) : Out :=
  if s.served p then .next (s.startEpisode l 4) else .next s

/-- EPISODE_INTERVAL: an episode converges at the second interval in a row that meets R338: at least 64 sweep readings
of every unmasked ring, RMS at most 0.45 and mean at most 0.04 LSB, no trim update above 2 codes. -/
def execEpisodeInterval (l : Fin 8) (sweeps : Nat) (rms bias : BitVec 16) (maxTrim : Nat) (s : State) : Out :=
  let x := s.lat l
  if x.episode.isNone then .next s
  else
    let met := decide (64 ≤ sweeps) && decide (100 * rms.toNat ≤ 45 * 4096) &&
      decide (100 * bias.toInt.natAbs ≤ 4 * 4096) && decide (maxTrim ≤ 2)
    if met && x.episodeMet then
      let s := s.modLat l fun x => { x with episode := none, episodeMet := false }
      .next ((s.setFld .calConvergedTime l s.time).setStale l false)
    else .next (s.modLat l fun x => { x with episodeMet := met })

/-- EPISODE_TIMEOUT: an episode not converged at 200 ms makes the lattice CAL_STALE; the episode continues. -/
def execEpisodeTimeout (l : Fin 8) (s : State) : Out :=
  if (s.lat l).episode.isNone || s.flag .calStatusStale l then .next s
  else .next (((s.setStale l true).bump .calEventCntStale l).event .calStale .lattice l noCtx [])

/-! ## The store of adapted sets (R331) -/

/-- A save starts: the trims are folded into the working sets; a save in progress absorbs the request. -/
def State.startSave (s : State) : State :=
  if s.flash.calBusy || !s.boot.on then s
  else
    let s := forEach (upTo 8) (fun s l => s.modLat l fun x =>
      match x.newest with
      | none => x
      | some t => { x with folds := x.folds ++ [(x.swept, x.randoms, t.temp)], swept := 0, randoms := 0 }) s
    { s with flash := { s.flash with calBusy := true } }

/-- CAL_SAVE_DUE: every 24 h. -/
def execCalSaveDue (s : State) : Out := .next s.startSave

/-- CAL_SAVE_REQUEST: a write of 1 to CAL_STORE_CTRL.SAVE. -/
def execCalSaveRequest (p : Path) (s : State) : Out := if s.served p then .next s.startSave else .next s

/-- The save completes: the other copy is in use, its time is noted, and CAL_COPY is journalled. A save pauses while the
write window is closed (R360). -/
def State.endSave (s : State) : State :=
  if !s.flash.calBusy || !s.jnl.windowOpen then s
  else
    let copy := 1 - s.flash.calCopy
    let s : State := { s with flash := { s.flash with
      calBusy := false, calCopy := copy, calTime := s.time % 2 ^ 48, calFolds := (upTo 8).map fun l => (s.lat l).folds,
      calOther := s.flash.calFolds } }
    s.journal .calCopy [copy, s.time]

end Sys2Proof.Machine
end

