-- ==== Sys2Proof/Machine/Vector.lean ====
section
/-! DEFINITION. The VEC step (R92, R107, R127). -/

namespace Sys2Proof.Machine

/-- A step's result: the next state, or a fault code with the state it leaves. -/
abbrev StepRun := Except (Nat × State) State

/-- A read that may fault, in a state. -/
def orFault {α : Type} (s : State) : Except Nat α → Except (Nat × State) α
  | .ok a => .ok a
  | .error c => .error (c, s)

/-- Fold a step's work over a list, keeping what was done before a fault. -/
def foldRun {α : Type} (f : State → α → StepRun) : List α → State → StepRun
  | [], s => .ok s
  | a :: r, s => match f s a with
    | .ok s => foldRun f r s
    | .error e => .error e

/-! ## Masks (R105, R107) -/

/-- Base of the mask: item 0 of S_MASK (R156, R158). -/
def maskBase (s : State) (c : Ctx) (th : Thread) (n : Nat) : Except Nat Nat :=
  if n = noStream then .error fltUnderrun
  else match streamItems s c th n 8 8 1 false with
    | .error e => .error e
    | .ok (i :: _) => match itemVa i with
      | some va => .ok va
      | none => .error fltNull
    | .ok [] => .error fltUnderrun

/-- Which items a mask lets pass: bit ⌊v/G⌋ (R107); every item without a mask. -/
def maskBit (s : State) (c : Ctx) (base : Option Nat) (g v : Nat) : Except Nat Bool :=
  match base with
  | none => .ok true
  | some a => (s.readVirt c (a + v / g / 8) 1).map fun b => bitOf (leNat b) (v / g % 8)

/-! ## Elements -/

/-- Items that hold `n` elements of a type (R156): a Q4 item holds two. -/
def Ty.items (t : Ty) (n : Nat) : Nat := if t = .q4 then (n + 1) / 2 else n

/-- Read element `i` of a stream. -/
def readElem (s : State) (c : Ctx) (t : Ty) (items : List Item) (i : Nat) : Except Nat Nat :=
  match items[if t = .q4 then i / 2 else i]? with
  | none => .error fltUnderrun
  | some it => (readItem s c it t.bytes).map fun b =>
      if t = .q4 then leNat b / 16 ^ (i % 2) % 16 else leNat b

/-- Write elements from element 0 on; `none` is not written. Under Q4 the pair that shares a byte is written whole; a
half that holds no element is a free value (R127; log entry 3). -/
def writeElems (c : Ctx) (func : Nat) (t : Ty) (items : List Item) (es : List (Option Nat)) (s : State) : StepRun :=
  if t = .q4 then
    foldRun (fun s j =>
      match es[2 * j]?, items[j]? with
      | some (some lo), some it =>
        let hi := match es[2 * j + 1]? with
          | some (some h) => h
          | _ => (Config.padNibble func).toNat
        orFault s (writeItem s c it [BitVec.ofNat 8 (lo % 16 + 16 * (hi % 16))])
      | _, _ => .ok s) (upTo ((es.length + 1) / 2)) s
  else
    foldRun (fun s p => match p.1, items[p.2]? with
      | some v, some it => orFault s (writeItem s c it (leBytes t.bytes v))
      | _, _ => .ok s) es.zipIdx s

/-- The operand IMM: FP32 for the floating-point types, a signed integer for the others (R127; DEDUCED, log entry 24). -/
def immOf (t : Ty) (v : Nat) : FV := if t.isInt then ofNum (signed 32 v) 0 false else f32 v

/-! ## Functions -/

/-- MAX and MIN: NaN where an operand is NaN; which zero comes of two zeros is free (log entry 3). -/
def pickFV (func : Nat) (mx : Bool) (a b : FV) : FV :=
  if a.isNan || b.isNan then .nan
  else if a.isZero && b.isZero && a != b then .fin (Config.zeroSign func) 0 0
  else if a.le b then (if mx then b else a) else (if mx then a else b)

/-- FUNC 0x00 to 0x07 on one element (R127). -/
def elementwise (func : Nat) (a b imm : FV) : FV :=
  match func with
  | 0 => a.add b
  | 1 => a.add b.neg
  | 2 => a.mul b
  | 3 => pickFV func true a b
  | 4 => pickFV func false a b
  | 6 => (a.mul imm).add b
  | _ => a.mul imm

/-- EXP, RECIP, RSQRT in FP32 (R127): NaN of a NaN; within 2 units in the last place of the exact result, otherwise free;
free where R127 states no result. -/
def unary32 (func : Nat) (x : FV) : Nat :=
  let bits := BitVec.ofNat 32 (toF32 x)
  let near (neg : Bool) (r : Nat × Int) : Nat := boolNat neg * 2 ^ 31 + freeNear 2 func [bits] 0 r.1 r.2
  match x, func with
  | .nan, _ => toF32 .nan
  | .fin neg m e, 0x08 => near false (expOf neg (magFix m e))
  | .fin neg (m + 1) e, 0x09 => near neg (2 ^ 400 / (m + 1), -400 - e)
  | .fin false (m + 1) e, 0x0A => near false (rsqrtOf (m + 1) e)
  | _, _ => (Config.vecUnary func bits).toNat

/-- EXP, RECIP, RSQRT: a B16 result is the FP32 result rounded (R127). -/
def unary (func : Nat) (t : Ty) (x : FV) : Nat := t.write (f32 (unary32 func x))

/-- 1/m in FP32: 60 quotient bits and a sticky bit, rounded once. -/
def reciprocal (m : Nat) : FV :=
  f32 (toF32 (.fin false (2 * (2 ^ 60 / m) + boolNat (2 ^ 60 % m ≠ 0)) (-61)))

def FV.isPosInf : FV → Bool
  | .inf false => true
  | _ => false

def FV.isNegInf : FV → Bool
  | .inf true => true
  | _ => false

/-- SOFTMAX of a row (R127): within 4 units in the last place of the exact share, otherwise free. -/
def softmaxRow (l : List FV) : List FV :=
  if l.any FV.isNan then l.map fun _ => .nan
  else if l.any FV.isPosInf then
    let m := (l.filter FV.isPosInf).length
    l.map fun x => if x.isPosInf then reciprocal m else .fin false 0 0
  else if l.all FV.isNegInf then l.map fun _ => .nan
  else
    let bits := l.map fun x => BitVec.ofNat 32 (toF32 x)
    (softmaxShares l).zipIdx.map fun x => if x.1 = 0 then .fin false 0 0 else f32 (freeNear 4 0x0B bits x.2 x.1 (-320))

/-- a ranks above b in TOPK: larger value, then lower index; NaN lowest. -/
def topAbove (a b : FV × Nat) : Bool :=
  if a.1.isNan && b.1.isNan then decide (a.2 < b.2)
  else if a.1.isNan then false
  else if b.1.isNan then true
  else if !(a.1.le b.1) then true
  else if !(b.1.le a.1) then false
  else decide (a.2 < b.2)

/-- Insert into a list ordered by `topAbove`. -/
def topInsert (x : FV × Nat) : List (FV × Nat) → List (FV × Nat)
  | [] => [x]
  | y :: r => if topAbove x y then x :: y :: r else y :: topInsert x r

/-- The K pairs of a row (R127). -/
def topPairs (t : Ty) (k : Nat) (l : List FV) : List (Nat × Nat) :=
  let top := ((l.zipIdx).foldl (fun r x => topInsert x r) []).take k
  let fill := if t.isInt then t.ofInt (-(2 ^ (t.width - 1))) else t.write .nan
  (top.map fun x => (t.write x.1, x.2)) ++ List.replicate (k - top.length) (fill, 0xFFFF_FFFF)

/-- The block exponent and codes of QUANT (R55, R127). -/
def quantBlock (t : Ty) (l : List FV) : Nat × List Nat :=
  if l.any (fun x => x.isNan || x.isPosInf || x.isNegInf) then (255, l.map fun _ => 0)
  else if l.all FV.isZero then (127, l.map fun _ => 0)
  else
    let code (e : Nat) (x : FV) : Int := match x with
      | .fin neg m q => scaleRound (if neg then -(m : Int) else m) (q - ((e : Int) - 127))
      | _ => 0
    let fits (e : Nat) : Bool := l.all fun x => t.sat (code e x) == code e x
    let e := (firstFrom fits 255 0).getD 254
    (e, l.map fun x => t.ofInt (code e x))

/-- A ≥ IMM; a NaN passes (R127 CMPGE). -/
def cmpGe (a imm : FV) : Bool := a.isNan || imm.le a

/-! ## The step -/

/-- The pieces of `n` elements in rows of `m`: first element and length. -/
def rowsOf (n m : Nat) : List (Nat × Nat) := (upTo ((n + m - 1) / m)).map fun r => (r * m, min m (n - r * m))

/-- Read the elements of a row as values. -/
def readRow (s : State) (c : Ctx) (t : Ty) (items : List Item) (lo n : Nat) : Except Nat (List FV) :=
  (upTo n).mapM fun i => (readElem s c t items (lo + i)).map t.read

/-- The parameters of a VEC step as its functions read them. -/
structure VecIn where
  c : Ctx
  tin : Ty
  tout : Ty
  func : Nat
  count : Nat
  imm : Nat
  k : Nat
  mask : Option Nat
  gran : Nat
  a : List Item
  b : List Item
  out : List Item

/-- Element-by-element functions: what each element becomes, none where the mask is 0. -/
def vecElements (v : VecIn) (s : State) : Except Nat (List (Option Nat)) :=
  let pair := v.func == 0x12 && (v.tin == .q4 || v.tout == .q4)
  (upTo v.count).mapM fun i => do
    if ← maskBit s v.c v.mask v.gran (if pair then i / 2 else i) then
      let x := v.tin.read (← readElem s v.c v.tin v.a i)
      if v.func ≤ 4 || v.func = 6 then
        let y := v.tin.read (← readElem s v.c v.tin v.b i)
        pure (some (v.tout.writeArith (elementwise v.func x y (immOf v.tin v.imm))))
      else if v.func = 7 then pure (some (v.tout.writeArith (elementwise 7 x x (immOf v.tin v.imm))))
      else if v.func = 0x12 then pure (some (v.tout.write x))
      else pure (some (unary v.func v.tout x))
    else pure none

/-- A step faulted by R92 is counted (VEC_RED_CNT.OVF). -/
def redOverflow (s : State) (engine : Nat) : Nat × State := (fltOverflow, s.bump .vecRedCntOvf engine)

/-- REDUCE: K parts, element by element (R92). -/
def vecReduce (v : VecIn) (engine : Nat) (s : State) : StepRun := do
  let es ← (upTo v.count).mapM fun i => do
    if ← orFault s (maskBit s v.c v.mask v.gran i) then
      let parts ← orFault s ((upTo v.k).mapM fun k => (readElem s v.c v.tin v.a (k * v.count + i)).map v.tin.read)
      match reduceTo v.tout parts with
      | some r => pure (some r)
      | none => .error (redOverflow s engine)
    else pure none
  writeElems v.c v.func v.tout v.out es s

/-- SUMROW: one sum per row (R92). -/
def vecSumrow (v : VecIn) (engine : Nat) (s : State) : StepRun := do
  let es ← (rowsOf v.count v.imm).zipIdx.mapM fun r => do
    if ← orFault s (maskBit s v.c v.mask v.gran r.2) then
      match reduceTo v.tout (← orFault s (readRow s v.c v.tin v.a r.1.1 r.1.2)) with
      | some x => pure (some x)
      | none => .error (redOverflow s engine)
    else pure none
  writeElems v.c v.func v.tout v.out es s

/-- SOFTMAX row by row. -/
def vecSoftmax (v : VecIn) (s : State) : StepRun := do
  let es ← (rowsOf v.count v.imm).zipIdx.mapM fun r => do
    if ← orFault s (maskBit s v.c v.mask v.gran r.2) then
      pure ((softmaxRow (← orFault s (readRow s v.c v.tin v.a r.1.1 r.1.2))).map fun x => some (v.tout.write x))
    else pure (List.replicate r.1.2 none)
  writeElems v.c v.func v.tout v.out es.flatten s

/-- TOPK row by row: pair n of row r is item rK + n (R156). -/
def vecTopk (v : VecIn) (s : State) : StepRun :=
  foldRun (fun s r => do
    if ← orFault s (maskBit s v.c v.mask v.gran r.2) then
      let l ← orFault s (readRow s v.c v.tin v.a r.1.1 r.1.2)
      foldRun (fun s p => match v.out[r.2 * v.k + p.2]? with
        | some it => orFault s (writeItem s v.c it (leBytes v.tout.bytes p.1.1 ++ leBytes 4 p.1.2))
        | none => .ok s) (topPairs v.tout v.k l).zipIdx s
    else .ok s) (rowsOf v.count v.imm).zipIdx s

/-- QUANT block by block: codes to S_OUT, exponents to S_B. -/
def vecQuant (v : VecIn) (s : State) : StepRun := do
  let bs ← (rowsOf v.count 32).zipIdx.mapM fun r => do
    if ← orFault s (maskBit s v.c v.mask v.gran r.2) then
      pure (some (quantBlock v.tout (← orFault s (readRow s v.c v.tin v.a r.1.1 r.1.2))), r.1.2)
    else pure (none, r.1.2)
  let codes := bs.flatMap fun (b : Option (Nat × List Nat) × Nat) => match b.1 with
    | some q => q.2.map some
    | none => List.replicate b.2 none
  let s ← writeElems v.c v.func v.tout v.out codes s
  foldRun (fun s (p : (Option (Nat × List Nat) × Nat) × Nat) => match p.1.1, v.b[p.2]? with
    | some q, some it => orFault s (writeItem s v.c it [BitVec.ofNat 8 q.1])
    | _, _ => .ok s) bs.zipIdx s

/-- CMPGE: one word of the mask per 64 elements; bits beyond COUNT are 0 (R105). -/
def vecCmpge (v : VecIn) (s : State) : StepRun :=
  foldRun (fun s r => do
    if ← orFault s (maskBit s v.c v.mask v.gran r.2) then
      let l ← orFault s (readRow s v.c v.tin v.a r.1.1 r.1.2)
      let w := l.zipIdx.foldl (fun n x => if cmpGe x.1 (immOf v.tin v.imm) then n + 2 ^ x.2 else n) 0
      match v.out[r.2]? with
      | some it => orFault s (writeItem s v.c it (leBytes 8 w))
      | none => .ok s
    else .ok s) (rowsOf v.count 64).zipIdx s

/-- Items each stream of a VEC step must emit, and the size of an output item (R156, R157). -/
def vecNeeds (func : Nat) (tin tout : Ty) (count imm k : Nat) : Nat × Nat × Nat × Nat :=
  let rows := if imm = 0 then 0 else (count + imm - 1) / imm
  let na := if func = 0x10 then k * count else tin.items count
  let nb := if func ≤ 4 || func = 6 then tin.items count else if func = 0x13 then (count + 31) / 32 else 0
  let no := if func = 0x0C then rows else if func = 0x11 then rows * k else if func = 0x14 then (count + 63) / 64
    else tout.items count
  let zo := if func = 0x11 then tout.bytes + 4 else if func = 0x14 then 8 else tout.bytes
  (na, nb, no, zo)

/-- Gather a stream's items where some are needed. -/
def vecStream (s : State) (c : Ctx) (th : Thread) (n z need : Nat) : Except Nat (List Item) := do
  needStream n need
  if need = 0 then .ok [] else streamItems s c th n z (itemAlign z) need false

/-- Elements of an item of a type. -/
def Ty.perItem : Ty → Nat
  | .q4 => 2
  | _ => 1

/-- The item that a mask bit governs and that item `i` of a stream belongs to (R127): stream 0 is S_A, 1 S_B, 2 S_OUT. -/
def VecIn.governed (v : VecIn) (stream i : Nat) : Nat :=
  let e := i * (if stream = 2 then v.tout else v.tin).perItem
  match v.func with
  | 0x0B => e / max 1 v.imm
  | 0x0C => if stream = 2 then i else e / max 1 v.imm
  | 0x10 => i % max 1 v.count
  | 0x11 => if stream = 2 then i / max 1 v.k else e / max 1 v.imm
  | 0x12 => if v.tin == .q4 || v.tout == .q4 then e / 2 else e
  | 0x13 => if stream = 1 then i else e / 32
  | 0x14 => if stream = 2 then i else e / 64
  | _ => i

/-- The items of a stream that the mask lets pass (R107). -/
def VecIn.unmasked (v : VecIn) (s : State) (stream : Nat) (l : List Item) : Except Nat (List Item) := do
  let l ← l.zipIdx.mapM fun x => (maskBit s v.c v.mask v.gran (v.governed stream x.2)).map fun b => (x.1, b)
  .ok ((l.filter (·.2)).map (·.1))

/-- The mask words of `n` governed items are read as a stream (R105, R156). -/
def State.openMask (s : State) (t uid n gran items : Nat) (mask : Option Nat) : State :=
  match mask with
  | none => s
  | some va => s.openItems t uid .sMask false n [(some va, 0, 0)] (8 * ((items + 64 * gran - 1) / (64 * gran)))

/-- What VEC does as it issues (R127): its whole effect, then its streams drain until STEP_COMPLETE. -/
def vecEffect (t : Nat) (s : State) (th : Thread) (w uid : Nat) : StepRun := do
  let c := s.ctx th.ctx
  match tyOf (vecTin w), tyOf (vecTout w) with
  | some tin, some tout =>
    let tout := if vecFunc w = 0x14 then .fp32 else tout
    let need := vecNeeds (vecFunc w) tin tout (vecCount w) (vecImm w) (vecK w)
    let zb := if vecFunc w = 0x13 then 1 else tin.bytes
    let mask ← if vecMasken w && decide (0 < vecCount w) then (orFault s (maskBase s c th (vecMask w))).map some
      else .ok none
    let a ← orFault s (vecStream s c th (vecA w) tin.bytes need.1)
    let b ← orFault s (vecStream s c th (vecB w) zb need.2.1)
    let out ← orFault s (vecStream s c th (vecOut w) need.2.2.2 need.2.2.1)
    let v : VecIn := { c := c, tin := tin, tout := tout, func := vecFunc w, count := vecCount w, imm := vecImm w,
                       k := vecK w, mask := mask, gran := vecGran w, a := a, b := b, out := out }
    let engine := (((s.thread t).step? uid).map (·.engine)).getD 0
    let ua ← orFault s (v.unmasked s 0 a)
    let ub ← orFault s (v.unmasked s 1 b)
    let uo ← orFault s (v.unmasked s 2 out)
    let last := if vecCount w = 0 then 0 else v.governed 0 (need.1 - 1) + 1
    let s ← match vecFunc w with
      | 0x10 => vecReduce v engine s
      | 0x0B => vecSoftmax v s
      | 0x0C => vecSumrow v engine s
      | 0x11 => vecTopk v s
      | 0x13 => vecQuant v s
      | 0x14 => vecCmpge v s
      | _ => do
        let es ← orFault s (vecElements v s)
        writeElems c v.func tout out es s
    let s := s.openMask t uid (vecMask w) (vecGran w) last mask
    let s := ((s.openItems t uid .sA false (vecA w) ua tin.bytes).openItems t uid .sB (vecFunc w == 0x13) (vecB w) ub
      zb).openItems t uid .sOut true (vecOut w) uo need.2.2.2
    .ok (s.regrant (threadBay t))
  | _, _ => .error (0x03, s)

/-- VEC. -/
def execVec (t : Fin 512) (s : State) : Out := .next (s.longStep t .vec (vecEffect t))

end Sys2Proof.Machine
end

