-- ==== Sys2Proof/Machine/Matmul.lean ====
section
/-! DEFINITION. The MATMUL step: its pieces, input conversion, weight planes, dealing pieces to lattices, and the
arithmetic of the row cells (R25 to R38, R52, R54 to R71, R76 to R83, R96 to R103, R125, R126, R137, R157). -/

namespace Sys2Proof.Machine

/-! ## Sizes (R28, R56, R76 to R79, R156) -/

/-- Bytes of an input vector. -/
def inBytes (pair : Nat) : Nat := if pair ≤ 1 then 128 else if pair = 8 then 512 else 256

/-- Slots per vector and plane. -/
def slotCost (pair : Nat) : Nat := if pair ≤ 1 then 1 else 2

/-- Planes per weight tile. -/
def subPlanes (pair : Nat) : Nat := if q8Weights pair then 2 else 1

/-- Bytes of a value of an accumulator format in memory. -/
def accBytes (acc : Nat) : Nat := if acc = 1 then 8 else 4

/-- Vectors of a HOLD group. -/
def groupSize (acc : Nat) : Nat := if acc = 1 then 42 else 64

/-- Vectors of a piece: a chunk's (R126) or a group's (R78). -/
def pieceSize (w : Nat) : Nat := if mmMode w = 1 then groupSize (mmAcc w) else 1016

/-- Bytes of an output or carry item. -/
def outBytes (w : Nat) : Nat := mmRows w * accBytes (mmAcc w)

/-- Whether a step accumulates in FP32. -/
def mmFp (w : Nat) : Bool := mmAcc w == 2

/-- Alignment of a weight image (R36, R37, R58, R96). -/
def imageAlign (wimg : Nat) : Nat := if wimg = 0 then 65536 else if wimg = 1 then 64 else 1024

/-- Stride of weight items. -/
def tileStride (pair : Nat) : Nat := if q8Weights pair then 131072 else 65536

/-- Whether a step reads input scales, and weight scales (R56, R57, R64). -/
def readsIscale (w : Nat) : Bool := mmFp w && mmIscale w != noStream && mmPair w ≤ 3
def readsWscale (w : Nat) : Bool := mmFp w && mmWscale w != noStream && mmWimg w != 2

/-! ## Its streams -/

/-- The items of a stream of a step, from the generator inputs the step began with. -/
def mmItems (s : State) (c : Ctx) (a : Active) (n z align need : Nat) : Except Nat (List Item) := do
  needStream n need
  streamItems s c a.env n z align need false

/-- A stream whose null items are NULL faults (R158). -/
def mmSolid (s : State) (c : Ctx) (a : Active) (n z align need : Nat) : Except Nat (List Item) := do
  let l ← mmItems s c a n z align need
  if l.any fun i => i.1.isNone then .error fltNull else .ok l

/-- Item `k` of a stream. -/
def mmItem (l : List Item) (k : Nat) : Except Nat Item :=
  match l[k]? with
  | some i => .ok i
  | none => .error fltUnderrun

/-- The item of S_IN, or of S_ISCALE, for pass `p` of vector `v` (R156). Its stencil is run on memory as it stands (R108:
DESIGN CHOICE, log entry 41). -/
def inItem (s : State) (c : Ctx) (a : Active) (n z p v : Nat) : Except Nat Item := do
  let k := p * a.vectors + v
  mmItem (← mmItems s c a n z (itemAlign z) (k + 1)) k

/-! ## Conversion to block-fixed form (R54 to R62) -/

/-- A block of 32 elements in block-fixed form: codes, exponent, whether an element is nonzero, whether the block is
nonfinite. -/
structure InBlock where
  codes : List Int
  exp : Int
  nz : Bool
  bad : Bool
  deriving DecidableEq, Repr

/-- A Q4 or Q8 block as stored; a nonfinite block issues value 0 (R61, R62). -/
def blockQ (codes : List Int) (e : Nat) : InBlock :=
  if e = 255 then { codes := codes.map fun _ => 0, exp := 127, nz := false, bad := true }
  else { codes := codes, exp := e, nz := codes.any (· ≠ 0), bad := false }

/-- The F4 fold (R59). -/
def blockF4 (els : List Nat) (e : Nat) : InBlock :=
  let big := els.any fun x => 6 ≤ x % 8
  let mag (x : Nat) : Nat := (if big then [0, 0, 1, 2, 2, 3, 4, 6] else [0, 1, 2, 3, 4, 6, 0, 0]).getD (x % 8) 0
  let codes := els.map fun x => if bitOf x 3 then -(mag x : Int) else mag x
  if e = 255 then { codes := codes.map fun _ => 0, exp := 127, nz := false, bad := true }
  else { codes := codes, exp := if big then e else (e : Int) - 1, nz := els.any fun x => x % 8 ≠ 0, bad := false }

/-- An F8 or B16 element: sign, effective exponent field, significand, whether it is a NaN or an infinity. -/
structure FElem where
  neg : Bool
  f : Nat
  sig : Nat
  bad : Bool

/-- Read an element with `eb` exponent bits and `mb` mantissa bits; `isBad` says which patterns are nonfinite. -/
def fElem (eb mb : Nat) (isBad : Nat → Nat → Bool) (x : Nat) : FElem :=
  let ex := x / 2 ^ mb % 2 ^ eb
  let man := x % 2 ^ mb
  { neg := bitOf x (eb + mb), f := max ex 1, sig := if ex = 0 then man else 2 ^ mb + man, bad := isBad ex man }

/-- The conversion of R60. -/
def blockF (k bias : Int) (els : List FElem) : InBlock :=
  if els.any (·.bad) then { codes := els.map fun _ => 0, exp := 127, nz := false, bad := true }
  else
    match (els.filter fun e => e.sig ≠ 0).map (·.f) with
    | [] => { codes := els.map fun _ => 0, exp := 127, nz := false, bad := false }
    | x :: r =>
      let top := r.foldl max x
      let code (e : FElem) : Int :=
        let m := min (scaleRound e.sig ((e.f : Int) - top + k)) 127
        if e.neg then -m else m
      { codes := els.map code, exp := top + bias, nz := true, bad := false }

/-- Input formats. -/
inductive InFmt where
  | q4 | f4 | q8 | e4m3 | e5m2 | b16
  deriving DecidableEq, Repr

/-- The input format of a pair. -/
def inFmt : Nat → InFmt
  | 0 => .q4
  | 1 => .f4
  | 2 | 3 => .q8
  | 4 | 6 => .e4m3
  | 5 | 7 => .e5m2
  | _ => .b16

/-- The elements of an input vector, in column order (R56). -/
def elements (f : InFmt) (b : List Byte) : List Nat :=
  match f with
  | .q4 | .f4 => b.flatMap fun x => [x.toNat % 16, x.toNat / 16]
  | .b16 => (upTo 256).map fun i => leNat ((b.drop (2 * i)).take 2)
  | _ => b.map BitVec.toNat

/-- A block of an input vector from its elements and stored exponent. -/
def toBlock (f : InFmt) (els : List Nat) (e : Nat) : InBlock :=
  match f with
  | .q4 => blockQ (els.map (signed 4)) e
  | .f4 => blockF4 els e
  | .q8 => blockQ (els.map (signed 8)) e
  | .e4m3 => blockF 3 114 (els.map (fElem 4 3 fun ex m => ex == 15 && m == 7))
  | .e5m2 => blockF 4 106 (els.map (fElem 5 2 fun ex _ => ex == 31))
  | .b16 => blockF (-1) (-6) (els.map (fElem 8 7 fun ex _ => ex == 255))

/-- The eight blocks of an input vector. -/
def blocksOf (f : InFmt) (b : List Byte) (scales : List Nat) : List InBlock :=
  (upTo 8).map fun i => toBlock f (((elements f b).drop (32 * i)).take 32) (scales.getD i 127)

/-! ## Amplitudes and slices (R62 to R67, R101 to R103) -/

/-- What a burst launches for a vector: `fp` for FP32 accumulation, `cols` the tile width, `h` the repeat shift. -/
def launch (fp q4 noskip : Bool) (cols h vec : Nat) (bs : List InBlock) : Launched :=
  let cand := (bs.filter fun b => b.nz && !b.bad).map (·.exp)
  let emax := match cand with
    | [] => 127
    | x :: r => r.foldl max x
  let d (b : InBlock) : Nat := if fp && b.nz && !b.bad then (emax - b.exp).toNat else 0
  let codes := bs.flatMap fun b => b.codes.map fun c =>
    if fp && decide (7 < d b + h) then scaleRound c (-((d b + h - 7 : Nat) : Int)) else c
  let nan := bs.any (·.bad)
  let tested := codes.take cols
  { vec := vec, codes := codes, amp := bs.map fun b => 2 ^ (7 - min (d b + h) 7), emax := emax,
    zero := !nan && bs.all fun b => !b.nz, nan := nan,
    high := noskip || nan || tested.any (fun c => if q4 then c ≠ 0 else c / 16 ≠ 0),
    low := !q4 && (noskip || nan || tested.any fun c => c % 16 ≠ 0) }

/-- Read and launch vector `v` for a piece. -/
def readLaunch (s : State) (c : Ctx) (a : Active) (k : Chunk) (v : Nat) : Except Nat (Launched × Nat) := do
  let w := a.word.toNat
  let f := inFmt (mmPair w)
  let it ← inItem s c a (mmIn w) (inBytes (mmPair w)) k.tile v
  let b ← readItem s c it (inBytes (mmPair w))
  let sc ← if readsIscale w then do
      let it ← inItem s c a (mmIscale w) 8 k.tile v
      (readItem s c it 8).map (·.map BitVec.toNat)
    else .ok []
  let bs := blocksOf f b sc
  .ok (launch (mmFp w) (slotCost (mmPair w) == 1) (mmNoskip w) (mmCols w) k.h v bs, (bs.filter (·.bad)).length)

/-! ## Weight planes (R25, R36, R37, R57, R58, R66, R96 to R98) -/

/-- A weight image's header (R96). -/
structure Header where
  map : Nat
  count : Nat

/-- Bits of a number below `n` that are 1. -/
def popCount (n v : Nat) : Nat := ((upTo n).filter fun i => bitOf v i).length

/-- Read and check the header of a compressed image (R96 to R98). -/
def readHeader (s : State) (c : Ctx) (va : Nat) (q8 : Bool) : Except Nat Header := do
  let b ← s.readVirt c va 64
  let h : Header := { map := leNat (b.take 16), count := leNat ((b.drop 16).take 2) }
  if h.count ≠ popCount 128 h.map || (b.drop 18).any (· ≠ 0) then .error fltFormat
  else if va % (2 * mib) + 64 + (if q8 then 1024 else 512) * h.count > 2 * mib then .error fltAlignment
  else .ok h

/-- 4-bit codes of bytes, low half first. -/
def nibbles (b : List Byte) : List Int := b.flatMap fun x => [signed 4 (x.toNat % 16), signed 4 (x.toNat / 16)]

/-- The codes of a row of a block-compressed plane, absent blocks 0. -/
def packedRow (s : State) (c : Ctx) (base map row : Nat) : Except Nat (List Int) := do
  let bs ← (upTo 8).mapM fun cb =>
    let i := 8 * (row / 32) + cb
    if bitOf map i then
      (s.readVirt c (base + 512 * popCount i map + 16 * (row % 32)) 16).map nibbles
    else .ok (List.replicate 32 0)
  .ok bs.flatten

/-- The codes of a row of a C3 image (R58). -/
def c3Row (s : State) (c : Ctx) (base row : Nat) : Except Nat (List Int) := do
  let hs ← (upTo 2).mapM fun h => do
    let book := nibbles (← s.readVirt c (base + 1024 + 8 * row + 4 * h) 4)
    let idx := leNat (← s.readVirt c (base + 5120 + 96 * row + 48 * h) 48)
    .ok ((upTo 128).map fun p => book.getD (bitsOf idx (3 * p + 2) (3 * p)) 0)
  .ok hs.flatten

/-- What is read of a row: for weights of Q8 form the 8-bit values, else the 4-bit codes, and its present blocks. -/
structure RawRow where
  vals : List Int
  absent : List Bool
  exps : List Nat

/-- Read a logical row of a tile image at `va`. -/
def readRawRow (s : State) (c : Ctx) (w va : Nat) (hd : Option Header) (scale : Option Nat) (row : Nat) :
    Except Nat RawRow := do
  let q8 := q8Weights (mmPair w)
  let absent := (upTo 8).map fun b => hd.any fun h => !bitOf h.map (8 * (row / 32) + b)
  let plane (p : Nat) : Except Nat (List Int) :=
    match hd with
    | some h => packedRow s c (va + 64 + p * 512 * h.count) h.map row
    | none => (s.readVirt c (va + p * 65536 + 128 * row) 128).map nibbles
  let vals ← if mmWimg w = 2 then c3Row s c va row
    else if q8 then do
      let hi ← plane 0
      let lo ← plane 1
      .ok ((hi.zip lo).zipIdx.map fun x => if absent.getD (x.2 / 32) false then 0 else 16 * x.1.1 + x.1.2 + 8)
    else plane 0
  let exps ← if mmFp w && mmWimg w = 2 then
      (s.readVirt c (va + 2 * row) 2).map fun b => (upTo 8).map fun i => (b.getD (i / 4) 0).toNat
    else match scale with
      | some a => (s.readVirt c (a + 8 * row) 8).map (·.map BitVec.toNat)
      | none => .ok (List.replicate 8 127)
  .ok { vals := vals, absent := absent, exps := exps }

/-- The code of a value in a plane of its tile (R27, R37). -/
def codeIn (q8 : Bool) (plane : Nat) (v : Int) : Int := if !q8 then v else if plane = 0 then v / 16 else v % 16 - 8

/-- Align a row to its largest exponent (R66) and form its block row sums (R25); also whether alignment changed a code
of this plane, and how many of its blocks have exponent 255 (R62). -/
def loadRow (fp q8 : Bool) (plane : Nat) (r : RawRow) : PlaneRow × Bool × Nat :=
  let ab (b : Nat) : Bool := r.absent.getD b false
  let ex (b : Nat) : Nat := r.exps.getD b 127
  let present := (upTo 8).filter fun b => !ab b
  let top : Nat := match (present.filter fun b => ex b ≠ 255).map ex with
    | [] => 127
    | x :: l => l.foldl max x
  let alignd (v : Int) (b : Nat) : Int := if fp && ex b ≠ 255 then scaleRound v ((ex b : Int) - top) else v
  let code (f : Int → Nat → Int) (x : Int × Nat) : Int :=
    if ab (x.2 / 32) then 0 else codeIn q8 plane (f x.1 (x.2 / 32))
  let codes := r.vals.zipIdx.map (code alignd)
  let plain := r.vals.zipIdx.map (code fun v _ => v)
  let nans := if fp then (present.filter fun b => ex b = 255).length else 0
  ({ codes := codes, sums := (upTo 8).map fun b => ((codes.drop (32 * b)).take 32).foldl (· + ·) 0,
     absent := r.absent, exp := top, nan := decide (0 < nans) }, decide (codes ≠ plain), nans)

/-- The address of the image a piece loads. -/
def imageVa (s : State) (c : Ctx) (a : Active) (tile : Nat) : Except Nat Nat := do
  let w := a.word.toNat
  let it ← mmItem (← mmSolid s c a (mmWgt w) (tileStride (mmPair w)) (imageAlign (mmWimg w)) (tile + 1)) tile
  match itemVa it with
  | some va => .ok va
  | none => .error fltNull

/-- What a shadow load brings (R34, R66, R98): the plane, whether alignment changed a code, blocks of exponent 255,
and whether a block is absent. -/
def loadPlane (s : State) (c : Ctx) (a : Active) (k : Chunk) : Except Nat (Plane × Bool × Nat × Bool) := do
  let w := a.word.toNat
  let q8 := q8Weights (mmPair w)
  let va ← imageVa s c a k.tile
  if mmWimg w = 2 && decide (2 * mib < va % (2 * mib) + 54272) then .error fltAlignment
  else
    let hd ← if mmWimg w = 1 then (readHeader s c va q8).map some else .ok none
    let sc ← if readsWscale w then do
        let it ← mmItem (← mmSolid s c a (mmWscale w) 4096 4096 (k.tile + 1)) k.tile
        .ok (itemVa it)
      else .ok none
    let rows ← (upTo (k.hi - k.lo)).mapM fun i =>
      (readRawRow s c w va hd sc (k.lo + i)).map (loadRow (mmFp w) q8 k.plane)
    .ok ({ thread := k.thread, uid := k.uid, tile := k.tile, plane := k.plane, lo := k.lo, hi := k.hi,
           rows := rows.map (·.1) }, rows.any (·.2.1), rows.foldl (fun n r => n + r.2.2) 0,
         hd.any fun h => decide (h.count < 128))

/-! ## Issue (R125, R126, R157) -/

/-- The pieces of a step in dealing order (R78, R126), each with its planes. -/
def piecesOf (t uid n w : Nat) (live : List Nat) : List Chunk :=
  let z := pieceSize w
  let ranges := upTo ((n + z - 1) / z)
  let hold := mmMode w == 1
  let order := if hold then ranges.flatMap fun g => (upTo (mmPlanes w)).map fun p => (p, g)
    else (upTo (mmPlanes w)).flatMap fun p => ranges.map fun g => (p, g)
  let ks : List Chunk := order.flatMap fun (p, g) =>
    let vs := live.filter fun v => decide (g * z ≤ v) && decide (v < (g + 1) * z)
    if vs.isEmpty then []
    else (upTo (subPlanes (mmPair w))).map fun k =>
      { thread := t, uid := uid, tile := p, plane := k, group := if hold then g else 0, lo := 0, hi := mmRows w,
        all := vs, todo := vs, h := 0, rep := false, suspectRep := false, pin := none, id := 0 }
  ks.zipIdx.map fun x => { x.1 with id := x.2 }

/-- The lattices of a step's set (R125), lowest first. -/
def lsetOf (t w : Nat) : List Nat :=
  let b := threadBay t
  (if bitOf (mmLset w) 0 then [2 * b] else []) ++ (if bitOf (mmLset w) 1 then [2 * b + 1] else [])

/-- What MATMUL does as it issues: N is counted, the mask is read, every stream is checked, the pieces are dealt. The mask
is used as it is read here (R108: DESIGN CHOICE, log entry 41), and the slots it frees count on the lowest lattice of the
set (R107: DESIGN CHOICE, log entry 40). -/
def matmulEffect (t : Nat) (s : State) (th : Thread) (w uid : Nat) : StepRun := do
  let c := s.ctx th.ctx
  if mmRows w = 0 || mmCols w = 0 || mmVectors w = 0 || mmPlanes w = 0 then .ok s
  else
    let e ← orFault s (countItems s c th (mmIn w))
    if e % mmPlanes w ≠ 0 then .error (fltUnderrun, s)
    else
      let n := min (mmVectors w) (e / mmPlanes w)
      if n = 0 then .ok s
      else
        let a := { Active.start th uid th.pc w s.time 0 0 with vectors := n }
        let z := inBytes (mmPair w)
        let mask ← if mmMasken w then (orFault s (maskBase s c th (mmMask w))).map some else .ok none
        let live ← orFault s ((upTo n).filterM fun v => maskBit s c mask (mmGran w) v)
        let _ ← orFault s (mmItems s c a (mmIn w) z (itemAlign z) (mmPlanes w * n))
        let _ ← if readsIscale w then orFault s (mmItems s c a (mmIscale w) 8 8 (mmPlanes w * n)) else .ok []
        let _ ← orFault s (mmSolid s c a (mmWgt w) (tileStride (mmPair w)) (imageAlign (mmWimg w)) (mmPlanes w))
        let _ ← if readsWscale w then orFault s (mmSolid s c a (mmWscale w) 4096 4096 (mmPlanes w)) else .ok []
        let _ ← if mmMode w = 2 then orFault s (mmSolid s c a (mmCarry w) (outBytes w) (itemAlign (outBytes w)) n)
          else orFault s (mmItems s c a (mmOut w) (outBytes w) (itemAlign (outBytes w)) n)
        let ks := piecesOf t uid n w live
        let s := s.modStep t uid fun a =>
          { a with vectors := n, live := live, dealt := ks, pieces := ks.length, done := false }
        let freed := (n - live.length) * slotCost (mmPair w) * mmPlanes w * subPlanes (mmPair w)
        let s := match lsetOf t w with
          | l :: _ => s.bump .latSkipSlotsSlots l freed
          | [] => s
        .ok (s.openMask t uid (mmMask w) (mmGran w) n mask)

/-! ## Inputs ahead of their bursts (R166) -/

/-- Vectors that a half of a chunk's input buffer holds: those of a full burst. -/
def halfSize (pair : Nat) : Nat := 256 / slotCost pair

/-- How many of a piece's vectors have passed. -/
def Chunk.used (k : Chunk) : Nat := k.all.length - k.todo.length

/-- How many of a piece's vectors have been requested. -/
def Active.askedOf (a : Active) (k : Chunk) : Nat := ((a.asked.find? fun e => e.1 == k.id).map (·.2)).getD 0

/-- Request the inputs of a piece for two halves (R166). -/
def State.requestInputs (s : State) (k : Chunk) : State :=
  let t := k.thread
  match (s.thread t).step? k.uid with
  | none => s
  | some a =>
    let w := a.word.toNat
    let c := s.ctx (s.thread t).ctx
    let want := min k.all.length (k.used + 2 * halfSize (mmPair w))
    if want ≤ a.askedOf k then s
    else
      let pos := (k.all.zipIdx.take want).drop (a.askedOf k)
      let xs (n z : Nat) : List Xfer :=
        match mmItems s c a n z (itemAlign z) ((k.tile + 1) * a.vectors) with
        | .ok l => transfersOf c (threadBay t) k.id z
            (pos.filterMap fun v => (l[k.tile * a.vectors + v.1]?).map fun i => (i, v.2))
        | .error _ => []
      let s := s.addXfers t k.uid .sIn false (depthOf s c (mmIn w)) (xs (mmIn w) (inBytes (mmPair w)))
      let s := if readsIscale w then
          s.addXfers t k.uid .sIscale false (depthOf s c (mmIscale w)) (xs (mmIscale w) 8)
        else s
      s.modStep t k.uid fun a => { a with asked := (k.id, want) :: a.asked.filter fun e => e.1 != k.id }

/-- A step's input streams. -/
def State.inputs (s : State) (k : Chunk) : List Stream :=
  (s.bay (threadBay k.thread)).streams.filter fun x => x.thread == k.thread && x.uid == k.uid && x.name.isInput

/-- How many of a piece's vectors have been requested; 0 for a step that is gone. -/
def State.asked (s : State) (k : Chunk) : Nat := (((s.thread k.thread).step? k.uid).map fun a => a.askedOf k).getD 0

/-- The place of the first vector of a piece whose data has not arrived. -/
def State.arrivedTo (s : State) (k : Chunk) : Nat :=
  (s.inputs k).foldl (fun n x => (x.todo ++ x.flight ++ x.spilled).foldl (fun n d =>
    if d.piece = k.id then min n d.first else n) n) (s.asked k)

/-- Whether a half holds the next burst's vectors, or all the piece's remaining ones (R137, R166). -/
def State.staged (s : State) (a : Active) (k : Chunk) : Bool :=
  decide (min k.all.length (k.used + halfSize (mmPair a.word.toNat)) ≤ s.arrivedTo k)

/-- Whether a piece's first inputs are staged or arriving (R137). -/
def State.arriving (s : State) (k : Chunk) : Bool :=
  decide (k.used < s.asked k) && !(s.inputs k).any fun x => (x.todo ++ x.spilled).any fun d =>
    d.piece == k.id && decide (d.first ≤ k.used)

/-! ## Results to memory -/

/-- Write rows from `lo` on of output or carry item `v` (R79); the bytes leave through the pool. -/
def writeRows (s : State) (t uid : Nat) (a : Active) (lo v : Nat) (vals : List Nat) : StepRun := do
  let c := s.ctx (s.thread t).ctx
  let w := a.word.toNat
  let z := accBytes (mmAcc w)
  let n := if mmMode w = 2 then mmCarry w else mmOut w
  let it ← orFault s (mmItem (← orFault s (mmItems s c a n (outBytes w) (itemAlign (outBytes w)) (v + 1))) v)
  match itemVa it with
  | none => .ok s
  | some va =>
    let s ← orFault s (s.writeVirt c (va + lo * z) (vals.flatMap (leBytes z)))
    let xs := transfersOf c (threadBay t) 0 (vals.length * z) [((some (va + lo * z), it.2), 0)]
    .ok (s.addXfers t uid (if mmMode w = 2 then .sCarry else .sOut) true (depthOf s c n) xs)

/-- A step's write, its fault taken. -/
def State.takeRun (s : State) (t uid : Nat) (r : StepRun) : State :=
  match r with
  | .ok s1 => s.byThread t s1
  | .error (c, s1) =>
    match (s.thread t).step? uid with
    | some a => (s.byThread t s1).stepFault t c a.pc uid
    | none => s1

/-- Output items leave in item order (R168): the next item leaves when all its rows are there. `n` bounds them. -/
def State.drainOut (s : State) (t uid : Nat) : Nat → State
  | 0 => s
  | n + 1 =>
    match (s.thread t).step? uid with
    | none => s
    | some a =>
      match a.live[a.nextOut]? with
      | none => s
      | some v =>
        let parts := a.ready.filter fun p => p.1 == v
        if parts.foldl (fun n p => n + p.2.2.length) 0 < mmRows a.word.toNat then s
        else
          let s := s.takeRun t uid (foldRun (fun s p => writeRows s t uid a p.2.1 v p.2.2) parts s)
          (s.modStep t uid fun a =>
            { a with nextOut := a.nextOut + 1, ready := a.ready.filter fun p => p.1 != v }).drainOut t uid n

/-- Rows from `lo` on of some output items are final. -/
def State.putRows (s : State) (t uid lo : Nat) (out : List (Nat × List Nat)) : State :=
  let s := s.modStep t uid fun a => { a with ready := a.ready ++ out.map fun o => (o.1, lo, o.2) }
  s.drainOut t uid ((((s.thread t).step? uid).map fun a => a.live.length).getD 0)

/-- Some rows of some output items are zeros. -/
def State.putZeros (s : State) (t uid lo hi : Nat) (vs : List Nat) : State :=
  s.putRows t uid lo (vs.map fun v => (v, List.replicate (hi - lo) 0))

/-! ## Accumulator slots (R76) -/

/-- Half-words of an accumulator. -/
def accHalves (acc : Nat) : Nat := if acc = 1 then 3 else 2

/-- Accumulator `i` of row `r`, little-endian across its half-words. -/
def accGet (acc : Nat) (m : Tbl (BitVec 16)) (r i : Nat) : Nat :=
  (upTo (accHalves acc)).foldl (fun n j => n + (tget 0 m (r * 128 + accHalves acc * i + j)).toNat * 65536 ^ j) 0

/-- Set accumulator `i` of row `r`. -/
def accSet (acc : Nat) (m : Tbl (BitVec 16)) (r i v : Nat) : Tbl (BitVec 16) :=
  (upTo (accHalves acc)).foldl (fun m j =>
    tset 0 m (r * 128 + accHalves acc * i + j) (BitVec.ofNat 16 (v / 65536 ^ j))) m

/-- An accumulator as memory holds it: INT48 sign-extended to 64 bits (R79). -/
def accOut (acc v : Nat) : Nat := if acc = 1 then twos 64 (signed 48 v) else v

/-! ## What is left of a step -/

/-- The pieces of a step that lattices hold. -/
def State.heldPieces (s : State) (t uid : Nat) : List (Nat × Chunk) :=
  (upTo 8).flatMap fun l =>
    let x := s.lat l
    (x.current.toList ++ x.loading.toList).filterMap fun k => if k.ofStep t (some uid) then some (l, k) else none

/-- Bursts of a step in flight. -/
def State.stepBursts (s : State) (t uid : Nat) : List Burst :=
  (upTo 8).flatMap fun l => (s.lat l).inflight.filter fun b => b.chunk.ofStep t (some uid)

/-- Whether a HOLD group of a step has nothing left to pass or repeat. -/
def State.groupDone (s : State) (t : Nat) (a : Active) (g : Nat) : Bool :=
  !(a.dealt ++ a.repeats).any (·.group == g) && !(s.heldPieces t a.uid).any (·.2.group == g) &&
  !(s.stepBursts t a.uid).any (·.chunk.group == g)

/-- Write out a HOLD group that is done (R86): its accumulators, zeros where none was opened (R100). -/
def State.writeGroup (s : State) (t : Nat) (a : Active) (g : Nat) : State :=
  let w := a.word.toNat
  let z := pieceSize w
  let l := (upTo 8).find? fun l => (s.lat l).group.any fun x => x.thread == t && x.uid == a.uid && x.group == g
  let acc : Tbl (BitVec 16) := match l with
    | some l => (s.lat l).acc
    | none => []
  let vs := a.live.filter fun v => decide (g * z ≤ v) && decide (v < (g + 1) * z)
  let s := s.modStep t a.uid fun a => { a with outs := a.outs ++ [g] }
  let s := match l with
    | some l => s.modLat l fun x => { x with group := none, acc := [], check := [] }
    | none => s
  s.putRows t a.uid 0 (vs.map fun v =>
    (v, (upTo (mmRows w)).map fun r => accOut (mmAcc w) (accGet (mmAcc w) acc r (v - g * z))))

/-- Write out every HOLD group that is done, each after the groups before it (R168). -/
def State.writeGroups (s : State) (t uid : Nat) : State :=
  match (s.thread t).step? uid with
  | none => s
  | some a =>
    let w := a.word.toNat
    if mmMode w ≠ 1 then s
    else
      let z := pieceSize w
      forEach (upTo ((a.vectors + z - 1) / z)) (fun s g =>
        match (s.thread t).step? uid with
        | some a => if a.outs.length == g && s.groupDone t a g then s.writeGroup t a g else s
        | none => s) s

/-- Rows of a vector whose partial tile is not started (R79). -/
def Active.unstarted (a : Active) (v rows : Nat) : List Nat :=
  (upTo rows).filter fun r => !a.started.any fun x => x.1 == v && decide (x.2.1 ≤ r) && decide (r < x.2.2)

/-- A MATMUL whose last burst has committed: a CARRY step all of whose passes were skipped writes zero partial tiles
(R100), as do tiles that no pass started (R79); the step then waits for its writes only. -/
def State.mmFinish (s : State) (t uid : Nat) : State :=
  let s := s.writeGroups t uid
  match (s.thread t).step? uid with
  | none => s
  | some a =>
    let w := a.word.toNat
    if a.done || !(a.dealt.isEmpty && a.repeats.isEmpty && (s.heldPieces t uid).isEmpty &&
        (s.stepBursts t uid).isEmpty) then s
    else
      let rows (v : Nat) : List Nat := if a.ran then a.unstarted v (mmRows w) else upTo (mmRows w)
      let s := if mmMode w = 2 && !(a.ran && mmCin w) then
          s.takeRun t uid (foldRun (fun s v => foldRun (fun s r => writeRows s t uid a r v [0]) (rows v) s) a.live s)
        else s
      (s.modStep t uid fun a => { a with done := true }).regrant (threadBay t)

/-! ## Choosing the piece to load (R78, R79, R86, R100, R126, R137) -/

/-- A piece comes before another in plane order. -/
def Chunk.before (a b : Chunk) : Bool := decide (a.tile < b.tile) || (a.tile == b.tile && decide (a.plane < b.plane))

/-- Two pieces share a vector. -/
def Chunk.meets (a b : Chunk) : Bool := a.todo.any b.todo.contains

/-- Regular pieces of a step (of a HOLD group) that still have vectors to pass. -/
def State.regularLeft (s : State) (t : Nat) (a : Active) (g : Option Nat) : Bool :=
  let mine (k : Chunk) : Bool := !k.rep && g.all (· == k.group)
  a.dealt.any mine || (s.heldPieces t a.uid).any fun k => mine k.2 && !k.2.todo.isEmpty

/-- Whether lattice `l` may take a piece of a step now; `ahead` are the pieces before it in its list. -/
def State.eligible (s : State) (l t : Nat) (a : Active) (ahead : List Chunk) (k : Chunk) : Bool :=
  let hold := mmMode a.word.toNat == 1
  let g := (s.lat l).group
  let mineG (g : HoldGroup) : Bool := g.thread == t && g.uid == a.uid && g.group == k.group
  k.pin.all (· == l) &&
  (!hold ||
    (!ahead.any (·.group == k.group) &&
     ((upTo 8).all fun m => m == l || !(s.lat m).group.any mineG) &&
     (match g with
      | some g => mineG g
      | none => !k.rep && !(a.dealt ++ (s.heldPieces t a.uid).map (·.2)).any fun j =>
          !j.rep && decide (j.group < k.group) && !j.todo.isEmpty))) &&
  (mmMode a.word.toNat != 2 || !ahead.any k.meets) &&
  (!k.rep ||
    (!s.regularLeft t a (if hold then some k.group else none) && !ahead.any k.meets &&
     !(s.heldPieces t a.uid).any (fun j => k.meets j.2) &&
     !(s.stepBursts t a.uid).any fun b => k.todo.any fun v => b.chunk.all.contains v))

/-- The first piece of a list that a lattice may take. -/
def State.firstEligible (s : State) (l t : Nat) (a : Active) : List Chunk → List Chunk → Option Chunk
  | _, [] => none
  | ahead, k :: r => if s.eligible l t a ahead k then some k else s.firstEligible l t a (ahead ++ [k]) r

/-- Whether a context's pieces may take bursts and loads: a drain of the context stops new slots (R89). -/
def Ctx.live (x : Ctx) : Bool := x.st == .running || x.st == .waiting

/-- A candidate: thread, context, when its step began, and the piece. -/
structure Cand where
  thread : Nat
  ctx : Nat
  begun : Nat
  piece : Chunk

/-- For each MATMUL whose set names a lattice, the first piece the lattice may take. -/
def State.nextPieces (s : State) (l : Nat) : List Cand :=
  (s.threads.filter fun e => e.1 / 128 == l / 2).flatMap fun e => e.2.steps.filterMap fun a =>
    if opOf a.word.toNat = some .matmul && (lsetOf e.1 a.word.toNat).contains l && (s.ctx e.2.ctx).live then
      ((s.firstEligible l e.1 a [] a.dealt).orElse fun _ => s.firstEligible l e.1 a [] a.repeats).map fun k =>
        { thread := e.1, ctx := e.2.ctx, begun := a.begun, piece := k }
    else none

/-- The candidates of a lattice: those whose first inputs are staged or arriving (R137). -/
def State.candidates (s : State) (l : Nat) : List Cand := (s.nextPieces l).filter fun c => s.arriving c.piece

/-- The deficit count of a context in a bay (R137). -/
def Ctx.deficitIn (x : Ctx) (b : Nat) : Int := ((x.deficit.find? fun e => e.1 == b).map (·.2)).getD 0

/-- Change it, held between −65,536 and 65,535. -/
def Ctx.addDeficit (x : Ctx) (b : Nat) (d : Int) : Ctx :=
  let v := clampInt (-65536) 65535 (x.deficitIn b + d)
  { x with deficit := (x.deficit.filter fun e => e.1 != b) ++ (if v = 0 then [] else [(b, v)]) }

/-- Choose among the candidates (R137): priority, then deficit, then age; where all of the highest priority have a
deficit of 0 or less, their contexts get their SHARE first. -/
def State.chooseCand (s : State) (b : Nat) (l : List Cand) : State × Option Cand :=
  let pr (c : Cand) : Nat := (s.ctx c.ctx).priority
  let top := l.foldl (fun n c => max n (pr c)) 0
  let l := l.filter fun c => pr c == top
  let s := if l.all fun c => decide ((s.ctx c.ctx).deficitIn b ≤ 0) then
      forEach ((l.map (·.ctx)).dedup) (fun s c => s.modCtx c fun x => x.addDeficit b x.qShare) s
    else s
  let better (c d : Cand) : Bool :=
    let x := (s.ctx c.ctx).deficitIn b
    let y := (s.ctx d.ctx).deficitIn b
    decide (y < x) || (x == y && decide (c.begun < d.begun))
  (s, l.foldl (fun r c => match r with
    | none => some c
    | some d => if better c d then some c else some d) none)

/-- Pieces of the same pass: tile, group and vectors. -/
def Chunk.samePass (a b : Chunk) : Bool :=
  a.tile == b.tile && a.group == b.group && a.all == b.all && a.rep == b.rep && a.lo == b.lo && a.hi == b.hi

/-- Split the pieces of a pass over a tile taller than `n` rows (R52): the first rows, then the rest, whose pieces are
numbered from `id`. -/
def splitPass (n id : Nat) (k : Chunk) (l : List Chunk) : List Chunk :=
  match l with
  | [] => []
  | j :: r =>
    if j.samePass k then
      let run := (j :: r).takeWhile (·.samePass k)
      run.map (fun x => { x with hi := k.lo + n }) ++
        run.zipIdx.map (fun x => { x.1 with lo := k.lo + n, id := id + x.2 }) ++ (j :: r).dropWhile (·.samePass k)
    else j :: splitPass n id k r

/-- The rows a lattice has from its next swap on, when pending masks take effect (R50, R52, R53). -/
def Lattice.nextAvail (x : Lattice) : Nat := (if x.demPending then x.resolveDead else x).avail

/-- A tile taller than the rows available at the next swap is split. LAT_TILE_SPLIT is logged for a lattice's first split
since the last warm restart, when SPLIT_ACTIVE is 0 (R52: DESIGN CHOICE, log entry 34). -/
def State.splitPiece (s : State) (l : Nat) (k : Chunk) : State × Chunk :=
  let n := (s.lat l).nextAvail
  if k.hi - k.lo ≤ n then (s, k)
  else
    let s := s.modStep k.thread k.uid fun a =>
      let a := { a with pieces := a.pieces + subPlanes (mmPair a.word.toNat) }
      let id := a.pieces - subPlanes (mmPair a.word.toNat)
      if k.rep then { a with repeats := splitPass n id k a.repeats } else { a with dealt := splitPass n id k a.dealt }
    let s := if s.flag .latStatusSplitActive l then s
      else (s.event .latTileSplit .lattice l noCtx []).setFld .latStatusSplitActive l 1
    (s, { k with hi := k.lo + n })

/-- Skip a zero tile that lattice `l` would have taken (R100): every piece of its pass goes, counted for each load it
replaces, two where the tile is taller than the available rows (R52); FRESH writes zeros. -/
def State.skipPass (s : State) (l : Nat) (k : Chunk) (a : Active) : State :=
  let w := a.word.toNat
  let gone := (a.dealt ++ a.repeats).filter (·.samePass k)
  let s := s.modStep k.thread k.uid fun a =>
    { a with dealt := a.dealt.filter fun j => !j.samePass k, repeats := a.repeats.filter fun j => !j.samePass k }
  let loads := gone.length * (if (s.lat l).nextAvail < k.hi - k.lo then 2 else 1)
  let s := match lsetOf k.thread w with
    | l :: _ => s.bump .latSkipPlanesSkipped l loads
    | [] => s
  let s := if mmMode w = 0 then s.putZeros k.thread k.uid k.lo k.hi k.all else s
  s.mmFinish k.thread k.uid

/-- The transfers of a load of some planes of a tile (R36, R37, R58, R96 to R98): S_WGT, then S_WSCALE. -/
def tileXfers (s : State) (c : Ctx) (b : Nat) (a : Active) (piece tile : Nat) (planes : List Nat) :
    List Xfer × List Xfer :=
  let w := a.word.toNat
  let item (n stride align : Nat) : Option Item := ((mmSolid s c a n stride align (tile + 1)).toOption.getD [])[tile]?
  let cut (i : Item) (r : Nat × Nat) : List Xfer := transfersOf c b piece r.2 [((some r.1, i.2), 0)]
  let wgt : List Xfer := match item (mmWgt w) (tileStride (mmPair w)) (imageAlign (mmWimg w)) with
    | some i => match itemVa i with
      | none => []
      | some va =>
        let ranges := match mmWimg w with
          | 0 => planes.map fun p => (va + 65536 * p, 65536)
          | 2 => [(va, 54272)]
          | _ =>
            let n := match readHeader s c va (q8Weights (mmPair w)) with
              | .ok h => 512 * h.count
              | .error _ => 0
            (va, 64) :: planes.map fun p => (va + 64 + n * p, n)
        ranges.flatMap (cut i)
    | none => []
  let scale : List Xfer := if readsWscale w then match item (mmWscale w) 4096 4096 with
    | some i => ((itemVa i).map fun va => cut i (va, 4096)).getD []
    | none => []
    else []
  (wgt, scale)

/-- Start the shadow load of a piece: its weights are fetched, and the next tile is requested into the larder (R34, R35,
R167). -/
def State.startLoad (s : State) (k : Chunk) (a : Active) : State :=
  let w := a.word.toNat
  let c := s.ctx (s.thread k.thread).ctx
  let b := threadBay k.thread
  let x := tileXfers s c b a k.id k.tile [k.plane]
  let s := (s.addXfers k.thread k.uid .sWgt false (depthOf s c (mmWgt w)) x.1).addXfers k.thread k.uid .sWscale false
    (depthOf s c (mmWscale w)) x.2
  let s := s.regrant b
  if k.tile + 1 < mmPlanes w then
    let y := tileXfers s c b a k.id (k.tile + 1) (upTo (subPlanes (mmPair w)))
    s.prefetch b (y.1 ++ y.2)
  else s

/-- A lattice takes a piece: the shadow load begins; a HOLD group opens; the other plane of the pass stays here. -/
def State.takePiece (s : State) (l : Nat) (k : Chunk) (a : Active) : State :=
  let (s, k) := s.splitPiece l k
  let w := a.word.toNat
  let c := (s.thread k.thread).ctx
  let s := s.modStep k.thread k.uid fun a =>
    let drop (j : List Chunk) : List Chunk := (j.erase k).map fun x => if x.samePass k then { x with pin := some l } else x
    let a := { a with ran := true }
    if k.rep then { a with repeats := drop a.repeats } else { a with dealt := drop a.dealt }
  let s := s.modLat l fun x => { x with
    loading := some k, shadow := none, orphan := none,
    group := if mmMode w = 1 then some { ctx := c, thread := k.thread, uid := k.uid, group := k.group } else x.group }
  s.startLoad k a

/-- Whether a lattice may load a piece: SERVING with its shadow registers free, or SUSPECT with every cause cleared and
a dead ring waiting for a swap (R126, R137, R302). -/
def State.mayLoad (s : State) (l : Nat) : Bool :=
  let x := s.lat l
  x.loading.isNone && s.inService && !(s.bay (l / 2)).upset && x.fencePending == 0 &&
  s.latTarget l == .serving &&
  (x.state == .serving || (x.state == .suspect && x.held.isEmpty && x.demPending))

/-- Choose the next piece for a lattice (R137). `n` bounds the zero tiles passed over. -/
def State.feed (s : State) (l : Nat) : Nat → State
  | 0 => s
  | n + 1 =>
    if !s.mayLoad l then s
    else
      let (s, c) := s.chooseCand (l / 2) (s.candidates l)
      match c with
      | none => s
      | some c =>
        let k := c.piece
        match (s.thread k.thread).step? k.uid with
        | none => s
        | some a =>
          let w := a.word.toNat
          if mmWimg w = 1 then
            match (imageVa s (s.ctx c.ctx) a k.tile).bind fun va =>
                readHeader s (s.ctx c.ctx) va (q8Weights (mmPair w)) with
            | .error f => (s.stepFault k.thread f a.pc k.uid).feed l n
            | .ok h => if h.count = 0 then (s.skipPass l k a).feed l n else s.takePiece l k a
          else s.takePiece l k a

/-- Request the inputs of the pieces that a bay's lattices hold or may take next (R137, R166). -/
def State.requestBay (s : State) (b : Nat) : State :=
  let held := [2 * b, 2 * b + 1].flatMap fun l => (s.lat l).current.toList ++ (s.lat l).loading.toList
  let next := [2 * b, 2 * b + 1].flatMap fun l => (s.nextPieces l).map (·.piece)
  (forEach (held ++ next) (fun s k => s.requestInputs k) s).regrant b

/-- Feed both lattices of a bay, the lower first (R126). -/
def State.feedBay (s : State) (b : Nat) : State :=
  ((((s.requestBay b).feed (2 * b) 1024).requestBay b).feed (2 * b + 1) 1024).requestBay b

/-- MATMUL. -/
def execMatmul (t : Fin 512) (s : State) : Out :=
  let s := s.longStep t .matmul (matmulEffect t)
  let s := forEach (s.thread t).steps (fun s a => if opOf a.word.toNat = some .matmul then s.mmFinish t a.uid else s) s
  .next (s.feedBay (threadBay t))

/-- SHADOW_LOAD_COMPLETE: the piece's plane is in the shadow registers with its block row sums (R25, R34, R66, R98), once
its weights have arrived. NONFINITE counts the blocks of every load (R62: DESIGN CHOICE, log entry 36). -/
def execShadowLoadComplete (l : Fin 8) (s : State) : Out :=
  let x := s.lat l
  match x.loading.orElse fun _ => x.orphan, x.shadow with
  | some k, none =>
    match (s.thread k.thread).step? k.uid with
    | none => .next (s.modLat l fun x => { x with loading := none, orphan := none })
    | some a =>
      let busy := (s.bay (threadBay k.thread)).streams.any fun y =>
        y.thread == k.thread && y.uid == k.uid && y.name.isWeight &&
        (y.todo ++ y.flight ++ y.spilled).any fun d => d.piece == k.id
      if busy then .next s
      else match loadPlane s (s.ctx (s.thread k.thread).ctx) a k with
        | .error c => .next ((s.stepFault k.thread c a.pc k.uid).feedBay (threadBay k.thread))
        | .ok (p, ali, nans, ab) =>
          let s := s.modLat l fun x => { x with shadow := some p, orphan := none }
          let s := if ali then s.bump .latFmtCntAlign l else s
          let s := s.bump .latFmtCntNonfinite l nans
          .next (if ab then s.bump .latSkipPlanesAbsent l else s)
  | _, _ => .next s

end Sys2Proof.Machine
end

