-- ==== Sys2Proof/Machine/Bursts.lean ====
section
/-! DEFINITION. Burst boundaries and the resolution of bursts: grants, swaps, identity rounds, probes, the allowance,
readings, accumulation, commits and repeats (R25 to R33, R47, R67 to R71, R76 to R90, R101, R102, R137, R231, R297,
R299, R334 to R342). -/

namespace Sys2Proof.Machine

/-! ## One slot of one row (R25 to R27, R51, R63, R68, R69) -/

/-- The symbol of a code in a slice, its offset O, and the power of 16 of the slice (R27). -/
def symbolOf (q4 high : Bool) (c : Int) : Int := if q4 then c + 8 else if high then (c + 128) / 16 else (c + 128) % 16
def sliceO (q4 high : Bool) : Int := if q4 || high then 8 else 0
def sliceA (q4 high : Bool) : Nat := if !q4 && high then 1 else 0

/-- P and w of a plane (R27). -/
def planeP (q8 : Bool) (plane : Nat) : Int := if q8 && plane = 1 then 8 else 0
def planeW (q8 : Bool) (plane : Nat) : Nat := if q8 && plane = 0 then 1 else 0

/-- Sum over the 32 entries of block `b`. -/
def blockSum (l : List Int) (b : Nat) : Int := ((l.drop (32 * b)).take 32).foldl (· + ·) 0

/-- A patched ring of a row: column and q_park in units of 1/16. -/
abbrev Patch := Nat × Int

/-- The corrected value y of R27 with the patch terms of R51, in units of 2⁻¹¹: `k` is the reading, `g` its range. -/
def correctedY (row : PlaneRow) (amp : List Nat) (sym : List Int) (o p : Int) (g : Nat) (k : Int) (patches : List Patch) :
    Int :=
  let sum (f : Nat → Int) : Int := (upTo 8).foldl (fun n b => n + (amp.getD b 0 : Int) * f b) 0
  let held := sum fun b => 8 * row.sums.getD b 0
  let e := held + 2 ^ g * k * 128
  let corr := sum fun b =>
    if row.absent.getD b false then 0 else p * blockSum sym b - o * row.sums.getD b 0 - o * p * 32
  let pat := patches.foldl (fun n (x : Patch) =>
    n + (16 * row.codes.getD x.1 0 - x.2) * (amp.getD (x.1 / 32) 0 : Int) * sym.getD x.1 0) 0
  16 * (e + corr) + pat

/-- A product of R68. -/
inductive Product where
  | int (x : Int)
  | fp (v : FV)
  | infinite

/-- The product of a slot in a row: `m` is a + w. Exact zero under R63, NaN under R62, which goes first for an all-zero
vector issued against a row with a block of exponent 255 (DESIGN CHOICE, log entry 35). The patch terms of R51 are part of
`y`, so that they share its rounding and go where R63 makes the product zero (DESIGN CHOICE, log entry 32). -/
def productOf (fp : Bool) (v : Launched) (row : PlaneRow) (y : Int) (m h : Nat) : Product :=
  let none' := v.zero || row.absent.all id
  if !fp then .int (if none' then 0 else scaleRound (y * 2 ^ (4 * m + h)) (-11))
  else if v.nan || row.nan then .fp .nan
  else if none' then .fp (.fin false 0 0)
  else match product32 (y * 2 ^ (4 * m)) (-11) ((h : Int) + (v.emax - 127) + (row.exp - 127)) with
    | some x => .fp x
    | none => .infinite

/-- Add a product to an accumulator's pattern: the new pattern and what flags the burst, 0 for nothing, 2 for integer
overflow, 3 for an infinite product or sum (R81, R82, R84). -/
def addProduct (acc old : Nat) (p : Product) (draw : Nat) : Nat × Nat :=
  match p with
  | .infinite => (old, 3)
  | .fp v => match srAdd old v draw with
    | .ok x => (x, 0)
    | .over => (old, 3)
  | .int x =>
    let w := if acc = 1 then 48 else 32
    match intAdd w (signed w old) x with
    | some r => (twos (8 * accBytes acc) r, 0)
    | none => (old, 2)

/-! ## A burst's readings and sums -/

/-- A reading of a burst: slot and physical row counted over the unmasked ones (R69). -/
def Burst.reading (b : Burst) (slot row : Nat) : Int := (Config.reading (b.reads + slot * 512 + row)).toInt

/-- Slice class of R70: bit 1 for the low plane, bit 0 for the low slice. -/
def sliceClass (plane : Nat) (high : Bool) : Nat := 2 * plane + (if high then 0 else 1)

/-- What a burst's readings and additions gave. `marks` holds, per slice class used, whether a reading clipped and the
largest |k|; `worst` are the rows with a clipped reading at g = 8 (R71). -/
structure Ran where
  slot : Nat
  adds : Nat
  clips : Nat
  marks : List (Nat × Bool × Nat)
  worst : List Nat
  intOv : Bool
  inf : Bool
  out : List (Nat × List Nat)

/-- Note a slot's readings for its class. -/
def Ran.mark (r : Ran) (cls : Nat) (clip : Bool) (top : Nat) : Ran :=
  match r.marks.find? fun m => m.1 == cls with
  | some m => { r with marks := (cls, m.2.1 || clip, max m.2.2 top) :: r.marks.filter (·.1 != cls) }
  | none => { r with marks := (cls, clip, top) :: r.marks }

/-- What the row cells need besides the burst: the lattice, its rows, which are masked, the patches of a row, the seed,
SR_FIXED, the step word. -/
structure RowEnv where
  lat : Nat
  rows : Nat
  masked : List Nat
  patches : Nat → List Patch
  seed : Word
  fixed : Bool
  word : Nat

/-- The `i`-th row that is not masked (R52). -/
def physicalRow (masked : List Nat) (i : Nat) : Nat := ((upTo 512).filter fun j => !masked.contains j).getD i 512

/-- Whether the row cell that serves logical row `i` of a plane took part in a burst of `height` rows under other masks. -/
def tookPart (masked : List Nat) (i : Nat) (then' : List Nat) (height : Nat) : Bool :=
  if then' == masked then decide (i < height)
  else
    let j := physicalRow masked i
    !then'.contains j && decide (j - (then'.filter fun m => decide (m < j)).length < height)

/-- Additions that the row cell of the `i`-th row of the plane had made before a burst (R83). -/
def Burst.addsOf (b : Burst) (masked : List Nat) (i : Nat) : Nat :=
  b.adds.foldl (fun n x => if tookPart masked i x.1 x.2.1 then n + x.2.2 else n) 0

/-- One slice of one vector: every row is read, and every row of the piece adds its product. -/
def runSlice (e : RowEnv) (b : Burst) (v : Launched) (high : Bool) (vals : List Nat) (r : Ran) : Ran × List Nat :=
  let w := e.word
  let q4 := slotCost (mmPair w) == 1
  let q8 := q8Weights (mmPair w)
  let cls := sliceClass b.plane.plane high
  let g := b.ranges.getD cls 0
  let ks := (upTo e.rows).map fun i => b.reading r.slot i
  let clipped := (upTo e.rows).filter fun i => ks.getD i 0 == -128 || ks.getD i 0 == 127
  let top := ks.foldl (fun n k => max n k.natAbs) 0
  let sym := v.codes.map (symbolOf q4 high)
  let m := sliceA q4 high + planeW q8 b.plane.plane
  let res := (vals.zip b.plane.rows).zipIdx.map fun x =>
    let i := x.2
    let row := x.1.2
    let y := correctedY row v.amp sym (sliceO q4 high) (planeP q8 b.plane.plane) g (ks.getD i 0) (e.patches i)
    let p := productOf (mmFp w) v row y m b.chunk.h
    let n := b.addsOf e.masked i + r.adds
    let d := if e.fixed then 0x8000 else draw16 e.seed b.chunk.uid e.lat (b.plane.lo + i) n
    addProduct (mmAcc w) x.1.1 p d
  let r := r.mark cls (!clipped.isEmpty) top
  let worst := if g = 8 then clipped.map (physicalRow e.masked) else []
  ({ r with slot := r.slot + 1, adds := r.adds + 1, clips := r.clips + clipped.length, worst := r.worst ++ worst,
            intOv := r.intOv || res.any (·.2 == 2), inf := r.inf || res.any (·.2 == 3) }, res.map (·.1))

/-- One vector: its high slice, then its low slice (R80). -/
def runVector (e : RowEnv) (b : Burst) (r : Ran) (x : Launched × List Nat) : Ran :=
  let (r, vals) := if x.1.high then runSlice e b x.1 true x.2 r else (r, x.2)
  let (r, vals) := if x.1.low then runSlice e b x.1 false vals r else (r, vals)
  { r with out := r.out ++ [(x.1.vec, vals)] }

/-- Run a burst from the values its accumulators start with. -/
def runBurst (e : RowEnv) (b : Burst) (starts : List (List Nat)) : Ran :=
  (b.ins.zip starts).foldl (runVector e b)
    { slot := 0, adds := 0, clips := 0, marks := [], worst := [], intOv := false, inf := false, out := [] }

/-! ## Start values (R79, R80) -/

/-- The values a vector's accumulators start with: zero, the HOLD accumulators, or the carry-in of started rows. -/
def startVals (s : State) (l : Nat) (a : Active) (b : Burst) (v : Nat) : Except Nat (List Nat) := do
  let w := a.word.toNat
  let n := b.plane.hi - b.plane.lo
  match mmMode w with
  | 1 => .ok ((upTo n).map fun i =>
      accGet (mmAcc w) (s.lat l).acc (b.plane.lo + i) (v - b.chunk.group * pieceSize w))
  | 2 =>
    let un := if mmCin w then [] else a.unstarted v (mmRows w)
    let c := s.ctx b.ctx
    let z := accBytes (mmAcc w)
    let it ← mmItem (← mmItems s c a (mmCarry w) (outBytes w) (itemAlign (outBytes w)) (v + 1)) v
    match itemVa it with
    | none => .error fltNull
    | some va =>
      (upTo n).mapM fun i =>
        let r := b.plane.lo + i
        if un.contains r then .ok 0 else (s.readVirt c (va + r * z) z).map leNat
  | _ => .ok (List.replicate n 0)

/-! ## Resolution (R47, R70, R71, R84 to R88) -/

/-- The next range of a class (R70). -/
def nextRange (g : Nat) (clip : Bool) (top : Nat) : Nat := if clip then min 8 (g + 1) else if top < 48 then g - 1 else g

/-- The ranges a step has on a lattice (R70: whose ranges hold while bursts of several steps interleave is left open; a
set for each step and lattice is a DESIGN CHOICE, log entry 37). -/
def Active.rangesOn (a : Active) (l : Nat) : List Nat :=
  ((a.ranges.find? fun r => r.1 == l).map (·.2)).getD (List.replicate 4 (mmG a.word.toNat))

/-- AUTO moves the ranges of the classes a burst used. -/
def Active.autorange (a : Active) (l : Nat) (marks : List (Nat × Bool × Nat)) : Active :=
  if !mmAuto a.word.toNat then a
  else
    let g := marks.foldl (fun (g : List Nat) m => g.set m.1 (nextRange (g.getD m.1 0) m.2.1 m.2.2)) (a.rangesOn l)
    { a with ranges := (l, g) :: a.ranges.filter fun r => r.1 != l }

/-- Queue a piece for repeat, in the order of groups and planes (R86). -/
def insertRepeat (k : Chunk) : List Chunk → List Chunk
  | [] => [k]
  | j :: r =>
    if decide (k.group < j.group) || (k.group == j.group && (k.before j || (!j.before k && decide (k.lo < j.lo)))) then
      k :: j :: r
    else j :: insertRepeat k r

/-- A burst's vectors are queued for repeat at shift `h`; `susp` for a repeat of R47. -/
def Active.requeue (a : Active) (b : Burst) (h : Nat) (susp : Bool) : Active :=
  let vs := b.ins.map (·.vec)
  { a with pieces := a.pieces + 1,
           repeats := insertRepeat { b.chunk with all := vs, todo := vs, h := h, rep := true, suspectRep := susp,
                                                  pin := none, id := a.pieces } a.repeats }

/-- The sums of a burst of a HOLD group in the accumulator slots; what they were goes to the checkpoint bank (R85). A tile
split by R52 has accumulators for each of its logical rows (R76: DESIGN CHOICE, log entry 39). -/
def State.holdSums (s : State) (l acc : Nat) (b : Burst) (out : List (Nat × List Nat)) : State :=
  s.modLat l fun x => { x with
    check := x.acc
    acc := out.foldl (fun m o => o.2.zipIdx.foldl (fun m y =>
      accSet acc m (b.plane.lo + y.2) (o.1 - b.chunk.group * pieceSize b.word.toNat) y.1) m) x.acc }

/-- Every accumulator a flagged burst updated is restored from the checkpoint bank (R85). -/
def State.restoreSums (s : State) (l : Nat) : State := s.modLat l fun x => { x with acc := x.check, check := [] }

/-- A clean burst commits (R85): its checkpoint is dropped; output and carry rows leave (R168; carry rows as their burst
commits, log entry 27). -/
def State.commitBurst (s : State) (l t uid : Nat) (a : Active) (b : Burst) (out : List (Nat × List Nat)) : State :=
  match mmMode a.word.toNat with
  | 1 => s.modLat l fun x => { x with check := [] }
  | 2 =>
    let s := s.takeRun t uid (foldRun (fun s o => writeRows s t uid a b.plane.lo o.1 o.2) out s)
    s.modStep t uid fun a => { a with started := a.started ++ out.map fun o => (o.1, b.plane.lo, b.plane.hi) }
  | _ => s.putRows t uid b.plane.lo out

/-- The place of a physical row among the unmasked ones. -/
def Lattice.localRow (x : Lattice) (j : Nat) : Nat := j - (x.maskedRows.filter fun r => decide (r < j)).length

/-- What the row cells need for a burst: its lattice as it was at the grant. -/
def State.rowEnv (s : State) (l : Nat) (b : Burst) : RowEnv :=
  let x := { s.lat l with dem := b.dead }
  { lat := l, rows := x.avail, masked := x.maskedRows, seed := (s.ctx b.ctx).seed, fixed := s.flag .rowCtrlSrFixed l,
    word := b.word.toNat,
    patches := fun i => (x.patched.filter fun d => x.localRow d.row == i).map fun d => (d.col, d.parkW) }

/-- The clipped readings of a burst are counted, those of a burst that is discarded too; at g = 8 they are faults of their
readout chains (R71). -/
def State.noteClips (s : State) (l : Nat) (r : Ran) : State :=
  let s := s.bump .latClipCntCount l r.clips
  if r.worst.isEmpty then s else s.raiseReadout l r.worst (s.time - 1000)

/-- Resolve a burst of a step in progress from the values its accumulators start with: what its readings gave, and the
state with the burst committed, or restored and queued for repeat. -/
def State.resolve (s : State) (l t uid : Nat) (a : Active) (b : Burst) (r : Ran) : State :=
  let hold := mmMode a.word.toNat == 1
  let s := s.modStep t uid fun a => a.autorange l r.marks
  let cause := if 0 < r.clips then 1 else if r.intOv then 2 else if r.inf then 3 else 0
  let s := match cause with
    | 1 => s.bump .rowOvfCauseClip l
    | 2 => s.bump .rowOvfCauseInt l
    | 3 => s.bump .rowOvfCauseInf l
    | _ => s
  let s := if hold then s.holdSums l (mmAcc a.word.toNat) b r.out else s
  if cause = 0 && !b.suspect then s.commitBurst l t uid a b r.out
  else
    let s := if hold then s.restoreSums l else s
    if b.suspect then s.modStep t uid fun a => a.requeue b b.chunk.h true
    else if b.chunk.h < 3 then s.modStep t uid fun a => a.requeue b (b.chunk.h + 1) false
    else
      let s := (s.bump .rowOvfCntFaults l).event .rowOvfFault .lattice l b.ctx [uid, cause]
      s.stepFault t fltOverflow a.pc uid

/-- BURST_RESOLVE: the oldest burst in flight commits, or is restored and queued for repeat; one whose step is gone is
discarded, but for its clipped readings. -/
def execBurstResolve (l : Fin 8) (s : State) : Out :=
  match (s.lat l).inflight with
  | [] => .next s
  | b :: rest =>
    let s := s.modLat l fun x => { x with inflight := rest }
    let t := b.chunk.thread
    let uid := b.chunk.uid
    let e := s.rowEnv l b
    let zeros := b.ins.map fun _ => b.plane.rows.map fun _ => 0
    let live := (s.thread t).st != .idle && (s.thread t).ctx == b.ctx
    match if live then (s.thread t).step? uid else none with
    | none => .next (s.noteClips l (runBurst e b zeros))
    | some a =>
      let s := s.modStep t uid fun a => { a with inflight := a.inflight - 1 }
      match (b.ins.map (·.vec)).mapM (startVals s l a b) with
      | .error c =>
        .next (((s.stepFault t c a.pc uid).noteClips l (runBurst e b zeros)).feedBay (l / 2))
      | .ok starts =>
        let r := runBurst e b starts
        .next ((((s.resolve l t uid a b r).mmFinish t uid).noteClips l r).feedBay (l / 2))

/-! ## Probes, identity bursts, the allowance (R231, R297, R334, R336, R341) -/

/-- Note whether a boundary lit its burst; the window holds 63 (R231). The guard slots that follow an identity burst pass
with it (R297). -/
def State.noteLit (s : State) (l : Nat) (v : Bool) : State :=
  s.modLat l fun x => { x with lit := (v :: x.lit).take 63, guard := false }

/-- Whether the allowance lets a boundary light its burst (R231). -/
def State.allows (s : State) (l : Nat) : Bool :=
  decide (((s.lat l).lit.filter id).length < s.fld .seqGovAllow (l / 2))

/-- A burst is withheld (R231). -/
def State.withhold (s : State) (l : Nat) : State := (s.bump .seqGovWithheld (l / 2)).noteLit l false

/-- `n` slots carry probes (R334, R336): the probe debt falls, the generator is seeded after a swap. -/
def State.probeSlots (s : State) (l n : Nat) : State :=
  s.modLat l fun x => { x with
    probeDebt := max (-16384 * 4096) (x.probeDebt - n * 4096),
    lfsr := if x.reseed then BitVec.ofNat 32 s.time else x.lfsr,
    probeSlots := if x.reseed then n else x.probeSlots + n,
    reseed := false }

/-- `n` slots carry random probes (R334): the trims they feed change with every 4,096 readings (R335). -/
def State.probe (s : State) (l n : Nat) : State :=
  if n = 0 then s
  else
    let was := (s.lat l).randoms
    let s := (s.probeSlots l n).modLat l fun x => { x with randoms := x.randoms + n }
    if was / 8 = (was + n) / 8 then s else s.takeTrims l

/-- A sweep burst (R334): the trims change with every 64th (R335). -/
def State.sweep (s : State) (l : Nat) : State :=
  let s := (s.probeSlots l 256).modLat l fun x => { x with
    sweepDebt := max (-64 * 65536) (x.sweepDebt - 65536), sweeps := x.sweeps + 1, swept := x.swept + 1 }
  if (s.lat l).swept % 64 = 0 then s.takeTrims l else s

/-- q_park of parked rings after 64 sweeps: the mean of readings, a free value (R328, R335). -/
def State.measureParked (s : State) (l : Nat) : State :=
  if (s.lat l).sweeps < 64 then s
  else
    let n := (s.lat l).dem.length
    let k := s.free
    (s.drawn n).modLat l fun x => { x with
      sweeps := 0
      dem := x.dem.zipIdx.map fun e =>
        if e.1.canPark then { e.1 with parkW := signed 8 (Config.unstated (k + e.2)).toNat } else e.1 }

/-- A burst of an identity round (R297): the next burst opens with guard slots. A round that begins here is `forced` or
not (R341). -/
def State.identityBurst (s : State) (l : Nat) (forced : Bool) : State :=
  (s.noteLit l true).modLat l fun x =>
    { x with roundLeft := if x.roundLeft = 1 || x.roundLeft = 2 then 3 else if forced then 2 else 1, guard := true }

/-- Input slots of a burst, and the guard it uses up (R31). -/
def Lattice.capacity (x : Lattice) (swapped : Bool) : Nat := if swapped || x.guard then 248 else 256

/-- A burst that no chunk takes (R336): an identity round that is due, a sweep, or random probes. -/
def State.idleBurst (s : State) (l : Nat) (swapped : Bool) : State :=
  let x := s.lat l
  if x.roundDue && x.roundLeft = 0 then s.identityBurst l false
  else
    let n := x.capacity swapped
    let s := s.bump .seqGrantCntIdleBursts (l / 2)
    let s := if n = 256 && decide (-64 * 65536 < x.sweepDebt) then s.sweep l else s.probe l n
    s.noteLit l true

/-- The debts of a SERVING lattice grow at each boundary (R336). -/
def State.growDebts (s : State) (l : Nat) : State :=
  s.modLat l fun x =>
    let sw : Int := if x.episode.isSome then 4096 else 2 ^ (16 - s.fld .calCtrlSweepLog2 l)
    let pr : Int := 2 ^ (20 - s.fld .calCtrlProbeLog2 l)
    { x with sweepDebt := min (64 * 65536) (x.sweepDebt + sw), probeDebt := min (16384 * 4096) (x.probeDebt + pr) }

/-! ## Packing and granting a burst (R30 to R32, R101, R102, R126, R137) -/

/-- Whether a vector may not pass yet in a piece: an earlier pass over it is still to run, on whichever lattice and also
where its piece has been returned; under CARRY, and for a repeat, no burst over it may be in flight either (R29, R52, R78 to
R80, R86). -/
def State.vecBusy (s : State) (a : Active) (k : Chunk) (v : Nat) : Bool :=
  let earlier (j : Chunk) : Bool :=
    j.rep == k.rep && (j.before k || (!k.before j && decide (j.lo < k.lo))) && j.todo.contains v
  (if k.rep then a.repeats else a.dealt).any earlier ||
  (s.heldPieces k.thread k.uid).any (fun j => earlier j.2) ||
  ((mmMode a.word.toNat == 2 || k.rep) &&
    (s.stepBursts k.thread k.uid).any fun b => b.ins.any fun i => i.vec == v)

/-- A burst being packed: what it launches, the vectors not issued, those left, nonfinite blocks seen. -/
structure Packed where
  ins : List Launched
  skipped : List Nat
  rest : List Nat
  bad : Nat

/-- Pack vectors into `slots` input slots, passing over those whose slices are zero. -/
def pack (s : State) (c : Ctx) (a : Active) (k : Chunk) : Nat → List Nat → Packed → Except Nat Packed
  | _, [], p => .ok { p with rest := [] }
  | slots, v :: r, p =>
    let cost := slotCost (mmPair a.word.toNat)
    if decide (slots < cost) || s.vecBusy a k v then .ok { p with rest := v :: r }
    else match readLaunch s c a k v with
      | .error f => .error f
      | .ok (x, bad) =>
        if x.high || x.low then pack s c a k (slots - cost) r { p with ins := p.ins ++ [x], bad := p.bad + bad }
        else pack s c a k slots r { p with skipped := p.skipped ++ [v], bad := p.bad + bad }

/-- Slices a launched vector issues. -/
def Launched.slices (v : Launched) : Nat := boolNat v.high + boolNat v.low

/-- Record additions of a step on a lattice: masked rows, height of the plane, number (R83). -/
def addCount (l : Nat) (m : List Nat) (z n : Nat) (t : List (Nat × List Nat × Nat × Nat)) :
    List (Nat × List Nat × Nat × Nat) :=
  let same (x : Nat × List Nat × Nat × Nat) : Bool := x.1 == l && x.2.1 == m && x.2.2.1 == z
  if t.any same then t.map fun x => if same x then (l, m, z, x.2.2.2 + n) else x else t ++ [(l, m, z, n)]

/-- Note a burst in the record of what a step issued on a lattice (R45). -/
def noteIssued (l t c uid time : Nat) (is : List Issued) : List Issued :=
  let same (i : Issued) : Bool := i.lat == l && i.thread == t && i.uid == uid && i.ctx == c
  if is.any same then is.map fun i => if same i then { i with time := time, bursts := i.bursts + 1 } else i
  else is ++ [{ lat := l, thread := t, ctx := c, uid := uid, time := time, bursts := 1, released := false }]

/-- The carry-in that a burst reads is fetched (R79, R165); it is read as the burst resolves (log entry 27). -/
def State.fetchCarry (s : State) (k : Chunk) (a : Active) (vs : List Nat) : State :=
  let w := a.word.toNat
  let c := s.ctx (s.thread k.thread).ctx
  let z := accBytes (mmAcc w)
  let n := outBytes w
  let items := vs.filterMap fun v =>
    if !mmCin w && (a.unstarted v (mmRows w)).length == mmRows w then none
    else match mmItems s c a (mmCarry w) n (itemAlign n) (v + 1) with
      | .error _ => none
      | .ok l => (l[v]?).bind fun i => (itemVa i).map fun va => ((some (va + k.lo * z), i.2), 0)
  s.addXfers k.thread k.uid .sCarry false (depthOf s c (mmCarry w))
    (transfersOf c (threadBay k.thread) 0 ((k.hi - k.lo) * z) items)

/-- Grant a burst to a piece (R137): counters, the deficit, the record for R45, WARN on a stale lattice. LAT_RANGE shows
the burst granted last (R70: DESIGN CHOICE, log entry 38). -/
def State.grantBurst (s : State) (l : Nat) (k : Chunk) (a : Active) (p : Plane) (ins : List Launched) (cap : Nat) :
    State :=
  let w := a.word.toNat
  let c := (s.thread k.thread).ctx
  let b := l / 2
  let g := a.rangesOn l
  let n := ins.foldl (fun n v => n + v.slices) 0
  let burst : Burst :=
    { chunk := k, ins := ins, plane := p, ctx := c, ranges := g, reads := s.free, suspect := false, issued := s.time,
      adds := (a.adds.filter fun x => x.1 == l).map (·.2), word := a.word, dead := (s.lat l).dem }
  let masked := (s.lat l).maskedRows
  let s := (s.drawn (256 * 512)).bump .latBurstsCount l
  let s := if k.suspectRep then s.bump .latSuspectCntRepeats l else if k.rep then s.bump .rowOvfCntRepeats l else s
  let s := s.modCtx c fun x => x.addDeficit b (-1)
  let s : State := { s with issued := noteIssued l k.thread c k.uid s.time s.issued }
  let s := s.modStep k.thread k.uid fun a =>
    { a with inflight := a.inflight + 1, adds := addCount l masked (p.hi - p.lo) n a.adds }
  let s := if mmMode w = 2 then s.fetchCarry k a (ins.map (·.vec)) else s
  let s := s.modLat l fun x => { x with inflight := x.inflight ++ [burst] }
  let s := s.probe l (cap - n)
  let s := (((s.setFld .latRangeHh l (g.getD 0 0)).setFld .latRangeLh l (g.getD 1 0)).setFld .latRangeHl l
    (g.getD 2 0)).setFld .latRangeLl l (g.getD 3 0)
  let s := s.setFld .latRangeAuto l (boolNat (mmAuto w))
  let s := if s.flag .calStatusStale l then s.setWarn c else s
  s.noteLit l true

/-- Try to fill a burst from the piece whose plane is active; whether it was granted. NONFINITE counts a block each time
its vector is packed (R62: DESIGN CHOICE, log entry 36). -/
def State.tryBurst (s : State) (l : Nat) (swapped : Bool) : State × Bool :=
  let x := s.lat l
  match x.current, x.active with
  | some k, some p =>
    match (s.thread k.thread).step? k.uid with
    | none => (s.modLat l fun x => { x with current := none }, false)
    | some a =>
      let c := (s.thread k.thread).ctx
      if !((s.ctx c).live && s.staged a k) then (s, false)
      else
        let cap := x.capacity swapped
        let n := s.arrivedTo k - k.used
        match pack s (s.ctx c) a k cap (k.todo.take n) { ins := [], skipped := [], rest := [], bad := 0 } with
        | .error f => (s.stepFault k.thread f a.pc k.uid, false)
        | .ok q =>
          let w := a.word.toNat
          let left := q.rest ++ k.todo.drop n
          let s := (s.bump .latSkipSlotsSlots l (q.skipped.length * slotCost (mmPair w))).bump .latFmtCntNonfinite l q.bad
          let s := s.modLat l fun x => { x with current := if left.isEmpty then none else some { k with todo := left } }
          let s := s.consume k.thread k.uid k.id (k.all.length - left.length)
          let s := if mmMode w = 0 then s.putZeros k.thread k.uid k.lo k.hi q.skipped else s
          if q.ins.isEmpty then (if left.isEmpty then s.mmFinish k.thread k.uid else s, false)
          else (s.grantBurst l k a p q.ins cap, true)
  | _, _ => (s, false)

/-- A weight swap (R30, R53): shadow into active; masks and patches that waited take effect; the piece that loses the
lattice unfinished re-enters selection (R137). -/
def State.swap (s : State) (l : Nat) : State :=
  let x := s.lat l
  match x.loading, x.shadow with
  | some k, some p =>
    let s := match x.current with
      | some j => (s.returnChunk j).bump .seqGrantCntYields (l / 2)
      | none => s
    let s := s.setLat l { (if x.demPending then x.resolveDead else x) with
      active := some p, shadow := none, loading := none, current := some k, sinceSwap := 0, reseed := true }
    let s := ((s.bump .latSwapsCount l).zeroHold l).measureParked l
    if (s.lat l).deadOk then s else s.fenceLattice l 12
  | _, _ => s

/-- A piece being loaded for more rows than its swap would find goes back, to be split and loaded again (R52). -/
def State.fitLoad (s : State) (l : Nat) : State :=
  let x := s.lat l
  match x.loading with
  | some k =>
    if k.hi - k.lo ≤ x.nextAvail then s
    else (s.setLat l { x with loading := none, shadow := none }).returnChunk k
  | none => s

/-- Whether the piece whose plane is active must pass before the loaded one: an earlier plane of the same step over the
same vectors (R29, R78 to R80). -/
def Lattice.mustFinish (x : Lattice) : Bool :=
  match x.current, x.loading with
  | some j, some k => j.thread == k.thread && j.uid == k.uid && j.rep == k.rep && j.before k && j.meets k
  | _, _ => false

/-- Whether a swap may take effect at a boundary (R30). -/
def Lattice.maySwap (x : Lattice) : Bool :=
  x.loading.isSome && x.shadow.isSome && decide (2 ≤ x.sinceSwap) && !x.mustFinish

/-- A forced unit that a boundary takes, if any (R341, R342): an identity round where it could not wait 1 µs more (DESIGN
CHOICE, log entry 59), a sweep, random probes. -/
def State.forced (s : State) (l : Nat) : Option State :=
  let x := s.lat l
  if x.roundLeft = 0 && decide (x.lastPass + 9999999000 ≤ s.time) then
    some ((s.bump .calForcedCntIdent l).identityBurst l true)
  else if decide (64 * 65536 ≤ x.sweepDebt) && !x.guard then
    some (((s.modLat l fun x => { x with forcedSweeps := x.forcedSweeps + 1 }).sweep l).noteLit l true)
  else if decide (16384 * 4096 ≤ x.probeDebt) then
    some (((s.bump .calForcedCntProbe l).probe l (x.capacity false)).noteLit l true)
  else none

/-- The grant of a boundary in SERVING (R137, R231, R342). A burst is not withheld from its repeat, nor from the second
half of a forced round. -/
def State.serveBurst (s : State) (l : Nat) : State :=
  let s := s.fitLoad l
  let x := s.lat l
  let rep := x.current.any (·.rep)
  if x.roundLeft = 2 || (x.roundLeft = 1 && s.allows l) then s.identityBurst l false
  else match if rep then none else s.forced l with
    | some s => s
    | none =>
      if !rep && !s.allows l then s.withhold l
      else
        let r := s.tryBurst l false
        if r.2 then r.1
        else
          let s := r.1
          let x := s.lat l
          if !s.allows l && !(x.maySwap && x.loading.any (·.rep)) then s.withhold l
          else if x.maySwap && x.state == .serving then
            let r := (s.swap l).tryBurst l true
            if r.2 then r.1 else r.1.idleBurst l true
          else s.idleBurst l false

/-- A boundary of a LOCKED lattice (R40, R299, R337): it enters SERVING under the first row, or runs a round or, in an
episode, probes: sweeps and random ones in turn (DESIGN CHOICE, log entry 52). -/
def State.lockedBurst (s : State) (l : Nat) : State :=
  let x := s.lat l
  let up := (s.bay (l / 2)).upset
  if s.latTarget l = .serving && x.held.isEmpty && x.phase = 0 && x.quick s.time && !up then
    ((s.noteLit l false).serve l x.why).feedBay (l / 2)
  else
    let s := s.follow l
    let x := s.lat l
    let run := (s.bay (l / 2)).latPower == .run
    let round := x.roundLeft = 1 || x.roundLeft = 2 || (x.roundDue && x.roundLeft = 0)
    if !run || !(round || x.episode.isSome) then s.noteLit l false
    else if !s.allows l then s.withhold l
    else if round then s.identityBurst l false
    else if x.capacity false = 256 && x.swept % 2 = x.randoms / 256 % 2 then (s.sweep l).noteLit l true
    else (s.probe l (x.capacity false)).noteLit l true

/-- A boundary at which a SUSPECT lattice enters SERVING: it swaps where a dead ring waits for that, and serves (R40,
R53). -/
def State.resumeBurst (s : State) (l cause : Nat) : State :=
  let pending := (s.lat l).demPending
  let s := (s.enterLat l .serving 0 cause).modLat l fun x => { x with sweepDebt := 0, probeDebt := 0 }
  if !pending then s.serveBurst l
  else if !s.allows l then (s.swap l).withhold l
  else
    let r := (s.swap l).tryBurst l true
    if r.2 then r.1 else r.1.idleBurst l true

/-- BURST_BOUNDARY. LAT_STATE.CAUSE keeps its value on entering SERVING from SUSPECT, for which the spec gives no code
(R40: DESIGN CHOICE, log entry 31). -/
def execBurstBoundary (l : Fin 8) (s : State) : Out :=
  if !s.boot.on then .next s
  else
    -- an identity burst, which the guard marks, does not count toward the spacing of swaps (R297); table changes that need no
    -- ramp take effect (R332)
    let s := s.modLat l fun x => { x with
      sinceSwap := if x.guard then x.sinceSwap else min 2 (x.sinceSwap + 1), ramps := x.ramps.map fun r => { r with landed := true } }
    let x := s.lat l
    let tgt := s.latTarget l
    let leave := x.fencePending ≠ 0 || tgt ≠ .serving
    let drain (s : State) : State :=
      let s := s.noteLit l false
      if x.fencePending ≠ 0 then s.drainLat l x.fencePending false else s.drainLat l x.why (tgt == .locked)
    match x.state with
    | .locked => .next (s.lockedBurst l)
    | .serving =>
      if leave then .next (drain s)
      else if (s.bay (l.val / 2)).upset then .next (s.noteLit l false)
      else .next (((s.growDebts l).serveBurst l).feedBay (l.val / 2))
    | .suspect =>
      if leave then .next (drain s)
      else
        let s := s.fitLoad l
        let x := s.lat l
        if x.held.isEmpty && (!x.demPending || x.maySwap) then .next ((s.resumeBurst l x.cause).feedBay (l.val / 2))
        else if x.roundLeft = 1 || x.roundLeft = 2 || (x.roundDue && x.roundLeft = 0) then
          .next (if s.allows l then s.identityBurst l false else s.withhold l)
        else .next ((s.noteLit l false).feedBay (l.val / 2))
    | _ => .next (s.noteLit l false)

end Sys2Proof.Machine
end

