-- ==== Sys2Proof/Machine/Move.lean ====
section
/-! DEFINITION. The MOVE and GATHER steps (R128, R129, R157, R268, R273, R279). -/

namespace Sys2Proof.Machine

/-! ## Remote pieces of a MOVE -/

/-- What a sequenced frame of a step carries besides its data. -/
def sentOf (t uid window off len dst src : Nat) (answers : Bool) : Sent :=
  { fseq := 0, thread := t, idx := 0, ctx := 0, pc := 0, uid := uid, answers := answers, got := 0, len := len, dst := dst, src := src,
    data := [], window := window, off := off, tag := 0 }

/-- The multicast group of a flow bound at this device (R279). -/
def State.mcOf (s : State) (flow : Nat) : Option Nat := (s.boundGroup flow).map (·.id)

/-- Write bytes to a window of another device on a flow (R128, R279): frames of at most 256 bytes in order. `src` is
where the bytes came from (an address value + 1, 0 for zeros). -/
def State.remoteWrite (s : State) (t uid dev window off flow : Nat) (d : List Byte) (src : Nat) : Except Nat State :=
  let mc := s.mcOf flow
  if mc.isNone && (s.routeTo dev).isNone then .error fltTranslation
  else match s.openFlow dev flow mc with
    | none => .ok s
    | some (s, e) =>
      let r := (frameCuts 0 d.length).foldl (fun (r : State × SrcFlow) c =>
        r.1.sendSeq r.2 2 { sentOf t uid window (off + c.1) c.2 0 (if src = 0 then 0 else src + c.1) false with
          data := if bitOf (src - 1) 63 then (d.drop c.1).take c.2 else [] } ((d.drop c.1).take c.2)) (s, e)
      .ok r.1

/-- Ask another device for bytes (R262): one READ_REQ for each 4,096-byte block; the data goes to `dst`. -/
def State.remoteRead (s : State) (t uid dev window off len flow dst : Nat) : Except Nat State :=
  if (s.routeTo dev).isNone then .error fltTranslation
  else match s.openFlow dev flow none with
    | none => .ok s
    | some (s, e) =>
      let r := (blockCuts off len).foldl (fun (r : State × SrcFlow) c =>
        r.1.sendSeq r.2 3 (sentOf t uid window c.1 c.2 (if dst = 0 then 0 else dst + (c.1 - off)) 0 true)
          (leBytes 8 c.2)) (s, e)
      .ok r.1

/-- Read through one of this device's own windows (R184). -/
def State.selfRead (s : State) (window off len : Nat) : Except (Nat × State) (List Byte) :=
  match s.windowAddr s.cfg.device window off len .read with
  | none => .error (fltTranslation, s.windowReject s.cfg.device window)
  | some a => if s.readsBad a len then .error (fltMemory, s) else .ok (s.seen a len)

/-- Write through one of this device's own windows (R184). -/
def State.selfWrite (s : State) (window off : Nat) (d : List Byte) : StepRun :=
  match s.windowAddr s.cfg.device window off d.length .write with
  | none => .error (fltTranslation, s.windowReject s.cfg.device window)
  | some a => .ok (s.devWrite a d)

/-- Deliver bytes to a destination address value (R128); `v` none for a null item. -/
def State.moveWrite (s : State) (c : Ctx) (t uid flow : Nat) (v : Option Nat) (d : List Byte) (src : Nat) : StepRun :=
  match v with
  | none => .ok s
  | some v => match addrKind v with
    | .own va => orFault s (s.writeVirt c va d)
    | .global dev win off =>
      if dev = s.cfg.device && (s.mcOf flow).isNone then s.selfWrite win off d
      else orFault s (s.remoteWrite t uid dev win off flow d src)
    | .bad => .error (fltTranslation, s)

/-- Copy one pair (R128); one whose source lies on another device is copied as the answers come. -/
def State.movePair (s : State) (c : Ctx) (t uid flow len : Nat) (src dst : Option Nat) : StepRun :=
  let out (s : State) (d : List Byte) : StepRun := s.moveWrite c t uid flow dst d (src.elim 0 (· + 1))
  match src with
  | none => out s (List.replicate len 0)
  | some v => match addrKind v with
    | .own va => match s.readVirt c va len with
      | .error e => .error (e, s)
      | .ok d => out s d
    | .global dev win off =>
      if dev = s.cfg.device then match s.selfRead win off len with
        | .error e => .error e
        | .ok d => out s d
      else orFault s (s.remoteRead t uid dev win off len flow (dst.elim 0 (· + 1)))
    | .bad => .error (fltTranslation, s)

/-! ## ATOM (R128, R145, R247) -/

/-- Complete the first pair of an ATOM MOVE with the word's old value: the result word is written, whether it swapped
is kept. -/
def State.atomDone (s : State) (c : Ctx) (t uid flow : Nat) (old : Nat) : StepRun :=
  match (s.thread t).step? uid with
  | none => .ok s
  | some a => match a.atoms with
    | [] => .ok s
    | p :: r =>
      let cmp := (a.operands.getD (0, 0)).1
      let s := s.modStep t uid fun a =>
        { a with atoms := r, operands := none, swapped := a.swapped && old == cmp }
      match p.1 with
      | none => .ok s
      | some v => s.moveWrite c t uid flow (some (v + 16)) (leBytes 8 old) 0

/-- Compare and swap a word of this device or of host memory, answering its old value. -/
def State.casWord (s : State) (host : Bool) (a cmp new : Nat) : Except Nat (State × Nat) :=
  if !host && s.readsBad a 8 then .error fltMemory
  else
    let old := s.word host a
    .ok (if old = cmp then s.writeWord host a new else s, old)

/-- One move of an ATOM MOVE's first pair: `true` when the step may go on at once, `false` when it awaits an answer. -/
def State.atomStep (s : State) (c : Ctx) (t uid flow : Nat) (a : Active) : Except (Nat × State) (State × Bool) :=
  match a.atoms with
  | [] => .ok (s, false)
  | (src, dst) :: r =>
    match dst with
    | none => .ok (s.modStep t uid fun a => { a with atoms := r, operands := none, swapped := false }, true)
    | some d =>
      match a.operands with
      | none =>
        let have' (v : List Byte) : Except (Nat × State) (State × Bool) :=
          .ok (s.modStep t uid fun a => { a with operands := some (leNat (v.take 8), leNat (v.drop 8)) }, true)
        match src with
        | none => have' (List.replicate 16 0)
        | some v => match addrKind v with
          | .own va => match s.readVirt c va 16 with
            | .ok b => have' b
            | .error e => .error (e, s)
          | .global dev win off =>
            if dev = s.cfg.device then match s.selfRead win off 16 with
              | .ok b => have' b
              | .error e => .error e
            else match s.remoteRead t uid dev win off 16 flow 1 with
              | .ok s => .ok (s.modStep t uid fun a => { a with opnd := [] }, false)
              | .error e => .error (e, s)
          | .bad => .error (fltTranslation, s)
      | some (cmp, new) =>
        let finish (r : Except Nat (State × Nat)) : Except (Nat × State) (State × Bool) := do
          let p ← orFault s r
          let s ← p.1.atomDone c t uid flow p.2
          .ok (s, true)
        match addrKind d with
        | .own va => match c.pieces true va 8 with
          | .ok (p :: _) =>
            if !p.host && s.hostHolds (lineOf p.addr) then .ok (s.holdOp p.addr (.cas cmp new t uid flow), false)
            else finish (s.casWord p.host p.addr cmp new)
          | .ok [] => .ok (s, false)
          | .error e => .error (e, s)
        | .global dev win off =>
          if dev = s.cfg.device then match s.windowAddr dev win off 8 .cas with
            | none => .error (fltTranslation, s.windowReject dev win)
            | some a =>
              if s.hostHolds (lineOf a) then .ok (s.holdOp a (.cas cmp new t uid flow), false)
              else finish (s.casWord false a cmp new)
          else if (s.routeTo dev).isNone then .error (fltTranslation, s)
          else match s.openFlow dev flow none with
            | none => .ok (s, false)
            | some (s, e) =>
              .ok ((s.sendSeq e 5 (sentOf t uid win off 8 0 0 true) (leBytes 8 cmp ++ leBytes 8 new)).1, false)
        | .bad => .error (fltTranslation, s)

/-- Carry an ATOM MOVE on until it awaits an answer or is done; `n` bounds the moves (two for each pair). -/
def State.atomRun (s : State) (c : Ctx) (t uid flow : Nat) : Nat → StepRun
  | 0 => .ok s
  | n + 1 => match (s.thread t).step? uid with
    | none => .ok s
    | some a => match s.atomStep c t uid flow a with
      | .error e => .error e
      | .ok (s, true) => s.atomRun c t uid flow n
      | .ok (s, false) => .ok s

/-! ## MOVE -/

/-- Whether an address value lies on another device. -/
def State.isRemote (s : State) (v : Option Nat) : Bool :=
  v.any fun v => match addrKind v with
    | .global dev _ _ => dev != s.cfg.device
    | _ => false

/-- Copy a MOVE's pairs in order (R128), up to one whose source lies on another device: the next pair waits for its answers,
so that the writes keep pair order. `n` bounds the pairs. -/
def State.pairsRun (s : State) (c : Ctx) (t uid flow len : Nat) : Nat → StepRun
  | 0 => .ok s
  | n + 1 => match ((s.thread t).step? uid).map (·.pairs) with
    | some (p :: r) =>
      match (s.modStep t uid fun a => { a with pairs := r }).movePair c t uid flow len p.1 p.2 with
      | .error e => .error e
      | .ok s => if s.isRemote p.1 && len != 0 then .ok s else s.pairsRun c t uid flow len n
    | _ => .ok s

/-- Devices and groups the pairs of a MOVE reach by flow. -/
def moveFlows (s : State) (flow : Nat) (l : List Item) : List (Nat × Option Nat) :=
  (l.filterMap fun i => i.1.bind fun v => match addrKind v with
    | .global dev _ _ => if dev = s.cfg.device then none else some (dev, s.mcOf flow)
    | _ => none).eraseDups

/-- Whether the source flow table has room for all of some flows (R273). -/
def flowsOpen (s : State) (flow : Nat) : List (Nat × Option Nat) → Bool
  | [] => true
  | p :: r => match s.openFlow p.1 flow p.2 with
    | none => false
    | some (s, _) => flowsOpen s flow r

/-- The source and destination items of a MOVE: min(COUNT, items of S_SRC) pairs (R157). -/
def moveItems (s : State) (c : Ctx) (th : Thread) (w : Nat) : Except Nat (List Item × List Item) := do
  let n ← if mvSrc w = noStream then .ok 0
    else (runStencil s c th (mvSrc w) (some (mvCount w))).map fun g => min (mvCount w) g.emitted
  let zs := if mvAtom w then 24 else mvLen w
  let zd := if mvAtom w then 8 else mvLen w
  if n = 0 then .ok ([], [])
  else
    needStream (mvDst w) n
    let a ← streamItems s c th (mvSrc w) zs (itemAlign zs) n true
    let b ← streamItems s c th (mvDst w) zd (itemAlign zd) n true
    .ok (a, b)

/-- The pairs that the mask lets pass. -/
def moveActive (s : State) (c : Ctx) (th : Thread) (w : Nat) (ps : List (Item × Item)) :
    Except Nat (List (Item × Item)) :=
  if mvMasken w && !ps.isEmpty then do
    let base ← maskBase s c th (mvMask w)
    let l ← ps.zipIdx.mapM fun p => (maskBit s c (some base) (mvGran w) p.2).map fun b => (p.1, b)
    .ok ((l.filter (·.2)).map (·.1))
  else .ok ps

/-- A new transfer of a bound flow takes the next transfer number (R262, R282). -/
def State.nextTransfer (s : State) (flow : Nat) : State :=
  { s with hnx := { s.hnx with src := s.hnx.src.map fun e =>
      if e.mc.isSome && e.flow == flow then { e with transfer := (e.transfer + 1) % 16384 } else e } }

/-- MOVE's effect (R128). -/
def moveEffect (t : Nat) (s : State) (th : Thread) (w uid : Nat) : StepRun := do
  let c := s.ctx th.ctx
  let items ← orFault s (moveItems s c th w)
  let ps ← orFault s (moveActive s c th w (items.1.zip items.2))
  let s := if (s.mcOf (mvFlow w)).isSome then s.nextTransfer (mvFlow w) else s
  let s ← if mvAtom w then
      (s.modStep t uid fun a => { a with atoms := ps.map fun p => (p.1.1, p.2.1) }).atomRun c t uid (mvFlow w)
        (3 * ps.length + 1)
    else
      let s := s.modStep t uid fun a => { a with pairs := ps.map fun p => (p.1.1, p.2.1) }
      s.pairsRun c t uid (mvFlow w) (mvLen w) ps.length
  let mask := if mvMasken w then (maskBase s c th (mvMask w)).toOption else none
  let s := s.openMask t uid (mvMask w) (mvGran w) items.1.length mask
  let own (l : List Item) : List Item := l.filter fun i => i.1.all fun v => !bitOf v 63
  let s := (s.openItems t uid .sSrc false (mvSrc w) (own (ps.map (·.1))) (if mvAtom w then 24 else mvLen w)).openItems t
    uid .sDst true (mvDst w) (own (ps.map (·.2))) (mvLen w)
  .ok (s.regrant (threadBay t))

/-- Whether a MOVE waits for source flow entries before it issues (R273). -/
def State.moveStalls (s : State) (t w : Nat) : Bool :=
  let th := s.thread t
  match moveItems s (s.ctx th.ctx) th w with
  | .error _ => false
  | .ok p => !flowsOpen s (mvFlow w) (moveFlows s (mvFlow w) (p.1 ++ p.2))

/-- MOVE. -/
def execMove (t : Fin 512) (s : State) : Out :=
  match s.begin t .move with
  | .go _ w => if s.moveStalls t w then .next (s.stall t) else .next (s.longStep t .move (moveEffect t))
  | _ => .next (s.longStep t .move (moveEffect t))

/-! ## GATHER (R129) -/

/-- The index an item of S_IDX stands for: a null item reads as 0xFFFF_FFFF (R158). -/
def gatherIndex (s : State) (c : Ctx) (i : Item) : Except Nat Nat :=
  match itemVa i with
  | none => .ok 0xFFFF_FFFF
  | some va => (s.readVirt c va 4).map leNat

/-- A table row: zeros at or above LIMIT, or for 0xFFFF_FFFF (R129). -/
def gatherRow (s : State) (c : Ctx) (w idx : Nat) : Except Nat (List Byte) :=
  if gaLimit w ≤ idx || idx = 0xFFFF_FFFF then .ok (List.replicate (gaRowbytes w) 0)
  else s.readVirt c (gaTable w + idx * gaStride w) (gaRowbytes w)

/-- Add rows as FP32, element by element, by the tree of R92; none where a sum is infinite. -/
def poolRows (n : Nat) (rows : List (List Byte)) : Option (List Byte) :=
  (((upTo n).mapM fun i => reduceTo .fp32 (rows.map fun r => f32 (recWord r i))).map fun l => l.flatMap (leBytes 4))
where
  /-- Word `i` of a row. -/
  recWord (r : List Byte) (i : Nat) : Nat := leNat ((r.drop (4 * i)).take 4)

/-- Groups of at most `n` entries. -/
def groupsOf {α : Type} (n : Nat) (l : List α) : List (List α) :=
  (upTo ((l.length + n - 1) / n)).map fun i => (l.drop (i * n)).take n

/-- The rows a GATHER reads, as items of its S_IDX stream's transfers. -/
def gatherRows (s : State) (c : Ctx) (w : Nat) (idx : List Item) : Except Nat (List Item) := do
  let l ← idx.mapM fun i => gatherIndex s c i
  .ok ((l.filter fun i => decide (i < gaLimit w) && i != 0xFFFF_FFFF).map fun i =>
    (some (gaTable w + i * gaStride w), 0, i + 1))

/-- GATHER's effect. -/
def gatherEffect (t : Nat) (s : State) (th : Thread) (w uid : Nat) : StepRun := do
  let c := s.ctx th.ctx
  let z := gaRowbytes w
  let e ← orFault s (countItems s c th (gaIdx w))
  let idx ← orFault s (streamItems s c th (gaIdx w) 4 4 e false)
  let groups := groupsOf (if gaPool w then gaPooln w else 1) idx
  let dst ← orFault s (if groups.isEmpty then .ok [] else do
    needStream (gaDst w) groups.length
    streamItems s c th (gaDst w) z (itemAlign z) groups.length false)
  let s ← foldRun (fun s (p : List Item × Item) => do
    let rows ← orFault s (p.1.mapM fun i => do gatherRow s c w (← gatherIndex s c i))
    match if gaPool w then poolRows (z / 4) rows else rows.head? with
    | some d => orFault s (writeItem s c p.2 d)
    | none => .error (fltOverflow, s)) (groups.zip dst) s
  let rows ← orFault s (gatherRows s c w idx)
  let s := ((s.openItems t uid .sIdx false (gaIdx w) idx 4).openItems t uid .sIdx false (gaIdx w) rows z).openItems t uid
    .sDst true (gaDst w) dst z
  .ok (s.regrant (threadBay t))

/-- GATHER. -/
def execGather (t : Fin 512) (s : State) : Out := .next (s.longStep t .gather (gatherEffect t))

end Sys2Proof.Machine
end

