-- ==== Sys2Proof/WellFormed.lean ====
section
/-! DEFINITION. Which operands a command's row can carry. -/

namespace Sys2Proof

/-- TYPE of a frame: header bits [3:0] (R261). -/
def Frame.type (f : Frame) : Nat := f.hdr.toNat % 16

/-- LEN of a frame: header bits [17:9] (R261). -/
def Frame.len (f : Frame) : Nat := f.hdr.toNat / 2 ^ 9 % 512

/-- A frame's payload is LEN bytes, 0 to 256, padded to a multiple of 8 (R261). -/
def Frame.sized (f : Frame) : Bool := decide (f.len ≤ 256) && (f.payload.length == (f.len + 7) / 8 * 8)

/-- A command's operands fit its row: a frame's TYPE is its row's (R261), a sample has a reading for each of the 190
sensors (R377), a line-power sample one for each of the 128 lines (R290). -/
def Instr.wf : Instr → Bool
  | .idle _ _ f => f.type == 0 && f.sized
  | .link _ _ f => f.type == 1 && f.sized
  | .write _ _ f => f.type == 2 && f.sized
  | .readReq _ _ f _ => f.type == 3 && f.sized
  | .readResp _ _ f => f.type == 4 && f.sized
  | .casReq _ _ f _ => f.type == 5 && f.sized
  | .casResp _ _ f => f.type == 6 && f.sized
  | .signalFrame _ _ f _ => f.type == 7 && f.sized
  | .e2eAck _ _ f => f.type == 8 && f.sized
  | .e2eNack _ _ f => f.type == 9 && f.sized
  | .mcWrite _ _ f => f.type == 10 && f.sized
  | .mcOpen _ _ f => f.type == 11 && f.sized
  | .mcAck _ _ f => f.type == 12 && f.sized
  | .mcPrune _ _ f => f.type == 13 && f.sized
  | .mcRepair _ _ f => f.type == 14 && f.sized
  | .reservedFrame _ _ f => f.type == 15 && f.sized
  | .thermalSample r => r.length == 190
  | .linePowerSample _ p => p.length == 128
  | _ => true

end Sys2Proof
end

