-- ==== Sys2Proof/Machine/Receive.lean ====
section
/-! DEFINITION. Frames that arrive on a Henxo port: link retry and credits (R259, R263 to R266), relaying (R269), and each
frame type at its destination (R274 to R284); the timers of flows (R224, R275 to R277, R280, R282). -/

namespace Sys2Proof.Machine

/-! ## The link (R260, R263, R264, R266) -/

/-- What a retry buffer holds beyond frame `fsn`; `none` where it does not hold that frame. -/
def afterFsn (fsn : Nat) : List Frame → Option (List Frame)
  | [] => none
  | f :: r => if fFsn f = fsn then some r else afterFsn fsn r

/-- An accepted frame's acknowledgement, NAK and credits. -/
def State.takeAck (s : State) (p k : Nat) (f : Frame) : State :=
  let x := s.port p
  let l := x.lane k
  let l := match afterFsn (fAck f) l.retry with
    | some r => { l with retry := r, tries := l.tries.drop (l.retry.length - r.length) }
    | none => l
  let i := creditIdx (fCrClass f) (fCrSet f)
  let s := s.setPort p { (x.setLane k l) with
    credits := x.credits.set i (x.credits.getD i 0 + fCrCount f),
    stalled := if fCrCount f = 0 then x.stalled else x.stalled.set i false }
  let s := if fNak f then (s.bump .hnxRetryCntNaks p).replay p k else s
  (s.pumpPort p).pumpMc

/-- A frame that is not the next of its lane, or whose link CRC fails, is discarded: one NAK until a frame is accepted. -/
def State.rejectFrame (s : State) (p k : Nat) : State :=
  let l := (s.port p).lane k
  if l.nakSent then s
  else (s.modPort p fun x => x.setLane k { l with nakSent := true }).sendIdle p k true

/-- The link's part of a frame on a lane; `true` where it is accepted. A frame that overlaps a discarded codeword does not
arrive (R256). -/
def State.linkIn (s : State) (p k : Nat) (f : Frame) : State × Bool :=
  let x := s.port p
  if !s.boot.on then (s, false)
  else if x.state = .training then
    (if fType f = 1 && f.crc == linkCrc f then s.bump .hnxRxFramesCount p else s, false)
  else if x.state ≠ .active || !(x.upLanes.contains k) || (x.lane k).deaf then (s, false)
  else
    let l := x.lane k
    if f.crc ≠ linkCrc f || (fType f ≠ 0 && fFsn f ≠ l.expected) then (s.rejectFrame p k, false)
    else if fType f = 0 then ((s.modPort p fun x => x.setLane k { l with nakSent := false }).takeAck p k f, true)
    else
      let s := s.modPort p fun x =>
        x.setLane k { l with nakSent := false, expected := (l.expected + 1) % 4096, owed := true }
      ((s.bump .hnxRxFramesCount p).takeAck p k f, true)

/-- The acknowledgement a lane still owes goes on an IDLE frame (R264). -/
def State.ackLane (s : State) (p k : Nat) : State :=
  let x := s.port p
  if x.state = .active && (x.lane k).owed && x.upLanes.contains k then s.sendIdle p k false else s

/-- Where R262 and R259 discard a received frame. -/
def Port.discards (x : Port) (f : Frame) : Bool := fType f == 15 || (x.version == 1 && decide (10 ≤ fType f))

/-- The credit a received frame holds (R266, R270). -/
def Port.creditOf (x : Port) (f : Frame) : Nat := creditIdx (fClass f) (x.setOf f)

/-- Whether a destination discards a frame for its E2E field (R259, R263). -/
def Port.badE2e (x : Port) (f : Frame) : Bool := x.version != 1 && fE2e f != e2eOf f

/-- A unicast frame (R269): delivered by `deliver` at its destination, or relayed. -/
def State.unicastIn (s : State) (p k : Nat) (f : Frame) (deliver : State → State) : State :=
  let r := s.linkIn p k f
  let s := r.1
  if !r.2 then s
  else
    let x := s.port p
    let c := x.creditOf f
    let s :=
      if x.discards f then (s.bump .hnxPortEvtRouteDiscard p).giveCredit p c
      else match s.routeFrame f with
        | .deliver =>
          if x.badE2e f then (s.bump .hnxPortEvtE2eFail p).giveCredit p c else ((deliver s).takeParked).giveCredit p c
        | .send q g =>
          if (s.port q).version = 1 && 10 ≤ fType g then (s.bump .hnxPortEvtRouteDiscard p).giveCredit p c
          else s.enqueueFrom q g (p + 1) c
        | .fail reason _ => ((s.bump .hnxPortEvtRouteDiscard p).sendNack f reason).giveCredit p c
    s.ackLane p k

/-- Into the replicator without delivery here. -/
def State.enterRelay (s : State) (p c : Nat) (f : Frame) : State :=
  let s := { s with hnx := { s.hnx with mcWait := s.hnx.mcWait ++ [(p + 1, c, f)] } }
  s.drainMc s.hnx.mcWait.length []

/-- A multicast data frame (R281): delivered to a member, and replicated. -/
def State.multicastIn (s : State) (p k : Nat) (f : Frame) (check : LineCheck) : State :=
  let r := s.linkIn p k f
  let s := r.1
  if !r.2 then s
  else
    let x := s.port p
    let c := x.creditOf f
    let member := (s.group? (fDst f % 1024)).any (·.member)
    let s :=
      if x.discards f then (s.bump .hnxPortEvtRouteDiscard p).giveCredit p c
      else if x.version = 1 then
        -- a SIGNAL on a version 1 link is applied on arrival (R259)
        ((if member then s.handleSignal f p true check else s).enterRelay p c f)
      else if member && fE2e f ≠ e2eOf f then (s.bump .hnxPortEvtE2eFail p).enterRelay p c f
      else (s.enterMc (p + 1) c f check).takeParked
    s.ackLane p k

/-- A multicast control frame of one hop: `deliver`, which also gives the credit it is told of back or passes it on, or the
discards of R259. -/
def State.treeIn (s : State) (p k : Nat) (f : Frame) (deliver : State → Nat → State) : State :=
  let r := s.linkIn p k f
  let s := r.1
  if !r.2 then s
  else
    let x := s.port p
    let c := x.creditOf f
    let s := if x.discards f then (s.bump .hnxPortEvtRouteDiscard p).giveCredit p c else deliver s c
    s.ackLane p k

/-! ## Answers at the source (R128, R276) -/

/-- Continue with a step's outcome, or fault the step. -/
def State.settleRun (t uid : Nat) : StepRun → State
  | .ok s => s
  | .error (c, s) => match (s.thread t).step? uid with
    | some a => s.stepFault t c a.pc uid
    | none => s

/-- The request a response answers. -/
def SrcFlow.asked (e : SrcFlow) (q : BitVec 32) : Option Sent :=
  (e.unacked ++ e.waiting).find? fun u => u.fseq == q && u.answers

/-- The request a response on a flow of a device answers: of its entry, or of one that has been evicted since (R273). -/
def State.askedOf (s : State) (dst flow : Nat) (q : BitVec 32) : Option Sent :=
  ((s.srcFlow dst flow none).bind fun e => e.asked q).orElse fun _ =>
    (s.hnx.late.find? fun u => u.1 == dst && u.2.1 == flow && u.2.2.fseq == q).map (·.2.2)

/-- Change what is kept of a request; an answered one is no longer waited for. -/
def State.modSent (s : State) (dst flow : Nat) (mc : Option Nat) (q : BitVec 32) (f : Sent → Sent) : State :=
  let up (l : List Sent) : List Sent := l.map fun u => if u.fseq = q then f u else u
  let s : State := match s.srcFlow dst flow mc with
    | some e => s.setSrcFlow { e with unacked := up e.unacked, waiting := (up e.waiting).filter (·.answers) }
    | none => s
  { s with hnx := { s.hnx with
      late := (s.hnx.late.map fun u => if u.1 = dst && u.2.1 = flow && u.2.2.fseq = q then (u.1, u.2.1, f u.2.2) else u).filter
        fun u => u.2.2.answers } }

/-- Requests of a step whose answers are awaited. -/
def State.awaits (s : State) (t uid : Nat) : Bool :=
  let mine (u : Sent) : Bool := u.thread == t && u.uid == uid && u.answers
  (s.hnx.src.any fun e => (e.unacked ++ e.waiting).any mine) || s.hnx.late.any fun u => mine u.2.2

/-- A transfer of a context has ended: what its quota held back goes on (R138). -/
def State.quotaFreed (s : State) (c : Nat) : State := ((s.unstall c).kickAll).regrantAll

/-- The step a request belongs to, while it is in progress. -/
def State.sentStep (s : State) (u : Sent) : Option Active :=
  let th := s.thread u.thread
  if th.ctx = u.ctx then th.step? u.uid else none

/-- The pairs of an ATOM MOVE go on. -/
def State.atomOn (s : State) (u : Sent) (flow : Nat) : State :=
  match s.sentStep u with
  | none => s
  | some a => State.settleRun u.thread u.uid (s.atomRun (s.ctx u.ctx) u.thread u.uid flow (3 * a.atoms.length + 1))

/-- READ_RESP at the requester: data to the request's destination, operands to an ATOM MOVE, poison to the step. -/
def State.takeReadResp (s : State) (f : Frame) : State :=
  let dst := fSrc f
  let flow := fFlow f
  match s.askedOf dst flow (fSeq f) with
  | none => s
  | some u =>
    let whole := decide (u.len ≤ u.got + fLen f)
    let s' := s.modSent dst flow none u.fseq fun u => { u with got := u.got + fLen f, answers := !whole && !fFlag f }
    if fFlag f then (s'.sentFault u fltMemory).quotaFreed u.ctx
    else match s'.sentStep u with
      | none => s'.quotaFreed u.ctx
      | some a =>
        let c := s'.ctx u.ctx
        let place := u.dst - 1 + (fOff f - u.off)
        let s' := if !a.atoms.isEmpty then
            let s' := s'.modStep u.thread u.uid fun a => { a with opnd := memStore a.opnd place (fData f) }
            if s'.awaits u.thread u.uid then s'
            else (s'.modStep u.thread u.uid fun a => { a with
              operands := some (leNat (memBytes a.opnd 0 8), leNat (memBytes a.opnd 8 8)) }).atomOn u flow
          else
            let w := a.word.toNat
            let src := 2 ^ 63 + dst * 2 ^ 48 + fWindow f * 2 ^ 44 + fOff f
            State.settleRun u.thread u.uid (do
              let s ← s'.moveWrite c u.thread u.uid flow (if u.dst = 0 then none else some place) (fData f) (src + 1)
              if s.awaits u.thread u.uid then .ok s
              else s.pairsRun c u.thread u.uid (mvFlow w) (mvLen w) a.pairs.length)
        (s.byThread u.thread s').quotaFreed u.ctx

/-- CAS_RESP at the requester. -/
def State.takeCasResp (s : State) (f : Frame) : State :=
  let dst := fSrc f
  let flow := fFlow f
  match s.askedOf dst flow (fSeq f) with
  | none => s
  | some u =>
    let s' := s.modSent dst flow none u.fseq fun u => { u with answers := false }
    let s' := if fFlag f then s'.sentFault u fltMemory
      else match s'.sentStep u with
        | none => s'
        | some _ => (State.settleRun u.thread u.uid
            (s'.atomDone (s'.ctx u.ctx) u.thread u.uid flow (leNat ((fData f).take 8)))).atomOn u flow
    (s.byThread u.thread s').quotaFreed u.ctx

/-! ## Acknowledgements at the source (R226, R275, R276, R281, R283) -/

/-- Frames of a flow have left it, acknowledged or lost: the contexts `cs` have transfers to make again, and every flow's
waiting frames go on (R138, R273). -/
def State.flowFreed (s : State) (cs : List Nat) : State := ((forEach cs (fun s c => s.unstall c) s).kickAll).regrantAll

/-- The contexts whose frames an entry holds. -/
def SrcFlow.ctxs (e : SrcFlow) : List Nat := ((e.unacked ++ e.waiting).map (·.ctx)).eraseDups

/-- Signals held here for a version 1 path (R226) that `due` picks are sent. -/
def State.sendHeld (s : State) (e : SrcFlow) (due : BitVec 32 → Bool) (lost : Bool) : State :=
  let go := e.sigWait.filter fun w => due w.1
  let s := s.setSrcFlow { e with sigWait := e.sigWait.filter fun w => !due w.1 }
  forEach go (fun s w => match s.srcFlow e.dst e.flow e.mc with
    | some e => s.sendSignal e w.1 w.2.1 w.2.2.1 w.2.2.2.1 (lost || w.2.2.2.2)
    | none => s) s

/-- A frame of a flow is lost: signals held for it go out with LOST (R222, R226). -/
def State.loseHeld (s : State) (e : SrcFlow) (u : Sent) : State :=
  match s.srcFlow e.dst e.flow e.mc with
  | some e => s.sendHeld e (fun w => seqUpTo u.fseq w) true
  | none => s

/-- E2E_ACK at the source: U advances and SYNC is cleared; a repaired member's acknowledgement of a multicast flow. -/
def State.takeE2eAck (s : State) (f : Frame) : State :=
  let q := fSeq f
  match s.boundGroup (fFlow f) with
  | some g => match s.srcFlow 0 (fFlow f) (some g.id) with
    | none => s
    | some e =>
      let ms := e.members.map fun m => if m.1 = fSrc f && seqBefore m.2.1 q then (m.1, q, m.2.2) else m
      ((s.setSrcFlow { e with members := ms }).updateMc g.id s.cfg.device (fFlow f)).flowFreed e.ctxs
  | none => match s.srcFlow (fSrc f) (fFlow f) none with
    | none => s
    | some e =>
      if !seqBefore q e.n then s
      else
        let e' := { e.acked q with sync := false }
        ((s.setSrcFlow e').sendHeld e' (fun w => seqUpTo w q) false).flowFreed e.ctxs

/-- E2E_NACK at the source. -/
def State.takeNack (s : State) (f : Frame) : State :=
  let s := s.bump .hnxFlowCntNackRx
  let w := leNat ((fData f).take 8)
  let first := BitVec.ofNat 32 w
  let count := bitsOf w 47 32
  let reason := bitsOf w 55 48
  let dst := leNat ((fData f).drop 8) % 2 ^ 15
  let e? := match s.boundGroup (fFlow f) with
    | some g => s.srcFlow 0 (fFlow f) (some g.id)
    | none => s.srcFlow dst (fFlow f) none
  match e? with
  | none => s
  | some e =>
    let us := (e.unacked ++ e.waiting).filter fun u => decide ((u.fseq - first).toNat < count)
    if reason = 3 then
      forEach us (fun s u =>
        (s.modSent e.dst e.flow e.mc u.fseq fun u => { u with answers := false }).sentFault u fltTranslation) s
    else if reason = 1 || reason = 2 || (4 ≤ reason && reason ≤ 6) then
      let s := forEach us (fun s u => (s.loseSent e u).loseHeld e u) s
      let s := match s.srcFlow e.dst e.flow e.mc with
        | some e => if reason = 4 then s.setSrcFlow { e with sync := true, opened := e.n } else s
        | none => s
      s.flowFreed e.ctxs
    else s

/-- MC_ACK from a branch. -/
def State.takeMcAck (s : State) (p : Nat) (f : Frame) : State :=
  let g := fTag f
  let flow := fFlow f
  let s := s.mapBranches fun b =>
    if b.group = g && b.port = p then
      { b with lastAck := b.lastAck.map fun a =>
          if a.1 = flow && seqBefore a.2 (fSeq f) then (flow, fSeq f) else a }
    else b
  (s.updateMc g (fDst f) flow).flowFreed (((s.srcFlow 0 flow (some g)).map SrcFlow.ctxs).getD [])

/-- MC_PRUNE at the source (R283). -/
def State.takePrune (s : State) (f : Frame) : State :=
  let w := leNat ((fData f).take 8)
  match s.group? (fTag f) with
  | none => s
  | some g =>
    s.repair g (fFlow f) (leNat ((fData f).drop 8) % 16384) (BitVec.ofNat 32 w)
      (groupUnder g (bitsOf w 46 32) (bitsOf w 50 48))

/-! ## The frame rows -/

/-- IDLE. -/
def execIdle (p lane : Fin 8) (f : Frame) (s : State) : Out :=
  if !(Instr.idle p lane f).wf then .refused .illFormed else .next (s.linkIn p lane f).1

/-- LINK. -/
def execLink (p lane : Fin 8) (f : Frame) (s : State) : Out :=
  if !(Instr.link p lane f).wf then .refused .illFormed else .next ((s.linkIn p lane f).1.ackLane p lane)

/-- WRITE. -/
def execWrite (p lane : Fin 8) (f : Frame) (s : State) : Out :=
  if !(Instr.write p lane f).wf then .refused .illFormed
  else .next (s.unicastIn p lane f fun t => t.handleSeq f p .clean)

/-- READ_REQ. -/
def execReadReq (p lane : Fin 8) (f : Frame) (check : LineCheck) (s : State) : Out :=
  if !(Instr.readReq p lane f check).wf then .refused .illFormed
  else .next (s.unicastIn p lane f fun t => t.handleSeq f p check)

/-- READ_RESP. -/
def execReadResp (p lane : Fin 8) (f : Frame) (s : State) : Out :=
  if !(Instr.readResp p lane f).wf then .refused .illFormed
  else .next (s.unicastIn p lane f fun t => t.takeReadResp f)

/-- CAS_REQ. -/
def execCasReq (p lane : Fin 8) (f : Frame) (check : LineCheck) (s : State) : Out :=
  if !(Instr.casReq p lane f check).wf then .refused .illFormed
  else .next (s.unicastIn p lane f fun t => t.handleSeq f p check)

/-- CAS_RESP. -/
def execCasResp (p lane : Fin 8) (f : Frame) (s : State) : Out :=
  if !(Instr.casResp p lane f).wf then .refused .illFormed
  else .next (s.unicastIn p lane f fun t => t.takeCasResp f)

/-- SIGNAL_FRAME: unicast, or multicast in class 3. `check` is what the read of its word finds where it is applied now. -/
def execSignalFrame (p lane : Fin 8) (f : Frame) (check : LineCheck) (s : State) : Out :=
  if !(Instr.signalFrame p lane f check).wf then .refused .illFormed
  else if fMulti f then .next (s.multicastIn p lane f check)
  else .next (s.unicastIn p lane f fun t => t.handleSignal f p ((t.port p).version == 1) check)

/-- E2E_ACK. -/
def execE2eAck (p lane : Fin 8) (f : Frame) (s : State) : Out :=
  if !(Instr.e2eAck p lane f).wf then .refused .illFormed
  else .next (s.unicastIn p lane f fun t => t.takeE2eAck f)

/-- E2E_NACK. -/
def execE2eNack (p lane : Fin 8) (f : Frame) (s : State) : Out :=
  if !(Instr.e2eNack p lane f).wf then .refused .illFormed
  else .next (s.unicastIn p lane f fun t => t.takeNack f)

/-- MC_WRITE. -/
def execMcWrite (p lane : Fin 8) (f : Frame) (s : State) : Out :=
  if !(Instr.mcWrite p lane f).wf then .refused .illFormed else .next (s.multicastIn p lane f .clean)

/-- MC_OPEN. -/
def execMcOpen (p lane : Fin 8) (f : Frame) (s : State) : Out :=
  if !(Instr.mcOpen p lane f).wf then .refused .illFormed
  else .next (s.treeIn p lane f fun t c =>
    if (t.group? (fDst f % 1024)).any (·.member) && fE2e f ≠ e2eOf f then (t.bump .hnxPortEvtE2eFail p).giveCredit p c
    else t.openMc f (p + 1) c)

/-- MC_ACK. -/
def execMcAck (p lane : Fin 8) (f : Frame) (s : State) : Out :=
  if !(Instr.mcAck p lane f).wf then .refused .illFormed
  else .next (s.treeIn p lane f fun t c =>
    (if fE2e f ≠ e2eOf f then t.bump .hnxPortEvtE2eFail p else t.takeMcAck p f).giveCredit p c)

/-- MC_PRUNE: repaired at the source, passed on upstream elsewhere. -/
def execMcPrune (p lane : Fin 8) (f : Frame) (s : State) : Out :=
  if !(Instr.mcPrune p lane f).wf then .refused .illFormed
  else .next (s.treeIn p lane f fun t c => match t.group? (fTag f) with
    | some { upstream := some up, .. } =>
      if (t.port up).version = 1 then t.giveCredit p c else t.enqueueFrom up f (p + 1) c
    | some { upstream := none, .. } =>
      (if fE2e f ≠ e2eOf f then t.bump .hnxPortEvtE2eFail p else t.takePrune f).giveCredit p c
    | none => t.giveCredit p c)

/-- MC_REPAIR: committed to the member's multicast entry (R283). -/
def execMcRepair (p lane : Fin 8) (f : Frame) (s : State) : Out :=
  if !(Instr.mcRepair p lane f).wf then .refused .illFormed
  else .next (s.unicastIn p lane f fun t => t.handleSeq f p .clean)

/-- RESERVED_FRAME: discarded and counted as a route discard (R262). -/
def execReservedFrame (p lane : Fin 8) (f : Frame) (s : State) : Out :=
  if !(Instr.reservedFrame p lane f).wf then .refused .illFormed
  else .next (s.treeIn p lane f fun t c => t.giveCredit p c)

/-! ## Timers of flows -/

/-- E2E_ACK_TIMER (R275). -/
def execE2eAckTimer (src : BitVec 15) (flow : BitVec 12) (s : State) : Out :=
  match s.dstFlow src.toNat flow.toNat with
  | none => .next s
  | some d => .next (if d.ackDue then s.sendAck d else s)

/-- FLOW_TIMEOUT (R226, R276): of the frame sent and not acknowledged and the request whose answer is not complete, the older
one is lost, or faults its step. -/
def execFlowTimeout (dst : BitVec 15) (flow : BitVec 12) (s : State) : Out :=
  let mc := (s.boundGroup flow.toNat).map (·.id)
  let e? := s.srcFlow dst.toNat flow.toNat mc
  let sent := e?.bind fun e => (e.unacked.filter fun u => !e.backlog.any fun f => fSeq f == u.fseq).head?
  let late := (s.hnx.late.filter fun u => u.1 == dst.toNat && u.2.1 == flow.toNat).map (·.2.2)
  let asked := (late ++ (e?.map (·.waiting)).getD []).head?
  let unanswered (u : Sent) : State :=
    ((s.modSent dst.toNat flow.toNat mc u.fseq fun u => { u with answers := false }).sentFault u fltMemory).quotaFreed u.ctx
  match e?, sent, asked with
  | some e, some u, some v =>
    if seqBefore v.fseq u.fseq then .next (unanswered v)
    else .next (((s.loseSent e u).loseHeld e u).flowFreed e.ctxs)
  | some e, some u, none => .next (((s.loseSent e u).loseHeld e u).flowFreed e.ctxs)
  | _, _, some v => .next (unanswered v)
  | _, _, none => .next s

/-- HELD_FRAME_TIMEOUT (R277). -/
def execHeldFrameTimeout (src : BitVec 15) (flow : BitVec 12) (s : State) : Out :=
  match s.dstFlow src.toNat flow.toNat with
  | none => .next s
  | some d => .next (s.skipGap d).takeParked

/-- HELD_SIGNAL_TIMEOUT (R224, R277): the gap is skipped, and the oldest held signal is delivered with LOST. -/
def execHeldSignalTimeout (src : BitVec 15) (flow : BitVec 12) (s : State) : Out :=
  match s.dstFlow src.toNat flow.toNat with
  | some d => match d.heldSigs with
    | [] => .next s
    | h :: _ =>
      let s := s.skipGap d
      match s.dstFlow src.toNat flow.toNat with
      | none => .next s
      | some d =>
        if d.heldSigs.contains h then
          .next ((s.setDst { d with heldSigs := d.heldSigs.erase h }).applySignal h.1 true .clean).takeParked
        else .next s.takeParked
  | none => match s.hnx.unopened.find? fun f => fType f == 7 && fSrc f == src.toNat && fFlow f == flow.toNat with
    | none => .next s
    | some f => .next ({ s with hnx := { s.hnx with unopened := s.hnx.unopened.erase f } }.applySignal f true .clean).takeParked

/-- MC_WRITE_HOLD_TIMEOUT (R280). -/
def execMcWriteHoldTimeout (src : BitVec 15) (flow : BitVec 12) (s : State) : Out :=
  match s.hnx.unopened.find? fun f => fType f == 10 && fSrc f == src.toNat && fFlow f == flow.toNat with
  | none => .next s
  | some f => .next { s with hnx := { s.hnx with unopened := s.hnx.unopened.erase f } }

/-- MC_STALL (R282). -/
def execMcStall (group : BitVec 10) (port : Fin 8) (s : State) : Out :=
  match s.group? group.toNat, s.hnx.branches.find? fun b => b.group == group.toNat && b.port == port.val with
  | some g, some { queue := f :: _, .. } =>
    if (s.port port).canSend f then .next s else .next (s.pruneBranch g port)
  | _, _ => .next s

end Sys2Proof.Machine
end

