-- ==== Sys2Proof/Machine/Ports.lean ====
section
/-! DEFINITION. Training and retraining of Henxo ports and lanes, the port-map switch and fault injection (R256 to R260,
R264, R270, R285 to R287). -/

namespace Sys2Proof.Machine

/-- A port enters training. -/
def State.trainPort (s : State) (p : Nat) : State :=
  let x := s.port p
  let s := s.setPort p { x with state := .training, lanesUp := 0, version := 0,
                                lanes := [], credits := Port.reset.credits, owed := Port.reset.owed,
                                stalled := Port.reset.stalled }
  if x.state = .active then s.markChg 6 else s

/-- A port that moves to another fibre pair trains on it (R286): what its retry buffers still hold is discarded, and is lost
beyond retry. -/
def State.trainMoved (s : State) (p : Nat) : State := (s.trainPort p).loseRetry (s.port p)

/-- LIGHT_DETECTED: an enabled DARK port whose honeycomb is READY leaves DARK for TRAINING, and so does a port that the
optical switch has moved. -/
def execLightDetected (p : Fin 8) (s : State) : Out :=
  if s.boot.on && (s.port p).moving then .next (s.trainMoved p)
  else if s.boot.on && (s.port p).state == .dark && s.flag .hnxPortCtrlEn p && (s.comb (8 + p / 4)).state == .ready then
    .next (s.trainPort p)
  else .next s

/-! ## The port-map switch (R279, R285, R286) -/

/-- The branches of a profile's groups (R279). -/
def profileBranches (x : Profile) : List Branch :=
  x.groups.flatMap fun g => g.down.map fun p => { group := g.id, port := p, queue := [], pruned := [], lastAck := [] }

/-- A profile is made active: its routes and groups take effect. Multicast frames that waited for branches leave their receive
buffers (R266). -/
def State.useProfile (s : State) (k : Nat) : State :=
  let w := s.hnx.mcWait.filter fun w => w.1 != 0
  forEach w (fun s w => s.giveCredit (w.1 - 1) w.2.1)
    { s with hnx := { s.hnx with profile := k,
                                 branches := ((s.cfg.profiles[k]?).map profileBranches).getD [],
                                 v1Groups := [], mcAcked := [], mcWait := [] } }

/-- The last step of a profile change: routes and groups take effect, source entries with nothing unacknowledged close,
and the source sends MC_OPEN on each bound flow (R280, R286). -/
def State.finishProfile (s : State) : State :=
  let s := s.useProfile (s.fld .hnxPmapCtrlProfile)
  let s := { s with hnx := { s.hnx with busy := false, src := s.hnx.src.filter fun e => !e.unacked.isEmpty } }
  let bound := ((s.activeProfile.map (·.groups)).getD []).flatMap fun g =>
    if g.upstream.isNone then g.flows.map fun f => (g.id, f) else []
  let s := forEach bound (fun s b => match s.srcFlow 0 b.2 (some b.1) with
    | some e => s.openMc (mkFrame 11 0 0 false s.cfg.device b.1 e.flow e.n 0 0 0 []) 0 0
    | none => ((s.openFlow 0 b.2 (some b.1)).map (·.1)).getD s) s
  s.bump .hnxPmapStatusChanges

/-- A profile change ends when no moved port still trains. -/
def State.checkProfile (s : State) : State :=
  if s.hnx.busy && (upTo 8).all (fun p => !(s.port p).moving) then s.finishProfile else s

/-- A port is to move to another fibre pair (R286): it takes no new frames, and frames routed to it wait; its retry buffers
stay until light comes in on the new pair. -/
def State.movePort (s : State) (p : Nat) : State :=
  let st := (s.port p).state
  if st = .disabled || st = .dark then s else s.modPort p fun x => { x with moving := true }

/-- A write of HNX_PMAP_CTRL.PROFILE. -/
def State.writeProfile (s : State) (path : Path) (v : Nat) : State :=
  if !hostAllowed path s.cfg.grantFabric then s.refuse path (Reg.hnxPmapCtrl.addr 0) v
  else match s.cfg.profiles[v % 4]? with
    | none => s
    | some x =>
      if s.hnx.busy then s
      else
        let old := ((s.activeProfile.map (·.fibre)).getD [])
        let s := (s.setFld .hnxPmapCtrlProfile 0 (v % 4))
        let s := { s with hnx := { s.hnx with busy := true } }
        let moved := (upTo 8).filter fun p => x.fibre.getD p p != old.getD p p
        (forEach moved (fun s p => s.movePort p) s).checkProfile

/-- PROFILE_CHANGE. -/
def execProfileChange (path : Path) (v : BitVec 2) (s : State) : Out :=
  if s.served path then .next (s.writeProfile path v.toNat) else .next s

/-! ## Training (R258, R259) -/

/-- The port by which frames for a device leave (R268, R269). -/
def State.portTo (s : State) (dst : Nat) : Option Nat :=
  (s.routeTo dst).bind fun r => ((r.find? fun g => g.hops != 0).map (·.port))

/-- Flows over a version 1 link start again at 0 as it has trained (R259): the unicast flows that leave or come in by the
port. What a source entry has in flight is lost. -/
def State.restartV1 (s : State) (p : Nat) : State :=
  let s := forEach (s.hnx.src.filter fun e => e.mc.isNone && s.portTo e.dst == some p) (fun s e =>
    let s := forEach e.unacked (fun s u => (s.loseSent e u).loseHeld e u) s
    { s with hnx := { s.hnx with
        src := s.hnx.src.filter fun x => !(x.dst == e.dst && x.flow == e.flow && x.mc.isNone),
        late := s.hnx.late ++ e.waiting.map fun u => (e.dst, e.flow, u) } }) s
  { s with hnx := { s.hnx with dst := s.hnx.dst.filter fun d => !(d.group.isNone && d.via == p) } }

/-- The credit counts this device advertises, in each set (R265). -/
def ownCredits : List Nat := [128, 512, 4096, 2048]

/-- LINK HELLO goes out on every lane that comes up (R258). -/
def State.sendHello (s : State) (p : Nat) (lanes : BitVec 8) : State :=
  let part := if s.cfg.partition.contains s.cfg.device then s.cfg.partition else s.cfg.device :: s.cfg.partition
  let d := (upTo 32).map (Config.hello s.cfg.device p (s.fld .hnxPortCtrlMaxVer p) part ownCredits)
  forEach ((upTo 8).filter fun k => bitOf lanes.toNat k)
    (fun s k => s.putOnFibre p k (mkFrame 1 0 0 false s.cfg.device 0 0 0 0 0 0 d) false) s

/-- PORT_TRAINING_DONE: LINK HELLO has been exchanged; the version is the lower of the two ends' highest, each lane's
sequence starts at 0, credits are those the peer advertises, the same in each set (R265). `peerVer` to `credits` are the
peer's HELLO. -/
def execPortTrainingDone (p : Fin 8) (lanes : BitVec 8) (peerVer : Nat) (peerDev : BitVec 15) (peerPort : Fin 8)
    (credits : List Nat) (s : State) : Out :=
  let x := s.port p
  let ver := min peerVer (s.fld .hnxPortCtrlMaxVer p)
  let up := if ver = 1 then lanes &&& 0x0F else lanes
  if x.state ≠ .training || ver = 0 || up = 0 then .next s
  else
    let set : List Nat := (upTo 4).map fun i => credits.getD i 0
    let s := s.sendHello p lanes
    let s := s.setPort p { s.port p with
      state := .active, lanesUp := up, version := ver, peerDev := peerDev.toNat, peerPort := peerPort, lanes := [],
      credits := set ++ (if ver = 1 then [0, 0, 0, 0] else set), owed := Port.reset.owed,
      stalled := Port.reset.stalled, moving := false }
    let s := if ver = 1 then s.restartV1 p else s
    .next ((((s.markChg 6).checkProfile).pumpPort p).pumpMc)

/-- PORT_TRAINING_TIMEOUT. -/
def execPortTrainingTimeout (p : Fin 8) (s : State) : Out :=
  if (s.port p).state ≠ .training then .next s else .next ((s.portDown p .failed).checkProfile)

/-- PORT_TRAINING_RETRY. -/
def execPortTrainingRetry (p : Fin 8) (s : State) : Out :=
  if s.boot.on && (s.port p).state == .failed then .next (s.trainPort p) else .next s

/-- CODEWORD_RECEIVED (R255, R256): corrected and discarded codewords are counted; 16 discarded in a row retrain the lane.
Frames that overlap a discarded codeword are discarded: the lane takes frames again from the FIRST offset of a codeword it
can decode. -/
def execCodewordReceived (p lane : Fin 8) (first : BitVec 7) (check : LineCheck) (s : State) : Out :=
  let x := s.port p
  if x.state ≠ .active || !(x.upLanes.contains lane.val) then .next s
  else
    let l := x.lane lane
    match check with
    | .clean | .retried => .next (s.setPort p (x.setLane lane { l with badWords := 0, deaf := l.deaf && decide (79 < first.toNat) }))
    | .corrected =>
      .next ((s.setPort p (x.setLane lane { l with badWords := 0, deaf := l.deaf && decide (79 < first.toNat) })).bump
        .hnxLaneCntFecCorr p)
    | .uncorrectable =>
      let s := (s.setPort p (x.setLane lane { l with badWords := l.badWords + 1, deaf := true })).bump .hnxLaneCntFecUncorr p
      .next (if 16 ≤ l.badWords + 1 then s.retrainLane p lane else s)

/-- LANE_RETRAIN_DONE: the lane is up again; a second failure in a row leaves it down, and the port FAILED without
lanes. -/
def execLaneRetrainDone (p lane : Fin 8) (ok : Bool) (s : State) : Out :=
  let x := s.port p
  let l := x.lane lane
  if x.state ≠ .active || !l.retraining then .next s
  else if ok then .next ((s.setPort p (x.setLane lane Lane.reset)).pumpPort p).pumpMc
  else if l.retrainFails = 0 then
    .next ((s.setPort p (x.setLane lane { l with retrainFails := 1 })).bump .hnxLaneCntRetrains p)
  else
    let up := x.lanesUp &&& ~~~(BitVec.ofNat 8 (2 ^ lane.val))
    let x := { x.setLane lane { Lane.reset with heldDown := true } with lanesUp := up }
    if up = 0 then .next ((s.setPort p x).portDown p .failed) else .next (s.setPort p x)

/-- RETRY_TIMEOUT. -/
def execRetryTimeout (p lane : Fin 8) (s : State) : Out :=
  let x := s.port p
  if x.state ≠ .active || !(x.upLanes.contains lane.val) then .next s else .next (s.replay p lane)

/-- HNX_STALL: a class holding no credit is logged with the port and the class, once until a credit comes. -/
def execHnxStall (p : Fin 8) (cls : Fin 4) (set : Fin 2) (s : State) : Out :=
  let x := s.port p
  let i := creditIdx cls set
  if x.state ≠ .active || x.credits.getD i 0 ≠ 0 || x.stalled.getD i false || (x.version = 1 && set = 1) then .next s
  else
    let s := s.setPort p { x with stalled := x.stalled.set i true }
    .next ((s.event .hnxStall .port p noCtx [cls]).bump .hnxPortEvtStalls p)

/-- A port is retrained with every lane held down; frames not yet acknowledged go again. -/
def State.retrainPort (s : State) (p : Nat) : State :=
  let x := s.port p
  if !s.boot.on then s
  else if x.state = .active || x.state = .failed then
    (s.setPort p ((upTo 8).foldl (fun x k => x.requeue k) x)).trainPort p
  else s

/-- PORT_RETRAIN. -/
def execPortRetrain (path : Path) (p : Fin 8) (s : State) : Out :=
  if s.served path then .next (s.retrainPort p) else .next s

/-- HNX_PORT_CTRL.EN: a disabled port takes no frames; an enabled one waits for light. -/
def State.enablePort (s : State) (p : Nat) (en : Bool) : State :=
  let s := s.setFld .hnxPortCtrlEn p (boolNat en)
  let st := (s.port p).state
  if en then (if st = .disabled then s.modPort p fun x => { x with state := .dark } else s)
  else if st = .disabled then s else s.portDown p .disabled

/-! ## Fault injection (R287) -/

/-- A write of FLT_HNX_CTRL with a MODE, under a debug token that permits injection (R398); a reserved MODE is not
written. -/
def State.writeFlt (s : State) (path : Path) (v mode : Nat) : State :=
  if !s.served path then s
  else if !s.tokenPerm 1 then s.refuse path (Reg.fltHnxCtrl.addr 0) v
  else
    let s := (s.setFld .fltHnxCtrlCount 0 (bitsOf v 63 48)).setFld .fltHnxCtrlInterval 0 (bitsOf v 47 40)
    let s := (s.setFld .fltHnxCtrlDepth 0 (bitsOf v 39 32)).setFld .fltHnxCtrlClasses 0 (bitsOf v 27 24)
    let s := (s.setFld .fltHnxCtrlLanes 0 (bitsOf v 23 16)).setFld .fltHnxCtrlPort 0 (bitsOf v 10 8)
    if 5 < mode then s else s.setFld .fltHnxCtrlMode 0 mode

/-- HNX_INJ_DROP_WIRE. -/
def execHnxInjDropWire (path : Path) (v : Word) (s : State) : Out := .next (s.writeFlt path v.toNat 1)
/-- HNX_INJ_DROP_EARLY. -/
def execHnxInjDropEarly (path : Path) (v : Word) (s : State) : Out := .next (s.writeFlt path v.toNat 2)
/-- HNX_INJ_BIT_FLIP. -/
def execHnxInjBitFlip (path : Path) (v : Word) (s : State) : Out := .next (s.writeFlt path v.toNat 3)
/-- HNX_INJ_E2E_FLIP. -/
def execHnxInjE2eFlip (path : Path) (v : Word) (s : State) : Out := .next (s.writeFlt path v.toNat 4)
/-- HNX_INJ_REORDER. -/
def execHnxInjReorder (path : Path) (v : Word) (s : State) : Out := .next (s.writeFlt path v.toNat 5)

end Sys2Proof.Machine
end

