-- ==== Sys2Proof/Machine/Cxl.lean ====
section
/-! DEFINITION. The CXL port (R235 to R253) and patrol scrub (R193): host-managed memory, back-invalidation, the
diagnostic window, the mailbox, the link and its faults. -/

namespace Sys2Proof.Machine

/-- The link carries requests. -/
def State.linkUp (s : State) : Bool := s.boot.on && (s.cxl.state == .l0 || s.cxl.state == .recovery)

/-- Back-invalidate is in use: HDM-DB (R237). -/
def State.hdmDb (s : State) : Bool := decide (1 ≤ s.cxl.level) && s.cxl.bi

/-- Answer a command. -/
def State.answer (s : State) (r : Reply) : State := { s with reply := r }

/-! ## AtomicOps of a peer (R235) -/

/-- The value an AtomicOp of `n` bytes leaves. -/
def atomicNew (n old : Nat) : AtomicKind → Nat
  | .fetchAdd v => (old + v.toNat) % 2 ^ (8 * n)
  | .swap v => v.toNat % 2 ^ (8 * n)
  | .cas cmp new => if old = cmp.toNat % 2 ^ (8 * n) then new.toNat % 2 ^ (8 * n) else old

/-- An AtomicOp on a word the host does not hold: the old value is answered. A poisoned word is not changed. -/
def State.atomicOp (s : State) (a : Nat) (wide : Bool) (op : AtomicKind) : State :=
  let n := if wide then 8 else 4
  if s.readsBad a n then s.answer (.data (s.bytes a n) true)
  else
    let old := s.readNat a n
    (s.applyPart a (leBytes n (atomicNew n old op))).answer (.data (leBytes n old) false)

/-! ## Device writes held for the host (R238) -/

/-- A held device write to a line that the host no longer holds; a compare-and-swap of a step that has stopped is not
made. -/
def State.applyHeld (s : State) (h : HeldWrite) : State :=
  match h.op with
  | .bytes d => s.applyPart h.addr d
  | .add n bay => (s.signalAdd false h.addr n bay).getD s
  | .sub c bay ctx sid => (s.consumeWord false h.addr c bay ctx sid).getD s
  | .lost =>
    let w := s.readNat h.addr 8
    if s.readsBad h.addr 8 || bitOf w 61 then s else s.applyPart h.addr (leBytes 8 (w + 2 ^ 61))
  | .cas cmp new thread uid flow => s.byThread thread <|
    let c := s.ctx (s.thread thread).ctx
    match (s.thread thread).step? uid with
    | none => s
    | some a => match s.casWord false h.addr cmp new with
      | .error e => State.settleRun thread uid (.error (e, s))
      | .ok (s, old) =>
        let s := State.settleRun thread uid (s.atomDone c thread uid flow old)
        State.settleRun thread uid (s.atomRun c thread uid flow (3 * a.atoms.length + 1))
  | .casFrame f => s.casFor f h.addr
  | .peer wide op => s.atomicOp h.addr wide op

/-- The held writes of a line, in order. -/
def State.releaseHeld (s : State) (line : Nat) : State :=
  let go := s.cxl.held.filter fun h => h.line == line
  let s : State := { s with cxl := { s.cxl with held := s.cxl.held.filter fun h => h.line != line } }
  forEach go (fun s h => s.applyHeld h) s

/-! ## The link (R236, R248, R250, R251) -/

/-- Words of host memory that threads wait on through watch slots. -/
def State.watchedHostWords (s : State) : List Nat :=
  (s.threads.filterMap fun e => match e.2.wait with
    | some w => match waitWord s e.2 w with
      | some (true, a) => some a
      | _ => none
    | none => none).eraseDups

/-- The code of a supported rate in GT/s (R236). -/
def rateCode (gts : Nat) : Option Nat := ([8, 16, 32, 64, 128].zipIdx.find? fun e => e.1 == gts).map (·.2)

/-- CXL_LINK_TRAINED at a rate in GT/s: below ×4 or 8 GT/s the link stays in training, logged; otherwise it is in L0, and
every watched host line is read again where the link was lost. -/
def execCxlLinkTrained (rate width : Nat) (level : Fin 3) (bi : Bool) (s : State) : Out :=
  if !s.boot.on || s.cxl.state = .l0 then .next s
  else if width < 4 || rate < 8 then
    .next ({ s with cxl := { s.cxl with state := .training } }.event .cxlLinkDegraded .device 0 noCtx [])
  else match rateCode rate with
  | none => .next s
  | some r =>
  if !([4, 8, 16].contains width) || (level = 0 && decide (32 < rate)) then .next s
  else
    let fresh := s.cxl.state ≠ .recovery
    let s : State := { s with cxl := { s.cxl with
      state := .l0, rate := r, width := width, level := level, bi := bi && decide (1 ≤ level.val) } }
    .next (if fresh then forEach s.watchedHostWords (fun s a => s.evalWaiters false allBays true a) s else s)

/-- Steps with CXL.cache transfers in flight fault with MEMORY. -/
def State.failHostStreams (s : State) : State :=
  forEach (upTo 4) (fun s b =>
    forEach ((s.bay b).streams.filter fun x => x.flight.any (·.host)) (fun s x => s.streamFault x) s) s

/-- LINK_LOSS: a hot reset or a loss of the link resets the CXL island and configuration space, the HDM decoder, the BARs and
Viral with them; host lines are dropped as
they were last written back, so that writes held for them complete. -/
def execLinkLoss (s : State) : Out :=
  if !s.boot.on then .next s
  else
    let lines := (s.cxl.held.map (·.line)).eraseDups
    let s := s.bump .cxlLinkCntDown
    let s : State := { s with cxl := { s.cxl with
      state := .down, rate := 0, width := 0, level := 0, bi := false, snoop := [], waitInv := [], grants := [],
      viral := false, cfgSpace := [], regs := [], msix := [], creditHeld := false, vecMask := Cxl.reset.vecMask,
      funcMask := false, pba := Cxl.reset.pba, rasUnc := false, rasHeader := [], aerCorr := false } }
    let s := forEach lines (fun s l => s.releaseHeld l) s
    .next (s.failHostStreams.event .cxlLinkDown .device 0 noCtx [])

/-- CXL_LINK_RECOVERY: AER correctable, counted; CXL_LINK_TRAINED ends it. -/
def execCxlLinkRecovery (s : State) : Out :=
  if !s.boot.on || s.cxl.state ≠ .l0 then .next s
  else .next ({ s with cxl := { s.cxl with state := .recovery, aerCorr := true } }.bump .cxlLinkCntRetrain)

/-- CXL_FLIT_ERROR: corrected by FEC or by replay; a replay under MODE 1 or 2 uses up an injection. -/
def execCxlFlitError (replay : Bool) (s : State) : Out :=
  if !s.linkUp then .next s
  else
    let s : State := { s with cxl := { s.cxl with aerCorr := true } }
    if !replay then .next s
    else
      let s := s.bump .cxlLinkCntReplay
      .next (if s.injOn 1 || s.injOn 2 then s.injMade else s)

/-! ## Configuration space (R242, R243, R249) -/

/-- A word with some of its bits, given by a mask, as given. -/
def fixBits (w : BitVec 32) (mask v : Nat) : BitVec 32 := (w &&& ~~~(BitVec.ofNat 32 mask)) ||| BitVec.ofNat 32 v

/-- The words of the capability structures in which R235, R242 and R245 fix bits, each with the mask of those bits and their
values (layouts PRESUMED, log entry 57). PCI Express capability: no FLR, no ASPM state, AtomicOps of 32 and 64 bits completed.
PCIe DVSEC for CXL Devices: Cache_Capable, Mem_Capable, Mem_HwInit_Mode and HDM_Count 1, no CXL Reset; Range 1 size,
Memory_Info_Valid, Memory_Active and a timeout of 1 s. GPF DVSEC: Phase 2 lasts 1 ms. -/
def State.fixedWords (s : State) : List (Nat × Nat × Nat) :=
  let cap := Config.capAt 0
  let dev := Config.capAt 1
  let m := boolNat s.cxl.memCapable
  let size := s.cfg.hostMemGiB * gib
  [(cap + 1, 0x1000_0000, 0), (cap + 3, 0xC00, 0), (cap + 9, 0x380, 0x180),
   (dev + 2, 0x00BF_FFFF, 0x1B_0000 + m * 0x4_0000), (dev + 6, 0xFFFF_FFFF, size / 2 ^ 32),
   (dev + 7, 0xF000_E003, size % 2 ^ 32 / 2 ^ 28 * 2 ^ 28 + 1 + 2 * boolNat s.cxl.memActive),
   (Config.capAt 2 + 2, 0x0F0F_FFFF, 0x0301_0005)]

/-- A word of configuration space: the PCI header as R235 and R243 give it, the words of `fixedWords`, and otherwise what
Config leaves. -/
def State.cfgWord (s : State) (k : Nat) : BitVec 32 :=
  let w := tget 0 s.cxl.cfgSpace k
  let x := Config.cfgWord k w s.cfg.hostMemGiB s.cxl.memCapable s.cxl.memActive
  match k with
  | 0 => BitVec.ofNat 32 (Config.vendorId.toNat + Config.deviceId.toNat * 2 ^ 16)
  | 2 => 0x120000B0
  | 3 => fixBits x 0xFF_0000 0
  | 4 => (w &&& 0xFC000000) ||| 0x4
  | 5 => w
  | 6 => 0xC
  | 7 => w &&& 0xFFFFFFF0
  | 8 | 9 => 0
  | _ => match s.fixedWords.find? fun e => e.1 == k with
    | some e => fixBits x e.2.1 e.2.2
    | none => x

/-- CONFIG_REQUEST. -/
def execConfigRequest (off : BitVec 12) (wr : Option (BitVec 32)) (s : State) : Out :=
  if !s.linkUp then .next s
  else if s.cxl.crs then .next (s.answer .crs)
  else match wr with
    | none => .next (s.answer (.value ((s.cfgWord (off.toNat / 4)).zeroExtend 64)))
    | some v => .next ({ s with cxl := { s.cxl with cfgSpace := tset 0 s.cxl.cfgSpace (off.toNat / 4) v } }.answer .done)

/-! ## Host-managed memory (R238 to R240, R249) -/

/-- A General Media Event record with the device-physical address (R240). -/
def State.mediaRecord (s : State) (a : Nat) : State := s.cxlRecord 2 (Config.specData 2 a)

/-- What the error protection finds in a line the host reads or merges into (R192). -/
def State.checkHost (s : State) (line : Nat) (check : LineCheck) : State :=
  match check with
  | .clean => s
  | .retried => s.beatRetried (line * 64 / (96 * gib))
  | .corrected => s.corrected (line * 64 / (96 * gib))
  | .uncorrectable => if s.poisoned line then s else s.uncorrectable line .host

/-- The line at `a` goes to the host, with poison where the line is poisoned or MODE 3 injects it. -/
def State.hostRead (s : State) (a : Nat) (check : LineCheck) : State :=
  let s := s.checkHost (lineOf a) check
  let d := s.bytes a 64
  let inj := s.injOn 3
  let s := if inj then s.injMade else s
  if s.poisoned (lineOf a) then ((s.bump .cxlHdmCntPoisonRd).mediaRecord a).answer (.data d true)
  else if inj then (s.bump .cxlHdmCntPoisonRd).answer (.data d true)
  else s.answer (.data d false)

/-- Peers reach the range by Unordered I/O, at protocol levels 3.x and 4.0 only (R235, R237). -/
def State.admits (s : State) (peer : Bool) : Bool := s.linkUp && !(peer && s.cxl.level == 0)

/-- CXL_MEM_READ, by the host or by a peer. -/
def execCxlMemRead (peer : Bool) (h : BitVec 48) (check : LineCheck) (s : State) : Out :=
  let a := dpaOfHost (h.toNat / 64 * 64)
  if s.hostMemSize ≤ h.toNat then .fault .outsideHostManaged
  else if !s.admits peer then .next s
  else if !s.cxl.memActive then .next (s.poisonAnswer (!peer) 64)
  else if peer then
    let s := s.checkHost (lineOf a) check
    .next (s.answer (.data (s.bytes a 64) (s.poisoned (lineOf a))))
  else .next (s.hostRead a check)

/-- CXL_MEM_WRITE: a full line, or part of one, which the device merges. Under Viral the host's are discarded (R251); a peer's
write to a line the host holds waits for its back-invalidate (R238). -/
def execCxlMemWrite (peer : Bool) (h : BitVec 48) (data : List Byte) (check : LineCheck) (s : State) : Out :=
  if s.hostMemSize ≤ h.toNat then .fault .outsideHostManaged
  else if !s.admits peer then .next s
  else if !s.cxl.memActive then .next s.inactive
  else if s.cxl.viral && !peer then .next s
  else
    let a := dpaOfHost h.toNat
    let d := data.take (64 - h.toNat % 64)
    let s := if d.length < 64 then s.checkHost (lineOf a) check else s
    .next (if peer then s.writePart a d else s.applyPart a d)

/-- CXL_ATOMIC_OP. -/
def execCxlAtomicOp (h : BitVec 48) (wide : Bool) (op : AtomicKind) (s : State) : Out :=
  let n := if wide then 8 else 4
  if s.hostMemSize ≤ h.toNat then .fault .outsideHostManaged
  else if !s.admits true || h.toNat % n ≠ 0 then .next s
  else if !s.cxl.memActive then .next (s.poisonAnswer false n)
  else
    let a := dpaOfHost h.toNat
    .next (if s.hostHolds (lineOf a) then s.holdOp a (.peer wide op) else s.atomicOp a wide op)

/-- Lines the snoop filter holds. -/
def snoopSize : Nat := 1048576

/-- The host becomes the holder of a line, the youngest entry. -/
def State.grantLine (s : State) (line : Nat) (exclusive : Bool) (check : LineCheck) : State :=
  let sn := if s.hostHolds line then
      s.cxl.snoop.map fun x => if x.line = line && exclusive then { x with exclusive := true, recalled := false } else x
    else s.cxl.snoop ++ [{ line := line, exclusive := exclusive, recalled := false }]
  let s : State := { s with cxl := { s.cxl with snoop := sn } }
  let s := if snoopSize ≤ sn.length then s.setFld .cxlHdmStatusSfFull 0 1 else s
  s.hostRead (line * 64) check

/-- HOST_OWNERSHIP_REQUEST: under HDM-DB the filter records the host as holder; a new line while the filter is full first
takes the oldest entry back. -/
def execHostOwnershipRequest (h : BitVec 48) (exclusive : Bool) (check : LineCheck) (s : State) : Out :=
  if s.hostMemSize ≤ h.toNat then .fault .outsideHostManaged
  else if !s.linkUp || !s.hdmDb then .next s
  else if !s.cxl.memActive then .next (s.poisonAnswer true 64)
  else
    let line := lineOf (dpaOfHost h.toNat)
    if s.hostHolds line || s.cxl.snoop.length < snoopSize then .next (s.grantLine line exclusive check)
    else
      let s := match s.cxl.snoop.find? fun x => !s.cxl.waitInv.contains x.line with
        | some x => s.sendInv x.line
        | none => s
      .next { s with cxl := { s.cxl with grants := s.cxl.grants ++ [(line, exclusive)] } }

/-- A line that holds a watched word (R239): a portal entry's line, with its CMD word, or a word with a watch slot. -/
def State.watchedLine (s : State) (line : Nat) : Bool :=
  (s.cfg.portals.any fun r => decide (r.base ≤ line * 64) && decide (line * 64 < r.base + 64 * r.entries)) ||
  (upTo 4).any fun b => (s.bay b).slots.any fun e => e.2.valid && !e.2.host && lineOf e.2.addr == line

/-- RECALL_TIMER. -/
def execRecallTimer (h : BitVec 48) (s : State) : Out :=
  if s.hostMemSize ≤ h.toNat then .fault .outsideHostManaged
  else
    let line := lineOf (dpaOfHost h.toNat)
    if s.linkUp && s.watchedLine line && s.cxl.snoop.any fun x => x.line == line && x.exclusive && !x.recalled then
      let s : State := { s with cxl := { s.cxl with
        snoop := s.cxl.snoop.map fun x => if x.line = line then { x with recalled := true } else x } }
      .next ((s.sendInv line).bump .cxlHdmCntRecalls)
    else .next s

/-- Ownership requests that waited for room in the filter are granted. -/
def State.grantWaiting (s : State) : List (Nat × Bool) → State
  | [] => s
  | g :: r =>
    if s.hostHolds g.1 || s.cxl.snoop.length < snoopSize then
      ({ s with cxl := { s.cxl with grants := s.cxl.grants.erase g } }.grantLine g.1 g.2 .clean).grantWaiting r
    else s

/-- BISNP_RESPONSE: the host's data is written back, then the held device writes are merged into it. -/
def execBisnpResponse (h : BitVec 48) (modified : Option (List Byte)) (s : State) : Out :=
  if s.hostMemSize ≤ h.toNat then .fault .outsideHostManaged
  else
    let line := lineOf (dpaOfHost h.toNat)
    if !s.cxl.waitInv.contains line then .next s
    else
      let s : State := { s with cxl := { s.cxl with
        snoop := s.cxl.snoop.filter fun x => x.line != line, waitInv := s.cxl.waitInv.filter (· != line) } }
      let s := match modified with
        | some d => s.applyPart (line * 64) (d.take 64)
        | none => s
      let s := s.releaseHeld line
      .next (s.grantWaiting s.cxl.grants)

/-! ## The diagnostic window (R244) -/

/-- Device-physical address of an offset of BAR2. -/
def State.diagAddr (s : State) (x : Nat) : Nat := s.fld .cxlDiagCtrlBase * (2 * mib) + x

/-- The window is open. -/
def State.diagOpen (s : State) : Bool := s.flag .cxlDiagCtrlEn && s.cfg.grantDiag && s.boot.halt == 0

/-- An address BAR2 does not reach. -/
def diagNone (a : Nat) : Bool := reservedCellar a || targetOf a == .none

/-- BAR2_READ of 8 bytes. -/
def execBar2Read (x : BitVec 36) (s : State) : Out :=
  let a := s.diagAddr x.toNat / 8 * 8
  if !s.linkUp then .next s
  else if !s.diagOpen || diagNone a then .next (s.answer (.data (List.replicate 8 0xFF) false))
  else .next (s.answer (.data (s.bytes a 8) (s.readsBad a 8)))

/-- BAR2_WRITE of 8 bytes. -/
def execBar2Write (x : BitVec 36) (v : Word) (s : State) : Out :=
  let a := s.diagAddr x.toNat / 8 * 8
  if !s.linkUp || !s.diagOpen then .next s
  else if diagNone a then .next (s.event .cxlDiagReject .device 0 noCtx [])
  else if !s.tokenPerm 0 then .next s
  else .next (s.devWrite a (leBytes 8 v.toNat))

/-! ## The mailbox and the DOE mailboxes (R235, R241, R251 to R253) -/

/-- A mailbox command completes: its answer, and vector 0 (R252). -/
def State.mailbox (s : State) (r : Reply) : State := if s.boot.on then (s.answer r).signalVector 0 else s

/-- Number of an event log. -/
def evLogNum : EvLog → Nat
  | .informational => 0
  | .warning => 1
  | .failure => 2
  | .fatal => 3

/-- IDENTIFY. -/
def execIdentify (s : State) : Out := .next (s.mailbox (.data (Config.specData 3 0) false))
/-- GET_LOG. -/
def execGetLog (id : Nat) (s : State) : Out := .next (s.mailbox (.data (Config.specData 4 id) false))
/-- GET_EVENT_RECORDS. -/
def execGetEventRecords (log : EvLog) (s : State) : Out :=
  .next (s.mailbox (.data (s.cxl.logs.getD (evLogNum log) []).flatten false))
/-- CLEAR_EVENT_RECORDS: the oldest `count` records and the overflow indication. -/
def execClearEventRecords (log : EvLog) (count : Nat) (s : State) : Out :=
  let k := evLogNum log
  if !s.boot.on then .next s
  else .next ({ s with cxl := { s.cxl with logs := s.cxl.logs.set k ((s.cxl.logs.getD k []).drop count),
                                           overflow := s.cxl.overflow.set k false } }.mailbox .done)
/-- GET_EVENT_INTERRUPT_POLICY. -/
def execGetEventInterruptPolicy (s : State) : Out := .next (s.mailbox (.data s.cxl.policy false))
/-- SET_EVENT_INTERRUPT_POLICY. -/
def execSetEventInterruptPolicy (info warn fail fatal : BitVec 8) (s : State) : Out :=
  if !s.boot.on then .next s
  else .next ({ s with cxl := { s.cxl with policy := [info, warn, fail, fatal] } }.mailbox .done)
/-- GET_TIMESTAMP: the value set and the time since, or 0 where none was set. -/
def execGetTimestamp (s : State) : Out :=
  .next (s.mailbox (.value (if s.cxl.timestamp = 0 then 0
    else s.cxl.timestamp + BitVec.ofNat 64 (s.time - s.cxl.timestampAt))))
/-- SET_TIMESTAMP. -/
def execSetTimestamp (v : Word) (s : State) : Out :=
  if !s.boot.on then .next s
  else .next ({ s with cxl := { s.cxl with timestamp := v, timestampAt := s.time } }.mailbox .done)
/-- The DSMAS entry of the CDAT: the one range (R241; CDAT layouts PRESUMED, log entry 57). -/
def cdatRange (size : Nat) : List Byte := [0, 0] ++ leBytes 2 24 ++ [0, 0, 0, 0] ++ leBytes 8 0 ++ leBytes 8 size

/-- A DSLBIS entry of the CDAT: a latency in units of 1,000 ps or a bandwidth in units of 1,000 MB/s. -/
def cdatFigure (kind : Byte) (v : Nat) : List Byte :=
  [1, 0] ++ leBytes 2 24 ++ [0, 0, kind, 0] ++ leBytes 8 1000 ++ leBytes 2 v ++ leBytes 6 0

/-- The entries of the CDAT: the range, its read and write latency of 100 ns, its bandwidth of 250 GB/s each way (R241). -/
def cdatEntries (size : Nat) : List (List Byte) :=
  [cdatRange size, cdatFigure 1 100, cdatFigure 2 100, cdatFigure 4 250, cdatFigure 5 250]

/-- The header of the CDAT, whose checksum makes the bytes of the table add up to 0. -/
def cdatHeader (size : Nat) : List Byte :=
  let body := (cdatEntries size).flatten
  let head (sum : Nat) : List Byte := leBytes 4 (16 + body.length) ++ [2, BitVec.ofNat 8 sum] ++ leBytes 10 0
  head ((256 - ((head 0 ++ body).foldl (fun n b => n + b.toNat) 0) % 256) % 256)

/-- TABLE_ACCESS: an entry of the CDAT, the header first, with the handle of the next. -/
def execTableAccess (handle : Nat) (s : State) : Out :=
  let table := cdatHeader s.hostMemSize :: cdatEntries s.hostMemSize
  if !s.linkUp then .next s
  else .next (s.answer (.data (match table[handle]? with
    | some e => [0, 0] ++ leBytes 2 (if handle + 1 < table.length then handle + 1 else 0xFFFF) ++ e
    | none => Config.specData 6 handle) false))

/-! ## Fault injection (R253) -/

/-- A write of CXL_INJ_CTRL under a token that permits injection; a reserved MODE is not written. MODE 4 withholds
credits at once. -/
def State.writeInj (s : State) (path : Path) (mode count : Nat) (delay : Option Nat) : State :=
  let v := mode + count * 2 ^ 16 + delay.getD 0 * 2 ^ 32
  if !s.boot.on || (!isHost path && s.boot.mgmtDown) then s
  else if !s.tokenPerm 1 then s.refuse path (Reg.cxlInjCtrl.addr 0) v
  else
    let s := s.setFld .cxlInjCtrlCount 0 count
    let s := match delay with
      | some d => s.setFld .cxlInjCtrlDelayUs 0 d
      | none => s
    let s := if 5 < mode then s else s.setFld .cxlInjCtrlMode 0 mode
    if s.injOn 4 then { s.injMade with cxl := { s.cxl with creditHeld := true } } else s

/-- COMPLIANCE_REQUEST: an injection request is as a write of CXL_INJ_CTRL that asks for what Config.injection says, under the
same token rule (R253, R401); any other request is answered. -/
def execComplianceRequest (inject : Bool) (code : Nat) (s : State) : Out :=
  if !s.linkUp then .next s
  else if inject && !s.tokenPerm 1 then .next ((s.refuse .bar0 (Reg.cxlInjCtrl.addr 0) code).answer (.error 1))
  else
    let s := match inject, Config.injection code with
      | true, some (mode, count) => s.writeInj .bar0 mode count.toNat none
      | _, _ => s
    .next (s.answer (.data (Config.specData 5 code) false))

/-- INJ_TX_CRC. -/
def execInjTxCrc (p : Path) (count : BitVec 16) (s : State) : Out := .next (s.writeInj p 1 count.toNat none)
/-- INJ_RX_CRC. -/
def execInjRxCrc (p : Path) (count : BitVec 16) (s : State) : Out := .next (s.writeInj p 2 count.toNat none)
/-- INJ_MEM_POISON. -/
def execInjMemPoison (p : Path) (count : BitVec 16) (s : State) : Out := .next (s.writeInj p 3 count.toNat none)
/-- INJ_CREDIT_HOLD. -/
def execInjCreditHold (p : Path) (count delayUs : BitVec 16) (s : State) : Out :=
  .next (s.writeInj p 4 count.toNat (some delayUs.toNat))
/-- INJ_CREDIT_HOLD_END. -/
def execInjCreditHoldEnd (s : State) : Out := .next { s with cxl := { s.cxl with creditHeld := false } }
/-- INJ_CACHE_FAIL. -/
def execInjCacheFail (p : Path) (count : BitVec 16) (s : State) : Out := .next (s.writeInj p 5 count.toNat none)

/-! ## Patrol scrub (R192, R193) -/

/-- Lines of a stack. -/
def stackLines : Nat := 96 * gib / 64

/-- SCRUB_READ: line `line` of stack `b`, in ascending order (log entry 30); a pass ends with the last line. -/
def execScrubRead (b : Fin 4) (line : Nat) (check : LineCheck) (forced : Bool) (s : State) : Out :=
  if !s.boot.on || stackLines ≤ line then .next s
  else
    let g := b.val * stackLines + line
    let s := match check with
      | .clean => s
      | .retried => s.beatRetried b
      | .corrected => s.corrected b
      | .uncorrectable => s.uncorrectable g .scrub
    let s := s.setFld .celScrubStatusForced b (boolNat forced)
    let next := line + 1
    .next (if next = stackLines then (s.bump .celScrubStatusPasses b).setFld .celScrubStatusProgress b 0
      else s.setFld .celScrubStatusProgress b (next * 65536 / stackLines))

end Sys2Proof.Machine
end

