-- ==== Sys2Proof/Machine/Journal.lean ====
section
/-! DEFINITION. The journal in flash: its write window, batches, compaction and replay (R245, R354 to R361). -/

namespace Sys2Proof.Machine

/-! ## State records (R355, R357) -/

/-- What a state record is about: the lattice of a fence or its clearing, the honeycomb of a bias, else its type. -/
def JRec.about (r : JRec) : Nat × Nat :=
  match r.kind with
  | .fence | .fenceClear => (1, r.payload.headD 0)
  | .laserBias => (2, r.payload.headD 0)
  | k => (3 + k.ctorIdx, 0)

/-- A record that carries state: neither an EVENT nor a snapshot's frame. -/
def JRec.isState (r : JRec) : Bool := r.kind != .event && r.kind != .snapBegin && r.kind != .snapEnd

/-- The state records in force: of each type and unit the one with the highest SEQ (R357). -/
def inForce (l : List JRec) : List JRec :=
  l.filter fun r => r.isState && !(l.any fun q => q.isState && q.about == r.about && decide (r.seq < q.seq))

/-- The record in force of a type, with its unit where the type has one. -/
def findForce (l : List JRec) (p : JRec → Bool) : Option JRec := (inForce l).find? p

/-- Every record appended, in order: committed, batched, and held. A record that changes state takes effect when it is
appended (R356). -/
def Journal.appended (j : Journal) : List JRec := j.recs ++ j.unwritten ++ j.hold

/-! ## Batches and the hold buffer (R356, R361) -/

/-- Slots free in the active half. -/
def Journal.room (j : Journal) : Nat := halfSlots - j.used

/-- Records of the hold buffer that fit, in order, and the rest. -/
def takeFit : Nat → List JRec → List JRec × List JRec
  | _, [] => ([], [])
  | n, r :: l => if r.slots ≤ n then let x := takeFit (n - r.slots) l; (r :: x.1, x.2) else ([], r :: l)

/-- The hold buffer is written, ahead of new appends, as far as the active half has room. -/
def Journal.drain (j : Journal) : Journal :=
  let x := takeFit j.room j.hold
  { j with unwritten := j.unwritten ++ x.1, hold := x.2 }

/-- The batch is committed; a compaction in progress copies it behind its snapshot (R358). -/
def Journal.commit (j : Journal) : Journal :=
  { j with recs := j.recs ++ j.unwritten, other := if j.compacting then j.other ++ j.unwritten else j.other,
           unwritten := [] }

/-- JOURNAL_PAGE_PROGRAM: the batch of appended records is programmed and committed, while the window is open. -/
def execJournalPageProgram (s : State) : Out :=
  if s.boot.on && s.jnl.windowOpen then .next { s with jnl := s.jnl.drain.commit } else .next s

/-- GLOBAL_PERSISTENT_FLUSH (R245): the hold buffer is written where the window is open, and completion is reported. -/
def execGlobalPersistentFlush (s : State) : Out :=
  if !s.boot.on then .next s
  else
    let s : State := if s.jnl.windowOpen then { s with jnl := s.jnl.drain.commit } else s
    .next { s with reply := .done }

/-! ## The write window (R360) -/

/-- The readings of the ten hub sensors: a substituted one counts toward throttling and tripping only (R381). -/
def State.hubReadings (s : State) : List Int :=
  ((upTo 10).map fun k => s.sensor (160 + k)).filterMap fun x => if x.kind = 0 then some x.reading else none

/-- The highest of them. -/
def State.hubMax (s : State) : Int :=
  s.hubReadings.foldl max (s.hubReadings.headD 0)

/-- Every hub sensor reads from 0 °C to 95 °C. -/
def State.hubInWindow (s : State) : Bool :=
  s.hubReadings.all fun t => decide (0 ≤ t) && decide (t ≤ 95 * 256)

/-- The flash temperature lies in the configured rating; with no source only the hub sensors count (log entry 64). -/
def State.flashInRating (s : State) : Bool :=
  match s.cfg.flashTemp with
  | .none => true
  | .register => !s.jnl.sensorBad && decide (s.cfg.flashLo * 256 ≤ s.jnl.flashTemp) &&
      decide (s.jnl.flashTemp ≤ s.cfg.flashHi * 256)

/-- The window is evaluated; as it opens, what is held is written. -/
def State.updateWindow (s : State) : State :=
  let j := { s.jnl with hubMax := s.hubMax, windowOpen := s.hubInWindow && s.flashInRating }
  { s with jnl := if j.windowOpen then j.drain else j }

/-- FLASH_TEMP_READ: a source that does not answer, or reads outside −40 °C to 150 °C, counts as outside the rating and
is logged. -/
def execFlashTempRead (r : Option Int) (s : State) : Out :=
  if !s.boot.on || s.cfg.flashTemp = .none then .next s
  else
    let ok := r.any fun t => decide (-40 * 256 ≤ t) && decide (t ≤ 150 * 256)
    let s : State := { s with jnl := { s.jnl with flashTemp := r.getD s.jnl.flashTemp, sensorBad := !ok } }
    let s := if ok then s else s.event .nvmTempSensor .device 0 noCtx []
    .next s.updateWindow

/-! ## Compaction (R358) -/

/-- Events a compaction keeps. -/
def keptEvents : Nat := 16384

/-- Time since the previous compaction started; since the cold start where there was none (log entry 65). -/
def State.sinceCompaction (s : State) : Nat := s.time - s.jnl.lastCompact.getD 0

/-- An hour in ns. -/
def hourNs : Nat := 3600000000000

/-- Start a compaction into the erased other half: a snapshot of the state records in force and of the newest 16,384
EVENTs, each with its own SEQ (log entry 66). -/
def State.compact (s : State) : State :=
  let j := s.jnl
  if j.compacting || j.erasing then s
  else
    let evs := j.recs.filter fun r => r.kind == .event
    let drop := evs.length - keptEvents
    let body := ((inForce j.recs) ++ evs.drop drop).map fun r => { r with snap := true }
    let gen := if j.half = 0 then j.erases1 else j.erases0
    let frame : List JRec := [{ seq := j.next, kind := .snapBegin, payload := [gen], snap := true }]
    let tail : List JRec := [{ seq := j.next + 1, kind := .snapEnd, payload := [j.next, slotsOf body], snap := true }]
    let s : State := { s with jnl := { j with
      compacting := true, lastCompact := some s.time, other := frame ++ body ++ tail, next := j.next + 2 } }
    s.bump .jnlWearEventsDropped 0 drop

/-- COMPACTION_START: at 75 % full or 24 h after the last; within the hour only at 90 %, never within 15 min. -/
def execCompactionStart (s : State) : Out :=
  let n := s.jnl.filled
  let due := decide (3 * halfSlots ≤ 4 * n) || decide (24 * hourNs ≤ s.sinceCompaction)
  let floor := s.jnl.lastCompact.isSome && (decide (4 * s.sinceCompaction < hourNs) ||
    (decide (s.sinceCompaction < hourNs) && decide (10 * n < 9 * halfSlots)))
  if s.boot.on && due && !floor then .next s.compact else .next s

/-- A write of 1 to JNL_CTRL.COMPACT: refused inside the hour. -/
def State.writeCompact (s : State) (p : Path) (v : Nat) : State :=
  if s.jnl.lastCompact.isSome && decide (s.sinceCompaction < hourNs) then s.refuse p (Reg.jnlCtrl.addr 0) v
  else s.compact

/-- JNL_COMPACT. -/
def execJnlCompact (p : Path) (s : State) : Out := if s.served p then .next (s.writeCompact p 1) else .next s

/-- COMPACTION_SWITCH: the other half becomes active, the old one is erased in the background, and what waits in the hold
buffer has room. -/
def execCompactionSwitch (s : State) : Out :=
  let j := s.jnl
  if !s.boot.on || !j.compacting || !j.windowOpen then .next s
  else
    let j := j.commit
    .next { s with jnl := { j with recs := j.other, other := [], tornIn := 0, half := 1 - j.half, compacting := false,
                                   erasing := true }.drain }

/-- HALF_ERASE_DONE: one erase cycle of the old half. -/
def execHalfEraseDone (s : State) : Out :=
  let j := s.jnl
  if !s.boot.on || !j.erasing || !j.windowOpen then .next s
  else .next { s with jnl := { j with
    erasing := false, erases0 := if j.half = 1 then j.erases0 + 1 else j.erases0,
    erases1 := if j.half = 0 then j.erases1 + 1 else j.erases1 } }

/-! ## Replay (R357) -/

/-- The journal as a cold start finds it: what was not committed is gone, a compaction that had not switched is
dropped, and SEQ resumes above the highest of either half. An empty journal is erased and gets a new snapshot in half
0. -/
def State.replayJournal (s : State) : State :=
  let j := s.jnl
  let top := (j.recs ++ j.other).foldl (fun n r => max n (r.seq + r.slots)) 0
  let j := { Journal.reset with recs := j.recs, half := j.half, erases0 := j.erases0, erases1 := j.erases1,
                                erasing := j.erasing, next := top, replayed := slotsOf j.recs,
                                torn := j.tornIn, tornIn := j.tornIn }
  if j.recs.any fun r => r.kind == .snapEnd then { s with jnl := j }
  else
    let j := { j with recs := [], half := 0, erasing := false, erases0 := j.erases0 + 1, erases1 := j.erases1 + 1,
                      replayed := 0, torn := 0, tornIn := 0 }
    let s : State := { s with jnl := j }
    (s.journal .snapBegin [0]).journal .snapEnd [top, 0]

end Sys2Proof.Machine
end

