-- ==== Sys2Proof/Machine/Flags.lean ====
section
/-! DEFINITION. Summaries the device shows of its own state: counts of contexts, threads and slots, and the bits of
DEV_STATUS (R434, R443). -/

namespace Sys2Proof.Machine

/-- A number whose bit `k` is `f k`, for `k` below `n`. -/
def packBits (n : Nat) (f : Nat → Bool) : Nat :=
  (upTo n).foldl (fun a k => if f k then a + 2 ^ k else a) 0

end Sys2Proof.Machine
end

