-- ==== Sys2Proof/Machine/Optics.lean ====
section
/-! DEFINITION. Honeycombs, the resonance search, the identity check and relocks (R288 to R302, R309). -/

namespace Sys2Proof.Machine

/-! ## Honeycombs (R288 to R291) -/

/-- COMB_RETRY: honeycombs 8 and 9 start again. -/
def execCombRetry (h : Fin 10) (s : State) : Out :=
  if (s.comb h).state = .failed && decide (8 ≤ h.val) && s.boot.on then .next (s.startComb h) else .next s

/-- A line power drop is present (R290): counted when it begins, and raised as a cause its lattice does not hold. -/
def State.lineDrop (s : State) (h t0 : Nat) : State :=
  let was := (s.comb h).lowPower
  let s := s.modComb h fun x => { x with lowPower := true }
  let s := if was then s else s.bump .tmpCombEventsDrops h
  if h < 8 && !(s.lat h).held.any (fun e => e.1 == .linePower) then s.raiseCause h .linePower t0 else s

/-- LINE_POWER_COMPARATOR: t0 is the previous 100 ms sample. -/
def execLinePowerComparator (h : Fin 10) (s : State) : Out :=
  if (s.comb h).state = .ready then .next (s.lineDrop h (s.comb h).lastSample) else .next s

/-- LINE_POWER_SAMPLE: a line more than 1 dB below its set value is a drop; power back within 1 dB clears it. -/
def execLinePowerSample (h : Fin 10) (powers : List Int) (s : State) : Out :=
  if !(Instr.linePowerSample h powers).wf then .refused .illFormed
  else if (s.comb h).state = .off || !s.onPhase 1000000000 0 then .next s
  else
    let t0 := (s.comb h).lastSample
    let s := s.modComb h fun x => { x with powers := powers, lastSample := s.time }
    if (s.comb h).state ≠ .ready then .next s
    else
      let sets := s.cfg.lineSet.getD h []
      if (powers.zip (sets ++ List.replicate (128 - sets.length) 0)).any fun e => decide (e.1 < e.2 - 100) then
        .next (s.lineDrop h t0)
      else
        let s := s.modComb h fun x => { x with lowPower := false }
        if h.val < 8 then .next (s.clearCause h .linePower) else .next s

/-- Where a re-evaluation leaves the bias (R291): raised, up to the maximum, where the weakest line is less than 1.5 dB in
hand; lowered where it is more than 3 dB in hand; else as it was. `found` is the bias at which the move ended. -/
def newBias (top old found : Nat) (weakest : Int) : Nat :=
  if weakest < 150 then max old (min found top) else if 300 < weakest then min old found else old

/-- BIAS_REEVALUATION, every 24 h: `weakest` and `after` are what the weakest line has in hand before and after, in 0.01 dB, its
attenuator fully open. A new bias is journalled; a honeycomb at its maximum that cannot hold the set value raises the line
power drop. -/
def execBiasReevaluation (h : Fin 10) (weakest : Int) (bias : Nat) (after : Int) (s : State) : Out :=
  if (s.comb h).state ≠ .ready || !s.onPhase 864000000000000 0 then .next s
  else
    let old := (s.comb h).bias
    let new := newBias (Config.maxBias h) old bias weakest
    let s := if new = old then s
      else ((s.journal .laserBias [h, new]).modComb h fun x => { x with held := new }).setBias h new
    if Config.maxBias h ≤ new && after < 0 then .next (s.lineDrop h (s.comb h).lastSample) else .next s

/-! ## Identity words (R293) -/

/-- Parity of a number's low 12 bits. -/
def parity12 (w : Nat) : Nat := ((upTo 12).filter fun k => bitOf w k).length % 2

/-- The identity word of line d. -/
def identityWord (d : Nat) : Nat :=
  let pos := [3, 5, 6, 7, 9, 10, 11]
  let p (k : Nat) : Nat := ((upTo 7).filter fun i => bitOf (pos.getD i 0) k && bitOf d i).length % 2
  let w := d % 128 + p 0 * 128 + p 1 * 256 + p 2 * 512 + p 3 * 1024
  w + parity12 w * 2048

/-- The word a frame's samples read as, bit 0 first: high or low about the midpoint of their extremes; a frame without two
levels reads as all low or all high, which `flat` decides (a free value, log entry 59). -/
def frameWord (samples : List Nat) (flat : Bool) : Nat :=
  let hi := samples.foldl max 0
  let lo := samples.foldl min hi
  packBits 12 fun k => if hi = lo then flat else decide (hi + lo < 2 * samples.getD k 0)

/-- The line a received word reads as: no error, or one that the code corrects; none with two errors. -/
def identityRead (w : Nat) : Option Nat :=
  (upTo 128).find? fun d => decide (((upTo 12).filter fun k => bitOf w k != bitOf (identityWord d) k).length ≤ 1)

/-! ## Dead rings (R50, R294, R301, R302) -/

/-- Where a ring that cannot hold its line is parked (R294): midway between the last two maxima it crossed, or 107 codes
above its only maximum; none without a maximum. -/
def parkCode (maxima : List Nat) : Option Nat :=
  match maxima with
  | [] => none
  | [a] => some (min 4095 (a + 107))
  | a :: b :: _ => some ((a + b) / 2)

/-- A dead ring enters the map, pending (R302); one with a place to park is parked there, any other goes to code 0. Its
effective weight is a free value until it is measured (R335). -/
def State.buryRing (s : State) (l r kind : Nat) (park : Option Nat) : State :=
  let w := (Config.unstated s.free).toNat
  let s := s.drawn 1
  let s := s.modLat l fun x => { x with dem := (x.dem.filter fun d => !(d.row == r / 256 && d.col == r % 256)) ++
    [{ row := r / 256, col := r % 256, kind := kind, handling := 2, parkW := signed 8 w, canPark := park.isSome }] }
  let x := s.ringNow l r
  match park with
  | some c =>
    let set := powerOf (s.ringHigh l r) c
    let s := s.setRing (ringKey l r) { x with
      st := .parked, stopped := true, excursion := none, atPass := set, r := set * 65536, rstar := set * 65536,
      temp := s.ringTemp l r }
    s.issueCode l r c
  | none =>
    let s := s.setRing (ringKey l r) { x with st := .deadUnparked, stopped := true, excursion := none }
    s.issueCode l r 0

/-- A ring is declared dead: in service it is counted and logged, its lattice fenced beyond the limits of R50, and its
cause clears once it is parked (R301, R302). -/
def State.declareDead (s : State) (l r kind : Nat) (park : Option Nat) : State :=
  let search := (s.lat l).state == .searching
  let s := s.buryRing l r kind park
  if search then s
  else
    let s := (s.bump .tmpEventCntDead (l / 2)).event .tmpRingDead .lattice l noCtx []
    let s := s.settle l
    if (s.lat l).deadOk then s else s.fenceLattice l 12

/-! ## Locking (R294, R296) -/

/-- A ring locks at its heater's code: set-point and output start there, so that the loops close without a step
(DEDUCED, log entry 61). Its ERR gain is measured, a free value (R328). -/
def State.lockRing (s : State) (l r : Nat) : State :=
  let x := s.ringNow l r
  let set := powerOf (s.ringHigh l r) x.code
  let g := (Config.unstated s.free).toNat % 65536
  (s.drawn 1).setRing (ringKey l r) { x with
    st := .locked, stopped := false, rstar := set * 65536, r := set * 65536, v := 0, a := 0,
    xi := [0, 0, 0], yi := [set, set, set], xo := [0, 0, 0], yo := [set, set, set], f := 0, u := set, p := set, e := none,
    atPass := set, temp := s.ringTemp l r, errGain := g, inWindow := none, passed := false }

/-- A ramp visit finds the reading before it a maximum of at least `floor` (R294). -/
def Ring.atMaximum (x : Ring) (drop : Nat) (floor : Nat) : Bool :=
  x.rising && decide (drop < x.prevDrop) && decide (floor ≤ x.prevDrop)

/-- The ramp goes on by 16 codes. Where it starts, or goes on from a maximum, the reading only gives what the next is compared
with. -/
def State.rampOn (s : State) (l r drop : Nat) : State :=
  let x := s.ringNow l r
  let s := s.setRing (ringKey l r) { x with
    rising := x.prevCode != x.code && (decide (x.prevDrop < drop) || (x.rising && drop == x.prevDrop)),
    prevDrop := drop, prevCode := x.code }
  s.issueCode l r (min 4095 (x.code + 16))

/-- The ramp stops at the maximum it has just passed, at the code of the visit before. -/
def State.rampStop (s : State) (l r : Nat) : State :=
  let x := s.ringNow l r
  let s := s.setRing (ringKey l r) { x with stopped := true, rising := false, maxima := x.prevCode :: x.maxima }
  s.issueCode l r x.prevCode

/-- SEARCH_RAMP_VISIT: the first visit reads the drop at code 0; later ones look for a maximum of at least four times
it. A ring at code 4,095 cannot reach its line, or has no monitor tap. -/
def execSearchRampVisit (l : Fin 8) (r : Fin 131072) (drop : BitVec 14) (s : State) : Out :=
  let x := s.ringNow l r
  let y := s.lat l
  if y.state ≠ .searching || y.phase ≠ 1 || x.st ≠ .searching || x.stopped then .next s
  else if x.code = 0 then
    let s := s.setRing (ringKey l r) { x with drop0 := drop.toNat, prevCode := 0, maxima := [] }
    .next (s.rampOn l r drop.toNat)
  else if x.atMaximum drop.toNat (4 * x.drop0) then .next (s.rampStop l r)
  else if x.code = 4095 then
    .next (s.declareDead l r (if x.maxima.isEmpty then 4 else 0) (parkCode x.maxima))
  else .next (s.rampOn l r drop.toNat)

/-- IDENTITY_FRAME: a ring stopped at a maximum reads its line from its monitor samples of a frame (R293, R294 steps 3 and
4). -/
def execIdentityFrame (l : Fin 8) (r : Fin 131072) (samples : Vector (BitVec 14) 12) (s : State) : Out :=
  let x := s.ringNow l r
  let y := s.lat l
  if y.state ≠ .searching || y.phase ≠ 1 || x.st ≠ .searching || !x.stopped then .next s
  else
    let c := r.val % 128
    let w := frameWord (samples.toList.map (·.toNat)) ((Config.unstated s.free).toNat % 2 == 1)
    let s := s.drawn 1
    match identityRead w with
    | none => .next s
    | some c1 =>
      if c1 = c then .next (s.lockRing l r)
      else if c < c1 && c1 < c + 120 then .next (s.declareDead l r 0 (parkCode x.maxima))
      else .next (s.setRing (ringKey l r) { x with stopped := false })

/-! ## The end of the search (R40, R50, R296, R309) -/

/-- What step 5 of R296 asks of a ring: dead, or locked, its lock error within the comparator window for 50 ms and an identity
round passed since it locked. -/
def Ring.settled (x : Ring) (time : Nat) : Bool :=
  match x.st with
  | .locked => x.passed && x.inWindow.any fun τ => decide (τ + 50000000 ≤ time)
  | .off | .searching | .relocking => false
  | _ => true

/-- SEARCH_COMPLETE, once every ring is settled: R50 is applied; within its limits the lattice becomes LOCKED, beyond them it
is fenced. -/
def execSearchComplete (l : Fin 8) (s : State) : Out :=
  let x := s.lat l
  if x.state = .searching && x.phase = 1 && !s.searchOpen l && !s.anyRing l (fun y => !y.settled s.time) then
    let s := s.setLat l { x.resolveDead with lastPass := s.time }
    if !(s.lat l).deadOk then .next (s.fenceLattice l 12)
    else .next ((((s.enterLat l .locked 0 4).zeroHold l).chooseSpans l).follow l)
  else .next s

/-- SEARCH_TIMEOUT: a search not complete in time is a failure (R40, R296). -/
def execSearchTimeout (l : Fin 8) (s : State) : Out :=
  if (s.lat l).state = .searching then .next (s.fenceLattice l 12) else .next s

/-! ## The identity check and relocks (R298 to R302) -/

/-- IDENTITY_ROUND_DUE: every ID_PERIOD in SERVING, freely in SUSPECT and LOCKED (R299). -/
def execIdentityRoundDue (l : Fin 8) (s : State) : Out :=
  match (s.lat l).state with
  | .serving =>
    if s.onPhase (s.fld .tmpCtrlIdPeriod (l / 2) * 1000000000) 0 then .next (s.modLat l fun x => { x with roundDue := true })
    else .next s
  | .locked | .suspect => .next (s.modLat l fun x => { x with roundDue := true })
  | _ => .next s

/-- The set-point a ring is expected at (R298), Q1.15. -/
def State.expectedSet (s : State) (l r : Nat) (x : Ring) : Int := x.atPass - s.feedTerm (l / 2) x (s.ringTemp l r - x.temp)

/-- A ring's heater goes to its expected set-point less 1.5 line spacings (2,556 of 32,768 at 213 codes a spacing) and
ramps from there (R301). -/
def State.relock (s : State) (l r : Nat) : State :=
  let x := s.ringNow l r
  let c := codeOf (s.ringHigh l r) (s.expectedSet l r x - 2556)
  let s := s.setRing (ringKey l r) { x with
    st := .relocking, excursion := none, stopped := false, rising := false, prevCode := c, maxima := [], e := none }
  s.issueCode l r c

/-- A ring fails its identity check (R296, R301): logged, relocked, or dead at its third failure in the search or its
third wrong-line lock within 60 s. -/
def State.wrongLine (s : State) (l r t0 : Nat) : State :=
  let x := s.ringNow l r
  let s := (s.event .tmpWrongLine .lattice l noCtx [r / 256, r % 256]).bump .tmpEventCntWrongLine (l / 2)
  let times := x.wrongTimes.filter (fun τ => decide (s.time < τ + 60000000000)) ++ [s.time]
  let search := (s.lat l).state == .searching
  let s := s.setRing (ringKey l r) { x with wrongTimes := times, idFails := x.idFails + boolNat search }
  let s := if search then s else s.raiseCause l .wrongLine (x.excursion.getD t0)
  if (search && decide (3 ≤ x.idFails + 1)) || (!search && decide (3 ≤ times.length)) then
    s.declareDead l r 1 (parkCode x.maxima)
  else s.relock l r

/-- What an identity round finds for one ring (R298, R301): a pass, a relocked ring's line, or a failure. -/
def State.checkRing (s : State) (l t0 : Nat) (readings : List (Nat × Int)) (lines : List (Nat × Nat)) (r : Nat) : State :=
  let x := s.ringNow l r
  let isDark := readings.any fun e => e.1 == r && decide (e.2 < -8)
  match x.st with
  | .locked =>
    if isDark || decide (856 < (toQ15 x.r - s.expectedSet l r x).natAbs) then s.wrongLine l r t0
    else s.setRing (ringKey l r) { x with
      excursion := none, marked := false, passed := true, atPass := toQ15 x.r, temp := s.ringTemp l r }
  | .relocking =>
    if !x.stopped then s
    else if !isDark then s.lockRing l r
    else if lines.any fun e => e.1 == r && decide (r % 128 < e.2) && decide (e.2 < r % 128 + 120) then
      s.declareDead l r 0 (parkCode x.maxima)
    else s.setRing (ringKey l r) { x with stopped := false }
  | _ => s

/-- IDENTITY_ROUND_COMPLETE: `readings` gives the rings' estimates E, of at least −8 where it names none; `lines` the lines that
relocking rings are found on. -/
def execIdentityRoundComplete (l : Fin 8) (readings : List (Nat × Int)) (lines : List (Nat × Nat)) (s : State) : Out :=
  let x := s.lat l
  if !(x.roundLeft == 3 || (x.state == .searching && x.phase == 1)) then .next s
  else
    let t0 := x.lastPass
    let mine := (s.rings.filter fun e => e.1 / 131072 == l.val).map fun e => e.1 % 131072
    let s := forEach mine (fun s r => s.checkRing l t0 readings lines r) s
    let s := s.modLat l fun x => { x with roundLeft := 0, roundDue := s.anyRing l (fun y => y.st == .relocking && y.stopped),
                                          lastPass := s.time }
    .next ((s.settle l).tryEndUpset (l.val / 2))

/-- RELOCK_RAMP_STEP: every 40 µs a relocking ring's heater ramps by 16 codes, to the first drop maximum, where an
identity round finds its line; at code 4,095 it cannot reach it. -/
def execRelockRampStep (l : Fin 8) (r : Fin 131072) (drop : BitVec 14) (s : State) : Out :=
  let x := s.ringNow l r
  if x.st ≠ .relocking || x.stopped then .next s
  else if x.atMaximum drop.toNat 0 then
    .next ((s.rampStop l r).modLat l fun y => { y with roundDue := true })
  else if x.code = 4095 then .next (s.declareDead l r 0 (parkCode x.maxima))
  else .next (s.rampOn l r drop.toNat)

/-- RELOCK_TIMEOUT: a relock not complete in 5 ms makes the ring dead, of kind 1. -/
def execRelockTimeout (l : Fin 8) (r : Fin 131072) (s : State) : Out :=
  let x := s.ringNow l r
  if x.st = .relocking then .next (s.declareDead l r 1 (parkCode x.maxima)) else .next s

end Sys2Proof.Machine
end

