-- ==== Sys2Proof/Machine/Monitors.lean ====
section
/-! DEFINITION. Monitor converters, read-back supervision, and the slices of PROOF (R300, R322 to R327, R372, R373). -/

namespace Sys2Proof.Machine

/-- The lattice and ring of ring index m of converter k (R323). -/
def convRing (k m : Nat) : Nat × Nat :=
  let rho := m * 256 + k % 256
  (k / 256 * 2 + rho / 131072, rho % 131072)

/-- A conversion of ERR received for a ring: its latest e; outside the window its comparator is masked until the ring's
next inner sample; at or above HOP it is a lock excursion (R300, R304, R325). -/
def State.receiveErr (s : State) (l r : Nat) (e : Int) (mask : Bool) : State :=
  let x := s.ringNow l r
  let beyond := decide (s.window (l / 2) x.clsNow < e.natAbs)
  let s := s.setRing (ringKey l r) { x with
    e := some e, lockErr := e, masked := x.masked || mask || beyond,
    inWindow := if beyond then none else x.inWindow.orElse fun _ => some s.time }
  if s.hop (l / 2) x ≤ e.natAbs && !s.searchOpen l then s.excursion l r x.goodSample else s

/-- A heater fails a test (R327): code 0, recorded, its ring dead and not parkable; in service the excursion cause with
its t0. `fault` is 1 for open, 2 for short. -/
def State.heaterFault (s : State) (l r fault t0 : Nat) : State :=
  let s := s.setRing (ringKey l r) { s.ringNow l r with fault := fault }
  let s := s.bump .htrEventCntFaults (l / 2)
  let s := if (s.lat l).state = .searching then s else s.raiseCause l .excursion t0
  s.declareDead l r (fault + 1) none

/-- Read-back of a ring with an inner loop (R324, R327): p is taken, and three consecutive bad read-backs are a fault. -/
def State.readBack (s : State) (l r : Nat) (p : Int) (limit : Bool) : State :=
  let x := s.ringNow l r
  let code := (s.tap l r).code
  let nominal := powerOf (s.cluster (clusterOf l r)).high code
  let low := decide (64 ≤ code) && decide (2 * p < nominal)
  let lowReads := if low then x.lowReads + 1 else 0
  let shortReads := if limit then x.shortReads + 1 else 0
  let fresh := x.lowReads = 0 && x.shortReads = 0
  let t0 := if fresh then s.time else x.badSince
  let s := s.setRing (ringKey l r) { x with p := p, lowReads := lowReads, shortReads := shortReads, badSince := t0 }
  if 3 ≤ shortReads then s.heaterFault l r 2 t0
  else if 3 ≤ lowReads then s.heaterFault l r 1 t0
  else s

/-- Rings whose comparators present: locked, not masked (R322). -/
def State.presents (s : State) (k : Nat) (l : List (Fin 1024)) : List (Fin 1024) :=
  l.filter fun m =>
    let x := s.ringNow (convRing k m).1 (convRing k m).2
    x.st == .locked && !x.masked

/-- Requests dropped at a boundary (R325). -/
def State.dropReqs (s : State) (k n : Nat) : State :=
  let x := s.conv k
  s.setConv k { x with drops := min 65535 (x.drops + n) }

/-- The first presenting ring at or after the one that follows the last accepted (R325). -/
def nextPresenting (last : Nat) (l : List (Fin 1024)) : Option (Fin 1024) :=
  let dist (m : Fin 1024) : Nat := (m.val + 1023 - last) % 1024
  l.foldl (fun b m => match b with
    | none => some m
    | some n => if dist m < dist n then some m else some n) none

/-- MONITOR_CONVERSION. -/
def execMonitorConversion (k : Fin 1024) (slot : MonSlot) (s : State) : Out :=
  let b := k.val / 256
  let cont := s.continuous b (k % 256)
  if !s.temperOn b then .next s
  else match slot with
  | .readBack m p limit =>
    let lr := convRing k m
    let st := s.ringState lr.1 lr.2
    if cont || s.searchOpen lr.1 || !(st == .locked || st == .parked) then .next s
    else .next (s.readBack lr.1 lr.2 p.toInt limit)
  | .drop _ _ pres => .next (if cont then s else s.dropReqs k (s.presents k pres).length)
  | .err m e =>
    let lr := convRing k m
    if cont && s.ringState lr.1 lr.2 == .locked then .next (s.receiveErr lr.1 lr.2 e.toInt false) else .next s
  | .sense m at256 p limit =>
    let lr := convRing k m
    if !(cont && (s.lat lr.1).state == .searching && (s.lat lr.1).phase == 1 && s.ringState lr.1 lr.2 == .searching) then
      .next s
    else if at256 then .next (if p.toInt < 1536 then s.heaterFault lr.1 lr.2 1 s.time else s)
    else .next (if 64 < p.toInt || limit then s.heaterFault lr.1 lr.2 2 s.time else s)
  | .ringSlot pres e =>
    let ps := (s.presents k pres).dedup
    match if cont then none else nextPresenting (s.conv k).last ps with
    | none => .next s
    | some m =>
      let s := s.setConv k { s.conv k with last := m }
      let s := s.dropReqs k (ps.length - 1)
      .next (s.receiveErr (convRing k m).1 (convRing k m).2 e.toInt true)
  | .reference ch bad pres =>
    if cont then .next s
    else
      let s := s.dropReqs k (s.presents k pres).length
      let x := s.conv k
      let s := s.setConv k { x with refFault := if bad then (if x.refFault.contains ch then x.refFault else
        x.refFault ++ [ch]) else x.refFault.filter (· != ch) }
      if bad && !x.refFault.contains ch then .next (s.event .monRefFault .converter k noCtx []) else .next s

/-- A ring of converter k of bay b is locked in a SERVING lattice. -/
def State.convServing (s : State) (b k : Nat) : Bool :=
  (upTo 1024).any fun m =>
    let lr := convRing (b * 256 + k) m
    (s.lat lr.1).state == .serving && s.ringState lr.1 lr.2 == .locked

/-- A write of MON_TEST takes effect under a debug token with DEBUG, while no ring of the named converter is locked in a
SERVING lattice; else it is a refused write. -/
def State.writeMonTest (s : State) (p : Path) (b v : Nat) : State :=
  let k := v % 256
  if !s.tokenPerm 0 || s.convServing b k then s.refuse p (Reg.monTest.addr b) v
  else
    let s := (s.setFld .monTestCont b (bitsOf v 8 8)).setFldAt .monTestConverter b (pathNum p) k
    s.modBay b fun y => { y with contOf := k }

/-- MON_TEST_CONT; held while the monitors are powered down (R440). -/
def execMonTestCont (p : Path) (b : Fin 4) (v : Word) (s : State) : Out :=
  if !s.served p then .next s
  else if Block.down (s.bay b).unitState .monitor then .next (s.holdWrite p b (Reg.monTest.addr b) 0 v.toNat)
  else .next (s.writeMonTest p b v.toNat)

/-! ## PROOF (R372, R373) -/

/-- One ERR of a PROOF sweep: a ring outside its window is trimmed by round_half_even(e × K / 2), K its codes per line
spacing, a free value; one at or above HOP is marked. The trim is kept in f, to be folded on leaving PROOF. -/
def State.proofTrim (s : State) (b : Nat) (e : Nat × BitVec 16) : State × Bool :=
  let l := 2 * b + e.1 / 131072 % 2
  let r := e.1 % 131072
  let x := s.ringNow l r
  let err := e.2.toInt
  if x.st ≠ .locked then (s, false)
  else
    let hop := decide (s.hop b x ≤ err.natAbs)
    let s := if hop && !x.marked then s.bump .pwrProofCntMarked b else s
    let x := { x with lockErr := err, marked := x.marked || hop }
    if err.natAbs < s.window b x.clsNow then (s.setRing (ringKey l r) x, false)
    else
      let k := (Config.unstated s.free).toNat % 4096
      let high := s.ringHigh l r
      let code := (clampInt 0 4095 (x.code + roundHalfEven (err * k) 65536)).toNat
      let s := (s.drawn 1).setRing (ringKey l r) { x with f := x.f - (powerOf high code - powerOf high x.code) }
      (s.issueCode l r code, true)

/-- A PROOF slice is due: PROOF_PERIOD after the start of the last one, 1 ms while the rate-of-rise flag is set. -/
def State.sliceDue (s : State) (b : Nat) : Bool :=
  let ms := if (s.bay b).rise then 1 else s.fld .pwrBayCtrlProofPeriod b
  (s.bay b).sliceAt.all fun t => decide (t + 1000000 * ms ≤ s.time)

/-- PROOF_SLICE: `errs` lists the conversions of the slice's sweeps, in order, by ρ. -/
def execProofSlice (b : Fin 4) (errs : List (Nat × BitVec 16)) (s : State) : Out :=
  if (s.bay b).power ≠ .proof || (s.bay b).heading ≠ .proof || !s.sliceDue b then .next s
  else
    let s := (s.bump .pwrProofCntSlices b).modBay b fun y => { y with sliceAt := some s.time }
    let r := errs.foldl (fun (a : State × Bool) e => let t := a.1.proofTrim b e; (t.1, a.2 || t.2)) (s, false)
    .next (if r.2 then r.1.bump .pwrProofCntTrims b else r.1)

end Sys2Proof.Machine
end

