-- ==== Sys2Proof/Machine/Power.lean ====
section
/-! DEFINITION. Bay power states and their requests, the package power limit, temperature sensing, the latched shutdown,
clocks and the VDD_CORE regulator (R230 to R232, R363 to R388, R454). -/

namespace Sys2Proof.Machine

/-! ## Requests (R365, R370) -/

/-- Threads of a bay that are not IDLE. -/
def State.busyThreads (s : State) (b : Nat) : List Thread :=
  (((upTo 128).map fun i => s.thread (128 * b + i))).filter fun th => th.st != .idle

/-- A power state from its encoding (IDLE_STATE). -/
def PState.ofCode : Nat → PState := pstateOf

/-- Q, the bay's requested state (R365). -/
def State.requested (s : State) (b : Nat) : PState :=
  match s.busyThreads b with
  | [] => .ofCode (s.fld .pwrBayCtrlIdleState b)
  | th :: r => r.foldl (fun q th => if (pstateOf th.mode).depth < q.depth then pstateOf th.mode else q) (pstateOf th.mode)

/-- A thread waits with SRC = 2. -/
def Thread.waitsPower (th : Thread) : Bool := th.wait.any fun w => w.src == 2

/-- The condition of R365 for a deeper request: every thread that is not IDLE is WAITING with no earlier step in
progress, one of them with SRC = 2; or every thread is IDLE. -/
def State.quiet (s : State) (b : Nat) : Bool :=
  let l := s.busyThreads b
  l.isEmpty || (l.all (fun th => th.st == .waiting && th.steps.isEmpty) && l.any Thread.waitsPower)

/-- The request the bay's threads ask for against the state `base` (R365), if any. -/
def State.wanted (s : State) (b : Nat) (base : PState) : Option PState :=
  let q := s.requested b
  if q.depth < base.depth || (base.depth < q.depth && s.quiet b) then some q else none

/-! ## Refusals (R368, R369) -/

/-- The first block that refuses, as LAST_BLOCK numbers it, and its cause. A block is asked where its running status
changes (R367); the temper engine of a bay in PROOF runs in slices and is asked too (DEDUCED, log entry 63). -/
def State.refusal (s : State) (b : Nat) (target : PState) : Option (Nat × Nat) :=
  let y := s.bay b
  let temper := decide (2 ≤ target.depth) && decide (y.power.depth ≤ 2)
  let relock := (s.anyRing (2 * b) fun x => x.st == .relocking) || s.anyRing (2 * b + 1) fun x => x.st == .relocking
  let hold := s.clusters.any fun e => e.1 / 4096 == b && e.2.hold
  if temper && relock then some (4, 1)
  else if temper && y.rise then some (4, 2)
  else if temper && hold then some (4, 3)
  else if target = .off && s.feOps.any (fun o => o.bay == b) then some (5, 4)
  else if target = .off && decide (0 < y.poolUsed) then some (5, 5)
  else if y.power.larderOn && !target.larderOn && y.flushing then some (6, 6)
  else none

/-- A refusal (R369): logged and counted, waiters resolve with predicate 0; a request formed from IDLE_STATE is due
again. -/
def State.refusePower (s : State) (b : Nat) (target : PState) (blk cause : Nat) : State :=
  let s := (s.event .pwrRefused .bay b noCtx [blk, cause, target.code]).bump .pwrEventCntRefused
  let s := (s.setFld .pwrBayStatusLastBlock b blk).setFld .pwrBayStatusLastCause b cause
  let idle := (s.busyThreads b).isEmpty
  let s := if idle then s.modBay b fun y => { y with retryDue := true } else s
  s.resolvePower b (fun m => pstateOf m == target) false

/-- Units power up again: the pantry is zeroed and its tags emptied on leaving OFF (R364). -/
def State.zeroPantry (s : State) (b : Nat) : State :=
  let base := 0x0080_0000_0000 + b * 0x1000_0000
  { s with mem := memClear s.mem base (88 * mib), feFull := flagClear s.feFull (base / 8) (88 * mib / 8),
           wordErr := flagClear s.wordErr (base / 8) (88 * mib / 8) }

/-- A request is formed (R365, R367): the blocks agree and stop, or refuse; a shallower transition powers up at once,
and PROOF's trims are folded (R373). -/
def State.formRequest (s : State) (b : Nat) (q : PState) : State :=
  let y := s.bay b
  if y.power.depth < q.depth then
    match s.refusal b q with
    | some r => s.refusePower b q r.1 r.2
    | none =>
      let s := s.modBay b fun y => { y with trans := some { target := q, committed := false }, retryDue := false }
      let s := if y.power = .run then (s.retarget (2 * b) 3).retarget (2 * b + 1) 3 else s
      s.tryCommit b
  else
    let s := if y.power = .off then s.zeroPantry b else s
    let s := s.modBay b fun y => { y with trans := some { target := q, committed := true }, retryDue := false }
    let s := if y.power = .proof then s.foldBay b else s
    (s.retarget (2 * b) 3).retarget (2 * b + 1) 3

/-- A lattice is where a bay in state `p` has it. -/
def State.latSettled (s : State) (l : Nat) (p : PState) : Bool :=
  match (s.lat l).state, p with
  | .fenced, _ | .dark, .cold | .dark, .off => true
  | .dark, _ => s.latTarget l == .dark
  | .locked, .run => s.latTarget l != .serving
  | .locked, .dim | .locked, .proof => true
  | .serving, .run | .suspect, .run => true
  | _, _ => false

/-- A rate-of-rise flag raised between the temper engine's agreement and the commit refuses the transition (R368). -/
def State.riseRefuses (s : State) (b : Nat) : State :=
  match (s.bay b).trans with
  | some t =>
    if !t.committed && decide (2 ≤ t.target.depth) then
      let s := s.modBay b fun y => { y with trans := none }
      let s := (s.refusePower b t.target 4 2)
      (s.retarget (2 * b) 3).retarget (2 * b + 1) 3
    else s
  | none => s

/-- IDLE_STATE_WRITE. -/
def State.writeIdle (s : State) (p : Path) (b v : Nat) : State :=
  if !hostAllowed p s.cfg.grantLattice then s.refuse p (Reg.pwrBayCtrl.addr b) v
  else if 4 < v then s
  else s.setFld .pwrBayCtrlIdleState b v

/-- IDLE_STATE_WRITE. -/
def execIdleStateWrite (p : Path) (b : Fin 4) (v : BitVec 3) (s : State) : Out :=
  if s.served p then .next (s.writeIdle p b v.toNat) else .next s

/-! ## The package power limit and the allowance (R230, R374 to R376) -/

/-- L takes a value. -/
def State.setLimit (s : State) (v : Nat) : State := s.alertEdge { s with power := { s.power with limit := v } }

/-- A write of SET (R374): 300 to 1,000 W in steps of 25. -/
def State.writeLimit (s : State) (v : Nat) : State :=
  if v < 300 || 1000 < v || v % 25 ≠ 0 then s
  else
    let s' := s.setFld .pwrLimitSet 0 v
    s.alertEdge (if v < s'.power.limit then s'.setLimit v else s')

/-- POWER_LIMIT_SET. -/
def execPowerLimitSet (p : Path) (v : BitVec 10) (s : State) : Out :=
  if !s.served p then .next s
  else if !hostAllowed p s.cfg.grantLattice then .next (s.refuse p (Reg.pwrLimit.addr 0) v.toNat)
  else .next (s.writeLimit v.toNat)

/-- L falls by `n` steps of 25 W, to no less than 300 W. -/
def State.limitDown (s : State) (n : Nat) : State := s.setLimit (max 300 (s.power.limit - 25 * n))

/-- A throttle step down (R375), the next one due 5 ms later; at 300 W there is none to take (log entry 83). -/
def State.throttleStep (s : State) : State :=
  let s : State := { s with power := { s.power with stepDue := s.time + 5000000 } }
  if s.power.limit ≤ 300 then s else (s.limitDown 1).bump .pwrEventCntStepsDown

/-- A step up (R375), the next one due 50 ms later. -/
def State.climbStep (s : State) : State :=
  let s : State := { s with power := { s.power with stepDue := s.time + 50000000 } }
  s.setLimit (max s.power.limit (min (s.fld .pwrLimitSet) (s.power.limit + 25)))

/-- POWER_LIMIT_STEP, when it is due: a step down while a domain throttles; a step up while every domain is at least 3 °C
below. -/
def execPowerLimitStep (s : State) : Out :=
  if !s.boot.on || decide (s.time < s.power.stepDue) then .next s
  else if s.power.throttling then .next s.throttleStep
  else if s.power.cool then .next s.climbStep
  else .next s

/-- The package power averaged over the last millisecond's samples is above the limit (R230). -/
def State.overLimit (s : State) : Bool :=
  decide (s.power.limit * s.power.samples.length < s.power.samples.foldl (· + ·) 0)

/-- It is at least 25 W below the limit; with no sample taken it counts as 0 W. -/
def State.wellUnder (s : State) : Bool :=
  decide (s.power.samples.foldl (· + ·) 0 + 25 * s.power.samples.length ≤ s.power.limit * s.power.samples.length)

/-- When a condition that has held since `t` began to hold: now where it was not held before. -/
def since (now : Nat) (holds : Bool) (t : Option Nat) : Option Nat := if holds then some (t.getD now) else none

/-- It has held for `ns`. -/
def heldFor (now ns : Nat) (t : Option Nat) : Bool := t.any fun t => decide (t + ns ≤ now)

/-- PACKAGE_POWER_SAMPLE: the last 1 ms of 10 µs samples is averaged, in whole watts for the registers. -/
def execPackagePowerSample (w : Nat) (s : State) : Out :=
  if !s.boot.on || !s.onPhase 100000 0 then .next s
  else
    let l := (w :: s.power.samples).take 100
    let avg := l.foldl (· + ·) 0 / l.length
    let s : State := { s with power := { s.power with samples := l, avg := avg } }
    let s : State := { s with power := { s.power with underAt := since s.time s.wellUnder s.power.underAt } }
    .next (s.raise .pwrPkgPeakW 0 avg)

/-- ALLOWANCE_EVAL: A falls by 4 above the limit, rises by 1 at least 25 W below it. -/
def execAllowanceEval (s : State) : Out :=
  let a := s.fld .seqGovAllow 0
  let a' := if s.overLimit then max 8 (a - 4) else if s.wellUnder then min 64 (a + 1) else a
  if !s.boot.on || !s.onPhase 1000000 0 then .next s
  else
    let s : State := { s with power := { s.power with eightAt := since s.time (a' == 8) s.power.eightAt } }
    .next (forEach (upTo 4) (fun s b =>
    (s.setFld .seqGovAllow b a').setFld .seqGovMinAllow b (min a' (s.fld .seqGovMinAllow b))) s)

/-- HALF_CLOCK_ENTER: A at 8 for 10 ms and the averaged power still above L. -/
def execHalfClockEnter (s : State) : Out :=
  if s.boot.on && heldFor s.time 10000000 s.power.eightAt && s.overLimit then
    .next { s with power := { s.power with half := true } }
  else .next s

/-- HALF_CLOCK_EXIT: the averaged power has been at least 25 W below L for 1 ms. -/
def execHalfClockExit (s : State) : Out :=
  if heldFor s.time 1000000 s.power.underAt && s.wellUnder then .next { s with power := { s.power with half := false } } else .next s

/-! ## Sensors (R377 to R381) -/

/-- A domain's sensors, throttle threshold and trip, in 1/256 °C (R377). -/
structure ThermalDomain where
  first : Nat
  count : Nat
  throttle : Int
  trip : Int
  deriving DecidableEq, Repr

/-- The 23 domains. -/
def domainOf (d : Nat) : ThermalDomain :=
  if d < 4 then ⟨40 * d, 20, 100 * 256, 115 * 256⟩
  else if d < 8 then ⟨40 * (d - 4) + 20, 16, 82 * 256, 95 * 256⟩
  else if d < 12 then ⟨40 * (d - 8) + 36, 4, 84 * 256, 95 * 256⟩
  else if d < 22 then ⟨170 + 2 * (d - 12), 2, 70 * 256, 85 * 256⟩
  else ⟨160, 10, 100 * 256, 115 * 256⟩

/-- The sensors of a domain. -/
def ThermalDomain.sensors (d : ThermalDomain) : List Nat := (upTo d.count).map (· + d.first)

/-- The domain of a sensor. -/
def domainOfSensor (i : Nat) : Nat :=
  if i < 160 then (if i % 40 < 20 then i / 40 else if i % 40 < 36 then 4 + i / 40 else 8 + i / 40)
  else if i < 170 then 22 else 12 + (i - 170) / 2

/-- Insert into a rising list. -/
def insertInt (x : Int) : List Int → List Int
  | [] => [x]
  | y :: r => if x ≤ y then x :: y :: r else y :: insertInt x r

/-- Twice the median of a list (the sum of its two middle values). -/
def median2 (l : List Int) : Int :=
  let r := l.foldr insertInt []
  r.getD ((r.length - 1) / 2) 0 + r.getD (r.length / 2) 0

/-- The measured value of a reading. -/
def senseVal : Sense → Option Int
  | .value t => some t
  | _ => none

/-- One sensor's sample against its domain's measured values `vals` (R380); `i` is its place among them. -/
def Sensor.sample (x : Sensor) (i : Nat) (now : Sense) (vals : List (Option Int)) : Sensor :=
  match senseVal now with
  | none => { x with kind := if now = .isShort then 2 else 1, clean := 0, jumps := 0, far := 0, same := 0, span := [], has := false, rose := false }
  | some v =>
    let big := x.has && decide (2560 < (v - x.raw).natAbs)
    let jumps := if big then x.jumps + 1 else 0
    let far := if 10240 < (2 * v - median2 (vals.filterMap id)).natAbs then x.far + 1 else 0
    let again := x.has && v == x.raw
    let same := if again then x.same + 1 else 0
    let span := vals.zipIdx.map fun e =>
      let old := x.span.getD e.2 (e.1.getD v, e.1.getD v)
      if again then (min old.1 (e.1.getD old.1), max old.2 (e.1.getD old.2)) else (e.1.getD v, e.1.getD v)
    let stuck := decide (10000 ≤ same) && span.zipIdx.any fun e => e.2 != i && decide (512 < e.1.2 - e.1.1)
    let kind : Nat := if stuck then 3 else if 3 ≤ far || 3 ≤ jumps then 4 else 0
    let clean := if kind ≠ 0 then 0 else x.clean + 1
    let reading := if big then (if x.kind = 0 then x.reading else x.raw) else v
    { x with raw := v, has := true, reading := reading, jumps := jumps, far := far, same := same, span := span,
             kind := if kind ≠ 0 then kind else if x.kind ≠ 0 && clean < 10000 then x.kind else 0, clean := clean,
             rose := x.has && x.kind == 0 && decide (102 < reading - x.reading) }

/-- A broken sensor reads as its domain's throttle threshold plus 10 °C, two or more as its trip (R381). -/
def substitute (d : ThermalDomain) (broken : Nat) (x : Sensor) : Sensor :=
  if x.kind = 0 then x else { x with reading := if 2 ≤ broken then d.trip else d.throttle + 2560 }

/-- The sample of one domain: every sensor, newly broken ones logged, then the substitutes. -/
def State.sampleDomain (s : State) (readings : List Sense) (d : Nat) : State :=
  let D := domainOf d
  let vals := D.sensors.map fun i => senseVal (readings.getD i .isOpen)
  let s := forEach (upTo D.count) (fun s k =>
    let i := D.first + k
    let x := s.sensor i
    let x' := x.sample k (readings.getD i .isOpen) vals
    let s := s.setSensor i x'
    if x'.kind ≠ 0 && x.kind = 0 then s.event .thmSensorBroken .sensor i noCtx [x'.kind] else s) s
  let broken := (D.sensors.filter fun i => (s.sensor i).kind != 0).length
  forEach D.sensors (fun s i => s.setSensor i (substitute D broken (s.sensor i))) s

/-- A domain's temperature and the sensor that gives it: the highest reading (R377). -/
def State.domainTemp (s : State) (d : Nat) : Int × Nat :=
  let D := domainOf d
  D.sensors.foldl (fun a i => if a.1 < (s.sensor i).reading then ((s.sensor i).reading, i) else a)
    ((s.sensor D.first).reading, D.first)

/-- EIC and PIC sensors of a bay (R378). -/
def baySensors (b : Nat) : List Nat := (upTo 36).map (· + 40 * b)

/-! ## The rate-of-rise flag (R310, R378) -/

/-- A bay's flag is raised. -/
def State.raiseRise (s : State) (b : Nat) : State :=
  let s := s.modBay b fun y => { y with rise := true, riseCalm := 0 }
  let s := (s.limitDown 4).bump .pwrEventCntRiseCuts
  let s := s.traceHit b 3 fun _ => true
  let s := forEach [2 * b, 2 * b + 1] (fun s l => s.raiseCause l .rateOfRise (s.time - 1000000)) s
  s.riseRefuses b

/-- A bay's flag after a sample; `before` are the sensors as the previous sample left them. -/
def State.sampleRise (before s : State) (b : Nat) : State :=
  let rising (s : State) (i : Nat) : Bool := (s.sensor i).kind == 0 && (s.sensor i).rose
  let any := (baySensors b).any (rising s)
  let both := (baySensors b).any fun i => rising s i && rising before i
  let y := s.bay b
  if !y.rise then (if both then s.raiseRise b else s)
  else if any then s.modBay b fun y => { y with riseCalm := 0 }
  else if y.riseCalm + 1 < 10 then s.modBay b fun y => { y with riseCalm := y.riseCalm + 1 }
  else
    let s := (s.modBay b fun y => { y with rise := false, riseCalm := 0 }).foldBay b
    (s.retune (2 * b) true).retune (2 * b + 1) true

/-- A valid PIC sensor of a bay is above 82 °C (R311, R379). -/
def State.picHot (s : State) (b : Nat) : Bool :=
  (upTo 16).any fun k => let x := s.sensor (40 * b + 20 + k); x.kind == 0 && decide (82 * 256 < x.reading)

/-- A PIC above 82 °C holds the thermal cause; otherwise it may clear. -/
def State.picCause (s : State) (b : Nat) : State :=
  forEach [2 * b, 2 * b + 1] (fun s l =>
    if s.picHot b then
      (if (s.lat l).held.any (fun e => e.1 == .rateOfRise) then s else s.raiseCause l .rateOfRise (s.time - 1000000))
    else s.tryClearRise l) s

/-! ## Latched shutdown and stops (R320, R382, R385, R387) -/

/-- Honeycombs off with no ramp, heaters at code 0, transmitters dark, the link in electrical idle: the device runs no
longer, and what it was doing is gone (log entry 67). -/
def State.halted (s : State) : State :=
  let s : State := { s with ports := [], hnx := Hnx.reset }
  let s := forEach (upTo 10) (fun s h =>
    (s.setCombSt h .off).modComb h fun x => { x with spacing := false, lowPower := false }) s.clearHeaters
  { s with ports := [], lats := [], threads := [], ctxs := [], entries := [], admitQueue := [],
           issued := [], bays := [], feOps := [], feOwner := [], rings := [], convs := [], traces := [],
           cxl := { s.cxl with state := .down, memActive := false },
           boot := { s.boot with on := false, restarting := false, mgmtDown := false, reread := false } }

/-- The device stops (R385): the journal hold buffer and what is not committed are lost. How many slots of the batch it was
programming are left torn is a free value (R354; log entry 82). -/
def State.stopDevice (s : State) : State :=
  let s := s.halted
  let n := slotsOf s.jnl.unwritten
  let t := if n = 0 then 0 else (Config.unstated s.free).toNat % (n + 1)
  { s with free := if n = 0 then s.free else s.free + 1,
           jnl := { s.jnl with hold := [], unwritten := [], tornIn := s.jnl.tornIn + t, compacting := false } }

/-- A thermal trip (R382): its record is appended and committed where the window is open. -/
def State.trip (s : State) (d i : Nat) : State :=
  let s : State := { s with power := { s.power with
    tripLatched := true, tripDomain := d, tripSensor := i, tripTime := s.time % 2 ^ 48 } }
  let s := s.event .thmTrip .sensor i noCtx []
  let s : State := if s.jnl.windowOpen then { s with jnl := s.jnl.drain.commit } else s
  s.halted

/-- The first domain at its trip temperature in two consecutive samples, with its highest sensor. -/
def State.tripping (s : State) : Option (Nat × Nat) :=
  ((upTo 23).find? fun d => decide (2 ≤ tget 0 s.power.trips d)).map fun d => (d, (s.domainTemp d).2)

/-- Count samples at trip temperatures, and report threshold crossings (R382, R427). -/
def State.sampleLevels (s : State) : State :=
  forEach (upTo 23) (fun s d =>
    let D := domainOf d
    let t := (s.domainTemp d).1
    let n := if D.trip ≤ t then tget 0 s.power.trips d + 1 else 0
    let lv := if D.trip ≤ t then 2 else if D.throttle ≤ t then 1 else 0
    let old := tget 0 s.power.levels d
    let s : State := { s with power := { s.power with trips := tset 0 s.power.trips d n,
                                                      levels := tset 0 s.power.levels d lv } }
    if lv = old then s else s.sensorChange (d + 1) lv) s

/-- The rails are up, so the sensors are sampled (R14, R377). -/
def State.powered (s : State) : Bool := s.boot.on || (s.pins.aux && s.pins.railsOk)

/-- A sample while the device does not run: the sensors and the trip counts go on, and a trip latches (R382, R461). The
event log and the journal are in reset then. -/
def State.sampleIdle (s : State) (readings : List Sense) : State :=
  let t := ((upTo 23).foldl (fun t d => t.sampleDomain readings d) s).sampleLevels
  let s : State := { s with sensors := t.sensors, power := { s.power with trips := t.power.trips, levels := t.power.levels } }
  match s.tripping with
  | some (d, i) => if s.power.tripLatched then s else { s with power := { s.power with
      tripLatched := true, tripDomain := d, tripSensor := i, tripTime := s.time % 2 ^ 48 } }
  | none => s

/-- THERMAL_SAMPLE. -/
def execThermalSample (readings : List Sense) (s : State) : Out :=
  if !(Instr.thermalSample readings).wf then .refused .illFormed
  else if !s.powered then .next s
  else if !s.boot.on then .next (s.sampleIdle readings)
  else if !s.onPhase 1000000 0 then .next s
  else
    let s1 := (upTo 23).foldl (fun t d => t.sampleDomain readings d) s
    let s2 := forEach (upTo 4) (fun t b => s.sampleRise t b) s1
    let s3 := ((forEach (upTo 4) (fun t b => t.picCause b) s2).updateWindow).sampleLevels
    let s3 := forEach (upTo 8) (fun t l => t.retune l false) s3
    let hot := (upTo 23).any fun d => decide ((domainOf d).throttle ≤ (s3.domainTemp d).1)
    let cool := (upTo 23).all fun d => decide ((s3.domainTemp d).1 + 768 ≤ (domainOf d).throttle)
    let was := s3.power.throttling
    let s4 : State := s.alertEdge { s3 with power := { s3.power with throttling := hot, cool := cool } }
    let s5 : State := if hot && !was then s4.throttleStep
      else if cool && !s.power.cool then { s4 with power := { s4.power with stepDue := s4.time + 50000000 } } else s4
    match s5.tripping with
    | some (d, i) => .next (s5.trip d i)
    | none => .next s5

/-- TELEMETRY_SAMPLE: package power, L and EVT_AVAIL as management reads them are sampled (R14, R427). -/
def execTelemetrySample (s : State) : Out :=
  if !s.powered || (s.boot.on && !s.onPhase 100000000 0) then .next s
  else .next { s with mgmt := { s.mgmt with telemetry := [s.power.avg, s.power.limit, s.fld .evtAvailUs] } }

/-! ## Clocks (R386 to R388) -/

/-- REFERENCE_LOST: where the detector is armed, the device stops as R385 does and asserts FAULT_N; only a cold reset
restarts it. -/
def execReferenceLost (s : State) : Out :=
  if !s.pins.refArmed then .next s
  else
    let s := s.stopDevice
    .next { s with power := { s.power with refOk := false }, boot := { s.boot with faultN := true, halt := 3 },
                   pins := { s.pins with refArmed := false } }

/-- REF_MEASURE: the offset from the CXL reference clock, in 1/1,024 ppm. -/
def execRefMeasure (offset : BitVec 32) (s : State) : Out :=
  if !s.boot.on then .next s
  else .next ((s.setFld .clkRefOffset 0 offset.toNat).setFld .clkRefValid 0 1)

/-- The bay of a symbol or readout island, whose loss is a readout fault (R388). -/
def readoutBay : Island → Option Nat
  | .bay b .symbol | .bay b .readout => some b
  | _ => none

/-- UNIT of an event about an island: its bay, or the device. -/
def islandUnit : Island → UnitKind × Nat
  | .bay b _ => (.bay, b)
  | .hub _ => (.device, 0)

/-- PLL_LOSS_OF_LOCK. -/
def execPllLossOfLock (i : Island) (s : State) : Out :=
  if !s.boot.on || s.power.unlocked.contains i then .next s
  else
    let s : State := { s with power := { s.power with unlocked := s.power.unlocked ++ [i] } }
    let s := (s.event .clkUnlock (islandUnit i).1 (islandUnit i).2 noCtx []).bump .clkStatusUnlocks
    match readoutBay i with
    | none => .next s
    | some b => .next (forEach [2 * b, 2 * b + 1] (fun s l => s.raiseReadout l [512] (s.time - 1000)) s)

/-- PLL_RELOCKED: handshakes resume, and a self-test that waited for the lock starts (R44). -/
def execPllRelocked (i : Island) (s : State) : Out :=
  if !s.power.unlocked.contains i then .next s
  else
    let s : State := { s with power := { s.power with unlocked := s.power.unlocked.filter (· != i) } }
    match readoutBay i with
    | none => .next s
    | some b => .next (forEach [2 * b, 2 * b + 1] (fun s l => s.startSelfTests l) s)

/-! ## The VDD_CORE regulator (R454) -/

/-- A millisecond has passed since the last voltage write (R454). -/
def State.avsReady (s : State) : Bool := s.power.avsAt.all fun t => decide (t + 1000000 ≤ s.time)

/-- AVS_VOLTAGE_WRITE, once the configuration is applied: 0.68 V to 0.82 V, 5 mV units, at most 20 mV a write; no lower voltage while a write is
outstanding. A write not acknowledged waits for its repeat, at half clock. -/
def execAvsVoltageWrite (mv : Nat) (ack : Bool) (s : State) : Out :=
  let now := s.power.avsMv
  if !s.boot.on || !s.avsReady || s.boot.stage < 3 || s.boot.stage = 15 || mv < 680 || 820 < mv || mv % 5 ≠ 0 || now + 20 < mv || mv + 20 < now ||
      (s.power.avsWant.isSome && decide (mv < now)) then .next s
  else if ack then .next { s with power := { s.power with avsMv := mv, avsWant := none, avsAt := some s.time } }
  else .next { s with power := { s.power with avsWant := some mv, avsAt := some s.time } }

/-- AVS_WRITE_RETRY: a write that was not acknowledged is repeated every 1 ms. -/
def execAvsWriteRetry (ack : Bool) (s : State) : Out :=
  match s.power.avsWant with
  | none => .next s
  | some mv =>
    if !s.boot.on || !s.avsReady then .next s
    else .next { s with power := { s.power with
      avsMv := if ack then mv else s.power.avsMv, avsWant := if ack then none else some mv, avsAt := some s.time } }

end Sys2Proof.Machine
end

