-- ==== Sys2Proof/Machine/Security.lean ====
section
/-! DEFINITION. Nonces, tokens, the owner, attestation and the clearing of fences (R389 to R406, R417, R441). -/

namespace Sys2Proof.Machine

/-! ## Identity keys (R389) -/

/-- The identity key pairs are derived from the sealed seed. -/
def State.deriveKeys (s : State) : State :=
  let ml := Config.mlDsaKeyGen (hkdf Config.seed "KG2 ID ML-DSA-65")
  { s with sec := { s.sec with edKey := hkdf Config.seed "KG2 ID Ed25519", mlPublic := ml.1, mlKey := ml.2 } }

/-! ## The nonce (R399, R441) -/

/-- A nonce is drawn: 256 random bits. -/
def State.drawNonce (s : State) : State :=
  let w (k : Nat) : BitVec 64 := Config.random (s.free + k)
  { s with sec := { s.sec with nonce := some (w 3 ++ w 2 ++ w 1 ++ w 0), nonceAt := s.time } }.drawn 4

/-- NEW_NONCE. -/
def execNewNonce (p : Path) (s : State) : Out := if s.served p then .next s.drawNonce else .next s

/-- 10 minutes have passed since the nonce was drawn (R399). -/
def State.nonceOld (s : State) : Bool := decide (s.sec.nonceAt + 600000000000 ≤ s.time)

/-- NONCE_EXPIRY: 10 minutes after it was drawn the nonce is invalid. -/
def execNonceExpiry (s : State) : Out :=
  if s.nonceOld then .next { s with sec := { s.sec with nonce := none } } else .next s

/-- A read of SEC_NONCE0 on a path latches the other three there. -/
def State.latchNonce (s : State) (p : Path) : State :=
  { s with sec := { s.sec with latched := s.sec.latched.set (pathNum p) (s.sec.nonce.getD 0) } }

/-- NONCE_READ. -/
def execNonceRead (p : Path) (s : State) : Out :=
  if !s.served p then .next s
  else .next ((s.latchNonce p).answer (.value ((s.sec.nonce.getD 0).truncate 64)))

/-! ## The end of a token (R401) -/

/-- A debug token ends: what DEBUG and FAULT_INJ had enabled is switched off, and TOKEN_END is appended. -/
def State.endToken (s : State) : State :=
  if s.sec.token.isNone then s
  else
    let s : State := { s with sec := { s.sec with token := none } }
    let s := forEach (upTo 8) (fun s l => (s.setFld .rowCtrlSrFixed l 0).setFld .calCtrlUseFactory l 0) s
    let s := forEach (upTo 4) (fun s b => s.setFld .monTestCont b 0) s
    ((s.setFld .cxlInjCtrlMode 0 0).setFld .fltHnxCtrlMode 0 0).journal .tokenEnd []

/-- TOKEN_END: a write of 1 to SEC_TOKEN_CTRL.END. -/
def execTokenEnd (p : Path) (s : State) : Out := if s.served p then .next s.endToken else .next s

/-- TOKEN_EXPIRY, at the device time at which the token expires. -/
def execTokenExpiry (s : State) : Out :=
  if s.sec.token.any fun t => decide (t.expiry ≤ s.time) then .next s.endToken else .next s

/-! ## Tokens (R398, R400) -/

/-- A number in the token buffer. -/
def State.tokenNat (s : State) (o n : Nat) : Nat := leNat (memBytes s.sec.buf o n)

/-- KIND of the submitted token. -/
def State.tokenKind (s : State) : Nat := s.tokenNat 7 1

/-- Format and reserved fields of the token in the buffer (R398). -/
def State.tokenFormat (s : State) : Bool :=
  let k := s.tokenKind
  let dur := s.tokenNat 80 4
  s.tokenNat 0 4 == 0x4B475431 && s.tokenNat 4 2 == 1 && decide (s.tokenNat 6 1 ≤ 1) && decide (k ≤ 2) &&
  (k != 0 || s.tokenNat 8 8 / 4 == 0) && (if k = 0 then decide (60 ≤ dur) && decide (dur ≤ 86400) else dur == 0) &&
  s.tokenNat 84 4 == (if k = 1 then 1984 else 0) && s.tokenNat 88 40 == 0

/-- An owner is enrolled whose keys are known (R396). -/
def State.ownerKnown (s : State) : Bool := s.ownerEnrolled && s.flash.owner.isSome

/-- Whether R391 and R396 allow the key class for the token's kind. A release while no owner is enrolled is refused here
(log entry 68). -/
def State.tokenClass (s : State) : Bool :=
  let c := s.tokenNat 6 1
  match s.tokenKind with
  | 0 => if s.ownerEnrolled then c == 1 else c == 0
  | 1 => c == 1 && !s.ownerEnrolled && decide (s.sec.ownFuses < 32)
  | _ => s.ownerEnrolled

/-- The first failing check of R400, 0 for none. A class 1 token needs keys that are known, its own where it enrols. -/
def State.checkToken (s : State) (sig : Verdict) (digestOk : Bool) : Nat :=
  if !s.tokenFormat then 1
  else if !digestOk then 2
  else if s.nonceOld || s.sec.nonce.all fun n => n.toNat != s.tokenNat 48 32 then 3
  else if !s.tokenClass then 4
  else if !(sig.ed && sig.ml) || (s.tokenNat 6 1 == 1 && s.tokenKind != 1 && !s.ownerKnown) then 5
  else 0

/-- A refused token: its code, the counts, and a SIG_FAIL record where a signature failed (R392). -/
def State.refuseToken (s : State) (code : Nat) (sig : Verdict) : State :=
  let s : State := { s with sec := { s.sec with tokenResult := code } }.bump .secFailCntToken
  let fails := boolNat (!sig.ed) + 2 * boolNat (!sig.ml)
  if code = 5 then s.sigFail (if s.tokenKind = 0 then 3 else if s.tokenKind = 2 then 4 else 5) (if fails = 0 then 3 else fails)
  else s

/-- An accepted debug token (R400): it replaces any active one. -/
def State.acceptDebug (s : State) : State :=
  { s with sec := { s.sec with
      token := some { perms := BitVec.ofNat 64 (s.tokenNat 8 8), expiry := s.time + s.tokenNat 80 4 * 1000000000 } } }

/-- An accepted enrolment or release (R396): a fuse, the owner record with the keys of the payload, the journal, the verified
bundles. -/
def State.acceptOwner (s : State) (enrol : Bool) : State :=
  let s : State := { s with sec := { s.sec with ownFuses := s.sec.ownFuses + 1 },
                            flash := { s.flash with owner := if enrol then some (memBytes s.sec.buf 128 1984) else none } }
  let s := s.journal (if enrol then .ownerEnrol else .ownerRelease) [s.sec.ownFuses]
  { s with sec := { s.sec with verified := [] } }

/-- The token in the buffer is submitted (R398, R400): of a kind out of range, any row's command answers. -/
def State.submitToken (s : State) (kind : Nat) (sig : Verdict) (digestOk : Bool) : State :=
  if !s.boot.on || (s.tokenKind ≠ kind && decide (s.tokenKind ≤ 2)) then s
  else match s.checkToken sig digestOk with
  | 0 =>
    let s : State := { s with sec := { s.sec with tokenResult := 0, nonce := none } }
    let s := s.journal .tokenAccept [kind, s.tokenNat 8 8, s.tokenNat 80 4]
    if kind = 0 then s.acceptDebug else s.acceptOwner (kind == 1)
  | code => s.refuseToken code sig

/-- TOKEN_DEBUG. -/
def execTokenDebug (p : Path) (sig : Verdict) (digestOk : Bool) (s : State) : Out :=
  if s.served p then .next (s.submitToken 0 sig digestOk) else .next s

/-- OWNER_ENROL. -/
def execOwnerEnrol (p : Path) (sig : Verdict) (digestOk : Bool) (s : State) : Out :=
  if s.served p then .next (s.submitToken 1 sig digestOk) else .next s

/-- OWNER_RELEASE. -/
def execOwnerRelease (p : Path) (sig : Verdict) (digestOk : Bool) (s : State) : Out :=
  if s.served p then .next (s.submitToken 2 sig digestOk) else .next s

/-! ## Clearing a fence (R417) -/

/-- The fence of a lattice is cleared: DARK, journalled and logged, the counts of R48 from zero, and the target
followed. -/
def State.clearFence (s : State) (l : Nat) : State :=
  if (s.lat l).state ≠ .fenced then s
  else
    let s := (s.enterLat l .dark 0 (s.lat l).cause).journal .fenceClear [l, s.time]
    let s := s.event .evtFenceClear .lattice l noCtx []
    let s := s.modLat l fun x => { x with suspectEntries := [], selfFails := [], fencePending := 0 }
    let s := if s.latTarget l = .serving then s.startOutage l else s
    s.retarget l 1

/-- A write of MGT_FENCE_CTRL.CLEAR: from the host only under a debug token. -/
def State.writeFenceClear (s : State) (p : Path) (v : Nat) : State :=
  if isHost p && !s.tokenPerm 0 then s.refuse p (Reg.mgtFenceCtrl.addr 0) v
  else forEach ((upTo 8).filter (bitOf v ·)) (fun s l => s.clearFence l) s

/-- FENCE_CLEAR. -/
def execFenceClear (p : Path) (v : BitVec 8) (s : State) : Out :=
  if !s.served p then .next s else .next (s.writeFenceClear p v.toNat)

/-! ## Attestation (R403 to R405) -/

/-- Index of an SPDM connection. -/
def connNum : Conn → Nat
  | .doe => 0
  | .i3c => 1
  | .vdm => 2

def State.spdm (s : State) (c : Conn) : Spdm := s.mgmt.spdm.getD (connNum c) Spdm.reset
def State.setSpdm (s : State) (c : Conn) (x : Spdm) : State :=
  { s with mgmt := { s.mgmt with spdm := s.mgmt.spdm.set (connNum c) x } }

/-- SPDM error codes of DSP0274 (PRESUMED, log entry 69). -/
def spdmInvalid : Nat := 0x01
def spdmBusy : Nat := 0x03
def spdmUnexpected : Nat := 0x04
def spdmLarge : Nat := 0x0F

/-- A request on a connection: no answer where the connection does not reach the device; Busy between steps 3 and 5 of a
warm restart (R403); UnexpectedRequest where `ok` fails; else `f`. Every request but CHUNK_GET ends the place of
COUNTERSIGN. -/
def State.spdmRun (s : State) (c : Conn) (ok : Spdm → Bool) (f : State → Spdm → State) : State :=
  if !s.boot.on || (c != .i3c && s.cxl.state != .l0) then s
  else if s.boot.mgmtDown then s.answer (.error spdmBusy)
  else
    let x := s.spdm c
    let x' := { x with signed := false }
    if !ok x then (s.setSpdm c x').answer (.error spdmUnexpected) else f s x'

/-- A response whose content the SPDM specification defines: free bytes. -/
def State.attestReply (s : State) (kind : Nat) : State :=
  (s.answer (.data (Config.attest kind s.free) false)).drawn 1

/-- A response with an Ed25519 signature by the device key behind. -/
def State.signedReply (s : State) (d : List Byte) : State :=
  (s.answer (.data (d ++ Config.edSign s.sec.edKey s.free) false)).drawn 1

/-- GET_VERSION: the connection starts again. -/
def execGetVersion (c : Conn) (s : State) : Out :=
  .next (s.spdmRun c (fun _ => true) fun s _ => (s.setSpdm c { Spdm.reset with versionGot := true }).attestReply 0)

/-- GET_CAPABILITIES: CERT_CAP, CHAL_CAP, MEAS_CAP with signature, MEAS_FRESH_CAP, CHUNK_CAP. -/
def execGetCapabilities (c : Conn) (s : State) : Out :=
  .next (s.spdmRun c (·.versionGot) fun s x => (s.setSpdm c { x with capsGot := true }).attestReply 1)

/-- NEGOTIATE_ALGORITHMS: Ed25519 and SHA-384, where the requester offers both. -/
def execNegotiateAlgorithms (c : Conn) (ed25519 sha384 : Bool) (s : State) : Out :=
  .next (s.spdmRun c (·.capsGot) fun s x =>
    if ed25519 && sha384 then (s.setSpdm c { x with negotiated := true }).attestReply 2
    else (s.setSpdm c x).answer (.error spdmInvalid))

/-- GET_DIGESTS: the digest of slot 0. -/
def execGetDigests (c : Conn) (s : State) : Out :=
  .next (s.spdmRun c (·.negotiated) fun s x => (s.setSpdm c x).answer (.data (Config.attest 3 0) false))

/-- GET_CERTIFICATE: part of the Ed25519 chain of slot 0. -/
def execGetCertificate (c : Conn) (slot off len : Nat) (s : State) : Out :=
  .next (s.spdmRun c (·.negotiated) fun s x =>
    (s.setSpdm c x).answer (if slot = 0 then .data (((Config.attest 4 0).drop off).take len) false else .error spdmInvalid))

/-- CHALLENGE: a signed CHALLENGE_AUTH over slot 0. -/
def execChallenge (c : Conn) (slot : Nat) (_nonce : BitVec 256) (s : State) : Out :=
  .next (s.spdmRun c (·.negotiated) fun s x =>
    if slot = 0 then (s.setSpdm c { x with signed := true }).signedReply (Config.attest 5 s.free)
    else (s.setSpdm c x).answer (.error spdmInvalid))

/-- Measurement block 5 (R404): 16 raw bytes. The flags share byte 11 (DEDUCED, log entry 70). -/
def State.block5 (s : State) : List Byte :=
  let t := s.sec.token
  leBytes 1 s.sec.svn ++ leBytes 1 s.sec.ownFuses ++ leBytes 1 (boolNat t.isSome) ++
  leBytes 8 ((t.map fun t => t.perms.toNat).getD 0) ++
  leBytes 1 (boolNat s.boot.fwFallback + 2 * boolNat s.boot.cfgFallback) ++ leBytes 4 0

/-- The firmware of a slot. -/
def State.fwOf (s : State) (k : Nat) : Option FwImage := if k = 0 then s.flash.fwA else s.flash.fwB

/-- The configuration of a slot. -/
def State.cfgOf (s : State) (k : Nat) : Option CfgImage := if k = 0 then s.flash.cfgA else s.flash.cfgB

/-- Measurement blocks 1 to 4 (R404): digests, of the boot ROM and the firmware manifest free ones, of the firmware and the
configuration image in use those their manifests and prefixes state. -/
def State.digestBlock (s : State) (k : Nat) : List Byte :=
  if k = 0 then Config.attest 10 0
  else if k = 1 then Config.attest 11 s.boot.fwVersion.toNat
  else if k = 2 then ((s.fwOf s.boot.fwSlot).map (·.digest)).getD []
  else ((s.cfgOf s.boot.cfgSlot).map (·.digest)).getD []

/-- GET_MEASUREMENTS: the number of blocks (index 0), one block, or all of them (0xFF); a signed response carries the
signature behind. -/
def execGetMeasurements (c : Conn) (index : Nat) (signed : Bool) (_nonce : BitVec 256) (s : State) : Out :=
  .next (s.spdmRun c (·.negotiated) fun s x =>
    let digests := (upTo 4).map s.digestBlock
    let body : Option (List Byte) := if index = 0 then some [5]
      else if index ≤ 4 then digests[index - 1]?
      else if index = 5 then some s.block5
      else if index = 0xFF then some (digests.flatten ++ s.block5) else none
    match body with
    | none => (s.setSpdm c x).answer (.error spdmInvalid)
    | some d =>
      let s := s.setSpdm c { x with signed := signed }
      if signed then s.signedReply d else s.answer (.data d false))

/-- GET_PQ_CHAIN: part of the ML-DSA-65 chain. -/
def execGetPqChain (c : Conn) (off : BitVec 32) (len : BitVec 16) (s : State) : Out :=
  .next (s.spdmRun c (·.negotiated) fun s x =>
    (s.setSpdm c x).answer (.data (((Config.attest 7 0).drop off.toNat).take len.toNat) false))

/-- COUNTERSIGN: only as the next request after a signed response of the connection; its response is fetched by
CHUNK_GET. -/
def execCountersign (c : Conn) (s : State) : Out :=
  .next (s.spdmRun c (·.signed) fun s x =>
    ((s.setSpdm c { x with large := Config.mlSign s.sec.mlKey s.free, chunk := 0 }).answer (.error spdmLarge)).drawn 1)

/-- CHUNK_GET: the next chunk of a large response. -/
def execChunkGet (c : Conn) (seq : Nat) (s : State) : Out :=
  let signed := (s.spdm c).signed
  .next (s.spdmRun c (fun x => !x.large.isEmpty) fun s x =>
    let n := Config.chunkSize.val + 1
    if seq ≠ x.chunk then (s.setSpdm c { x with signed := signed }).answer (.error spdmInvalid)
    else
      let rest := x.large.drop n
      (s.setSpdm c { x with signed := signed, large := rest, chunk := if rest.isEmpty then 0 else seq + 1 }).answer
        (.data (x.large.take n) false))

end Sys2Proof.Machine
end

