-- ==== Sys2Proof/Machine/Start.lean ====
section
/-! DEFINITION. Starts: power and reset pins, the cold start and its halts, the warm restart, internal errors (R7, R15,
R143, R248, R249, R343 to R353, R384 to R388, R394 to R397, R411 to R414, R458). A sequence's later parts happen one at a
time, when nothing is commanded, and at the latest with an event that only they can lead to (log entry 71). -/

namespace Sys2Proof.Machine

/-! ## Firmware (R349, R352, R394, R395) -/

/-- Why an image cannot be used, in NVM_START.CAUSE encoding; 0 for none. -/
def fwCause (f : Nat) : Option FwImage → Nat
  | none => 1
  | some i =>
    if !i.fieldsOk || !i.verdict.ed || !i.verdict.ml then 1
    else if !i.verdict.digest then 2 else if i.svn < f then 3 else 0

/-- The signatures that failed: bit 0 Ed25519, bit 1 ML-DSA-65. -/
def Verdict.fails (v : Verdict) : Nat := boolNat (!v.ed) + 2 * boolNat (!v.ml)

/-- A verified object is refused where a signature fails (R392). -/
def State.noteSig (s : State) (kind fails : Nat) : State := if fails = 0 then s else s.sigFail kind fails

/-- The slot the latest FW_ACTIVATE record names, A when there is none. -/
def State.namedFw (s : State) : Nat := ((findForce s.jnl.appended fun r => r.kind == .fwActivate).map fun r => r.payload.headD 0).getD 0

/-- The firmware of a slot runs. -/
def State.runFirmware (s : State) (k : Nat) (fallback : Bool) : State :=
  { s with boot := { s.boot with fwSlot := k, fwFallback := fallback,
                                 fwVersion := ((s.fwOf k).map (·.version)).getD 0 } }

/-- The named image is verified, then the other (R394); the cause of the named one where neither can be used. -/
def State.bootFirmware (s : State) : State × Nat :=
  let n := s.namedFw
  let try_ (s : State) (k : Nat) : State × Nat :=
    (s.noteSig 0 ((s.fwOf k).map (fun i => Verdict.fails i.verdict) |>.getD 0), fwCause s.sec.svn (s.fwOf k))
  let (s, c) := try_ s n
  if c = 0 then ((s.runFirmware n false), 0)
  else
    let (s, c') := try_ s (1 - n)
    if c' = 0 then (s.runFirmware (1 - n) true, 0) else (s, c)

/-! ## The configuration (R345 to R347) -/

/-- A range lies in private cellar of one stack (R180). -/
def inPrivate (hostGiB a n : Nat) : Bool :=
  let o := a % (96 * gib)
  decide (a < 384 * gib) && decide (hostGiB / 4 * gib ≤ o) && decide (o + n ≤ 95 * gib)

/-- A range lies in cellar that is not reserved. -/
def inUsable (a n : Nat) : Bool := decide (a < 384 * gib) && decide (a % (96 * gib) + n ≤ 95 * gib)

/-- A portal record's fields are in range (R345, R346). -/
def Portal.ok (x : Portal) : Bool :=
  x.base % 64 == 0 && decide (1 ≤ x.entries) && decide (x.entries ≤ 4096) && decide (x.first + x.entries ≤ 4096) &&
  inUsable x.base (64 * x.entries) && decide (x.priority ≤ 7) && decide (1 ≤ x.threads) && decide (x.threads ≤ 32) &&
  decide (1 ≤ x.xfer) && decide (x.xfer ≤ 4096) && decide (1 ≤ x.share) && decide (x.share ≤ 255) &&
  decide (x.powerFloor ≤ 255) && x.regions.all fun r => r.1 % (2 * mib) == 0 && r.2 % (2 * mib) == 0

/-- The context ranges of two portals do not overlap. -/
def Portal.apart (x y : Portal) : Bool := decide (x.first + x.entries ≤ y.first) || decide (y.first + y.entries ≤ x.first)

/-- A list whose elements are pairwise as `p` asks. -/
def pairwise {α : Type} (p : α → α → Bool) : List α → Bool
  | [] => true
  | x :: r => r.all (p x) && pairwise p r

/-- A fabric window is 2 MiB aligned and not in reserved cellar (R190, R346). -/
def FabWindow.ok (w : FabWindow) : Bool :=
  !w.declared || (w.base % (2 * mib) == 0 && w.size % (2 * mib) == 0 &&
    (match targetOf w.base, targetOf (w.base + w.size - 1) with
      | .cellar _, _ => inUsable w.base w.size
      | .pantry a, .pantry b => a == b
      | .landing, .landing => true
      | _, _ => false))

/-- The first section that fails the check of R346, by its type. -/
def checkConfig (c : Configuration) : Option Nat :=
  if !(decide (c.device < 2 ^ 15) && decide (300 ≤ c.powerLimit) && decide (c.powerLimit ≤ 1000) && c.powerLimit % 25 == 0)
  then some 1
  else if !(decide (c.hostMemGiB ≤ 256) && c.hostMemGiB % 4 == 0 && decide (64 ≤ c.storeMiB) && decide (c.storeMiB ≤ 1024) &&
      inPrivate c.hostMemGiB c.ctxBase mib && inPrivate c.hostMemGiB c.storeBase (c.storeMiB * mib) &&
      inPrivate c.hostMemGiB c.atticBase (c.atticPages * 2 * mib) && c.feWords.all fun n => decide (n ≤ 131072))
  then some 2
  else if !(decide (c.portals.length ≤ 256) && c.portals.all Portal.ok && pairwise Portal.apart c.portals) then some 3
  else if !(decide (c.windows.length ≤ 16) && c.windows.all FabWindow.ok && decide (c.profiles.length ≤ 4) &&
      decide (c.profile < max 1 c.profiles.length))
  then some 4
  else if !(decide (c.keys.length ≤ 16) && c.keys.all fun k => k.id != 0 && k.ed.length == 32 && k.ml.length == 1952) then some 6
  else if !(decide (100 ≤ c.holdTimeoutUs) && decide (c.holdTimeoutUs ≤ 100000) && decide (10 ≤ c.mcStallUs) &&
      decide (c.mcStallUs ≤ 10000))
  then some 7
  else none

/-- The key class of a configuration is accepted (R391, R396). -/
def State.cfgClass (s : State) (cls : Nat) : Bool := if s.ownerEnrolled then cls == 1 && s.flash.owner.isSome else cls == 0

/-- Why a configuration cannot be used: cause 4 or 5 and the section (NVM_START). -/
def State.cfgCause (s : State) : Option CfgImage → Nat × Nat
  | none => (4, 0)
  | some i =>
    if !i.prefixOk || !s.cfgClass i.keyClass || !i.verdict.ed || !i.verdict.ml then (4, 0)
    else if !i.verdict.digest then (4, i.badSection)
    else if !i.reservedOk then (5, i.badSection)
    else match checkConfig i.content with
      | some k => (5, k)
      | none => (0, 0)

/-- The slot the latest CONFIG_COMMIT record names, A when there is none. -/
def State.namedCfg (s : State) : Nat := ((findForce s.jnl.appended fun r => r.kind == .configCommit).map fun r => r.payload.headD 0).getD 0

/-- The configuration to use: the named slot's, else the other's (R347); what halts the start where neither passes. -/
def State.readConfig (s : State) : State × Except (Nat × Nat) CfgImage :=
  let n := s.namedCfg
  let sig (s : State) (k : Nat) : State := s.noteSig 1 ((s.cfgOf k).map (fun i => Verdict.fails i.verdict) |>.getD 0)
  let use (s : State) (k : Nat) (fb : Bool) : State := { s with boot := { s.boot with cfgSlot := k, cfgFallback := fb } }
  let s := sig s n
  match s.cfgCause (s.cfgOf n), s.cfgOf n with
  | (0, _), some i => (use s n false, .ok i)
  | (c, d), _ =>
    let s := sig s (1 - n)
    match s.cfgCause (s.cfgOf (1 - n)), s.cfgOf (1 - n) with
    | (0, _), some i => (use s (1 - n) true, .ok i)
    | _, _ => (s, .error (c, d))

/-- The configuration is applied (R347, R402, R438): its W fields take their values, then the lock is set. A limit below L
lowers L (R374); a changed profile retrains the ports it moves. -/
def State.applyConfig (s : State) (i : CfgImage) : State :=
  let c := i.content
  let warm := s.boot.kind == 2 && s.boot.halt != 1
  let old := ((s.cfg.profiles[s.hnx.profile]?).map (·.fibre)).getD []
  let same := warm && s.cfg.profiles[s.hnx.profile]? == c.profiles[c.profile]? && s.hnx.profile == c.profile
  let s0 := s
  let s : State := { s with cfg := c, cfgSeq := i.seq, sec := { s.sec with locked := true } }
  let s := forEach (upTo 8) (fun s l => s.setFld .latCtrlEn l (boolNat (c.latEn.getD l false))) s
  let s := s.setFld .pwrLimitSet 0 c.powerLimit
  let s : State := { s with power := { s.power with limit := if warm then min s.power.limit c.powerLimit else c.powerLimit } }
  let s := (s.setFld .wchHoldCtrlTimeoutUs 0 c.holdTimeoutUs).setFld .hnxMcCtrlStallUs 0 c.mcStallUs
  let s := State.alertEdge s0 (s.setFld .hnxPmapCtrlProfile 0 c.profile)
  let s := forEach (upTo 8) (fun s p => s.enablePort p (c.portEn.getD p false)) s
  if same then s
  else
    let new := ((c.profiles[c.profile]?).map (·.fibre)).getD []
    let s := if warm then forEach ((upTo 8).filter fun p => new.getD p p != old.getD p p) (fun s p =>
        let st := (s.port p).state
        if st = .disabled || st = .dark then s else s.trainPort p) s
      else s
    s.useProfile c.profile

/-! ## Work that stops -/

/-- A thread of a context that ran takes its restart record (R142, R143); its steps, waits and reservations are gone. -/
def State.stopThread (s : State) (t : Nat) : State :=
  let th := s.thread t
  match (s.ctx th.ctx).restart th.idx with
  | none => s.idleThread t
  | some r =>
    (s.dropSteps t none).setThread t { Thread.reset with
      st := .waiting, ctx := th.ctx, idx := th.idx, pc := r.step, pred := r.pred, ctr := r.ctr, consumed := r.consumed }

/-- Every context's threads stop; tagged operations and reservations are dropped, their words staying as they are
(R143, R183). -/
def State.stopWork (s : State) : State :=
  let s : State := { s with feOps := [], feOwner := [] }
  forEach (upTo 512) (fun s t => if (s.thread t).st = .idle then s else s.stopThread t) s

/-- Stream buffers, larders, flushes, slots of work and power handshakes of the bays start afresh (R173, R353). -/
def State.resetBays (s : State) : State :=
  { s with bays := s.bays.filterMap fun e =>
      let y := { e.2 with
        power := match e.2.trans with
          | some t => if t.committed then t.target else e.2.power
          | none => e.2.power
        trans := none, pendReq := none, larder := [], fills := [], flushing := false, streams := [], cache := [], xlats := [],
        upset := false, lastIssue := 127, contOf := 0, held := [] }
      if y = Bay.reset then none else some (e.1, y) }

/-! ## Halts (R350, R413, R414) -/

/-- A lattice of a halted device is DARK, its rings off; a FENCED one stays so (log entry 72). -/
def State.darkLattice (s : State) (l : Nat) : State :=
  if (s.lat l).state = .fenced then s
  else
    let s := if (s.lat l).state = .dark then s else s.enterLat l .dark 0 13
    let s := s.modLat l fun x => { Lattice.reset with
      state := x.state, cause := x.cause, entryTime := x.entryTime, why := x.why, dem := x.dem, folds := x.folds,
      tables := x.tables, swept := x.swept, randoms := x.randoms }
    (s.clearRings l).zeroHeaters l true

/-- The device halts: CRS ends with Mem_Capable 0 and BAR2 disabled, lattices and ports are dark, management runs. `halt`
is MGT_STATUS.HALT. -/
def State.haltDevice (s : State) (halt cause detail : Nat) : State :=
  let s : State := { s with boot := { s.boot with phase := 0, restarting := false, mgmtDown := false, reread := false } }
  let s := s.stopWork.resetBays
  let s := forEach (upTo 8) (fun s l => s.darkLattice l) s
  let s := forEach (upTo 10) (fun s h =>
    ((s.setCombSt h .off).modComb h fun x => { x with spacing := false, lowPower := false }).setBias h 0) s
  let s := forEach (upTo 8) (fun s p => if (s.port p).state = .disabled || (s.port p).state = .dark then s else s.portDown p .dark) s
  let was := s.boot.halt
  let s : State := { s with
    cxl := { s.cxl with crs := false, memCapable := false, memActive := false },
    boot := { s.boot with halt := halt, cause := cause, detail := detail, faultN := true } }
  let s := (s.setStage 15).setAlert 6
  if was = 0 then s.markChg 8 else s

/-- A start halts (R350). -/
def State.haltStart (s : State) (cause detail : Nat) : State := s.haltDevice 1 cause detail

/-- An internal error halts the device (R413); only a cold reset leaves this halt. -/
def State.haltInternal (s : State) : State :=
  let s := s.event .evtHalt .device 0 noCtx []
  let s := s.haltDevice 2 0 0
  { s with boot := { s.boot with afterHalt := true } }

/-! ## Cold start (R349) -/

/-- Every cold reset value, and what no reset clears: flash, journal, fuses, the trip latch, CLKSEL, the regulator, the
host's memory (R7, R15, R382, R395). -/
def State.coldReset (s : State) : State :=
  { State.reset with
    pending := s.pending, free := s.free, reply := s.reply, hostMem := s.hostMem, jnl := s.jnl,
    pins := { s.pins with deferred := false, refArmed := true, xspiReset := false },
    boot := { State.reset.boot with on := true, kind := 1, phase := 1, coldUs := s.boot.coldUs, afterHalt := s.boot.afterHalt },
    flash := { s.flash with calBusy := false, calTime := 0 },
    sec := { Security.reset with svn := s.sec.svn, ownFuses := s.sec.ownFuses },
    power := { Power.reset with
      tripLatched := s.power.tripLatched, tripDomain := s.power.tripDomain, tripSensor := s.power.tripSensor,
      tripTime := s.power.tripTime, clkExt := s.power.clkExt, avsMv := s.power.avsMv, avsAt := none } }

/-- The deassertion takes effect: device time 0, the identity keys are derived, the ROM starts and the link trains. -/
def State.coldStart (s : State) : State :=
  let s := s.coldReset.deriveKeys
  { s with cxl := { s.cxl with state := .training } }

/-- Steps 2 and 3: the flash is checked, the journal read and the firmware verified. -/
def State.coldFirmware (s : State) : State :=
  let s := s.replayJournal
  if !s.flash.answers then s.haltStart 7 0
  else if s.flash.mib < 512 then s.haltStart 8 0
  else
    let (s, c) := s.bootFirmware
    if c ≠ 0 then s.haltStart c 0
    else { s.setStage 1 with boot := { (s.setStage 1).boot with phase := 2 } }.drawNonce

/-- The lattices the journal shows FENCED are (R43). -/
def State.replayFences (s : State) : State :=
  forEach (inForce s.jnl.appended) (fun s r =>
    let l := r.payload.headD 0
    if r.kind = .fence && l < 8 && (s.lat l).state = .dark then s.enterLat l .fenced 0 (r.payload.getD 1 12) else s) s

/-- Each honeycomb starts with the bias last recorded, or its factory value (R288). -/
def State.replayBias (s : State) : State :=
  let st := (inForce s.jnl.appended).filter fun r => r.kind == .laserBias
  let s := forEach (upTo 10) (fun s h => s.modComb h fun x => { x with held := Config.factoryBias h }) s
  forEach st (fun s r => s.modComb (r.payload.headD 0) fun x => { x with held := r.payload.getD 1 0 }) s

/-- What the journal holds is in force: fences, laser bias, the calibration copy (R291, R331, R355); a lattice takes the folds
of that copy where it has none. -/
def State.replayState (s : State) : State :=
  let st := inForce s.jnl.appended
  let s := s.replayFences.replayBias
  let copy := ((st.find? fun r => r.kind == .calCopy).map fun r => r.payload.headD 0).getD 0
  let s : State := if copy = s.flash.calCopy then s else
    { s with flash := { s.flash with calCopy := copy, calFolds := s.flash.calOther, calOther := s.flash.calFolds } }
  forEach (upTo 8) (fun s l => s.modLat l fun x =>
    { x with folds := if x.folds.isEmpty then s.flash.calFolds.getD l [] else x.folds }) s

/-- Step 4: what the journal holds is in force. -/
def State.coldJournal (s : State) : State :=
  let s := s.replayState.setStage 2
  { s with boot := { s.boot with phase := 3 } }

/-- The host port ends CRS and the cellar is in service (R248); with no exposed part Mem_Capable is 0 (R242). -/
def State.openPort (s : State) : State :=
  { s with cxl := { s.cxl with crs := false, memCapable := s.cfg.hostMemGiB != 0, memActive := true } }

/-- Lattices follow their targets, honeycombs 8 and 9 start where they are off. -/
def State.startOptics (s : State) : State :=
  let s := s.setStage 4
  let s := forEach (upTo 8) (fun s l => s.retarget l 1) s
  forEach [8, 9] (fun s h => if (s.comb h).state = .off then s.startComb h else s) s

/-- Steps 5 to 7: the configuration is read and applied, CRS ends, lattices and honeycombs start; the cellar holds zeros
and is active. -/
def State.coldConfig (s : State) : State :=
  let (s, r) := s.readConfig
  match r with
  | .error (c, d) => s.haltStart c d
  | .ok i =>
    let s := (s.applyConfig i).setStage 3
    let s : State := { s with boot := { s.boot with phase := 0 } }
    s.openPort.startOptics.finishStart

/-! ## Warm restart (R143, R249, R351 to R353) -/

/-- Step 2 for one lattice (R43). -/
def State.lockLattice (s : State) (l : Nat) : State :=
  let x := s.lat l
  let serving := x.state == .serving || x.state == .suspect
  let go := serving || x.state == .locked || (x.state == .draining && x.toLocked && x.phase == 0)
  if !go then s
  else
    let s := s.loseHold l
    let s := s.modLat l fun x => { x with
      inflight := [], current := none, loading := none, orphan := none, shadow := none, roundLeft := 0, toLocked := true,
      sweepDebt := 0, probeDebt := 0, outageFrom := none }
    if x.fencePending ≠ 0 then s.drainLat l x.fencePending false
    else (s.enterLat l .locked 0 13).modLat l fun x => { x with leftServing := none, toLocked := false }

/-- Contexts take their states (R143): one that was DRAINING takes its DRAIN_TO state, attics are empty (R178), and the
portal's quotas are those of the configuration (R139). -/
def State.warmContexts (s : State) : State :=
  forEach (s.ctxs.map (·.1)) (fun s c =>
    let s := if (s.ctx c).st = .draining then s.ctxDrained c else s
    if (s.ctx c).st = .free then s
    else
      let s := s.modCtx c fun x => { x with deficit := [], stepExt := 0 }
      let s := forEach (s.ctx c).threads (fun s t =>
        if s.readsBad ((s.ctx c).ckpt + 32 * (s.thread t).idx) 32 then s.threadMemoryFault t else s.makeReady t) s
      let s := match s.cfg.portals[(s.ctx c).portal]? with
        | none => s
        | some po => s.modCtx c fun x => { x with
            priority := po.priority, qThreads := po.threads, qXfer := po.xfer, qShare := po.share,
            powerFloor := po.powerFloor, permPower := po.permPower, permSigned := po.permSigned,
            permFabric := po.permFabric }
      s.refreshCtx c) s

/-- A thread whose restart record shows PUT_PENDING issues that PUT again (R143, R218). -/
def State.reissuePut (s : State) (t : Nat) : State :=
  let th := s.thread t
  let x := s.ctx th.ctx
  match x.restart th.idx with
  | none => s
  | some r =>
    if th.st = .idle || !r.putPending then s
    else match (s.readVirt x (x.stepVa r.putStep) 32).map leNat with
      | .error _ => s
      | .ok w => match x.syncOf (sgSid w) with
        | some { sig := .put _ a, .. } =>
          let s := s.putWord t a (sgN w)
          if (s.thread t).putWait then s
          else s.modCtx th.ctx fun x => x.setRestart th.idx { r with putPending := false, putStep := 0 }
        | _ => s

/-- The restart is accepted: steps 1 and 2. Threads stop, lattices are LOCKED and start their checks, the nonce and the
token end, and what R353 resets is reset. -/
def State.warmRestart (s : State) : State :=
  let s := (forEach (upTo 8) (fun s l => s.endOutage l) s).abandonBinds
  let s := s.endToken
  let s : State := { s with
    boot := { s.boot with restarting := true, kind := 2, cause := 0, detail := 0, outageFrom := some s.time, phase := 4,
                          wantFwSave := false },
    sec := { s.sec with nonce := none, locked := false, buf := [], tokenResult := 0 },
    hnx := { s.hnx with src := [], dst := [], unopened := [], parked := [], late := [] }, traces := [], power := { s.power with half := false, eightAt := none },
    flash := { s.flash with calBusy := false } }
  let s := s.setStage 0
  let s := forEach (upTo 8) (fun s l => (s.loseHold l).setStale l false) s
  let s := s.stopWork
  let s := forEach (upTo 8) (fun s l => s.lockLattice l) s
  let s := s.resetBays.resetWarmFields
  forEach (upTo 8) (fun s l => s.follow l) s

/-- Step 3: the management controller restarts from the ROM; a staging in progress is abandoned (R348, R429). -/
def State.warmManagement (s : State) : State :=
  { s with boot := { s.boot with mgmtDown := true, phase := 5 },
           mgmt := { s.mgmt with update := .idle, agent := none, component := 0, staged := none, fwStaged := false,
                                 spdm := Mgmt.reset.spdm } }

/-- Step 4 and the start of step 5: the firmware is verified, and the configuration re-read begins (R249). A halt before
the journal was read leaves what it holds to be taken here. -/
def State.warmFirmware (s : State) : State :=
  let (s, c) := s.bootFirmware
  if c ≠ 0 then s.haltStart c 0
  else
    let s := if s.boot.halt = 1 then s.replayState else s
    let s := (s.setStage 1).deriveKeys.drawNonce
    { s with boot := { s.boot with reread := true, phase := 6 }, cxl := { s.cxl with crs := true } }

/-- Pages that move between the exposed and private parts of a stack (R182): from the lower of two sizes up to the
higher. -/
def State.zeroMoved (s : State) (old new : Nat) : State :=
  let lo := min old new / 4 * gib
  let n := (max old new - min old new) / 4 * gib
  forEach (upTo 4) (fun s b =>
    let a := b * (96 * gib) + lo
    { s with mem := memClear s.mem a n, poison := flagClear s.poison (a / 64) (n / 64) }) s

/-- HOST_MEM is about to change (R249): Memory_Active is cleared, every filtered line is asked back, and ownership requests
that waited are answered as at an inactive memory. -/
def State.changeHostMem (s : State) : State :=
  let s : State := { s with cxl := { s.cxl with memActive := false } }
  let s := forEach s.cxl.snoop (fun s x => s.sendInv x.line) s
  let s := forEach s.cxl.grants (fun s _ => s.poisonAnswer true 64) s
  { s with cxl := { s.cxl with grants := [] } }

/-- The end of step 5, and step 6: the configuration is applied, contexts take their states, and STAGE is 4 until the
lattices serve. -/
def State.warmConfig (s : State) : State :=
  let (s, r) := s.readConfig
  match r with
  | .error (c, d) => s.haltStart c d
  | .ok i =>
    let s := (s.applyConfig i).setStage 3
    let s : State := { s with boot := { s.boot with phase := 0, reread := false, mgmtDown := false } }
    let s := s.openPort.warmContexts
    let s := forEach (upTo 512) (fun s t => s.reissuePut t) s
    s.startOptics.finishStart

/-- Step 5: where the configuration re-read changes the HOST_MEM of the configuration in use, Memory_Active is 0 until its
end (R249). -/
def State.warmRead (s : State) : State :=
  match s.readConfig.2 with
  | .error _ => s.warmConfig
  | .ok i =>
    if s.cfg.hostMemGiB = i.content.hostMemGiB || s.cfg = Configuration.unset then s.warmConfig
    else { s.changeHostMem with boot := { s.boot with phase := 7 } }

/-- Once the host has given every line back, the moved pages are zeroed and the host is told (R182, R249). -/
def State.warmMoved (s : State) : State :=
  match s.readConfig.2 with
  | .error _ => s.warmConfig
  | .ok i =>
    if !s.cxl.snoop.isEmpty then s
    else
      let s := s.zeroMoved s.cfg.hostMemGiB i.content.hostMemGiB
      (s.cxlRecord 0 (Config.specData 20 i.content.hostMemGiB)).warmConfig

/-- The next part of a start. -/
def State.nextPhase (s : State) : State :=
  match s.boot.phase with
  | 1 => s.coldFirmware
  | 2 => s.coldJournal
  | 3 => s.coldConfig
  | 4 => s.warmManagement
  | 5 => s.warmFirmware
  | 6 => s.warmRead
  | 7 => s.warmMoved
  | _ => s

/-- Every part of a start that is still to come. -/
def State.catchUp (s : State) : State := s.nextPhase.nextPhase.nextPhase.nextPhase

/-- A warm restart is requested (R350, R351): ignored during a start; a halted start is left by it. -/
def State.requestRestart (s : State) : State :=
  if !s.boot.on then s
  else if s.boot.stage = 5 || (s.boot.stage = 15 && s.boot.halt = 1) then s.warmRestart
  else if s.boot.stage = 15 then s
  else s.event .nvmRestartIgnored .device 0 noCtx []

/-- A write of 1 to NVM_CTRL.RESTART: from the host only under its grant. -/
def State.writeRestart (s : State) (p : Path) (v : Nat) : State :=
  if !hostAllowed p s.cfg.grantRestart then s.refuse p (Reg.nvmCtrl.addr 0) v else s.requestRestart

/-- NVM_RESTART. -/
def execNvmRestart (p : Path) (s : State) : Out := if s.served p then .next (s.writeRestart p 1) else .next s

/-- CAL_SAVE_COMPLETE; a save made for a firmware activation is followed by its warm restart (R351). -/
def execCalSaveComplete (s : State) : Out :=
  let s' := s.endSave
  if s.flash.calBusy && !s'.flash.calBusy && s.boot.wantFwSave then
    .next ({ s' with boot := { s'.boot with wantFwSave := false } }.requestRestart)
  else .next s'

/-! ## Events that a start leads to -/

/-- A started honeycomb is ready; its lattice begins the resonance search: every cluster is asked for HIGH span (R288,
R296). -/
def State.combReady (s : State) (h : Nat) : State :=
  if (s.comb h).state ≠ .starting then s
  else
    let s := (s.setCombSt h .ready).modComb h fun x => { x with spacing := true, lowPower := false }
    let x := s.lat h
    if decide (h < 8) && x.state == .searching && x.phase == 0 then
      let s := (s.setLat h { x with phase := 1, dem := [] }).clearRings h
      forEach (upTo 2048) (fun s k =>
        let q := h * 2048 + k
        s.setCluster q ((s.cluster q).ask true)) s
    else s

/-- A start that has not reached the step that starts a honeycomb has done so when the honeycomb answers. -/
def State.reach (s : State) (h : Nat) : State := if (s.comb h).state = .starting then s else s.catchUp

/-- HONEYCOMB_READY. -/
def execHoneycombReady (h : Fin 10) (s : State) : Out := .next ((s.reach h).combReady h)

/-- HONEYCOMB_START_TIMEOUT: a honeycomb not READY in time is FAILED; its lattice is fenced. -/
def execHoneycombStartTimeout (h : Fin 10) (s : State) : Out :=
  let s := s.reach h
  if (s.comb h).state ≠ .starting then .next s
  else
    let s := ((s.setCombSt h .failed).bump .tmpCombEventsStartFail h).event .tmpCombFail .comb h noCtx []
    if h.val < 8 then .next (s.fenceLattice h 12) else .next s

/-- CAL_CHECK_END: the check ends when its episode has converged or at 200 ms; the lattice enters SERVING, CAL_STALE in
the second case (R40, R339, R340). In a warm restart the steps before it are then over (R352). -/
def execCalCheckEnd (l : Fin 8) (s : State) : Out :=
  let s := s.catchUp
  let x := s.lat l
  if x.state = .locked && x.phase = 1 && x.held.isEmpty then
    let s := if x.episode.isSome && !s.flag .calStatusStale l then
        ((s.setStale l true).bump .calEventCntStale l).event .calStale .lattice l noCtx []
      else s
    if s.latTarget l = .serving then .next (s.serve l 5) else .next (s.modLat l fun x => { x with phase := 0 })
  else .next s

/-! ## Pins and rails (R384 to R387, R458, R461) -/

/-- Whether a start may take effect: power good, rails in their windows, no latched trip (R382). -/
def State.mayStart (s : State) : Bool := s.pins.aux && s.pins.pwrOk && s.pins.railsOk && !s.power.tripLatched

/-- PERST_N_DEASSERT: too early, or with a rail outside its window, it takes effect later. -/
def execPerstNDeassert (msSincePwrOk : Nat) (s : State) : Out :=
  if !s.pins.perst then .next s
  else
    let s : State := { s with pins := { s.pins with perst := false } }
    if s.mayStart && decide (100 ≤ msSincePwrOk) then .next s.coldStart
    else .next { s with pins := { s.pins with deferred := true } }

/-- PERST_DEFERRED_EFFECT. -/
def execPerstDeferredEffect (s : State) : Out :=
  let s' : State := { s with pins := { s.pins with railsOk := true } }
  if s.pins.deferred && s'.mayStart then .next s'.coldStart else .next s

/-- PERST_N_ASSERT: the device is reset; an active token ends (R401), heaters are at code 0 (R319), outputs dark
(R461). -/
def execPerstNAssert (s : State) : Out :=
  if s.pins.perst then .next s
  else
    let s := s.endToken
    let s := if s.boot.on then s.halted else s
    .next { s with pins := { s.pins with perst := true, deferred := false, xspiReset := true } }

/-- PWR_OK_ASSERT: the rails are in their windows, and the reference-loss detector is armed. -/
def execPwrOkAssert (s : State) : Out :=
  if s.pins.pwrOk || !s.pins.aux then .next s
  else .next { s with pins := { s.pins with pwrOk := true, railsOk := true, refArmed := true },
                      power := { s.power with avsMv := 750 } }

/-- The device loses the power it runs on (R361, R385): the memories, the hold buffer and the outputs go. -/
def State.powerGone (s : State) : State := if s.boot.on then s.stopDevice else s

/-- PWR_OK_DEASSERT. -/
def execPwrOkDeassert (s : State) : Out :=
  let s := s.powerGone
  .next { s with pins := { s.pins with pwrOk := false, refArmed := false } }

/-- RAIL_OUT_OF_WINDOW, while PWR_OK is asserted. -/
def execRailOutOfWindow (_r : Rail) (s : State) : Out :=
  if !s.pins.pwrOk then .next s
  else
    let s := s.powerGone
    .next { s with pins := { s.pins with railsOk := false } }

/-- VDD_AUX_POWER_UP: CLKSEL is sampled and the always-on management part starts, with no address and no EID. -/
def execVddAuxPowerUp (clksel : Bool) (s : State) : Out :=
  if s.pins.aux then .next s
  else .next { s with pins := { s.pins with aux := true }, power := { s.power with clkExt := clksel },
                      mgmt := Mgmt.reset }

/-- VDD_AUX_LOSS: every rail is down, and the trip latch clears with its record. -/
def execVddAuxLoss (s : State) : Out :=
  if !s.pins.aux then .next s
  else
    let s := s.powerGone
    .next { s with
      pins := { s.pins with aux := false, railsOk := false, pwrOk := false, refArmed := false, xspiReset := true },
      boot := { s.boot with faultN := false, halt := 0 },
      power := { s.power with tripLatched := false, tripDomain := 0, tripSensor := 0, tripTime := 0 } }

/-! ## Internal errors (R411 to R413) -/

/-- The number of a bay island (R465): in the order its chapter lists them, from 1 (PRESUMED, log entry 73). -/
def islandNum (i : BayIsland) : Nat := i.ctorIdx + 1

/-- An internal error takes the warm-restart path: logged and counted. -/
def State.internalRestart (s : State) (uk : UnitKind) (u : Nat) : State :=
  ((s.bump .evtErrCntInternal).event .evtInternal uk u noCtx []).warmRestart

/-- A lattice of a bay in upset recovery drains toward LOCKED and takes an identity round there. -/
def State.upsetLattice (s : State) (l : Nat) : State :=
  let x := s.lat l
  match x.state with
  | .serving | .suspect =>
    let s := if s.latTarget l = .serving then s.startOutage l else s
    ((if x.fencePending ≠ 0 then s.drainLat l x.fencePending false else s.drainLat l 13 true).modLat l
      fun x => { x with roundDue := true })
  | .locked | .draining => s.modLat l fun x => { x with roundDue := true }
  | _ => s

/-- Bay upset recovery starts (R412), unless the error is one too many for the bay (R413). -/
def State.bayUpset (s : State) (b : Nat) (i : BayIsland) : State :=
  let y := s.bay b
  let recent := y.upsets.filter fun τ => decide (s.time < τ + hourNs)
  if y.upset || decide (2 ≤ recent.length) then s.internalRestart .bay b
  else
    let s := (s.event .evtUpset .bay b noCtx [islandNum i]).bump .evtErrCntUpsets
    let s := forEach (y.released.filter fun e => decide (s.time ≤ e.2 + 10000)) (fun s e => s.setWarn e.1) s
    let s := s.modBay b fun y => { y with upset := true, upsets := recent ++ [s.time] }
    ((s.upsetLattice (2 * b)).upsetLattice (2 * b + 1)).tryEndUpset b

/-- The path of an internal error in an island; one of the CXL island, which holds the snoop filter and the CXL.mem path, is a
RAS error, with Viral where the host enables it (R251; DESIGN CHOICE, log entry 58). -/
def State.islandError (s : State) (i : Island) : State :=
  match i with
  | .bay b .cellar => s.internalRestart .bay b
  | .bay b i => s.bayUpset b i
  | .hub .cxl =>
    let s := s.rasError
    let s : State := { s with cxl := { s.cxl with viral := s.cxl.viral || s.viralEnabled } }
    s.internalRestart .device 0
  | .hub .management | .hub .security => s.haltInternal
  | .hub _ => s.internalRestart .device 0

/-- A line of reserved cellar is found poisoned (R192, R411): both copies are rewritten, from the second copy or, where that
is poisoned too, by a rebuild until which the lattice is SUSPECT. -/
def State.reservedError (s : State) (l line : Nat) (second : Option Nat) : State :=
  let bad (s : State) (n : Nat) : State := (s.uncorrectable n .fabric).setPoison n false
  if !(reservedCellar (64 * line) && second.all fun n => reservedCellar (64 * n)) then s
  else match second with
    | none => bad s line
    | some n => (bad (bad s line) n).raiseReadout l [512] s.time

/-- The path of an internal error (R411, R413). In a halted device only the units that still run can fail (log entry
74). -/
def State.internalErr (s : State) (w : ErrWhere) : State :=
  if !s.boot.on || s.boot.halt = 2 then s
  else if s.boot.restarting then s.haltInternal
  else if s.boot.stage = 15 then
    match w with
    | .island (.hub .management) | .island (.hub .security) => s.haltInternal
    | _ => s
  else match w with
    | .island i => s.islandError i
    | .reserved l line second => s.reservedError l line second

/-- INTERNAL_ERROR. -/
def execInternalError (w : ErrWhere) (s : State) : Out := .next (s.internalErr w)

/-- HANDSHAKE_STALL. -/
def execHandshakeStall (i : Island) (s : State) : Out := .next (s.internalErr (.island i))

/-- PLL_RELOCK_TIMEOUT: a lock not regained is an internal error. -/
def execPllRelockTimeout (i : Island) (s : State) : Out :=
  if s.power.unlocked.contains i then .next (s.internalErr (.island i)) else .next s

end Sys2Proof.Machine
end

