-- ==== Sys2Proof/Machine/Views.lean ====
section
/-! DEFINITION. What registers read: the fields that show state held elsewhere, selected data, and the read of a BAR0
register (R433 to R435, R439 to R441, and the field maps of every chapter). -/

namespace Sys2Proof.Machine

/-- Fields of a register that show state held elsewhere, with their values. -/
abbrev View := List (Fld × Nat)

/-- A 16-bit two's complement field. -/
def i16 (x : Int) : Nat := twos 16 x

/-- A configuration has been applied: fields reset to the configuration show it (R438). -/
def State.configured (s : State) : Bool := s.sec.locked || (s.boot.kind == 2 && s.cfgSeq != 0)

/-- A value of the configuration, 0 before one is applied. -/
def State.fromCfg (s : State) (v : Nat) : Nat := if s.configured then v else 0

/-! ## Lattice, row-cell and calibration blocks -/

/-- Repeats queued for a lattice: pieces it holds, and those of steps whose HOLD group it runs (log entry 75). -/
def State.queuedRepeats (s : State) (l : Nat) : Nat :=
  let x := s.lat l
  let own := (x.current.toList ++ x.loading.toList).filter (·.rep)
  let held := s.threads.foldl (fun n e => e.2.steps.foldl (fun m a =>
    if x.group.any (fun g => g.thread == e.1 && g.uid == a.uid) then m + a.repeats.length
    else m + (a.repeats.filter fun k => k.pin == some l).length) n) 0
  own.length + held

/-- Slots of a burst: one for each slice of an input vector. -/
def Burst.slots (b : Burst) : Nat := b.ins.foldl (fun n i => n + boolNat i.high + boolNat i.low) 0

/-- Lattice block. -/
def State.viewLattice (s : State) (p l sub : Nat) : Reg → View
  | .latId => [(.latIdHoneycomb, l), (.latIdBay, l / 2), (.latIdLattice, l)]
  | .latState =>
    let x := s.lat l
    [(.latStateCause, x.cause), (.latStateTarget, (s.latTarget l).code), (.latStatePhase, x.phase),
     (.latStateState, x.state.code)]
  | .latStatus =>
    let x := s.lat l
    [(.latStatusSuspectNow, packBits 5 fun k => x.held.any fun e => e.1.code == k + 6),
     (.latStatusCalStale, s.fld .calStatusStale l), (.latStatusPatchFull, boolNat (decide (64 ≤ x.patched.length)))]
  | .latRows =>
    let x := s.lat l
    [(.latRowsPatched, x.patched.length), (.latRowsDead, x.dem.length), (.latRowsAvail, x.avail)]
  | .latEntryTime => [(.latEntryTimeTime, (s.lat l).entryTime)]
  | .latDemData => match (s.lat l).dem[s.fldAt .latDemIndexIndex l p]? with
    | none => []
    | some d => [(.latDemDataParkW, twos 8 d.parkW), (.latDemDataKind, d.kind), (.latDemDataHandling, d.handling),
                 (.latDemDataRow, d.row), (.latDemDataColumn, d.col)]
  | .latRowmask =>
    let m := (s.lat l).maskedRows
    [(.latRowmaskMask, packBits 64 fun i => m.contains (64 * sub + i))]
  | .rowStatus =>
    let x := s.lat l
    [(.rowStatusHoldActive, boolNat x.group.isSome), (.rowStatusHoldCtx, (x.group.map (·.ctx)).getD 0),
     (.rowStatusPendRep, min 255 (s.queuedRepeats l)),
     (.rowStatusInflight, x.inflight.foldl (fun n b => n + b.slots) 0)]
  | .calStatus =>
    let x := s.lat l
    [(.calStatusEpisodeMs, (x.episode.map fun t => min 255 ((s.time - t) / 1000000)).getD 0),
     (.calStatusTemp, if x.tables.isNone then 0 else i16 (s.tl l)),
     (.calStatusRamp, boolNat (x.ramps.any fun r => decide (0 < r.count))), (.calStatusState, boolNat x.episode.isSome)]
  | .calDebt => [(.calDebtProbe, twos 32 ((s.lat l).probeDebt / 4096)), (.calDebtSweep, twos 32 (s.lat l).sweepDebt)]
  | .calForcedCnt => [(.calForcedCntSweepK, min 65535 ((s.lat l).forcedSweeps / 1000))]
  | _ => []

/-! ## Context block -/

/-- Contexts in a state. -/
def State.ctxsIn (s : State) (st : CtxState) : Nat := (s.ctxs.filter fun e => e.2.st == st).length

/-- Context block. -/
def State.viewContext (s : State) (p : Nat) : Reg → View
  | .ctxSummary0 =>
    [(.ctxSummary0Waiting, s.ctxsIn .waiting), (.ctxSummary0Running, s.ctxsIn .running),
     (.ctxSummary0Bound, s.ctxsIn .bound), (.ctxSummary0Free, 4096 - (s.ctxs.filter fun e => e.2.st != .free).length)]
  | .ctxSummary1 =>
    [(.ctxSummary1AdmitWait, (s.ctxs.filter fun e => e.2.st == .bound && e.2.admitWait).length),
     (.ctxSummary1Faulted, s.ctxsIn .faulted), (.ctxSummary1Draining, s.ctxsIn .draining)]
  | .ctxData => [(.ctxDataData, s.ctxWord (s.fldAt .ctxSelContext 0 p) (s.fldAt .ctxSelWord 0 p))]
  | _ => []

/-! ## Sequencer, watch, bay, cellar and memory-map blocks -/

/-- Threads of a bay in a state. -/
def State.threadsIn (s : State) (b : Nat) (st : ThState) : Nat :=
  (s.threads.filter fun e => e.1 / 128 == b && e.2.st == st).length

/-- A thread waits on a word or a tagged operation. -/
def Thread.waitsWord (th : Thread) : Bool := th.putWait || th.wait.any fun w => decide (w.src ≤ 1)

/-- A thread waits on the word of a watch slot: a ready word, or the slot's identifier. -/
def Thread.waitsSlot (th : Thread) (x : Slot) : Bool :=
  th.st == .waiting && th.ctx == x.ctx && th.wait.any fun w => if x.ready then w.src == 1 else w.src == 0 && w.sid == x.sid

/-- Slots of a bay in use, in a range. -/
def Bay.slotsIn (y : Bay) (p : Nat → Bool) : Nat := (y.slots.filter fun e => e.2.valid && p e.1).length

/-- DRAM domain of a stack is above 85 °C (R195). -/
def State.dramHot (s : State) (b : Nat) : Bool := decide (85 * 256 < (s.domainTemp (8 + b)).1)

/-- Sequencer, watch, bay, cellar and memory-map blocks. -/
def State.viewBay (s : State) (p b : Nat) : Reg → View
  | .seqStatus =>
    let idle := 128 - (s.threads.filter fun e => e.1 / 128 == b && e.2.st != .idle).length
    [(.seqStatusCached, (s.bay b).cache.length), (.seqStatusIdle, idle), (.seqStatusWaiting, s.threadsIn b .waiting),
     (.seqStatusStalled, s.threadsIn b .stalled), (.seqStatusReady, s.threadsIn b .ready)]
  | .seqStreams =>
    [(.seqStreamsPoolKib, (s.bay b).poolUsed / 1024),
     (.seqStreamsBlocked, ((s.bay b).streams.filter fun x => x.blockedSince.isSome).length),
     (.seqStreamsActive, s.gensUsed b)]
  | .wchSlots =>
    let polled := s.ctxs.foldl (fun n e => if e.2.st = .free then n else
      n + (e.2.sync.filter fun m => m.polled.contains b).length) 0
    [(.wchSlotsPolled, polled), (.wchSlotsUsed, (s.bay b).slotsIn fun i => decide (128 ≤ i)),
     (.wchSlotsReadyUsed, (s.bay b).slotsIn fun i => decide (i < 128))]
  | .wchWaiters =>
    let l := s.threads.filter fun e => e.1 / 128 == b && e.2.st != .idle
    let polled := l.any fun e => e.2.wait.any fun w => waitPolled s e.2 w b
    [(.wchWaitersGated, boolNat (!l.isEmpty && l.all (fun e => e.2.st == .waiting) && !polled)),
     (.wchWaitersThreads, (l.filter fun e => e.2.waitsWord).length)]
  | .wchSlotData =>
    let x := (s.bay b).slot (s.fldAt .wchSelSlot b p)
    [(.wchSlotDataValid, boolNat x.valid), (.wchSlotDataHost, boolNat x.host), (.wchSlotDataAddr, x.addr / 8)]
  | .wchSlotOwner =>
    let x := (s.bay b).slot (s.fldAt .wchSelSlot b p)
    [(.wchSlotOwnerContext, x.ctx),
     (.wchSlotOwnerWaiters, if x.valid then (s.threads.filter fun e => e.1 / 128 == b && e.2.waitsSlot x).length else 0),
     (.wchSlotOwnerReady, boolNat x.ready), (.wchSlotOwnerSid, if x.ready then 0 else x.sid)]
  | .celPoison =>
    [(.celPoisonLines, (s.poison.filter fun e => decide (e.1 / stackLines = b)).length)]
  | .celScrubStatus => [(.celScrubStatusRefresh2x, boolNat (s.dramHot b))]
  | .bayFeStatus => [(.bayFeStatusWaiting, s.feWaiting b), (.bayFeStatusWords, s.fromCfg (s.cfg.feWords.getD b 0))]
  | .pwrBayStatus =>
    let y := s.bay b
    [(.pwrBayStatusPendValid, boolNat y.pendReq.isSome), (.pwrBayStatusPending, (y.pendReq.map PState.code).getD 0),
     (.pwrBayStatusBusy, boolNat y.trans.isSome), (.pwrBayStatusTarget, (y.trans.map fun t => t.target.code).getD 0),
     (.pwrBayStatusState, y.power.code)]
  | .celMapHost => [(.celMapHostHostGib, s.fromCfg s.cfg.hostMemGiB)]
  | .celMapStore => [(.celMapStoreTables, s.fromCfg (s.cfg.storeMiB * 256)), (.celMapStoreUsed, s.storeUsed)]
  | .celMapAttic =>
    let used := s.ctxs.foldl (fun n e => if e.2.st = .free then n else n + e.2.atticPages) 0
    [(.celMapAtticPages, s.fromCfg s.cfg.atticPages), (.celMapAtticFree, s.fromCfg (s.cfg.atticPages - used))]
  | .celMapWin =>
    [(.celMapWinDeclared, s.fromCfg (packBits 16 fun w => (s.cfg.windows[w]?).any (·.declared)))]
  | _ => []

/-! ## Temper, heater, monitor and comb blocks -/

/-- Rings of a lattice that are locked: those with no entry of their own are where their lattice is. -/
def State.lockedIn (s : State) (l : Nat) : Nat :=
  let x := s.lat l
  let own := s.rings.filter fun e => e.1 / 131072 == l
  if x.state.lit && x.state ≠ .searching then
    let rows := x.maskedRows
    131072 - 256 * rows.length - (own.filter fun e => !rows.contains (e.1 % 131072 / 256) && e.2.st != .off && e.2.st != .locked).length
  else (own.filter fun e => e.2.st == .locked).length

/-- Rings of a lattice that relock. -/
def State.relockingIn (s : State) (l : Nat) : Nat :=
  (s.rings.filter fun e => e.1 / 131072 == l && e.2.st == .relocking).length

/-- Lattice and ring of a bay's ring index ρ (R303). -/
def ringOf (b rho : Nat) : Nat × Nat := (2 * b + rho / 131072, rho % 131072)

/-- Temper, heater, monitor and comb blocks. -/
def State.viewOptics (s : State) (p b sub : Nat) : Reg → View
  | .tmpStatus =>
    [(.tmpStatusLocked, s.lockedIn (2 * b) + s.lockedIn (2 * b + 1)), (.tmpStatusFfActive, boolNat (s.bay b).rise),
     (.tmpStatusRelocking, s.relockingIn (2 * b) + s.relockingIn (2 * b + 1))]
  | .tmpBankBusy => [(.tmpBankBusyBusy, packBits 64 fun k => s.swapBusy b k)]
  | .tmpCoefData =>
    [(.tmpCoefDataData, s.coef b (s.fldAt .tmpCoefSelClass b p) (s.fldAt .tmpCoefSelBank b p) (s.fldAt .tmpCoefSelWord b p))]
  | .tmpRingData =>
    let lr := ringOf b (s.fldAt .tmpRingSelRing b p)
    let x := s.ringNow lr.1 lr.2
    [(.tmpRingDataClass, x.cls), (.tmpRingDataState, x.st.ctorIdx), (.tmpRingDataSpan, boolNat (s.ringHigh lr.1 lr.2)),
     (.tmpRingDataLockErr, i16 x.lockErr), (.tmpRingDataCode, x.code), (.tmpRingDataSetpoint, i16 (toQ15 x.r))]
  | .tmpTraceCtrl => [(.tmpTraceCtrlStopped, boolNat (s.trace (4 * b + sub)).stopped)]
  | .tmpTraceData =>
    let x := s.trace (4 * b + s.fldAt .tmpTraceSelChannel b p)
    let e := s.fldAt .tmpTraceSelEntry b p
    match if e < x.entries.length then x.entries[x.entries.length - 1 - e]? else none with
    | none => []
    | some v => [(.tmpTraceDataValue, i16 v.1), (.tmpTraceDataTime, v.2)]
  | .htrCluster =>
    let c := s.cluster (4096 * b + s.fldAt .htrSelCluster b p)
    [(.htrClusterQdepth, c.queue.length), (.htrClusterHold, boolNat c.hold), (.htrClusterSpan, boolNat c.high),
     (.htrClusterDen, boolNat c.den), (.htrClusterDph, c.dph), (.htrClusterAmp, c.amp), (.htrClusterRate, c.rate),
     (.htrClusterStep, c.step), (.htrClusterFtw, c.ftw)]
  | .htrRing =>
    let lr := ringOf b (64 * s.fldAt .htrSelCluster b p + s.fldAt .htrSelRing b p)
    let x := s.ringNow lr.1 lr.2
    let t := s.tap lr.1 lr.2
    [(.htrRingFault, x.fault), (.htrRingP, i16 x.p), (.htrRingTarget, t.target), (.htrRingCode, t.code)]
  | .monConv =>
    let k := s.fldAt .monSelConverter b p
    let x := s.conv (256 * b + k)
    let search := [2 * b, 2 * b + 1].any fun l => (s.lat l).state == .searching && (s.lat l).phase == 1 && s.searchOpen l
    [(.monConvRefFault, boolNat !x.refFault.isEmpty),
     (.monConvRelocking, (s.rings.filter fun e => e.1 / 262144 == b && e.1 % 256 == k && e.2.st == .relocking).length),
     (.monConvMode, if search then 1 else if s.flag .monTestCont b && (s.bay b).contOf == k then 2 else 0),
     (.monConvDrops, x.drops)]
  | .monWin => [(.monWinWin, s.fld .monWinWin (64 * b + s.fldAt .monWinClass b p))]
  | _ => []

/-- Comb block. -/
def State.viewComb (s : State) (p h : Nat) : Reg → View
  | .tmpCombStatus =>
    let x := s.comb h
    [(.tmpCombStatusWear, x.wear), (.tmpCombStatusAgeing, boolNat x.ageing), (.tmpCombStatusLowPower, boolNat x.lowPower),
     (.tmpCombStatusSpacingLock, boolNat x.spacing), (.tmpCombStatusState, x.state.code)]
  | .tmpCombLine =>
    let k := s.fldAt .tmpCombLineLine h p
    [(.tmpCombLinePower, i16 ((s.comb h).powers.getD k 0)),
     (.tmpCombLineSet, s.fromCfg (i16 ((s.cfg.lineSet.getD h []).getD k 0)))]
  | _ => []

/-! ## CXL, Henxo, port and signal-hold blocks -/

/-- CXL_LINK_STATUS.STATE encoding. -/
def LinkState.code : LinkState → Nat
  | .down => 0
  | .training => 1
  | .l0 => 2
  | .recovery => 3

/-- HNX_PORT_STATUS.STATE encoding. -/
def PortState.code : PortState → Nat
  | .disabled => 0
  | .dark => 1
  | .training => 2
  | .active => 3
  | .failed => 4

/-- Credits of a buffer set (R265). -/
def Port.held (x : Port) (set cls : Nat) : Nat := x.credits.getD (4 * set + cls) 0

/-- Fibre pair of a port under the active profile. -/
def State.fibreOf (s : State) (p : Nat) : Nat := ((s.activeProfile.map (·.fibre)).getD []).getD p p

/-- CXL, Henxo, port and signal-hold blocks. -/
def State.viewLinks (s : State) (i : Nat) : Reg → View
  | .cxlLinkStatus =>
    let x := s.cxl
    [(.cxlLinkStatusMemActive, boolNat x.memActive), (.cxlLinkStatusCrs, boolNat x.crs), (.cxlLinkStatusState, x.state.code),
     (.cxlLinkStatusBiEn, boolNat x.bi), (.cxlLinkStatusFlit, boolNat (decide (1 ≤ x.level))), (.cxlLinkStatusLevel, x.level),
     (.cxlLinkStatusWidth, x.width), (.cxlLinkStatusRate, x.rate)]
  | .cxlHdmStatus => [(.cxlHdmStatusSfUsed, s.cxl.snoop.length)]
  | .cxlCacheStatus =>
    [(.cxlCacheStatusOutstanding, s.hostRequests), (.cxlCacheStatusWatched, s.hostLines.length)]
  | .hnxPortStatus =>
    let x := s.port i
    [(.hnxPortStatusPeerDev, x.peerDev), (.hnxPortStatusPeerPort, x.peerPort),
     (.hnxPortStatusFibre, s.fromCfg (s.fibreOf i)), (.hnxPortStatusLanesUp, x.lanesUp.toNat),
     (.hnxPortStatusVersion, x.version), (.hnxPortStatusState, x.state.code)]
  | .hnxCredits0 =>
    let x := s.port i
    [(.hnxCredits0Bulk, x.held 0 2), (.hnxCredits0Mcast, x.held 0 3), (.hnxCredits0Signal, x.held 0 1),
     (.hnxCredits0Control, x.held 0 0)]
  | .hnxCredits1 =>
    let x := s.port i
    [(.hnxCredits1Bulk, x.held 1 2), (.hnxCredits1Mcast, x.held 1 3), (.hnxCredits1Signal, x.held 1 1),
     (.hnxCredits1Control, x.held 1 0)]
  | .hnxId => [(.hnxIdProfile, s.hnx.profile), (.hnxIdDevice, s.fromCfg s.cfg.device)]
  | .hnxFlowStatus =>
    [(.hnxFlowStatusRxUsed, s.hnx.dst.length), (.hnxFlowStatusTxUsed, s.hnx.src.length),
     (.hnxFlowStatusPoolKib, s.poolUsed / 1024)]
  | .hnxPmapStatus =>
    [(.hnxPmapStatusBusy, boolNat s.hnx.busy),
     (.hnxPmapStatusMap, s.fromCfg ((upTo 8).foldl (fun n p => n + s.fibreOf p % 16 * 16 ^ p) 0))]
  | .wchHoldStatus => [(.wchHoldStatusNow, s.heldSignals)]
  | _ => []

/-! ## NVM, journal, power, thermal, clock, security, event, management and device blocks -/

/-- The domain of the package temperature, and the temperature (R377). -/
def State.packageTemp (s : State) : Int × Nat :=
  (upTo 23).foldl (fun a d => if a.1 < (s.domainTemp d).1 then ((s.domainTemp d).1, d) else a) ((s.domainTemp 0).1, 0)

/-- A PIC sensor reads below 42 °C (R379). -/
def State.picCold (s : State) : Bool :=
  (upTo 4).any fun b => (upTo 16).any fun k =>
    let x := s.sensor (40 * b + 20 + k)
    x.has && x.kind == 0 && decide (x.reading < 42 * 256)

/-- Stages by which a start sets the fields that only the device writes (R7, R438). -/
def State.reached (s : State) (stage : Nat) : Bool := s.boot.kind == 2 || decide (stage ≤ s.boot.stage)

/-- Thermal, power and clock blocks. A selection beyond the last domain or sensor shows a free value (log entry 76). -/
def State.viewPower (s : State) (p : Nat) : Reg → View
  | .pwrLimit => [(.pwrLimitEffective, s.power.limit)]
  | .pwrPkg => [(.pwrPkgHalfClk, boolNat (s.power.half || s.power.avsWant.isSome)), (.pwrPkgAvgW, min 65535 s.power.avg)]
  | .thmStatus =>
    [(.thmStatusRise, packBits 4 fun b => (s.bay b).rise), (.thmStatusPicCold, boolNat s.picCold),
     (.thmStatusAlert, boolNat s.alertN), (.thmStatusThrottling, boolNat s.power.throttling)]
  | .thmPkg => [(.thmPkgDomain, s.packageTemp.2), (.thmPkgMax, i16 s.packageTemp.1)]
  | .thmDomData =>
    let d := s.fldAt .thmDomSelDomain 0 p
    let D := domainOf d
    if 23 ≤ d then
      let w := (Config.unselected 0 d).toNat
      [(.thmDomDataBroken, bitsOf w 63 56), (.thmDomDataSensor, bitsOf w 55 48), (.thmDomDataTrip, bitsOf w 47 32),
       (.thmDomDataThrottle, bitsOf w 31 16), (.thmDomDataTemp, bitsOf w 15 0)]
    else
      [(.thmDomDataBroken, (D.sensors.filter fun i => (s.sensor i).kind != 0).length),
       (.thmDomDataSensor, (s.domainTemp d).2), (.thmDomDataTrip, i16 D.trip), (.thmDomDataThrottle, i16 D.throttle),
       (.thmDomDataTemp, i16 (s.domainTemp d).1)]
  | .thmSensData =>
    let i := s.fldAt .thmDomSelSensor 0 p
    let x := s.sensor i
    if 190 ≤ i then
      let w := (Config.unselected 1 i).toNat
      [(.thmSensDataState, bitsOf w 34 32), (.thmSensDataRaw, bitsOf w 31 16), (.thmSensDataReading, bitsOf w 15 0)]
    else [(.thmSensDataState, x.kind), (.thmSensDataRaw, i16 x.raw), (.thmSensDataReading, i16 x.reading)]
  | .thmTrip =>
    [(.thmTripLatched, boolNat s.power.tripLatched), (.thmTripDomain, s.power.tripDomain),
     (.thmTripSensor, s.power.tripSensor), (.thmTripTime, s.power.tripTime)]
  | .clkStatus =>
    [(.clkStatusUnlocked, s.power.unlocked.length), (.clkStatusSource, boolNat s.power.clkExt),
     (.clkStatusRefOk, boolNat s.power.refOk)]
  | _ => []

/-- NVM, journal and calibration-store blocks. -/
def State.viewNvm (s : State) : Reg → View
  | .nvmStart =>
    let x := s.boot
    [(.nvmStartDetail, x.detail), (.nvmStartCause, x.cause), (.nvmStartKind, x.kind),
     (.nvmStartCfgFallback, boolNat x.cfgFallback), (.nvmStartCfgSlot, x.cfgSlot),
     (.nvmStartFwFallback, boolNat x.fwFallback), (.nvmStartFwSlot, x.fwSlot), (.nvmStartStage, x.stage)]
  | .nvmStartTime => [(.nvmStartTimeWarmUs, s.boot.warmUs), (.nvmStartTimeColdUs, s.boot.coldUs)]
  | .nvmCfg => [(.nvmCfgActiveSeq, s.fromCfg s.cfgSeq)]
  | .nvmTemp =>
    [(.nvmTempFlash, i16 s.jnl.flashTemp), (.nvmTempHubMax, i16 s.jnl.hubMax), (.nvmTempSensorBad, boolNat s.jnl.sensorBad),
     (.nvmTempWriteOk, boolNat s.jnl.windowOpen)]
  | .jnlStatus =>
    let j := s.jnl
    let r := s.reached 2
    [(.jnlStatusFill, if r then j.filled * 100 / halfSlots else 0), (.jnlStatusCompacting, boolNat j.compacting),
     (.jnlStatusErasing, boolNat j.erasing), (.jnlStatusHalf, if r then j.half else 0),
     (.jnlStatusHolding, boolNat !j.hold.isEmpty)]
  | .jnlSeq => [(.jnlSeqNext, if s.reached 2 then s.jnl.next else 0)]
  | .jnlHold => [(.jnlHoldRecords, slotsOf s.jnl.hold)]
  | .jnlWear =>
    [(.jnlWearErases1, if s.reached 2 then s.jnl.erases1 else 0), (.jnlWearErases0, if s.reached 2 then s.jnl.erases0 else 0)]
  | .jnlReplay =>
    [(.jnlReplayRecords, if s.reached 2 then s.jnl.replayed else 0),
     (.jnlReplayTorn, if s.reached 2 then min 65535 s.jnl.torn else 0)]
  | .calStoreStatus =>
    [(.calStoreStatusBusy, boolNat s.flash.calBusy), (.calStoreStatusCopy, s.flash.calCopy),
     (.calStoreStatusTime, s.flash.calTime)]
  | _ => []

/-- Word `k` of the nonce: word 0 as it stands, the others as the path's last read of word 0 latched them (R441). -/
def State.nonceWord (s : State) (p k : Nat) : Nat :=
  let n := if k = 0 then s.sec.nonce.getD 0 else s.sec.latched.getD p 0
  n.toNat / 2 ^ (64 * k) % 2 ^ 64

/-- An entry of the log's ring of 8,192 by its number (R422). -/
def State.eventAt (s : State) (n : Nat) : Option Event :=
  if n < s.evHead then s.log[s.evHead - 1 - n]? else none

/-- MGT_STATUS.UPDATE encoding. -/
def Update.code : Update → Nat
  | .idle => 0
  | .learning => 1
  | .downloading => 2
  | .verifying => 3
  | .applying => 4
  | .ready => 5

/-- Security, event and management blocks. -/
def State.viewManagement (s : State) (p sub : Nat) : Reg → View
  | .secLock => [(.secLockLocked, boolNat s.sec.locked)]
  | .secStatus =>
    [(.secStatusPerms, (s.sec.token.map fun t => t.perms.toNat % 256).getD 0), (.secStatusToken, boolNat s.sec.token.isSome),
     (.secStatusOwnFuses, s.sec.ownFuses), (.secStatusOwner, boolNat s.ownerEnrolled), (.secStatusSvn, s.sec.svn)]
  | .secNonce => [(.secNonceNonce, s.nonceWord p sub)]
  | .secTokenStatus =>
    [(.secTokenStatusResult, s.sec.tokenResult),
     (.secTokenStatusExpiry, (s.sec.token.map fun t => t.expiry % 2 ^ 48).getD 0)]
  | .evtHead => [(.evtHeadSeq, s.evHead)]
  | .evtEntry =>
    let d := ((s.eventAt (s.fldAt .evtSelSeq 0 p)).map Event.bytes).getD []
    [(.evtEntryData, leNat ((d.drop (8 * sub)).take 8))]
  | .mgtStatus =>
    [(.mgtStatusI3cAddr, s.mgmt.i3cAddr.toNat), (.mgtStatusEidI3c, s.mgmt.eidI3c.toNat),
     (.mgtStatusEidVdm, s.mgmt.eidVdm.toNat), (.mgtStatusHalt, s.boot.halt), (.mgtStatusUpdate, s.mgmt.update.code)]
  | .mgtStepExt => [(.mgtStepExtSteps, (s.ctx (s.fldAt .mgtStepSelContext 0 p)).stepExt)]
  | _ => []

/-- Lattices in a state, as bits. -/
def State.latBits (s : State) (st : LatState) : Nat := packBits 8 fun l => (s.lat l).state == st

/-- Device block. -/
def State.viewDevice (s : State) : Reg → View
  | .devVendor => [(.devVendorVendor, Config.vendorId.toNat)]
  | .devDevice => [(.devDeviceDevice, Config.deviceId.toNat)]
  | .devRevision => [(.devRevisionPackage, 0), (.devRevisionSilicon, 0xB0)]
  | .devSerial => [(.devSerialSerial, Config.serial.toNat)]
  | .devFwVersion => [(.devFwVersionVersion, s.boot.fwVersion.toNat)]
  | .devCap0 =>
    [(.devCap0Threads, 512), (.devCap0Contexts, 4096), (.devCap0Honeycombs, 10), (.devCap0HnxPorts, 8),
     (.devCap0Bays, 4), (.devCap0Lattices, 8)]
  | .devCap1 =>
    [(.devCap1BundleVer, 1), (.devCap1RecipeVer, 1), (.devCap1HnxVer, 2), (.devCap1HostMemMax, 256),
     (.devCap1SyncIds, 1024), (.devCap1CellarGib, 384)]
  | .devTime => [(.devTimeTime, s.time)]
  | .devStatus =>
    [(.devStatusServing, s.latBits .serving), (.devStatusFenced, s.latBits .fenced), (.devStatusSuspect, s.latBits .suspect),
     (.devStatusStale, packBits 8 fun l => s.flag .calStatusStale l),
     (.devStatusHnxActive, packBits 8 fun p => (s.port p).state == .active),
     (.devStatusBayState, (upTo 4).foldl (fun n b => n + (s.bay b).power.code * 8 ^ b) 0),
     (.devStatusStage, s.boot.stage), (.devStatusTrip, boolNat s.power.tripLatched),
     (.devStatusHalt, boolNat (s.boot.halt != 0)), (.devStatusAlert, boolNat s.alertN),
     (.devStatusFault, boolNat s.boot.faultN), (.devStatusThrottle, boolNat (decide (s.power.limit < s.fld .pwrLimitSet))),
     (.devStatusRestarting, boolNat (s.boot.restarting && !s.boot.reread)), (.devStatusLocked, boolNat s.sec.locked),
     (.devStatusReady, boolNat (s.boot.stage == 5 && s.boot.halt == 0))]
  | _ => []

/-- The fields of register `r`, instance `i`, member `sub`, that show state held elsewhere; `p` is the path. -/
def State.view (s : State) (p i sub : Nat) (r : Reg) : View :=
  match r.block with
  | .lattice | .rowCell | .calibration => s.viewLattice p i sub r
  | .context => s.viewContext p r
  | .bay | .sequencer | .watch | .cellar | .memoryMap => s.viewBay p i r
  | .temper | .heater | .monitor => s.viewOptics p i sub r
  | .comb => s.viewComb p i r
  | .cxl | .henxo | .port | .signalHold => s.viewLinks i r
  | .power | .thermal | .clock => s.viewPower p r
  | .nvm | .journal | .calStore => s.viewNvm r
  | .security | .event | .management => s.viewManagement p sub r
  | .device => s.viewDevice r
  | .fabricFault | .vector => []

/-! ## Reads -/

/-- The value a field shows: 0 for a write-only one (R6). -/
def State.fieldValue (s : State) (v : View) (p i sub : Nat) (f : Fld) : Nat :=
  if f.acc = .wo then 0
  else match v.find? fun e => e.1 = f with
    | some e => e.2 % 2 ^ f.width
    | none => s.fldAt f (i * f.reg.subs + sub) p

/-- The value a register reads: every field in its place, 0 elsewhere (R433). -/
def State.regValue (s : State) (p i sub : Nat) (r : Reg) : Nat :=
  let v := s.view p i sub r
  r.fields.foldl (fun n f => n + s.fieldValue v p i sub f * 2 ^ f.lo) 0

/-- Every block. -/
def Block.all : List Block :=
  [.device, .context, .memoryMap, .signalHold, .cxl, .henxo, .fabricFault, .port, .power, .thermal, .clock, .nvm, .journal,
   .calStore, .security, .event, .management, .comb, .bay, .sequencer, .watch, .temper, .heater, .monitor, .cellar,
   .lattice, .rowCell, .calibration, .vector]

/-- Size of a block (R431, R432). -/
def Block.size (b : Block) : Nat := if b = .security then 0x4000 else 0x1000

/-- The register at a BAR0 offset, with its instance and its member of a numbered family. -/
def regAt (off : Nat) : Option (Reg × Nat × Nat) :=
  let hit := Block.all.findSome? fun b => ((upTo b.count).find? fun i =>
    decide (b.base i ≤ off) && decide (off < b.base i + b.size)).map fun i => (b, i)
  hit.bind fun e => (Reg.all.find? fun r => r.block == e.1 && decide (e.1.base e.2 + r.off ≤ off) &&
    decide (off < e.1.base e.2 + r.off + 8 * r.subs)).map fun r => (r, e.2, (off - (e.1.base e.2 + r.off)) / 8)

/-- The CXL block, component registers and device registers (R439). -/
def inCxl (off : Nat) : Bool :=
  (decide (0x4_0000 ≤ off) && decide (off < 0x4_1000)) || (decide (0x80_0000 ≤ off) && decide (off < 0x82_0000))

/-- Word `k` of the MSI-X table, 16 bytes an entry: the mask of a vector is bit 32 of its second word (R252; layout
PRESUMED, log entry 77). -/
def State.msixWord (s : State) (k : Nat) : Nat :=
  let w := (tget 0 s.cxl.msix k).toNat
  if k % 2 = 0 then w else w % 2 ^ 32 + boolNat (s.cxl.vecMask.getD (k / 2) true) * 2 ^ 32

/-- What an aligned 64-bit read of a BAR0 offset returns (R433, R434, R439). -/
def State.readReg (s : State) (p : Path) (off : Nat) : Nat :=
  if s.boot.reread && !inCxl off then 2 ^ 64 - 1
  else if 0x80_0000 ≤ off && off < 0x82_0000 then (Config.cxlReg off (tget 0 s.cxl.regs (off / 8))).toNat
  else if 0x82_0000 ≤ off && off < 0x82_0080 then s.msixWord ((off - 0x82_0000) / 8)
  else if off = 0x82_1000 then packBits 8 fun k => s.cxl.pba.getD k false
  else match regAt off with
    | none => 0
    | some (r, i, sub) => s.regValue (pathNum p) i sub r

/-- What a read of `bytes` bytes of a BAR0 offset returns: zeros where it is narrower than 64 bits or not aligned (R5). -/
def State.readAccess (s : State) (p : Path) (off bytes : Nat) : Nat :=
  if bytes ≠ 8 || off % 8 ≠ 0 then 0 else s.readReg p off

end Sys2Proof.Machine
end

