-- ==== Sys2Proof/Machine/Registers.lean ====
section
/-! DEFINITION. Register writes (R5, R6, R433 to R440, and the field maps of every chapter), what a powered-down unit
holds until it powers up (R440), status-change bits and MSI-X masks (R423, R442). -/

namespace Sys2Proof.Machine

/-! ## Plain fields -/

/-- The bits of a field in a value written. -/
def Fld.cut (f : Fld) (v : Nat) : Nat := v / 2 ^ f.lo % 2 ^ f.width

/-- A field takes its bits of the value written where `ok` accepts them. -/
def State.writeFld (s : State) (p inst : Nat) (f : Fld) (v : Nat) (ok : Nat → Bool) : State :=
  if ok (f.cut v) then s.setFldAt f inst p (f.cut v) else s

/-- Every RW field of a register takes its bits (R6). -/
def State.writePlain (s : State) (p inst v : Nat) (r : Reg) : State :=
  forEach (r.fields.filter fun f => f.acc == .rw) (fun s f => s.writeFld p inst f v fun _ => true) s

/-- A range of values. -/
def inRange (lo hi v : Nat) : Bool := decide (lo ≤ v) && decide (v ≤ hi)

/-! ## W1C registers and the change mask (R423, R442) -/

/-- A write of EVT_ALERT: bits written 1 clear; STALE and AGEING are set again while their condition holds (R423). -/
def State.writeAlert (s : State) (v : Nat) : State :=
  let s := forEach ((upTo 7).filter (bitOf v ·)) (fun s k => s.setFld (alertFld k) 0 0) s
  let s := if (upTo 8).any (fun l => s.flag .calStatusStale l) then s.setAlert 2 else s
  if (upTo 10).any (fun h => (s.comb h).ageing) then s.setAlert 3 else s

/-- A write of DEV_STATUS_CHG: bits written 1 clear (R442). -/
def State.writeChg (s : State) (v : Nat) : State :=
  forEach ((upTo 10).filter (bitOf v ·)) (fun s k => s.setFld (chgFld k) 0 0) s

/-- A write of DEV_STATUS_MASK: vector 5 is signalled for each newly enabled bit that is set (R442). -/
def State.writeMask (s : State) (v : Nat) : State :=
  let old := s.fld .devStatusMaskEn
  let s := s.setFld .devStatusMaskEn 0 (v % 1024)
  forEach ((upTo 10).filter fun k => bitOf v k && !bitOf old k && s.flag (chgFld k)) (fun s _ => s.signalVector 5) s

/-- EVT_ALERT_CLEAR. -/
def execEvtAlertClear (p : Path) (v : Word) (s : State) : Out := if s.served p then .next (s.writeAlert v.toNat) else .next s

/-- DEV_STATUS_CHG_CLEAR. -/
def execDevStatusChgClear (p : Path) (v : Word) (s : State) : Out :=
  if s.served p then .next (s.writeChg v.toNat) else .next s

/-- DEV_STATUS_MASK_WRITE. -/
def execDevStatusMaskWrite (p : Path) (v : Word) (s : State) : Out :=
  if s.served p then .next (s.writeMask v.toNat) else .next s

/-! ## MSI-X masks (R252, R442) -/

/-- Messages held for vectors that no mask holds any more are sent; vector 5 only while an enabled change bit is set. -/
def State.sendHeldVectors (s : State) : State :=
  forEach (upTo 8) (fun s k =>
    if !s.cxl.pba.getD k false || s.cxl.funcMask || s.cxl.vecMask.getD k true then s
    else
      let s : State := { s with cxl := { s.cxl with pba := s.cxl.pba.set k false } }
      let set := (upTo 10).any fun i => bitOf (s.fld .devStatusMaskEn) i && s.flag (chgFld i)
      if k = 5 && !set then s else s.signalVector k) s

/-- A vector's mask is written. -/
def State.setVecMask (s : State) (k : Nat) (m : Bool) : State :=
  { s with cxl := { s.cxl with vecMask := s.cxl.vecMask.set k m } }.sendHeldVectors

/-- MSIX_UNMASK: a vector's mask, or the function mask, clears. -/
def execMsixUnmask (vector : Option (Fin 8)) (s : State) : Out :=
  if !s.boot.on then .next s
  else match vector with
    | some k => .next (s.setVecMask k false)
    | none => .next { s with cxl := { s.cxl with funcMask := false } }.sendHeldVectors

/-! ## Writes with an effect of their own -/

/-- A write of LAT_CTRL: from the host only under its grant. -/
def State.writeLatCtrl (s : State) (p : Path) (l v : Nat) : State :=
  if !hostAllowed p s.cfg.grantLattice then s.refuse p (Reg.latCtrl.addr l) v
  else
    let s := s.writeEn l v
    if bitOf v 4 then s.fenceLattice l 11 else s

/-- A write of HNX_PORT_CTRL. -/
def State.writePortCtrl (s : State) (p : Path) (i v : Nat) : State :=
  let s := s.writeFld (pathNum p) i .hnxPortCtrlMaxVer v (inRange 1 2)
  let s := if s.flag .hnxPortCtrlEn i = bitOf v 0 then s else s.enablePort i (bitOf v 0)
  if bitOf v 8 then s.retrainPort i else s

/-- A write of CAL_CTRL: a change of USE_FACTORY needs a debug token with DEBUG. -/
def State.writeCalCtrl (s : State) (p : Path) (l v : Nat) : State :=
  if bitOf v 17 ≠ s.flag .calCtrlUseFactory l && !s.tokenPerm 0 then s.refuse p (Reg.calCtrl.addr l) v
  else
    let s := s.setFld .calCtrlUseFactory l (bitsOf v 17 17)
    let s := s.writeFld (pathNum p) l .calCtrlSweepLog2 v (inRange 6 12)
    let s := s.writeFld (pathNum p) l .calCtrlProbeLog2 v (inRange 6 12)
    if bitOf v 16 then s.startEpisode l 4 else s

/-- A write of PWR_BAY_CTRL: a host's change of IDLE_STATE needs its grant. -/
def State.writeBayCtrl (s : State) (p : Path) (b v : Nat) : State :=
  if v % 8 ≠ s.fld .pwrBayCtrlIdleState b && !hostAllowed p s.cfg.grantLattice then s.refuse p (Reg.pwrBayCtrl.addr b) v
  else
    let s := s.writeFld (pathNum p) b .pwrBayCtrlProofPeriod v (inRange 2 100)
    s.writeFld (pathNum p) b .pwrBayCtrlIdleState v (inRange 0 4)

/-- A verdict of a token whose signatures a register write does not carry: a free value (log entry 9). -/
def State.freeVerdict (s : State) : Verdict × Bool :=
  let w := Config.unstated s.free
  ({ ed := w.getLsbD 0, ml := w.getLsbD 1, digest := true }, w.getLsbD 2)

/-- A write of SEC_TOKEN_CTRL: SUBMIT, then NEW_NONCE, then END. -/
def State.writeTokenCtrl (s : State) (v : Nat) : State :=
  let s := if bitOf v 0 then
      let r := s.freeVerdict
      (s.drawn 1).submitToken s.tokenKind r.1 r.2
    else s
  let s := if bitOf v 1 then s.drawNonce else s
  if bitOf v 2 then s.endToken else s

/-- 8 bytes of the token buffer (R398). -/
def State.writeTokenBuf (s : State) (k v : Nat) : State :=
  { s with sec := { s.sec with buf := memStore s.sec.buf (8 * k) (leBytes 8 v) } }

/-! ## Units that a power state powers down (R440) -/

/-- A register's unit is powered down in a bay. -/
def unitDown (y : Bay) (r : Reg) : Bool := if r = .bayLarderCtrl then !y.unitState.larderOn else Block.down y.unitState r.block

/-- A register that a write can only make select; a bay's selectors belong to its register file, which runs in every
state. -/
def Reg.selects (r : Reg) : Bool := r.fields.all fun f => f.acc == .ro || f.sel

/-- What a path's selectors choose for a write of selected data. -/
def State.selected (s : State) (p b : Nat) : Reg → Nat
  | .tmpCoefData => coefKey b (s.fldAt .tmpCoefSelClass b p) (s.fldAt .tmpCoefSelBank b p) (s.fldAt .tmpCoefSelWord b p)
  | .tmpRingData => s.fldAt .tmpRingSelRing b p
  | .htrCluster => s.fldAt .htrSelCluster b p
  | _ => 0

/-- A write of TMP_COEF_DATA: refused for a class's active bank (R307). -/
def State.writeCoef (s : State) (p : Path) (b key v : Nat) : State :=
  let cls := key / 16 % 64
  let bank := key / 8 % 2
  if s.bankOf b cls = bank then s.refuse p (Reg.tmpCoefData.addr b) v else s.setCoef b cls bank (key % 8) v

/-- A write of a TMP_TRACE_CTRL: a stopped channel is cleared when its mode is written (R312); a change of mode drops a
trigger. -/
def State.writeTrace (s : State) (b ch v : Nat) : State :=
  let i := 4 * b + ch
  let s := (s.setFld .tmpTraceCtrlRing i (bitsOf v 49 32)).setFld .tmpTraceCtrlSignal i (bitsOf v 27 24)
  let s := (s.setFld .tmpTraceCtrlTrigger i (bitsOf v 21 20)).setFld .tmpTraceCtrlPost i (bitsOf v 12 0)
  let m := bitsOf v 17 16
  let s := if m = 3 then s
    else
      let x := s.trace i
      let x := if x.stopped then Trace.reset else if m = s.fld .tmpTraceCtrlMode i then x else { x with remaining := none }
      (s.setFld .tmpTraceCtrlMode i m).setTrace i x
  if bitOf v 15 then s.trigTrace i else s

/-- A write of HTR_CLUSTER: RATE, STEP and FTW only within their ranges. -/
def State.writeCluster (s : State) (q v : Nat) : State :=
  s.modCluster q fun c => { c with
    den := bitOf v 55, dph := bitsOf v 54 47, amp := bitsOf v 46 39,
    rate := if inRange 1 255 (bitsOf v 38 31) then bitsOf v 38 31 else c.rate,
    step := if inRange 1 4095 (bitsOf v 30 19) then bitsOf v 30 19 else c.step,
    ftw := if inRange 6872 343597 (bitsOf v 18 0) then bitsOf v 18 0 else c.ftw }

/-- A write of a register of bay `b` whose unit is powered: `i` is its block's instance, `sub` its member, `sel` what the
path's selectors chose. -/
def State.writeUnit (s : State) (p : Path) (b i sub sel v : Nat) (r : Reg) : State :=
  match r with
  | .rowCtrl => if s.tokenPerm 0 then s.setFld .rowCtrlSrFixed i (v % 2) else s.refuse p (Reg.rowCtrl.addr i) v
  | .bayLarderCtrl =>
    let s := s.setFld .bayLarderCtrlProtWays b (v % 16)
    if bitOf v 8 then s.flushLarder b else s
  | .tmpCtrl =>
    (s.setFld .tmpCtrlLowEn b (bitsOf v 16 16)).writeFld (pathNum p) b .tmpCtrlIdPeriod v (inRange 1 100)
  | .tmpBankSwap => s.bankSwap b v
  | .tmpCoefData => s.writeCoef p b sel v
  | .tmpRingData =>
    let lr := ringOf b sel
    s.modRing (ringKey lr.1 lr.2) fun x => { x with cls := bitsOf v 63 58 }
  | .tmpTraceCtrl => s.writeTrace b sub v
  | .htrCluster => s.writeCluster (4096 * b + sel) v
  | .monWin =>
    let s := s.setFldAt .monWinClass b (pathNum p) (bitsOf v 21 16)
    s.writeFld (pathNum p) (64 * b + bitsOf v 21 16) .monWinWin v (inRange 0x40 0x4000)
  | .monTest => s.writeMonTest p b v
  | _ => s

/-- A write of such a register: held while its unit is powered down (R440). -/
def State.writeBay (s : State) (p : Path) (b i sub v : Nat) (r : Reg) : State :=
  let sel := s.selected (pathNum p) b r
  if unitDown (s.bay b) r then s.holdWrite p b (r.addr i + 8 * sub) sel v else s.writeUnit p b i sub sel v r

/-- Writes held for units that are powered now take effect, oldest first (R440). -/
def State.applyHeldWrites (s : State) (b : Nat) : State :=
  let y := s.bay b
  let up (h : Path × Nat × Nat × Word) : Bool := match regAt h.2.1 with
    | some (r, _, _) => !unitDown y r
    | none => true
  let s := s.setBay b { y with held := y.held.filter fun h => !up h }
  forEach (y.held.filter up) (fun s h => match regAt h.2.1 with
    | some (r, i, sub) => s.writeUnit h.1 b i sub h.2.2.1 h.2.2.2.toNat r
    | none => s) s

/-! ## Every register -/

/-- A write of register `r`, instance `i`, member `sub`. -/
def State.writeTo (s : State) (p : Path) (i sub v : Nat) (r : Reg) : State :=
  if r.selects then s.writePlain (pathNum p) i v r
  else match r with
  | .latCtrl => s.writeLatCtrl p i v
  | .calCtrl => s.writeCalCtrl p i v
  | .rowCtrl => s.writeBay p (i / 2) i sub v r
  | .bayLarderCtrl | .tmpCtrl | .tmpBankSwap | .tmpCoefData | .tmpRingData | .tmpTraceCtrl | .htrCluster | .monWin
  | .monTest => s.writeBay p i i sub v r
  | .pwrBayCtrl => s.writeBayCtrl p i v
  | .bayCelScrubCtrl => s.writeFld (pathNum p) i .bayCelScrubCtrlPassH v (inRange 1 24)
  | .wchHoldCtrl => if s.sec.locked then s else s.writeFld (pathNum p) 0 .wchHoldCtrlTimeoutUs v (inRange 100 100000)
  | .hnxMcCtrl => if s.sec.locked then s else s.writeFld (pathNum p) 0 .hnxMcCtrlStallUs v (inRange 10 10000)
  | .cxlHdmCtrl => s.writeFld (pathNum p) 0 .cxlHdmCtrlRecallNs v (inRange 100 10000)
  | .cxlInjCtrl =>
    if !s.tokenPerm 1 then s.refuse p (Reg.cxlInjCtrl.addr 0) v
    else s.writeInj p (v % 8) (bitsOf v 31 16) (some (bitsOf v 47 32))
  | .hnxPortCtrl => s.writePortCtrl p i v
  | .hnxPmapCtrl => s.writeProfile p v
  | .fltHnxCtrl => s.writeFlt p v (v % 8)
  | .calStoreCtrl => if bitOf v 0 then s.startSave else s
  | .nvmCtrl =>
    if bitOf v 0 || !hostAllowed p s.cfg.grantRestart then s.writeRestart p v else s
  | .jnlCtrl => if bitOf v 0 then s.writeCompact p v else s
  | .pwrLimit =>
    if !hostAllowed p s.cfg.grantLattice then s.refuse p (Reg.pwrLimit.addr 0) v else s.writeLimit (v % 1024)
  | .secTokenCtrl => s.writeTokenCtrl v
  | .secTokenBuf => s.writeTokenBuf sub v
  | .evtAlert => s.writeAlert v
  | .mgtFenceCtrl => s.writeFenceClear p v
  | .devStatusChg => s.writeChg v
  | .devStatusMask => s.writeMask v
  | r => s.writePlain (pathNum p) i v r

/-- A write of a word of the MSI-X table (layout PRESUMED, log entry 77). -/
def State.writeMsix (s : State) (k v : Nat) : State :=
  let s : State := { s with cxl := { s.cxl with
    msix := tset 0 s.cxl.msix k (BitVec.ofNat 64 (if k % 2 = 0 then v else v % 2 ^ 32)) } }
  if k % 2 = 1 then s.setVecMask (k / 2) (bitOf v 32) else s

/-- An aligned 64-bit write of a BAR0 offset (R5, R433, R439). -/
def State.writeReg (s : State) (p : Path) (off v : Nat) : State :=
  if s.boot.reread && !inCxl off then s
  else if 0x80_0000 ≤ off && off < 0x82_0000 then
    { s with cxl := { s.cxl with
        regs := tset 0 s.cxl.regs (off / 8) (BitVec.ofNat 64 v),
        bi := match Config.biSetting off (BitVec.ofNat 64 v) with
          | some b => b && decide (1 ≤ s.cxl.level)
          | none => s.cxl.bi } }
  else if 0x82_0000 ≤ off && off < 0x82_0080 then s.writeMsix ((off - 0x82_0000) / 8) v
  else match regAt off with
    | none => s
    | some (r, i, sub) => s.writeTo p i sub v r

/-- REGISTER_WRITE: a host access to BAR0; one narrower than 64 bits or not aligned has no effect (R5). -/
def execRegisterWrite (off : BitVec 26) (bytes : Nat) (v : Word) (s : State) : Out :=
  if !s.linkUp || bytes ≠ 8 || off.toNat % 8 ≠ 0 then .next s else .next (s.writeReg .bar0 off.toNat v.toNat)

/-! ## Bay power transitions, which power units up (R365 to R370) -/

/-- POWER_REQUEST: a request toward the transition in progress is absorbed, any other is held as the one pending
request (R370). -/
def execPowerRequest (b : Fin 4) (s : State) : Out :=
  let y := s.bay b
  if !s.boot.on then .next s
  else match y.trans with
  | none => match s.wanted b y.power with
    | none => .next s
    | some q => .next ((s.formRequest b q).applyHeldWrites b)
  | some t => match s.wanted b t.target with
    | none => .next s
    | some q =>
      let s := match y.pendReq with
        | some p => if p = q then s else s.resolvePower b (fun m => pstateOf m == p) false
        | none => s
      .next (s.modBay b fun y => { y with pendReq := some q })

/-- POWER_TRANSITION_COMPLETE: the bay holds the target, waiters resolve, and a pending request starts where its
condition still holds, else lapses (R366, R370). -/
def execPowerTransitionComplete (b : Fin 4) (s : State) : Out :=
  let y := s.bay b
  match y.trans with
  | none => .next s
  | some t =>
    if !t.committed || !(s.latSettled (2 * b) t.target && s.latSettled (2 * b + 1) t.target) then .next s
    else
      let s := s.modBay b fun y => { y with power := t.target, trans := none, pendReq := none, sliceAt := none }
      -- PROOF runs the loops in slices only, so that its lattices have not run them throughout (R40, R372)
      let s := if t.target = .proof then forEach [2 * b.val, 2 * b.val + 1] (fun s l => s.modLat l fun x => { x with leftServing := none }) s
        else s
      let s := (s.markChg 5).sensorChange (40 + b) t.target.code
      let s := (s.resolvePower b (fun m => pstateOf m == t.target) true).applyHeldWrites b
      match y.pendReq with
      | none => .next s
      | some p =>
        if s.wanted b t.target = some p then .next ((s.formRequest b p).applyHeldWrites b)
        else .next (s.resolvePower b (fun m => pstateOf m == p) false)

/-- POWER_REQUEST_RETRY: a refused request formed from IDLE_STATE is formed again 10 ms later. -/
def execPowerRequestRetry (b : Fin 4) (s : State) : Out :=
  let y := s.bay b
  if !y.retryDue then .next s
  else
    let s := s.modBay b fun y => { y with retryDue := false }
    match y.trans, (s.busyThreads b).isEmpty, s.wanted b y.power with
    | none, true, some q => .next ((s.formRequest b q).applyHeldWrites b)
    | _, _, _ => .next s

end Sys2Proof.Machine
end

