-- ==== Sys2Proof/Machine/Management.lean ====
section
/-! DEFINITION. The management endpoints: MCTP, the vendor commands, PLDM sensors and effecter, firmware update (R425 to
R430, R435, R437, R439, R441, R460). -/

namespace Sys2Proof.Machine

/-! ## Who is reached (R425, R439) -/

/-- The register path of an endpoint (R435). -/
def epPath : Ep → Path
  | .i3c => .i3c
  | .vdm => .vdm

/-- A request reaches an endpoint of the running device: over PCIe VDM while the link is in L0. -/
def State.reaches (s : State) (ep : Ep) : Bool :=
  match ep with
  | .i3c => s.pins.aux && s.boot.on
  | .vdm => s.boot.on && s.cxl.state == .l0

/-- The I3C endpoint runs from VDD_AUX alone, the device itself not (R425, R441). -/
def State.auxOnly (s : State) (ep : Ep) : Bool := ep == .i3c && s.pins.aux && !s.boot.on

/-- A vendor or PLDM request (R425, R439): not ready from step 3 to the end of step 5 of a warm restart. -/
def State.request (s : State) (ep : Ep) (f : State → State) : State :=
  if !s.reaches ep then s else if s.boot.mgmtDown then s.answer .notReady else f s

/-- PLDM and MCTP completion codes (DSP0240, DSP0248, DSP0267; PRESUMED, log entry 78). -/
def plError : Nat := 0x01
def plInvalidData : Nat := 0x02
def plNoSensor : Nat := 0x80
def plNotInUpdate : Nat := 0x80
def plInUpdate : Nat := 0x81
def plBadState : Nat := 0x84

/-! ## Addresses (R425, R460) -/

/-- MCTP_CONTROL: Set Endpoint ID where it carries one that may be assigned, else Get Endpoint ID; answered on VDD_AUX
alone too. -/
def execMctpControl (ep : Ep) (setEid : Option (BitVec 8)) (s : State) : Out :=
  if !(s.reaches ep || s.auxOnly ep) then .next s
  else match setEid, ep with
    | some e, .i3c =>
      .next (if e = 0 || e = 255 then s.answer (.error plInvalidData)
        else { s with mgmt := { s.mgmt with eidI3c := e } }.answer .done)
    | some e, .vdm =>
      .next (if e = 0 || e = 255 then s.answer (.error plInvalidData)
        else { s with mgmt := { s.mgmt with eidVdm := e } }.answer .done)
    | none, .i3c => .next (s.answer (.value (s.mgmt.eidI3c.zeroExtend 64)))
    | none, .vdm => .next (s.answer (.value (s.mgmt.eidVdm.zeroExtend 64)))

/-- I3C_ADDRESS_ASSIGN: ENTDAA, or SETDASA to the static address 0x5C, gives the dynamic address. -/
def execI3cAddressAssign (_setdasa : Bool) (addr : BitVec 7) (s : State) : Out :=
  .next (if s.pins.aux then { s with mgmt := { s.mgmt with i3cAddr := addr } } else s)

/-! ## Vendor commands (R426) -/

/-- SUBMIT_TOKEN_CMD: the token goes to the buffer and is checked, as SEC_TOKEN_BUF and SUBMIT do (R398). -/
def execSubmitTokenCmd (ep : Ep) (bytes : List Byte) (sig : Verdict) (digestOk : Bool) (s : State) : Out :=
  .next (s.request ep fun s =>
    let s : State := { s with sec := { s.sec with buf := memStore [] 0 (bytes.take 8192) } }
    let s := s.submitToken s.tokenKind sig digestOk
    s.answer (if s.sec.tokenResult = 0 then .done else .error s.sec.tokenResult))

/-- READ_NONCE_CMD: the nonce, zero while none is valid. -/
def execReadNonceCmd (ep : Ep) (s : State) : Out :=
  .next (s.request ep fun s => s.answer (.data (leBytes 32 (s.sec.nonce.getD 0).toNat) false))

/-- READ_EVENTS_CMD: up to 64 entries of the log from a sequence number on. -/
def execReadEventsCmd (ep : Ep) (seq : Word) (count : Nat) (s : State) : Out :=
  .next (s.request ep fun s =>
    s.answer (.data ((upTo (min 64 count)).flatMap fun k => ((s.eventAt (seq.toNat + k)).map Event.bytes).getD []) false))

/-- Registers whose C fields are counters that saturate. -/
def countRegs : List Reg :=
  [.latSuspectCnt, .latRewindCnt, .latClipCnt, .latFmtCnt, .rowOvfCnt, .rowOvfCause, .rowDrain, .vecRedCnt,
   .latSkipSlots, .latSkipPlanes, .vecRouteCnt, .vecGateCnt, .vecExitCnt, .ctxEventCnt, .seqGrantCnt, .seqSpill,
   .bayLarderEvents, .celEccCnt, .bayPantryEcc, .celMapWin, .wchEventCnt, .wchHoldCnt, .seqGov, .cxlLinkCnt,
   .cxlHdmCnt, .hnxLaneCnt, .hnxRetryCnt, .hnxPortEvt, .hnxFlowCnt, .hnxMcCnt, .hnxPmapStatus, .fltHnxCnt,
   .tmpEventCnt, .tmpCombEvents, .htrEventCnt, .calForcedCnt, .calEventCnt, .jnlWear, .pwrEventCnt, .pwrProofCnt,
   .secFailCnt, .evtErrCnt]

/-- Counters that saturate and stay (R424). -/
def Fld.counts (f : Fld) : Bool :=
  (f.acc == .ro && f.dom == .cold && countRegs.contains f.reg) ||
  [Fld.celScrubStatusPasses, .monConvDrops, .jnlHoldDropped, .clkStatusUnlocks, .devRefusedCount].contains f

/-- A register's value as management reports it: with the saturated flag where one of its counters stands at its largest
value (R424; the flag's place in the message is not given, log entry 85). -/
def counterReply (off v : Nat) : Reply :=
  let full (f : Fld) : Bool := f.counts && decide (v / 2 ^ f.lo % 2 ^ f.width = 2 ^ f.width - 1)
  if (regAt off).any fun e => e.1.fields.any full then .saturated (BitVec.ofNat 64 v) else .value (BitVec.ofNat 64 v)

/-- A register read over a management path: one that is not aligned returns zeros (R5), one of SEC_NONCE0 latches the
rest (R441). -/
def State.readCmd (s : State) (p : Path) (off : Nat) : State :=
  let v := s.readAccess p off 8
  let s := if off = Reg.secNonce.addr 0 then s.latchNonce p else s
  s.answer (counterReply off v)

/-- READ_REGISTER_CMD. On VDD_AUX alone, or while a trip holds the device, only THM_TRIP and MGT_STATUS are answered
(R441). -/
def execReadRegisterCmd (ep : Ep) (off : BitVec 26) (s : State) : Out :=
  if s.auxOnly ep then
    .next (if off.toNat = Reg.thmTrip.addr 0 || off.toNat = Reg.mgtStatus.addr 0 then s.readCmd (epPath ep) off.toNat
      else s.answer (.error plError))
  else .next (s.request ep fun s => s.readCmd (epPath ep) off.toNat)

/-- WRITE_REGISTER_CMD: under the register's access codes; refused on VDD_AUX alone (R441). -/
def execWriteRegisterCmd (ep : Ep) (off : BitVec 26) (v : Word) (s : State) : Out :=
  if s.auxOnly ep then .next (s.answer (.error plError))
  else .next (s.request ep fun s =>
    (if off.toNat % 8 = 0 then s.writeReg (epPath ep) off.toNat v.toNat else s).answer .done)

/-- CLEAR_FENCE_CMD (R417). -/
def execClearFenceCmd (ep : Ep) (l : Fin 8) (s : State) : Out :=
  .next (s.request ep fun s => (s.clearFence l).answer .done)

/-- WARM_RESTART_CMD (R351). -/
def execWarmRestartCmd (ep : Ep) (s : State) : Out :=
  .next (s.request ep fun s => s.requestRestart.answer .done)

/-- UPKEEP_PHASE_CMD: success at once, and no effect (R430). -/
def execUpkeepPhaseCmd (ep : Ep) (s : State) : Out := .next (s.request ep fun s => s.answer .done)

/-! ## PLDM sensors and effecter (R427) -/

/-- GET_TID: answered on VDD_AUX alone too; the identifier is the terminus's own (free). -/
def execGetTid (ep : Ep) (s : State) : Out :=
  .next (if s.auxOnly ep then s.answer (.data (Config.specData 21 0) false)
    else s.request ep fun s => s.answer (.data (Config.specData 21 0) false))

/-- The value of a sensor: temperatures in 1/256 °C; power, L and EVT_AVAIL as the last telemetry sample took them
(R14). -/
def State.sensorValue (s : State) (id : Nat) : Option Int :=
  let tel (k : Nat) : Nat := s.mgmt.telemetry.getD k 0
  if 1 ≤ id && id ≤ 23 then some (s.domainTemp (id - 1)).1
  else if id = 24 then some (tel 0)
  else if id = 25 then some (tel 1)
  else if 32 ≤ id && id ≤ 39 then some (s.lat (id - 32)).state.code
  else if 40 ≤ id && id ≤ 43 then some (s.bay (id - 40)).power.code
  else if 48 ≤ id && id ≤ 57 then some (s.comb (id - 48)).state.code
  else if id = 64 then some (tel 2 / 1000000 : Nat)
  else if id = 65 then some s.boot.stage
  else none

/-- GET_SENSOR_READING; unavailable on VDD_AUX alone (R425). -/
def execGetSensorReading (ep : Ep) (id : Nat) (s : State) : Out :=
  .next (if s.auxOnly ep then s.answer (.error plError)
    else s.request ep fun s => match s.sensorValue id with
      | none => s.answer (.error plNoSensor)
      | some v => s.answer (.value (BitVec.ofInt 64 v)))

/-- SET_EFFECTER: effecter 1 is PWR_LIMIT.SET. -/
def execSetEffecter (ep : Ep) (id v : Nat) (s : State) : Out :=
  .next (s.request ep fun s => if id = 1 then (s.writeLimit v).answer .done else s.answer (.error plNoSensor))

/-- POLL_PLATFORM_EVENT: the oldest event of warning severity or above, else the oldest sensor change (log entry 79). -/
def execPollPlatformEvent (ep : Ep) (s : State) : Out :=
  .next (s.request ep fun s => match s.mgmt.events, s.mgmt.states with
    | e :: r, _ => { s with mgmt := { s.mgmt with events := r } }.answer (.data e.bytes false)
    | [], e :: r => { s with mgmt := { s.mgmt with states := r } }.answer (.data (leBytes 2 e.1 ++ leBytes 1 e.2) false)
    | [], [] => s.answer .done)

/-! ## Firmware update (R348, R428, R429) -/

/-- The update state. -/
def State.setUpdate (s : State) (u : Update) : State := { s with mgmt := { s.mgmt with update := u } }

/-- Update mode is left with nothing committed. -/
def State.leaveUpdate (s : State) : State :=
  { s with mgmt := { s.mgmt with update := .idle, agent := none, component := 0, staged := none, fwStaged := false } }

/-- A request of the agent served, in an update state that `ok` accepts. -/
def State.updateRun (s : State) (ep : Ep) (agent : Nat) (ok : Update → Bool) (f : State → State) : State :=
  s.request ep fun s =>
    if s.mgmt.update = .idle then s.answer (.error plNotInUpdate)
    else if s.mgmt.agent ≠ some agent || !ok s.mgmt.update then s.answer (.error plBadState)
    else f s

/-- REQUEST_UPDATE: one agent at a time; components 0x0001 and 0x0002. -/
def execRequestUpdate (ep : Ep) (agent component : Nat) (s : State) : Out :=
  .next (s.request ep fun s =>
    if s.mgmt.update ≠ .idle then s.answer (.error plInUpdate)
    else if component ≠ 1 && component ≠ 2 then s.answer (.error plInvalidData)
    else { s with mgmt := { s.mgmt with update := .learning, agent := some agent, component := component } }.answer .done)

/-- The slot not in use takes an image, or is erased; a committed configuration there no longer waits for the start. -/
def State.setSpare (s : State) : Nat → Option Staged → State
  | 1, i =>
    let fw := match i with
      | some (.firmware x) => some x
      | _ => none
    { s with flash := if s.boot.fwSlot = 0 then { s.flash with fwB := fw } else { s.flash with fwA := fw } }
  | _, i =>
    let c := match i with
      | some (.config x) => some x
      | _ => none
    let s := s.setFld .nvmCfgPendingSeq 0 0
    { s with flash := if s.boot.cfgSlot = 0 then { s.flash with cfgB := c } else { s.flash with cfgA := c } }

/-- An image is the component asked for. -/
def stagedFor (component : Nat) : Option Staged → Option Staged
  | some (.firmware x) => if component = 1 then some (.firmware x) else none
  | some (.config x) => if component = 2 then some (.config x) else none
  | none => none

/-- FIRMWARE_DATA_RECEIVED: a block of up to 4,096 bytes, while the write window is open; the first one after the slot
not in use is erased. `image` comes with the last. -/
def execFirmwareDataReceived (ep : Ep) (agent bytes : Nat) (image : Option Staged) (s : State) : Out :=
  .next (s.updateRun ep agent (fun u => u == .learning || u == .downloading) fun s =>
    if !s.jnl.windowOpen || 4096 < bytes || !s.flash.answers then s
    else
      let c := s.mgmt.component
      let s := if s.mgmt.update = .learning then s.setSpare c none else s
      match image with
      | none => (s.setUpdate .downloading).answer .done
      | some _ =>
        ({ s with mgmt := { s.mgmt with staged := stagedFor c image } }.setUpdate .verifying).answer .done)

/-- The staged image passes: signatures, digest, S ≥ F for firmware; R346 and the sequence rule of R348 for a
configuration. -/
def State.stagedOk (s : State) : Bool :=
  match s.mgmt.staged with
  | none => false
  | some (.firmware i) => fwCause s.sec.svn (some i) == 0
  | some (.config i) => s.cfgCause (some i) == (0, 0) && decide (s.cfgSeq < i.seq)

/-- Signatures of the staged image that failed, with the kind of object (R392). -/
def State.stagedSig (s : State) : State :=
  match s.mgmt.staged with
  | none => s
  | some (.firmware i) => s.noteSig 0 (Verdict.fails i.verdict)
  | some (.config i) => s.noteSig 1 (Verdict.fails i.verdict)

/-- VERIFY_COMPLETE: a component that fails may be transferred again (log entry 80). -/
def execVerifyComplete (ep : Ep) (agent : Nat) (s : State) : Out :=
  .next (s.updateRun ep agent (· == .verifying) fun s =>
    let s := s.stagedSig
    if s.stagedOk then (s.setUpdate .applying).answer .done
    else ({ s with mgmt := { s.mgmt with staged := none } }.setUpdate .learning).answer (.error plError))

/-- APPLY_COMPLETE: the manifest is written; a configuration is committed for the next start. -/
def execApplyComplete (ep : Ep) (agent : Nat) (s : State) : Out :=
  .next (s.updateRun ep agent (· == .applying) fun s =>
    if !s.jnl.windowOpen || !s.flash.answers then s
    else
      let s := s.setSpare s.mgmt.component s.mgmt.staged
      let s := match s.mgmt.staged with
        | some (.config i) =>
          (s.journal .configCommit [1 - s.boot.cfgSlot, i.seq, leNat (i.digest.take 32)]).setFld .nvmCfgPendingSeq 0 i.seq
        | _ => { s with mgmt := { s.mgmt with fwStaged := true } }
      (s.setUpdate .ready).answer .done)

/-- A firmware component is activated: FW_ACTIVATE names its slot; the save of R331 comes before the restart (R351). -/
def State.activate (s : State) : State :=
  let k := 1 - s.boot.fwSlot
  let i := s.fwOf k
  let s := s.journal .fwActivate [k, (i.map fun x => x.version.toNat).getD 0, (i.map (·.svn)).getD 0]
  let s := s.leaveUpdate
  if s.boot.stage = 5 then { s.startSave with boot := { s.startSave.boot with wantFwSave := true } } else s.requestRestart

/-- ACTIVATE_FIRMWARE: the restart is requested, with an estimated time of 1 s. -/
def execActivateFirmware (ep : Ep) (agent : Nat) (s : State) : Out :=
  .next (s.updateRun ep agent (· == .ready) fun s =>
    (if s.mgmt.fwStaged then s.activate else s.leaveUpdate.requestRestart).answer (.value 1))

/-- CANCEL_UPDATE. -/
def execCancelUpdate (ep : Ep) (agent : Nat) (s : State) : Out :=
  .next (s.updateRun ep agent (fun _ => true) fun s => s.leaveUpdate.answer .done)

/-- UPDATE_AGENT_TIMEOUT: an agent silent for 120 s is treated as having cancelled. -/
def execUpdateAgentTimeout (s : State) : Out :=
  .next (if !s.boot.on || s.boot.mgmtDown || s.mgmt.update = .idle then s else s.leaveUpdate)

end Sys2Proof.Machine
end

