-- ==== Sys2Proof/Machine/Route.lean ====
section
/-! DEFINITION. The GATE, ROUTE and EXIT steps (R104 to R112, R130). -/

namespace Sys2Proof.Machine

/-- Bytes [lo, lo + n) of a parameter record as a number. -/
def recNat (r : List Byte) (lo n : Nat) : Nat := leNat ((r.drop lo).take n)

/-- The 64-byte record at PARAM (R130): 64-byte aligned, unused bytes zero. -/
def readRecord (s : State) (c : Ctx) (w used : Nat) : Except Nat (List Byte) :=
  if stepParam w % 64 ≠ 0 then .error fltAlignment
  else do
    let r ← s.readVirt c (stepParam w) 64
    if (r.drop used).any (· != 0) then .error fltParameter else .ok r

/-- Read `n` FP32 values. -/
def readFps (s : State) (c : Ctx) (va n : Nat) : Except Nat (List Nat) :=
  (s.readVirt c va (4 * n)).map fun b => (upTo n).map fun i => leNat ((b.drop (4 * i)).take 4)

/-- The bytes of a mask of `n` items (R105). -/
def maskBytes (n : Nat) (pass : List Nat) : List Byte :=
  leBytes ((n + 63) / 64 * 8) (pass.foldl (fun a t => a + 2 ^ t) 0)

/-- The bytes of an index list (R104). -/
def listBytes (domain : Nat) (l : List Nat) : List Byte :=
  leBytes 4 l.length ++ leBytes 4 domain ++ l.flatMap (leBytes 4)

/-- Set the thread's predicate and the ranges the step writes. -/
def State.stepResult (s : State) (t uid : Nat) (pred : Bool) (writes : List (Nat × Nat)) : State :=
  (s.modThread t fun th => { th with pred := pred }).modStep t uid fun a => { a with writes := writes }

/-- The vector engine of a step in progress. -/
def State.engineOf (s : State) (t uid : Nat) : Nat := (((s.thread t).step? uid).map (·.engine)).getD 0

/-! ## GATE (R106) -/

/-- A score passes at or above THRESH, or as a NaN. -/
def scorePasses (thresh score : Nat) : Bool := (f32 score).isNan || (f32 thresh).le (f32 score)

/-- The neighbours of tile `t` on a grid of width `gw` with `n` tiles. -/
def neighbours (n gw t : Nat) : List Nat :=
  let r : Int := t / gw
  let c : Int := t % gw
  ([-1, 0, 1].flatMap fun dr => ([-1, 0, 1].map fun dc => (r + dr, c + dc))).filterMap fun (p : Int × Int) =>
    if 0 ≤ p.1 && 0 ≤ p.2 && decide (p.2 < gw) && decide ((p.1 * gw + p.2) < n) then some (p.1 * gw + p.2).toNat
    else none

/-- The tiles that pass. -/
def gatePass (n gw : Nat) (dilate : Bool) (scores : List Nat) (thresh : Nat) : List Nat :=
  let ok (t : Nat) : Bool := scorePasses thresh (scores.getD t 0)
  (upTo n).filter fun t => ok t || (dilate && (neighbours n gw t).any ok)

/-- GATE's effect. -/
def gateEffect (t : Nat) (s : State) (th : Thread) (w uid : Nat) : StepRun := do
  let c := s.ctx th.ctx
  let r ← orFault s (readRecord s c w 40)
  let n := recNat r 24 4
  let gw := recNat r 28 2
  let thresh := recNat r 32 4
  let passMax := recNat r 36 4
  let mask := recNat r 8 8
  let list := recNat r 16 8
  if n < 1 || 16777216 < n || gw < 1 || 1 < recNat r 30 1 || recNat r 31 1 ≠ 0 || n < passMax then .error (fltParameter, s)
  else if mask % 8 ≠ 0 || list % 8 ≠ 0 then .error (fltAlignment, s)
  else
    let scores ← orFault s (readFps s c (recNat r 0 8) n)
    let pass := gatePass n gw (recNat r 30 1 == 1) scores thresh
    let s ← orFault s (s.writeVirt c mask (maskBytes n pass))
    let s ← orFault s (s.writeVirt c list (listBytes n pass))
    let above := decide (passMax < pass.length)
    let s := if above then s.bump .vecGateCntOver (s.engineOf t uid) else s
    .ok (s.stepResult t uid above [(mask, (n + 63) / 64 * 8), (list, 8 + 4 * n)])

/-- GATE. -/
def execGate (t : Fin 512) (s : State) : Out := .next (s.longStep t .gate (gateEffect t))

/-! ## ROUTE (R109 to R111) -/

/-- A value ranked with NaN as −∞. -/
def rankValue (x : FV) : FV := if x.isNan then .inf true else x

/-- Insert an expert in ranking order: larger value first, then the lower identifier. -/
def rankInsert (x : FV × Nat) : List (FV × Nat) → List (FV × Nat)
  | [] => [x]
  | y :: r =>
    if !(x.1.le y.1) || ((y.1.le x.1) && decide (x.2 < y.2)) then x :: y :: r else y :: rankInsert x r

/-- Softmax weights of ROUTE: NaN counts as −∞ and −∞ takes no share; +∞ share equally; all −∞ give +0 (R109). A weight is
the exact share rounded once to FP32 (R113: DEDUCED, log entry 81). -/
def routeSoftmax (l : List FV) : List FV :=
  let l := l.map rankValue
  if l.any FV.isPosInf then
    let m := (l.filter FV.isPosInf).length
    l.map fun x => if x.isPosInf then reciprocal m else .fin false 0 0
  else if l.all FV.isNegInf then l.map fun _ => .fin false 0 0
  else
    (softmaxShares l).map fun x => f32 (toF32 (.fin false x (-320)))

/-- A token's choices in rank order: expert, weight, and whether its ranking value is −∞ (R109). -/
def choices (k : Nat) (allE : Bool) (logits bias : List FV) : List (Nat × FV × Bool) :=
  let ranked := ((logits.zipIdx.map fun x => (rankValue (x.1.add (bias.getD x.2 (.fin false 0 0))), x.2)).foldl
    (fun r x => rankInsert x r) []).take k
  let ws := if allE then
      let all := routeSoftmax logits
      ranked.map fun x => all.getD x.2 (.fin false 0 0)
    else routeSoftmax (ranked.map fun x => logits.getD x.2 .nan)
  ranked.zipIdx.map fun x => (x.1.2, ws.getD x.2 (.fin false 0 0), x.1.1.isNegInf)

/-- Assignment as it proceeds (R110): entries accepted (expert, position, rank, token), counts and drops by expert. -/
structure Assign where
  entries : List (Nat × Nat × Nat × Nat)
  counts : Tbl Nat
  drops : Tbl Nat
  dropped : Nat

/-- Assign one choice to capacity. -/
def assignOne (cap rank token : Nat) (a : Assign) (ch : Nat × FV × Bool) : Assign :=
  let n := tget 0 a.counts ch.1
  if ch.2.2 || decide (cap ≤ n) then
    { a with drops := tset 0 a.drops ch.1 (tget 0 a.drops ch.1 + 1), dropped := a.dropped + 1 }
  else { a with entries := a.entries ++ [(ch.1, n, rank, token)], counts := tset 0 a.counts ch.1 (n + 1) }

/-- Assign every choice, rank-major (R110). -/
def assignAll (cap k : Nat) (chs : List (List (Nat × FV × Bool))) : Assign :=
  (upTo k).foldl (fun a r => chs.zipIdx.foldl (fun a t => match t.1[r]? with
    | some ch => assignOne cap r t.2 a ch
    | none => a) a) { entries := [], counts := [], drops := [], dropped := 0 }

/-- A token's 64-byte record (R111). -/
def routeRecord (a : Assign) (token : Nat) (chs : List (Nat × FV × Bool)) : List Byte :=
  (upTo 8).flatMap fun r =>
    match chs[r]?, a.entries.find? fun e => e.2.2.1 == r && e.2.2.2 == token with
    | some ch, some e => leBytes 8 (toF32 ch.2.1 * 2 ^ 32 + e.2.1 * 2 ^ 16 + e.1)
    | _, _ => leBytes 8 0xFFFF

/-- ROUTE's effect. -/
def routeEffect (t : Nat) (s : State) (th : Thread) (w uid : Nat) : StepRun := do
  let c := s.ctx th.ctx
  let r ← orFault s (readRecord s c w 50)
  let n := recNat r 40 4
  let e := recNat r 44 2
  let k := recNat r 46 1
  let norm := recNat r 47 1
  let cap := recNat r 48 2
  let recs := recNat r 16 8
  let lists := recNat r 24 8
  let counts := recNat r 32 8
  if n < 1 || 65536 < n || k < 1 || 8 < k || e < k || 1024 < e || 1 < norm || cap < 1 then .error (fltParameter, s)
  else if recs % 64 ≠ 0 || lists % 8 ≠ 0 || counts % 8 ≠ 0 then .error (fltAlignment, s)
  else
    let logits ← orFault s (readFps s c (recNat r 0 8) (n * e))
    let bias ← if recNat r 8 8 = 0 then pure [] else orFault s (readFps s c (recNat r 8 8) e)
    let chs := (upTo n).map fun i => choices k (norm == 1) (((logits.drop (i * e)).take e).map f32) (bias.map f32)
    let a := assignAll cap k chs
    let s ← foldRun (fun s i => orFault s (s.writeVirt c (recs + 64 * i) (routeRecord a i (chs.getD i [])))) (upTo n) s
    let s ← foldRun (fun s (x : Nat × Nat × Nat × Nat) =>
      orFault s (s.writeVirt c (lists + 4 * (cap * x.1 + x.2.1)) (leBytes 4 (x.2.2.1 * 2 ^ 29 + x.2.2.2)))) a.entries s
    let s ← foldRun (fun s i => orFault s (s.writeVirt c (counts + 4 * i)
      (leBytes 4 (min (tget 0 a.drops i) 0xFFFF * 2 ^ 16 + tget 0 a.counts i)))) (upTo e) s
    let s := s.bump .vecRouteCntDropped (s.engineOf t uid) a.dropped
    .ok (s.stepResult t uid (decide (0 < a.dropped)) [(lists, 4 * cap * e), (counts, 4 * e)])

/-- ROUTE. -/
def execRoute (t : Fin 512) (s : State) : Out := .next (s.longStep t .route (routeEffect t))

/-! ## EXIT (R112) -/

/-- The parameters of an EXIT step. -/
structure ExitIn where
  c : Ctx
  domain : Nat
  active : Nat
  conf : Nat
  src : Nat
  dst : Nat
  xmap : Nat
  thresh : Nat
  rb : Nat
  xid : Nat

/-- One list position: the item exits with its output, or continues in NEXT. -/
def exitOne (x : ExitIn) (p : Nat) (r : State × List Nat) : Except (Nat × State) (State × List Nat) := do
  let s := r.1
  let i := leNat (← orFault s (s.readVirt x.c (x.active + 8 + 4 * p) 4))
  if x.domain ≤ i then .error (fltParameter, s)
  else
    let v := f32 (leNat (← orFault s (s.readVirt x.c (x.conf + 4 * p) 4)))
    if !v.isNan && (f32 x.thresh).le v then
      let d ← orFault s (s.readVirt x.c (x.src + p * x.rb) x.rb)
      let s ← orFault s (s.writeVirt x.c (x.dst + i * x.rb) d)
      let s ← orFault s (s.writeVirt x.c (x.xmap + i) [BitVec.ofNat 8 x.xid])
      .ok (s, r.2)
    else .ok (s, r.2 ++ [i])

/-- Every list position in order. -/
def exitAll (x : ExitIn) : List Nat → State × List Nat → Except (Nat × State) (State × List Nat)
  | [], r => .ok r
  | p :: ps, r => match exitOne x p r with
    | .ok r => exitAll x ps r
    | .error e => .error e

/-- EXIT's effect: where a position faults, the positions before it were processed and their writes stay, and none of their
items is added to EXITED (DESIGN CHOICE, log entry 42). -/
def exitEffect (t : Nat) (s : State) (th : Thread) (w uid : Nat) : StepRun := do
  let c := s.ctx th.ctx
  let r ← orFault s (readRecord s c w 57)
  let active := recNat r 0 8
  let next := recNat r 40 8
  let rb := recNat r 52 4
  if rb < 4 || 65536 < rb || rb % 4 ≠ 0 || 254 < recNat r 56 1 then .error (fltParameter, s)
  else if active % 8 ≠ 0 || next % 8 ≠ 0 then .error (fltAlignment, s)
  else
    let h ← orFault s (s.readVirt c active 8)
    let count := recNat h 0 4
    let domain := recNat h 4 4
    if domain < 1 || 65536 < domain then .error (fltParameter, s)
    else
      let x : ExitIn := { c := c, domain := domain, active := active, conf := recNat r 8 8, src := recNat r 16 8,
                          dst := recNat r 24 8, xmap := recNat r 32 8, thresh := recNat r 48 4, rb := rb,
                          xid := recNat r 56 1 }
      let (s, l) ← exitAll x (upTo count) (s, [])
      let s ← orFault s (s.writeVirt c next (listBytes domain l))
      let s := s.bump .vecExitCntExited (s.engineOf t uid) (count - l.length)
      .ok (s.stepResult t uid l.isEmpty [(next, 8 + 4 * count)])

/-- EXIT. -/
def execExit (t : Fin 512) (s : State) : Out := .next (s.longStep t .exit (exitEffect t))

end Sys2Proof.Machine
end

