-- ==== Sys2Proof/Machine/Dispatch.lean ====
section
/-! DEFINITION. Dispatch: one arm per command, each one call of the command's meaning. -/

namespace Sys2Proof.Machine

/-- The effect of a command on everything but the queue. -/
def exec (i : Instr) (s : State) : Host.Outcome State Fault Refusal :=
  match i with
  | .perstNDeassert msSincePwrOk => Sys2Proof.Machine.execPerstNDeassert msSincePwrOk s
  | .perstNAssert => Sys2Proof.Machine.execPerstNAssert s
  | .perstDeferredEffect => Sys2Proof.Machine.execPerstDeferredEffect s
  | .pwrOkAssert => Sys2Proof.Machine.execPwrOkAssert s
  | .pwrOkDeassert => Sys2Proof.Machine.execPwrOkDeassert s
  | .railOutOfWindow r => Sys2Proof.Machine.execRailOutOfWindow r s
  | .vddAuxPowerUp clksel => Sys2Proof.Machine.execVddAuxPowerUp clksel s
  | .vddAuxLoss => Sys2Proof.Machine.execVddAuxLoss s
  | .nvmRestart p => Sys2Proof.Machine.execNvmRestart p s
  | .internalError w => Sys2Proof.Machine.execInternalError w s
  | .handshakeStall j => Sys2Proof.Machine.execHandshakeStall j s
  | .burstBoundary l => Sys2Proof.Machine.execBurstBoundary l s
  | .shadowLoadComplete l => Sys2Proof.Machine.execShadowLoadComplete l s
  | .burstResolve l => Sys2Proof.Machine.execBurstResolve l s
  | .drainComplete d => Sys2Proof.Machine.execDrainComplete d s
  | .darkeningComplete l => Sys2Proof.Machine.execDarkeningComplete l s
  | .latFenceReq p l => Sys2Proof.Machine.execLatFenceReq p l s
  | .latCtrlWrite p l v => Sys2Proof.Machine.execLatCtrlWrite p l v s
  | .searchComplete l => Sys2Proof.Machine.execSearchComplete l s
  | .searchTimeout l => Sys2Proof.Machine.execSearchTimeout l s
  | .calCheckEnd l => Sys2Proof.Machine.execCalCheckEnd l s
  | .suspectTimeout l => Sys2Proof.Machine.execSuspectTimeout l s
  | .linePowerRecoveryTimeout l => Sys2Proof.Machine.execLinePowerRecoveryTimeout l s
  | .readoutSelfTestEnd l chain pass => Sys2Proof.Machine.execReadoutSelfTestEnd l chain pass s
  | .readoutRetestTimer l chain => Sys2Proof.Machine.execReadoutRetestTimer l chain s
  | .matmul t => Sys2Proof.Machine.execMatmul t s
  | .vec t => Sys2Proof.Machine.execVec t s
  | .move t => Sys2Proof.Machine.execMove t s
  | .gather t => Sys2Proof.Machine.execGather t s
  | .route t => Sys2Proof.Machine.execRoute t s
  | .exit t => Sys2Proof.Machine.execExit t s
  | .gate t => Sys2Proof.Machine.execGate t s
  | .signal t check => Sys2Proof.Machine.execSignal t check s
  | .wait t check => Sys2Proof.Machine.execWait t check s
  | .waitSatisfied t => Sys2Proof.Machine.execWaitSatisfied t s
  | .waitTimeout t => Sys2Proof.Machine.execWaitTimeout t s
  | .putComplete t => Sys2Proof.Machine.execPutComplete t s
  | .takeReserve t => Sys2Proof.Machine.execTakeReserve t s
  | .fence t => Sys2Proof.Machine.execFence t s
  | .fenceComplete t => Sys2Proof.Machine.execFenceComplete t s
  | .setmode t => Sys2Proof.Machine.execSetmode t s
  | .branch t check => Sys2Proof.Machine.execBranch t check s
  | .stepComplete t k => Sys2Proof.Machine.execStepComplete t k s
  | .transferComplete t src addr bytes check => Sys2Proof.Machine.execTransferComplete t src addr bytes check s
  | .larderFillComplete b line check => Sys2Proof.Machine.execLarderFillComplete b line check s
  | .blockedStreamCheck b => Sys2Proof.Machine.execBlockedStreamCheck b s
  | .bind p e ed ml keyIndex table bundle => Sys2Proof.Machine.execBind p e ed ml keyIndex table bundle s
  | .start p e => Sys2Proof.Machine.execStart p e s
  | .startAdmitted p e => Sys2Proof.Machine.execStartAdmitted p e s
  | .reset p e => Sys2Proof.Machine.execReset p e s
  | .release p e => Sys2Proof.Machine.execRelease p e s
  | .clearwarn p e => Sys2Proof.Machine.execClearwarn p e s
  | .heartSample p e => Sys2Proof.Machine.execHeartSample p e s
  | .leaseExpiry p e => Sys2Proof.Machine.execLeaseExpiry p e s
  | .watchedWordWrite addr => Sys2Proof.Machine.execWatchedWordWrite addr s
  | .polledWordRead b => Sys2Proof.Machine.execPolledWordRead b s
  | .hostLineInvalidate line data => Sys2Proof.Machine.execHostLineInvalidate line data s
  | .heldSignalTimeout src flow => Sys2Proof.Machine.execHeldSignalTimeout src flow s
  | .allowanceEval => Sys2Proof.Machine.execAllowanceEval s
  | .halfClockEnter => Sys2Proof.Machine.execHalfClockEnter s
  | .halfClockExit => Sys2Proof.Machine.execHalfClockExit s
  | .packagePowerSample watts => Sys2Proof.Machine.execPackagePowerSample watts s
  | .scrubRead b line check forced => Sys2Proof.Machine.execScrubRead b line check forced s
  | .cxlLinkTrained rate width level bi => Sys2Proof.Machine.execCxlLinkTrained rate width level bi s
  | .linkLoss => Sys2Proof.Machine.execLinkLoss s
  | .configRequest off wr => Sys2Proof.Machine.execConfigRequest off wr s
  | .cxlMemRead peer h check => Sys2Proof.Machine.execCxlMemRead peer h check s
  | .cxlMemWrite peer h data check => Sys2Proof.Machine.execCxlMemWrite peer h data check s
  | .cxlAtomicOp h wide op => Sys2Proof.Machine.execCxlAtomicOp h wide op s
  | .hostOwnershipRequest h exclusive check => Sys2Proof.Machine.execHostOwnershipRequest h exclusive check s
  | .recallTimer h => Sys2Proof.Machine.execRecallTimer h s
  | .bisnpResponse h modified => Sys2Proof.Machine.execBisnpResponse h modified s
  | .bar2Read x => Sys2Proof.Machine.execBar2Read x s
  | .bar2Write x v => Sys2Proof.Machine.execBar2Write x v s
  | .globalPersistentFlush => Sys2Proof.Machine.execGlobalPersistentFlush s
  | .identify => Sys2Proof.Machine.execIdentify s
  | .getLog id => Sys2Proof.Machine.execGetLog id s
  | .getEventRecords log => Sys2Proof.Machine.execGetEventRecords log s
  | .clearEventRecords log count => Sys2Proof.Machine.execClearEventRecords log count s
  | .getEventInterruptPolicy => Sys2Proof.Machine.execGetEventInterruptPolicy s
  | .setEventInterruptPolicy info warn fail fatal => Sys2Proof.Machine.execSetEventInterruptPolicy info warn fail fatal s
  | .getTimestamp => Sys2Proof.Machine.execGetTimestamp s
  | .setTimestamp v => Sys2Proof.Machine.execSetTimestamp v s
  | .tableAccess handle => Sys2Proof.Machine.execTableAccess handle s
  | .complianceRequest inject code => Sys2Proof.Machine.execComplianceRequest inject code s
  | .injTxCrc p count => Sys2Proof.Machine.execInjTxCrc p count s
  | .injRxCrc p count => Sys2Proof.Machine.execInjRxCrc p count s
  | .injMemPoison p count => Sys2Proof.Machine.execInjMemPoison p count s
  | .injCreditHold p count delayUs => Sys2Proof.Machine.execInjCreditHold p count delayUs s
  | .injCreditHoldEnd => Sys2Proof.Machine.execInjCreditHoldEnd s
  | .injCacheFail p count => Sys2Proof.Machine.execInjCacheFail p count s
  | .lightDetected p => Sys2Proof.Machine.execLightDetected p s
  | .portTrainingDone p lanes peerVer peerDev peerPort credits => Sys2Proof.Machine.execPortTrainingDone p lanes peerVer peerDev peerPort credits s
  | .portTrainingTimeout p => Sys2Proof.Machine.execPortTrainingTimeout p s
  | .portTrainingRetry p => Sys2Proof.Machine.execPortTrainingRetry p s
  | .codewordReceived p lane first check => Sys2Proof.Machine.execCodewordReceived p lane first check s
  | .laneRetrainDone p lane ok => Sys2Proof.Machine.execLaneRetrainDone p lane ok s
  | .retryTimeout p lane => Sys2Proof.Machine.execRetryTimeout p lane s
  | .idle p lane f => Sys2Proof.Machine.execIdle p lane f s
  | .link p lane f => Sys2Proof.Machine.execLink p lane f s
  | .write p lane f => Sys2Proof.Machine.execWrite p lane f s
  | .readReq p lane f check => Sys2Proof.Machine.execReadReq p lane f check s
  | .readResp p lane f => Sys2Proof.Machine.execReadResp p lane f s
  | .casReq p lane f check => Sys2Proof.Machine.execCasReq p lane f check s
  | .casResp p lane f => Sys2Proof.Machine.execCasResp p lane f s
  | .signalFrame p lane f check => Sys2Proof.Machine.execSignalFrame p lane f check s
  | .e2eAck p lane f => Sys2Proof.Machine.execE2eAck p lane f s
  | .e2eNack p lane f => Sys2Proof.Machine.execE2eNack p lane f s
  | .mcWrite p lane f => Sys2Proof.Machine.execMcWrite p lane f s
  | .mcOpen p lane f => Sys2Proof.Machine.execMcOpen p lane f s
  | .mcAck p lane f => Sys2Proof.Machine.execMcAck p lane f s
  | .mcPrune p lane f => Sys2Proof.Machine.execMcPrune p lane f s
  | .mcRepair p lane f => Sys2Proof.Machine.execMcRepair p lane f s
  | .reservedFrame p lane f => Sys2Proof.Machine.execReservedFrame p lane f s
  | .e2eAckTimer src flow => Sys2Proof.Machine.execE2eAckTimer src flow s
  | .flowTimeout dst flow => Sys2Proof.Machine.execFlowTimeout dst flow s
  | .heldFrameTimeout src flow => Sys2Proof.Machine.execHeldFrameTimeout src flow s
  | .mcWriteHoldTimeout src flow => Sys2Proof.Machine.execMcWriteHoldTimeout src flow s
  | .mcStall group port => Sys2Proof.Machine.execMcStall group port s
  | .hnxStall p cls set => Sys2Proof.Machine.execHnxStall p cls set s
  | .portRetrain path p => Sys2Proof.Machine.execPortRetrain path p s
  | .profileChange path v => Sys2Proof.Machine.execProfileChange path v s
  | .hnxInjDropWire path v => Sys2Proof.Machine.execHnxInjDropWire path v s
  | .hnxInjDropEarly path v => Sys2Proof.Machine.execHnxInjDropEarly path v s
  | .hnxInjBitFlip path v => Sys2Proof.Machine.execHnxInjBitFlip path v s
  | .hnxInjE2eFlip path v => Sys2Proof.Machine.execHnxInjE2eFlip path v s
  | .hnxInjReorder path v => Sys2Proof.Machine.execHnxInjReorder path v s
  | .honeycombStartTimeout h => Sys2Proof.Machine.execHoneycombStartTimeout h s
  | .combRetry h => Sys2Proof.Machine.execCombRetry h s
  | .linePowerComparator h => Sys2Proof.Machine.execLinePowerComparator h s
  | .linePowerSample h powers => Sys2Proof.Machine.execLinePowerSample h powers s
  | .biasReevaluation h weakestInHand bias after => Sys2Proof.Machine.execBiasReevaluation h weakestInHand bias after s
  | .identityFrame l r samples => Sys2Proof.Machine.execIdentityFrame l r samples s
  | .searchRampVisit l r drop => Sys2Proof.Machine.execSearchRampVisit l r drop s
  | .identityRoundDue l => Sys2Proof.Machine.execIdentityRoundDue l s
  | .identityRoundComplete l readings lines => Sys2Proof.Machine.execIdentityRoundComplete l readings lines s
  | .relockRampStep l r drop => Sys2Proof.Machine.execRelockRampStep l r drop s
  | .relockTimeout l r => Sys2Proof.Machine.execRelockTimeout l r s
  | .innerLoopVisit l r => Sys2Proof.Machine.execInnerLoopVisit l r s
  | .spanHoldEnd q => Sys2Proof.Machine.execSpanHoldEnd q s
  | .feedforwardVisit l r deltaT => Sys2Proof.Machine.execFeedforwardVisit l r deltaT s
  | .monitorConversion k slot => Sys2Proof.Machine.execMonitorConversion k slot s
  | .heaterTick q => Sys2Proof.Machine.execHeaterTick q s
  | .bankSwap p b v => Sys2Proof.Machine.execBankSwap p b v s
  | .traceTrigger p b ch => Sys2Proof.Machine.execTraceTrigger p b ch s
  | .monTestCont p b v => Sys2Proof.Machine.execMonTestCont p b v s
  | .rampStep l => Sys2Proof.Machine.execRampStep l s
  | .residualPublish l rms bias => Sys2Proof.Machine.execResidualPublish l rms bias s
  | .calEpisodeStart p l => Sys2Proof.Machine.execCalEpisodeStart p l s
  | .episodeInterval l sweeps rms bias maxTrim => Sys2Proof.Machine.execEpisodeInterval l sweeps rms bias maxTrim s
  | .episodeTimeout l => Sys2Proof.Machine.execEpisodeTimeout l s
  | .calSaveDue => Sys2Proof.Machine.execCalSaveDue s
  | .calSaveRequest p => Sys2Proof.Machine.execCalSaveRequest p s
  | .calSaveComplete => Sys2Proof.Machine.execCalSaveComplete s
  | .journalPageProgram => Sys2Proof.Machine.execJournalPageProgram s
  | .compactionStart => Sys2Proof.Machine.execCompactionStart s
  | .jnlCompact p => Sys2Proof.Machine.execJnlCompact p s
  | .compactionSwitch => Sys2Proof.Machine.execCompactionSwitch s
  | .halfEraseDone => Sys2Proof.Machine.execHalfEraseDone s
  | .flashTempRead r => Sys2Proof.Machine.execFlashTempRead r s
  | .powerRequest b => Sys2Proof.Machine.execPowerRequest b s
  | .powerTransitionComplete b => Sys2Proof.Machine.execPowerTransitionComplete b s
  | .powerRequestRetry b => Sys2Proof.Machine.execPowerRequestRetry b s
  | .proofSlice b errs => Sys2Proof.Machine.execProofSlice b errs s
  | .idleStateWrite p b v => Sys2Proof.Machine.execIdleStateWrite p b v s
  | .powerLimitSet p v => Sys2Proof.Machine.execPowerLimitSet p v s
  | .thermalSample readings => Sys2Proof.Machine.execThermalSample readings s
  | .powerLimitStep => Sys2Proof.Machine.execPowerLimitStep s
  | .telemetrySample => Sys2Proof.Machine.execTelemetrySample s
  | .referenceLost => Sys2Proof.Machine.execReferenceLost s
  | .refMeasure offset => Sys2Proof.Machine.execRefMeasure offset s
  | .pllLossOfLock j => Sys2Proof.Machine.execPllLossOfLock j s
  | .pllRelockTimeout j => Sys2Proof.Machine.execPllRelockTimeout j s
  | .avsVoltageWrite mv ack => Sys2Proof.Machine.execAvsVoltageWrite mv ack s
  | .avsWriteRetry ack => Sys2Proof.Machine.execAvsWriteRetry ack s
  | .tokenDebug p sig digestOk => Sys2Proof.Machine.execTokenDebug p sig digestOk s
  | .ownerEnrol p sig digestOk => Sys2Proof.Machine.execOwnerEnrol p sig digestOk s
  | .ownerRelease p sig digestOk => Sys2Proof.Machine.execOwnerRelease p sig digestOk s
  | .newNonce p => Sys2Proof.Machine.execNewNonce p s
  | .tokenEnd p => Sys2Proof.Machine.execTokenEnd p s
  | .tokenExpiry => Sys2Proof.Machine.execTokenExpiry s
  | .nonceExpiry => Sys2Proof.Machine.execNonceExpiry s
  | .nonceRead p => Sys2Proof.Machine.execNonceRead p s
  | .getVersion c => Sys2Proof.Machine.execGetVersion c s
  | .getCapabilities c => Sys2Proof.Machine.execGetCapabilities c s
  | .negotiateAlgorithms c ed25519 sha384 => Sys2Proof.Machine.execNegotiateAlgorithms c ed25519 sha384 s
  | .getDigests c => Sys2Proof.Machine.execGetDigests c s
  | .getCertificate c slot off len => Sys2Proof.Machine.execGetCertificate c slot off len s
  | .challenge c slot nonce => Sys2Proof.Machine.execChallenge c slot nonce s
  | .getMeasurements c index signed nonce => Sys2Proof.Machine.execGetMeasurements c index signed nonce s
  | .chunkGet c seq => Sys2Proof.Machine.execChunkGet c seq s
  | .getPqChain c off len => Sys2Proof.Machine.execGetPqChain c off len s
  | .countersign c => Sys2Proof.Machine.execCountersign c s
  | .fenceClear p v => Sys2Proof.Machine.execFenceClear p v s
  | .mctpControl ep setEid => Sys2Proof.Machine.execMctpControl ep setEid s
  | .i3cAddressAssign setdasa addr => Sys2Proof.Machine.execI3cAddressAssign setdasa addr s
  | .submitTokenCmd ep bytes sig digestOk => Sys2Proof.Machine.execSubmitTokenCmd ep bytes sig digestOk s
  | .readNonceCmd ep => Sys2Proof.Machine.execReadNonceCmd ep s
  | .readEventsCmd ep seq count => Sys2Proof.Machine.execReadEventsCmd ep seq count s
  | .readRegisterCmd ep off => Sys2Proof.Machine.execReadRegisterCmd ep off s
  | .writeRegisterCmd ep off v => Sys2Proof.Machine.execWriteRegisterCmd ep off v s
  | .clearFenceCmd ep l => Sys2Proof.Machine.execClearFenceCmd ep l s
  | .warmRestartCmd ep => Sys2Proof.Machine.execWarmRestartCmd ep s
  | .upkeepPhaseCmd ep => Sys2Proof.Machine.execUpkeepPhaseCmd ep s
  | .getTid ep => Sys2Proof.Machine.execGetTid ep s
  | .getSensorReading ep id => Sys2Proof.Machine.execGetSensorReading ep id s
  | .setEffecter ep id v => Sys2Proof.Machine.execSetEffecter ep id v s
  | .pollPlatformEvent ep => Sys2Proof.Machine.execPollPlatformEvent ep s
  | .requestUpdate ep agent component => Sys2Proof.Machine.execRequestUpdate ep agent component s
  | .firmwareDataReceived ep agent bytes image => Sys2Proof.Machine.execFirmwareDataReceived ep agent bytes image s
  | .verifyComplete ep agent => Sys2Proof.Machine.execVerifyComplete ep agent s
  | .applyComplete ep agent => Sys2Proof.Machine.execApplyComplete ep agent s
  | .activateFirmware ep agent => Sys2Proof.Machine.execActivateFirmware ep agent s
  | .cancelUpdate ep agent => Sys2Proof.Machine.execCancelUpdate ep agent s
  | .updateAgentTimeout => Sys2Proof.Machine.execUpdateAgentTimeout s
  | .larderFlush p b => Sys2Proof.Machine.execLarderFlush p b s
  | .larderFlushDone b => Sys2Proof.Machine.execLarderFlushDone b s
  | .evtAlertClear p v => Sys2Proof.Machine.execEvtAlertClear p v s
  | .devStatusChgClear p v => Sys2Proof.Machine.execDevStatusChgClear p v s
  | .devStatusMaskWrite p v => Sys2Proof.Machine.execDevStatusMaskWrite p v s
  | .msixUnmask vector => Sys2Proof.Machine.execMsixUnmask vector s
  | .registerWrite off bytes v => Sys2Proof.Machine.execRegisterWrite off bytes v s
  | .honeycombReady h => Sys2Proof.Machine.execHoneycombReady h s
  | .pllRelocked j => Sys2Proof.Machine.execPllRelocked j s
  | .cxlLinkRecovery => Sys2Proof.Machine.execCxlLinkRecovery s
  | .cxlFlitError replay => Sys2Proof.Machine.execCxlFlitError replay s

end Sys2Proof.Machine
end

