-- ==== Sys2Proof/Machine/Time.lean ====
section
/-! DEFINITION. Device time (R15), and what passes when nothing is commanded. -/

namespace Sys2Proof.Machine

/-- Device time runs from the end of the cold reset, while the device runs (R15, R385, R387). -/
def timeRuns (s : State) : Bool := s.boot.on

/-- What passes when no command waits: one 1 ns tick of device time where it runs, and the next part of a start under
way. DESIGN CHOICE (log entries 4, 71). -/
def idleTick (s : State) : State := if timeRuns s then { s with time := s.time + 1 }.nextPhase else s

end Sys2Proof.Machine
end

