-- ==== Sys2Proof/Safety.lean ====
section
/-! DEFINITION. What statements speak of: a command that completes, the situations they name, and the invariant that every step keeps. -/

namespace Sys2Proof.Machine

/-- The command answers some next state that satisfies `P`. -/
def Completes (i : Instr) (s : State) (P : State → Prop) : Prop := ∃ t, exec i s = .next t ∧ P t

/-- The event log holds the last entries in order: entry `i` from the newest has SEQ EVT_HEAD − 1 − i, and the ring is
full from 8,192 on (R418, R465). -/
def LogOk (s : State) : Prop :=
  s.log.length = min s.evHead 8192 ∧ ∀ i e, s.log[i]? = some e → e.seq + i + 1 = s.evHead

/-- What every step keeps: the waiting commands are commands the device can be sent, both memories are in their canonical
form, and the event log is numbered without a gap. -/
structure Inv (s : State) : Prop where
  waiting : s.pending.all Instr.wf = true
  mem : Memory.wf s.mem = true
  hostMem : Memory.wf s.hostMem = true
  log : LogOk s

/-- A cold start begins: device time is 0 (R15), every register field holds its reset value (R7), the link trains
(R349); flash, journal, fuses and host memory are as before. -/
def StartedCold (s t : State) : Prop :=
  t.boot.on = true ∧ t.boot.stage = 0 ∧ t.boot.kind = 1 ∧ t.time = 0 ∧
  t.pins.deferred = false ∧ t.cxl = { Cxl.reset with state := .training } ∧ t.flds = [] ∧ t.mem = [] ∧ t.log = [] ∧
  t.evHead = 0 ∧ t.lats = [] ∧ t.ctxs = [] ∧ t.jnl = s.jnl ∧ t.flash = { s.flash with calBusy := false, calTime := 0 } ∧
  t.sec = { Security.reset with
    svn := s.sec.svn, ownFuses := s.sec.ownFuses, edKey := hkdf Config.seed "KG2 ID Ed25519"
    mlPublic := (Config.mlDsaKeyGen (hkdf Config.seed "KG2 ID ML-DSA-65")).1
    mlKey := (Config.mlDsaKeyGen (hkdf Config.seed "KG2 ID ML-DSA-65")).2 } ∧ t.hostMem = s.hostMem

/-- The device has stopped (R385): lattices and ports are dark, honeycombs off, heaters at code 0, and the journal's hold
buffer is lost; flash, security state and both memories are as before. -/
def Stopped (s t : State) : Prop :=
  t.boot.on = false ∧ t.lats = [] ∧ t.ports = [] ∧ (∀ h < 10, (t.comb h).state = .off) ∧
  (∀ q, (t.cluster q).taps = [] ∧ (t.cluster q).high = false) ∧ t.jnl.hold = [] ∧ t.jnl.recs = s.jnl.recs ∧
  t.flash = s.flash ∧ t.sec = s.sec ∧ t.mem = s.mem ∧ t.hostMem = s.hostMem ∧ t.time = s.time

/-- A connection's requests are answered (R403, R425): over DOE and PCIe VDM while the link is in L0, and not while the
management controller restarts. -/
abbrev ConnOpen (s : State) (c : Conn) : Prop :=
  s.boot.on = true ∧ s.boot.mgmtDown = false ∧ (c = .i3c ∨ s.cxl.state = .l0)

/-- An endpoint's vendor and PLDM requests are served (R425, R439). -/
abbrev EpOpen (s : State) (ep : Ep) : Prop :=
  s.boot.on = true ∧ s.boot.mgmtDown = false ∧ (ep = .i3c ∧ s.pins.aux = true ∨ ep = .vdm ∧ s.cxl.state = .l0)

/-- The rows whose command is a frame arriving on a lane (R262). -/
def FrameRow (c : Instr) (p k : Fin 8) (f : Frame) : Prop :=
  c = .idle p k f ∨ c = .link p k f ∨ c = .write p k f ∨ (∃ x, c = .readReq p k f x) ∨ c = .readResp p k f ∨
  (∃ x, c = .casReq p k f x) ∨ c = .casResp p k f ∨ (∃ x, c = .signalFrame p k f x) ∨ c = .e2eAck p k f ∨
  c = .e2eNack p k f ∨ c = .mcWrite p k f ∨ c = .mcOpen p k f ∨ c = .mcAck p k f ∨ c = .mcPrune p k f ∨ c = .mcRepair p k f ∨
  c = .reservedFrame p k f

/-- The rows of frames that travel by unicast route (R262, R269). -/
def UnicastRow (c : Instr) (p k : Fin 8) (f : Frame) : Prop :=
  c = .write p k f ∨ (∃ x, c = .readReq p k f x) ∨ c = .readResp p k f ∨ (∃ x, c = .casReq p k f x) ∨
  c = .casResp p k f ∨ (∃ x, c = .signalFrame p k f x) ∧ fClass f ≠ 3 ∨ c = .e2eAck p k f ∨ c = .e2eNack p k f ∨ c = .mcRepair p k f

/-- A frame comes in order and whole on a lane that is up of an ACTIVE port (R264), while no multicast frame waits here. -/
structure Arrives (s : State) (p k : Nat) (f : Frame) : Prop where
  on : s.boot.on = true
  active : (s.port p).state = .active
  lane : (s.port p).upLanes.contains k = true
  hears : ((s.port p).lane k).deaf = false
  crc : f.crc = linkCrc f
  next : fType f = 0 ∨ fFsn f = ((s.port p).lane k).expected
  waits : s.hnx.mcWait = []
  tree : ∀ b ∈ s.hnx.branches, b.queue = []

/-- A unicast frame arrives at its destination over a version 2 link with its end-to-end check good (R259, R263, R269). -/
def AtHome (s : State) (p k : Nat) (f : Frame) : Prop :=
  Arrives s p k f ∧ (s.port p).version = 2 ∧ fDst f = s.cfg.device ∧ fE2e f = e2eOf f

/-- The only frame that waits to leave a port is `f`, and it can't yet. -/
abbrev State.waitsAt (s : State) (q : Nat) (f : Frame) (origin credit : Nat) : Prop :=
  (s.port q).queue = [{ frame := f, origin := origin, credit := credit }]

/-- The rows that name a line of host-managed memory, with the line's offset. -/
def HostLine (c : Instr) (h : BitVec 48) : Prop :=
  (∃ p k, c = .cxlMemRead p h k) ∨ (∃ p d k, c = .cxlMemWrite p h d k) ∨ (∃ w o, c = .cxlAtomicOp h w o) ∨
  (∃ x k, c = .hostOwnershipRequest h x k) ∨ c = .recallTimer h ∨ ∃ m, c = .bisnpResponse h m

/-- A field's register and place. -/
def Fld.place (f : Fld) : Nat := f.reg.ctorIdx * 64 + f.lo

/-- The kind of token each of the three rows submits (R398). -/
abbrev SubmitsKind (c : Instr) (p : Path) (k : Nat) (v : Verdict) (d : Bool) : Prop :=
  c = .tokenDebug p v d ∧ k = 0 ∨ c = .ownerEnrol p v d ∧ k = 1 ∨ c = .ownerRelease p v d ∧ k = 2

/-- The state a step's effect starts from: the step counter and the thread's next step have advanced, and the step stands
among the thread's steps in progress (R120, R140). -/
def State.listed (s : State) (t : Nat) (o : Op) (w : Nat) : State :=
  let th := s.thread t
  let a := Active.start th (s.ctx th.ctx).stepctr.toNat th.pc w s.time (o.streams w).length (s.pickEngine (threadBay t))
  (s.countIssue t).modThread t fun th => { th with steps := th.steps ++ [a] }

/-- The step counter value a thread's next step takes (R140). -/
def State.uidOf (s : State) (t : Nat) : Nat := (s.ctx (s.thread t).ctx).stepctr.toNat

/-- What an unmasked VEC step `w` of an element-by-element function works on: its types, its elements' number, its streams'
items (R127, R157). -/
structure VecInput (x : State) (th : Thread) (w : Nat) (v : VecIn) : Prop where
  ctx : v.c = x.ctx th.ctx
  tin : tyOf (vecTin w) = some v.tin
  tout : tyOf (vecTout w) = some v.tout
  each : vecFunc w ∉ [0x0B, 0x0C, 0x10, 0x11, 0x13, 0x14]
  fields : v.func = vecFunc w ∧ v.count = vecCount w ∧ v.imm = vecImm w ∧ v.k = vecK w ∧ v.gran = vecGran w
  unmasked : vecMasken w = false ∧ v.mask = none
  a : vecStream x v.c th (vecA w) v.tin.bytes (v.tin.items v.count) = .ok v.a
  b : vecStream x v.c th (vecB w) v.tin.bytes (vecNeeds v.func v.tin v.tout v.count v.imm v.k).2.1 = .ok v.b
  out : vecStream x v.c th (vecOut w) v.tout.bytes (v.tout.items v.count) = .ok v.out

/-- What an unmasked, fresh MATMUL step `w` finds as it issues: `n` vectors, and every stream's items (R125, R157). -/
structure MmInput (x : State) (th : Thread) (uid w n : Nat) : Prop where
  size : mmRows w ≠ 0 ∧ mmCols w ≠ 0 ∧ mmPlanes w ≠ 0 ∧ n ≠ 0
  fresh : mmMode w = 0 ∧ mmMasken w = false ∧ readsIscale w = false ∧ readsWscale w = false
  count : ∃ e, countItems x (x.ctx th.ctx) th (mmIn w) = .ok e ∧ e % mmPlanes w = 0 ∧ n = min (mmVectors w) (e / mmPlanes w)
  ins : ∃ l, mmItems x (x.ctx th.ctx) { Active.start th uid th.pc w x.time 0 0 with vectors := n } (mmIn w)
    (inBytes (mmPair w)) (itemAlign (inBytes (mmPair w))) (mmPlanes w * n) = .ok l
  wgt : ∃ l, mmSolid x (x.ctx th.ctx) { Active.start th uid th.pc w x.time 0 0 with vectors := n } (mmWgt w)
    (tileStride (mmPair w)) (imageAlign (mmWimg w)) (mmPlanes w) = .ok l
  outs : ∃ l, mmItems x (x.ctx th.ctx) { Active.start th uid th.pc w x.time 0 0 with vectors := n } (mmOut w)
    (outBytes w) (itemAlign (outBytes w)) n = .ok l

/-- The rows that process the command of a portal entry (R144). -/
def PortalRow (c : Instr) (p : Fin 256) (e : Fin 4096) : Prop :=
  (∃ a b n x y, c = .bind p e a b n x y) ∨ c = .start p e ∨ c = .reset p e ∨ c = .release p e ∨ c = .clearwarn p e

/-- The steps that stay in progress after their issue, with their effects at issue. -/
def LongStep (c : Instr) (t : Fin 512) (o : Op) (f : State → Thread → Nat → Nat → Except (Nat × State) State) : Prop :=
  c = .vec t ∧ o = .vec ∧ f = vecEffect t ∨ c = .move t ∧ o = .move ∧ f = moveEffect t ∨
  c = .gather t ∧ o = .gather ∧ f = gatherEffect t ∨ c = .route t ∧ o = .route ∧ f = routeEffect t ∨
  c = .exit t ∧ o = .exit ∧ f = exitEffect t ∨ c = .gate t ∧ o = .gate ∧ f = gateEffect t

/-- The steps that take their whole effect as they issue, with that effect. -/
def InstantStep (c : Instr) (t : Fin 512) (o : Op) (s : State) (w : Nat)
    (f : State → Thread → Nat → Except (Nat × State) State) : Prop :=
  (∃ k, c = .signal t k ∧ o = .signal ∧ f = signalEffect t k ∧ s.signalStalls t w = false) ∨
  (∃ k, c = .wait t k ∧ o = .wait ∧ f = waitEffect t k ∧ s.waitStalls t w = false) ∨
  (∃ k, c = .branch t k ∧ o = .branch ∧ f = branchEffect t k)

end Sys2Proof.Machine
end

