-- ==== Sys2Proof/Certificates/Slice0/Obligations.lean ====
section
/-! DEFINITION. The statements about the device, family by family. -/

section

open Sys2Proof Sys2Proof.Machine

/-- One step takes the command at the front of the queue and runs it with the queue's rest. With no command waiting a step
never stops the model (R15, log entries 4 and 71): device time goes on by one tick while the device runs, and a device
that is stopped idles unchanged. -/
def Obligations.StepRunsTheFront : Prop :=
  (∀ (c : Instr) (s : State), step { s with pending := c :: s.pending } = exec c s) ∧
  (∀ s : State, s.pending = [] → s.boot.on = false → step s = .next s) ∧
  (∀ s : State, s.pending = [] → s.boot.on = true → s.boot.phase = 0 → step s = .next { s with time := s.time + 1 }) ∧
  (∀ s : State, s.pending = [] → ∃ t, step s = .next t ∧ t.pending = [])

/-- Every command completes but where its operands stop it: it is refused exactly where its operands fit no command of its
row, and faults exactly where it names a line beyond the host-managed memory (R180). The model’s own choices met here: log
entry 11. -/
def Obligations.EveryCommandEnds : Prop :=
  (∀ (c : Instr) (s : State), c.wf = true → (∀ h, HostLine c h → h.toNat < s.hostMemSize) → ∃ t, exec c s = .next t) ∧
  (∀ (c : Instr) (s : State), c.wf = false → exec c s = .refused .illFormed) ∧
  (∀ (c : Instr) (h : BitVec 48) (s : State), HostLine c h → s.hostMemSize ≤ h.toNat →
    exec c s = .fault .outsideHostManaged)

/-- The invariant `Inv` holds of the machine right after reset, whose registers all read their reset values (R7) and whose
lattices, ports and honeycombs are dark. The model’s own choices met here: log entries 2, 6, 7, 8, 126. -/
def Obligations.ResetState : Prop :=
  Inv State.reset ∧ (∀ (f : Fld) (i : Nat), f.reset < 2 ^ 64 → State.reset.fld f i = f.reset) ∧
  (∀ l, (State.reset.lat l).state = .dark) ∧ (∀ p, (State.reset.port p).state = .dark) ∧
  (∀ h, (State.reset.comb h).state = .off) ∧ State.reset.boot.on = false ∧ State.reset.pending = [] ∧
  (∀ a, State.reset.byte a = 0) ∧ State.reset.log = [] ∧ State.reset.sec.token = none ∧ State.reset.sec.ownFuses = 0

/-- Every step, from any state, keeps what `Inv` says: the waiting commands stay commands of their rows, both memories
stay in canonical form, and the event log holds the newest 8,192 events, numbered without a gap (R418); and from such a
state no step is refused. -/
def Obligations.StepKeepsInvariant : Prop :=
  (∀ s t : State, Inv s → step s = .next t → Inv t) ∧ (∀ (s : State) (r : Refusal), Inv s → step s ≠ .refused r)

/-- R386, R396, R460: no step lowers a fuse: the owner fuses blown and the security version only rise, and a step takes
one command from the queue and puts none there. -/
def Obligations.FusesOnlyRise : Prop :=
  ∀ s t : State, step s = .next t → s.sec.ownFuses ≤ t.sec.ownFuses ∧ s.sec.svn ≤ t.sec.svn ∧ t.pending = s.pending.tail

/-- R437: a refused write changes no field of any register but those of DEV_REFUSED, which counts it and records its
offset and path; it is logged with its offset, path and value unless one of that register and path was in the last 1 ms. -/
def Obligations.RefusedWrites : Prop :=
  ∀ (p : Path) (off v : Nat) (s : State), off < 2 ^ 26 → off % 8 = 0 →
    (s.refuse p off v).fld .devRefusedCount = min (s.fld .devRefusedCount + 1) (2 ^ 32 - 1) ∧
    (s.refuse p off v).fld .devRefusedOffset = off ∧ (s.refuse p off v).fld .devRefusedPath = pathNum p ∧
    (∀ (g : Fld) (j : Nat), j < 4096 →
      g.place ∉ [Fld.devRefusedCount, .devRefusedOffset, .devRefusedPath].map Fld.place →
      (s.refuse p off v).fld g j = s.fld g j) ∧
    (tget 0 s.refusedAt (off / 8 * 4 + pathNum p) = 0 ∨
        tget 0 s.refusedAt (off / 8 * 4 + pathNum p) - 1 + 1000000 ≤ s.time →
      (s.refuse p off v).evHead = s.evHead + 1 ∧ tget 0 (s.refuse p off v).refusedAt (off / 8 * 4 + pathNum p) = s.time + 1 ∧
      ∃ e, (s.refuse p off v).log = (e :: s.log).take 8192 ∧ e.code = Ev.code .refusedWrite ∧
        e.params = [off, pathNum p, v] ∧ e.time = s.time ∧ e.seq = s.evHead) ∧
    (0 < tget 0 s.refusedAt (off / 8 * 4 + pathNum p) →
      s.time < tget 0 s.refusedAt (off / 8 * 4 + pathNum p) - 1 + 1000000 →
      (s.refuse p off v).log = s.log ∧ (s.refuse p off v).evHead = s.evHead)

/-- R202, R203: a signal of N makes a word's COUNT the least of COUNT + N and 2⁶¹ − 1, with SAT set and WCH_SAT logged where
the sum exceeds it and every other flag as before; a consume of c takes c from COUNT, or makes it 0 with UND set and
WCH_UNDERFLOW logged where COUNT is less. No other byte of memory changes. On a poisoned word neither is done. The model’s
own choices met here: log entry 112. -/
def Obligations.SignalWords : Prop :=
  (∀ (a n bay : Nat) (s : State), s.cxl.snoop = [] → s.readsBad a 8 = false →
    ∃ t, s.signalAdd false a n bay = some t ∧
      countOf (t.readNat a 8) = min (countOf (s.readNat a 8) + n) (2 ^ 61 - 1) ∧
      bitOf (t.readNat a 8) 63 = (bitOf (s.readNat a 8) 63 || decide (2 ^ 61 - 1 < countOf (s.readNat a 8) + n)) ∧
      bitOf (t.readNat a 8) 62 = bitOf (s.readNat a 8) 62 ∧ bitOf (t.readNat a 8) 61 = bitOf (s.readNat a 8) 61 ∧
      (∀ x, (x < a ∨ a + 8 ≤ x) → t.byte x = s.byte x) ∧ t.hostMem = s.hostMem ∧
      t.evHead = (if 2 ^ 61 - 1 < countOf (s.readNat a 8) + n then s.evHead + 1 else s.evHead) ∧
      (2 ^ 61 - 1 < countOf (s.readNat a 8) + n → (t.log.map (·.code)).head? = some (Ev.code .wchSat))) ∧
  (∀ (a n bay : Nat) (s : State), s.readsBad a 8 = true → s.signalAdd false a n bay = none) ∧
  (∀ (a c bay x sid : Nat) (s : State), s.cxl.snoop = [] → s.readsBad a 8 = false → 0 < c →
    ∃ t, s.consumeWord false a c bay x sid = some t ∧
      countOf (t.readNat a 8) = (if c ≤ countOf (s.readNat a 8) then countOf (s.readNat a 8) - c else 0) ∧
      bitOf (t.readNat a 8) 63 = bitOf (s.readNat a 8) 63 ∧ bitOf (t.readNat a 8) 61 = bitOf (s.readNat a 8) 61 ∧
      bitOf (t.readNat a 8) 62 = (bitOf (s.readNat a 8) 62 || decide (countOf (s.readNat a 8) < c)) ∧
      (∀ y, (y < a ∨ a + 8 ≤ y) → t.byte y = s.byte y) ∧ t.hostMem = s.hostMem ∧
      t.evHead = (if countOf (s.readNat a 8) < c then s.evHead + 1 else s.evHead) ∧
      (countOf (s.readNat a 8) < c → (t.log.map fun e => (e.code, e.ctx, e.params)).head? =
        some (Ev.code .wchUnderflow, x, [sid, c]))) ∧
  (∀ (a c bay x sid : Nat) (s : State), s.readsBad a 8 = true → 0 < c → s.consumeWord false a c bay x sid = none) ∧
  (∀ (h : Bool) (a bay x sid : Nat) (s : State), s.consumeWord h a 0 bay x sid = some s)

/-- R442: a DEV_STATUS_CHG bit that is set where it was 0 signals vector 5 if DEV_STATUS_MASK enables it; bits written 1 are
cleared and no others; newly enabled bits that are set signal vector 5. R423: a bit of EVT_ALERT written 1 is cleared where
its condition does not hold. R252: a vector whose mask clears sends its held message once. The model’s own choices met here:
log entries 77, 166. -/
def Obligations.StatusRegisters : Prop :=
  (∀ (k : Nat) (s : State), k < 10 → s.flag (chgFld k) = false → bitOf (s.fld .devStatusMaskEn) k = true →
    s.markChg k = (s.setFld (chgFld k) 0 1).signalVector 5) ∧
  (∀ (p : Path) (v : Word) (s : State), s.served p = true →
    Completes (.devStatusChgClear p v) s fun t => t = { s with flds := t.flds } ∧
      ∀ k < 10, t.flag (chgFld k) = (s.flag (chgFld k) && !bitOf v.toNat k)) ∧
  (∀ (p : Path) (v : Word) (s : State), s.served p = true →
    (∀ k < 10, bitOf v.toNat k = true → bitOf (s.fld .devStatusMaskEn) k = true ∨ s.flag (chgFld k) = false) →
    exec (.devStatusMaskWrite p v) s = .next (s.setFld .devStatusMaskEn 0 (v.toNat % 1024))) ∧
  (∀ (p : Path) (v : Word) (s : State), s.served p = true → (∀ l < 8, s.flag .calStatusStale l = false) →
    (∀ h < 10, (s.comb h).ageing = false) →
    Completes (.evtAlertClear p v) s fun t => t = { s with flds := t.flds } ∧
      ∀ k < 7, t.flag (alertFld k) = (s.flag (alertFld k) && !bitOf v.toNat k)) ∧
  (∀ (k : Fin 8) (s : State), s.boot.on = true → k.val ≠ 5 → s.cxl.funcMask = false → s.cxl.pba.getD k false = true →
    (∀ j : Nat, j ≠ k.val → s.cxl.pba.getD j false = false) → s.cxl.vecMask.length = 8 → s.cxl.pba.length = 8 →
    Completes (.msixUnmask (some k)) s fun t => t = { s with cxl := { s.cxl with
      vecMask := s.cxl.vecMask.set k false, pba := s.cxl.pba.set k false, sent := s.cxl.sent.set k (s.cxl.sent.getD k 0 + 1) } })

/-- R5, R439: an aligned 8-byte write on the link reaches the register of its offset, as an aligned write over a management
path does; any other access width or place changes nothing. A management read of an unaligned offset answers zeros, one of
an aligned offset the register, and says where a counter of it is saturated. A device that runs from VDD_AUX alone answers
with an error and changes nothing. The model’s own choices met here: log entries 99, 100, 102. -/
def Obligations.RegisterAccess : Prop :=
  (∀ (off : BitVec 26) (v : Word) (s : State), s.linkUp = true → off.toNat % 8 = 0 → s.boot.reread = false →
    regAt off.toNat = none → (off.toNat < 0x80_0000 ∨ 0x82_0080 ≤ off.toNat) →
    exec (.registerWrite off 8 v) s = .next s) ∧
  (∀ (v : Word) (s : State), s.linkUp = true → s.boot.reread = false →
    exec (.registerWrite (BitVec.ofNat 26 (Reg.devScratch.addr 0)) 8 v) s = .next (s.setFld .devScratchData 0 v.toNat)) ∧
  (∀ (off : BitVec 26) (n : Nat) (v : Word) (s : State), n ≠ 8 ∨ off.toNat % 8 ≠ 0 →
    exec (.registerWrite off n v) s = .next s) ∧
  (∀ (ep : Ep) (off : BitVec 26) (v : Word) (s : State), EpOpen s ep → off.toNat % 8 = 0 →
    exec (.writeRegisterCmd ep off v) s = .next { s.writeReg (epPath ep) off.toNat v.toNat with reply := .done }) ∧
  (∀ (ep : Ep) (off : BitVec 26) (s : State), EpOpen s ep → off.toNat % 8 ≠ 0 →
    exec (.readRegisterCmd ep off) s = .next { s with reply := .value 0 }) ∧
  (∀ (ep : Ep) (off : BitVec 26) (s : State), EpOpen s ep → off.toNat % 8 = 0 → off.toNat ≠ Reg.secNonce.addr 0 →
    (regAt off.toNat).all (fun e => e.1.fields.all fun f => !f.counts ||
      decide (s.readReg (epPath ep) off.toNat / 2 ^ f.lo % 2 ^ f.width ≠ 2 ^ f.width - 1)) = true →
    exec (.readRegisterCmd ep off) s =
      .next { s with reply := .value (BitVec.ofNat 64 (s.readReg (epPath ep) off.toNat)) }) ∧
  (∀ (ep : Ep) (off : BitVec 26) (v : Word) (s : State), s.auxOnly ep = true →
    exec (.writeRegisterCmd ep off v) s = .next { s with reply := .error plError }) ∧
  (∀ (ep : Ep) (s : State), EpOpen s ep → s.fld .devRefusedCount = 2 ^ Fld.devRefusedCount.width - 1 →
    exec (.readRegisterCmd ep (BitVec.ofNat 26 (Reg.devRefused.addr 0))) s = .next { s with
      reply := .saturated (BitVec.ofNat 64 (s.readReg (epPath ep) (Reg.devRefused.addr 0))) }) ∧
  (∀ (ep : Ep) (v : Word) (s : State), EpOpen s ep → s.boot.reread = false →
    exec (.writeRegisterCmd ep (BitVec.ofNat 26 (Reg.devScratch.addr 0)) v) s =
      .next { s.setFld .devScratchData 0 v.toNat with reply := .done })

/-- R425 to R427: an endpoint has the address and identifier it was last given. Sensors, events and the terminus are read
without changing the device but for the one event polled. The model’s own choices met here: log entries 78, 79, 103. -/
def Obligations.Platform : Prop :=
  (∀ (e : BitVec 8) (s : State), EpOpen s .i3c → e ≠ 0 → e ≠ 255 → exec (.mctpControl .i3c (some e)) s =
    .next { s with mgmt := { s.mgmt with eidI3c := e }, reply := .done }) ∧
  (∀ (e : BitVec 8) (s : State), EpOpen s .vdm → e ≠ 0 → e ≠ 255 → exec (.mctpControl .vdm (some e)) s =
    .next { s with mgmt := { s.mgmt with eidVdm := e }, reply := .done }) ∧
  (∀ (d : Bool) (a : BitVec 7) (s : State), s.pins.aux = true →
    exec (.i3cAddressAssign d a) s = .next { s with mgmt := { s.mgmt with i3cAddr := a } }) ∧
  (∀ (ep : Ep) (s : State), EpOpen s ep →
    exec (.getTid ep) s = .next { s with reply := .data (Config.specData 21 0) false }) ∧
  (∀ (ep : Ep) (l : Fin 8) (s : State), EpOpen s ep → exec (.getSensorReading ep (32 + l)) s =
    .next { s with reply := .value (BitVec.ofInt 64 (s.lat l).state.code) }) ∧
  (∀ (ep : Ep) (s : State), EpOpen s ep → exec (.getSensorReading ep 26) s =
    .next { s with reply := .error plNoSensor }) ∧
  (∀ (ep : Ep) (e : Event) (r : List Event) (s : State), EpOpen s ep → s.mgmt.events = e :: r →
    exec (.pollPlatformEvent ep) s =
      .next { s with mgmt := { s.mgmt with events := r }, reply := .data e.bytes false }) ∧
  (∀ (ep : Ep) (q : Nat × Nat) (r : List (Nat × Nat)) (s : State), EpOpen s ep → s.mgmt.events = [] →
    s.mgmt.states = q :: r → exec (.pollPlatformEvent ep) s =
      .next { s with mgmt := { s.mgmt with states := r }, reply := .data (leBytes 2 q.1 ++ leBytes 1 q.2) false })

/-- R430: the vendor commands over an endpoint answer the nonce, up to 64 entries of the event log in order, submit a token
from their own bytes, clear a fence, request a warm restart; UPKEEP_PHASE is answered and does nothing. The model’s own
choices met here: log entry 106. -/
def Obligations.VendorCommands : Prop :=
  (∀ (ep : Ep) (s : State), EpOpen s ep →
    exec (.readNonceCmd ep) s = .next { s with reply := .data (leBytes 32 (s.sec.nonce.getD 0).toNat) false }) ∧
  (∀ (ep : Ep) (seq : Word) (e : Event) (s : State), EpOpen s ep → s.eventAt seq.toNat = some e →
    exec (.readEventsCmd ep seq 1) s = .next { s with reply := .data e.bytes false }) ∧
  (∀ (ep : Ep) (s : State), EpOpen s ep → exec (.upkeepPhaseCmd ep) s = .next { s with reply := .done }) ∧
  (∀ (ep : Ep) (b : List Byte) (v : Verdict) (d : Bool) (s : State), EpOpen s ep → b.length ≤ 8192 →
    (v.ed = false ∨ v.ml = false) →
    Completes (.submitTokenCmd ep b v d) s fun t => t.sec.token = s.sec.token ∧ t.sec.ownFuses = s.sec.ownFuses ∧
      t.flash = s.flash ∧ t.sec.buf = memStore [] 0 b ∧ t.sec.tokenResult ≠ 0 ∧
      t.reply = .error t.sec.tokenResult) ∧
  (∀ (ep : Ep) (b : List Byte) (v : Verdict) (d : Bool) (s u : State), EpOpen s ep → b.length ≤ 8192 →
    u = { s with sec := { s.sec with buf := memStore [] 0 b } } → u.tokenKind = 0 → u.checkToken v d = 0 →
    Completes (.submitTokenCmd ep b v d) s fun t => t.sec.token = some {
        perms := BitVec.ofNat 64 (u.tokenNat 8 8), expiry := s.time + u.tokenNat 80 4 * 1000000000 } ∧
      t.sec.nonce = none ∧ t.sec.tokenResult = 0 ∧ t.sec.ownFuses = s.sec.ownFuses ∧ t.flash = s.flash ∧
      t.reply = .done) ∧
  (∀ (ep : Ep) (l : Fin 8) (s : State), EpOpen s ep → (s.lat l).state = .fenced → s.flag .latCtrlEn l = false →
    s.flag .latCtrlKeepLit l = false →
    Completes (.clearFenceCmd ep l) s fun t => (t.lat l).state = .dark ∧ (t.lat l).suspectEntries = [] ∧
      (t.lat l).selfFails = [] ∧ (t.lat l).fencePending = 0 ∧ (t.log.map (·.code)).head? = some (Ev.code .evtFenceClear) ∧
      t.reply = .done ∧ t.mem = s.mem ∧ t.threads = s.threads) ∧
  (∀ (ep : Ep) (l : Fin 8) (s : State), EpOpen s ep → (s.lat l).state ≠ .fenced →
    exec (.clearFenceCmd ep l) s = .next { s with reply := .done }) ∧
  (∀ (ep : Ep) (s : State), EpOpen s ep → s.boot.stage = 5 →
    Completes (.warmRestartCmd ep) s fun t => t.reply = .done ∧ t.boot.restarting = true ∧ t.boot.kind = 2 ∧
      t.boot.stage = 0 ∧ t.sec.token = none ∧ t.sec.nonce = none ∧ t.sec.ownFuses = s.sec.ownFuses ∧ t.hnx.src = [] ∧
      t.hnx.dst = [] ∧ t.mem = s.mem ∧ t.hostMem = s.hostMem)

/-- R428, R429: a firmware update runs in its order for the one agent that entered it. Requested, data arrive in the write
window and the slot in use is never touched; a staged image is verified, written to the spare slot, and a configuration is
noted for the next start. Activated, it restarts the device; cancelled, or silent for 10 minutes, update mode is left and
nothing is committed. The model’s own choices met here: log entries 9, 80, 104, 105. -/
def Obligations.FirmwareUpdate : Prop :=
  (∀ (ep : Ep) (a k : Nat) (s : State), EpOpen s ep → s.mgmt.update = .idle → (k = 1 ∨ k = 2) →
    exec (.requestUpdate ep a k) s = .next { s with
      mgmt := { s.mgmt with update := .learning, agent := some a, component := k }, reply := .done }) ∧
  (∀ (ep : Ep) (a n : Nat) (s : State), EpOpen s ep → s.mgmt.update = .downloading → s.mgmt.agent = some a →
    s.jnl.windowOpen = true → n ≤ 4096 → s.flash.answers = true → exec (.firmwareDataReceived ep a n none) s =
      .next { s with mgmt := { s.mgmt with update := .downloading }, reply := .done }) ∧
  (∀ (ep : Ep) (a n : Nat) (i : FwImage) (s : State), EpOpen s ep → s.mgmt.update = .downloading →
    s.mgmt.agent = some a → s.mgmt.component = 1 → s.jnl.windowOpen = true → n ≤ 4096 → s.flash.answers = true →
    exec (.firmwareDataReceived ep a n (some (.firmware i))) s =
      .next { s with mgmt := { s.mgmt with update := .verifying, staged := some (.firmware i) }, reply := .done }) ∧
  (∀ (ep : Ep) (a : Nat) (i : FwImage) (s : State), EpOpen s ep → s.mgmt.update = .verifying → s.mgmt.agent = some a →
    s.mgmt.staged = some (.firmware i) → i.fieldsOk = true → i.verdict.ed = true → i.verdict.ml = true →
    i.verdict.digest = true → s.sec.svn ≤ i.svn → exec (.verifyComplete ep a) s =
      .next { s with mgmt := { s.mgmt with update := .applying }, reply := .done }) ∧
  (∀ (ep : Ep) (a : Nat) (i : FwImage) (s : State), EpOpen s ep → s.mgmt.update = .verifying → s.mgmt.agent = some a →
    s.mgmt.staged = some (.firmware i) → i.svn < s.sec.svn → i.verdict.ed = true → i.verdict.ml = true →
    exec (.verifyComplete ep a) s =
      .next { s with mgmt := { s.mgmt with update := .learning, staged := none }, reply := .error plError }) ∧
  (∀ (ep : Ep) (a : Nat) (i : FwImage) (s : State), EpOpen s ep → s.mgmt.update = .applying → s.mgmt.agent = some a →
    s.mgmt.component = 1 → s.mgmt.staged = some (.firmware i) → s.jnl.windowOpen = true → s.flash.answers = true →
    s.boot.fwSlot = 0 → exec (.applyComplete ep a) s = .next { s with
      flash := { s.flash with fwB := some i }, mgmt := { s.mgmt with update := .ready, fwStaged := true }, reply := .done }) ∧
  (∀ (ep : Ep) (a : Nat) (s : State), EpOpen s ep → s.mgmt.update = .ready → s.mgmt.agent = some a →
    s.mgmt.fwStaged = true → s.boot.stage = 5 → Completes (.activateFirmware ep a) s fun t =>
      t.mgmt.update = .idle ∧ t.boot.wantFwSave = true ∧ t.flash.calBusy = true ∧ t.flash.fwA = s.flash.fwA ∧
      t.flash.fwB = s.flash.fwB ∧ t.reply = .value 1 ∧ t.sec = s.sec) ∧
  (∀ (ep : Ep) (a : Nat) (s : State), EpOpen s ep → s.mgmt.update ≠ .idle → s.mgmt.agent = some a →
    exec (.cancelUpdate ep a) s = .next { s with reply := .done, mgmt := { s.mgmt with
      update := .idle, agent := none, component := 0, staged := none, fwStaged := false } }) ∧
  (∀ s : State, s.boot.on = true → s.boot.mgmtDown = false → s.mgmt.update ≠ .idle →
    exec .updateAgentTimeout s = .next { s with mgmt := { s.mgmt with
      update := .idle, agent := none, component := 0, staged := none, fwStaged := false } })

/-- R15, R349, R458: PERST_N deasserted with power good and its rails in their windows takes effect at 100 ms, and a
deferred deassertion once the rails are in their windows. Device time is zero, the cold start begins with CRS, every
register field reads its reset value, and flash, journal, fuses and host memory are as they were. Too early, the deassertion
only waits. The model’s own choices met here: log entry 6. -/
def Obligations.DeassertionStartsCold : Prop :=
  (∀ (ms : Nat) (s : State), s.pins.perst = true → s.mayStart = true → 100 ≤ ms →
    Completes (.perstNDeassert ms) s fun t => StartedCold s t ∧ t.pins.perst = false) ∧
  (∀ (ms : Nat) (s : State), s.pins.perst = true → ¬ (s.mayStart = true ∧ 100 ≤ ms) →
    exec (.perstNDeassert ms) s = .next { s with pins := { s.pins with perst := false, deferred := true } }) ∧
  (∀ s : State, s.pins.deferred = true → s.pins.aux = true → s.pins.pwrOk = true → s.power.tripLatched = false →
    Completes .perstDeferredEffect s fun t => StartedCold s t ∧ t.pins.perst = s.pins.perst)

/-- R319, R385, R387, R401, R461: what rises brings nothing up but its pins and the regulator's 750 mV; what falls stops the
device, darkens every lattice and port, and leaves flash, fuses and host memory as they were. Asserted, PERST_N does the
same and ends an active token. The model’s own choices met here: log entries 6, 67. -/
def Obligations.SupplyPins : Prop :=
  (∀ s : State, s.pins.pwrOk = false → s.pins.aux = true →
    exec .pwrOkAssert s = .next { s with pins := { s.pins with pwrOk := true, railsOk := true, refArmed := true },
                                         power := { s.power with avsMv := 750 } }) ∧
  (∀ (c : Bool) (s : State), s.pins.aux = false →
    exec (.vddAuxPowerUp c) s = .next { s with pins := { s.pins with aux := true },
                                               power := { s.power with clkExt := c }, mgmt := Mgmt.reset }) ∧
  (∀ s : State, s.boot.on = true → Completes .pwrOkDeassert s fun t => Stopped s t ∧ t.pins.pwrOk = false) ∧
  (∀ (r : Rail) (s : State), s.boot.on = true → s.pins.pwrOk = true →
    Completes (.railOutOfWindow r) s fun t => Stopped s t ∧ t.pins.railsOk = false ∧ t.power = s.power) ∧
  (∀ s : State, s.boot.on = true → s.pins.aux = true →
    Completes .vddAuxLoss s fun t => Stopped s t ∧ t.pins.aux = false ∧ t.pins.pwrOk = false ∧
      t.power.tripLatched = false ∧ t.boot.faultN = false) ∧
  (∀ s : State, s.boot.on = true → s.pins.refArmed = true →
    Completes .referenceLost s fun t => Stopped s t ∧ t.boot.faultN = true ∧ t.boot.halt = 3 ∧ t.power.refOk = false) ∧
  (∀ s : State, s.boot.on = true → s.pins.perst = false →
    Completes .perstNAssert s fun t =>
      t.pins.perst = true ∧ t.boot.on = false ∧ t.sec.token = none ∧ (∀ l, (t.lat l).state = .dark) ∧
      (∀ p, t.port p = Port.reset) ∧ (∀ h < 10, (t.comb h).state = .off) ∧
      (∀ q, (t.cluster q).taps = [] ∧ (t.cluster q).high = false) ∧
      t.flash = s.flash ∧ t.sec.svn = s.sec.svn ∧ t.sec.ownFuses = s.sec.ownFuses ∧ t.mem = s.mem ∧ t.hostMem = s.hostMem)

/-- R40, R43, R48: a request or a persistent fault fences the lattice. A DARK lattice is FENCED at once; one that serves or
is SUSPECT notes the cause and drains at its next burst boundary. Either way LAT_FENCED is logged and a FENCE record is
journalled. A host without its grant is refused. The model’s own choices met here: log entry 160. -/
def Obligations.Fencing : Prop :=
  (∀ (c : Instr) (l : Fin 8) (k : Nat) (s : State), (s.lat l).state = .suspect → (s.lat l).fencePending = 0 →
    ((∃ p, c = .latFenceReq p l ∧ k = 11 ∧ s.served p = true ∧ hostAllowed p s.cfg.grantLattice = true) ∨
      c = .suspectTimeout l ∧ k = 12 ∨
      c = .linePowerRecoveryTimeout l ∧ k = 12 ∧ (s.lat l).held.any (fun e => e.1 == .linePower) = true) →
    exec c s = .next (((s.event .latFenced .lattice l noCtx []).journal .fence [l, k, s.time]).modLat l fun x =>
      { x with fencePending := k })) ∧
  (∀ (p : Path) (l : Fin 8) (s : State), s.served p = true → hostAllowed p s.cfg.grantLattice = true →
    (s.lat l).state = .dark → (s.lat l).fencePending = 0 → (s.lat l).outageFrom = none → s.boot.stage = 5 →
    Completes (.latFenceReq p l) s fun t => (t.lat l).state = .fenced ∧ (t.lat l).cause = 11 ∧
      (t.lat l).entryTime = s.time ∧ (∀ k ≠ l.val, t.lat k = s.lat k) ∧ t.evHead = s.evHead + 1 ∧
      t.flag .evtAlertFence = true ∧ t.mem = s.mem ∧ t.sec = s.sec) ∧
  (∀ (p : Path) (l : Fin 8) (s : State), s.served p = true → hostAllowed p s.cfg.grantLattice = false →
    exec (.latFenceReq p l) s = .next (s.refuse p (Reg.latCtrl.addr l) 16)) ∧
  (∀ (l : Fin 8) (s : State), (s.lat l).state = .searching → (s.lat l).fencePending = 0 → s.boot.stage = 5 →
    Completes (.searchTimeout l) s fun t => (t.lat l).fencePending = 12 ∧ t.evHead = s.evHead + 1 ∧
      (t.log.map (·.code)).head? = some 0x0101) ∧
  (∀ (p : Path) (l : Fin 8) (v : BitVec 8) (s : State), s.served p = true → (isHost p = false ∨ s.tokenPerm 0 = true) →
    v.toNat = 2 ^ l.val → (s.lat l).state = .fenced → s.flag .latCtrlEn l = false → s.flag .latCtrlKeepLit l = false →
    s.boot.stage = 5 → Completes (.fenceClear p v) s fun t => (t.lat l).state = .dark ∧ (t.lat l).fencePending = 0 ∧
      (t.lat l).suspectEntries = [] ∧ (t.log.map (·.code)).head? = some 0x0705) ∧
  (∀ (v : BitVec 8) (s : State), s.served .bar0 = true → s.tokenPerm 0 = false →
    exec (.fenceClear .bar0 v) s = .next (s.refuse .bar0 (Reg.mgtFenceCtrl.addr 0) v.toNat))

/-- R39 to R41: LAT_CTRL writes EN and KEEP_LIT. A lattice that serves goes on until its next burst boundary; a DARK one in
a bay in RUN whose target becomes SERVING enters SEARCHING. A host without its grant is refused. -/
def Obligations.LatticeControl : Prop :=
  (∀ (p : Path) (l : Fin 8) (v : Word) (s : State), s.served p = true → hostAllowed p s.cfg.grantLattice = true →
    (s.lat l).state = .serving → (s.lat l).outageFrom = none → s.flag .latCtrlEn l = true → v.toNat % 2 = 0 →
    exec (.latCtrlWrite p l v) s = .next (((s.setFld .latCtrlEn l 0).setFld .latCtrlKeepLit l (bitsOf v.toNat 1 1)).modLat l
      fun x => { x with why := 2 })) ∧
  (∀ (p : Path) (l : Fin 8) (s : State), s.served p = true → hostAllowed p s.cfg.grantLattice = true →
    (s.lat l).state = .dark → (s.bay (l / 2)).latPower = .run → s.boot.stage = 5 → s.flag .latCtrlEn l = false →
    Completes (.latCtrlWrite p l 1) s fun t => t.flag .latCtrlEn l = true ∧ t.flag .latCtrlKeepLit l = false ∧
      (t.lat l).state = .searching ∧ t.mem = s.mem ∧ t.sec = s.sec) ∧
  (∀ (p : Path) (l : Fin 8) (v : Word) (s : State), s.served p = true → hostAllowed p s.cfg.grantLattice = false →
    exec (.latCtrlWrite p l v) s = .next (s.refuse p (Reg.latCtrl.addr l) v.toNat))

/-- R30, R40, R85, R89, R297, R299, R336: a burst boundary. A lattice that does not serve lights nothing, and its swap
spacing counts on. One that serves or is SUSPECT drains where a fence waits or its target has changed; a SUSPECT one whose
causes have cleared serves again. With no step in its bay a serving lattice lights an identity burst that is due, or a
sweep, counted as an idle burst. R34: a shadow load that has arrived is in the shadow registers. R85: the oldest burst in
flight resolves; one whose step is gone is discarded, its clipped readings counted, and one of SUSPECT goes back for repeat.
The model’s own choices met here: log entries 31, 36, 119. -/
def Obligations.BurstEvents : Prop :=
  (∀ (l : Fin 8) (s : State), s.boot.on = true →
    (s.lat l).state = .dark ∨ (s.lat l).state = .searching ∨ (s.lat l).state = .draining ∨ (s.lat l).state = .fenced →
    Completes (.burstBoundary l) s fun t => t = { s with lats := t.lats } ∧ (∀ j ≠ l.val, t.lat j = s.lat j) ∧
      t.lat l = { s.lat l with
        sinceSwap := if (s.lat l).guard then (s.lat l).sinceSwap else min 2 ((s.lat l).sinceSwap + 1),
        ramps := (s.lat l).ramps.map fun r => { r with landed := true },
        lit := (false :: (s.lat l).lit).take 63, guard := false }) ∧
  (∀ (l : Fin 8) (s : State), s.boot.on = true → (s.lat l).state = .serving ∨ (s.lat l).state = .suspect →
    s.boot.stage = 5 → (s.lat l).fencePending ≠ 0 → Completes (.burstBoundary l) s fun t =>
      (t.lat l).state = .draining ∧ (t.lat l).phase = 0 ∧ (t.lat l).toLocked = false ∧
      (t.lat l).cause = (s.lat l).fencePending ∧ (t.lat l).entryTime = s.time ∧ (t.lat l).current = none ∧
      (t.lat l).loading = none ∧ (t.lat l).shadow = none ∧ (t.lat l).inflight = (s.lat l).inflight ∧
      (t.lat l).lit = (false :: (s.lat l).lit).take 63 ∧ t.mem = s.mem ∧ t.ctxs = s.ctxs) ∧
  (∀ (l : Fin 8) (s : State), s.boot.on = true → (s.lat l).state = .serving ∨ (s.lat l).state = .suspect →
    s.boot.stage = 5 → (s.lat l).fencePending = 0 → s.latTarget l = .locked → Completes (.burstBoundary l) s fun t =>
      (t.lat l).state = .draining ∧ (t.lat l).phase = 0 ∧ (t.lat l).toLocked = true ∧
      (t.lat l).cause = (s.lat l).why ∧ (t.lat l).entryTime = s.time ∧ (t.lat l).current = none ∧
      (t.lat l).active = (s.lat l).active ∧ (t.lat l).shadow = (s.lat l).shadow ∧
      (t.lat l).inflight = (s.lat l).inflight ∧ t.mem = s.mem ∧ t.ctxs = s.ctxs) ∧
  (∀ (l : Fin 8) (s : State), s.boot.on = true → (s.lat l).state = .serving → (s.lat l).fencePending = 0 →
    s.latTarget l = .serving → (s.bay (l / 2)).upset = false → (∀ e ∈ s.threads, e.2.steps = []) →
    (s.lat l).current = none → (s.lat l).loading = none → (s.lat l).guard = false → (s.lat l).roundLeft = 0 →
    s.time < (s.lat l).lastPass + 9999999000 → (s.lat l).sweepDebt = 0 → (s.lat l).probeDebt = 0 →
    s.allows l = true →
    ((s.lat l).roundDue = true → Completes (.burstBoundary l) s fun t => (t.lat l).state = .serving ∧
      (t.lat l).roundLeft = 1 ∧ (t.lat l).guard = true ∧ (t.lat l).lit = (true :: (s.lat l).lit).take 63 ∧
      (t.lat l).swept = (s.lat l).swept ∧ t.mem = s.mem) ∧
    ((s.lat l).roundDue = false → Completes (.burstBoundary l) s fun t => (t.lat l).state = .serving ∧
      (t.lat l).roundLeft = 0 ∧ (t.lat l).lit = (true :: (s.lat l).lit).take 63 ∧
      (t.lat l).swept = (s.lat l).swept + 1 ∧ (t.lat l).sweeps = (s.lat l).sweeps + 1 ∧
      t.fld .seqGrantCntIdleBursts (l / 2) =
        min (s.fld .seqGrantCntIdleBursts (l / 2) + 1) (2 ^ Fld.seqGrantCntIdleBursts.width - 1) ∧ t.mem = s.mem)) ∧
  (∀ (l : Fin 8) (s : State), s.boot.on = true → (s.lat l).state = .suspect → s.boot.stage = 5 →
    (s.lat l).fencePending = 0 → s.latTarget l = .serving → (s.lat l).held = [] → (s.lat l).dem = [] →
    (∀ e ∈ s.threads, e.2.steps = []) → (s.lat l).current = none → (s.lat l).loading = none →
    Completes (.burstBoundary l) s fun t => (t.lat l).state = .serving ∧ (t.lat l).entryTime = s.time ∧
      (t.lat l).cause = (s.lat l).cause ∧ (t.lat l).outageFrom = none ∧ t.mem = s.mem) ∧
  (∀ (l : Fin 8) (k : Chunk) (a : Active) (pl : Plane) (n m : Bool) (c : Nat) (s : State), (s.lat l).loading = some k →
    (s.lat l).shadow = none → (s.thread k.thread).step? k.uid = some a → (s.bay (threadBay k.thread)).streams = [] →
    loadPlane s (s.ctx (s.thread k.thread).ctx) a k = .ok (pl, n, c, m) →
    Completes (.shadowLoadComplete l) s fun t => t = { s with lats := t.lats, flds := t.flds } ∧
      t.lat l = { s.lat l with shadow := some pl, orphan := none } ∧ (∀ j ≠ l.val, t.lat j = s.lat j) ∧
      t.fld .latFmtCntNonfinite l = min (s.fld .latFmtCntNonfinite l + c) (2 ^ Fld.latFmtCntNonfinite.width - 1) ∧
      t.fld .latSkipPlanesAbsent l =
        min (s.fld .latSkipPlanesAbsent l + boolNat m) (2 ^ Fld.latSkipPlanesAbsent.width - 1)) ∧
  (∀ (l : Fin 8) (k : Chunk) (a : Active) (p r : Nat) (s : State), (s.lat l).loading = some k →
    (s.lat l).shadow = none → (s.thread k.thread).step? k.uid = some a → (s.bay (threadBay k.thread)).streams = [] →
    mmAcc a.word.toNat = 0 → mmWimg a.word.toNat = 0 → q8Weights (mmPair a.word.toNat) = false → k.plane = 0 →
    imageVa s (s.ctx (s.thread k.thread).ctx) a k.tile = .ok p → k.lo + r < k.hi → k.hi ≤ 512 →
    (∀ i < k.hi - k.lo, ∃ b, s.readVirt (s.ctx (s.thread k.thread).ctx) (p + 128 * (k.lo + i)) 128 = .ok b) →
    Completes (.shadowLoadComplete l) s fun t => t = { s with lats := t.lats, flds := t.flds } ∧
      ∃ pl b x, (t.lat l).shadow = some pl ∧ pl.lo = k.lo ∧ pl.hi = k.hi ∧
        s.readVirt (s.ctx (s.thread k.thread).ctx) (p + 128 * (k.lo + r)) 128 = .ok b ∧ pl.rows[r]? = some x ∧
        x.codes = nibbles b ∧ x.nan = false) ∧
  (∀ (l : Fin 8) (b : Burst) (r : List Burst) (s : State), (s.lat l).inflight = b :: r →
    (s.thread b.chunk.thread).st = .idle → (∀ g ∈ b.ranges, g < 8) →
    Completes (.burstResolve l) s fun t => t = { s with lats := t.lats, flds := t.flds } ∧
      t.lat l = { s.lat l with inflight := r } ∧ (∀ j ≠ l.val, t.lat j = s.lat j)) ∧
  (∀ (l : Fin 8) (b : Burst) (r : List Burst) (a : Active) (s : State), (s.lat l).inflight = b :: r →
    (s.thread b.chunk.thread).st ≠ .idle → (s.thread b.chunk.thread).ctx = b.ctx →
    (s.thread b.chunk.thread).steps = [a] → a.uid = b.chunk.uid → b.suspect = true → mmMode a.word.toNat = 0 →
    threadBay b.chunk.thread = l / 2 → (∀ g ∈ b.ranges, g < 8) → (∀ c, (s.ctx c).st ≠ .running ∧ (s.ctx c).st ≠ .waiting) →
    Completes (.burstResolve l) s fun t => (t.lat l).inflight = r ∧ t.mem = s.mem ∧
      ∃ x, (t.thread b.chunk.thread).steps = [x] ∧ x.uid = a.uid ∧ x.inflight = a.inflight - 1 ∧
        x.dealt = a.dealt ∧ x.repeats.length = a.repeats.length + 1 ∧
        ∃ k ∈ x.repeats, k.rep = true ∧ k.suspectRep = true ∧ k.h = b.chunk.h ∧ k.tile = b.chunk.tile ∧
          k.plane = b.chunk.plane ∧ k.all = b.ins.map (·.vec) ∧ k.todo = k.all) ∧
  (∀ (l : Fin 8) (s : State), (s.lat l).inflight = [] → exec (.burstResolve l) s = .next s)

/-- R40, R85, R89, R90, R297, R339, R340: a drain that ends leaves the lattice LOCKED, or darkens it, with its duration
noted; a drained context takes what it drains to; darkening ends in DARK, or in FENCED with the fence's cause, its honeycomb
off and its weight registers empty; a calibration check that ends enters SERVING, CAL_STALE where its episode is still open.
R44: a readout chain that passes its test loses its cause, one that fails is tested again, one that fails twice in a second
fences the lattice. The model’s own choices met here: log entries 31, 121. -/
def Obligations.LatticeStates : Prop :=
  (∀ (l : Fin 8) (s : State), (s.lat l).state = .draining → (s.lat l).phase = 0 → (s.lat l).inflight = [] →
    (s.lat l).toLocked = true → (s.lat l).fencePending = 0 → s.latTarget l = .locked → (s.lat l).group = none →
    (s.bay (l / 2)).trans = none → (s.bay (l / 2)).upset = false →
    Completes (.drainComplete (.lattice l)) s fun t => (t.lat l).state = .locked ∧ (t.lat l).entryTime = s.time ∧
      t.fld .rowDrainLastNs l = min 65535 (s.time - (s.lat l).entryTime) ∧ t.fld .latResidRms l = 0 ∧
      t.mem = s.mem ∧ t.threads = s.threads) ∧
  (∀ (l : Fin 8) (s : State), (s.lat l).state = .draining → (s.lat l).phase = 0 → (s.lat l).inflight = [] →
    (s.lat l).toLocked = false → (s.lat l).group = none → (s.bay (l / 2)).trans = none →
    (s.comb l).state = .ready → Completes (.drainComplete (.lattice l)) s fun t =>
      (t.lat l).state = .draining ∧ (t.lat l).phase = 1 ∧ (t.lat l).held = [] ∧ (t.comb l).state = .rampingDown ∧
      t.fld .rowDrainLastNs l = min 65535 (s.time - (s.lat l).entryTime) ∧ t.mem = s.mem ∧ t.threads = s.threads) ∧
  (∀ (c : Fin 4096) (s : State), (s.ctx c).st = .draining → s.ctxInFlight c = false → (s.ctx c).pendingCmd = none →
    (s.ctx c).map = [] → (s.ctx c).drainTo = 2 → Completes (.drainComplete (.context c)) s fun t =>
      (t.ctx c).st = .faulted ∧ (t.ctx c).fault = (s.ctx c).fault ∧ (t.ctx c).endedL = [] ∧ t.threads = s.threads) ∧
  (∀ (c : Fin 4096) (s : State), (s.ctx c).st = .draining → s.ctxInFlight c = true →
    exec (.drainComplete (.context c)) s = .next s) ∧
  (∀ (t : Fin 512) (s : State), exec (.drainComplete (.thread t)) s = .next s) ∧
  (∀ (l : Fin 8) (s : State), (s.lat l).state = .draining → (s.lat l).phase = 1 → (s.lat l).fencePending ≠ 0 →
    (s.bay (l / 2)).upset = false → (s.comb l).state ≠ .failed →
    Completes (.darkeningComplete l) s fun t => (t.lat l).active = none ∧ (t.lat l).shadow = none ∧
      (t.lat l).state = .fenced ∧ (t.lat l).cause = (s.lat l).fencePending ∧ (t.lat l).fencePending = 0 ∧
      (t.lat l).entryTime = s.time ∧ (t.comb l).state = .off ∧ (t.comb l).bias = 0 ∧ t.mem = s.mem) ∧
  (∀ (l : Fin 8) (s : State), (s.lat l).state = .draining → (s.lat l).phase = 1 → (s.lat l).fencePending = 0 →
    (s.bay (l / 2)).upset = false → s.flag .latCtrlEn l = false → s.flag .latCtrlKeepLit l = false →
    (s.comb l).state ≠ .failed →
    Completes (.darkeningComplete l) s fun t => (t.lat l).active = none ∧ (t.lat l).shadow = none ∧
      (t.lat l).state = .dark ∧ (t.lat l).entryTime = s.time ∧ (t.comb l).state = .off ∧ (t.comb l).bias = 0 ∧
      t.mem = s.mem) ∧
  (∀ (l : Fin 8) (s : State), s.boot.phase = 0 → (s.lat l).state = .locked → (s.lat l).phase = 1 → (s.lat l).held = [] →
    (s.lat l).episode = none → s.latTarget l = .serving → Completes (.calCheckEnd l) s fun t =>
      (t.lat l).state = .serving ∧ (t.lat l).phase = 0 ∧ (t.lat l).cause = 5 ∧ (t.lat l).entryTime = s.time ∧
      (t.lat l).outageFrom = none ∧ t.fld .calEventCntStale l = s.fld .calEventCntStale l ∧ t.mem = s.mem ∧
      t.threads = s.threads) ∧
  (∀ (l : Fin 8) (τ : Nat) (s : State), s.boot.phase = 0 → s.boot.stage = 5 → (s.lat l).state = .locked →
    (s.lat l).phase = 1 → (s.lat l).held = [] → (s.lat l).episode = some τ → s.flag .calStatusStale l = false →
    s.latTarget l = .serving → (s.lat l).outageFrom = none → Completes (.calCheckEnd l) s fun t =>
      (t.lat l).state = .serving ∧ (t.lat l).episode = some τ ∧ t.flag .calStatusStale l = true ∧
      t.fld .calEventCntStale l = min (s.fld .calEventCntStale l + 1) (2 ^ Fld.calEventCntStale.width - 1) ∧
      (t.log.map (·.code)).head? = some 0x0106) ∧
  (∀ (l : Fin 8) (c : Fin 513) (s : State), (s.lat l).selfTest = [(c.val, 1)] → (s.lat l).state ≠ .suspect →
    Completes (.readoutSelfTestEnd l c true) s fun t => t = { s with lats := t.lats } ∧ (t.lat l).selfTest = [] ∧
      (t.lat l).held = (s.lat l).held.filter (fun e => e.1 != .readout) ∧ ∀ j ≠ l.val, t.lat j = s.lat j) ∧
  (∀ (l : Fin 8) (c d : Fin 513) (n : Nat) (s : State), c ≠ d → (s.lat l).selfTest = [(c.val, 1), (d.val, n)] →
    Completes (.readoutSelfTestEnd l c true) s fun t => t = { s with lats := t.lats } ∧
      t.lat l = { s.lat l with selfTest := [(d.val, n)] } ∧ ∀ j ≠ l.val, t.lat j = s.lat j) ∧
  (∀ (l : Fin 8) (c : Fin 513) (s : State), (s.lat l).selfTest = [(c.val, 1)] →
    (∀ e ∈ (s.lat l).selfFails, e.1 = c.val → e.2 + 1000000000 ≤ s.time) →
    Completes (.readoutSelfTestEnd l c false) s fun t => t = { s with lats := t.lats } ∧
      (t.lat l).selfTest = [(c.val, 2)] ∧ (c.val, s.time) ∈ (t.lat l).selfFails ∧ (t.lat l).held = (s.lat l).held ∧
      ∀ j ≠ l.val, t.lat j = s.lat j) ∧
  (∀ (l : Fin 8) (c : Fin 513) (τ : Nat) (s : State), (s.lat l).selfTest = [(c.val, 1)] →
    (s.lat l).selfFails = [(c.val, τ)] → s.time < τ + 1000000000 → (s.lat l).state = .suspect →
    (s.lat l).fencePending = 0 → Completes (.readoutSelfTestEnd l c false) s fun t => (t.lat l).fencePending = 12 ∧
      (t.lat l).selfTest = [(c.val, 2)] ∧ t.evHead = s.evHead + 1) ∧
  (∀ (l : Fin 8) (c : Fin 513) (s : State), (s.lat l).selfTest = [(c.val, 2)] → s.power.unlocked = [] →
    Completes (.readoutRetestTimer l c) s fun t => t = { s with lats := t.lats } ∧
      t.lat l = { s.lat l with selfTest := [(c.val, 1)] } ∧ ∀ j ≠ l.val, t.lat j = s.lat j) ∧
  (∀ (l : Fin 8) (c : Fin 513) (s : State), (s.lat l).selfTest = [] → ∀ r ∈ [Instr.readoutSelfTestEnd l c true,
    .readoutSelfTestEnd l c false, .readoutRetestTimer l c], exec r s = .next s)

/-- R50, R294 to R296: a search whose rings are all settled leaves the lattice LOCKED; before that SEARCH_COMPLETE changes
nothing. A search that is not complete in time fences the lattice: it is abandoned and darkens at once. The model’s own
choices met here: log entry 126. -/
def Obligations.SearchEnds : Prop :=
  (∀ (l : Fin 8) (s : State), (s.lat l).state = .searching → (s.lat l).phase = 1 → (s.lat l).dem = [] →
    s.searchOpen l = false → s.anyRing l (fun y => !y.settled s.time) = false →
    s.latTarget l = .locked → Completes (.searchComplete l) s fun t => (t.lat l).state = .locked ∧
      (t.lat l).cause = 4 ∧ (t.lat l).entryTime = s.time ∧ (t.lat l).lastPass = s.time ∧ t.fld .latResidRms l = 0 ∧
      t.mem = s.mem ∧ t.threads = s.threads) ∧
  (∀ (l : Fin 8) (s : State), s.searchOpen l = true ∨ s.anyRing l (fun y => !y.settled s.time) = true →
    exec (.searchComplete l) s = .next s) ∧
  (∀ (l : Fin 8) (s : State), (s.lat l).state = .searching → (s.lat l).fencePending = 0 → s.boot.stage = 5 →
    (s.comb l).state = .ready → Completes (.searchTimeout l) s fun t => (t.lat l).state = .draining ∧
      (t.lat l).phase = 1 ∧ (t.lat l).toLocked = false ∧ (t.lat l).fencePending = 12 ∧
      (t.comb l).state = .rampingDown ∧ t.mem = s.mem ∧ t.threads = s.threads)

/-- R15, R351 to R353, R411, R413: a warm restart begins at STAGE 0 with device time running on, no token, no nonce, no flow
and no trace left; asked for during a start it is only logged. An error in a hub island restarts the device, one in
management or security halts it with its memory disabled, and a stalled handshake is an error of its island. The model’s own
choices met here: log entries 86, 159. -/
def Obligations.Restarts : Prop :=
  (∀ (p : Path) (s : State), s.served p = true → hostAllowed p s.cfg.grantRestart = true → s.boot.stage = 5 →
    Completes (.nvmRestart p) s fun t => t.boot.restarting = true ∧ t.boot.kind = 2 ∧ t.boot.stage = 0 ∧
      t.time = s.time ∧ t.sec.token = none ∧ t.sec.nonce = none ∧ t.sec.ownFuses = s.sec.ownFuses ∧
      t.hnx.src = [] ∧ t.hnx.dst = [] ∧ t.traces = [] ∧ t.mem = s.mem ∧ t.hostMem = s.hostMem ∧
      t.flash = { s.flash with calBusy := false }) ∧
  (∀ (p : Path) (s : State), s.served p = true → hostAllowed p s.cfg.grantRestart = true → s.boot.stage < 5 →
    exec (.nvmRestart p) s = .next (s.event .nvmRestartIgnored .device 0 noCtx [])) ∧
  (∀ (p : Path) (s : State), s.served p = true → hostAllowed p s.cfg.grantRestart = false →
    exec (.nvmRestart p) s = .next (s.refuse p (Reg.nvmCtrl.addr 0) 1)) ∧
  (∀ (i : HubIsland) (s : State), i ≠ .management → i ≠ .security → s.boot.on = true → s.boot.halt = 0 →
    s.boot.restarting = false → s.boot.stage = 5 → Completes (.internalError (.island (.hub i))) s fun t =>
      t.boot.restarting = true ∧ t.boot.stage = 0 ∧ t.time = s.time ∧ t.mem = s.mem ∧ t.hostMem = s.hostMem) ∧
  (∀ (i : HubIsland) (s : State), i = .management ∨ i = .security → s.boot.on = true → s.boot.halt = 0 →
    s.boot.restarting = false → s.boot.stage = 5 → Completes (.internalError (.island (.hub i))) s fun t =>
      t.boot.halt = 2 ∧ t.boot.stage = 15 ∧ t.boot.faultN = true ∧ t.boot.afterHalt = true ∧
      t.cxl.memCapable = false ∧ t.cxl.memActive = false ∧ t.flag .evtAlertHalt = true) ∧
  (∀ (i : HubIsland) (s : State), i ≠ .management → i ≠ .security → s.boot.on = true → s.boot.halt = 0 →
    s.boot.restarting = false → s.boot.stage = 5 → Completes (.handshakeStall (.hub i)) s fun t =>
      t.boot.restarting = true ∧ t.boot.stage = 0 ∧ t.time = s.time ∧ t.mem = s.mem ∧ t.hostMem = s.hostMem) ∧
  (∀ (i : HubIsland) (s : State), i = .management ∨ i = .security → s.boot.on = true → s.boot.halt = 0 →
    s.boot.restarting = false → s.boot.stage = 5 → Completes (.handshakeStall (.hub i)) s fun t =>
      t.boot.halt = 2 ∧ t.boot.stage = 15 ∧ t.boot.faultN = true) ∧
  (∀ (i : Island) (s : State), exec (.handshakeStall i) s = exec (.internalError (.island i)) s)

/-- R354, R358, R360, R361: a page program commits the batch and then what is held, in order and losing nothing; a
compaction that switches makes the other half active behind its snapshot and leaves the old half to be erased, and each
erase counts one use of its half. Nothing else changes. A compaction starts 24 h after the last one, or when it is asked for
outside the hour; its snapshot holds every state record in force, behind a SNAP_BEGIN. Inside the hour a request is refused
and the journal stays as it is. The model’s own choices met here: log entries 82, 154. -/
def Obligations.JournalFlash : Prop :=
  (∀ s : State, s.boot.on = true → s.jnl.windowOpen = true →
    Completes .journalPageProgram s fun t => t = { s with jnl := t.jnl } ∧ t.jnl.unwritten = [] ∧
      t.jnl.recs ++ t.jnl.hold = s.jnl.recs ++ s.jnl.unwritten ++ s.jnl.hold ∧ t.jnl.next = s.jnl.next) ∧
  (∀ s : State, s.boot.on = true → s.jnl.windowOpen = true → s.jnl.compacting = true →
    Completes .compactionSwitch s fun t => t = { s with jnl := t.jnl } ∧ t.jnl.recs = s.jnl.other ++ s.jnl.unwritten ∧
      t.jnl.unwritten ++ t.jnl.hold = s.jnl.hold ∧ t.jnl.half = 1 - s.jnl.half ∧ t.jnl.other = [] ∧
      t.jnl.compacting = false ∧ t.jnl.erasing = true ∧ t.jnl.next = s.jnl.next) ∧
  (∀ s : State, s.boot.on = true → s.jnl.windowOpen = true → s.jnl.erasing = true →
    Completes .halfEraseDone s fun t => t = { s with jnl := { s.jnl with
      erasing := false, erases0 := t.jnl.erases0, erases1 := t.jnl.erases1 } } ∧
      (s.jnl.half = 1 → t.jnl.erases0 = s.jnl.erases0 + 1 ∧ t.jnl.erases1 = s.jnl.erases1) ∧
      (s.jnl.half = 0 → t.jnl.erases0 = s.jnl.erases0 ∧ t.jnl.erases1 = s.jnl.erases1 + 1)) ∧
  (∀ (c : Instr) (s : State), (c = .journalPageProgram ∨ c = .compactionSwitch ∨ c = .halfEraseDone) →
    s.jnl.windowOpen = false → exec c s = .next s) ∧
  (∀ (c : Instr) (s : State), (c = .compactionStart ∧ s.boot.on = true ∧ 24 * hourNs ≤ s.sinceCompaction ∨
      ∃ p, c = .jnlCompact p ∧ s.served p = true ∧ (s.jnl.lastCompact = none ∨ hourNs ≤ s.sinceCompaction)) →
    s.jnl.compacting = false → s.jnl.erasing = false →
    Completes c s fun t => t = { s with jnl := t.jnl, flds := t.flds } ∧
      t.jnl.compacting = true ∧ t.jnl.lastCompact = some s.time ∧ t.jnl.recs = s.jnl.recs ∧ t.jnl.hold = s.jnl.hold ∧
      (t.jnl.other.map (·.kind)).head? = some .snapBegin ∧
      (∀ r ∈ inForce s.jnl.recs, { r with snap := true } ∈ t.jnl.other)) ∧
  (∀ (p : Path) (s : State), s.served p = true → s.jnl.lastCompact.isSome = true → s.sinceCompaction < hourNs →
    Completes (.jnlCompact p) s fun t => t.jnl = s.jnl ∧
      t.fld .devRefusedCount = min (s.fld .devRefusedCount + 1) (2 ^ Fld.devRefusedCount.width - 1) ∧
      t.fld .devRefusedPath = pathNum p)

/-- R360: the write window is open exactly while every hub sensor reads 0 °C to 95 °C and the flash temperature lies in its
configured rating; a source that reads out of range is logged. The model’s own choices met here: log entries 64, 91. -/
def Obligations.FlashWindow : Prop :=
  (∀ (v : Int) (s : State), s.boot.on = true → s.cfg.flashTemp = .register → -40 * 256 ≤ v → v ≤ 150 * 256 →
    Completes (.flashTempRead (some v)) s fun t => t = { s with jnl := t.jnl } ∧
      t.jnl.flashTemp = v ∧ t.jnl.sensorBad = false ∧ t.jnl.recs = s.jnl.recs ∧
      (t.jnl.windowOpen = true ↔
        s.hubInWindow = true ∧ s.cfg.flashLo * 256 ≤ v ∧ v ≤ s.cfg.flashHi * 256)) ∧
  (∀ s : State, s.boot.on = true → s.cfg.flashTemp = .register →
    Completes (.flashTempRead none) s fun t => t.jnl.sensorBad = true ∧ t.jnl.windowOpen = false ∧
      t.evHead = s.evHead + 1 ∧ (t.log.map (·.code)).head? = some 0x0606)

/-- R331, R360: a save folds every lattice's trims into its working sets and is under way; at its completion, in the write
window, the other copy is in use, its time is noted and CAL_COPY is journalled. The model’s own choices met here: log entry
128. -/
def Obligations.CalibrationSave : Prop :=
  (∀ (c : Instr) (s : State), (c = .calSaveDue ∨ ∃ p, c = .calSaveRequest p ∧ s.served p = true) →
    s.boot.on = true → s.flash.calBusy = false →
    Completes c s fun t => t = { s with lats := t.lats, flash := { s.flash with calBusy := true } } ∧
      (∀ l < 8, ((s.lat l).newest = none → t.lat l = s.lat l) ∧ ∀ x, (s.lat l).newest = some x → t.lat l = { s.lat l with
        folds := (s.lat l).folds ++ [((s.lat l).swept, (s.lat l).randoms, x.temp)], swept := 0, randoms := 0 }) ∧
      (∀ l ≥ 8, t.lat l = s.lat l)) ∧
  (∀ s : State, s.flash.calBusy = true → s.jnl.windowOpen = true → s.boot.wantFwSave = false →
    s.jnl.hold = [] → s.jnl.used + 1 ≤ halfSlots →
    Completes .calSaveComplete s fun t => t = { s with flash := t.flash, jnl := t.jnl } ∧
      t.flash = { s.flash with
        calBusy := false, calCopy := 1 - s.flash.calCopy, calTime := s.time % 2 ^ 48,
        calFolds := (upTo 8).map fun l => (s.lat l).folds, calOther := s.flash.calFolds } ∧
      t.jnl.unwritten.map (fun x => (x.kind, x.payload)) = s.jnl.unwritten.map (fun x => (x.kind, x.payload)) ++
        [(.calCopy, [1 - s.flash.calCopy, s.time])] ∧ t.jnl.recs = s.jnl.recs) ∧
  (∀ s : State, s.flash.calBusy = true → s.jnl.windowOpen = false → exec .calSaveComplete s = .next s)

/-- R329, R332, R337, R338: a ramp takes its sixteen steps and its tables are then in use; residuals are published with
their peak and start an episode in SERVING beyond 0.5 LSB rms or 5 % of bias; a host starts one by a write. The model’s own
choices met here: log entries 128, 131, 132. -/
def Obligations.CalibrationTracking : Prop :=
  (∀ (l : Fin 8) (r : Ramp) (rest : List Ramp) (s : State), (s.lat l).ramps = r :: rest → r.step < 15 →
    exec (.rampStep l) s = .next ((s.setFld .calStatusRampStep l (r.step + 1)).setLat l
      { s.lat l with ramps := { r with step := r.step + 1 } :: rest })) ∧
  (∀ (l : Fin 8) (r : Ramp) (rest : List Ramp) (s : State), (s.lat l).ramps = r :: rest → 15 ≤ r.step →
    exec (.rampStep l) s = .next ((s.setFld .calStatusRampStep l (r.step + 1)).setLat l
      { s.lat l with ramps := [], tables := some r.goal })) ∧
  (∀ (l : Fin 8) (rms bias : BitVec 16) (s : State), (s.lat l).state = .serving → s.flag .calStatusStale l = false →
    (s.lat l).episode = none → (2048 < rms.toNat ∨ 4096 < 20 * bias.toInt.natAbs) → s.fld .latResidPeak l < 2 ^ 16 →
    Completes (.residualPublish l rms bias) s fun t => t = { s with flds := t.flds, lats := t.lats } ∧
      t.fld .latResidRms l = rms.toNat ∧ t.fld .latResidBias l = bias.toNat ∧
      t.fld .latResidPeak l = max (s.fld .latResidPeak l) rms.toNat ∧ t.fld .calStatusCause l = 2 ∧
      t.lat l = { s.lat l with episode := some s.time, episodeMet := false } ∧ (∀ k ≠ l.val, t.lat k = s.lat k)) ∧
  (∀ (l : Fin 8) (rms bias : BitVec 16) (s : State), (s.lat l).state = .locked ∨ (s.lat l).state = .suspect →
    s.fld .latResidPeak l < 2 ^ 16 → Completes (.residualPublish l rms bias) s fun t => t = { s with flds := t.flds } ∧
      t.fld .latResidRms l = rms.toNat ∧ t.fld .latResidBias l = bias.toNat ∧
      t.fld .latResidPeak l = max (s.fld .latResidPeak l) rms.toNat) ∧
  (∀ (p : Path) (l : Fin 8) (s : State), s.served p = true → (s.lat l).state = .serving → (s.lat l).episode = none →
    Completes (.calEpisodeStart p l) s fun t => t = { s with flds := t.flds, lats := t.lats } ∧
      t.fld .calStatusCause l = 4 ∧ t.lat l = { s.lat l with episode := some s.time, episodeMet := false } ∧
      t.fld .calEventCntEpisodes l = min (s.fld .calEventCntEpisodes l + 1) (2 ^ Fld.calEventCntEpisodes.width - 1))

/-- R338, R339: an episode ends at its second interval in a row that meets the limits, and its time is noted; one not
converged at 200 ms leaves the lattice CAL_STALE, counted and logged, while the episode runs on. The model’s own choices met
here: log entry 131. -/
def Obligations.CalibrationEpisodes : Prop :=
  (∀ (l : Fin 8) (sweeps maxTrim : Nat) (rms bias : BitVec 16) (s : State), (s.lat l).episode.isSome = true →
    64 ≤ sweeps → 100 * rms.toNat ≤ 45 * 4096 → 100 * bias.toInt.natAbs ≤ 4 * 4096 → maxTrim ≤ 2 →
    (s.lat l).episodeMet = true → s.flag .calStatusStale l = false →
    exec (.episodeInterval l sweeps rms bias maxTrim) s = .next
      ((s.setLat l { s.lat l with episode := none, episodeMet := false }).setFld .calConvergedTime l s.time)) ∧
  (∀ (l : Fin 8) (sweeps maxTrim : Nat) (rms bias : BitVec 16) (s : State), (s.lat l).episode.isSome = true →
    (sweeps < 64 ∨ 45 * 4096 < 100 * rms.toNat ∨ 4 * 4096 < 100 * bias.toInt.natAbs ∨ 2 < maxTrim) →
    exec (.episodeInterval l sweeps rms bias maxTrim) s = .next (s.setLat l { s.lat l with episodeMet := false })) ∧
  (∀ (l : Fin 8) (s : State), (s.lat l).episode.isSome = true → s.flag .calStatusStale l = false →
    Completes (.episodeTimeout l) s fun t => t.flag .calStatusStale l = true ∧ t.lats = s.lats ∧
      t.fld .calEventCntStale l = min (s.fld .calEventCntStale l + 1) (2 ^ Fld.calEventCntStale.width - 1) ∧
      t.evHead = s.evHead + 1 ∧ (t.log.map (·.code)).head? = some 0x0106 ∧ t.flag .devStatusChgStale = true)

/-- R230: the hub compares the averaged package power with L and sets one allowance for all four bays: down by 4 to no less
than 8, up by 1 to no more than 64, else unchanged. R376: half clock comes at an allowance of 8 with power still above L,
and ends 25 W below it. R374, R375, R14: each package sample enters the average of the last 100; L steps down by 25 W, to no
less than 300, while a domain throttles, and up by 25 W to no more than SET while every domain is cool; telemetry takes
power, L and EVT_AVAIL. The model’s own choices met here: log entries 83, 134, 135. -/
def Obligations.PowerManagement : Prop :=
  (∀ s : State, s.boot.on = true → s.onPhase 1000000 0 = true → s.fld .seqGovAllow 0 ≤ 64 →
    Completes .allowanceEval s fun t => t = { s with
        flds := t.flds, power := { s.power with eightAt := t.power.eightAt } } ∧
      (∀ b < 4, (s.power.limit * s.power.samples.length < s.power.samples.sum →
          t.fld .seqGovAllow b = max 8 (s.fld .seqGovAllow 0 - 4)) ∧
        (s.power.samples.sum + 25 * s.power.samples.length ≤ s.power.limit * s.power.samples.length →
          t.fld .seqGovAllow b = min 64 (s.fld .seqGovAllow 0 + 1)) ∧
        (s.power.samples.sum ≤ s.power.limit * s.power.samples.length →
          s.power.limit * s.power.samples.length < s.power.samples.sum + 25 * s.power.samples.length →
          t.fld .seqGovAllow b = s.fld .seqGovAllow 0))) ∧
  (∀ s : State, s.boot.on = true → heldFor s.time 10000000 s.power.eightAt = true →
    s.power.limit * s.power.samples.length < s.power.samples.sum →
    exec .halfClockEnter s = .next { s with power := { s.power with half := true } }) ∧
  (∀ s : State, heldFor s.time 1000000 s.power.underAt = true →
    s.power.samples.sum + 25 * s.power.samples.length ≤ s.power.limit * s.power.samples.length →
    exec .halfClockExit s = .next { s with power := { s.power with half := false } }) ∧
  (∀ (w : Nat) (s : State), s.boot.on = true → s.onPhase 100000 0 = true →
    Completes (.packagePowerSample w) s fun t => t = { s with flds := t.flds, power := { s.power with
        samples := (w :: s.power.samples).take 100, avg := t.power.avg, underAt := t.power.underAt } } ∧
      t.power.avg = ((w :: s.power.samples).take 100).sum / ((w :: s.power.samples).take 100).length ∧
      t.fld .pwrPkgPeakW = max (s.fld .pwrPkgPeakW) (min t.power.avg 65535) % 65536) ∧
  (∀ s : State, s.boot.on = true → s.power.stepDue ≤ s.time → s.power.throttling = true → 300 < s.power.limit →
    Completes .powerLimitStep s fun t =>
      t.power = { s.power with limit := max 300 (s.power.limit - 25), stepDue := s.time + 5000000 } ∧
      t.fld .pwrEventCntStepsDown = min (s.fld .pwrEventCntStepsDown + 1) (2 ^ 32 - 1) ∧ t.lats = s.lats ∧ t.mem = s.mem) ∧
  (∀ s : State, s.boot.on = true → s.power.stepDue ≤ s.time → s.power.throttling = false → s.power.cool = true →
    Completes .powerLimitStep s fun t => t.lats = s.lats ∧ t.mem = s.mem ∧
      t.power = { s.power with stepDue := s.time + 50000000, limit := max s.power.limit (min (s.fld .pwrLimitSet) (s.power.limit + 25)) }) ∧
  (∀ s : State, s.boot.on = true → s.onPhase 100000000 0 = true → exec .telemetrySample s = .next { s with mgmt := { s.mgmt with
    telemetry := [s.power.avg, s.power.limit, s.fld .evtAvailUs] } })

/-- R374: PWR_LIMIT.SET takes 300 to 1,000 W in steps of 25, from a host under its grant, from PLDM, or refused; L falls to
a lower SET at once and is never raised by the write. R365: IDLE_STATE takes the five states. The model’s own choices met
here: log entry 165. -/
def Obligations.PowerSettings : Prop :=
  (∀ (c : Instr) (v : Nat) (s : State),
    (∃ p w, c = .powerLimitSet p w ∧ v = w.toNat ∧ s.served p = true ∧ hostAllowed p s.cfg.grantLattice = true) ∨
      (∃ ep, c = .setEffecter ep 1 v ∧ s.auxOnly ep = false ∧ s.reaches ep = true ∧ s.boot.on = true ∧ s.boot.mgmtDown = false) →
    300 ≤ v → v ≤ 1000 → v % 25 = 0 →
    Completes c s fun t => t.fld .pwrLimitSet = v ∧ t.power = { s.power with limit := min s.power.limit v } ∧
      t.lats = s.lats ∧ t.mem = s.mem ∧ t.sec = s.sec) ∧
  (∀ (p : Path) (v : BitVec 10) (s : State), s.served p = true → hostAllowed p s.cfg.grantLattice = false →
    Completes (.powerLimitSet p v) s fun t => t.power = s.power ∧ t.fld .pwrLimitSet = s.fld .pwrLimitSet ∧
      t.fld .devRefusedCount = min (s.fld .devRefusedCount + 1) (2 ^ Fld.devRefusedCount.width - 1)) ∧
  (∀ (p : Path) (b : Fin 4) (v : BitVec 3) (s : State), s.served p = true → hostAllowed p s.cfg.grantLattice = true →
    v.toNat ≤ 4 → exec (.idleStateWrite p b v) s = .next (s.setFld .pwrBayCtrlIdleState b v.toNat))

/-- R386, R388, R454: the reference is measured, a PLL that loses lock is logged, counted and its readout chains raise
their cause, a PLL that has relocked lets them be tested, and the regulator's voltage moves by at most 20 mV within
680 mV to 820 mV, a write not acknowledged being repeated. -/
def Obligations.Clocks : Prop :=
  (∀ (o : BitVec 32) (s : State), s.boot.on = true →
    exec (.refMeasure o) s = .next ((s.setFld .clkRefOffset 0 o.toNat).setFld .clkRefValid 0 1)) ∧
  (∀ (i : Island) (s : State), s.boot.on = true → s.power.unlocked.contains i = false → readoutBay i = none →
    exec (.pllLossOfLock i) s = .next
      (({ s with power := { s.power with unlocked := s.power.unlocked ++ [i] } }.event .clkUnlock (islandUnit i).1
        (islandUnit i).2 noCtx []).bump .clkStatusUnlocks)) ∧
  (∀ (b : Fin 4) (s : State), s.boot.on = true → s.power.unlocked.contains (.bay b .readout) = false →
    (∀ l, l = 2 * b.val ∨ l = 2 * b.val + 1 → (s.lat l).state = .locked) →
    Completes (.pllLossOfLock (.bay b .readout)) s fun t =>
      t.power.unlocked = s.power.unlocked ++ [.bay b .readout] ∧
      (∀ l, l = 2 * b.val ∨ l = 2 * b.val + 1 → (t.lat l).held.any (fun e => e.1 == .readout) = true)) ∧
  (∀ (i : Island) (s : State), s.power.unlocked.contains i = true → readoutBay i = none →
    exec (.pllRelocked i) s = .next { s with power := { s.power with unlocked := s.power.unlocked.filter (· != i) } }) ∧
  (∀ (i : HubIsland) (s : State), s.power.unlocked.contains (.hub i) = true → s.boot.on = true → s.boot.halt ≠ 2 →
    s.boot.restarting = true → Completes (.pllRelockTimeout (.hub i)) s fun t => t.boot.halt = 2 ∧
      t.boot.afterHalt = true ∧ t.mem = s.mem ∧ t.sec = s.sec) ∧
  (∀ (mv : Nat) (ack : Bool) (s : State), s.boot.on = true → 3 ≤ s.boot.stage → s.boot.stage ≠ 15 → 680 ≤ mv →
    mv ≤ 820 → mv % 5 = 0 → mv ≤ s.power.avsMv + 20 → s.power.avsMv ≤ mv + 20 → s.power.avsWant = none → s.avsReady = true →
    exec (.avsVoltageWrite mv ack) s = .next { s with power :=
      if ack then { s.power with avsMv := mv, avsWant := none, avsAt := some s.time }
      else { s.power with avsWant := some mv, avsAt := some s.time } }) ∧
  (∀ (mv : Nat) (s : State), s.boot.on = true → s.power.avsWant = some mv → s.avsReady = true →
    exec (.avsWriteRetry true) s =
      .next { s with power := { s.power with avsMv := mv, avsWant := none, avsAt := some s.time } } ∧
    exec (.avsWriteRetry false) s = .next { s with power := { s.power with avsAt := some s.time } })

/-- R377, R382: a thermal sample takes a reading for each of the 190 sensors. A domain at its trip temperature in two
consecutive samples trips the device: the trip is latched with its time, everything stops; without a trip the sample says
which domains throttle. A sample that lacks a reading is no sample. The model’s own choices met here: log entry 139. -/
def Obligations.ThermalSample : Prop :=
  (∀ (r : List Sense) (s : State), r.length ≠ 190 → exec (.thermalSample r) s = .refused .illFormed) ∧
  (∀ (r : List Sense) (s : State), r.length = 190 → s.boot.on = true → s.onPhase 1000000 0 = true →
    Completes (.thermalSample r) s fun t => (t.boot.on = true ↔ t.tripping = none) ∧
      t.power.throttling = (upTo 23).any (fun d => decide ((domainOf d).throttle ≤ (t.domainTemp d).1)) ∧
      (t.boot.on = false → t.power.tripLatched = true ∧ t.power.tripTime = s.time % 2 ^ 48 ∧ t.lats = [] ∧ t.ports = []) ∧
      t.mem = s.mem ∧ t.hostMem = s.hostMem ∧ t.sec = s.sec) ∧
  (∀ (r : List Sense) (s : State), r.length = 190 → s.boot.on = false → s.powered = true →
    Completes (.thermalSample r) s fun t => t = { s with sensors := t.sensors, power := { s.power with
        trips := t.power.trips, levels := t.power.levels, tripLatched := t.power.tripLatched,
        tripDomain := t.power.tripDomain, tripSensor := t.power.tripSensor, tripTime := t.power.tripTime } } ∧
      (t.tripping = none → t.power.tripLatched = s.power.tripLatched) ∧
      (t.tripping ≠ none → t.power.tripLatched = true)) ∧
  (∀ (r : List Sense) (s : State), r.length = 190 → s.powered = false → exec (.thermalSample r) s = .next s)

/-- R364, R365, R367: a request formed while a transition runs waits for its end; a completed transition takes its target
and a bay refused from IDLE asks again. R373: a PROOF slice is counted, and a ring whose error lies in its window keeps its
code. The model’s own choices met here: log entries 63, 90, 99, 136. -/
def Obligations.BayPower : Prop :=
  (∀ (b : Fin 4) (u : Transition) (q : PState) (s : State), s.boot.on = true → (s.bay b).trans = some u →
    (s.bay b).pendReq = none → s.wanted b u.target = some q →
    exec (.powerRequest b) s = .next (s.modBay b fun y => { y with pendReq := some q })) ∧
  (∀ (b : Fin 4) (q : PState) (k c : Nat) (s : State), s.boot.on = true → (s.bay b).trans = none → (s.bay b).held = [] →
    s.wanted b (s.bay b).power = some q → (s.bay b).power.depth < q.depth → s.refusal b q = some (k, c) →
    s.busyThreads b = [] → Completes (.powerRequest b) s fun t => (t.bay b).power = (s.bay b).power ∧
      (t.bay b).trans = none ∧ (t.bay b).retryDue = true ∧ t.fld .pwrBayStatusLastBlock b = k % 2 ^ Fld.pwrBayStatusLastBlock.width ∧
      t.fld .pwrBayStatusLastCause b = c % 2 ^ Fld.pwrBayStatusLastCause.width ∧ t.evHead = s.evHead + 1) ∧
  (∀ (b : Fin 4) (q : PState) (s : State), s.boot.on = true → (s.bay b).trans = none → (s.bay b).held = [] →
    (s.bay b).power ≠ .off → (s.bay b).power ≠ .proof → s.wanted b (s.bay b).power = some q →
    q.depth < (s.bay b).power.depth → (s.lat (2 * b)).state = .fenced → (s.lat (2 * b + 1)).state = .fenced →
    Completes (.powerRequest b) s fun t => (t.bay b).trans = some { target := q, committed := true } ∧
      (t.bay b).power = (s.bay b).power ∧ (t.bay b).retryDue = false ∧ (∀ k ≠ b.val, t.bay k = s.bay k) ∧
      t.threads = s.threads ∧ t.mem = s.mem ∧ t.flds = s.flds) ∧
  (∀ (b : Fin 4) (u : Transition) (s : State), (s.bay b).trans = some u → u.committed = true → (s.bay b).pendReq = none →
    u.target ≠ .proof → (s.bay b).held = [] → s.latSettled (2 * b) u.target = true → s.latSettled (2 * b + 1) u.target = true →
    (∀ k, (s.thread k).wait = none) →
    Completes (.powerTransitionComplete b) s fun t => (t.bay b).power = u.target ∧ (t.bay b).trans = none ∧
      (∀ k ≠ b.val, t.bay k = s.bay k) ∧ t.lats = s.lats ∧ t.threads = s.threads ∧ t.mem = s.mem) ∧
  (∀ (b : Fin 4) (s : State), (s.bay b).retryDue = true → (s.bay b).trans = none → s.busyThreads b = [] →
    s.wanted b (s.bay b).power = none →
    exec (.powerRequestRetry b) s = .next (s.modBay b fun y => { y with retryDue := false })) ∧
  (∀ (b : Fin 4) (s : State), (s.bay b).power = .proof → (s.bay b).heading = .proof → s.sliceDue b = true →
    exec (.proofSlice b []) s =
      .next ((s.setBay b { s.bay b with sliceAt := some s.time }).bump .pwrProofCntSlices b))

/-- R119 to R124, R127 to R130, R136: a VEC, MOVE, GATHER, ROUTE, EXIT or GATE step that may begin is counted, stands among
its thread's steps in progress and takes its effect at issue; where its effect faults, the thread's context faults with that
code, its step and its step counter. VEC leaves each element's value in its output item, MOVE the source's bytes in the
destination, GATHER the row named by the index, ROUTE the records, lists and counts of its assignment, EXIT its NEXT list
and GATE its mask and list; ROUTE, EXIT and GATE set the thread's predicate and count. The model’s own choices met here: log
entries 42, 81, 97, 110. -/
def Obligations.StepsInProgress : Prop :=
  (∀ (c : Instr) (t : Fin 512) (o : Op) (f : State → Thread → Nat → Nat → Except (Nat × State) State) (w : Nat)
    (s s1 u : State), LongStep c t o f → s.begin t o = .go s1 w → (o = .move → s.moveStalls t w = false) →
    f (s1.listed t o w) (s1.thread t) w (s1.uidOf t) = .ok u → exec c s = .next ((s1.listed t o w).byThread t u)) ∧
  (∀ (c : Instr) (t : Fin 512) (o : Op) (f : State → Thread → Nat → Nat → Except (Nat × State) State) (w k : Nat)
    (s s1 u : State), LongStep c t o f → s.begin t o = .go s1 w → (o = .move → s.moveStalls t w = false) →
    f (s1.listed t o w) (s1.thread t) w (s1.uidOf t) = .error (k, u) →
    exec c s = .next (((s1.listed t o w).byThread t u).stepFault t k (s1.thread t).pc (s1.uidOf t))) ∧
  (∀ (c : Instr) (t : Fin 512) (o : Op) (f : State → Thread → Nat → Nat → Except (Nat × State) State) (s : State),
    LongStep c t o f → s.begin t o = .stall →
    exec c s = .next (s.modThread t fun th => { th with st := .stalled })) ∧
  (∀ (c : Instr) (t : Fin 512) (o : Op) (f : State → Thread → Nat → Nat → Except (Nat × State) State) (s : State),
    LongStep c t o f → s.hasNext t = false → exec c s = .next s) ∧
  (∀ (t : Fin 512) (w : Nat) (v : VecIn) (es : List (Option Nat)) (s s1 x y : State),
    s.begin t .vec = .go s1 w → x = s1.listed t .vec w → VecInput x (s1.thread t) w v → vecElements v x = .ok es →
    writeElems v.c v.func v.tout v.out es x = .ok y → Completes (.vec t) s fun u => u.mem = y.mem ∧ u.hostMem = y.hostMem) ∧
  (∀ (t : Fin 512) (w va vb p q : Nat) (a b : Item) (d : List Byte) (c : Ctx) (s s1 x y : State),
    s.begin t .move = .go s1 w → s.moveStalls t w = false → x = s1.listed t .move w → c = x.ctx (s1.thread t).ctx →
    mvAtom w = false → mvMasken w = false → x.mcOf (mvFlow w) = none →
    moveItems x c (s1.thread t) w = .ok ([a], [b]) → a.1 = some va → b.1 = some vb → addrKind va = .own p →
    addrKind vb = .own q → x.readVirt c p (mvLen w) = .ok d → x.writeVirt c q d = .ok y →
    Completes (.move t) s fun u => u.mem = y.mem ∧ u.hostMem = y.hostMem) ∧
  (∀ (t : Fin 512) (w n : Nat) (i o : Item) (d : List Byte) (c : Ctx) (s s1 x y : State),
    s.begin t .gather = .go s1 w → x = s1.listed t .gather w → c = x.ctx (s1.thread t).ctx → gaPool w = false →
    countItems x c (s1.thread t) (gaIdx w) = .ok 1 → streamItems x c (s1.thread t) (gaIdx w) 4 4 1 false = .ok [i] →
    needStream (gaDst w) 1 = .ok () →
    streamItems x c (s1.thread t) (gaDst w) (gaRowbytes w) (itemAlign (gaRowbytes w)) 1 false = .ok [o] →
    gatherIndex x c i = .ok n → gatherRow x c w n = .ok d → writeItem x c o d = .ok y →
    (y.poison = [] ∧ y.wordErr = []) → Completes (.gather t) s fun u => u.mem = y.mem ∧ u.hostMem = y.hostMem) ∧
  (∀ (t : Fin 512) (w n e k cap recs lists counts : Nat) (r : List Byte) (logits : List Nat)
    (chs : List (List (Nat × FV × Bool))) (a : Assign) (c : Ctx) (s s1 x y1 y2 y3 : State),
    s.begin t .route = .go s1 w → x = s1.listed t .route w → c = x.ctx (s1.thread t).ctx →
    readRecord x c w 50 = .ok r → n = recNat r 40 4 → e = recNat r 44 2 → k = recNat r 46 1 → recNat r 47 1 = 0 →
    cap = recNat r 48 2 → recs = recNat r 16 8 → lists = recNat r 24 8 → counts = recNat r 32 8 → 1 ≤ n → n ≤ 65536 →
    1 ≤ k → k ≤ 8 → k ≤ e → e ≤ 1024 → 1 ≤ cap → recs % 64 = 0 → lists % 8 = 0 → counts % 8 = 0 → recNat r 8 8 = 0 →
    readFps x c (recNat r 0 8) (n * e) = .ok logits →
    chs = (upTo n).map (fun i => choices k false (((logits.drop (i * e)).take e).map f32) []) → a = assignAll cap k chs →
    foldRun (fun s i => orFault s (s.writeVirt c (recs + 64 * i) (routeRecord a i (chs.getD i [])))) (upTo n) x = .ok y1 →
    foldRun (fun s (z : Nat × Nat × Nat × Nat) => orFault s (s.writeVirt c (lists + 4 * (cap * z.1 + z.2.1))
      (leBytes 4 (z.2.2.1 * 2 ^ 29 + z.2.2.2)))) a.entries y1 = .ok y2 →
    foldRun (fun s i => orFault s (s.writeVirt c (counts + 4 * i)
      (leBytes 4 (min (tget 0 a.drops i) 0xFFFF * 2 ^ 16 + tget 0 a.counts i)))) (upTo e) y2 = .ok y3 →
    Completes (.route t) s fun u => u.mem = y3.mem ∧ u.hostMem = y3.hostMem ∧
      (u.thread t).pred = decide (0 < a.dropped)) ∧
  (∀ (t : Fin 512) (w count domain : Nat) (r h : List Byte) (l : List Nat) (z : ExitIn) (c : Ctx)
    (s s1 x y1 y2 : State), s.begin t .exit = .go s1 w → x = s1.listed t .exit w → c = x.ctx (s1.thread t).ctx →
    readRecord x c w 57 = .ok r → 4 ≤ recNat r 52 4 → recNat r 52 4 ≤ 65536 → recNat r 52 4 % 4 = 0 →
    recNat r 56 1 ≤ 254 → recNat r 0 8 % 8 = 0 → recNat r 40 8 % 8 = 0 → x.readVirt c (recNat r 0 8) 8 = .ok h →
    count = recNat h 0 4 → domain = recNat h 4 4 → 1 ≤ domain → domain ≤ 65536 →
    z = ⟨c, domain, recNat r 0 8, recNat r 8 8, recNat r 16 8, recNat r 24 8, recNat r 32 8, recNat r 48 4, recNat r 52 4,
      recNat r 56 1⟩ →
    exitAll z (upTo count) (x, []) = .ok (y1, l) → y1.writeVirt c (recNat r 40 8) (listBytes domain l) = .ok y2 →
    Completes (.exit t) s fun u => u.mem = y2.mem ∧ u.hostMem = y2.hostMem ∧ (u.thread t).pred = l.isEmpty) ∧
  (∀ (t : Fin 512) (w n gw passMax : Nat) (r : List Byte) (scores pass : List Nat) (c : Ctx) (s s1 x y1 y2 : State),
    s.begin t .gate = .go s1 w → x = s1.listed t .gate w → c = x.ctx (s1.thread t).ctx →
    readRecord x c w 40 = .ok r → n = recNat r 24 4 → gw = recNat r 28 2 → passMax = recNat r 36 4 → 1 ≤ n →
    n ≤ 16777216 → 1 ≤ gw → recNat r 30 1 ≤ 1 → recNat r 31 1 = 0 → passMax ≤ n → recNat r 8 8 % 8 = 0 →
    recNat r 16 8 % 8 = 0 → readFps x c (recNat r 0 8) n = .ok scores →
    pass = gatePass n gw (recNat r 30 1 == 1) scores (recNat r 32 4) →
    x.writeVirt c (recNat r 8 8) (maskBytes n pass) = .ok y1 → y1.writeVirt c (recNat r 16 8) (listBytes n pass) = .ok y2 →
    Completes (.gate t) s fun u => u.mem = y2.mem ∧ u.hostMem = y2.hostMem ∧
      (u.thread t).pred = decide (passMax < pass.length))

/-- R125, R127: a MATMUL that may begin is issued with its pieces, whatever of it is complete is finished, and the bay's
lattices are fed; while they are dark it stands in progress with its vectors and its pieces in dealing order. R134: SETMODE
sets its thread's mode. R121, R220: FENCE is issued and stays in progress; it completes when nothing it orders is left, and
until then nothing changes. The model’s own choices met here: log entries 40, 41, 96. -/
def Obligations.MatmulModeFence : Prop :=
  (∀ (t : Fin 512) (w : Nat) (s s1 u : State), s.begin t .matmul = .go s1 w →
    matmulEffect t (s1.listed t .matmul w) (s1.thread t) w (s1.uidOf t) = .ok u →
    exec (.matmul t) s = .next ((forEach (((s1.listed t .matmul w).byThread t u).thread t).steps (fun s a =>
      if opOf a.word.toNat = some .matmul then s.mmFinish t a.uid else s)
      ((s1.listed t .matmul w).byThread t u)).feedBay (threadBay t))) ∧
  (∀ (t : Fin 512) (w : Nat) (s s1 : State), s.begin t .setmode = .go s1 w → (s.thread t).pc + 1 < (s1.ctx (s1.thread t).ctx).nSteps →
    Completes (.setmode t) s fun u => (u.thread t).mode = smState w ∧ (u.thread t).pc = (s1.thread t).pc + 1 ∧
      (u.ctx (s1.thread t).ctx).stepctr = (s1.ctx (s1.thread t).ctx).stepctr + 1 ∧ u.mem = s1.mem ∧ u.lats = s1.lats) ∧
  (∀ (t : Fin 512) (w : Nat) (s s1 : State), s.begin t .fence = .go s1 w →
    exec (.fence t) s = .next ((s1.listed t .fence w).modStep t (s1.uidOf t) fun a => { a with done := false })) ∧
  (∀ (t : Fin 512) (a : Active) (s : State),
    (s.thread t).steps.find? (fun a => opOf a.word.toNat == some .fence) = some a →
    (s.fenceHolds t (fnScope a.word.toNat) = true → (s.thread t).pc < (s.ctx (s.thread t).ctx).nSteps →
      Completes (.fenceComplete t) s fun u => (u.thread t).steps = (s.thread t).steps.erase a ∧
        (u.thread t).st = (if (s.thread t).st = .stalled then .ready else (s.thread t).st) ∧ u.mem = s.mem) ∧
    (s.fenceHolds t (fnScope a.word.toNat) = false → exec (.fenceComplete t) s = .next s)) ∧
  (∀ (t : Fin 512) (w n : Nat) (s s1 x : State), s.begin t .matmul = .go s1 w → x = s1.listed t .matmul w →
    MmInput x (s1.thread t) (s1.uidOf t) w n → (s1.thread t).steps = [] →
    (s1.lat (2 * threadBay t)).state = .dark → (s1.lat (2 * threadBay t + 1)).state = .dark → s1.poison = [] →
    s1.wordErr = [] → Completes (.matmul t) s fun u => u.mem = s1.mem ∧ u.hostMem = s1.hostMem ∧
      ∃ a, (u.thread t).steps = [a] ∧ a.uid = s1.uidOf t ∧ a.word = BitVec.ofNat 256 w ∧ a.vectors = n ∧
        a.live = upTo n ∧ a.dealt = piecesOf t (s1.uidOf t) n w (upTo n) ∧ a.done = false) ∧
  (∀ (t : Fin 512) (w : Nat) (s s1 : State), s.begin t .fence = .go s1 w →
    (∀ a ∈ (s1.thread t).steps, a.uid ≠ s1.uidOf t) → Completes (.fence t) s fun u =>
      (u.thread t).pc = (s1.thread t).pc + 1 ∧ u.mem = s1.mem ∧ ∃ a, (u.thread t).steps = (s1.thread t).steps ++ [a] ∧
        a.uid = s1.uidOf t ∧ a.word = BitVec.ofNat 256 w ∧ a.done = false)

/-- R132, R133, R135, R202, R204, R219: SIGNAL, WAIT and BRANCH take their whole effect as they issue; a fault of one is a
step fault. SIGNAL adds N to its word, releases its thread's steps and writes its restart record. A WAIT whose word has its
count sets the predicate and takes the count where CONS asks, one that has not blocks its thread. BRANCH goes by its
condition. A WAIT that times out clears its predicate and its thread is ready again, counted; one that is satisfied takes
its counts. The model’s own choices met here: log entries 14, 44. -/
def Obligations.SynchronisingSteps : Prop :=
  (∀ (c : Instr) (t : Fin 512) (o : Op) (f : State → Thread → Nat → Except (Nat × State) State) (w : Nat)
    (s s1 u : State), InstantStep c t o s w f → s.begin t o = .go s1 w →
    f (s1.countIssue t) (s1.thread t) w = .ok u → exec c s = .next (((s1.countIssue t).byThread t u).maybeEnd t)) ∧
  (∀ (c : Instr) (t : Fin 512) (o : Op) (f : State → Thread → Nat → Except (Nat × State) State) (w k : Nat)
    (s s1 u : State), InstantStep c t o s w f → s.begin t o = .go s1 w →
    f (s1.countIssue t) (s1.thread t) w = .error (k, u) →
    exec c s = .next (((s1.countIssue t).byThread t u).stepFault t k (s1.thread t).pc (s1.uidOf t))) ∧
  (∀ (t : Fin 512) (w : Waiting) (s : State), (s.thread t).wait = some w → w.hit = true → (s.thread t).st = .waiting →
    (s.bay (threadBay t)).cache.contains (s.thread t).ctx = true → (s.thread t).pc < (s.ctx (s.thread t).ctx).nSteps →
    w.src = 0 → Completes (.waitSatisfied t) s fun u => (u.thread t).pred = true ∧ (u.thread t).wait = none ∧
      (u.thread t).st = .ready ∧ u.mem = s.mem ∧
      (u.thread t).pend = (if w.cons = true then (s.thread t).pend ++ [(w.sid, w.target)] else (s.thread t).pend)) ∧
  (∀ (t : Fin 512) (w : Waiting) (s : State), (s.thread t).wait = some w → w.hit = false → w.timeout ≠ 0 →
    s.takeDue t = none → (s.bay (threadBay t)).cache.contains (s.thread t).ctx = true →
    (s.thread t).pc < (s.ctx (s.thread t).ctx).nSteps → Completes (.waitTimeout t) s fun u =>
      (u.thread t).pred = false ∧ (u.thread t).wait = none ∧ (u.thread t).st = .ready ∧ u.mem = s.mem ∧
      u.feOps = s.feOps.filter (fun o => !(o.thread == t.val && !o.put)) ∧
      u.fld .wchEventCntTimeouts (threadBay t) =
        min (s.fld .wchEventCntTimeouts (threadBay t) + 1) (2 ^ Fld.wchEventCntTimeouts.width - 1)) ∧
  (∀ (t : Fin 512) (w a : Nat) (e : SyncEntry) (s s1 : State), s.begin t .signal = .go s1 w →
    (s1.ctx (s1.thread t).ctx).syncOf (sgSid w) = some e → e.sig = .own false a → (s1.thread t).pend = [] →
    (s1.thread t).taken = [] → sgN w ≠ 0 → s1.readsBad a 8 = false → s1.cxl.snoop = [] →
    countOf (s1.readNat a 8) + sgN w < 2 ^ 61 → (s1.thread t).pc + 1 < (s1.ctx (s1.thread t).ctx).nSteps →
    Completes (.signal t .clean) s fun u => u.readNat a 8 = s1.readNat a 8 + sgN w ∧
      (∀ z, (z < a ∨ a + 8 ≤ z) → u.byte z = s1.byte z) ∧ (u.thread t).pc = (s1.thread t).pc + 1 ∧
      (∀ i ∈ u.issued, i.thread = t.val → i.released = true) ∧
      (u.ctx (s1.thread t).ctx).restart (s1.thread t).idx = some {
        step := (s1.thread t).pc + 1, pred := (s1.thread t).pred, putPending := false, putStep := 0,
        ctr := (s1.thread t).ctr, consumed := (s1.thread t).consumed }) ∧
  (∀ (t : Fin 512) (w a : Nat) (h : Bool) (e : SyncEntry) (s s1 : State), s.begin t .wait = .go s1 w → wtSrc w = 0 →
    (s1.ctx (s1.thread t).ctx).syncOf (wtSid w) = some e → e.sig = .own h a → e.waitsIn (threadBay t) = true →
    (h = false → s1.readsBad a 8 = false) → (h = true → s1.injOn 5 = false) →
    (s1.thread t).pc + 1 < (s1.ctx (s1.thread t).ctx).nSteps → Completes (.wait t .clean) s fun u =>
      u.mem = s1.mem ∧ (u.thread t).pc = (s1.thread t).pc + 1 ∧
      (wtTarget w + (s1.thread t).pendingOn (wtSid w) ≤ countOf (s1.waitedCount h a) →
        (u.thread t).pred = true ∧ (u.thread t).wait = none ∧ (u.thread t).st = .ready ∧
          (u.thread t).pend = (if wtCons w = true then (s1.thread t).pend ++ [(wtSid w, wtTarget w)]
            else (s1.thread t).pend)) ∧
      (countOf (s1.waitedCount h a) < wtTarget w + (s1.thread t).pendingOn (wtSid w) →
        (u.thread t).pred = (s1.thread t).pred ∧ (u.thread t).st = .waiting ∧
        (u.thread t).wait = some ⟨0, wtSid w, wtTarget w, wtCons w, wtTimeout w, s1.time, false, s1.uidOf t⟩)) ∧
  (∀ (t : Fin 512) (w : Nat) (k : LineCheck) (s s1 : State), s.begin t .branch = .go s1 w → brCond w ≤ 4 →
    (s1.thread t).ctr.length = 4 → (s1.thread t).pc + 1 < (s1.ctx (s1.thread t).ctx).nSteps →
    brTarget w < (s1.ctx (s1.thread t).ctx).nSteps → Completes (.branch t k) s fun u => u.mem = s1.mem ∧
      (u.thread t).pred = (s1.thread t).pred ∧
      (u.thread t).pc = (if brCond w = 0 ∨ brCond w = 1 ∧ (s1.thread t).pred = true ∨
          brCond w = 2 ∧ (s1.thread t).pred = false ∨
          brCond w = 3 ∧ (s1.thread t).ctr.getD (brC w) 0 ≠ 1 then brTarget w else (s1.thread t).pc + 1) ∧
      (u.thread t).ctr = (if brCond w = 3 then (s1.thread t).ctr.set (brC w) ((s1.thread t).ctr.getD (brC w) 0 - 1)
        else if brCond w = 4 then (s1.thread t).ctr.set (brC w) (BitVec.ofNat 32 (brImm w)) else (s1.thread t).ctr)) ∧
  (∀ (t : Fin 512) (w : Nat) (k : LineCheck) (s s1 : State), s.begin t .branch = .go s1 w → brCond w = 5 →
    (s1.thread t).pend = [] → (s1.thread t).taken = [] → (s1.thread t).consumed ≤ (s1.ctx (s1.thread t).ctx).published →
    Completes (.branch t k) s fun u => (u.thread t).st = .idle ∧ u.mem = s1.mem)

/-- R199 to R201: a PUT waits until its word is empty and its turn comes, then the word is full with its value; a TAKE waits
until the word is full, then reserves it. R121: a step whose work is done is counted and leaves its thread's steps. The
model’s own choices met here: log entries 20, 44. -/
def Obligations.TaggedWordsAndCompletion : Prop :=
  (∀ (t : Fin 512) (o : FeOp) (s : State), s.feOps.find? (fun o => o.thread == t.val && o.put) = some o →
    s.isFull o.addr = false → s.feOldest o.addr true = some o → s.cxl.snoop = [] →
    (s.thread t).pc < (s.ctx (s.thread t).ctx).nSteps →
    Completes (.putComplete t) s fun u => u.feOps = s.feOps.erase o ∧ (u.thread t).putWait = false ∧
      u.isFull o.addr = true ∧ u.readNat o.addr 8 = o.value.toNat ∧
      ∀ z, (z < o.addr ∨ o.addr + 8 ≤ z) → u.byte z = s.byte z) ∧
  (∀ (t : Fin 512) (o : FeOp) (s : State), s.feOps.find? (fun o => o.thread == t.val && o.put) = some o →
    s.isFull o.addr = true → exec (.putComplete t) s = .next s) ∧
  (∀ (t : Fin 512) (o : FeOp) (s : State), s.feOps.find? (fun o => o.thread == t.val && !o.put) = some o →
    s.isFull o.addr = true → s.reservedTo o.addr = 0 → s.feOldest o.addr false = some o →
    s.readsBad o.addr 8 = false → (s.bay (threadBay t)).cache.contains (s.thread t).ctx = true →
    (s.thread t).ctr.length = 4 → (s.thread t).pc < (s.ctx (s.thread t).ctx).nSteps →
    Completes (.takeReserve t) s fun u => u.feOps = s.feOps.erase o ∧ u.reservedTo o.addr = t.val + 1 ∧
      (u.thread t).ctr = (s.thread t).ctr.set 3 (BitVec.ofNat 32 (s.readNat o.addr 8)) ∧ (u.thread t).pred = true ∧
      (u.thread t).taken = (s.thread t).taken ++ [o.addr] ∧ (u.thread t).wait = none ∧ (u.thread t).st = .ready ∧
      u.mem = s.mem) ∧
  (∀ (t : Fin 512) (k : Nat) (a : Active) (s : State), (s.thread t).steps[k]? = some a → s.stepFinished t a = true →
    opOf a.word.toNat ≠ some .fence → opOf a.word.toNat ≠ some .move →
    (s.thread t).pc < (s.ctx (s.thread t).ctx).nSteps → Completes (.stepComplete t k) s fun u =>
      (u.thread t).steps = (s.thread t).steps.filter (fun b => b.uid != a.uid) ∧
      (u.thread t).st = (if (s.thread t).st = .stalled then .ready else (s.thread t).st) ∧
      (u.bay (threadBay t)).streams = (s.bay (threadBay t)).streams.filter (fun b =>
        !(b.thread == t.val && b.uid == a.uid)) ∧ u.mem = s.mem) ∧
  (∀ (t : Fin 512) (k : Nat) (s : State), (s.thread t).steps.length ≤ k → exec (.stepComplete t k) s = .next s)

/-- R164, R171 to R176: a transfer that completes is in its unit's hands, the pool space of a write is free again, and of
one that waits for a larder fill nothing changes. A larder fill is installed unless a flush has begun or its line was
invalidated; one that meets an uncorrectable error is not. A flush empties the larder until it is done. A stream blocked for
20 µs without any pool space freed is spilled, the youngest first. The model’s own choices met here: log entries 14, 26, 93,
115. -/
def Obligations.StreamsAndLarder : Prop :=
  (∀ (t : Fin 512) (e : XferEnd) (a : BitVec 48) (n : Nat) (k : LineCheck) (s : State),
    (s.bay (threadBay t)).xferAt t none (e == .host) a.toNat n = none → exec (.transferComplete t e a n k) s = .next s) ∧
  (∀ (t : Fin 512) (e : XferEnd) (a : BitVec 48) (n i : Nat) (x : Stream) (d : Xfer) (k : LineCheck) (s : State),
    (s.bay (threadBay t)).xferAt t none (e == .host) a.toNat n = some (i, x, d) → x.write = false → d.waits ≠ [] →
    exec (.transferComplete t e a n k) s = .next s) ∧
  (∀ (b : Fin 4) (n : Nat) (f : Fill) (s : State), (s.bay b).fills.find? (fun f => f.line == n) = some f →
    (s.bay b).streams = [] → exec (.larderFillComplete b n .clean) s = .next (s.setBay b { s.bay b with
      fills := (s.bay b).fills.erase f,
      larder := if f.install && !(s.bay b).flushing then
        larderInstall (s.fld .bayLarderCtrlProtWays b) (s.bay b).larder n f.prot else (s.bay b).larder })) ∧
  (∀ (p : Path) (b : Fin 4) (s : State), s.served p = true → (s.bay b).unitState.larderOn = true →
    exec (.larderFlush p b) s = .next (s.modBay b fun y => { y with
      larder := [], flushing := true, fills := y.fills.map fun f => { f with install := false } })) ∧
  (∀ (b : Fin 4) (s : State), exec (.larderFlushDone b) s = .next (s.modBay b fun y => { y with flushing := false })) ∧
  (∀ (b : Fin 4) (τ A : Nat) (d : Xfer) (x : Stream) (s : State), s.regrant b = s → (s.bay b).lastFreed + 20000 ≤ s.time →
    (s.bay b).streams = [x] → x.blockedSince = some τ → τ + 20000 ≤ s.time → x.held = [d] → 0 < d.pool → d.host = false →
    d.len ≤ (s.ctx (s.thread x.thread).ctx).atticPages * (2 * mib) → s.inAttic (s.thread x.thread).ctx = [] →
    A = (s.ctx (s.thread x.thread).ctx).attic → s.cxl.snoop = [] → Completes (.blockedStreamCheck b) s fun u =>
      u.bytes A d.len = s.bytes d.addr d.len ∧ (∀ z, (z < A ∨ A + d.len ≤ z) → u.byte z = s.byte z) ∧
      (u.bay b).lastFreed = s.time ∧
      u.fld .seqSpillEvents b = min (s.fld .seqSpillEvents b + 1) (2 ^ Fld.seqSpillEvents.width - 1) ∧
      u.fld .seqSpillTimeTime b = s.time % 2 ^ Fld.seqSpillTimeTime.width ∧
      (u.log.map (·.code)).head? = some (Ev.code .seqAtticSpill)) ∧
  (∀ (b : Fin 4) (s : State), s.time < (s.bay b).lastFreed + 20000 → (s.bay b).streams = [] →
    exec (.blockedStreamCheck b) s = .next s) ∧
  (∀ (t : Fin 512) (a : BitVec 48) (i : Nat) (x : Stream) (d : Xfer) (s : State),
    (s.bay (threadBay t)).streams = [x] → (s.bay (threadBay t)).xferAt t none false a.toNat d.len = some (0, x, d) →
    x.write = true → x.flight = [d] → x.todo = [] → x.held = [] → x.spilled = [] → i = threadBay t →
    endHolds .cellar a.toNat = true → s.poison = [] → s.wordErr = [] →
    Completes (.transferComplete t .cellar a d.len .clean) s fun u => u.mem = s.mem ∧
      ((u.bay i).streams.map fun x => (x.flight, x.held)) = [([], [])] ∧
      (0 < d.pool → (u.bay i).lastFreed = s.time))

/-- R144 to R147: a command of an unclaimed portal entry, or of no known operation, is answered and does nothing else; each
row acts only on its own operation. BIND of a FREE context is checked whole: it is accepted, and the context is BOUND with
what its portal and recipe give, or refused with the context still FREE and the code of the refusal. START of a BOUND
context within its quota waits for admission. The model’s own choices met here: log entries 14, 25, 116, 167. -/
def Obligations.PortalCommands : Prop :=
  (∀ (c : Instr) (p : Fin 256) (e : Fin 4096) (k : PortalCmd) (s : State),
    PortalRow c p e → s.portalCmd p e = some k → k.op = 0 ∨ 5 < k.op → Completes c s fun t =>
      (t.entrySt (entryKey p e)).lastSeq = some k.seq ∧ t.ctxs = s.ctxs ∧ t.lats = s.lats ∧
      (s.claimed p e = true → (t.entrySt (entryKey p e)).result = resUnknown) ∧
      (s.claimed p e = false → (t.entrySt (entryKey p e)).result = resNotClaimed)) ∧
  (∀ (p : Fin 256) (e : Fin 4096) (a b : Bool) (n : Nat) (k : PortalCmd) (po : Portal) (s : State),
    s.portalCmd p e = some k → k.op = 1 → s.claimed p e = true → s.cfg.portals[p.val]? = some po →
    ((s.ctx k.ctx).st ≠ .free → Completes (.bind p e a b n .clean .clean) s fun t =>
      (t.entrySt (entryKey p e)).lastSeq = some k.seq ∧ (t.entrySt (entryKey p e)).result = resBusy ∧ t.ctxs = s.ctxs) ∧
    (∀ f, (s.ctx k.ctx).st = .free → s.bindCheck po (s.readNat (s.portalWord p e 0x20) 8)
        (s.readNat (s.portalWord p e 0x18) 8) k.arg a b n = .error f →
      Completes (.bind p e a b n .clean .clean) s fun t =>
        t.ctx k.ctx = { s.ctx k.ctx with fault := f.code, faultStep := f.step, faultThread := f.thread } ∧
        (t.entrySt (entryKey p e)).lastSeq = some k.seq ∧ (t.entrySt (entryKey p e)).result = f.result ∧
        t.fld .ctxEventCntRefused = min (s.fld .ctxEventCntRefused + 1) (2 ^ Fld.ctxEventCntRefused.width - 1))) ∧
  (∀ (p : Fin 256) (e : Fin 4096) (k : PortalCmd) (s : State), s.portalCmd p e = some k → k.op = 2 →
    s.claimed p e = true → (s.ctx k.ctx).st = .bound → (s.ctx k.ctx).admitWait = false →
    (s.ctx k.ctx).wantThreads.length ≤ s.threadQuota p k.ctx → Completes (.start p e) s fun t =>
      t.admitQueue = s.admitQueue ++ [k.ctx] ∧ t.ctx k.ctx = { s.ctx k.ctx with admitWait := true } ∧
      (t.entrySt (entryKey p e)).lastSeq = some k.seq ∧ (t.entrySt (entryKey p e)).result = resOk) ∧
  (∀ (p : Fin 256) (e : Fin 4096) (a b : Bool) (n : Nat) (k : PortalCmd) (po : Portal) (d : Bound) (s : State),
    s.portalCmd p e = some k → k.op = 1 → s.claimed p e = true → s.cfg.portals[p.val]? = some po → (s.ctx k.ctx).st = .free →
    s.bindCheck po (s.readNat (s.portalWord p e 0x20) 8) (s.readNat (s.portalWord p e 0x18) 8) k.arg a b n = .ok d →
    d.recipe.seed ≠ 0 → Completes (.bind p e a b n .clean .clean) s fun t =>
      (t.ctx k.ctx).st = .bound ∧ (t.ctx k.ctx).portal = p.val ∧ (t.ctx k.ctx).entry = e.val ∧
      (t.ctx k.ctx).nSteps = d.recipe.steps ∧ (t.ctx k.ctx).seed = BitVec.ofNat 64 d.recipe.seed ∧
      (t.ctx k.ctx).wantThreads = d.recipe.entries ∧ (t.ctx k.ctx).leaves = d.leaves ∧
      (t.ctx k.ctx).stepctr = 0 ∧ (t.ctx k.ctx).fault = 0 ∧ (t.ctx k.ctx).warn = false ∧
      (t.ctx k.ctx).qThreads = po.threads ∧ (t.ctx k.ctx).qXfer = po.xfer ∧ (t.ctx k.ctx).qShare = po.share ∧
      (t.ctx k.ctx).priority = po.priority ∧ (t.ctx k.ctx).permFabric = po.permFabric ∧
      (t.entrySt (entryKey p e)).lastSeq = some k.seq ∧ (t.entrySt (entryKey p e)).result = resOk)

/-- R141, R142, R148, R149, R151: the next admissible START runs its context on fresh threads, each at its entry step with
its restart record. RESET and RELEASE of a running context drain it first, of any other are done at once; CLEARWARN clears
WARN. The heartbeat of a claimed entry is noted when it changes, and one that has stood still for the lease ends the context
as a release does. The model’s own choices met here: log entries 18, 21, 28. -/
def Obligations.ContextLifecycle : Prop :=
  (∀ (p : Fin 256) (e : Fin 4096) (c : Nat) (s : State), s.ctxOf p e = some c → s.inService = true →
    s.nextAdmitted = some c → Completes (.startAdmitted p e) s fun t =>
      t.admitQueue = s.admitQueue.filter (· != c) ∧ (t.ctx c).admitWait = false ∧ (t.ctx c).endedL = [] ∧
      (t.ctx c).leaves = (s.ctx c).leaves ∧ (t.ctx c).seed = (s.ctx c).seed) ∧
  (∀ (r : Instr) (p : Fin 256) (e : Fin 4096) (op : Nat) (k : PortalCmd) (s : State),
    (r = .reset p e ∧ op = 3 ∨ r = .release p e ∧ op = 4) → s.portalCmd p e = some k → k.op = op →
    s.claimed p e = true →
    ((s.ctx k.ctx).st = .running ∨ (s.ctx k.ctx).st = .waiting → Completes r s fun t =>
      t.ctx k.ctx = { s.ctx k.ctx with
        st := .draining, drainTo := (if op = 3 then 1 else 0), pendingCmd := some (op, some k.seq) }) ∧
    ((s.ctx k.ctx).st = .faulted → Completes r s fun t => (t.ctx k.ctx).st = (if op = 3 then .bound else .free) ∧
      (t.ctx k.ctx).stepExt = 0 ∧ (t.entrySt (entryKey p e)).lastSeq = some k.seq ∧
      (t.entrySt (entryKey p e)).result = resOk) ∧
    ((s.ctx k.ctx).st = .bound → op = 4 → s.ctxOf p e = some k.ctx → Completes r s fun t =>
      t.ctx k.ctx = Ctx.reset ∧ (t.entrySt (entryKey p e)).lastSeq = some k.seq ∧
      (t.entrySt (entryKey p e)).result = resOk)) ∧
  (∀ (p : Fin 256) (e : Fin 4096) (k : PortalCmd) (s : State), s.portalCmd p e = some k → k.op = 5 →
    s.claimed p e = true → Completes (.clearwarn p e) s fun t => t.ctx k.ctx = { s.ctx k.ctx with warn := false } ∧
      (∀ c ≠ k.ctx, t.ctx c = s.ctx c) ∧ (t.entrySt (entryKey p e)).lastSeq = some k.seq ∧
      (t.entrySt (entryKey p e)).result = resOk) ∧
  (∀ (p : Fin 256) (e : Fin 4096) (c : Nat) (s : State), s.inService = true → s.leaseOf p ≠ 0 → s.ctxOf p e = some c →
    s.claimed p e = true → (s.entrySt (entryKey p e)).heartAt = none → exec (.heartSample p e) s =
      .next (s.setEntry (entryKey p e) { s.entrySt (entryKey p e) with
        heart := BitVec.ofNat 64 (s.readNat (s.portalWord p e 0x38) 8), heartAt := some s.time })) ∧
  (∀ (p : Fin 256) (e : Fin 4096) (c τ : Nat) (s : State), s.inService = true → s.leaseOf p ≠ 0 → s.ctxOf p e = some c →
    s.claimed p e = true → (s.entrySt (entryKey p e)).heartAt = some τ →
    (s.entrySt (entryKey p e)).heart.toNat = s.readNat (s.portalWord p e 0x38) 8 → (s.ctx c).pendingCmd = none →
    (s.ctx c).st = .running ∨ (s.ctx c).st = .waiting → Completes (.leaseExpiry p e) s fun t =>
      t.ctx c = { s.ctx c with st := .draining, drainTo := 0, pendingCmd := some (9, none) } ∧
      (t.entrySt (entryKey p e)).heartAt = none ∧
      t.fld .ctxEventCntLeases = min (s.fld .ctxEventCntLeases + 1) (2 ^ Fld.ctxEventCntLeases.width - 1)) ∧
  (∀ (p : Fin 256) (e : Fin 4096) (c b pc t : Nat) (ts : List Nat) (s : State), s.ctxOf p e = some c →
    s.inService = true → s.nextAdmitted = some c → (s.ctx c).wantThreads = [(b, pc)] → (s.ctx c).map = [] →
    (s.ctx c).st = .bound → b < 4 → s.idleThreads b = t :: ts → (s.bay b).cache.contains c = true →
    Completes (.startAdmitted p e) s fun u => (u.ctx c).st = .running ∧ (u.ctx c).map = [(0, t)] ∧
      u.thread t = { Thread.reset with st := .ready, ctx := c, idx := 0, pc := pc } ∧
      (u.ctx c).restart 0 = some {
        step := pc, pred := false, putPending := false, putStep := 0, ctr := [0, 0, 0, 0], consumed := 0 })

/-- R212, R216, R217, R224: a write of a watched word, a poll, or an invalidated host line evaluates the waits on the words
concerned and no other state: a wait that the value satisfies is latched. A host line takes its new data, and no other host
byte changes. A remote signal held too long is delivered at last, with LOST. The model’s own choices met here: log entries
44, 62. -/
def Obligations.WatchedWords : Prop :=
  (∀ (a : BitVec 48) (s : State), Completes (.watchedWordWrite a) s fun t => t = { s with threads := t.threads }) ∧
  (∀ (t : Fin 512) (a : BitVec 48) (w : Waiting) (s : State), s.threads = [(t.val, s.thread t)] →
    (s.thread t).wait = some w → w.src = 0 → waitWord s (s.thread t) w = some (false, a.toNat / 8 * 8) →
    waitPolled s (s.thread t) w (t / 128) = false → s.readsBad (a.toNat / 8 * 8) 8 = false →
    waitHolds (s.thread t) w (s.waitedCount false (a.toNat / 8 * 8)) = true →
    Completes (.watchedWordWrite a) s fun u => (u.thread t).wait = some { w with hit := true }) ∧
  (∀ (b : Fin 4) (s : State), Completes (.polledWordRead b) s fun t => t = { s with threads := t.threads }) ∧
  (∀ (l : BitVec 46) (d : List Byte) (s : State), d.length = 64 → Completes (.hostLineInvalidate l d) s fun t =>
    t = { s with threads := t.threads, hostMem := t.hostMem } ∧ t.hostBytes (l.toNat * 64) 64 = d ∧
      ∀ a, (a < l.toNat * 64 ∨ l.toNat * 64 + 64 ≤ a) → t.hostByte a = s.hostByte a) ∧
  (∀ (src : BitVec 15) (flow : BitVec 12) (f : Frame) (a : Nat) (s : State), s.dstFlow src.toNat flow.toNat = none →
    s.hnx.unopened.find? (fun f => fType f == 7 && fSrc f == src.toNat && fFlow f == flow.toNat) = some f →
    s.windowAddr (fSrc f) (fWindow f) (fOff f) 8 .write = some a → s.readsBad a 8 = false →
    bitOf (s.readNat a 8) 61 = true → s.hnx.parked = [] → Completes (.heldSignalTimeout src flow) s fun t =>
      t.hnx = { s.hnx with unopened := s.hnx.unopened.erase f } ∧ t.mem = s.mem ∧
      t.fld .wchHoldCntLostRx = min (s.fld .wchHoldCntLostRx + 1) (2 ^ Fld.wchHoldCntLostRx.width - 1) ∧
      (t.log.map fun e => (e.code, e.params)).head? = some (Ev.code .wchLost, [fSrc f, fFlow f])) ∧
  (∀ (src : BitVec 15) (flow : BitVec 12) (s : State), s.dstFlow src.toNat flow.toNat = none → s.hnx.unopened = [] →
    exec (.heldSignalTimeout src flow) s = .next s) ∧
  (∀ (b : Fin 4) (t : Fin 512) (a : Nat) (w : Waiting) (s : State), s.onPhase 20000 0 = true →
    s.threads = [(t.val, s.thread t)] → t / 128 = b.val → (s.thread t).wait = some w → w.src = 0 →
    waitWord s (s.thread t) w = some (false, a) → waitPolled s (s.thread t) w b = true → s.readsBad a 8 = false →
    waitHolds (s.thread t) w (s.waitedCount false a) = true →
    Completes (.polledWordRead b) s fun u => (u.thread t).wait = some { w with hit := true })

/-- R180, R235, R238, R249: the host port reads, writes and operates on host-managed memory at its device address. A write
stores its bytes within its 64-byte line and no others; a read of a sound line answers its 64 bytes; an AtomicOp answers the
old value and stores the new one; while Memory_Active is 0 writes are dropped, counted, and a read of the host answers
poison, counted twice. Peers read and write at levels 3.x and 4.0 only. No such line: a fault. The model’s own choices met
here: log entries 137, 152. -/
def Obligations.HostMemory : Prop :=
  (∀ (h : BitVec 48) (d : List Byte) (s : State), h.toNat < s.hostMemSize → s.linkUp = true → s.cxl.memActive = true →
    s.cxl.viral = false → h.toNat % 64 = 0 → d.length = 64 →
    Completes (.cxlMemWrite false h d .clean) s fun t => t.bytes (dpaOfHost h.toNat) 64 = d ∧
      (∀ a, (a < dpaOfHost h.toNat ∨ dpaOfHost h.toNat + 64 ≤ a) → t.byte a = s.byte a) ∧
      t.hostMem = s.hostMem ∧ t.sec = s.sec ∧ t.lats = s.lats) ∧
  (∀ (p : Bool) (h : BitVec 48) (d : List Byte) (c : LineCheck) (s : State), h.toNat < s.hostMemSize →
    s.linkUp = true → (p = true → s.cxl.level ≠ 0) → s.cxl.memActive = false →
    exec (.cxlMemWrite p h d c) s = .next (s.bump .cxlHdmCntInactive)) ∧
  (∀ (h : BitVec 48) (s : State), h.toNat < s.hostMemSize → s.linkUp = true → s.cxl.memActive = true →
    s.poisoned (lineOf (dpaOfHost (h.toNat / 64 * 64))) = false → s.injOn 3 = false →
    exec (.cxlMemRead false h .clean) s =
      .next { s with reply := .data (s.bytes (dpaOfHost (h.toNat / 64 * 64)) 64) false }) ∧
  (∀ (h : BitVec 48) (w : Bool) (op : AtomicKind) (s : State), h.toNat < s.hostMemSize → s.linkUp = true →
    s.cxl.level ≠ 0 → h.toNat % (if w then 8 else 4) = 0 → s.cxl.memActive = true →
    s.hostHolds (lineOf (dpaOfHost h.toNat)) = false → s.readsBad (dpaOfHost h.toNat) (if w then 8 else 4) = false →
    Completes (.cxlAtomicOp h w op) s fun t =>
      t.readNat (dpaOfHost h.toNat) (if w then 8 else 4) =
        atomicNew (if w then 8 else 4) (s.readNat (dpaOfHost h.toNat) (if w then 8 else 4)) op ∧
      t.reply = .data (leBytes (if w then 8 else 4) (s.readNat (dpaOfHost h.toNat) (if w then 8 else 4))) false ∧
      (∀ a, (a < dpaOfHost h.toNat ∨ dpaOfHost h.toNat + (if w then 8 else 4) ≤ a) → t.byte a = s.byte a)) ∧
  (∀ (c : Instr) (h : BitVec 48) (s : State), s.hostMemSize ≤ h.toNat →
    ((∃ p k, c = .cxlMemRead p h k) ∨ (∃ p d k, c = .cxlMemWrite p h d k) ∨ (∃ w o, c = .cxlAtomicOp h w o) ∨
      (∃ x k, c = .hostOwnershipRequest h x k) ∨ c = .recallTimer h ∨ (∃ m, c = .bisnpResponse h m)) →
    exec c s = .fault .outsideHostManaged) ∧
  (∀ (h : BitVec 48) (s : State), h.toNat < s.hostMemSize → s.linkUp = true → s.cxl.memActive = true →
    s.cxl.level ≠ 0 → Completes (.cxlMemRead true h .clean) s fun t => t = { s with reply := t.reply } ∧
      t.reply = .data (s.bytes (dpaOfHost (h.toNat / 64 * 64)) 64)
        (s.poisoned (lineOf (dpaOfHost (h.toNat / 64 * 64))))) ∧
  (∀ (h : BitVec 48) (d : List Byte) (s : State), h.toNat < s.hostMemSize → s.linkUp = true → s.cxl.memActive = true →
    s.cxl.level ≠ 0 → s.hostHolds (lineOf (dpaOfHost h.toNat)) = false → h.toNat % 64 = 0 → d.length = 64 →
    Completes (.cxlMemWrite true h d .clean) s fun t => t.bytes (dpaOfHost h.toNat) 64 = d ∧
      (∀ a, (a < dpaOfHost h.toNat ∨ dpaOfHost h.toNat + 64 ≤ a) → t.byte a = s.byte a)) ∧
  (∀ (h : BitVec 48) (d : List Byte) (c : LineCheck) (s : State), h.toNat < s.hostMemSize → s.linkUp = true →
    s.cxl.level = 0 → exec (.cxlMemRead true h c) s = .next s ∧ exec (.cxlMemWrite true h d c) s = .next s) ∧
  (∀ (h : BitVec 48) (c : LineCheck) (s : State), h.toNat < s.hostMemSize → s.linkUp = true → s.cxl.memActive = false →
    Completes (.cxlMemRead false h c) s fun t => (∃ d, d.length = 64 ∧ t.reply = .data d true) ∧
      t.fld .cxlHdmCntInactive = min (s.fld .cxlHdmCntInactive + 1) (2 ^ Fld.cxlHdmCntInactive.width - 1) ∧
      t.fld .cxlHdmCntPoisonRd = min (s.fld .cxlHdmCntPoisonRd + 1) (2 ^ Fld.cxlHdmCntPoisonRd.width - 1) ∧
      t.mem = s.mem ∧ t.hostMem = s.hostMem)

/-- R238, R240: a line the host asks for enters the snoop filter and its data is answered; a watched line held exclusive is
taken back once; a response empties the line's entry and its data, if modified, is the line's. The model’s own choices met
here: log entry 137. -/
def Obligations.Coherence : Prop :=
  (∀ (h : BitVec 48) (x : Bool) (s : State), h.toNat < s.hostMemSize → s.linkUp = true → s.hdmDb = true →
    s.cxl.memActive = true → s.hostHolds (lineOf (dpaOfHost h.toNat)) = false → s.cxl.snoop.length + 1 < snoopSize →
    s.poisoned (lineOf (dpaOfHost h.toNat)) = false → s.injOn 3 = false →
    exec (.hostOwnershipRequest h x .clean) s = .next { s with
      cxl := { s.cxl with snoop := s.cxl.snoop ++
        [{ line := lineOf (dpaOfHost h.toNat), exclusive := x, recalled := false }] },
      reply := .data (s.bytes (lineOf (dpaOfHost h.toNat) * 64) 64) false }) ∧
  (∀ (h : BitVec 48) (s : State), h.toNat < s.hostMemSize → s.linkUp = true →
    s.watchedLine (lineOf (dpaOfHost h.toNat)) = true →
    (s.cxl.snoop.any fun x => x.line == lineOf (dpaOfHost h.toNat) && x.exclusive && !x.recalled) = true →
    Completes (.recallTimer h) s fun t => t = { s with flds := t.flds, cxl := { s.cxl with
        snoop := t.cxl.snoop, waitInv := t.cxl.waitInv } } ∧
      lineOf (dpaOfHost h.toNat) ∈ t.cxl.waitInv ∧
      t.fld .cxlHdmCntRecalls = min (s.fld .cxlHdmCntRecalls + 1) (2 ^ 32 - 1) ∧
      exec (.recallTimer h) t = .next t) ∧
  (∀ (h : BitVec 48) (s : State), h.toNat < s.hostMemSize → s.cxl.waitInv.contains (lineOf (dpaOfHost h.toNat)) = true →
    s.cxl.held = [] → s.cxl.grants = [] → exec (.bisnpResponse h none) s = .next { s with cxl := { s.cxl with
      snoop := s.cxl.snoop.filter (fun x => x.line != lineOf (dpaOfHost h.toNat)),
      waitInv := s.cxl.waitInv.filter (· != lineOf (dpaOfHost h.toNat)) } }) ∧
  (∀ (h : BitVec 48) (d : List Byte) (s : State), h.toNat < s.hostMemSize →
    s.cxl.waitInv.contains (lineOf (dpaOfHost h.toNat)) = true → s.cxl.held = [] → s.cxl.grants = [] → d.length = 64 →
    Completes (.bisnpResponse h (some d)) s fun t => t.bytes (lineOf (dpaOfHost h.toNat) * 64) 64 = d ∧
      t.hostHolds (lineOf (dpaOfHost h.toNat)) = false)

/-- R236, R248, R250: a trained link is in L0 at its rate, width and level; one below x4 or 8 GT/s stays in training and is
logged; recovery and flit errors are counted; a lost link empties the snoop filter, the component registers and
configuration space, and is counted and logged. Fault injection ends with its delay. The model’s own choices met here: log
entries 58, 148, 149. -/
def Obligations.CxlLink : Prop :=
  (∀ (r : Fin 5) (w : Nat) (l : Fin 3) (bi : Bool) (s : State), s.boot.on = true → s.cxl.state = .recovery →
    (w = 4 ∨ w = 8 ∨ w = 16) → (l = 0 → r.val ≤ 2) →
    exec (.cxlLinkTrained (8 * 2 ^ r.val) w l bi) s = .next { s with cxl := { s.cxl with
      state := .l0, rate := r.val, width := w, level := l, bi := bi && decide (l ≠ 0) } }) ∧
  (∀ (r w : Nat) (l : Fin 3) (bi : Bool) (s : State), s.boot.on = true → s.cxl.state ≠ .l0 → (w < 4 ∨ r < 8) →
    exec (.cxlLinkTrained r w l bi) s =
      .next ({ s with cxl := { s.cxl with state := .training } }.event .cxlLinkDegraded .device 0 noCtx [])) ∧
  (∀ s : State, s.boot.on = true → s.cxl.state = .l0 → exec .cxlLinkRecovery s =
    .next ({ s with cxl := { s.cxl with state := .recovery, aerCorr := true } }.bump .cxlLinkCntRetrain)) ∧
  (∀ s : State, s.linkUp = true → s.injOn 1 = false → s.injOn 2 = false → exec (.cxlFlitError true) s =
    .next ({ s with cxl := { s.cxl with aerCorr := true } }.bump .cxlLinkCntReplay)) ∧
  (∀ s : State, s.boot.on = true → s.cxl.held = [] → (∀ b < 4, (s.bay b).streams = []) →
    Completes .linkLoss s fun t => t.cxl.state = .down ∧ t.cxl.snoop = [] ∧ t.cxl.waitInv = [] ∧ t.cxl.cfgSpace = [] ∧
      t.cxl.regs = [] ∧ t.cxl.bi = false ∧ t.cxl.width = 0 ∧ t.cxl.viral = false ∧ t.cxl.funcMask = false ∧
      t.fld .cxlLinkCntDown = min (s.fld .cxlLinkCntDown + 1) (2 ^ 16 - 1) ∧
      t.evHead = s.evHead + 1 ∧ (t.log.map (·.code)).head? = some 0x0502 ∧ t.mem = s.mem ∧ t.hostMem = s.hostMem ∧
      t.lats = s.lats ∧ t.threads = s.threads ∧ t.sec = s.sec) ∧
  (∀ s : State, exec .injCreditHoldEnd s = .next { s with cxl := { s.cxl with creditHeld := false } })

/-- R242, R244, R245, R249: configuration requests are retried while CRS lasts, then written words are held; the diagnostic
window reads the bytes at its base plus offset, ones where it is closed, and is written only under a debug token; a Global
Persistent Flush writes the journal in the write window and is answered. The model’s own choices met here: log entries 57,
150. -/
def Obligations.HostWindows : Prop :=
  (∀ (o : BitVec 12) (w : Option (BitVec 32)) (s : State), s.linkUp = true → s.cxl.crs = true →
    exec (.configRequest o w) s = .next { s with reply := .crs }) ∧
  (∀ (o : BitVec 12) (v : BitVec 32) (s : State), s.linkUp = true → s.cxl.crs = false →
    exec (.configRequest o (some v)) s = .next { s with
      cxl := { s.cxl with cfgSpace := tset 0 s.cxl.cfgSpace (o.toNat / 4) v }, reply := .done }) ∧
  (∀ (x : BitVec 36) (s : State), s.linkUp = true → s.diagOpen = true → diagNone (s.diagAddr x.toNat / 8 * 8) = false →
    exec (.bar2Read x) s = .next { s with
      reply := .data (s.bytes (s.diagAddr x.toNat / 8 * 8) 8) (s.readsBad (s.diagAddr x.toNat / 8 * 8) 8) }) ∧
  (∀ (x : BitVec 36) (s : State), s.linkUp = true → s.diagOpen = false →
    exec (.bar2Read x) s = .next { s with reply := .data (List.replicate 8 0xFF) false }) ∧
  (∀ (x : BitVec 36) (v : Word) (s : State), s.linkUp = true → s.diagOpen = true →
    diagNone (s.diagAddr x.toNat / 8 * 8) = false → s.tokenPerm 0 = true →
    s.hostHolds (lineOf (s.diagAddr x.toNat / 8 * 8)) = false →
    Completes (.bar2Write x v) s fun t => t.bytes (s.diagAddr x.toNat / 8 * 8) 8 = leBytes 8 v.toNat ∧
      (∀ a, (a < s.diagAddr x.toNat / 8 * 8 ∨ s.diagAddr x.toNat / 8 * 8 + 8 ≤ a) → t.byte a = s.byte a)) ∧
  (∀ (x : BitVec 36) (v : Word) (s : State), s.tokenPerm 0 = false →
    (s.diagOpen = false ∨ diagNone (s.diagAddr x.toNat / 8 * 8) = false) →
    exec (.bar2Write x v) s = .next s) ∧
  (∀ s : State, s.boot.on = true → s.jnl.windowOpen = true → Completes .globalPersistentFlush s fun t =>
    t = { s with jnl := t.jnl, reply := .done } ∧ t.jnl.unwritten = [] ∧
      t.jnl.recs ++ t.jnl.hold = s.jnl.recs ++ s.jnl.unwritten ++ s.jnl.hold) ∧
  (∀ s : State, s.boot.on = true → s.jnl.windowOpen = false →
    exec .globalPersistentFlush s = .next { s with reply := .done })

/-- R251 to R253: a mailbox command answers and signals vector 0. Cleared records are the oldest of their log, an interrupt
policy and a timestamp are what was last set, the timestamp counting on with device time; the two DOE mailboxes answer a
table and a compliance request, an injection only under its token. The model’s own choices met here: log entries 57, 138. -/
def Obligations.Mailbox : Prop :=
  (∀ s : State, s.boot.on = true →
    exec .identify s = .next ({ s with reply := .data (Config.specData 3 0) false }.signalVector 0)) ∧
  (∀ (k : Nat) (s : State), s.boot.on = true →
    exec (.getLog k) s = .next ({ s with reply := .data (Config.specData 4 k) false }.signalVector 0)) ∧
  (∀ (g : EvLog) (s : State), s.boot.on = true → exec (.getEventRecords g) s =
    .next ({ s with reply := .data (s.cxl.logs.getD (evLogNum g) []).flatten false }.signalVector 0)) ∧
  (∀ (g : EvLog) (n : Nat) (s : State), s.boot.on = true → exec (.clearEventRecords g n) s =
    .next ({ s with reply := .done, cxl := { s.cxl with
      logs := s.cxl.logs.set (evLogNum g) ((s.cxl.logs.getD (evLogNum g) []).drop n),
      overflow := s.cxl.overflow.set (evLogNum g) false } }.signalVector 0)) ∧
  (∀ s : State, s.boot.on = true →
    exec .getEventInterruptPolicy s = .next ({ s with reply := .data s.cxl.policy false }.signalVector 0)) ∧
  (∀ (a b c d : BitVec 8) (s : State), s.boot.on = true → exec (.setEventInterruptPolicy a b c d) s =
    .next ({ s with reply := .done, cxl := { s.cxl with policy := [a, b, c, d] } }.signalVector 0)) ∧
  (∀ s : State, s.boot.on = true → s.cxl.timestamp ≠ 0 → exec .getTimestamp s = .next ({ s with
    reply := .value (s.cxl.timestamp + BitVec.ofNat 64 (s.time - s.cxl.timestampAt)) }.signalVector 0)) ∧
  (∀ (v : Word) (s : State), s.boot.on = true → exec (.setTimestamp v) s =
    .next ({ s with reply := .done, cxl := { s.cxl with timestamp := v, timestampAt := s.time } }.signalVector 0)) ∧
  (∀ (k : Nat) (s : State), s.linkUp = true →
    k < 6 → Completes (.tableAccess k) s fun t => t = { s with reply := t.reply } ∧ ∃ e, t.reply = .data e false ∧
      e.take 4 = [0, 0] ++ leBytes 2 (if k = 5 then 0xFFFF else k + 1) ∧
      (k = 0 → (e.drop 4).take 4 = leBytes 4 136) ∧
      (k = 1 → (e.drop 12).take 16 = leBytes 8 0 ++ leBytes 8 s.hostMemSize) ∧
      (k = 2 ∨ k = 3 → (e.drop 4).getD 6 0 = BitVec.ofNat 8 (k - 1) ∧ (e.drop 20).take 2 = leBytes 2 100) ∧
      (k = 4 ∨ k = 5 → (e.drop 4).getD 6 0 = BitVec.ofNat 8 k ∧ (e.drop 20).take 2 = leBytes 2 250)) ∧
  (∀ (k : Nat) (s : State), s.linkUp = true →
    exec (.complianceRequest false k) s = .next { s with reply := .data (Config.specData 5 k) false }) ∧
  (∀ (k : Nat) (s : State), s.linkUp = true → s.tokenPerm 1 = false →
    Completes (.complianceRequest true k) s fun t => t.reply = .error 1 ∧ t.mem = s.mem ∧ t.hostMem = s.hostMem ∧
      t.fld .cxlInjCtrlMode = s.fld .cxlInjCtrlMode ∧ t.fld .cxlInjCtrlCount = s.fld .cxlInjCtrlCount ∧
      t.fld .devRefusedCount = min (s.fld .devRefusedCount + 1) (2 ^ Fld.devRefusedCount.width - 1)) ∧
  (∀ (k : Nat) (s : State), s.linkUp = true → s.tokenPerm 1 = true → Completes (.complianceRequest true k) s fun t =>
    t.reply = .data (Config.specData 5 k) false ∧ t.mem = s.mem ∧ t.hostMem = s.hostMem ∧
    (Config.injection k = none → t.flds = s.flds) ∧
    ∀ m n, Config.injection k = some (m, n) → m.val ≠ 4 →
      t.fld .cxlInjCtrlMode = m.val ∧ t.fld .cxlInjCtrlCount = n.toNat)

/-- R253: the five injections of CXL_INJ_CTRL take their mode, count and delay under a FAULT_INJ token, and are refused
without one. R193: a scrub read moves on by one line, wrapping with a pass counted, corrects or poisons what it finds, and
says whether it was forced. The model’s own choices met here: log entries 30, 51, 87, 151. -/
def Obligations.InjectionAndScrub : Prop :=
  (∀ (c : Instr) (m : Nat) (n : BitVec 16) (s : State),
    (c = .injTxCrc .bar0 n ∧ m = 1 ∨ c = .injRxCrc .bar0 n ∧ m = 2 ∨ c = .injMemPoison .bar0 n ∧ m = 3 ∨
      c = .injCacheFail .bar0 n ∧ m = 5) → s.boot.on = true → s.tokenPerm 1 = true →
    exec c s = .next ((s.setFld .cxlInjCtrlCount 0 n.toNat).setFld .cxlInjCtrlMode 0 m)) ∧
  (∀ (n d : BitVec 16) (s : State), s.boot.on = true → s.tokenPerm 1 = true → n ≠ 0 →
    Completes (.injCreditHold .bar0 n d) s fun t =>
      t = { s with flds := t.flds, cxl := { s.cxl with creditHeld := true } } ∧
      t.fld .cxlInjCtrlMode = 4 ∧ t.fld .cxlInjCtrlDelayUs = d.toNat ∧ t.fld .cxlInjCtrlCount = n.toNat - 1) ∧
  (∀ (n d : BitVec 16) (s : State), s.boot.on = true → s.tokenPerm 1 = false →
    ∀ c ∈ [Instr.injTxCrc .bar0 n, .injRxCrc .bar0 n, .injMemPoison .bar0 n, .injCreditHold .bar0 n d,
      .injCacheFail .bar0 n], Completes c s fun t => t.cxl = s.cxl ∧
        t.fld .cxlInjCtrlMode = s.fld .cxlInjCtrlMode ∧ t.fld .cxlInjCtrlCount = s.fld .cxlInjCtrlCount ∧
        t.fld .devRefusedCount = min (s.fld .devRefusedCount + 1) (2 ^ Fld.devRefusedCount.width - 1)) ∧
  (∀ (b : Fin 4) (line : Nat) (f : Bool) (s : State), s.boot.on = true → line + 1 < stackLines →
    exec (.scrubRead b line .clean f) s = .next ((s.setFld .celScrubStatusForced b (boolNat f)).setFld
      .celScrubStatusProgress b ((line + 1) * 65536 / stackLines))) ∧
  (∀ (b : Fin 4) (f : Bool) (s : State), s.boot.on = true →
    exec (.scrubRead b (stackLines - 1) .clean f) s = .next (((s.setFld .celScrubStatusForced b (boolNat f)).bump
      .celScrubStatusPasses b).setFld .celScrubStatusProgress b 0)) ∧
  (∀ (b : Fin 4) (line : Nat) (f : Bool) (s : State), s.boot.on = true → line < stackLines →
    Completes (.scrubRead b line .uncorrectable f) s fun t => t.poisoned (b.val * stackLines + line) = true ∧
      (∀ k, k ≠ b.val * stackLines + line → t.poisoned k = s.poisoned k) ∧ t.evHead = s.evHead + 1 ∧
      (t.log.map (·.code)).head? = some 0x0301 ∧ t.mem = s.mem)

/-- R254, R258 to R260: light starts a port's training; at its end the port is ACTIVE at the lower of the two versions, with
the credits the peer's HELLO advertises, its own HELLO sent, and lanes 4 to 7 stay down on a version 1 link. A port with no
lane up in time is FAILED, and tries again. A written RETRAIN trains the port with what its retry buffers held waiting
again. The model’s own choices met here: log entries 49, 145. -/
def Obligations.PortTraining : Prop :=
  (∀ (p : Fin 8) (s : State), s.boot.on = true → (s.port p).state = .dark → (s.port p).moving = false →
    s.flag .hnxPortCtrlEn p = true →
    (s.comb (8 + p / 4)).state = .ready → exec (.lightDetected p) s = .next (s.setPort p { s.port p with
      state := .training, lanesUp := 0, version := 0, lanes := [], credits := Port.reset.credits,
      owed := Port.reset.owed, stalled := Port.reset.stalled })) ∧
  (∀ (p : Fin 8) (s : State), (s.port p).moving = false →
    ((s.port p).state ≠ .dark ∨ (s.comb (8 + p / 4)).state ≠ .ready) →
    exec (.lightDetected p) s = .next s) ∧
  (∀ (p : Fin 8) (s : State), s.boot.on = true → (s.port p).state = .failed →
    exec (.portTrainingRetry p) s = .next (s.setPort p { s.port p with
      state := .training, lanesUp := 0, version := 0, lanes := [], credits := Port.reset.credits,
      owed := Port.reset.owed, stalled := Port.reset.stalled })) ∧
  (∀ (p pp : Fin 8) (up : BitVec 8) (v c0 c1 c2 c3 : Nat) (d : BitVec 15) (s : State), (s.port p).state = .training →
    (s.port p).queue = [] → s.hnx.busy = false → s.hnx.mcWait = [] → (∀ b ∈ s.hnx.branches, b.queue = []) →
    min v (s.fld .hnxPortCtrlMaxVer p) = 2 → up ≠ 0 →
    Completes (.portTrainingDone p up v d pp [c0, c1, c2, c3]) s fun t =>
      t = { s with ports := t.ports, flds := t.flds, cxl := t.cxl } ∧ (t.port p).state = .active ∧ (t.port p).version = 2 ∧
      (t.port p).lanesUp = up ∧ (t.port p).lanes = [] ∧
      (t.port p).peerDev = d.toNat ∧ (t.port p).peerPort = pp ∧ (t.port p).credits = [c0, c1, c2, c3, c0, c1, c2, c3] ∧
      (∃ fs, (t.port p).out = fs ++ (s.port p).out ∧ ∀ e ∈ fs, fType e.2 = 1 ∧ bitOf up.toNat e.1 = true) ∧
      t.flag .devStatusChgHnx = true) ∧
  (∀ (p pp : Fin 8) (up : BitVec 8) (v c0 c1 c2 c3 : Nat) (d : BitVec 15) (s : State), (s.port p).state = .training →
    (s.port p).queue = [] → s.hnx.busy = false → s.hnx.mcWait = [] → (∀ b ∈ s.hnx.branches, b.queue = []) →
    min v (s.fld .hnxPortCtrlMaxVer p) = 1 → up &&& 0x0F ≠ 0 → s.hnx.src = [] →
    Completes (.portTrainingDone p up v d pp [c0, c1, c2, c3]) s fun t => (t.port p).state = .active ∧
      (t.port p).version = 1 ∧ (t.port p).lanesUp = up &&& 0x0F ∧ (t.port p).peerDev = d.toNat ∧
      (t.port p).peerPort = pp ∧ (t.port p).credits = [c0, c1, c2, c3, 0, 0, 0, 0] ∧ t.flag .devStatusChgHnx = true ∧
      t.hnx.dst = s.hnx.dst.filter (fun e => !(e.group.isNone && e.via == p.val)) ∧
      t.mem = s.mem ∧ t.lats = s.lats ∧ t.threads = s.threads) ∧
  (∀ (p : Fin 8) (s : State), (s.port p).state = .training → (s.port p).queue = [] → s.hnx.busy = false →
    exec (.portTrainingTimeout p) s = .next (s.setPort p { Port.reset with
      state := .failed, peerDev := (s.port p).peerDev, peerPort := (s.port p).peerPort, out := (s.port p).out })) ∧
  (∀ (a : Path) (p : Fin 8) (s : State), s.served a = true → ((s.port p).state = .active ∨ (s.port p).state = .failed) →
    Completes (.portRetrain a p) s fun t => (t.port p).state = .training ∧ (t.port p).lanesUp = 0 ∧
      (t.port p).lanes = [] ∧ (∀ q ≠ p.val, t.port q = s.port q) ∧
      (∀ k < 8, ∀ f ∈ ((s.port p).lane k).retry, fType f ≠ 1 → ∃ q ∈ (t.port p).queue, q.frame = f) ∧
      t.mem = s.mem ∧ t.lats = s.lats ∧ t.threads = s.threads ∧ t.hnx = s.hnx) ∧
  (∀ (p : Fin 8) (s : State), s.boot.on = true → (s.port p).moving = true → (∀ k < 8, ((s.port p).lane k).retry = []) →
    Completes (.lightDetected p) s fun t => (t.port p).state = .training ∧ (t.port p).lanesUp = 0 ∧ (t.port p).lanes = [] ∧
      (∀ q ≠ p.val, t.port q = s.port q) ∧ t.mem = s.mem ∧ t.hnx = s.hnx ∧ t.lats = s.lats)

/-- R260, R264, R270: a codeword that can't be decoded is counted, and the sixteenth in a row retrains its lane; a lane that
fails two retrainings stays down, and its port fails with its last lane; a lane without progress replays what it has not had
acknowledged. A class without a credit for 10 ms is logged once. The model’s own choices met here: log entries 54, 143, 168. -/
def Obligations.LaneRecovery : Prop :=
  (∀ (p k : Fin 8) (o : BitVec 7) (s : State), (s.port p).state = .active → (s.port p).upLanes.contains k.val = true →
    exec (.codewordReceived p k o .clean) s = .next (s.setPort p ((s.port p).setLane k { (s.port p).lane k with
      badWords := 0, deaf := ((s.port p).lane k).deaf && decide (80 ≤ o.toNat) })) ∧
    exec (.codewordReceived p k o .corrected) s = .next ((s.setPort p ((s.port p).setLane k { (s.port p).lane k with
      badWords := 0, deaf := ((s.port p).lane k).deaf && decide (80 ≤ o.toNat) })).bump .hnxLaneCntFecCorr p) ∧
    (((s.port p).lane k).badWords < 15 → exec (.codewordReceived p k o .uncorrectable) s = .next ((s.setPort p
      ((s.port p).setLane k { (s.port p).lane k with
        badWords := ((s.port p).lane k).badWords + 1, deaf := true })).bump .hnxLaneCntFecUncorr p)) ∧
    (((s.port p).lane k).badWords = 15 → Completes (.codewordReceived p k o .uncorrectable) s fun t =>
      ((t.port p).lane k).retraining = true ∧ ((t.port p).lane k).retry = [] ∧
      t.fld .hnxLaneCntRetrains p = min (s.fld .hnxLaneCntRetrains p + 1) (2 ^ 16 - 1) ∧
      t.fld .hnxLaneCntFecUncorr p = min (s.fld .hnxLaneCntFecUncorr p + 1) (2 ^ 16 - 1))) ∧
  (∀ (p k : Fin 8) (s : State), (s.port p).state = .active → ((s.port p).lane k).retraining = true →
    (s.port p).queue = [] → s.hnx.mcWait = [] → (∀ b ∈ s.hnx.branches, b.queue = []) →
    exec (.laneRetrainDone p k true) s = .next (s.setPort p ((s.port p).setLane k Lane.reset)) ∧
    (((s.port p).lane k).retrainFails = 0 → exec (.laneRetrainDone p k false) s = .next ((s.setPort p
      ((s.port p).setLane k { (s.port p).lane k with retrainFails := 1 })).bump .hnxLaneCntRetrains p)) ∧
    (((s.port p).lane k).retrainFails ≠ 0 → (s.port p).lanesUp &&& ~~~(BitVec.ofNat 8 (2 ^ k.val)) ≠ 0 →
      exec (.laneRetrainDone p k false) s = .next (s.setPort p { (s.port p).setLane k { Lane.reset with heldDown := true }
        with lanesUp := (s.port p).lanesUp &&& ~~~(BitVec.ofNat 8 (2 ^ k.val)) })) ∧
    (((s.port p).lane k).retrainFails ≠ 0 → (s.port p).lanesUp &&& ~~~(BitVec.ofNat 8 (2 ^ k.val)) = 0 →
      Completes (.laneRetrainDone p k false) s fun t => (t.port p).state = .failed ∧ (t.port p).lanesUp = 0 ∧
        t.flag .devStatusChgHnx = true)) ∧
  (∀ (p k : Fin 8) (s : State), (s.port p).state = .active → (s.port p).upLanes.contains k.val = true →
    ((s.port p).lane k).retry ≠ [] → ((s.port p).lane k).tries.all (fun n => decide (n < 7)) = true →
    Completes (.retryTimeout p k) s fun t =>
      t = { s with ports := t.ports, flds := t.flds } ∧ ((t.port p).lane k).retry = ((s.port p).lane k).retry ∧
      ((t.port p).lane k).tries = ((s.port p).lane k).tries.map (· + 1) ∧
      (∃ fs, (t.port p).out = fs ++ (s.port p).out ∧ fs.length = ((s.port p).lane k).retry.length ∧ ∀ e ∈ fs, e.1 = k.val) ∧
      t.fld .hnxRetryCntReplayed p =
        min (s.fld .hnxRetryCntReplayed p + ((s.port p).lane k).retry.length) (2 ^ 32 - 1)) ∧
  (∀ (p k : Fin 8) (s : State), ((s.port p).lane k).retry = [] → exec (.retryTimeout p k) s = .next s) ∧
  (∀ (p : Fin 8) (c : Fin 4) (b : Fin 2) (s : State), (s.port p).state = .active → (s.port p).version = 2 →
    (s.port p).credits.getD (creditIdx c b) 0 = 0 → (s.port p).stalled.getD (creditIdx c b) false = false →
    exec (.hnxStall p c b) s = .next (((s.setPort p { s.port p with
      stalled := (s.port p).stalled.set (creditIdx c b) true }).event .hnxStall .port p noCtx [c.val]).bump
        .hnxPortEvtStalls p)) ∧
  (∀ (p : Fin 8) (c : Fin 4) (b : Fin 2) (s : State), (s.port p).credits.getD (creditIdx c b) 0 ≠ 0 →
    exec (.hnxStall p c b) s = .next s) ∧
  (∀ (p k : Fin 8) (s : State), (s.port p).state = .active → (s.port p).upLanes.contains k.val = true →
    ((s.port p).lane k).retry ≠ [] → ((s.port p).lane k).tries.any (fun n => decide (7 ≤ n)) = true →
    Completes (.retryTimeout p k) s fun t => ((t.port p).lane k).retraining = true ∧ ((t.port p).lane k).retry = [] ∧
      t.fld .hnxLaneCntRetrains p = min (s.fld .hnxLaneCntRetrains p + 1) (2 ^ 16 - 1) ∧ t.mem = s.mem)

/-- R285, R287: a profile is selected by a path that may, and only while it names one and no change runs; it is active when
no moved port trains. FLT_HNX_CTRL takes its fields and mode under a FAULT_INJ token. Both writes are refused and counted
otherwise. The model’s own choices met here: log entry 146. -/
def Obligations.FabricControl : Prop :=
  (∀ (a : Path) (v : BitVec 2) (s : State), s.served a = true → hostAllowed a s.cfg.grantFabric = true →
    (s.cfg.profiles[v.toNat]?).isSome = true → s.hnx.busy = false →
    (∀ x, s.cfg.profiles[v.toNat]? = some x → ∀ p < 8, x.fibre.getD p p = ((s.activeProfile.map (·.fibre)).getD []).getD p p) →
    (∀ p < 8, (s.port p).moving = false) → (∀ e ∈ s.hnx.src, e.mc = none) → s.hnx.mcWait = [] →
    Completes (.profileChange a v) s fun t => t = { s with flds := t.flds, hnx := t.hnx } ∧
      t.fld .hnxPmapCtrlProfile = v.toNat ∧ t.hnx.profile = v.toNat ∧ t.hnx.busy = false ∧
      t.hnx.src = s.hnx.src.filter (fun e => !e.unacked.isEmpty) ∧ t.hnx.dst = s.hnx.dst ∧
      t.fld .hnxPmapStatusChanges = min (s.fld .hnxPmapStatusChanges + 1) (2 ^ Fld.hnxPmapStatusChanges.width - 1)) ∧
  (∀ (a : Path) (v : BitVec 2) (s : State), s.served a = true → hostAllowed a s.cfg.grantFabric = true →
    s.hnx.busy = true → exec (.profileChange a v) s = .next s) ∧
  (∀ (a : Path) (v : BitVec 2) (s : State), s.served a = true → hostAllowed a s.cfg.grantFabric = false →
    Completes (.profileChange a v) s fun t => t.hnx = s.hnx ∧ t.ports = s.ports ∧
      t.fld .hnxPmapCtrlProfile = s.fld .hnxPmapCtrlProfile ∧
      t.fld .devRefusedCount = min (s.fld .devRefusedCount + 1) (2 ^ Fld.devRefusedCount.width - 1)) ∧
  (∀ (c : Instr) (m : Nat) (a : Path) (v : Word) (s : State),
    (c = .hnxInjDropWire a v ∧ m = 1 ∨ c = .hnxInjDropEarly a v ∧ m = 2 ∨ c = .hnxInjBitFlip a v ∧ m = 3 ∨
      c = .hnxInjE2eFlip a v ∧ m = 4 ∨ c = .hnxInjReorder a v ∧ m = 5) → s.served a = true → s.tokenPerm 1 = true →
    Completes c s fun t => t = { s with flds := t.flds } ∧ t.fld .fltHnxCtrlMode = m ∧
      t.fld .fltHnxCtrlCount = v.toNat / 2 ^ 48 ∧ t.fld .fltHnxCtrlInterval = v.toNat / 2 ^ 40 % 256 ∧
      t.fld .fltHnxCtrlDepth = v.toNat / 2 ^ 32 % 256 ∧ t.fld .fltHnxCtrlClasses = v.toNat / 2 ^ 24 % 16 ∧
      t.fld .fltHnxCtrlLanes = v.toNat / 2 ^ 16 % 256 ∧ t.fld .fltHnxCtrlPort = v.toNat / 2 ^ 8 % 8) ∧
  (∀ (a : Path) (v : Word) (s : State), s.served a = true → s.tokenPerm 1 = false →
    ∀ c ∈ [Instr.hnxInjDropWire a v, .hnxInjDropEarly a v, .hnxInjBitFlip a v, .hnxInjE2eFlip a v, .hnxInjReorder a v],
      Completes c s fun t => t.fld .fltHnxCtrlMode = s.fld .fltHnxCtrlMode ∧
        t.fld .fltHnxCtrlCount = s.fld .fltHnxCtrlCount ∧ t.ports = s.ports ∧
        t.fld .devRefusedCount = min (s.fld .devRefusedCount + 1) (2 ^ Fld.devRefusedCount.width - 1))

/-- R261, R262, R264, R269: a frame that is no frame of its row is refused by name. On a port neither training nor ACTIVE
nothing is received. A frame with a bad link CRC or out of its lane's order is discarded with one NAK. An accepted IDLE
returns credits and empties the retry buffer it acknowledges; an accepted LINK is counted. A frame for another device is
relayed by its route or discarded; a reserved TYPE is discarded. The model’s own choices met here: log entries 54, 144. -/
def Obligations.FrameReception : Prop :=
  (∀ (c : Instr) (p k : Fin 8) (f : Frame) (s : State), FrameRow c p k f → c.wf = false →
    exec c s = .refused .illFormed) ∧
  (∀ (c : Instr) (p k : Fin 8) (f : Frame) (s : State), FrameRow c p k f → c.wf = true →
    (s.port p).state ≠ .active → (s.port p).state ≠ .training → exec c s = .next s) ∧
  (∀ (c : Instr) (p k : Fin 8) (f : Frame) (s : State), FrameRow c p k f → c.wf = true → s.boot.on = true →
    (s.port p).state = .active → (s.port p).upLanes.contains k.val = true → ((s.port p).lane k).owed = false →
    (f.crc ≠ linkCrc f ∨ fType f ≠ 0 ∧ fFsn f ≠ ((s.port p).lane k).expected) →
    exec c s = if ((s.port p).lane k).nakSent then .next s else .next
      ((s.setPort p ((s.port p).setLane k { (s.port p).lane k with nakSent := true })).sendIdle p k true)) ∧
  (∀ (p k : Fin 8) (f : Frame) (s : State), (Instr.idle p k f).wf = true → Arrives s p k f → (s.port p).queue = [] →
    fNak f = false → Completes (.idle p k f) s fun t => t = { s with ports := t.ports } ∧
      (t.port p).credits = (s.port p).credits.set (creditIdx (fCrClass f) (fCrSet f))
        ((s.port p).credits.getD (creditIdx (fCrClass f) (fCrSet f)) 0 + fCrCount f) ∧
      ((t.port p).lane k).retry = (afterFsn (fAck f) ((s.port p).lane k).retry).getD ((s.port p).lane k).retry ∧
      ((t.port p).lane k).expected = ((s.port p).lane k).expected) ∧
  (∀ (p k : Fin 8) (f : Frame) (s : State), (Instr.link p k f).wf = true → Arrives s p k f → fNak f = false →
    Completes (.link p k f) s fun t => t = { s with ports := t.ports, flds := t.flds } ∧
      ((t.port p).lane k).expected = (((s.port p).lane k).expected + 1) % 4096 ∧
      t.fld .hnxRxFramesCount p = min (s.fld .hnxRxFramesCount p + 1) (2 ^ 64 - 1)) ∧
  (∀ (c : Instr) (p k : Fin 8) (q : Nat) (f g : Frame) (s : State), UnicastRow c p k f → c.wf = true → Arrives s p k f →
    (s.port p).version = 2 → fDst f ≠ s.cfg.device → s.routeFrame f = .send q g → q ≠ p.val →
    (s.port q).version = 2 → (s.port q).queue = [] → (s.port q).canSend g = false →
    Completes c s fun t => t = { s with ports := t.ports, flds := t.flds } ∧
      t.waitsAt q g (p + 1) (creditIdx (fClass f) (fDl f))) ∧
  (∀ (c : Instr) (p k : Fin 8) (f : Frame) (r : Nat) (s : State), UnicastRow c p k f → c.wf = true → Arrives s p k f →
    (s.port p).version = 2 → fDst f ≠ s.cfg.device → s.routeFrame f = .fail r none →
    Completes c s fun t => t.mem = s.mem ∧ t.hnx.dst = s.hnx.dst ∧ t.hnx.src = s.hnx.src ∧
      t.fld .hnxPortEvtRouteDiscard p ≥ min (s.fld .hnxPortEvtRouteDiscard p + 1) (2 ^ 16 - 1)) ∧
  (∀ (p k : Fin 8) (f : Frame) (s : State), (Instr.reservedFrame p k f).wf = true → Arrives s p k f →
    Completes (.reservedFrame p k f) s fun t => t = { s with ports := t.ports, flds := t.flds } ∧
      t.fld .hnxPortEvtRouteDiscard p = min (s.fld .hnxPortEvtRouteDiscard p + 1) (2 ^ 16 - 1))

/-- R190, R274, R278: the next frame of a flow commits: a WRITE or MC_REPAIR stores its data at its window's address and
nowhere else, a READ_REQ is answered with the bytes it asks for, a CAS_REQ swaps where the word equals its compare value; E
goes on by one. Outside its window nothing is written and the rejection is counted. A remote signal whose writes have
committed adds N to its word; one that comes early is held. The model’s own choices met here: log entries 53, 112, 113, 142. -/
def Obligations.RemoteAccess : Prop :=
  (∀ (c : Instr) (p k : Fin 8) (f : Frame) (d : DstFlow) (a : Nat) (s : State),
    (c = .write p k f ∨ c = .mcRepair p k f) → c.wf = true → AtHome s p k f →
    s.dstFlow (fSrc f) (fFlow f) = some d → d.e = fSeq f → fSync f = false → d.heldFrames = [] → d.heldSigs = [] →
    s.windowAddr (fSrc f) (fWindow f) (fOff f) (fLen f) .write = some a → s.cxl.snoop = [] →
    Completes c s fun t => t.bytes a (fLen f) = fData f ∧
      (∀ x, (x < a ∨ a + fLen f ≤ x) → t.byte x = s.byte x) ∧
      (t.dstFlow (fSrc f) (fFlow f)).map (·.e) = some (d.e + 1) ∧
      t.hostMem = s.hostMem ∧ t.lats = s.lats ∧ t.sec = s.sec) ∧
  (∀ (c : Instr) (p k : Fin 8) (f : Frame) (d : DstFlow) (s : State),
    (c = .write p k f ∨ c = .mcRepair p k f) → c.wf = true → AtHome s p k f →
    s.dstFlow (fSrc f) (fFlow f) = some d → d.e = fSeq f → fSync f = false → d.heldFrames = [] → d.heldSigs = [] →
    s.windowAddr (fSrc f) (fWindow f) (fOff f) (fLen f) .write = none →
    Completes c s fun t => t.mem = s.mem ∧ (t.dstFlow (fSrc f) (fFlow f)).map (·.e) = some (d.e + 1) ∧
      t.fld .celMapWinRejects = min (s.fld .celMapWinRejects + 1) (2 ^ Fld.celMapWinRejects.width - 1) ∧
      (t.log.map (·.code)).head? = some (Ev.code .celWindowReject)) ∧
  (∀ (p k : Fin 8) (f g : Frame) (d : DstFlow) (a n q : Nat) (r : List Seg) (s : State),
    (Instr.readReq p k f .clean).wf = true → AtHome s p k f →
    s.dstFlow (fSrc f) (fFlow f) = some d → d.e = fSeq f → fSync f = false → d.heldFrames = [] → d.heldSigs = [] →
    d.group = none → d.commits < 63 → n = leNat ((fData f).take 8) % 8192 → 0 < n → n ≤ 256 →
    s.windowAddr (fSrc f) (fWindow f) (fOff f) n .read = some a → s.routeTo (fSrc f) = some r →
    s.routeFrame (withRoute (mkFrame 4 2 (boolNat (s.readsBad a n)) false s.cfg.device (fSrc f) (fFlow f) (fSeq f)
      (fWindow f) (fOff f) 0 (s.bytes a n)) r) = .send q g →
    q ≠ p.val → (s.port q).version = 2 → (s.port q).queue = [] → (s.port q).canSend g = false →
    Completes (.readReq p k f .clean) s fun t => t.waitsAt q g 0 0 ∧
      (t.dstFlow (fSrc f) (fFlow f)).map (·.e) = some (d.e + 1) ∧
      t = { s with ports := t.ports, flds := t.flds, hnx := { s.hnx with dst := t.hnx.dst } }) ∧
  (∀ (p k : Fin 8) (f : Frame) (d : DstFlow) (a : Nat) (s : State),
    (Instr.casReq p k f .clean).wf = true → AtHome s p k f →
    s.dstFlow (fSrc f) (fFlow f) = some d → d.e = fSeq f → fSync f = false → d.heldFrames = [] → d.heldSigs = [] →
    s.windowAddr (fSrc f) (fWindow f) (fOff f) 8 .cas = some a → s.cxl.snoop = [] → s.readsBad a 8 = false →
    Completes (.casReq p k f .clean) s fun t =>
      t.readNat a 8 = (if s.readNat a 8 = leNat ((fData f).take 8) then leNat (((fData f).drop 8).take 8)
        else s.readNat a 8) ∧
      (∀ x, (x < a ∨ a + 8 ≤ x) → t.byte x = s.byte x) ∧
      (t.dstFlow (fSrc f) (fFlow f)).map (·.e) = some (d.e + 1)) ∧
  (∀ (p k : Fin 8) (f : Frame) (d : DstFlow) (a : Nat) (s : State),
    (Instr.signalFrame p k f .clean).wf = true → AtHome s p k f → fClass f ≠ 3 → fFlag f = false →
    s.dstFlow (fSrc f) (fFlow f) = some d → seqBefore (fSeq f) d.e = true → d.rejected = [] →
    s.windowAddr (fSrc f) (fWindow f) (fOff f) 8 .write = some a → s.cxl.snoop = [] → s.readsBad a 8 = false →
    countOf (s.readNat a 8) + leNat ((fData f).take 4) < 2 ^ 61 →
    Completes (.signalFrame p k f .clean) s fun t => t.readNat a 8 = s.readNat a 8 + leNat ((fData f).take 4) ∧
      (∀ x, (x < a ∨ a + 8 ≤ x) → t.byte x = s.byte x) ∧ t.lats = s.lats ∧ t.sec = s.sec ∧ t.hostMem = s.hostMem) ∧
  (∀ (p k : Fin 8) (f : Frame) (d : DstFlow) (s : State),
    (Instr.signalFrame p k f .clean).wf = true → AtHome s p k f → fClass f ≠ 3 → fFlag f = false →
    s.dstFlow (fSrc f) (fFlow f) = some d → seqBefore (fSeq f) d.e = false →
    Completes (.signalFrame p k f .clean) s fun t =>
      t = { s with ports := t.ports, flds := t.flds, hnx := { s.hnx with dst := t.hnx.dst } } ∧
      t.dstFlow (fSrc f) (fFlow f) = some { d with heldSigs := d.heldSigs ++ [(f, s.time)], used := s.time } ∧
      t.fld .wchHoldCntHeld = min (s.fld .wchHoldCntHeld + 1) (2 ^ Fld.wchHoldCntHeld.width - 1)) ∧
  (∀ (src : BitVec 15) (flow : BitVec 12) (f : Frame) (a : Nat) (s : State), s.dstFlow src.toNat flow.toNat = none →
    (s.hnx.unopened.find? fun f => fType f == 7 && fSrc f == src.toNat && fFlow f == flow.toNat) = some f →
    s.windowAddr (fSrc f) (fWindow f) (fOff f) 8 .write = some a → s.cxl.snoop = [] → s.readsBad a 8 = false →
    bitOf (s.readNat a 8) 61 = false → Completes (.heldSignalTimeout src flow) s fun t =>
      t.hnx = { s.hnx with unopened := s.hnx.unopened.erase f } ∧ t.readNat a 8 = s.readNat a 8 + 2 ^ 61 ∧
      (∀ x, (x < a ∨ a + 8 ≤ x) → t.byte x = s.byte x) ∧
      t.fld .wchHoldCntLostRx = min (s.fld .wchHoldCntLostRx + 1) (2 ^ Fld.wchHoldCntLostRx.width - 1) ∧
      (t.log.map (·.code)).head? = some 0x0208) ∧
  (∀ (src : BitVec 15) (flow : BitVec 12) (f : Frame) (d : DstFlow) (s : State),
    s.dstFlow src.toNat flow.toNat = some d → d.heldFrames = [f] → d.heldSigs = [] → fType f = 2 → d.group = none →
    Completes (.heldFrameTimeout src flow) s fun t =>
      t.fld .hnxFlowCntSkips = min (s.fld .hnxFlowCntSkips + 1) (2 ^ 16 - 1) ∧
      (t.dstFlow src.toNat flow.toNat).map (fun x => (x.e, x.heldFrames, x.skips)) =
        some (fSeq f + 1, [], ((d.e, fSeq f - 1) :: d.skips).take 8)) ∧
  (∀ (src : BitVec 15) (flow : BitVec 12) (s : State), s.dstFlow src.toNat flow.toNat = none →
    exec (.heldFrameTimeout src flow) s = .next s)

/-- R222, R275, R276: an acknowledgement moves U past what it covers and clears SYNC; a NACK is counted, and what it names
is lost beyond retry, as is what stays unacknowledged; a poisoned answer faults its step with MEMORY, a whole one is taken
and no longer waited for. A commit that no acknowledgement covers is acknowledged by the timer. The model’s own choices met
here: log entry 141. -/
def Obligations.FlowAnswers : Prop :=
  (∀ (p k : Fin 8) (f : Frame) (e : SrcFlow) (s : State), (Instr.e2eAck p k f).wf = true → AtHome s p k f →
    s.boundGroup (fFlow f) = none → s.srcFlow (fSrc f) (fFlow f) none = some e → seqBefore (fSeq f) e.n = true →
    e.sigWait = [] → (∀ b < 4, (s.bay b).streams = []) → (∀ x ∈ s.threads, x.2.st ≠ .stalled) →
    (∀ x ∈ s.hnx.src, x.backlog = []) →
    Completes (.e2eAck p k f) s fun t =>
      t = { s with ports := t.ports, flds := t.flds, hnx := { s.hnx with src := t.hnx.src } } ∧
      t.srcFlow (fSrc f) (fFlow f) none = some ({ e.acked (fSeq f) with sync := false }).settle) ∧
  (∀ (p k : Fin 8) (f : Frame) (s : State), (Instr.e2eNack p k f).wf = true → AtHome s p k f →
    s.boundGroup (fFlow f) = none → s.srcFlow (leNat ((fData f).drop 8) % 2 ^ 15) (fFlow f) none = none →
    Completes (.e2eNack p k f) s fun t => t = { s with ports := t.ports, flds := t.flds } ∧
      t.fld .hnxFlowCntNackRx = min (s.fld .hnxFlowCntNackRx + 1) (2 ^ 16 - 1)) ∧
  (∀ (p k : Fin 8) (f : Frame) (e : SrcFlow) (u : Sent) (s : State), (Instr.e2eNack p k f).wf = true → AtHome s p k f →
    s.boundGroup (fFlow f) = none → s.srcFlow (leNat ((fData f).drop 8) % 2 ^ 15) (fFlow f) none = some e →
    ((e.unacked ++ e.waiting).filter fun u => decide ((u.fseq - BitVec.ofNat 32 (leNat ((fData f).take 8))).toNat <
      leNat ((fData f).take 8) / 2 ^ 32 % 2 ^ 16)) = [u] →
    leNat ((fData f).take 8) / 2 ^ 48 % 256 = 2 → u.answers = false → e.backlog = [] →
    Completes (.e2eNack p k f) s fun t =>
      t.fld .hnxFlowCntNackRx = min (s.fld .hnxFlowCntNackRx + 1) (2 ^ 16 - 1) ∧
      t.fld .hnxFlowCntLostTx = min (s.fld .hnxFlowCntLostTx + 1) (2 ^ 32 - 1) ∧
      (t.srcFlow (leNat ((fData f).drop 8) % 2 ^ 15) (fFlow f) none).map (·.unacked) =
        some (e.unacked.filter (·.fseq != u.fseq)) ∧
      (t.log.map (·.code)).head? = some 0x0207) ∧
  (∀ (dst : BitVec 15) (flow : BitVec 12) (e : SrcFlow) (u : Sent) (us : List Sent) (s : State),
    s.boundGroup flow.toNat = none → s.srcFlow dst.toNat flow.toNat none = some e → e.unacked = u :: us →
    u.answers = false → e.backlog = [] → e.sigWait = [] → Completes (.flowTimeout dst flow) s fun t =>
      t.fld .hnxFlowCntLostTx = min (s.fld .hnxFlowCntLostTx + 1) (2 ^ 32 - 1) ∧
      (t.srcFlow dst.toNat flow.toNat none).map (·.unacked) = some ((u :: us).filter (·.fseq != u.fseq)) ∧
      (t.log.map (·.code)).head? = some 0x0207 ∧ t.mem = s.mem) ∧
  (∀ (dst : BitVec 15) (flow : BitVec 12) (s : State), s.boundGroup flow.toNat = none →
    s.srcFlow dst.toNat flow.toNat none = none → exec (.flowTimeout dst flow) s = .next s) ∧
  (∀ (src : BitVec 15) (flow : BitVec 12) (d : DstFlow) (s : State), s.dstFlow src.toNat flow.toNat = some d →
    (d.ackDue = false → exec (.e2eAckTimer src flow) s = .next s) ∧
    (d.ackDue = true → Completes (.e2eAckTimer src flow) s fun t =>
      t = { s with ports := t.ports, flds := t.flds, hnx := { s.hnx with dst := t.hnx.dst } } ∧
      t.dstFlow src.toNat flow.toNat = some { d with commits := 0, ackDue := false })) ∧
  (∀ (p k : Fin 8) (f : Frame) (e : SrcFlow) (u : Sent) (s : State), (Instr.readResp p k f).wf = true →
    AtHome s p k f → s.srcFlow (fSrc f) (fFlow f) none = some e → e.asked (fSeq f) = some u → fFlag f = true →
    (s.ctx u.ctx).st = .running → Completes (.readResp p k f) s fun t =>
      (t.ctx u.ctx).fault = 0x40 ∧ (t.ctx u.ctx).st = .draining ∧ t.hostMem = s.hostMem) ∧
  (∀ (p k : Fin 8) (f : Frame) (e : SrcFlow) (u : Sent) (s : State), (Instr.readResp p k f).wf = true →
    AtHome s p k f → s.srcFlow (fSrc f) (fFlow f) none = some e → e.asked (fSeq f) = some u → fFlag f = false →
    u.len ≤ u.got + fLen f → s.sentStep u = none → (∀ b < 4, (s.bay b).streams = []) →
    (∀ x ∈ s.threads, x.2.st ≠ .stalled) → (∀ x ∈ s.hnx.src, x.backlog = []) →
    Completes (.readResp p k f) s fun t =>
      t = { s with ports := t.ports, flds := t.flds, hnx := { s.hnx with src := t.hnx.src } } ∧
      (t.srcFlow (fSrc f) (fFlow f) none).bind (·.asked (fSeq f)) = none) ∧
  (∀ (p k : Fin 8) (f : Frame) (e : SrcFlow) (u : Sent) (a : Active) (va h : Nat) (s : State),
    (Instr.readResp p k f).wf = true → AtHome s p k f → s.srcFlow (fSrc f) (fFlow f) none = some e →
    e.asked (fSeq f) = some u → fFlag f = false → s.sentStep u = some a → a.atoms = [] → u.dst ≠ 0 →
    addrKind (u.dst - 1 + (fOff f - u.off)) = .own va → 0 < fLen f →
    (s.ctx u.ctx).pieces true va (fLen f) = .ok [{ host := true, addr := h, page := va / 2097152, len := fLen f }] →
    (∀ x ∈ s.threads, x.2.wait = none) → Completes (.readResp p k f) s fun t => t.hostBytes h (fLen f) = fData f ∧
      (∀ x, (x < h ∨ h + fLen f ≤ x) → tget 0 t.hostMem x = tget 0 s.hostMem x) ∧ t.mem = s.mem) ∧
  (∀ (p k : Fin 8) (f : Frame) (e : SrcFlow) (u : Sent) (a : Active) (d : Option Nat) (s : State),
    (Instr.casResp p k f).wf = true → AtHome s p k f → s.srcFlow (fSrc f) (fFlow f) none = some e →
    e.asked (fSeq f) = some u → fFlag f = false → s.sentStep u = some a → a.atoms = [(none, d)] →
    (∀ b < 4, (s.bay b).streams = []) → (∀ x ∈ s.threads, x.2.st ≠ .stalled) → (∀ x ∈ s.hnx.src, x.backlog = []) →
    Completes (.casResp p k f) s fun t =>
      t = { s with ports := t.ports, flds := t.flds, threads := t.threads, hnx := { s.hnx with src := t.hnx.src } } ∧
      (t.thread u.thread).step? u.uid = some { a with
        atoms := [], operands := none, swapped := a.swapped && leNat ((fData f).take 8) == (a.operands.getD (0, 0)).1 })

/-- R280 to R284: a member opens its entry at MC_OPEN, commits MC_WRITE in order, and holds what came before the MC_OPEN
until its timeout; a replicator puts a frame in each branch's queue, takes MC_ACK from its branches, passes MC_PRUNE
upstream, and prunes a branch whose head frame had no credit. At the source a prune is repaired. The model’s own choices met
here: log entries 55, 140, 141, 147. -/
def Obligations.MulticastTree : Prop :=
  (∀ (p k : Fin 8) (f : Frame) (g : Group) (s : State), (Instr.mcOpen p k f).wf = true → Arrives s p k f →
    (s.port p).version = 2 → fE2e f = e2eOf f → s.group? (fDst f % 1024) = some g → g.member = true →
    s.hnx.branches = [] → s.hnx.unopened = [] → s.dstFlow (fSrc f) (fFlow f) = none → s.hnx.dst.length < 16384 →
    Completes (.mcOpen p k f) s fun t => t = { s with ports := t.ports, flds := t.flds, hnx := t.hnx } ∧
      (t.dstFlow (fSrc f) (fFlow f)).map (fun d => (d.group, d.o, d.e)) = some (some g.id, fSeq f, fSeq f)) ∧
  (∀ (p k : Fin 8) (f : Frame) (g : Group) (d : DstFlow) (a : Nat) (s : State), (Instr.mcWrite p k f).wf = true →
    Arrives s p k f → (s.port p).version = 2 → fE2e f = e2eOf f → s.group? (fDst f % 1024) = some g → g.member = true →
    s.hnx.branches = [] → s.dstFlow (fSrc f) (fFlow f) = some d → d.e = fSeq f → d.heldFrames = [] → d.heldSigs = [] →
    s.windowAddr (fSrc f) (fWindow f) (fOff f) (fLen f) .write = some a → s.cxl.snoop = [] →
    Completes (.mcWrite p k f) s fun t => t.bytes a (fLen f) = fData f ∧
      (∀ x, (x < a ∨ a + fLen f ≤ x) → t.byte x = s.byte x) ∧
      (t.dstFlow (fSrc f) (fFlow f)).map (·.e) = some (d.e + 1)) ∧
  (∀ (p k : Fin 8) (f : Frame) (g : Group) (b : Branch) (s : State), (Instr.mcWrite p k f).wf = true →
    Arrives s p k f → (s.port p).version = 2 → s.group? (fDst f % 1024) = some g → g.member = false →
    s.hnx.branches = [b] → b.group = fDst f % 1024 → b.skips f = false → (s.port b.port).state ≠ .active →
    (s.port b.port).version ≠ 1 → Completes (.mcWrite p k f) s fun t => t.mem = s.mem ∧ t.hnx.dst = s.hnx.dst ∧
      t.hnx.branches.map (fun x => (x.group, x.port, x.queue)) = [(b.group, b.port, [f])] ∧ t.hnx.mcWait = []) ∧
  (∀ (p k : Fin 8) (f : Frame) (s : State), (Instr.mcAck p k f).wf = true → Arrives s p k f →
    (s.port p).version = 2 → fE2e f = e2eOf f → s.srcFlow 0 (fFlow f) (some (fTag f)) = none →
    (∀ b < 4, (s.bay b).streams = []) →
    Completes (.mcAck p k f) s fun t => t = { s with
        ports := t.ports, flds := t.flds, hnx := { s.hnx with branches := t.hnx.branches, mcAcked := t.hnx.mcAcked } } ∧
      t.hnx.branches = s.hnx.branches.map fun b => if b.group = fTag f ∧ b.port = p.val then
        { b with lastAck := b.lastAck.map fun a =>
          if a.1 = fFlow f ∧ seqBefore a.2 (fSeq f) = true then (fFlow f, fSeq f) else a } else b) ∧
  (∀ (p k : Fin 8) (f : Frame) (g : Group) (up : Nat) (s : State), (Instr.mcPrune p k f).wf = true →
    Arrives s p k f → (s.port p).version = 2 → s.group? (fTag f) = some g → g.upstream = some up → up ≠ p.val →
    (s.port up).queue = [] → (s.port up).canSend f = false → Completes (.mcPrune p k f) s fun t =>
      t = { s with ports := t.ports, flds := t.flds } ∧ t.waitsAt up f (p + 1) ((s.port p).creditOf f)) ∧
  (∀ (p k : Fin 8) (f : Frame) (g : Group) (e : SrcFlow) (u : Sent) (m : Nat) (s : State),
    (Instr.mcPrune p k f).wf = true → Arrives s p k f → (s.port p).version = 2 → fE2e f = e2eOf f →
    s.group? (fTag f) = some g → g.upstream = none → s.srcFlow 0 (fFlow f) (some g.id) = some e →
    (e.unacked.filter fun u => u.tag == leNat ((fData f).drop 8) % 16384 &&
      seqUpTo (BitVec.ofNat 32 (leNat ((fData f).take 8))) u.fseq) = [u] → u.src = 0 →
    groupUnder g (leNat ((fData f).take 8) / 2 ^ 32 % 2 ^ 15) (leNat ((fData f).take 8) / 2 ^ 48 % 8) = [m] →
    Completes (.mcPrune p k f) s fun t => t.mem = s.mem ∧
      t.fld .hnxMcCntRepairs = min (s.fld .hnxMcCntRepairs + 1) (2 ^ Fld.hnxMcCntRepairs.width - 1)) ∧
  (∀ (n : BitVec 10) (q : Fin 8) (g : Group) (b : Branch) (f : Frame) (up : Nat) (s : State),
    s.group? n.toNat = some g → g.upstream = some up → s.hnx.mcWait = [] →
    (s.hnx.branches.find? fun b => b.group == n.toNat && b.port == q.val) = some b → b.queue = [f] → fType f = 10 →
    (s.port q).canSend f = false → Completes (.mcStall n q) s fun t =>
      t = { s with
        ports := t.ports, flds := t.flds, hnx := { s.hnx with branches := t.hnx.branches, mcAcked := t.hnx.mcAcked } } ∧
      t.hnx.branches = s.hnx.branches.map (fun b => if b.group = n.toNat ∧ b.port = q.val then
        { b with queue := [], pruned := b.pruned ++ [(fFlow f, fTag f)] } else b) ∧
      t.fld .hnxMcCntPrunes = min (s.fld .hnxMcCntPrunes + 1) (2 ^ Fld.hnxMcCntPrunes.width - 1)) ∧
  (∀ (src : BitVec 15) (flow : BitVec 12) (f : Frame) (s : State),
    (s.hnx.unopened.find? fun f => fType f == 10 && fSrc f == src.toNat && fFlow f == flow.toNat) = some f →
    exec (.mcWriteHoldTimeout src flow) s =
      .next { s with hnx := { s.hnx with unopened := s.hnx.unopened.erase f } }) ∧
  (∀ (src : BitVec 15) (flow : BitVec 12) (s : State),
    (∀ f ∈ s.hnx.unopened, ¬ (fType f = 10 ∧ fSrc f = src.toNat ∧ fFlow f = flow.toNat)) →
    exec (.mcWriteHoldTimeout src flow) s = .next s)

/-- R288, R290, R291: a honeycomb that starts becomes READY with its spacing locked, or FAILED, logged and counted, after
300 ms; one of the fabric is started again. A power sample within 1 dB of its settings clears LOW_POWER; a bias that has
changed is journalled, and AGEING follows at 90 % of the maximum. A sample without a power for each line is none. The
model’s own choices met here: log entries 88, 125, 128. -/
def Obligations.Honeycombs : Prop :=
  (∀ (h : Fin 10) (s : State), 8 ≤ h.val → (s.comb h).state = .starting →
    Completes (.honeycombReady h) s fun t => t = { s with combs := t.combs, mgmt := t.mgmt } ∧
      t.comb h = { s.comb h with state := .ready, spacing := true, lowPower := false } ∧
      ∀ k ≠ h.val, t.comb k = s.comb k) ∧
  (∀ (h : Fin 10) (s : State), h.val < 8 → (s.comb h).state = .starting → (s.lat h).state = .searching →
    (s.lat h).phase = 0 → Completes (.honeycombReady h) s fun t => (t.comb h).state = .ready ∧
      (t.lat h).state = .searching ∧ (t.lat h).phase = 1 ∧ (t.lat h).dem = []) ∧
  (∀ (h : Fin 10) (s : State), 8 ≤ h.val → (s.comb h).state = .starting → exec (.honeycombStartTimeout h) s =
    .next (((s.setCombSt h .failed).bump .tmpCombEventsStartFail h).event .tmpCombFail .comb h noCtx [])) ∧
  (∀ (h : Fin 10) (s : State), 8 ≤ h.val → (s.comb h).state = .failed → s.boot.on = true →
    Completes (.combRetry h) s fun t => (t.comb h).state = .starting ∧ (t.comb h).bias = (s.comb h).held ∧
      t.fld .tmpCombEventsStarts h = min (s.fld .tmpCombEventsStarts h + 1) (2 ^ Fld.tmpCombEventsStarts.width - 1) ∧
      (∀ k ≠ h.val, t.comb k = s.comb k) ∧ t.lats = s.lats ∧ t.mem = s.mem) ∧
  (∀ (h : Fin 10) (p : List Int) (s : State), p.length ≠ 128 → exec (.linePowerSample h p) s = .refused .illFormed) ∧
  (∀ (h : Fin 10) (p : List Int) (s : State), p.length = 128 → 8 ≤ h.val → (s.comb h).state = .ready →
    s.onPhase 1000000000 0 = true → s.cfg.lineSet.getD h [] = [] → (∀ x ∈ p, -100 ≤ x) →
    Completes (.linePowerSample h p) s fun t =>
      t = { s with combs := t.combs } ∧ t.comb h = { s.comb h with powers := p, lastSample := s.time, lowPower := false }) ∧
  (∀ (h : Fin 10) (s : State), 8 ≤ h.val → (s.comb h).state = .ready → (s.comb h).lowPower = false →
    exec (.linePowerComparator h) s =
      .next ((s.setComb h { s.comb h with lowPower := true }).bump .tmpCombEventsDrops h)) ∧
  (∀ (h : Fin 10) (w a : Int) (b : Nat) (s : State), 8 ≤ h.val → (s.comb h).state = .ready →
    s.onPhase 864000000000000 0 = true → Completes (.biasReevaluation h w b a) s fun t =>
      (t.comb h).state = .ready ∧ t.lats = s.lats ∧ t.rings = s.rings ∧ t.mem = s.mem ∧
      (t.comb h).bias = (if w < 150 then max (s.comb h).bias (min b (Config.maxBias h))
        else if 300 < w then min b (s.comb h).bias else (s.comb h).bias) ∧
      ((t.comb h).bias = (s.comb h).bias → t.jnl = s.jnl) ∧
      ((t.comb h).bias ≠ (s.comb h).bias →
        (t.comb h).ageing = (decide (0 < (t.comb h).bias) && decide (90 * Config.maxBias h ≤ 100 * (t.comb h).bias)) ∧
        (((t.comb h).ageing = true → (s.comb h).ageing = true) →
          t.jnl = (s.journal .laserBias [h, (t.comb h).bias]).jnl) ∧
        ((t.comb h).ageing = true → (s.comb h).ageing = false → t.evHead = s.evHead + 1 ∧
          t.flag .evtAlertAgeing = true ∧ (t.log.map (·.code)).head? = some 0x0402)) ∧
      (w < 150 → a < 0 → Config.maxBias h ≤ b → (t.comb h).lowPower = true)) ∧
  (∀ (h : Fin 10) (p : List Int) (s : State), p.length = 128 → 8 ≤ h.val → (s.comb h).state = .ready →
    s.onPhase 1000000000 0 = true → s.cfg.lineSet.getD h [] = [] → (∃ x ∈ p, x < -100) → (s.comb h).lowPower = false →
    exec (.linePowerSample h p) s = .next ((s.setComb h { s.comb h with
      powers := p, lastSample := s.time, lowPower := true }).bump .tmpCombEventsDrops h)) ∧
  (∀ (h : Fin 10) (p : List Int) (s : State), p.length = 128 → s.onPhase 1000000000 0 = false →
    exec (.linePowerSample h p) s = .next s)

/-- R294 to R297: at a ramp's start the drop power is noted and the code is 16; at a local maximum the ramp stops, one step
back; at the top of its range the ring is dead, parked where it has crossed a maximum. An identity frame that reads the
ring's own line locks it, one that reads no line changes nothing, one of a line not yet reached lets the ramp go on, and one
of a line beyond makes it dead. The model’s own choices met here: log entries 59, 61, 127. -/
def Obligations.ResonanceSearch : Prop :=
  (∀ (l : Fin 8) (r : Fin 131072) (d : BitVec 14) (s : State), (s.lat l).state = .searching → (s.lat l).phase = 1 →
    (s.ringNow l r).st = .searching → (s.ringNow l r).stopped = false →
    ((s.ringNow l r).code = 0 → Completes (.searchRampVisit l r d) s fun t =>
      t.ring (ringKey l r) = { s.ringNow l r with
        drop0 := d.toNat, prevDrop := d.toNat, prevCode := 0, rising := false, maxima := [], code := 16 } ∧
      t = { s with rings := t.rings, clusters := t.clusters, flds := t.flds } ∧
      ∀ k ≠ ringKey l r, t.ring k = s.ring k) ∧
    ((s.ringNow l r).code ≠ 0 → (s.ringNow l r).rising = true → d.toNat < (s.ringNow l r).prevDrop →
      4 * (s.ringNow l r).drop0 ≤ (s.ringNow l r).prevDrop → Completes (.searchRampVisit l r d) s fun t =>
        t.ring (ringKey l r) = { s.ringNow l r with stopped := true, rising := false,
                                                    maxima := (s.ringNow l r).prevCode :: (s.ringNow l r).maxima,
                                                    code := (s.ringNow l r).prevCode } ∧
        t = { s with rings := t.rings, clusters := t.clusters, flds := t.flds }) ∧
    ((s.ringNow l r).code = 4095 → (s.ringNow l r).rising = false → Completes (.searchRampVisit l r d) s fun t =>
      (∀ c, parkCode (s.ringNow l r).maxima = some c → (t.ring (ringKey l r)).st = .parked ∧ (t.ring (ringKey l r)).code = c) ∧
      (parkCode (s.ringNow l r).maxima = none →
        (t.ring (ringKey l r)).st = .deadUnparked ∧ (t.ring (ringKey l r)).code = 0) ∧
      (t.lat l).dem.any (fun e => e.row == r.val / 256 && e.col == r.val % 256 &&
        e.kind == (if (s.ringNow l r).maxima.isEmpty then 4 else 0)) = true ∧
      t = { s with rings := t.rings, clusters := t.clusters, flds := t.flds, lats := t.lats, free := s.free + 1 }) ∧
    ((s.ringNow l r).code ≠ 0 → (s.ringNow l r).code ≠ 4095 → (s.ringNow l r).rising = false →
      Completes (.searchRampVisit l r d) s fun t =>
        t.ring (ringKey l r) = { s.ringNow l r with
          rising := (s.ringNow l r).prevCode != (s.ringNow l r).code && decide ((s.ringNow l r).prevDrop < d.toNat),
          prevDrop := d.toNat, prevCode := (s.ringNow l r).code, code := min 4095 ((s.ringNow l r).code + 16) } ∧
        t = { s with rings := t.rings, clusters := t.clusters, flds := t.flds })) ∧
  (∀ (l : Fin 8) (r : Fin 131072) (w : Vector (BitVec 14) 12) (s : State), (s.lat l).state = .searching →
    (s.lat l).phase = 1 → (s.ringNow l r).st = .searching → (s.ringNow l r).stopped = true →
    (identityRead (frameWord (w.toList.map (·.toNat)) false) = some (r.val % 128) →
    identityRead (frameWord (w.toList.map (·.toNat)) true) = some (r.val % 128) →
      Completes (.identityFrame l r w) s fun t => (t.ring (ringKey l r)).st = .locked ∧
        (t.ring (ringKey l r)).stopped = false ∧ (t.ring (ringKey l r)).code = (s.ringNow l r).code ∧
        (t.ring (ringKey l r)).u = powerOf (s.ringHigh l r) (s.ringNow l r).code ∧
        (t.ring (ringKey l r)).r = powerOf (s.ringHigh l r) (s.ringNow l r).code * 65536 ∧
        t = { s with rings := t.rings, free := t.free }) ∧
    (identityRead (frameWord (w.toList.map (·.toNat)) false) = none → identityRead (frameWord (w.toList.map (·.toNat)) true) = none →
      exec (.identityFrame l r w) s = .next { s with free := s.free + 1 }) ∧
    (∀ k, identityRead (frameWord (w.toList.map (·.toNat)) false) = some k →
      identityRead (frameWord (w.toList.map (·.toNat)) true) = some k → k < r.val % 128 →
      exec (.identityFrame l r w) s = .next { s.setRing (ringKey l r) { s.ringNow l r with stopped := false } with
        free := s.free + 1 }) ∧
    (∀ k, identityRead (frameWord (w.toList.map (·.toNat)) false) = some k →
      identityRead (frameWord (w.toList.map (·.toNat)) true) = some k → r.val % 128 < k → k < r.val % 128 + 120 →
      (s.ringNow l r).maxima ≠ [] → Completes (.identityFrame l r w) s fun t => (t.ring (ringKey l r)).st = .parked ∧
        some (t.ring (ringKey l r)).code = parkCode (s.ringNow l r).maxima ∧
        (t.lat l).dem.any (fun e => e.row == r.val / 256 && e.col == r.val % 256 && e.kind == 0 && e.canPark) = true)) ∧
  (∀ (c : Instr) (l : Fin 8) (r : Fin 131072) (s : State), (s.lat l).state ≠ .searching →
    ((∃ d, c = .searchRampVisit l r d) ∨ ∃ w, c = .identityFrame l r w) → exec c s = .next s)

/-- R297 to R299, R301: an identity round is due in SERVING at ID_PERIOD, in LOCKED and SUSPECT at once; at its end it is
over, its time is noted, and a ring that reads within 107 codes of what is expected has passed. A relock ramp goes on, stops
at a maximum and makes an identity round due, and ends at its top or after 5 ms with a dead ring. The model’s own choices
met here: log entry 127. -/
def Obligations.IdentityRounds : Prop :=
  (∀ (l : Fin 8) (s : State), (s.lat l).state = .locked ∨ (s.lat l).state = .suspect ∨ ((s.lat l).state = .serving ∧
      s.onPhase (s.fld .tmpCtrlIdPeriod (l.val / 2) * 1000000000) 0 = true) →
    exec (.identityRoundDue l) s = .next (s.setLat l { s.lat l with roundDue := true })) ∧
  (∀ (l : Fin 8) (s : State), (s.lat l).roundLeft = 3 → (s.lat l).state = .serving → s.rings = [] →
    (s.bay (l / 2)).upset = false → Completes (.identityRoundComplete l [] []) s fun t => (t.lat l).roundLeft = 0 ∧
      (t.lat l).lastPass = s.time ∧ (t.lat l).state = .serving ∧ t.mem = s.mem ∧ t.threads = s.threads) ∧
  (∀ (l : Fin 8) (r : Fin 131072) (d : BitVec 14) (s : State), (s.ringNow l r).st = .relocking →
    (s.ringNow l r).stopped = false →
    ((s.ringNow l r).rising = true → d.toNat < (s.ringNow l r).prevDrop → Completes (.relockRampStep l r d) s fun t =>
      t.ring (ringKey l r) = { s.ringNow l r with stopped := true, rising := false,
                                                  maxima := (s.ringNow l r).prevCode :: (s.ringNow l r).maxima,
                                                  code := (s.ringNow l r).prevCode } ∧ (t.lat l).roundDue = true) ∧
    ((s.ringNow l r).rising = false → (s.ringNow l r).code = 4095 → Completes (.relockRampStep l r d) s fun t =>
      (∀ c, parkCode (s.ringNow l r).maxima = some c → (t.ring (ringKey l r)).st = .parked ∧ (t.ring (ringKey l r)).code = c) ∧
      (parkCode (s.ringNow l r).maxima = none →
        (t.ring (ringKey l r)).st = .deadUnparked ∧ (t.ring (ringKey l r)).code = 0)) ∧
    ((s.ringNow l r).rising = false → (s.ringNow l r).code ≠ 4095 → Completes (.relockRampStep l r d) s fun t =>
      t.ring (ringKey l r) = { s.ringNow l r with
        rising := (s.ringNow l r).prevCode != (s.ringNow l r).code && decide ((s.ringNow l r).prevDrop < d.toNat),
        prevDrop := d.toNat, prevCode := (s.ringNow l r).code, code := min 4095 ((s.ringNow l r).code + 16) } ∧
      t = { s with rings := t.rings, clusters := t.clusters, flds := t.flds })) ∧
  (∀ (l : Fin 8) (r : Fin 131072) (s : State), (s.ringNow l r).st = .relocking → (s.lat l).state ≠ .searching →
    Completes (.relockTimeout l r) s fun t =>
      (∀ c, parkCode (s.ringNow l r).maxima = some c → (t.ring (ringKey l r)).st = .parked ∧ (t.ring (ringKey l r)).code = c) ∧
      (parkCode (s.ringNow l r).maxima = none →
        (t.ring (ringKey l r)).st = .deadUnparked ∧ (t.ring (ringKey l r)).code = 0) ∧
      t.fld .tmpEventCntDead (l.val / 2) =
        min (s.fld .tmpEventCntDead (l.val / 2) + 1) (2 ^ Fld.tmpEventCntDead.width - 1)) ∧
  (∀ (l : Fin 8) (r : Fin 131072) (x : Ring) (s : State), (s.lat l).roundLeft = 3 → (s.lat l).state = .serving →
    s.rings = [(ringKey l r, x)] → s.ringState l r = .locked → (s.bay (l / 2)).upset = false →
    (toQ15 x.r - s.expectedSet l r (s.ringNow l r)).natAbs ≤ 856 →
    Completes (.identityRoundComplete l [] []) s fun t => (t.ring (ringKey l r)).passed = true ∧
      (t.ring (ringKey l r)).atPass = toQ15 x.r ∧ (t.ring (ringKey l r)).excursion = none ∧
      (t.ring (ringKey l r)).temp = s.ringTemp l r ∧ (t.lat l).lastPass = s.time) ∧
  (∀ (l : Fin 8) (r : Fin 131072) (x : Ring) (e : Int) (s : State), (s.lat l).roundLeft = 3 → (s.lat l).state = .serving →
    s.rings = [(ringKey l r, x)] → s.ringState l r = .locked → (s.bay (l / 2)).upset = false → x.wrongTimes = [] →
    e < -8 → Completes (.identityRoundComplete l [(r.val, e)] []) s fun t =>
      (t.ring (ringKey l r)).st = .relocking ∧ (t.ring (ringKey l r)).wrongTimes = [s.time] ∧
      t.fld .tmpEventCntWrongLine (l.val / 2) =
        min (s.fld .tmpEventCntWrongLine (l.val / 2) + 1) (2 ^ Fld.tmpEventCntWrongLine.width - 1))

/-- R303 to R307, R310, R312, R313, R317, R318: at its phase the inner loop visits locked and parked rings while the temper
engine runs and no rate-of-rise flag is set, the feedforward while it is; the code is that of u, or of u less f. Writes of
the temper registers act at once, or are held while their unit is powered down. A tick moves a cluster's codes by at most
STEP toward their targets, a span hold starts and ends, for that cluster alone. The model’s own choices met here: log
entries 60, 101, 122, 123, 124, 130. -/
def Obligations.TemperAndHeaters : Prop :=
  (∀ (l : Fin 8) (r : Fin 131072) (s : State), s.temperOn (l / 2) = true → (s.bay (l / 2)).rise = false →
    s.searchOpen l = false → s.onPhase 4915200 (300 * (rhoOf l r / 16)) = true → s.traces = [] →
    (∀ i, s.fld .tmpTraceCtrlMode i = 0) → (s.ringNow l r).count % 8 ≠ rhoOf l r % 8 →
    s.continuous (l.val / 2) (r.val % 256) = false → (s.lat l).state = .locked →
    (s.ringState l r = .locked → Completes (.innerLoopVisit l r) s fun t =>
      (t.ring (ringKey l r)).count = (s.ringNow l r).count + 1 ∧ (t.ring (ringKey l r)).masked = false ∧
      (t.ring (ringKey l r)).clsNow = (s.ringNow l r).cls ∧
      (t.ring (ringKey l r)).code = codeOf (s.ringHigh l r) (t.ring (ringKey l r)).u ∧
      0 ≤ (t.ring (ringKey l r)).u ∧ (t.ring (ringKey l r)).u ≤ (if s.ringHigh l r then 32767 else 8191) ∧
      (t.ring (ringKey l r)).rstar = (s.ringNow l r).rstar ∧
      (t.ring (ringKey l r)).xi = shiftIn (sat16 (toQ15 (t.ring (ringKey l r)).r - (s.ringNow l r).f - (s.ringNow l r).p))
        (s.ringNow l r).xi ∧ t.lats = s.lats ∧ t.mem = s.mem ∧ ∀ k ≠ ringKey l r, t.ring k = s.ring k) ∧
    (s.ringState l r = .parked → Completes (.innerLoopVisit l r) s fun t =>
      (t.ring (ringKey l r)).count = (s.ringNow l r).count + 1 ∧
      (t.ring (ringKey l r)).r =
        ((s.ringNow l r).atPass - s.feedTerm (l / 2) { s.ringNow l r with
          clsNow := (s.ringNow l r).cls, bank := s.bankOf (l / 2) (s.ringNow l r).cls }
          (s.ringTemp l r - (s.ringNow l r).temp)) * 65536 ∧
      (t.ring (ringKey l r)).v = 0 ∧ (t.ring (ringKey l r)).rstar = (t.ring (ringKey l r)).r ∧
      (t.ring (ringKey l r)).code = codeOf (s.ringHigh l r) (t.ring (ringKey l r)).u ∧ t.lats = s.lats)) ∧
  (∀ (l : Fin 8) (r : Fin 131072) (s : State), (s.bay (l / 2)).rise = true → exec (.innerLoopVisit l r) s = .next s) ∧
  (∀ (l : Fin 8) (r : Fin 131072) (d : Int) (s : State), s.temperOn (l / 2) = true → (s.bay (l / 2)).rise = true →
    s.onPhase 819200 (50 * (rhoOf l r / 16)) = true → (s.ringNow l r).st = .locked ∨ (s.ringNow l r).st = .parked →
    Completes (.feedforwardVisit l r d) s fun t =>
      t.ring (ringKey l r) = { s.ringNow l r with
        f := s.feedTerm (l / 2) (s.ringNow l r) d,
        code := codeOf (s.ringHigh l r) ((s.ringNow l r).u - s.feedTerm (l / 2) (s.ringNow l r) d) } ∧
      t = { s with rings := t.rings, clusters := t.clusters, flds := t.flds } ∧ ∀ k ≠ ringKey l r, t.ring k = s.ring k) ∧
  (∀ (p : Path) (b : Fin 4) (k : Nat) (s : State), s.served p = true → k < 64 →
    Block.down (s.bay b).unitState .temper = false → s.swapBusy b k = false →
    Completes (.bankSwap p b (BitVec.ofNat 64 (2 ^ k))) s fun t => t = { s with flds := t.flds, bays := t.bays } ∧
      t.fld .tmpBankActiveBank b = Nat.xor (s.fld .tmpBankActiveBank b) (2 ^ k) ∧ t.swapBusy b k = true) ∧
  (∀ (p : Path) (b : Fin 4) (v : Word) (s : State), s.served p = true →
    Block.down (s.bay b).unitState .temper = true → exec (.bankSwap p b v) s =
      .next (s.modBay b fun y => { y with held := y.held ++ [(p, Reg.tmpBankSwap.addr b, 0, v)] })) ∧
  (∀ (p : Path) (b ch : Fin 4) (s : State), s.served p = true → Block.down (s.bay b).unitState .temper = false →
    s.fld .tmpTraceCtrlMode (b.val * 4 + ch.val) = 2 → s.fld .tmpTraceCtrlTrigger (b.val * 4 + ch.val) = 0 →
    (s.trace (b.val * 4 + ch.val)).stopped = false → (s.trace (b.val * 4 + ch.val)).remaining = none →
    Completes (.traceTrigger p b ch) s fun t => t = { s with traces := t.traces } ∧
      t.trace (b.val * 4 + ch.val) = { s.trace (b.val * 4 + ch.val) with
        remaining := some (s.fld .tmpTraceCtrlPost (b.val * 4 + ch.val)),
        stopped := decide (s.fld .tmpTraceCtrlPost (b.val * 4 + ch.val) = 0) }) ∧
  (∀ (p : Path) (b : Fin 4) (v : Word) (s : State), s.served p = true →
    Block.down (s.bay b).unitState .monitor = false →
    (s.tokenPerm 0 = true → s.convServing b (v.toNat % 256) = false → exec (.monTestCont p b v) s =
      .next (((s.setFld .monTestCont b (bitsOf v.toNat 8 8)).setFldAt .monTestConverter b (pathNum p)
        (v.toNat % 256)).modBay b fun y => { y with contOf := v.toNat % 256 })) ∧
    (s.tokenPerm 0 = false → exec (.monTestCont p b v) s = .next (s.refuse p (Reg.monTest.addr b) v.toNat))) ∧
  (∀ (q : Fin 16384) (s : State), Completes (.spanHoldEnd q) s fun t => t = { s with clusters := t.clusters } ∧
    (t.cluster q).hold = false ∧ ∀ k ≠ q.val, t.cluster k = s.cluster k) ∧
  (∀ (q : Fin 16384) (s : State), s.heatersOn (q / 4096) = true → s.power.tripLatched = false →
    s.onPhase 4096 0 = true → (s.cluster q).queue = [] → (s.cluster q).hold = false →
    Completes (.heaterTick q) s fun t => t = { s with clusters := t.clusters } ∧
      (∀ k ≠ q.val, t.cluster k = s.cluster k) ∧
      (t.cluster q).phase = (s.cluster q).phase + BitVec.ofNat 24 (s.cluster q).ftw ∧
      (t.cluster q).req = false ∧ (t.cluster q).hold = (s.cluster q).req ∧
      (t.cluster q).tick = (if (s.cluster q).rate ≤ (s.cluster q).tick + 1 then 0 else (s.cluster q).tick + 1) ∧
      ∀ i, (tget Tap.reset (t.cluster q).taps i).code =
        if (s.cluster q).req then 0
        else if (s.cluster q).tick + 1 < (s.cluster q).rate then (tget Tap.reset (s.cluster q).taps i).code
        else if (tget Tap.reset (s.cluster q).taps i).code < (tget Tap.reset (s.cluster q).taps i).target then
          min (tget Tap.reset (s.cluster q).taps i).target ((tget Tap.reset (s.cluster q).taps i).code + (s.cluster q).step)
        else max (tget Tap.reset (s.cluster q).taps i).target
          ((tget Tap.reset (s.cluster q).taps i).code - (s.cluster q).step)) ∧
  (∀ (p : Path) (b : Fin 4) (k : Nat) (s : State), s.served p = true → k < 64 →
    Block.down (s.bay b).unitState .temper = false → s.swapBusy b k = true →
    Completes (.bankSwap p b (BitVec.ofNat 64 (2 ^ k))) s fun t => t.bays = s.bays ∧
      t.fld .tmpBankActiveBank b = s.fld .tmpBankActiveBank b ∧ t.evHead = s.evHead + 1 ∧
      (t.log.map (·.code)).head? = some 0x0405)

/-- R324 to R327: a read-back conversion supervises its heater, a drop slot and a reference slot lose the requests presented
there, a ring slot accepts the next presenting ring in turn, and a reference out of tolerance is flagged and logged once. In
a bay whose temper engine is off nothing is converted. The model’s own choices met here: log entries 127, 128. -/
def Obligations.MonitorConversions : Prop :=
  (∀ (k : Fin 1024) (sl : MonSlot) (s : State), s.temperOn (k.val / 256) = false →
    exec (.monitorConversion k sl) s = .next s) ∧
  (∀ (k m : Fin 1024) (p : BitVec 16) (g : Bool) (s : State), s.temperOn (k.val / 256) = true →
    s.continuous (k.val / 256) (k % 256) = false → s.searchOpen (convRing k m).1 = false →
    s.ringState (convRing k m).1 (convRing k m).2 = .locked →
    ((s.ring (ringKey (convRing k m).1 (convRing k m).2)).lowReads < 2 → (s.ring (ringKey (convRing k m).1 (convRing k m).2)).shortReads < 2 →
      Completes (.monitorConversion k (.readBack m p g)) s fun t => t = { s with rings := t.rings } ∧
        (t.ring (ringKey (convRing k m).1 (convRing k m).2)).p = p.toInt ∧
        (t.ring (ringKey (convRing k m).1 (convRing k m).2)).shortReads = (if g then (s.ring (ringKey (convRing k m).1 (convRing k m).2)).shortReads + 1 else 0) ∧
        (t.ring (ringKey (convRing k m).1 (convRing k m).2)).lowReads = if 64 ≤ (s.tap (convRing k m).1 (convRing k m).2).code ∧
            2 * p.toInt < powerOf (s.cluster (clusterOf (convRing k m).1 (convRing k m).2)).high
              (s.tap (convRing k m).1 (convRing k m).2).code
          then (s.ring (ringKey (convRing k m).1 (convRing k m).2)).lowReads + 1 else 0) ∧
    ((s.ring (ringKey (convRing k m).1 (convRing k m).2)).shortReads = 2 → g = true →
      Completes (.monitorConversion k (.readBack m p g)) s fun t => (t.ring (ringKey (convRing k m).1 (convRing k m).2)).fault = 2 ∧
        (t.ring (ringKey (convRing k m).1 (convRing k m).2)).st = .deadUnparked ∧ (t.ring (ringKey (convRing k m).1 (convRing k m).2)).code = 0 ∧
        t.fld .htrEventCntFaults ((convRing k m).1 / 2) =
          min (s.fld .htrEventCntFaults ((convRing k m).1 / 2) + 1) (2 ^ Fld.htrEventCntFaults.width - 1))) ∧
  (∀ (k m : Fin 1024) (v : BitVec 14) (pr : List (Fin 1024)) (s : State), s.temperOn (k.val / 256) = true →
    s.continuous (k.val / 256) (k % 256) = false →
    exec (.monitorConversion k (.drop m v pr)) s = .next (s.setConv k { s.conv k with
      drops := min 65535 ((s.conv k).drops + (s.presents k pr).length) })) ∧
  (∀ (k m : Fin 1024) (e : BitVec 16) (s : State), s.temperOn (k.val / 256) = true →
    s.continuous (k.val / 256) (k % 256) = false → s.ringState (convRing k m).1 (convRing k m).2 = .locked →
    (s.ringNow (convRing k m).1 (convRing k m).2).masked = false →
    (e.toInt.natAbs : Int) < s.hop ((convRing k m).1 / 2) (s.ringNow (convRing k m).1 (convRing k m).2) →
    Completes (.monitorConversion k (.ringSlot [m] e)) s fun t => t = { s with rings := t.rings, convs := t.convs } ∧
      (t.conv k).last = m ∧ (t.conv k).drops = min 65535 (s.conv k).drops ∧ (t.ring (ringKey (convRing k m).1 (convRing k m).2)).e = some e.toInt ∧
      (t.ring (ringKey (convRing k m).1 (convRing k m).2)).lockErr = e.toInt ∧ (t.ring (ringKey (convRing k m).1 (convRing k m).2)).masked = true) ∧
  (∀ (k : Fin 1024) (ch : Fin 4) (s : State), s.temperOn (k.val / 256) = true →
    s.continuous (k.val / 256) (k % 256) = false → (s.conv k).refFault.contains ch = false →
    Completes (.monitorConversion k (.reference ch true [])) s fun t => (t.conv k).refFault = (s.conv k).refFault ++ [ch] ∧
      t.evHead = s.evHead + 1 ∧ (t.log.map (·.code)).head? = some 0x0406 ∧ t.lats = s.lats ∧ t.rings = s.rings)

/-- R399, R401, R441: a nonce is 256 random bits, drawn on a write of NEW_NONCE and gone 10 minutes later, and a read of
SEC_NONCE0 answers its low word and latches it for that path's other three. A debug token that ends, by a write or at its
expiry, leaves no token, switches off every write it had enabled, and appends TOKEN_END; without a token nothing happens.
The model’s own choices met here: log entry 3. -/
def Obligations.NoncesAndTokenEnds : Prop :=
  (∀ (p : Path) (s : State), s.served p = true → exec (.newNonce p) s = .next { s with
    sec := { s.sec with nonceAt := s.time, nonce := some ((Config.random (s.free + 3) ++ Config.random (s.free + 2) ++
      Config.random (s.free + 1) ++ Config.random (s.free + 0) : BitVec 256)) },
    free := s.free + 4 }) ∧
  (∀ s : State, s.sec.nonceAt + 600000000000 ≤ s.time → exec .nonceExpiry s = .next { s with sec := { s.sec with nonce := none } }) ∧
  (∀ (p : Path) (n : BitVec 256) (s : State), s.served p = true → s.sec.nonce = some n →
    exec (.nonceRead p) s = .next { s with
      sec := { s.sec with latched := s.sec.latched.set (pathNum p) n }, reply := .value (n.truncate 64) }) ∧
  (∀ (c : Instr) (k : Token) (s : State), s.sec.token = some k →
    (c = .tokenExpiry ∧ k.expiry ≤ s.time ∨ ∃ p, c = .tokenEnd p ∧ s.served p = true) →
    Completes c s fun t => t = { s with sec := { s.sec with token := none }, flds := t.flds, jnl := t.jnl } ∧
      (∀ l < 8, t.fld .rowCtrlSrFixed l = 0 ∧ t.fld .calCtrlUseFactory l = 0) ∧ (∀ b < 4, t.fld .monTestCont b = 0) ∧
      t.fld .cxlInjCtrlMode = 0 ∧ t.fld .fltHnxCtrlMode = 0 ∧ t.jnl.recs = s.jnl.recs ∧
      ((t.jnl.unwritten.map (·.kind)).getLast? = some .tokenEnd ∨ (t.jnl.hold.map (·.kind)).getLast? = some .tokenEnd)) ∧
  (∀ (c : Instr) (s : State), (c = .tokenExpiry ∨ ∃ p, c = .tokenEnd p ∧ s.served p = true) → s.sec.token = none →
    exec c s = .next s)

/-- R396, R400: a token whose checks all pass is accepted by the row of its kind. Its nonce is used up and its result is 0.
A debug token is active from then on; an enrolment or a release blows one owner fuse and says whether there is an owner. One
that fails a check leaves token, fuses and owner as they were, and its code in SEC_TOKEN_STATUS.RESULT. The model’s own
choices met here: log entries 9, 106, 156, 157. -/
def Obligations.Tokens : Prop :=
  (∀ (c : Instr) (p : Path) (k : Nat) (v : Verdict) (d : Bool) (s : State), SubmitsKind c p k v d → s.served p = true →
    s.tokenKind = k → s.checkToken v d = 0 →
    Completes c s fun t => t = { s with sec := t.sec, flash := t.flash, jnl := t.jnl } ∧
      t.sec.tokenResult = 0 ∧ t.sec.nonce = none ∧ t.sec.svn = s.sec.svn ∧
      (k = 0 → t.sec.token = some { perms := BitVec.ofNat 64 (s.tokenNat 8 8),
                                    expiry := s.time + s.tokenNat 80 4 * 1000000000 } ∧
        t.sec.ownFuses = s.sec.ownFuses ∧ t.flash = s.flash) ∧
      (k ≠ 0 → t.sec.token = s.sec.token ∧ t.sec.ownFuses = s.sec.ownFuses + 1 ∧
        t.flash = { s.flash with owner := if k = 1 then some (memBytes s.sec.buf 128 1984) else none })) ∧
  (∀ (c : Instr) (p : Path) (k n : Nat) (v : Verdict) (d : Bool) (s : State), SubmitsKind c p k v d → s.served p = true →
    s.tokenKind = k → s.checkToken v d = n + 1 →
    Completes c s fun t => t.sec = { s.sec with tokenResult := n + 1 } ∧ t.flash = s.flash ∧
      t.fld .secFailCntToken = min (s.fld .secFailCntToken + 1) (2 ^ Fld.secFailCntToken.width - 1)) ∧
  (∀ (v : Verdict) (d : Bool) (s : State), (v.ed = false ∨ v.ml = false) → s.checkToken v d ≠ 0)

/-- R403 to R405: SPDM runs in its order on each open connection. GET_VERSION starts it afresh, GET_CAPABILITIES and
NEGOTIATE_ALGORITHMS follow, and only Ed25519 with SHA-384 is agreed. GET_DIGESTS, GET_CERTIFICATE of slot 0 and the
post-quantum chain are answered once algorithms are agreed; a slot that does not exist is refused. The model’s own choices
met here: log entries 10, 69, 170. -/
def Obligations.SpdmSetup : Prop :=
  (∀ (c : Conn) (s : State), ConnOpen s c → exec (.getVersion c) s =
    .next { s.setSpdm c { Spdm.reset with versionGot := true } with
      reply := .data (Config.attest 0 s.free) false, free := s.free + 1 }) ∧
  (∀ (c : Conn) (s : State), ConnOpen s c → (s.spdm c).versionGot = true → exec (.getCapabilities c) s =
    .next { s.setSpdm c { s.spdm c with signed := false, capsGot := true } with
      reply := .data (Config.attest 1 s.free) false, free := s.free + 1 }) ∧
  (∀ (c : Conn) (s : State), ConnOpen s c → (s.spdm c).capsGot = true → exec (.negotiateAlgorithms c true true) s =
    .next { s.setSpdm c { s.spdm c with signed := false, negotiated := true } with
      reply := .data (Config.attest 2 s.free) false, free := s.free + 1 }) ∧
  (∀ (c : Conn) (a b : Bool) (s : State), ConnOpen s c → (s.spdm c).capsGot = true → (a && b) = false →
    exec (.negotiateAlgorithms c a b) s =
      .next { s.setSpdm c { s.spdm c with signed := false } with reply := .error spdmInvalid }) ∧
  (∀ (c : Conn) (s : State), ConnOpen s c → (s.spdm c).negotiated = true → exec (.getDigests c) s =
    .next { s.setSpdm c { s.spdm c with signed := false } with reply := .data (Config.attest 3 0) false }) ∧
  (∀ (c : Conn) (off len : Nat) (s : State), ConnOpen s c → (s.spdm c).negotiated = true →
    exec (.getCertificate c 0 off len) s = .next { s.setSpdm c { s.spdm c with signed := false } with
      reply := .data (((Config.attest 4 0).drop off).take len) false }) ∧
  (∀ (c : Conn) (slot off len : Nat) (s : State), ConnOpen s c → (s.spdm c).negotiated = true → slot ≠ 0 →
    exec (.getCertificate c slot off len) s =
      .next { s.setSpdm c { s.spdm c with signed := false } with reply := .error spdmInvalid }) ∧
  (∀ (c : Conn) (off : BitVec 32) (len : BitVec 16) (s : State), ConnOpen s c → (s.spdm c).negotiated = true →
    exec (.getPqChain c off len) s = .next { s.setSpdm c { s.spdm c with signed := false } with
      reply := .data (((Config.attest 7 0).drop off.toNat).take len.toNat) false })

/-- R404, R405: CHALLENGE of slot 0 and a signed GET_MEASUREMENTS are what COUNTERSIGN may follow, at once; its large
response is fetched in chunks in order. Measurement block 5 holds the security version, the owner fuses and the token. Out
of order a request is answered with an error and the connection's agreements stay. The model’s own choices met here: log
entries 69, 70, 170. -/
def Obligations.SpdmAttestation : Prop :=
  (∀ (c : Conn) (n : BitVec 256) (s : State), ConnOpen s c → (s.spdm c).negotiated = true → exec (.challenge c 0 n) s =
    .next { s.setSpdm c { s.spdm c with signed := true } with
      reply := .data (Config.attest 5 s.free ++ Config.edSign s.sec.edKey s.free) false, free := s.free + 1 }) ∧
  (∀ (c : Conn) (sg : Bool) (n : BitVec 256) (s : State), ConnOpen s c → (s.spdm c).negotiated = true →
    exec (.getMeasurements c 0 sg n) s = .next { s.setSpdm c { s.spdm c with signed := sg } with
      reply := .data (5 :: if sg then Config.edSign s.sec.edKey s.free else []) false,
      free := s.free + if sg then 1 else 0 }) ∧
  (∀ (c : Conn) (i : Nat) (sg : Bool) (n : BitVec 256) (s : State), ConnOpen s c → (s.spdm c).negotiated = true →
    5 < i → i ≠ 0xFF → exec (.getMeasurements c i sg n) s =
      .next { s.setSpdm c { s.spdm c with signed := false } with reply := .error spdmInvalid }) ∧
  (∀ (c : Conn) (s : State), ConnOpen s c → (s.spdm c).signed = true → exec (.countersign c) s =
    .next { s.setSpdm c { s.spdm c with signed := false, large := Config.mlSign s.sec.mlKey s.free, chunk := 0 } with
      reply := .error spdmLarge, free := s.free + 1 }) ∧
  (∀ (c : Conn) (s : State), ConnOpen s c → (s.spdm c).large ≠ [] → exec (.chunkGet c (s.spdm c).chunk) s =
    .next { s.setSpdm c { s.spdm c with
        large := (s.spdm c).large.drop (Config.chunkSize.val + 1),
        chunk := if ((s.spdm c).large.drop (Config.chunkSize.val + 1)).isEmpty then 0 else (s.spdm c).chunk + 1 } with
      reply := .data ((s.spdm c).large.take (Config.chunkSize.val + 1)) false }) ∧
  (∀ (r : Instr) (c : Conn) (s : State), ConnOpen s c →
    (r = .countersign c ∧ (s.spdm c).signed = false ∨ r = .getDigests c ∧ (s.spdm c).negotiated = false ∨
      r = .getCapabilities c ∧ (s.spdm c).versionGot = false) →
    exec r s = .next { s.setSpdm c { s.spdm c with signed := false } with reply := .error spdmUnexpected }) ∧
  (∀ (c : Conn) (n : BitVec 256) (s : State), ConnOpen s c → (s.spdm c).negotiated = true →
    Completes (.getMeasurements c 5 false n) s fun t => t = { s.setSpdm c { s.spdm c with signed := false } with
        reply := t.reply } ∧ ∃ d, t.reply = .data d false ∧ d.length = 16 ∧
      d.getD 0 0 = BitVec.ofNat 8 s.sec.svn ∧ d.getD 1 0 = BitVec.ofNat 8 s.sec.ownFuses ∧
      d.getD 2 0 = (if s.sec.token.isSome then 1 else 0) ∧
      leNat ((d.drop 3).take 8) = (s.sec.token.map (fun k => k.perms.toNat)).getD 0)

end
end

