-- ==== Sys2Proof/Laws/Table.lean ====
section
/-! SUPPORT. Laws of the sparse tables: what a table reads after a write, and the canonical form. -/

namespace Sys2Proof.Machine

section
variable {α : Type} (d v : α) (t : Tbl α) (k j : Nat)

theorem tget_tdel_same : tget d (tdel t k) k = d := by
  induction t with
  | nil => rfl
  | cons e r ih =>
    obtain ⟨a, b⟩ := e
    by_cases h : a = k
    · simpa [tdel, h] using ih
    · simpa [tdel, h, tget] using ih

theorem tget_tdel_ne (h : j ≠ k) : tget d (tdel t k) j = tget d t j := by
  induction t with
  | nil => rfl
  | cons e r ih =>
    obtain ⟨a, b⟩ := e
    by_cases ha : a = k
    · subst ha
      simpa [tdel, tget, Ne.symm h] using ih
    · by_cases hj : a = j
      · subst hj
        simp [tdel, ha, tget]
      · simpa [tdel, ha, tget, hj] using ih

theorem tget_tins_same (hk : ∀ e ∈ t, e.1 ≠ k) :
    tget d (tins k v t) k = v := by
  induction t with
  | nil => simp [tins, tget]
  | cons e r ih =>
    obtain ⟨a, b⟩ := e
    have ha : a ≠ k := hk (a, b) (by simp)
    have hr : ∀ e ∈ r, e.1 ≠ k := fun e he => hk e (by simp [he])
    by_cases hlt : k < a
    · simp [tins, hlt, tget]
    · simpa [tins, hlt, tget, ha] using ih hr

theorem tget_tins_ne (h : j ≠ k) : tget d (tins k v t) j = tget d t j := by
  induction t with
  | nil => simp [tins, tget, Ne.symm h]
  | cons e r ih =>
    obtain ⟨a, b⟩ := e
    by_cases hlt : k < a
    · simp [tins, hlt, tget, Ne.symm h]
    · by_cases ha : a = j
      · subst ha
        simp [tins, hlt, tget]
      · simpa [tins, hlt, tget, ha] using ih

theorem tdel_ne (e : Nat × α) (h : e ∈ tdel t k) : e.1 ≠ k := by
  simpa [tdel] using (List.mem_filter.1 h).2

end

section
variable {α : Type} [DecidableEq α] (d v : α) (t : Tbl α) (k j : Nat)

/-- A table reads at a key what was last written there. -/
@[simp] theorem tget_tset_same : tget d (tset d t k v) k = v := by
  unfold tset
  split
  · next h => rw [h, tget_tdel_same]
  · exact tget_tins_same d v _ k (tdel_ne t k)

/-- A write leaves every other key as it was. -/
@[simp] theorem tget_tset_ne (h : j ≠ k) : tget d (tset d t k v) j = tget d t j := by
  unfold tset
  split
  · exact tget_tdel_ne d t k j h
  · rw [tget_tins_ne d v _ k j h, tget_tdel_ne d t k j h]

/-- What a table reads after a write, at any key. -/
theorem tget_tset : tget d (tset d t k v) j = if j = k then v else tget d t j := by
  split
  · next h => subst h; simp
  · next h => simp [h]

/-- Canonical from a bound is canonical from a lower one. -/
theorem twfFrom_mono {lo lo' : Nat} (hl : lo' ≤ lo) (h : twfFrom d lo t = true) : twfFrom d lo' t = true := by
  cases t with
  | nil => rfl
  | cons e r =>
    obtain ⟨a, b⟩ := e
    simp only [twfFrom, Bool.and_eq_true, decide_eq_true_eq] at h ⊢
    exact ⟨⟨by omega, h.1.2⟩, h.2⟩

/-- Removing entries keeps the canonical form. -/
theorem twfFrom_filter (p : Nat × α → Bool) (lo : Nat) (h : twfFrom d lo t = true) :
    twfFrom d lo (t.filter p) = true := by
  induction t generalizing lo with
  | nil => rfl
  | cons e r ih =>
    obtain ⟨a, b⟩ := e
    simp only [twfFrom, Bool.and_eq_true, decide_eq_true_eq] at h
    by_cases hp : p (a, b) = true
    · simp only [List.filter_cons, hp, if_true, twfFrom, Bool.and_eq_true, decide_eq_true_eq]
      exact ⟨h.1, ih _ h.2⟩
    · simp only [List.filter_cons, hp]
      exact ih _ (twfFrom_mono d r (by omega) h.2)

theorem twfFrom_tins (lo : Nat) (hlo : lo ≤ k) (hv : v ≠ d) (hk : ∀ e ∈ t, e.1 ≠ k) (h : twfFrom d lo t = true) :
    twfFrom d lo (tins k v t) = true := by
  induction t generalizing lo with
  | nil => simp [tins, twfFrom, hlo, hv]
  | cons e r ih =>
    obtain ⟨a, b⟩ := e
    have ha : a ≠ k := hk (a, b) (by simp)
    simp only [twfFrom, Bool.and_eq_true, decide_eq_true_eq] at h
    by_cases hlt : k < a
    · simp only [tins, hlt, if_true, twfFrom, Bool.and_eq_true, decide_eq_true_eq, Bool.not_eq_true',
        decide_eq_false_iff_not]
      exact ⟨⟨hlo, hv⟩, ⟨by omega, by simpa using h.1.2⟩, h.2⟩
    · simp only [tins, hlt, if_false, twfFrom, Bool.and_eq_true, decide_eq_true_eq]
      exact ⟨h.1, ih _ (by omega) (fun e he => hk e (by simp [he])) h.2⟩

/-- A write keeps the canonical form of a table. -/
theorem twf_tset (h : twf d t = true) : twf d (tset d t k v) = true := by
  have hd : twf d (tdel t k) = true := twfFrom_filter d t _ 0 h
  unfold tset
  split
  · exact hd
  · next hv => exact twfFrom_tins d v _ k 0 (Nat.zero_le _) hv (tdel_ne t k) hd

end

/-! ## Byte memories -/

/-- Storing a byte keeps the canonical form. -/
theorem Memory.wf_tset (m : Tbl Byte) (a : Nat) (b : Byte) (h : Memory.wf m = true) : Memory.wf (tset 0 m a b) = true :=
  twf_tset 0 b m a h

/-- Storing bytes keeps the canonical form. -/
@[simp] theorem Memory.wf_memStore (m : Tbl Byte) (a : Nat) (l : List Byte) (h : Memory.wf m = true) :
    Memory.wf (memStore m a l) = true := by
  induction l generalizing m a with
  | nil => exact h
  | cons b r ih => exact ih _ _ (Memory.wf_tset m a b h)

/-- Clearing a range keeps the canonical form. -/
@[simp] theorem Memory.wf_memClear (m : Tbl Byte) (a n : Nat) (h : Memory.wf m = true) :
    Memory.wf (memClear m a n) = true := twfFrom_filter 0 m _ 0 h

/-- A byte outside the stored range reads as before. -/
theorem tget_memStore_out (m : Tbl Byte) (a : Nat) (l : List Byte) (x : Nat) (h : x < a ∨ a + l.length ≤ x) :
    tget 0 (memStore m a l) x = tget 0 m x := by
  induction l generalizing m a with
  | nil => rfl
  | cons b r ih =>
    simp only [List.length_cons] at h
    rw [memStore, ih _ _ (by omega), tget_tset_ne _ _ _ _ _ (by omega)]

/-- A stored byte reads back. -/
theorem tget_memStore_in (m : Tbl Byte) (a : Nat) (l : List Byte) (i : Nat) (h : i < l.length) :
    tget 0 (memStore m a l) (a + i) = l.getD i 0 := by
  induction l generalizing m a i with
  | nil => simp at h
  | cons b r ih =>
    cases i with
    | zero =>
      simp only [memStore, Nat.add_zero]
      rw [tget_memStore_out _ _ _ _ (by omega), tget_tset_same]
      rfl
    | succ i =>
      have := ih (tset 0 m a b) (a + 1) i (by simpa using h)
      rw [memStore, show a + (i + 1) = a + 1 + i by omega, this]
      simp

/-- What a memory reads where bytes were stored. -/
theorem memBytes_memStore (m : Tbl Byte) (a : Nat) (l : List Byte) : memBytes (memStore m a l) a l.length = l := by
  have key : ∀ (n : Nat) (m : Tbl Byte) (a : Nat), (∀ i, i < n → tget 0 m (a + i) = l.getD (l.length - n + i) 0) →
      n ≤ l.length → memBytes m a n = l.drop (l.length - n) := by
    intro n
    induction n with
    | zero => intro m a _ _; simp [memBytes]
    | succ n ih =>
      intro m a hg hn
      have h0 := hg 0 (by omega)
      have hlt : l.length - (n + 1) < l.length := by omega
      rw [memBytes, ih m (a + 1) (fun i hi => by
        have := hg (i + 1) (by omega)
        rw [show a + 1 + i = a + (i + 1) by omega, this]
        congr 1; omega) (by omega), List.drop_eq_getElem_cons hlt]
      congr 1
      · rw [Nat.add_zero] at h0
        rw [h0, Nat.add_zero, List.getD_eq_getElem?_getD, List.getElem?_eq_getElem hlt]; rfl
      · congr 1; omega
  have := key l.length (memStore m a l) a (fun i hi => by simpa using tget_memStore_in m a l i hi) (Nat.le_refl _)
  simpa using this

@[simp] theorem length_memBytes (m : Tbl Byte) (a n : Nat) : (memBytes m a n).length = n := by
  induction n generalizing a with
  | zero => rfl
  | succ n ih => simp [memBytes, ih]

@[simp] theorem length_leBytes (n v : Nat) : (leBytes n v).length = n := by
  induction n generalizing v with
  | zero => rfl
  | succ n ih => simp [leBytes, ih]

/-- Little-endian bytes read back as the number they spell (R4). -/
theorem leNat_leBytes (n v : Nat) : leNat (leBytes n v) = v % 256 ^ n := by
  induction n generalizing v with
  | zero => simp [leBytes, leNat, Nat.mod_one]
  | succ n ih =>
    have : v % 256 ^ (n + 1) = v % 256 + 256 * (v / 256 % 256 ^ n) := by
      rw [Nat.pow_succ, Nat.mul_comm (256 ^ n) 256, Nat.mod_mul]
    rw [leBytes, leNat, ih, BitVec.toNat_ofNat, this]

/-! ## Repeats -/

/-- What every update of a repeat keeps, the repeat keeps. -/
theorem forEach_keeps {α : Type} (P : State → Prop) (l : List α) (f : State → α → State)
    (hf : ∀ s a, P s → P (f s a)) (s : State) (h : P s) : P (forEach l f s) := by
  induction l generalizing s with
  | nil => exact h
  | cons a r ih => exact ih _ (hf s a h)

/-- A view of the state that every update of a repeat leaves alone. -/
theorem forEach_view {α β : Type} (v : State → β) (l : List α) (f : State → α → State)
    (hf : ∀ s a, v (f s a) = v s) (s : State) : v (forEach l f s) = v s := by
  induction l generalizing s with
  | nil => rfl
  | cons a r ih => exact (ih _).trans (hf s a)

end Sys2Proof.Machine
end

