-- ==== Sys2Proof/Laws/State.lean ====
section
/-! SUPPORT. One lemma per field and per reading of the state for every update of Machine/Ops.lean. -/

namespace Sys2Proof.Machine

/-! ## setLat -/

@[simp] theorem State.setLat_pending (s : State) (l : Nat) (x : Lattice) : (s.setLat l x).pending = s.pending := rfl
@[simp] theorem State.setLat_free (s : State) (l : Nat) (x : Lattice) : (s.setLat l x).free = s.free := rfl
@[simp] theorem State.setLat_reply (s : State) (l : Nat) (x : Lattice) : (s.setLat l x).reply = s.reply := rfl
@[simp] theorem State.setLat_time (s : State) (l : Nat) (x : Lattice) : (s.setLat l x).time = s.time := rfl
@[simp] theorem State.setLat_pins (s : State) (l : Nat) (x : Lattice) : (s.setLat l x).pins = s.pins := rfl
@[simp] theorem State.setLat_boot (s : State) (l : Nat) (x : Lattice) : (s.setLat l x).boot = s.boot := rfl
@[simp] theorem State.setLat_cfg (s : State) (l : Nat) (x : Lattice) : (s.setLat l x).cfg = s.cfg := rfl
@[simp] theorem State.setLat_cfgSeq (s : State) (l : Nat) (x : Lattice) : (s.setLat l x).cfgSeq = s.cfgSeq := rfl
@[simp] theorem State.setLat_flash (s : State) (l : Nat) (x : Lattice) : (s.setLat l x).flash = s.flash := rfl
@[simp] theorem State.setLat_jnl (s : State) (l : Nat) (x : Lattice) : (s.setLat l x).jnl = s.jnl := rfl
@[simp] theorem State.setLat_sec (s : State) (l : Nat) (x : Lattice) : (s.setLat l x).sec = s.sec := rfl
@[simp] theorem State.setLat_log (s : State) (l : Nat) (x : Lattice) : (s.setLat l x).log = s.log := rfl
@[simp] theorem State.setLat_evHead (s : State) (l : Nat) (x : Lattice) : (s.setLat l x).evHead = s.evHead := rfl
@[simp] theorem State.setLat_flds (s : State) (l : Nat) (x : Lattice) : (s.setLat l x).flds = s.flds := rfl
@[simp] theorem State.setLat_refusedAt (s : State) (l : Nat) (x : Lattice) : (s.setLat l x).refusedAt = s.refusedAt := rfl
@[simp] theorem State.setLat_mem (s : State) (l : Nat) (x : Lattice) : (s.setLat l x).mem = s.mem := rfl
@[simp] theorem State.setLat_hostMem (s : State) (l : Nat) (x : Lattice) : (s.setLat l x).hostMem = s.hostMem := rfl
@[simp] theorem State.setLat_poison (s : State) (l : Nat) (x : Lattice) : (s.setLat l x).poison = s.poison := rfl
@[simp] theorem State.setLat_wordErr (s : State) (l : Nat) (x : Lattice) : (s.setLat l x).wordErr = s.wordErr := rfl
@[simp] theorem State.setLat_feFull (s : State) (l : Nat) (x : Lattice) : (s.setLat l x).feFull = s.feFull := rfl
@[simp] theorem State.setLat_feOwner (s : State) (l : Nat) (x : Lattice) : (s.setLat l x).feOwner = s.feOwner := rfl
@[simp] theorem State.setLat_feOps (s : State) (l : Nat) (x : Lattice) : (s.setLat l x).feOps = s.feOps := rfl
@[simp] theorem State.setLat_combs (s : State) (l : Nat) (x : Lattice) : (s.setLat l x).combs = s.combs := rfl
@[simp] theorem State.setLat_threads (s : State) (l : Nat) (x : Lattice) : (s.setLat l x).threads = s.threads := rfl
@[simp] theorem State.setLat_ctxs (s : State) (l : Nat) (x : Lattice) : (s.setLat l x).ctxs = s.ctxs := rfl
@[simp] theorem State.setLat_entries (s : State) (l : Nat) (x : Lattice) : (s.setLat l x).entries = s.entries := rfl
@[simp] theorem State.setLat_admitQueue (s : State) (l : Nat) (x : Lattice) : (s.setLat l x).admitQueue = s.admitQueue := rfl
@[simp] theorem State.setLat_issued (s : State) (l : Nat) (x : Lattice) : (s.setLat l x).issued = s.issued := rfl
@[simp] theorem State.setLat_bays (s : State) (l : Nat) (x : Lattice) : (s.setLat l x).bays = s.bays := rfl
@[simp] theorem State.setLat_cxl (s : State) (l : Nat) (x : Lattice) : (s.setLat l x).cxl = s.cxl := rfl
@[simp] theorem State.setLat_ports (s : State) (l : Nat) (x : Lattice) : (s.setLat l x).ports = s.ports := rfl
@[simp] theorem State.setLat_hnx (s : State) (l : Nat) (x : Lattice) : (s.setLat l x).hnx = s.hnx := rfl
@[simp] theorem State.setLat_rings (s : State) (l : Nat) (x : Lattice) : (s.setLat l x).rings = s.rings := rfl
@[simp] theorem State.setLat_coefs (s : State) (l : Nat) (x : Lattice) : (s.setLat l x).coefs = s.coefs := rfl
@[simp] theorem State.setLat_clusters (s : State) (l : Nat) (x : Lattice) : (s.setLat l x).clusters = s.clusters := rfl
@[simp] theorem State.setLat_convs (s : State) (l : Nat) (x : Lattice) : (s.setLat l x).convs = s.convs := rfl
@[simp] theorem State.setLat_traces (s : State) (l : Nat) (x : Lattice) : (s.setLat l x).traces = s.traces := rfl
@[simp] theorem State.setLat_power (s : State) (l : Nat) (x : Lattice) : (s.setLat l x).power = s.power := rfl
@[simp] theorem State.setLat_sensors (s : State) (l : Nat) (x : Lattice) : (s.setLat l x).sensors = s.sensors := rfl
@[simp] theorem State.setLat_mgmt (s : State) (l : Nat) (x : Lattice) : (s.setLat l x).mgmt = s.mgmt := rfl
@[simp] theorem State.comb_setLat (s : State) (l : Nat) (x : Lattice) (j : Nat) : (s.setLat l x).comb j = s.comb j := rfl
@[simp] theorem State.thread_setLat (s : State) (l : Nat) (x : Lattice) (j : Nat) : (s.setLat l x).thread j = s.thread j := rfl
@[simp] theorem State.ctx_setLat (s : State) (l : Nat) (x : Lattice) (j : Nat) : (s.setLat l x).ctx j = s.ctx j := rfl
@[simp] theorem State.entrySt_setLat (s : State) (l : Nat) (x : Lattice) (j : Nat) : (s.setLat l x).entrySt j = s.entrySt j := rfl
@[simp] theorem State.bay_setLat (s : State) (l : Nat) (x : Lattice) (j : Nat) : (s.setLat l x).bay j = s.bay j := rfl
@[simp] theorem State.port_setLat (s : State) (l : Nat) (x : Lattice) (j : Nat) : (s.setLat l x).port j = s.port j := rfl
@[simp] theorem State.ring_setLat (s : State) (l : Nat) (x : Lattice) (j : Nat) : (s.setLat l x).ring j = s.ring j := rfl
@[simp] theorem State.cluster_setLat (s : State) (l : Nat) (x : Lattice) (j : Nat) : (s.setLat l x).cluster j = s.cluster j := rfl
@[simp] theorem State.conv_setLat (s : State) (l : Nat) (x : Lattice) (j : Nat) : (s.setLat l x).conv j = s.conv j := rfl
@[simp] theorem State.trace_setLat (s : State) (l : Nat) (x : Lattice) (j : Nat) : (s.setLat l x).trace j = s.trace j := rfl
@[simp] theorem State.sensor_setLat (s : State) (l : Nat) (x : Lattice) (j : Nat) : (s.setLat l x).sensor j = s.sensor j := rfl
@[simp] theorem State.fldAt_setLat (s : State) (l : Nat) (x : Lattice) (e : Fld) (j o : Nat) : (s.setLat l x).fldAt e j o = s.fldAt e j o := rfl
@[simp] theorem State.fld_setLat (s : State) (l : Nat) (x : Lattice) (e : Fld) (j : Nat) : (s.setLat l x).fld e j = s.fld e j := rfl
@[simp] theorem State.flag_setLat (s : State) (l : Nat) (x : Lattice) (e : Fld) (j : Nat) : (s.setLat l x).flag e j = s.flag e j := rfl
@[simp] theorem State.byte_setLat (s : State) (l : Nat) (x : Lattice) (j : Nat) : (s.setLat l x).byte j = s.byte j := rfl
@[simp] theorem State.hostByte_setLat (s : State) (l : Nat) (x : Lattice) (j : Nat) : (s.setLat l x).hostByte j = s.hostByte j := rfl
@[simp] theorem State.poisoned_setLat (s : State) (l : Nat) (x : Lattice) (j : Nat) : (s.setLat l x).poisoned j = s.poisoned j := rfl
@[simp] theorem State.inService_setLat (s : State) (l : Nat) (x : Lattice) : (s.setLat l x).inService = s.inService := rfl
@[simp] theorem State.served_setLat (s : State) (l : Nat) (x : Lattice) (j : Path) : (s.setLat l x).served j = s.served j := rfl
@[simp] theorem State.tokenPerm_setLat (s : State) (l : Nat) (x : Lattice) (j : Nat) : (s.setLat l x).tokenPerm j = s.tokenPerm j := rfl
@[simp] theorem State.bytes_setLat (s : State) (l : Nat) (x : Lattice) (j m : Nat) : (s.setLat l x).bytes j m = s.bytes j m := rfl
@[simp] theorem State.readNat_setLat (s : State) (l : Nat) (x : Lattice) (j m : Nat) : (s.setLat l x).readNat j m = s.readNat j m := rfl

/-! ## setComb -/

@[simp] theorem State.setComb_pending (s : State) (h : Nat) (x : Comb) : (s.setComb h x).pending = s.pending := rfl
@[simp] theorem State.setComb_free (s : State) (h : Nat) (x : Comb) : (s.setComb h x).free = s.free := rfl
@[simp] theorem State.setComb_reply (s : State) (h : Nat) (x : Comb) : (s.setComb h x).reply = s.reply := rfl
@[simp] theorem State.setComb_time (s : State) (h : Nat) (x : Comb) : (s.setComb h x).time = s.time := rfl
@[simp] theorem State.setComb_pins (s : State) (h : Nat) (x : Comb) : (s.setComb h x).pins = s.pins := rfl
@[simp] theorem State.setComb_boot (s : State) (h : Nat) (x : Comb) : (s.setComb h x).boot = s.boot := rfl
@[simp] theorem State.setComb_cfg (s : State) (h : Nat) (x : Comb) : (s.setComb h x).cfg = s.cfg := rfl
@[simp] theorem State.setComb_cfgSeq (s : State) (h : Nat) (x : Comb) : (s.setComb h x).cfgSeq = s.cfgSeq := rfl
@[simp] theorem State.setComb_flash (s : State) (h : Nat) (x : Comb) : (s.setComb h x).flash = s.flash := rfl
@[simp] theorem State.setComb_jnl (s : State) (h : Nat) (x : Comb) : (s.setComb h x).jnl = s.jnl := rfl
@[simp] theorem State.setComb_sec (s : State) (h : Nat) (x : Comb) : (s.setComb h x).sec = s.sec := rfl
@[simp] theorem State.setComb_log (s : State) (h : Nat) (x : Comb) : (s.setComb h x).log = s.log := rfl
@[simp] theorem State.setComb_evHead (s : State) (h : Nat) (x : Comb) : (s.setComb h x).evHead = s.evHead := rfl
@[simp] theorem State.setComb_flds (s : State) (h : Nat) (x : Comb) : (s.setComb h x).flds = s.flds := rfl
@[simp] theorem State.setComb_refusedAt (s : State) (h : Nat) (x : Comb) : (s.setComb h x).refusedAt = s.refusedAt := rfl
@[simp] theorem State.setComb_mem (s : State) (h : Nat) (x : Comb) : (s.setComb h x).mem = s.mem := rfl
@[simp] theorem State.setComb_hostMem (s : State) (h : Nat) (x : Comb) : (s.setComb h x).hostMem = s.hostMem := rfl
@[simp] theorem State.setComb_poison (s : State) (h : Nat) (x : Comb) : (s.setComb h x).poison = s.poison := rfl
@[simp] theorem State.setComb_wordErr (s : State) (h : Nat) (x : Comb) : (s.setComb h x).wordErr = s.wordErr := rfl
@[simp] theorem State.setComb_feFull (s : State) (h : Nat) (x : Comb) : (s.setComb h x).feFull = s.feFull := rfl
@[simp] theorem State.setComb_feOwner (s : State) (h : Nat) (x : Comb) : (s.setComb h x).feOwner = s.feOwner := rfl
@[simp] theorem State.setComb_feOps (s : State) (h : Nat) (x : Comb) : (s.setComb h x).feOps = s.feOps := rfl
@[simp] theorem State.setComb_lats (s : State) (h : Nat) (x : Comb) : (s.setComb h x).lats = s.lats := rfl
@[simp] theorem State.setComb_threads (s : State) (h : Nat) (x : Comb) : (s.setComb h x).threads = s.threads := rfl
@[simp] theorem State.setComb_ctxs (s : State) (h : Nat) (x : Comb) : (s.setComb h x).ctxs = s.ctxs := rfl
@[simp] theorem State.setComb_entries (s : State) (h : Nat) (x : Comb) : (s.setComb h x).entries = s.entries := rfl
@[simp] theorem State.setComb_admitQueue (s : State) (h : Nat) (x : Comb) : (s.setComb h x).admitQueue = s.admitQueue := rfl
@[simp] theorem State.setComb_issued (s : State) (h : Nat) (x : Comb) : (s.setComb h x).issued = s.issued := rfl
@[simp] theorem State.setComb_bays (s : State) (h : Nat) (x : Comb) : (s.setComb h x).bays = s.bays := rfl
@[simp] theorem State.setComb_cxl (s : State) (h : Nat) (x : Comb) : (s.setComb h x).cxl = s.cxl := rfl
@[simp] theorem State.setComb_ports (s : State) (h : Nat) (x : Comb) : (s.setComb h x).ports = s.ports := rfl
@[simp] theorem State.setComb_hnx (s : State) (h : Nat) (x : Comb) : (s.setComb h x).hnx = s.hnx := rfl
@[simp] theorem State.setComb_rings (s : State) (h : Nat) (x : Comb) : (s.setComb h x).rings = s.rings := rfl
@[simp] theorem State.setComb_coefs (s : State) (h : Nat) (x : Comb) : (s.setComb h x).coefs = s.coefs := rfl
@[simp] theorem State.setComb_clusters (s : State) (h : Nat) (x : Comb) : (s.setComb h x).clusters = s.clusters := rfl
@[simp] theorem State.setComb_convs (s : State) (h : Nat) (x : Comb) : (s.setComb h x).convs = s.convs := rfl
@[simp] theorem State.setComb_traces (s : State) (h : Nat) (x : Comb) : (s.setComb h x).traces = s.traces := rfl
@[simp] theorem State.setComb_power (s : State) (h : Nat) (x : Comb) : (s.setComb h x).power = s.power := rfl
@[simp] theorem State.setComb_sensors (s : State) (h : Nat) (x : Comb) : (s.setComb h x).sensors = s.sensors := rfl
@[simp] theorem State.setComb_mgmt (s : State) (h : Nat) (x : Comb) : (s.setComb h x).mgmt = s.mgmt := rfl
@[simp] theorem State.lat_setComb (s : State) (h : Nat) (x : Comb) (j : Nat) : (s.setComb h x).lat j = s.lat j := rfl
@[simp] theorem State.thread_setComb (s : State) (h : Nat) (x : Comb) (j : Nat) : (s.setComb h x).thread j = s.thread j := rfl
@[simp] theorem State.ctx_setComb (s : State) (h : Nat) (x : Comb) (j : Nat) : (s.setComb h x).ctx j = s.ctx j := rfl
@[simp] theorem State.entrySt_setComb (s : State) (h : Nat) (x : Comb) (j : Nat) : (s.setComb h x).entrySt j = s.entrySt j := rfl
@[simp] theorem State.bay_setComb (s : State) (h : Nat) (x : Comb) (j : Nat) : (s.setComb h x).bay j = s.bay j := rfl
@[simp] theorem State.port_setComb (s : State) (h : Nat) (x : Comb) (j : Nat) : (s.setComb h x).port j = s.port j := rfl
@[simp] theorem State.ring_setComb (s : State) (h : Nat) (x : Comb) (j : Nat) : (s.setComb h x).ring j = s.ring j := rfl
@[simp] theorem State.cluster_setComb (s : State) (h : Nat) (x : Comb) (j : Nat) : (s.setComb h x).cluster j = s.cluster j := rfl
@[simp] theorem State.conv_setComb (s : State) (h : Nat) (x : Comb) (j : Nat) : (s.setComb h x).conv j = s.conv j := rfl
@[simp] theorem State.trace_setComb (s : State) (h : Nat) (x : Comb) (j : Nat) : (s.setComb h x).trace j = s.trace j := rfl
@[simp] theorem State.sensor_setComb (s : State) (h : Nat) (x : Comb) (j : Nat) : (s.setComb h x).sensor j = s.sensor j := rfl
@[simp] theorem State.fldAt_setComb (s : State) (h : Nat) (x : Comb) (e : Fld) (j o : Nat) : (s.setComb h x).fldAt e j o = s.fldAt e j o := rfl
@[simp] theorem State.fld_setComb (s : State) (h : Nat) (x : Comb) (e : Fld) (j : Nat) : (s.setComb h x).fld e j = s.fld e j := rfl
@[simp] theorem State.flag_setComb (s : State) (h : Nat) (x : Comb) (e : Fld) (j : Nat) : (s.setComb h x).flag e j = s.flag e j := rfl
@[simp] theorem State.byte_setComb (s : State) (h : Nat) (x : Comb) (j : Nat) : (s.setComb h x).byte j = s.byte j := rfl
@[simp] theorem State.hostByte_setComb (s : State) (h : Nat) (x : Comb) (j : Nat) : (s.setComb h x).hostByte j = s.hostByte j := rfl
@[simp] theorem State.poisoned_setComb (s : State) (h : Nat) (x : Comb) (j : Nat) : (s.setComb h x).poisoned j = s.poisoned j := rfl
@[simp] theorem State.inService_setComb (s : State) (h : Nat) (x : Comb) : (s.setComb h x).inService = s.inService := rfl
@[simp] theorem State.served_setComb (s : State) (h : Nat) (x : Comb) (j : Path) : (s.setComb h x).served j = s.served j := rfl
@[simp] theorem State.tokenPerm_setComb (s : State) (h : Nat) (x : Comb) (j : Nat) : (s.setComb h x).tokenPerm j = s.tokenPerm j := rfl
@[simp] theorem State.bytes_setComb (s : State) (h : Nat) (x : Comb) (j m : Nat) : (s.setComb h x).bytes j m = s.bytes j m := rfl
@[simp] theorem State.readNat_setComb (s : State) (h : Nat) (x : Comb) (j m : Nat) : (s.setComb h x).readNat j m = s.readNat j m := rfl

/-! ## setThread -/

@[simp] theorem State.setThread_pending (s : State) (t : Nat) (x : Thread) : (s.setThread t x).pending = s.pending := rfl
@[simp] theorem State.setThread_free (s : State) (t : Nat) (x : Thread) : (s.setThread t x).free = s.free := rfl
@[simp] theorem State.setThread_reply (s : State) (t : Nat) (x : Thread) : (s.setThread t x).reply = s.reply := rfl
@[simp] theorem State.setThread_time (s : State) (t : Nat) (x : Thread) : (s.setThread t x).time = s.time := rfl
@[simp] theorem State.setThread_pins (s : State) (t : Nat) (x : Thread) : (s.setThread t x).pins = s.pins := rfl
@[simp] theorem State.setThread_boot (s : State) (t : Nat) (x : Thread) : (s.setThread t x).boot = s.boot := rfl
@[simp] theorem State.setThread_cfg (s : State) (t : Nat) (x : Thread) : (s.setThread t x).cfg = s.cfg := rfl
@[simp] theorem State.setThread_cfgSeq (s : State) (t : Nat) (x : Thread) : (s.setThread t x).cfgSeq = s.cfgSeq := rfl
@[simp] theorem State.setThread_flash (s : State) (t : Nat) (x : Thread) : (s.setThread t x).flash = s.flash := rfl
@[simp] theorem State.setThread_jnl (s : State) (t : Nat) (x : Thread) : (s.setThread t x).jnl = s.jnl := rfl
@[simp] theorem State.setThread_sec (s : State) (t : Nat) (x : Thread) : (s.setThread t x).sec = s.sec := rfl
@[simp] theorem State.setThread_log (s : State) (t : Nat) (x : Thread) : (s.setThread t x).log = s.log := rfl
@[simp] theorem State.setThread_evHead (s : State) (t : Nat) (x : Thread) : (s.setThread t x).evHead = s.evHead := rfl
@[simp] theorem State.setThread_flds (s : State) (t : Nat) (x : Thread) : (s.setThread t x).flds = s.flds := rfl
@[simp] theorem State.setThread_refusedAt (s : State) (t : Nat) (x : Thread) : (s.setThread t x).refusedAt = s.refusedAt := rfl
@[simp] theorem State.setThread_mem (s : State) (t : Nat) (x : Thread) : (s.setThread t x).mem = s.mem := rfl
@[simp] theorem State.setThread_hostMem (s : State) (t : Nat) (x : Thread) : (s.setThread t x).hostMem = s.hostMem := rfl
@[simp] theorem State.setThread_poison (s : State) (t : Nat) (x : Thread) : (s.setThread t x).poison = s.poison := rfl
@[simp] theorem State.setThread_wordErr (s : State) (t : Nat) (x : Thread) : (s.setThread t x).wordErr = s.wordErr := rfl
@[simp] theorem State.setThread_feFull (s : State) (t : Nat) (x : Thread) : (s.setThread t x).feFull = s.feFull := rfl
@[simp] theorem State.setThread_feOwner (s : State) (t : Nat) (x : Thread) : (s.setThread t x).feOwner = s.feOwner := rfl
@[simp] theorem State.setThread_feOps (s : State) (t : Nat) (x : Thread) : (s.setThread t x).feOps = s.feOps := rfl
@[simp] theorem State.setThread_lats (s : State) (t : Nat) (x : Thread) : (s.setThread t x).lats = s.lats := rfl
@[simp] theorem State.setThread_combs (s : State) (t : Nat) (x : Thread) : (s.setThread t x).combs = s.combs := rfl
@[simp] theorem State.setThread_ctxs (s : State) (t : Nat) (x : Thread) : (s.setThread t x).ctxs = s.ctxs := rfl
@[simp] theorem State.setThread_entries (s : State) (t : Nat) (x : Thread) : (s.setThread t x).entries = s.entries := rfl
@[simp] theorem State.setThread_admitQueue (s : State) (t : Nat) (x : Thread) : (s.setThread t x).admitQueue = s.admitQueue := rfl
@[simp] theorem State.setThread_issued (s : State) (t : Nat) (x : Thread) : (s.setThread t x).issued = s.issued := rfl
@[simp] theorem State.setThread_bays (s : State) (t : Nat) (x : Thread) : (s.setThread t x).bays = s.bays := rfl
@[simp] theorem State.setThread_cxl (s : State) (t : Nat) (x : Thread) : (s.setThread t x).cxl = s.cxl := rfl
@[simp] theorem State.setThread_ports (s : State) (t : Nat) (x : Thread) : (s.setThread t x).ports = s.ports := rfl
@[simp] theorem State.setThread_hnx (s : State) (t : Nat) (x : Thread) : (s.setThread t x).hnx = s.hnx := rfl
@[simp] theorem State.setThread_rings (s : State) (t : Nat) (x : Thread) : (s.setThread t x).rings = s.rings := rfl
@[simp] theorem State.setThread_coefs (s : State) (t : Nat) (x : Thread) : (s.setThread t x).coefs = s.coefs := rfl
@[simp] theorem State.setThread_clusters (s : State) (t : Nat) (x : Thread) : (s.setThread t x).clusters = s.clusters := rfl
@[simp] theorem State.setThread_convs (s : State) (t : Nat) (x : Thread) : (s.setThread t x).convs = s.convs := rfl
@[simp] theorem State.setThread_traces (s : State) (t : Nat) (x : Thread) : (s.setThread t x).traces = s.traces := rfl
@[simp] theorem State.setThread_power (s : State) (t : Nat) (x : Thread) : (s.setThread t x).power = s.power := rfl
@[simp] theorem State.setThread_sensors (s : State) (t : Nat) (x : Thread) : (s.setThread t x).sensors = s.sensors := rfl
@[simp] theorem State.setThread_mgmt (s : State) (t : Nat) (x : Thread) : (s.setThread t x).mgmt = s.mgmt := rfl
@[simp] theorem State.lat_setThread (s : State) (t : Nat) (x : Thread) (j : Nat) : (s.setThread t x).lat j = s.lat j := rfl
@[simp] theorem State.comb_setThread (s : State) (t : Nat) (x : Thread) (j : Nat) : (s.setThread t x).comb j = s.comb j := rfl
@[simp] theorem State.ctx_setThread (s : State) (t : Nat) (x : Thread) (j : Nat) : (s.setThread t x).ctx j = s.ctx j := rfl
@[simp] theorem State.entrySt_setThread (s : State) (t : Nat) (x : Thread) (j : Nat) : (s.setThread t x).entrySt j = s.entrySt j := rfl
@[simp] theorem State.bay_setThread (s : State) (t : Nat) (x : Thread) (j : Nat) : (s.setThread t x).bay j = s.bay j := rfl
@[simp] theorem State.port_setThread (s : State) (t : Nat) (x : Thread) (j : Nat) : (s.setThread t x).port j = s.port j := rfl
@[simp] theorem State.ring_setThread (s : State) (t : Nat) (x : Thread) (j : Nat) : (s.setThread t x).ring j = s.ring j := rfl
@[simp] theorem State.cluster_setThread (s : State) (t : Nat) (x : Thread) (j : Nat) : (s.setThread t x).cluster j = s.cluster j := rfl
@[simp] theorem State.conv_setThread (s : State) (t : Nat) (x : Thread) (j : Nat) : (s.setThread t x).conv j = s.conv j := rfl
@[simp] theorem State.trace_setThread (s : State) (t : Nat) (x : Thread) (j : Nat) : (s.setThread t x).trace j = s.trace j := rfl
@[simp] theorem State.sensor_setThread (s : State) (t : Nat) (x : Thread) (j : Nat) : (s.setThread t x).sensor j = s.sensor j := rfl
@[simp] theorem State.fldAt_setThread (s : State) (t : Nat) (x : Thread) (e : Fld) (j o : Nat) : (s.setThread t x).fldAt e j o = s.fldAt e j o := rfl
@[simp] theorem State.fld_setThread (s : State) (t : Nat) (x : Thread) (e : Fld) (j : Nat) : (s.setThread t x).fld e j = s.fld e j := rfl
@[simp] theorem State.flag_setThread (s : State) (t : Nat) (x : Thread) (e : Fld) (j : Nat) : (s.setThread t x).flag e j = s.flag e j := rfl
@[simp] theorem State.byte_setThread (s : State) (t : Nat) (x : Thread) (j : Nat) : (s.setThread t x).byte j = s.byte j := rfl
@[simp] theorem State.hostByte_setThread (s : State) (t : Nat) (x : Thread) (j : Nat) : (s.setThread t x).hostByte j = s.hostByte j := rfl
@[simp] theorem State.poisoned_setThread (s : State) (t : Nat) (x : Thread) (j : Nat) : (s.setThread t x).poisoned j = s.poisoned j := rfl
@[simp] theorem State.inService_setThread (s : State) (t : Nat) (x : Thread) : (s.setThread t x).inService = s.inService := rfl
@[simp] theorem State.served_setThread (s : State) (t : Nat) (x : Thread) (j : Path) : (s.setThread t x).served j = s.served j := rfl
@[simp] theorem State.tokenPerm_setThread (s : State) (t : Nat) (x : Thread) (j : Nat) : (s.setThread t x).tokenPerm j = s.tokenPerm j := rfl
@[simp] theorem State.bytes_setThread (s : State) (t : Nat) (x : Thread) (j m : Nat) : (s.setThread t x).bytes j m = s.bytes j m := rfl
@[simp] theorem State.readNat_setThread (s : State) (t : Nat) (x : Thread) (j m : Nat) : (s.setThread t x).readNat j m = s.readNat j m := rfl

/-! ## setCtx -/

@[simp] theorem State.setCtx_pending (s : State) (c : Nat) (x : Ctx) : (s.setCtx c x).pending = s.pending := rfl
@[simp] theorem State.setCtx_free (s : State) (c : Nat) (x : Ctx) : (s.setCtx c x).free = s.free := rfl
@[simp] theorem State.setCtx_reply (s : State) (c : Nat) (x : Ctx) : (s.setCtx c x).reply = s.reply := rfl
@[simp] theorem State.setCtx_time (s : State) (c : Nat) (x : Ctx) : (s.setCtx c x).time = s.time := rfl
@[simp] theorem State.setCtx_pins (s : State) (c : Nat) (x : Ctx) : (s.setCtx c x).pins = s.pins := rfl
@[simp] theorem State.setCtx_boot (s : State) (c : Nat) (x : Ctx) : (s.setCtx c x).boot = s.boot := rfl
@[simp] theorem State.setCtx_cfg (s : State) (c : Nat) (x : Ctx) : (s.setCtx c x).cfg = s.cfg := rfl
@[simp] theorem State.setCtx_cfgSeq (s : State) (c : Nat) (x : Ctx) : (s.setCtx c x).cfgSeq = s.cfgSeq := rfl
@[simp] theorem State.setCtx_flash (s : State) (c : Nat) (x : Ctx) : (s.setCtx c x).flash = s.flash := rfl
@[simp] theorem State.setCtx_jnl (s : State) (c : Nat) (x : Ctx) : (s.setCtx c x).jnl = s.jnl := rfl
@[simp] theorem State.setCtx_sec (s : State) (c : Nat) (x : Ctx) : (s.setCtx c x).sec = s.sec := rfl
@[simp] theorem State.setCtx_log (s : State) (c : Nat) (x : Ctx) : (s.setCtx c x).log = s.log := rfl
@[simp] theorem State.setCtx_evHead (s : State) (c : Nat) (x : Ctx) : (s.setCtx c x).evHead = s.evHead := rfl
@[simp] theorem State.setCtx_flds (s : State) (c : Nat) (x : Ctx) : (s.setCtx c x).flds = s.flds := rfl
@[simp] theorem State.setCtx_refusedAt (s : State) (c : Nat) (x : Ctx) : (s.setCtx c x).refusedAt = s.refusedAt := rfl
@[simp] theorem State.setCtx_mem (s : State) (c : Nat) (x : Ctx) : (s.setCtx c x).mem = s.mem := rfl
@[simp] theorem State.setCtx_hostMem (s : State) (c : Nat) (x : Ctx) : (s.setCtx c x).hostMem = s.hostMem := rfl
@[simp] theorem State.setCtx_poison (s : State) (c : Nat) (x : Ctx) : (s.setCtx c x).poison = s.poison := rfl
@[simp] theorem State.setCtx_wordErr (s : State) (c : Nat) (x : Ctx) : (s.setCtx c x).wordErr = s.wordErr := rfl
@[simp] theorem State.setCtx_feFull (s : State) (c : Nat) (x : Ctx) : (s.setCtx c x).feFull = s.feFull := rfl
@[simp] theorem State.setCtx_feOwner (s : State) (c : Nat) (x : Ctx) : (s.setCtx c x).feOwner = s.feOwner := rfl
@[simp] theorem State.setCtx_feOps (s : State) (c : Nat) (x : Ctx) : (s.setCtx c x).feOps = s.feOps := rfl
@[simp] theorem State.setCtx_lats (s : State) (c : Nat) (x : Ctx) : (s.setCtx c x).lats = s.lats := rfl
@[simp] theorem State.setCtx_combs (s : State) (c : Nat) (x : Ctx) : (s.setCtx c x).combs = s.combs := rfl
@[simp] theorem State.setCtx_threads (s : State) (c : Nat) (x : Ctx) : (s.setCtx c x).threads = s.threads := rfl
@[simp] theorem State.setCtx_entries (s : State) (c : Nat) (x : Ctx) : (s.setCtx c x).entries = s.entries := rfl
@[simp] theorem State.setCtx_admitQueue (s : State) (c : Nat) (x : Ctx) : (s.setCtx c x).admitQueue = s.admitQueue := rfl
@[simp] theorem State.setCtx_issued (s : State) (c : Nat) (x : Ctx) : (s.setCtx c x).issued = s.issued := rfl
@[simp] theorem State.setCtx_bays (s : State) (c : Nat) (x : Ctx) : (s.setCtx c x).bays = s.bays := rfl
@[simp] theorem State.setCtx_cxl (s : State) (c : Nat) (x : Ctx) : (s.setCtx c x).cxl = s.cxl := rfl
@[simp] theorem State.setCtx_ports (s : State) (c : Nat) (x : Ctx) : (s.setCtx c x).ports = s.ports := rfl
@[simp] theorem State.setCtx_hnx (s : State) (c : Nat) (x : Ctx) : (s.setCtx c x).hnx = s.hnx := rfl
@[simp] theorem State.setCtx_rings (s : State) (c : Nat) (x : Ctx) : (s.setCtx c x).rings = s.rings := rfl
@[simp] theorem State.setCtx_coefs (s : State) (c : Nat) (x : Ctx) : (s.setCtx c x).coefs = s.coefs := rfl
@[simp] theorem State.setCtx_clusters (s : State) (c : Nat) (x : Ctx) : (s.setCtx c x).clusters = s.clusters := rfl
@[simp] theorem State.setCtx_convs (s : State) (c : Nat) (x : Ctx) : (s.setCtx c x).convs = s.convs := rfl
@[simp] theorem State.setCtx_traces (s : State) (c : Nat) (x : Ctx) : (s.setCtx c x).traces = s.traces := rfl
@[simp] theorem State.setCtx_power (s : State) (c : Nat) (x : Ctx) : (s.setCtx c x).power = s.power := rfl
@[simp] theorem State.setCtx_sensors (s : State) (c : Nat) (x : Ctx) : (s.setCtx c x).sensors = s.sensors := rfl
@[simp] theorem State.setCtx_mgmt (s : State) (c : Nat) (x : Ctx) : (s.setCtx c x).mgmt = s.mgmt := rfl
@[simp] theorem State.lat_setCtx (s : State) (c : Nat) (x : Ctx) (j : Nat) : (s.setCtx c x).lat j = s.lat j := rfl
@[simp] theorem State.comb_setCtx (s : State) (c : Nat) (x : Ctx) (j : Nat) : (s.setCtx c x).comb j = s.comb j := rfl
@[simp] theorem State.thread_setCtx (s : State) (c : Nat) (x : Ctx) (j : Nat) : (s.setCtx c x).thread j = s.thread j := rfl
@[simp] theorem State.entrySt_setCtx (s : State) (c : Nat) (x : Ctx) (j : Nat) : (s.setCtx c x).entrySt j = s.entrySt j := rfl
@[simp] theorem State.bay_setCtx (s : State) (c : Nat) (x : Ctx) (j : Nat) : (s.setCtx c x).bay j = s.bay j := rfl
@[simp] theorem State.port_setCtx (s : State) (c : Nat) (x : Ctx) (j : Nat) : (s.setCtx c x).port j = s.port j := rfl
@[simp] theorem State.ring_setCtx (s : State) (c : Nat) (x : Ctx) (j : Nat) : (s.setCtx c x).ring j = s.ring j := rfl
@[simp] theorem State.cluster_setCtx (s : State) (c : Nat) (x : Ctx) (j : Nat) : (s.setCtx c x).cluster j = s.cluster j := rfl
@[simp] theorem State.conv_setCtx (s : State) (c : Nat) (x : Ctx) (j : Nat) : (s.setCtx c x).conv j = s.conv j := rfl
@[simp] theorem State.trace_setCtx (s : State) (c : Nat) (x : Ctx) (j : Nat) : (s.setCtx c x).trace j = s.trace j := rfl
@[simp] theorem State.sensor_setCtx (s : State) (c : Nat) (x : Ctx) (j : Nat) : (s.setCtx c x).sensor j = s.sensor j := rfl
@[simp] theorem State.fldAt_setCtx (s : State) (c : Nat) (x : Ctx) (e : Fld) (j o : Nat) : (s.setCtx c x).fldAt e j o = s.fldAt e j o := rfl
@[simp] theorem State.fld_setCtx (s : State) (c : Nat) (x : Ctx) (e : Fld) (j : Nat) : (s.setCtx c x).fld e j = s.fld e j := rfl
@[simp] theorem State.flag_setCtx (s : State) (c : Nat) (x : Ctx) (e : Fld) (j : Nat) : (s.setCtx c x).flag e j = s.flag e j := rfl
@[simp] theorem State.byte_setCtx (s : State) (c : Nat) (x : Ctx) (j : Nat) : (s.setCtx c x).byte j = s.byte j := rfl
@[simp] theorem State.hostByte_setCtx (s : State) (c : Nat) (x : Ctx) (j : Nat) : (s.setCtx c x).hostByte j = s.hostByte j := rfl
@[simp] theorem State.poisoned_setCtx (s : State) (c : Nat) (x : Ctx) (j : Nat) : (s.setCtx c x).poisoned j = s.poisoned j := rfl
@[simp] theorem State.inService_setCtx (s : State) (c : Nat) (x : Ctx) : (s.setCtx c x).inService = s.inService := rfl
@[simp] theorem State.served_setCtx (s : State) (c : Nat) (x : Ctx) (j : Path) : (s.setCtx c x).served j = s.served j := rfl
@[simp] theorem State.tokenPerm_setCtx (s : State) (c : Nat) (x : Ctx) (j : Nat) : (s.setCtx c x).tokenPerm j = s.tokenPerm j := rfl
@[simp] theorem State.bytes_setCtx (s : State) (c : Nat) (x : Ctx) (j m : Nat) : (s.setCtx c x).bytes j m = s.bytes j m := rfl
@[simp] theorem State.readNat_setCtx (s : State) (c : Nat) (x : Ctx) (j m : Nat) : (s.setCtx c x).readNat j m = s.readNat j m := rfl

/-! ## setEntry -/

@[simp] theorem State.setEntry_pending (s : State) (k : Nat) (x : EntrySt) : (s.setEntry k x).pending = s.pending := rfl
@[simp] theorem State.setEntry_free (s : State) (k : Nat) (x : EntrySt) : (s.setEntry k x).free = s.free := rfl
@[simp] theorem State.setEntry_reply (s : State) (k : Nat) (x : EntrySt) : (s.setEntry k x).reply = s.reply := rfl
@[simp] theorem State.setEntry_time (s : State) (k : Nat) (x : EntrySt) : (s.setEntry k x).time = s.time := rfl
@[simp] theorem State.setEntry_pins (s : State) (k : Nat) (x : EntrySt) : (s.setEntry k x).pins = s.pins := rfl
@[simp] theorem State.setEntry_boot (s : State) (k : Nat) (x : EntrySt) : (s.setEntry k x).boot = s.boot := rfl
@[simp] theorem State.setEntry_cfg (s : State) (k : Nat) (x : EntrySt) : (s.setEntry k x).cfg = s.cfg := rfl
@[simp] theorem State.setEntry_cfgSeq (s : State) (k : Nat) (x : EntrySt) : (s.setEntry k x).cfgSeq = s.cfgSeq := rfl
@[simp] theorem State.setEntry_flash (s : State) (k : Nat) (x : EntrySt) : (s.setEntry k x).flash = s.flash := rfl
@[simp] theorem State.setEntry_jnl (s : State) (k : Nat) (x : EntrySt) : (s.setEntry k x).jnl = s.jnl := rfl
@[simp] theorem State.setEntry_sec (s : State) (k : Nat) (x : EntrySt) : (s.setEntry k x).sec = s.sec := rfl
@[simp] theorem State.setEntry_log (s : State) (k : Nat) (x : EntrySt) : (s.setEntry k x).log = s.log := rfl
@[simp] theorem State.setEntry_evHead (s : State) (k : Nat) (x : EntrySt) : (s.setEntry k x).evHead = s.evHead := rfl
@[simp] theorem State.setEntry_flds (s : State) (k : Nat) (x : EntrySt) : (s.setEntry k x).flds = s.flds := rfl
@[simp] theorem State.setEntry_refusedAt (s : State) (k : Nat) (x : EntrySt) : (s.setEntry k x).refusedAt = s.refusedAt := rfl
@[simp] theorem State.setEntry_mem (s : State) (k : Nat) (x : EntrySt) : (s.setEntry k x).mem = s.mem := rfl
@[simp] theorem State.setEntry_hostMem (s : State) (k : Nat) (x : EntrySt) : (s.setEntry k x).hostMem = s.hostMem := rfl
@[simp] theorem State.setEntry_poison (s : State) (k : Nat) (x : EntrySt) : (s.setEntry k x).poison = s.poison := rfl
@[simp] theorem State.setEntry_wordErr (s : State) (k : Nat) (x : EntrySt) : (s.setEntry k x).wordErr = s.wordErr := rfl
@[simp] theorem State.setEntry_feFull (s : State) (k : Nat) (x : EntrySt) : (s.setEntry k x).feFull = s.feFull := rfl
@[simp] theorem State.setEntry_feOwner (s : State) (k : Nat) (x : EntrySt) : (s.setEntry k x).feOwner = s.feOwner := rfl
@[simp] theorem State.setEntry_feOps (s : State) (k : Nat) (x : EntrySt) : (s.setEntry k x).feOps = s.feOps := rfl
@[simp] theorem State.setEntry_lats (s : State) (k : Nat) (x : EntrySt) : (s.setEntry k x).lats = s.lats := rfl
@[simp] theorem State.setEntry_combs (s : State) (k : Nat) (x : EntrySt) : (s.setEntry k x).combs = s.combs := rfl
@[simp] theorem State.setEntry_threads (s : State) (k : Nat) (x : EntrySt) : (s.setEntry k x).threads = s.threads := rfl
@[simp] theorem State.setEntry_ctxs (s : State) (k : Nat) (x : EntrySt) : (s.setEntry k x).ctxs = s.ctxs := rfl
@[simp] theorem State.setEntry_admitQueue (s : State) (k : Nat) (x : EntrySt) : (s.setEntry k x).admitQueue = s.admitQueue := rfl
@[simp] theorem State.setEntry_issued (s : State) (k : Nat) (x : EntrySt) : (s.setEntry k x).issued = s.issued := rfl
@[simp] theorem State.setEntry_bays (s : State) (k : Nat) (x : EntrySt) : (s.setEntry k x).bays = s.bays := rfl
@[simp] theorem State.setEntry_cxl (s : State) (k : Nat) (x : EntrySt) : (s.setEntry k x).cxl = s.cxl := rfl
@[simp] theorem State.setEntry_ports (s : State) (k : Nat) (x : EntrySt) : (s.setEntry k x).ports = s.ports := rfl
@[simp] theorem State.setEntry_hnx (s : State) (k : Nat) (x : EntrySt) : (s.setEntry k x).hnx = s.hnx := rfl
@[simp] theorem State.setEntry_rings (s : State) (k : Nat) (x : EntrySt) : (s.setEntry k x).rings = s.rings := rfl
@[simp] theorem State.setEntry_coefs (s : State) (k : Nat) (x : EntrySt) : (s.setEntry k x).coefs = s.coefs := rfl
@[simp] theorem State.setEntry_clusters (s : State) (k : Nat) (x : EntrySt) : (s.setEntry k x).clusters = s.clusters := rfl
@[simp] theorem State.setEntry_convs (s : State) (k : Nat) (x : EntrySt) : (s.setEntry k x).convs = s.convs := rfl
@[simp] theorem State.setEntry_traces (s : State) (k : Nat) (x : EntrySt) : (s.setEntry k x).traces = s.traces := rfl
@[simp] theorem State.setEntry_power (s : State) (k : Nat) (x : EntrySt) : (s.setEntry k x).power = s.power := rfl
@[simp] theorem State.setEntry_sensors (s : State) (k : Nat) (x : EntrySt) : (s.setEntry k x).sensors = s.sensors := rfl
@[simp] theorem State.setEntry_mgmt (s : State) (k : Nat) (x : EntrySt) : (s.setEntry k x).mgmt = s.mgmt := rfl
@[simp] theorem State.lat_setEntry (s : State) (k : Nat) (x : EntrySt) (j : Nat) : (s.setEntry k x).lat j = s.lat j := rfl
@[simp] theorem State.comb_setEntry (s : State) (k : Nat) (x : EntrySt) (j : Nat) : (s.setEntry k x).comb j = s.comb j := rfl
@[simp] theorem State.thread_setEntry (s : State) (k : Nat) (x : EntrySt) (j : Nat) : (s.setEntry k x).thread j = s.thread j := rfl
@[simp] theorem State.ctx_setEntry (s : State) (k : Nat) (x : EntrySt) (j : Nat) : (s.setEntry k x).ctx j = s.ctx j := rfl
@[simp] theorem State.bay_setEntry (s : State) (k : Nat) (x : EntrySt) (j : Nat) : (s.setEntry k x).bay j = s.bay j := rfl
@[simp] theorem State.port_setEntry (s : State) (k : Nat) (x : EntrySt) (j : Nat) : (s.setEntry k x).port j = s.port j := rfl
@[simp] theorem State.ring_setEntry (s : State) (k : Nat) (x : EntrySt) (j : Nat) : (s.setEntry k x).ring j = s.ring j := rfl
@[simp] theorem State.cluster_setEntry (s : State) (k : Nat) (x : EntrySt) (j : Nat) : (s.setEntry k x).cluster j = s.cluster j := rfl
@[simp] theorem State.conv_setEntry (s : State) (k : Nat) (x : EntrySt) (j : Nat) : (s.setEntry k x).conv j = s.conv j := rfl
@[simp] theorem State.trace_setEntry (s : State) (k : Nat) (x : EntrySt) (j : Nat) : (s.setEntry k x).trace j = s.trace j := rfl
@[simp] theorem State.sensor_setEntry (s : State) (k : Nat) (x : EntrySt) (j : Nat) : (s.setEntry k x).sensor j = s.sensor j := rfl
@[simp] theorem State.fldAt_setEntry (s : State) (k : Nat) (x : EntrySt) (e : Fld) (j o : Nat) : (s.setEntry k x).fldAt e j o = s.fldAt e j o := rfl
@[simp] theorem State.fld_setEntry (s : State) (k : Nat) (x : EntrySt) (e : Fld) (j : Nat) : (s.setEntry k x).fld e j = s.fld e j := rfl
@[simp] theorem State.flag_setEntry (s : State) (k : Nat) (x : EntrySt) (e : Fld) (j : Nat) : (s.setEntry k x).flag e j = s.flag e j := rfl
@[simp] theorem State.byte_setEntry (s : State) (k : Nat) (x : EntrySt) (j : Nat) : (s.setEntry k x).byte j = s.byte j := rfl
@[simp] theorem State.hostByte_setEntry (s : State) (k : Nat) (x : EntrySt) (j : Nat) : (s.setEntry k x).hostByte j = s.hostByte j := rfl
@[simp] theorem State.poisoned_setEntry (s : State) (k : Nat) (x : EntrySt) (j : Nat) : (s.setEntry k x).poisoned j = s.poisoned j := rfl
@[simp] theorem State.inService_setEntry (s : State) (k : Nat) (x : EntrySt) : (s.setEntry k x).inService = s.inService := rfl
@[simp] theorem State.served_setEntry (s : State) (k : Nat) (x : EntrySt) (j : Path) : (s.setEntry k x).served j = s.served j := rfl
@[simp] theorem State.tokenPerm_setEntry (s : State) (k : Nat) (x : EntrySt) (j : Nat) : (s.setEntry k x).tokenPerm j = s.tokenPerm j := rfl
@[simp] theorem State.bytes_setEntry (s : State) (k : Nat) (x : EntrySt) (j m : Nat) : (s.setEntry k x).bytes j m = s.bytes j m := rfl
@[simp] theorem State.readNat_setEntry (s : State) (k : Nat) (x : EntrySt) (j m : Nat) : (s.setEntry k x).readNat j m = s.readNat j m := rfl

/-! ## setBay -/

@[simp] theorem State.setBay_pending (s : State) (b : Nat) (x : Bay) : (s.setBay b x).pending = s.pending := rfl
@[simp] theorem State.setBay_free (s : State) (b : Nat) (x : Bay) : (s.setBay b x).free = s.free := rfl
@[simp] theorem State.setBay_reply (s : State) (b : Nat) (x : Bay) : (s.setBay b x).reply = s.reply := rfl
@[simp] theorem State.setBay_time (s : State) (b : Nat) (x : Bay) : (s.setBay b x).time = s.time := rfl
@[simp] theorem State.setBay_pins (s : State) (b : Nat) (x : Bay) : (s.setBay b x).pins = s.pins := rfl
@[simp] theorem State.setBay_boot (s : State) (b : Nat) (x : Bay) : (s.setBay b x).boot = s.boot := rfl
@[simp] theorem State.setBay_cfg (s : State) (b : Nat) (x : Bay) : (s.setBay b x).cfg = s.cfg := rfl
@[simp] theorem State.setBay_cfgSeq (s : State) (b : Nat) (x : Bay) : (s.setBay b x).cfgSeq = s.cfgSeq := rfl
@[simp] theorem State.setBay_flash (s : State) (b : Nat) (x : Bay) : (s.setBay b x).flash = s.flash := rfl
@[simp] theorem State.setBay_jnl (s : State) (b : Nat) (x : Bay) : (s.setBay b x).jnl = s.jnl := rfl
@[simp] theorem State.setBay_sec (s : State) (b : Nat) (x : Bay) : (s.setBay b x).sec = s.sec := rfl
@[simp] theorem State.setBay_log (s : State) (b : Nat) (x : Bay) : (s.setBay b x).log = s.log := rfl
@[simp] theorem State.setBay_evHead (s : State) (b : Nat) (x : Bay) : (s.setBay b x).evHead = s.evHead := rfl
@[simp] theorem State.setBay_flds (s : State) (b : Nat) (x : Bay) : (s.setBay b x).flds = s.flds := rfl
@[simp] theorem State.setBay_refusedAt (s : State) (b : Nat) (x : Bay) : (s.setBay b x).refusedAt = s.refusedAt := rfl
@[simp] theorem State.setBay_mem (s : State) (b : Nat) (x : Bay) : (s.setBay b x).mem = s.mem := rfl
@[simp] theorem State.setBay_hostMem (s : State) (b : Nat) (x : Bay) : (s.setBay b x).hostMem = s.hostMem := rfl
@[simp] theorem State.setBay_poison (s : State) (b : Nat) (x : Bay) : (s.setBay b x).poison = s.poison := rfl
@[simp] theorem State.setBay_wordErr (s : State) (b : Nat) (x : Bay) : (s.setBay b x).wordErr = s.wordErr := rfl
@[simp] theorem State.setBay_feFull (s : State) (b : Nat) (x : Bay) : (s.setBay b x).feFull = s.feFull := rfl
@[simp] theorem State.setBay_feOwner (s : State) (b : Nat) (x : Bay) : (s.setBay b x).feOwner = s.feOwner := rfl
@[simp] theorem State.setBay_feOps (s : State) (b : Nat) (x : Bay) : (s.setBay b x).feOps = s.feOps := rfl
@[simp] theorem State.setBay_lats (s : State) (b : Nat) (x : Bay) : (s.setBay b x).lats = s.lats := rfl
@[simp] theorem State.setBay_combs (s : State) (b : Nat) (x : Bay) : (s.setBay b x).combs = s.combs := rfl
@[simp] theorem State.setBay_threads (s : State) (b : Nat) (x : Bay) : (s.setBay b x).threads = s.threads := rfl
@[simp] theorem State.setBay_ctxs (s : State) (b : Nat) (x : Bay) : (s.setBay b x).ctxs = s.ctxs := rfl
@[simp] theorem State.setBay_entries (s : State) (b : Nat) (x : Bay) : (s.setBay b x).entries = s.entries := rfl
@[simp] theorem State.setBay_admitQueue (s : State) (b : Nat) (x : Bay) : (s.setBay b x).admitQueue = s.admitQueue := rfl
@[simp] theorem State.setBay_issued (s : State) (b : Nat) (x : Bay) : (s.setBay b x).issued = s.issued := rfl
@[simp] theorem State.setBay_cxl (s : State) (b : Nat) (x : Bay) : (s.setBay b x).cxl = s.cxl := rfl
@[simp] theorem State.setBay_ports (s : State) (b : Nat) (x : Bay) : (s.setBay b x).ports = s.ports := rfl
@[simp] theorem State.setBay_hnx (s : State) (b : Nat) (x : Bay) : (s.setBay b x).hnx = s.hnx := rfl
@[simp] theorem State.setBay_rings (s : State) (b : Nat) (x : Bay) : (s.setBay b x).rings = s.rings := rfl
@[simp] theorem State.setBay_coefs (s : State) (b : Nat) (x : Bay) : (s.setBay b x).coefs = s.coefs := rfl
@[simp] theorem State.setBay_clusters (s : State) (b : Nat) (x : Bay) : (s.setBay b x).clusters = s.clusters := rfl
@[simp] theorem State.setBay_convs (s : State) (b : Nat) (x : Bay) : (s.setBay b x).convs = s.convs := rfl
@[simp] theorem State.setBay_traces (s : State) (b : Nat) (x : Bay) : (s.setBay b x).traces = s.traces := rfl
@[simp] theorem State.setBay_power (s : State) (b : Nat) (x : Bay) : (s.setBay b x).power = s.power := rfl
@[simp] theorem State.setBay_sensors (s : State) (b : Nat) (x : Bay) : (s.setBay b x).sensors = s.sensors := rfl
@[simp] theorem State.setBay_mgmt (s : State) (b : Nat) (x : Bay) : (s.setBay b x).mgmt = s.mgmt := rfl
@[simp] theorem State.lat_setBay (s : State) (b : Nat) (x : Bay) (j : Nat) : (s.setBay b x).lat j = s.lat j := rfl
@[simp] theorem State.comb_setBay (s : State) (b : Nat) (x : Bay) (j : Nat) : (s.setBay b x).comb j = s.comb j := rfl
@[simp] theorem State.thread_setBay (s : State) (b : Nat) (x : Bay) (j : Nat) : (s.setBay b x).thread j = s.thread j := rfl
@[simp] theorem State.ctx_setBay (s : State) (b : Nat) (x : Bay) (j : Nat) : (s.setBay b x).ctx j = s.ctx j := rfl
@[simp] theorem State.entrySt_setBay (s : State) (b : Nat) (x : Bay) (j : Nat) : (s.setBay b x).entrySt j = s.entrySt j := rfl
@[simp] theorem State.port_setBay (s : State) (b : Nat) (x : Bay) (j : Nat) : (s.setBay b x).port j = s.port j := rfl
@[simp] theorem State.ring_setBay (s : State) (b : Nat) (x : Bay) (j : Nat) : (s.setBay b x).ring j = s.ring j := rfl
@[simp] theorem State.cluster_setBay (s : State) (b : Nat) (x : Bay) (j : Nat) : (s.setBay b x).cluster j = s.cluster j := rfl
@[simp] theorem State.conv_setBay (s : State) (b : Nat) (x : Bay) (j : Nat) : (s.setBay b x).conv j = s.conv j := rfl
@[simp] theorem State.trace_setBay (s : State) (b : Nat) (x : Bay) (j : Nat) : (s.setBay b x).trace j = s.trace j := rfl
@[simp] theorem State.sensor_setBay (s : State) (b : Nat) (x : Bay) (j : Nat) : (s.setBay b x).sensor j = s.sensor j := rfl
@[simp] theorem State.fldAt_setBay (s : State) (b : Nat) (x : Bay) (e : Fld) (j o : Nat) : (s.setBay b x).fldAt e j o = s.fldAt e j o := rfl
@[simp] theorem State.fld_setBay (s : State) (b : Nat) (x : Bay) (e : Fld) (j : Nat) : (s.setBay b x).fld e j = s.fld e j := rfl
@[simp] theorem State.flag_setBay (s : State) (b : Nat) (x : Bay) (e : Fld) (j : Nat) : (s.setBay b x).flag e j = s.flag e j := rfl
@[simp] theorem State.byte_setBay (s : State) (b : Nat) (x : Bay) (j : Nat) : (s.setBay b x).byte j = s.byte j := rfl
@[simp] theorem State.hostByte_setBay (s : State) (b : Nat) (x : Bay) (j : Nat) : (s.setBay b x).hostByte j = s.hostByte j := rfl
@[simp] theorem State.poisoned_setBay (s : State) (b : Nat) (x : Bay) (j : Nat) : (s.setBay b x).poisoned j = s.poisoned j := rfl
@[simp] theorem State.inService_setBay (s : State) (b : Nat) (x : Bay) : (s.setBay b x).inService = s.inService := rfl
@[simp] theorem State.served_setBay (s : State) (b : Nat) (x : Bay) (j : Path) : (s.setBay b x).served j = s.served j := rfl
@[simp] theorem State.tokenPerm_setBay (s : State) (b : Nat) (x : Bay) (j : Nat) : (s.setBay b x).tokenPerm j = s.tokenPerm j := rfl
@[simp] theorem State.bytes_setBay (s : State) (b : Nat) (x : Bay) (j m : Nat) : (s.setBay b x).bytes j m = s.bytes j m := rfl
@[simp] theorem State.readNat_setBay (s : State) (b : Nat) (x : Bay) (j m : Nat) : (s.setBay b x).readNat j m = s.readNat j m := rfl

/-! ## setPort -/

@[simp] theorem State.setPort_pending (s : State) (p : Nat) (x : Port) : (s.setPort p x).pending = s.pending := rfl
@[simp] theorem State.setPort_free (s : State) (p : Nat) (x : Port) : (s.setPort p x).free = s.free := rfl
@[simp] theorem State.setPort_reply (s : State) (p : Nat) (x : Port) : (s.setPort p x).reply = s.reply := rfl
@[simp] theorem State.setPort_time (s : State) (p : Nat) (x : Port) : (s.setPort p x).time = s.time := rfl
@[simp] theorem State.setPort_pins (s : State) (p : Nat) (x : Port) : (s.setPort p x).pins = s.pins := rfl
@[simp] theorem State.setPort_boot (s : State) (p : Nat) (x : Port) : (s.setPort p x).boot = s.boot := rfl
@[simp] theorem State.setPort_cfg (s : State) (p : Nat) (x : Port) : (s.setPort p x).cfg = s.cfg := rfl
@[simp] theorem State.setPort_cfgSeq (s : State) (p : Nat) (x : Port) : (s.setPort p x).cfgSeq = s.cfgSeq := rfl
@[simp] theorem State.setPort_flash (s : State) (p : Nat) (x : Port) : (s.setPort p x).flash = s.flash := rfl
@[simp] theorem State.setPort_jnl (s : State) (p : Nat) (x : Port) : (s.setPort p x).jnl = s.jnl := rfl
@[simp] theorem State.setPort_sec (s : State) (p : Nat) (x : Port) : (s.setPort p x).sec = s.sec := rfl
@[simp] theorem State.setPort_log (s : State) (p : Nat) (x : Port) : (s.setPort p x).log = s.log := rfl
@[simp] theorem State.setPort_evHead (s : State) (p : Nat) (x : Port) : (s.setPort p x).evHead = s.evHead := rfl
@[simp] theorem State.setPort_flds (s : State) (p : Nat) (x : Port) : (s.setPort p x).flds = s.flds := rfl
@[simp] theorem State.setPort_refusedAt (s : State) (p : Nat) (x : Port) : (s.setPort p x).refusedAt = s.refusedAt := rfl
@[simp] theorem State.setPort_mem (s : State) (p : Nat) (x : Port) : (s.setPort p x).mem = s.mem := rfl
@[simp] theorem State.setPort_hostMem (s : State) (p : Nat) (x : Port) : (s.setPort p x).hostMem = s.hostMem := rfl
@[simp] theorem State.setPort_poison (s : State) (p : Nat) (x : Port) : (s.setPort p x).poison = s.poison := rfl
@[simp] theorem State.setPort_wordErr (s : State) (p : Nat) (x : Port) : (s.setPort p x).wordErr = s.wordErr := rfl
@[simp] theorem State.setPort_feFull (s : State) (p : Nat) (x : Port) : (s.setPort p x).feFull = s.feFull := rfl
@[simp] theorem State.setPort_feOwner (s : State) (p : Nat) (x : Port) : (s.setPort p x).feOwner = s.feOwner := rfl
@[simp] theorem State.setPort_feOps (s : State) (p : Nat) (x : Port) : (s.setPort p x).feOps = s.feOps := rfl
@[simp] theorem State.setPort_lats (s : State) (p : Nat) (x : Port) : (s.setPort p x).lats = s.lats := rfl
@[simp] theorem State.setPort_combs (s : State) (p : Nat) (x : Port) : (s.setPort p x).combs = s.combs := rfl
@[simp] theorem State.setPort_threads (s : State) (p : Nat) (x : Port) : (s.setPort p x).threads = s.threads := rfl
@[simp] theorem State.setPort_ctxs (s : State) (p : Nat) (x : Port) : (s.setPort p x).ctxs = s.ctxs := rfl
@[simp] theorem State.setPort_entries (s : State) (p : Nat) (x : Port) : (s.setPort p x).entries = s.entries := rfl
@[simp] theorem State.setPort_admitQueue (s : State) (p : Nat) (x : Port) : (s.setPort p x).admitQueue = s.admitQueue := rfl
@[simp] theorem State.setPort_issued (s : State) (p : Nat) (x : Port) : (s.setPort p x).issued = s.issued := rfl
@[simp] theorem State.setPort_bays (s : State) (p : Nat) (x : Port) : (s.setPort p x).bays = s.bays := rfl
@[simp] theorem State.setPort_cxl (s : State) (p : Nat) (x : Port) : (s.setPort p x).cxl = s.cxl := rfl
@[simp] theorem State.setPort_hnx (s : State) (p : Nat) (x : Port) : (s.setPort p x).hnx = s.hnx := rfl
@[simp] theorem State.setPort_rings (s : State) (p : Nat) (x : Port) : (s.setPort p x).rings = s.rings := rfl
@[simp] theorem State.setPort_coefs (s : State) (p : Nat) (x : Port) : (s.setPort p x).coefs = s.coefs := rfl
@[simp] theorem State.setPort_clusters (s : State) (p : Nat) (x : Port) : (s.setPort p x).clusters = s.clusters := rfl
@[simp] theorem State.setPort_convs (s : State) (p : Nat) (x : Port) : (s.setPort p x).convs = s.convs := rfl
@[simp] theorem State.setPort_traces (s : State) (p : Nat) (x : Port) : (s.setPort p x).traces = s.traces := rfl
@[simp] theorem State.setPort_power (s : State) (p : Nat) (x : Port) : (s.setPort p x).power = s.power := rfl
@[simp] theorem State.setPort_sensors (s : State) (p : Nat) (x : Port) : (s.setPort p x).sensors = s.sensors := rfl
@[simp] theorem State.setPort_mgmt (s : State) (p : Nat) (x : Port) : (s.setPort p x).mgmt = s.mgmt := rfl
@[simp] theorem State.lat_setPort (s : State) (p : Nat) (x : Port) (j : Nat) : (s.setPort p x).lat j = s.lat j := rfl
@[simp] theorem State.comb_setPort (s : State) (p : Nat) (x : Port) (j : Nat) : (s.setPort p x).comb j = s.comb j := rfl
@[simp] theorem State.thread_setPort (s : State) (p : Nat) (x : Port) (j : Nat) : (s.setPort p x).thread j = s.thread j := rfl
@[simp] theorem State.ctx_setPort (s : State) (p : Nat) (x : Port) (j : Nat) : (s.setPort p x).ctx j = s.ctx j := rfl
@[simp] theorem State.entrySt_setPort (s : State) (p : Nat) (x : Port) (j : Nat) : (s.setPort p x).entrySt j = s.entrySt j := rfl
@[simp] theorem State.bay_setPort (s : State) (p : Nat) (x : Port) (j : Nat) : (s.setPort p x).bay j = s.bay j := rfl
@[simp] theorem State.ring_setPort (s : State) (p : Nat) (x : Port) (j : Nat) : (s.setPort p x).ring j = s.ring j := rfl
@[simp] theorem State.cluster_setPort (s : State) (p : Nat) (x : Port) (j : Nat) : (s.setPort p x).cluster j = s.cluster j := rfl
@[simp] theorem State.conv_setPort (s : State) (p : Nat) (x : Port) (j : Nat) : (s.setPort p x).conv j = s.conv j := rfl
@[simp] theorem State.trace_setPort (s : State) (p : Nat) (x : Port) (j : Nat) : (s.setPort p x).trace j = s.trace j := rfl
@[simp] theorem State.sensor_setPort (s : State) (p : Nat) (x : Port) (j : Nat) : (s.setPort p x).sensor j = s.sensor j := rfl
@[simp] theorem State.fldAt_setPort (s : State) (p : Nat) (x : Port) (e : Fld) (j o : Nat) : (s.setPort p x).fldAt e j o = s.fldAt e j o := rfl
@[simp] theorem State.fld_setPort (s : State) (p : Nat) (x : Port) (e : Fld) (j : Nat) : (s.setPort p x).fld e j = s.fld e j := rfl
@[simp] theorem State.flag_setPort (s : State) (p : Nat) (x : Port) (e : Fld) (j : Nat) : (s.setPort p x).flag e j = s.flag e j := rfl
@[simp] theorem State.byte_setPort (s : State) (p : Nat) (x : Port) (j : Nat) : (s.setPort p x).byte j = s.byte j := rfl
@[simp] theorem State.hostByte_setPort (s : State) (p : Nat) (x : Port) (j : Nat) : (s.setPort p x).hostByte j = s.hostByte j := rfl
@[simp] theorem State.poisoned_setPort (s : State) (p : Nat) (x : Port) (j : Nat) : (s.setPort p x).poisoned j = s.poisoned j := rfl
@[simp] theorem State.inService_setPort (s : State) (p : Nat) (x : Port) : (s.setPort p x).inService = s.inService := rfl
@[simp] theorem State.served_setPort (s : State) (p : Nat) (x : Port) (j : Path) : (s.setPort p x).served j = s.served j := rfl
@[simp] theorem State.tokenPerm_setPort (s : State) (p : Nat) (x : Port) (j : Nat) : (s.setPort p x).tokenPerm j = s.tokenPerm j := rfl
@[simp] theorem State.bytes_setPort (s : State) (p : Nat) (x : Port) (j m : Nat) : (s.setPort p x).bytes j m = s.bytes j m := rfl
@[simp] theorem State.readNat_setPort (s : State) (p : Nat) (x : Port) (j m : Nat) : (s.setPort p x).readNat j m = s.readNat j m := rfl

/-! ## setRing -/

@[simp] theorem State.setRing_pending (s : State) (r : Nat) (x : Ring) : (s.setRing r x).pending = s.pending := rfl
@[simp] theorem State.setRing_free (s : State) (r : Nat) (x : Ring) : (s.setRing r x).free = s.free := rfl
@[simp] theorem State.setRing_reply (s : State) (r : Nat) (x : Ring) : (s.setRing r x).reply = s.reply := rfl
@[simp] theorem State.setRing_time (s : State) (r : Nat) (x : Ring) : (s.setRing r x).time = s.time := rfl
@[simp] theorem State.setRing_pins (s : State) (r : Nat) (x : Ring) : (s.setRing r x).pins = s.pins := rfl
@[simp] theorem State.setRing_boot (s : State) (r : Nat) (x : Ring) : (s.setRing r x).boot = s.boot := rfl
@[simp] theorem State.setRing_cfg (s : State) (r : Nat) (x : Ring) : (s.setRing r x).cfg = s.cfg := rfl
@[simp] theorem State.setRing_cfgSeq (s : State) (r : Nat) (x : Ring) : (s.setRing r x).cfgSeq = s.cfgSeq := rfl
@[simp] theorem State.setRing_flash (s : State) (r : Nat) (x : Ring) : (s.setRing r x).flash = s.flash := rfl
@[simp] theorem State.setRing_jnl (s : State) (r : Nat) (x : Ring) : (s.setRing r x).jnl = s.jnl := rfl
@[simp] theorem State.setRing_sec (s : State) (r : Nat) (x : Ring) : (s.setRing r x).sec = s.sec := rfl
@[simp] theorem State.setRing_log (s : State) (r : Nat) (x : Ring) : (s.setRing r x).log = s.log := rfl
@[simp] theorem State.setRing_evHead (s : State) (r : Nat) (x : Ring) : (s.setRing r x).evHead = s.evHead := rfl
@[simp] theorem State.setRing_flds (s : State) (r : Nat) (x : Ring) : (s.setRing r x).flds = s.flds := rfl
@[simp] theorem State.setRing_refusedAt (s : State) (r : Nat) (x : Ring) : (s.setRing r x).refusedAt = s.refusedAt := rfl
@[simp] theorem State.setRing_mem (s : State) (r : Nat) (x : Ring) : (s.setRing r x).mem = s.mem := rfl
@[simp] theorem State.setRing_hostMem (s : State) (r : Nat) (x : Ring) : (s.setRing r x).hostMem = s.hostMem := rfl
@[simp] theorem State.setRing_poison (s : State) (r : Nat) (x : Ring) : (s.setRing r x).poison = s.poison := rfl
@[simp] theorem State.setRing_wordErr (s : State) (r : Nat) (x : Ring) : (s.setRing r x).wordErr = s.wordErr := rfl
@[simp] theorem State.setRing_feFull (s : State) (r : Nat) (x : Ring) : (s.setRing r x).feFull = s.feFull := rfl
@[simp] theorem State.setRing_feOwner (s : State) (r : Nat) (x : Ring) : (s.setRing r x).feOwner = s.feOwner := rfl
@[simp] theorem State.setRing_feOps (s : State) (r : Nat) (x : Ring) : (s.setRing r x).feOps = s.feOps := rfl
@[simp] theorem State.setRing_lats (s : State) (r : Nat) (x : Ring) : (s.setRing r x).lats = s.lats := rfl
@[simp] theorem State.setRing_combs (s : State) (r : Nat) (x : Ring) : (s.setRing r x).combs = s.combs := rfl
@[simp] theorem State.setRing_threads (s : State) (r : Nat) (x : Ring) : (s.setRing r x).threads = s.threads := rfl
@[simp] theorem State.setRing_ctxs (s : State) (r : Nat) (x : Ring) : (s.setRing r x).ctxs = s.ctxs := rfl
@[simp] theorem State.setRing_entries (s : State) (r : Nat) (x : Ring) : (s.setRing r x).entries = s.entries := rfl
@[simp] theorem State.setRing_admitQueue (s : State) (r : Nat) (x : Ring) : (s.setRing r x).admitQueue = s.admitQueue := rfl
@[simp] theorem State.setRing_issued (s : State) (r : Nat) (x : Ring) : (s.setRing r x).issued = s.issued := rfl
@[simp] theorem State.setRing_bays (s : State) (r : Nat) (x : Ring) : (s.setRing r x).bays = s.bays := rfl
@[simp] theorem State.setRing_cxl (s : State) (r : Nat) (x : Ring) : (s.setRing r x).cxl = s.cxl := rfl
@[simp] theorem State.setRing_ports (s : State) (r : Nat) (x : Ring) : (s.setRing r x).ports = s.ports := rfl
@[simp] theorem State.setRing_hnx (s : State) (r : Nat) (x : Ring) : (s.setRing r x).hnx = s.hnx := rfl
@[simp] theorem State.setRing_coefs (s : State) (r : Nat) (x : Ring) : (s.setRing r x).coefs = s.coefs := rfl
@[simp] theorem State.setRing_clusters (s : State) (r : Nat) (x : Ring) : (s.setRing r x).clusters = s.clusters := rfl
@[simp] theorem State.setRing_convs (s : State) (r : Nat) (x : Ring) : (s.setRing r x).convs = s.convs := rfl
@[simp] theorem State.setRing_traces (s : State) (r : Nat) (x : Ring) : (s.setRing r x).traces = s.traces := rfl
@[simp] theorem State.setRing_power (s : State) (r : Nat) (x : Ring) : (s.setRing r x).power = s.power := rfl
@[simp] theorem State.setRing_sensors (s : State) (r : Nat) (x : Ring) : (s.setRing r x).sensors = s.sensors := rfl
@[simp] theorem State.setRing_mgmt (s : State) (r : Nat) (x : Ring) : (s.setRing r x).mgmt = s.mgmt := rfl
@[simp] theorem State.lat_setRing (s : State) (r : Nat) (x : Ring) (j : Nat) : (s.setRing r x).lat j = s.lat j := rfl
@[simp] theorem State.comb_setRing (s : State) (r : Nat) (x : Ring) (j : Nat) : (s.setRing r x).comb j = s.comb j := rfl
@[simp] theorem State.thread_setRing (s : State) (r : Nat) (x : Ring) (j : Nat) : (s.setRing r x).thread j = s.thread j := rfl
@[simp] theorem State.ctx_setRing (s : State) (r : Nat) (x : Ring) (j : Nat) : (s.setRing r x).ctx j = s.ctx j := rfl
@[simp] theorem State.entrySt_setRing (s : State) (r : Nat) (x : Ring) (j : Nat) : (s.setRing r x).entrySt j = s.entrySt j := rfl
@[simp] theorem State.bay_setRing (s : State) (r : Nat) (x : Ring) (j : Nat) : (s.setRing r x).bay j = s.bay j := rfl
@[simp] theorem State.port_setRing (s : State) (r : Nat) (x : Ring) (j : Nat) : (s.setRing r x).port j = s.port j := rfl
@[simp] theorem State.cluster_setRing (s : State) (r : Nat) (x : Ring) (j : Nat) : (s.setRing r x).cluster j = s.cluster j := rfl
@[simp] theorem State.conv_setRing (s : State) (r : Nat) (x : Ring) (j : Nat) : (s.setRing r x).conv j = s.conv j := rfl
@[simp] theorem State.trace_setRing (s : State) (r : Nat) (x : Ring) (j : Nat) : (s.setRing r x).trace j = s.trace j := rfl
@[simp] theorem State.sensor_setRing (s : State) (r : Nat) (x : Ring) (j : Nat) : (s.setRing r x).sensor j = s.sensor j := rfl
@[simp] theorem State.fldAt_setRing (s : State) (r : Nat) (x : Ring) (e : Fld) (j o : Nat) : (s.setRing r x).fldAt e j o = s.fldAt e j o := rfl
@[simp] theorem State.fld_setRing (s : State) (r : Nat) (x : Ring) (e : Fld) (j : Nat) : (s.setRing r x).fld e j = s.fld e j := rfl
@[simp] theorem State.flag_setRing (s : State) (r : Nat) (x : Ring) (e : Fld) (j : Nat) : (s.setRing r x).flag e j = s.flag e j := rfl
@[simp] theorem State.byte_setRing (s : State) (r : Nat) (x : Ring) (j : Nat) : (s.setRing r x).byte j = s.byte j := rfl
@[simp] theorem State.hostByte_setRing (s : State) (r : Nat) (x : Ring) (j : Nat) : (s.setRing r x).hostByte j = s.hostByte j := rfl
@[simp] theorem State.poisoned_setRing (s : State) (r : Nat) (x : Ring) (j : Nat) : (s.setRing r x).poisoned j = s.poisoned j := rfl
@[simp] theorem State.inService_setRing (s : State) (r : Nat) (x : Ring) : (s.setRing r x).inService = s.inService := rfl
@[simp] theorem State.served_setRing (s : State) (r : Nat) (x : Ring) (j : Path) : (s.setRing r x).served j = s.served j := rfl
@[simp] theorem State.tokenPerm_setRing (s : State) (r : Nat) (x : Ring) (j : Nat) : (s.setRing r x).tokenPerm j = s.tokenPerm j := rfl
@[simp] theorem State.bytes_setRing (s : State) (r : Nat) (x : Ring) (j m : Nat) : (s.setRing r x).bytes j m = s.bytes j m := rfl
@[simp] theorem State.readNat_setRing (s : State) (r : Nat) (x : Ring) (j m : Nat) : (s.setRing r x).readNat j m = s.readNat j m := rfl

/-! ## setCluster -/

@[simp] theorem State.setCluster_pending (s : State) (c : Nat) (x : Cluster) : (s.setCluster c x).pending = s.pending := rfl
@[simp] theorem State.setCluster_free (s : State) (c : Nat) (x : Cluster) : (s.setCluster c x).free = s.free := rfl
@[simp] theorem State.setCluster_reply (s : State) (c : Nat) (x : Cluster) : (s.setCluster c x).reply = s.reply := rfl
@[simp] theorem State.setCluster_time (s : State) (c : Nat) (x : Cluster) : (s.setCluster c x).time = s.time := rfl
@[simp] theorem State.setCluster_pins (s : State) (c : Nat) (x : Cluster) : (s.setCluster c x).pins = s.pins := rfl
@[simp] theorem State.setCluster_boot (s : State) (c : Nat) (x : Cluster) : (s.setCluster c x).boot = s.boot := rfl
@[simp] theorem State.setCluster_cfg (s : State) (c : Nat) (x : Cluster) : (s.setCluster c x).cfg = s.cfg := rfl
@[simp] theorem State.setCluster_cfgSeq (s : State) (c : Nat) (x : Cluster) : (s.setCluster c x).cfgSeq = s.cfgSeq := rfl
@[simp] theorem State.setCluster_flash (s : State) (c : Nat) (x : Cluster) : (s.setCluster c x).flash = s.flash := rfl
@[simp] theorem State.setCluster_jnl (s : State) (c : Nat) (x : Cluster) : (s.setCluster c x).jnl = s.jnl := rfl
@[simp] theorem State.setCluster_sec (s : State) (c : Nat) (x : Cluster) : (s.setCluster c x).sec = s.sec := rfl
@[simp] theorem State.setCluster_log (s : State) (c : Nat) (x : Cluster) : (s.setCluster c x).log = s.log := rfl
@[simp] theorem State.setCluster_evHead (s : State) (c : Nat) (x : Cluster) : (s.setCluster c x).evHead = s.evHead := rfl
@[simp] theorem State.setCluster_flds (s : State) (c : Nat) (x : Cluster) : (s.setCluster c x).flds = s.flds := rfl
@[simp] theorem State.setCluster_refusedAt (s : State) (c : Nat) (x : Cluster) : (s.setCluster c x).refusedAt = s.refusedAt := rfl
@[simp] theorem State.setCluster_mem (s : State) (c : Nat) (x : Cluster) : (s.setCluster c x).mem = s.mem := rfl
@[simp] theorem State.setCluster_hostMem (s : State) (c : Nat) (x : Cluster) : (s.setCluster c x).hostMem = s.hostMem := rfl
@[simp] theorem State.setCluster_poison (s : State) (c : Nat) (x : Cluster) : (s.setCluster c x).poison = s.poison := rfl
@[simp] theorem State.setCluster_wordErr (s : State) (c : Nat) (x : Cluster) : (s.setCluster c x).wordErr = s.wordErr := rfl
@[simp] theorem State.setCluster_feFull (s : State) (c : Nat) (x : Cluster) : (s.setCluster c x).feFull = s.feFull := rfl
@[simp] theorem State.setCluster_feOwner (s : State) (c : Nat) (x : Cluster) : (s.setCluster c x).feOwner = s.feOwner := rfl
@[simp] theorem State.setCluster_feOps (s : State) (c : Nat) (x : Cluster) : (s.setCluster c x).feOps = s.feOps := rfl
@[simp] theorem State.setCluster_lats (s : State) (c : Nat) (x : Cluster) : (s.setCluster c x).lats = s.lats := rfl
@[simp] theorem State.setCluster_combs (s : State) (c : Nat) (x : Cluster) : (s.setCluster c x).combs = s.combs := rfl
@[simp] theorem State.setCluster_threads (s : State) (c : Nat) (x : Cluster) : (s.setCluster c x).threads = s.threads := rfl
@[simp] theorem State.setCluster_ctxs (s : State) (c : Nat) (x : Cluster) : (s.setCluster c x).ctxs = s.ctxs := rfl
@[simp] theorem State.setCluster_entries (s : State) (c : Nat) (x : Cluster) : (s.setCluster c x).entries = s.entries := rfl
@[simp] theorem State.setCluster_admitQueue (s : State) (c : Nat) (x : Cluster) : (s.setCluster c x).admitQueue = s.admitQueue := rfl
@[simp] theorem State.setCluster_issued (s : State) (c : Nat) (x : Cluster) : (s.setCluster c x).issued = s.issued := rfl
@[simp] theorem State.setCluster_bays (s : State) (c : Nat) (x : Cluster) : (s.setCluster c x).bays = s.bays := rfl
@[simp] theorem State.setCluster_cxl (s : State) (c : Nat) (x : Cluster) : (s.setCluster c x).cxl = s.cxl := rfl
@[simp] theorem State.setCluster_ports (s : State) (c : Nat) (x : Cluster) : (s.setCluster c x).ports = s.ports := rfl
@[simp] theorem State.setCluster_hnx (s : State) (c : Nat) (x : Cluster) : (s.setCluster c x).hnx = s.hnx := rfl
@[simp] theorem State.setCluster_rings (s : State) (c : Nat) (x : Cluster) : (s.setCluster c x).rings = s.rings := rfl
@[simp] theorem State.setCluster_coefs (s : State) (c : Nat) (x : Cluster) : (s.setCluster c x).coefs = s.coefs := rfl
@[simp] theorem State.setCluster_convs (s : State) (c : Nat) (x : Cluster) : (s.setCluster c x).convs = s.convs := rfl
@[simp] theorem State.setCluster_traces (s : State) (c : Nat) (x : Cluster) : (s.setCluster c x).traces = s.traces := rfl
@[simp] theorem State.setCluster_power (s : State) (c : Nat) (x : Cluster) : (s.setCluster c x).power = s.power := rfl
@[simp] theorem State.setCluster_sensors (s : State) (c : Nat) (x : Cluster) : (s.setCluster c x).sensors = s.sensors := rfl
@[simp] theorem State.setCluster_mgmt (s : State) (c : Nat) (x : Cluster) : (s.setCluster c x).mgmt = s.mgmt := rfl
@[simp] theorem State.lat_setCluster (s : State) (c : Nat) (x : Cluster) (j : Nat) : (s.setCluster c x).lat j = s.lat j := rfl
@[simp] theorem State.comb_setCluster (s : State) (c : Nat) (x : Cluster) (j : Nat) : (s.setCluster c x).comb j = s.comb j := rfl
@[simp] theorem State.thread_setCluster (s : State) (c : Nat) (x : Cluster) (j : Nat) : (s.setCluster c x).thread j = s.thread j := rfl
@[simp] theorem State.ctx_setCluster (s : State) (c : Nat) (x : Cluster) (j : Nat) : (s.setCluster c x).ctx j = s.ctx j := rfl
@[simp] theorem State.entrySt_setCluster (s : State) (c : Nat) (x : Cluster) (j : Nat) : (s.setCluster c x).entrySt j = s.entrySt j := rfl
@[simp] theorem State.bay_setCluster (s : State) (c : Nat) (x : Cluster) (j : Nat) : (s.setCluster c x).bay j = s.bay j := rfl
@[simp] theorem State.port_setCluster (s : State) (c : Nat) (x : Cluster) (j : Nat) : (s.setCluster c x).port j = s.port j := rfl
@[simp] theorem State.ring_setCluster (s : State) (c : Nat) (x : Cluster) (j : Nat) : (s.setCluster c x).ring j = s.ring j := rfl
@[simp] theorem State.conv_setCluster (s : State) (c : Nat) (x : Cluster) (j : Nat) : (s.setCluster c x).conv j = s.conv j := rfl
@[simp] theorem State.trace_setCluster (s : State) (c : Nat) (x : Cluster) (j : Nat) : (s.setCluster c x).trace j = s.trace j := rfl
@[simp] theorem State.sensor_setCluster (s : State) (c : Nat) (x : Cluster) (j : Nat) : (s.setCluster c x).sensor j = s.sensor j := rfl
@[simp] theorem State.fldAt_setCluster (s : State) (c : Nat) (x : Cluster) (e : Fld) (j o : Nat) : (s.setCluster c x).fldAt e j o = s.fldAt e j o := rfl
@[simp] theorem State.fld_setCluster (s : State) (c : Nat) (x : Cluster) (e : Fld) (j : Nat) : (s.setCluster c x).fld e j = s.fld e j := rfl
@[simp] theorem State.flag_setCluster (s : State) (c : Nat) (x : Cluster) (e : Fld) (j : Nat) : (s.setCluster c x).flag e j = s.flag e j := rfl
@[simp] theorem State.byte_setCluster (s : State) (c : Nat) (x : Cluster) (j : Nat) : (s.setCluster c x).byte j = s.byte j := rfl
@[simp] theorem State.hostByte_setCluster (s : State) (c : Nat) (x : Cluster) (j : Nat) : (s.setCluster c x).hostByte j = s.hostByte j := rfl
@[simp] theorem State.poisoned_setCluster (s : State) (c : Nat) (x : Cluster) (j : Nat) : (s.setCluster c x).poisoned j = s.poisoned j := rfl
@[simp] theorem State.inService_setCluster (s : State) (c : Nat) (x : Cluster) : (s.setCluster c x).inService = s.inService := rfl
@[simp] theorem State.served_setCluster (s : State) (c : Nat) (x : Cluster) (j : Path) : (s.setCluster c x).served j = s.served j := rfl
@[simp] theorem State.tokenPerm_setCluster (s : State) (c : Nat) (x : Cluster) (j : Nat) : (s.setCluster c x).tokenPerm j = s.tokenPerm j := rfl
@[simp] theorem State.bytes_setCluster (s : State) (c : Nat) (x : Cluster) (j m : Nat) : (s.setCluster c x).bytes j m = s.bytes j m := rfl
@[simp] theorem State.readNat_setCluster (s : State) (c : Nat) (x : Cluster) (j m : Nat) : (s.setCluster c x).readNat j m = s.readNat j m := rfl

/-! ## setConv -/

@[simp] theorem State.setConv_pending (s : State) (k : Nat) (x : Conv) : (s.setConv k x).pending = s.pending := rfl
@[simp] theorem State.setConv_free (s : State) (k : Nat) (x : Conv) : (s.setConv k x).free = s.free := rfl
@[simp] theorem State.setConv_reply (s : State) (k : Nat) (x : Conv) : (s.setConv k x).reply = s.reply := rfl
@[simp] theorem State.setConv_time (s : State) (k : Nat) (x : Conv) : (s.setConv k x).time = s.time := rfl
@[simp] theorem State.setConv_pins (s : State) (k : Nat) (x : Conv) : (s.setConv k x).pins = s.pins := rfl
@[simp] theorem State.setConv_boot (s : State) (k : Nat) (x : Conv) : (s.setConv k x).boot = s.boot := rfl
@[simp] theorem State.setConv_cfg (s : State) (k : Nat) (x : Conv) : (s.setConv k x).cfg = s.cfg := rfl
@[simp] theorem State.setConv_cfgSeq (s : State) (k : Nat) (x : Conv) : (s.setConv k x).cfgSeq = s.cfgSeq := rfl
@[simp] theorem State.setConv_flash (s : State) (k : Nat) (x : Conv) : (s.setConv k x).flash = s.flash := rfl
@[simp] theorem State.setConv_jnl (s : State) (k : Nat) (x : Conv) : (s.setConv k x).jnl = s.jnl := rfl
@[simp] theorem State.setConv_sec (s : State) (k : Nat) (x : Conv) : (s.setConv k x).sec = s.sec := rfl
@[simp] theorem State.setConv_log (s : State) (k : Nat) (x : Conv) : (s.setConv k x).log = s.log := rfl
@[simp] theorem State.setConv_evHead (s : State) (k : Nat) (x : Conv) : (s.setConv k x).evHead = s.evHead := rfl
@[simp] theorem State.setConv_flds (s : State) (k : Nat) (x : Conv) : (s.setConv k x).flds = s.flds := rfl
@[simp] theorem State.setConv_refusedAt (s : State) (k : Nat) (x : Conv) : (s.setConv k x).refusedAt = s.refusedAt := rfl
@[simp] theorem State.setConv_mem (s : State) (k : Nat) (x : Conv) : (s.setConv k x).mem = s.mem := rfl
@[simp] theorem State.setConv_hostMem (s : State) (k : Nat) (x : Conv) : (s.setConv k x).hostMem = s.hostMem := rfl
@[simp] theorem State.setConv_poison (s : State) (k : Nat) (x : Conv) : (s.setConv k x).poison = s.poison := rfl
@[simp] theorem State.setConv_wordErr (s : State) (k : Nat) (x : Conv) : (s.setConv k x).wordErr = s.wordErr := rfl
@[simp] theorem State.setConv_feFull (s : State) (k : Nat) (x : Conv) : (s.setConv k x).feFull = s.feFull := rfl
@[simp] theorem State.setConv_feOwner (s : State) (k : Nat) (x : Conv) : (s.setConv k x).feOwner = s.feOwner := rfl
@[simp] theorem State.setConv_feOps (s : State) (k : Nat) (x : Conv) : (s.setConv k x).feOps = s.feOps := rfl
@[simp] theorem State.setConv_lats (s : State) (k : Nat) (x : Conv) : (s.setConv k x).lats = s.lats := rfl
@[simp] theorem State.setConv_combs (s : State) (k : Nat) (x : Conv) : (s.setConv k x).combs = s.combs := rfl
@[simp] theorem State.setConv_threads (s : State) (k : Nat) (x : Conv) : (s.setConv k x).threads = s.threads := rfl
@[simp] theorem State.setConv_ctxs (s : State) (k : Nat) (x : Conv) : (s.setConv k x).ctxs = s.ctxs := rfl
@[simp] theorem State.setConv_entries (s : State) (k : Nat) (x : Conv) : (s.setConv k x).entries = s.entries := rfl
@[simp] theorem State.setConv_admitQueue (s : State) (k : Nat) (x : Conv) : (s.setConv k x).admitQueue = s.admitQueue := rfl
@[simp] theorem State.setConv_issued (s : State) (k : Nat) (x : Conv) : (s.setConv k x).issued = s.issued := rfl
@[simp] theorem State.setConv_bays (s : State) (k : Nat) (x : Conv) : (s.setConv k x).bays = s.bays := rfl
@[simp] theorem State.setConv_cxl (s : State) (k : Nat) (x : Conv) : (s.setConv k x).cxl = s.cxl := rfl
@[simp] theorem State.setConv_ports (s : State) (k : Nat) (x : Conv) : (s.setConv k x).ports = s.ports := rfl
@[simp] theorem State.setConv_hnx (s : State) (k : Nat) (x : Conv) : (s.setConv k x).hnx = s.hnx := rfl
@[simp] theorem State.setConv_rings (s : State) (k : Nat) (x : Conv) : (s.setConv k x).rings = s.rings := rfl
@[simp] theorem State.setConv_coefs (s : State) (k : Nat) (x : Conv) : (s.setConv k x).coefs = s.coefs := rfl
@[simp] theorem State.setConv_clusters (s : State) (k : Nat) (x : Conv) : (s.setConv k x).clusters = s.clusters := rfl
@[simp] theorem State.setConv_traces (s : State) (k : Nat) (x : Conv) : (s.setConv k x).traces = s.traces := rfl
@[simp] theorem State.setConv_power (s : State) (k : Nat) (x : Conv) : (s.setConv k x).power = s.power := rfl
@[simp] theorem State.setConv_sensors (s : State) (k : Nat) (x : Conv) : (s.setConv k x).sensors = s.sensors := rfl
@[simp] theorem State.setConv_mgmt (s : State) (k : Nat) (x : Conv) : (s.setConv k x).mgmt = s.mgmt := rfl
@[simp] theorem State.lat_setConv (s : State) (k : Nat) (x : Conv) (j : Nat) : (s.setConv k x).lat j = s.lat j := rfl
@[simp] theorem State.comb_setConv (s : State) (k : Nat) (x : Conv) (j : Nat) : (s.setConv k x).comb j = s.comb j := rfl
@[simp] theorem State.thread_setConv (s : State) (k : Nat) (x : Conv) (j : Nat) : (s.setConv k x).thread j = s.thread j := rfl
@[simp] theorem State.ctx_setConv (s : State) (k : Nat) (x : Conv) (j : Nat) : (s.setConv k x).ctx j = s.ctx j := rfl
@[simp] theorem State.entrySt_setConv (s : State) (k : Nat) (x : Conv) (j : Nat) : (s.setConv k x).entrySt j = s.entrySt j := rfl
@[simp] theorem State.bay_setConv (s : State) (k : Nat) (x : Conv) (j : Nat) : (s.setConv k x).bay j = s.bay j := rfl
@[simp] theorem State.port_setConv (s : State) (k : Nat) (x : Conv) (j : Nat) : (s.setConv k x).port j = s.port j := rfl
@[simp] theorem State.ring_setConv (s : State) (k : Nat) (x : Conv) (j : Nat) : (s.setConv k x).ring j = s.ring j := rfl
@[simp] theorem State.cluster_setConv (s : State) (k : Nat) (x : Conv) (j : Nat) : (s.setConv k x).cluster j = s.cluster j := rfl
@[simp] theorem State.trace_setConv (s : State) (k : Nat) (x : Conv) (j : Nat) : (s.setConv k x).trace j = s.trace j := rfl
@[simp] theorem State.sensor_setConv (s : State) (k : Nat) (x : Conv) (j : Nat) : (s.setConv k x).sensor j = s.sensor j := rfl
@[simp] theorem State.fldAt_setConv (s : State) (k : Nat) (x : Conv) (e : Fld) (j o : Nat) : (s.setConv k x).fldAt e j o = s.fldAt e j o := rfl
@[simp] theorem State.fld_setConv (s : State) (k : Nat) (x : Conv) (e : Fld) (j : Nat) : (s.setConv k x).fld e j = s.fld e j := rfl
@[simp] theorem State.flag_setConv (s : State) (k : Nat) (x : Conv) (e : Fld) (j : Nat) : (s.setConv k x).flag e j = s.flag e j := rfl
@[simp] theorem State.byte_setConv (s : State) (k : Nat) (x : Conv) (j : Nat) : (s.setConv k x).byte j = s.byte j := rfl
@[simp] theorem State.hostByte_setConv (s : State) (k : Nat) (x : Conv) (j : Nat) : (s.setConv k x).hostByte j = s.hostByte j := rfl
@[simp] theorem State.poisoned_setConv (s : State) (k : Nat) (x : Conv) (j : Nat) : (s.setConv k x).poisoned j = s.poisoned j := rfl
@[simp] theorem State.inService_setConv (s : State) (k : Nat) (x : Conv) : (s.setConv k x).inService = s.inService := rfl
@[simp] theorem State.served_setConv (s : State) (k : Nat) (x : Conv) (j : Path) : (s.setConv k x).served j = s.served j := rfl
@[simp] theorem State.tokenPerm_setConv (s : State) (k : Nat) (x : Conv) (j : Nat) : (s.setConv k x).tokenPerm j = s.tokenPerm j := rfl
@[simp] theorem State.bytes_setConv (s : State) (k : Nat) (x : Conv) (j m : Nat) : (s.setConv k x).bytes j m = s.bytes j m := rfl
@[simp] theorem State.readNat_setConv (s : State) (k : Nat) (x : Conv) (j m : Nat) : (s.setConv k x).readNat j m = s.readNat j m := rfl

/-! ## setTrace -/

@[simp] theorem State.setTrace_pending (s : State) (k : Nat) (x : Trace) : (s.setTrace k x).pending = s.pending := rfl
@[simp] theorem State.setTrace_free (s : State) (k : Nat) (x : Trace) : (s.setTrace k x).free = s.free := rfl
@[simp] theorem State.setTrace_reply (s : State) (k : Nat) (x : Trace) : (s.setTrace k x).reply = s.reply := rfl
@[simp] theorem State.setTrace_time (s : State) (k : Nat) (x : Trace) : (s.setTrace k x).time = s.time := rfl
@[simp] theorem State.setTrace_pins (s : State) (k : Nat) (x : Trace) : (s.setTrace k x).pins = s.pins := rfl
@[simp] theorem State.setTrace_boot (s : State) (k : Nat) (x : Trace) : (s.setTrace k x).boot = s.boot := rfl
@[simp] theorem State.setTrace_cfg (s : State) (k : Nat) (x : Trace) : (s.setTrace k x).cfg = s.cfg := rfl
@[simp] theorem State.setTrace_cfgSeq (s : State) (k : Nat) (x : Trace) : (s.setTrace k x).cfgSeq = s.cfgSeq := rfl
@[simp] theorem State.setTrace_flash (s : State) (k : Nat) (x : Trace) : (s.setTrace k x).flash = s.flash := rfl
@[simp] theorem State.setTrace_jnl (s : State) (k : Nat) (x : Trace) : (s.setTrace k x).jnl = s.jnl := rfl
@[simp] theorem State.setTrace_sec (s : State) (k : Nat) (x : Trace) : (s.setTrace k x).sec = s.sec := rfl
@[simp] theorem State.setTrace_log (s : State) (k : Nat) (x : Trace) : (s.setTrace k x).log = s.log := rfl
@[simp] theorem State.setTrace_evHead (s : State) (k : Nat) (x : Trace) : (s.setTrace k x).evHead = s.evHead := rfl
@[simp] theorem State.setTrace_flds (s : State) (k : Nat) (x : Trace) : (s.setTrace k x).flds = s.flds := rfl
@[simp] theorem State.setTrace_refusedAt (s : State) (k : Nat) (x : Trace) : (s.setTrace k x).refusedAt = s.refusedAt := rfl
@[simp] theorem State.setTrace_mem (s : State) (k : Nat) (x : Trace) : (s.setTrace k x).mem = s.mem := rfl
@[simp] theorem State.setTrace_hostMem (s : State) (k : Nat) (x : Trace) : (s.setTrace k x).hostMem = s.hostMem := rfl
@[simp] theorem State.setTrace_poison (s : State) (k : Nat) (x : Trace) : (s.setTrace k x).poison = s.poison := rfl
@[simp] theorem State.setTrace_wordErr (s : State) (k : Nat) (x : Trace) : (s.setTrace k x).wordErr = s.wordErr := rfl
@[simp] theorem State.setTrace_feFull (s : State) (k : Nat) (x : Trace) : (s.setTrace k x).feFull = s.feFull := rfl
@[simp] theorem State.setTrace_feOwner (s : State) (k : Nat) (x : Trace) : (s.setTrace k x).feOwner = s.feOwner := rfl
@[simp] theorem State.setTrace_feOps (s : State) (k : Nat) (x : Trace) : (s.setTrace k x).feOps = s.feOps := rfl
@[simp] theorem State.setTrace_lats (s : State) (k : Nat) (x : Trace) : (s.setTrace k x).lats = s.lats := rfl
@[simp] theorem State.setTrace_combs (s : State) (k : Nat) (x : Trace) : (s.setTrace k x).combs = s.combs := rfl
@[simp] theorem State.setTrace_threads (s : State) (k : Nat) (x : Trace) : (s.setTrace k x).threads = s.threads := rfl
@[simp] theorem State.setTrace_ctxs (s : State) (k : Nat) (x : Trace) : (s.setTrace k x).ctxs = s.ctxs := rfl
@[simp] theorem State.setTrace_entries (s : State) (k : Nat) (x : Trace) : (s.setTrace k x).entries = s.entries := rfl
@[simp] theorem State.setTrace_admitQueue (s : State) (k : Nat) (x : Trace) : (s.setTrace k x).admitQueue = s.admitQueue := rfl
@[simp] theorem State.setTrace_issued (s : State) (k : Nat) (x : Trace) : (s.setTrace k x).issued = s.issued := rfl
@[simp] theorem State.setTrace_bays (s : State) (k : Nat) (x : Trace) : (s.setTrace k x).bays = s.bays := rfl
@[simp] theorem State.setTrace_cxl (s : State) (k : Nat) (x : Trace) : (s.setTrace k x).cxl = s.cxl := rfl
@[simp] theorem State.setTrace_ports (s : State) (k : Nat) (x : Trace) : (s.setTrace k x).ports = s.ports := rfl
@[simp] theorem State.setTrace_hnx (s : State) (k : Nat) (x : Trace) : (s.setTrace k x).hnx = s.hnx := rfl
@[simp] theorem State.setTrace_rings (s : State) (k : Nat) (x : Trace) : (s.setTrace k x).rings = s.rings := rfl
@[simp] theorem State.setTrace_coefs (s : State) (k : Nat) (x : Trace) : (s.setTrace k x).coefs = s.coefs := rfl
@[simp] theorem State.setTrace_clusters (s : State) (k : Nat) (x : Trace) : (s.setTrace k x).clusters = s.clusters := rfl
@[simp] theorem State.setTrace_convs (s : State) (k : Nat) (x : Trace) : (s.setTrace k x).convs = s.convs := rfl
@[simp] theorem State.setTrace_power (s : State) (k : Nat) (x : Trace) : (s.setTrace k x).power = s.power := rfl
@[simp] theorem State.setTrace_sensors (s : State) (k : Nat) (x : Trace) : (s.setTrace k x).sensors = s.sensors := rfl
@[simp] theorem State.setTrace_mgmt (s : State) (k : Nat) (x : Trace) : (s.setTrace k x).mgmt = s.mgmt := rfl
@[simp] theorem State.lat_setTrace (s : State) (k : Nat) (x : Trace) (j : Nat) : (s.setTrace k x).lat j = s.lat j := rfl
@[simp] theorem State.comb_setTrace (s : State) (k : Nat) (x : Trace) (j : Nat) : (s.setTrace k x).comb j = s.comb j := rfl
@[simp] theorem State.thread_setTrace (s : State) (k : Nat) (x : Trace) (j : Nat) : (s.setTrace k x).thread j = s.thread j := rfl
@[simp] theorem State.ctx_setTrace (s : State) (k : Nat) (x : Trace) (j : Nat) : (s.setTrace k x).ctx j = s.ctx j := rfl
@[simp] theorem State.entrySt_setTrace (s : State) (k : Nat) (x : Trace) (j : Nat) : (s.setTrace k x).entrySt j = s.entrySt j := rfl
@[simp] theorem State.bay_setTrace (s : State) (k : Nat) (x : Trace) (j : Nat) : (s.setTrace k x).bay j = s.bay j := rfl
@[simp] theorem State.port_setTrace (s : State) (k : Nat) (x : Trace) (j : Nat) : (s.setTrace k x).port j = s.port j := rfl
@[simp] theorem State.ring_setTrace (s : State) (k : Nat) (x : Trace) (j : Nat) : (s.setTrace k x).ring j = s.ring j := rfl
@[simp] theorem State.cluster_setTrace (s : State) (k : Nat) (x : Trace) (j : Nat) : (s.setTrace k x).cluster j = s.cluster j := rfl
@[simp] theorem State.conv_setTrace (s : State) (k : Nat) (x : Trace) (j : Nat) : (s.setTrace k x).conv j = s.conv j := rfl
@[simp] theorem State.sensor_setTrace (s : State) (k : Nat) (x : Trace) (j : Nat) : (s.setTrace k x).sensor j = s.sensor j := rfl
@[simp] theorem State.fldAt_setTrace (s : State) (k : Nat) (x : Trace) (e : Fld) (j o : Nat) : (s.setTrace k x).fldAt e j o = s.fldAt e j o := rfl
@[simp] theorem State.fld_setTrace (s : State) (k : Nat) (x : Trace) (e : Fld) (j : Nat) : (s.setTrace k x).fld e j = s.fld e j := rfl
@[simp] theorem State.flag_setTrace (s : State) (k : Nat) (x : Trace) (e : Fld) (j : Nat) : (s.setTrace k x).flag e j = s.flag e j := rfl
@[simp] theorem State.byte_setTrace (s : State) (k : Nat) (x : Trace) (j : Nat) : (s.setTrace k x).byte j = s.byte j := rfl
@[simp] theorem State.hostByte_setTrace (s : State) (k : Nat) (x : Trace) (j : Nat) : (s.setTrace k x).hostByte j = s.hostByte j := rfl
@[simp] theorem State.poisoned_setTrace (s : State) (k : Nat) (x : Trace) (j : Nat) : (s.setTrace k x).poisoned j = s.poisoned j := rfl
@[simp] theorem State.inService_setTrace (s : State) (k : Nat) (x : Trace) : (s.setTrace k x).inService = s.inService := rfl
@[simp] theorem State.served_setTrace (s : State) (k : Nat) (x : Trace) (j : Path) : (s.setTrace k x).served j = s.served j := rfl
@[simp] theorem State.tokenPerm_setTrace (s : State) (k : Nat) (x : Trace) (j : Nat) : (s.setTrace k x).tokenPerm j = s.tokenPerm j := rfl
@[simp] theorem State.bytes_setTrace (s : State) (k : Nat) (x : Trace) (j m : Nat) : (s.setTrace k x).bytes j m = s.bytes j m := rfl
@[simp] theorem State.readNat_setTrace (s : State) (k : Nat) (x : Trace) (j m : Nat) : (s.setTrace k x).readNat j m = s.readNat j m := rfl

/-! ## setSensor -/

@[simp] theorem State.setSensor_pending (s : State) (k : Nat) (x : Sensor) : (s.setSensor k x).pending = s.pending := rfl
@[simp] theorem State.setSensor_free (s : State) (k : Nat) (x : Sensor) : (s.setSensor k x).free = s.free := rfl
@[simp] theorem State.setSensor_reply (s : State) (k : Nat) (x : Sensor) : (s.setSensor k x).reply = s.reply := rfl
@[simp] theorem State.setSensor_time (s : State) (k : Nat) (x : Sensor) : (s.setSensor k x).time = s.time := rfl
@[simp] theorem State.setSensor_pins (s : State) (k : Nat) (x : Sensor) : (s.setSensor k x).pins = s.pins := rfl
@[simp] theorem State.setSensor_boot (s : State) (k : Nat) (x : Sensor) : (s.setSensor k x).boot = s.boot := rfl
@[simp] theorem State.setSensor_cfg (s : State) (k : Nat) (x : Sensor) : (s.setSensor k x).cfg = s.cfg := rfl
@[simp] theorem State.setSensor_cfgSeq (s : State) (k : Nat) (x : Sensor) : (s.setSensor k x).cfgSeq = s.cfgSeq := rfl
@[simp] theorem State.setSensor_flash (s : State) (k : Nat) (x : Sensor) : (s.setSensor k x).flash = s.flash := rfl
@[simp] theorem State.setSensor_jnl (s : State) (k : Nat) (x : Sensor) : (s.setSensor k x).jnl = s.jnl := rfl
@[simp] theorem State.setSensor_sec (s : State) (k : Nat) (x : Sensor) : (s.setSensor k x).sec = s.sec := rfl
@[simp] theorem State.setSensor_log (s : State) (k : Nat) (x : Sensor) : (s.setSensor k x).log = s.log := rfl
@[simp] theorem State.setSensor_evHead (s : State) (k : Nat) (x : Sensor) : (s.setSensor k x).evHead = s.evHead := rfl
@[simp] theorem State.setSensor_flds (s : State) (k : Nat) (x : Sensor) : (s.setSensor k x).flds = s.flds := rfl
@[simp] theorem State.setSensor_refusedAt (s : State) (k : Nat) (x : Sensor) : (s.setSensor k x).refusedAt = s.refusedAt := rfl
@[simp] theorem State.setSensor_mem (s : State) (k : Nat) (x : Sensor) : (s.setSensor k x).mem = s.mem := rfl
@[simp] theorem State.setSensor_hostMem (s : State) (k : Nat) (x : Sensor) : (s.setSensor k x).hostMem = s.hostMem := rfl
@[simp] theorem State.setSensor_poison (s : State) (k : Nat) (x : Sensor) : (s.setSensor k x).poison = s.poison := rfl
@[simp] theorem State.setSensor_wordErr (s : State) (k : Nat) (x : Sensor) : (s.setSensor k x).wordErr = s.wordErr := rfl
@[simp] theorem State.setSensor_feFull (s : State) (k : Nat) (x : Sensor) : (s.setSensor k x).feFull = s.feFull := rfl
@[simp] theorem State.setSensor_feOwner (s : State) (k : Nat) (x : Sensor) : (s.setSensor k x).feOwner = s.feOwner := rfl
@[simp] theorem State.setSensor_feOps (s : State) (k : Nat) (x : Sensor) : (s.setSensor k x).feOps = s.feOps := rfl
@[simp] theorem State.setSensor_lats (s : State) (k : Nat) (x : Sensor) : (s.setSensor k x).lats = s.lats := rfl
@[simp] theorem State.setSensor_combs (s : State) (k : Nat) (x : Sensor) : (s.setSensor k x).combs = s.combs := rfl
@[simp] theorem State.setSensor_threads (s : State) (k : Nat) (x : Sensor) : (s.setSensor k x).threads = s.threads := rfl
@[simp] theorem State.setSensor_ctxs (s : State) (k : Nat) (x : Sensor) : (s.setSensor k x).ctxs = s.ctxs := rfl
@[simp] theorem State.setSensor_entries (s : State) (k : Nat) (x : Sensor) : (s.setSensor k x).entries = s.entries := rfl
@[simp] theorem State.setSensor_admitQueue (s : State) (k : Nat) (x : Sensor) : (s.setSensor k x).admitQueue = s.admitQueue := rfl
@[simp] theorem State.setSensor_issued (s : State) (k : Nat) (x : Sensor) : (s.setSensor k x).issued = s.issued := rfl
@[simp] theorem State.setSensor_bays (s : State) (k : Nat) (x : Sensor) : (s.setSensor k x).bays = s.bays := rfl
@[simp] theorem State.setSensor_cxl (s : State) (k : Nat) (x : Sensor) : (s.setSensor k x).cxl = s.cxl := rfl
@[simp] theorem State.setSensor_ports (s : State) (k : Nat) (x : Sensor) : (s.setSensor k x).ports = s.ports := rfl
@[simp] theorem State.setSensor_hnx (s : State) (k : Nat) (x : Sensor) : (s.setSensor k x).hnx = s.hnx := rfl
@[simp] theorem State.setSensor_rings (s : State) (k : Nat) (x : Sensor) : (s.setSensor k x).rings = s.rings := rfl
@[simp] theorem State.setSensor_coefs (s : State) (k : Nat) (x : Sensor) : (s.setSensor k x).coefs = s.coefs := rfl
@[simp] theorem State.setSensor_clusters (s : State) (k : Nat) (x : Sensor) : (s.setSensor k x).clusters = s.clusters := rfl
@[simp] theorem State.setSensor_convs (s : State) (k : Nat) (x : Sensor) : (s.setSensor k x).convs = s.convs := rfl
@[simp] theorem State.setSensor_traces (s : State) (k : Nat) (x : Sensor) : (s.setSensor k x).traces = s.traces := rfl
@[simp] theorem State.setSensor_power (s : State) (k : Nat) (x : Sensor) : (s.setSensor k x).power = s.power := rfl
@[simp] theorem State.setSensor_mgmt (s : State) (k : Nat) (x : Sensor) : (s.setSensor k x).mgmt = s.mgmt := rfl
@[simp] theorem State.lat_setSensor (s : State) (k : Nat) (x : Sensor) (j : Nat) : (s.setSensor k x).lat j = s.lat j := rfl
@[simp] theorem State.comb_setSensor (s : State) (k : Nat) (x : Sensor) (j : Nat) : (s.setSensor k x).comb j = s.comb j := rfl
@[simp] theorem State.thread_setSensor (s : State) (k : Nat) (x : Sensor) (j : Nat) : (s.setSensor k x).thread j = s.thread j := rfl
@[simp] theorem State.ctx_setSensor (s : State) (k : Nat) (x : Sensor) (j : Nat) : (s.setSensor k x).ctx j = s.ctx j := rfl
@[simp] theorem State.entrySt_setSensor (s : State) (k : Nat) (x : Sensor) (j : Nat) : (s.setSensor k x).entrySt j = s.entrySt j := rfl
@[simp] theorem State.bay_setSensor (s : State) (k : Nat) (x : Sensor) (j : Nat) : (s.setSensor k x).bay j = s.bay j := rfl
@[simp] theorem State.port_setSensor (s : State) (k : Nat) (x : Sensor) (j : Nat) : (s.setSensor k x).port j = s.port j := rfl
@[simp] theorem State.ring_setSensor (s : State) (k : Nat) (x : Sensor) (j : Nat) : (s.setSensor k x).ring j = s.ring j := rfl
@[simp] theorem State.cluster_setSensor (s : State) (k : Nat) (x : Sensor) (j : Nat) : (s.setSensor k x).cluster j = s.cluster j := rfl
@[simp] theorem State.conv_setSensor (s : State) (k : Nat) (x : Sensor) (j : Nat) : (s.setSensor k x).conv j = s.conv j := rfl
@[simp] theorem State.trace_setSensor (s : State) (k : Nat) (x : Sensor) (j : Nat) : (s.setSensor k x).trace j = s.trace j := rfl
@[simp] theorem State.fldAt_setSensor (s : State) (k : Nat) (x : Sensor) (e : Fld) (j o : Nat) : (s.setSensor k x).fldAt e j o = s.fldAt e j o := rfl
@[simp] theorem State.fld_setSensor (s : State) (k : Nat) (x : Sensor) (e : Fld) (j : Nat) : (s.setSensor k x).fld e j = s.fld e j := rfl
@[simp] theorem State.flag_setSensor (s : State) (k : Nat) (x : Sensor) (e : Fld) (j : Nat) : (s.setSensor k x).flag e j = s.flag e j := rfl
@[simp] theorem State.byte_setSensor (s : State) (k : Nat) (x : Sensor) (j : Nat) : (s.setSensor k x).byte j = s.byte j := rfl
@[simp] theorem State.hostByte_setSensor (s : State) (k : Nat) (x : Sensor) (j : Nat) : (s.setSensor k x).hostByte j = s.hostByte j := rfl
@[simp] theorem State.poisoned_setSensor (s : State) (k : Nat) (x : Sensor) (j : Nat) : (s.setSensor k x).poisoned j = s.poisoned j := rfl
@[simp] theorem State.inService_setSensor (s : State) (k : Nat) (x : Sensor) : (s.setSensor k x).inService = s.inService := rfl
@[simp] theorem State.served_setSensor (s : State) (k : Nat) (x : Sensor) (j : Path) : (s.setSensor k x).served j = s.served j := rfl
@[simp] theorem State.tokenPerm_setSensor (s : State) (k : Nat) (x : Sensor) (j : Nat) : (s.setSensor k x).tokenPerm j = s.tokenPerm j := rfl
@[simp] theorem State.bytes_setSensor (s : State) (k : Nat) (x : Sensor) (j m : Nat) : (s.setSensor k x).bytes j m = s.bytes j m := rfl
@[simp] theorem State.readNat_setSensor (s : State) (k : Nat) (x : Sensor) (j m : Nat) : (s.setSensor k x).readNat j m = s.readNat j m := rfl

/-! ## modLat -/

@[simp] theorem State.modLat_pending (s : State) (l : Nat) (f : Lattice → Lattice) : (s.modLat l f).pending = s.pending := rfl
@[simp] theorem State.modLat_free (s : State) (l : Nat) (f : Lattice → Lattice) : (s.modLat l f).free = s.free := rfl
@[simp] theorem State.modLat_reply (s : State) (l : Nat) (f : Lattice → Lattice) : (s.modLat l f).reply = s.reply := rfl
@[simp] theorem State.modLat_time (s : State) (l : Nat) (f : Lattice → Lattice) : (s.modLat l f).time = s.time := rfl
@[simp] theorem State.modLat_pins (s : State) (l : Nat) (f : Lattice → Lattice) : (s.modLat l f).pins = s.pins := rfl
@[simp] theorem State.modLat_boot (s : State) (l : Nat) (f : Lattice → Lattice) : (s.modLat l f).boot = s.boot := rfl
@[simp] theorem State.modLat_cfg (s : State) (l : Nat) (f : Lattice → Lattice) : (s.modLat l f).cfg = s.cfg := rfl
@[simp] theorem State.modLat_cfgSeq (s : State) (l : Nat) (f : Lattice → Lattice) : (s.modLat l f).cfgSeq = s.cfgSeq := rfl
@[simp] theorem State.modLat_flash (s : State) (l : Nat) (f : Lattice → Lattice) : (s.modLat l f).flash = s.flash := rfl
@[simp] theorem State.modLat_jnl (s : State) (l : Nat) (f : Lattice → Lattice) : (s.modLat l f).jnl = s.jnl := rfl
@[simp] theorem State.modLat_sec (s : State) (l : Nat) (f : Lattice → Lattice) : (s.modLat l f).sec = s.sec := rfl
@[simp] theorem State.modLat_log (s : State) (l : Nat) (f : Lattice → Lattice) : (s.modLat l f).log = s.log := rfl
@[simp] theorem State.modLat_evHead (s : State) (l : Nat) (f : Lattice → Lattice) : (s.modLat l f).evHead = s.evHead := rfl
@[simp] theorem State.modLat_flds (s : State) (l : Nat) (f : Lattice → Lattice) : (s.modLat l f).flds = s.flds := rfl
@[simp] theorem State.modLat_refusedAt (s : State) (l : Nat) (f : Lattice → Lattice) : (s.modLat l f).refusedAt = s.refusedAt := rfl
@[simp] theorem State.modLat_mem (s : State) (l : Nat) (f : Lattice → Lattice) : (s.modLat l f).mem = s.mem := rfl
@[simp] theorem State.modLat_hostMem (s : State) (l : Nat) (f : Lattice → Lattice) : (s.modLat l f).hostMem = s.hostMem := rfl
@[simp] theorem State.modLat_poison (s : State) (l : Nat) (f : Lattice → Lattice) : (s.modLat l f).poison = s.poison := rfl
@[simp] theorem State.modLat_wordErr (s : State) (l : Nat) (f : Lattice → Lattice) : (s.modLat l f).wordErr = s.wordErr := rfl
@[simp] theorem State.modLat_feFull (s : State) (l : Nat) (f : Lattice → Lattice) : (s.modLat l f).feFull = s.feFull := rfl
@[simp] theorem State.modLat_feOwner (s : State) (l : Nat) (f : Lattice → Lattice) : (s.modLat l f).feOwner = s.feOwner := rfl
@[simp] theorem State.modLat_feOps (s : State) (l : Nat) (f : Lattice → Lattice) : (s.modLat l f).feOps = s.feOps := rfl
@[simp] theorem State.modLat_combs (s : State) (l : Nat) (f : Lattice → Lattice) : (s.modLat l f).combs = s.combs := rfl
@[simp] theorem State.modLat_threads (s : State) (l : Nat) (f : Lattice → Lattice) : (s.modLat l f).threads = s.threads := rfl
@[simp] theorem State.modLat_ctxs (s : State) (l : Nat) (f : Lattice → Lattice) : (s.modLat l f).ctxs = s.ctxs := rfl
@[simp] theorem State.modLat_entries (s : State) (l : Nat) (f : Lattice → Lattice) : (s.modLat l f).entries = s.entries := rfl
@[simp] theorem State.modLat_admitQueue (s : State) (l : Nat) (f : Lattice → Lattice) : (s.modLat l f).admitQueue = s.admitQueue := rfl
@[simp] theorem State.modLat_issued (s : State) (l : Nat) (f : Lattice → Lattice) : (s.modLat l f).issued = s.issued := rfl
@[simp] theorem State.modLat_bays (s : State) (l : Nat) (f : Lattice → Lattice) : (s.modLat l f).bays = s.bays := rfl
@[simp] theorem State.modLat_cxl (s : State) (l : Nat) (f : Lattice → Lattice) : (s.modLat l f).cxl = s.cxl := rfl
@[simp] theorem State.modLat_ports (s : State) (l : Nat) (f : Lattice → Lattice) : (s.modLat l f).ports = s.ports := rfl
@[simp] theorem State.modLat_hnx (s : State) (l : Nat) (f : Lattice → Lattice) : (s.modLat l f).hnx = s.hnx := rfl
@[simp] theorem State.modLat_rings (s : State) (l : Nat) (f : Lattice → Lattice) : (s.modLat l f).rings = s.rings := rfl
@[simp] theorem State.modLat_coefs (s : State) (l : Nat) (f : Lattice → Lattice) : (s.modLat l f).coefs = s.coefs := rfl
@[simp] theorem State.modLat_clusters (s : State) (l : Nat) (f : Lattice → Lattice) : (s.modLat l f).clusters = s.clusters := rfl
@[simp] theorem State.modLat_convs (s : State) (l : Nat) (f : Lattice → Lattice) : (s.modLat l f).convs = s.convs := rfl
@[simp] theorem State.modLat_traces (s : State) (l : Nat) (f : Lattice → Lattice) : (s.modLat l f).traces = s.traces := rfl
@[simp] theorem State.modLat_power (s : State) (l : Nat) (f : Lattice → Lattice) : (s.modLat l f).power = s.power := rfl
@[simp] theorem State.modLat_sensors (s : State) (l : Nat) (f : Lattice → Lattice) : (s.modLat l f).sensors = s.sensors := rfl
@[simp] theorem State.modLat_mgmt (s : State) (l : Nat) (f : Lattice → Lattice) : (s.modLat l f).mgmt = s.mgmt := rfl
@[simp] theorem State.comb_modLat (s : State) (l : Nat) (f : Lattice → Lattice) (j : Nat) : (s.modLat l f).comb j = s.comb j := rfl
@[simp] theorem State.thread_modLat (s : State) (l : Nat) (f : Lattice → Lattice) (j : Nat) : (s.modLat l f).thread j = s.thread j := rfl
@[simp] theorem State.ctx_modLat (s : State) (l : Nat) (f : Lattice → Lattice) (j : Nat) : (s.modLat l f).ctx j = s.ctx j := rfl
@[simp] theorem State.entrySt_modLat (s : State) (l : Nat) (f : Lattice → Lattice) (j : Nat) : (s.modLat l f).entrySt j = s.entrySt j := rfl
@[simp] theorem State.bay_modLat (s : State) (l : Nat) (f : Lattice → Lattice) (j : Nat) : (s.modLat l f).bay j = s.bay j := rfl
@[simp] theorem State.port_modLat (s : State) (l : Nat) (f : Lattice → Lattice) (j : Nat) : (s.modLat l f).port j = s.port j := rfl
@[simp] theorem State.ring_modLat (s : State) (l : Nat) (f : Lattice → Lattice) (j : Nat) : (s.modLat l f).ring j = s.ring j := rfl
@[simp] theorem State.cluster_modLat (s : State) (l : Nat) (f : Lattice → Lattice) (j : Nat) : (s.modLat l f).cluster j = s.cluster j := rfl
@[simp] theorem State.conv_modLat (s : State) (l : Nat) (f : Lattice → Lattice) (j : Nat) : (s.modLat l f).conv j = s.conv j := rfl
@[simp] theorem State.trace_modLat (s : State) (l : Nat) (f : Lattice → Lattice) (j : Nat) : (s.modLat l f).trace j = s.trace j := rfl
@[simp] theorem State.sensor_modLat (s : State) (l : Nat) (f : Lattice → Lattice) (j : Nat) : (s.modLat l f).sensor j = s.sensor j := rfl
@[simp] theorem State.fldAt_modLat (s : State) (l : Nat) (f : Lattice → Lattice) (e : Fld) (j o : Nat) : (s.modLat l f).fldAt e j o = s.fldAt e j o := rfl
@[simp] theorem State.fld_modLat (s : State) (l : Nat) (f : Lattice → Lattice) (e : Fld) (j : Nat) : (s.modLat l f).fld e j = s.fld e j := rfl
@[simp] theorem State.flag_modLat (s : State) (l : Nat) (f : Lattice → Lattice) (e : Fld) (j : Nat) : (s.modLat l f).flag e j = s.flag e j := rfl
@[simp] theorem State.byte_modLat (s : State) (l : Nat) (f : Lattice → Lattice) (j : Nat) : (s.modLat l f).byte j = s.byte j := rfl
@[simp] theorem State.hostByte_modLat (s : State) (l : Nat) (f : Lattice → Lattice) (j : Nat) : (s.modLat l f).hostByte j = s.hostByte j := rfl
@[simp] theorem State.poisoned_modLat (s : State) (l : Nat) (f : Lattice → Lattice) (j : Nat) : (s.modLat l f).poisoned j = s.poisoned j := rfl
@[simp] theorem State.inService_modLat (s : State) (l : Nat) (f : Lattice → Lattice) : (s.modLat l f).inService = s.inService := rfl
@[simp] theorem State.served_modLat (s : State) (l : Nat) (f : Lattice → Lattice) (j : Path) : (s.modLat l f).served j = s.served j := rfl
@[simp] theorem State.tokenPerm_modLat (s : State) (l : Nat) (f : Lattice → Lattice) (j : Nat) : (s.modLat l f).tokenPerm j = s.tokenPerm j := rfl
@[simp] theorem State.bytes_modLat (s : State) (l : Nat) (f : Lattice → Lattice) (j m : Nat) : (s.modLat l f).bytes j m = s.bytes j m := rfl
@[simp] theorem State.readNat_modLat (s : State) (l : Nat) (f : Lattice → Lattice) (j m : Nat) : (s.modLat l f).readNat j m = s.readNat j m := rfl

/-! ## modComb -/

@[simp] theorem State.modComb_pending (s : State) (h : Nat) (f : Comb → Comb) : (s.modComb h f).pending = s.pending := rfl
@[simp] theorem State.modComb_free (s : State) (h : Nat) (f : Comb → Comb) : (s.modComb h f).free = s.free := rfl
@[simp] theorem State.modComb_reply (s : State) (h : Nat) (f : Comb → Comb) : (s.modComb h f).reply = s.reply := rfl
@[simp] theorem State.modComb_time (s : State) (h : Nat) (f : Comb → Comb) : (s.modComb h f).time = s.time := rfl
@[simp] theorem State.modComb_pins (s : State) (h : Nat) (f : Comb → Comb) : (s.modComb h f).pins = s.pins := rfl
@[simp] theorem State.modComb_boot (s : State) (h : Nat) (f : Comb → Comb) : (s.modComb h f).boot = s.boot := rfl
@[simp] theorem State.modComb_cfg (s : State) (h : Nat) (f : Comb → Comb) : (s.modComb h f).cfg = s.cfg := rfl
@[simp] theorem State.modComb_cfgSeq (s : State) (h : Nat) (f : Comb → Comb) : (s.modComb h f).cfgSeq = s.cfgSeq := rfl
@[simp] theorem State.modComb_flash (s : State) (h : Nat) (f : Comb → Comb) : (s.modComb h f).flash = s.flash := rfl
@[simp] theorem State.modComb_jnl (s : State) (h : Nat) (f : Comb → Comb) : (s.modComb h f).jnl = s.jnl := rfl
@[simp] theorem State.modComb_sec (s : State) (h : Nat) (f : Comb → Comb) : (s.modComb h f).sec = s.sec := rfl
@[simp] theorem State.modComb_log (s : State) (h : Nat) (f : Comb → Comb) : (s.modComb h f).log = s.log := rfl
@[simp] theorem State.modComb_evHead (s : State) (h : Nat) (f : Comb → Comb) : (s.modComb h f).evHead = s.evHead := rfl
@[simp] theorem State.modComb_flds (s : State) (h : Nat) (f : Comb → Comb) : (s.modComb h f).flds = s.flds := rfl
@[simp] theorem State.modComb_refusedAt (s : State) (h : Nat) (f : Comb → Comb) : (s.modComb h f).refusedAt = s.refusedAt := rfl
@[simp] theorem State.modComb_mem (s : State) (h : Nat) (f : Comb → Comb) : (s.modComb h f).mem = s.mem := rfl
@[simp] theorem State.modComb_hostMem (s : State) (h : Nat) (f : Comb → Comb) : (s.modComb h f).hostMem = s.hostMem := rfl
@[simp] theorem State.modComb_poison (s : State) (h : Nat) (f : Comb → Comb) : (s.modComb h f).poison = s.poison := rfl
@[simp] theorem State.modComb_wordErr (s : State) (h : Nat) (f : Comb → Comb) : (s.modComb h f).wordErr = s.wordErr := rfl
@[simp] theorem State.modComb_feFull (s : State) (h : Nat) (f : Comb → Comb) : (s.modComb h f).feFull = s.feFull := rfl
@[simp] theorem State.modComb_feOwner (s : State) (h : Nat) (f : Comb → Comb) : (s.modComb h f).feOwner = s.feOwner := rfl
@[simp] theorem State.modComb_feOps (s : State) (h : Nat) (f : Comb → Comb) : (s.modComb h f).feOps = s.feOps := rfl
@[simp] theorem State.modComb_lats (s : State) (h : Nat) (f : Comb → Comb) : (s.modComb h f).lats = s.lats := rfl
@[simp] theorem State.modComb_threads (s : State) (h : Nat) (f : Comb → Comb) : (s.modComb h f).threads = s.threads := rfl
@[simp] theorem State.modComb_ctxs (s : State) (h : Nat) (f : Comb → Comb) : (s.modComb h f).ctxs = s.ctxs := rfl
@[simp] theorem State.modComb_entries (s : State) (h : Nat) (f : Comb → Comb) : (s.modComb h f).entries = s.entries := rfl
@[simp] theorem State.modComb_admitQueue (s : State) (h : Nat) (f : Comb → Comb) : (s.modComb h f).admitQueue = s.admitQueue := rfl
@[simp] theorem State.modComb_issued (s : State) (h : Nat) (f : Comb → Comb) : (s.modComb h f).issued = s.issued := rfl
@[simp] theorem State.modComb_bays (s : State) (h : Nat) (f : Comb → Comb) : (s.modComb h f).bays = s.bays := rfl
@[simp] theorem State.modComb_cxl (s : State) (h : Nat) (f : Comb → Comb) : (s.modComb h f).cxl = s.cxl := rfl
@[simp] theorem State.modComb_ports (s : State) (h : Nat) (f : Comb → Comb) : (s.modComb h f).ports = s.ports := rfl
@[simp] theorem State.modComb_hnx (s : State) (h : Nat) (f : Comb → Comb) : (s.modComb h f).hnx = s.hnx := rfl
@[simp] theorem State.modComb_rings (s : State) (h : Nat) (f : Comb → Comb) : (s.modComb h f).rings = s.rings := rfl
@[simp] theorem State.modComb_coefs (s : State) (h : Nat) (f : Comb → Comb) : (s.modComb h f).coefs = s.coefs := rfl
@[simp] theorem State.modComb_clusters (s : State) (h : Nat) (f : Comb → Comb) : (s.modComb h f).clusters = s.clusters := rfl
@[simp] theorem State.modComb_convs (s : State) (h : Nat) (f : Comb → Comb) : (s.modComb h f).convs = s.convs := rfl
@[simp] theorem State.modComb_traces (s : State) (h : Nat) (f : Comb → Comb) : (s.modComb h f).traces = s.traces := rfl
@[simp] theorem State.modComb_power (s : State) (h : Nat) (f : Comb → Comb) : (s.modComb h f).power = s.power := rfl
@[simp] theorem State.modComb_sensors (s : State) (h : Nat) (f : Comb → Comb) : (s.modComb h f).sensors = s.sensors := rfl
@[simp] theorem State.modComb_mgmt (s : State) (h : Nat) (f : Comb → Comb) : (s.modComb h f).mgmt = s.mgmt := rfl
@[simp] theorem State.lat_modComb (s : State) (h : Nat) (f : Comb → Comb) (j : Nat) : (s.modComb h f).lat j = s.lat j := rfl
@[simp] theorem State.thread_modComb (s : State) (h : Nat) (f : Comb → Comb) (j : Nat) : (s.modComb h f).thread j = s.thread j := rfl
@[simp] theorem State.ctx_modComb (s : State) (h : Nat) (f : Comb → Comb) (j : Nat) : (s.modComb h f).ctx j = s.ctx j := rfl
@[simp] theorem State.entrySt_modComb (s : State) (h : Nat) (f : Comb → Comb) (j : Nat) : (s.modComb h f).entrySt j = s.entrySt j := rfl
@[simp] theorem State.bay_modComb (s : State) (h : Nat) (f : Comb → Comb) (j : Nat) : (s.modComb h f).bay j = s.bay j := rfl
@[simp] theorem State.port_modComb (s : State) (h : Nat) (f : Comb → Comb) (j : Nat) : (s.modComb h f).port j = s.port j := rfl
@[simp] theorem State.ring_modComb (s : State) (h : Nat) (f : Comb → Comb) (j : Nat) : (s.modComb h f).ring j = s.ring j := rfl
@[simp] theorem State.cluster_modComb (s : State) (h : Nat) (f : Comb → Comb) (j : Nat) : (s.modComb h f).cluster j = s.cluster j := rfl
@[simp] theorem State.conv_modComb (s : State) (h : Nat) (f : Comb → Comb) (j : Nat) : (s.modComb h f).conv j = s.conv j := rfl
@[simp] theorem State.trace_modComb (s : State) (h : Nat) (f : Comb → Comb) (j : Nat) : (s.modComb h f).trace j = s.trace j := rfl
@[simp] theorem State.sensor_modComb (s : State) (h : Nat) (f : Comb → Comb) (j : Nat) : (s.modComb h f).sensor j = s.sensor j := rfl
@[simp] theorem State.fldAt_modComb (s : State) (h : Nat) (f : Comb → Comb) (e : Fld) (j o : Nat) : (s.modComb h f).fldAt e j o = s.fldAt e j o := rfl
@[simp] theorem State.fld_modComb (s : State) (h : Nat) (f : Comb → Comb) (e : Fld) (j : Nat) : (s.modComb h f).fld e j = s.fld e j := rfl
@[simp] theorem State.flag_modComb (s : State) (h : Nat) (f : Comb → Comb) (e : Fld) (j : Nat) : (s.modComb h f).flag e j = s.flag e j := rfl
@[simp] theorem State.byte_modComb (s : State) (h : Nat) (f : Comb → Comb) (j : Nat) : (s.modComb h f).byte j = s.byte j := rfl
@[simp] theorem State.hostByte_modComb (s : State) (h : Nat) (f : Comb → Comb) (j : Nat) : (s.modComb h f).hostByte j = s.hostByte j := rfl
@[simp] theorem State.poisoned_modComb (s : State) (h : Nat) (f : Comb → Comb) (j : Nat) : (s.modComb h f).poisoned j = s.poisoned j := rfl
@[simp] theorem State.inService_modComb (s : State) (h : Nat) (f : Comb → Comb) : (s.modComb h f).inService = s.inService := rfl
@[simp] theorem State.served_modComb (s : State) (h : Nat) (f : Comb → Comb) (j : Path) : (s.modComb h f).served j = s.served j := rfl
@[simp] theorem State.tokenPerm_modComb (s : State) (h : Nat) (f : Comb → Comb) (j : Nat) : (s.modComb h f).tokenPerm j = s.tokenPerm j := rfl
@[simp] theorem State.bytes_modComb (s : State) (h : Nat) (f : Comb → Comb) (j m : Nat) : (s.modComb h f).bytes j m = s.bytes j m := rfl
@[simp] theorem State.readNat_modComb (s : State) (h : Nat) (f : Comb → Comb) (j m : Nat) : (s.modComb h f).readNat j m = s.readNat j m := rfl

/-! ## modThread -/

@[simp] theorem State.modThread_pending (s : State) (t : Nat) (f : Thread → Thread) : (s.modThread t f).pending = s.pending := rfl
@[simp] theorem State.modThread_free (s : State) (t : Nat) (f : Thread → Thread) : (s.modThread t f).free = s.free := rfl
@[simp] theorem State.modThread_reply (s : State) (t : Nat) (f : Thread → Thread) : (s.modThread t f).reply = s.reply := rfl
@[simp] theorem State.modThread_time (s : State) (t : Nat) (f : Thread → Thread) : (s.modThread t f).time = s.time := rfl
@[simp] theorem State.modThread_pins (s : State) (t : Nat) (f : Thread → Thread) : (s.modThread t f).pins = s.pins := rfl
@[simp] theorem State.modThread_boot (s : State) (t : Nat) (f : Thread → Thread) : (s.modThread t f).boot = s.boot := rfl
@[simp] theorem State.modThread_cfg (s : State) (t : Nat) (f : Thread → Thread) : (s.modThread t f).cfg = s.cfg := rfl
@[simp] theorem State.modThread_cfgSeq (s : State) (t : Nat) (f : Thread → Thread) : (s.modThread t f).cfgSeq = s.cfgSeq := rfl
@[simp] theorem State.modThread_flash (s : State) (t : Nat) (f : Thread → Thread) : (s.modThread t f).flash = s.flash := rfl
@[simp] theorem State.modThread_jnl (s : State) (t : Nat) (f : Thread → Thread) : (s.modThread t f).jnl = s.jnl := rfl
@[simp] theorem State.modThread_sec (s : State) (t : Nat) (f : Thread → Thread) : (s.modThread t f).sec = s.sec := rfl
@[simp] theorem State.modThread_log (s : State) (t : Nat) (f : Thread → Thread) : (s.modThread t f).log = s.log := rfl
@[simp] theorem State.modThread_evHead (s : State) (t : Nat) (f : Thread → Thread) : (s.modThread t f).evHead = s.evHead := rfl
@[simp] theorem State.modThread_flds (s : State) (t : Nat) (f : Thread → Thread) : (s.modThread t f).flds = s.flds := rfl
@[simp] theorem State.modThread_refusedAt (s : State) (t : Nat) (f : Thread → Thread) : (s.modThread t f).refusedAt = s.refusedAt := rfl
@[simp] theorem State.modThread_mem (s : State) (t : Nat) (f : Thread → Thread) : (s.modThread t f).mem = s.mem := rfl
@[simp] theorem State.modThread_hostMem (s : State) (t : Nat) (f : Thread → Thread) : (s.modThread t f).hostMem = s.hostMem := rfl
@[simp] theorem State.modThread_poison (s : State) (t : Nat) (f : Thread → Thread) : (s.modThread t f).poison = s.poison := rfl
@[simp] theorem State.modThread_wordErr (s : State) (t : Nat) (f : Thread → Thread) : (s.modThread t f).wordErr = s.wordErr := rfl
@[simp] theorem State.modThread_feFull (s : State) (t : Nat) (f : Thread → Thread) : (s.modThread t f).feFull = s.feFull := rfl
@[simp] theorem State.modThread_feOwner (s : State) (t : Nat) (f : Thread → Thread) : (s.modThread t f).feOwner = s.feOwner := rfl
@[simp] theorem State.modThread_feOps (s : State) (t : Nat) (f : Thread → Thread) : (s.modThread t f).feOps = s.feOps := rfl
@[simp] theorem State.modThread_lats (s : State) (t : Nat) (f : Thread → Thread) : (s.modThread t f).lats = s.lats := rfl
@[simp] theorem State.modThread_combs (s : State) (t : Nat) (f : Thread → Thread) : (s.modThread t f).combs = s.combs := rfl
@[simp] theorem State.modThread_ctxs (s : State) (t : Nat) (f : Thread → Thread) : (s.modThread t f).ctxs = s.ctxs := rfl
@[simp] theorem State.modThread_entries (s : State) (t : Nat) (f : Thread → Thread) : (s.modThread t f).entries = s.entries := rfl
@[simp] theorem State.modThread_admitQueue (s : State) (t : Nat) (f : Thread → Thread) : (s.modThread t f).admitQueue = s.admitQueue := rfl
@[simp] theorem State.modThread_issued (s : State) (t : Nat) (f : Thread → Thread) : (s.modThread t f).issued = s.issued := rfl
@[simp] theorem State.modThread_bays (s : State) (t : Nat) (f : Thread → Thread) : (s.modThread t f).bays = s.bays := rfl
@[simp] theorem State.modThread_cxl (s : State) (t : Nat) (f : Thread → Thread) : (s.modThread t f).cxl = s.cxl := rfl
@[simp] theorem State.modThread_ports (s : State) (t : Nat) (f : Thread → Thread) : (s.modThread t f).ports = s.ports := rfl
@[simp] theorem State.modThread_hnx (s : State) (t : Nat) (f : Thread → Thread) : (s.modThread t f).hnx = s.hnx := rfl
@[simp] theorem State.modThread_rings (s : State) (t : Nat) (f : Thread → Thread) : (s.modThread t f).rings = s.rings := rfl
@[simp] theorem State.modThread_coefs (s : State) (t : Nat) (f : Thread → Thread) : (s.modThread t f).coefs = s.coefs := rfl
@[simp] theorem State.modThread_clusters (s : State) (t : Nat) (f : Thread → Thread) : (s.modThread t f).clusters = s.clusters := rfl
@[simp] theorem State.modThread_convs (s : State) (t : Nat) (f : Thread → Thread) : (s.modThread t f).convs = s.convs := rfl
@[simp] theorem State.modThread_traces (s : State) (t : Nat) (f : Thread → Thread) : (s.modThread t f).traces = s.traces := rfl
@[simp] theorem State.modThread_power (s : State) (t : Nat) (f : Thread → Thread) : (s.modThread t f).power = s.power := rfl
@[simp] theorem State.modThread_sensors (s : State) (t : Nat) (f : Thread → Thread) : (s.modThread t f).sensors = s.sensors := rfl
@[simp] theorem State.modThread_mgmt (s : State) (t : Nat) (f : Thread → Thread) : (s.modThread t f).mgmt = s.mgmt := rfl
@[simp] theorem State.lat_modThread (s : State) (t : Nat) (f : Thread → Thread) (j : Nat) : (s.modThread t f).lat j = s.lat j := rfl
@[simp] theorem State.comb_modThread (s : State) (t : Nat) (f : Thread → Thread) (j : Nat) : (s.modThread t f).comb j = s.comb j := rfl
@[simp] theorem State.ctx_modThread (s : State) (t : Nat) (f : Thread → Thread) (j : Nat) : (s.modThread t f).ctx j = s.ctx j := rfl
@[simp] theorem State.entrySt_modThread (s : State) (t : Nat) (f : Thread → Thread) (j : Nat) : (s.modThread t f).entrySt j = s.entrySt j := rfl
@[simp] theorem State.bay_modThread (s : State) (t : Nat) (f : Thread → Thread) (j : Nat) : (s.modThread t f).bay j = s.bay j := rfl
@[simp] theorem State.port_modThread (s : State) (t : Nat) (f : Thread → Thread) (j : Nat) : (s.modThread t f).port j = s.port j := rfl
@[simp] theorem State.ring_modThread (s : State) (t : Nat) (f : Thread → Thread) (j : Nat) : (s.modThread t f).ring j = s.ring j := rfl
@[simp] theorem State.cluster_modThread (s : State) (t : Nat) (f : Thread → Thread) (j : Nat) : (s.modThread t f).cluster j = s.cluster j := rfl
@[simp] theorem State.conv_modThread (s : State) (t : Nat) (f : Thread → Thread) (j : Nat) : (s.modThread t f).conv j = s.conv j := rfl
@[simp] theorem State.trace_modThread (s : State) (t : Nat) (f : Thread → Thread) (j : Nat) : (s.modThread t f).trace j = s.trace j := rfl
@[simp] theorem State.sensor_modThread (s : State) (t : Nat) (f : Thread → Thread) (j : Nat) : (s.modThread t f).sensor j = s.sensor j := rfl
@[simp] theorem State.fldAt_modThread (s : State) (t : Nat) (f : Thread → Thread) (e : Fld) (j o : Nat) : (s.modThread t f).fldAt e j o = s.fldAt e j o := rfl
@[simp] theorem State.fld_modThread (s : State) (t : Nat) (f : Thread → Thread) (e : Fld) (j : Nat) : (s.modThread t f).fld e j = s.fld e j := rfl
@[simp] theorem State.flag_modThread (s : State) (t : Nat) (f : Thread → Thread) (e : Fld) (j : Nat) : (s.modThread t f).flag e j = s.flag e j := rfl
@[simp] theorem State.byte_modThread (s : State) (t : Nat) (f : Thread → Thread) (j : Nat) : (s.modThread t f).byte j = s.byte j := rfl
@[simp] theorem State.hostByte_modThread (s : State) (t : Nat) (f : Thread → Thread) (j : Nat) : (s.modThread t f).hostByte j = s.hostByte j := rfl
@[simp] theorem State.poisoned_modThread (s : State) (t : Nat) (f : Thread → Thread) (j : Nat) : (s.modThread t f).poisoned j = s.poisoned j := rfl
@[simp] theorem State.inService_modThread (s : State) (t : Nat) (f : Thread → Thread) : (s.modThread t f).inService = s.inService := rfl
@[simp] theorem State.served_modThread (s : State) (t : Nat) (f : Thread → Thread) (j : Path) : (s.modThread t f).served j = s.served j := rfl
@[simp] theorem State.tokenPerm_modThread (s : State) (t : Nat) (f : Thread → Thread) (j : Nat) : (s.modThread t f).tokenPerm j = s.tokenPerm j := rfl
@[simp] theorem State.bytes_modThread (s : State) (t : Nat) (f : Thread → Thread) (j m : Nat) : (s.modThread t f).bytes j m = s.bytes j m := rfl
@[simp] theorem State.readNat_modThread (s : State) (t : Nat) (f : Thread → Thread) (j m : Nat) : (s.modThread t f).readNat j m = s.readNat j m := rfl

/-! ## modCtx -/

@[simp] theorem State.modCtx_pending (s : State) (c : Nat) (f : Ctx → Ctx) : (s.modCtx c f).pending = s.pending := rfl
@[simp] theorem State.modCtx_free (s : State) (c : Nat) (f : Ctx → Ctx) : (s.modCtx c f).free = s.free := rfl
@[simp] theorem State.modCtx_reply (s : State) (c : Nat) (f : Ctx → Ctx) : (s.modCtx c f).reply = s.reply := rfl
@[simp] theorem State.modCtx_time (s : State) (c : Nat) (f : Ctx → Ctx) : (s.modCtx c f).time = s.time := rfl
@[simp] theorem State.modCtx_pins (s : State) (c : Nat) (f : Ctx → Ctx) : (s.modCtx c f).pins = s.pins := rfl
@[simp] theorem State.modCtx_boot (s : State) (c : Nat) (f : Ctx → Ctx) : (s.modCtx c f).boot = s.boot := rfl
@[simp] theorem State.modCtx_cfg (s : State) (c : Nat) (f : Ctx → Ctx) : (s.modCtx c f).cfg = s.cfg := rfl
@[simp] theorem State.modCtx_cfgSeq (s : State) (c : Nat) (f : Ctx → Ctx) : (s.modCtx c f).cfgSeq = s.cfgSeq := rfl
@[simp] theorem State.modCtx_flash (s : State) (c : Nat) (f : Ctx → Ctx) : (s.modCtx c f).flash = s.flash := rfl
@[simp] theorem State.modCtx_jnl (s : State) (c : Nat) (f : Ctx → Ctx) : (s.modCtx c f).jnl = s.jnl := rfl
@[simp] theorem State.modCtx_sec (s : State) (c : Nat) (f : Ctx → Ctx) : (s.modCtx c f).sec = s.sec := rfl
@[simp] theorem State.modCtx_log (s : State) (c : Nat) (f : Ctx → Ctx) : (s.modCtx c f).log = s.log := rfl
@[simp] theorem State.modCtx_evHead (s : State) (c : Nat) (f : Ctx → Ctx) : (s.modCtx c f).evHead = s.evHead := rfl
@[simp] theorem State.modCtx_flds (s : State) (c : Nat) (f : Ctx → Ctx) : (s.modCtx c f).flds = s.flds := rfl
@[simp] theorem State.modCtx_refusedAt (s : State) (c : Nat) (f : Ctx → Ctx) : (s.modCtx c f).refusedAt = s.refusedAt := rfl
@[simp] theorem State.modCtx_mem (s : State) (c : Nat) (f : Ctx → Ctx) : (s.modCtx c f).mem = s.mem := rfl
@[simp] theorem State.modCtx_hostMem (s : State) (c : Nat) (f : Ctx → Ctx) : (s.modCtx c f).hostMem = s.hostMem := rfl
@[simp] theorem State.modCtx_poison (s : State) (c : Nat) (f : Ctx → Ctx) : (s.modCtx c f).poison = s.poison := rfl
@[simp] theorem State.modCtx_wordErr (s : State) (c : Nat) (f : Ctx → Ctx) : (s.modCtx c f).wordErr = s.wordErr := rfl
@[simp] theorem State.modCtx_feFull (s : State) (c : Nat) (f : Ctx → Ctx) : (s.modCtx c f).feFull = s.feFull := rfl
@[simp] theorem State.modCtx_feOwner (s : State) (c : Nat) (f : Ctx → Ctx) : (s.modCtx c f).feOwner = s.feOwner := rfl
@[simp] theorem State.modCtx_feOps (s : State) (c : Nat) (f : Ctx → Ctx) : (s.modCtx c f).feOps = s.feOps := rfl
@[simp] theorem State.modCtx_lats (s : State) (c : Nat) (f : Ctx → Ctx) : (s.modCtx c f).lats = s.lats := rfl
@[simp] theorem State.modCtx_combs (s : State) (c : Nat) (f : Ctx → Ctx) : (s.modCtx c f).combs = s.combs := rfl
@[simp] theorem State.modCtx_threads (s : State) (c : Nat) (f : Ctx → Ctx) : (s.modCtx c f).threads = s.threads := rfl
@[simp] theorem State.modCtx_entries (s : State) (c : Nat) (f : Ctx → Ctx) : (s.modCtx c f).entries = s.entries := rfl
@[simp] theorem State.modCtx_admitQueue (s : State) (c : Nat) (f : Ctx → Ctx) : (s.modCtx c f).admitQueue = s.admitQueue := rfl
@[simp] theorem State.modCtx_issued (s : State) (c : Nat) (f : Ctx → Ctx) : (s.modCtx c f).issued = s.issued := rfl
@[simp] theorem State.modCtx_bays (s : State) (c : Nat) (f : Ctx → Ctx) : (s.modCtx c f).bays = s.bays := rfl
@[simp] theorem State.modCtx_cxl (s : State) (c : Nat) (f : Ctx → Ctx) : (s.modCtx c f).cxl = s.cxl := rfl
@[simp] theorem State.modCtx_ports (s : State) (c : Nat) (f : Ctx → Ctx) : (s.modCtx c f).ports = s.ports := rfl
@[simp] theorem State.modCtx_hnx (s : State) (c : Nat) (f : Ctx → Ctx) : (s.modCtx c f).hnx = s.hnx := rfl
@[simp] theorem State.modCtx_rings (s : State) (c : Nat) (f : Ctx → Ctx) : (s.modCtx c f).rings = s.rings := rfl
@[simp] theorem State.modCtx_coefs (s : State) (c : Nat) (f : Ctx → Ctx) : (s.modCtx c f).coefs = s.coefs := rfl
@[simp] theorem State.modCtx_clusters (s : State) (c : Nat) (f : Ctx → Ctx) : (s.modCtx c f).clusters = s.clusters := rfl
@[simp] theorem State.modCtx_convs (s : State) (c : Nat) (f : Ctx → Ctx) : (s.modCtx c f).convs = s.convs := rfl
@[simp] theorem State.modCtx_traces (s : State) (c : Nat) (f : Ctx → Ctx) : (s.modCtx c f).traces = s.traces := rfl
@[simp] theorem State.modCtx_power (s : State) (c : Nat) (f : Ctx → Ctx) : (s.modCtx c f).power = s.power := rfl
@[simp] theorem State.modCtx_sensors (s : State) (c : Nat) (f : Ctx → Ctx) : (s.modCtx c f).sensors = s.sensors := rfl
@[simp] theorem State.modCtx_mgmt (s : State) (c : Nat) (f : Ctx → Ctx) : (s.modCtx c f).mgmt = s.mgmt := rfl
@[simp] theorem State.lat_modCtx (s : State) (c : Nat) (f : Ctx → Ctx) (j : Nat) : (s.modCtx c f).lat j = s.lat j := rfl
@[simp] theorem State.comb_modCtx (s : State) (c : Nat) (f : Ctx → Ctx) (j : Nat) : (s.modCtx c f).comb j = s.comb j := rfl
@[simp] theorem State.thread_modCtx (s : State) (c : Nat) (f : Ctx → Ctx) (j : Nat) : (s.modCtx c f).thread j = s.thread j := rfl
@[simp] theorem State.entrySt_modCtx (s : State) (c : Nat) (f : Ctx → Ctx) (j : Nat) : (s.modCtx c f).entrySt j = s.entrySt j := rfl
@[simp] theorem State.bay_modCtx (s : State) (c : Nat) (f : Ctx → Ctx) (j : Nat) : (s.modCtx c f).bay j = s.bay j := rfl
@[simp] theorem State.port_modCtx (s : State) (c : Nat) (f : Ctx → Ctx) (j : Nat) : (s.modCtx c f).port j = s.port j := rfl
@[simp] theorem State.ring_modCtx (s : State) (c : Nat) (f : Ctx → Ctx) (j : Nat) : (s.modCtx c f).ring j = s.ring j := rfl
@[simp] theorem State.cluster_modCtx (s : State) (c : Nat) (f : Ctx → Ctx) (j : Nat) : (s.modCtx c f).cluster j = s.cluster j := rfl
@[simp] theorem State.conv_modCtx (s : State) (c : Nat) (f : Ctx → Ctx) (j : Nat) : (s.modCtx c f).conv j = s.conv j := rfl
@[simp] theorem State.trace_modCtx (s : State) (c : Nat) (f : Ctx → Ctx) (j : Nat) : (s.modCtx c f).trace j = s.trace j := rfl
@[simp] theorem State.sensor_modCtx (s : State) (c : Nat) (f : Ctx → Ctx) (j : Nat) : (s.modCtx c f).sensor j = s.sensor j := rfl
@[simp] theorem State.fldAt_modCtx (s : State) (c : Nat) (f : Ctx → Ctx) (e : Fld) (j o : Nat) : (s.modCtx c f).fldAt e j o = s.fldAt e j o := rfl
@[simp] theorem State.fld_modCtx (s : State) (c : Nat) (f : Ctx → Ctx) (e : Fld) (j : Nat) : (s.modCtx c f).fld e j = s.fld e j := rfl
@[simp] theorem State.flag_modCtx (s : State) (c : Nat) (f : Ctx → Ctx) (e : Fld) (j : Nat) : (s.modCtx c f).flag e j = s.flag e j := rfl
@[simp] theorem State.byte_modCtx (s : State) (c : Nat) (f : Ctx → Ctx) (j : Nat) : (s.modCtx c f).byte j = s.byte j := rfl
@[simp] theorem State.hostByte_modCtx (s : State) (c : Nat) (f : Ctx → Ctx) (j : Nat) : (s.modCtx c f).hostByte j = s.hostByte j := rfl
@[simp] theorem State.poisoned_modCtx (s : State) (c : Nat) (f : Ctx → Ctx) (j : Nat) : (s.modCtx c f).poisoned j = s.poisoned j := rfl
@[simp] theorem State.inService_modCtx (s : State) (c : Nat) (f : Ctx → Ctx) : (s.modCtx c f).inService = s.inService := rfl
@[simp] theorem State.served_modCtx (s : State) (c : Nat) (f : Ctx → Ctx) (j : Path) : (s.modCtx c f).served j = s.served j := rfl
@[simp] theorem State.tokenPerm_modCtx (s : State) (c : Nat) (f : Ctx → Ctx) (j : Nat) : (s.modCtx c f).tokenPerm j = s.tokenPerm j := rfl
@[simp] theorem State.bytes_modCtx (s : State) (c : Nat) (f : Ctx → Ctx) (j m : Nat) : (s.modCtx c f).bytes j m = s.bytes j m := rfl
@[simp] theorem State.readNat_modCtx (s : State) (c : Nat) (f : Ctx → Ctx) (j m : Nat) : (s.modCtx c f).readNat j m = s.readNat j m := rfl

/-! ## modBay -/

@[simp] theorem State.modBay_pending (s : State) (b : Nat) (f : Bay → Bay) : (s.modBay b f).pending = s.pending := rfl
@[simp] theorem State.modBay_free (s : State) (b : Nat) (f : Bay → Bay) : (s.modBay b f).free = s.free := rfl
@[simp] theorem State.modBay_reply (s : State) (b : Nat) (f : Bay → Bay) : (s.modBay b f).reply = s.reply := rfl
@[simp] theorem State.modBay_time (s : State) (b : Nat) (f : Bay → Bay) : (s.modBay b f).time = s.time := rfl
@[simp] theorem State.modBay_pins (s : State) (b : Nat) (f : Bay → Bay) : (s.modBay b f).pins = s.pins := rfl
@[simp] theorem State.modBay_boot (s : State) (b : Nat) (f : Bay → Bay) : (s.modBay b f).boot = s.boot := rfl
@[simp] theorem State.modBay_cfg (s : State) (b : Nat) (f : Bay → Bay) : (s.modBay b f).cfg = s.cfg := rfl
@[simp] theorem State.modBay_cfgSeq (s : State) (b : Nat) (f : Bay → Bay) : (s.modBay b f).cfgSeq = s.cfgSeq := rfl
@[simp] theorem State.modBay_flash (s : State) (b : Nat) (f : Bay → Bay) : (s.modBay b f).flash = s.flash := rfl
@[simp] theorem State.modBay_jnl (s : State) (b : Nat) (f : Bay → Bay) : (s.modBay b f).jnl = s.jnl := rfl
@[simp] theorem State.modBay_sec (s : State) (b : Nat) (f : Bay → Bay) : (s.modBay b f).sec = s.sec := rfl
@[simp] theorem State.modBay_log (s : State) (b : Nat) (f : Bay → Bay) : (s.modBay b f).log = s.log := rfl
@[simp] theorem State.modBay_evHead (s : State) (b : Nat) (f : Bay → Bay) : (s.modBay b f).evHead = s.evHead := rfl
@[simp] theorem State.modBay_flds (s : State) (b : Nat) (f : Bay → Bay) : (s.modBay b f).flds = s.flds := rfl
@[simp] theorem State.modBay_refusedAt (s : State) (b : Nat) (f : Bay → Bay) : (s.modBay b f).refusedAt = s.refusedAt := rfl
@[simp] theorem State.modBay_mem (s : State) (b : Nat) (f : Bay → Bay) : (s.modBay b f).mem = s.mem := rfl
@[simp] theorem State.modBay_hostMem (s : State) (b : Nat) (f : Bay → Bay) : (s.modBay b f).hostMem = s.hostMem := rfl
@[simp] theorem State.modBay_poison (s : State) (b : Nat) (f : Bay → Bay) : (s.modBay b f).poison = s.poison := rfl
@[simp] theorem State.modBay_wordErr (s : State) (b : Nat) (f : Bay → Bay) : (s.modBay b f).wordErr = s.wordErr := rfl
@[simp] theorem State.modBay_feFull (s : State) (b : Nat) (f : Bay → Bay) : (s.modBay b f).feFull = s.feFull := rfl
@[simp] theorem State.modBay_feOwner (s : State) (b : Nat) (f : Bay → Bay) : (s.modBay b f).feOwner = s.feOwner := rfl
@[simp] theorem State.modBay_feOps (s : State) (b : Nat) (f : Bay → Bay) : (s.modBay b f).feOps = s.feOps := rfl
@[simp] theorem State.modBay_lats (s : State) (b : Nat) (f : Bay → Bay) : (s.modBay b f).lats = s.lats := rfl
@[simp] theorem State.modBay_combs (s : State) (b : Nat) (f : Bay → Bay) : (s.modBay b f).combs = s.combs := rfl
@[simp] theorem State.modBay_threads (s : State) (b : Nat) (f : Bay → Bay) : (s.modBay b f).threads = s.threads := rfl
@[simp] theorem State.modBay_ctxs (s : State) (b : Nat) (f : Bay → Bay) : (s.modBay b f).ctxs = s.ctxs := rfl
@[simp] theorem State.modBay_entries (s : State) (b : Nat) (f : Bay → Bay) : (s.modBay b f).entries = s.entries := rfl
@[simp] theorem State.modBay_admitQueue (s : State) (b : Nat) (f : Bay → Bay) : (s.modBay b f).admitQueue = s.admitQueue := rfl
@[simp] theorem State.modBay_issued (s : State) (b : Nat) (f : Bay → Bay) : (s.modBay b f).issued = s.issued := rfl
@[simp] theorem State.modBay_cxl (s : State) (b : Nat) (f : Bay → Bay) : (s.modBay b f).cxl = s.cxl := rfl
@[simp] theorem State.modBay_ports (s : State) (b : Nat) (f : Bay → Bay) : (s.modBay b f).ports = s.ports := rfl
@[simp] theorem State.modBay_hnx (s : State) (b : Nat) (f : Bay → Bay) : (s.modBay b f).hnx = s.hnx := rfl
@[simp] theorem State.modBay_rings (s : State) (b : Nat) (f : Bay → Bay) : (s.modBay b f).rings = s.rings := rfl
@[simp] theorem State.modBay_coefs (s : State) (b : Nat) (f : Bay → Bay) : (s.modBay b f).coefs = s.coefs := rfl
@[simp] theorem State.modBay_clusters (s : State) (b : Nat) (f : Bay → Bay) : (s.modBay b f).clusters = s.clusters := rfl
@[simp] theorem State.modBay_convs (s : State) (b : Nat) (f : Bay → Bay) : (s.modBay b f).convs = s.convs := rfl
@[simp] theorem State.modBay_traces (s : State) (b : Nat) (f : Bay → Bay) : (s.modBay b f).traces = s.traces := rfl
@[simp] theorem State.modBay_power (s : State) (b : Nat) (f : Bay → Bay) : (s.modBay b f).power = s.power := rfl
@[simp] theorem State.modBay_sensors (s : State) (b : Nat) (f : Bay → Bay) : (s.modBay b f).sensors = s.sensors := rfl
@[simp] theorem State.modBay_mgmt (s : State) (b : Nat) (f : Bay → Bay) : (s.modBay b f).mgmt = s.mgmt := rfl
@[simp] theorem State.lat_modBay (s : State) (b : Nat) (f : Bay → Bay) (j : Nat) : (s.modBay b f).lat j = s.lat j := rfl
@[simp] theorem State.comb_modBay (s : State) (b : Nat) (f : Bay → Bay) (j : Nat) : (s.modBay b f).comb j = s.comb j := rfl
@[simp] theorem State.thread_modBay (s : State) (b : Nat) (f : Bay → Bay) (j : Nat) : (s.modBay b f).thread j = s.thread j := rfl
@[simp] theorem State.ctx_modBay (s : State) (b : Nat) (f : Bay → Bay) (j : Nat) : (s.modBay b f).ctx j = s.ctx j := rfl
@[simp] theorem State.entrySt_modBay (s : State) (b : Nat) (f : Bay → Bay) (j : Nat) : (s.modBay b f).entrySt j = s.entrySt j := rfl
@[simp] theorem State.port_modBay (s : State) (b : Nat) (f : Bay → Bay) (j : Nat) : (s.modBay b f).port j = s.port j := rfl
@[simp] theorem State.ring_modBay (s : State) (b : Nat) (f : Bay → Bay) (j : Nat) : (s.modBay b f).ring j = s.ring j := rfl
@[simp] theorem State.cluster_modBay (s : State) (b : Nat) (f : Bay → Bay) (j : Nat) : (s.modBay b f).cluster j = s.cluster j := rfl
@[simp] theorem State.conv_modBay (s : State) (b : Nat) (f : Bay → Bay) (j : Nat) : (s.modBay b f).conv j = s.conv j := rfl
@[simp] theorem State.trace_modBay (s : State) (b : Nat) (f : Bay → Bay) (j : Nat) : (s.modBay b f).trace j = s.trace j := rfl
@[simp] theorem State.sensor_modBay (s : State) (b : Nat) (f : Bay → Bay) (j : Nat) : (s.modBay b f).sensor j = s.sensor j := rfl
@[simp] theorem State.fldAt_modBay (s : State) (b : Nat) (f : Bay → Bay) (e : Fld) (j o : Nat) : (s.modBay b f).fldAt e j o = s.fldAt e j o := rfl
@[simp] theorem State.fld_modBay (s : State) (b : Nat) (f : Bay → Bay) (e : Fld) (j : Nat) : (s.modBay b f).fld e j = s.fld e j := rfl
@[simp] theorem State.flag_modBay (s : State) (b : Nat) (f : Bay → Bay) (e : Fld) (j : Nat) : (s.modBay b f).flag e j = s.flag e j := rfl
@[simp] theorem State.byte_modBay (s : State) (b : Nat) (f : Bay → Bay) (j : Nat) : (s.modBay b f).byte j = s.byte j := rfl
@[simp] theorem State.hostByte_modBay (s : State) (b : Nat) (f : Bay → Bay) (j : Nat) : (s.modBay b f).hostByte j = s.hostByte j := rfl
@[simp] theorem State.poisoned_modBay (s : State) (b : Nat) (f : Bay → Bay) (j : Nat) : (s.modBay b f).poisoned j = s.poisoned j := rfl
@[simp] theorem State.inService_modBay (s : State) (b : Nat) (f : Bay → Bay) : (s.modBay b f).inService = s.inService := rfl
@[simp] theorem State.served_modBay (s : State) (b : Nat) (f : Bay → Bay) (j : Path) : (s.modBay b f).served j = s.served j := rfl
@[simp] theorem State.tokenPerm_modBay (s : State) (b : Nat) (f : Bay → Bay) (j : Nat) : (s.modBay b f).tokenPerm j = s.tokenPerm j := rfl
@[simp] theorem State.bytes_modBay (s : State) (b : Nat) (f : Bay → Bay) (j m : Nat) : (s.modBay b f).bytes j m = s.bytes j m := rfl
@[simp] theorem State.readNat_modBay (s : State) (b : Nat) (f : Bay → Bay) (j m : Nat) : (s.modBay b f).readNat j m = s.readNat j m := rfl

/-! ## modPort -/

@[simp] theorem State.modPort_pending (s : State) (p : Nat) (f : Port → Port) : (s.modPort p f).pending = s.pending := rfl
@[simp] theorem State.modPort_free (s : State) (p : Nat) (f : Port → Port) : (s.modPort p f).free = s.free := rfl
@[simp] theorem State.modPort_reply (s : State) (p : Nat) (f : Port → Port) : (s.modPort p f).reply = s.reply := rfl
@[simp] theorem State.modPort_time (s : State) (p : Nat) (f : Port → Port) : (s.modPort p f).time = s.time := rfl
@[simp] theorem State.modPort_pins (s : State) (p : Nat) (f : Port → Port) : (s.modPort p f).pins = s.pins := rfl
@[simp] theorem State.modPort_boot (s : State) (p : Nat) (f : Port → Port) : (s.modPort p f).boot = s.boot := rfl
@[simp] theorem State.modPort_cfg (s : State) (p : Nat) (f : Port → Port) : (s.modPort p f).cfg = s.cfg := rfl
@[simp] theorem State.modPort_cfgSeq (s : State) (p : Nat) (f : Port → Port) : (s.modPort p f).cfgSeq = s.cfgSeq := rfl
@[simp] theorem State.modPort_flash (s : State) (p : Nat) (f : Port → Port) : (s.modPort p f).flash = s.flash := rfl
@[simp] theorem State.modPort_jnl (s : State) (p : Nat) (f : Port → Port) : (s.modPort p f).jnl = s.jnl := rfl
@[simp] theorem State.modPort_sec (s : State) (p : Nat) (f : Port → Port) : (s.modPort p f).sec = s.sec := rfl
@[simp] theorem State.modPort_log (s : State) (p : Nat) (f : Port → Port) : (s.modPort p f).log = s.log := rfl
@[simp] theorem State.modPort_evHead (s : State) (p : Nat) (f : Port → Port) : (s.modPort p f).evHead = s.evHead := rfl
@[simp] theorem State.modPort_flds (s : State) (p : Nat) (f : Port → Port) : (s.modPort p f).flds = s.flds := rfl
@[simp] theorem State.modPort_refusedAt (s : State) (p : Nat) (f : Port → Port) : (s.modPort p f).refusedAt = s.refusedAt := rfl
@[simp] theorem State.modPort_mem (s : State) (p : Nat) (f : Port → Port) : (s.modPort p f).mem = s.mem := rfl
@[simp] theorem State.modPort_hostMem (s : State) (p : Nat) (f : Port → Port) : (s.modPort p f).hostMem = s.hostMem := rfl
@[simp] theorem State.modPort_poison (s : State) (p : Nat) (f : Port → Port) : (s.modPort p f).poison = s.poison := rfl
@[simp] theorem State.modPort_wordErr (s : State) (p : Nat) (f : Port → Port) : (s.modPort p f).wordErr = s.wordErr := rfl
@[simp] theorem State.modPort_feFull (s : State) (p : Nat) (f : Port → Port) : (s.modPort p f).feFull = s.feFull := rfl
@[simp] theorem State.modPort_feOwner (s : State) (p : Nat) (f : Port → Port) : (s.modPort p f).feOwner = s.feOwner := rfl
@[simp] theorem State.modPort_feOps (s : State) (p : Nat) (f : Port → Port) : (s.modPort p f).feOps = s.feOps := rfl
@[simp] theorem State.modPort_lats (s : State) (p : Nat) (f : Port → Port) : (s.modPort p f).lats = s.lats := rfl
@[simp] theorem State.modPort_combs (s : State) (p : Nat) (f : Port → Port) : (s.modPort p f).combs = s.combs := rfl
@[simp] theorem State.modPort_threads (s : State) (p : Nat) (f : Port → Port) : (s.modPort p f).threads = s.threads := rfl
@[simp] theorem State.modPort_ctxs (s : State) (p : Nat) (f : Port → Port) : (s.modPort p f).ctxs = s.ctxs := rfl
@[simp] theorem State.modPort_entries (s : State) (p : Nat) (f : Port → Port) : (s.modPort p f).entries = s.entries := rfl
@[simp] theorem State.modPort_admitQueue (s : State) (p : Nat) (f : Port → Port) : (s.modPort p f).admitQueue = s.admitQueue := rfl
@[simp] theorem State.modPort_issued (s : State) (p : Nat) (f : Port → Port) : (s.modPort p f).issued = s.issued := rfl
@[simp] theorem State.modPort_bays (s : State) (p : Nat) (f : Port → Port) : (s.modPort p f).bays = s.bays := rfl
@[simp] theorem State.modPort_cxl (s : State) (p : Nat) (f : Port → Port) : (s.modPort p f).cxl = s.cxl := rfl
@[simp] theorem State.modPort_hnx (s : State) (p : Nat) (f : Port → Port) : (s.modPort p f).hnx = s.hnx := rfl
@[simp] theorem State.modPort_rings (s : State) (p : Nat) (f : Port → Port) : (s.modPort p f).rings = s.rings := rfl
@[simp] theorem State.modPort_coefs (s : State) (p : Nat) (f : Port → Port) : (s.modPort p f).coefs = s.coefs := rfl
@[simp] theorem State.modPort_clusters (s : State) (p : Nat) (f : Port → Port) : (s.modPort p f).clusters = s.clusters := rfl
@[simp] theorem State.modPort_convs (s : State) (p : Nat) (f : Port → Port) : (s.modPort p f).convs = s.convs := rfl
@[simp] theorem State.modPort_traces (s : State) (p : Nat) (f : Port → Port) : (s.modPort p f).traces = s.traces := rfl
@[simp] theorem State.modPort_power (s : State) (p : Nat) (f : Port → Port) : (s.modPort p f).power = s.power := rfl
@[simp] theorem State.modPort_sensors (s : State) (p : Nat) (f : Port → Port) : (s.modPort p f).sensors = s.sensors := rfl
@[simp] theorem State.modPort_mgmt (s : State) (p : Nat) (f : Port → Port) : (s.modPort p f).mgmt = s.mgmt := rfl
@[simp] theorem State.lat_modPort (s : State) (p : Nat) (f : Port → Port) (j : Nat) : (s.modPort p f).lat j = s.lat j := rfl
@[simp] theorem State.comb_modPort (s : State) (p : Nat) (f : Port → Port) (j : Nat) : (s.modPort p f).comb j = s.comb j := rfl
@[simp] theorem State.thread_modPort (s : State) (p : Nat) (f : Port → Port) (j : Nat) : (s.modPort p f).thread j = s.thread j := rfl
@[simp] theorem State.ctx_modPort (s : State) (p : Nat) (f : Port → Port) (j : Nat) : (s.modPort p f).ctx j = s.ctx j := rfl
@[simp] theorem State.entrySt_modPort (s : State) (p : Nat) (f : Port → Port) (j : Nat) : (s.modPort p f).entrySt j = s.entrySt j := rfl
@[simp] theorem State.bay_modPort (s : State) (p : Nat) (f : Port → Port) (j : Nat) : (s.modPort p f).bay j = s.bay j := rfl
@[simp] theorem State.ring_modPort (s : State) (p : Nat) (f : Port → Port) (j : Nat) : (s.modPort p f).ring j = s.ring j := rfl
@[simp] theorem State.cluster_modPort (s : State) (p : Nat) (f : Port → Port) (j : Nat) : (s.modPort p f).cluster j = s.cluster j := rfl
@[simp] theorem State.conv_modPort (s : State) (p : Nat) (f : Port → Port) (j : Nat) : (s.modPort p f).conv j = s.conv j := rfl
@[simp] theorem State.trace_modPort (s : State) (p : Nat) (f : Port → Port) (j : Nat) : (s.modPort p f).trace j = s.trace j := rfl
@[simp] theorem State.sensor_modPort (s : State) (p : Nat) (f : Port → Port) (j : Nat) : (s.modPort p f).sensor j = s.sensor j := rfl
@[simp] theorem State.fldAt_modPort (s : State) (p : Nat) (f : Port → Port) (e : Fld) (j o : Nat) : (s.modPort p f).fldAt e j o = s.fldAt e j o := rfl
@[simp] theorem State.fld_modPort (s : State) (p : Nat) (f : Port → Port) (e : Fld) (j : Nat) : (s.modPort p f).fld e j = s.fld e j := rfl
@[simp] theorem State.flag_modPort (s : State) (p : Nat) (f : Port → Port) (e : Fld) (j : Nat) : (s.modPort p f).flag e j = s.flag e j := rfl
@[simp] theorem State.byte_modPort (s : State) (p : Nat) (f : Port → Port) (j : Nat) : (s.modPort p f).byte j = s.byte j := rfl
@[simp] theorem State.hostByte_modPort (s : State) (p : Nat) (f : Port → Port) (j : Nat) : (s.modPort p f).hostByte j = s.hostByte j := rfl
@[simp] theorem State.poisoned_modPort (s : State) (p : Nat) (f : Port → Port) (j : Nat) : (s.modPort p f).poisoned j = s.poisoned j := rfl
@[simp] theorem State.inService_modPort (s : State) (p : Nat) (f : Port → Port) : (s.modPort p f).inService = s.inService := rfl
@[simp] theorem State.served_modPort (s : State) (p : Nat) (f : Port → Port) (j : Path) : (s.modPort p f).served j = s.served j := rfl
@[simp] theorem State.tokenPerm_modPort (s : State) (p : Nat) (f : Port → Port) (j : Nat) : (s.modPort p f).tokenPerm j = s.tokenPerm j := rfl
@[simp] theorem State.bytes_modPort (s : State) (p : Nat) (f : Port → Port) (j m : Nat) : (s.modPort p f).bytes j m = s.bytes j m := rfl
@[simp] theorem State.readNat_modPort (s : State) (p : Nat) (f : Port → Port) (j m : Nat) : (s.modPort p f).readNat j m = s.readNat j m := rfl

/-! ## modRing -/

@[simp] theorem State.modRing_pending (s : State) (r : Nat) (f : Ring → Ring) : (s.modRing r f).pending = s.pending := rfl
@[simp] theorem State.modRing_free (s : State) (r : Nat) (f : Ring → Ring) : (s.modRing r f).free = s.free := rfl
@[simp] theorem State.modRing_reply (s : State) (r : Nat) (f : Ring → Ring) : (s.modRing r f).reply = s.reply := rfl
@[simp] theorem State.modRing_time (s : State) (r : Nat) (f : Ring → Ring) : (s.modRing r f).time = s.time := rfl
@[simp] theorem State.modRing_pins (s : State) (r : Nat) (f : Ring → Ring) : (s.modRing r f).pins = s.pins := rfl
@[simp] theorem State.modRing_boot (s : State) (r : Nat) (f : Ring → Ring) : (s.modRing r f).boot = s.boot := rfl
@[simp] theorem State.modRing_cfg (s : State) (r : Nat) (f : Ring → Ring) : (s.modRing r f).cfg = s.cfg := rfl
@[simp] theorem State.modRing_cfgSeq (s : State) (r : Nat) (f : Ring → Ring) : (s.modRing r f).cfgSeq = s.cfgSeq := rfl
@[simp] theorem State.modRing_flash (s : State) (r : Nat) (f : Ring → Ring) : (s.modRing r f).flash = s.flash := rfl
@[simp] theorem State.modRing_jnl (s : State) (r : Nat) (f : Ring → Ring) : (s.modRing r f).jnl = s.jnl := rfl
@[simp] theorem State.modRing_sec (s : State) (r : Nat) (f : Ring → Ring) : (s.modRing r f).sec = s.sec := rfl
@[simp] theorem State.modRing_log (s : State) (r : Nat) (f : Ring → Ring) : (s.modRing r f).log = s.log := rfl
@[simp] theorem State.modRing_evHead (s : State) (r : Nat) (f : Ring → Ring) : (s.modRing r f).evHead = s.evHead := rfl
@[simp] theorem State.modRing_flds (s : State) (r : Nat) (f : Ring → Ring) : (s.modRing r f).flds = s.flds := rfl
@[simp] theorem State.modRing_refusedAt (s : State) (r : Nat) (f : Ring → Ring) : (s.modRing r f).refusedAt = s.refusedAt := rfl
@[simp] theorem State.modRing_mem (s : State) (r : Nat) (f : Ring → Ring) : (s.modRing r f).mem = s.mem := rfl
@[simp] theorem State.modRing_hostMem (s : State) (r : Nat) (f : Ring → Ring) : (s.modRing r f).hostMem = s.hostMem := rfl
@[simp] theorem State.modRing_poison (s : State) (r : Nat) (f : Ring → Ring) : (s.modRing r f).poison = s.poison := rfl
@[simp] theorem State.modRing_wordErr (s : State) (r : Nat) (f : Ring → Ring) : (s.modRing r f).wordErr = s.wordErr := rfl
@[simp] theorem State.modRing_feFull (s : State) (r : Nat) (f : Ring → Ring) : (s.modRing r f).feFull = s.feFull := rfl
@[simp] theorem State.modRing_feOwner (s : State) (r : Nat) (f : Ring → Ring) : (s.modRing r f).feOwner = s.feOwner := rfl
@[simp] theorem State.modRing_feOps (s : State) (r : Nat) (f : Ring → Ring) : (s.modRing r f).feOps = s.feOps := rfl
@[simp] theorem State.modRing_lats (s : State) (r : Nat) (f : Ring → Ring) : (s.modRing r f).lats = s.lats := rfl
@[simp] theorem State.modRing_combs (s : State) (r : Nat) (f : Ring → Ring) : (s.modRing r f).combs = s.combs := rfl
@[simp] theorem State.modRing_threads (s : State) (r : Nat) (f : Ring → Ring) : (s.modRing r f).threads = s.threads := rfl
@[simp] theorem State.modRing_ctxs (s : State) (r : Nat) (f : Ring → Ring) : (s.modRing r f).ctxs = s.ctxs := rfl
@[simp] theorem State.modRing_entries (s : State) (r : Nat) (f : Ring → Ring) : (s.modRing r f).entries = s.entries := rfl
@[simp] theorem State.modRing_admitQueue (s : State) (r : Nat) (f : Ring → Ring) : (s.modRing r f).admitQueue = s.admitQueue := rfl
@[simp] theorem State.modRing_issued (s : State) (r : Nat) (f : Ring → Ring) : (s.modRing r f).issued = s.issued := rfl
@[simp] theorem State.modRing_bays (s : State) (r : Nat) (f : Ring → Ring) : (s.modRing r f).bays = s.bays := rfl
@[simp] theorem State.modRing_cxl (s : State) (r : Nat) (f : Ring → Ring) : (s.modRing r f).cxl = s.cxl := rfl
@[simp] theorem State.modRing_ports (s : State) (r : Nat) (f : Ring → Ring) : (s.modRing r f).ports = s.ports := rfl
@[simp] theorem State.modRing_hnx (s : State) (r : Nat) (f : Ring → Ring) : (s.modRing r f).hnx = s.hnx := rfl
@[simp] theorem State.modRing_coefs (s : State) (r : Nat) (f : Ring → Ring) : (s.modRing r f).coefs = s.coefs := rfl
@[simp] theorem State.modRing_clusters (s : State) (r : Nat) (f : Ring → Ring) : (s.modRing r f).clusters = s.clusters := rfl
@[simp] theorem State.modRing_convs (s : State) (r : Nat) (f : Ring → Ring) : (s.modRing r f).convs = s.convs := rfl
@[simp] theorem State.modRing_traces (s : State) (r : Nat) (f : Ring → Ring) : (s.modRing r f).traces = s.traces := rfl
@[simp] theorem State.modRing_power (s : State) (r : Nat) (f : Ring → Ring) : (s.modRing r f).power = s.power := rfl
@[simp] theorem State.modRing_sensors (s : State) (r : Nat) (f : Ring → Ring) : (s.modRing r f).sensors = s.sensors := rfl
@[simp] theorem State.modRing_mgmt (s : State) (r : Nat) (f : Ring → Ring) : (s.modRing r f).mgmt = s.mgmt := rfl
@[simp] theorem State.lat_modRing (s : State) (r : Nat) (f : Ring → Ring) (j : Nat) : (s.modRing r f).lat j = s.lat j := rfl
@[simp] theorem State.comb_modRing (s : State) (r : Nat) (f : Ring → Ring) (j : Nat) : (s.modRing r f).comb j = s.comb j := rfl
@[simp] theorem State.thread_modRing (s : State) (r : Nat) (f : Ring → Ring) (j : Nat) : (s.modRing r f).thread j = s.thread j := rfl
@[simp] theorem State.ctx_modRing (s : State) (r : Nat) (f : Ring → Ring) (j : Nat) : (s.modRing r f).ctx j = s.ctx j := rfl
@[simp] theorem State.entrySt_modRing (s : State) (r : Nat) (f : Ring → Ring) (j : Nat) : (s.modRing r f).entrySt j = s.entrySt j := rfl
@[simp] theorem State.bay_modRing (s : State) (r : Nat) (f : Ring → Ring) (j : Nat) : (s.modRing r f).bay j = s.bay j := rfl
@[simp] theorem State.port_modRing (s : State) (r : Nat) (f : Ring → Ring) (j : Nat) : (s.modRing r f).port j = s.port j := rfl
@[simp] theorem State.cluster_modRing (s : State) (r : Nat) (f : Ring → Ring) (j : Nat) : (s.modRing r f).cluster j = s.cluster j := rfl
@[simp] theorem State.conv_modRing (s : State) (r : Nat) (f : Ring → Ring) (j : Nat) : (s.modRing r f).conv j = s.conv j := rfl
@[simp] theorem State.trace_modRing (s : State) (r : Nat) (f : Ring → Ring) (j : Nat) : (s.modRing r f).trace j = s.trace j := rfl
@[simp] theorem State.sensor_modRing (s : State) (r : Nat) (f : Ring → Ring) (j : Nat) : (s.modRing r f).sensor j = s.sensor j := rfl
@[simp] theorem State.fldAt_modRing (s : State) (r : Nat) (f : Ring → Ring) (e : Fld) (j o : Nat) : (s.modRing r f).fldAt e j o = s.fldAt e j o := rfl
@[simp] theorem State.fld_modRing (s : State) (r : Nat) (f : Ring → Ring) (e : Fld) (j : Nat) : (s.modRing r f).fld e j = s.fld e j := rfl
@[simp] theorem State.flag_modRing (s : State) (r : Nat) (f : Ring → Ring) (e : Fld) (j : Nat) : (s.modRing r f).flag e j = s.flag e j := rfl
@[simp] theorem State.byte_modRing (s : State) (r : Nat) (f : Ring → Ring) (j : Nat) : (s.modRing r f).byte j = s.byte j := rfl
@[simp] theorem State.hostByte_modRing (s : State) (r : Nat) (f : Ring → Ring) (j : Nat) : (s.modRing r f).hostByte j = s.hostByte j := rfl
@[simp] theorem State.poisoned_modRing (s : State) (r : Nat) (f : Ring → Ring) (j : Nat) : (s.modRing r f).poisoned j = s.poisoned j := rfl
@[simp] theorem State.inService_modRing (s : State) (r : Nat) (f : Ring → Ring) : (s.modRing r f).inService = s.inService := rfl
@[simp] theorem State.served_modRing (s : State) (r : Nat) (f : Ring → Ring) (j : Path) : (s.modRing r f).served j = s.served j := rfl
@[simp] theorem State.tokenPerm_modRing (s : State) (r : Nat) (f : Ring → Ring) (j : Nat) : (s.modRing r f).tokenPerm j = s.tokenPerm j := rfl
@[simp] theorem State.bytes_modRing (s : State) (r : Nat) (f : Ring → Ring) (j m : Nat) : (s.modRing r f).bytes j m = s.bytes j m := rfl
@[simp] theorem State.readNat_modRing (s : State) (r : Nat) (f : Ring → Ring) (j m : Nat) : (s.modRing r f).readNat j m = s.readNat j m := rfl

/-! ## modCluster -/

@[simp] theorem State.modCluster_pending (s : State) (c : Nat) (f : Cluster → Cluster) : (s.modCluster c f).pending = s.pending := rfl
@[simp] theorem State.modCluster_free (s : State) (c : Nat) (f : Cluster → Cluster) : (s.modCluster c f).free = s.free := rfl
@[simp] theorem State.modCluster_reply (s : State) (c : Nat) (f : Cluster → Cluster) : (s.modCluster c f).reply = s.reply := rfl
@[simp] theorem State.modCluster_time (s : State) (c : Nat) (f : Cluster → Cluster) : (s.modCluster c f).time = s.time := rfl
@[simp] theorem State.modCluster_pins (s : State) (c : Nat) (f : Cluster → Cluster) : (s.modCluster c f).pins = s.pins := rfl
@[simp] theorem State.modCluster_boot (s : State) (c : Nat) (f : Cluster → Cluster) : (s.modCluster c f).boot = s.boot := rfl
@[simp] theorem State.modCluster_cfg (s : State) (c : Nat) (f : Cluster → Cluster) : (s.modCluster c f).cfg = s.cfg := rfl
@[simp] theorem State.modCluster_cfgSeq (s : State) (c : Nat) (f : Cluster → Cluster) : (s.modCluster c f).cfgSeq = s.cfgSeq := rfl
@[simp] theorem State.modCluster_flash (s : State) (c : Nat) (f : Cluster → Cluster) : (s.modCluster c f).flash = s.flash := rfl
@[simp] theorem State.modCluster_jnl (s : State) (c : Nat) (f : Cluster → Cluster) : (s.modCluster c f).jnl = s.jnl := rfl
@[simp] theorem State.modCluster_sec (s : State) (c : Nat) (f : Cluster → Cluster) : (s.modCluster c f).sec = s.sec := rfl
@[simp] theorem State.modCluster_log (s : State) (c : Nat) (f : Cluster → Cluster) : (s.modCluster c f).log = s.log := rfl
@[simp] theorem State.modCluster_evHead (s : State) (c : Nat) (f : Cluster → Cluster) : (s.modCluster c f).evHead = s.evHead := rfl
@[simp] theorem State.modCluster_flds (s : State) (c : Nat) (f : Cluster → Cluster) : (s.modCluster c f).flds = s.flds := rfl
@[simp] theorem State.modCluster_refusedAt (s : State) (c : Nat) (f : Cluster → Cluster) : (s.modCluster c f).refusedAt = s.refusedAt := rfl
@[simp] theorem State.modCluster_mem (s : State) (c : Nat) (f : Cluster → Cluster) : (s.modCluster c f).mem = s.mem := rfl
@[simp] theorem State.modCluster_hostMem (s : State) (c : Nat) (f : Cluster → Cluster) : (s.modCluster c f).hostMem = s.hostMem := rfl
@[simp] theorem State.modCluster_poison (s : State) (c : Nat) (f : Cluster → Cluster) : (s.modCluster c f).poison = s.poison := rfl
@[simp] theorem State.modCluster_wordErr (s : State) (c : Nat) (f : Cluster → Cluster) : (s.modCluster c f).wordErr = s.wordErr := rfl
@[simp] theorem State.modCluster_feFull (s : State) (c : Nat) (f : Cluster → Cluster) : (s.modCluster c f).feFull = s.feFull := rfl
@[simp] theorem State.modCluster_feOwner (s : State) (c : Nat) (f : Cluster → Cluster) : (s.modCluster c f).feOwner = s.feOwner := rfl
@[simp] theorem State.modCluster_feOps (s : State) (c : Nat) (f : Cluster → Cluster) : (s.modCluster c f).feOps = s.feOps := rfl
@[simp] theorem State.modCluster_lats (s : State) (c : Nat) (f : Cluster → Cluster) : (s.modCluster c f).lats = s.lats := rfl
@[simp] theorem State.modCluster_combs (s : State) (c : Nat) (f : Cluster → Cluster) : (s.modCluster c f).combs = s.combs := rfl
@[simp] theorem State.modCluster_threads (s : State) (c : Nat) (f : Cluster → Cluster) : (s.modCluster c f).threads = s.threads := rfl
@[simp] theorem State.modCluster_ctxs (s : State) (c : Nat) (f : Cluster → Cluster) : (s.modCluster c f).ctxs = s.ctxs := rfl
@[simp] theorem State.modCluster_entries (s : State) (c : Nat) (f : Cluster → Cluster) : (s.modCluster c f).entries = s.entries := rfl
@[simp] theorem State.modCluster_admitQueue (s : State) (c : Nat) (f : Cluster → Cluster) : (s.modCluster c f).admitQueue = s.admitQueue := rfl
@[simp] theorem State.modCluster_issued (s : State) (c : Nat) (f : Cluster → Cluster) : (s.modCluster c f).issued = s.issued := rfl
@[simp] theorem State.modCluster_bays (s : State) (c : Nat) (f : Cluster → Cluster) : (s.modCluster c f).bays = s.bays := rfl
@[simp] theorem State.modCluster_cxl (s : State) (c : Nat) (f : Cluster → Cluster) : (s.modCluster c f).cxl = s.cxl := rfl
@[simp] theorem State.modCluster_ports (s : State) (c : Nat) (f : Cluster → Cluster) : (s.modCluster c f).ports = s.ports := rfl
@[simp] theorem State.modCluster_hnx (s : State) (c : Nat) (f : Cluster → Cluster) : (s.modCluster c f).hnx = s.hnx := rfl
@[simp] theorem State.modCluster_rings (s : State) (c : Nat) (f : Cluster → Cluster) : (s.modCluster c f).rings = s.rings := rfl
@[simp] theorem State.modCluster_coefs (s : State) (c : Nat) (f : Cluster → Cluster) : (s.modCluster c f).coefs = s.coefs := rfl
@[simp] theorem State.modCluster_convs (s : State) (c : Nat) (f : Cluster → Cluster) : (s.modCluster c f).convs = s.convs := rfl
@[simp] theorem State.modCluster_traces (s : State) (c : Nat) (f : Cluster → Cluster) : (s.modCluster c f).traces = s.traces := rfl
@[simp] theorem State.modCluster_power (s : State) (c : Nat) (f : Cluster → Cluster) : (s.modCluster c f).power = s.power := rfl
@[simp] theorem State.modCluster_sensors (s : State) (c : Nat) (f : Cluster → Cluster) : (s.modCluster c f).sensors = s.sensors := rfl
@[simp] theorem State.modCluster_mgmt (s : State) (c : Nat) (f : Cluster → Cluster) : (s.modCluster c f).mgmt = s.mgmt := rfl
@[simp] theorem State.lat_modCluster (s : State) (c : Nat) (f : Cluster → Cluster) (j : Nat) : (s.modCluster c f).lat j = s.lat j := rfl
@[simp] theorem State.comb_modCluster (s : State) (c : Nat) (f : Cluster → Cluster) (j : Nat) : (s.modCluster c f).comb j = s.comb j := rfl
@[simp] theorem State.thread_modCluster (s : State) (c : Nat) (f : Cluster → Cluster) (j : Nat) : (s.modCluster c f).thread j = s.thread j := rfl
@[simp] theorem State.ctx_modCluster (s : State) (c : Nat) (f : Cluster → Cluster) (j : Nat) : (s.modCluster c f).ctx j = s.ctx j := rfl
@[simp] theorem State.entrySt_modCluster (s : State) (c : Nat) (f : Cluster → Cluster) (j : Nat) : (s.modCluster c f).entrySt j = s.entrySt j := rfl
@[simp] theorem State.bay_modCluster (s : State) (c : Nat) (f : Cluster → Cluster) (j : Nat) : (s.modCluster c f).bay j = s.bay j := rfl
@[simp] theorem State.port_modCluster (s : State) (c : Nat) (f : Cluster → Cluster) (j : Nat) : (s.modCluster c f).port j = s.port j := rfl
@[simp] theorem State.ring_modCluster (s : State) (c : Nat) (f : Cluster → Cluster) (j : Nat) : (s.modCluster c f).ring j = s.ring j := rfl
@[simp] theorem State.conv_modCluster (s : State) (c : Nat) (f : Cluster → Cluster) (j : Nat) : (s.modCluster c f).conv j = s.conv j := rfl
@[simp] theorem State.trace_modCluster (s : State) (c : Nat) (f : Cluster → Cluster) (j : Nat) : (s.modCluster c f).trace j = s.trace j := rfl
@[simp] theorem State.sensor_modCluster (s : State) (c : Nat) (f : Cluster → Cluster) (j : Nat) : (s.modCluster c f).sensor j = s.sensor j := rfl
@[simp] theorem State.fldAt_modCluster (s : State) (c : Nat) (f : Cluster → Cluster) (e : Fld) (j o : Nat) : (s.modCluster c f).fldAt e j o = s.fldAt e j o := rfl
@[simp] theorem State.fld_modCluster (s : State) (c : Nat) (f : Cluster → Cluster) (e : Fld) (j : Nat) : (s.modCluster c f).fld e j = s.fld e j := rfl
@[simp] theorem State.flag_modCluster (s : State) (c : Nat) (f : Cluster → Cluster) (e : Fld) (j : Nat) : (s.modCluster c f).flag e j = s.flag e j := rfl
@[simp] theorem State.byte_modCluster (s : State) (c : Nat) (f : Cluster → Cluster) (j : Nat) : (s.modCluster c f).byte j = s.byte j := rfl
@[simp] theorem State.hostByte_modCluster (s : State) (c : Nat) (f : Cluster → Cluster) (j : Nat) : (s.modCluster c f).hostByte j = s.hostByte j := rfl
@[simp] theorem State.poisoned_modCluster (s : State) (c : Nat) (f : Cluster → Cluster) (j : Nat) : (s.modCluster c f).poisoned j = s.poisoned j := rfl
@[simp] theorem State.inService_modCluster (s : State) (c : Nat) (f : Cluster → Cluster) : (s.modCluster c f).inService = s.inService := rfl
@[simp] theorem State.served_modCluster (s : State) (c : Nat) (f : Cluster → Cluster) (j : Path) : (s.modCluster c f).served j = s.served j := rfl
@[simp] theorem State.tokenPerm_modCluster (s : State) (c : Nat) (f : Cluster → Cluster) (j : Nat) : (s.modCluster c f).tokenPerm j = s.tokenPerm j := rfl
@[simp] theorem State.bytes_modCluster (s : State) (c : Nat) (f : Cluster → Cluster) (j m : Nat) : (s.modCluster c f).bytes j m = s.bytes j m := rfl
@[simp] theorem State.readNat_modCluster (s : State) (c : Nat) (f : Cluster → Cluster) (j m : Nat) : (s.modCluster c f).readNat j m = s.readNat j m := rfl

/-! ## drawn -/

@[simp] theorem State.drawn_pending (s : State) (n : Nat) : (s.drawn n).pending = s.pending := rfl
@[simp] theorem State.drawn_reply (s : State) (n : Nat) : (s.drawn n).reply = s.reply := rfl
@[simp] theorem State.drawn_time (s : State) (n : Nat) : (s.drawn n).time = s.time := rfl
@[simp] theorem State.drawn_pins (s : State) (n : Nat) : (s.drawn n).pins = s.pins := rfl
@[simp] theorem State.drawn_boot (s : State) (n : Nat) : (s.drawn n).boot = s.boot := rfl
@[simp] theorem State.drawn_cfg (s : State) (n : Nat) : (s.drawn n).cfg = s.cfg := rfl
@[simp] theorem State.drawn_cfgSeq (s : State) (n : Nat) : (s.drawn n).cfgSeq = s.cfgSeq := rfl
@[simp] theorem State.drawn_flash (s : State) (n : Nat) : (s.drawn n).flash = s.flash := rfl
@[simp] theorem State.drawn_jnl (s : State) (n : Nat) : (s.drawn n).jnl = s.jnl := rfl
@[simp] theorem State.drawn_sec (s : State) (n : Nat) : (s.drawn n).sec = s.sec := rfl
@[simp] theorem State.drawn_log (s : State) (n : Nat) : (s.drawn n).log = s.log := rfl
@[simp] theorem State.drawn_evHead (s : State) (n : Nat) : (s.drawn n).evHead = s.evHead := rfl
@[simp] theorem State.drawn_flds (s : State) (n : Nat) : (s.drawn n).flds = s.flds := rfl
@[simp] theorem State.drawn_refusedAt (s : State) (n : Nat) : (s.drawn n).refusedAt = s.refusedAt := rfl
@[simp] theorem State.drawn_mem (s : State) (n : Nat) : (s.drawn n).mem = s.mem := rfl
@[simp] theorem State.drawn_hostMem (s : State) (n : Nat) : (s.drawn n).hostMem = s.hostMem := rfl
@[simp] theorem State.drawn_poison (s : State) (n : Nat) : (s.drawn n).poison = s.poison := rfl
@[simp] theorem State.drawn_wordErr (s : State) (n : Nat) : (s.drawn n).wordErr = s.wordErr := rfl
@[simp] theorem State.drawn_feFull (s : State) (n : Nat) : (s.drawn n).feFull = s.feFull := rfl
@[simp] theorem State.drawn_feOwner (s : State) (n : Nat) : (s.drawn n).feOwner = s.feOwner := rfl
@[simp] theorem State.drawn_feOps (s : State) (n : Nat) : (s.drawn n).feOps = s.feOps := rfl
@[simp] theorem State.drawn_lats (s : State) (n : Nat) : (s.drawn n).lats = s.lats := rfl
@[simp] theorem State.drawn_combs (s : State) (n : Nat) : (s.drawn n).combs = s.combs := rfl
@[simp] theorem State.drawn_threads (s : State) (n : Nat) : (s.drawn n).threads = s.threads := rfl
@[simp] theorem State.drawn_ctxs (s : State) (n : Nat) : (s.drawn n).ctxs = s.ctxs := rfl
@[simp] theorem State.drawn_entries (s : State) (n : Nat) : (s.drawn n).entries = s.entries := rfl
@[simp] theorem State.drawn_admitQueue (s : State) (n : Nat) : (s.drawn n).admitQueue = s.admitQueue := rfl
@[simp] theorem State.drawn_issued (s : State) (n : Nat) : (s.drawn n).issued = s.issued := rfl
@[simp] theorem State.drawn_bays (s : State) (n : Nat) : (s.drawn n).bays = s.bays := rfl
@[simp] theorem State.drawn_cxl (s : State) (n : Nat) : (s.drawn n).cxl = s.cxl := rfl
@[simp] theorem State.drawn_ports (s : State) (n : Nat) : (s.drawn n).ports = s.ports := rfl
@[simp] theorem State.drawn_hnx (s : State) (n : Nat) : (s.drawn n).hnx = s.hnx := rfl
@[simp] theorem State.drawn_rings (s : State) (n : Nat) : (s.drawn n).rings = s.rings := rfl
@[simp] theorem State.drawn_coefs (s : State) (n : Nat) : (s.drawn n).coefs = s.coefs := rfl
@[simp] theorem State.drawn_clusters (s : State) (n : Nat) : (s.drawn n).clusters = s.clusters := rfl
@[simp] theorem State.drawn_convs (s : State) (n : Nat) : (s.drawn n).convs = s.convs := rfl
@[simp] theorem State.drawn_traces (s : State) (n : Nat) : (s.drawn n).traces = s.traces := rfl
@[simp] theorem State.drawn_power (s : State) (n : Nat) : (s.drawn n).power = s.power := rfl
@[simp] theorem State.drawn_sensors (s : State) (n : Nat) : (s.drawn n).sensors = s.sensors := rfl
@[simp] theorem State.drawn_mgmt (s : State) (n : Nat) : (s.drawn n).mgmt = s.mgmt := rfl
@[simp] theorem State.lat_drawn (s : State) (n : Nat) (j : Nat) : (s.drawn n).lat j = s.lat j := rfl
@[simp] theorem State.comb_drawn (s : State) (n : Nat) (j : Nat) : (s.drawn n).comb j = s.comb j := rfl
@[simp] theorem State.thread_drawn (s : State) (n : Nat) (j : Nat) : (s.drawn n).thread j = s.thread j := rfl
@[simp] theorem State.ctx_drawn (s : State) (n : Nat) (j : Nat) : (s.drawn n).ctx j = s.ctx j := rfl
@[simp] theorem State.entrySt_drawn (s : State) (n : Nat) (j : Nat) : (s.drawn n).entrySt j = s.entrySt j := rfl
@[simp] theorem State.bay_drawn (s : State) (n : Nat) (j : Nat) : (s.drawn n).bay j = s.bay j := rfl
@[simp] theorem State.port_drawn (s : State) (n : Nat) (j : Nat) : (s.drawn n).port j = s.port j := rfl
@[simp] theorem State.ring_drawn (s : State) (n : Nat) (j : Nat) : (s.drawn n).ring j = s.ring j := rfl
@[simp] theorem State.cluster_drawn (s : State) (n : Nat) (j : Nat) : (s.drawn n).cluster j = s.cluster j := rfl
@[simp] theorem State.conv_drawn (s : State) (n : Nat) (j : Nat) : (s.drawn n).conv j = s.conv j := rfl
@[simp] theorem State.trace_drawn (s : State) (n : Nat) (j : Nat) : (s.drawn n).trace j = s.trace j := rfl
@[simp] theorem State.sensor_drawn (s : State) (n : Nat) (j : Nat) : (s.drawn n).sensor j = s.sensor j := rfl
@[simp] theorem State.fldAt_drawn (s : State) (n : Nat) (e : Fld) (j o : Nat) : (s.drawn n).fldAt e j o = s.fldAt e j o := rfl
@[simp] theorem State.fld_drawn (s : State) (n : Nat) (e : Fld) (j : Nat) : (s.drawn n).fld e j = s.fld e j := rfl
@[simp] theorem State.flag_drawn (s : State) (n : Nat) (e : Fld) (j : Nat) : (s.drawn n).flag e j = s.flag e j := rfl
@[simp] theorem State.byte_drawn (s : State) (n : Nat) (j : Nat) : (s.drawn n).byte j = s.byte j := rfl
@[simp] theorem State.hostByte_drawn (s : State) (n : Nat) (j : Nat) : (s.drawn n).hostByte j = s.hostByte j := rfl
@[simp] theorem State.poisoned_drawn (s : State) (n : Nat) (j : Nat) : (s.drawn n).poisoned j = s.poisoned j := rfl
@[simp] theorem State.inService_drawn (s : State) (n : Nat) : (s.drawn n).inService = s.inService := rfl
@[simp] theorem State.served_drawn (s : State) (n : Nat) (j : Path) : (s.drawn n).served j = s.served j := rfl
@[simp] theorem State.tokenPerm_drawn (s : State) (n : Nat) (j : Nat) : (s.drawn n).tokenPerm j = s.tokenPerm j := rfl
@[simp] theorem State.bytes_drawn (s : State) (n : Nat) (j m : Nat) : (s.drawn n).bytes j m = s.bytes j m := rfl
@[simp] theorem State.readNat_drawn (s : State) (n : Nat) (j m : Nat) : (s.drawn n).readNat j m = s.readNat j m := rfl

/-! ## setFldAt -/

@[simp] theorem State.setFldAt_pending (s : State) (g : Fld) (i p v : Nat) : (s.setFldAt g i p v).pending = s.pending := rfl
@[simp] theorem State.setFldAt_free (s : State) (g : Fld) (i p v : Nat) : (s.setFldAt g i p v).free = s.free := rfl
@[simp] theorem State.setFldAt_reply (s : State) (g : Fld) (i p v : Nat) : (s.setFldAt g i p v).reply = s.reply := rfl
@[simp] theorem State.setFldAt_time (s : State) (g : Fld) (i p v : Nat) : (s.setFldAt g i p v).time = s.time := rfl
@[simp] theorem State.setFldAt_pins (s : State) (g : Fld) (i p v : Nat) : (s.setFldAt g i p v).pins = s.pins := rfl
@[simp] theorem State.setFldAt_boot (s : State) (g : Fld) (i p v : Nat) : (s.setFldAt g i p v).boot = s.boot := rfl
@[simp] theorem State.setFldAt_cfg (s : State) (g : Fld) (i p v : Nat) : (s.setFldAt g i p v).cfg = s.cfg := rfl
@[simp] theorem State.setFldAt_cfgSeq (s : State) (g : Fld) (i p v : Nat) : (s.setFldAt g i p v).cfgSeq = s.cfgSeq := rfl
@[simp] theorem State.setFldAt_flash (s : State) (g : Fld) (i p v : Nat) : (s.setFldAt g i p v).flash = s.flash := rfl
@[simp] theorem State.setFldAt_jnl (s : State) (g : Fld) (i p v : Nat) : (s.setFldAt g i p v).jnl = s.jnl := rfl
@[simp] theorem State.setFldAt_sec (s : State) (g : Fld) (i p v : Nat) : (s.setFldAt g i p v).sec = s.sec := rfl
@[simp] theorem State.setFldAt_log (s : State) (g : Fld) (i p v : Nat) : (s.setFldAt g i p v).log = s.log := rfl
@[simp] theorem State.setFldAt_evHead (s : State) (g : Fld) (i p v : Nat) : (s.setFldAt g i p v).evHead = s.evHead := rfl
@[simp] theorem State.setFldAt_refusedAt (s : State) (g : Fld) (i p v : Nat) : (s.setFldAt g i p v).refusedAt = s.refusedAt := rfl
@[simp] theorem State.setFldAt_mem (s : State) (g : Fld) (i p v : Nat) : (s.setFldAt g i p v).mem = s.mem := rfl
@[simp] theorem State.setFldAt_hostMem (s : State) (g : Fld) (i p v : Nat) : (s.setFldAt g i p v).hostMem = s.hostMem := rfl
@[simp] theorem State.setFldAt_poison (s : State) (g : Fld) (i p v : Nat) : (s.setFldAt g i p v).poison = s.poison := rfl
@[simp] theorem State.setFldAt_wordErr (s : State) (g : Fld) (i p v : Nat) : (s.setFldAt g i p v).wordErr = s.wordErr := rfl
@[simp] theorem State.setFldAt_feFull (s : State) (g : Fld) (i p v : Nat) : (s.setFldAt g i p v).feFull = s.feFull := rfl
@[simp] theorem State.setFldAt_feOwner (s : State) (g : Fld) (i p v : Nat) : (s.setFldAt g i p v).feOwner = s.feOwner := rfl
@[simp] theorem State.setFldAt_feOps (s : State) (g : Fld) (i p v : Nat) : (s.setFldAt g i p v).feOps = s.feOps := rfl
@[simp] theorem State.setFldAt_lats (s : State) (g : Fld) (i p v : Nat) : (s.setFldAt g i p v).lats = s.lats := rfl
@[simp] theorem State.setFldAt_combs (s : State) (g : Fld) (i p v : Nat) : (s.setFldAt g i p v).combs = s.combs := rfl
@[simp] theorem State.setFldAt_threads (s : State) (g : Fld) (i p v : Nat) : (s.setFldAt g i p v).threads = s.threads := rfl
@[simp] theorem State.setFldAt_ctxs (s : State) (g : Fld) (i p v : Nat) : (s.setFldAt g i p v).ctxs = s.ctxs := rfl
@[simp] theorem State.setFldAt_entries (s : State) (g : Fld) (i p v : Nat) : (s.setFldAt g i p v).entries = s.entries := rfl
@[simp] theorem State.setFldAt_admitQueue (s : State) (g : Fld) (i p v : Nat) : (s.setFldAt g i p v).admitQueue = s.admitQueue := rfl
@[simp] theorem State.setFldAt_issued (s : State) (g : Fld) (i p v : Nat) : (s.setFldAt g i p v).issued = s.issued := rfl
@[simp] theorem State.setFldAt_bays (s : State) (g : Fld) (i p v : Nat) : (s.setFldAt g i p v).bays = s.bays := rfl
@[simp] theorem State.setFldAt_cxl (s : State) (g : Fld) (i p v : Nat) : (s.setFldAt g i p v).cxl = s.cxl := rfl
@[simp] theorem State.setFldAt_ports (s : State) (g : Fld) (i p v : Nat) : (s.setFldAt g i p v).ports = s.ports := rfl
@[simp] theorem State.setFldAt_hnx (s : State) (g : Fld) (i p v : Nat) : (s.setFldAt g i p v).hnx = s.hnx := rfl
@[simp] theorem State.setFldAt_rings (s : State) (g : Fld) (i p v : Nat) : (s.setFldAt g i p v).rings = s.rings := rfl
@[simp] theorem State.setFldAt_coefs (s : State) (g : Fld) (i p v : Nat) : (s.setFldAt g i p v).coefs = s.coefs := rfl
@[simp] theorem State.setFldAt_clusters (s : State) (g : Fld) (i p v : Nat) : (s.setFldAt g i p v).clusters = s.clusters := rfl
@[simp] theorem State.setFldAt_convs (s : State) (g : Fld) (i p v : Nat) : (s.setFldAt g i p v).convs = s.convs := rfl
@[simp] theorem State.setFldAt_traces (s : State) (g : Fld) (i p v : Nat) : (s.setFldAt g i p v).traces = s.traces := rfl
@[simp] theorem State.setFldAt_power (s : State) (g : Fld) (i p v : Nat) : (s.setFldAt g i p v).power = s.power := rfl
@[simp] theorem State.setFldAt_sensors (s : State) (g : Fld) (i p v : Nat) : (s.setFldAt g i p v).sensors = s.sensors := rfl
@[simp] theorem State.setFldAt_mgmt (s : State) (g : Fld) (i p v : Nat) : (s.setFldAt g i p v).mgmt = s.mgmt := rfl
@[simp] theorem State.lat_setFldAt (s : State) (g : Fld) (i p v : Nat) (j : Nat) : (s.setFldAt g i p v).lat j = s.lat j := rfl
@[simp] theorem State.comb_setFldAt (s : State) (g : Fld) (i p v : Nat) (j : Nat) : (s.setFldAt g i p v).comb j = s.comb j := rfl
@[simp] theorem State.thread_setFldAt (s : State) (g : Fld) (i p v : Nat) (j : Nat) : (s.setFldAt g i p v).thread j = s.thread j := rfl
@[simp] theorem State.ctx_setFldAt (s : State) (g : Fld) (i p v : Nat) (j : Nat) : (s.setFldAt g i p v).ctx j = s.ctx j := rfl
@[simp] theorem State.entrySt_setFldAt (s : State) (g : Fld) (i p v : Nat) (j : Nat) : (s.setFldAt g i p v).entrySt j = s.entrySt j := rfl
@[simp] theorem State.bay_setFldAt (s : State) (g : Fld) (i p v : Nat) (j : Nat) : (s.setFldAt g i p v).bay j = s.bay j := rfl
@[simp] theorem State.port_setFldAt (s : State) (g : Fld) (i p v : Nat) (j : Nat) : (s.setFldAt g i p v).port j = s.port j := rfl
@[simp] theorem State.ring_setFldAt (s : State) (g : Fld) (i p v : Nat) (j : Nat) : (s.setFldAt g i p v).ring j = s.ring j := rfl
@[simp] theorem State.cluster_setFldAt (s : State) (g : Fld) (i p v : Nat) (j : Nat) : (s.setFldAt g i p v).cluster j = s.cluster j := rfl
@[simp] theorem State.conv_setFldAt (s : State) (g : Fld) (i p v : Nat) (j : Nat) : (s.setFldAt g i p v).conv j = s.conv j := rfl
@[simp] theorem State.trace_setFldAt (s : State) (g : Fld) (i p v : Nat) (j : Nat) : (s.setFldAt g i p v).trace j = s.trace j := rfl
@[simp] theorem State.sensor_setFldAt (s : State) (g : Fld) (i p v : Nat) (j : Nat) : (s.setFldAt g i p v).sensor j = s.sensor j := rfl
@[simp] theorem State.byte_setFldAt (s : State) (g : Fld) (i p v : Nat) (j : Nat) : (s.setFldAt g i p v).byte j = s.byte j := rfl
@[simp] theorem State.hostByte_setFldAt (s : State) (g : Fld) (i p v : Nat) (j : Nat) : (s.setFldAt g i p v).hostByte j = s.hostByte j := rfl
@[simp] theorem State.poisoned_setFldAt (s : State) (g : Fld) (i p v : Nat) (j : Nat) : (s.setFldAt g i p v).poisoned j = s.poisoned j := rfl
@[simp] theorem State.inService_setFldAt (s : State) (g : Fld) (i p v : Nat) : (s.setFldAt g i p v).inService = s.inService := rfl
@[simp] theorem State.served_setFldAt (s : State) (g : Fld) (i p v : Nat) (j : Path) : (s.setFldAt g i p v).served j = s.served j := rfl
@[simp] theorem State.tokenPerm_setFldAt (s : State) (g : Fld) (i p v : Nat) (j : Nat) : (s.setFldAt g i p v).tokenPerm j = s.tokenPerm j := rfl
@[simp] theorem State.bytes_setFldAt (s : State) (g : Fld) (i p v : Nat) (j m : Nat) : (s.setFldAt g i p v).bytes j m = s.bytes j m := rfl
@[simp] theorem State.readNat_setFldAt (s : State) (g : Fld) (i p v : Nat) (j m : Nat) : (s.setFldAt g i p v).readNat j m = s.readNat j m := rfl

/-! ## setFld -/

@[simp] theorem State.setFld_pending (s : State) (g : Fld) (i v : Nat) : (s.setFld g i v).pending = s.pending := rfl
@[simp] theorem State.setFld_free (s : State) (g : Fld) (i v : Nat) : (s.setFld g i v).free = s.free := rfl
@[simp] theorem State.setFld_reply (s : State) (g : Fld) (i v : Nat) : (s.setFld g i v).reply = s.reply := rfl
@[simp] theorem State.setFld_time (s : State) (g : Fld) (i v : Nat) : (s.setFld g i v).time = s.time := rfl
@[simp] theorem State.setFld_pins (s : State) (g : Fld) (i v : Nat) : (s.setFld g i v).pins = s.pins := rfl
@[simp] theorem State.setFld_boot (s : State) (g : Fld) (i v : Nat) : (s.setFld g i v).boot = s.boot := rfl
@[simp] theorem State.setFld_cfg (s : State) (g : Fld) (i v : Nat) : (s.setFld g i v).cfg = s.cfg := rfl
@[simp] theorem State.setFld_cfgSeq (s : State) (g : Fld) (i v : Nat) : (s.setFld g i v).cfgSeq = s.cfgSeq := rfl
@[simp] theorem State.setFld_flash (s : State) (g : Fld) (i v : Nat) : (s.setFld g i v).flash = s.flash := rfl
@[simp] theorem State.setFld_jnl (s : State) (g : Fld) (i v : Nat) : (s.setFld g i v).jnl = s.jnl := rfl
@[simp] theorem State.setFld_sec (s : State) (g : Fld) (i v : Nat) : (s.setFld g i v).sec = s.sec := rfl
@[simp] theorem State.setFld_log (s : State) (g : Fld) (i v : Nat) : (s.setFld g i v).log = s.log := rfl
@[simp] theorem State.setFld_evHead (s : State) (g : Fld) (i v : Nat) : (s.setFld g i v).evHead = s.evHead := rfl
@[simp] theorem State.setFld_refusedAt (s : State) (g : Fld) (i v : Nat) : (s.setFld g i v).refusedAt = s.refusedAt := rfl
@[simp] theorem State.setFld_mem (s : State) (g : Fld) (i v : Nat) : (s.setFld g i v).mem = s.mem := rfl
@[simp] theorem State.setFld_hostMem (s : State) (g : Fld) (i v : Nat) : (s.setFld g i v).hostMem = s.hostMem := rfl
@[simp] theorem State.setFld_poison (s : State) (g : Fld) (i v : Nat) : (s.setFld g i v).poison = s.poison := rfl
@[simp] theorem State.setFld_wordErr (s : State) (g : Fld) (i v : Nat) : (s.setFld g i v).wordErr = s.wordErr := rfl
@[simp] theorem State.setFld_feFull (s : State) (g : Fld) (i v : Nat) : (s.setFld g i v).feFull = s.feFull := rfl
@[simp] theorem State.setFld_feOwner (s : State) (g : Fld) (i v : Nat) : (s.setFld g i v).feOwner = s.feOwner := rfl
@[simp] theorem State.setFld_feOps (s : State) (g : Fld) (i v : Nat) : (s.setFld g i v).feOps = s.feOps := rfl
@[simp] theorem State.setFld_lats (s : State) (g : Fld) (i v : Nat) : (s.setFld g i v).lats = s.lats := rfl
@[simp] theorem State.setFld_combs (s : State) (g : Fld) (i v : Nat) : (s.setFld g i v).combs = s.combs := rfl
@[simp] theorem State.setFld_threads (s : State) (g : Fld) (i v : Nat) : (s.setFld g i v).threads = s.threads := rfl
@[simp] theorem State.setFld_ctxs (s : State) (g : Fld) (i v : Nat) : (s.setFld g i v).ctxs = s.ctxs := rfl
@[simp] theorem State.setFld_entries (s : State) (g : Fld) (i v : Nat) : (s.setFld g i v).entries = s.entries := rfl
@[simp] theorem State.setFld_admitQueue (s : State) (g : Fld) (i v : Nat) : (s.setFld g i v).admitQueue = s.admitQueue := rfl
@[simp] theorem State.setFld_issued (s : State) (g : Fld) (i v : Nat) : (s.setFld g i v).issued = s.issued := rfl
@[simp] theorem State.setFld_bays (s : State) (g : Fld) (i v : Nat) : (s.setFld g i v).bays = s.bays := rfl
@[simp] theorem State.setFld_cxl (s : State) (g : Fld) (i v : Nat) : (s.setFld g i v).cxl = s.cxl := rfl
@[simp] theorem State.setFld_ports (s : State) (g : Fld) (i v : Nat) : (s.setFld g i v).ports = s.ports := rfl
@[simp] theorem State.setFld_hnx (s : State) (g : Fld) (i v : Nat) : (s.setFld g i v).hnx = s.hnx := rfl
@[simp] theorem State.setFld_rings (s : State) (g : Fld) (i v : Nat) : (s.setFld g i v).rings = s.rings := rfl
@[simp] theorem State.setFld_coefs (s : State) (g : Fld) (i v : Nat) : (s.setFld g i v).coefs = s.coefs := rfl
@[simp] theorem State.setFld_clusters (s : State) (g : Fld) (i v : Nat) : (s.setFld g i v).clusters = s.clusters := rfl
@[simp] theorem State.setFld_convs (s : State) (g : Fld) (i v : Nat) : (s.setFld g i v).convs = s.convs := rfl
@[simp] theorem State.setFld_traces (s : State) (g : Fld) (i v : Nat) : (s.setFld g i v).traces = s.traces := rfl
@[simp] theorem State.setFld_power (s : State) (g : Fld) (i v : Nat) : (s.setFld g i v).power = s.power := rfl
@[simp] theorem State.setFld_sensors (s : State) (g : Fld) (i v : Nat) : (s.setFld g i v).sensors = s.sensors := rfl
@[simp] theorem State.setFld_mgmt (s : State) (g : Fld) (i v : Nat) : (s.setFld g i v).mgmt = s.mgmt := rfl
@[simp] theorem State.lat_setFld (s : State) (g : Fld) (i v : Nat) (j : Nat) : (s.setFld g i v).lat j = s.lat j := rfl
@[simp] theorem State.comb_setFld (s : State) (g : Fld) (i v : Nat) (j : Nat) : (s.setFld g i v).comb j = s.comb j := rfl
@[simp] theorem State.thread_setFld (s : State) (g : Fld) (i v : Nat) (j : Nat) : (s.setFld g i v).thread j = s.thread j := rfl
@[simp] theorem State.ctx_setFld (s : State) (g : Fld) (i v : Nat) (j : Nat) : (s.setFld g i v).ctx j = s.ctx j := rfl
@[simp] theorem State.entrySt_setFld (s : State) (g : Fld) (i v : Nat) (j : Nat) : (s.setFld g i v).entrySt j = s.entrySt j := rfl
@[simp] theorem State.bay_setFld (s : State) (g : Fld) (i v : Nat) (j : Nat) : (s.setFld g i v).bay j = s.bay j := rfl
@[simp] theorem State.port_setFld (s : State) (g : Fld) (i v : Nat) (j : Nat) : (s.setFld g i v).port j = s.port j := rfl
@[simp] theorem State.ring_setFld (s : State) (g : Fld) (i v : Nat) (j : Nat) : (s.setFld g i v).ring j = s.ring j := rfl
@[simp] theorem State.cluster_setFld (s : State) (g : Fld) (i v : Nat) (j : Nat) : (s.setFld g i v).cluster j = s.cluster j := rfl
@[simp] theorem State.conv_setFld (s : State) (g : Fld) (i v : Nat) (j : Nat) : (s.setFld g i v).conv j = s.conv j := rfl
@[simp] theorem State.trace_setFld (s : State) (g : Fld) (i v : Nat) (j : Nat) : (s.setFld g i v).trace j = s.trace j := rfl
@[simp] theorem State.sensor_setFld (s : State) (g : Fld) (i v : Nat) (j : Nat) : (s.setFld g i v).sensor j = s.sensor j := rfl
@[simp] theorem State.byte_setFld (s : State) (g : Fld) (i v : Nat) (j : Nat) : (s.setFld g i v).byte j = s.byte j := rfl
@[simp] theorem State.hostByte_setFld (s : State) (g : Fld) (i v : Nat) (j : Nat) : (s.setFld g i v).hostByte j = s.hostByte j := rfl
@[simp] theorem State.poisoned_setFld (s : State) (g : Fld) (i v : Nat) (j : Nat) : (s.setFld g i v).poisoned j = s.poisoned j := rfl
@[simp] theorem State.inService_setFld (s : State) (g : Fld) (i v : Nat) : (s.setFld g i v).inService = s.inService := rfl
@[simp] theorem State.served_setFld (s : State) (g : Fld) (i v : Nat) (j : Path) : (s.setFld g i v).served j = s.served j := rfl
@[simp] theorem State.tokenPerm_setFld (s : State) (g : Fld) (i v : Nat) (j : Nat) : (s.setFld g i v).tokenPerm j = s.tokenPerm j := rfl
@[simp] theorem State.bytes_setFld (s : State) (g : Fld) (i v : Nat) (j m : Nat) : (s.setFld g i v).bytes j m = s.bytes j m := rfl
@[simp] theorem State.readNat_setFld (s : State) (g : Fld) (i v : Nat) (j m : Nat) : (s.setFld g i v).readNat j m = s.readNat j m := rfl

/-! ## bump -/

@[simp] theorem State.bump_pending (s : State) (g : Fld) (i n : Nat) : (s.bump g i n).pending = s.pending := rfl
@[simp] theorem State.bump_free (s : State) (g : Fld) (i n : Nat) : (s.bump g i n).free = s.free := rfl
@[simp] theorem State.bump_reply (s : State) (g : Fld) (i n : Nat) : (s.bump g i n).reply = s.reply := rfl
@[simp] theorem State.bump_time (s : State) (g : Fld) (i n : Nat) : (s.bump g i n).time = s.time := rfl
@[simp] theorem State.bump_pins (s : State) (g : Fld) (i n : Nat) : (s.bump g i n).pins = s.pins := rfl
@[simp] theorem State.bump_boot (s : State) (g : Fld) (i n : Nat) : (s.bump g i n).boot = s.boot := rfl
@[simp] theorem State.bump_cfg (s : State) (g : Fld) (i n : Nat) : (s.bump g i n).cfg = s.cfg := rfl
@[simp] theorem State.bump_cfgSeq (s : State) (g : Fld) (i n : Nat) : (s.bump g i n).cfgSeq = s.cfgSeq := rfl
@[simp] theorem State.bump_flash (s : State) (g : Fld) (i n : Nat) : (s.bump g i n).flash = s.flash := rfl
@[simp] theorem State.bump_jnl (s : State) (g : Fld) (i n : Nat) : (s.bump g i n).jnl = s.jnl := rfl
@[simp] theorem State.bump_sec (s : State) (g : Fld) (i n : Nat) : (s.bump g i n).sec = s.sec := rfl
@[simp] theorem State.bump_log (s : State) (g : Fld) (i n : Nat) : (s.bump g i n).log = s.log := rfl
@[simp] theorem State.bump_evHead (s : State) (g : Fld) (i n : Nat) : (s.bump g i n).evHead = s.evHead := rfl
@[simp] theorem State.bump_refusedAt (s : State) (g : Fld) (i n : Nat) : (s.bump g i n).refusedAt = s.refusedAt := rfl
@[simp] theorem State.bump_mem (s : State) (g : Fld) (i n : Nat) : (s.bump g i n).mem = s.mem := rfl
@[simp] theorem State.bump_hostMem (s : State) (g : Fld) (i n : Nat) : (s.bump g i n).hostMem = s.hostMem := rfl
@[simp] theorem State.bump_poison (s : State) (g : Fld) (i n : Nat) : (s.bump g i n).poison = s.poison := rfl
@[simp] theorem State.bump_wordErr (s : State) (g : Fld) (i n : Nat) : (s.bump g i n).wordErr = s.wordErr := rfl
@[simp] theorem State.bump_feFull (s : State) (g : Fld) (i n : Nat) : (s.bump g i n).feFull = s.feFull := rfl
@[simp] theorem State.bump_feOwner (s : State) (g : Fld) (i n : Nat) : (s.bump g i n).feOwner = s.feOwner := rfl
@[simp] theorem State.bump_feOps (s : State) (g : Fld) (i n : Nat) : (s.bump g i n).feOps = s.feOps := rfl
@[simp] theorem State.bump_lats (s : State) (g : Fld) (i n : Nat) : (s.bump g i n).lats = s.lats := rfl
@[simp] theorem State.bump_combs (s : State) (g : Fld) (i n : Nat) : (s.bump g i n).combs = s.combs := rfl
@[simp] theorem State.bump_threads (s : State) (g : Fld) (i n : Nat) : (s.bump g i n).threads = s.threads := rfl
@[simp] theorem State.bump_ctxs (s : State) (g : Fld) (i n : Nat) : (s.bump g i n).ctxs = s.ctxs := rfl
@[simp] theorem State.bump_entries (s : State) (g : Fld) (i n : Nat) : (s.bump g i n).entries = s.entries := rfl
@[simp] theorem State.bump_admitQueue (s : State) (g : Fld) (i n : Nat) : (s.bump g i n).admitQueue = s.admitQueue := rfl
@[simp] theorem State.bump_issued (s : State) (g : Fld) (i n : Nat) : (s.bump g i n).issued = s.issued := rfl
@[simp] theorem State.bump_bays (s : State) (g : Fld) (i n : Nat) : (s.bump g i n).bays = s.bays := rfl
@[simp] theorem State.bump_cxl (s : State) (g : Fld) (i n : Nat) : (s.bump g i n).cxl = s.cxl := rfl
@[simp] theorem State.bump_ports (s : State) (g : Fld) (i n : Nat) : (s.bump g i n).ports = s.ports := rfl
@[simp] theorem State.bump_hnx (s : State) (g : Fld) (i n : Nat) : (s.bump g i n).hnx = s.hnx := rfl
@[simp] theorem State.bump_rings (s : State) (g : Fld) (i n : Nat) : (s.bump g i n).rings = s.rings := rfl
@[simp] theorem State.bump_coefs (s : State) (g : Fld) (i n : Nat) : (s.bump g i n).coefs = s.coefs := rfl
@[simp] theorem State.bump_clusters (s : State) (g : Fld) (i n : Nat) : (s.bump g i n).clusters = s.clusters := rfl
@[simp] theorem State.bump_convs (s : State) (g : Fld) (i n : Nat) : (s.bump g i n).convs = s.convs := rfl
@[simp] theorem State.bump_traces (s : State) (g : Fld) (i n : Nat) : (s.bump g i n).traces = s.traces := rfl
@[simp] theorem State.bump_power (s : State) (g : Fld) (i n : Nat) : (s.bump g i n).power = s.power := rfl
@[simp] theorem State.bump_sensors (s : State) (g : Fld) (i n : Nat) : (s.bump g i n).sensors = s.sensors := rfl
@[simp] theorem State.bump_mgmt (s : State) (g : Fld) (i n : Nat) : (s.bump g i n).mgmt = s.mgmt := rfl
@[simp] theorem State.lat_bump (s : State) (g : Fld) (i n : Nat) (j : Nat) : (s.bump g i n).lat j = s.lat j := rfl
@[simp] theorem State.comb_bump (s : State) (g : Fld) (i n : Nat) (j : Nat) : (s.bump g i n).comb j = s.comb j := rfl
@[simp] theorem State.thread_bump (s : State) (g : Fld) (i n : Nat) (j : Nat) : (s.bump g i n).thread j = s.thread j := rfl
@[simp] theorem State.ctx_bump (s : State) (g : Fld) (i n : Nat) (j : Nat) : (s.bump g i n).ctx j = s.ctx j := rfl
@[simp] theorem State.entrySt_bump (s : State) (g : Fld) (i n : Nat) (j : Nat) : (s.bump g i n).entrySt j = s.entrySt j := rfl
@[simp] theorem State.bay_bump (s : State) (g : Fld) (i n : Nat) (j : Nat) : (s.bump g i n).bay j = s.bay j := rfl
@[simp] theorem State.port_bump (s : State) (g : Fld) (i n : Nat) (j : Nat) : (s.bump g i n).port j = s.port j := rfl
@[simp] theorem State.ring_bump (s : State) (g : Fld) (i n : Nat) (j : Nat) : (s.bump g i n).ring j = s.ring j := rfl
@[simp] theorem State.cluster_bump (s : State) (g : Fld) (i n : Nat) (j : Nat) : (s.bump g i n).cluster j = s.cluster j := rfl
@[simp] theorem State.conv_bump (s : State) (g : Fld) (i n : Nat) (j : Nat) : (s.bump g i n).conv j = s.conv j := rfl
@[simp] theorem State.trace_bump (s : State) (g : Fld) (i n : Nat) (j : Nat) : (s.bump g i n).trace j = s.trace j := rfl
@[simp] theorem State.sensor_bump (s : State) (g : Fld) (i n : Nat) (j : Nat) : (s.bump g i n).sensor j = s.sensor j := rfl
@[simp] theorem State.byte_bump (s : State) (g : Fld) (i n : Nat) (j : Nat) : (s.bump g i n).byte j = s.byte j := rfl
@[simp] theorem State.hostByte_bump (s : State) (g : Fld) (i n : Nat) (j : Nat) : (s.bump g i n).hostByte j = s.hostByte j := rfl
@[simp] theorem State.poisoned_bump (s : State) (g : Fld) (i n : Nat) (j : Nat) : (s.bump g i n).poisoned j = s.poisoned j := rfl
@[simp] theorem State.inService_bump (s : State) (g : Fld) (i n : Nat) : (s.bump g i n).inService = s.inService := rfl
@[simp] theorem State.served_bump (s : State) (g : Fld) (i n : Nat) (j : Path) : (s.bump g i n).served j = s.served j := rfl
@[simp] theorem State.tokenPerm_bump (s : State) (g : Fld) (i n : Nat) (j : Nat) : (s.bump g i n).tokenPerm j = s.tokenPerm j := rfl
@[simp] theorem State.bytes_bump (s : State) (g : Fld) (i n : Nat) (j m : Nat) : (s.bump g i n).bytes j m = s.bytes j m := rfl
@[simp] theorem State.readNat_bump (s : State) (g : Fld) (i n : Nat) (j m : Nat) : (s.bump g i n).readNat j m = s.readNat j m := rfl

/-! ## raise -/

@[simp] theorem State.raise_pending (s : State) (g : Fld) (i v : Nat) : (s.raise g i v).pending = s.pending := rfl
@[simp] theorem State.raise_free (s : State) (g : Fld) (i v : Nat) : (s.raise g i v).free = s.free := rfl
@[simp] theorem State.raise_reply (s : State) (g : Fld) (i v : Nat) : (s.raise g i v).reply = s.reply := rfl
@[simp] theorem State.raise_time (s : State) (g : Fld) (i v : Nat) : (s.raise g i v).time = s.time := rfl
@[simp] theorem State.raise_pins (s : State) (g : Fld) (i v : Nat) : (s.raise g i v).pins = s.pins := rfl
@[simp] theorem State.raise_boot (s : State) (g : Fld) (i v : Nat) : (s.raise g i v).boot = s.boot := rfl
@[simp] theorem State.raise_cfg (s : State) (g : Fld) (i v : Nat) : (s.raise g i v).cfg = s.cfg := rfl
@[simp] theorem State.raise_cfgSeq (s : State) (g : Fld) (i v : Nat) : (s.raise g i v).cfgSeq = s.cfgSeq := rfl
@[simp] theorem State.raise_flash (s : State) (g : Fld) (i v : Nat) : (s.raise g i v).flash = s.flash := rfl
@[simp] theorem State.raise_jnl (s : State) (g : Fld) (i v : Nat) : (s.raise g i v).jnl = s.jnl := rfl
@[simp] theorem State.raise_sec (s : State) (g : Fld) (i v : Nat) : (s.raise g i v).sec = s.sec := rfl
@[simp] theorem State.raise_log (s : State) (g : Fld) (i v : Nat) : (s.raise g i v).log = s.log := rfl
@[simp] theorem State.raise_evHead (s : State) (g : Fld) (i v : Nat) : (s.raise g i v).evHead = s.evHead := rfl
@[simp] theorem State.raise_refusedAt (s : State) (g : Fld) (i v : Nat) : (s.raise g i v).refusedAt = s.refusedAt := rfl
@[simp] theorem State.raise_mem (s : State) (g : Fld) (i v : Nat) : (s.raise g i v).mem = s.mem := rfl
@[simp] theorem State.raise_hostMem (s : State) (g : Fld) (i v : Nat) : (s.raise g i v).hostMem = s.hostMem := rfl
@[simp] theorem State.raise_poison (s : State) (g : Fld) (i v : Nat) : (s.raise g i v).poison = s.poison := rfl
@[simp] theorem State.raise_wordErr (s : State) (g : Fld) (i v : Nat) : (s.raise g i v).wordErr = s.wordErr := rfl
@[simp] theorem State.raise_feFull (s : State) (g : Fld) (i v : Nat) : (s.raise g i v).feFull = s.feFull := rfl
@[simp] theorem State.raise_feOwner (s : State) (g : Fld) (i v : Nat) : (s.raise g i v).feOwner = s.feOwner := rfl
@[simp] theorem State.raise_feOps (s : State) (g : Fld) (i v : Nat) : (s.raise g i v).feOps = s.feOps := rfl
@[simp] theorem State.raise_lats (s : State) (g : Fld) (i v : Nat) : (s.raise g i v).lats = s.lats := rfl
@[simp] theorem State.raise_combs (s : State) (g : Fld) (i v : Nat) : (s.raise g i v).combs = s.combs := rfl
@[simp] theorem State.raise_threads (s : State) (g : Fld) (i v : Nat) : (s.raise g i v).threads = s.threads := rfl
@[simp] theorem State.raise_ctxs (s : State) (g : Fld) (i v : Nat) : (s.raise g i v).ctxs = s.ctxs := rfl
@[simp] theorem State.raise_entries (s : State) (g : Fld) (i v : Nat) : (s.raise g i v).entries = s.entries := rfl
@[simp] theorem State.raise_admitQueue (s : State) (g : Fld) (i v : Nat) : (s.raise g i v).admitQueue = s.admitQueue := rfl
@[simp] theorem State.raise_issued (s : State) (g : Fld) (i v : Nat) : (s.raise g i v).issued = s.issued := rfl
@[simp] theorem State.raise_bays (s : State) (g : Fld) (i v : Nat) : (s.raise g i v).bays = s.bays := rfl
@[simp] theorem State.raise_cxl (s : State) (g : Fld) (i v : Nat) : (s.raise g i v).cxl = s.cxl := rfl
@[simp] theorem State.raise_ports (s : State) (g : Fld) (i v : Nat) : (s.raise g i v).ports = s.ports := rfl
@[simp] theorem State.raise_hnx (s : State) (g : Fld) (i v : Nat) : (s.raise g i v).hnx = s.hnx := rfl
@[simp] theorem State.raise_rings (s : State) (g : Fld) (i v : Nat) : (s.raise g i v).rings = s.rings := rfl
@[simp] theorem State.raise_coefs (s : State) (g : Fld) (i v : Nat) : (s.raise g i v).coefs = s.coefs := rfl
@[simp] theorem State.raise_clusters (s : State) (g : Fld) (i v : Nat) : (s.raise g i v).clusters = s.clusters := rfl
@[simp] theorem State.raise_convs (s : State) (g : Fld) (i v : Nat) : (s.raise g i v).convs = s.convs := rfl
@[simp] theorem State.raise_traces (s : State) (g : Fld) (i v : Nat) : (s.raise g i v).traces = s.traces := rfl
@[simp] theorem State.raise_power (s : State) (g : Fld) (i v : Nat) : (s.raise g i v).power = s.power := rfl
@[simp] theorem State.raise_sensors (s : State) (g : Fld) (i v : Nat) : (s.raise g i v).sensors = s.sensors := rfl
@[simp] theorem State.raise_mgmt (s : State) (g : Fld) (i v : Nat) : (s.raise g i v).mgmt = s.mgmt := rfl
@[simp] theorem State.lat_raise (s : State) (g : Fld) (i v : Nat) (j : Nat) : (s.raise g i v).lat j = s.lat j := rfl
@[simp] theorem State.comb_raise (s : State) (g : Fld) (i v : Nat) (j : Nat) : (s.raise g i v).comb j = s.comb j := rfl
@[simp] theorem State.thread_raise (s : State) (g : Fld) (i v : Nat) (j : Nat) : (s.raise g i v).thread j = s.thread j := rfl
@[simp] theorem State.ctx_raise (s : State) (g : Fld) (i v : Nat) (j : Nat) : (s.raise g i v).ctx j = s.ctx j := rfl
@[simp] theorem State.entrySt_raise (s : State) (g : Fld) (i v : Nat) (j : Nat) : (s.raise g i v).entrySt j = s.entrySt j := rfl
@[simp] theorem State.bay_raise (s : State) (g : Fld) (i v : Nat) (j : Nat) : (s.raise g i v).bay j = s.bay j := rfl
@[simp] theorem State.port_raise (s : State) (g : Fld) (i v : Nat) (j : Nat) : (s.raise g i v).port j = s.port j := rfl
@[simp] theorem State.ring_raise (s : State) (g : Fld) (i v : Nat) (j : Nat) : (s.raise g i v).ring j = s.ring j := rfl
@[simp] theorem State.cluster_raise (s : State) (g : Fld) (i v : Nat) (j : Nat) : (s.raise g i v).cluster j = s.cluster j := rfl
@[simp] theorem State.conv_raise (s : State) (g : Fld) (i v : Nat) (j : Nat) : (s.raise g i v).conv j = s.conv j := rfl
@[simp] theorem State.trace_raise (s : State) (g : Fld) (i v : Nat) (j : Nat) : (s.raise g i v).trace j = s.trace j := rfl
@[simp] theorem State.sensor_raise (s : State) (g : Fld) (i v : Nat) (j : Nat) : (s.raise g i v).sensor j = s.sensor j := rfl
@[simp] theorem State.byte_raise (s : State) (g : Fld) (i v : Nat) (j : Nat) : (s.raise g i v).byte j = s.byte j := rfl
@[simp] theorem State.hostByte_raise (s : State) (g : Fld) (i v : Nat) (j : Nat) : (s.raise g i v).hostByte j = s.hostByte j := rfl
@[simp] theorem State.poisoned_raise (s : State) (g : Fld) (i v : Nat) (j : Nat) : (s.raise g i v).poisoned j = s.poisoned j := rfl
@[simp] theorem State.inService_raise (s : State) (g : Fld) (i v : Nat) : (s.raise g i v).inService = s.inService := rfl
@[simp] theorem State.served_raise (s : State) (g : Fld) (i v : Nat) (j : Path) : (s.raise g i v).served j = s.served j := rfl
@[simp] theorem State.tokenPerm_raise (s : State) (g : Fld) (i v : Nat) (j : Nat) : (s.raise g i v).tokenPerm j = s.tokenPerm j := rfl
@[simp] theorem State.bytes_raise (s : State) (g : Fld) (i v : Nat) (j m : Nat) : (s.raise g i v).bytes j m = s.bytes j m := rfl
@[simp] theorem State.readNat_raise (s : State) (g : Fld) (i v : Nat) (j m : Nat) : (s.raise g i v).readNat j m = s.readNat j m := rfl

/-! ## resetWarmFields -/

@[simp] theorem State.resetWarmFields_pending (s : State) : (s.resetWarmFields).pending = s.pending := rfl
@[simp] theorem State.resetWarmFields_free (s : State) : (s.resetWarmFields).free = s.free := rfl
@[simp] theorem State.resetWarmFields_reply (s : State) : (s.resetWarmFields).reply = s.reply := rfl
@[simp] theorem State.resetWarmFields_time (s : State) : (s.resetWarmFields).time = s.time := rfl
@[simp] theorem State.resetWarmFields_pins (s : State) : (s.resetWarmFields).pins = s.pins := rfl
@[simp] theorem State.resetWarmFields_boot (s : State) : (s.resetWarmFields).boot = s.boot := rfl
@[simp] theorem State.resetWarmFields_cfg (s : State) : (s.resetWarmFields).cfg = s.cfg := rfl
@[simp] theorem State.resetWarmFields_cfgSeq (s : State) : (s.resetWarmFields).cfgSeq = s.cfgSeq := rfl
@[simp] theorem State.resetWarmFields_flash (s : State) : (s.resetWarmFields).flash = s.flash := rfl
@[simp] theorem State.resetWarmFields_jnl (s : State) : (s.resetWarmFields).jnl = s.jnl := rfl
@[simp] theorem State.resetWarmFields_sec (s : State) : (s.resetWarmFields).sec = s.sec := rfl
@[simp] theorem State.resetWarmFields_log (s : State) : (s.resetWarmFields).log = s.log := rfl
@[simp] theorem State.resetWarmFields_evHead (s : State) : (s.resetWarmFields).evHead = s.evHead := rfl
@[simp] theorem State.resetWarmFields_refusedAt (s : State) : (s.resetWarmFields).refusedAt = s.refusedAt := rfl
@[simp] theorem State.resetWarmFields_mem (s : State) : (s.resetWarmFields).mem = s.mem := rfl
@[simp] theorem State.resetWarmFields_hostMem (s : State) : (s.resetWarmFields).hostMem = s.hostMem := rfl
@[simp] theorem State.resetWarmFields_poison (s : State) : (s.resetWarmFields).poison = s.poison := rfl
@[simp] theorem State.resetWarmFields_wordErr (s : State) : (s.resetWarmFields).wordErr = s.wordErr := rfl
@[simp] theorem State.resetWarmFields_feFull (s : State) : (s.resetWarmFields).feFull = s.feFull := rfl
@[simp] theorem State.resetWarmFields_feOwner (s : State) : (s.resetWarmFields).feOwner = s.feOwner := rfl
@[simp] theorem State.resetWarmFields_feOps (s : State) : (s.resetWarmFields).feOps = s.feOps := rfl
@[simp] theorem State.resetWarmFields_lats (s : State) : (s.resetWarmFields).lats = s.lats := rfl
@[simp] theorem State.resetWarmFields_combs (s : State) : (s.resetWarmFields).combs = s.combs := rfl
@[simp] theorem State.resetWarmFields_threads (s : State) : (s.resetWarmFields).threads = s.threads := rfl
@[simp] theorem State.resetWarmFields_ctxs (s : State) : (s.resetWarmFields).ctxs = s.ctxs := rfl
@[simp] theorem State.resetWarmFields_entries (s : State) : (s.resetWarmFields).entries = s.entries := rfl
@[simp] theorem State.resetWarmFields_admitQueue (s : State) : (s.resetWarmFields).admitQueue = s.admitQueue := rfl
@[simp] theorem State.resetWarmFields_issued (s : State) : (s.resetWarmFields).issued = s.issued := rfl
@[simp] theorem State.resetWarmFields_bays (s : State) : (s.resetWarmFields).bays = s.bays := rfl
@[simp] theorem State.resetWarmFields_cxl (s : State) : (s.resetWarmFields).cxl = s.cxl := rfl
@[simp] theorem State.resetWarmFields_ports (s : State) : (s.resetWarmFields).ports = s.ports := rfl
@[simp] theorem State.resetWarmFields_hnx (s : State) : (s.resetWarmFields).hnx = s.hnx := rfl
@[simp] theorem State.resetWarmFields_rings (s : State) : (s.resetWarmFields).rings = s.rings := rfl
@[simp] theorem State.resetWarmFields_coefs (s : State) : (s.resetWarmFields).coefs = s.coefs := rfl
@[simp] theorem State.resetWarmFields_clusters (s : State) : (s.resetWarmFields).clusters = s.clusters := rfl
@[simp] theorem State.resetWarmFields_convs (s : State) : (s.resetWarmFields).convs = s.convs := rfl
@[simp] theorem State.resetWarmFields_traces (s : State) : (s.resetWarmFields).traces = s.traces := rfl
@[simp] theorem State.resetWarmFields_power (s : State) : (s.resetWarmFields).power = s.power := rfl
@[simp] theorem State.resetWarmFields_sensors (s : State) : (s.resetWarmFields).sensors = s.sensors := rfl
@[simp] theorem State.resetWarmFields_mgmt (s : State) : (s.resetWarmFields).mgmt = s.mgmt := rfl
@[simp] theorem State.lat_resetWarmFields (s : State) (j : Nat) : (s.resetWarmFields).lat j = s.lat j := rfl
@[simp] theorem State.comb_resetWarmFields (s : State) (j : Nat) : (s.resetWarmFields).comb j = s.comb j := rfl
@[simp] theorem State.thread_resetWarmFields (s : State) (j : Nat) : (s.resetWarmFields).thread j = s.thread j := rfl
@[simp] theorem State.ctx_resetWarmFields (s : State) (j : Nat) : (s.resetWarmFields).ctx j = s.ctx j := rfl
@[simp] theorem State.entrySt_resetWarmFields (s : State) (j : Nat) : (s.resetWarmFields).entrySt j = s.entrySt j := rfl
@[simp] theorem State.bay_resetWarmFields (s : State) (j : Nat) : (s.resetWarmFields).bay j = s.bay j := rfl
@[simp] theorem State.port_resetWarmFields (s : State) (j : Nat) : (s.resetWarmFields).port j = s.port j := rfl
@[simp] theorem State.ring_resetWarmFields (s : State) (j : Nat) : (s.resetWarmFields).ring j = s.ring j := rfl
@[simp] theorem State.cluster_resetWarmFields (s : State) (j : Nat) : (s.resetWarmFields).cluster j = s.cluster j := rfl
@[simp] theorem State.conv_resetWarmFields (s : State) (j : Nat) : (s.resetWarmFields).conv j = s.conv j := rfl
@[simp] theorem State.trace_resetWarmFields (s : State) (j : Nat) : (s.resetWarmFields).trace j = s.trace j := rfl
@[simp] theorem State.sensor_resetWarmFields (s : State) (j : Nat) : (s.resetWarmFields).sensor j = s.sensor j := rfl
@[simp] theorem State.byte_resetWarmFields (s : State) (j : Nat) : (s.resetWarmFields).byte j = s.byte j := rfl
@[simp] theorem State.hostByte_resetWarmFields (s : State) (j : Nat) : (s.resetWarmFields).hostByte j = s.hostByte j := rfl
@[simp] theorem State.poisoned_resetWarmFields (s : State) (j : Nat) : (s.resetWarmFields).poisoned j = s.poisoned j := rfl
@[simp] theorem State.inService_resetWarmFields (s : State) : (s.resetWarmFields).inService = s.inService := rfl
@[simp] theorem State.served_resetWarmFields (s : State) (j : Path) : (s.resetWarmFields).served j = s.served j := rfl
@[simp] theorem State.tokenPerm_resetWarmFields (s : State) (j : Nat) : (s.resetWarmFields).tokenPerm j = s.tokenPerm j := rfl
@[simp] theorem State.bytes_resetWarmFields (s : State) (j m : Nat) : (s.resetWarmFields).bytes j m = s.bytes j m := rfl
@[simp] theorem State.readNat_resetWarmFields (s : State) (j m : Nat) : (s.resetWarmFields).readNat j m = s.readNat j m := rfl

/-! ## store -/

@[simp] theorem State.store_pending (s : State) (a : Nat) (d : List Byte) : (s.store a d).pending = s.pending := rfl
@[simp] theorem State.store_free (s : State) (a : Nat) (d : List Byte) : (s.store a d).free = s.free := rfl
@[simp] theorem State.store_reply (s : State) (a : Nat) (d : List Byte) : (s.store a d).reply = s.reply := rfl
@[simp] theorem State.store_time (s : State) (a : Nat) (d : List Byte) : (s.store a d).time = s.time := rfl
@[simp] theorem State.store_pins (s : State) (a : Nat) (d : List Byte) : (s.store a d).pins = s.pins := rfl
@[simp] theorem State.store_boot (s : State) (a : Nat) (d : List Byte) : (s.store a d).boot = s.boot := rfl
@[simp] theorem State.store_cfg (s : State) (a : Nat) (d : List Byte) : (s.store a d).cfg = s.cfg := rfl
@[simp] theorem State.store_cfgSeq (s : State) (a : Nat) (d : List Byte) : (s.store a d).cfgSeq = s.cfgSeq := rfl
@[simp] theorem State.store_flash (s : State) (a : Nat) (d : List Byte) : (s.store a d).flash = s.flash := rfl
@[simp] theorem State.store_jnl (s : State) (a : Nat) (d : List Byte) : (s.store a d).jnl = s.jnl := rfl
@[simp] theorem State.store_sec (s : State) (a : Nat) (d : List Byte) : (s.store a d).sec = s.sec := rfl
@[simp] theorem State.store_log (s : State) (a : Nat) (d : List Byte) : (s.store a d).log = s.log := rfl
@[simp] theorem State.store_evHead (s : State) (a : Nat) (d : List Byte) : (s.store a d).evHead = s.evHead := rfl
@[simp] theorem State.store_flds (s : State) (a : Nat) (d : List Byte) : (s.store a d).flds = s.flds := rfl
@[simp] theorem State.store_refusedAt (s : State) (a : Nat) (d : List Byte) : (s.store a d).refusedAt = s.refusedAt := rfl
@[simp] theorem State.store_hostMem (s : State) (a : Nat) (d : List Byte) : (s.store a d).hostMem = s.hostMem := rfl
@[simp] theorem State.store_poison (s : State) (a : Nat) (d : List Byte) : (s.store a d).poison = s.poison := rfl
@[simp] theorem State.store_wordErr (s : State) (a : Nat) (d : List Byte) : (s.store a d).wordErr = s.wordErr := rfl
@[simp] theorem State.store_feFull (s : State) (a : Nat) (d : List Byte) : (s.store a d).feFull = s.feFull := rfl
@[simp] theorem State.store_feOwner (s : State) (a : Nat) (d : List Byte) : (s.store a d).feOwner = s.feOwner := rfl
@[simp] theorem State.store_feOps (s : State) (a : Nat) (d : List Byte) : (s.store a d).feOps = s.feOps := rfl
@[simp] theorem State.store_lats (s : State) (a : Nat) (d : List Byte) : (s.store a d).lats = s.lats := rfl
@[simp] theorem State.store_combs (s : State) (a : Nat) (d : List Byte) : (s.store a d).combs = s.combs := rfl
@[simp] theorem State.store_threads (s : State) (a : Nat) (d : List Byte) : (s.store a d).threads = s.threads := rfl
@[simp] theorem State.store_ctxs (s : State) (a : Nat) (d : List Byte) : (s.store a d).ctxs = s.ctxs := rfl
@[simp] theorem State.store_entries (s : State) (a : Nat) (d : List Byte) : (s.store a d).entries = s.entries := rfl
@[simp] theorem State.store_admitQueue (s : State) (a : Nat) (d : List Byte) : (s.store a d).admitQueue = s.admitQueue := rfl
@[simp] theorem State.store_issued (s : State) (a : Nat) (d : List Byte) : (s.store a d).issued = s.issued := rfl
@[simp] theorem State.store_bays (s : State) (a : Nat) (d : List Byte) : (s.store a d).bays = s.bays := rfl
@[simp] theorem State.store_cxl (s : State) (a : Nat) (d : List Byte) : (s.store a d).cxl = s.cxl := rfl
@[simp] theorem State.store_ports (s : State) (a : Nat) (d : List Byte) : (s.store a d).ports = s.ports := rfl
@[simp] theorem State.store_hnx (s : State) (a : Nat) (d : List Byte) : (s.store a d).hnx = s.hnx := rfl
@[simp] theorem State.store_rings (s : State) (a : Nat) (d : List Byte) : (s.store a d).rings = s.rings := rfl
@[simp] theorem State.store_coefs (s : State) (a : Nat) (d : List Byte) : (s.store a d).coefs = s.coefs := rfl
@[simp] theorem State.store_clusters (s : State) (a : Nat) (d : List Byte) : (s.store a d).clusters = s.clusters := rfl
@[simp] theorem State.store_convs (s : State) (a : Nat) (d : List Byte) : (s.store a d).convs = s.convs := rfl
@[simp] theorem State.store_traces (s : State) (a : Nat) (d : List Byte) : (s.store a d).traces = s.traces := rfl
@[simp] theorem State.store_power (s : State) (a : Nat) (d : List Byte) : (s.store a d).power = s.power := rfl
@[simp] theorem State.store_sensors (s : State) (a : Nat) (d : List Byte) : (s.store a d).sensors = s.sensors := rfl
@[simp] theorem State.store_mgmt (s : State) (a : Nat) (d : List Byte) : (s.store a d).mgmt = s.mgmt := rfl
@[simp] theorem State.lat_store (s : State) (a : Nat) (d : List Byte) (j : Nat) : (s.store a d).lat j = s.lat j := rfl
@[simp] theorem State.comb_store (s : State) (a : Nat) (d : List Byte) (j : Nat) : (s.store a d).comb j = s.comb j := rfl
@[simp] theorem State.thread_store (s : State) (a : Nat) (d : List Byte) (j : Nat) : (s.store a d).thread j = s.thread j := rfl
@[simp] theorem State.ctx_store (s : State) (a : Nat) (d : List Byte) (j : Nat) : (s.store a d).ctx j = s.ctx j := rfl
@[simp] theorem State.entrySt_store (s : State) (a : Nat) (d : List Byte) (j : Nat) : (s.store a d).entrySt j = s.entrySt j := rfl
@[simp] theorem State.bay_store (s : State) (a : Nat) (d : List Byte) (j : Nat) : (s.store a d).bay j = s.bay j := rfl
@[simp] theorem State.port_store (s : State) (a : Nat) (d : List Byte) (j : Nat) : (s.store a d).port j = s.port j := rfl
@[simp] theorem State.ring_store (s : State) (a : Nat) (d : List Byte) (j : Nat) : (s.store a d).ring j = s.ring j := rfl
@[simp] theorem State.cluster_store (s : State) (a : Nat) (d : List Byte) (j : Nat) : (s.store a d).cluster j = s.cluster j := rfl
@[simp] theorem State.conv_store (s : State) (a : Nat) (d : List Byte) (j : Nat) : (s.store a d).conv j = s.conv j := rfl
@[simp] theorem State.trace_store (s : State) (a : Nat) (d : List Byte) (j : Nat) : (s.store a d).trace j = s.trace j := rfl
@[simp] theorem State.sensor_store (s : State) (a : Nat) (d : List Byte) (j : Nat) : (s.store a d).sensor j = s.sensor j := rfl
@[simp] theorem State.fldAt_store (s : State) (a : Nat) (d : List Byte) (e : Fld) (j o : Nat) : (s.store a d).fldAt e j o = s.fldAt e j o := rfl
@[simp] theorem State.fld_store (s : State) (a : Nat) (d : List Byte) (e : Fld) (j : Nat) : (s.store a d).fld e j = s.fld e j := rfl
@[simp] theorem State.flag_store (s : State) (a : Nat) (d : List Byte) (e : Fld) (j : Nat) : (s.store a d).flag e j = s.flag e j := rfl
@[simp] theorem State.hostByte_store (s : State) (a : Nat) (d : List Byte) (j : Nat) : (s.store a d).hostByte j = s.hostByte j := rfl
@[simp] theorem State.poisoned_store (s : State) (a : Nat) (d : List Byte) (j : Nat) : (s.store a d).poisoned j = s.poisoned j := rfl
@[simp] theorem State.inService_store (s : State) (a : Nat) (d : List Byte) : (s.store a d).inService = s.inService := rfl
@[simp] theorem State.served_store (s : State) (a : Nat) (d : List Byte) (j : Path) : (s.store a d).served j = s.served j := rfl
@[simp] theorem State.tokenPerm_store (s : State) (a : Nat) (d : List Byte) (j : Nat) : (s.store a d).tokenPerm j = s.tokenPerm j := rfl

/-! ## hostStore -/

@[simp] theorem State.hostStore_pending (s : State) (a : Nat) (d : List Byte) : (s.hostStore a d).pending = s.pending := rfl
@[simp] theorem State.hostStore_free (s : State) (a : Nat) (d : List Byte) : (s.hostStore a d).free = s.free := rfl
@[simp] theorem State.hostStore_reply (s : State) (a : Nat) (d : List Byte) : (s.hostStore a d).reply = s.reply := rfl
@[simp] theorem State.hostStore_time (s : State) (a : Nat) (d : List Byte) : (s.hostStore a d).time = s.time := rfl
@[simp] theorem State.hostStore_pins (s : State) (a : Nat) (d : List Byte) : (s.hostStore a d).pins = s.pins := rfl
@[simp] theorem State.hostStore_boot (s : State) (a : Nat) (d : List Byte) : (s.hostStore a d).boot = s.boot := rfl
@[simp] theorem State.hostStore_cfg (s : State) (a : Nat) (d : List Byte) : (s.hostStore a d).cfg = s.cfg := rfl
@[simp] theorem State.hostStore_cfgSeq (s : State) (a : Nat) (d : List Byte) : (s.hostStore a d).cfgSeq = s.cfgSeq := rfl
@[simp] theorem State.hostStore_flash (s : State) (a : Nat) (d : List Byte) : (s.hostStore a d).flash = s.flash := rfl
@[simp] theorem State.hostStore_jnl (s : State) (a : Nat) (d : List Byte) : (s.hostStore a d).jnl = s.jnl := rfl
@[simp] theorem State.hostStore_sec (s : State) (a : Nat) (d : List Byte) : (s.hostStore a d).sec = s.sec := rfl
@[simp] theorem State.hostStore_log (s : State) (a : Nat) (d : List Byte) : (s.hostStore a d).log = s.log := rfl
@[simp] theorem State.hostStore_evHead (s : State) (a : Nat) (d : List Byte) : (s.hostStore a d).evHead = s.evHead := rfl
@[simp] theorem State.hostStore_flds (s : State) (a : Nat) (d : List Byte) : (s.hostStore a d).flds = s.flds := rfl
@[simp] theorem State.hostStore_refusedAt (s : State) (a : Nat) (d : List Byte) : (s.hostStore a d).refusedAt = s.refusedAt := rfl
@[simp] theorem State.hostStore_mem (s : State) (a : Nat) (d : List Byte) : (s.hostStore a d).mem = s.mem := rfl
@[simp] theorem State.hostStore_poison (s : State) (a : Nat) (d : List Byte) : (s.hostStore a d).poison = s.poison := rfl
@[simp] theorem State.hostStore_wordErr (s : State) (a : Nat) (d : List Byte) : (s.hostStore a d).wordErr = s.wordErr := rfl
@[simp] theorem State.hostStore_feFull (s : State) (a : Nat) (d : List Byte) : (s.hostStore a d).feFull = s.feFull := rfl
@[simp] theorem State.hostStore_feOwner (s : State) (a : Nat) (d : List Byte) : (s.hostStore a d).feOwner = s.feOwner := rfl
@[simp] theorem State.hostStore_feOps (s : State) (a : Nat) (d : List Byte) : (s.hostStore a d).feOps = s.feOps := rfl
@[simp] theorem State.hostStore_lats (s : State) (a : Nat) (d : List Byte) : (s.hostStore a d).lats = s.lats := rfl
@[simp] theorem State.hostStore_combs (s : State) (a : Nat) (d : List Byte) : (s.hostStore a d).combs = s.combs := rfl
@[simp] theorem State.hostStore_threads (s : State) (a : Nat) (d : List Byte) : (s.hostStore a d).threads = s.threads := rfl
@[simp] theorem State.hostStore_ctxs (s : State) (a : Nat) (d : List Byte) : (s.hostStore a d).ctxs = s.ctxs := rfl
@[simp] theorem State.hostStore_entries (s : State) (a : Nat) (d : List Byte) : (s.hostStore a d).entries = s.entries := rfl
@[simp] theorem State.hostStore_admitQueue (s : State) (a : Nat) (d : List Byte) : (s.hostStore a d).admitQueue = s.admitQueue := rfl
@[simp] theorem State.hostStore_issued (s : State) (a : Nat) (d : List Byte) : (s.hostStore a d).issued = s.issued := rfl
@[simp] theorem State.hostStore_bays (s : State) (a : Nat) (d : List Byte) : (s.hostStore a d).bays = s.bays := rfl
@[simp] theorem State.hostStore_cxl (s : State) (a : Nat) (d : List Byte) : (s.hostStore a d).cxl = s.cxl := rfl
@[simp] theorem State.hostStore_ports (s : State) (a : Nat) (d : List Byte) : (s.hostStore a d).ports = s.ports := rfl
@[simp] theorem State.hostStore_hnx (s : State) (a : Nat) (d : List Byte) : (s.hostStore a d).hnx = s.hnx := rfl
@[simp] theorem State.hostStore_rings (s : State) (a : Nat) (d : List Byte) : (s.hostStore a d).rings = s.rings := rfl
@[simp] theorem State.hostStore_coefs (s : State) (a : Nat) (d : List Byte) : (s.hostStore a d).coefs = s.coefs := rfl
@[simp] theorem State.hostStore_clusters (s : State) (a : Nat) (d : List Byte) : (s.hostStore a d).clusters = s.clusters := rfl
@[simp] theorem State.hostStore_convs (s : State) (a : Nat) (d : List Byte) : (s.hostStore a d).convs = s.convs := rfl
@[simp] theorem State.hostStore_traces (s : State) (a : Nat) (d : List Byte) : (s.hostStore a d).traces = s.traces := rfl
@[simp] theorem State.hostStore_power (s : State) (a : Nat) (d : List Byte) : (s.hostStore a d).power = s.power := rfl
@[simp] theorem State.hostStore_sensors (s : State) (a : Nat) (d : List Byte) : (s.hostStore a d).sensors = s.sensors := rfl
@[simp] theorem State.hostStore_mgmt (s : State) (a : Nat) (d : List Byte) : (s.hostStore a d).mgmt = s.mgmt := rfl
@[simp] theorem State.lat_hostStore (s : State) (a : Nat) (d : List Byte) (j : Nat) : (s.hostStore a d).lat j = s.lat j := rfl
@[simp] theorem State.comb_hostStore (s : State) (a : Nat) (d : List Byte) (j : Nat) : (s.hostStore a d).comb j = s.comb j := rfl
@[simp] theorem State.thread_hostStore (s : State) (a : Nat) (d : List Byte) (j : Nat) : (s.hostStore a d).thread j = s.thread j := rfl
@[simp] theorem State.ctx_hostStore (s : State) (a : Nat) (d : List Byte) (j : Nat) : (s.hostStore a d).ctx j = s.ctx j := rfl
@[simp] theorem State.entrySt_hostStore (s : State) (a : Nat) (d : List Byte) (j : Nat) : (s.hostStore a d).entrySt j = s.entrySt j := rfl
@[simp] theorem State.bay_hostStore (s : State) (a : Nat) (d : List Byte) (j : Nat) : (s.hostStore a d).bay j = s.bay j := rfl
@[simp] theorem State.port_hostStore (s : State) (a : Nat) (d : List Byte) (j : Nat) : (s.hostStore a d).port j = s.port j := rfl
@[simp] theorem State.ring_hostStore (s : State) (a : Nat) (d : List Byte) (j : Nat) : (s.hostStore a d).ring j = s.ring j := rfl
@[simp] theorem State.cluster_hostStore (s : State) (a : Nat) (d : List Byte) (j : Nat) : (s.hostStore a d).cluster j = s.cluster j := rfl
@[simp] theorem State.conv_hostStore (s : State) (a : Nat) (d : List Byte) (j : Nat) : (s.hostStore a d).conv j = s.conv j := rfl
@[simp] theorem State.trace_hostStore (s : State) (a : Nat) (d : List Byte) (j : Nat) : (s.hostStore a d).trace j = s.trace j := rfl
@[simp] theorem State.sensor_hostStore (s : State) (a : Nat) (d : List Byte) (j : Nat) : (s.hostStore a d).sensor j = s.sensor j := rfl
@[simp] theorem State.fldAt_hostStore (s : State) (a : Nat) (d : List Byte) (e : Fld) (j o : Nat) : (s.hostStore a d).fldAt e j o = s.fldAt e j o := rfl
@[simp] theorem State.fld_hostStore (s : State) (a : Nat) (d : List Byte) (e : Fld) (j : Nat) : (s.hostStore a d).fld e j = s.fld e j := rfl
@[simp] theorem State.flag_hostStore (s : State) (a : Nat) (d : List Byte) (e : Fld) (j : Nat) : (s.hostStore a d).flag e j = s.flag e j := rfl
@[simp] theorem State.byte_hostStore (s : State) (a : Nat) (d : List Byte) (j : Nat) : (s.hostStore a d).byte j = s.byte j := rfl
@[simp] theorem State.poisoned_hostStore (s : State) (a : Nat) (d : List Byte) (j : Nat) : (s.hostStore a d).poisoned j = s.poisoned j := rfl
@[simp] theorem State.inService_hostStore (s : State) (a : Nat) (d : List Byte) : (s.hostStore a d).inService = s.inService := rfl
@[simp] theorem State.served_hostStore (s : State) (a : Nat) (d : List Byte) (j : Path) : (s.hostStore a d).served j = s.served j := rfl
@[simp] theorem State.tokenPerm_hostStore (s : State) (a : Nat) (d : List Byte) (j : Nat) : (s.hostStore a d).tokenPerm j = s.tokenPerm j := rfl
@[simp] theorem State.bytes_hostStore (s : State) (a : Nat) (d : List Byte) (j m : Nat) : (s.hostStore a d).bytes j m = s.bytes j m := rfl
@[simp] theorem State.readNat_hostStore (s : State) (a : Nat) (d : List Byte) (j m : Nat) : (s.hostStore a d).readNat j m = s.readNat j m := rfl

/-! ## setPoison -/

@[simp] theorem State.setPoison_pending (s : State) (n : Nat) (v : Bool) : (s.setPoison n v).pending = s.pending := rfl
@[simp] theorem State.setPoison_free (s : State) (n : Nat) (v : Bool) : (s.setPoison n v).free = s.free := rfl
@[simp] theorem State.setPoison_reply (s : State) (n : Nat) (v : Bool) : (s.setPoison n v).reply = s.reply := rfl
@[simp] theorem State.setPoison_time (s : State) (n : Nat) (v : Bool) : (s.setPoison n v).time = s.time := rfl
@[simp] theorem State.setPoison_pins (s : State) (n : Nat) (v : Bool) : (s.setPoison n v).pins = s.pins := rfl
@[simp] theorem State.setPoison_boot (s : State) (n : Nat) (v : Bool) : (s.setPoison n v).boot = s.boot := rfl
@[simp] theorem State.setPoison_cfg (s : State) (n : Nat) (v : Bool) : (s.setPoison n v).cfg = s.cfg := rfl
@[simp] theorem State.setPoison_cfgSeq (s : State) (n : Nat) (v : Bool) : (s.setPoison n v).cfgSeq = s.cfgSeq := rfl
@[simp] theorem State.setPoison_flash (s : State) (n : Nat) (v : Bool) : (s.setPoison n v).flash = s.flash := rfl
@[simp] theorem State.setPoison_jnl (s : State) (n : Nat) (v : Bool) : (s.setPoison n v).jnl = s.jnl := rfl
@[simp] theorem State.setPoison_sec (s : State) (n : Nat) (v : Bool) : (s.setPoison n v).sec = s.sec := rfl
@[simp] theorem State.setPoison_log (s : State) (n : Nat) (v : Bool) : (s.setPoison n v).log = s.log := rfl
@[simp] theorem State.setPoison_evHead (s : State) (n : Nat) (v : Bool) : (s.setPoison n v).evHead = s.evHead := rfl
@[simp] theorem State.setPoison_flds (s : State) (n : Nat) (v : Bool) : (s.setPoison n v).flds = s.flds := rfl
@[simp] theorem State.setPoison_refusedAt (s : State) (n : Nat) (v : Bool) : (s.setPoison n v).refusedAt = s.refusedAt := rfl
@[simp] theorem State.setPoison_mem (s : State) (n : Nat) (v : Bool) : (s.setPoison n v).mem = s.mem := rfl
@[simp] theorem State.setPoison_hostMem (s : State) (n : Nat) (v : Bool) : (s.setPoison n v).hostMem = s.hostMem := rfl
@[simp] theorem State.setPoison_wordErr (s : State) (n : Nat) (v : Bool) : (s.setPoison n v).wordErr = s.wordErr := rfl
@[simp] theorem State.setPoison_feFull (s : State) (n : Nat) (v : Bool) : (s.setPoison n v).feFull = s.feFull := rfl
@[simp] theorem State.setPoison_feOwner (s : State) (n : Nat) (v : Bool) : (s.setPoison n v).feOwner = s.feOwner := rfl
@[simp] theorem State.setPoison_feOps (s : State) (n : Nat) (v : Bool) : (s.setPoison n v).feOps = s.feOps := rfl
@[simp] theorem State.setPoison_lats (s : State) (n : Nat) (v : Bool) : (s.setPoison n v).lats = s.lats := rfl
@[simp] theorem State.setPoison_combs (s : State) (n : Nat) (v : Bool) : (s.setPoison n v).combs = s.combs := rfl
@[simp] theorem State.setPoison_threads (s : State) (n : Nat) (v : Bool) : (s.setPoison n v).threads = s.threads := rfl
@[simp] theorem State.setPoison_ctxs (s : State) (n : Nat) (v : Bool) : (s.setPoison n v).ctxs = s.ctxs := rfl
@[simp] theorem State.setPoison_entries (s : State) (n : Nat) (v : Bool) : (s.setPoison n v).entries = s.entries := rfl
@[simp] theorem State.setPoison_admitQueue (s : State) (n : Nat) (v : Bool) : (s.setPoison n v).admitQueue = s.admitQueue := rfl
@[simp] theorem State.setPoison_issued (s : State) (n : Nat) (v : Bool) : (s.setPoison n v).issued = s.issued := rfl
@[simp] theorem State.setPoison_bays (s : State) (n : Nat) (v : Bool) : (s.setPoison n v).bays = s.bays := rfl
@[simp] theorem State.setPoison_cxl (s : State) (n : Nat) (v : Bool) : (s.setPoison n v).cxl = s.cxl := rfl
@[simp] theorem State.setPoison_ports (s : State) (n : Nat) (v : Bool) : (s.setPoison n v).ports = s.ports := rfl
@[simp] theorem State.setPoison_hnx (s : State) (n : Nat) (v : Bool) : (s.setPoison n v).hnx = s.hnx := rfl
@[simp] theorem State.setPoison_rings (s : State) (n : Nat) (v : Bool) : (s.setPoison n v).rings = s.rings := rfl
@[simp] theorem State.setPoison_coefs (s : State) (n : Nat) (v : Bool) : (s.setPoison n v).coefs = s.coefs := rfl
@[simp] theorem State.setPoison_clusters (s : State) (n : Nat) (v : Bool) : (s.setPoison n v).clusters = s.clusters := rfl
@[simp] theorem State.setPoison_convs (s : State) (n : Nat) (v : Bool) : (s.setPoison n v).convs = s.convs := rfl
@[simp] theorem State.setPoison_traces (s : State) (n : Nat) (v : Bool) : (s.setPoison n v).traces = s.traces := rfl
@[simp] theorem State.setPoison_power (s : State) (n : Nat) (v : Bool) : (s.setPoison n v).power = s.power := rfl
@[simp] theorem State.setPoison_sensors (s : State) (n : Nat) (v : Bool) : (s.setPoison n v).sensors = s.sensors := rfl
@[simp] theorem State.setPoison_mgmt (s : State) (n : Nat) (v : Bool) : (s.setPoison n v).mgmt = s.mgmt := rfl
@[simp] theorem State.lat_setPoison (s : State) (n : Nat) (v : Bool) (j : Nat) : (s.setPoison n v).lat j = s.lat j := rfl
@[simp] theorem State.comb_setPoison (s : State) (n : Nat) (v : Bool) (j : Nat) : (s.setPoison n v).comb j = s.comb j := rfl
@[simp] theorem State.thread_setPoison (s : State) (n : Nat) (v : Bool) (j : Nat) : (s.setPoison n v).thread j = s.thread j := rfl
@[simp] theorem State.ctx_setPoison (s : State) (n : Nat) (v : Bool) (j : Nat) : (s.setPoison n v).ctx j = s.ctx j := rfl
@[simp] theorem State.entrySt_setPoison (s : State) (n : Nat) (v : Bool) (j : Nat) : (s.setPoison n v).entrySt j = s.entrySt j := rfl
@[simp] theorem State.bay_setPoison (s : State) (n : Nat) (v : Bool) (j : Nat) : (s.setPoison n v).bay j = s.bay j := rfl
@[simp] theorem State.port_setPoison (s : State) (n : Nat) (v : Bool) (j : Nat) : (s.setPoison n v).port j = s.port j := rfl
@[simp] theorem State.ring_setPoison (s : State) (n : Nat) (v : Bool) (j : Nat) : (s.setPoison n v).ring j = s.ring j := rfl
@[simp] theorem State.cluster_setPoison (s : State) (n : Nat) (v : Bool) (j : Nat) : (s.setPoison n v).cluster j = s.cluster j := rfl
@[simp] theorem State.conv_setPoison (s : State) (n : Nat) (v : Bool) (j : Nat) : (s.setPoison n v).conv j = s.conv j := rfl
@[simp] theorem State.trace_setPoison (s : State) (n : Nat) (v : Bool) (j : Nat) : (s.setPoison n v).trace j = s.trace j := rfl
@[simp] theorem State.sensor_setPoison (s : State) (n : Nat) (v : Bool) (j : Nat) : (s.setPoison n v).sensor j = s.sensor j := rfl
@[simp] theorem State.fldAt_setPoison (s : State) (n : Nat) (v : Bool) (e : Fld) (j o : Nat) : (s.setPoison n v).fldAt e j o = s.fldAt e j o := rfl
@[simp] theorem State.fld_setPoison (s : State) (n : Nat) (v : Bool) (e : Fld) (j : Nat) : (s.setPoison n v).fld e j = s.fld e j := rfl
@[simp] theorem State.flag_setPoison (s : State) (n : Nat) (v : Bool) (e : Fld) (j : Nat) : (s.setPoison n v).flag e j = s.flag e j := rfl
@[simp] theorem State.byte_setPoison (s : State) (n : Nat) (v : Bool) (j : Nat) : (s.setPoison n v).byte j = s.byte j := rfl
@[simp] theorem State.hostByte_setPoison (s : State) (n : Nat) (v : Bool) (j : Nat) : (s.setPoison n v).hostByte j = s.hostByte j := rfl
@[simp] theorem State.inService_setPoison (s : State) (n : Nat) (v : Bool) : (s.setPoison n v).inService = s.inService := rfl
@[simp] theorem State.served_setPoison (s : State) (n : Nat) (v : Bool) (j : Path) : (s.setPoison n v).served j = s.served j := rfl
@[simp] theorem State.tokenPerm_setPoison (s : State) (n : Nat) (v : Bool) (j : Nat) : (s.setPoison n v).tokenPerm j = s.tokenPerm j := rfl
@[simp] theorem State.bytes_setPoison (s : State) (n : Nat) (v : Bool) (j m : Nat) : (s.setPoison n v).bytes j m = s.bytes j m := rfl
@[simp] theorem State.readNat_setPoison (s : State) (n : Nat) (v : Bool) (j m : Nat) : (s.setPoison n v).readNat j m = s.readNat j m := rfl

/-! ## holdWrite -/

@[simp] theorem State.holdWrite_pending (s : State) (p : Path) (b n sel v : Nat) : (s.holdWrite p b n sel v).pending = s.pending := rfl
@[simp] theorem State.holdWrite_free (s : State) (p : Path) (b n sel v : Nat) : (s.holdWrite p b n sel v).free = s.free := rfl
@[simp] theorem State.holdWrite_reply (s : State) (p : Path) (b n sel v : Nat) : (s.holdWrite p b n sel v).reply = s.reply := rfl
@[simp] theorem State.holdWrite_time (s : State) (p : Path) (b n sel v : Nat) : (s.holdWrite p b n sel v).time = s.time := rfl
@[simp] theorem State.holdWrite_pins (s : State) (p : Path) (b n sel v : Nat) : (s.holdWrite p b n sel v).pins = s.pins := rfl
@[simp] theorem State.holdWrite_boot (s : State) (p : Path) (b n sel v : Nat) : (s.holdWrite p b n sel v).boot = s.boot := rfl
@[simp] theorem State.holdWrite_cfg (s : State) (p : Path) (b n sel v : Nat) : (s.holdWrite p b n sel v).cfg = s.cfg := rfl
@[simp] theorem State.holdWrite_cfgSeq (s : State) (p : Path) (b n sel v : Nat) : (s.holdWrite p b n sel v).cfgSeq = s.cfgSeq := rfl
@[simp] theorem State.holdWrite_flash (s : State) (p : Path) (b n sel v : Nat) : (s.holdWrite p b n sel v).flash = s.flash := rfl
@[simp] theorem State.holdWrite_jnl (s : State) (p : Path) (b n sel v : Nat) : (s.holdWrite p b n sel v).jnl = s.jnl := rfl
@[simp] theorem State.holdWrite_sec (s : State) (p : Path) (b n sel v : Nat) : (s.holdWrite p b n sel v).sec = s.sec := rfl
@[simp] theorem State.holdWrite_log (s : State) (p : Path) (b n sel v : Nat) : (s.holdWrite p b n sel v).log = s.log := rfl
@[simp] theorem State.holdWrite_evHead (s : State) (p : Path) (b n sel v : Nat) : (s.holdWrite p b n sel v).evHead = s.evHead := rfl
@[simp] theorem State.holdWrite_flds (s : State) (p : Path) (b n sel v : Nat) : (s.holdWrite p b n sel v).flds = s.flds := rfl
@[simp] theorem State.holdWrite_refusedAt (s : State) (p : Path) (b n sel v : Nat) : (s.holdWrite p b n sel v).refusedAt = s.refusedAt := rfl
@[simp] theorem State.holdWrite_mem (s : State) (p : Path) (b n sel v : Nat) : (s.holdWrite p b n sel v).mem = s.mem := rfl
@[simp] theorem State.holdWrite_hostMem (s : State) (p : Path) (b n sel v : Nat) : (s.holdWrite p b n sel v).hostMem = s.hostMem := rfl
@[simp] theorem State.holdWrite_poison (s : State) (p : Path) (b n sel v : Nat) : (s.holdWrite p b n sel v).poison = s.poison := rfl
@[simp] theorem State.holdWrite_wordErr (s : State) (p : Path) (b n sel v : Nat) : (s.holdWrite p b n sel v).wordErr = s.wordErr := rfl
@[simp] theorem State.holdWrite_feFull (s : State) (p : Path) (b n sel v : Nat) : (s.holdWrite p b n sel v).feFull = s.feFull := rfl
@[simp] theorem State.holdWrite_feOwner (s : State) (p : Path) (b n sel v : Nat) : (s.holdWrite p b n sel v).feOwner = s.feOwner := rfl
@[simp] theorem State.holdWrite_feOps (s : State) (p : Path) (b n sel v : Nat) : (s.holdWrite p b n sel v).feOps = s.feOps := rfl
@[simp] theorem State.holdWrite_lats (s : State) (p : Path) (b n sel v : Nat) : (s.holdWrite p b n sel v).lats = s.lats := rfl
@[simp] theorem State.holdWrite_combs (s : State) (p : Path) (b n sel v : Nat) : (s.holdWrite p b n sel v).combs = s.combs := rfl
@[simp] theorem State.holdWrite_threads (s : State) (p : Path) (b n sel v : Nat) : (s.holdWrite p b n sel v).threads = s.threads := rfl
@[simp] theorem State.holdWrite_ctxs (s : State) (p : Path) (b n sel v : Nat) : (s.holdWrite p b n sel v).ctxs = s.ctxs := rfl
@[simp] theorem State.holdWrite_entries (s : State) (p : Path) (b n sel v : Nat) : (s.holdWrite p b n sel v).entries = s.entries := rfl
@[simp] theorem State.holdWrite_admitQueue (s : State) (p : Path) (b n sel v : Nat) : (s.holdWrite p b n sel v).admitQueue = s.admitQueue := rfl
@[simp] theorem State.holdWrite_issued (s : State) (p : Path) (b n sel v : Nat) : (s.holdWrite p b n sel v).issued = s.issued := rfl
@[simp] theorem State.holdWrite_cxl (s : State) (p : Path) (b n sel v : Nat) : (s.holdWrite p b n sel v).cxl = s.cxl := rfl
@[simp] theorem State.holdWrite_ports (s : State) (p : Path) (b n sel v : Nat) : (s.holdWrite p b n sel v).ports = s.ports := rfl
@[simp] theorem State.holdWrite_hnx (s : State) (p : Path) (b n sel v : Nat) : (s.holdWrite p b n sel v).hnx = s.hnx := rfl
@[simp] theorem State.holdWrite_rings (s : State) (p : Path) (b n sel v : Nat) : (s.holdWrite p b n sel v).rings = s.rings := rfl
@[simp] theorem State.holdWrite_coefs (s : State) (p : Path) (b n sel v : Nat) : (s.holdWrite p b n sel v).coefs = s.coefs := rfl
@[simp] theorem State.holdWrite_clusters (s : State) (p : Path) (b n sel v : Nat) : (s.holdWrite p b n sel v).clusters = s.clusters := rfl
@[simp] theorem State.holdWrite_convs (s : State) (p : Path) (b n sel v : Nat) : (s.holdWrite p b n sel v).convs = s.convs := rfl
@[simp] theorem State.holdWrite_traces (s : State) (p : Path) (b n sel v : Nat) : (s.holdWrite p b n sel v).traces = s.traces := rfl
@[simp] theorem State.holdWrite_power (s : State) (p : Path) (b n sel v : Nat) : (s.holdWrite p b n sel v).power = s.power := rfl
@[simp] theorem State.holdWrite_sensors (s : State) (p : Path) (b n sel v : Nat) : (s.holdWrite p b n sel v).sensors = s.sensors := rfl
@[simp] theorem State.holdWrite_mgmt (s : State) (p : Path) (b n sel v : Nat) : (s.holdWrite p b n sel v).mgmt = s.mgmt := rfl
@[simp] theorem State.lat_holdWrite (s : State) (p : Path) (b n sel v : Nat) (j : Nat) : (s.holdWrite p b n sel v).lat j = s.lat j := rfl
@[simp] theorem State.comb_holdWrite (s : State) (p : Path) (b n sel v : Nat) (j : Nat) : (s.holdWrite p b n sel v).comb j = s.comb j := rfl
@[simp] theorem State.thread_holdWrite (s : State) (p : Path) (b n sel v : Nat) (j : Nat) : (s.holdWrite p b n sel v).thread j = s.thread j := rfl
@[simp] theorem State.ctx_holdWrite (s : State) (p : Path) (b n sel v : Nat) (j : Nat) : (s.holdWrite p b n sel v).ctx j = s.ctx j := rfl
@[simp] theorem State.entrySt_holdWrite (s : State) (p : Path) (b n sel v : Nat) (j : Nat) : (s.holdWrite p b n sel v).entrySt j = s.entrySt j := rfl
@[simp] theorem State.port_holdWrite (s : State) (p : Path) (b n sel v : Nat) (j : Nat) : (s.holdWrite p b n sel v).port j = s.port j := rfl
@[simp] theorem State.ring_holdWrite (s : State) (p : Path) (b n sel v : Nat) (j : Nat) : (s.holdWrite p b n sel v).ring j = s.ring j := rfl
@[simp] theorem State.cluster_holdWrite (s : State) (p : Path) (b n sel v : Nat) (j : Nat) : (s.holdWrite p b n sel v).cluster j = s.cluster j := rfl
@[simp] theorem State.conv_holdWrite (s : State) (p : Path) (b n sel v : Nat) (j : Nat) : (s.holdWrite p b n sel v).conv j = s.conv j := rfl
@[simp] theorem State.trace_holdWrite (s : State) (p : Path) (b n sel v : Nat) (j : Nat) : (s.holdWrite p b n sel v).trace j = s.trace j := rfl
@[simp] theorem State.sensor_holdWrite (s : State) (p : Path) (b n sel v : Nat) (j : Nat) : (s.holdWrite p b n sel v).sensor j = s.sensor j := rfl
@[simp] theorem State.fldAt_holdWrite (s : State) (p : Path) (b n sel v : Nat) (e : Fld) (j o : Nat) : (s.holdWrite p b n sel v).fldAt e j o = s.fldAt e j o := rfl
@[simp] theorem State.fld_holdWrite (s : State) (p : Path) (b n sel v : Nat) (e : Fld) (j : Nat) : (s.holdWrite p b n sel v).fld e j = s.fld e j := rfl
@[simp] theorem State.flag_holdWrite (s : State) (p : Path) (b n sel v : Nat) (e : Fld) (j : Nat) : (s.holdWrite p b n sel v).flag e j = s.flag e j := rfl
@[simp] theorem State.byte_holdWrite (s : State) (p : Path) (b n sel v : Nat) (j : Nat) : (s.holdWrite p b n sel v).byte j = s.byte j := rfl
@[simp] theorem State.hostByte_holdWrite (s : State) (p : Path) (b n sel v : Nat) (j : Nat) : (s.holdWrite p b n sel v).hostByte j = s.hostByte j := rfl
@[simp] theorem State.poisoned_holdWrite (s : State) (p : Path) (b n sel v : Nat) (j : Nat) : (s.holdWrite p b n sel v).poisoned j = s.poisoned j := rfl
@[simp] theorem State.inService_holdWrite (s : State) (p : Path) (b n sel v : Nat) : (s.holdWrite p b n sel v).inService = s.inService := rfl
@[simp] theorem State.served_holdWrite (s : State) (p : Path) (b n sel v : Nat) (j : Path) : (s.holdWrite p b n sel v).served j = s.served j := rfl
@[simp] theorem State.tokenPerm_holdWrite (s : State) (p : Path) (b n sel v : Nat) (j : Nat) : (s.holdWrite p b n sel v).tokenPerm j = s.tokenPerm j := rfl
@[simp] theorem State.bytes_holdWrite (s : State) (p : Path) (b n sel v : Nat) (j m : Nat) : (s.holdWrite p b n sel v).bytes j m = s.bytes j m := rfl
@[simp] theorem State.readNat_holdWrite (s : State) (p : Path) (b n sel v : Nat) (j m : Nat) : (s.holdWrite p b n sel v).readNat j m = s.readNat j m := rfl

/-! ## Reading what was written -/

@[simp] theorem State.lat_setLat_same (s : State) (k : Nat) (x : Lattice) : (s.setLat k x).lat k = x := by
  simp [State.lat, State.setLat]
@[simp] theorem State.lat_setLat_ne (s : State) (k j : Nat) (x : Lattice) (h : j ≠ k) :
    (s.setLat k x).lat j = s.lat j := by
  simp [State.lat, State.setLat, h]
@[simp] theorem State.lat_modLat_same (s : State) (k : Nat) (f : Lattice → Lattice) : (s.modLat k f).lat k = f (s.lat k) := by
  simp [State.modLat]
@[simp] theorem State.lat_modLat_ne (s : State) (k j : Nat) (f : Lattice → Lattice) (h : j ≠ k) :
    (s.modLat k f).lat j = s.lat j := by
  simp [State.modLat, h]
@[simp] theorem State.comb_setComb_same (s : State) (k : Nat) (x : Comb) : (s.setComb k x).comb k = x := by
  simp [State.comb, State.setComb]
@[simp] theorem State.comb_setComb_ne (s : State) (k j : Nat) (x : Comb) (h : j ≠ k) :
    (s.setComb k x).comb j = s.comb j := by
  simp [State.comb, State.setComb, h]
@[simp] theorem State.comb_modComb_same (s : State) (k : Nat) (f : Comb → Comb) : (s.modComb k f).comb k = f (s.comb k) := by
  simp [State.modComb]
@[simp] theorem State.comb_modComb_ne (s : State) (k j : Nat) (f : Comb → Comb) (h : j ≠ k) :
    (s.modComb k f).comb j = s.comb j := by
  simp [State.modComb, h]
@[simp] theorem State.thread_setThread_same (s : State) (k : Nat) (x : Thread) : (s.setThread k x).thread k = x := by
  simp [State.thread, State.setThread]
@[simp] theorem State.thread_setThread_ne (s : State) (k j : Nat) (x : Thread) (h : j ≠ k) :
    (s.setThread k x).thread j = s.thread j := by
  simp [State.thread, State.setThread, h]
@[simp] theorem State.thread_modThread_same (s : State) (k : Nat) (f : Thread → Thread) : (s.modThread k f).thread k = f (s.thread k) := by
  simp [State.modThread]
@[simp] theorem State.thread_modThread_ne (s : State) (k j : Nat) (f : Thread → Thread) (h : j ≠ k) :
    (s.modThread k f).thread j = s.thread j := by
  simp [State.modThread, h]
@[simp] theorem State.ctx_setCtx_same (s : State) (k : Nat) (x : Ctx) : (s.setCtx k x).ctx k = x := by
  simp [State.ctx, State.setCtx]
@[simp] theorem State.ctx_setCtx_ne (s : State) (k j : Nat) (x : Ctx) (h : j ≠ k) :
    (s.setCtx k x).ctx j = s.ctx j := by
  simp [State.ctx, State.setCtx, h]
@[simp] theorem State.ctx_modCtx_same (s : State) (k : Nat) (f : Ctx → Ctx) : (s.modCtx k f).ctx k = f (s.ctx k) := by
  simp [State.modCtx]
@[simp] theorem State.ctx_modCtx_ne (s : State) (k j : Nat) (f : Ctx → Ctx) (h : j ≠ k) :
    (s.modCtx k f).ctx j = s.ctx j := by
  simp [State.modCtx, h]
@[simp] theorem State.entrySt_setEntry_same (s : State) (k : Nat) (x : EntrySt) : (s.setEntry k x).entrySt k = x := by
  simp [State.entrySt, State.setEntry]
@[simp] theorem State.entrySt_setEntry_ne (s : State) (k j : Nat) (x : EntrySt) (h : j ≠ k) :
    (s.setEntry k x).entrySt j = s.entrySt j := by
  simp [State.entrySt, State.setEntry, h]
@[simp] theorem State.bay_setBay_same (s : State) (k : Nat) (x : Bay) : (s.setBay k x).bay k = x := by
  simp [State.bay, State.setBay]
@[simp] theorem State.bay_setBay_ne (s : State) (k j : Nat) (x : Bay) (h : j ≠ k) :
    (s.setBay k x).bay j = s.bay j := by
  simp [State.bay, State.setBay, h]
@[simp] theorem State.bay_modBay_same (s : State) (k : Nat) (f : Bay → Bay) : (s.modBay k f).bay k = f (s.bay k) := by
  simp [State.modBay]
@[simp] theorem State.bay_modBay_ne (s : State) (k j : Nat) (f : Bay → Bay) (h : j ≠ k) :
    (s.modBay k f).bay j = s.bay j := by
  simp [State.modBay, h]
@[simp] theorem State.port_setPort_same (s : State) (k : Nat) (x : Port) : (s.setPort k x).port k = x := by
  simp [State.port, State.setPort]
@[simp] theorem State.port_setPort_ne (s : State) (k j : Nat) (x : Port) (h : j ≠ k) :
    (s.setPort k x).port j = s.port j := by
  simp [State.port, State.setPort, h]
@[simp] theorem State.port_modPort_same (s : State) (k : Nat) (f : Port → Port) : (s.modPort k f).port k = f (s.port k) := by
  simp [State.modPort]
@[simp] theorem State.port_modPort_ne (s : State) (k j : Nat) (f : Port → Port) (h : j ≠ k) :
    (s.modPort k f).port j = s.port j := by
  simp [State.modPort, h]
@[simp] theorem State.ring_setRing_same (s : State) (k : Nat) (x : Ring) : (s.setRing k x).ring k = x := by
  simp [State.ring, State.setRing]
@[simp] theorem State.ring_setRing_ne (s : State) (k j : Nat) (x : Ring) (h : j ≠ k) :
    (s.setRing k x).ring j = s.ring j := by
  simp [State.ring, State.setRing, h]
@[simp] theorem State.ring_modRing_same (s : State) (k : Nat) (f : Ring → Ring) : (s.modRing k f).ring k = f (s.ring k) := by
  simp [State.modRing]
@[simp] theorem State.ring_modRing_ne (s : State) (k j : Nat) (f : Ring → Ring) (h : j ≠ k) :
    (s.modRing k f).ring j = s.ring j := by
  simp [State.modRing, h]
@[simp] theorem State.cluster_setCluster_same (s : State) (k : Nat) (x : Cluster) : (s.setCluster k x).cluster k = x := by
  simp [State.cluster, State.setCluster]
@[simp] theorem State.cluster_setCluster_ne (s : State) (k j : Nat) (x : Cluster) (h : j ≠ k) :
    (s.setCluster k x).cluster j = s.cluster j := by
  simp [State.cluster, State.setCluster, h]
@[simp] theorem State.cluster_modCluster_same (s : State) (k : Nat) (f : Cluster → Cluster) : (s.modCluster k f).cluster k = f (s.cluster k) := by
  simp [State.modCluster]
@[simp] theorem State.cluster_modCluster_ne (s : State) (k j : Nat) (f : Cluster → Cluster) (h : j ≠ k) :
    (s.modCluster k f).cluster j = s.cluster j := by
  simp [State.modCluster, h]
@[simp] theorem State.conv_setConv_same (s : State) (k : Nat) (x : Conv) : (s.setConv k x).conv k = x := by
  simp [State.conv, State.setConv]
@[simp] theorem State.conv_setConv_ne (s : State) (k j : Nat) (x : Conv) (h : j ≠ k) :
    (s.setConv k x).conv j = s.conv j := by
  simp [State.conv, State.setConv, h]
@[simp] theorem State.trace_setTrace_same (s : State) (k : Nat) (x : Trace) : (s.setTrace k x).trace k = x := by
  simp [State.trace, State.setTrace]
@[simp] theorem State.trace_setTrace_ne (s : State) (k j : Nat) (x : Trace) (h : j ≠ k) :
    (s.setTrace k x).trace j = s.trace j := by
  simp [State.trace, State.setTrace, h]
@[simp] theorem State.sensor_setSensor_same (s : State) (k : Nat) (x : Sensor) : (s.setSensor k x).sensor k = x := by
  simp [State.sensor, State.setSensor]
@[simp] theorem State.sensor_setSensor_ne (s : State) (k j : Nat) (x : Sensor) (h : j ≠ k) :
    (s.setSensor k x).sensor j = s.sensor j := by
  simp [State.sensor, State.setSensor, h]

/-- A field of at most 64 bits reads what was written, cut to its width. -/
@[simp] theorem State.fld_setFld_same (s : State) (f : Fld) (i v : Nat) (h : f.width ≤ 64) :
    (s.setFld f i v).fld f i = v % 2 ^ f.width := by
  have hv : v % 2 ^ f.width < 2 ^ 64 :=
    Nat.lt_of_lt_of_le (Nat.mod_lt _ (Nat.two_pow_pos _)) (Nat.pow_le_pow_right (by decide) h)
  simp only [State.fld, State.fldAt, State.setFld, State.setFldAt, tget_tset_same, BitVec.toNat_ofNat]
  exact Nat.mod_eq_of_lt hv

/-- Writing one field leaves a field with another key as it was. -/
@[simp] theorem State.fld_setFld_ne (s : State) (f g : Fld) (i j v : Nat) (h : g.key j 0 ≠ f.key i 0) :
    (s.setFld f i v).fld g j = s.fld g j := by
  have key : ∀ (t : Tbl Word) (d d' x : Word) (k k' : Nat), k' ≠ k → tget d' (tset d t k x) k' = tget d' t k' := by
    intro t d d' x k k' hk
    have aux : ∀ (t : Tbl Word), tget d' (tdel t k) k' = tget d' t k' := fun t => tget_tdel_ne d' t k k' hk
    unfold tset
    split
    · exact aux t
    · rw [tget_tins_ne d' x _ k k' hk, aux t]
  simp only [State.fld, State.fldAt, State.setFld, State.setFldAt]
  rw [key _ _ _ _ _ _ h]

/-- A counter after a count: one more, until it holds its largest value (R424). -/
theorem State.fld_bump_same (s : State) (f : Fld) (i n : Nat) (h : f.width ≤ 64) :
    (s.bump f i n).fld f i = min (s.fld f i + n) (2 ^ f.width - 1) := by
  have : 0 < 2 ^ f.width := Nat.two_pow_pos _
  rw [State.bump, State.fld_setFld_same _ _ _ _ h, Nat.mod_eq_of_lt (by omega)]

theorem State.fld_bump_ne (s : State) (f g : Fld) (i j n : Nat) (h : g.key j 0 ≠ f.key i 0) :
    (s.bump f i n).fld g j = s.fld g j := by rw [State.bump, State.fld_setFld_ne _ _ _ _ _ _ h]

theorem State.fld_raise_same (s : State) (f : Fld) (i v : Nat) (h : f.width ≤ 64) (hf : s.fld f i < 2 ^ f.width) :
    (s.raise f i v).fld f i = max (s.fld f i) (min v (2 ^ f.width - 1)) := by
  have : 0 < 2 ^ f.width := Nat.two_pow_pos _
  rw [State.raise, State.fld_setFld_same _ _ _ _ h, Nat.mod_eq_of_lt (by omega)]

theorem State.fld_raise_ne (s : State) (f g : Fld) (i j v : Nat) (h : g.key j 0 ≠ f.key i 0) :
    (s.raise f i v).fld g j = s.fld g j := by rw [State.raise, State.fld_setFld_ne _ _ _ _ _ _ h]

/-- A stored range reads back from device memory. -/
theorem State.bytes_store (s : State) (a : Nat) (d : List Byte) : (s.store a d).bytes a d.length = d :=
  memBytes_memStore s.mem a d

/-- A device byte outside the stored range reads as before. -/
theorem State.byte_store_out (s : State) (a x : Nat) (d : List Byte) (h : x < a ∨ a + d.length ≤ x) :
    (s.store a d).byte x = s.byte x := tget_memStore_out s.mem a d x h

/-- A host byte outside the stored range reads as before. -/
theorem State.hostByte_hostStore_out (s : State) (a x : Nat) (d : List Byte) (h : x < a ∨ a + d.length ≤ x) :
    (s.hostStore a d).hostByte x = s.hostByte x := tget_memStore_out s.hostMem a d x h

@[simp] theorem State.store_wf (s : State) (a : Nat) (d : List Byte) (h : Memory.wf s.mem = true) :
    Memory.wf (s.store a d).mem = true := Memory.wf_memStore s.mem a d h

@[simp] theorem State.hostStore_wf (s : State) (a : Nat) (d : List Byte) (h : Memory.wf s.hostMem = true) :
    Memory.wf (s.hostStore a d).hostMem = true := Memory.wf_memStore s.hostMem a d h

/-! ## Shared operations: the fields and readings they leave alone -/

@[simp] theorem State.signalVector_pending (s : State) (v : Nat) : (s.signalVector v).pending = s.pending := by
  simp only [State.signalVector]
  repeat' split
  all_goals simp
@[simp] theorem State.signalVector_free (s : State) (v : Nat) : (s.signalVector v).free = s.free := by
  simp only [State.signalVector]
  repeat' split
  all_goals simp
@[simp] theorem State.signalVector_reply (s : State) (v : Nat) : (s.signalVector v).reply = s.reply := by
  simp only [State.signalVector]
  repeat' split
  all_goals simp
@[simp] theorem State.signalVector_time (s : State) (v : Nat) : (s.signalVector v).time = s.time := by
  simp only [State.signalVector]
  repeat' split
  all_goals simp
@[simp] theorem State.signalVector_pins (s : State) (v : Nat) : (s.signalVector v).pins = s.pins := by
  simp only [State.signalVector]
  repeat' split
  all_goals simp
@[simp] theorem State.signalVector_boot (s : State) (v : Nat) : (s.signalVector v).boot = s.boot := by
  simp only [State.signalVector]
  repeat' split
  all_goals simp
@[simp] theorem State.signalVector_cfg (s : State) (v : Nat) : (s.signalVector v).cfg = s.cfg := by
  simp only [State.signalVector]
  repeat' split
  all_goals simp
@[simp] theorem State.signalVector_cfgSeq (s : State) (v : Nat) : (s.signalVector v).cfgSeq = s.cfgSeq := by
  simp only [State.signalVector]
  repeat' split
  all_goals simp
@[simp] theorem State.signalVector_flash (s : State) (v : Nat) : (s.signalVector v).flash = s.flash := by
  simp only [State.signalVector]
  repeat' split
  all_goals simp
@[simp] theorem State.signalVector_jnl (s : State) (v : Nat) : (s.signalVector v).jnl = s.jnl := by
  simp only [State.signalVector]
  repeat' split
  all_goals simp
@[simp] theorem State.signalVector_sec (s : State) (v : Nat) : (s.signalVector v).sec = s.sec := by
  simp only [State.signalVector]
  repeat' split
  all_goals simp
@[simp] theorem State.signalVector_log (s : State) (v : Nat) : (s.signalVector v).log = s.log := by
  simp only [State.signalVector]
  repeat' split
  all_goals simp
@[simp] theorem State.signalVector_evHead (s : State) (v : Nat) : (s.signalVector v).evHead = s.evHead := by
  simp only [State.signalVector]
  repeat' split
  all_goals simp
@[simp] theorem State.signalVector_flds (s : State) (v : Nat) : (s.signalVector v).flds = s.flds := by
  simp only [State.signalVector]
  repeat' split
  all_goals simp
@[simp] theorem State.signalVector_refusedAt (s : State) (v : Nat) : (s.signalVector v).refusedAt = s.refusedAt := by
  simp only [State.signalVector]
  repeat' split
  all_goals simp
@[simp] theorem State.signalVector_mem (s : State) (v : Nat) : (s.signalVector v).mem = s.mem := by
  simp only [State.signalVector]
  repeat' split
  all_goals simp
@[simp] theorem State.signalVector_hostMem (s : State) (v : Nat) : (s.signalVector v).hostMem = s.hostMem := by
  simp only [State.signalVector]
  repeat' split
  all_goals simp
@[simp] theorem State.signalVector_poison (s : State) (v : Nat) : (s.signalVector v).poison = s.poison := by
  simp only [State.signalVector]
  repeat' split
  all_goals simp
@[simp] theorem State.signalVector_wordErr (s : State) (v : Nat) : (s.signalVector v).wordErr = s.wordErr := by
  simp only [State.signalVector]
  repeat' split
  all_goals simp
@[simp] theorem State.signalVector_feFull (s : State) (v : Nat) : (s.signalVector v).feFull = s.feFull := by
  simp only [State.signalVector]
  repeat' split
  all_goals simp
@[simp] theorem State.signalVector_feOwner (s : State) (v : Nat) : (s.signalVector v).feOwner = s.feOwner := by
  simp only [State.signalVector]
  repeat' split
  all_goals simp
@[simp] theorem State.signalVector_feOps (s : State) (v : Nat) : (s.signalVector v).feOps = s.feOps := by
  simp only [State.signalVector]
  repeat' split
  all_goals simp
@[simp] theorem State.signalVector_lats (s : State) (v : Nat) : (s.signalVector v).lats = s.lats := by
  simp only [State.signalVector]
  repeat' split
  all_goals simp
@[simp] theorem State.signalVector_combs (s : State) (v : Nat) : (s.signalVector v).combs = s.combs := by
  simp only [State.signalVector]
  repeat' split
  all_goals simp
@[simp] theorem State.signalVector_threads (s : State) (v : Nat) : (s.signalVector v).threads = s.threads := by
  simp only [State.signalVector]
  repeat' split
  all_goals simp
@[simp] theorem State.signalVector_ctxs (s : State) (v : Nat) : (s.signalVector v).ctxs = s.ctxs := by
  simp only [State.signalVector]
  repeat' split
  all_goals simp
@[simp] theorem State.signalVector_entries (s : State) (v : Nat) : (s.signalVector v).entries = s.entries := by
  simp only [State.signalVector]
  repeat' split
  all_goals simp
@[simp] theorem State.signalVector_admitQueue (s : State) (v : Nat) : (s.signalVector v).admitQueue = s.admitQueue := by
  simp only [State.signalVector]
  repeat' split
  all_goals simp
@[simp] theorem State.signalVector_issued (s : State) (v : Nat) : (s.signalVector v).issued = s.issued := by
  simp only [State.signalVector]
  repeat' split
  all_goals simp
@[simp] theorem State.signalVector_bays (s : State) (v : Nat) : (s.signalVector v).bays = s.bays := by
  simp only [State.signalVector]
  repeat' split
  all_goals simp
@[simp] theorem State.signalVector_ports (s : State) (v : Nat) : (s.signalVector v).ports = s.ports := by
  simp only [State.signalVector]
  repeat' split
  all_goals simp
@[simp] theorem State.signalVector_hnx (s : State) (v : Nat) : (s.signalVector v).hnx = s.hnx := by
  simp only [State.signalVector]
  repeat' split
  all_goals simp
@[simp] theorem State.signalVector_rings (s : State) (v : Nat) : (s.signalVector v).rings = s.rings := by
  simp only [State.signalVector]
  repeat' split
  all_goals simp
@[simp] theorem State.signalVector_coefs (s : State) (v : Nat) : (s.signalVector v).coefs = s.coefs := by
  simp only [State.signalVector]
  repeat' split
  all_goals simp
@[simp] theorem State.signalVector_clusters (s : State) (v : Nat) : (s.signalVector v).clusters = s.clusters := by
  simp only [State.signalVector]
  repeat' split
  all_goals simp
@[simp] theorem State.signalVector_convs (s : State) (v : Nat) : (s.signalVector v).convs = s.convs := by
  simp only [State.signalVector]
  repeat' split
  all_goals simp
@[simp] theorem State.signalVector_traces (s : State) (v : Nat) : (s.signalVector v).traces = s.traces := by
  simp only [State.signalVector]
  repeat' split
  all_goals simp
@[simp] theorem State.signalVector_power (s : State) (v : Nat) : (s.signalVector v).power = s.power := by
  simp only [State.signalVector]
  repeat' split
  all_goals simp
@[simp] theorem State.signalVector_sensors (s : State) (v : Nat) : (s.signalVector v).sensors = s.sensors := by
  simp only [State.signalVector]
  repeat' split
  all_goals simp
@[simp] theorem State.signalVector_mgmt (s : State) (v : Nat) : (s.signalVector v).mgmt = s.mgmt := by
  simp only [State.signalVector]
  repeat' split
  all_goals simp
@[simp] theorem State.lat_signalVector (s : State) (v : Nat) (j : Nat) : (s.signalVector v).lat j = s.lat j := by
  simp [State.lat]
@[simp] theorem State.comb_signalVector (s : State) (v : Nat) (j : Nat) : (s.signalVector v).comb j = s.comb j := by
  simp [State.comb]
@[simp] theorem State.thread_signalVector (s : State) (v : Nat) (j : Nat) : (s.signalVector v).thread j = s.thread j := by
  simp [State.thread]
@[simp] theorem State.ctx_signalVector (s : State) (v : Nat) (j : Nat) : (s.signalVector v).ctx j = s.ctx j := by
  simp [State.ctx]
@[simp] theorem State.entrySt_signalVector (s : State) (v : Nat) (j : Nat) : (s.signalVector v).entrySt j = s.entrySt j := by
  simp [State.entrySt]
@[simp] theorem State.bay_signalVector (s : State) (v : Nat) (j : Nat) : (s.signalVector v).bay j = s.bay j := by
  simp [State.bay]
@[simp] theorem State.port_signalVector (s : State) (v : Nat) (j : Nat) : (s.signalVector v).port j = s.port j := by
  simp [State.port]
@[simp] theorem State.ring_signalVector (s : State) (v : Nat) (j : Nat) : (s.signalVector v).ring j = s.ring j := by
  simp [State.ring]
@[simp] theorem State.cluster_signalVector (s : State) (v : Nat) (j : Nat) : (s.signalVector v).cluster j = s.cluster j := by
  simp [State.cluster]
@[simp] theorem State.conv_signalVector (s : State) (v : Nat) (j : Nat) : (s.signalVector v).conv j = s.conv j := by
  simp [State.conv]
@[simp] theorem State.trace_signalVector (s : State) (v : Nat) (j : Nat) : (s.signalVector v).trace j = s.trace j := by
  simp [State.trace]
@[simp] theorem State.sensor_signalVector (s : State) (v : Nat) (j : Nat) : (s.signalVector v).sensor j = s.sensor j := by
  simp [State.sensor]

@[simp] theorem State.byte_signalVector (s : State) (v : Nat) (j : Nat) : (s.signalVector v).byte j = s.byte j := by
  simp [State.byte]
@[simp] theorem State.hostByte_signalVector (s : State) (v : Nat) (j : Nat) : (s.signalVector v).hostByte j = s.hostByte j := by
  simp [State.hostByte]
@[simp] theorem State.poisoned_signalVector (s : State) (v : Nat) (j : Nat) : (s.signalVector v).poisoned j = s.poisoned j := by
  simp [State.poisoned]
@[simp] theorem State.inService_signalVector (s : State) (v : Nat) : (s.signalVector v).inService = s.inService := by
  simp [State.inService]
@[simp] theorem State.served_signalVector (s : State) (v : Nat) (j : Path) : (s.signalVector v).served j = s.served j := by
  simp [State.served]
@[simp] theorem State.tokenPerm_signalVector (s : State) (v : Nat) (j : Nat) : (s.signalVector v).tokenPerm j = s.tokenPerm j := by
  simp [State.tokenPerm]
@[simp] theorem State.bytes_signalVector (s : State) (v : Nat) (j m : Nat) : (s.signalVector v).bytes j m = s.bytes j m := by
  simp [State.bytes]
@[simp] theorem State.readNat_signalVector (s : State) (v : Nat) (j m : Nat) : (s.signalVector v).readNat j m = s.readNat j m := by
  simp [State.readNat]
@[simp] theorem State.markChg_pending (s : State) (k : Nat) : (s.markChg k).pending = s.pending := by
  simp only [State.markChg]
  repeat' split
  all_goals simp
@[simp] theorem State.markChg_free (s : State) (k : Nat) : (s.markChg k).free = s.free := by
  simp only [State.markChg]
  repeat' split
  all_goals simp
@[simp] theorem State.markChg_reply (s : State) (k : Nat) : (s.markChg k).reply = s.reply := by
  simp only [State.markChg]
  repeat' split
  all_goals simp
@[simp] theorem State.markChg_time (s : State) (k : Nat) : (s.markChg k).time = s.time := by
  simp only [State.markChg]
  repeat' split
  all_goals simp
@[simp] theorem State.markChg_pins (s : State) (k : Nat) : (s.markChg k).pins = s.pins := by
  simp only [State.markChg]
  repeat' split
  all_goals simp
@[simp] theorem State.markChg_boot (s : State) (k : Nat) : (s.markChg k).boot = s.boot := by
  simp only [State.markChg]
  repeat' split
  all_goals simp
@[simp] theorem State.markChg_cfg (s : State) (k : Nat) : (s.markChg k).cfg = s.cfg := by
  simp only [State.markChg]
  repeat' split
  all_goals simp
@[simp] theorem State.markChg_cfgSeq (s : State) (k : Nat) : (s.markChg k).cfgSeq = s.cfgSeq := by
  simp only [State.markChg]
  repeat' split
  all_goals simp
@[simp] theorem State.markChg_flash (s : State) (k : Nat) : (s.markChg k).flash = s.flash := by
  simp only [State.markChg]
  repeat' split
  all_goals simp
@[simp] theorem State.markChg_jnl (s : State) (k : Nat) : (s.markChg k).jnl = s.jnl := by
  simp only [State.markChg]
  repeat' split
  all_goals simp
@[simp] theorem State.markChg_sec (s : State) (k : Nat) : (s.markChg k).sec = s.sec := by
  simp only [State.markChg]
  repeat' split
  all_goals simp
@[simp] theorem State.markChg_log (s : State) (k : Nat) : (s.markChg k).log = s.log := by
  simp only [State.markChg]
  repeat' split
  all_goals simp
@[simp] theorem State.markChg_evHead (s : State) (k : Nat) : (s.markChg k).evHead = s.evHead := by
  simp only [State.markChg]
  repeat' split
  all_goals simp
@[simp] theorem State.markChg_refusedAt (s : State) (k : Nat) : (s.markChg k).refusedAt = s.refusedAt := by
  simp only [State.markChg]
  repeat' split
  all_goals simp
@[simp] theorem State.markChg_mem (s : State) (k : Nat) : (s.markChg k).mem = s.mem := by
  simp only [State.markChg]
  repeat' split
  all_goals simp
@[simp] theorem State.markChg_hostMem (s : State) (k : Nat) : (s.markChg k).hostMem = s.hostMem := by
  simp only [State.markChg]
  repeat' split
  all_goals simp
@[simp] theorem State.markChg_poison (s : State) (k : Nat) : (s.markChg k).poison = s.poison := by
  simp only [State.markChg]
  repeat' split
  all_goals simp
@[simp] theorem State.markChg_wordErr (s : State) (k : Nat) : (s.markChg k).wordErr = s.wordErr := by
  simp only [State.markChg]
  repeat' split
  all_goals simp
@[simp] theorem State.markChg_feFull (s : State) (k : Nat) : (s.markChg k).feFull = s.feFull := by
  simp only [State.markChg]
  repeat' split
  all_goals simp
@[simp] theorem State.markChg_feOwner (s : State) (k : Nat) : (s.markChg k).feOwner = s.feOwner := by
  simp only [State.markChg]
  repeat' split
  all_goals simp
@[simp] theorem State.markChg_feOps (s : State) (k : Nat) : (s.markChg k).feOps = s.feOps := by
  simp only [State.markChg]
  repeat' split
  all_goals simp
@[simp] theorem State.markChg_lats (s : State) (k : Nat) : (s.markChg k).lats = s.lats := by
  simp only [State.markChg]
  repeat' split
  all_goals simp
@[simp] theorem State.markChg_combs (s : State) (k : Nat) : (s.markChg k).combs = s.combs := by
  simp only [State.markChg]
  repeat' split
  all_goals simp
@[simp] theorem State.markChg_threads (s : State) (k : Nat) : (s.markChg k).threads = s.threads := by
  simp only [State.markChg]
  repeat' split
  all_goals simp
@[simp] theorem State.markChg_ctxs (s : State) (k : Nat) : (s.markChg k).ctxs = s.ctxs := by
  simp only [State.markChg]
  repeat' split
  all_goals simp
@[simp] theorem State.markChg_entries (s : State) (k : Nat) : (s.markChg k).entries = s.entries := by
  simp only [State.markChg]
  repeat' split
  all_goals simp
@[simp] theorem State.markChg_admitQueue (s : State) (k : Nat) : (s.markChg k).admitQueue = s.admitQueue := by
  simp only [State.markChg]
  repeat' split
  all_goals simp
@[simp] theorem State.markChg_issued (s : State) (k : Nat) : (s.markChg k).issued = s.issued := by
  simp only [State.markChg]
  repeat' split
  all_goals simp
@[simp] theorem State.markChg_bays (s : State) (k : Nat) : (s.markChg k).bays = s.bays := by
  simp only [State.markChg]
  repeat' split
  all_goals simp
@[simp] theorem State.markChg_ports (s : State) (k : Nat) : (s.markChg k).ports = s.ports := by
  simp only [State.markChg]
  repeat' split
  all_goals simp
@[simp] theorem State.markChg_hnx (s : State) (k : Nat) : (s.markChg k).hnx = s.hnx := by
  simp only [State.markChg]
  repeat' split
  all_goals simp
@[simp] theorem State.markChg_rings (s : State) (k : Nat) : (s.markChg k).rings = s.rings := by
  simp only [State.markChg]
  repeat' split
  all_goals simp
@[simp] theorem State.markChg_coefs (s : State) (k : Nat) : (s.markChg k).coefs = s.coefs := by
  simp only [State.markChg]
  repeat' split
  all_goals simp
@[simp] theorem State.markChg_clusters (s : State) (k : Nat) : (s.markChg k).clusters = s.clusters := by
  simp only [State.markChg]
  repeat' split
  all_goals simp
@[simp] theorem State.markChg_convs (s : State) (k : Nat) : (s.markChg k).convs = s.convs := by
  simp only [State.markChg]
  repeat' split
  all_goals simp
@[simp] theorem State.markChg_traces (s : State) (k : Nat) : (s.markChg k).traces = s.traces := by
  simp only [State.markChg]
  repeat' split
  all_goals simp
@[simp] theorem State.markChg_power (s : State) (k : Nat) : (s.markChg k).power = s.power := by
  simp only [State.markChg]
  repeat' split
  all_goals simp
@[simp] theorem State.markChg_sensors (s : State) (k : Nat) : (s.markChg k).sensors = s.sensors := by
  simp only [State.markChg]
  repeat' split
  all_goals simp
@[simp] theorem State.markChg_mgmt (s : State) (k : Nat) : (s.markChg k).mgmt = s.mgmt := by
  simp only [State.markChg]
  repeat' split
  all_goals simp
@[simp] theorem State.lat_markChg (s : State) (k : Nat) (j : Nat) : (s.markChg k).lat j = s.lat j := by
  simp [State.lat]
@[simp] theorem State.comb_markChg (s : State) (k : Nat) (j : Nat) : (s.markChg k).comb j = s.comb j := by
  simp [State.comb]
@[simp] theorem State.thread_markChg (s : State) (k : Nat) (j : Nat) : (s.markChg k).thread j = s.thread j := by
  simp [State.thread]
@[simp] theorem State.ctx_markChg (s : State) (k : Nat) (j : Nat) : (s.markChg k).ctx j = s.ctx j := by
  simp [State.ctx]
@[simp] theorem State.entrySt_markChg (s : State) (k : Nat) (j : Nat) : (s.markChg k).entrySt j = s.entrySt j := by
  simp [State.entrySt]
@[simp] theorem State.bay_markChg (s : State) (k : Nat) (j : Nat) : (s.markChg k).bay j = s.bay j := by
  simp [State.bay]
@[simp] theorem State.port_markChg (s : State) (k : Nat) (j : Nat) : (s.markChg k).port j = s.port j := by
  simp [State.port]
@[simp] theorem State.ring_markChg (s : State) (k : Nat) (j : Nat) : (s.markChg k).ring j = s.ring j := by
  simp [State.ring]
@[simp] theorem State.cluster_markChg (s : State) (k : Nat) (j : Nat) : (s.markChg k).cluster j = s.cluster j := by
  simp [State.cluster]
@[simp] theorem State.conv_markChg (s : State) (k : Nat) (j : Nat) : (s.markChg k).conv j = s.conv j := by
  simp [State.conv]
@[simp] theorem State.trace_markChg (s : State) (k : Nat) (j : Nat) : (s.markChg k).trace j = s.trace j := by
  simp [State.trace]
@[simp] theorem State.sensor_markChg (s : State) (k : Nat) (j : Nat) : (s.markChg k).sensor j = s.sensor j := by
  simp [State.sensor]
@[simp] theorem State.byte_markChg (s : State) (k : Nat) (j : Nat) : (s.markChg k).byte j = s.byte j := by
  simp [State.byte]
@[simp] theorem State.hostByte_markChg (s : State) (k : Nat) (j : Nat) : (s.markChg k).hostByte j = s.hostByte j := by
  simp [State.hostByte]
@[simp] theorem State.poisoned_markChg (s : State) (k : Nat) (j : Nat) : (s.markChg k).poisoned j = s.poisoned j := by
  simp [State.poisoned]
@[simp] theorem State.inService_markChg (s : State) (k : Nat) : (s.markChg k).inService = s.inService := by
  simp [State.inService]
@[simp] theorem State.served_markChg (s : State) (k : Nat) (j : Path) : (s.markChg k).served j = s.served j := by
  simp [State.served]
@[simp] theorem State.tokenPerm_markChg (s : State) (k : Nat) (j : Nat) : (s.markChg k).tokenPerm j = s.tokenPerm j := by
  simp [State.tokenPerm]
@[simp] theorem State.bytes_markChg (s : State) (k : Nat) (j m : Nat) : (s.markChg k).bytes j m = s.bytes j m := by
  simp [State.bytes]
@[simp] theorem State.readNat_markChg (s : State) (k : Nat) (j m : Nat) : (s.markChg k).readNat j m = s.readNat j m := by
  simp [State.readNat]
@[simp] theorem State.alertEdge_pending (s : State) (s0 : State) : (State.alertEdge s0 s).pending = s.pending := by
  simp only [State.alertEdge]
  repeat' split
  all_goals simp
@[simp] theorem State.alertEdge_free (s : State) (s0 : State) : (State.alertEdge s0 s).free = s.free := by
  simp only [State.alertEdge]
  repeat' split
  all_goals simp
@[simp] theorem State.alertEdge_reply (s : State) (s0 : State) : (State.alertEdge s0 s).reply = s.reply := by
  simp only [State.alertEdge]
  repeat' split
  all_goals simp
@[simp] theorem State.alertEdge_time (s : State) (s0 : State) : (State.alertEdge s0 s).time = s.time := by
  simp only [State.alertEdge]
  repeat' split
  all_goals simp
@[simp] theorem State.alertEdge_pins (s : State) (s0 : State) : (State.alertEdge s0 s).pins = s.pins := by
  simp only [State.alertEdge]
  repeat' split
  all_goals simp
@[simp] theorem State.alertEdge_boot (s : State) (s0 : State) : (State.alertEdge s0 s).boot = s.boot := by
  simp only [State.alertEdge]
  repeat' split
  all_goals simp
@[simp] theorem State.alertEdge_cfg (s : State) (s0 : State) : (State.alertEdge s0 s).cfg = s.cfg := by
  simp only [State.alertEdge]
  repeat' split
  all_goals simp
@[simp] theorem State.alertEdge_cfgSeq (s : State) (s0 : State) : (State.alertEdge s0 s).cfgSeq = s.cfgSeq := by
  simp only [State.alertEdge]
  repeat' split
  all_goals simp
@[simp] theorem State.alertEdge_flash (s : State) (s0 : State) : (State.alertEdge s0 s).flash = s.flash := by
  simp only [State.alertEdge]
  repeat' split
  all_goals simp
@[simp] theorem State.alertEdge_jnl (s : State) (s0 : State) : (State.alertEdge s0 s).jnl = s.jnl := by
  simp only [State.alertEdge]
  repeat' split
  all_goals simp
@[simp] theorem State.alertEdge_sec (s : State) (s0 : State) : (State.alertEdge s0 s).sec = s.sec := by
  simp only [State.alertEdge]
  repeat' split
  all_goals simp
@[simp] theorem State.alertEdge_log (s : State) (s0 : State) : (State.alertEdge s0 s).log = s.log := by
  simp only [State.alertEdge]
  repeat' split
  all_goals simp
@[simp] theorem State.alertEdge_evHead (s : State) (s0 : State) : (State.alertEdge s0 s).evHead = s.evHead := by
  simp only [State.alertEdge]
  repeat' split
  all_goals simp
@[simp] theorem State.alertEdge_refusedAt (s : State) (s0 : State) : (State.alertEdge s0 s).refusedAt = s.refusedAt := by
  simp only [State.alertEdge]
  repeat' split
  all_goals simp
@[simp] theorem State.alertEdge_mem (s : State) (s0 : State) : (State.alertEdge s0 s).mem = s.mem := by
  simp only [State.alertEdge]
  repeat' split
  all_goals simp
@[simp] theorem State.alertEdge_hostMem (s : State) (s0 : State) : (State.alertEdge s0 s).hostMem = s.hostMem := by
  simp only [State.alertEdge]
  repeat' split
  all_goals simp
@[simp] theorem State.alertEdge_poison (s : State) (s0 : State) : (State.alertEdge s0 s).poison = s.poison := by
  simp only [State.alertEdge]
  repeat' split
  all_goals simp
@[simp] theorem State.alertEdge_wordErr (s : State) (s0 : State) : (State.alertEdge s0 s).wordErr = s.wordErr := by
  simp only [State.alertEdge]
  repeat' split
  all_goals simp
@[simp] theorem State.alertEdge_feFull (s : State) (s0 : State) : (State.alertEdge s0 s).feFull = s.feFull := by
  simp only [State.alertEdge]
  repeat' split
  all_goals simp
@[simp] theorem State.alertEdge_feOwner (s : State) (s0 : State) : (State.alertEdge s0 s).feOwner = s.feOwner := by
  simp only [State.alertEdge]
  repeat' split
  all_goals simp
@[simp] theorem State.alertEdge_feOps (s : State) (s0 : State) : (State.alertEdge s0 s).feOps = s.feOps := by
  simp only [State.alertEdge]
  repeat' split
  all_goals simp
@[simp] theorem State.alertEdge_lats (s : State) (s0 : State) : (State.alertEdge s0 s).lats = s.lats := by
  simp only [State.alertEdge]
  repeat' split
  all_goals simp
@[simp] theorem State.alertEdge_combs (s : State) (s0 : State) : (State.alertEdge s0 s).combs = s.combs := by
  simp only [State.alertEdge]
  repeat' split
  all_goals simp
@[simp] theorem State.alertEdge_threads (s : State) (s0 : State) : (State.alertEdge s0 s).threads = s.threads := by
  simp only [State.alertEdge]
  repeat' split
  all_goals simp
@[simp] theorem State.alertEdge_ctxs (s : State) (s0 : State) : (State.alertEdge s0 s).ctxs = s.ctxs := by
  simp only [State.alertEdge]
  repeat' split
  all_goals simp
@[simp] theorem State.alertEdge_entries (s : State) (s0 : State) : (State.alertEdge s0 s).entries = s.entries := by
  simp only [State.alertEdge]
  repeat' split
  all_goals simp
@[simp] theorem State.alertEdge_admitQueue (s : State) (s0 : State) : (State.alertEdge s0 s).admitQueue = s.admitQueue := by
  simp only [State.alertEdge]
  repeat' split
  all_goals simp
@[simp] theorem State.alertEdge_issued (s : State) (s0 : State) : (State.alertEdge s0 s).issued = s.issued := by
  simp only [State.alertEdge]
  repeat' split
  all_goals simp
@[simp] theorem State.alertEdge_bays (s : State) (s0 : State) : (State.alertEdge s0 s).bays = s.bays := by
  simp only [State.alertEdge]
  repeat' split
  all_goals simp
@[simp] theorem State.alertEdge_ports (s : State) (s0 : State) : (State.alertEdge s0 s).ports = s.ports := by
  simp only [State.alertEdge]
  repeat' split
  all_goals simp
@[simp] theorem State.alertEdge_hnx (s : State) (s0 : State) : (State.alertEdge s0 s).hnx = s.hnx := by
  simp only [State.alertEdge]
  repeat' split
  all_goals simp
@[simp] theorem State.alertEdge_rings (s : State) (s0 : State) : (State.alertEdge s0 s).rings = s.rings := by
  simp only [State.alertEdge]
  repeat' split
  all_goals simp
@[simp] theorem State.alertEdge_coefs (s : State) (s0 : State) : (State.alertEdge s0 s).coefs = s.coefs := by
  simp only [State.alertEdge]
  repeat' split
  all_goals simp
@[simp] theorem State.alertEdge_clusters (s : State) (s0 : State) : (State.alertEdge s0 s).clusters = s.clusters := by
  simp only [State.alertEdge]
  repeat' split
  all_goals simp
@[simp] theorem State.alertEdge_convs (s : State) (s0 : State) : (State.alertEdge s0 s).convs = s.convs := by
  simp only [State.alertEdge]
  repeat' split
  all_goals simp
@[simp] theorem State.alertEdge_traces (s : State) (s0 : State) : (State.alertEdge s0 s).traces = s.traces := by
  simp only [State.alertEdge]
  repeat' split
  all_goals simp
@[simp] theorem State.alertEdge_power (s : State) (s0 : State) : (State.alertEdge s0 s).power = s.power := by
  simp only [State.alertEdge]
  repeat' split
  all_goals simp
@[simp] theorem State.alertEdge_sensors (s : State) (s0 : State) : (State.alertEdge s0 s).sensors = s.sensors := by
  simp only [State.alertEdge]
  repeat' split
  all_goals simp
@[simp] theorem State.alertEdge_mgmt (s : State) (s0 : State) : (State.alertEdge s0 s).mgmt = s.mgmt := by
  simp only [State.alertEdge]
  repeat' split
  all_goals simp
@[simp] theorem State.lat_alertEdge (s : State) (s0 : State) (j : Nat) : (State.alertEdge s0 s).lat j = s.lat j := by
  simp [State.lat]
@[simp] theorem State.comb_alertEdge (s : State) (s0 : State) (j : Nat) : (State.alertEdge s0 s).comb j = s.comb j := by
  simp [State.comb]
@[simp] theorem State.thread_alertEdge (s : State) (s0 : State) (j : Nat) : (State.alertEdge s0 s).thread j = s.thread j := by
  simp [State.thread]
@[simp] theorem State.ctx_alertEdge (s : State) (s0 : State) (j : Nat) : (State.alertEdge s0 s).ctx j = s.ctx j := by
  simp [State.ctx]
@[simp] theorem State.entrySt_alertEdge (s : State) (s0 : State) (j : Nat) : (State.alertEdge s0 s).entrySt j = s.entrySt j := by
  simp [State.entrySt]
@[simp] theorem State.bay_alertEdge (s : State) (s0 : State) (j : Nat) : (State.alertEdge s0 s).bay j = s.bay j := by
  simp [State.bay]
@[simp] theorem State.port_alertEdge (s : State) (s0 : State) (j : Nat) : (State.alertEdge s0 s).port j = s.port j := by
  simp [State.port]
@[simp] theorem State.ring_alertEdge (s : State) (s0 : State) (j : Nat) : (State.alertEdge s0 s).ring j = s.ring j := by
  simp [State.ring]
@[simp] theorem State.cluster_alertEdge (s : State) (s0 : State) (j : Nat) : (State.alertEdge s0 s).cluster j = s.cluster j := by
  simp [State.cluster]
@[simp] theorem State.conv_alertEdge (s : State) (s0 : State) (j : Nat) : (State.alertEdge s0 s).conv j = s.conv j := by
  simp [State.conv]
@[simp] theorem State.trace_alertEdge (s : State) (s0 : State) (j : Nat) : (State.alertEdge s0 s).trace j = s.trace j := by
  simp [State.trace]
@[simp] theorem State.sensor_alertEdge (s : State) (s0 : State) (j : Nat) : (State.alertEdge s0 s).sensor j = s.sensor j := by
  simp [State.sensor]
@[simp] theorem State.byte_alertEdge (s : State) (s0 : State) (j : Nat) : (State.alertEdge s0 s).byte j = s.byte j := by
  simp [State.byte]
@[simp] theorem State.hostByte_alertEdge (s : State) (s0 : State) (j : Nat) : (State.alertEdge s0 s).hostByte j = s.hostByte j := by
  simp [State.hostByte]
@[simp] theorem State.poisoned_alertEdge (s : State) (s0 : State) (j : Nat) : (State.alertEdge s0 s).poisoned j = s.poisoned j := by
  simp [State.poisoned]
@[simp] theorem State.inService_alertEdge (s : State) (s0 : State) : (State.alertEdge s0 s).inService = s.inService := by
  simp [State.inService]
@[simp] theorem State.served_alertEdge (s : State) (s0 : State) (j : Path) : (State.alertEdge s0 s).served j = s.served j := by
  simp [State.served]
@[simp] theorem State.tokenPerm_alertEdge (s : State) (s0 : State) (j : Nat) : (State.alertEdge s0 s).tokenPerm j = s.tokenPerm j := by
  simp [State.tokenPerm]
@[simp] theorem State.bytes_alertEdge (s : State) (s0 : State) (j m : Nat) : (State.alertEdge s0 s).bytes j m = s.bytes j m := by
  simp [State.bytes]
@[simp] theorem State.readNat_alertEdge (s : State) (s0 : State) (j m : Nat) : (State.alertEdge s0 s).readNat j m = s.readNat j m := by
  simp [State.readNat]
@[simp] theorem State.setAlert_pending (s : State) (k : Nat) : (s.setAlert k).pending = s.pending := by
  simp [State.setAlert]
@[simp] theorem State.setAlert_free (s : State) (k : Nat) : (s.setAlert k).free = s.free := by
  simp [State.setAlert]
@[simp] theorem State.setAlert_reply (s : State) (k : Nat) : (s.setAlert k).reply = s.reply := by
  simp [State.setAlert]
@[simp] theorem State.setAlert_time (s : State) (k : Nat) : (s.setAlert k).time = s.time := by
  simp [State.setAlert]
@[simp] theorem State.setAlert_pins (s : State) (k : Nat) : (s.setAlert k).pins = s.pins := by
  simp [State.setAlert]
@[simp] theorem State.setAlert_boot (s : State) (k : Nat) : (s.setAlert k).boot = s.boot := by
  simp [State.setAlert]
@[simp] theorem State.setAlert_cfg (s : State) (k : Nat) : (s.setAlert k).cfg = s.cfg := by
  simp [State.setAlert]
@[simp] theorem State.setAlert_cfgSeq (s : State) (k : Nat) : (s.setAlert k).cfgSeq = s.cfgSeq := by
  simp [State.setAlert]
@[simp] theorem State.setAlert_flash (s : State) (k : Nat) : (s.setAlert k).flash = s.flash := by
  simp [State.setAlert]
@[simp] theorem State.setAlert_jnl (s : State) (k : Nat) : (s.setAlert k).jnl = s.jnl := by
  simp [State.setAlert]
@[simp] theorem State.setAlert_sec (s : State) (k : Nat) : (s.setAlert k).sec = s.sec := by
  simp [State.setAlert]
@[simp] theorem State.setAlert_log (s : State) (k : Nat) : (s.setAlert k).log = s.log := by
  simp [State.setAlert]
@[simp] theorem State.setAlert_evHead (s : State) (k : Nat) : (s.setAlert k).evHead = s.evHead := by
  simp [State.setAlert]
@[simp] theorem State.setAlert_refusedAt (s : State) (k : Nat) : (s.setAlert k).refusedAt = s.refusedAt := by
  simp [State.setAlert]
@[simp] theorem State.setAlert_mem (s : State) (k : Nat) : (s.setAlert k).mem = s.mem := by
  simp [State.setAlert]
@[simp] theorem State.setAlert_hostMem (s : State) (k : Nat) : (s.setAlert k).hostMem = s.hostMem := by
  simp [State.setAlert]
@[simp] theorem State.setAlert_poison (s : State) (k : Nat) : (s.setAlert k).poison = s.poison := by
  simp [State.setAlert]
@[simp] theorem State.setAlert_wordErr (s : State) (k : Nat) : (s.setAlert k).wordErr = s.wordErr := by
  simp [State.setAlert]
@[simp] theorem State.setAlert_feFull (s : State) (k : Nat) : (s.setAlert k).feFull = s.feFull := by
  simp [State.setAlert]
@[simp] theorem State.setAlert_feOwner (s : State) (k : Nat) : (s.setAlert k).feOwner = s.feOwner := by
  simp [State.setAlert]
@[simp] theorem State.setAlert_feOps (s : State) (k : Nat) : (s.setAlert k).feOps = s.feOps := by
  simp [State.setAlert]
@[simp] theorem State.setAlert_lats (s : State) (k : Nat) : (s.setAlert k).lats = s.lats := by
  simp [State.setAlert]
@[simp] theorem State.setAlert_combs (s : State) (k : Nat) : (s.setAlert k).combs = s.combs := by
  simp [State.setAlert]
@[simp] theorem State.setAlert_threads (s : State) (k : Nat) : (s.setAlert k).threads = s.threads := by
  simp [State.setAlert]
@[simp] theorem State.setAlert_ctxs (s : State) (k : Nat) : (s.setAlert k).ctxs = s.ctxs := by
  simp [State.setAlert]
@[simp] theorem State.setAlert_entries (s : State) (k : Nat) : (s.setAlert k).entries = s.entries := by
  simp [State.setAlert]
@[simp] theorem State.setAlert_admitQueue (s : State) (k : Nat) : (s.setAlert k).admitQueue = s.admitQueue := by
  simp [State.setAlert]
@[simp] theorem State.setAlert_issued (s : State) (k : Nat) : (s.setAlert k).issued = s.issued := by
  simp [State.setAlert]
@[simp] theorem State.setAlert_bays (s : State) (k : Nat) : (s.setAlert k).bays = s.bays := by
  simp [State.setAlert]
@[simp] theorem State.setAlert_ports (s : State) (k : Nat) : (s.setAlert k).ports = s.ports := by
  simp [State.setAlert]
@[simp] theorem State.setAlert_hnx (s : State) (k : Nat) : (s.setAlert k).hnx = s.hnx := by
  simp [State.setAlert]
@[simp] theorem State.setAlert_rings (s : State) (k : Nat) : (s.setAlert k).rings = s.rings := by
  simp [State.setAlert]
@[simp] theorem State.setAlert_coefs (s : State) (k : Nat) : (s.setAlert k).coefs = s.coefs := by
  simp [State.setAlert]
@[simp] theorem State.setAlert_clusters (s : State) (k : Nat) : (s.setAlert k).clusters = s.clusters := by
  simp [State.setAlert]
@[simp] theorem State.setAlert_convs (s : State) (k : Nat) : (s.setAlert k).convs = s.convs := by
  simp [State.setAlert]
@[simp] theorem State.setAlert_traces (s : State) (k : Nat) : (s.setAlert k).traces = s.traces := by
  simp [State.setAlert]
@[simp] theorem State.setAlert_power (s : State) (k : Nat) : (s.setAlert k).power = s.power := by
  simp [State.setAlert]
@[simp] theorem State.setAlert_sensors (s : State) (k : Nat) : (s.setAlert k).sensors = s.sensors := by
  simp [State.setAlert]
@[simp] theorem State.setAlert_mgmt (s : State) (k : Nat) : (s.setAlert k).mgmt = s.mgmt := by
  simp [State.setAlert]
@[simp] theorem State.lat_setAlert (s : State) (k : Nat) (j : Nat) : (s.setAlert k).lat j = s.lat j := by
  simp [State.lat]
@[simp] theorem State.comb_setAlert (s : State) (k : Nat) (j : Nat) : (s.setAlert k).comb j = s.comb j := by
  simp [State.comb]
@[simp] theorem State.thread_setAlert (s : State) (k : Nat) (j : Nat) : (s.setAlert k).thread j = s.thread j := by
  simp [State.thread]
@[simp] theorem State.ctx_setAlert (s : State) (k : Nat) (j : Nat) : (s.setAlert k).ctx j = s.ctx j := by
  simp [State.ctx]
@[simp] theorem State.entrySt_setAlert (s : State) (k : Nat) (j : Nat) : (s.setAlert k).entrySt j = s.entrySt j := by
  simp [State.entrySt]
@[simp] theorem State.bay_setAlert (s : State) (k : Nat) (j : Nat) : (s.setAlert k).bay j = s.bay j := by
  simp [State.bay]
@[simp] theorem State.port_setAlert (s : State) (k : Nat) (j : Nat) : (s.setAlert k).port j = s.port j := by
  simp [State.port]
@[simp] theorem State.ring_setAlert (s : State) (k : Nat) (j : Nat) : (s.setAlert k).ring j = s.ring j := by
  simp [State.ring]
@[simp] theorem State.cluster_setAlert (s : State) (k : Nat) (j : Nat) : (s.setAlert k).cluster j = s.cluster j := by
  simp [State.cluster]
@[simp] theorem State.conv_setAlert (s : State) (k : Nat) (j : Nat) : (s.setAlert k).conv j = s.conv j := by
  simp [State.conv]
@[simp] theorem State.trace_setAlert (s : State) (k : Nat) (j : Nat) : (s.setAlert k).trace j = s.trace j := by
  simp [State.trace]
@[simp] theorem State.sensor_setAlert (s : State) (k : Nat) (j : Nat) : (s.setAlert k).sensor j = s.sensor j := by
  simp [State.sensor]
@[simp] theorem State.byte_setAlert (s : State) (k : Nat) (j : Nat) : (s.setAlert k).byte j = s.byte j := by
  simp [State.byte]
@[simp] theorem State.hostByte_setAlert (s : State) (k : Nat) (j : Nat) : (s.setAlert k).hostByte j = s.hostByte j := by
  simp [State.hostByte]
@[simp] theorem State.poisoned_setAlert (s : State) (k : Nat) (j : Nat) : (s.setAlert k).poisoned j = s.poisoned j := by
  simp [State.poisoned]
@[simp] theorem State.inService_setAlert (s : State) (k : Nat) : (s.setAlert k).inService = s.inService := by
  simp [State.inService]
@[simp] theorem State.served_setAlert (s : State) (k : Nat) (j : Path) : (s.setAlert k).served j = s.served j := by
  simp [State.served]
@[simp] theorem State.tokenPerm_setAlert (s : State) (k : Nat) (j : Nat) : (s.setAlert k).tokenPerm j = s.tokenPerm j := by
  simp [State.tokenPerm]
@[simp] theorem State.bytes_setAlert (s : State) (k : Nat) (j m : Nat) : (s.setAlert k).bytes j m = s.bytes j m := by
  simp [State.bytes]
@[simp] theorem State.readNat_setAlert (s : State) (k : Nat) (j m : Nat) : (s.setAlert k).readNat j m = s.readNat j m := by
  simp [State.readNat]
@[simp] theorem State.journal_pending (s : State) (k : JKind) (l : List Nat) : (s.journal k l).pending = s.pending := by
  simp only [State.journal]
  repeat' split
  all_goals simp
@[simp] theorem State.journal_free (s : State) (k : JKind) (l : List Nat) : (s.journal k l).free = s.free := by
  simp only [State.journal]
  repeat' split
  all_goals simp
@[simp] theorem State.journal_reply (s : State) (k : JKind) (l : List Nat) : (s.journal k l).reply = s.reply := by
  simp only [State.journal]
  repeat' split
  all_goals simp
@[simp] theorem State.journal_time (s : State) (k : JKind) (l : List Nat) : (s.journal k l).time = s.time := by
  simp only [State.journal]
  repeat' split
  all_goals simp
@[simp] theorem State.journal_pins (s : State) (k : JKind) (l : List Nat) : (s.journal k l).pins = s.pins := by
  simp only [State.journal]
  repeat' split
  all_goals simp
@[simp] theorem State.journal_boot (s : State) (k : JKind) (l : List Nat) : (s.journal k l).boot = s.boot := by
  simp only [State.journal]
  repeat' split
  all_goals simp
@[simp] theorem State.journal_cfg (s : State) (k : JKind) (l : List Nat) : (s.journal k l).cfg = s.cfg := by
  simp only [State.journal]
  repeat' split
  all_goals simp
@[simp] theorem State.journal_cfgSeq (s : State) (k : JKind) (l : List Nat) : (s.journal k l).cfgSeq = s.cfgSeq := by
  simp only [State.journal]
  repeat' split
  all_goals simp
@[simp] theorem State.journal_flash (s : State) (k : JKind) (l : List Nat) : (s.journal k l).flash = s.flash := by
  simp only [State.journal]
  repeat' split
  all_goals simp
@[simp] theorem State.journal_sec (s : State) (k : JKind) (l : List Nat) : (s.journal k l).sec = s.sec := by
  simp only [State.journal]
  repeat' split
  all_goals simp
@[simp] theorem State.journal_log (s : State) (k : JKind) (l : List Nat) : (s.journal k l).log = s.log := by
  simp only [State.journal]
  repeat' split
  all_goals simp
@[simp] theorem State.journal_evHead (s : State) (k : JKind) (l : List Nat) : (s.journal k l).evHead = s.evHead := by
  simp only [State.journal]
  repeat' split
  all_goals simp
@[simp] theorem State.journal_refusedAt (s : State) (k : JKind) (l : List Nat) : (s.journal k l).refusedAt = s.refusedAt := by
  simp only [State.journal]
  repeat' split
  all_goals simp
@[simp] theorem State.journal_mem (s : State) (k : JKind) (l : List Nat) : (s.journal k l).mem = s.mem := by
  simp only [State.journal]
  repeat' split
  all_goals simp
@[simp] theorem State.journal_hostMem (s : State) (k : JKind) (l : List Nat) : (s.journal k l).hostMem = s.hostMem := by
  simp only [State.journal]
  repeat' split
  all_goals simp
@[simp] theorem State.journal_poison (s : State) (k : JKind) (l : List Nat) : (s.journal k l).poison = s.poison := by
  simp only [State.journal]
  repeat' split
  all_goals simp
@[simp] theorem State.journal_wordErr (s : State) (k : JKind) (l : List Nat) : (s.journal k l).wordErr = s.wordErr := by
  simp only [State.journal]
  repeat' split
  all_goals simp
@[simp] theorem State.journal_feFull (s : State) (k : JKind) (l : List Nat) : (s.journal k l).feFull = s.feFull := by
  simp only [State.journal]
  repeat' split
  all_goals simp
@[simp] theorem State.journal_feOwner (s : State) (k : JKind) (l : List Nat) : (s.journal k l).feOwner = s.feOwner := by
  simp only [State.journal]
  repeat' split
  all_goals simp
@[simp] theorem State.journal_feOps (s : State) (k : JKind) (l : List Nat) : (s.journal k l).feOps = s.feOps := by
  simp only [State.journal]
  repeat' split
  all_goals simp
@[simp] theorem State.journal_lats (s : State) (k : JKind) (l : List Nat) : (s.journal k l).lats = s.lats := by
  simp only [State.journal]
  repeat' split
  all_goals simp
@[simp] theorem State.journal_combs (s : State) (k : JKind) (l : List Nat) : (s.journal k l).combs = s.combs := by
  simp only [State.journal]
  repeat' split
  all_goals simp
@[simp] theorem State.journal_threads (s : State) (k : JKind) (l : List Nat) : (s.journal k l).threads = s.threads := by
  simp only [State.journal]
  repeat' split
  all_goals simp
@[simp] theorem State.journal_ctxs (s : State) (k : JKind) (l : List Nat) : (s.journal k l).ctxs = s.ctxs := by
  simp only [State.journal]
  repeat' split
  all_goals simp
@[simp] theorem State.journal_entries (s : State) (k : JKind) (l : List Nat) : (s.journal k l).entries = s.entries := by
  simp only [State.journal]
  repeat' split
  all_goals simp
@[simp] theorem State.journal_admitQueue (s : State) (k : JKind) (l : List Nat) : (s.journal k l).admitQueue = s.admitQueue := by
  simp only [State.journal]
  repeat' split
  all_goals simp
@[simp] theorem State.journal_issued (s : State) (k : JKind) (l : List Nat) : (s.journal k l).issued = s.issued := by
  simp only [State.journal]
  repeat' split
  all_goals simp
@[simp] theorem State.journal_bays (s : State) (k : JKind) (l : List Nat) : (s.journal k l).bays = s.bays := by
  simp only [State.journal]
  repeat' split
  all_goals simp
@[simp] theorem State.journal_ports (s : State) (k : JKind) (l : List Nat) : (s.journal k l).ports = s.ports := by
  simp only [State.journal]
  repeat' split
  all_goals simp
@[simp] theorem State.journal_hnx (s : State) (k : JKind) (l : List Nat) : (s.journal k l).hnx = s.hnx := by
  simp only [State.journal]
  repeat' split
  all_goals simp
@[simp] theorem State.journal_rings (s : State) (k : JKind) (l : List Nat) : (s.journal k l).rings = s.rings := by
  simp only [State.journal]
  repeat' split
  all_goals simp
@[simp] theorem State.journal_coefs (s : State) (k : JKind) (l : List Nat) : (s.journal k l).coefs = s.coefs := by
  simp only [State.journal]
  repeat' split
  all_goals simp
@[simp] theorem State.journal_clusters (s : State) (k : JKind) (l : List Nat) : (s.journal k l).clusters = s.clusters := by
  simp only [State.journal]
  repeat' split
  all_goals simp
@[simp] theorem State.journal_convs (s : State) (k : JKind) (l : List Nat) : (s.journal k l).convs = s.convs := by
  simp only [State.journal]
  repeat' split
  all_goals simp
@[simp] theorem State.journal_traces (s : State) (k : JKind) (l : List Nat) : (s.journal k l).traces = s.traces := by
  simp only [State.journal]
  repeat' split
  all_goals simp
@[simp] theorem State.journal_power (s : State) (k : JKind) (l : List Nat) : (s.journal k l).power = s.power := by
  simp only [State.journal]
  repeat' split
  all_goals simp
@[simp] theorem State.journal_sensors (s : State) (k : JKind) (l : List Nat) : (s.journal k l).sensors = s.sensors := by
  simp only [State.journal]
  repeat' split
  all_goals simp
@[simp] theorem State.journal_mgmt (s : State) (k : JKind) (l : List Nat) : (s.journal k l).mgmt = s.mgmt := by
  simp only [State.journal]
  repeat' split
  all_goals simp
@[simp] theorem State.lat_journal (s : State) (k : JKind) (l : List Nat) (j : Nat) : (s.journal k l).lat j = s.lat j := by
  simp [State.lat]
@[simp] theorem State.comb_journal (s : State) (k : JKind) (l : List Nat) (j : Nat) : (s.journal k l).comb j = s.comb j := by
  simp [State.comb]
@[simp] theorem State.thread_journal (s : State) (k : JKind) (l : List Nat) (j : Nat) : (s.journal k l).thread j = s.thread j := by
  simp [State.thread]
@[simp] theorem State.ctx_journal (s : State) (k : JKind) (l : List Nat) (j : Nat) : (s.journal k l).ctx j = s.ctx j := by
  simp [State.ctx]
@[simp] theorem State.entrySt_journal (s : State) (k : JKind) (l : List Nat) (j : Nat) : (s.journal k l).entrySt j = s.entrySt j := by
  simp [State.entrySt]
@[simp] theorem State.bay_journal (s : State) (k : JKind) (l : List Nat) (j : Nat) : (s.journal k l).bay j = s.bay j := by
  simp [State.bay]
@[simp] theorem State.port_journal (s : State) (k : JKind) (l : List Nat) (j : Nat) : (s.journal k l).port j = s.port j := by
  simp [State.port]
@[simp] theorem State.ring_journal (s : State) (k : JKind) (l : List Nat) (j : Nat) : (s.journal k l).ring j = s.ring j := by
  simp [State.ring]
@[simp] theorem State.cluster_journal (s : State) (k : JKind) (l : List Nat) (j : Nat) : (s.journal k l).cluster j = s.cluster j := by
  simp [State.cluster]
@[simp] theorem State.conv_journal (s : State) (k : JKind) (l : List Nat) (j : Nat) : (s.journal k l).conv j = s.conv j := by
  simp [State.conv]
@[simp] theorem State.trace_journal (s : State) (k : JKind) (l : List Nat) (j : Nat) : (s.journal k l).trace j = s.trace j := by
  simp [State.trace]
@[simp] theorem State.sensor_journal (s : State) (k : JKind) (l : List Nat) (j : Nat) : (s.journal k l).sensor j = s.sensor j := by
  simp [State.sensor]
@[simp] theorem State.byte_journal (s : State) (k : JKind) (l : List Nat) (j : Nat) : (s.journal k l).byte j = s.byte j := by
  simp [State.byte]
@[simp] theorem State.hostByte_journal (s : State) (k : JKind) (l : List Nat) (j : Nat) : (s.journal k l).hostByte j = s.hostByte j := by
  simp [State.hostByte]
@[simp] theorem State.poisoned_journal (s : State) (k : JKind) (l : List Nat) (j : Nat) : (s.journal k l).poisoned j = s.poisoned j := by
  simp [State.poisoned]
@[simp] theorem State.inService_journal (s : State) (k : JKind) (l : List Nat) : (s.journal k l).inService = s.inService := by
  simp [State.inService]
@[simp] theorem State.served_journal (s : State) (k : JKind) (l : List Nat) (j : Path) : (s.journal k l).served j = s.served j := by
  simp [State.served]
@[simp] theorem State.tokenPerm_journal (s : State) (k : JKind) (l : List Nat) (j : Nat) : (s.journal k l).tokenPerm j = s.tokenPerm j := by
  simp [State.tokenPerm]
@[simp] theorem State.bytes_journal (s : State) (k : JKind) (l : List Nat) (j m : Nat) : (s.journal k l).bytes j m = s.bytes j m := by
  simp [State.bytes]
@[simp] theorem State.readNat_journal (s : State) (k : JKind) (l : List Nat) (j m : Nat) : (s.journal k l).readNat j m = s.readNat j m := by
  simp [State.readNat]
@[simp] theorem State.cxlRecord_pending (s : State) (k : Nat) (r : List Byte) : (s.cxlRecord k r).pending = s.pending := by
  simp only [State.cxlRecord]
  repeat' split
  all_goals simp
@[simp] theorem State.cxlRecord_free (s : State) (k : Nat) (r : List Byte) : (s.cxlRecord k r).free = s.free := by
  simp only [State.cxlRecord]
  repeat' split
  all_goals simp
@[simp] theorem State.cxlRecord_reply (s : State) (k : Nat) (r : List Byte) : (s.cxlRecord k r).reply = s.reply := by
  simp only [State.cxlRecord]
  repeat' split
  all_goals simp
@[simp] theorem State.cxlRecord_time (s : State) (k : Nat) (r : List Byte) : (s.cxlRecord k r).time = s.time := by
  simp only [State.cxlRecord]
  repeat' split
  all_goals simp
@[simp] theorem State.cxlRecord_pins (s : State) (k : Nat) (r : List Byte) : (s.cxlRecord k r).pins = s.pins := by
  simp only [State.cxlRecord]
  repeat' split
  all_goals simp
@[simp] theorem State.cxlRecord_boot (s : State) (k : Nat) (r : List Byte) : (s.cxlRecord k r).boot = s.boot := by
  simp only [State.cxlRecord]
  repeat' split
  all_goals simp
@[simp] theorem State.cxlRecord_cfg (s : State) (k : Nat) (r : List Byte) : (s.cxlRecord k r).cfg = s.cfg := by
  simp only [State.cxlRecord]
  repeat' split
  all_goals simp
@[simp] theorem State.cxlRecord_cfgSeq (s : State) (k : Nat) (r : List Byte) : (s.cxlRecord k r).cfgSeq = s.cfgSeq := by
  simp only [State.cxlRecord]
  repeat' split
  all_goals simp
@[simp] theorem State.cxlRecord_flash (s : State) (k : Nat) (r : List Byte) : (s.cxlRecord k r).flash = s.flash := by
  simp only [State.cxlRecord]
  repeat' split
  all_goals simp
@[simp] theorem State.cxlRecord_jnl (s : State) (k : Nat) (r : List Byte) : (s.cxlRecord k r).jnl = s.jnl := by
  simp only [State.cxlRecord]
  repeat' split
  all_goals simp
@[simp] theorem State.cxlRecord_sec (s : State) (k : Nat) (r : List Byte) : (s.cxlRecord k r).sec = s.sec := by
  simp only [State.cxlRecord]
  repeat' split
  all_goals simp
@[simp] theorem State.cxlRecord_log (s : State) (k : Nat) (r : List Byte) : (s.cxlRecord k r).log = s.log := by
  simp only [State.cxlRecord]
  repeat' split
  all_goals simp
@[simp] theorem State.cxlRecord_evHead (s : State) (k : Nat) (r : List Byte) : (s.cxlRecord k r).evHead = s.evHead := by
  simp only [State.cxlRecord]
  repeat' split
  all_goals simp
@[simp] theorem State.cxlRecord_flds (s : State) (k : Nat) (r : List Byte) : (s.cxlRecord k r).flds = s.flds := by
  simp only [State.cxlRecord]
  repeat' split
  all_goals simp
@[simp] theorem State.cxlRecord_refusedAt (s : State) (k : Nat) (r : List Byte) : (s.cxlRecord k r).refusedAt = s.refusedAt := by
  simp only [State.cxlRecord]
  repeat' split
  all_goals simp
@[simp] theorem State.cxlRecord_mem (s : State) (k : Nat) (r : List Byte) : (s.cxlRecord k r).mem = s.mem := by
  simp only [State.cxlRecord]
  repeat' split
  all_goals simp
@[simp] theorem State.cxlRecord_hostMem (s : State) (k : Nat) (r : List Byte) : (s.cxlRecord k r).hostMem = s.hostMem := by
  simp only [State.cxlRecord]
  repeat' split
  all_goals simp
@[simp] theorem State.cxlRecord_poison (s : State) (k : Nat) (r : List Byte) : (s.cxlRecord k r).poison = s.poison := by
  simp only [State.cxlRecord]
  repeat' split
  all_goals simp
@[simp] theorem State.cxlRecord_wordErr (s : State) (k : Nat) (r : List Byte) : (s.cxlRecord k r).wordErr = s.wordErr := by
  simp only [State.cxlRecord]
  repeat' split
  all_goals simp
@[simp] theorem State.cxlRecord_feFull (s : State) (k : Nat) (r : List Byte) : (s.cxlRecord k r).feFull = s.feFull := by
  simp only [State.cxlRecord]
  repeat' split
  all_goals simp
@[simp] theorem State.cxlRecord_feOwner (s : State) (k : Nat) (r : List Byte) : (s.cxlRecord k r).feOwner = s.feOwner := by
  simp only [State.cxlRecord]
  repeat' split
  all_goals simp
@[simp] theorem State.cxlRecord_feOps (s : State) (k : Nat) (r : List Byte) : (s.cxlRecord k r).feOps = s.feOps := by
  simp only [State.cxlRecord]
  repeat' split
  all_goals simp
@[simp] theorem State.cxlRecord_lats (s : State) (k : Nat) (r : List Byte) : (s.cxlRecord k r).lats = s.lats := by
  simp only [State.cxlRecord]
  repeat' split
  all_goals simp
@[simp] theorem State.cxlRecord_combs (s : State) (k : Nat) (r : List Byte) : (s.cxlRecord k r).combs = s.combs := by
  simp only [State.cxlRecord]
  repeat' split
  all_goals simp
@[simp] theorem State.cxlRecord_threads (s : State) (k : Nat) (r : List Byte) : (s.cxlRecord k r).threads = s.threads := by
  simp only [State.cxlRecord]
  repeat' split
  all_goals simp
@[simp] theorem State.cxlRecord_ctxs (s : State) (k : Nat) (r : List Byte) : (s.cxlRecord k r).ctxs = s.ctxs := by
  simp only [State.cxlRecord]
  repeat' split
  all_goals simp
@[simp] theorem State.cxlRecord_entries (s : State) (k : Nat) (r : List Byte) : (s.cxlRecord k r).entries = s.entries := by
  simp only [State.cxlRecord]
  repeat' split
  all_goals simp
@[simp] theorem State.cxlRecord_admitQueue (s : State) (k : Nat) (r : List Byte) : (s.cxlRecord k r).admitQueue = s.admitQueue := by
  simp only [State.cxlRecord]
  repeat' split
  all_goals simp
@[simp] theorem State.cxlRecord_issued (s : State) (k : Nat) (r : List Byte) : (s.cxlRecord k r).issued = s.issued := by
  simp only [State.cxlRecord]
  repeat' split
  all_goals simp
@[simp] theorem State.cxlRecord_bays (s : State) (k : Nat) (r : List Byte) : (s.cxlRecord k r).bays = s.bays := by
  simp only [State.cxlRecord]
  repeat' split
  all_goals simp
@[simp] theorem State.cxlRecord_ports (s : State) (k : Nat) (r : List Byte) : (s.cxlRecord k r).ports = s.ports := by
  simp only [State.cxlRecord]
  repeat' split
  all_goals simp
@[simp] theorem State.cxlRecord_hnx (s : State) (k : Nat) (r : List Byte) : (s.cxlRecord k r).hnx = s.hnx := by
  simp only [State.cxlRecord]
  repeat' split
  all_goals simp
@[simp] theorem State.cxlRecord_rings (s : State) (k : Nat) (r : List Byte) : (s.cxlRecord k r).rings = s.rings := by
  simp only [State.cxlRecord]
  repeat' split
  all_goals simp
@[simp] theorem State.cxlRecord_coefs (s : State) (k : Nat) (r : List Byte) : (s.cxlRecord k r).coefs = s.coefs := by
  simp only [State.cxlRecord]
  repeat' split
  all_goals simp
@[simp] theorem State.cxlRecord_clusters (s : State) (k : Nat) (r : List Byte) : (s.cxlRecord k r).clusters = s.clusters := by
  simp only [State.cxlRecord]
  repeat' split
  all_goals simp
@[simp] theorem State.cxlRecord_convs (s : State) (k : Nat) (r : List Byte) : (s.cxlRecord k r).convs = s.convs := by
  simp only [State.cxlRecord]
  repeat' split
  all_goals simp
@[simp] theorem State.cxlRecord_traces (s : State) (k : Nat) (r : List Byte) : (s.cxlRecord k r).traces = s.traces := by
  simp only [State.cxlRecord]
  repeat' split
  all_goals simp
@[simp] theorem State.cxlRecord_power (s : State) (k : Nat) (r : List Byte) : (s.cxlRecord k r).power = s.power := by
  simp only [State.cxlRecord]
  repeat' split
  all_goals simp
@[simp] theorem State.cxlRecord_sensors (s : State) (k : Nat) (r : List Byte) : (s.cxlRecord k r).sensors = s.sensors := by
  simp only [State.cxlRecord]
  repeat' split
  all_goals simp
@[simp] theorem State.cxlRecord_mgmt (s : State) (k : Nat) (r : List Byte) : (s.cxlRecord k r).mgmt = s.mgmt := by
  simp only [State.cxlRecord]
  repeat' split
  all_goals simp
@[simp] theorem State.lat_cxlRecord (s : State) (k : Nat) (r : List Byte) (j : Nat) : (s.cxlRecord k r).lat j = s.lat j := by
  simp [State.lat]
@[simp] theorem State.comb_cxlRecord (s : State) (k : Nat) (r : List Byte) (j : Nat) : (s.cxlRecord k r).comb j = s.comb j := by
  simp [State.comb]
@[simp] theorem State.thread_cxlRecord (s : State) (k : Nat) (r : List Byte) (j : Nat) : (s.cxlRecord k r).thread j = s.thread j := by
  simp [State.thread]
@[simp] theorem State.ctx_cxlRecord (s : State) (k : Nat) (r : List Byte) (j : Nat) : (s.cxlRecord k r).ctx j = s.ctx j := by
  simp [State.ctx]
@[simp] theorem State.entrySt_cxlRecord (s : State) (k : Nat) (r : List Byte) (j : Nat) : (s.cxlRecord k r).entrySt j = s.entrySt j := by
  simp [State.entrySt]
@[simp] theorem State.bay_cxlRecord (s : State) (k : Nat) (r : List Byte) (j : Nat) : (s.cxlRecord k r).bay j = s.bay j := by
  simp [State.bay]
@[simp] theorem State.port_cxlRecord (s : State) (k : Nat) (r : List Byte) (j : Nat) : (s.cxlRecord k r).port j = s.port j := by
  simp [State.port]
@[simp] theorem State.ring_cxlRecord (s : State) (k : Nat) (r : List Byte) (j : Nat) : (s.cxlRecord k r).ring j = s.ring j := by
  simp [State.ring]
@[simp] theorem State.cluster_cxlRecord (s : State) (k : Nat) (r : List Byte) (j : Nat) : (s.cxlRecord k r).cluster j = s.cluster j := by
  simp [State.cluster]
@[simp] theorem State.conv_cxlRecord (s : State) (k : Nat) (r : List Byte) (j : Nat) : (s.cxlRecord k r).conv j = s.conv j := by
  simp [State.conv]
@[simp] theorem State.trace_cxlRecord (s : State) (k : Nat) (r : List Byte) (j : Nat) : (s.cxlRecord k r).trace j = s.trace j := by
  simp [State.trace]
@[simp] theorem State.sensor_cxlRecord (s : State) (k : Nat) (r : List Byte) (j : Nat) : (s.cxlRecord k r).sensor j = s.sensor j := by
  simp [State.sensor]

@[simp] theorem State.byte_cxlRecord (s : State) (k : Nat) (r : List Byte) (j : Nat) : (s.cxlRecord k r).byte j = s.byte j := by
  simp [State.byte]
@[simp] theorem State.hostByte_cxlRecord (s : State) (k : Nat) (r : List Byte) (j : Nat) : (s.cxlRecord k r).hostByte j = s.hostByte j := by
  simp [State.hostByte]
@[simp] theorem State.poisoned_cxlRecord (s : State) (k : Nat) (r : List Byte) (j : Nat) : (s.cxlRecord k r).poisoned j = s.poisoned j := by
  simp [State.poisoned]
@[simp] theorem State.inService_cxlRecord (s : State) (k : Nat) (r : List Byte) : (s.cxlRecord k r).inService = s.inService := by
  simp [State.inService]
@[simp] theorem State.served_cxlRecord (s : State) (k : Nat) (r : List Byte) (j : Path) : (s.cxlRecord k r).served j = s.served j := by
  simp [State.served]
@[simp] theorem State.tokenPerm_cxlRecord (s : State) (k : Nat) (r : List Byte) (j : Nat) : (s.cxlRecord k r).tokenPerm j = s.tokenPerm j := by
  simp [State.tokenPerm]
@[simp] theorem State.bytes_cxlRecord (s : State) (k : Nat) (r : List Byte) (j m : Nat) : (s.cxlRecord k r).bytes j m = s.bytes j m := by
  simp [State.bytes]
@[simp] theorem State.readNat_cxlRecord (s : State) (k : Nat) (r : List Byte) (j m : Nat) : (s.cxlRecord k r).readNat j m = s.readNat j m := by
  simp [State.readNat]
@[simp] theorem State.spread_pending (s : State) (e : Event) : (s.spread e).pending = s.pending := by
  simp only [State.spread]
  repeat' split
  all_goals simp
@[simp] theorem State.spread_free (s : State) (e : Event) : (s.spread e).free = s.free := by
  simp only [State.spread]
  repeat' split
  all_goals simp
@[simp] theorem State.spread_reply (s : State) (e : Event) : (s.spread e).reply = s.reply := by
  simp only [State.spread]
  repeat' split
  all_goals simp
@[simp] theorem State.spread_time (s : State) (e : Event) : (s.spread e).time = s.time := by
  simp only [State.spread]
  repeat' split
  all_goals simp
@[simp] theorem State.spread_pins (s : State) (e : Event) : (s.spread e).pins = s.pins := by
  simp only [State.spread]
  repeat' split
  all_goals simp
@[simp] theorem State.spread_boot (s : State) (e : Event) : (s.spread e).boot = s.boot := by
  simp only [State.spread]
  repeat' split
  all_goals simp
@[simp] theorem State.spread_cfg (s : State) (e : Event) : (s.spread e).cfg = s.cfg := by
  simp only [State.spread]
  repeat' split
  all_goals simp
@[simp] theorem State.spread_cfgSeq (s : State) (e : Event) : (s.spread e).cfgSeq = s.cfgSeq := by
  simp only [State.spread]
  repeat' split
  all_goals simp
@[simp] theorem State.spread_flash (s : State) (e : Event) : (s.spread e).flash = s.flash := by
  simp only [State.spread]
  repeat' split
  all_goals simp
@[simp] theorem State.spread_sec (s : State) (e : Event) : (s.spread e).sec = s.sec := by
  simp only [State.spread]
  repeat' split
  all_goals simp
@[simp] theorem State.spread_log (s : State) (e : Event) : (s.spread e).log = s.log := by
  simp only [State.spread]
  repeat' split
  all_goals simp
@[simp] theorem State.spread_evHead (s : State) (e : Event) : (s.spread e).evHead = s.evHead := by
  simp only [State.spread]
  repeat' split
  all_goals simp
@[simp] theorem State.spread_refusedAt (s : State) (e : Event) : (s.spread e).refusedAt = s.refusedAt := by
  simp only [State.spread]
  repeat' split
  all_goals simp
@[simp] theorem State.spread_mem (s : State) (e : Event) : (s.spread e).mem = s.mem := by
  simp only [State.spread]
  repeat' split
  all_goals simp
@[simp] theorem State.spread_hostMem (s : State) (e : Event) : (s.spread e).hostMem = s.hostMem := by
  simp only [State.spread]
  repeat' split
  all_goals simp
@[simp] theorem State.spread_poison (s : State) (e : Event) : (s.spread e).poison = s.poison := by
  simp only [State.spread]
  repeat' split
  all_goals simp
@[simp] theorem State.spread_wordErr (s : State) (e : Event) : (s.spread e).wordErr = s.wordErr := by
  simp only [State.spread]
  repeat' split
  all_goals simp
@[simp] theorem State.spread_feFull (s : State) (e : Event) : (s.spread e).feFull = s.feFull := by
  simp only [State.spread]
  repeat' split
  all_goals simp
@[simp] theorem State.spread_feOwner (s : State) (e : Event) : (s.spread e).feOwner = s.feOwner := by
  simp only [State.spread]
  repeat' split
  all_goals simp
@[simp] theorem State.spread_feOps (s : State) (e : Event) : (s.spread e).feOps = s.feOps := by
  simp only [State.spread]
  repeat' split
  all_goals simp
@[simp] theorem State.spread_lats (s : State) (e : Event) : (s.spread e).lats = s.lats := by
  simp only [State.spread]
  repeat' split
  all_goals simp
@[simp] theorem State.spread_combs (s : State) (e : Event) : (s.spread e).combs = s.combs := by
  simp only [State.spread]
  repeat' split
  all_goals simp
@[simp] theorem State.spread_threads (s : State) (e : Event) : (s.spread e).threads = s.threads := by
  simp only [State.spread]
  repeat' split
  all_goals simp
@[simp] theorem State.spread_ctxs (s : State) (e : Event) : (s.spread e).ctxs = s.ctxs := by
  simp only [State.spread]
  repeat' split
  all_goals simp
@[simp] theorem State.spread_entries (s : State) (e : Event) : (s.spread e).entries = s.entries := by
  simp only [State.spread]
  repeat' split
  all_goals simp
@[simp] theorem State.spread_admitQueue (s : State) (e : Event) : (s.spread e).admitQueue = s.admitQueue := by
  simp only [State.spread]
  repeat' split
  all_goals simp
@[simp] theorem State.spread_issued (s : State) (e : Event) : (s.spread e).issued = s.issued := by
  simp only [State.spread]
  repeat' split
  all_goals simp
@[simp] theorem State.spread_bays (s : State) (e : Event) : (s.spread e).bays = s.bays := by
  simp only [State.spread]
  repeat' split
  all_goals simp
@[simp] theorem State.spread_ports (s : State) (e : Event) : (s.spread e).ports = s.ports := by
  simp only [State.spread]
  repeat' split
  all_goals simp
@[simp] theorem State.spread_hnx (s : State) (e : Event) : (s.spread e).hnx = s.hnx := by
  simp only [State.spread]
  repeat' split
  all_goals simp
@[simp] theorem State.spread_rings (s : State) (e : Event) : (s.spread e).rings = s.rings := by
  simp only [State.spread]
  repeat' split
  all_goals simp
@[simp] theorem State.spread_coefs (s : State) (e : Event) : (s.spread e).coefs = s.coefs := by
  simp only [State.spread]
  repeat' split
  all_goals simp
@[simp] theorem State.spread_clusters (s : State) (e : Event) : (s.spread e).clusters = s.clusters := by
  simp only [State.spread]
  repeat' split
  all_goals simp
@[simp] theorem State.spread_convs (s : State) (e : Event) : (s.spread e).convs = s.convs := by
  simp only [State.spread]
  repeat' split
  all_goals simp
@[simp] theorem State.spread_traces (s : State) (e : Event) : (s.spread e).traces = s.traces := by
  simp only [State.spread]
  repeat' split
  all_goals simp
@[simp] theorem State.spread_power (s : State) (e : Event) : (s.spread e).power = s.power := by
  simp only [State.spread]
  repeat' split
  all_goals simp
@[simp] theorem State.spread_sensors (s : State) (e : Event) : (s.spread e).sensors = s.sensors := by
  simp only [State.spread]
  repeat' split
  all_goals simp
@[simp] theorem State.lat_spread (s : State) (e : Event) (j : Nat) : (s.spread e).lat j = s.lat j := by
  simp [State.lat]
@[simp] theorem State.comb_spread (s : State) (e : Event) (j : Nat) : (s.spread e).comb j = s.comb j := by
  simp [State.comb]
@[simp] theorem State.thread_spread (s : State) (e : Event) (j : Nat) : (s.spread e).thread j = s.thread j := by
  simp [State.thread]
@[simp] theorem State.ctx_spread (s : State) (e : Event) (j : Nat) : (s.spread e).ctx j = s.ctx j := by
  simp [State.ctx]
@[simp] theorem State.entrySt_spread (s : State) (e : Event) (j : Nat) : (s.spread e).entrySt j = s.entrySt j := by
  simp [State.entrySt]
@[simp] theorem State.bay_spread (s : State) (e : Event) (j : Nat) : (s.spread e).bay j = s.bay j := by
  simp [State.bay]
@[simp] theorem State.port_spread (s : State) (e : Event) (j : Nat) : (s.spread e).port j = s.port j := by
  simp [State.port]
@[simp] theorem State.ring_spread (s : State) (e : Event) (j : Nat) : (s.spread e).ring j = s.ring j := by
  simp [State.ring]
@[simp] theorem State.cluster_spread (s : State) (e : Event) (j : Nat) : (s.spread e).cluster j = s.cluster j := by
  simp [State.cluster]
@[simp] theorem State.conv_spread (s : State) (e : Event) (j : Nat) : (s.spread e).conv j = s.conv j := by
  simp [State.conv]
@[simp] theorem State.trace_spread (s : State) (e : Event) (j : Nat) : (s.spread e).trace j = s.trace j := by
  simp [State.trace]
@[simp] theorem State.sensor_spread (s : State) (e : Event) (j : Nat) : (s.spread e).sensor j = s.sensor j := by
  simp [State.sensor]
@[simp] theorem State.byte_spread (s : State) (e : Event) (j : Nat) : (s.spread e).byte j = s.byte j := by
  simp [State.byte]
@[simp] theorem State.hostByte_spread (s : State) (e : Event) (j : Nat) : (s.spread e).hostByte j = s.hostByte j := by
  simp [State.hostByte]
@[simp] theorem State.poisoned_spread (s : State) (e : Event) (j : Nat) : (s.spread e).poisoned j = s.poisoned j := by
  simp [State.poisoned]
@[simp] theorem State.inService_spread (s : State) (e : Event) : (s.spread e).inService = s.inService := by
  simp [State.inService]
@[simp] theorem State.served_spread (s : State) (e : Event) (j : Path) : (s.spread e).served j = s.served j := by
  simp [State.served]
@[simp] theorem State.tokenPerm_spread (s : State) (e : Event) (j : Nat) : (s.spread e).tokenPerm j = s.tokenPerm j := by
  simp [State.tokenPerm]
@[simp] theorem State.bytes_spread (s : State) (e : Event) (j m : Nat) : (s.spread e).bytes j m = s.bytes j m := by
  simp [State.bytes]
@[simp] theorem State.readNat_spread (s : State) (e : Event) (j m : Nat) : (s.spread e).readNat j m = s.readNat j m := by
  simp [State.readNat]
@[simp] theorem State.event_pending (s : State) (ev : Ev) (uk : UnitKind) (uid c : Nat) (l : List Nat) : (s.event ev uk uid c l).pending = s.pending := by
  simp only [State.event]
  repeat' split
  all_goals simp
@[simp] theorem State.event_free (s : State) (ev : Ev) (uk : UnitKind) (uid c : Nat) (l : List Nat) : (s.event ev uk uid c l).free = s.free := by
  simp only [State.event]
  repeat' split
  all_goals simp
@[simp] theorem State.event_reply (s : State) (ev : Ev) (uk : UnitKind) (uid c : Nat) (l : List Nat) : (s.event ev uk uid c l).reply = s.reply := by
  simp only [State.event]
  repeat' split
  all_goals simp
@[simp] theorem State.event_time (s : State) (ev : Ev) (uk : UnitKind) (uid c : Nat) (l : List Nat) : (s.event ev uk uid c l).time = s.time := by
  simp only [State.event]
  repeat' split
  all_goals simp
@[simp] theorem State.event_pins (s : State) (ev : Ev) (uk : UnitKind) (uid c : Nat) (l : List Nat) : (s.event ev uk uid c l).pins = s.pins := by
  simp only [State.event]
  repeat' split
  all_goals simp
@[simp] theorem State.event_boot (s : State) (ev : Ev) (uk : UnitKind) (uid c : Nat) (l : List Nat) : (s.event ev uk uid c l).boot = s.boot := by
  simp only [State.event]
  repeat' split
  all_goals simp
@[simp] theorem State.event_cfg (s : State) (ev : Ev) (uk : UnitKind) (uid c : Nat) (l : List Nat) : (s.event ev uk uid c l).cfg = s.cfg := by
  simp only [State.event]
  repeat' split
  all_goals simp
@[simp] theorem State.event_cfgSeq (s : State) (ev : Ev) (uk : UnitKind) (uid c : Nat) (l : List Nat) : (s.event ev uk uid c l).cfgSeq = s.cfgSeq := by
  simp only [State.event]
  repeat' split
  all_goals simp
@[simp] theorem State.event_flash (s : State) (ev : Ev) (uk : UnitKind) (uid c : Nat) (l : List Nat) : (s.event ev uk uid c l).flash = s.flash := by
  simp only [State.event]
  repeat' split
  all_goals simp
@[simp] theorem State.event_sec (s : State) (ev : Ev) (uk : UnitKind) (uid c : Nat) (l : List Nat) : (s.event ev uk uid c l).sec = s.sec := by
  simp only [State.event]
  repeat' split
  all_goals simp
@[simp] theorem State.event_refusedAt (s : State) (ev : Ev) (uk : UnitKind) (uid c : Nat) (l : List Nat) : (s.event ev uk uid c l).refusedAt = s.refusedAt := by
  simp only [State.event]
  repeat' split
  all_goals simp
@[simp] theorem State.event_mem (s : State) (ev : Ev) (uk : UnitKind) (uid c : Nat) (l : List Nat) : (s.event ev uk uid c l).mem = s.mem := by
  simp only [State.event]
  repeat' split
  all_goals simp
@[simp] theorem State.event_hostMem (s : State) (ev : Ev) (uk : UnitKind) (uid c : Nat) (l : List Nat) : (s.event ev uk uid c l).hostMem = s.hostMem := by
  simp only [State.event]
  repeat' split
  all_goals simp
@[simp] theorem State.event_poison (s : State) (ev : Ev) (uk : UnitKind) (uid c : Nat) (l : List Nat) : (s.event ev uk uid c l).poison = s.poison := by
  simp only [State.event]
  repeat' split
  all_goals simp
@[simp] theorem State.event_wordErr (s : State) (ev : Ev) (uk : UnitKind) (uid c : Nat) (l : List Nat) : (s.event ev uk uid c l).wordErr = s.wordErr := by
  simp only [State.event]
  repeat' split
  all_goals simp
@[simp] theorem State.event_feFull (s : State) (ev : Ev) (uk : UnitKind) (uid c : Nat) (l : List Nat) : (s.event ev uk uid c l).feFull = s.feFull := by
  simp only [State.event]
  repeat' split
  all_goals simp
@[simp] theorem State.event_feOwner (s : State) (ev : Ev) (uk : UnitKind) (uid c : Nat) (l : List Nat) : (s.event ev uk uid c l).feOwner = s.feOwner := by
  simp only [State.event]
  repeat' split
  all_goals simp
@[simp] theorem State.event_feOps (s : State) (ev : Ev) (uk : UnitKind) (uid c : Nat) (l : List Nat) : (s.event ev uk uid c l).feOps = s.feOps := by
  simp only [State.event]
  repeat' split
  all_goals simp
@[simp] theorem State.event_lats (s : State) (ev : Ev) (uk : UnitKind) (uid c : Nat) (l : List Nat) : (s.event ev uk uid c l).lats = s.lats := by
  simp only [State.event]
  repeat' split
  all_goals simp
@[simp] theorem State.event_combs (s : State) (ev : Ev) (uk : UnitKind) (uid c : Nat) (l : List Nat) : (s.event ev uk uid c l).combs = s.combs := by
  simp only [State.event]
  repeat' split
  all_goals simp
@[simp] theorem State.event_threads (s : State) (ev : Ev) (uk : UnitKind) (uid c : Nat) (l : List Nat) : (s.event ev uk uid c l).threads = s.threads := by
  simp only [State.event]
  repeat' split
  all_goals simp
@[simp] theorem State.event_ctxs (s : State) (ev : Ev) (uk : UnitKind) (uid c : Nat) (l : List Nat) : (s.event ev uk uid c l).ctxs = s.ctxs := by
  simp only [State.event]
  repeat' split
  all_goals simp
@[simp] theorem State.event_entries (s : State) (ev : Ev) (uk : UnitKind) (uid c : Nat) (l : List Nat) : (s.event ev uk uid c l).entries = s.entries := by
  simp only [State.event]
  repeat' split
  all_goals simp
@[simp] theorem State.event_admitQueue (s : State) (ev : Ev) (uk : UnitKind) (uid c : Nat) (l : List Nat) : (s.event ev uk uid c l).admitQueue = s.admitQueue := by
  simp only [State.event]
  repeat' split
  all_goals simp
@[simp] theorem State.event_issued (s : State) (ev : Ev) (uk : UnitKind) (uid c : Nat) (l : List Nat) : (s.event ev uk uid c l).issued = s.issued := by
  simp only [State.event]
  repeat' split
  all_goals simp
@[simp] theorem State.event_bays (s : State) (ev : Ev) (uk : UnitKind) (uid c : Nat) (l : List Nat) : (s.event ev uk uid c l).bays = s.bays := by
  simp only [State.event]
  repeat' split
  all_goals simp
@[simp] theorem State.event_ports (s : State) (ev : Ev) (uk : UnitKind) (uid c : Nat) (l : List Nat) : (s.event ev uk uid c l).ports = s.ports := by
  simp only [State.event]
  repeat' split
  all_goals simp
@[simp] theorem State.event_hnx (s : State) (ev : Ev) (uk : UnitKind) (uid c : Nat) (l : List Nat) : (s.event ev uk uid c l).hnx = s.hnx := by
  simp only [State.event]
  repeat' split
  all_goals simp
@[simp] theorem State.event_rings (s : State) (ev : Ev) (uk : UnitKind) (uid c : Nat) (l : List Nat) : (s.event ev uk uid c l).rings = s.rings := by
  simp only [State.event]
  repeat' split
  all_goals simp
@[simp] theorem State.event_coefs (s : State) (ev : Ev) (uk : UnitKind) (uid c : Nat) (l : List Nat) : (s.event ev uk uid c l).coefs = s.coefs := by
  simp only [State.event]
  repeat' split
  all_goals simp
@[simp] theorem State.event_clusters (s : State) (ev : Ev) (uk : UnitKind) (uid c : Nat) (l : List Nat) : (s.event ev uk uid c l).clusters = s.clusters := by
  simp only [State.event]
  repeat' split
  all_goals simp
@[simp] theorem State.event_convs (s : State) (ev : Ev) (uk : UnitKind) (uid c : Nat) (l : List Nat) : (s.event ev uk uid c l).convs = s.convs := by
  simp only [State.event]
  repeat' split
  all_goals simp
@[simp] theorem State.event_traces (s : State) (ev : Ev) (uk : UnitKind) (uid c : Nat) (l : List Nat) : (s.event ev uk uid c l).traces = s.traces := by
  simp only [State.event]
  repeat' split
  all_goals simp
@[simp] theorem State.event_power (s : State) (ev : Ev) (uk : UnitKind) (uid c : Nat) (l : List Nat) : (s.event ev uk uid c l).power = s.power := by
  simp only [State.event]
  repeat' split
  all_goals simp
@[simp] theorem State.event_sensors (s : State) (ev : Ev) (uk : UnitKind) (uid c : Nat) (l : List Nat) : (s.event ev uk uid c l).sensors = s.sensors := by
  simp only [State.event]
  repeat' split
  all_goals simp
@[simp] theorem State.lat_event (s : State) (ev : Ev) (uk : UnitKind) (uid c : Nat) (l : List Nat) (j : Nat) : (s.event ev uk uid c l).lat j = s.lat j := by
  simp [State.lat]
@[simp] theorem State.comb_event (s : State) (ev : Ev) (uk : UnitKind) (uid c : Nat) (l : List Nat) (j : Nat) : (s.event ev uk uid c l).comb j = s.comb j := by
  simp [State.comb]
@[simp] theorem State.thread_event (s : State) (ev : Ev) (uk : UnitKind) (uid c : Nat) (l : List Nat) (j : Nat) : (s.event ev uk uid c l).thread j = s.thread j := by
  simp [State.thread]
@[simp] theorem State.ctx_event (s : State) (ev : Ev) (uk : UnitKind) (uid c : Nat) (l : List Nat) (j : Nat) : (s.event ev uk uid c l).ctx j = s.ctx j := by
  simp [State.ctx]
@[simp] theorem State.entrySt_event (s : State) (ev : Ev) (uk : UnitKind) (uid c : Nat) (l : List Nat) (j : Nat) : (s.event ev uk uid c l).entrySt j = s.entrySt j := by
  simp [State.entrySt]
@[simp] theorem State.bay_event (s : State) (ev : Ev) (uk : UnitKind) (uid c : Nat) (l : List Nat) (j : Nat) : (s.event ev uk uid c l).bay j = s.bay j := by
  simp [State.bay]
@[simp] theorem State.port_event (s : State) (ev : Ev) (uk : UnitKind) (uid c : Nat) (l : List Nat) (j : Nat) : (s.event ev uk uid c l).port j = s.port j := by
  simp [State.port]
@[simp] theorem State.ring_event (s : State) (ev : Ev) (uk : UnitKind) (uid c : Nat) (l : List Nat) (j : Nat) : (s.event ev uk uid c l).ring j = s.ring j := by
  simp [State.ring]
@[simp] theorem State.cluster_event (s : State) (ev : Ev) (uk : UnitKind) (uid c : Nat) (l : List Nat) (j : Nat) : (s.event ev uk uid c l).cluster j = s.cluster j := by
  simp [State.cluster]
@[simp] theorem State.conv_event (s : State) (ev : Ev) (uk : UnitKind) (uid c : Nat) (l : List Nat) (j : Nat) : (s.event ev uk uid c l).conv j = s.conv j := by
  simp [State.conv]
@[simp] theorem State.trace_event (s : State) (ev : Ev) (uk : UnitKind) (uid c : Nat) (l : List Nat) (j : Nat) : (s.event ev uk uid c l).trace j = s.trace j := by
  simp [State.trace]
@[simp] theorem State.sensor_event (s : State) (ev : Ev) (uk : UnitKind) (uid c : Nat) (l : List Nat) (j : Nat) : (s.event ev uk uid c l).sensor j = s.sensor j := by
  simp [State.sensor]
@[simp] theorem State.byte_event (s : State) (ev : Ev) (uk : UnitKind) (uid c : Nat) (l : List Nat) (j : Nat) : (s.event ev uk uid c l).byte j = s.byte j := by
  simp [State.byte]
@[simp] theorem State.hostByte_event (s : State) (ev : Ev) (uk : UnitKind) (uid c : Nat) (l : List Nat) (j : Nat) : (s.event ev uk uid c l).hostByte j = s.hostByte j := by
  simp [State.hostByte]
@[simp] theorem State.poisoned_event (s : State) (ev : Ev) (uk : UnitKind) (uid c : Nat) (l : List Nat) (j : Nat) : (s.event ev uk uid c l).poisoned j = s.poisoned j := by
  simp [State.poisoned]
@[simp] theorem State.inService_event (s : State) (ev : Ev) (uk : UnitKind) (uid c : Nat) (l : List Nat) : (s.event ev uk uid c l).inService = s.inService := by
  simp [State.inService]
@[simp] theorem State.served_event (s : State) (ev : Ev) (uk : UnitKind) (uid c : Nat) (l : List Nat) (j : Path) : (s.event ev uk uid c l).served j = s.served j := by
  simp [State.served]
@[simp] theorem State.tokenPerm_event (s : State) (ev : Ev) (uk : UnitKind) (uid c : Nat) (l : List Nat) (j : Nat) : (s.event ev uk uid c l).tokenPerm j = s.tokenPerm j := by
  simp [State.tokenPerm]
@[simp] theorem State.bytes_event (s : State) (ev : Ev) (uk : UnitKind) (uid c : Nat) (l : List Nat) (j m : Nat) : (s.event ev uk uid c l).bytes j m = s.bytes j m := by
  simp [State.bytes]
@[simp] theorem State.readNat_event (s : State) (ev : Ev) (uk : UnitKind) (uid c : Nat) (l : List Nat) (j m : Nat) : (s.event ev uk uid c l).readNat j m = s.readNat j m := by
  simp [State.readNat]
@[simp] theorem State.outage_pending (s : State) (k : Nat) (uk : UnitKind) (uid d w : Nat) : (s.outage k uk uid d w).pending = s.pending := by
  simp only [State.outage]
  repeat' split
  all_goals simp
@[simp] theorem State.outage_free (s : State) (k : Nat) (uk : UnitKind) (uid d w : Nat) : (s.outage k uk uid d w).free = s.free := by
  simp only [State.outage]
  repeat' split
  all_goals simp
@[simp] theorem State.outage_reply (s : State) (k : Nat) (uk : UnitKind) (uid d w : Nat) : (s.outage k uk uid d w).reply = s.reply := by
  simp only [State.outage]
  repeat' split
  all_goals simp
@[simp] theorem State.outage_time (s : State) (k : Nat) (uk : UnitKind) (uid d w : Nat) : (s.outage k uk uid d w).time = s.time := by
  simp only [State.outage]
  repeat' split
  all_goals simp
@[simp] theorem State.outage_pins (s : State) (k : Nat) (uk : UnitKind) (uid d w : Nat) : (s.outage k uk uid d w).pins = s.pins := by
  simp only [State.outage]
  repeat' split
  all_goals simp
@[simp] theorem State.outage_boot (s : State) (k : Nat) (uk : UnitKind) (uid d w : Nat) : (s.outage k uk uid d w).boot = s.boot := by
  simp only [State.outage]
  repeat' split
  all_goals simp
@[simp] theorem State.outage_cfg (s : State) (k : Nat) (uk : UnitKind) (uid d w : Nat) : (s.outage k uk uid d w).cfg = s.cfg := by
  simp only [State.outage]
  repeat' split
  all_goals simp
@[simp] theorem State.outage_cfgSeq (s : State) (k : Nat) (uk : UnitKind) (uid d w : Nat) : (s.outage k uk uid d w).cfgSeq = s.cfgSeq := by
  simp only [State.outage]
  repeat' split
  all_goals simp
@[simp] theorem State.outage_flash (s : State) (k : Nat) (uk : UnitKind) (uid d w : Nat) : (s.outage k uk uid d w).flash = s.flash := by
  simp only [State.outage]
  repeat' split
  all_goals simp
@[simp] theorem State.outage_sec (s : State) (k : Nat) (uk : UnitKind) (uid d w : Nat) : (s.outage k uk uid d w).sec = s.sec := by
  simp only [State.outage]
  repeat' split
  all_goals simp
@[simp] theorem State.outage_refusedAt (s : State) (k : Nat) (uk : UnitKind) (uid d w : Nat) : (s.outage k uk uid d w).refusedAt = s.refusedAt := by
  simp only [State.outage]
  repeat' split
  all_goals simp
@[simp] theorem State.outage_mem (s : State) (k : Nat) (uk : UnitKind) (uid d w : Nat) : (s.outage k uk uid d w).mem = s.mem := by
  simp only [State.outage]
  repeat' split
  all_goals simp
@[simp] theorem State.outage_hostMem (s : State) (k : Nat) (uk : UnitKind) (uid d w : Nat) : (s.outage k uk uid d w).hostMem = s.hostMem := by
  simp only [State.outage]
  repeat' split
  all_goals simp
@[simp] theorem State.outage_poison (s : State) (k : Nat) (uk : UnitKind) (uid d w : Nat) : (s.outage k uk uid d w).poison = s.poison := by
  simp only [State.outage]
  repeat' split
  all_goals simp
@[simp] theorem State.outage_wordErr (s : State) (k : Nat) (uk : UnitKind) (uid d w : Nat) : (s.outage k uk uid d w).wordErr = s.wordErr := by
  simp only [State.outage]
  repeat' split
  all_goals simp
@[simp] theorem State.outage_feFull (s : State) (k : Nat) (uk : UnitKind) (uid d w : Nat) : (s.outage k uk uid d w).feFull = s.feFull := by
  simp only [State.outage]
  repeat' split
  all_goals simp
@[simp] theorem State.outage_feOwner (s : State) (k : Nat) (uk : UnitKind) (uid d w : Nat) : (s.outage k uk uid d w).feOwner = s.feOwner := by
  simp only [State.outage]
  repeat' split
  all_goals simp
@[simp] theorem State.outage_feOps (s : State) (k : Nat) (uk : UnitKind) (uid d w : Nat) : (s.outage k uk uid d w).feOps = s.feOps := by
  simp only [State.outage]
  repeat' split
  all_goals simp
@[simp] theorem State.outage_lats (s : State) (k : Nat) (uk : UnitKind) (uid d w : Nat) : (s.outage k uk uid d w).lats = s.lats := by
  simp only [State.outage]
  repeat' split
  all_goals simp
@[simp] theorem State.outage_combs (s : State) (k : Nat) (uk : UnitKind) (uid d w : Nat) : (s.outage k uk uid d w).combs = s.combs := by
  simp only [State.outage]
  repeat' split
  all_goals simp
@[simp] theorem State.outage_threads (s : State) (k : Nat) (uk : UnitKind) (uid d w : Nat) : (s.outage k uk uid d w).threads = s.threads := by
  simp only [State.outage]
  repeat' split
  all_goals simp
@[simp] theorem State.outage_ctxs (s : State) (k : Nat) (uk : UnitKind) (uid d w : Nat) : (s.outage k uk uid d w).ctxs = s.ctxs := by
  simp only [State.outage]
  repeat' split
  all_goals simp
@[simp] theorem State.outage_entries (s : State) (k : Nat) (uk : UnitKind) (uid d w : Nat) : (s.outage k uk uid d w).entries = s.entries := by
  simp only [State.outage]
  repeat' split
  all_goals simp
@[simp] theorem State.outage_admitQueue (s : State) (k : Nat) (uk : UnitKind) (uid d w : Nat) : (s.outage k uk uid d w).admitQueue = s.admitQueue := by
  simp only [State.outage]
  repeat' split
  all_goals simp
@[simp] theorem State.outage_issued (s : State) (k : Nat) (uk : UnitKind) (uid d w : Nat) : (s.outage k uk uid d w).issued = s.issued := by
  simp only [State.outage]
  repeat' split
  all_goals simp
@[simp] theorem State.outage_bays (s : State) (k : Nat) (uk : UnitKind) (uid d w : Nat) : (s.outage k uk uid d w).bays = s.bays := by
  simp only [State.outage]
  repeat' split
  all_goals simp
@[simp] theorem State.outage_ports (s : State) (k : Nat) (uk : UnitKind) (uid d w : Nat) : (s.outage k uk uid d w).ports = s.ports := by
  simp only [State.outage]
  repeat' split
  all_goals simp
@[simp] theorem State.outage_hnx (s : State) (k : Nat) (uk : UnitKind) (uid d w : Nat) : (s.outage k uk uid d w).hnx = s.hnx := by
  simp only [State.outage]
  repeat' split
  all_goals simp
@[simp] theorem State.outage_rings (s : State) (k : Nat) (uk : UnitKind) (uid d w : Nat) : (s.outage k uk uid d w).rings = s.rings := by
  simp only [State.outage]
  repeat' split
  all_goals simp
@[simp] theorem State.outage_coefs (s : State) (k : Nat) (uk : UnitKind) (uid d w : Nat) : (s.outage k uk uid d w).coefs = s.coefs := by
  simp only [State.outage]
  repeat' split
  all_goals simp
@[simp] theorem State.outage_clusters (s : State) (k : Nat) (uk : UnitKind) (uid d w : Nat) : (s.outage k uk uid d w).clusters = s.clusters := by
  simp only [State.outage]
  repeat' split
  all_goals simp
@[simp] theorem State.outage_convs (s : State) (k : Nat) (uk : UnitKind) (uid d w : Nat) : (s.outage k uk uid d w).convs = s.convs := by
  simp only [State.outage]
  repeat' split
  all_goals simp
@[simp] theorem State.outage_traces (s : State) (k : Nat) (uk : UnitKind) (uid d w : Nat) : (s.outage k uk uid d w).traces = s.traces := by
  simp only [State.outage]
  repeat' split
  all_goals simp
@[simp] theorem State.outage_power (s : State) (k : Nat) (uk : UnitKind) (uid d w : Nat) : (s.outage k uk uid d w).power = s.power := by
  simp only [State.outage]
  repeat' split
  all_goals simp
@[simp] theorem State.outage_sensors (s : State) (k : Nat) (uk : UnitKind) (uid d w : Nat) : (s.outage k uk uid d w).sensors = s.sensors := by
  simp only [State.outage]
  repeat' split
  all_goals simp
@[simp] theorem State.lat_outage (s : State) (k : Nat) (uk : UnitKind) (uid d w : Nat) (j : Nat) : (s.outage k uk uid d w).lat j = s.lat j := by
  simp [State.lat]
@[simp] theorem State.comb_outage (s : State) (k : Nat) (uk : UnitKind) (uid d w : Nat) (j : Nat) : (s.outage k uk uid d w).comb j = s.comb j := by
  simp [State.comb]
@[simp] theorem State.thread_outage (s : State) (k : Nat) (uk : UnitKind) (uid d w : Nat) (j : Nat) : (s.outage k uk uid d w).thread j = s.thread j := by
  simp [State.thread]
@[simp] theorem State.ctx_outage (s : State) (k : Nat) (uk : UnitKind) (uid d w : Nat) (j : Nat) : (s.outage k uk uid d w).ctx j = s.ctx j := by
  simp [State.ctx]
@[simp] theorem State.entrySt_outage (s : State) (k : Nat) (uk : UnitKind) (uid d w : Nat) (j : Nat) : (s.outage k uk uid d w).entrySt j = s.entrySt j := by
  simp [State.entrySt]
@[simp] theorem State.bay_outage (s : State) (k : Nat) (uk : UnitKind) (uid d w : Nat) (j : Nat) : (s.outage k uk uid d w).bay j = s.bay j := by
  simp [State.bay]
@[simp] theorem State.port_outage (s : State) (k : Nat) (uk : UnitKind) (uid d w : Nat) (j : Nat) : (s.outage k uk uid d w).port j = s.port j := by
  simp [State.port]
@[simp] theorem State.ring_outage (s : State) (k : Nat) (uk : UnitKind) (uid d w : Nat) (j : Nat) : (s.outage k uk uid d w).ring j = s.ring j := by
  simp [State.ring]
@[simp] theorem State.cluster_outage (s : State) (k : Nat) (uk : UnitKind) (uid d w : Nat) (j : Nat) : (s.outage k uk uid d w).cluster j = s.cluster j := by
  simp [State.cluster]
@[simp] theorem State.conv_outage (s : State) (k : Nat) (uk : UnitKind) (uid d w : Nat) (j : Nat) : (s.outage k uk uid d w).conv j = s.conv j := by
  simp [State.conv]
@[simp] theorem State.trace_outage (s : State) (k : Nat) (uk : UnitKind) (uid d w : Nat) (j : Nat) : (s.outage k uk uid d w).trace j = s.trace j := by
  simp [State.trace]
@[simp] theorem State.sensor_outage (s : State) (k : Nat) (uk : UnitKind) (uid d w : Nat) (j : Nat) : (s.outage k uk uid d w).sensor j = s.sensor j := by
  simp [State.sensor]
@[simp] theorem State.byte_outage (s : State) (k : Nat) (uk : UnitKind) (uid d w : Nat) (j : Nat) : (s.outage k uk uid d w).byte j = s.byte j := by
  simp [State.byte]
@[simp] theorem State.hostByte_outage (s : State) (k : Nat) (uk : UnitKind) (uid d w : Nat) (j : Nat) : (s.outage k uk uid d w).hostByte j = s.hostByte j := by
  simp [State.hostByte]
@[simp] theorem State.poisoned_outage (s : State) (k : Nat) (uk : UnitKind) (uid d w : Nat) (j : Nat) : (s.outage k uk uid d w).poisoned j = s.poisoned j := by
  simp [State.poisoned]
@[simp] theorem State.inService_outage (s : State) (k : Nat) (uk : UnitKind) (uid d w : Nat) : (s.outage k uk uid d w).inService = s.inService := by
  simp [State.inService]
@[simp] theorem State.served_outage (s : State) (k : Nat) (uk : UnitKind) (uid d w : Nat) (j : Path) : (s.outage k uk uid d w).served j = s.served j := by
  simp [State.served]
@[simp] theorem State.tokenPerm_outage (s : State) (k : Nat) (uk : UnitKind) (uid d w : Nat) (j : Nat) : (s.outage k uk uid d w).tokenPerm j = s.tokenPerm j := by
  simp [State.tokenPerm]
@[simp] theorem State.bytes_outage (s : State) (k : Nat) (uk : UnitKind) (uid d w : Nat) (j m : Nat) : (s.outage k uk uid d w).bytes j m = s.bytes j m := by
  simp [State.bytes]
@[simp] theorem State.readNat_outage (s : State) (k : Nat) (uk : UnitKind) (uid d w : Nat) (j m : Nat) : (s.outage k uk uid d w).readNat j m = s.readNat j m := by
  simp [State.readNat]
@[simp] theorem State.sensorChange_pending (s : State) (i v : Nat) : (s.sensorChange i v).pending = s.pending := by
  simp only [State.sensorChange]
  repeat' split
  all_goals simp
@[simp] theorem State.sensorChange_free (s : State) (i v : Nat) : (s.sensorChange i v).free = s.free := by
  simp only [State.sensorChange]
  repeat' split
  all_goals simp
@[simp] theorem State.sensorChange_reply (s : State) (i v : Nat) : (s.sensorChange i v).reply = s.reply := by
  simp only [State.sensorChange]
  repeat' split
  all_goals simp
@[simp] theorem State.sensorChange_time (s : State) (i v : Nat) : (s.sensorChange i v).time = s.time := by
  simp only [State.sensorChange]
  repeat' split
  all_goals simp
@[simp] theorem State.sensorChange_pins (s : State) (i v : Nat) : (s.sensorChange i v).pins = s.pins := by
  simp only [State.sensorChange]
  repeat' split
  all_goals simp
@[simp] theorem State.sensorChange_boot (s : State) (i v : Nat) : (s.sensorChange i v).boot = s.boot := by
  simp only [State.sensorChange]
  repeat' split
  all_goals simp
@[simp] theorem State.sensorChange_cfg (s : State) (i v : Nat) : (s.sensorChange i v).cfg = s.cfg := by
  simp only [State.sensorChange]
  repeat' split
  all_goals simp
@[simp] theorem State.sensorChange_cfgSeq (s : State) (i v : Nat) : (s.sensorChange i v).cfgSeq = s.cfgSeq := by
  simp only [State.sensorChange]
  repeat' split
  all_goals simp
@[simp] theorem State.sensorChange_flash (s : State) (i v : Nat) : (s.sensorChange i v).flash = s.flash := by
  simp only [State.sensorChange]
  repeat' split
  all_goals simp
@[simp] theorem State.sensorChange_jnl (s : State) (i v : Nat) : (s.sensorChange i v).jnl = s.jnl := by
  simp only [State.sensorChange]
  repeat' split
  all_goals simp
@[simp] theorem State.sensorChange_sec (s : State) (i v : Nat) : (s.sensorChange i v).sec = s.sec := by
  simp only [State.sensorChange]
  repeat' split
  all_goals simp
@[simp] theorem State.sensorChange_log (s : State) (i v : Nat) : (s.sensorChange i v).log = s.log := by
  simp only [State.sensorChange]
  repeat' split
  all_goals simp
@[simp] theorem State.sensorChange_evHead (s : State) (i v : Nat) : (s.sensorChange i v).evHead = s.evHead := by
  simp only [State.sensorChange]
  repeat' split
  all_goals simp
@[simp] theorem State.sensorChange_flds (s : State) (i v : Nat) : (s.sensorChange i v).flds = s.flds := by
  simp only [State.sensorChange]
  repeat' split
  all_goals simp
@[simp] theorem State.sensorChange_refusedAt (s : State) (i v : Nat) : (s.sensorChange i v).refusedAt = s.refusedAt := by
  simp only [State.sensorChange]
  repeat' split
  all_goals simp
@[simp] theorem State.sensorChange_mem (s : State) (i v : Nat) : (s.sensorChange i v).mem = s.mem := by
  simp only [State.sensorChange]
  repeat' split
  all_goals simp
@[simp] theorem State.sensorChange_hostMem (s : State) (i v : Nat) : (s.sensorChange i v).hostMem = s.hostMem := by
  simp only [State.sensorChange]
  repeat' split
  all_goals simp
@[simp] theorem State.sensorChange_poison (s : State) (i v : Nat) : (s.sensorChange i v).poison = s.poison := by
  simp only [State.sensorChange]
  repeat' split
  all_goals simp
@[simp] theorem State.sensorChange_wordErr (s : State) (i v : Nat) : (s.sensorChange i v).wordErr = s.wordErr := by
  simp only [State.sensorChange]
  repeat' split
  all_goals simp
@[simp] theorem State.sensorChange_feFull (s : State) (i v : Nat) : (s.sensorChange i v).feFull = s.feFull := by
  simp only [State.sensorChange]
  repeat' split
  all_goals simp
@[simp] theorem State.sensorChange_feOwner (s : State) (i v : Nat) : (s.sensorChange i v).feOwner = s.feOwner := by
  simp only [State.sensorChange]
  repeat' split
  all_goals simp
@[simp] theorem State.sensorChange_feOps (s : State) (i v : Nat) : (s.sensorChange i v).feOps = s.feOps := by
  simp only [State.sensorChange]
  repeat' split
  all_goals simp
@[simp] theorem State.sensorChange_lats (s : State) (i v : Nat) : (s.sensorChange i v).lats = s.lats := by
  simp only [State.sensorChange]
  repeat' split
  all_goals simp
@[simp] theorem State.sensorChange_combs (s : State) (i v : Nat) : (s.sensorChange i v).combs = s.combs := by
  simp only [State.sensorChange]
  repeat' split
  all_goals simp
@[simp] theorem State.sensorChange_threads (s : State) (i v : Nat) : (s.sensorChange i v).threads = s.threads := by
  simp only [State.sensorChange]
  repeat' split
  all_goals simp
@[simp] theorem State.sensorChange_ctxs (s : State) (i v : Nat) : (s.sensorChange i v).ctxs = s.ctxs := by
  simp only [State.sensorChange]
  repeat' split
  all_goals simp
@[simp] theorem State.sensorChange_entries (s : State) (i v : Nat) : (s.sensorChange i v).entries = s.entries := by
  simp only [State.sensorChange]
  repeat' split
  all_goals simp
@[simp] theorem State.sensorChange_admitQueue (s : State) (i v : Nat) : (s.sensorChange i v).admitQueue = s.admitQueue := by
  simp only [State.sensorChange]
  repeat' split
  all_goals simp
@[simp] theorem State.sensorChange_issued (s : State) (i v : Nat) : (s.sensorChange i v).issued = s.issued := by
  simp only [State.sensorChange]
  repeat' split
  all_goals simp
@[simp] theorem State.sensorChange_bays (s : State) (i v : Nat) : (s.sensorChange i v).bays = s.bays := by
  simp only [State.sensorChange]
  repeat' split
  all_goals simp
@[simp] theorem State.sensorChange_cxl (s : State) (i v : Nat) : (s.sensorChange i v).cxl = s.cxl := by
  simp only [State.sensorChange]
  repeat' split
  all_goals simp
@[simp] theorem State.sensorChange_ports (s : State) (i v : Nat) : (s.sensorChange i v).ports = s.ports := by
  simp only [State.sensorChange]
  repeat' split
  all_goals simp
@[simp] theorem State.sensorChange_hnx (s : State) (i v : Nat) : (s.sensorChange i v).hnx = s.hnx := by
  simp only [State.sensorChange]
  repeat' split
  all_goals simp
@[simp] theorem State.sensorChange_rings (s : State) (i v : Nat) : (s.sensorChange i v).rings = s.rings := by
  simp only [State.sensorChange]
  repeat' split
  all_goals simp
@[simp] theorem State.sensorChange_coefs (s : State) (i v : Nat) : (s.sensorChange i v).coefs = s.coefs := by
  simp only [State.sensorChange]
  repeat' split
  all_goals simp
@[simp] theorem State.sensorChange_clusters (s : State) (i v : Nat) : (s.sensorChange i v).clusters = s.clusters := by
  simp only [State.sensorChange]
  repeat' split
  all_goals simp
@[simp] theorem State.sensorChange_convs (s : State) (i v : Nat) : (s.sensorChange i v).convs = s.convs := by
  simp only [State.sensorChange]
  repeat' split
  all_goals simp
@[simp] theorem State.sensorChange_traces (s : State) (i v : Nat) : (s.sensorChange i v).traces = s.traces := by
  simp only [State.sensorChange]
  repeat' split
  all_goals simp
@[simp] theorem State.sensorChange_power (s : State) (i v : Nat) : (s.sensorChange i v).power = s.power := by
  simp only [State.sensorChange]
  repeat' split
  all_goals simp
@[simp] theorem State.sensorChange_sensors (s : State) (i v : Nat) : (s.sensorChange i v).sensors = s.sensors := by
  simp only [State.sensorChange]
  repeat' split
  all_goals simp
@[simp] theorem State.lat_sensorChange (s : State) (i v : Nat) (j : Nat) : (s.sensorChange i v).lat j = s.lat j := by
  simp [State.lat]
@[simp] theorem State.comb_sensorChange (s : State) (i v : Nat) (j : Nat) : (s.sensorChange i v).comb j = s.comb j := by
  simp [State.comb]
@[simp] theorem State.thread_sensorChange (s : State) (i v : Nat) (j : Nat) : (s.sensorChange i v).thread j = s.thread j := by
  simp [State.thread]
@[simp] theorem State.ctx_sensorChange (s : State) (i v : Nat) (j : Nat) : (s.sensorChange i v).ctx j = s.ctx j := by
  simp [State.ctx]
@[simp] theorem State.entrySt_sensorChange (s : State) (i v : Nat) (j : Nat) : (s.sensorChange i v).entrySt j = s.entrySt j := by
  simp [State.entrySt]
@[simp] theorem State.bay_sensorChange (s : State) (i v : Nat) (j : Nat) : (s.sensorChange i v).bay j = s.bay j := by
  simp [State.bay]
@[simp] theorem State.port_sensorChange (s : State) (i v : Nat) (j : Nat) : (s.sensorChange i v).port j = s.port j := by
  simp [State.port]
@[simp] theorem State.ring_sensorChange (s : State) (i v : Nat) (j : Nat) : (s.sensorChange i v).ring j = s.ring j := by
  simp [State.ring]
@[simp] theorem State.cluster_sensorChange (s : State) (i v : Nat) (j : Nat) : (s.sensorChange i v).cluster j = s.cluster j := by
  simp [State.cluster]
@[simp] theorem State.conv_sensorChange (s : State) (i v : Nat) (j : Nat) : (s.sensorChange i v).conv j = s.conv j := by
  simp [State.conv]
@[simp] theorem State.trace_sensorChange (s : State) (i v : Nat) (j : Nat) : (s.sensorChange i v).trace j = s.trace j := by
  simp [State.trace]
@[simp] theorem State.sensor_sensorChange (s : State) (i v : Nat) (j : Nat) : (s.sensorChange i v).sensor j = s.sensor j := by
  simp [State.sensor]

@[simp] theorem State.byte_sensorChange (s : State) (i v : Nat) (j : Nat) : (s.sensorChange i v).byte j = s.byte j := by
  simp [State.byte]
@[simp] theorem State.hostByte_sensorChange (s : State) (i v : Nat) (j : Nat) : (s.sensorChange i v).hostByte j = s.hostByte j := by
  simp [State.hostByte]
@[simp] theorem State.poisoned_sensorChange (s : State) (i v : Nat) (j : Nat) : (s.sensorChange i v).poisoned j = s.poisoned j := by
  simp [State.poisoned]
@[simp] theorem State.inService_sensorChange (s : State) (i v : Nat) : (s.sensorChange i v).inService = s.inService := by
  simp [State.inService]
@[simp] theorem State.served_sensorChange (s : State) (i v : Nat) (j : Path) : (s.sensorChange i v).served j = s.served j := by
  simp [State.served]
@[simp] theorem State.tokenPerm_sensorChange (s : State) (i v : Nat) (j : Nat) : (s.sensorChange i v).tokenPerm j = s.tokenPerm j := by
  simp [State.tokenPerm]
@[simp] theorem State.bytes_sensorChange (s : State) (i v : Nat) (j m : Nat) : (s.sensorChange i v).bytes j m = s.bytes j m := by
  simp [State.bytes]
@[simp] theorem State.readNat_sensorChange (s : State) (i v : Nat) (j m : Nat) : (s.sensorChange i v).readNat j m = s.readNat j m := by
  simp [State.readNat]
@[simp] theorem State.refuse_pending (s : State) (p : Path) (off v : Nat) : (s.refuse p off v).pending = s.pending := by
  simp only [State.refuse]
  repeat' split
  all_goals simp
@[simp] theorem State.refuse_free (s : State) (p : Path) (off v : Nat) : (s.refuse p off v).free = s.free := by
  simp only [State.refuse]
  repeat' split
  all_goals simp
@[simp] theorem State.refuse_reply (s : State) (p : Path) (off v : Nat) : (s.refuse p off v).reply = s.reply := by
  simp only [State.refuse]
  repeat' split
  all_goals simp
@[simp] theorem State.refuse_time (s : State) (p : Path) (off v : Nat) : (s.refuse p off v).time = s.time := by
  simp only [State.refuse]
  repeat' split
  all_goals simp
@[simp] theorem State.refuse_pins (s : State) (p : Path) (off v : Nat) : (s.refuse p off v).pins = s.pins := by
  simp only [State.refuse]
  repeat' split
  all_goals simp
@[simp] theorem State.refuse_boot (s : State) (p : Path) (off v : Nat) : (s.refuse p off v).boot = s.boot := by
  simp only [State.refuse]
  repeat' split
  all_goals simp
@[simp] theorem State.refuse_cfg (s : State) (p : Path) (off v : Nat) : (s.refuse p off v).cfg = s.cfg := by
  simp only [State.refuse]
  repeat' split
  all_goals simp
@[simp] theorem State.refuse_cfgSeq (s : State) (p : Path) (off v : Nat) : (s.refuse p off v).cfgSeq = s.cfgSeq := by
  simp only [State.refuse]
  repeat' split
  all_goals simp
@[simp] theorem State.refuse_flash (s : State) (p : Path) (off v : Nat) : (s.refuse p off v).flash = s.flash := by
  simp only [State.refuse]
  repeat' split
  all_goals simp
@[simp] theorem State.refuse_sec (s : State) (p : Path) (off v : Nat) : (s.refuse p off v).sec = s.sec := by
  simp only [State.refuse]
  repeat' split
  all_goals simp
@[simp] theorem State.refuse_mem (s : State) (p : Path) (off v : Nat) : (s.refuse p off v).mem = s.mem := by
  simp only [State.refuse]
  repeat' split
  all_goals simp
@[simp] theorem State.refuse_hostMem (s : State) (p : Path) (off v : Nat) : (s.refuse p off v).hostMem = s.hostMem := by
  simp only [State.refuse]
  repeat' split
  all_goals simp
@[simp] theorem State.refuse_poison (s : State) (p : Path) (off v : Nat) : (s.refuse p off v).poison = s.poison := by
  simp only [State.refuse]
  repeat' split
  all_goals simp
@[simp] theorem State.refuse_wordErr (s : State) (p : Path) (off v : Nat) : (s.refuse p off v).wordErr = s.wordErr := by
  simp only [State.refuse]
  repeat' split
  all_goals simp
@[simp] theorem State.refuse_feFull (s : State) (p : Path) (off v : Nat) : (s.refuse p off v).feFull = s.feFull := by
  simp only [State.refuse]
  repeat' split
  all_goals simp
@[simp] theorem State.refuse_feOwner (s : State) (p : Path) (off v : Nat) : (s.refuse p off v).feOwner = s.feOwner := by
  simp only [State.refuse]
  repeat' split
  all_goals simp
@[simp] theorem State.refuse_feOps (s : State) (p : Path) (off v : Nat) : (s.refuse p off v).feOps = s.feOps := by
  simp only [State.refuse]
  repeat' split
  all_goals simp
@[simp] theorem State.refuse_lats (s : State) (p : Path) (off v : Nat) : (s.refuse p off v).lats = s.lats := by
  simp only [State.refuse]
  repeat' split
  all_goals simp
@[simp] theorem State.refuse_combs (s : State) (p : Path) (off v : Nat) : (s.refuse p off v).combs = s.combs := by
  simp only [State.refuse]
  repeat' split
  all_goals simp
@[simp] theorem State.refuse_threads (s : State) (p : Path) (off v : Nat) : (s.refuse p off v).threads = s.threads := by
  simp only [State.refuse]
  repeat' split
  all_goals simp
@[simp] theorem State.refuse_ctxs (s : State) (p : Path) (off v : Nat) : (s.refuse p off v).ctxs = s.ctxs := by
  simp only [State.refuse]
  repeat' split
  all_goals simp
@[simp] theorem State.refuse_entries (s : State) (p : Path) (off v : Nat) : (s.refuse p off v).entries = s.entries := by
  simp only [State.refuse]
  repeat' split
  all_goals simp
@[simp] theorem State.refuse_admitQueue (s : State) (p : Path) (off v : Nat) : (s.refuse p off v).admitQueue = s.admitQueue := by
  simp only [State.refuse]
  repeat' split
  all_goals simp
@[simp] theorem State.refuse_issued (s : State) (p : Path) (off v : Nat) : (s.refuse p off v).issued = s.issued := by
  simp only [State.refuse]
  repeat' split
  all_goals simp
@[simp] theorem State.refuse_bays (s : State) (p : Path) (off v : Nat) : (s.refuse p off v).bays = s.bays := by
  simp only [State.refuse]
  repeat' split
  all_goals simp
@[simp] theorem State.refuse_ports (s : State) (p : Path) (off v : Nat) : (s.refuse p off v).ports = s.ports := by
  simp only [State.refuse]
  repeat' split
  all_goals simp
@[simp] theorem State.refuse_hnx (s : State) (p : Path) (off v : Nat) : (s.refuse p off v).hnx = s.hnx := by
  simp only [State.refuse]
  repeat' split
  all_goals simp
@[simp] theorem State.refuse_rings (s : State) (p : Path) (off v : Nat) : (s.refuse p off v).rings = s.rings := by
  simp only [State.refuse]
  repeat' split
  all_goals simp
@[simp] theorem State.refuse_coefs (s : State) (p : Path) (off v : Nat) : (s.refuse p off v).coefs = s.coefs := by
  simp only [State.refuse]
  repeat' split
  all_goals simp
@[simp] theorem State.refuse_clusters (s : State) (p : Path) (off v : Nat) : (s.refuse p off v).clusters = s.clusters := by
  simp only [State.refuse]
  repeat' split
  all_goals simp
@[simp] theorem State.refuse_convs (s : State) (p : Path) (off v : Nat) : (s.refuse p off v).convs = s.convs := by
  simp only [State.refuse]
  repeat' split
  all_goals simp
@[simp] theorem State.refuse_traces (s : State) (p : Path) (off v : Nat) : (s.refuse p off v).traces = s.traces := by
  simp only [State.refuse]
  repeat' split
  all_goals simp
@[simp] theorem State.refuse_power (s : State) (p : Path) (off v : Nat) : (s.refuse p off v).power = s.power := by
  simp only [State.refuse]
  repeat' split
  all_goals simp
@[simp] theorem State.refuse_sensors (s : State) (p : Path) (off v : Nat) : (s.refuse p off v).sensors = s.sensors := by
  simp only [State.refuse]
  repeat' split
  all_goals simp
@[simp] theorem State.lat_refuse (s : State) (p : Path) (off v : Nat) (j : Nat) : (s.refuse p off v).lat j = s.lat j := by
  simp [State.lat]
@[simp] theorem State.comb_refuse (s : State) (p : Path) (off v : Nat) (j : Nat) : (s.refuse p off v).comb j = s.comb j := by
  simp [State.comb]
@[simp] theorem State.thread_refuse (s : State) (p : Path) (off v : Nat) (j : Nat) : (s.refuse p off v).thread j = s.thread j := by
  simp [State.thread]
@[simp] theorem State.ctx_refuse (s : State) (p : Path) (off v : Nat) (j : Nat) : (s.refuse p off v).ctx j = s.ctx j := by
  simp [State.ctx]
@[simp] theorem State.entrySt_refuse (s : State) (p : Path) (off v : Nat) (j : Nat) : (s.refuse p off v).entrySt j = s.entrySt j := by
  simp [State.entrySt]
@[simp] theorem State.bay_refuse (s : State) (p : Path) (off v : Nat) (j : Nat) : (s.refuse p off v).bay j = s.bay j := by
  simp [State.bay]
@[simp] theorem State.port_refuse (s : State) (p : Path) (off v : Nat) (j : Nat) : (s.refuse p off v).port j = s.port j := by
  simp [State.port]
@[simp] theorem State.ring_refuse (s : State) (p : Path) (off v : Nat) (j : Nat) : (s.refuse p off v).ring j = s.ring j := by
  simp [State.ring]
@[simp] theorem State.cluster_refuse (s : State) (p : Path) (off v : Nat) (j : Nat) : (s.refuse p off v).cluster j = s.cluster j := by
  simp [State.cluster]
@[simp] theorem State.conv_refuse (s : State) (p : Path) (off v : Nat) (j : Nat) : (s.refuse p off v).conv j = s.conv j := by
  simp [State.conv]
@[simp] theorem State.trace_refuse (s : State) (p : Path) (off v : Nat) (j : Nat) : (s.refuse p off v).trace j = s.trace j := by
  simp [State.trace]
@[simp] theorem State.sensor_refuse (s : State) (p : Path) (off v : Nat) (j : Nat) : (s.refuse p off v).sensor j = s.sensor j := by
  simp [State.sensor]
@[simp] theorem State.byte_refuse (s : State) (p : Path) (off v : Nat) (j : Nat) : (s.refuse p off v).byte j = s.byte j := by
  simp [State.byte]
@[simp] theorem State.hostByte_refuse (s : State) (p : Path) (off v : Nat) (j : Nat) : (s.refuse p off v).hostByte j = s.hostByte j := by
  simp [State.hostByte]
@[simp] theorem State.poisoned_refuse (s : State) (p : Path) (off v : Nat) (j : Nat) : (s.refuse p off v).poisoned j = s.poisoned j := by
  simp [State.poisoned]
@[simp] theorem State.inService_refuse (s : State) (p : Path) (off v : Nat) : (s.refuse p off v).inService = s.inService := by
  simp [State.inService]
@[simp] theorem State.served_refuse (s : State) (p : Path) (off v : Nat) (j : Path) : (s.refuse p off v).served j = s.served j := by
  simp [State.served]
@[simp] theorem State.tokenPerm_refuse (s : State) (p : Path) (off v : Nat) (j : Nat) : (s.refuse p off v).tokenPerm j = s.tokenPerm j := by
  simp [State.tokenPerm]
@[simp] theorem State.bytes_refuse (s : State) (p : Path) (off v : Nat) (j m : Nat) : (s.refuse p off v).bytes j m = s.bytes j m := by
  simp [State.bytes]
@[simp] theorem State.readNat_refuse (s : State) (p : Path) (off v : Nat) (j m : Nat) : (s.refuse p off v).readNat j m = s.readNat j m := by
  simp [State.readNat]

end Sys2Proof.Machine
end

