-- ==== Sys2Proof/Laws/Fields.lean ====
section
/-! SUPPORT. Register fields and event counts across the shared operations: which fields an event, a status change, an
alert, a journal record or a refused write may touch. -/

namespace Sys2Proof.Machine

theorem State.fldAt_congr {s t : State} (h : t.flds = s.flds) (f : Fld) (i p : Nat) : t.fldAt f i p = s.fldAt f i p := by
  simp only [State.fldAt, h]

theorem State.fld_congr {s t : State} (h : t.flds = s.flds) (f : Fld) (i : Nat) : t.fld f i = s.fld f i :=
  State.fldAt_congr h f i 0

theorem State.lat_congr {s t : State} (h : t.lats = s.lats) (l : Nat) : t.lat l = s.lat l := by simp only [State.lat, h]
theorem State.bay_congr {s t : State} (h : t.bays = s.bays) (b : Nat) : t.bay b = s.bay b := by simp only [State.bay, h]
theorem State.ctx_congr {s t : State} (h : t.ctxs = s.ctxs) (c : Nat) : t.ctx c = s.ctx c := by simp only [State.ctx, h]
theorem State.thread_congr {s t : State} (h : t.threads = s.threads) (k : Nat) : t.thread k = s.thread k := by
  simp only [State.thread, h]
theorem State.comb_congr {s t : State} (h : t.combs = s.combs) (k : Nat) : t.comb k = s.comb k := by
  simp only [State.comb, h]
theorem State.port_congr {s t : State} (h : t.ports = s.ports) (k : Nat) : t.port k = s.port k := by
  simp only [State.port, h]
theorem State.ring_congr {s t : State} (h : t.rings = s.rings) (k : Nat) : t.ring k = s.ring k := by
  simp only [State.ring, h]
theorem State.cluster_congr {s t : State} (h : t.clusters = s.clusters) (k : Nat) : t.cluster k = s.cluster k := by
  simp only [State.cluster, h]
theorem State.byte_congr {s t : State} (h : t.mem = s.mem) (a : Nat) : t.byte a = s.byte a := by simp only [State.byte, h]

theorem State.flag_congr {s t : State} (h : t.flds = s.flds) (f : Fld) (i : Nat) : t.flag f i = s.flag f i := by
  simp only [State.flag, State.fld_congr h]

theorem State.fld_signalVector (s : State) (v : Nat) (g : Fld) (j : Nat) : (s.signalVector v).fld g j = s.fld g j :=
  State.fld_congr (by simp) g j

theorem State.fld_cxlRecord (s : State) (k : Nat) (r : List Byte) (g : Fld) (j : Nat) :
    (s.cxlRecord k r).fld g j = s.fld g j := State.fld_congr (by simp) g j

theorem State.flag_setFld_same (s : State) (f : Fld) (i v : Nat) (h : f.width ≤ 64) :
    (s.setFld f i v).flag f i = (v % 2 ^ f.width != 0) := by rw [State.flag, State.fld_setFld_same _ _ _ _ h]

theorem State.flag_setFld_ne (s : State) (f g : Fld) (i j v : Nat) (h : g.key j 0 ≠ f.key i 0) :
    (s.setFld f i v).flag g j = s.flag g j := by rw [State.flag, State.fld_setFld_ne _ _ _ _ _ _ h, State.flag]

theorem State.bump_frame (s : State) (f : Fld) (i n : Nat) : ∃ F, s.bump f i n = { s with flds := F } := ⟨_, rfl⟩
theorem State.raise_frame (s : State) (f : Fld) (i v : Nat) : ∃ F, s.raise f i v = { s with flds := F } := ⟨_, rfl⟩

theorem Fld.key_ne {f g : Fld} {i j : Nat} (h : g.place ≠ f.place) (hi : i < 4096 := by omega) (hj : j < 4096 := by omega) :
    g.key j 0 ≠ f.key i 0 := by
  unfold Fld.key Fld.place at *
  split <;> split <;> omega

/-- Keys of the fields that an event, an alert, a status change or a dropped record may change. -/
def eventKeys : List Nat :=
  [Fld.evtErrCntWarnPlus, .jnlHoldDropped, .evtAlertError, .evtAlertJnlDrop, .devStatusChgAlert].map fun f => f.key 0 0

theorem Fld.key_event {g : Fld} {j : Nat}
    (h : g.place ∉ [Fld.evtErrCntWarnPlus, .jnlHoldDropped, .evtAlertError, .evtAlertJnlDrop, .devStatusChgAlert].map Fld.place)
    (hj : j < 4096 := by omega) : g.key j 0 ∉ eventKeys := by
  simp only [eventKeys, List.map, List.mem_cons, List.not_mem_nil, or_false, not_or] at *
  exact ⟨Fld.key_ne h.1, Fld.key_ne h.2.1, Fld.key_ne h.2.2.1, Fld.key_ne h.2.2.2.1, Fld.key_ne h.2.2.2.2⟩

theorem State.fld_markChg {s : State} {k : Nat} {g : Fld} {j : Nat} (h : g.key j 0 ≠ (chgFld k).key 0 0) :
    (s.markChg k).fld g j = s.fld g j := by
  unfold State.markChg
  dsimp only
  split
  · rw [State.fld_signalVector, State.fld_setFld_ne _ _ _ _ _ _ h]
  · rw [State.fld_setFld_ne _ _ _ _ _ _ h]

theorem State.fld_markChg_same (s : State) (k : Nat) : (s.markChg k).fld (chgFld k) = 1 := by
  have hw : (chgFld k).width = 1 := by unfold chgFld; split <;> rfl
  have : ((s.setFld (chgFld k) 0 1).fld (chgFld k)) = 1 := by
    rw [State.fld_setFld_same _ _ _ _ (by rw [hw]; decide), hw]; rfl
  unfold State.markChg
  dsimp only
  split
  · rw [State.fld_signalVector, this]
  · exact this

theorem State.fld_alertEdge {s0 s : State} {g : Fld} {j : Nat} (h : g.key j 0 ≠ Fld.devStatusChgAlert.key 0 0) :
    (State.alertEdge s0 s).fld g j = s.fld g j := by
  unfold State.alertEdge
  split
  · exact State.fld_markChg h
  · rfl

theorem State.fld_setAlert {s : State} {k : Nat} {g : Fld} {j : Nat} (h : g.key j 0 ≠ (alertFld k).key 0 0)
    (h' : g.key j 0 ≠ Fld.devStatusChgAlert.key 0 0) : (s.setAlert k).fld g j = s.fld g j := by
  rw [State.setAlert, State.fld_alertEdge h', State.fld_setFld_ne _ _ _ _ _ _ h]

theorem State.fld_journal {s : State} {k : JKind} {p : List Nat} {g : Fld} {j : Nat} (h : g.key j 0 ∉ eventKeys) :
    (s.journal k p).fld g j = s.fld g j := by
  simp only [eventKeys, List.map, List.mem_cons, not_or] at h
  unfold State.journal
  dsimp only
  split
  · rfl
  · split
    · rw [State.fld_setAlert (k := 4) h.2.2.2.1 h.2.2.2.2.1, State.fld_bump_ne _ _ _ _ _ _ h.2.1]
    · rfl

theorem State.fld_spread {s : State} {e : Event} {g : Fld} {j : Nat} (h : g.key j 0 ∉ eventKeys) :
    (s.spread e).fld g j = s.fld g j := by
  have h' := h
  simp only [eventKeys, List.map, List.mem_cons, not_or] at h
  unfold State.spread
  dsimp only
  have h1 : (s.bump .evtErrCntWarnPlus).fld g j = s.fld g j := State.fld_bump_ne _ _ _ _ _ _ h.1
  generalize s.bump .evtErrCntWarnPlus = s1 at h1
  have h2 : (if e.severity = 5 && !s1.jnl.windowOpen then s1 else s1.journal .event e.words).fld g j = s.fld g j := by
    split
    · exact h1
    · rw [State.fld_journal h', h1]
  generalize (if e.severity = 5 && !s1.jnl.windowOpen then s1 else s1.journal .event e.words) = s2 at h2
  have h3 : (s2.cxlRecord (cxlLogOf e.severity) e.bytes).fld g j = s.fld g j := by rw [State.fld_cxlRecord, h2]
  generalize s2.cxlRecord (cxlLogOf e.severity) e.bytes = s3 at h3
  have h4 : (if s3.boot.mgmtDown then s3 else { s3 with mgmt := { s3.mgmt with events := s3.mgmt.events ++ [e] } }).fld g j =
      s.fld g j := by
    split
    · exact h3
    · exact h3
  generalize (if s3.boot.mgmtDown then s3 else { s3 with mgmt := { s3.mgmt with events := s3.mgmt.events ++ [e] } }) = s4 at h4
  split
  · rw [State.fld_setAlert (k := 0) h.2.2.1 h.2.2.2.2.1, h4]
  · exact h4

theorem State.fld_event {s : State} {ev : Ev} {uk : UnitKind} {u c : Nat} {ps : List Nat} {g : Fld} {j : Nat}
    (h : g.key j 0 ∉ eventKeys) : (s.event ev uk u c ps).fld g j = s.fld g j := by
  unfold State.event
  dsimp only
  split
  · rw [State.fld_spread h]; rfl
  · rfl

theorem State.flag_event {s : State} {ev : Ev} {uk : UnitKind} {u c : Nat} {ps : List Nat} {g : Fld} {j : Nat}
    (h : g.key j 0 ∉ eventKeys) : (s.event ev uk u c ps).flag g j = s.flag g j := by
  rw [State.flag, State.fld_event h, State.flag]

@[simp] theorem State.event_evHead (s : State) (ev : Ev) (uk : UnitKind) (u c : Nat) (ps : List Nat) :
    (s.event ev uk u c ps).evHead = s.evHead + 1 := by
  unfold State.event
  dsimp only
  split <;> simp

/-- The newest entry of the log after an event. -/
theorem State.event_log (s : State) (ev : Ev) (uk : UnitKind) (u c : Nat) (ps : List Nat) :
    (s.event ev uk u c ps).log = (Event.mk s.time s.evHead ev.code ev.severity (Config.eventPlane ev.code).val uk.num u c
      ps :: s.log).take 8192 := by
  unfold State.event
  dsimp only
  split <;> simp

theorem State.event_newest (s : State) (ev : Ev) (uk : UnitKind) (u c : Nat) (ps : List Nat) :
    ((s.event ev uk u c ps).log.map (·.code)).head? = some ev.code := by rw [State.event_log]; rfl

/-- An event below warning severity is only logged (R420). -/
theorem State.event_low (s : State) (ev : Ev) (uk : UnitKind) (u c : Nat) (ps : List Nat) (h : ev.severity < 2) :
    s.event ev uk u c ps = { s with log := (s.event ev uk u c ps).log, evHead := s.evHead + 1 } := by
  rw [State.event_log]
  unfold State.event
  dsimp only
  rw [if_neg (by omega)]

/-- A journal record goes to the batch or to the hold buffer (R356). -/
theorem State.journal_jnl (s : State) (k : JKind) (p : List Nat) :
    ∃ u h n, (s.journal k p).jnl = { s.jnl with unwritten := u, hold := h, next := n } := by
  unfold State.journal
  dsimp only
  split
  · exact ⟨_, _, _, rfl⟩
  · split
    · exact ⟨s.jnl.unwritten, s.jnl.hold, s.jnl.next, by simp⟩
    · exact ⟨_, _, _, rfl⟩

theorem State.event_jnl (s : State) (ev : Ev) (uk : UnitKind) (u c : Nat) (ps : List Nat) :
    ∃ x h n, (s.event ev uk u c ps).jnl = { s.jnl with unwritten := x, hold := h, next := n } := by
  unfold State.event
  dsimp only
  split
  · unfold State.spread
    dsimp only
    rw [show ∀ (c : Prop) [Decidable c] (x : State), (if c then x.setAlert 0 else x).jnl = x.jnl from
      fun c _ x => by split <;> simp]
    rw [show ∀ (c : Prop) [Decidable c] (x : State) (m : Mgmt), (if c then x else { x with mgmt := m }).jnl = x.jnl from
      fun c _ x m => by split <;> rfl]
    rw [State.cxlRecord_jnl]
    split
    · exact ⟨s.jnl.unwritten, s.jnl.hold, s.jnl.next, by simp⟩
    · obtain ⟨x, h, n, e⟩ := State.journal_jnl (State.bump { s with log := _, evHead := _ } .evtErrCntWarnPlus) .event _
      exact ⟨x, h, n, e.trans (by simp)⟩
  · exact ⟨_, _, _, rfl⟩

/-- A refused write counts, and notes its offset and path (R437). -/
theorem State.fld_refuse (s : State) (p : Path) (off v : Nat) (g : Fld) (j : Nat) :
    (s.refuse p off v).fld g j =
      (((s.bump .devRefusedCount).setFld .devRefusedOffset 0 (off / 8 * 8)).setFld .devRefusedPath 0 (pathNum p)).fld g j := by
  unfold State.refuse
  dsimp only
  split
  · exact State.fld_congr (by rw [State.event_low _ _ _ _ _ _ (by decide)]) _ _
  · rfl

theorem State.refuse_count (s : State) (p : Path) (off v : Nat) :
    (s.refuse p off v).fld .devRefusedCount = min (s.fld .devRefusedCount + 1) (2 ^ Fld.devRefusedCount.width - 1) := by
  rw [State.fld_refuse, State.fld_setFld_ne _ _ _ _ _ _ (by decide), State.fld_setFld_ne _ _ _ _ _ _ (by decide),
    State.fld_bump_same _ _ _ _ (by decide)]

theorem State.refuse_path (s : State) (p : Path) (off v : Nat) :
    (s.refuse p off v).fld .devRefusedPath = pathNum p := by
  rw [State.fld_refuse, State.fld_setFld_same _ _ _ _ (by decide)]
  cases p <;> rfl

/-- A refused write changes the refusal fields, its log entry and the note of when it was logged, no more (R437). -/
theorem State.refuse_frame (s : State) (p : Path) (off v : Nat) : ∃ flds at_ log evHead,
    s.refuse p off v = { s with flds := flds, refusedAt := at_, log := log, evHead := evHead } := by
  have h : ∃ F, (((s.bump .devRefusedCount).setFld .devRefusedOffset 0 (off / 8 * 8)).setFld .devRefusedPath 0 (pathNum p)) =
      { s with flds := F } := ⟨_, rfl⟩
  obtain ⟨F, hF⟩ := h
  unfold State.refuse
  dsimp only
  rw [hF]
  split
  · rw [State.event_low _ _ _ _ _ _ (by decide)]
    exact ⟨F, _, _, _, rfl⟩
  · exact ⟨F, _, _, _, rfl⟩

/-- Lattices 0 to n − 1, each changed by itself. -/
theorem State.forEach_modLat (f : Nat → Lattice → Lattice) (n : Nat) (s : State) :
    (∃ L, forEach (upTo n) (fun s l => s.modLat l (f l)) s = { s with lats := L }) ∧
    (∀ k, (forEach (upTo n) (fun s l => s.modLat l (f l)) s).lat k = if k < n then f k (s.lat k) else s.lat k) := by
  induction n with
  | zero => exact ⟨⟨_, rfl⟩, fun k => rfl⟩
  | succ n ih =>
    have e : forEach (upTo (n + 1)) (fun s l => s.modLat l (f l)) s =
        (forEach (upTo n) (fun s l => s.modLat l (f l)) s).modLat n (f n) := by
      simp [forEach, upTo, List.range_succ, List.foldl_append]
    obtain ⟨⟨L, hL⟩, h⟩ := ih
    rw [e]
    constructor
    · rw [hL]; exact ⟨_, rfl⟩
    · intro k
      by_cases hk : k = n
      · subst hk
        rw [State.modLat, State.lat_setLat_same, h, if_neg (by omega), if_pos (by omega)]
      · rw [State.modLat, State.lat_setLat_ne _ _ _ _ hk, h]
        by_cases h1 : k < n
        · rw [if_pos h1, if_pos (by omega)]
        · rw [if_neg h1, if_neg (by omega)]

theorem Completes.of {i : Instr} {s t : State} {P : State → Prop} (h : exec i s = .next t) (p : P t) : Completes i s P :=
  ⟨t, h, p⟩

theorem Completes.mono {i : Instr} {s : State} {P Q : State → Prop} (h : Completes i s P) (g : ∀ t, P t → Q t) :
    Completes i s Q := h.elim fun t ht => ⟨t, ht.1, g t ht.2⟩

end Sys2Proof.Machine
end

