-- ==== Sys2Proof/Laws/Fabric.lean ====
section
/-! SUPPORT. What transmission on a port can change: the ports and the counters, on the other ports no more than what they
owe and have sent; a frame that arrives while nothing waits for a branch changes no more before it is acted on. -/

set_option linter.all false

namespace Sys2Proof.Machine

/-- The same link: what routing and the version rules read. -/
def Port.SameLink (x y : Port) : Prop :=
  y.state = x.state ∧ y.version = x.version ∧ y.moving = x.moving ∧ y.peerDev = x.peerDev ∧ y.peerPort = x.peerPort

/-- The same choice of what may be sent. -/
def Port.SameSend (x y : Port) : Prop :=
  y.queue = x.queue ∧ y.credits = x.credits ∧ y.lanesUp = x.lanesUp ∧ y.sigGap = x.sigGap ∧ y.mix = x.mix ∧
  ∀ k, (y.lane k).retry = (x.lane k).retry ∧ (y.lane k).retraining = (x.lane k).retraining ∧
    (y.lane k).heldDown = (x.lane k).heldDown

/-- From `s` to `t` only the ports and the register fields changed, every port keeps its link, and every port but `p` what
it may send. -/
structure TxAt (p : Nat) (s t : State) : Prop where
  eq : t = { s with ports := t.ports, flds := t.flds }
  link : ∀ q, (s.port q).SameLink (t.port q)
  send : ∀ q, q ≠ p → (s.port q).SameSend (t.port q)

theorem Port.SameLink.refl (x : Port) : x.SameLink x := ⟨rfl, rfl, rfl, rfl, rfl⟩
theorem Port.SameSend.refl (x : Port) : x.SameSend x := ⟨rfl, rfl, rfl, rfl, rfl, fun _ => ⟨rfl, rfl, rfl⟩⟩
theorem Port.SameLink.trans {x y z : Port} (h : x.SameLink y) (g : y.SameLink z) : x.SameLink z := by
  unfold Port.SameLink at *; simp [g, h]
theorem Port.SameSend.trans {x y z : Port} (h : x.SameSend y) (g : y.SameSend z) : x.SameSend z := by
  unfold Port.SameSend at *; simp [g, h]

theorem Port.SameLink.flipLast (x : Port) : x.SameLink x.flipLast := by
  unfold Port.flipLast; split <;> exact ⟨rfl, rfl, rfl, rfl, rfl⟩

theorem TxAt.refl (p : Nat) (s : State) : TxAt p s s := ⟨rfl, fun _ => .refl _, fun _ _ => .refl _⟩
theorem TxAt.trans {p : Nat} {a b c : State} (h : TxAt p a b) (g : TxAt p b c) : TxAt p a c :=
  ⟨by rw [g.eq, h.eq], fun q => (h.link q).trans (g.link q), fun q hq => (h.send q hq).trans (g.send q hq)⟩
theorem TxAt.hnx {p : Nat} {s t : State} (h : TxAt p s t) : t.hnx = s.hnx := by rw [h.eq]
theorem TxAt.cfg {p : Nat} {s t : State} (h : TxAt p s t) : t.cfg = s.cfg := by rw [h.eq]
theorem TxAt.mem {p : Nat} {s t : State} (h : TxAt p s t) : t.mem = s.mem := by rw [h.eq]

theorem State.port_setPort (s : State) (p q : Nat) (x : Port) :
    (s.setPort p x).port q = if q = p then x else s.port q := by
  unfold State.setPort State.port; rw [tget_tset]

theorem TxAt.setPort {p : Nat} {s : State} {x : Port} (h : (s.port p).SameLink x) : TxAt p s (s.setPort p x) := by
  refine ⟨rfl, fun q => ?_, fun q hq => ?_⟩
  · rw [State.port_setPort]; split
    · rename_i e; subst e; exact h
    · exact .refl _
  · rw [State.port_setPort, if_neg hq]; exact .refl _

/-- A change of a port's link and of nothing that sending reads. -/
theorem TxAt.setAny {p r : Nat} {s : State} {x : Port} (h : (s.port r).SameLink x) (g : (s.port r).SameSend x) :
    TxAt p s (s.setPort r x) := by
  refine ⟨rfl, fun q => ?_, fun q hq => ?_⟩ <;> (rw [State.port_setPort]; split)
  · rename_i e; subst e; exact h
  · exact .refl _
  · rename_i e; subst e; exact g
  · exact .refl _

theorem TxAt.flds {p : Nat} {s : State} {F : Tbl Word} : TxAt p s { s with flds := F } :=
  ⟨rfl, fun _ => .refl _, fun _ _ => .refl _⟩
theorem TxAt.bump (p : Nat) (s : State) (f : Fld) (i n : Nat) : TxAt p s (s.bump f i n) := .flds
theorem TxAt.setFld (p : Nat) (s : State) (f : Fld) (i v : Nat) : TxAt p s (s.setFld f i v) := .flds
theorem TxAt.raise (p : Nat) (s : State) (f : Fld) (i v : Nat) : TxAt p s (s.raise f i v) := .flds

theorem TxAt.forEach {α : Type} {p : Nat} (l : List α) (f : State → α → State) (h : ∀ s a, TxAt p s (f s a)) :
    ∀ s, TxAt p s (Sys2Proof.Machine.forEach l f s) := by
  induction l with
  | nil => exact fun s => .refl _ s
  | cons a r ih => exact fun s => (h s a).trans (ih _)

@[simp] theorem Port.lane_setLane (x : Port) (k j : Nat) (l : Lane) :
    (x.setLane k l).lane j = if j = k then l else x.lane j := by
  unfold Port.setLane Port.lane; exact tget_tset ..

/-- A frame on the fibre: what the lane owes, what the port has sent and owes (R261, R264). -/
theorem TxAt.putOnFibre (p r : Nat) (s : State) (k : Nat) (f : Frame) (nak : Bool) : TxAt p s (s.putOnFibre r k f nak) := by
  have h : ∀ y : Port, TxAt p s (s.setPort r { ((s.port r).setLane k { (s.port r).lane k with owed := false }) with
      out := y.out, owed := y.owed }) := by
    intro y
    refine .setAny ⟨rfl, rfl, rfl, rfl, rfl⟩ ⟨rfl, rfl, rfl, rfl, rfl, fun j => ?_⟩
    show (((s.port r).setLane k { (s.port r).lane k with owed := false }).lane j).retry = _ ∧
      (((s.port r).setLane k { (s.port r).lane k with owed := false }).lane j).retraining = _ ∧
      (((s.port r).setLane k { (s.port r).lane k with owed := false }).lane j).heldDown = _
    rw [Port.lane_setLane]
    split
    · rename_i e; subst e; exact ⟨rfl, rfl, rfl⟩
    · exact ⟨rfl, rfl, rfl⟩
  unfold State.putOnFibre
  dsimp only
  split
  · exact h { Port.reset with out := _, owed := _ }
  · exact (h { Port.reset with out := _, owed := _ }).trans (.bump ..)

theorem TxAt.sendIdle (p r : Nat) (s : State) (k : Nat) (nak : Bool) : TxAt p s (s.sendIdle r k nak) := .putOnFibre ..

theorem TxAt.giveCredit (p r : Nat) (s : State) (i : Nat) : TxAt p s (s.giveCredit r i) := by
  have h : TxAt p s (s.modPort r fun x => { x with owed := x.owed.set i (x.owed.getD i 0 + 1) }) :=
    .setAny ⟨rfl, rfl, rfl, rfl, rfl⟩ ⟨rfl, rfl, rfl, rfl, rfl, fun _ => ⟨rfl, rfl, rfl⟩⟩
  unfold State.giveCredit
  dsimp only
  split
  · split
    · exact h.trans (.sendIdle ..)
    · exact h
  · exact h

theorem TxAt.launch (p : Nat) (s : State) (k : Nat) (f : Frame) (m : Nat) : TxAt p s (s.launch p k f m) := by
  unfold State.launch
  dsimp only
  split
  · refine TxAt.trans (b := s.setPort p _) ?_ (.setPort ?_)
    · exact .setPort ⟨rfl, rfl, rfl, rfl, rfl⟩
    · exact ⟨rfl, rfl, rfl, rfl, rfl⟩
  · split
    · refine TxAt.trans ?_ ((TxAt.putOnFibre ..).trans (.setPort ?_))
      · exact .setPort ⟨rfl, rfl, rfl, rfl, rfl⟩
      · exact .flipLast _
    · refine TxAt.trans ?_ (TxAt.putOnFibre ..)
      exact .setPort ⟨rfl, rfl, rfl, rfl, rfl⟩

theorem TxAt.injSelect (p : Nat) (s : State) (k : Nat) (f : Frame) : TxAt p s (s.injSelect p k f).1 := by
  unfold State.injSelect
  dsimp only
  split
  · exact .refl _ _
  · split
    · refine TxAt.trans (b := s.setPort p _) ?_ ⟨rfl, fun _ => .refl _, fun _ _ => .refl _⟩
      exact .setPort ⟨rfl, rfl, rfl, rfl, rfl⟩
    · exact .setPort ⟨rfl, rfl, rfl, rfl, rfl⟩

theorem TxAt.injRelease (p : Nat) (s : State) (k : Nat) : TxAt p s (s.injRelease p k) := by
  unfold State.injRelease
  dsimp only
  refine TxAt.trans ?_ (TxAt.forEach _ _ (fun s a => .launch ..) _)
  exact .setPort ⟨rfl, rfl, rfl, rfl, rfl⟩

theorem TxAt.transmit (p : Nat) (s : State) (k : Nat) (f : Frame) : TxAt p s (s.transmit p k f) := by
  unfold State.transmit
  dsimp only
  split
  · exact .injSelect ..
  · split
    · exact (TxAt.injSelect ..).trans (TxAt.setPort (p := p) (s := (s.injSelect p k f).1) ⟨rfl, rfl, rfl, rfl, rfl⟩)
    · exact (TxAt.injSelect ..).trans ((TxAt.launch ..).trans (.injRelease ..))

theorem TxAt.pump (p n : Nat) : ∀ s : State, TxAt p s (s.pump p n) := by
  induction n with
  | zero => exact fun s => .refl _ s
  | succ n ih =>
    intro s
    unfold State.pump
    dsimp only
    split
    · exact .refl _ _
    · split
      · exact .refl _ _
      · split
        · exact .refl _ _
        · refine TxAt.trans ?_ (ih _)
          split
          · refine TxAt.trans ?_ (.transmit ..)
            exact .setPort ⟨rfl, rfl, rfl, rfl, rfl⟩
          · refine TxAt.trans ?_ ((TxAt.transmit ..).trans (.giveCredit ..))
            exact .setPort ⟨rfl, rfl, rfl, rfl, rfl⟩

theorem TxAt.pumpPort (p : Nat) (s : State) : TxAt p s (s.pumpPort p) := .pump ..
theorem TxAt.enqueueFrom (p : Nat) (s : State) (f : Frame) (o c : Nat) : TxAt p s (s.enqueueFrom p f o c) :=
  TxAt.trans (b := s.modPort p _) (.setPort ⟨rfl, rfl, rfl, rfl, rfl⟩) (.pumpPort ..)
theorem TxAt.enqueue (p : Nat) (s : State) (f : Frame) : TxAt p s (s.enqueue p f) := .enqueueFrom ..

theorem TxAt.retrainLane (p : Nat) (s : State) (k : Nat) : TxAt p s (s.retrainLane p k) := by
  unfold State.retrainLane
  refine TxAt.trans ?_ ((TxAt.bump ..).trans (.pumpPort ..))
  exact .setPort ⟨rfl, rfl, rfl, rfl, rfl⟩

theorem TxAt.replay (p : Nat) (s : State) (k : Nat) : TxAt p s (s.replay p k) := by
  unfold State.replay
  dsimp only
  split
  · exact .refl _ _
  · have h := TxAt.forEach (p := p) ((s.port p).lane k).retry
      (fun s f => (s.putOnFibre p k f false).bump .hnxRetryCntReplayed p) (fun s a => (TxAt.putOnFibre ..).trans (.bump ..)) s
    split
    · refine h.trans (TxAt.trans ?_ (.retrainLane ..))
      exact .setPort ⟨rfl, rfl, rfl, rfl, rfl⟩
    · exact h.trans (.setPort ⟨rfl, rfl, rfl, rfl, rfl⟩)

theorem TxAt.rejectFrame (p : Nat) (s : State) (k : Nat) : TxAt p s (s.rejectFrame p k) := by
  unfold State.rejectFrame
  dsimp only
  split
  · exact .refl _ _
  · refine TxAt.trans ?_ (.sendIdle ..)
    exact .setPort ⟨rfl, rfl, rfl, rfl, rfl⟩

theorem TxAt.ackLane (p : Nat) (s : State) (k : Nat) : TxAt p s (s.ackLane p k) := by
  unfold State.ackLane
  dsimp only
  split
  · exact .sendIdle ..
  · exact .refl _ _

/-! ## Frames of this device's own control traffic -/

/-- As `TxAt`, wherever the frame leaves. -/
structure Tx (s t : State) : Prop where
  eq : t = { s with ports := t.ports, flds := t.flds }
  link : ∀ q, (s.port q).SameLink (t.port q)

theorem TxAt.tx {p : Nat} {s t : State} (h : TxAt p s t) : Tx s t := ⟨h.eq, h.link⟩
theorem Tx.refl (s : State) : Tx s s := ⟨rfl, fun _ => .refl _⟩
theorem Tx.trans {a b c : State} (h : Tx a b) (g : Tx b c) : Tx a c :=
  ⟨by rw [g.eq, h.eq], fun q => (h.link q).trans (g.link q)⟩
theorem Tx.hnx {s t : State} (h : Tx s t) : t.hnx = s.hnx := by rw [h.eq]
theorem Tx.cfg {s t : State} (h : Tx s t) : t.cfg = s.cfg := by rw [h.eq]

theorem Tx.sendCtl (s : State) (d : Nat) (f : Frame) : Tx s (s.sendCtl d f) := by
  unfold State.sendCtl
  split
  · exact .refl _
  · split
    · split
      · exact (TxAt.bump 0 ..).tx
      · exact (TxAt.enqueue ..).tx
    · exact (TxAt.bump 0 ..).tx
    · exact .refl _

theorem Tx.sendNack (s : State) (f : Frame) (r : Nat) : Tx s (s.sendNack f r) := by
  unfold State.sendNack
  split
  · exact .refl _
  · exact .sendCtl ..

/-! ## What a frame brings before it is acted on -/

/-- Nothing waits for a branch. -/
def State.Calm (s : State) : Prop := s.hnx.mcWait = [] ∧ ∀ b ∈ s.hnx.branches, b.queue = []

theorem State.Calm.tx {s t : State} (c : s.Calm) (h : t.hnx = s.hnx) : t.Calm := by unfold State.Calm; rw [h]; exact c
theorem Arrives.calm {s : State} {p k : Nat} {f : Frame} (h : Arrives s p k f) : s.Calm := ⟨h.waits, h.tree⟩

theorem State.pumpBranch_calm {s : State} (c : s.Calm) (g p n : Nat) : s.pumpBranch g p n = s := by
  cases n with
  | zero => rfl
  | succ n =>
    unfold State.pumpBranch
    split
    · rename_i b f r h
      have := c.2 _ (List.mem_of_find?_eq_some h)
      simp at this
    · rfl

theorem State.pumpMc_calm {s : State} (c : s.Calm) : s.pumpMc = s := by
  have h : ∀ l : List Branch, Sys2Proof.Machine.forEach l (fun s b => s.pumpBranch b.group b.port 257) s = s := by
    intro l
    induction l with
    | nil => rfl
    | cons a r ih =>
      show Sys2Proof.Machine.forEach r _ (s.pumpBranch _ _ _) = _
      rw [State.pumpBranch_calm c]; exact ih
  unfold State.pumpMc
  dsimp only
  rw [h, c.1]
  rfl

theorem TxAt.takeAck {s : State} (c : s.Calm) (p k : Nat) (f : Frame) : TxAt p s (s.takeAck p k f) := by
  have h : ∀ u : State, TxAt p s u → TxAt p s ((u.pumpPort p).pumpMc) := by
    intro u h
    have h' := h.trans (TxAt.pumpPort p u)
    rw [State.pumpMc_calm (c.tx h'.hnx)]; exact h'
  unfold State.takeAck
  dsimp only
  apply h
  split
  · refine TxAt.trans ?_ ((TxAt.bump ..).trans (.replay ..))
    exact .setPort ⟨rfl, rfl, rfl, rfl, rfl⟩
  · exact .setPort ⟨rfl, rfl, rfl, rfl, rfl⟩

theorem TxAt.linkIn {s : State} (c : s.Calm) (p k : Nat) (f : Frame) : TxAt p s (s.linkIn p k f).1 := by
  have h1 := fun (l : Lane) => TxAt.setPort (p := p) (s := s) (x := (s.port p).setLane k l) ⟨rfl, rfl, rfl, rfl, rfl⟩
  unfold State.linkIn
  dsimp only
  split
  · exact .refl _ _
  · split
    · split
      · exact .bump ..
      · exact .refl _ _
    · split
      · exact .refl _ _
      · split
        · exact .rejectFrame ..
        · split
          · exact (h1 _).trans (.takeAck (c.tx (h1 _).hnx) ..)
          · exact (h1 _).trans ((TxAt.bump ..).trans (.takeAck (c.tx ((h1 _).trans (.bump ..)).hnx) ..))

theorem Arrives.accepted {s : State} {p k : Nat} {f : Frame} (h : Arrives s p k f) : (s.linkIn p k f).2 = true := by
  unfold State.linkIn
  dsimp only
  rw [if_neg (by simp [h.on]), if_neg (by simp [h.active]), if_neg (by have := h.lane; simp_all [h.active, h.hears]), if_neg (by
    rw [← h.crc]; rcases h.next with h5 | h5 <;> simp [h5])]
  split <;> rfl

end Sys2Proof.Machine
end

