-- ==== Sys2Proof/Laws/Keep.lean ====
section
/-! SUPPORT. What every operation keeps: the waiting commands, the canonical form of both memories, the numbering of the
event log, and the fuses, which only rise. -/

namespace Sys2Proof.Machine

/-- What `t`, made from `s` by an operation, has kept. -/
structure Keeps (s t : State) : Prop where
  pending : t.pending = s.pending
  mem : Memory.wf s.mem = true → Memory.wf t.mem = true
  hostMem : Memory.wf s.hostMem = true → Memory.wf t.hostMem = true
  log : LogOk s → LogOk t
  own : s.sec.ownFuses ≤ t.sec.ownFuses
  svn : s.sec.svn ≤ t.sec.svn

theorem Keeps.refl (s : State) : Keeps s s := ⟨rfl, id, id, id, Nat.le_refl _, Nat.le_refl _⟩

theorem Keeps.trans {s t u : State} (h : Keeps s t) (g : Keeps t u) : Keeps s u :=
  ⟨g.pending.trans h.pending, g.mem ∘ h.mem, g.hostMem ∘ h.hostMem, g.log ∘ h.log, h.own.trans g.own, h.svn.trans g.svn⟩

/-- An update of other fields. -/
theorem Keeps.of_eq {s t : State} (hp : t.pending = s.pending) (hm : t.mem = s.mem) (hh : t.hostMem = s.hostMem)
    (hl : t.log = s.log) (he : t.evHead = s.evHead) (hs : t.sec = s.sec) : Keeps s t :=
  ⟨hp, fun h => hm ▸ h, fun h => hh ▸ h, fun h => by simpa [LogOk, hl, he] using h, by rw [hs], by rw [hs]⟩

/-- A record update of other fields. -/
theorem Keeps.mk' {s t : State} (h : Keeps s t)
    (free : Nat) (reply : Reply) (time : Nat) (pins : Pins) (boot : Boot) (cfg : Configuration) (cfgSeq : Nat)
    (flash : Flash) (jnl : Journal) (flds : Tbl Word) (refusedAt : Tbl Nat) (poison : Tbl Bool) (wordErr : Tbl
    Bool) (feFull : Tbl Bool) (feOwner : Tbl Nat) (feOps : List FeOp) (lats : Tbl Lattice) (combs : Tbl Comb)
    (threads : Tbl Thread) (ctxs : Tbl Ctx) (entries : Tbl EntrySt) (admitQueue : List Nat) (issued : List
    Issued) (bays : Tbl Bay) (cxl : Cxl) (ports : Tbl Port) (hnx : Hnx) (rings : Tbl Ring) (coefs : Tbl Word)
    (clusters : Tbl Cluster) (convs : Tbl Conv) (traces : Tbl Trace) (power : Power) (sensors : Tbl Sensor)
    (mgmt : Mgmt) :
    Keeps s (State.mk
      t.pending free reply time pins boot cfg cfgSeq flash jnl t.sec t.log t.evHead flds refusedAt t.mem
      t.hostMem poison wordErr feFull feOwner feOps lats combs threads ctxs entries admitQueue issued bays cxl
      ports hnx rings coefs clusters convs traces power sensors mgmt) :=
  h.trans (Keeps.of_eq rfl rfl rfl rfl rfl rfl)

/-- A record update of other fields keeps what its base keeps, and no more. -/
theorem Keeps.mk_iff {s t : State}
    (free : Nat) (reply : Reply) (time : Nat) (pins : Pins) (boot : Boot) (cfg : Configuration) (cfgSeq : Nat)
    (flash : Flash) (jnl : Journal) (flds : Tbl Word) (refusedAt : Tbl Nat) (poison : Tbl Bool) (wordErr : Tbl
    Bool) (feFull : Tbl Bool) (feOwner : Tbl Nat) (feOps : List FeOp) (lats : Tbl Lattice) (combs : Tbl Comb)
    (threads : Tbl Thread) (ctxs : Tbl Ctx) (entries : Tbl EntrySt) (admitQueue : List Nat) (issued : List
    Issued) (bays : Tbl Bay) (cxl : Cxl) (ports : Tbl Port) (hnx : Hnx) (rings : Tbl Ring) (coefs : Tbl Word)
    (clusters : Tbl Cluster) (convs : Tbl Conv) (traces : Tbl Trace) (power : Power) (sensors : Tbl Sensor)
    (mgmt : Mgmt) :
    Keeps s (State.mk
      t.pending free reply time pins boot cfg cfgSeq flash jnl t.sec t.log t.evHead flds refusedAt t.mem
      t.hostMem poison wordErr feFull feOwner feOps lats combs threads ctxs entries admitQueue issued bays cxl
      ports hnx rings coefs clusters convs traces power sensors mgmt) ↔ Keeps s t :=
  ⟨fun h => h.trans (Keeps.of_eq rfl rfl rfl rfl rfl rfl), fun h => h.trans (Keeps.of_eq rfl rfl rfl rfl rfl rfl)⟩

/-- An update of the security fields that are no fuse, or that raises one. -/
theorem Keeps.setSec {s t : State} (x : Security) (ho : t.sec.ownFuses ≤ x.ownFuses) (hv : t.sec.svn ≤ x.svn)
    (h : Keeps s t) : Keeps s { t with sec := x } := h.trans ⟨rfl, id, id, id, ho, hv⟩

/-- An update of device memory. -/
theorem Keeps.setMem {s t : State} (m : Tbl Byte) (hm : Memory.wf t.mem = true → Memory.wf m = true) (h : Keeps s t) :
    Keeps s { t with mem := m } := h.trans ⟨rfl, hm, id, id, Nat.le_refl _, Nat.le_refl _⟩

theorem Keeps.ite {s a b : State} {c : Prop} [Decidable c] (ha : Keeps s a) (hb : Keeps s b) :
    Keeps s (if c then a else b) := by split <;> assumption

theorem Keeps.forEach {α : Type} {s t : State} {l : List α} {f : State → α → State} (h : Keeps s t)
    (hf : ∀ s a, Keeps s (f s a)) : Keeps s (forEach l f t) :=
  forEach_keeps (Keeps s ·) l f (fun _ a g => g.trans (hf _ a)) t h

/-- A fold that carries the state and something more. -/
theorem Keeps.foldl {α β : Type} {s : State} {f : State × β → α → State × β} (l : List α) (r : State × β)
    (hf : ∀ (r : State × β) a, Keeps r.1 (f r a).1) (h : Keeps s r.1) : Keeps s (l.foldl f r).1 := by
  induction l generalizing r with
  | nil => exact h
  | cons a l ih => exact ih _ (h.trans (hf r a))

/-- What an operation that may not answer keeps. -/
def KeepsO (s : State) : Option State → Prop
  | none => True
  | some t => Keeps s t

theorem KeepsO.some {s t : State} {o : Option State} (h : KeepsO s o) (e : o = some t) : Keeps s t := by subst e; exact h

theorem KeepsO.ite {s : State} {a b : Option State} {c : Prop} [Decidable c] (ha : KeepsO s a) (hb : KeepsO s b) :
    KeepsO s (if c then a else b) := by split <;> assumption

theorem KeepsO.mk {s t : State} (h : Keeps s t) : KeepsO s (Option.some t) := h

theorem KeepsO.mkNone {s : State} : KeepsO s Option.none := True.intro

theorem KeepsO.getD {s t : State} {o : Option State} (h : KeepsO s o) (g : Keeps s t) : Keeps s (o.getD t) := by
  cases o with
  | none => exact g
  | some u => exact h

/-- What a command keeps where it answers a next state. -/
def KeepsOut (s : State) : Out → Prop
  | .next t => Keeps s t
  | .fault _ => True
  | .refused _ => True

theorem KeepsOut.mk {s t : State} (h : Keeps s t) : KeepsOut s (.next t) := h

theorem KeepsOut.mkFault {s : State} {f : Fault} : KeepsOut s (.fault f) := True.intro

theorem KeepsOut.mkRefused {s : State} {r : Refusal} : KeepsOut s (.refused r) := True.intro

theorem KeepsOut.next {s t : State} {o : Out} (h : KeepsOut s o) (e : o = .next t) : Keeps s t := by subst e; exact h

theorem KeepsOut.ite {s : State} {a b : Out} {c : Prop} [Decidable c] (ha : KeepsOut s a) (hb : KeepsOut s b) :
    KeepsOut s (if c then a else b) := by split <;> assumption

/-- What an operation that may end in a fault code keeps. -/
def KeepsE {α : Type} (v : α → State) (s : State) : Except Nat α → Prop
  | .ok a => Keeps s (v a)
  | .error _ => True

theorem KeepsE.ok {α : Type} {v : α → State} {s : State} {x : Except Nat α} {a : α} (h : KeepsE v s x) (e : x = .ok a) :
    Keeps s (v a) := by subst e; exact h

/-- What a step's effect keeps, where it completes and where it faults. -/
def KeepsR {α : Type} (v : α → State) (s : State) : Except (Nat × State) α → Prop
  | .ok a => Keeps s (v a)
  | .error e => Keeps s e.2

theorem KeepsR.ok {α : Type} {v : α → State} {s : State} {x : Except (Nat × State) α} {a : α} (h : KeepsR v s x)
    (e : x = .ok a) : Keeps s (v a) := by subst e; exact h

theorem KeepsR.error {α : Type} {v : α → State} {s : State} {x : Except (Nat × State) α} {e : Nat × State}
    (h : KeepsR v s x) (g : x = .error e) : Keeps s e.2 := by subst g; exact h

theorem KeepsE.mk {α : Type} {v : α → State} {s : State} {a : α} (h : Keeps s (v a)) : KeepsE v s (.ok a) := h

theorem KeepsE.mkError {α : Type} {v : α → State} {s : State} {c : Nat} : KeepsE v s (.error c) := True.intro

theorem KeepsR.mk {α : Type} {v : α → State} {s : State} {a : α} (h : Keeps s (v a)) : KeepsR v s (.ok a) := h

theorem KeepsR.mkError {α : Type} {v : α → State} {s : State} {e : Nat × State} (h : Keeps s e.2) :
    KeepsR v s (.error e) := h

theorem KeepsR.ite {α : Type} {v : α → State} {s : State} {a b : Except (Nat × State) α} {c : Prop} [Decidable c]
    (ha : KeepsR v s a) (hb : KeepsR v s b) : KeepsR v s (if c then a else b) := by split <;> assumption

/-- A read that may fault, then the rest. -/
theorem KeepsR.read {α β : Type} {v : β → State} {s t : State} {x : Except Nat α} {f : α → Except (Nat × State) β}
    (h : Keeps s t) (hf : ∀ a, KeepsR v s (f a)) : KeepsR v s (orFault t x >>= f) := by
  cases x with
  | error c => exact h
  | ok a => exact hf a

/-- An effect, then the rest. -/
theorem KeepsR.bind {α β : Type} {u : α → State} {v : β → State} {s : State} {x : Except (Nat × State) α}
    {f : α → Except (Nat × State) β} (h : KeepsR u s x) (hf : ∀ a, Keeps s (u a) → KeepsR v s (f a)) :
    KeepsR v s (x >>= f) := by
  cases x with
  | error c => exact h
  | ok a => exact hf a h

theorem KeepsR.mkPure {α : Type} {v : α → State} {s : State} {a : α} (h : Keeps s (v a)) :
    KeepsR v s (pure a) := h

/-- A write that may fault, then the rest. -/
theorem KeepsR.readState {β : Type} {v : β → State} {s t : State} {x : Except Nat State}
    {f : State → Except (Nat × State) β} (h : Keeps s t) (g : KeepsE (fun s => s) s x)
    (hf : ∀ a, Keeps s a → KeepsR v s (f a)) : KeepsR v s (orFault t x >>= f) := by
  cases x with
  | error c => exact h
  | ok a => exact hf a g

theorem KeepsR.readPair {α β : Type} {v : β → State} {s t : State} {x : Except Nat (State × α)}
    {f : State × α → Except (Nat × State) β} (h : Keeps s t) (g : KeepsE Prod.fst s x)
    (hf : ∀ a, Keeps s a.1 → KeepsR v s (f a)) : KeepsR v s (orFault t x >>= f) := by
  cases x with
  | error c => exact h
  | ok a => exact hf a g

theorem KeepsR.orFaultValue {α : Type} {s t : State} {x : Except Nat α} (h : Keeps s t) :
    KeepsR (fun _ => s) s (orFault t x) := by
  cases x with
  | error e => exact h
  | ok a => exact Keeps.refl s

theorem KeepsR.map {α β : Type} {s : State} {x : Except (Nat × State) α} {g : α → β} (h : KeepsR (fun _ => s) s x) :
    KeepsR (fun _ => s) s (x.map g) := by
  cases x with
  | error c => exact h
  | ok a => exact h

/-- Values read before the rest: only a fault among them leaves a state. -/
theorem KeepsR.readAll {α β : Type} {v : β → State} {s : State} {x : Except (Nat × State) α}
    {f : α → Except (Nat × State) β} (h : KeepsR (fun _ => s) s x) (hf : ∀ a, KeepsR v s (f a)) : KeepsR v s (x >>= f) := by
  cases x with
  | error c => exact h
  | ok a => exact hf a

theorem KeepsR.mapM {α β : Type} {s : State} {f : α → Except (Nat × State) β} (l : List α)
    (hf : ∀ a, KeepsR (fun _ => s) s (f a)) : KeepsR (fun _ => s) s (l.mapM f) := by
  induction l with
  | nil => exact Keeps.refl s
  | cons a l ih =>
    rw [List.mapM_cons]
    refine KeepsR.readAll (hf a) fun b => KeepsR.readAll ih fun r => ?_
    exact Keeps.refl s

theorem KeepsR.bindState {β : Type} {v : β → State} {s : State} {x : StepRun}
    {f : State → Except (Nat × State) β} (h : KeepsR (fun s => s) s x) (hf : ∀ a, Keeps s a → KeepsR v s (f a)) :
    KeepsR v s (x >>= f) := KeepsR.bind h hf

theorem KeepsR.bindPair {α β : Type} {v : β → State} {s : State} {x : Except (Nat × State) (State × α)}
    {f : State × α → Except (Nat × State) β} (h : KeepsR Prod.fst s x) (hf : ∀ a, Keeps s a.1 → KeepsR v s (f a)) :
    KeepsR v s (x >>= f) := KeepsR.bind h hf

theorem KeepsR.of_trans {α : Type} {v : α → State} {s t : State} {x : Except (Nat × State) α} (h : Keeps s t)
    (g : KeepsR v t x) : KeepsR v s x := by
  cases x with
  | error e => exact h.trans g
  | ok a => exact h.trans g

theorem KeepsR.orFault {α : Type} {v : α → State} {s t : State} {x : Except Nat α} (h : Keeps s t) (g : KeepsE v t x) :
    KeepsR v s (orFault t x) := by
  cases x with
  | error e => exact h
  | ok a => exact h.trans g

/-- A run of effects. -/
theorem KeepsR.foldRun {α : Type} {s t : State} {f : State → α → StepRun} (l : List α)
    (hf : ∀ s a, KeepsR (fun s => s) s (f s a)) (h : Keeps s t) : KeepsR (fun s => s) s (foldRun f l t) := by
  induction l generalizing t with
  | nil => exact h
  | cons a l ih =>
    unfold Sys2Proof.Machine.foldRun
    have := hf t a
    cases hx : f t a with
    | error e => rw [hx] at this; exact h.trans this
    | ok u => rw [hx] at this; exact ih (h.trans this)

theorem State.setLat_keeps {z : State} (s : State) (l : Nat) (x : Lattice) (hk : Keeps z s) : Keeps z (State.setLat s l x) :=
  hk.trans (by apply Keeps.of_eq <;> simp)

theorem State.setComb_keeps {z : State} (s : State) (h : Nat) (x : Comb) (hk : Keeps z s) : Keeps z (State.setComb s h x) :=
  hk.trans (by apply Keeps.of_eq <;> simp)

theorem State.setThread_keeps {z : State} (s : State) (t : Nat) (x : Thread) (hk : Keeps z s) : Keeps z (State.setThread s t x) :=
  hk.trans (by apply Keeps.of_eq <;> simp)

theorem State.setCtx_keeps {z : State} (s : State) (c : Nat) (x : Ctx) (hk : Keeps z s) : Keeps z (State.setCtx s c x) :=
  hk.trans (by apply Keeps.of_eq <;> simp)

theorem State.setEntry_keeps {z : State} (s : State) (k : Nat) (x : EntrySt) (hk : Keeps z s) : Keeps z (State.setEntry s k x) :=
  hk.trans (by apply Keeps.of_eq <;> simp)

theorem State.setBay_keeps {z : State} (s : State) (b : Nat) (x : Bay) (hk : Keeps z s) : Keeps z (State.setBay s b x) :=
  hk.trans (by apply Keeps.of_eq <;> simp)

theorem State.setPort_keeps {z : State} (s : State) (p : Nat) (x : Port) (hk : Keeps z s) : Keeps z (State.setPort s p x) :=
  hk.trans (by apply Keeps.of_eq <;> simp)

theorem State.setRing_keeps {z : State} (s : State) (r : Nat) (x : Ring) (hk : Keeps z s) : Keeps z (State.setRing s r x) :=
  hk.trans (by apply Keeps.of_eq <;> simp)

theorem State.setCluster_keeps {z : State} (s : State) (q : Nat) (x : Cluster) (hk : Keeps z s) : Keeps z (State.setCluster s q x) :=
  hk.trans (by apply Keeps.of_eq <;> simp)

theorem State.setConv_keeps {z : State} (s : State) (k : Nat) (x : Conv) (hk : Keeps z s) : Keeps z (State.setConv s k x) :=
  hk.trans (by apply Keeps.of_eq <;> simp)

theorem State.setTrace_keeps {z : State} (s : State) (k : Nat) (x : Trace) (hk : Keeps z s) : Keeps z (State.setTrace s k x) :=
  hk.trans (by apply Keeps.of_eq <;> simp)

theorem State.setSensor_keeps {z : State} (s : State) (k : Nat) (x : Sensor) (hk : Keeps z s) : Keeps z (State.setSensor s k x) :=
  hk.trans (by apply Keeps.of_eq <;> simp)

theorem State.modLat_keeps {z : State} (s : State) (l : Nat) (f : Lattice → Lattice) (hk : Keeps z s) : Keeps z (State.modLat s l f) :=
  hk.trans (by apply Keeps.of_eq <;> simp)

theorem State.modComb_keeps {z : State} (s : State) (h : Nat) (f : Comb → Comb) (hk : Keeps z s) : Keeps z (State.modComb s h f) :=
  hk.trans (by apply Keeps.of_eq <;> simp)

theorem State.modThread_keeps {z : State} (s : State) (t : Nat) (f : Thread → Thread) (hk : Keeps z s) : Keeps z (State.modThread s t f) :=
  hk.trans (by apply Keeps.of_eq <;> simp)

theorem State.modCtx_keeps {z : State} (s : State) (c : Nat) (f : Ctx → Ctx) (hk : Keeps z s) : Keeps z (State.modCtx s c f) :=
  hk.trans (by apply Keeps.of_eq <;> simp)

theorem State.modBay_keeps {z : State} (s : State) (b : Nat) (f : Bay → Bay) (hk : Keeps z s) : Keeps z (State.modBay s b f) :=
  hk.trans (by apply Keeps.of_eq <;> simp)

theorem State.modPort_keeps {z : State} (s : State) (p : Nat) (f : Port → Port) (hk : Keeps z s) : Keeps z (State.modPort s p f) :=
  hk.trans (by apply Keeps.of_eq <;> simp)

theorem State.modRing_keeps {z : State} (s : State) (r : Nat) (f : Ring → Ring) (hk : Keeps z s) : Keeps z (State.modRing s r f) :=
  hk.trans (by apply Keeps.of_eq <;> simp)

theorem State.modCluster_keeps {z : State} (s : State) (q : Nat) (f : Cluster → Cluster) (hk : Keeps z s) : Keeps z (State.modCluster s q f) :=
  hk.trans (by apply Keeps.of_eq <;> simp)

theorem State.drawn_keeps {z : State} (s : State) (n : Nat) (hk : Keeps z s) : Keeps z (State.drawn s n) :=
  hk.trans (by apply Keeps.of_eq <;> simp)

theorem State.setFldAt_keeps {z : State} (s : State) (f : Fld) (inst path v : Nat) (hk : Keeps z s) : Keeps z (State.setFldAt s f inst path v) :=
  hk.trans (by apply Keeps.of_eq <;> simp)

theorem State.setFld_keeps {z : State} (s : State) (f : Fld) (inst v : Nat) (hk : Keeps z s) : Keeps z (State.setFld s f inst v) :=
  hk.trans (by apply Keeps.of_eq <;> simp)

theorem State.bump_keeps {z : State} (s : State) (f : Fld) (inst : Nat) (n : Nat) (hk : Keeps z s) : Keeps z (State.bump s f inst n) :=
  hk.trans (by apply Keeps.of_eq <;> simp)

theorem State.raise_keeps {z : State} (s : State) (f : Fld) (inst v : Nat) (hk : Keeps z s) : Keeps z (State.raise s f inst v) :=
  hk.trans (by apply Keeps.of_eq <;> simp)

theorem State.resetWarmFields_keeps {z : State} (s : State) (hk : Keeps z s) : Keeps z (State.resetWarmFields s) :=
  hk.trans (by apply Keeps.of_eq <;> simp)

theorem State.setPoison_keeps {z : State} (s : State) (line : Nat) (v : Bool) (hk : Keeps z s) : Keeps z (State.setPoison s line v) :=
  hk.trans (by apply Keeps.of_eq <;> simp)

theorem State.holdWrite_keeps {z : State} (s : State) (p : Path) (b off sel v : Nat) (hk : Keeps z s) : Keeps z (State.holdWrite s p b off sel v) :=
  hk.trans (by apply Keeps.of_eq <;> simp)

theorem State.signalVector_keeps {z : State} (s : State) (v : Nat) (hk : Keeps z s) : Keeps z (State.signalVector s v) :=
  hk.trans (by apply Keeps.of_eq <;> simp)

theorem State.markChg_keeps {z : State} (s : State) (k : Nat) (hk : Keeps z s) : Keeps z (State.markChg s k) :=
  hk.trans (by apply Keeps.of_eq <;> simp)

theorem State.alertEdge_keeps {z : State} (s0 s : State) (hk : Keeps z s) : Keeps z (State.alertEdge s0 s) :=
  hk.trans (by apply Keeps.of_eq <;> simp)

theorem State.setAlert_keeps {z : State} (s : State) (k : Nat) (hk : Keeps z s) : Keeps z (State.setAlert s k) :=
  hk.trans (by apply Keeps.of_eq <;> simp)

theorem State.journal_keeps {z : State} (s : State) (kind : JKind) (payload : List Nat) (hk : Keeps z s) : Keeps z (State.journal s kind payload) :=
  hk.trans (by apply Keeps.of_eq <;> simp)

theorem State.cxlRecord_keeps {z : State} (s : State) (k : Nat) (rec : List Byte) (hk : Keeps z s) : Keeps z (State.cxlRecord s k rec) :=
  hk.trans (by apply Keeps.of_eq <;> simp)

theorem State.spread_keeps {z : State} (s : State) (e : Event) (hk : Keeps z s) : Keeps z (State.spread s e) :=
  hk.trans (by apply Keeps.of_eq <;> simp)

theorem State.sensorChange_keeps {z : State} (s : State) (id v : Nat) (hk : Keeps z s) : Keeps z (State.sensorChange s id v) :=
  hk.trans (by apply Keeps.of_eq <;> simp)

theorem State.store_keeps {z : State} (s : State) (a : Nat) (d : List Byte) (h : Keeps z s) : Keeps z (State.store s a d) :=
  h.trans ⟨rfl, State.store_wf s a d, id, id, Nat.le_refl _, Nat.le_refl _⟩

theorem State.hostStore_keeps {z : State} (s : State) (a : Nat) (d : List Byte) (h : Keeps z s) :
    Keeps z (State.hostStore s a d) :=
  h.trans ⟨rfl, id, State.hostStore_wf s a d, id, Nat.le_refl _, Nat.le_refl _⟩

/-- Adding the next entry keeps the numbering of the log. -/
theorem LogOk.cons (l : List Event) (n : Nat) (e : Event) (he : e.seq = n)
    (h : l.length = min n 8192 ∧ ∀ i x, l[i]? = some x → x.seq + i + 1 = n) :
    ((e :: l).take 8192).length = min (n + 1) 8192 ∧
      ∀ i x, ((e :: l).take 8192)[i]? = some x → x.seq + i + 1 = n + 1 := by
  refine ⟨by simp only [List.length_take, List.length_cons, h.1]; omega, fun i x hx => ?_⟩
  rw [List.getElem?_take] at hx
  split at hx
  · cases i with
    | zero => simp at hx; subst hx; omega
    | succ i => have := h.2 i x (by simpa using hx); omega
  · cases hx

theorem State.event_keeps {z : State} (s : State) (ev : Ev) (uk : UnitKind) (uid c : Nat) (l : List Nat) (h : Keeps z s) :
    Keeps z (State.event s ev uk uid c l) := by
  refine h.trans ?_
  have key : ∀ e : Event, e.seq = s.evHead →
      Keeps s { s with log := (e :: s.log).take 8192, evHead := s.evHead + 1 } := fun e he =>
    ⟨rfl, id, id, LogOk.cons s.log s.evHead e he, Nat.le_refl _, Nat.le_refl _⟩
  unfold State.event
  extract_lets e t
  split
  · exact State.spread_keeps t e (key e rfl)
  · exact key e rfl

theorem State.outage_keeps {z : State} (s : State) (k : Nat) (uk : UnitKind) (uid d w : Nat) (h : Keeps z s) :
    Keeps z (State.outage s k uk uid d w) := by
  unfold State.outage
  extract_lets s1 s2
  have h2 : Keeps z s2 := State.bump_keeps _ _ _ _ (State.event_keeps _ _ _ _ _ _ h)
  split
  · exact State.setAlert_keeps _ _ h2
  · exact h2

theorem State.refuse_keeps {z : State} (s : State) (p : Path) (off v : Nat) (h : Keeps z s) :
    Keeps z (State.refuse s p off v) := by
  unfold State.refuse
  extract_lets s1 s2 k last
  have h2 : Keeps z s2 := State.setFld_keeps _ _ _ _ (State.setFld_keeps _ _ _ _ (State.bump_keeps _ _ _ _ h))
  split
  · exact State.event_keeps _ _ _ _ _ _ (Keeps.mk' h2 ..)
  · exact h2

end Sys2Proof.Machine
end

