-- ==== Sys2Proof/Laws/KeepMemory.lean ====
section
/-! SUPPORT. What the definitions of Machine/Memory.lean keep (Keeps, Laws/Keep.lean). -/

set_option linter.all false

namespace Sys2Proof.Machine

theorem State.corrected_keeps {z0 : State} (s : State) (stack : Nat) (hk : Keeps z0 s) :
    Keeps z0 (State.corrected s stack) := by
  unfold State.corrected
  repeat' (first
    | extract_lets | with_reducible assumption | with_reducible apply Keeps.refl | with_reducible apply True.intro
    | with_reducible apply State.bump_keeps | with_reducible apply State.cxlRecord_keeps
    | with_reducible apply KeepsO.getD | with_reducible apply Keeps.ite
    | (with_reducible apply Keeps.forEach; rotate_left; intro s a) | simp only [Keeps.mk_iff] | split
    | (dsimp +zetaDelta only))

theorem State.beatRetried_keeps {z0 : State} (s : State) (stack : Nat) (hk : Keeps z0 s) :
    Keeps z0 (State.beatRetried s stack) := by
  unfold State.beatRetried
  repeat' (first
    | extract_lets | with_reducible assumption | with_reducible apply Keeps.refl | with_reducible apply True.intro
    | with_reducible apply State.bump_keeps | with_reducible apply KeepsO.getD | with_reducible apply Keeps.ite
    | (with_reducible apply Keeps.forEach; rotate_left; intro s a) | simp only [Keeps.mk_iff] | split
    | (dsimp +zetaDelta only))

theorem State.uncorrectable_keeps {z0 : State} (s : State) (line : Nat) (src : UeReader) (hk : Keeps z0 s) :
    Keeps z0 (State.uncorrectable s line src) := by
  unfold State.uncorrectable
  repeat' (first
    | extract_lets | with_reducible assumption | with_reducible apply Keeps.refl | with_reducible apply True.intro
    | with_reducible apply State.setPoison_keeps | with_reducible apply State.bump_keeps
    | with_reducible apply State.setFld_keeps | with_reducible apply State.event_keeps
    | with_reducible apply KeepsO.getD | with_reducible apply Keeps.ite
    | (with_reducible apply Keeps.forEach; rotate_left; intro s a) | simp only [Keeps.mk_iff] | split
    | (dsimp +zetaDelta only))

theorem State.checkAt_keeps {z0 : State} (s : State) (a : Nat) (check : LineCheck) (src : UeReader) (hk : Keeps z0 s) :
    Keeps z0 (State.checkAt s a check src) := by
  unfold State.checkAt
  repeat' (first
    | extract_lets | with_reducible assumption | with_reducible apply Keeps.refl | with_reducible apply True.intro
    | with_reducible apply State.beatRetried_keeps | with_reducible apply State.corrected_keeps
    | with_reducible apply State.bump_keeps | with_reducible apply State.uncorrectable_keeps
    | with_reducible apply KeepsO.getD | with_reducible apply Keeps.ite
    | (with_reducible apply Keeps.forEach; rotate_left; intro s a) | simp only [Keeps.mk_iff] | split
    | (dsimp +zetaDelta only))

theorem State.injMade_keeps {z0 : State} (s : State) (hk : Keeps z0 s) :
    Keeps z0 (State.injMade s) := by
  unfold State.injMade
  repeat' (first
    | extract_lets | with_reducible assumption | with_reducible apply Keeps.refl | with_reducible apply True.intro
    | with_reducible apply State.setFld_keeps | with_reducible apply KeepsO.getD | with_reducible apply Keeps.ite
    | (with_reducible apply Keeps.forEach; rotate_left; intro s a) | simp only [Keeps.mk_iff] | split
    | (dsimp +zetaDelta only))

theorem State.rasError_keeps {z0 : State} (s : State) (hk : Keeps z0 s) :
    Keeps z0 (State.rasError s) := by
  unfold State.rasError
  repeat' (first
    | extract_lets | with_reducible assumption | with_reducible apply Keeps.refl | with_reducible apply True.intro
    | with_reducible apply State.drawn_keeps | with_reducible apply KeepsO.getD | with_reducible apply Keeps.ite
    | (with_reducible apply Keeps.forEach; rotate_left; intro s a) | simp only [Keeps.mk_iff] | split
    | (dsimp +zetaDelta only))

theorem State.inactive_keeps {z0 : State} (s : State) (hk : Keeps z0 s) :
    Keeps z0 (State.inactive s) := by
  unfold State.inactive
  repeat' (first
    | extract_lets | with_reducible assumption | with_reducible apply Keeps.refl | with_reducible apply True.intro
    | with_reducible apply State.bump_keeps | with_reducible apply KeepsO.getD | with_reducible apply Keeps.ite
    | (with_reducible apply Keeps.forEach; rotate_left; intro s a) | simp only [Keeps.mk_iff] | split
    | (dsimp +zetaDelta only))

theorem State.poisonAnswer_keeps {z0 : State} (s : State) (host : Bool) (n : Nat) (hk : Keeps z0 s) :
    Keeps z0 (State.poisonAnswer s host n) := by
  unfold State.poisonAnswer
  repeat' (first
    | extract_lets | with_reducible assumption | with_reducible apply Keeps.refl | with_reducible apply True.intro
    | with_reducible apply State.inactive_keeps | with_reducible apply State.bump_keeps
    | with_reducible apply State.drawn_keeps | with_reducible apply KeepsO.getD | with_reducible apply Keeps.ite
    | (with_reducible apply Keeps.forEach; rotate_left; intro s a) | simp only [Keeps.mk_iff] | split
    | (dsimp +zetaDelta only))

theorem State.cacheRead_keeps {z : State} (s : State) (check : LineCheck) (hk : Keeps z s) : Keeps z (s.cacheRead check).1 := by
  unfold State.cacheRead
  repeat' (first
    | extract_lets | with_reducible assumption | with_reducible apply Keeps.refl | with_reducible apply True.intro
    | with_reducible apply State.injMade_keeps | with_reducible apply State.uncorrectable_keeps
    | with_reducible apply State.rasError_keeps | with_reducible apply KeepsO.getD | with_reducible apply Keeps.ite
    | (with_reducible apply Keeps.forEach; rotate_left; intro s a) | simp only [Keeps.mk_iff] | split
    | (dsimp +zetaDelta only))

theorem State.cacheRead_keeps_eq {z : State} (s : State) (check : LineCheck) {q} (hk : Keeps z s) (w : s.cacheRead check = q) : Keeps z q.1 := by
  subst w; exact State.cacheRead_keeps (hk := hk) ..

theorem State.checkWord_keeps {z : State} (s : State) (host : Bool) (a : Nat) (c : LineCheck) (hk : Keeps z s) : Keeps z (s.checkWord host a c).1 := by
  unfold State.checkWord
  repeat' (first
    | extract_lets | with_reducible assumption | with_reducible apply Keeps.refl | with_reducible apply True.intro
    | with_reducible apply State.checkAt_keeps | with_reducible apply State.cacheRead_keeps
    | with_reducible refine State.cacheRead_keeps_eq (w := by assumption) (hk := ?_) ..
    | with_reducible apply KeepsO.getD | with_reducible apply Keeps.ite
    | (with_reducible apply Keeps.forEach; rotate_left; intro s a) | simp only [Keeps.mk_iff] | split
    | (dsimp +zetaDelta only))

theorem State.checkWord_keeps_eq {z : State} (s : State) (host : Bool) (a : Nat) (c : LineCheck) {q} (hk : Keeps z s) (w : s.checkWord host a c = q) : Keeps z q.1 := by
  subst w; exact State.checkWord_keeps (hk := hk) ..

theorem State.larderInvalidate_keeps {z0 : State} (s : State) (a : Nat) (hk : Keeps z0 s) :
    Keeps z0 (State.larderInvalidate s a) := by
  unfold State.larderInvalidate
  repeat' (first
    | extract_lets | with_reducible assumption | with_reducible apply Keeps.refl | with_reducible apply True.intro
    | with_reducible apply State.setBay_keeps | with_reducible apply State.bump_keeps
    | with_reducible apply KeepsO.getD | with_reducible apply Keeps.ite
    | (with_reducible apply Keeps.forEach; rotate_left; intro s a) | simp only [Keeps.mk_iff] | split
    | (dsimp +zetaDelta only))

theorem State.evalWaiters_keeps {z0 : State} (s : State) (polled : Bool) (bays : List Nat) (host : Bool) (a : Nat) (hk : Keeps z0 s) :
    Keeps z0 (State.evalWaiters s polled bays host a) := by
  unfold State.evalWaiters
  repeat' (first
    | extract_lets | with_reducible assumption | with_reducible apply Keeps.refl | with_reducible apply True.intro
    | with_reducible apply KeepsO.getD | with_reducible apply Keeps.ite
    | (with_reducible apply Keeps.forEach; rotate_left; intro s a) | simp only [Keeps.mk_iff] | split
    | (dsimp +zetaDelta only))

theorem State.reportWrite_keeps {z0 : State} (s : State) (a n : Nat) (hk : Keeps z0 s) :
    Keeps z0 (State.reportWrite s a n) := by
  unfold State.reportWrite
  repeat' (first
    | extract_lets | with_reducible assumption | with_reducible apply Keeps.refl | with_reducible apply True.intro
    | with_reducible apply State.evalWaiters_keeps | with_reducible apply KeepsO.getD
    | with_reducible apply Keeps.ite | (with_reducible apply Keeps.forEach; rotate_left; intro s a)
    | simp only [Keeps.mk_iff] | split | (dsimp +zetaDelta only))

theorem State.applyPart_keeps {z0 : State} (s : State) (a : Nat) (d : List Byte) (hk : Keeps z0 s) :
    Keeps z0 (State.applyPart s a d) := by
  unfold State.applyPart
  repeat' (first
    | extract_lets | with_reducible assumption | with_reducible apply Keeps.refl | with_reducible apply True.intro
    | with_reducible apply State.store_keeps | with_reducible apply State.setPoison_keeps
    | with_reducible apply State.larderInvalidate_keeps | with_reducible apply State.reportWrite_keeps
    | with_reducible apply KeepsO.getD | with_reducible apply Keeps.ite
    | (with_reducible apply Keeps.forEach; rotate_left; intro s a)
    | ((with_reducible apply Keeps.foldl) <;> [(intro r a); skip]) | simp only [Keeps.mk_iff] | split
    | (dsimp +zetaDelta only))

theorem State.sendInv_keeps {z0 : State} (s : State) (line : Nat) (hk : Keeps z0 s) :
    Keeps z0 (State.sendInv s line) := by
  unfold State.sendInv
  repeat' (first
    | extract_lets | with_reducible assumption | with_reducible apply Keeps.refl | with_reducible apply True.intro
    | with_reducible apply KeepsO.getD | with_reducible apply Keeps.ite
    | (with_reducible apply Keeps.forEach; rotate_left; intro s a) | simp only [Keeps.mk_iff] | split
    | (dsimp +zetaDelta only))

theorem State.holdOp_keeps {z0 : State} (s : State) (a : Nat) (op : HeldOp) (hk : Keeps z0 s) :
    Keeps z0 (State.holdOp s a op) := by
  unfold State.holdOp
  repeat' (first
    | extract_lets | with_reducible assumption | with_reducible apply Keeps.refl | with_reducible apply True.intro
    | with_reducible apply State.sendInv_keeps | with_reducible apply KeepsO.getD | with_reducible apply Keeps.ite
    | (with_reducible apply Keeps.forEach; rotate_left; intro s a) | simp only [Keeps.mk_iff] | split
    | (dsimp +zetaDelta only))

theorem State.byThread_keeps {z : State} (t : Nat) (s s' : State) (hk : Keeps z s') : Keeps z (State.byThread t s s') :=
  Keeps.mk' hk ..

theorem State.writePart_keeps {z0 : State} (s : State) (a : Nat) (d : List Byte) (hk : Keeps z0 s) :
    Keeps z0 (State.writePart s a d) := by
  unfold State.writePart
  repeat' (first
    | extract_lets | with_reducible assumption | with_reducible apply Keeps.refl | with_reducible apply True.intro
    | with_reducible apply State.holdOp_keeps | with_reducible apply State.applyPart_keeps
    | with_reducible apply KeepsO.getD | with_reducible apply Keeps.ite
    | (with_reducible apply Keeps.forEach; rotate_left; intro s a) | simp only [Keeps.mk_iff] | split
    | (dsimp +zetaDelta only))

theorem State.devWrite_keeps {z0 : State} (s : State) (a : Nat) (d : List Byte) (hk : Keeps z0 s) :
    Keeps z0 (State.devWrite s a d) := by
  unfold State.devWrite
  repeat' (first
    | extract_lets | with_reducible assumption | with_reducible apply Keeps.refl | with_reducible apply True.intro
    | with_reducible apply State.writePart_keeps | with_reducible apply KeepsO.getD | with_reducible apply Keeps.ite
    | (with_reducible apply Keeps.forEach; rotate_left; intro s a) | simp only [Keeps.mk_iff] | split
    | (dsimp +zetaDelta only))

theorem State.hostWrite_keeps {z0 : State} (s : State) (a : Nat) (d : List Byte) (hk : Keeps z0 s) :
    Keeps z0 (State.hostWrite s a d) := by
  unfold State.hostWrite
  repeat' (first
    | extract_lets | with_reducible assumption | with_reducible apply Keeps.refl | with_reducible apply True.intro
    | with_reducible apply State.hostStore_keeps | with_reducible apply State.evalWaiters_keeps
    | with_reducible apply KeepsO.getD | with_reducible apply Keeps.ite
    | (with_reducible apply Keeps.forEach; rotate_left; intro s a) | simp only [Keeps.mk_iff] | split
    | (dsimp +zetaDelta only))

theorem State.writeLoc_keeps {z0 : State} (s : State) (host : Bool) (a : Nat) (d : List Byte) (hk : Keeps z0 s) :
    Keeps z0 (State.writeLoc s host a d) := by
  unfold State.writeLoc
  repeat' (first
    | extract_lets | with_reducible assumption | with_reducible apply Keeps.refl | with_reducible apply True.intro
    | with_reducible apply State.hostWrite_keeps | with_reducible apply State.devWrite_keeps
    | with_reducible apply KeepsO.getD | with_reducible apply Keeps.ite
    | (with_reducible apply Keeps.forEach; rotate_left; intro s a) | simp only [Keeps.mk_iff] | split
    | (dsimp +zetaDelta only))

theorem State.writeWord_keeps {z0 : State} (s : State) (host : Bool) (a v : Nat) (hk : Keeps z0 s) :
    Keeps z0 (State.writeWord s host a v) := by
  unfold State.writeWord
  repeat' (first
    | extract_lets | with_reducible assumption | with_reducible apply Keeps.refl | with_reducible apply True.intro
    | with_reducible apply State.writeLoc_keeps | with_reducible apply KeepsO.getD | with_reducible apply Keeps.ite
    | (with_reducible apply Keeps.forEach; rotate_left; intro s a) | simp only [Keeps.mk_iff] | split
    | (dsimp +zetaDelta only))

theorem State.signalAdd_keeps {z : State} (s : State) (host : Bool) (a n bay : Nat) (hk : Keeps z s) : KeepsO z (s.signalAdd host a n bay) := by
  unfold State.signalAdd
  repeat' (first
    | extract_lets | with_reducible assumption | with_reducible apply Keeps.refl | with_reducible apply True.intro
    | with_reducible apply State.holdOp_keeps | with_reducible apply State.writeWord_keeps
    | with_reducible apply State.bump_keeps | with_reducible apply State.event_keeps
    | with_reducible apply KeepsO.mk | with_reducible apply KeepsO.mkNone | with_reducible apply KeepsO.ite
    | with_reducible apply KeepsO.getD | with_reducible apply Keeps.ite
    | (with_reducible apply Keeps.forEach; rotate_left; intro s a) | simp only [Keeps.mk_iff] | split
    | (dsimp +zetaDelta only))

theorem State.signalAdd_keeps_some {z : State} (s : State) (host : Bool) (a n bay : Nat) {t : State} (w : s.signalAdd host a n bay = some t) (hk : Keeps z s) : Keeps z t :=
  KeepsO.some (State.signalAdd_keeps (hk := hk) ..) w

theorem State.consumeWord_keeps {z : State} (s : State) (host : Bool) (a c bay ctx sid : Nat) (hk : Keeps z s) : KeepsO z (s.consumeWord host a c bay ctx sid) := by
  unfold State.consumeWord
  repeat' (first
    | extract_lets | with_reducible assumption | with_reducible apply Keeps.refl | with_reducible apply True.intro
    | with_reducible apply State.holdOp_keeps | with_reducible apply State.writeWord_keeps
    | with_reducible apply State.bump_keeps | with_reducible apply State.event_keeps
    | with_reducible apply KeepsO.mk | with_reducible apply KeepsO.mkNone | with_reducible apply KeepsO.ite
    | with_reducible apply KeepsO.getD | with_reducible apply Keeps.ite
    | (with_reducible apply Keeps.forEach; rotate_left; intro s a) | simp only [Keeps.mk_iff] | split
    | (dsimp +zetaDelta only))

theorem State.consumeWord_keeps_some {z : State} (s : State) (host : Bool) (a c bay ctx sid : Nat) {t : State} (w : s.consumeWord host a c bay ctx sid = some t) (hk : Keeps z s) : Keeps z t :=
  KeepsO.some (State.consumeWord_keeps (hk := hk) ..) w

theorem State.deliverLost_keeps {z0 : State} (s : State) (a src flow : Nat) (hk : Keeps z0 s) :
    Keeps z0 (State.deliverLost s a src flow) := by
  unfold State.deliverLost
  repeat' (first
    | extract_lets | with_reducible assumption | with_reducible apply Keeps.refl | with_reducible apply True.intro
    | with_reducible apply State.holdOp_keeps | with_reducible apply State.writeWord_keeps
    | with_reducible apply State.bump_keeps | with_reducible apply State.event_keeps
    | with_reducible apply KeepsO.getD | with_reducible apply Keeps.ite
    | (with_reducible apply Keeps.forEach; rotate_left; intro s a) | simp only [Keeps.mk_iff] | split
    | (dsimp +zetaDelta only))

theorem State.translate_keeps {z : State} (s : State) (b c v : Nat) (hk : Keeps z s) : KeepsO z (s.translate b c v) := by
  unfold State.translate
  repeat' (first
    | extract_lets | with_reducible assumption | with_reducible apply Keeps.refl | with_reducible apply True.intro
    | with_reducible apply State.setBay_keeps | with_reducible apply KeepsO.mk | with_reducible apply KeepsO.mkNone
    | with_reducible apply KeepsO.ite | with_reducible apply KeepsO.getD | with_reducible apply Keeps.ite
    | (with_reducible apply Keeps.forEach; rotate_left; intro s a) | simp only [Keeps.mk_iff] | split
    | (dsimp +zetaDelta only))

theorem State.translate_keeps_some {z : State} (s : State) (b c v : Nat) {t : State} (w : s.translate b c v = some t) (hk : Keeps z s) : Keeps z t :=
  KeepsO.some (State.translate_keeps (hk := hk) ..) w

theorem State.writePieces_keeps {z : State} (s : State) (ps : List Piece) (d : List Byte) (hk : Keeps z s) :
    Keeps z (s.writePieces ps d) := by
  induction ps generalizing s d with
  | nil => exact hk
  | cons p r ih => exact ih _ _ (State.writeLoc_keeps _ _ _ _ hk)

theorem State.writeVirt_keeps {z : State} (s : State) (c : Ctx) (va : Nat) (d : List Byte) (hk : Keeps z s) : KeepsE (fun s => s) z (s.writeVirt c va d) := by
  unfold State.writeVirt
  cases c.pieces true va d.length with
  | error e => exact True.intro
  | ok ps => exact State.writePieces_keeps _ _ _ hk

theorem State.writeVirt_keeps_ok {z : State} (s : State) (c : Ctx) (va : Nat) (d : List Byte) {u0 : State} (w : s.writeVirt c va d = .ok u0) (hk : Keeps z s) : Keeps z ((fun s => s) u0) :=
  KeepsE.ok (State.writeVirt_keeps (hk := hk) ..) w

theorem State.setFull_keeps {z0 : State} (s : State) (a : Nat) (v : Bool) (hk : Keeps z0 s) :
    Keeps z0 (State.setFull s a v) := by
  unfold State.setFull
  repeat' (first
    | extract_lets | with_reducible assumption | with_reducible apply Keeps.refl | with_reducible apply True.intro
    | with_reducible apply KeepsO.getD | with_reducible apply Keeps.ite
    | (with_reducible apply Keeps.forEach; rotate_left; intro s a) | simp only [Keeps.mk_iff] | split
    | (dsimp +zetaDelta only))

theorem State.setReserved_keeps {z0 : State} (s : State) (a v : Nat) (hk : Keeps z0 s) :
    Keeps z0 (State.setReserved s a v) := by
  unfold State.setReserved
  repeat' (first
    | extract_lets | with_reducible assumption | with_reducible apply Keeps.refl | with_reducible apply True.intro
    | with_reducible apply KeepsO.getD | with_reducible apply Keeps.ite
    | (with_reducible apply Keeps.forEach; rotate_left; intro s a) | simp only [Keeps.mk_iff] | split
    | (dsimp +zetaDelta only))

end Sys2Proof.Machine
end

