-- ==== Sys2Proof/Laws/KeepOperands.lean ====
section
/-! SUPPORT. What the definitions of Machine/Operands.lean keep (Keeps, Laws/Keep.lean). -/

set_option linter.all false

namespace Sys2Proof.Machine

theorem writeItem_keeps {z : State} (s : State) (c : Ctx) (i : Item) (d : List Byte) (hk : Keeps z s) : KeepsE (fun s => s) z (writeItem s c i d) := by
  unfold writeItem
  repeat' (first
    | extract_lets | with_reducible assumption | with_reducible apply Keeps.refl | with_reducible apply True.intro
    | with_reducible apply State.writeVirt_keeps
    | with_reducible refine State.writeVirt_keeps_ok (w := by assumption) (hk := ?_) ..
    | with_reducible apply KeepsE.mk | with_reducible apply KeepsE.mkError | with_reducible apply KeepsR.mk
    | with_reducible apply KeepsR.mkError | with_reducible apply KeepsR.mkPure
    | with_reducible apply KeepsR.readState | with_reducible apply KeepsR.readPair | with_reducible apply KeepsR.map
    | with_reducible apply KeepsR.read | with_reducible apply KeepsR.orFaultValue
    | (with_reducible apply KeepsR.orFault) | (with_reducible apply KeepsR.foldRun) <;> [(intro s a); skip]
    | with_reducible apply KeepsR.mapM | with_reducible apply KeepsR.ite | with_reducible apply KeepsR.bindState
    | with_reducible apply KeepsR.bindPair | with_reducible apply KeepsR.readAll | intro _
    | with_reducible apply KeepsO.getD | with_reducible apply Keeps.ite
    | (with_reducible apply Keeps.forEach; rotate_left; intro s a) | simp only [Keeps.mk_iff] | split
    | (dsimp +zetaDelta only))

theorem writeItem_keeps_ok {z : State} (s : State) (c : Ctx) (i : Item) (d : List Byte) {u0 : State} (w : writeItem s c i d = .ok u0) (hk : Keeps z s) : Keeps z ((fun s => s) u0) :=
  KeepsE.ok (writeItem_keeps (hk := hk) ..) w

end Sys2Proof.Machine
end

