-- ==== Sys2Proof/Laws/KeepContexts.lean ====
section
/-! SUPPORT. What the definitions of Machine/Contexts.lean keep (Keeps, Laws/Keep.lean). -/

set_option linter.all false

namespace Sys2Proof.Machine

theorem State.putStatus_keeps {z0 : State} (s : State) (c : Nat) (hk : Keeps z0 s) :
    Keeps z0 (State.putStatus s c) := by
  unfold State.putStatus
  repeat' (first
    | extract_lets | with_reducible assumption | with_reducible apply Keeps.refl | with_reducible apply True.intro
    | with_reducible apply State.writeWord_keeps | with_reducible apply KeepsO.getD | with_reducible apply Keeps.ite
    | (with_reducible apply Keeps.forEach; rotate_left; intro s a) | simp only [Keeps.mk_iff] | split
    | (dsimp +zetaDelta only))

theorem State.setCtxSt_keeps {z0 : State} (s : State) (c : Nat) (st : CtxState) (hk : Keeps z0 s) :
    Keeps z0 (State.setCtxSt s c st) := by
  unfold State.setCtxSt
  repeat' (first
    | extract_lets | with_reducible assumption | with_reducible apply Keeps.refl | with_reducible apply True.intro
    | with_reducible apply State.modCtx_keeps | with_reducible apply State.putStatus_keeps
    | with_reducible apply KeepsO.getD | with_reducible apply Keeps.ite
    | (with_reducible apply Keeps.forEach; rotate_left; intro s a) | simp only [Keeps.mk_iff] | split
    | (dsimp +zetaDelta only))

theorem State.setWarn_keeps {z0 : State} (s : State) (c : Nat) (hk : Keeps z0 s) :
    Keeps z0 (State.setWarn s c) := by
  unfold State.setWarn
  repeat' (first
    | extract_lets | with_reducible assumption | with_reducible apply Keeps.refl | with_reducible apply True.intro
    | with_reducible apply State.modCtx_keeps | with_reducible apply State.putStatus_keeps
    | with_reducible apply KeepsO.getD | with_reducible apply Keeps.ite
    | (with_reducible apply Keeps.forEach; rotate_left; intro s a) | simp only [Keeps.mk_iff] | split
    | (dsimp +zetaDelta only))

theorem State.publish_keeps {z0 : State} (s : State) (c : Nat) (hk : Keeps z0 s) :
    Keeps z0 (State.publish s c) := by
  unfold State.publish
  repeat' (first
    | extract_lets | with_reducible assumption | with_reducible apply Keeps.refl | with_reducible apply True.intro
    | with_reducible apply State.modCtx_keeps | with_reducible apply State.writeWord_keeps
    | with_reducible apply KeepsO.getD | with_reducible apply Keeps.ite
    | (with_reducible apply Keeps.forEach; rotate_left; intro s a)
    | ((with_reducible apply Keeps.foldl) <;> [(intro r a); skip]) | simp only [Keeps.mk_iff] | split
    | (dsimp +zetaDelta only))

theorem State.refreshCtx_keeps {z0 : State} (s : State) (c : Nat) (hk : Keeps z0 s) :
    Keeps z0 (State.refreshCtx s c) := by
  unfold State.refreshCtx
  repeat' (first
    | extract_lets | with_reducible assumption | with_reducible apply Keeps.refl | with_reducible apply True.intro
    | with_reducible apply State.setCtxSt_keeps | with_reducible apply KeepsO.getD | with_reducible apply Keeps.ite
    | (with_reducible apply Keeps.forEach; rotate_left; intro s a) | simp only [Keeps.mk_iff] | split
    | (dsimp +zetaDelta only))

theorem State.ctxFault_keeps {z0 : State} (s : State) (c code step thread : Nat) (uk : UnitKind) (uid stepctr : Nat) (hk : Keeps z0 s) :
    Keeps z0 (State.ctxFault s c code step thread uk uid stepctr) := by
  unfold State.ctxFault
  repeat' (first
    | extract_lets | with_reducible assumption | with_reducible apply Keeps.refl | with_reducible apply True.intro
    | with_reducible apply State.modCtx_keeps | with_reducible apply State.bump_keeps
    | with_reducible apply State.event_keeps | with_reducible apply State.putStatus_keeps
    | with_reducible apply KeepsO.getD | with_reducible apply Keeps.ite
    | (with_reducible apply Keeps.forEach; rotate_left; intro s a) | simp only [Keeps.mk_iff] | split
    | (dsimp +zetaDelta only))

theorem State.cleanEntry_keeps {z0 : State} (s : State) (c : Nat) (hk : Keeps z0 s) :
    Keeps z0 (State.cleanEntry s c) := by
  unfold State.cleanEntry
  repeat' (first
    | extract_lets | with_reducible assumption | with_reducible apply Keeps.refl | with_reducible apply True.intro
    | with_reducible apply KeepsO.getD | with_reducible apply Keeps.ite
    | (with_reducible apply Keeps.forEach; rotate_left; intro s a) | simp only [Keeps.mk_iff] | split
    | (dsimp +zetaDelta only))

theorem State.cacheCtx_keeps_there {z : State} {s : State} {b c : Nat} {t : State} (w : s.cacheCtx b c = .there t) (hk : Keeps z s) :
    Keeps z t := by
  unfold State.cacheCtx at w
  dsimp only at w
  split at w
  · cases w; exact State.setBay_keeps _ _ _ hk
  · split at w
    · cases w
    · split at w
      · cases w; exact State.setBay_keeps _ _ _ hk
      · split at w
        · cases w
        · cases w; exact State.setBay_keeps _ _ _ hk

theorem State.threadMemoryFault_keeps {z0 : State} (s : State) (t : Nat) (hk : Keeps z0 s) :
    Keeps z0 (State.threadMemoryFault s t) := by
  unfold State.threadMemoryFault
  repeat' (first
    | extract_lets | with_reducible assumption | with_reducible apply Keeps.refl | with_reducible apply True.intro
    | with_reducible apply State.ctxFault_keeps | with_reducible apply KeepsO.getD | with_reducible apply Keeps.ite
    | (with_reducible apply Keeps.forEach; rotate_left; intro s a) | simp only [Keeps.mk_iff] | split
    | (dsimp +zetaDelta only))

theorem State.makeReady_keeps {z0 : State} (s : State) (t : Nat) (hk : Keeps z0 s) :
    Keeps z0 (State.makeReady s t) := by
  unfold State.makeReady
  repeat' (first
    | extract_lets | with_reducible assumption | with_reducible apply Keeps.refl | with_reducible apply True.intro
    | with_reducible apply State.modThread_keeps | with_reducible apply State.threadMemoryFault_keeps
    | with_reducible refine State.cacheCtx_keeps_there (w := by assumption) (hk := ?_) ..
    | with_reducible apply KeepsO.getD | with_reducible apply Keeps.ite
    | (with_reducible apply Keeps.forEach; rotate_left; intro s a) | simp only [Keeps.mk_iff] | split
    | (dsimp +zetaDelta only))

theorem State.dropXlats_keeps {z0 : State} (s : State) (c : Nat) (hk : Keeps z0 s) :
    Keeps z0 (State.dropXlats s c) := by
  unfold State.dropXlats
  repeat' (first
    | extract_lets | with_reducible assumption | with_reducible apply Keeps.refl | with_reducible apply True.intro
    | with_reducible apply State.modBay_keeps | with_reducible apply KeepsO.getD | with_reducible apply Keeps.ite
    | (with_reducible apply Keeps.forEach; rotate_left; intro s a) | simp only [Keeps.mk_iff] | split
    | (dsimp +zetaDelta only))

theorem State.takeReadySlot_keeps {z0 : State} (s : State) (b c : Nat) (hk : Keeps z0 s) :
    Keeps z0 (State.takeReadySlot s b c) := by
  unfold State.takeReadySlot
  repeat' (first
    | extract_lets | with_reducible assumption | with_reducible apply Keeps.refl | with_reducible apply True.intro
    | with_reducible apply State.setBay_keeps | with_reducible apply KeepsO.getD | with_reducible apply Keeps.ite
    | (with_reducible apply Keeps.forEach; rotate_left; intro s a) | simp only [Keeps.mk_iff] | split
    | (dsimp +zetaDelta only))

theorem State.dropReadySlot_keeps {z0 : State} (s : State) (b c : Nat) (hk : Keeps z0 s) :
    Keeps z0 (State.dropReadySlot s b c) := by
  unfold State.dropReadySlot
  repeat' (first
    | extract_lets | with_reducible assumption | with_reducible apply Keeps.refl | with_reducible apply True.intro
    | with_reducible apply State.modBay_keeps | with_reducible apply KeepsO.getD | with_reducible apply Keeps.ite
    | (with_reducible apply Keeps.forEach; rotate_left; intro s a) | simp only [Keeps.mk_iff] | split
    | (dsimp +zetaDelta only))

theorem State.dropStreams_keeps {z0 : State} (s : State) (t : Nat) (uid : Option Nat) (hk : Keeps z0 s) :
    Keeps z0 (State.dropStreams s t uid) := by
  unfold State.dropStreams
  repeat' (first
    | extract_lets | with_reducible assumption | with_reducible apply Keeps.refl | with_reducible apply True.intro
    | with_reducible apply State.setBay_keeps | with_reducible apply KeepsO.getD | with_reducible apply Keeps.ite
    | (with_reducible apply Keeps.forEach; rotate_left; intro s a) | simp only [Keeps.mk_iff] | split
    | (dsimp +zetaDelta only))

theorem State.dropSteps_keeps {z0 : State} (s : State) (t : Nat) (uid : Option Nat) (hk : Keeps z0 s) :
    Keeps z0 (State.dropSteps s t uid) := by
  unfold State.dropSteps
  repeat' (first
    | extract_lets | with_reducible assumption | with_reducible apply Keeps.refl | with_reducible apply True.intro
    | with_reducible apply State.dropStreams_keeps | with_reducible apply State.modThread_keeps
    | with_reducible apply KeepsO.getD | with_reducible apply Keeps.ite
    | (with_reducible apply Keeps.forEach; rotate_left; intro s a)
    | ((with_reducible apply Keeps.foldl) <;> [(intro r a); skip]) | simp only [Keeps.mk_iff] | split
    | (dsimp +zetaDelta only))

theorem State.stepFault_keeps {z0 : State} (s : State) (t code pc stepctr : Nat) (hk : Keeps z0 s) :
    Keeps z0 (State.stepFault s t code pc stepctr) := by
  unfold State.stepFault
  repeat' (first
    | extract_lets | with_reducible assumption | with_reducible apply Keeps.refl | with_reducible apply True.intro
    | with_reducible apply State.ctxFault_keeps | with_reducible apply State.dropSteps_keeps
    | with_reducible apply KeepsO.getD | with_reducible apply Keeps.ite
    | (with_reducible apply Keeps.forEach; rotate_left; intro s a) | simp only [Keeps.mk_iff] | split
    | (dsimp +zetaDelta only))

theorem State.commitConsumes_keeps {z : State} (s : State) (t : Nat) (hk : Keeps z s) : Keeps z (s.commitConsumes t).1 := by
  unfold State.commitConsumes
  extract_lets th x r
  dsimp only
  refine State.modThread_keeps _ _ _ ?_
  apply Keeps.foldl
  · intro r a
    split
    · exact Keeps.refl _
    · split
      · split
        · exact State.consumeWord_keeps_some (w := by assumption) (hk := Keeps.refl _) ..
        · exact Keeps.refl _
      · exact Keeps.refl _
  · exact hk

theorem State.commitConsumes_keeps_eq {z : State} (s : State) (t : Nat) {q} (hk : Keeps z s) (w : s.commitConsumes t = q) : Keeps z q.1 := by
  subst w; exact State.commitConsumes_keeps (hk := hk) ..

theorem State.commitTakes_keeps {z0 : State} (s : State) (t : Nat) (hk : Keeps z0 s) :
    Keeps z0 (State.commitTakes s t) := by
  unfold State.commitTakes
  repeat' (first
    | extract_lets | with_reducible assumption | with_reducible apply Keeps.refl | with_reducible apply True.intro
    | with_reducible apply State.setFull_keeps | with_reducible apply State.setReserved_keeps
    | with_reducible apply State.modThread_keeps | with_reducible apply KeepsO.getD | with_reducible apply Keeps.ite
    | (with_reducible apply Keeps.forEach; rotate_left; intro s a) | simp only [Keeps.mk_iff] | split
    | (dsimp +zetaDelta only))

theorem State.releaseTakes_keeps {z0 : State} (s : State) (t : Nat) (hk : Keeps z0 s) :
    Keeps z0 (State.releaseTakes s t) := by
  unfold State.releaseTakes
  repeat' (first
    | extract_lets | with_reducible assumption | with_reducible apply Keeps.refl | with_reducible apply True.intro
    | with_reducible apply State.setReserved_keeps | with_reducible apply State.modThread_keeps
    | with_reducible apply KeepsO.getD | with_reducible apply Keeps.ite
    | (with_reducible apply Keeps.forEach; rotate_left; intro s a) | simp only [Keeps.mk_iff] | split
    | (dsimp +zetaDelta only))

theorem State.endThread_keeps {z0 : State} (s : State) (t : Nat) (hk : Keeps z0 s) :
    Keeps z0 (State.endThread s t) := by
  unfold State.endThread
  repeat' (first
    | extract_lets | with_reducible assumption | with_reducible apply Keeps.refl | with_reducible apply True.intro
    | with_reducible apply State.commitTakes_keeps | with_reducible apply State.ctxFault_keeps
    | with_reducible apply State.setThread_keeps | with_reducible apply State.modCtx_keeps
    | with_reducible apply State.publish_keeps | with_reducible apply State.dropReadySlot_keeps
    | with_reducible apply State.refreshCtx_keeps | with_reducible apply State.commitConsumes_keeps
    | with_reducible refine State.commitConsumes_keeps_eq (w := by assumption) (hk := ?_) ..
    | with_reducible apply KeepsO.getD | with_reducible apply Keeps.ite
    | (with_reducible apply Keeps.forEach; rotate_left; intro s a) | simp only [Keeps.mk_iff] | split
    | (dsimp +zetaDelta only))

theorem State.withdrawTagged_keeps {z0 : State} (s : State) (t : Nat) (puts : Bool) (hk : Keeps z0 s) :
    Keeps z0 (State.withdrawTagged s t puts) := by
  unfold State.withdrawTagged
  repeat' (first
    | extract_lets | with_reducible assumption | with_reducible apply Keeps.refl | with_reducible apply True.intro
    | with_reducible apply KeepsO.getD | with_reducible apply Keeps.ite
    | (with_reducible apply Keeps.forEach; rotate_left; intro s a) | simp only [Keeps.mk_iff] | split
    | (dsimp +zetaDelta only))

theorem State.idleThread_keeps {z0 : State} (s : State) (t : Nat) (hk : Keeps z0 s) :
    Keeps z0 (State.idleThread s t) := by
  unfold State.idleThread
  repeat' (first
    | extract_lets | with_reducible assumption | with_reducible apply Keeps.refl | with_reducible apply True.intro
    | with_reducible apply State.dropSteps_keeps | with_reducible apply State.releaseTakes_keeps
    | with_reducible apply State.withdrawTagged_keeps | with_reducible apply State.setThread_keeps
    | with_reducible apply State.modCtx_keeps | with_reducible apply State.dropReadySlot_keeps
    | with_reducible apply KeepsO.getD | with_reducible apply Keeps.ite
    | (with_reducible apply Keeps.forEach; rotate_left; intro s a) | simp only [Keeps.mk_iff] | split
    | (dsimp +zetaDelta only))

theorem State.rewindThread_keeps {z0 : State} (s : State) (t : Nat) (hk : Keeps z0 s) :
    Keeps z0 (State.rewindThread s t) := by
  unfold State.rewindThread
  repeat' (first
    | extract_lets | with_reducible assumption | with_reducible apply Keeps.refl | with_reducible apply True.intro
    | with_reducible apply State.dropSteps_keeps | with_reducible apply State.releaseTakes_keeps
    | with_reducible apply State.withdrawTagged_keeps | with_reducible apply State.threadMemoryFault_keeps
    | with_reducible apply State.makeReady_keeps | with_reducible apply State.modThread_keeps
    | with_reducible apply State.refreshCtx_keeps | with_reducible apply KeepsO.getD
    | with_reducible apply Keeps.ite | (with_reducible apply Keeps.forEach; rotate_left; intro s a)
    | simp only [Keeps.mk_iff] | split | (dsimp +zetaDelta only))

theorem State.finishCmd_keeps {z0 : State} (s : State) (p e : Nat) (seq : Option Nat) (result : Nat) (hk : Keeps z0 s) :
    Keeps z0 (State.finishCmd s p e seq result) := by
  unfold State.finishCmd
  repeat' (first
    | extract_lets | with_reducible assumption | with_reducible apply Keeps.refl | with_reducible apply True.intro
    | with_reducible apply State.setEntry_keeps | with_reducible apply State.putStatus_keeps
    | with_reducible apply KeepsO.getD | with_reducible apply Keeps.ite
    | (with_reducible apply Keeps.forEach; rotate_left; intro s a) | simp only [Keeps.mk_iff] | split
    | (dsimp +zetaDelta only))

theorem State.releaseSlots_keeps {z0 : State} (s : State) (c : Nat) (hk : Keeps z0 s) :
    Keeps z0 (State.releaseSlots s c) := by
  unfold State.releaseSlots
  repeat' (first
    | extract_lets | with_reducible assumption | with_reducible apply Keeps.refl | with_reducible apply True.intro
    | with_reducible apply State.modBay_keeps | with_reducible apply KeepsO.getD | with_reducible apply Keeps.ite
    | (with_reducible apply Keeps.forEach; rotate_left; intro s a) | simp only [Keeps.mk_iff] | split
    | (dsimp +zetaDelta only))

theorem State.freeCtx_keeps {z0 : State} (s : State) (c : Nat) (hk : Keeps z0 s) :
    Keeps z0 (State.freeCtx s c) := by
  unfold State.freeCtx
  repeat' (first
    | extract_lets | with_reducible assumption | with_reducible apply Keeps.refl | with_reducible apply True.intro
    | with_reducible apply State.releaseSlots_keeps | with_reducible apply State.setCtx_keeps
    | with_reducible apply State.cleanEntry_keeps | with_reducible apply State.putStatus_keeps
    | with_reducible apply State.writeWord_keeps | with_reducible apply KeepsO.getD | with_reducible apply Keeps.ite
    | (with_reducible apply Keeps.forEach; rotate_left; intro s a) | simp only [Keeps.mk_iff] | split
    | (dsimp +zetaDelta only))

theorem State.createThread_keeps {z0 : State} (s : State) (c i t pc : Nat) (hk : Keeps z0 s) :
    Keeps z0 (State.createThread s c i t pc) := by
  unfold State.createThread
  repeat' (first
    | extract_lets | with_reducible assumption | with_reducible apply Keeps.refl | with_reducible apply True.intro
    | with_reducible apply State.setThread_keeps | with_reducible apply State.makeReady_keeps
    | with_reducible apply State.modCtx_keeps | with_reducible apply State.takeReadySlot_keeps
    | with_reducible apply KeepsO.getD | with_reducible apply Keeps.ite
    | (with_reducible apply Keeps.forEach; rotate_left; intro s a) | simp only [Keeps.mk_iff] | split
    | (dsimp +zetaDelta only))

theorem State.createThreads_keeps {z0 : State} (s : State) (c : Nat) (hk : Keeps z0 s) :
    Keeps z0 (State.createThreads s c) := by
  unfold State.createThreads
  repeat' (first
    | extract_lets | with_reducible assumption | with_reducible apply Keeps.refl | with_reducible apply True.intro
    | with_reducible apply State.createThread_keeps | with_reducible apply KeepsO.getD
    | with_reducible apply Keeps.ite | (with_reducible apply Keeps.forEach; rotate_left; intro s a)
    | simp only [Keeps.mk_iff] | split | (dsimp +zetaDelta only))

theorem State.drainCtx_keeps {z0 : State} (s : State) (c dest : Nat) (cmd : Option (Nat × Option Nat)) (hk : Keeps z0 s) :
    Keeps z0 (State.drainCtx s c dest cmd) := by
  unfold State.drainCtx
  repeat' (first
    | extract_lets | with_reducible assumption | with_reducible apply Keeps.refl | with_reducible apply True.intro
    | with_reducible apply State.modCtx_keeps | with_reducible apply State.setCtxSt_keeps
    | with_reducible apply KeepsO.getD | with_reducible apply Keeps.ite
    | (with_reducible apply Keeps.forEach; rotate_left; intro s a) | simp only [Keeps.mk_iff] | split
    | (dsimp +zetaDelta only))

theorem State.endContext_keeps {z : State} (s : State) (c op : Nat) (hk : Keeps z s) : Keeps z (s.endContext c op).1 := by
  unfold State.endContext
  repeat' (first
    | extract_lets | with_reducible assumption | with_reducible apply Keeps.refl | with_reducible apply True.intro
    | with_reducible apply State.dropXlats_keeps | with_reducible apply State.modCtx_keeps
    | with_reducible apply State.setCtxSt_keeps | with_reducible apply State.freeCtx_keeps
    | with_reducible apply State.writeWord_keeps | with_reducible apply KeepsO.getD | with_reducible apply Keeps.ite
    | (with_reducible apply Keeps.forEach; rotate_left; intro s a) | simp only [Keeps.mk_iff] | split
    | (dsimp +zetaDelta only))

theorem State.endContext_keeps_eq {z : State} (s : State) (c op : Nat) {q} (hk : Keeps z s) (w : s.endContext c op = q) : Keeps z q.1 := by
  subst w; exact State.endContext_keeps (hk := hk) ..

theorem State.ctxDrained_keeps {z0 : State} (s : State) (c : Nat) (hk : Keeps z0 s) :
    Keeps z0 (State.ctxDrained s c) := by
  unfold State.ctxDrained
  repeat' (first
    | extract_lets | with_reducible assumption | with_reducible apply Keeps.refl | with_reducible apply True.intro
    | with_reducible apply State.idleThread_keeps | with_reducible apply State.modCtx_keeps
    | with_reducible apply State.setCtxSt_keeps | with_reducible apply State.finishCmd_keeps
    | with_reducible apply State.dropXlats_keeps | with_reducible apply State.freeCtx_keeps
    | with_reducible apply State.endContext_keeps
    | with_reducible refine State.endContext_keeps_eq (w := by assumption) (hk := ?_) ..
    | with_reducible apply KeepsO.getD | with_reducible apply Keeps.ite
    | (with_reducible apply Keeps.forEach; rotate_left; intro s a) | simp only [Keeps.mk_iff] | split
    | (dsimp +zetaDelta only))

end Sys2Proof.Machine
end

