-- ==== Sys2Proof/Laws/KeepFabric.lean ====
section
/-! SUPPORT. What the definitions of Machine/Fabric.lean keep (Keeps, Laws/Keep.lean). -/

set_option linter.all false

namespace Sys2Proof.Machine

theorem State.putOnFibre_keeps {z0 : State} (s : State) (p k : Nat) (f : Frame) (nak : Bool) (hk : Keeps z0 s) :
    Keeps z0 (State.putOnFibre s p k f nak) := by
  unfold State.putOnFibre
  repeat' (first
    | extract_lets | with_reducible assumption | with_reducible apply Keeps.refl | with_reducible apply True.intro
    | with_reducible apply State.setPort_keeps | with_reducible apply State.bump_keeps
    | with_reducible apply KeepsO.getD | with_reducible apply Keeps.ite
    | (with_reducible apply Keeps.forEach; rotate_left; intro s a) | simp only [Keeps.mk_iff] | split
    | (dsimp +zetaDelta only))

theorem State.sendIdle_keeps {z0 : State} (s : State) (p k : Nat) (nak : Bool) (hk : Keeps z0 s) :
    Keeps z0 (State.sendIdle s p k nak) := by
  unfold State.sendIdle
  repeat' (first
    | extract_lets | with_reducible assumption | with_reducible apply Keeps.refl | with_reducible apply True.intro
    | with_reducible apply State.putOnFibre_keeps | with_reducible apply KeepsO.getD
    | with_reducible apply Keeps.ite | (with_reducible apply Keeps.forEach; rotate_left; intro s a)
    | simp only [Keeps.mk_iff] | split | (dsimp +zetaDelta only))

theorem State.launch_keeps {z0 : State} (s : State) (p k : Nat) (f : Frame) (mode : Nat) (hk : Keeps z0 s) :
    Keeps z0 (State.launch s p k f mode) := by
  unfold State.launch
  repeat' (first
    | extract_lets | with_reducible assumption | with_reducible apply Keeps.refl | with_reducible apply True.intro
    | with_reducible apply State.setPort_keeps | with_reducible apply State.modPort_keeps
    | with_reducible apply State.putOnFibre_keeps | with_reducible apply KeepsO.getD
    | with_reducible apply Keeps.ite | (with_reducible apply Keeps.forEach; rotate_left; intro s a)
    | simp only [Keeps.mk_iff] | split | (dsimp +zetaDelta only))

theorem State.injSelect_keeps {z : State} (s : State) (p k : Nat) (f : Frame) (hk : Keeps z s) : Keeps z (s.injSelect p k f).1 := by
  unfold State.injSelect
  repeat' (first
    | extract_lets | with_reducible assumption | with_reducible apply Keeps.refl | with_reducible apply True.intro
    | with_reducible apply State.modPort_keeps | with_reducible apply State.setFld_keeps
    | with_reducible apply State.bump_keeps | with_reducible apply KeepsO.getD | with_reducible apply Keeps.ite
    | (with_reducible apply Keeps.forEach; rotate_left; intro s a) | simp only [Keeps.mk_iff] | split
    | (dsimp +zetaDelta only))

theorem State.injSelect_keeps_eq {z : State} (s : State) (p k : Nat) (f : Frame) {q} (hk : Keeps z s) (w : s.injSelect p k f = q) : Keeps z q.1 := by
  subst w; exact State.injSelect_keeps (hk := hk) ..

theorem State.injRelease_keeps {z0 : State} (s : State) (p k : Nat) (hk : Keeps z0 s) :
    Keeps z0 (State.injRelease s p k) := by
  unfold State.injRelease
  repeat' (first
    | extract_lets | with_reducible assumption | with_reducible apply Keeps.refl | with_reducible apply True.intro
    | with_reducible apply State.setPort_keeps | with_reducible apply State.launch_keeps
    | with_reducible apply KeepsO.getD | with_reducible apply Keeps.ite
    | (with_reducible apply Keeps.forEach; rotate_left; intro s a) | simp only [Keeps.mk_iff] | split
    | (dsimp +zetaDelta only))

theorem State.transmit_keeps {z0 : State} (s : State) (p k : Nat) (f : Frame) (hk : Keeps z0 s) :
    Keeps z0 (State.transmit s p k f) := by
  unfold State.transmit
  repeat' (first
    | extract_lets | with_reducible assumption | with_reducible apply Keeps.refl | with_reducible apply True.intro
    | with_reducible apply State.modPort_keeps | with_reducible apply State.launch_keeps
    | with_reducible apply State.injRelease_keeps | with_reducible apply State.injSelect_keeps
    | with_reducible refine State.injSelect_keeps_eq (w := by assumption) (hk := ?_) ..
    | with_reducible apply KeepsO.getD | with_reducible apply Keeps.ite
    | (with_reducible apply Keeps.forEach; rotate_left; intro s a) | simp only [Keeps.mk_iff] | split
    | (dsimp +zetaDelta only))

theorem State.giveCredit_keeps {z0 : State} (s : State) (p i : Nat) (hk : Keeps z0 s) :
    Keeps z0 (State.giveCredit s p i) := by
  unfold State.giveCredit
  repeat' (first
    | extract_lets | with_reducible assumption | with_reducible apply Keeps.refl | with_reducible apply True.intro
    | with_reducible apply State.modPort_keeps | with_reducible apply State.sendIdle_keeps
    | with_reducible apply KeepsO.getD | with_reducible apply Keeps.ite
    | (with_reducible apply Keeps.forEach; rotate_left; intro s a) | simp only [Keeps.mk_iff] | split
    | (dsimp +zetaDelta only))

theorem State.pump_keeps {z : State} (s : State) (p n : Nat) (hk : Keeps z s) : Keeps z (s.pump p n) := by
  induction n generalizing s with
  | zero => exact hk
  | succ n ih =>
    unfold State.pump
    extract_lets x
    split
    · exact hk
    · split
      · exact hk
      · split
        · exact hk
        · extract_lets f c i y s1 s2
          refine ih _ ?_
          have h1 : Keeps z s1 := State.transmit_keeps _ _ _ _ (State.setPort_keeps _ _ _ hk)
          exact Keeps.ite h1 (State.giveCredit_keeps _ _ _ h1)

theorem State.pumpPort_keeps {z0 : State} (s : State) (p : Nat) (hk : Keeps z0 s) :
    Keeps z0 (State.pumpPort s p) := by
  unfold State.pumpPort
  repeat' (first
    | extract_lets | with_reducible assumption | with_reducible apply Keeps.refl | with_reducible apply True.intro
    | with_reducible apply State.pump_keeps | with_reducible apply KeepsO.getD | with_reducible apply Keeps.ite
    | (with_reducible apply Keeps.forEach; rotate_left; intro s a) | simp only [Keeps.mk_iff] | split
    | (dsimp +zetaDelta only))

theorem State.enqueueFrom_keeps {z0 : State} (s : State) (p : Nat) (f : Frame) (origin credit : Nat) (hk : Keeps z0 s) :
    Keeps z0 (State.enqueueFrom s p f origin credit) := by
  unfold State.enqueueFrom
  repeat' (first
    | extract_lets | with_reducible assumption | with_reducible apply Keeps.refl | with_reducible apply True.intro
    | with_reducible apply State.modPort_keeps | with_reducible apply State.pumpPort_keeps
    | with_reducible apply KeepsO.getD | with_reducible apply Keeps.ite
    | (with_reducible apply Keeps.forEach; rotate_left; intro s a) | simp only [Keeps.mk_iff] | split
    | (dsimp +zetaDelta only))

theorem State.enqueue_keeps {z0 : State} (s : State) (p : Nat) (f : Frame) (hk : Keeps z0 s) :
    Keeps z0 (State.enqueue s p f) := by
  unfold State.enqueue
  repeat' (first
    | extract_lets | with_reducible assumption | with_reducible apply Keeps.refl | with_reducible apply True.intro
    | with_reducible apply State.enqueueFrom_keeps | with_reducible apply KeepsO.getD
    | with_reducible apply Keeps.ite | (with_reducible apply Keeps.forEach; rotate_left; intro s a)
    | simp only [Keeps.mk_iff] | split | (dsimp +zetaDelta only))

theorem State.enqueueTree_keeps {z0 : State} (s : State) (p : Nat) (f : Frame) (hk : Keeps z0 s) :
    Keeps z0 (State.enqueueTree s p f) := by
  unfold State.enqueueTree
  repeat' (first
    | extract_lets | with_reducible assumption | with_reducible apply Keeps.refl | with_reducible apply True.intro
    | with_reducible apply State.enqueue_keeps | with_reducible apply KeepsO.getD | with_reducible apply Keeps.ite
    | (with_reducible apply Keeps.forEach; rotate_left; intro s a) | simp only [Keeps.mk_iff] | split
    | (dsimp +zetaDelta only))

end Sys2Proof.Machine
end

