-- ==== Sys2Proof/Laws/KeepFlows.lean ====
section
/-! SUPPORT. What the definitions of Machine/Flows.lean keep (Keeps, Laws/Keep.lean). -/

set_option linter.all false

namespace Sys2Proof.Machine

theorem State.setSrcFlow_keeps {z0 : State} (s : State) (e : SrcFlow) (hk : Keeps z0 s) :
    Keeps z0 (State.setSrcFlow s e) := by
  unfold State.setSrcFlow
  repeat' (first
    | extract_lets | with_reducible assumption | with_reducible apply Keeps.refl | with_reducible apply True.intro
    | with_reducible apply State.settle_keeps | with_reducible apply KeepsO.getD | with_reducible apply Keeps.ite
    | (with_reducible apply Keeps.forEach; rotate_left; intro s a) | simp only [Keeps.mk_iff] | split
    | (dsimp +zetaDelta only))

theorem State.sentFault_keeps {z0 : State} (s : State) (u : Sent) (code : Nat) (hk : Keeps z0 s) :
    Keeps z0 (State.sentFault s u code) := by
  unfold State.sentFault
  repeat' (first
    | extract_lets | with_reducible assumption | with_reducible apply Keeps.refl | with_reducible apply True.intro
    | with_reducible apply State.ctxFault_keeps | with_reducible apply State.dropSteps_keeps
    | with_reducible apply KeepsO.getD | with_reducible apply Keeps.ite
    | (with_reducible apply Keeps.forEach; rotate_left; intro s a) | simp only [Keeps.mk_iff] | split
    | (dsimp +zetaDelta only))

theorem State.dropLate_keeps {z0 : State} (s : State) (dst flow : Nat) (q : BitVec 32) (hk : Keeps z0 s) :
    Keeps z0 (State.dropLate s dst flow q) := by
  unfold State.dropLate
  repeat' (first
    | extract_lets | with_reducible assumption | with_reducible apply Keeps.refl | with_reducible apply True.intro
    | with_reducible apply KeepsO.getD | with_reducible apply Keeps.ite
    | (with_reducible apply Keeps.forEach; rotate_left; intro s a) | simp only [Keeps.mk_iff] | split
    | (dsimp +zetaDelta only))

theorem State.loseSent_keeps {z0 : State} (s : State) (e : SrcFlow) (u : Sent) (hk : Keeps z0 s) :
    Keeps z0 (State.loseSent s e u) := by
  unfold State.loseSent
  repeat' (first
    | extract_lets | with_reducible assumption | with_reducible apply Keeps.refl | with_reducible apply True.intro
    | with_reducible apply State.setSrcFlow_keeps | with_reducible apply State.dropLate_keeps
    | with_reducible apply State.bump_keeps | with_reducible apply State.sentFault_keeps
    | with_reducible apply State.event_keeps | with_reducible apply State.modThread_keeps
    | with_reducible apply KeepsO.getD | with_reducible apply Keeps.ite
    | (with_reducible apply Keeps.forEach; rotate_left; intro s a) | simp only [Keeps.mk_iff] | split
    | (dsimp +zetaDelta only))

theorem State.ownFailed_keeps {z0 : State} (s : State) (f : Frame) (hk : Keeps z0 s) :
    Keeps z0 (State.ownFailed s f) := by
  unfold State.ownFailed
  repeat' (first
    | extract_lets | with_reducible assumption | with_reducible apply Keeps.refl | with_reducible apply True.intro
    | with_reducible apply State.loseSent_keeps | with_reducible apply KeepsO.getD | with_reducible apply Keeps.ite
    | (with_reducible apply Keeps.forEach; rotate_left; intro s a) | simp only [Keeps.mk_iff] | split
    | (dsimp +zetaDelta only))

theorem State.sendCtl_keeps {z0 : State} (s : State) (dst : Nat) (f : Frame) (hk : Keeps z0 s) :
    Keeps z0 (State.sendCtl s dst f) := by
  unfold State.sendCtl
  repeat' (first
    | extract_lets | with_reducible assumption | with_reducible apply Keeps.refl | with_reducible apply True.intro
    | with_reducible apply State.bump_keeps | with_reducible apply State.enqueue_keeps
    | with_reducible apply KeepsO.getD | with_reducible apply Keeps.ite
    | (with_reducible apply Keeps.forEach; rotate_left; intro s a) | simp only [Keeps.mk_iff] | split
    | (dsimp +zetaDelta only))

theorem State.sendTo_keeps {z0 : State} (s : State) (dst : Nat) (f : Frame) (hk : Keeps z0 s) :
    Keeps z0 (State.sendTo s dst f) := by
  unfold State.sendTo
  repeat' (first
    | extract_lets | with_reducible assumption | with_reducible apply Keeps.refl | with_reducible apply True.intro
    | with_reducible apply State.ownFailed_keeps | with_reducible apply State.bump_keeps
    | with_reducible apply State.enqueue_keeps | with_reducible apply KeepsO.getD | with_reducible apply Keeps.ite
    | (with_reducible apply Keeps.forEach; rotate_left; intro s a) | simp only [Keeps.mk_iff] | split
    | (dsimp +zetaDelta only))

theorem State.sendNack_keeps {z0 : State} (s : State) (f : Frame) (reason : Nat) (hk : Keeps z0 s) :
    Keeps z0 (State.sendNack s f reason) := by
  unfold State.sendNack
  repeat' (first
    | extract_lets | with_reducible assumption | with_reducible apply Keeps.refl | with_reducible apply True.intro
    | with_reducible apply State.sendCtl_keeps | with_reducible apply KeepsO.getD | with_reducible apply Keeps.ite
    | (with_reducible apply Keeps.forEach; rotate_left; intro s a) | simp only [Keeps.mk_iff] | split
    | (dsimp +zetaDelta only))

theorem State.retrainLane_keeps {z0 : State} (s : State) (p k : Nat) (hk : Keeps z0 s) :
    Keeps z0 (State.retrainLane s p k) := by
  unfold State.retrainLane
  repeat' (first
    | extract_lets | with_reducible assumption | with_reducible apply Keeps.refl | with_reducible apply True.intro
    | with_reducible apply State.modPort_keeps | with_reducible apply State.bump_keeps
    | with_reducible apply State.pumpPort_keeps | with_reducible apply KeepsO.getD | with_reducible apply Keeps.ite
    | (with_reducible apply Keeps.forEach; rotate_left; intro s a) | simp only [Keeps.mk_iff] | split
    | (dsimp +zetaDelta only))

theorem State.replay_keeps {z0 : State} (s : State) (p k : Nat) (hk : Keeps z0 s) :
    Keeps z0 (State.replay s p k) := by
  unfold State.replay
  repeat' (first
    | extract_lets | with_reducible assumption | with_reducible apply Keeps.refl | with_reducible apply True.intro
    | with_reducible apply State.putOnFibre_keeps | with_reducible apply State.bump_keeps
    | with_reducible apply State.modPort_keeps | with_reducible apply State.retrainLane_keeps
    | with_reducible apply KeepsO.getD | with_reducible apply Keeps.ite
    | (with_reducible apply Keeps.forEach; rotate_left; intro s a) | simp only [Keeps.mk_iff] | split
    | (dsimp +zetaDelta only))

theorem State.loseRetry_keeps {z0 : State} (s : State) (x : Port) (hk : Keeps z0 s) :
    Keeps z0 (State.loseRetry s x) := by
  unfold State.loseRetry
  repeat' (first
    | extract_lets | with_reducible assumption | with_reducible apply Keeps.refl | with_reducible apply True.intro
    | with_reducible apply State.ownFailed_keeps | with_reducible apply KeepsO.getD | with_reducible apply Keeps.ite
    | (with_reducible apply Keeps.forEach; rotate_left; intro s a) | simp only [Keeps.mk_iff] | split
    | (dsimp +zetaDelta only))

theorem State.portDown_keeps {z0 : State} (s : State) (p : Nat) (st : PortState) (hk : Keeps z0 s) :
    Keeps z0 (State.portDown s p st) := by
  unfold State.portDown
  repeat' (first
    | extract_lets | with_reducible assumption | with_reducible apply Keeps.refl | with_reducible apply True.intro
    | with_reducible apply State.setPort_keeps | with_reducible apply State.markChg_keeps
    | with_reducible apply State.loseRetry_keeps | with_reducible apply State.bump_keeps
    | with_reducible apply State.ownFailed_keeps | with_reducible apply State.sendNack_keeps
    | with_reducible apply State.giveCredit_keeps | with_reducible apply KeepsO.getD
    | with_reducible apply Keeps.ite | (with_reducible apply Keeps.forEach; rotate_left; intro s a)
    | simp only [Keeps.mk_iff] | split | (dsimp +zetaDelta only))

theorem State.combPortsDark_keeps {z0 : State} (s : State) (h : Nat) (hk : Keeps z0 s) :
    Keeps z0 (State.combPortsDark s h) := by
  unfold State.combPortsDark
  repeat' (first
    | extract_lets | with_reducible assumption | with_reducible apply Keeps.refl | with_reducible apply True.intro
    | with_reducible apply State.portDown_keeps | with_reducible apply KeepsO.getD | with_reducible apply Keeps.ite
    | (with_reducible apply Keeps.forEach; rotate_left; intro s a) | simp only [Keeps.mk_iff] | split
    | (dsimp +zetaDelta only))

end Sys2Proof.Machine
end

