-- ==== Sys2Proof/Laws/KeepCommit.lean ====
section
/-! SUPPORT. What the definitions of Machine/Commit.lean keep (Keeps, Laws/Keep.lean). -/

set_option linter.all false

namespace Sys2Proof.Machine

theorem State.windowReject_keeps {z0 : State} (s : State) (src window : Nat) (hk : Keeps z0 s) :
    Keeps z0 (State.windowReject s src window) := by
  unfold State.windowReject
  repeat' (first
    | extract_lets | with_reducible assumption | with_reducible apply Keeps.refl | with_reducible apply True.intro
    | with_reducible apply State.bump_keeps | with_reducible apply State.event_keeps
    | with_reducible apply KeepsO.getD | with_reducible apply Keeps.ite
    | (with_reducible apply Keeps.forEach; rotate_left; intro s a) | simp only [Keeps.mk_iff] | split
    | (dsimp +zetaDelta only))

theorem State.setDst_keeps {z0 : State} (s : State) (d : DstFlow) (hk : Keeps z0 s) :
    Keeps z0 (State.setDst s d) := by
  unfold State.setDst
  repeat' (first
    | extract_lets | with_reducible assumption | with_reducible apply Keeps.refl | with_reducible apply True.intro
    | with_reducible apply KeepsO.getD | with_reducible apply Keeps.ite
    | (with_reducible apply Keeps.forEach; rotate_left; intro s a) | simp only [Keeps.mk_iff] | split
    | (dsimp +zetaDelta only))

theorem State.openDst_keeps {z : State} (s : State) (src flow : Nat) (group : Option Nat) (o : BitVec 32) (hk : Keeps z s) : KeepsO z (s.openDst src flow group o) := by
  unfold State.openDst
  repeat' (first
    | extract_lets | with_reducible assumption | with_reducible apply Keeps.refl | with_reducible apply True.intro
    | with_reducible apply State.setDst_keeps | with_reducible apply KeepsO.mk | with_reducible apply KeepsO.mkNone
    | with_reducible apply KeepsO.ite | with_reducible apply KeepsO.getD | with_reducible apply Keeps.ite
    | (with_reducible apply Keeps.forEach; rotate_left; intro s a) | simp only [Keeps.mk_iff] | split
    | (dsimp +zetaDelta only))

theorem State.openDst_keeps_some {z : State} (s : State) (src flow : Nat) (group : Option Nat) (o : BitVec 32) {t : State} (w : s.openDst src flow group o = some t) (hk : Keeps z s) : Keeps z t :=
  KeepsO.some (State.openDst_keeps (hk := hk) ..) w

theorem State.sendAck_keeps {z0 : State} (s : State) (d : DstFlow) (hk : Keeps z0 s) :
    Keeps z0 (State.sendAck s d) := by
  unfold State.sendAck
  repeat' (first
    | extract_lets | with_reducible assumption | with_reducible apply Keeps.refl | with_reducible apply True.intro
    | with_reducible apply State.setDst_keeps | with_reducible apply State.sendCtl_keeps
    | with_reducible apply KeepsO.getD | with_reducible apply Keeps.ite
    | (with_reducible apply Keeps.forEach; rotate_left; intro s a) | simp only [Keeps.mk_iff] | split
    | (dsimp +zetaDelta only))

theorem State.answerRead_keeps {z0 : State} (s : State) (f : Frame) (a n : Nat) (hk : Keeps z0 s) :
    Keeps z0 (State.answerRead s f a n) := by
  unfold State.answerRead
  repeat' (first
    | extract_lets | with_reducible assumption | with_reducible apply Keeps.refl | with_reducible apply True.intro
    | with_reducible apply State.sendTo_keeps | with_reducible apply KeepsO.getD | with_reducible apply Keeps.ite
    | (with_reducible apply Keeps.forEach; rotate_left; intro s a) | simp only [Keeps.mk_iff] | split
    | (dsimp +zetaDelta only))

theorem State.answerCas_keeps {z0 : State} (s : State) (f : Frame) (old : Option Nat) (hk : Keeps z0 s) :
    Keeps z0 (State.answerCas s f old) := by
  unfold State.answerCas
  repeat' (first
    | extract_lets | with_reducible assumption | with_reducible apply Keeps.refl | with_reducible apply True.intro
    | with_reducible apply State.sendTo_keeps | with_reducible apply KeepsO.getD | with_reducible apply Keeps.ite
    | (with_reducible apply Keeps.forEach; rotate_left; intro s a) | simp only [Keeps.mk_iff] | split
    | (dsimp +zetaDelta only))

theorem State.casFor_keeps {z0 : State} (s : State) (f : Frame) (a : Nat) (hk : Keeps z0 s) :
    Keeps z0 (State.casFor s f a) := by
  unfold State.casFor
  repeat' (first
    | extract_lets | with_reducible assumption | with_reducible apply Keeps.refl | with_reducible apply True.intro
    | with_reducible apply State.answerCas_keeps | with_reducible apply State.writeWord_keeps
    | with_reducible apply KeepsO.getD | with_reducible apply Keeps.ite
    | (with_reducible apply Keeps.forEach; rotate_left; intro s a) | simp only [Keeps.mk_iff] | split
    | (dsimp +zetaDelta only))

theorem State.commitFrame_keeps {z : State} (s : State) (f : Frame) (check : LineCheck) (hk : Keeps z s) : Keeps z (s.commitFrame f check).1 := by
  unfold State.commitFrame
  repeat' (first
    | extract_lets | with_reducible assumption | with_reducible apply Keeps.refl | with_reducible apply True.intro
    | with_reducible apply State.windowReject_keeps | with_reducible apply State.sendNack_keeps
    | with_reducible apply State.checkAt_keeps | with_reducible apply State.answerRead_keeps
    | with_reducible apply State.holdOp_keeps | with_reducible apply State.casFor_keeps
    | with_reducible apply State.devWrite_keeps | with_reducible apply KeepsO.getD | with_reducible apply Keeps.ite
    | (with_reducible apply Keeps.forEach; rotate_left; intro s a) | simp only [Keeps.mk_iff] | split
    | (dsimp +zetaDelta only))

theorem State.commitFrame_keeps_eq {z : State} (s : State) (f : Frame) (check : LineCheck) {q} (hk : Keeps z s) (w : s.commitFrame f check = q) : Keeps z q.1 := by
  subst w; exact State.commitFrame_keeps (hk := hk) ..

theorem State.updateMc_keeps {z0 : State} (s : State) (g src flow : Nat) (hk : Keeps z0 s) :
    Keeps z0 (State.updateMc s g src flow) := by
  unfold State.updateMc
  repeat' (first
    | extract_lets | with_reducible assumption | with_reducible apply Keeps.refl | with_reducible apply True.intro
    | with_reducible apply State.setSrcFlow_keeps | with_reducible apply State.enqueueTree_keeps
    | with_reducible apply KeepsO.getD | with_reducible apply Keeps.ite
    | (with_reducible apply Keeps.forEach; rotate_left; intro s a) | simp only [Keeps.mk_iff] | split
    | (dsimp +zetaDelta only))

theorem State.applySignal_keeps {z0 : State} (s : State) (f : Frame) (lost : Bool) (check : LineCheck) (hk : Keeps z0 s) :
    Keeps z0 (State.applySignal s f lost check) := by
  unfold State.applySignal
  repeat' (first
    | extract_lets | with_reducible assumption | with_reducible apply Keeps.refl | with_reducible apply True.intro
    | with_reducible apply State.windowReject_keeps | with_reducible apply State.event_keeps
    | with_reducible apply State.uncorrectable_keeps | with_reducible apply State.checkAt_keeps
    | with_reducible apply State.deliverLost_keeps | with_reducible apply State.signalAdd_keeps
    | with_reducible refine State.signalAdd_keeps_some (w := by assumption) (hk := ?_) ..
    | with_reducible apply KeepsO.getD | with_reducible apply Keeps.ite
    | (with_reducible apply Keeps.forEach; rotate_left; intro s a) | simp only [Keeps.mk_iff] | split
    | (dsimp +zetaDelta only))

theorem State.deliverSignal_keeps {z0 : State} (s : State) (f : Frame) (lost : Bool) (check : LineCheck) (hk : Keeps z0 s) :
    Keeps z0 (State.deliverSignal s f lost check) := by
  unfold State.deliverSignal
  repeat' (first
    | extract_lets | with_reducible assumption | with_reducible apply Keeps.refl | with_reducible apply True.intro
    | with_reducible apply State.applySignal_keeps | with_reducible apply State.setDst_keeps
    | with_reducible apply KeepsO.getD | with_reducible apply Keeps.ite
    | (with_reducible apply Keeps.forEach; rotate_left; intro s a) | simp only [Keeps.mk_iff] | split
    | (dsimp +zetaDelta only))

theorem State.releaseSignals_keeps {z0 : State} (s : State) (src flow : Nat) (lost : Bool) (hk : Keeps z0 s) :
    Keeps z0 (State.releaseSignals s src flow lost) := by
  unfold State.releaseSignals
  repeat' (first
    | extract_lets | with_reducible assumption | with_reducible apply Keeps.refl | with_reducible apply True.intro
    | with_reducible apply State.setDst_keeps | with_reducible apply State.deliverSignal_keeps
    | with_reducible apply State.sendAck_keeps | with_reducible apply KeepsO.getD | with_reducible apply Keeps.ite
    | (with_reducible apply Keeps.forEach; rotate_left; intro s a) | simp only [Keeps.mk_iff] | split
    | (dsimp +zetaDelta only))

theorem State.commitOne_keeps {z0 : State} (s : State) (src flow : Nat) (f : Frame) (check : LineCheck) (hk : Keeps z0 s) :
    Keeps z0 (State.commitOne s src flow f check) := by
  unfold State.commitOne
  repeat' (first
    | extract_lets | with_reducible assumption | with_reducible apply Keeps.refl | with_reducible apply True.intro
    | with_reducible apply State.setDst_keeps | with_reducible apply State.sendAck_keeps
    | with_reducible apply State.commitFrame_keeps
    | with_reducible refine State.commitFrame_keeps_eq (w := by assumption) (hk := ?_) ..
    | with_reducible apply KeepsO.getD | with_reducible apply Keeps.ite
    | (with_reducible apply Keeps.forEach; rotate_left; intro s a) | simp only [Keeps.mk_iff] | split
    | (dsimp +zetaDelta only))

theorem State.followHeld_keeps {z : State} (s : State) (src flow n : Nat) (hk : Keeps z s) :
    Keeps z (s.followHeld src flow n) := by
  induction n generalizing s with
  | zero => exact hk
  | succ n ih =>
    unfold State.followHeld
    split
    · exact hk
    · split
      · exact hk
      · exact ih _ (State.commitOne_keeps _ _ _ _ _ (State.setDst_keeps _ _ hk))

theorem State.afterE_keeps {z0 : State} (s : State) (src flow : Nat) (lost : Bool) (hk : Keeps z0 s) :
    Keeps z0 (State.afterE s src flow lost) := by
  unfold State.afterE
  repeat' (first
    | extract_lets | with_reducible assumption | with_reducible apply Keeps.refl | with_reducible apply True.intro
    | with_reducible apply State.releaseSignals_keeps | with_reducible apply State.updateMc_keeps
    | with_reducible apply State.followHeld_keeps | with_reducible apply KeepsO.getD
    | with_reducible apply Keeps.ite | (with_reducible apply Keeps.forEach; rotate_left; intro s a)
    | simp only [Keeps.mk_iff] | split | (dsimp +zetaDelta only))

theorem State.takeSeq_keeps {z0 : State} (s : State) (d : DstFlow) (f : Frame) (check : LineCheck) (hk : Keeps z0 s) :
    Keeps z0 (State.takeSeq s d f check) := by
  unfold State.takeSeq
  repeat' (first
    | extract_lets | with_reducible assumption | with_reducible apply Keeps.refl | with_reducible apply True.intro
    | with_reducible apply State.setDst_keeps | with_reducible apply State.commitOne_keeps
    | with_reducible apply State.afterE_keeps | with_reducible apply State.sendNack_keeps
    | with_reducible apply State.sendAck_keeps | with_reducible apply KeepsO.getD | with_reducible apply Keeps.ite
    | (with_reducible apply Keeps.forEach; rotate_left; intro s a) | simp only [Keeps.mk_iff] | split
    | (dsimp +zetaDelta only))

theorem State.handleSeq_keeps {z0 : State} (s : State) (f : Frame) (p : Nat) (check : LineCheck) (hk : Keeps z0 s) :
    Keeps z0 (State.handleSeq s f p check) := by
  unfold State.handleSeq
  repeat' (first
    | extract_lets | with_reducible assumption | with_reducible apply Keeps.refl | with_reducible apply True.intro
    | with_reducible apply State.sendNack_keeps | with_reducible apply State.takeSeq_keeps
    | with_reducible apply State.releaseSignals_keeps | with_reducible apply State.openDst_keeps
    | with_reducible refine State.openDst_keeps_some (w := by assumption) (hk := ?_) ..
    | with_reducible apply KeepsO.getD | with_reducible apply Keeps.ite
    | (with_reducible apply Keeps.forEach; rotate_left; intro s a) | simp only [Keeps.mk_iff] | split
    | (dsimp +zetaDelta only))

theorem State.holdSignal_keeps {z0 : State} (s : State) (f : Frame) (p : Nat) (d : Option DstFlow) (hk : Keeps z0 s) :
    Keeps z0 (State.holdSignal s f p d) := by
  unfold State.holdSignal
  repeat' (first
    | extract_lets | with_reducible assumption | with_reducible apply Keeps.refl | with_reducible apply True.intro
    | with_reducible apply State.setDst_keeps | with_reducible apply State.bump_keeps
    | with_reducible apply State.raise_keeps | with_reducible apply KeepsO.getD | with_reducible apply Keeps.ite
    | (with_reducible apply Keeps.forEach; rotate_left; intro s a) | simp only [Keeps.mk_iff] | split
    | (dsimp +zetaDelta only))

theorem State.handleSignal_keeps {z0 : State} (s : State) (f : Frame) (p : Nat) (v1 : Bool) (check : LineCheck) (hk : Keeps z0 s) :
    Keeps z0 (State.handleSignal s f p v1 check) := by
  unfold State.handleSignal
  repeat' (first
    | extract_lets | with_reducible assumption | with_reducible apply Keeps.refl | with_reducible apply True.intro
    | with_reducible apply State.applySignal_keeps | with_reducible apply State.setDst_keeps
    | with_reducible apply State.deliverSignal_keeps | with_reducible apply State.holdSignal_keeps
    | with_reducible apply State.openDst_keeps
    | with_reducible refine State.openDst_keeps_some (w := by assumption) (hk := ?_) ..
    | with_reducible apply KeepsO.getD | with_reducible apply Keeps.ite
    | (with_reducible apply Keeps.forEach; rotate_left; intro s a) | simp only [Keeps.mk_iff] | split
    | (dsimp +zetaDelta only))

theorem State.unpark_keeps {z : State} (s : State) (n : Nat) (hk : Keeps z s) : Keeps z (s.unpark n) := by
  induction n generalizing s with
  | zero => exact hk
  | succ n ih =>
    unfold State.unpark
    split
    · exact hk
    · split
      · exact ih _ (State.handleSignal_keeps _ _ _ _ _ (Keeps.mk' hk ..))
      · exact hk

theorem State.takeParked_keeps {z0 : State} (s : State) (hk : Keeps z0 s) :
    Keeps z0 (State.takeParked s) := by
  unfold State.takeParked
  repeat' (first
    | extract_lets | with_reducible assumption | with_reducible apply Keeps.refl | with_reducible apply True.intro
    | with_reducible apply State.unpark_keeps | with_reducible apply KeepsO.getD | with_reducible apply Keeps.ite
    | (with_reducible apply Keeps.forEach; rotate_left; intro s a) | simp only [Keeps.mk_iff] | split
    | (dsimp +zetaDelta only))

theorem State.skipGap_keeps {z0 : State} (s : State) (d : DstFlow) (hk : Keeps z0 s) :
    Keeps z0 (State.skipGap s d) := by
  unfold State.skipGap
  repeat' (first
    | extract_lets | with_reducible assumption | with_reducible apply Keeps.refl | with_reducible apply True.intro
    | with_reducible apply State.setDst_keeps | with_reducible apply State.bump_keeps
    | with_reducible apply State.afterE_keeps | with_reducible apply KeepsO.getD | with_reducible apply Keeps.ite
    | (with_reducible apply Keeps.forEach; rotate_left; intro s a) | simp only [Keeps.mk_iff] | split
    | (dsimp +zetaDelta only))

end Sys2Proof.Machine
end

