-- ==== Sys2Proof/Laws/KeepMulticast.lean ====
section
/-! SUPPORT. What the definitions of Machine/Multicast.lean keep (Keeps, Laws/Keep.lean). -/

set_option linter.all false

namespace Sys2Proof.Machine

theorem State.repairFrame_keeps {z0 : State} (s : State) (g flow : Nat) (u : Sent) (members : List Nat) (hk : Keeps z0 s) :
    Keeps z0 (State.repairFrame s g flow u members) := by
  unfold State.repairFrame
  repeat' (first
    | extract_lets | with_reducible assumption | with_reducible apply Keeps.refl | with_reducible apply True.intro
    | with_reducible apply State.sendTo_keeps | with_reducible apply State.bump_keeps
    | with_reducible apply KeepsO.getD | with_reducible apply Keeps.ite
    | (with_reducible apply Keeps.forEach; rotate_left; intro s a) | simp only [Keeps.mk_iff] | split
    | (dsimp +zetaDelta only))

theorem State.repair_keeps {z0 : State} (s : State) (g : Group) (flow tag : Nat) (first : BitVec 32) (members : List Nat) (hk : Keeps z0 s) :
    Keeps z0 (State.repair s g flow tag first members) := by
  unfold State.repair
  repeat' (first
    | extract_lets | with_reducible assumption | with_reducible apply Keeps.refl | with_reducible apply True.intro
    | with_reducible apply State.setSrcFlow_keeps | with_reducible apply State.repairFrame_keeps
    | with_reducible apply KeepsO.getD | with_reducible apply Keeps.ite
    | (with_reducible apply Keeps.forEach; rotate_left; intro s a) | simp only [Keeps.mk_iff] | split
    | (dsimp +zetaDelta only))

theorem State.mapBranches_keeps {z : State} (s : State) (f : Branch → Branch) (hk : Keeps z s) :
    Keeps z (s.mapBranches f) := by
  unfold State.mapBranches
  repeat' (first
    | extract_lets | with_reducible assumption | with_reducible apply Keeps.refl | with_reducible apply True.intro
    | with_reducible apply KeepsO.getD | with_reducible apply Keeps.ite
    | (with_reducible apply Keeps.forEach; rotate_left; intro s a) | simp only [Keeps.mk_iff] | split
    | (dsimp +zetaDelta only))

theorem State.pruned_keeps {z0 : State} (s : State) (g : Group) (port : Nat) (f : Frame) (hk : Keeps z0 s) :
    Keeps z0 (State.pruned s g port f) := by
  unfold State.pruned
  repeat' (first
    | extract_lets | with_reducible assumption | with_reducible apply Keeps.refl | with_reducible apply True.intro
    | with_reducible apply State.repair_keeps | with_reducible apply State.enqueueTree_keeps
    | with_reducible apply KeepsO.getD | with_reducible apply Keeps.ite
    | (with_reducible apply Keeps.forEach; rotate_left; intro s a) | simp only [Keeps.mk_iff] | split
    | (dsimp +zetaDelta only))

theorem State.pruneFor_keeps {z0 : State} (s : State) (g : Group) (port : Nat) (f : Frame) (hk : Keeps z0 s) :
    Keeps z0 (State.pruneFor s g port f) := by
  unfold State.pruneFor
  repeat' (first
    | extract_lets | with_reducible assumption | with_reducible apply Keeps.refl | with_reducible apply True.intro
    | with_reducible apply State.mapBranches_keeps | with_reducible apply State.pruned_keeps
    | with_reducible apply State.bump_keeps | with_reducible apply State.updateMc_keeps
    | with_reducible apply KeepsO.getD | with_reducible apply Keeps.ite
    | (with_reducible apply Keeps.forEach; rotate_left; intro s a) | simp only [Keeps.mk_iff] | split
    | (dsimp +zetaDelta only))

theorem State.pumpBranch_keeps {z : State} (s : State) (g p n : Nat) (hk : Keeps z s) : Keeps z (s.pumpBranch g p n) := by
  induction n generalizing s with
  | zero => exact hk
  | succ n ih =>
    unfold State.pumpBranch
    split
    · extract_lets x s1
      split
      · exact ih _ (State.enqueue_keeps _ _ _ (State.mapBranches_keeps _ _ hk))
      · exact hk
    · exact hk

theorem State.pruneV1_keeps {z0 : State} (s : State) (f : Frame) (hk : Keeps z0 s) :
    Keeps z0 (State.pruneV1 s f) := by
  unfold State.pruneV1
  repeat' (first
    | extract_lets | with_reducible assumption | with_reducible apply Keeps.refl | with_reducible apply True.intro
    | with_reducible apply State.pruneFor_keeps | with_reducible apply KeepsO.getD | with_reducible apply Keeps.ite
    | (with_reducible apply Keeps.forEach; rotate_left; intro s a) | simp only [Keeps.mk_iff] | split
    | (dsimp +zetaDelta only))

theorem State.replicate_keeps {z : State} (s : State) (f : Frame) (hk : Keeps z s) : KeepsO z (s.replicate f) := by
  unfold State.replicate
  repeat' (first
    | extract_lets | with_reducible assumption | with_reducible apply Keeps.refl | with_reducible apply True.intro
    | with_reducible apply State.pruneV1_keeps | with_reducible apply State.mapBranches_keeps
    | with_reducible apply State.pruned_keeps | with_reducible apply State.pumpBranch_keeps
    | with_reducible apply KeepsO.mk | with_reducible apply KeepsO.mkNone | with_reducible apply KeepsO.ite
    | with_reducible apply KeepsO.getD | with_reducible apply Keeps.ite
    | (with_reducible apply Keeps.forEach; rotate_left; intro s a) | simp only [Keeps.mk_iff] | split
    | (dsimp +zetaDelta only))

theorem State.replicate_keeps_some {z : State} (s : State) (f : Frame) {t : State} (w : s.replicate f = some t) (hk : Keeps z s) : Keeps z t :=
  KeepsO.some (State.replicate_keeps (hk := hk) ..) w

theorem State.drainMc_keeps {z : State} (s : State) (n : Nat) (l : List Nat) (hk : Keeps z s) : Keeps z (s.drainMc n l) := by
  induction n generalizing s l with
  | zero => exact hk
  | succ n ih =>
    unfold State.drainMc
    split
    · exact hk
    · split
      · exact ih _ _ hk
      · next t e =>
        extract_lets s0 s1 s2
        refine ih _ _ ?_
        have h1 : Keeps z s1 := Keeps.mk' (State.replicate_keeps_some _ _ e hk) ..
        exact Keeps.ite h1 (State.giveCredit_keeps _ _ _ h1)

theorem State.pumpMc_keeps {z0 : State} (s : State) (hk : Keeps z0 s) :
    Keeps z0 (State.pumpMc s) := by
  unfold State.pumpMc
  repeat' (first
    | extract_lets | with_reducible assumption | with_reducible apply Keeps.refl | with_reducible apply True.intro
    | with_reducible apply State.pumpBranch_keeps | with_reducible apply State.drainMc_keeps
    | with_reducible apply KeepsO.getD | with_reducible apply Keeps.ite
    | (with_reducible apply Keeps.forEach; rotate_left; intro s a) | simp only [Keeps.mk_iff] | split
    | (dsimp +zetaDelta only))

theorem State.deliverMc_keeps {z0 : State} (s : State) (p : Nat) (f : Frame) (check : LineCheck) (hk : Keeps z0 s) :
    Keeps z0 (State.deliverMc s p f check) := by
  unfold State.deliverMc
  repeat' (first
    | extract_lets | with_reducible assumption | with_reducible apply Keeps.refl | with_reducible apply True.intro
    | with_reducible apply State.handleSignal_keeps | with_reducible apply State.takeSeq_keeps
    | with_reducible apply State.sendNack_keeps | with_reducible apply KeepsO.getD | with_reducible apply Keeps.ite
    | (with_reducible apply Keeps.forEach; rotate_left; intro s a) | simp only [Keeps.mk_iff] | split
    | (dsimp +zetaDelta only))

theorem State.enterMc_keeps {z0 : State} (s : State) (inPort credit : Nat) (f : Frame) (check : LineCheck) (hk : Keeps z0 s) :
    Keeps z0 (State.enterMc s inPort credit f check) := by
  unfold State.enterMc
  repeat' (first
    | extract_lets | with_reducible assumption | with_reducible apply Keeps.refl | with_reducible apply True.intro
    | with_reducible apply State.deliverMc_keeps | with_reducible apply State.drainMc_keeps
    | with_reducible apply KeepsO.getD | with_reducible apply Keeps.ite
    | (with_reducible apply Keeps.forEach; rotate_left; intro s a) | simp only [Keeps.mk_iff] | split
    | (dsimp +zetaDelta only))

theorem State.openMc_keeps {z0 : State} (s : State) (f : Frame) (origin credit : Nat) (hk : Keeps z0 s) :
    Keeps z0 (State.openMc s f origin credit) := by
  unfold State.openMc
  repeat' (first
    | extract_lets | with_reducible assumption | with_reducible apply Keeps.refl | with_reducible apply True.intro
    | with_reducible apply State.giveCredit_keeps | with_reducible apply State.mapBranches_keeps
    | with_reducible apply State.event_keeps | with_reducible apply State.bump_keeps
    | with_reducible apply State.enqueueFrom_keeps | with_reducible apply State.enqueue_keeps
    | with_reducible apply State.takeSeq_keeps | with_reducible apply State.afterE_keeps
    | with_reducible apply State.openDst_keeps
    | with_reducible refine State.openDst_keeps_some (w := by assumption) (hk := ?_) ..
    | with_reducible apply KeepsO.getD | with_reducible apply Keeps.ite
    | (with_reducible apply Keeps.forEach; rotate_left; intro s a) | simp only [Keeps.mk_iff] | split
    | (dsimp +zetaDelta only))

theorem State.pruneBranch_keeps {z0 : State} (s : State) (g : Group) (port : Nat) (hk : Keeps z0 s) :
    Keeps z0 (State.pruneBranch s g port) := by
  unfold State.pruneBranch
  repeat' (first
    | extract_lets | with_reducible assumption | with_reducible apply Keeps.refl | with_reducible apply True.intro
    | with_reducible apply State.mapBranches_keeps | with_reducible apply State.pruned_keeps
    | with_reducible apply State.updateMc_keeps | with_reducible apply State.bump_keeps
    | with_reducible apply State.drainMc_keeps | with_reducible apply KeepsO.getD | with_reducible apply Keeps.ite
    | (with_reducible apply Keeps.forEach; rotate_left; intro s a)
    | ((with_reducible apply Keeps.foldl) <;> [(intro r a); skip]) | simp only [Keeps.mk_iff] | split
    | (dsimp +zetaDelta only))

theorem State.openFlow_keeps_some {z : State} (s : State) (dst flow : Nat) (mc : Option Nat) {r : State × SrcFlow}
    (e : s.openFlow dst flow mc = some r) (hk : Keeps z s) : Keeps z r.1 := by
  have key : ∀ (s : State) (x : SrcFlow), Keeps z s → Keeps z (match mc with
      | none => (s.setSrcFlow x, x)
      | some g => ((s.setSrcFlow x).openMc (mkFrame 11 0 0 false s.cfg.device g flow x.n 0 0 0 []) 0 0, x)).1 := by
    intro s x h
    split
    · exact State.setSrcFlow_keeps _ _ h
    · exact State.openMc_keeps _ _ _ _ (State.setSrcFlow_keeps _ _ h)
  unfold State.openFlow at e
  split at e
  · cases e; exact hk
  · extract_lets o x ready at e
    split at e
    · cases e; exact key _ _ hk
    · split at e
      · cases e
      · cases e; exact key _ _ (Keeps.mk' hk ..)

theorem State.openFlow_keeps_map {z : State} (s : State) (dst flow : Nat) (mc : Option Nat) (hk : Keeps z s) :
    KeepsO z ((s.openFlow dst flow mc).map (·.1)) := by
  cases e : s.openFlow dst flow mc with
  | none => exact KeepsO.mkNone
  | some r => exact State.openFlow_keeps_some _ _ _ _ e hk

theorem State.dispatchFrame_keeps {z0 : State} (s : State) (e : SrcFlow) (f : Frame) (hk : Keeps z0 s) :
    Keeps z0 (State.dispatchFrame s e f) := by
  unfold State.dispatchFrame
  repeat' (first
    | extract_lets | with_reducible assumption | with_reducible apply Keeps.refl | with_reducible apply True.intro
    | with_reducible apply State.sendTo_keeps | with_reducible apply State.enterMc_keeps
    | with_reducible apply KeepsO.getD | with_reducible apply Keeps.ite
    | (with_reducible apply Keeps.forEach; rotate_left; intro s a) | simp only [Keeps.mk_iff] | split
    | (dsimp +zetaDelta only))

theorem State.releaseFrames_keeps {z : State} (s : State) (dst flow : Nat) (mc : Option Nat) (n : Nat) (hk : Keeps z s) : Keeps z (s.releaseFrames dst flow mc n) := by
  induction n generalizing s with
  | zero => exact hk
  | succ n ih =>
    unfold State.releaseFrames
    repeat' (first
      | (with_reducible assumption)
      | (refine ih _ ?_)
      | (with_reducible apply State.setSrcFlow_keeps)
      | (with_reducible apply State.dispatchFrame_keeps)
      | (with_reducible apply State.repairFrame_keeps)
      | (with_reducible apply State.modThread_keeps)
      | extract_lets
      | split)

theorem State.releaseBacklog_keeps {z0 : State} (s : State) (e : SrcFlow) (hk : Keeps z0 s) :
    Keeps z0 (State.releaseBacklog s e) := by
  unfold State.releaseBacklog
  repeat' (first
    | extract_lets | with_reducible assumption | with_reducible apply Keeps.refl | with_reducible apply True.intro
    | with_reducible apply State.releaseFrames_keeps | with_reducible apply KeepsO.getD
    | with_reducible apply Keeps.ite | (with_reducible apply Keeps.forEach; rotate_left; intro s a)
    | simp only [Keeps.mk_iff] | split | (dsimp +zetaDelta only))

theorem State.kickAll_keeps {z0 : State} (s : State) (hk : Keeps z0 s) :
    Keeps z0 (State.kickAll s) := by
  unfold State.kickAll
  repeat' (first
    | extract_lets | with_reducible assumption | with_reducible apply Keeps.refl | with_reducible apply True.intro
    | with_reducible apply State.releaseBacklog_keeps | with_reducible apply KeepsO.getD
    | with_reducible apply Keeps.ite | (with_reducible apply Keeps.forEach; rotate_left; intro s a)
    | simp only [Keeps.mk_iff] | split | (dsimp +zetaDelta only))

theorem State.sendSeq_keeps {z : State} (s : State) (e : SrcFlow) (ty : Nat) (r : Sent) (d : List Byte) (hk : Keeps z s) : Keeps z (s.sendSeq e ty r d).1 := by
  unfold State.sendSeq
  repeat' (first
    | extract_lets | with_reducible assumption | with_reducible apply Keeps.refl | with_reducible apply True.intro
    | with_reducible apply State.setSrcFlow_keeps | with_reducible apply State.releaseBacklog_keeps
    | with_reducible apply KeepsO.getD | with_reducible apply Keeps.ite
    | (with_reducible apply Keeps.forEach; rotate_left; intro s a) | simp only [Keeps.mk_iff] | split
    | (dsimp +zetaDelta only))

theorem State.sendSeq_keeps_eq {z : State} (s : State) (e : SrcFlow) (ty : Nat) (r : Sent) (d : List Byte) {q} (hk : Keeps z s) (w : s.sendSeq e ty r d = q) : Keeps z q.1 := by
  subst w; exact State.sendSeq_keeps (hk := hk) ..

end Sys2Proof.Machine
end

