-- ==== Sys2Proof/Laws/KeepIssue.lean ====
section
/-! SUPPORT. What the definitions of Machine/Issue.lean keep (Keeps, Laws/Keep.lean). -/

set_option linter.all false

namespace Sys2Proof.Machine

theorem State.countIssue_keeps {z0 : State} (s : State) (t : Nat) (hk : Keeps z0 s) :
    Keeps z0 (State.countIssue s t) := by
  unfold State.countIssue
  repeat' (first
    | extract_lets | with_reducible assumption | with_reducible apply Keeps.refl | with_reducible apply True.intro
    | with_reducible apply State.modCtx_keeps | with_reducible apply State.bump_keeps
    | with_reducible apply State.modBay_keeps | with_reducible apply State.modThread_keeps
    | with_reducible apply KeepsO.getD | with_reducible apply Keeps.ite
    | (with_reducible apply Keeps.forEach; rotate_left; intro s a) | simp only [Keeps.mk_iff] | split
    | (dsimp +zetaDelta only))

theorem State.translateAll_keeps_some {z : State} (l : List Nat) {s t : State} {b c : Nat} (w : s.translateAll b c l = some t)
    (hk : Keeps z s) : Keeps z t := by
  induction l generalizing s with
  | nil => cases w; exact hk
  | cons v l ih =>
    unfold State.translateAll at w
    cases h : s.translate b c v with
    | none => simp [h] at w
    | some u =>
      rw [h] at w
      refine ih w ?_
      unfold State.translate at h
      dsimp only at h
      split at h
      · cases h
      · cases h; exact State.setBay_keeps _ _ _ hk

theorem State.begin_keeps_go {z : State} {s u : State} {t : Nat} {o : Op} {w : Nat} (e : s.begin t o = .go u w)
    (hk : Keeps z s) : Keeps z u := by
  unfold State.begin at e
  split at e
  · cases e
  · split at e
    · cases e
    · split at e
      · cases e
      · split at e
        · cases e
        · split at e
          · cases e
          · split at e
            · cases e
            · cases e
            · next v h =>
              split at e
              · cases e
              · next x g =>
                cases e
                exact State.translateAll_keeps_some _ g (State.cacheCtx_keeps_there h hk)

theorem State.stall_keeps {z0 : State} (s : State) (t : Nat) (hk : Keeps z0 s) :
    Keeps z0 (State.stall s t) := by
  unfold State.stall
  repeat' (first
    | extract_lets | with_reducible assumption | with_reducible apply Keeps.refl | with_reducible apply True.intro
    | with_reducible apply State.modThread_keeps | with_reducible apply KeepsO.getD | with_reducible apply Keeps.ite
    | (with_reducible apply Keeps.forEach; rotate_left; intro s a) | simp only [Keeps.mk_iff] | split
    | (dsimp +zetaDelta only))

theorem State.maybeEnd_keeps {z0 : State} (s : State) (t : Nat) (hk : Keeps z0 s) :
    Keeps z0 (State.maybeEnd s t) := by
  unfold State.maybeEnd
  repeat' (first
    | extract_lets | with_reducible assumption | with_reducible apply Keeps.refl | with_reducible apply True.intro
    | with_reducible apply State.endThread_keeps | with_reducible apply State.refreshCtx_keeps
    | with_reducible apply KeepsO.getD | with_reducible apply Keeps.ite
    | (with_reducible apply Keeps.forEach; rotate_left; intro s a) | simp only [Keeps.mk_iff] | split
    | (dsimp +zetaDelta only))

theorem State.instantStep_keeps {z : State} (s : State) (t : Nat) (o : Op)
    (f : State → Thread → Nat → Except (Nat × State) State)
    (hf : ∀ z s th w, Keeps z s → KeepsR (fun s => s) z (f s th w)) (hk : Keeps z s) : Keeps z (s.instantStep t o f) := by
  unfold State.instantStep
  split
  · exact hk
  · exact State.stall_keeps _ _ hk
  · exact State.stepFault_keeps _ _ _ _ _ hk
  · next u w e =>
    have hu : Keeps z u := State.begin_keeps_go e hk
    extract_lets th uid u1
    have h := hf z u1 th w (State.countIssue_keeps _ _ hu)
    split
    · next c v e => exact State.stepFault_keeps _ _ _ _ _ (State.byThread_keeps _ _ _ (KeepsR.error h e))
    · next v e => exact State.maybeEnd_keeps _ _ (State.byThread_keeps _ _ _ (KeepsR.ok h e))

theorem State.longStep_keeps {z : State} (s : State) (t : Nat) (o : Op)
    (f : State → Thread → Nat → Nat → Except (Nat × State) State)
    (hf : ∀ z s th w uid, Keeps z s → KeepsR (fun s => s) z (f s th w uid)) (hk : Keeps z s) :
    Keeps z (s.longStep t o f) := by
  unfold State.longStep
  split
  · exact hk
  · exact State.stall_keeps _ _ hk
  · exact State.stepFault_keeps _ _ _ _ _ hk
  · next u w e =>
    have hu : Keeps z u := State.begin_keeps_go e hk
    extract_lets th uid a u1
    have h := hf z u1 th w uid (State.modThread_keeps _ _ _ (State.countIssue_keeps _ _ hu))
    split
    · next c v e => exact State.stepFault_keeps _ _ _ _ _ (State.byThread_keeps _ _ _ (KeepsR.error h e))
    · next v e => exact State.byThread_keeps _ _ _ (KeepsR.ok h e)

theorem State.modStep_keeps {z : State} (s : State) (t uid : Nat) (f : Active → Active) (hk : Keeps z s) :
    Keeps z (s.modStep t uid f) := by
  unfold State.modStep
  repeat' (first
    | extract_lets | with_reducible assumption | with_reducible apply Keeps.refl | with_reducible apply True.intro
    | with_reducible apply State.modThread_keeps | with_reducible apply KeepsO.getD | with_reducible apply Keeps.ite
    | (with_reducible apply Keeps.forEach; rotate_left; intro s a) | simp only [Keeps.mk_iff] | split
    | (dsimp +zetaDelta only))

end Sys2Proof.Machine
end

