-- ==== Sys2Proof/Laws/KeepSync.lean ====
section
/-! SUPPORT. What the definitions of Machine/Sync.lean keep (Keeps, Laws/Keep.lean). -/

set_option linter.all false

namespace Sys2Proof.Machine

theorem State.releaseThread_keeps {z0 : State} (s : State) (t : Nat) (put : Option Nat) (hk : Keeps z0 s) :
    Keeps z0 (State.releaseThread s t put) := by
  unfold State.releaseThread
  repeat' (first
    | extract_lets | with_reducible assumption | with_reducible apply Keeps.refl | with_reducible apply True.intro
    | with_reducible apply State.modBay_keeps | with_reducible apply State.modCtx_keeps
    | with_reducible apply KeepsO.getD | with_reducible apply Keeps.ite
    | (with_reducible apply Keeps.forEach; rotate_left; intro s a) | simp only [Keeps.mk_iff] | split
    | (dsimp +zetaDelta only))

theorem State.addFeOp_keeps {z0 : State} (s : State) (o : FeOp) (hk : Keeps z0 s) :
    Keeps z0 (State.addFeOp s o) := by
  unfold State.addFeOp
  repeat' (first
    | extract_lets | with_reducible assumption | with_reducible apply Keeps.refl | with_reducible apply True.intro
    | with_reducible apply KeepsO.getD | with_reducible apply Keeps.ite
    | (with_reducible apply Keeps.forEach; rotate_left; intro s a) | simp only [Keeps.mk_iff] | split
    | (dsimp +zetaDelta only))

theorem State.putWord_keeps {z0 : State} (s : State) (t a v : Nat) (hk : Keeps z0 s) :
    Keeps z0 (State.putWord s t a v) := by
  unfold State.putWord
  repeat' (first
    | extract_lets | with_reducible assumption | with_reducible apply Keeps.refl | with_reducible apply True.intro
    | with_reducible apply State.addFeOp_keeps | with_reducible apply State.modThread_keeps
    | with_reducible apply State.writeWord_keeps | with_reducible apply State.setFull_keeps
    | with_reducible apply KeepsO.getD | with_reducible apply Keeps.ite
    | (with_reducible apply Keeps.forEach; rotate_left; intro s a) | simp only [Keeps.mk_iff] | split
    | (dsimp +zetaDelta only))

theorem State.sendSignal_keeps {z0 : State} (s : State) (e : SrcFlow) (fseq : BitVec 32) (n window off : Nat) (lost : Bool) (hk : Keeps z0 s) :
    Keeps z0 (State.sendSignal s e fseq n window off lost) := by
  unfold State.sendSignal
  repeat' (first
    | extract_lets | with_reducible assumption | with_reducible apply Keeps.refl | with_reducible apply True.intro
    | with_reducible apply State.bump_keeps | with_reducible apply State.dispatchFrame_keeps
    | with_reducible apply KeepsO.getD | with_reducible apply Keeps.ite
    | (with_reducible apply Keeps.forEach; rotate_left; intro s a) | simp only [Keeps.mk_iff] | split
    | (dsimp +zetaDelta only))

theorem State.remoteSignal_keeps {z : State} (s : State) (t dev window off flow n : Nat) (hk : Keeps z s) : KeepsR (fun s => s) z (s.remoteSignal t dev window off flow n) := by
  unfold State.remoteSignal
  repeat' (first
    | extract_lets | with_reducible assumption | with_reducible apply Keeps.refl | with_reducible apply True.intro
    | with_reducible apply State.windowReject_keeps | with_reducible apply State.modThread_keeps
    | with_reducible apply State.bump_keeps | with_reducible apply State.deliverLost_keeps
    | with_reducible apply State.setSrcFlow_keeps | with_reducible apply State.sendSignal_keeps
    | with_reducible apply State.signalAdd_keeps
    | with_reducible refine State.signalAdd_keeps_some (w := by assumption) (hk := ?_) ..
    | with_reducible refine State.openFlow_keeps_some (e := by assumption) (hk := ?_) ..
    | with_reducible apply State.openFlow_keeps_map | with_reducible apply KeepsE.mk
    | with_reducible apply KeepsE.mkError | with_reducible apply KeepsR.mk | with_reducible apply KeepsR.mkError
    | with_reducible apply KeepsR.mkPure | with_reducible apply KeepsR.readState
    | with_reducible apply KeepsR.readPair | with_reducible apply KeepsR.map | with_reducible apply KeepsR.read
    | with_reducible apply KeepsR.orFaultValue | (with_reducible apply KeepsR.orFault)
    | (with_reducible apply KeepsR.foldRun) <;> [(intro s a); skip] | with_reducible apply KeepsR.mapM
    | with_reducible apply KeepsR.ite | with_reducible apply KeepsR.bindState | with_reducible apply KeepsR.bindPair
    | with_reducible apply KeepsR.readAll | intro _ | with_reducible apply KeepsO.getD
    | with_reducible apply Keeps.ite | (with_reducible apply Keeps.forEach; rotate_left; intro s a)
    | simp only [Keeps.mk_iff] | split | (dsimp +zetaDelta only))

theorem State.remoteSignal_keeps_ok {z : State} (s : State) (t dev window off flow n : Nat) {u0 : State} (w : s.remoteSignal t dev window off flow n = .ok u0) (hk : Keeps z s) : Keeps z ((fun s => s) u0) :=
  KeepsR.ok (State.remoteSignal_keeps (hk := hk) ..) w

theorem State.remoteSignal_keeps_error {z : State} (s : State) (t dev window off flow n : Nat) {q : Nat × State} (w : s.remoteSignal t dev window off flow n = .error q) (hk : Keeps z s) : Keeps z q.2 :=
  KeepsR.error (State.remoteSignal_keeps (hk := hk) ..) w

theorem signalEffect.run_keeps {z : State} (t : Nat) (c : LineCheck) (th : Thread) (w : Nat) (s : State) (e : SyncEntry) (hk : Keeps z s) : KeepsR (fun s => s) z (signalEffect.run t c th w s e) := by
  unfold signalEffect.run
  repeat' (first
    | extract_lets | with_reducible assumption | with_reducible apply Keeps.refl | with_reducible apply True.intro
    | with_reducible apply State.commitTakes_keeps | with_reducible apply State.releaseThread_keeps
    | with_reducible apply State.putWord_keeps | with_reducible apply State.checkWord_keeps
    | with_reducible refine State.checkWord_keeps_eq (w := by assumption) (hk := ?_) ..
    | with_reducible apply State.commitConsumes_keeps
    | with_reducible refine State.commitConsumes_keeps_eq (w := by assumption) (hk := ?_) ..
    | with_reducible apply State.signalAdd_keeps
    | with_reducible refine State.signalAdd_keeps_some (w := by assumption) (hk := ?_) ..
    | with_reducible apply State.remoteSignal_keeps
    | with_reducible refine State.remoteSignal_keeps_ok (w := by assumption) (hk := ?_) ..
    | with_reducible refine State.remoteSignal_keeps_error (w := by assumption) (hk := ?_) ..
    | with_reducible apply KeepsE.mk | with_reducible apply KeepsE.mkError | with_reducible apply KeepsR.mk
    | with_reducible apply KeepsR.mkError | with_reducible apply KeepsR.mkPure
    | with_reducible apply KeepsR.readState | with_reducible apply KeepsR.readPair | with_reducible apply KeepsR.map
    | with_reducible apply KeepsR.read | with_reducible apply KeepsR.orFaultValue
    | (with_reducible apply KeepsR.orFault) | (with_reducible apply KeepsR.foldRun) <;> [(intro s a); skip]
    | with_reducible apply KeepsR.mapM | with_reducible apply KeepsR.ite | with_reducible apply KeepsR.bindState
    | with_reducible apply KeepsR.bindPair | with_reducible apply KeepsR.readAll | intro _
    | with_reducible apply KeepsO.getD | with_reducible apply Keeps.ite
    | (with_reducible apply Keeps.forEach; rotate_left; intro s a) | with_reducible apply signalEffect.run_keeps
    | simp only [Keeps.mk_iff] | split | (dsimp +zetaDelta only))

theorem signalEffect.run_keeps_ok {z : State} (t : Nat) (c : LineCheck) (th : Thread) (w : Nat) (s : State) (e : SyncEntry) {u0 : State} (w : signalEffect.run t c th w s e = .ok u0) (hk : Keeps z s) : Keeps z ((fun s => s) u0) :=
  KeepsR.ok (signalEffect.run_keeps (hk := hk) ..) w

theorem signalEffect.run_keeps_error {z : State} (t : Nat) (c : LineCheck) (th : Thread) (w : Nat) (s : State) (e : SyncEntry) {q : Nat × State} (w : signalEffect.run t c th w s e = .error q) (hk : Keeps z s) : Keeps z q.2 :=
  KeepsR.error (signalEffect.run_keeps (hk := hk) ..) w

theorem signalEffect_keeps {z : State} (t : Nat) (c : LineCheck) (s : State) (th : Thread) (w : Nat) (hk : Keeps z s) : KeepsR (fun s => s) z (signalEffect t c s th w) := by
  unfold signalEffect
  repeat' (first
    | extract_lets | with_reducible assumption | with_reducible apply Keeps.refl | with_reducible apply True.intro
    | with_reducible apply State.commitTakes_keeps | with_reducible apply State.releaseThread_keeps
    | with_reducible apply State.putWord_keeps | with_reducible apply State.checkWord_keeps
    | with_reducible refine State.checkWord_keeps_eq (w := by assumption) (hk := ?_) ..
    | with_reducible apply State.commitConsumes_keeps
    | with_reducible refine State.commitConsumes_keeps_eq (w := by assumption) (hk := ?_) ..
    | with_reducible apply State.signalAdd_keeps
    | with_reducible refine State.signalAdd_keeps_some (w := by assumption) (hk := ?_) ..
    | with_reducible apply State.remoteSignal_keeps
    | with_reducible refine State.remoteSignal_keeps_ok (w := by assumption) (hk := ?_) ..
    | with_reducible refine State.remoteSignal_keeps_error (w := by assumption) (hk := ?_) ..
    | with_reducible apply KeepsE.mk | with_reducible apply KeepsE.mkError | with_reducible apply KeepsR.mk
    | with_reducible apply KeepsR.mkError | with_reducible apply KeepsR.mkPure
    | with_reducible apply KeepsR.readState | with_reducible apply KeepsR.readPair | with_reducible apply KeepsR.map
    | with_reducible apply KeepsR.read | with_reducible apply KeepsR.orFaultValue
    | (with_reducible apply KeepsR.orFault) | (with_reducible apply KeepsR.foldRun) <;> [(intro s a); skip]
    | with_reducible apply KeepsR.mapM | with_reducible apply KeepsR.ite | with_reducible apply KeepsR.bindState
    | with_reducible apply KeepsR.bindPair | with_reducible apply KeepsR.readAll | intro _
    | with_reducible apply KeepsO.getD | with_reducible apply Keeps.ite
    | (with_reducible apply Keeps.forEach; rotate_left; intro s a) | with_reducible apply signalEffect.run_keeps
    | simp only [Keeps.mk_iff] | split | (dsimp +zetaDelta only))

theorem signalEffect_keeps_ok {z : State} (t : Nat) (c : LineCheck) (s : State) (th : Thread) (w : Nat) {u0 : State} (w : signalEffect t c s th w = .ok u0) (hk : Keeps z s) : Keeps z ((fun s => s) u0) :=
  KeepsR.ok (signalEffect_keeps (hk := hk) ..) w

theorem signalEffect_keeps_error {z : State} (t : Nat) (c : LineCheck) (s : State) (th : Thread) (w : Nat) {q : Nat × State} (w : signalEffect t c s th w = .error q) (hk : Keeps z s) : Keeps z q.2 :=
  KeepsR.error (signalEffect_keeps (hk := hk) ..) w

theorem execSignal_keeps (t : Fin 512) (check : LineCheck) (s : State) : KeepsOut s (execSignal t check s) := by
  have hk := Keeps.refl s
  unfold execSignal
  repeat' (first
    | extract_lets | with_reducible assumption | with_reducible apply Keeps.refl | with_reducible apply True.intro
    | with_reducible apply State.stall_keeps | with_reducible apply State.instantStep_keeps | intro _
    | with_reducible apply signalEffect_keeps
    | with_reducible refine signalEffect_keeps_ok (w := by assumption) (hk := ?_) ..
    | with_reducible refine signalEffect_keeps_error (w := by assumption) (hk := ?_) ..
    | with_reducible apply signalEffect.run_keeps
    | with_reducible refine signalEffect.run_keeps_ok (w := by assumption) (hk := ?_) ..
    | with_reducible refine signalEffect.run_keeps_error (w := by assumption) (hk := ?_) ..
    | with_reducible apply KeepsOut.mk | with_reducible apply KeepsOut.mkFault
    | with_reducible apply KeepsOut.mkRefused | with_reducible apply KeepsOut.ite | intro _
    | with_reducible apply KeepsO.getD | with_reducible apply Keeps.ite
    | (with_reducible apply Keeps.forEach; rotate_left; intro s a) | simp only [Keeps.mk_iff] | split
    | (dsimp +zetaDelta only))

theorem execPutComplete_keeps (t : Fin 512) (s : State) : KeepsOut s (execPutComplete t s) := by
  have hk := Keeps.refl s
  unfold execPutComplete
  repeat' (first
    | extract_lets | with_reducible assumption | with_reducible apply Keeps.refl | with_reducible apply True.intro
    | with_reducible apply State.writeWord_keeps | with_reducible apply State.setFull_keeps
    | with_reducible apply State.modCtx_keeps | with_reducible apply State.modThread_keeps
    | with_reducible apply State.maybeEnd_keeps | with_reducible apply KeepsOut.mk
    | with_reducible apply KeepsOut.mkFault | with_reducible apply KeepsOut.mkRefused
    | with_reducible apply KeepsOut.ite | intro _ | with_reducible apply KeepsO.getD
    | with_reducible apply Keeps.ite | (with_reducible apply Keeps.forEach; rotate_left; intro s a)
    | simp only [Keeps.mk_iff] | split | (dsimp +zetaDelta only))

theorem State.reserve_keeps {z0 : State} (s : State) (t a : Nat) (hk : Keeps z0 s) :
    Keeps z0 (State.reserve s t a) := by
  unfold State.reserve
  repeat' (first
    | extract_lets | with_reducible assumption | with_reducible apply Keeps.refl | with_reducible apply True.intro
    | with_reducible apply State.setReserved_keeps | with_reducible apply State.modThread_keeps
    | with_reducible apply KeepsO.getD | with_reducible apply Keeps.ite
    | (with_reducible apply Keeps.forEach; rotate_left; intro s a) | simp only [Keeps.mk_iff] | split
    | (dsimp +zetaDelta only))

theorem State.takeFault_keeps {z0 : State} (s : State) (t : Nat) (hk : Keeps z0 s) :
    Keeps z0 (State.takeFault s t) := by
  unfold State.takeFault
  repeat' (first
    | extract_lets | with_reducible assumption | with_reducible apply Keeps.refl | with_reducible apply True.intro
    | with_reducible apply State.modThread_keeps | with_reducible apply State.stepFault_keeps
    | with_reducible apply KeepsO.getD | with_reducible apply Keeps.ite
    | (with_reducible apply Keeps.forEach; rotate_left; intro s a) | simp only [Keeps.mk_iff] | split
    | (dsimp +zetaDelta only))

theorem State.satisfy_keeps {z0 : State} (s : State) (t : Nat) (w : Waiting) (hk : Keeps z0 s) :
    Keeps z0 (State.satisfy s t w) := by
  unfold State.satisfy
  repeat' (first
    | extract_lets | with_reducible assumption | with_reducible apply Keeps.refl | with_reducible apply True.intro
    | with_reducible apply State.makeReady_keeps | with_reducible apply State.modThread_keeps
    | with_reducible apply State.publish_keeps | with_reducible apply KeepsO.getD | with_reducible apply Keeps.ite
    | (with_reducible apply Keeps.forEach; rotate_left; intro s a) | simp only [Keeps.mk_iff] | split
    | (dsimp +zetaDelta only))

theorem State.block_keeps {z0 : State} (s : State) (t : Nat) (w : Waiting) (hk : Keeps z0 s) :
    Keeps z0 (State.block s t w) := by
  unfold State.block
  repeat' (first
    | extract_lets | with_reducible assumption | with_reducible apply Keeps.refl | with_reducible apply True.intro
    | with_reducible apply State.modThread_keeps | with_reducible apply KeepsO.getD | with_reducible apply Keeps.ite
    | (with_reducible apply Keeps.forEach; rotate_left; intro s a) | simp only [Keeps.mk_iff] | split
    | (dsimp +zetaDelta only))

theorem waitEffect_keeps {z : State} (t : Nat) (c : LineCheck) (s : State) (th : Thread) (w : Nat) (hk : Keeps z s) : KeepsR (fun s => s) z (waitEffect t c s th w) := by
  unfold waitEffect
  repeat' (first
    | extract_lets | with_reducible assumption | with_reducible apply Keeps.refl | with_reducible apply True.intro
    | with_reducible apply State.satisfy_keeps | with_reducible apply State.block_keeps
    | with_reducible apply State.checkAt_keeps | with_reducible apply State.reserve_keeps
    | with_reducible apply State.addFeOp_keeps | with_reducible apply State.modThread_keeps
    | with_reducible apply State.checkWord_keeps
    | with_reducible refine State.checkWord_keeps_eq (w := by assumption) (hk := ?_) ..
    | with_reducible apply KeepsE.mk | with_reducible apply KeepsE.mkError | with_reducible apply KeepsR.mk
    | with_reducible apply KeepsR.mkError | with_reducible apply KeepsR.mkPure
    | with_reducible apply KeepsR.readState | with_reducible apply KeepsR.readPair | with_reducible apply KeepsR.map
    | with_reducible apply KeepsR.read | with_reducible apply KeepsR.orFaultValue
    | (with_reducible apply KeepsR.orFault) | (with_reducible apply KeepsR.foldRun) <;> [(intro s a); skip]
    | with_reducible apply KeepsR.mapM | with_reducible apply KeepsR.ite | with_reducible apply KeepsR.bindState
    | with_reducible apply KeepsR.bindPair | with_reducible apply KeepsR.readAll | intro _
    | with_reducible apply KeepsO.getD | with_reducible apply Keeps.ite
    | (with_reducible apply Keeps.forEach; rotate_left; intro s a) | simp only [Keeps.mk_iff] | split
    | (dsimp +zetaDelta only))

theorem waitEffect_keeps_ok {z : State} (t : Nat) (c : LineCheck) (s : State) (th : Thread) (w : Nat) {u0 : State} (w : waitEffect t c s th w = .ok u0) (hk : Keeps z s) : Keeps z ((fun s => s) u0) :=
  KeepsR.ok (waitEffect_keeps (hk := hk) ..) w

theorem waitEffect_keeps_error {z : State} (t : Nat) (c : LineCheck) (s : State) (th : Thread) (w : Nat) {q : Nat × State} (w : waitEffect t c s th w = .error q) (hk : Keeps z s) : Keeps z q.2 :=
  KeepsR.error (waitEffect_keeps (hk := hk) ..) w

theorem execWait_keeps (t : Fin 512) (check : LineCheck) (s : State) : KeepsOut s (execWait t check s) := by
  have hk := Keeps.refl s
  unfold execWait
  repeat' (first
    | extract_lets | with_reducible assumption | with_reducible apply Keeps.refl | with_reducible apply True.intro
    | with_reducible apply State.stall_keeps | with_reducible apply State.instantStep_keeps | intro _
    | with_reducible apply waitEffect_keeps
    | with_reducible refine waitEffect_keeps_ok (w := by assumption) (hk := ?_) ..
    | with_reducible refine waitEffect_keeps_error (w := by assumption) (hk := ?_) ..
    | with_reducible apply KeepsOut.mk | with_reducible apply KeepsOut.mkFault
    | with_reducible apply KeepsOut.mkRefused | with_reducible apply KeepsOut.ite | intro _
    | with_reducible apply KeepsO.getD | with_reducible apply Keeps.ite
    | (with_reducible apply Keeps.forEach; rotate_left; intro s a) | simp only [Keeps.mk_iff] | split
    | (dsimp +zetaDelta only))

theorem State.timeWake_keeps {z0 : State} (s : State) (b bound : Nat) (polled : Bool) (hk : Keeps z0 s) :
    Keeps z0 (State.timeWake s b bound polled) := by
  unfold State.timeWake
  repeat' (first
    | extract_lets | with_reducible assumption | with_reducible apply Keeps.refl | with_reducible apply True.intro
    | with_reducible apply State.drawn_keeps | with_reducible apply State.setFld_keeps
    | with_reducible apply State.raise_keeps | with_reducible apply KeepsO.getD | with_reducible apply Keeps.ite
    | (with_reducible apply Keeps.forEach; rotate_left; intro s a) | simp only [Keeps.mk_iff] | split
    | (dsimp +zetaDelta only))

theorem execWaitSatisfied_keeps (t : Fin 512) (s : State) : KeepsOut s (execWaitSatisfied t s) := by
  have hk := Keeps.refl s
  unfold execWaitSatisfied
  repeat' (first
    | extract_lets | with_reducible assumption | with_reducible apply Keeps.refl | with_reducible apply True.intro
    | with_reducible apply State.satisfy_keeps | with_reducible apply State.timeWake_keeps
    | with_reducible apply State.maybeEnd_keeps | with_reducible apply KeepsOut.mk
    | with_reducible apply KeepsOut.mkFault | with_reducible apply KeepsOut.mkRefused
    | with_reducible apply KeepsOut.ite | intro _ | with_reducible apply KeepsO.getD
    | with_reducible apply Keeps.ite | (with_reducible apply Keeps.forEach; rotate_left; intro s a)
    | simp only [Keeps.mk_iff] | split | (dsimp +zetaDelta only))

theorem State.takeNow_keeps {z0 : State} (s : State) (t : Nat) (o : FeOp) (hk : Keeps z0 s) :
    Keeps z0 (State.takeNow s t o) := by
  unfold State.takeNow
  repeat' (first
    | extract_lets | with_reducible assumption | with_reducible apply Keeps.refl | with_reducible apply True.intro
    | with_reducible apply State.takeFault_keeps | with_reducible apply State.reserve_keeps
    | with_reducible apply State.modThread_keeps | with_reducible apply State.makeReady_keeps
    | with_reducible apply State.timeWake_keeps | with_reducible apply KeepsO.getD | with_reducible apply Keeps.ite
    | (with_reducible apply Keeps.forEach; rotate_left; intro s a) | simp only [Keeps.mk_iff] | split
    | (dsimp +zetaDelta only))

theorem execWaitTimeout_keeps (t : Fin 512) (s : State) : KeepsOut s (execWaitTimeout t s) := by
  have hk := Keeps.refl s
  unfold execWaitTimeout
  repeat' (first
    | extract_lets | with_reducible assumption | with_reducible apply Keeps.refl | with_reducible apply True.intro
    | with_reducible apply State.takeNow_keeps | with_reducible apply State.maybeEnd_keeps
    | with_reducible apply State.withdrawTagged_keeps | with_reducible apply State.modThread_keeps
    | with_reducible apply State.makeReady_keeps | with_reducible apply State.bump_keeps
    | with_reducible apply State.timeWake_keeps | with_reducible apply KeepsOut.mk
    | with_reducible apply KeepsOut.mkFault | with_reducible apply KeepsOut.mkRefused
    | with_reducible apply KeepsOut.ite | intro _ | with_reducible apply KeepsO.getD
    | with_reducible apply Keeps.ite | (with_reducible apply Keeps.forEach; rotate_left; intro s a)
    | simp only [Keeps.mk_iff] | split | (dsimp +zetaDelta only))

theorem execTakeReserve_keeps (t : Fin 512) (s : State) : KeepsOut s (execTakeReserve t s) := by
  have hk := Keeps.refl s
  unfold execTakeReserve
  repeat' (first
    | extract_lets | with_reducible assumption | with_reducible apply Keeps.refl | with_reducible apply True.intro
    | with_reducible apply State.takeNow_keeps | with_reducible apply State.maybeEnd_keeps
    | with_reducible apply KeepsOut.mk | with_reducible apply KeepsOut.mkFault
    | with_reducible apply KeepsOut.mkRefused | with_reducible apply KeepsOut.ite | intro _
    | with_reducible apply KeepsO.getD | with_reducible apply Keeps.ite
    | (with_reducible apply Keeps.forEach; rotate_left; intro s a) | simp only [Keeps.mk_iff] | split
    | (dsimp +zetaDelta only))

theorem State.resolvePower_keeps {z : State} (s : State) (b : Nat) (m : Nat → Bool) (pred : Bool) (hk : Keeps z s) :
    Keeps z (s.resolvePower b m pred) := by
  unfold State.resolvePower
  repeat' (first
    | extract_lets | with_reducible assumption | with_reducible apply Keeps.refl | with_reducible apply True.intro
    | with_reducible apply State.modThread_keeps | with_reducible apply State.makeReady_keeps
    | with_reducible apply State.maybeEnd_keeps | with_reducible apply KeepsO.getD | with_reducible apply Keeps.ite
    | (with_reducible apply Keeps.forEach; rotate_left; intro s a) | simp only [Keeps.mk_iff] | split
    | (dsimp +zetaDelta only))

theorem execFence_keeps (t : Fin 512) (s : State) : KeepsOut s (execFence t s) :=
  State.longStep_keeps _ _ _ _ (fun _ _ _ _ _ h => State.modStep_keeps _ _ _ _ h) (Keeps.refl s)

theorem execFenceComplete_keeps (t : Fin 512) (s : State) : KeepsOut s (execFenceComplete t s) := by
  have hk := Keeps.refl s
  unfold execFenceComplete
  repeat' (first
    | extract_lets | with_reducible assumption | with_reducible apply Keeps.refl | with_reducible apply True.intro
    | with_reducible apply State.modThread_keeps | with_reducible apply State.maybeEnd_keeps
    | with_reducible apply KeepsOut.mk | with_reducible apply KeepsOut.mkFault
    | with_reducible apply KeepsOut.mkRefused | with_reducible apply KeepsOut.ite | intro _
    | with_reducible apply KeepsO.getD | with_reducible apply Keeps.ite
    | (with_reducible apply Keeps.forEach; rotate_left; intro s a) | simp only [Keeps.mk_iff] | split
    | (dsimp +zetaDelta only))

theorem execSetmode_keeps (t : Fin 512) (s : State) : KeepsOut s (execSetmode t s) :=
  State.instantStep_keeps _ _ _ _ (fun _ _ _ _ h => State.modThread_keeps _ _ _ h) (Keeps.refl s)

theorem branchEffect_keeps {z : State} (t : Nat) (c : LineCheck) (s : State) (th : Thread) (w : Nat) (hk : Keeps z s) : KeepsR (fun s => s) z (branchEffect t c s th w) := by
  unfold branchEffect
  repeat' (first
    | extract_lets | with_reducible assumption | with_reducible apply Keeps.refl | with_reducible apply True.intro
    | with_reducible apply State.modThread_keeps | with_reducible apply State.endThread_keeps
    | with_reducible apply State.checkWord_keeps
    | with_reducible refine State.checkWord_keeps_eq (w := by assumption) (hk := ?_) ..
    | with_reducible apply KeepsE.mk | with_reducible apply KeepsE.mkError | with_reducible apply KeepsR.mk
    | with_reducible apply KeepsR.mkError | with_reducible apply KeepsR.mkPure
    | with_reducible apply KeepsR.readState | with_reducible apply KeepsR.readPair | with_reducible apply KeepsR.map
    | with_reducible apply KeepsR.read | with_reducible apply KeepsR.orFaultValue
    | (with_reducible apply KeepsR.orFault) | (with_reducible apply KeepsR.foldRun) <;> [(intro s a); skip]
    | with_reducible apply KeepsR.mapM | with_reducible apply KeepsR.ite | with_reducible apply KeepsR.bindState
    | with_reducible apply KeepsR.bindPair | with_reducible apply KeepsR.readAll | intro _
    | with_reducible apply KeepsO.getD | with_reducible apply Keeps.ite
    | (with_reducible apply Keeps.forEach; rotate_left; intro s a) | simp only [Keeps.mk_iff] | split
    | (dsimp +zetaDelta only))

theorem branchEffect_keeps_ok {z : State} (t : Nat) (c : LineCheck) (s : State) (th : Thread) (w : Nat) {u0 : State} (w : branchEffect t c s th w = .ok u0) (hk : Keeps z s) : Keeps z ((fun s => s) u0) :=
  KeepsR.ok (branchEffect_keeps (hk := hk) ..) w

theorem branchEffect_keeps_error {z : State} (t : Nat) (c : LineCheck) (s : State) (th : Thread) (w : Nat) {q : Nat × State} (w : branchEffect t c s th w = .error q) (hk : Keeps z s) : Keeps z q.2 :=
  KeepsR.error (branchEffect_keeps (hk := hk) ..) w

theorem execBranch_keeps (t : Fin 512) (check : LineCheck) (s : State) : KeepsOut s (execBranch t check s) := by
  have hk := Keeps.refl s
  unfold execBranch
  repeat' (first
    | extract_lets | with_reducible assumption | with_reducible apply Keeps.refl | with_reducible apply True.intro
    | with_reducible apply State.instantStep_keeps | intro _ | with_reducible apply branchEffect_keeps
    | with_reducible refine branchEffect_keeps_ok (w := by assumption) (hk := ?_) ..
    | with_reducible refine branchEffect_keeps_error (w := by assumption) (hk := ?_) ..
    | with_reducible apply KeepsOut.mk | with_reducible apply KeepsOut.mkFault
    | with_reducible apply KeepsOut.mkRefused | with_reducible apply KeepsOut.ite | intro _
    | with_reducible apply KeepsO.getD | with_reducible apply Keeps.ite
    | (with_reducible apply Keeps.forEach; rotate_left; intro s a) | simp only [Keeps.mk_iff] | split
    | (dsimp +zetaDelta only))

theorem execWatchedWordWrite_keeps (addr : BitVec 48) (s : State) : KeepsOut s (execWatchedWordWrite addr s) := by
  have hk := Keeps.refl s
  unfold execWatchedWordWrite
  repeat' (first
    | extract_lets | with_reducible assumption | with_reducible apply Keeps.refl | with_reducible apply True.intro
    | with_reducible apply State.evalWaiters_keeps | with_reducible apply KeepsOut.mk
    | with_reducible apply KeepsOut.mkFault | with_reducible apply KeepsOut.mkRefused
    | with_reducible apply KeepsOut.ite | intro _ | with_reducible apply KeepsO.getD
    | with_reducible apply Keeps.ite | (with_reducible apply Keeps.forEach; rotate_left; intro s a)
    | simp only [Keeps.mk_iff] | split | (dsimp +zetaDelta only))

theorem execPolledWordRead_keeps (b : Fin 4) (s : State) : KeepsOut s (execPolledWordRead b s) := by
  have hk := Keeps.refl s
  unfold execPolledWordRead
  repeat' (first
    | extract_lets | with_reducible assumption | with_reducible apply Keeps.refl | with_reducible apply True.intro
    | with_reducible apply State.evalWaiters_keeps | with_reducible apply KeepsOut.mk
    | with_reducible apply KeepsOut.mkFault | with_reducible apply KeepsOut.mkRefused
    | with_reducible apply KeepsOut.ite | intro _ | with_reducible apply KeepsO.getD
    | with_reducible apply Keeps.ite | (with_reducible apply Keeps.forEach; rotate_left; intro s a)
    | simp only [Keeps.mk_iff] | split | (dsimp +zetaDelta only))

theorem execHostLineInvalidate_keeps (line : BitVec 46) (data : List Byte) (s : State) : KeepsOut s (execHostLineInvalidate line data s) := by
  have hk := Keeps.refl s
  unfold execHostLineInvalidate
  repeat' (first
    | extract_lets | with_reducible assumption | with_reducible apply Keeps.refl | with_reducible apply True.intro
    | with_reducible apply State.hostStore_keeps | with_reducible apply State.evalWaiters_keeps
    | with_reducible apply KeepsOut.mk | with_reducible apply KeepsOut.mkFault
    | with_reducible apply KeepsOut.mkRefused | with_reducible apply KeepsOut.ite | intro _
    | with_reducible apply KeepsO.getD | with_reducible apply Keeps.ite
    | (with_reducible apply Keeps.forEach; rotate_left; intro s a) | simp only [Keeps.mk_iff] | split
    | (dsimp +zetaDelta only))

end Sys2Proof.Machine
end

