-- ==== Sys2Proof/Laws/KeepStreams.lean ====
section
/-! SUPPORT. What the definitions of Machine/Streams.lean keep (Keeps, Laws/Keep.lean). -/

set_option linter.all false

namespace Sys2Proof.Machine

theorem State.larderRead_keeps {z : State} (s : State) (b line : Nat) (pf : Bool) (hint : Nat) (hk : Keeps z s) : Keeps z (s.larderRead b line pf hint).1 := by
  unfold State.larderRead
  repeat' (first
    | extract_lets | with_reducible assumption | with_reducible apply Keeps.refl | with_reducible apply True.intro
    | with_reducible apply State.setBay_keeps | with_reducible apply State.bump_keeps
    | with_reducible apply State.modBay_keeps | with_reducible apply KeepsO.getD | with_reducible apply Keeps.ite
    | (with_reducible apply Keeps.forEach; rotate_left; intro s a) | simp only [Keeps.mk_iff] | split
    | (dsimp +zetaDelta only))

theorem State.larderRead_keeps_eq {z : State} (s : State) (b line : Nat) (pf : Bool) (hint : Nat) {q} (hk : Keeps z s) (w : s.larderRead b line pf hint = q) : Keeps z q.1 := by
  subst w; exact State.larderRead_keeps (hk := hk) ..

theorem State.fetch_keeps {z : State} (s : State) (b : Nat) (w : Bool) (x : Xfer) (hk : Keeps z s) : Keeps z (s.fetch b w x).1 := by
  unfold State.fetch
  refine Keeps.foldl _ _ ?_ hk
  intro r a
  exact State.larderRead_keeps _ _ _ _ _ (Keeps.refl _)

theorem State.prefetch_keeps {z0 : State} (s : State) (b : Nat) (xs : List Xfer) (hk : Keeps z0 s) :
    Keeps z0 (State.prefetch s b xs) := by
  unfold State.prefetch
  repeat' (first
    | extract_lets | with_reducible assumption | with_reducible apply Keeps.refl | with_reducible apply True.intro
    | with_reducible apply State.larderRead_keeps
    | with_reducible refine State.larderRead_keeps_eq (w := by assumption) (hk := ?_) ..
    | with_reducible apply KeepsO.getD | with_reducible apply Keeps.ite
    | (with_reducible apply Keeps.forEach; rotate_left; intro s a) | simp only [Keeps.mk_iff] | split
    | (dsimp +zetaDelta only))

theorem State.streamFault_keeps {z0 : State} (s : State) (x : Stream) (hk : Keeps z0 s) :
    Keeps z0 (State.streamFault s x) := by
  unfold State.streamFault
  repeat' (first
    | extract_lets | with_reducible assumption | with_reducible apply Keeps.refl | with_reducible apply True.intro
    | with_reducible apply State.stepFault_keeps | with_reducible apply KeepsO.getD | with_reducible apply Keeps.ite
    | (with_reducible apply Keeps.forEach; rotate_left; intro s a) | simp only [Keeps.mk_iff] | split
    | (dsimp +zetaDelta only))

theorem State.issueStream_keeps {z : State} (s : State) (b i n : Nat) (hk : Keeps z s) : Keeps z (s.issueStream b i n) := by
  induction n generalizing s with
  | zero => exact hk
  | succ n ih =>
    unfold State.issueStream
    repeat' (first
      | extract_lets
      | (with_reducible assumption)
      | (refine ih _ ?_)
      | (with_reducible apply State.streamFault_keeps)
      | (with_reducible apply State.modBay_keeps)
      | (with_reducible apply State.modThread_keeps)
      | (with_reducible apply State.fetch_keeps)
      | (with_reducible refine State.translate_keeps_some (w := by assumption) (hk := ?_) ..)
      | split
      | (dsimp +zetaDelta only))

theorem State.regrant_keeps {z0 : State} (s : State) (b : Nat) (hk : Keeps z0 s) :
    Keeps z0 (State.regrant s b) := by
  unfold State.regrant
  repeat' (first
    | extract_lets | with_reducible assumption | with_reducible apply Keeps.refl | with_reducible apply True.intro
    | with_reducible apply State.issueStream_keeps | with_reducible apply KeepsO.getD
    | with_reducible apply Keeps.ite | (with_reducible apply Keeps.forEach; rotate_left; intro s a)
    | simp only [Keeps.mk_iff] | split | (dsimp +zetaDelta only))

theorem State.regrantAll_keeps {z0 : State} (s : State) (hk : Keeps z0 s) :
    Keeps z0 (State.regrantAll s) := by
  unfold State.regrantAll
  repeat' (first
    | extract_lets | with_reducible assumption | with_reducible apply Keeps.refl | with_reducible apply True.intro
    | with_reducible apply State.regrant_keeps | with_reducible apply KeepsO.getD | with_reducible apply Keeps.ite
    | (with_reducible apply Keeps.forEach; rotate_left; intro s a) | simp only [Keeps.mk_iff] | split
    | (dsimp +zetaDelta only))

theorem State.addXfers_keeps {z0 : State} (s : State) (t uid : Nat) (name : StreamName) (write : Bool) (depth : Nat) (xs : List Xfer) (hk : Keeps z0 s) :
    Keeps z0 (State.addXfers s t uid name write depth xs) := by
  unfold State.addXfers
  repeat' (first
    | extract_lets | with_reducible assumption | with_reducible apply Keeps.refl | with_reducible apply True.intro
    | with_reducible apply State.modBay_keeps | with_reducible apply KeepsO.getD | with_reducible apply Keeps.ite
    | (with_reducible apply Keeps.forEach; rotate_left; intro s a) | simp only [Keeps.mk_iff] | split
    | (dsimp +zetaDelta only))

theorem State.openItems_keeps {z0 : State} (s : State) (t uid : Nat) (name : StreamName) (write : Bool) (n : Nat) (items : List Item) (z : Nat) (hk : Keeps z0 s) :
    Keeps z0 (State.openItems s t uid name write n items z) := by
  unfold State.openItems
  repeat' (first
    | extract_lets | with_reducible assumption | with_reducible apply Keeps.refl | with_reducible apply True.intro
    | with_reducible apply State.addXfers_keeps | with_reducible apply KeepsO.getD | with_reducible apply Keeps.ite
    | (with_reducible apply Keeps.forEach; rotate_left; intro s a) | simp only [Keeps.mk_iff] | split
    | (dsimp +zetaDelta only))

theorem State.fillDone_keeps {z0 : State} (s : State) (b line : Nat) (hk : Keeps z0 s) :
    Keeps z0 (State.fillDone s b line) := by
  unfold State.fillDone
  repeat' (first
    | extract_lets | with_reducible assumption | with_reducible apply Keeps.refl | with_reducible apply True.intro
    | with_reducible apply State.modBay_keeps | with_reducible apply KeepsO.getD | with_reducible apply Keeps.ite
    | (with_reducible apply Keeps.forEach; rotate_left; intro s a) | simp only [Keeps.mk_iff] | split
    | (dsimp +zetaDelta only))

theorem execLarderFillComplete_keeps (b : Fin 4) (line : Nat) (check : LineCheck) (s : State) : KeepsOut s (execLarderFillComplete b line check s) := by
  have hk := Keeps.refl s
  unfold execLarderFillComplete
  repeat' (first
    | extract_lets | with_reducible assumption | with_reducible apply Keeps.refl | with_reducible apply True.intro
    | with_reducible apply State.modBay_keeps | with_reducible apply State.uncorrectable_keeps
    | with_reducible apply State.streamFault_keeps | with_reducible apply State.fillDone_keeps
    | with_reducible apply State.corrected_keeps | with_reducible apply State.beatRetried_keeps
    | with_reducible apply KeepsOut.mk | with_reducible apply KeepsOut.mkFault
    | with_reducible apply KeepsOut.mkRefused | with_reducible apply KeepsOut.ite | intro _
    | with_reducible apply KeepsO.getD | with_reducible apply Keeps.ite
    | (with_reducible apply Keeps.forEach; rotate_left; intro s a) | simp only [Keeps.mk_iff] | split
    | (dsimp +zetaDelta only))

theorem State.flushLarder_keeps {z0 : State} (s : State) (b : Nat) (hk : Keeps z0 s) :
    Keeps z0 (State.flushLarder s b) := by
  unfold State.flushLarder
  repeat' (first
    | extract_lets | with_reducible assumption | with_reducible apply Keeps.refl | with_reducible apply True.intro
    | with_reducible apply State.modBay_keeps | with_reducible apply KeepsO.getD | with_reducible apply Keeps.ite
    | (with_reducible apply Keeps.forEach; rotate_left; intro s a) | simp only [Keeps.mk_iff] | split
    | (dsimp +zetaDelta only))

theorem execLarderFlush_keeps (p : Path) (b : Fin 4) (s : State) : KeepsOut s (execLarderFlush p b s) := by
  have hk := Keeps.refl s
  unfold execLarderFlush
  repeat' (first
    | extract_lets | with_reducible assumption | with_reducible apply Keeps.refl | with_reducible apply True.intro
    | with_reducible apply State.holdWrite_keeps | with_reducible apply State.flushLarder_keeps
    | with_reducible apply KeepsOut.mk | with_reducible apply KeepsOut.mkFault
    | with_reducible apply KeepsOut.mkRefused | with_reducible apply KeepsOut.ite | intro _
    | with_reducible apply KeepsO.getD | with_reducible apply Keeps.ite
    | (with_reducible apply Keeps.forEach; rotate_left; intro s a) | simp only [Keeps.mk_iff] | split
    | (dsimp +zetaDelta only))

theorem execLarderFlushDone_keeps (b : Fin 4) (s : State) : KeepsOut s (execLarderFlushDone b s) := by
  have hk := Keeps.refl s
  unfold execLarderFlushDone
  repeat' (first
    | extract_lets | with_reducible assumption | with_reducible apply Keeps.refl | with_reducible apply True.intro
    | with_reducible apply State.modBay_keeps | with_reducible apply KeepsOut.mk
    | with_reducible apply KeepsOut.mkFault | with_reducible apply KeepsOut.mkRefused
    | with_reducible apply KeepsOut.ite | intro _ | with_reducible apply KeepsO.getD
    | with_reducible apply Keeps.ite | (with_reducible apply Keeps.forEach; rotate_left; intro s a)
    | simp only [Keeps.mk_iff] | split | (dsimp +zetaDelta only))

theorem State.checkRead_keeps {z : State} (s : State) (b a : Nat) (src : XferEnd) (check : LineCheck) (hk : Keeps z s) : Keeps z (s.checkRead b a src check).1 := by
  unfold State.checkRead
  repeat' (first
    | extract_lets | with_reducible assumption | with_reducible apply Keeps.refl | with_reducible apply True.intro
    | with_reducible apply State.corrected_keeps | with_reducible apply State.bump_keeps
    | with_reducible apply State.uncorrectable_keeps | with_reducible apply State.modBay_keeps
    | with_reducible apply State.beatRetried_keeps | with_reducible apply State.cacheRead_keeps
    | with_reducible refine State.cacheRead_keeps_eq (w := by assumption) (hk := ?_) ..
    | with_reducible apply KeepsO.getD | with_reducible apply Keeps.ite
    | (with_reducible apply Keeps.forEach; rotate_left; intro s a) | simp only [Keeps.mk_iff] | split
    | (dsimp +zetaDelta only))

theorem State.checkRead_keeps_eq {z : State} (s : State) (b a : Nat) (src : XferEnd) (check : LineCheck) {q} (hk : Keeps z s) (w : s.checkRead b a src check = q) : Keeps z q.1 := by
  subst w; exact State.checkRead_keeps (hk := hk) ..

theorem State.endXfer_keeps {z0 : State} (s : State) (b i : Nat) (x : Stream) (d : Xfer) (hk : Keeps z0 s) :
    Keeps z0 (State.endXfer s b i x d) := by
  unfold State.endXfer
  repeat' (first
    | extract_lets | with_reducible assumption | with_reducible apply Keeps.refl | with_reducible apply True.intro
    | with_reducible apply State.modBay_keeps | with_reducible apply KeepsO.getD | with_reducible apply Keeps.ite
    | (with_reducible apply Keeps.forEach; rotate_left; intro s a) | simp only [Keeps.mk_iff] | split
    | (dsimp +zetaDelta only))

theorem State.unstall_keeps {z0 : State} (s : State) (c : Nat) (hk : Keeps z0 s) :
    Keeps z0 (State.unstall s c) := by
  unfold State.unstall
  repeat' (first
    | extract_lets | with_reducible assumption | with_reducible apply Keeps.refl | with_reducible apply True.intro
    | with_reducible apply KeepsO.getD | with_reducible apply Keeps.ite
    | (with_reducible apply Keeps.forEach; rotate_left; intro s a) | simp only [Keeps.mk_iff] | split
    | (dsimp +zetaDelta only))

theorem execTransferComplete_keeps (t : Fin 512) (src : XferEnd) (addr : BitVec 48) (bytes : Nat) (check : LineCheck) (s : State) : KeepsOut s (execTransferComplete t src addr bytes check s) := by
  have hk := Keeps.refl s
  unfold execTransferComplete
  repeat' (first
    | extract_lets | with_reducible assumption | with_reducible apply Keeps.refl | with_reducible apply True.intro
    | with_reducible apply State.unstall_keeps | with_reducible apply State.kickAll_keeps
    | with_reducible apply State.regrantAll_keeps | with_reducible apply State.endXfer_keeps
    | with_reducible apply State.streamFault_keeps | with_reducible apply State.modBay_keeps
    | with_reducible apply State.checkRead_keeps
    | with_reducible refine State.checkRead_keeps_eq (w := by assumption) (hk := ?_) ..
    | with_reducible apply KeepsOut.mk | with_reducible apply KeepsOut.mkFault
    | with_reducible apply KeepsOut.mkRefused | with_reducible apply KeepsOut.ite | intro _
    | with_reducible apply KeepsO.getD | with_reducible apply Keeps.ite
    | (with_reducible apply Keeps.forEach; rotate_left; intro s a) | simp only [Keeps.mk_iff] | split
    | (dsimp +zetaDelta only))

theorem State.consume_keeps {z0 : State} (s : State) (t uid piece past : Nat) (hk : Keeps z0 s) :
    Keeps z0 (State.consume s t uid piece past) := by
  unfold State.consume
  repeat' (first
    | extract_lets | with_reducible assumption | with_reducible apply Keeps.refl | with_reducible apply True.intro
    | with_reducible apply State.modBay_keeps | with_reducible apply KeepsO.getD | with_reducible apply Keeps.ite
    | (with_reducible apply Keeps.forEach; rotate_left; intro s a) | simp only [Keeps.mk_iff] | split
    | (dsimp +zetaDelta only))

theorem State.spill_keeps {z0 : State} (s : State) (b i : Nat) (x : Stream) (hk : Keeps z0 s) :
    Keeps z0 (State.spill s b i x) := by
  unfold State.spill
  repeat' (first
    | extract_lets | with_reducible assumption | with_reducible apply Keeps.refl | with_reducible apply True.intro
    | with_reducible apply State.stepFault_keeps | with_reducible apply State.devWrite_keeps
    | with_reducible apply State.modBay_keeps | with_reducible apply State.bump_keeps
    | with_reducible apply State.setFld_keeps | with_reducible apply State.event_keeps
    | with_reducible apply State.regrant_keeps | with_reducible apply KeepsO.getD | with_reducible apply Keeps.ite
    | (with_reducible apply Keeps.forEach; rotate_left; intro s a) | simp only [Keeps.mk_iff] | split
    | (dsimp +zetaDelta only))

theorem execBlockedStreamCheck_keeps (b : Fin 4) (s : State) : KeepsOut s (execBlockedStreamCheck b s) := by
  have hk := Keeps.refl s
  unfold execBlockedStreamCheck
  repeat' (first
    | extract_lets | with_reducible assumption | with_reducible apply Keeps.refl | with_reducible apply True.intro
    | with_reducible apply State.regrant_keeps | with_reducible apply State.spill_keeps
    | with_reducible apply KeepsOut.mk | with_reducible apply KeepsOut.mkFault
    | with_reducible apply KeepsOut.mkRefused | with_reducible apply KeepsOut.ite | intro _
    | with_reducible apply KeepsO.getD | with_reducible apply Keeps.ite
    | (with_reducible apply Keeps.forEach; rotate_left; intro s a) | simp only [Keeps.mk_iff] | split
    | (dsimp +zetaDelta only))

theorem State.countEngine_keeps {z0 : State} (s : State) (a : Active) (hk : Keeps z0 s) :
    Keeps z0 (State.countEngine s a) := by
  unfold State.countEngine
  repeat' (first
    | extract_lets | with_reducible assumption | with_reducible apply Keeps.refl | with_reducible apply True.intro
    | with_reducible apply State.bump_keeps | with_reducible apply KeepsO.getD | with_reducible apply Keeps.ite
    | (with_reducible apply Keeps.forEach; rotate_left; intro s a) | simp only [Keeps.mk_iff] | split
    | (dsimp +zetaDelta only))

theorem execStepComplete_keeps (t : Fin 512) (k : Nat) (s : State) : KeepsOut s (execStepComplete t k s) := by
  have hk := Keeps.refl s
  unfold execStepComplete
  repeat' (first
    | extract_lets | with_reducible assumption | with_reducible apply Keeps.refl | with_reducible apply True.intro
    | with_reducible apply State.countEngine_keeps | with_reducible apply State.dropStreams_keeps
    | with_reducible apply State.modThread_keeps | with_reducible apply State.maybeEnd_keeps
    | with_reducible apply KeepsOut.mk | with_reducible apply KeepsOut.mkFault
    | with_reducible apply KeepsOut.mkRefused | with_reducible apply KeepsOut.ite | intro _
    | with_reducible apply KeepsO.getD | with_reducible apply Keeps.ite
    | (with_reducible apply Keeps.forEach; rotate_left; intro s a) | simp only [Keeps.mk_iff] | split
    | (dsimp +zetaDelta only))

end Sys2Proof.Machine
end

