-- ==== Sys2Proof/Laws/KeepVector.lean ====
section
/-! SUPPORT. What the definitions of Machine/Vector.lean keep (Keeps, Laws/Keep.lean). -/

set_option linter.all false

namespace Sys2Proof.Machine

theorem writeElems_keeps {z : State} (c : Ctx) (func : Nat) (t : Ty) (items : List Item) (es : List (Option Nat)) (s : State) (hk : Keeps z s) : KeepsR (fun s => s) z (writeElems c func t items es s) := by
  unfold writeElems
  repeat' (first
    | extract_lets | with_reducible assumption | with_reducible apply Keeps.refl | with_reducible apply True.intro
    | with_reducible apply writeItem_keeps
    | with_reducible refine writeItem_keeps_ok (w := by assumption) (hk := ?_) .. | with_reducible apply KeepsE.mk
    | with_reducible apply KeepsE.mkError | with_reducible apply KeepsR.mk | with_reducible apply KeepsR.mkError
    | with_reducible apply KeepsR.mkPure | with_reducible apply KeepsR.readState
    | with_reducible apply KeepsR.readPair | with_reducible apply KeepsR.map | with_reducible apply KeepsR.read
    | with_reducible apply KeepsR.orFaultValue | (with_reducible apply KeepsR.orFault)
    | (with_reducible apply KeepsR.foldRun) <;> [(intro s a); skip] | with_reducible apply KeepsR.mapM
    | with_reducible apply KeepsR.ite | with_reducible apply KeepsR.bindState | with_reducible apply KeepsR.bindPair
    | with_reducible apply KeepsR.readAll | intro _ | with_reducible apply KeepsO.getD
    | with_reducible apply Keeps.ite | (with_reducible apply Keeps.forEach; rotate_left; intro s a)
    | simp only [Keeps.mk_iff] | split | (dsimp +zetaDelta only))

theorem writeElems_keeps_ok {z : State} (c : Ctx) (func : Nat) (t : Ty) (items : List Item) (es : List (Option Nat)) (s : State) {u0 : State} (w : writeElems c func t items es s = .ok u0) (hk : Keeps z s) : Keeps z ((fun s => s) u0) :=
  KeepsR.ok (writeElems_keeps (hk := hk) ..) w

theorem writeElems_keeps_error {z : State} (c : Ctx) (func : Nat) (t : Ty) (items : List Item) (es : List (Option Nat)) (s : State) {q : Nat × State} (w : writeElems c func t items es s = .error q) (hk : Keeps z s) : Keeps z q.2 :=
  KeepsR.error (writeElems_keeps (hk := hk) ..) w

theorem redOverflow_keeps {z : State} (s : State) (engine : Nat) (hk : Keeps z s) : Keeps z (redOverflow s engine).2 :=
  State.bump_keeps _ _ _ _ hk

theorem vecReduce_keeps {z : State} (v : VecIn) (engine : Nat) (s : State) (hk : Keeps z s) : KeepsR (fun s => s) z (vecReduce v engine s) := by
  unfold vecReduce
  repeat' (first
    | extract_lets | with_reducible assumption | with_reducible apply Keeps.refl | with_reducible apply True.intro
    | with_reducible apply redOverflow_keeps | with_reducible apply writeElems_keeps
    | with_reducible refine writeElems_keeps_ok (w := by assumption) (hk := ?_) ..
    | with_reducible refine writeElems_keeps_error (w := by assumption) (hk := ?_) ..
    | with_reducible apply KeepsE.mk | with_reducible apply KeepsE.mkError | with_reducible apply KeepsR.mk
    | with_reducible apply KeepsR.mkError | with_reducible apply KeepsR.mkPure
    | with_reducible apply KeepsR.readState | with_reducible apply KeepsR.readPair | with_reducible apply KeepsR.map
    | with_reducible apply KeepsR.read | with_reducible apply KeepsR.orFaultValue
    | (with_reducible apply KeepsR.orFault) | (with_reducible apply KeepsR.foldRun) <;> [(intro s a); skip]
    | with_reducible apply KeepsR.mapM | with_reducible apply KeepsR.ite | with_reducible apply KeepsR.bindState
    | with_reducible apply KeepsR.bindPair | with_reducible apply KeepsR.readAll | intro _
    | with_reducible apply KeepsO.getD | with_reducible apply Keeps.ite
    | (with_reducible apply Keeps.forEach; rotate_left; intro s a) | simp only [Keeps.mk_iff] | split
    | (dsimp +zetaDelta only))

theorem vecReduce_keeps_ok {z : State} (v : VecIn) (engine : Nat) (s : State) {u0 : State} (w : vecReduce v engine s = .ok u0) (hk : Keeps z s) : Keeps z ((fun s => s) u0) :=
  KeepsR.ok (vecReduce_keeps (hk := hk) ..) w

theorem vecReduce_keeps_error {z : State} (v : VecIn) (engine : Nat) (s : State) {q : Nat × State} (w : vecReduce v engine s = .error q) (hk : Keeps z s) : Keeps z q.2 :=
  KeepsR.error (vecReduce_keeps (hk := hk) ..) w

theorem vecSumrow_keeps {z : State} (v : VecIn) (engine : Nat) (s : State) (hk : Keeps z s) : KeepsR (fun s => s) z (vecSumrow v engine s) := by
  unfold vecSumrow
  repeat' (first
    | extract_lets | with_reducible assumption | with_reducible apply Keeps.refl | with_reducible apply True.intro
    | with_reducible apply redOverflow_keeps | with_reducible apply writeElems_keeps
    | with_reducible refine writeElems_keeps_ok (w := by assumption) (hk := ?_) ..
    | with_reducible refine writeElems_keeps_error (w := by assumption) (hk := ?_) ..
    | with_reducible apply KeepsE.mk | with_reducible apply KeepsE.mkError | with_reducible apply KeepsR.mk
    | with_reducible apply KeepsR.mkError | with_reducible apply KeepsR.mkPure
    | with_reducible apply KeepsR.readState | with_reducible apply KeepsR.readPair | with_reducible apply KeepsR.map
    | with_reducible apply KeepsR.read | with_reducible apply KeepsR.orFaultValue
    | (with_reducible apply KeepsR.orFault) | (with_reducible apply KeepsR.foldRun) <;> [(intro s a); skip]
    | with_reducible apply KeepsR.mapM | with_reducible apply KeepsR.ite | with_reducible apply KeepsR.bindState
    | with_reducible apply KeepsR.bindPair | with_reducible apply KeepsR.readAll | intro _
    | with_reducible apply KeepsO.getD | with_reducible apply Keeps.ite
    | (with_reducible apply Keeps.forEach; rotate_left; intro s a) | simp only [Keeps.mk_iff] | split
    | (dsimp +zetaDelta only))

theorem vecSumrow_keeps_ok {z : State} (v : VecIn) (engine : Nat) (s : State) {u0 : State} (w : vecSumrow v engine s = .ok u0) (hk : Keeps z s) : Keeps z ((fun s => s) u0) :=
  KeepsR.ok (vecSumrow_keeps (hk := hk) ..) w

theorem vecSumrow_keeps_error {z : State} (v : VecIn) (engine : Nat) (s : State) {q : Nat × State} (w : vecSumrow v engine s = .error q) (hk : Keeps z s) : Keeps z q.2 :=
  KeepsR.error (vecSumrow_keeps (hk := hk) ..) w

theorem vecSoftmax_keeps {z : State} (v : VecIn) (s : State) (hk : Keeps z s) : KeepsR (fun s => s) z (vecSoftmax v s) := by
  unfold vecSoftmax
  repeat' (first
    | extract_lets | with_reducible assumption | with_reducible apply Keeps.refl | with_reducible apply True.intro
    | with_reducible apply State.replicate_keeps
    | with_reducible refine State.replicate_keeps_some (w := by assumption) (hk := ?_) ..
    | with_reducible apply writeElems_keeps
    | with_reducible refine writeElems_keeps_ok (w := by assumption) (hk := ?_) ..
    | with_reducible refine writeElems_keeps_error (w := by assumption) (hk := ?_) ..
    | with_reducible apply KeepsE.mk | with_reducible apply KeepsE.mkError | with_reducible apply KeepsR.mk
    | with_reducible apply KeepsR.mkError | with_reducible apply KeepsR.mkPure
    | with_reducible apply KeepsR.readState | with_reducible apply KeepsR.readPair | with_reducible apply KeepsR.map
    | with_reducible apply KeepsR.read | with_reducible apply KeepsR.orFaultValue
    | (with_reducible apply KeepsR.orFault) | (with_reducible apply KeepsR.foldRun) <;> [(intro s a); skip]
    | with_reducible apply KeepsR.mapM | with_reducible apply KeepsR.ite | with_reducible apply KeepsR.bindState
    | with_reducible apply KeepsR.bindPair | with_reducible apply KeepsR.readAll | intro _
    | with_reducible apply KeepsO.getD | with_reducible apply Keeps.ite
    | (with_reducible apply Keeps.forEach; rotate_left; intro s a) | simp only [Keeps.mk_iff] | split
    | (dsimp +zetaDelta only))

theorem vecSoftmax_keeps_ok {z : State} (v : VecIn) (s : State) {u0 : State} (w : vecSoftmax v s = .ok u0) (hk : Keeps z s) : Keeps z ((fun s => s) u0) :=
  KeepsR.ok (vecSoftmax_keeps (hk := hk) ..) w

theorem vecSoftmax_keeps_error {z : State} (v : VecIn) (s : State) {q : Nat × State} (w : vecSoftmax v s = .error q) (hk : Keeps z s) : Keeps z q.2 :=
  KeepsR.error (vecSoftmax_keeps (hk := hk) ..) w

theorem vecTopk_keeps {z : State} (v : VecIn) (s : State) (hk : Keeps z s) : KeepsR (fun s => s) z (vecTopk v s) := by
  unfold vecTopk
  repeat' (first
    | extract_lets | with_reducible assumption | with_reducible apply Keeps.refl | with_reducible apply True.intro
    | with_reducible apply writeItem_keeps
    | with_reducible refine writeItem_keeps_ok (w := by assumption) (hk := ?_) .. | with_reducible apply KeepsE.mk
    | with_reducible apply KeepsE.mkError | with_reducible apply KeepsR.mk | with_reducible apply KeepsR.mkError
    | with_reducible apply KeepsR.mkPure | with_reducible apply KeepsR.readState
    | with_reducible apply KeepsR.readPair | with_reducible apply KeepsR.map | with_reducible apply KeepsR.read
    | with_reducible apply KeepsR.orFaultValue | (with_reducible apply KeepsR.orFault)
    | (with_reducible apply KeepsR.foldRun) <;> [(intro s a); skip] | with_reducible apply KeepsR.mapM
    | with_reducible apply KeepsR.ite | with_reducible apply KeepsR.bindState | with_reducible apply KeepsR.bindPair
    | with_reducible apply KeepsR.readAll | intro _ | with_reducible apply KeepsO.getD
    | with_reducible apply Keeps.ite | (with_reducible apply Keeps.forEach; rotate_left; intro s a)
    | simp only [Keeps.mk_iff] | split | (dsimp +zetaDelta only))

theorem vecTopk_keeps_ok {z : State} (v : VecIn) (s : State) {u0 : State} (w : vecTopk v s = .ok u0) (hk : Keeps z s) : Keeps z ((fun s => s) u0) :=
  KeepsR.ok (vecTopk_keeps (hk := hk) ..) w

theorem vecTopk_keeps_error {z : State} (v : VecIn) (s : State) {q : Nat × State} (w : vecTopk v s = .error q) (hk : Keeps z s) : Keeps z q.2 :=
  KeepsR.error (vecTopk_keeps (hk := hk) ..) w

theorem vecQuant_keeps {z : State} (v : VecIn) (s : State) (hk : Keeps z s) : KeepsR (fun s => s) z (vecQuant v s) := by
  unfold vecQuant
  repeat' (first
    | extract_lets | with_reducible assumption | with_reducible apply Keeps.refl | with_reducible apply True.intro
    | with_reducible apply State.replicate_keeps
    | with_reducible refine State.replicate_keeps_some (w := by assumption) (hk := ?_) ..
    | with_reducible apply writeElems_keeps
    | with_reducible refine writeElems_keeps_ok (w := by assumption) (hk := ?_) ..
    | with_reducible refine writeElems_keeps_error (w := by assumption) (hk := ?_) ..
    | with_reducible apply writeItem_keeps
    | with_reducible refine writeItem_keeps_ok (w := by assumption) (hk := ?_) .. | with_reducible apply KeepsE.mk
    | with_reducible apply KeepsE.mkError | with_reducible apply KeepsR.mk | with_reducible apply KeepsR.mkError
    | with_reducible apply KeepsR.mkPure | with_reducible apply KeepsR.readState
    | with_reducible apply KeepsR.readPair | with_reducible apply KeepsR.map | with_reducible apply KeepsR.read
    | with_reducible apply KeepsR.orFaultValue | (with_reducible apply KeepsR.orFault)
    | (with_reducible apply KeepsR.foldRun) <;> [(intro s a); skip] | with_reducible apply KeepsR.mapM
    | with_reducible apply KeepsR.ite | with_reducible apply KeepsR.bindState | with_reducible apply KeepsR.bindPair
    | with_reducible apply KeepsR.readAll | intro _ | with_reducible apply KeepsO.getD
    | with_reducible apply Keeps.ite | (with_reducible apply Keeps.forEach; rotate_left; intro s a)
    | simp only [Keeps.mk_iff] | split | (dsimp +zetaDelta only))

theorem vecQuant_keeps_ok {z : State} (v : VecIn) (s : State) {u0 : State} (w : vecQuant v s = .ok u0) (hk : Keeps z s) : Keeps z ((fun s => s) u0) :=
  KeepsR.ok (vecQuant_keeps (hk := hk) ..) w

theorem vecQuant_keeps_error {z : State} (v : VecIn) (s : State) {q : Nat × State} (w : vecQuant v s = .error q) (hk : Keeps z s) : Keeps z q.2 :=
  KeepsR.error (vecQuant_keeps (hk := hk) ..) w

theorem vecCmpge_keeps {z : State} (v : VecIn) (s : State) (hk : Keeps z s) : KeepsR (fun s => s) z (vecCmpge v s) := by
  unfold vecCmpge
  repeat' (first
    | extract_lets | with_reducible assumption | with_reducible apply Keeps.refl | with_reducible apply True.intro
    | with_reducible apply writeItem_keeps
    | with_reducible refine writeItem_keeps_ok (w := by assumption) (hk := ?_) .. | with_reducible apply KeepsE.mk
    | with_reducible apply KeepsE.mkError | with_reducible apply KeepsR.mk | with_reducible apply KeepsR.mkError
    | with_reducible apply KeepsR.mkPure | with_reducible apply KeepsR.readState
    | with_reducible apply KeepsR.readPair | with_reducible apply KeepsR.map | with_reducible apply KeepsR.read
    | with_reducible apply KeepsR.orFaultValue | (with_reducible apply KeepsR.orFault)
    | (with_reducible apply KeepsR.foldRun) <;> [(intro s a); skip] | with_reducible apply KeepsR.mapM
    | with_reducible apply KeepsR.ite | with_reducible apply KeepsR.bindState | with_reducible apply KeepsR.bindPair
    | with_reducible apply KeepsR.readAll | intro _ | with_reducible apply KeepsO.getD
    | with_reducible apply Keeps.ite | (with_reducible apply Keeps.forEach; rotate_left; intro s a)
    | ((with_reducible apply Keeps.foldl) <;> [(intro r a); skip]) | simp only [Keeps.mk_iff] | split
    | (dsimp +zetaDelta only))

theorem vecCmpge_keeps_ok {z : State} (v : VecIn) (s : State) {u0 : State} (w : vecCmpge v s = .ok u0) (hk : Keeps z s) : Keeps z ((fun s => s) u0) :=
  KeepsR.ok (vecCmpge_keeps (hk := hk) ..) w

theorem vecCmpge_keeps_error {z : State} (v : VecIn) (s : State) {q : Nat × State} (w : vecCmpge v s = .error q) (hk : Keeps z s) : Keeps z q.2 :=
  KeepsR.error (vecCmpge_keeps (hk := hk) ..) w

theorem State.openMask_keeps {z0 : State} (s : State) (t uid n gran items : Nat) (mask : Option Nat) (hk : Keeps z0 s) :
    Keeps z0 (State.openMask s t uid n gran items mask) := by
  unfold State.openMask
  repeat' (first
    | extract_lets | with_reducible assumption | with_reducible apply Keeps.refl | with_reducible apply True.intro
    | with_reducible apply State.openItems_keeps | with_reducible apply KeepsO.getD | with_reducible apply Keeps.ite
    | (with_reducible apply Keeps.forEach; rotate_left; intro s a) | simp only [Keeps.mk_iff] | split
    | (dsimp +zetaDelta only))

theorem vecEffect_keeps {z : State} (t : Nat) (s : State) (th : Thread) (w uid : Nat) (hk : Keeps z s) : KeepsR (fun s => s) z (vecEffect t s th w uid) := by
  unfold vecEffect
  repeat' (first
    | extract_lets | with_reducible assumption | with_reducible apply Keeps.refl | with_reducible apply True.intro
    | with_reducible apply State.openMask_keeps | with_reducible apply State.openItems_keeps
    | with_reducible apply State.regrant_keeps | with_reducible apply vecReduce_keeps
    | with_reducible refine vecReduce_keeps_ok (w := by assumption) (hk := ?_) ..
    | with_reducible refine vecReduce_keeps_error (w := by assumption) (hk := ?_) ..
    | with_reducible apply vecSoftmax_keeps
    | with_reducible refine vecSoftmax_keeps_ok (w := by assumption) (hk := ?_) ..
    | with_reducible refine vecSoftmax_keeps_error (w := by assumption) (hk := ?_) ..
    | with_reducible apply vecSumrow_keeps
    | with_reducible refine vecSumrow_keeps_ok (w := by assumption) (hk := ?_) ..
    | with_reducible refine vecSumrow_keeps_error (w := by assumption) (hk := ?_) ..
    | with_reducible apply vecTopk_keeps | with_reducible refine vecTopk_keeps_ok (w := by assumption) (hk := ?_) ..
    | with_reducible refine vecTopk_keeps_error (w := by assumption) (hk := ?_) ..
    | with_reducible apply vecQuant_keeps
    | with_reducible refine vecQuant_keeps_ok (w := by assumption) (hk := ?_) ..
    | with_reducible refine vecQuant_keeps_error (w := by assumption) (hk := ?_) ..
    | with_reducible apply vecCmpge_keeps
    | with_reducible refine vecCmpge_keeps_ok (w := by assumption) (hk := ?_) ..
    | with_reducible refine vecCmpge_keeps_error (w := by assumption) (hk := ?_) ..
    | with_reducible apply writeElems_keeps
    | with_reducible refine writeElems_keeps_ok (w := by assumption) (hk := ?_) ..
    | with_reducible refine writeElems_keeps_error (w := by assumption) (hk := ?_) ..
    | with_reducible apply KeepsE.mk | with_reducible apply KeepsE.mkError | with_reducible apply KeepsR.mk
    | with_reducible apply KeepsR.mkError | with_reducible apply KeepsR.mkPure
    | with_reducible apply KeepsR.readState | with_reducible apply KeepsR.readPair | with_reducible apply KeepsR.map
    | with_reducible apply KeepsR.read | with_reducible apply KeepsR.orFaultValue
    | (with_reducible apply KeepsR.orFault) | (with_reducible apply KeepsR.foldRun) <;> [(intro s a); skip]
    | with_reducible apply KeepsR.mapM | with_reducible apply KeepsR.ite | with_reducible apply KeepsR.bindState
    | with_reducible apply KeepsR.bindPair | with_reducible apply KeepsR.readAll | intro _
    | with_reducible apply KeepsO.getD | with_reducible apply Keeps.ite
    | (with_reducible apply Keeps.forEach; rotate_left; intro s a) | simp only [Keeps.mk_iff] | split
    | (dsimp +zetaDelta only))

theorem vecEffect_keeps_ok {z : State} (t : Nat) (s : State) (th : Thread) (w uid : Nat) {u0 : State} (w : vecEffect t s th w uid = .ok u0) (hk : Keeps z s) : Keeps z ((fun s => s) u0) :=
  KeepsR.ok (vecEffect_keeps (hk := hk) ..) w

theorem vecEffect_keeps_error {z : State} (t : Nat) (s : State) (th : Thread) (w uid : Nat) {q : Nat × State} (w : vecEffect t s th w uid = .error q) (hk : Keeps z s) : Keeps z q.2 :=
  KeepsR.error (vecEffect_keeps (hk := hk) ..) w

theorem execVec_keeps (t : Fin 512) (s : State) : KeepsOut s (execVec t s) := by
  have hk := Keeps.refl s
  unfold execVec
  repeat' (first
    | extract_lets | with_reducible assumption | with_reducible apply Keeps.refl | with_reducible apply True.intro
    | with_reducible apply State.longStep_keeps | intro _ | with_reducible apply vecEffect_keeps
    | with_reducible refine vecEffect_keeps_ok (w := by assumption) (hk := ?_) ..
    | with_reducible refine vecEffect_keeps_error (w := by assumption) (hk := ?_) ..
    | with_reducible apply KeepsOut.mk | with_reducible apply KeepsOut.mkFault
    | with_reducible apply KeepsOut.mkRefused | with_reducible apply KeepsOut.ite | intro _
    | with_reducible apply KeepsO.getD | with_reducible apply Keeps.ite
    | (with_reducible apply Keeps.forEach; rotate_left; intro s a) | simp only [Keeps.mk_iff] | split
    | (dsimp +zetaDelta only))

end Sys2Proof.Machine
end

