-- ==== Sys2Proof/Laws/KeepMove.lean ====
section
/-! SUPPORT. What the definitions of Machine/Move.lean keep (Keeps, Laws/Keep.lean). -/

set_option linter.all false

namespace Sys2Proof.Machine

theorem State.remoteWrite_keeps {z : State} (s : State) (t uid dev window off flow : Nat) (d : List Byte) (src : Nat) (hk : Keeps z s) : KeepsE (fun s => s) z (s.remoteWrite t uid dev window off flow d src) := by
  unfold State.remoteWrite
  repeat' (first
    | extract_lets | with_reducible assumption | with_reducible apply Keeps.refl | with_reducible apply True.intro
    | with_reducible refine State.openFlow_keeps_some (e := by assumption) (hk := ?_) ..
    | with_reducible apply State.openFlow_keeps_map | with_reducible apply State.sendSeq_keeps
    | with_reducible refine State.sendSeq_keeps_eq (w := by assumption) (hk := ?_) ..
    | with_reducible apply KeepsE.mk | with_reducible apply KeepsE.mkError | with_reducible apply KeepsR.mk
    | with_reducible apply KeepsR.mkError | with_reducible apply KeepsR.mkPure
    | with_reducible apply KeepsR.readState | with_reducible apply KeepsR.readPair | with_reducible apply KeepsR.map
    | with_reducible apply KeepsR.read | with_reducible apply KeepsR.orFaultValue
    | (with_reducible apply KeepsR.orFault) | (with_reducible apply KeepsR.foldRun) <;> [(intro s a); skip]
    | with_reducible apply KeepsR.mapM | with_reducible apply KeepsR.ite | with_reducible apply KeepsR.bindState
    | with_reducible apply KeepsR.bindPair | with_reducible apply KeepsR.readAll | intro _
    | with_reducible apply KeepsO.getD | with_reducible apply Keeps.ite
    | (with_reducible apply Keeps.forEach; rotate_left; intro s a)
    | ((with_reducible apply Keeps.foldl) <;> [(intro r a); skip]) | simp only [Keeps.mk_iff] | split
    | (dsimp +zetaDelta only))

theorem State.remoteWrite_keeps_ok {z : State} (s : State) (t uid dev window off flow : Nat) (d : List Byte) (src : Nat) {u0 : State} (w : s.remoteWrite t uid dev window off flow d src = .ok u0) (hk : Keeps z s) : Keeps z ((fun s => s) u0) :=
  KeepsE.ok (State.remoteWrite_keeps (hk := hk) ..) w

theorem State.remoteRead_keeps {z : State} (s : State) (t uid dev window off len flow dst : Nat) (hk : Keeps z s) : KeepsE (fun s => s) z (s.remoteRead t uid dev window off len flow dst) := by
  unfold State.remoteRead
  repeat' (first
    | extract_lets | with_reducible assumption | with_reducible apply Keeps.refl | with_reducible apply True.intro
    | with_reducible refine State.openFlow_keeps_some (e := by assumption) (hk := ?_) ..
    | with_reducible apply State.openFlow_keeps_map | with_reducible apply State.sendSeq_keeps
    | with_reducible refine State.sendSeq_keeps_eq (w := by assumption) (hk := ?_) ..
    | with_reducible apply KeepsE.mk | with_reducible apply KeepsE.mkError | with_reducible apply KeepsR.mk
    | with_reducible apply KeepsR.mkError | with_reducible apply KeepsR.mkPure
    | with_reducible apply KeepsR.readState | with_reducible apply KeepsR.readPair | with_reducible apply KeepsR.map
    | with_reducible apply KeepsR.read | with_reducible apply KeepsR.orFaultValue
    | (with_reducible apply KeepsR.orFault) | (with_reducible apply KeepsR.foldRun) <;> [(intro s a); skip]
    | with_reducible apply KeepsR.mapM | with_reducible apply KeepsR.ite | with_reducible apply KeepsR.bindState
    | with_reducible apply KeepsR.bindPair | with_reducible apply KeepsR.readAll | intro _
    | with_reducible apply KeepsO.getD | with_reducible apply Keeps.ite
    | (with_reducible apply Keeps.forEach; rotate_left; intro s a)
    | ((with_reducible apply Keeps.foldl) <;> [(intro r a); skip]) | simp only [Keeps.mk_iff] | split
    | (dsimp +zetaDelta only))

theorem State.remoteRead_keeps_ok {z : State} (s : State) (t uid dev window off len flow dst : Nat) {u0 : State} (w : s.remoteRead t uid dev window off len flow dst = .ok u0) (hk : Keeps z s) : Keeps z ((fun s => s) u0) :=
  KeepsE.ok (State.remoteRead_keeps (hk := hk) ..) w

theorem State.selfRead_keeps_error {z : State} {s : State} {window off len : Nat} {q : Nat × State}
    (w : s.selfRead window off len = .error q) (hk : Keeps z s) : Keeps z q.2 := by
  unfold State.selfRead at w
  split at w
  · cases w; exact State.windowReject_keeps _ _ _ hk
  · split at w
    · cases w; exact hk
    · cases w

theorem State.selfWrite_keeps {z : State} (s : State) (window off : Nat) (d : List Byte) (hk : Keeps z s) : KeepsR (fun s => s) z (s.selfWrite window off d) := by
  unfold State.selfWrite
  repeat' (first
    | extract_lets | with_reducible assumption | with_reducible apply Keeps.refl | with_reducible apply True.intro
    | with_reducible apply State.windowReject_keeps | with_reducible apply State.devWrite_keeps
    | with_reducible apply KeepsE.mk | with_reducible apply KeepsE.mkError | with_reducible apply KeepsR.mk
    | with_reducible apply KeepsR.mkError | with_reducible apply KeepsR.mkPure
    | with_reducible apply KeepsR.readState | with_reducible apply KeepsR.readPair | with_reducible apply KeepsR.map
    | with_reducible apply KeepsR.read | with_reducible apply KeepsR.orFaultValue
    | (with_reducible apply KeepsR.orFault) | (with_reducible apply KeepsR.foldRun) <;> [(intro s a); skip]
    | with_reducible apply KeepsR.mapM | with_reducible apply KeepsR.ite | with_reducible apply KeepsR.bindState
    | with_reducible apply KeepsR.bindPair | with_reducible apply KeepsR.readAll | intro _
    | with_reducible apply KeepsO.getD | with_reducible apply Keeps.ite
    | (with_reducible apply Keeps.forEach; rotate_left; intro s a) | simp only [Keeps.mk_iff] | split
    | (dsimp +zetaDelta only))

theorem State.selfWrite_keeps_ok {z : State} (s : State) (window off : Nat) (d : List Byte) {u0 : State} (w : s.selfWrite window off d = .ok u0) (hk : Keeps z s) : Keeps z ((fun s => s) u0) :=
  KeepsR.ok (State.selfWrite_keeps (hk := hk) ..) w

theorem State.selfWrite_keeps_error {z : State} (s : State) (window off : Nat) (d : List Byte) {q : Nat × State} (w : s.selfWrite window off d = .error q) (hk : Keeps z s) : Keeps z q.2 :=
  KeepsR.error (State.selfWrite_keeps (hk := hk) ..) w

theorem State.moveWrite_keeps {z : State} (s : State) (c : Ctx) (t uid flow : Nat) (v : Option Nat) (d : List Byte) (src : Nat) (hk : Keeps z s) : KeepsR (fun s => s) z (s.moveWrite c t uid flow v d src) := by
  unfold State.moveWrite
  repeat' (first
    | extract_lets | with_reducible assumption | with_reducible apply Keeps.refl | with_reducible apply True.intro
    | with_reducible apply State.writeVirt_keeps
    | with_reducible refine State.writeVirt_keeps_ok (w := by assumption) (hk := ?_) ..
    | with_reducible apply State.selfWrite_keeps
    | with_reducible refine State.selfWrite_keeps_ok (w := by assumption) (hk := ?_) ..
    | with_reducible refine State.selfWrite_keeps_error (w := by assumption) (hk := ?_) ..
    | with_reducible apply State.remoteWrite_keeps
    | with_reducible refine State.remoteWrite_keeps_ok (w := by assumption) (hk := ?_) ..
    | with_reducible apply KeepsE.mk | with_reducible apply KeepsE.mkError | with_reducible apply KeepsR.mk
    | with_reducible apply KeepsR.mkError | with_reducible apply KeepsR.mkPure
    | with_reducible apply KeepsR.readState | with_reducible apply KeepsR.readPair | with_reducible apply KeepsR.map
    | with_reducible apply KeepsR.read | with_reducible apply KeepsR.orFaultValue
    | (with_reducible apply KeepsR.orFault) | (with_reducible apply KeepsR.foldRun) <;> [(intro s a); skip]
    | with_reducible apply KeepsR.mapM | with_reducible apply KeepsR.ite | with_reducible apply KeepsR.bindState
    | with_reducible apply KeepsR.bindPair | with_reducible apply KeepsR.readAll | intro _
    | with_reducible apply KeepsO.getD | with_reducible apply Keeps.ite
    | (with_reducible apply Keeps.forEach; rotate_left; intro s a) | simp only [Keeps.mk_iff] | split
    | (dsimp +zetaDelta only))

theorem State.moveWrite_keeps_ok {z : State} (s : State) (c : Ctx) (t uid flow : Nat) (v : Option Nat) (d : List Byte) (src : Nat) {u0 : State} (w : s.moveWrite c t uid flow v d src = .ok u0) (hk : Keeps z s) : Keeps z ((fun s => s) u0) :=
  KeepsR.ok (State.moveWrite_keeps (hk := hk) ..) w

theorem State.moveWrite_keeps_error {z : State} (s : State) (c : Ctx) (t uid flow : Nat) (v : Option Nat) (d : List Byte) (src : Nat) {q : Nat × State} (w : s.moveWrite c t uid flow v d src = .error q) (hk : Keeps z s) : Keeps z q.2 :=
  KeepsR.error (State.moveWrite_keeps (hk := hk) ..) w

theorem State.movePair_keeps {z : State} (s : State) (c : Ctx) (t uid flow len : Nat) (src dst : Option Nat) (hk : Keeps z s) : KeepsR (fun s => s) z (s.movePair c t uid flow len src dst) := by
  unfold State.movePair
  repeat' (first
    | extract_lets | with_reducible assumption | with_reducible apply Keeps.refl | with_reducible apply True.intro
    | with_reducible apply State.moveWrite_keeps
    | with_reducible refine State.moveWrite_keeps_ok (w := by assumption) (hk := ?_) ..
    | with_reducible refine State.moveWrite_keeps_error (w := by assumption) (hk := ?_) ..
    | with_reducible apply State.replicate_keeps
    | with_reducible refine State.replicate_keeps_some (w := by assumption) (hk := ?_) ..
    | with_reducible refine State.selfRead_keeps_error (w := by assumption) (hk := ?_) ..
    | with_reducible apply State.remoteRead_keeps
    | with_reducible refine State.remoteRead_keeps_ok (w := by assumption) (hk := ?_) ..
    | with_reducible apply KeepsE.mk | with_reducible apply KeepsE.mkError | with_reducible apply KeepsR.mk
    | with_reducible apply KeepsR.mkError | with_reducible apply KeepsR.mkPure
    | with_reducible apply KeepsR.readState | with_reducible apply KeepsR.readPair | with_reducible apply KeepsR.map
    | with_reducible apply KeepsR.read | with_reducible apply KeepsR.orFaultValue
    | (with_reducible apply KeepsR.orFault) | (with_reducible apply KeepsR.foldRun) <;> [(intro s a); skip]
    | with_reducible apply KeepsR.mapM | with_reducible apply KeepsR.ite | with_reducible apply KeepsR.bindState
    | with_reducible apply KeepsR.bindPair | with_reducible apply KeepsR.readAll | intro _
    | with_reducible apply KeepsO.getD | with_reducible apply Keeps.ite
    | (with_reducible apply Keeps.forEach; rotate_left; intro s a) | simp only [Keeps.mk_iff] | split
    | (dsimp +zetaDelta only))

theorem State.movePair_keeps_ok {z : State} (s : State) (c : Ctx) (t uid flow len : Nat) (src dst : Option Nat) {u0 : State} (w : s.movePair c t uid flow len src dst = .ok u0) (hk : Keeps z s) : Keeps z ((fun s => s) u0) :=
  KeepsR.ok (State.movePair_keeps (hk := hk) ..) w

theorem State.movePair_keeps_error {z : State} (s : State) (c : Ctx) (t uid flow len : Nat) (src dst : Option Nat) {q : Nat × State} (w : s.movePair c t uid flow len src dst = .error q) (hk : Keeps z s) : Keeps z q.2 :=
  KeepsR.error (State.movePair_keeps (hk := hk) ..) w

theorem State.atomDone_keeps {z : State} (s : State) (c : Ctx) (t uid flow : Nat) (old : Nat) (hk : Keeps z s) : KeepsR (fun s => s) z (s.atomDone c t uid flow old) := by
  unfold State.atomDone
  repeat' (first
    | extract_lets | with_reducible assumption | with_reducible apply Keeps.refl | with_reducible apply True.intro
    | with_reducible apply State.modStep_keeps | with_reducible apply State.moveWrite_keeps
    | with_reducible refine State.moveWrite_keeps_ok (w := by assumption) (hk := ?_) ..
    | with_reducible refine State.moveWrite_keeps_error (w := by assumption) (hk := ?_) ..
    | with_reducible apply KeepsE.mk | with_reducible apply KeepsE.mkError | with_reducible apply KeepsR.mk
    | with_reducible apply KeepsR.mkError | with_reducible apply KeepsR.mkPure
    | with_reducible apply KeepsR.readState | with_reducible apply KeepsR.readPair | with_reducible apply KeepsR.map
    | with_reducible apply KeepsR.read | with_reducible apply KeepsR.orFaultValue
    | (with_reducible apply KeepsR.orFault) | (with_reducible apply KeepsR.foldRun) <;> [(intro s a); skip]
    | with_reducible apply KeepsR.mapM | with_reducible apply KeepsR.ite | with_reducible apply KeepsR.bindState
    | with_reducible apply KeepsR.bindPair | with_reducible apply KeepsR.readAll | intro _
    | with_reducible apply KeepsO.getD | with_reducible apply Keeps.ite
    | (with_reducible apply Keeps.forEach; rotate_left; intro s a) | simp only [Keeps.mk_iff] | split
    | (dsimp +zetaDelta only))

theorem State.atomDone_keeps_ok {z : State} (s : State) (c : Ctx) (t uid flow : Nat) (old : Nat) {u0 : State} (w : s.atomDone c t uid flow old = .ok u0) (hk : Keeps z s) : Keeps z ((fun s => s) u0) :=
  KeepsR.ok (State.atomDone_keeps (hk := hk) ..) w

theorem State.atomDone_keeps_error {z : State} (s : State) (c : Ctx) (t uid flow : Nat) (old : Nat) {q : Nat × State} (w : s.atomDone c t uid flow old = .error q) (hk : Keeps z s) : Keeps z q.2 :=
  KeepsR.error (State.atomDone_keeps (hk := hk) ..) w

theorem State.casWord_keeps {z : State} (s : State) (host : Bool) (a cmp new : Nat) (hk : Keeps z s) : KeepsE Prod.fst z (s.casWord host a cmp new) := by
  unfold State.casWord
  repeat' (first
    | extract_lets | with_reducible assumption | with_reducible apply Keeps.refl | with_reducible apply True.intro
    | with_reducible apply State.writeWord_keeps | with_reducible apply KeepsE.mk
    | with_reducible apply KeepsE.mkError | with_reducible apply KeepsR.mk | with_reducible apply KeepsR.mkError
    | with_reducible apply KeepsR.mkPure | with_reducible apply KeepsR.readState
    | with_reducible apply KeepsR.readPair | with_reducible apply KeepsR.map | with_reducible apply KeepsR.read
    | with_reducible apply KeepsR.orFaultValue | (with_reducible apply KeepsR.orFault)
    | (with_reducible apply KeepsR.foldRun) <;> [(intro s a); skip] | with_reducible apply KeepsR.mapM
    | with_reducible apply KeepsR.ite | with_reducible apply KeepsR.bindState | with_reducible apply KeepsR.bindPair
    | with_reducible apply KeepsR.readAll | intro _ | with_reducible apply KeepsO.getD
    | with_reducible apply Keeps.ite | (with_reducible apply Keeps.forEach; rotate_left; intro s a)
    | simp only [Keeps.mk_iff] | split | (dsimp +zetaDelta only))

theorem State.casWord_keeps_ok {z : State} (s : State) (host : Bool) (a cmp new : Nat) {u0 : State × Nat} (w : s.casWord host a cmp new = .ok u0) (hk : Keeps z s) : Keeps z (Prod.fst u0) :=
  KeepsE.ok (State.casWord_keeps (hk := hk) ..) w

theorem State.atomStep_keeps {z : State} (s : State) (c : Ctx) (t uid flow : Nat) (a : Active) (hk : Keeps z s) : KeepsR Prod.fst z (s.atomStep c t uid flow a) := by
  unfold State.atomStep
  repeat' (first
    | extract_lets | with_reducible assumption | with_reducible apply Keeps.refl | with_reducible apply True.intro
    | with_reducible apply State.modStep_keeps | with_reducible apply State.holdOp_keeps
    | with_reducible apply State.windowReject_keeps | with_reducible apply State.replicate_keeps
    | with_reducible refine State.replicate_keeps_some (w := by assumption) (hk := ?_) ..
    | with_reducible refine State.selfRead_keeps_error (w := by assumption) (hk := ?_) ..
    | with_reducible apply State.remoteRead_keeps
    | with_reducible refine State.remoteRead_keeps_ok (w := by assumption) (hk := ?_) ..
    | with_reducible apply State.atomDone_keeps
    | with_reducible refine State.atomDone_keeps_ok (w := by assumption) (hk := ?_) ..
    | with_reducible refine State.atomDone_keeps_error (w := by assumption) (hk := ?_) ..
    | with_reducible apply State.casWord_keeps
    | with_reducible refine State.casWord_keeps_ok (w := by assumption) (hk := ?_) ..
    | with_reducible refine State.openFlow_keeps_some (e := by assumption) (hk := ?_) ..
    | with_reducible apply State.openFlow_keeps_map | with_reducible apply State.sendSeq_keeps
    | with_reducible refine State.sendSeq_keeps_eq (w := by assumption) (hk := ?_) ..
    | with_reducible apply KeepsE.mk | with_reducible apply KeepsE.mkError | with_reducible apply KeepsR.mk
    | with_reducible apply KeepsR.mkError | with_reducible apply KeepsR.mkPure
    | with_reducible apply KeepsR.readState | with_reducible apply KeepsR.readPair | with_reducible apply KeepsR.map
    | with_reducible apply KeepsR.read | with_reducible apply KeepsR.orFaultValue
    | (with_reducible apply KeepsR.orFault) | (with_reducible apply KeepsR.foldRun) <;> [(intro s a); skip]
    | with_reducible apply KeepsR.mapM | with_reducible apply KeepsR.ite | with_reducible apply KeepsR.bindState
    | with_reducible apply KeepsR.bindPair | with_reducible apply KeepsR.readAll | intro _
    | with_reducible apply KeepsO.getD | with_reducible apply Keeps.ite
    | (with_reducible apply Keeps.forEach; rotate_left; intro s a) | simp only [Keeps.mk_iff] | split
    | (dsimp +zetaDelta only))

theorem State.atomStep_keeps_ok {z : State} (s : State) (c : Ctx) (t uid flow : Nat) (a : Active) {u0 : State × Bool} (w : s.atomStep c t uid flow a = .ok u0) (hk : Keeps z s) : Keeps z (Prod.fst u0) :=
  KeepsR.ok (State.atomStep_keeps (hk := hk) ..) w

theorem State.atomStep_keeps_error {z : State} (s : State) (c : Ctx) (t uid flow : Nat) (a : Active) {q : Nat × State} (w : s.atomStep c t uid flow a = .error q) (hk : Keeps z s) : Keeps z q.2 :=
  KeepsR.error (State.atomStep_keeps (hk := hk) ..) w

theorem State.atomRun_keeps {z : State} (s : State) (c : Ctx) (t uid flow n : Nat) (hk : Keeps z s) :
    KeepsR (fun s => s) z (s.atomRun c t uid flow n) := by
  induction n generalizing s with
  | zero => exact hk
  | succ n ih =>
    unfold State.atomRun
    split
    · exact hk
    · split
      · next e h => exact KeepsR.error (State.atomStep_keeps _ _ _ _ _ _ hk) h
      · next u h => exact ih _ (KeepsR.ok (State.atomStep_keeps _ _ _ _ _ _ hk) h)
      · next u h => exact KeepsR.ok (State.atomStep_keeps _ _ _ _ _ _ hk) h

theorem State.pairsRun_keeps {z : State} (s : State) (c : Ctx) (t uid flow len n : Nat) (hk : Keeps z s) :
    KeepsR (fun s => s) z (s.pairsRun c t uid flow len n) := by
  induction n generalizing s with
  | zero => exact hk
  | succ n ih =>
    unfold State.pairsRun
    split
    · split
      · next e h => exact KeepsR.error (State.movePair_keeps _ _ _ _ _ _ _ _ (State.modStep_keeps _ _ _ _ hk)) h
      · next u h =>
        have hu := KeepsR.ok (State.movePair_keeps _ _ _ _ _ _ _ _ (State.modStep_keeps _ _ _ _ hk)) h
        split
        · exact hu
        · exact ih _ hu
    · exact hk

theorem State.nextTransfer_keeps {z0 : State} (s : State) (flow : Nat) (hk : Keeps z0 s) :
    Keeps z0 (State.nextTransfer s flow) := by
  unfold State.nextTransfer
  repeat' (first
    | extract_lets | with_reducible assumption | with_reducible apply Keeps.refl | with_reducible apply True.intro
    | with_reducible apply KeepsO.getD | with_reducible apply Keeps.ite
    | (with_reducible apply Keeps.forEach; rotate_left; intro s a) | simp only [Keeps.mk_iff] | split
    | (dsimp +zetaDelta only))

theorem moveEffect_keeps {z : State} (t : Nat) (s : State) (th : Thread) (w uid : Nat) (hk : Keeps z s) : KeepsR (fun s => s) z (moveEffect t s th w uid) := by
  unfold moveEffect
  repeat' (first
    | extract_lets | with_reducible assumption | with_reducible apply Keeps.refl | with_reducible apply True.intro
    | with_reducible apply State.nextTransfer_keeps | with_reducible apply State.modStep_keeps
    | with_reducible apply State.openMask_keeps | with_reducible apply State.openItems_keeps
    | with_reducible apply State.regrant_keeps | with_reducible apply State.atomRun_keeps
    | with_reducible apply State.pairsRun_keeps | with_reducible apply KeepsE.mk
    | with_reducible apply KeepsE.mkError | with_reducible apply KeepsR.mk | with_reducible apply KeepsR.mkError
    | with_reducible apply KeepsR.mkPure | with_reducible apply KeepsR.readState
    | with_reducible apply KeepsR.readPair | with_reducible apply KeepsR.map | with_reducible apply KeepsR.read
    | with_reducible apply KeepsR.orFaultValue | (with_reducible apply KeepsR.orFault)
    | (with_reducible apply KeepsR.foldRun) <;> [(intro s a); skip] | with_reducible apply KeepsR.mapM
    | with_reducible apply KeepsR.ite | with_reducible apply KeepsR.bindState | with_reducible apply KeepsR.bindPair
    | with_reducible apply KeepsR.readAll | intro _ | with_reducible apply KeepsO.getD
    | with_reducible apply Keeps.ite | (with_reducible apply Keeps.forEach; rotate_left; intro s a)
    | simp only [Keeps.mk_iff] | split | (dsimp +zetaDelta only))

theorem moveEffect_keeps_ok {z : State} (t : Nat) (s : State) (th : Thread) (w uid : Nat) {u0 : State} (w : moveEffect t s th w uid = .ok u0) (hk : Keeps z s) : Keeps z ((fun s => s) u0) :=
  KeepsR.ok (moveEffect_keeps (hk := hk) ..) w

theorem moveEffect_keeps_error {z : State} (t : Nat) (s : State) (th : Thread) (w uid : Nat) {q : Nat × State} (w : moveEffect t s th w uid = .error q) (hk : Keeps z s) : Keeps z q.2 :=
  KeepsR.error (moveEffect_keeps (hk := hk) ..) w

theorem execMove_keeps (t : Fin 512) (s : State) : KeepsOut s (execMove t s) := by
  have hk := Keeps.refl s
  unfold execMove
  repeat' (first
    | extract_lets | with_reducible assumption | with_reducible apply Keeps.refl | with_reducible apply True.intro
    | with_reducible apply State.stall_keeps | with_reducible apply State.longStep_keeps | intro _
    | with_reducible apply moveEffect_keeps
    | with_reducible refine moveEffect_keeps_ok (w := by assumption) (hk := ?_) ..
    | with_reducible refine moveEffect_keeps_error (w := by assumption) (hk := ?_) ..
    | with_reducible apply KeepsOut.mk | with_reducible apply KeepsOut.mkFault
    | with_reducible apply KeepsOut.mkRefused | with_reducible apply KeepsOut.ite | intro _
    | with_reducible apply KeepsO.getD | with_reducible apply Keeps.ite
    | (with_reducible apply Keeps.forEach; rotate_left; intro s a) | simp only [Keeps.mk_iff] | split
    | (dsimp +zetaDelta only))

theorem gatherEffect_keeps {z : State} (t : Nat) (s : State) (th : Thread) (w uid : Nat) (hk : Keeps z s) : KeepsR (fun s => s) z (gatherEffect t s th w uid) := by
  unfold gatherEffect
  repeat' (first
    | extract_lets | with_reducible assumption | with_reducible apply Keeps.refl | with_reducible apply True.intro
    | with_reducible apply State.openItems_keeps | with_reducible apply State.regrant_keeps
    | with_reducible apply writeItem_keeps
    | with_reducible refine writeItem_keeps_ok (w := by assumption) (hk := ?_) .. | with_reducible apply KeepsE.mk
    | with_reducible apply KeepsE.mkError | with_reducible apply KeepsR.mk | with_reducible apply KeepsR.mkError
    | with_reducible apply KeepsR.mkPure | with_reducible apply KeepsR.readState
    | with_reducible apply KeepsR.readPair | with_reducible apply KeepsR.map | with_reducible apply KeepsR.read
    | with_reducible apply KeepsR.orFaultValue | (with_reducible apply KeepsR.orFault)
    | (with_reducible apply KeepsR.foldRun) <;> [(intro s a); skip] | with_reducible apply KeepsR.mapM
    | with_reducible apply KeepsR.ite | with_reducible apply KeepsR.bindState | with_reducible apply KeepsR.bindPair
    | with_reducible apply KeepsR.readAll | intro _ | with_reducible apply KeepsO.getD
    | with_reducible apply Keeps.ite | (with_reducible apply Keeps.forEach; rotate_left; intro s a)
    | simp only [Keeps.mk_iff] | split | (dsimp +zetaDelta only))

theorem gatherEffect_keeps_ok {z : State} (t : Nat) (s : State) (th : Thread) (w uid : Nat) {u0 : State} (w : gatherEffect t s th w uid = .ok u0) (hk : Keeps z s) : Keeps z ((fun s => s) u0) :=
  KeepsR.ok (gatherEffect_keeps (hk := hk) ..) w

theorem gatherEffect_keeps_error {z : State} (t : Nat) (s : State) (th : Thread) (w uid : Nat) {q : Nat × State} (w : gatherEffect t s th w uid = .error q) (hk : Keeps z s) : Keeps z q.2 :=
  KeepsR.error (gatherEffect_keeps (hk := hk) ..) w

theorem execGather_keeps (t : Fin 512) (s : State) : KeepsOut s (execGather t s) := by
  have hk := Keeps.refl s
  unfold execGather
  repeat' (first
    | extract_lets | with_reducible assumption | with_reducible apply Keeps.refl | with_reducible apply True.intro
    | with_reducible apply State.longStep_keeps | intro _ | with_reducible apply gatherEffect_keeps
    | with_reducible refine gatherEffect_keeps_ok (w := by assumption) (hk := ?_) ..
    | with_reducible refine gatherEffect_keeps_error (w := by assumption) (hk := ?_) ..
    | with_reducible apply KeepsOut.mk | with_reducible apply KeepsOut.mkFault
    | with_reducible apply KeepsOut.mkRefused | with_reducible apply KeepsOut.ite | intro _
    | with_reducible apply KeepsO.getD | with_reducible apply Keeps.ite
    | (with_reducible apply Keeps.forEach; rotate_left; intro s a) | simp only [Keeps.mk_iff] | split
    | (dsimp +zetaDelta only))

end Sys2Proof.Machine
end

