-- ==== Sys2Proof/Laws/KeepReceive.lean ====
section
/-! SUPPORT. What the definitions of Machine/Receive.lean keep (Keeps, Laws/Keep.lean). -/

set_option linter.all false

namespace Sys2Proof.Machine

theorem State.takeAck_keeps {z0 : State} (s : State) (p k : Nat) (f : Frame) (hk : Keeps z0 s) :
    Keeps z0 (State.takeAck s p k f) := by
  unfold State.takeAck
  repeat' (first
    | extract_lets | with_reducible assumption | with_reducible apply Keeps.refl | with_reducible apply True.intro
    | with_reducible apply State.setPort_keeps | with_reducible apply State.bump_keeps
    | with_reducible apply State.replay_keeps | with_reducible apply State.pumpPort_keeps
    | with_reducible apply State.pumpMc_keeps | with_reducible apply KeepsO.getD | with_reducible apply Keeps.ite
    | (with_reducible apply Keeps.forEach; rotate_left; intro s a) | simp only [Keeps.mk_iff] | split
    | (dsimp +zetaDelta only))

theorem State.rejectFrame_keeps {z0 : State} (s : State) (p k : Nat) (hk : Keeps z0 s) :
    Keeps z0 (State.rejectFrame s p k) := by
  unfold State.rejectFrame
  repeat' (first
    | extract_lets | with_reducible assumption | with_reducible apply Keeps.refl | with_reducible apply True.intro
    | with_reducible apply State.modPort_keeps | with_reducible apply State.sendIdle_keeps
    | with_reducible apply KeepsO.getD | with_reducible apply Keeps.ite
    | (with_reducible apply Keeps.forEach; rotate_left; intro s a) | simp only [Keeps.mk_iff] | split
    | (dsimp +zetaDelta only))

theorem State.linkIn_keeps {z : State} (s : State) (p k : Nat) (f : Frame) (hk : Keeps z s) : Keeps z (s.linkIn p k f).1 := by
  unfold State.linkIn
  repeat' (first
    | extract_lets | with_reducible assumption | with_reducible apply Keeps.refl | with_reducible apply True.intro
    | with_reducible apply State.bump_keeps | with_reducible apply State.rejectFrame_keeps
    | with_reducible apply State.modPort_keeps | with_reducible apply State.takeAck_keeps
    | with_reducible apply KeepsO.getD | with_reducible apply Keeps.ite
    | (with_reducible apply Keeps.forEach; rotate_left; intro s a) | simp only [Keeps.mk_iff] | split
    | (dsimp +zetaDelta only))

theorem State.linkIn_keeps_eq {z : State} (s : State) (p k : Nat) (f : Frame) {q} (hk : Keeps z s) (w : s.linkIn p k f = q) : Keeps z q.1 := by
  subst w; exact State.linkIn_keeps (hk := hk) ..

theorem State.ackLane_keeps {z0 : State} (s : State) (p k : Nat) (hk : Keeps z0 s) :
    Keeps z0 (State.ackLane s p k) := by
  unfold State.ackLane
  repeat' (first
    | extract_lets | with_reducible assumption | with_reducible apply Keeps.refl | with_reducible apply True.intro
    | with_reducible apply State.sendIdle_keeps | with_reducible apply KeepsO.getD | with_reducible apply Keeps.ite
    | (with_reducible apply Keeps.forEach; rotate_left; intro s a) | simp only [Keeps.mk_iff] | split
    | (dsimp +zetaDelta only))

theorem State.unicastIn_keeps {z : State} (s : State) (p k : Nat) (f : Frame) (deliver : State → State)
    (hd : ∀ z s, Keeps z s → Keeps z (deliver s)) (hk : Keeps z s) : Keeps z (s.unicastIn p k f deliver) := by
  unfold State.unicastIn
  repeat' (first
    | extract_lets | with_reducible assumption | with_reducible apply Keeps.refl | with_reducible apply True.intro
    | with_reducible apply State.bump_keeps | with_reducible apply State.giveCredit_keeps
    | with_reducible apply State.takeParked_keeps | with_reducible apply State.enqueueFrom_keeps
    | with_reducible apply State.sendNack_keeps | with_reducible apply State.ackLane_keeps
    | with_reducible apply State.linkIn_keeps
    | with_reducible refine State.linkIn_keeps_eq (w := by assumption) (hk := ?_) ..
    | with_reducible apply KeepsO.getD | with_reducible apply Keeps.ite
    | (with_reducible apply Keeps.forEach; rotate_left; intro s a) | with_reducible apply hd
    | simp only [Keeps.mk_iff] | split | (dsimp +zetaDelta only))

theorem State.enterRelay_keeps {z0 : State} (s : State) (p c : Nat) (f : Frame) (hk : Keeps z0 s) :
    Keeps z0 (State.enterRelay s p c f) := by
  unfold State.enterRelay
  repeat' (first
    | extract_lets | with_reducible assumption | with_reducible apply Keeps.refl | with_reducible apply True.intro
    | with_reducible apply State.drainMc_keeps | with_reducible apply KeepsO.getD | with_reducible apply Keeps.ite
    | (with_reducible apply Keeps.forEach; rotate_left; intro s a) | simp only [Keeps.mk_iff] | split
    | (dsimp +zetaDelta only))

theorem State.multicastIn_keeps {z0 : State} (s : State) (p k : Nat) (f : Frame) (check : LineCheck) (hk : Keeps z0 s) :
    Keeps z0 (State.multicastIn s p k f check) := by
  unfold State.multicastIn
  repeat' (first
    | extract_lets | with_reducible assumption | with_reducible apply Keeps.refl | with_reducible apply True.intro
    | with_reducible apply State.bump_keeps | with_reducible apply State.giveCredit_keeps
    | with_reducible apply State.handleSignal_keeps | with_reducible apply State.enterRelay_keeps
    | with_reducible apply State.enterMc_keeps | with_reducible apply State.takeParked_keeps
    | with_reducible apply State.ackLane_keeps | with_reducible apply State.linkIn_keeps
    | with_reducible refine State.linkIn_keeps_eq (w := by assumption) (hk := ?_) ..
    | with_reducible apply KeepsO.getD | with_reducible apply Keeps.ite
    | (with_reducible apply Keeps.forEach; rotate_left; intro s a) | simp only [Keeps.mk_iff] | split
    | (dsimp +zetaDelta only))

theorem State.treeIn_keeps {z : State} (s : State) (p k : Nat) (f : Frame) (deliver : State → Nat → State)
    (hd : ∀ z s c, Keeps z s → Keeps z (deliver s c)) (hk : Keeps z s) : Keeps z (s.treeIn p k f deliver) := by
  unfold State.treeIn
  repeat' (first
    | extract_lets | with_reducible assumption | with_reducible apply Keeps.refl | with_reducible apply True.intro
    | with_reducible apply State.bump_keeps | with_reducible apply State.giveCredit_keeps
    | with_reducible apply State.ackLane_keeps | with_reducible apply State.linkIn_keeps
    | with_reducible refine State.linkIn_keeps_eq (w := by assumption) (hk := ?_) ..
    | with_reducible apply KeepsO.getD | with_reducible apply Keeps.ite
    | (with_reducible apply Keeps.forEach; rotate_left; intro s a) | with_reducible apply hd
    | simp only [Keeps.mk_iff] | split | (dsimp +zetaDelta only))

theorem State.settleRun_keeps {z : State} (t uid : Nat) (r : StepRun) (hr : KeepsR (fun s => s) z r) :
    Keeps z (State.settleRun t uid r) := by
  unfold State.settleRun
  split
  · exact hr
  · split
    · exact State.stepFault_keeps _ _ _ _ _ hr
    · exact hr

theorem State.modSent_keeps {z : State} (s : State) (dst flow : Nat) (mc : Option Nat) (q : BitVec 32) (f : Sent → Sent)
    (hk : Keeps z s) : Keeps z (s.modSent dst flow mc q f) := by
  unfold State.modSent
  repeat' (first
    | extract_lets | with_reducible assumption | with_reducible apply Keeps.refl | with_reducible apply True.intro
    | with_reducible apply State.setSrcFlow_keeps | with_reducible apply KeepsO.getD
    | with_reducible apply Keeps.ite | (with_reducible apply Keeps.forEach; rotate_left; intro s a)
    | simp only [Keeps.mk_iff] | split | (dsimp +zetaDelta only))

theorem State.quotaFreed_keeps {z0 : State} (s : State) (c : Nat) (hk : Keeps z0 s) :
    Keeps z0 (State.quotaFreed s c) := by
  unfold State.quotaFreed
  repeat' (first
    | extract_lets | with_reducible assumption | with_reducible apply Keeps.refl | with_reducible apply True.intro
    | with_reducible apply State.unstall_keeps | with_reducible apply State.kickAll_keeps
    | with_reducible apply State.regrantAll_keeps | with_reducible apply KeepsO.getD
    | with_reducible apply Keeps.ite | (with_reducible apply Keeps.forEach; rotate_left; intro s a)
    | simp only [Keeps.mk_iff] | split | (dsimp +zetaDelta only))

theorem State.atomOn_keeps {z0 : State} (s : State) (u : Sent) (flow : Nat) (hk : Keeps z0 s) :
    Keeps z0 (State.atomOn s u flow) := by
  unfold State.atomOn
  repeat' (first
    | extract_lets | with_reducible assumption | with_reducible apply Keeps.refl | with_reducible apply True.intro
    | with_reducible apply State.settleRun_keeps | with_reducible apply State.atomRun_keeps
    | with_reducible apply KeepsE.mk | with_reducible apply KeepsE.mkError | with_reducible apply KeepsR.mk
    | with_reducible apply KeepsR.mkError | with_reducible apply KeepsR.mkPure
    | with_reducible apply KeepsR.readState | with_reducible apply KeepsR.readPair | with_reducible apply KeepsR.map
    | with_reducible apply KeepsR.read | with_reducible apply KeepsR.orFaultValue
    | (with_reducible apply KeepsR.orFault) | (with_reducible apply KeepsR.foldRun) <;> [(intro s a); skip]
    | with_reducible apply KeepsR.mapM | with_reducible apply KeepsR.ite | with_reducible apply KeepsR.bindState
    | with_reducible apply KeepsR.bindPair | with_reducible apply KeepsR.readAll | intro _
    | with_reducible apply KeepsO.getD | with_reducible apply Keeps.ite
    | (with_reducible apply Keeps.forEach; rotate_left; intro s a) | simp only [Keeps.mk_iff] | split
    | (dsimp +zetaDelta only))

theorem State.takeReadResp_keeps {z0 : State} (s : State) (f : Frame) (hk : Keeps z0 s) :
    Keeps z0 (State.takeReadResp s f) := by
  unfold State.takeReadResp
  repeat' (first
    | extract_lets | with_reducible assumption | with_reducible apply Keeps.refl | with_reducible apply True.intro
    | with_reducible apply State.modSent_keeps | with_reducible apply State.sentFault_keeps
    | with_reducible apply State.quotaFreed_keeps | with_reducible apply State.modStep_keeps
    | with_reducible apply State.atomOn_keeps | with_reducible apply State.byThread_keeps
    | with_reducible apply State.settleRun_keeps | with_reducible apply State.moveWrite_keeps
    | with_reducible refine State.moveWrite_keeps_ok (w := by assumption) (hk := ?_) ..
    | with_reducible refine State.moveWrite_keeps_error (w := by assumption) (hk := ?_) ..
    | with_reducible apply State.pairsRun_keeps | with_reducible apply KeepsE.mk
    | with_reducible apply KeepsE.mkError | with_reducible apply KeepsR.mk | with_reducible apply KeepsR.mkError
    | with_reducible apply KeepsR.mkPure | with_reducible apply KeepsR.readState
    | with_reducible apply KeepsR.readPair | with_reducible apply KeepsR.map | with_reducible apply KeepsR.read
    | with_reducible apply KeepsR.orFaultValue | (with_reducible apply KeepsR.orFault)
    | (with_reducible apply KeepsR.foldRun) <;> [(intro s a); skip] | with_reducible apply KeepsR.mapM
    | with_reducible apply KeepsR.ite | with_reducible apply KeepsR.bindState | with_reducible apply KeepsR.bindPair
    | with_reducible apply KeepsR.readAll | intro _ | with_reducible apply KeepsO.getD
    | with_reducible apply Keeps.ite | (with_reducible apply Keeps.forEach; rotate_left; intro s a)
    | simp only [Keeps.mk_iff] | split | (dsimp +zetaDelta only))

theorem State.takeCasResp_keeps {z0 : State} (s : State) (f : Frame) (hk : Keeps z0 s) :
    Keeps z0 (State.takeCasResp s f) := by
  unfold State.takeCasResp
  repeat' (first
    | extract_lets | with_reducible assumption | with_reducible apply Keeps.refl | with_reducible apply True.intro
    | with_reducible apply State.modSent_keeps | with_reducible apply State.sentFault_keeps
    | with_reducible apply State.atomOn_keeps | with_reducible apply State.byThread_keeps
    | with_reducible apply State.quotaFreed_keeps | with_reducible apply State.settleRun_keeps
    | with_reducible apply State.atomDone_keeps
    | with_reducible refine State.atomDone_keeps_ok (w := by assumption) (hk := ?_) ..
    | with_reducible refine State.atomDone_keeps_error (w := by assumption) (hk := ?_) ..
    | with_reducible apply KeepsE.mk | with_reducible apply KeepsE.mkError | with_reducible apply KeepsR.mk
    | with_reducible apply KeepsR.mkError | with_reducible apply KeepsR.mkPure
    | with_reducible apply KeepsR.readState | with_reducible apply KeepsR.readPair | with_reducible apply KeepsR.map
    | with_reducible apply KeepsR.read | with_reducible apply KeepsR.orFaultValue
    | (with_reducible apply KeepsR.orFault) | (with_reducible apply KeepsR.foldRun) <;> [(intro s a); skip]
    | with_reducible apply KeepsR.mapM | with_reducible apply KeepsR.ite | with_reducible apply KeepsR.bindState
    | with_reducible apply KeepsR.bindPair | with_reducible apply KeepsR.readAll | intro _
    | with_reducible apply KeepsO.getD | with_reducible apply Keeps.ite
    | (with_reducible apply Keeps.forEach; rotate_left; intro s a) | simp only [Keeps.mk_iff] | split
    | (dsimp +zetaDelta only))

theorem State.flowFreed_keeps {z0 : State} (s : State) (cs : List Nat) (hk : Keeps z0 s) :
    Keeps z0 (State.flowFreed s cs) := by
  unfold State.flowFreed
  repeat' (first
    | extract_lets | with_reducible assumption | with_reducible apply Keeps.refl | with_reducible apply True.intro
    | with_reducible apply State.unstall_keeps | with_reducible apply State.kickAll_keeps
    | with_reducible apply State.regrantAll_keeps | with_reducible apply KeepsO.getD
    | with_reducible apply Keeps.ite | (with_reducible apply Keeps.forEach; rotate_left; intro s a)
    | simp only [Keeps.mk_iff] | split | (dsimp +zetaDelta only))

theorem State.sendHeld_keeps {z : State} (s : State) (e : SrcFlow) (due : BitVec 32 → Bool) (lost : Bool) (hk : Keeps z s) :
    Keeps z (s.sendHeld e due lost) := by
  unfold State.sendHeld
  repeat' (first
    | extract_lets | with_reducible assumption | with_reducible apply Keeps.refl | with_reducible apply True.intro
    | with_reducible apply State.setSrcFlow_keeps | with_reducible apply State.sendSignal_keeps
    | with_reducible apply KeepsO.getD | with_reducible apply Keeps.ite
    | (with_reducible apply Keeps.forEach; rotate_left; intro s a) | simp only [Keeps.mk_iff] | split
    | (dsimp +zetaDelta only))

theorem State.loseHeld_keeps {z0 : State} (s : State) (e : SrcFlow) (u : Sent) (hk : Keeps z0 s) :
    Keeps z0 (State.loseHeld s e u) := by
  unfold State.loseHeld
  repeat' (first
    | extract_lets | with_reducible assumption | with_reducible apply Keeps.refl | with_reducible apply True.intro
    | with_reducible apply State.sendHeld_keeps | with_reducible apply KeepsO.getD | with_reducible apply Keeps.ite
    | (with_reducible apply Keeps.forEach; rotate_left; intro s a) | simp only [Keeps.mk_iff] | split
    | (dsimp +zetaDelta only))

theorem State.takeE2eAck_keeps {z0 : State} (s : State) (f : Frame) (hk : Keeps z0 s) :
    Keeps z0 (State.takeE2eAck s f) := by
  unfold State.takeE2eAck
  repeat' (first
    | extract_lets | with_reducible assumption | with_reducible apply Keeps.refl | with_reducible apply True.intro
    | with_reducible apply State.setSrcFlow_keeps | with_reducible apply State.updateMc_keeps
    | with_reducible apply State.flowFreed_keeps | with_reducible apply State.sendHeld_keeps
    | with_reducible apply KeepsO.getD | with_reducible apply Keeps.ite
    | (with_reducible apply Keeps.forEach; rotate_left; intro s a) | simp only [Keeps.mk_iff] | split
    | (dsimp +zetaDelta only))

theorem State.takeNack_keeps {z0 : State} (s : State) (f : Frame) (hk : Keeps z0 s) :
    Keeps z0 (State.takeNack s f) := by
  unfold State.takeNack
  repeat' (first
    | extract_lets | with_reducible assumption | with_reducible apply Keeps.refl | with_reducible apply True.intro
    | with_reducible apply State.bump_keeps | with_reducible apply State.modSent_keeps
    | with_reducible apply State.sentFault_keeps | with_reducible apply State.loseSent_keeps
    | with_reducible apply State.loseHeld_keeps | with_reducible apply State.setSrcFlow_keeps
    | with_reducible apply State.flowFreed_keeps | with_reducible apply KeepsO.getD | with_reducible apply Keeps.ite
    | (with_reducible apply Keeps.forEach; rotate_left; intro s a) | simp only [Keeps.mk_iff] | split
    | (dsimp +zetaDelta only))

theorem State.takeMcAck_keeps {z0 : State} (s : State) (p : Nat) (f : Frame) (hk : Keeps z0 s) :
    Keeps z0 (State.takeMcAck s p f) := by
  unfold State.takeMcAck
  repeat' (first
    | extract_lets | with_reducible assumption | with_reducible apply Keeps.refl | with_reducible apply True.intro
    | with_reducible apply State.mapBranches_keeps | with_reducible apply State.updateMc_keeps
    | with_reducible apply State.flowFreed_keeps | with_reducible apply KeepsO.getD | with_reducible apply Keeps.ite
    | (with_reducible apply Keeps.forEach; rotate_left; intro s a) | simp only [Keeps.mk_iff] | split
    | (dsimp +zetaDelta only))

theorem State.takePrune_keeps {z0 : State} (s : State) (f : Frame) (hk : Keeps z0 s) :
    Keeps z0 (State.takePrune s f) := by
  unfold State.takePrune
  repeat' (first
    | extract_lets | with_reducible assumption | with_reducible apply Keeps.refl | with_reducible apply True.intro
    | with_reducible apply State.repair_keeps | with_reducible apply KeepsO.getD | with_reducible apply Keeps.ite
    | (with_reducible apply Keeps.forEach; rotate_left; intro s a) | simp only [Keeps.mk_iff] | split
    | (dsimp +zetaDelta only))

theorem execIdle_keeps (p lane : Fin 8) (f : Frame) (s : State) : KeepsOut s (execIdle p lane f s) := by
  have hk := Keeps.refl s
  unfold execIdle
  repeat' (first
    | extract_lets | with_reducible assumption | with_reducible apply Keeps.refl | with_reducible apply True.intro
    | with_reducible apply State.linkIn_keeps
    | with_reducible refine State.linkIn_keeps_eq (w := by assumption) (hk := ?_) ..
    | with_reducible apply KeepsOut.mk | with_reducible apply KeepsOut.mkFault
    | with_reducible apply KeepsOut.mkRefused | with_reducible apply KeepsOut.ite | intro _
    | with_reducible apply KeepsO.getD | with_reducible apply Keeps.ite
    | (with_reducible apply Keeps.forEach; rotate_left; intro s a) | simp only [Keeps.mk_iff] | split
    | (dsimp +zetaDelta only))

theorem execLink_keeps (p lane : Fin 8) (f : Frame) (s : State) : KeepsOut s (execLink p lane f s) := by
  have hk := Keeps.refl s
  unfold execLink
  repeat' (first
    | extract_lets | with_reducible assumption | with_reducible apply Keeps.refl | with_reducible apply True.intro
    | with_reducible apply State.ackLane_keeps | with_reducible apply State.linkIn_keeps
    | with_reducible refine State.linkIn_keeps_eq (w := by assumption) (hk := ?_) ..
    | with_reducible apply KeepsOut.mk | with_reducible apply KeepsOut.mkFault
    | with_reducible apply KeepsOut.mkRefused | with_reducible apply KeepsOut.ite | intro _
    | with_reducible apply KeepsO.getD | with_reducible apply Keeps.ite
    | (with_reducible apply Keeps.forEach; rotate_left; intro s a) | simp only [Keeps.mk_iff] | split
    | (dsimp +zetaDelta only))

theorem execWrite_keeps (p lane : Fin 8) (f : Frame) (s : State) : KeepsOut s (execWrite p lane f s) := by
  have hk := Keeps.refl s
  unfold execWrite
  repeat' (first
    | extract_lets | with_reducible assumption | with_reducible apply Keeps.refl | with_reducible apply True.intro
    | with_reducible apply State.unicastIn_keeps | intro _ | with_reducible apply State.handleSeq_keeps
    | with_reducible apply KeepsOut.mk | with_reducible apply KeepsOut.mkFault
    | with_reducible apply KeepsOut.mkRefused | with_reducible apply KeepsOut.ite | intro _
    | with_reducible apply KeepsO.getD | with_reducible apply Keeps.ite
    | (with_reducible apply Keeps.forEach; rotate_left; intro s a) | simp only [Keeps.mk_iff] | split
    | (dsimp +zetaDelta only))

theorem execReadReq_keeps (p lane : Fin 8) (f : Frame) (check : LineCheck) (s : State) : KeepsOut s (execReadReq p lane f check s) := by
  have hk := Keeps.refl s
  unfold execReadReq
  repeat' (first
    | extract_lets | with_reducible assumption | with_reducible apply Keeps.refl | with_reducible apply True.intro
    | with_reducible apply State.unicastIn_keeps | intro _ | with_reducible apply State.handleSeq_keeps
    | with_reducible apply KeepsOut.mk | with_reducible apply KeepsOut.mkFault
    | with_reducible apply KeepsOut.mkRefused | with_reducible apply KeepsOut.ite | intro _
    | with_reducible apply KeepsO.getD | with_reducible apply Keeps.ite
    | (with_reducible apply Keeps.forEach; rotate_left; intro s a) | simp only [Keeps.mk_iff] | split
    | (dsimp +zetaDelta only))

theorem execReadResp_keeps (p lane : Fin 8) (f : Frame) (s : State) : KeepsOut s (execReadResp p lane f s) := by
  have hk := Keeps.refl s
  unfold execReadResp
  repeat' (first
    | extract_lets | with_reducible assumption | with_reducible apply Keeps.refl | with_reducible apply True.intro
    | with_reducible apply State.unicastIn_keeps | intro _ | with_reducible apply State.takeReadResp_keeps
    | with_reducible apply KeepsOut.mk | with_reducible apply KeepsOut.mkFault
    | with_reducible apply KeepsOut.mkRefused | with_reducible apply KeepsOut.ite | intro _
    | with_reducible apply KeepsO.getD | with_reducible apply Keeps.ite
    | (with_reducible apply Keeps.forEach; rotate_left; intro s a) | simp only [Keeps.mk_iff] | split
    | (dsimp +zetaDelta only))

theorem execCasReq_keeps (p lane : Fin 8) (f : Frame) (check : LineCheck) (s : State) : KeepsOut s (execCasReq p lane f check s) := by
  have hk := Keeps.refl s
  unfold execCasReq
  repeat' (first
    | extract_lets | with_reducible assumption | with_reducible apply Keeps.refl | with_reducible apply True.intro
    | with_reducible apply State.unicastIn_keeps | intro _ | with_reducible apply State.handleSeq_keeps
    | with_reducible apply KeepsOut.mk | with_reducible apply KeepsOut.mkFault
    | with_reducible apply KeepsOut.mkRefused | with_reducible apply KeepsOut.ite | intro _
    | with_reducible apply KeepsO.getD | with_reducible apply Keeps.ite
    | (with_reducible apply Keeps.forEach; rotate_left; intro s a) | simp only [Keeps.mk_iff] | split
    | (dsimp +zetaDelta only))

theorem execCasResp_keeps (p lane : Fin 8) (f : Frame) (s : State) : KeepsOut s (execCasResp p lane f s) := by
  have hk := Keeps.refl s
  unfold execCasResp
  repeat' (first
    | extract_lets | with_reducible assumption | with_reducible apply Keeps.refl | with_reducible apply True.intro
    | with_reducible apply State.unicastIn_keeps | intro _ | with_reducible apply State.takeCasResp_keeps
    | with_reducible apply KeepsOut.mk | with_reducible apply KeepsOut.mkFault
    | with_reducible apply KeepsOut.mkRefused | with_reducible apply KeepsOut.ite | intro _
    | with_reducible apply KeepsO.getD | with_reducible apply Keeps.ite
    | (with_reducible apply Keeps.forEach; rotate_left; intro s a) | simp only [Keeps.mk_iff] | split
    | (dsimp +zetaDelta only))

theorem execSignalFrame_keeps (p lane : Fin 8) (f : Frame) (check : LineCheck) (s : State) : KeepsOut s (execSignalFrame p lane f check s) := by
  have hk := Keeps.refl s
  unfold execSignalFrame
  repeat' (first
    | extract_lets | with_reducible assumption | with_reducible apply Keeps.refl | with_reducible apply True.intro
    | with_reducible apply State.multicastIn_keeps | with_reducible apply State.unicastIn_keeps | intro _
    | with_reducible apply State.handleSignal_keeps | with_reducible apply KeepsOut.mk
    | with_reducible apply KeepsOut.mkFault | with_reducible apply KeepsOut.mkRefused
    | with_reducible apply KeepsOut.ite | intro _ | with_reducible apply KeepsO.getD
    | with_reducible apply Keeps.ite | (with_reducible apply Keeps.forEach; rotate_left; intro s a)
    | simp only [Keeps.mk_iff] | split | (dsimp +zetaDelta only))

theorem execE2eAck_keeps (p lane : Fin 8) (f : Frame) (s : State) : KeepsOut s (execE2eAck p lane f s) := by
  have hk := Keeps.refl s
  unfold execE2eAck
  repeat' (first
    | extract_lets | with_reducible assumption | with_reducible apply Keeps.refl | with_reducible apply True.intro
    | with_reducible apply State.unicastIn_keeps | intro _ | with_reducible apply State.takeE2eAck_keeps
    | with_reducible apply KeepsOut.mk | with_reducible apply KeepsOut.mkFault
    | with_reducible apply KeepsOut.mkRefused | with_reducible apply KeepsOut.ite | intro _
    | with_reducible apply KeepsO.getD | with_reducible apply Keeps.ite
    | (with_reducible apply Keeps.forEach; rotate_left; intro s a) | simp only [Keeps.mk_iff] | split
    | (dsimp +zetaDelta only))

theorem execE2eNack_keeps (p lane : Fin 8) (f : Frame) (s : State) : KeepsOut s (execE2eNack p lane f s) := by
  have hk := Keeps.refl s
  unfold execE2eNack
  repeat' (first
    | extract_lets | with_reducible assumption | with_reducible apply Keeps.refl | with_reducible apply True.intro
    | with_reducible apply State.unicastIn_keeps | intro _ | with_reducible apply State.takeNack_keeps
    | with_reducible apply KeepsOut.mk | with_reducible apply KeepsOut.mkFault
    | with_reducible apply KeepsOut.mkRefused | with_reducible apply KeepsOut.ite | intro _
    | with_reducible apply KeepsO.getD | with_reducible apply Keeps.ite
    | (with_reducible apply Keeps.forEach; rotate_left; intro s a) | simp only [Keeps.mk_iff] | split
    | (dsimp +zetaDelta only))

theorem execMcWrite_keeps (p lane : Fin 8) (f : Frame) (s : State) : KeepsOut s (execMcWrite p lane f s) := by
  have hk := Keeps.refl s
  unfold execMcWrite
  repeat' (first
    | extract_lets | with_reducible assumption | with_reducible apply Keeps.refl | with_reducible apply True.intro
    | with_reducible apply State.multicastIn_keeps | with_reducible apply KeepsOut.mk
    | with_reducible apply KeepsOut.mkFault | with_reducible apply KeepsOut.mkRefused
    | with_reducible apply KeepsOut.ite | intro _ | with_reducible apply KeepsO.getD
    | with_reducible apply Keeps.ite | (with_reducible apply Keeps.forEach; rotate_left; intro s a)
    | simp only [Keeps.mk_iff] | split | (dsimp +zetaDelta only))

theorem execMcOpen_keeps (p lane : Fin 8) (f : Frame) (s : State) : KeepsOut s (execMcOpen p lane f s) := by
  have hk := Keeps.refl s
  unfold execMcOpen
  repeat' (first
    | extract_lets | with_reducible assumption | with_reducible apply Keeps.refl | with_reducible apply True.intro
    | with_reducible apply State.treeIn_keeps | intro _ | with_reducible apply State.bump_keeps
    | with_reducible apply State.giveCredit_keeps | with_reducible apply State.openMc_keeps
    | with_reducible apply KeepsOut.mk | with_reducible apply KeepsOut.mkFault
    | with_reducible apply KeepsOut.mkRefused | with_reducible apply KeepsOut.ite | intro _
    | with_reducible apply KeepsO.getD | with_reducible apply Keeps.ite
    | (with_reducible apply Keeps.forEach; rotate_left; intro s a) | simp only [Keeps.mk_iff] | split
    | (dsimp +zetaDelta only))

theorem execMcAck_keeps (p lane : Fin 8) (f : Frame) (s : State) : KeepsOut s (execMcAck p lane f s) := by
  have hk := Keeps.refl s
  unfold execMcAck
  repeat' (first
    | extract_lets | with_reducible assumption | with_reducible apply Keeps.refl | with_reducible apply True.intro
    | with_reducible apply State.treeIn_keeps | intro _ | with_reducible apply State.bump_keeps
    | with_reducible apply State.takeMcAck_keeps | with_reducible apply State.giveCredit_keeps
    | with_reducible apply KeepsOut.mk | with_reducible apply KeepsOut.mkFault
    | with_reducible apply KeepsOut.mkRefused | with_reducible apply KeepsOut.ite | intro _
    | with_reducible apply KeepsO.getD | with_reducible apply Keeps.ite
    | (with_reducible apply Keeps.forEach; rotate_left; intro s a) | simp only [Keeps.mk_iff] | split
    | (dsimp +zetaDelta only))

theorem execMcPrune_keeps (p lane : Fin 8) (f : Frame) (s : State) : KeepsOut s (execMcPrune p lane f s) := by
  have hk := Keeps.refl s
  unfold execMcPrune
  repeat' (first
    | extract_lets | with_reducible assumption | with_reducible apply Keeps.refl | with_reducible apply True.intro
    | with_reducible apply State.treeIn_keeps | intro _ | with_reducible apply State.giveCredit_keeps
    | with_reducible apply State.enqueueFrom_keeps | with_reducible apply State.bump_keeps
    | with_reducible apply State.takePrune_keeps | with_reducible apply KeepsOut.mk
    | with_reducible apply KeepsOut.mkFault | with_reducible apply KeepsOut.mkRefused
    | with_reducible apply KeepsOut.ite | intro _ | with_reducible apply KeepsO.getD
    | with_reducible apply Keeps.ite | (with_reducible apply Keeps.forEach; rotate_left; intro s a)
    | simp only [Keeps.mk_iff] | split | (dsimp +zetaDelta only))

theorem execMcRepair_keeps (p lane : Fin 8) (f : Frame) (s : State) : KeepsOut s (execMcRepair p lane f s) := by
  have hk := Keeps.refl s
  unfold execMcRepair
  repeat' (first
    | extract_lets | with_reducible assumption | with_reducible apply Keeps.refl | with_reducible apply True.intro
    | with_reducible apply State.unicastIn_keeps | intro _ | with_reducible apply State.handleSeq_keeps
    | with_reducible apply KeepsOut.mk | with_reducible apply KeepsOut.mkFault
    | with_reducible apply KeepsOut.mkRefused | with_reducible apply KeepsOut.ite | intro _
    | with_reducible apply KeepsO.getD | with_reducible apply Keeps.ite
    | (with_reducible apply Keeps.forEach; rotate_left; intro s a) | simp only [Keeps.mk_iff] | split
    | (dsimp +zetaDelta only))

theorem execReservedFrame_keeps (p lane : Fin 8) (f : Frame) (s : State) : KeepsOut s (execReservedFrame p lane f s) := by
  unfold execReservedFrame
  split
  · exact True.intro
  · exact State.treeIn_keeps _ _ _ _ _ (fun _ _ _ h => State.giveCredit_keeps _ _ _ h) (Keeps.refl s)

theorem execE2eAckTimer_keeps (src : BitVec 15) (flow : BitVec 12) (s : State) : KeepsOut s (execE2eAckTimer src flow s) := by
  have hk := Keeps.refl s
  unfold execE2eAckTimer
  repeat' (first
    | extract_lets | with_reducible assumption | with_reducible apply Keeps.refl | with_reducible apply True.intro
    | with_reducible apply State.sendAck_keeps | with_reducible apply KeepsOut.mk
    | with_reducible apply KeepsOut.mkFault | with_reducible apply KeepsOut.mkRefused
    | with_reducible apply KeepsOut.ite | intro _ | with_reducible apply KeepsO.getD
    | with_reducible apply Keeps.ite | (with_reducible apply Keeps.forEach; rotate_left; intro s a)
    | simp only [Keeps.mk_iff] | split | (dsimp +zetaDelta only))

theorem execFlowTimeout_keeps (dst : BitVec 15) (flow : BitVec 12) (s : State) : KeepsOut s (execFlowTimeout dst flow s) := by
  have hk := Keeps.refl s
  unfold execFlowTimeout
  repeat' (first
    | extract_lets | with_reducible assumption | with_reducible apply Keeps.refl | with_reducible apply True.intro
    | with_reducible apply State.modSent_keeps | with_reducible apply State.sentFault_keeps
    | with_reducible apply State.quotaFreed_keeps | with_reducible apply State.loseSent_keeps
    | with_reducible apply State.loseHeld_keeps | with_reducible apply State.flowFreed_keeps
    | with_reducible apply KeepsOut.mk | with_reducible apply KeepsOut.mkFault
    | with_reducible apply KeepsOut.mkRefused | with_reducible apply KeepsOut.ite | intro _
    | with_reducible apply KeepsO.getD | with_reducible apply Keeps.ite
    | (with_reducible apply Keeps.forEach; rotate_left; intro s a) | simp only [Keeps.mk_iff] | split
    | (dsimp +zetaDelta only))

theorem execHeldFrameTimeout_keeps (src : BitVec 15) (flow : BitVec 12) (s : State) : KeepsOut s (execHeldFrameTimeout src flow s) := by
  have hk := Keeps.refl s
  unfold execHeldFrameTimeout
  repeat' (first
    | extract_lets | with_reducible assumption | with_reducible apply Keeps.refl | with_reducible apply True.intro
    | with_reducible apply State.skipGap_keeps | with_reducible apply State.takeParked_keeps
    | with_reducible apply KeepsOut.mk | with_reducible apply KeepsOut.mkFault
    | with_reducible apply KeepsOut.mkRefused | with_reducible apply KeepsOut.ite | intro _
    | with_reducible apply KeepsO.getD | with_reducible apply Keeps.ite
    | (with_reducible apply Keeps.forEach; rotate_left; intro s a) | simp only [Keeps.mk_iff] | split
    | (dsimp +zetaDelta only))

theorem execHeldSignalTimeout_keeps (src : BitVec 15) (flow : BitVec 12) (s : State) : KeepsOut s (execHeldSignalTimeout src flow s) := by
  have hk := Keeps.refl s
  unfold execHeldSignalTimeout
  repeat' (first
    | extract_lets | with_reducible assumption | with_reducible apply Keeps.refl | with_reducible apply True.intro
    | with_reducible apply State.skipGap_keeps | with_reducible apply State.setDst_keeps
    | with_reducible apply State.applySignal_keeps | with_reducible apply State.takeParked_keeps
    | with_reducible apply KeepsOut.mk | with_reducible apply KeepsOut.mkFault
    | with_reducible apply KeepsOut.mkRefused | with_reducible apply KeepsOut.ite | intro _
    | with_reducible apply KeepsO.getD | with_reducible apply Keeps.ite
    | (with_reducible apply Keeps.forEach; rotate_left; intro s a) | simp only [Keeps.mk_iff] | split
    | (dsimp +zetaDelta only))

theorem execMcWriteHoldTimeout_keeps (src : BitVec 15) (flow : BitVec 12) (s : State) : KeepsOut s (execMcWriteHoldTimeout src flow s) := by
  have hk := Keeps.refl s
  unfold execMcWriteHoldTimeout
  repeat' (first
    | extract_lets | with_reducible assumption | with_reducible apply Keeps.refl | with_reducible apply True.intro
    | with_reducible apply KeepsOut.mk | with_reducible apply KeepsOut.mkFault
    | with_reducible apply KeepsOut.mkRefused | with_reducible apply KeepsOut.ite | intro _
    | with_reducible apply KeepsO.getD | with_reducible apply Keeps.ite
    | (with_reducible apply Keeps.forEach; rotate_left; intro s a) | simp only [Keeps.mk_iff] | split
    | (dsimp +zetaDelta only))

theorem execMcStall_keeps (group : BitVec 10) (port : Fin 8) (s : State) : KeepsOut s (execMcStall group port s) := by
  have hk := Keeps.refl s
  unfold execMcStall
  repeat' (first
    | extract_lets | with_reducible assumption | with_reducible apply Keeps.refl | with_reducible apply True.intro
    | with_reducible apply State.pruneBranch_keeps | with_reducible apply KeepsOut.mk
    | with_reducible apply KeepsOut.mkFault | with_reducible apply KeepsOut.mkRefused
    | with_reducible apply KeepsOut.ite | intro _ | with_reducible apply KeepsO.getD
    | with_reducible apply Keeps.ite | (with_reducible apply Keeps.forEach; rotate_left; intro s a)
    | simp only [Keeps.mk_iff] | split | (dsimp +zetaDelta only))

end Sys2Proof.Machine
end

