-- ==== Sys2Proof/Laws/KeepBind.lean ====
section
/-! SUPPORT. What the definitions of Machine/Bind.lean keep (Keeps, Laws/Keep.lean). -/

set_option linter.all false

namespace Sys2Proof.Machine

theorem State.portalRun_keeps {z : State} (s : State) (p e op : Nat) (f : PortalCmd → State) (hf : ∀ k, Keeps z (f k))
    (hk : Keeps z s) : Keeps z (s.portalRun p e op f) := by
  unfold State.portalRun
  repeat' (first
    | extract_lets | with_reducible assumption | with_reducible apply Keeps.refl | with_reducible apply True.intro
    | with_reducible apply State.finishCmd_keeps | with_reducible apply KeepsO.getD | with_reducible apply Keeps.ite
    | (with_reducible apply Keeps.forEach; rotate_left; intro s a) | with_reducible apply hf
    | simp only [Keeps.mk_iff] | split | (dsimp +zetaDelta only))

theorem State.sigFail_keeps {z0 : State} (s : State) (kind fails : Nat) (hk : Keeps z0 s) :
    Keeps z0 (State.sigFail s kind fails) := by
  unfold State.sigFail
  repeat' (first
    | extract_lets | with_reducible assumption | with_reducible apply Keeps.refl | with_reducible apply True.intro
    | with_reducible apply State.bump_keeps | with_reducible apply State.journal_keeps
    | with_reducible apply KeepsO.getD | with_reducible apply Keeps.ite
    | (with_reducible apply Keeps.forEach; rotate_left; intro s a) | simp only [Keeps.mk_iff] | split
    | (dsimp +zetaDelta only))

theorem mapWait_keeps {z : State} (c sid : Nat) (host : Bool) (addr : Nat) (r : State × SyncEntry) (b : Nat)
    (hk : Keeps z r.1) : Keeps z (mapWait c sid host addr r b).1 := by
  unfold mapWait
  repeat' (first
    | extract_lets | with_reducible assumption | with_reducible apply Keeps.refl | with_reducible apply True.intro
    | with_reducible apply State.setBay_keeps | with_reducible apply State.bump_keeps
    | with_reducible apply KeepsO.getD | with_reducible apply Keeps.ite
    | (with_reducible apply Keeps.forEach; rotate_left; intro s a) | simp only [Keeps.mk_iff] | split
    | (dsimp +zetaDelta only))

theorem State.mapSync_keeps {z0 : State} (s : State) (c : Nat) (bays : List Nat) (d : SyncDecl) (hk : Keeps z0 s) :
    Keeps z0 (State.mapSync s c bays d) := by
  unfold State.mapSync
  repeat' (first
    | extract_lets | with_reducible assumption | with_reducible apply Keeps.refl | with_reducible apply True.intro
    | with_reducible apply State.modCtx_keeps | with_reducible apply mapWait_keeps
    | with_reducible apply KeepsO.getD | with_reducible apply Keeps.ite
    | (with_reducible apply Keeps.forEach; rotate_left; intro s a)
    | ((with_reducible apply Keeps.foldl) <;> [(intro r a); skip]) | simp only [Keeps.mk_iff] | split
    | (dsimp +zetaDelta only))

theorem State.mapAll_keeps {z0 : State} (s : State) (c : Nat) (bays : List Nat) (ds : List SyncDecl) (hk : Keeps z0 s) :
    Keeps z0 (State.mapAll s c bays ds) := by
  unfold State.mapAll
  repeat' (first
    | extract_lets | with_reducible assumption | with_reducible apply Keeps.refl | with_reducible apply True.intro
    | with_reducible apply State.mapSync_keeps | with_reducible apply State.event_keeps
    | with_reducible apply KeepsO.getD | with_reducible apply Keeps.ite
    | (with_reducible apply Keeps.forEach; rotate_left; intro s a)
    | ((with_reducible apply Keeps.foldl) <;> [(intro r a); skip]) | simp only [Keeps.mk_iff] | split
    | (dsimp +zetaDelta only))

theorem State.bindAccept_keeps {z : State} (s : State) (p e c seq : Nat) (po : Portal) (va : Nat) (k : Bound) (hk : Keeps z s) :
    Keeps z (s.bindAccept p e c seq po va k) := by
  unfold State.bindAccept
  extract_lets x y t s1 s2 s3
  refine State.finishCmd_keeps _ _ _ _ _ (State.mapAll_keeps _ _ _ _ ?_)
  have h1 : Keeps z s1 := Keeps.setSec _ (Nat.le_refl _) (Nat.le_refl _) (State.drawn_keeps _ _ hk)
  have h2 : Keeps z s2 := State.cleanEntry_keeps _ _ (State.setCtx_keeps _ _ _ (State.releaseSlots_keeps _ _ h1))
  exact Keeps.ite (State.event_keeps _ _ _ _ _ _ h2) h2

theorem State.bindRefuse_keeps {z0 : State} (s : State) (p e c seq : Nat) (f : BindFail) (hk : Keeps z0 s) :
    Keeps z0 (State.bindRefuse s p e c seq f) := by
  unfold State.bindRefuse
  repeat' (first
    | extract_lets | with_reducible assumption | with_reducible apply Keeps.refl | with_reducible apply True.intro
    | with_reducible apply State.modCtx_keeps | with_reducible apply State.bump_keeps
    | with_reducible apply State.sigFail_keeps | with_reducible apply State.finishCmd_keeps
    | with_reducible apply KeepsO.getD | with_reducible apply Keeps.ite
    | (with_reducible apply Keeps.forEach; rotate_left; intro s a) | simp only [Keeps.mk_iff] | split
    | (dsimp +zetaDelta only))

theorem State.bindReads_keeps {z0 : State} (s : State) (po : Portal) (root va : Nat) (table bundle : LineCheck) (hk : Keeps z0 s) :
    Keeps z0 (State.bindReads s po root va table bundle) := by
  unfold State.bindReads
  repeat' (first
    | extract_lets | with_reducible assumption | with_reducible apply Keeps.refl | with_reducible apply True.intro
    | with_reducible apply State.checkAt_keeps | with_reducible apply KeepsO.getD | with_reducible apply Keeps.ite
    | (with_reducible apply Keeps.forEach; rotate_left; intro s a) | simp only [Keeps.mk_iff] | split
    | (dsimp +zetaDelta only))

theorem execBind_keeps (p : Fin 256) (e : Fin 4096) (ed ml : Bool) (keyIndex : Nat) (table bundle : LineCheck) (s : State) : KeepsOut s (execBind p e ed ml keyIndex table bundle s) := by
  have hk := Keeps.refl s
  unfold execBind
  repeat' (first
    | extract_lets | with_reducible assumption | with_reducible apply Keeps.refl | with_reducible apply True.intro
    | with_reducible apply State.portalRun_keeps | intro _ | with_reducible apply State.finishCmd_keeps
    | with_reducible apply State.bindReads_keeps | with_reducible apply State.bindRefuse_keeps
    | with_reducible apply State.bindAccept_keeps | with_reducible apply KeepsOut.mk
    | with_reducible apply KeepsOut.mkFault | with_reducible apply KeepsOut.mkRefused
    | with_reducible apply KeepsOut.ite | intro _ | with_reducible apply KeepsO.getD
    | with_reducible apply Keeps.ite | (with_reducible apply Keeps.forEach; rotate_left; intro s a)
    | simp only [Keeps.mk_iff] | split | (dsimp +zetaDelta only))

theorem execStart_keeps (p : Fin 256) (e : Fin 4096) (s : State) : KeepsOut s (execStart p e s) := by
  have hk := Keeps.refl s
  unfold execStart
  repeat' (first
    | extract_lets | with_reducible assumption | with_reducible apply Keeps.refl | with_reducible apply True.intro
    | with_reducible apply State.portalRun_keeps | intro _ | with_reducible apply State.finishCmd_keeps
    | with_reducible apply State.bump_keeps | with_reducible apply State.modCtx_keeps
    | with_reducible apply KeepsOut.mk | with_reducible apply KeepsOut.mkFault
    | with_reducible apply KeepsOut.mkRefused | with_reducible apply KeepsOut.ite | intro _
    | with_reducible apply KeepsO.getD | with_reducible apply Keeps.ite
    | (with_reducible apply Keeps.forEach; rotate_left; intro s a) | simp only [Keeps.mk_iff] | split
    | (dsimp +zetaDelta only))

theorem execStartAdmitted_keeps (p : Fin 256) (e : Fin 4096) (s : State) : KeepsOut s (execStartAdmitted p e s) := by
  have hk := Keeps.refl s
  unfold execStartAdmitted
  repeat' (first
    | extract_lets | with_reducible assumption | with_reducible apply Keeps.refl | with_reducible apply True.intro
    | with_reducible apply State.modCtx_keeps | with_reducible apply State.setCtxSt_keeps
    | with_reducible apply State.createThreads_keeps | with_reducible apply KeepsOut.mk
    | with_reducible apply KeepsOut.mkFault | with_reducible apply KeepsOut.mkRefused
    | with_reducible apply KeepsOut.ite | intro _ | with_reducible apply KeepsO.getD
    | with_reducible apply Keeps.ite | (with_reducible apply Keeps.forEach; rotate_left; intro s a)
    | simp only [Keeps.mk_iff] | split | (dsimp +zetaDelta only))

theorem State.runEnd_keeps {z0 : State} (s : State) (p e c op : Nat) (seq : Option Nat) (hk : Keeps z0 s) :
    Keeps z0 (State.runEnd s p e c op seq) := by
  unfold State.runEnd
  repeat' (first
    | extract_lets | with_reducible assumption | with_reducible apply Keeps.refl | with_reducible apply True.intro
    | with_reducible apply State.drainCtx_keeps | with_reducible apply State.modCtx_keeps
    | with_reducible apply State.finishCmd_keeps | with_reducible apply State.endContext_keeps
    | with_reducible refine State.endContext_keeps_eq (w := by assumption) (hk := ?_) ..
    | with_reducible apply KeepsO.getD | with_reducible apply Keeps.ite
    | (with_reducible apply Keeps.forEach; rotate_left; intro s a) | simp only [Keeps.mk_iff] | split
    | (dsimp +zetaDelta only))

theorem execReset_keeps (p : Fin 256) (e : Fin 4096) (s : State) : KeepsOut s (execReset p e s) := by
  have hk := Keeps.refl s
  unfold execReset
  repeat' (first
    | extract_lets | with_reducible assumption | with_reducible apply Keeps.refl | with_reducible apply True.intro
    | with_reducible apply State.portalRun_keeps | intro _ | with_reducible apply State.runEnd_keeps
    | with_reducible apply KeepsOut.mk | with_reducible apply KeepsOut.mkFault
    | with_reducible apply KeepsOut.mkRefused | with_reducible apply KeepsOut.ite | intro _
    | with_reducible apply KeepsO.getD | with_reducible apply Keeps.ite
    | (with_reducible apply Keeps.forEach; rotate_left; intro s a) | simp only [Keeps.mk_iff] | split
    | (dsimp +zetaDelta only))

theorem execRelease_keeps (p : Fin 256) (e : Fin 4096) (s : State) : KeepsOut s (execRelease p e s) := by
  have hk := Keeps.refl s
  unfold execRelease
  repeat' (first
    | extract_lets | with_reducible assumption | with_reducible apply Keeps.refl | with_reducible apply True.intro
    | with_reducible apply State.portalRun_keeps | intro _ | with_reducible apply State.runEnd_keeps
    | with_reducible apply KeepsOut.mk | with_reducible apply KeepsOut.mkFault
    | with_reducible apply KeepsOut.mkRefused | with_reducible apply KeepsOut.ite | intro _
    | with_reducible apply KeepsO.getD | with_reducible apply Keeps.ite
    | (with_reducible apply Keeps.forEach; rotate_left; intro s a) | simp only [Keeps.mk_iff] | split
    | (dsimp +zetaDelta only))

theorem execClearwarn_keeps (p : Fin 256) (e : Fin 4096) (s : State) : KeepsOut s (execClearwarn p e s) := by
  have hk := Keeps.refl s
  unfold execClearwarn
  repeat' (first
    | extract_lets | with_reducible assumption | with_reducible apply Keeps.refl | with_reducible apply True.intro
    | with_reducible apply State.portalRun_keeps | intro _ | with_reducible apply State.modCtx_keeps
    | with_reducible apply State.finishCmd_keeps | with_reducible apply KeepsOut.mk
    | with_reducible apply KeepsOut.mkFault | with_reducible apply KeepsOut.mkRefused
    | with_reducible apply KeepsOut.ite | intro _ | with_reducible apply KeepsO.getD
    | with_reducible apply Keeps.ite | (with_reducible apply Keeps.forEach; rotate_left; intro s a)
    | simp only [Keeps.mk_iff] | split | (dsimp +zetaDelta only))

theorem State.abandonBinds_keeps {z0 : State} (s : State) (hk : Keeps z0 s) :
    Keeps z0 (State.abandonBinds s) := by
  unfold State.abandonBinds
  repeat' (first
    | extract_lets | with_reducible assumption | with_reducible apply Keeps.refl | with_reducible apply True.intro
    | with_reducible apply State.finishCmd_keeps | with_reducible apply KeepsO.getD | with_reducible apply Keeps.ite
    | (with_reducible apply Keeps.forEach; rotate_left; intro s a) | simp only [Keeps.mk_iff] | split
    | (dsimp +zetaDelta only))

theorem execHeartSample_keeps (p : Fin 256) (e : Fin 4096) (s : State) : KeepsOut s (execHeartSample p e s) := by
  unfold execHeartSample
  split
  · exact Keeps.refl s
  · extract_lets k es h
    split
    · exact State.setEntry_keeps _ _ _ (Keeps.refl s)
    · split
      · exact Keeps.refl s
      · exact State.setEntry_keeps _ _ _ (Keeps.refl s)

theorem execLeaseExpiry_keeps (p : Fin 256) (e : Fin 4096) (s : State) : KeepsOut s (execLeaseExpiry p e s) := by
  have hk := Keeps.refl s
  unfold execLeaseExpiry
  repeat' (first
    | extract_lets | with_reducible assumption | with_reducible apply Keeps.refl | with_reducible apply True.intro
    | with_reducible apply State.bump_keeps | with_reducible apply State.setEntry_keeps
    | with_reducible apply State.runEnd_keeps | with_reducible apply KeepsOut.mk
    | with_reducible apply KeepsOut.mkFault | with_reducible apply KeepsOut.mkRefused
    | with_reducible apply KeepsOut.ite | intro _ | with_reducible apply KeepsO.getD
    | with_reducible apply Keeps.ite | (with_reducible apply Keeps.forEach; rotate_left; intro s a)
    | simp only [Keeps.mk_iff] | split | (dsimp +zetaDelta only))

end Sys2Proof.Machine
end

