-- ==== Sys2Proof/Laws/KeepLattices.lean ====
section
/-! SUPPORT. What the definitions of Machine/Lattices.lean keep (Keeps, Laws/Keep.lean). -/

set_option linter.all false

namespace Sys2Proof.Machine

theorem State.startOutage_keeps {z0 : State} (s : State) (l : Nat) (hk : Keeps z0 s) :
    Keeps z0 (State.startOutage s l) := by
  unfold State.startOutage
  repeat' (first
    | extract_lets | with_reducible assumption | with_reducible apply Keeps.refl | with_reducible apply True.intro
    | with_reducible apply State.modLat_keeps | with_reducible apply KeepsO.getD | with_reducible apply Keeps.ite
    | (with_reducible apply Keeps.forEach; rotate_left; intro s a) | simp only [Keeps.mk_iff] | split
    | (dsimp +zetaDelta only))

theorem State.endOutage_keeps {z0 : State} (s : State) (l : Nat) (hk : Keeps z0 s) :
    Keeps z0 (State.endOutage s l) := by
  unfold State.endOutage
  repeat' (first
    | extract_lets | with_reducible assumption | with_reducible apply Keeps.refl | with_reducible apply True.intro
    | with_reducible apply State.modLat_keeps | with_reducible apply State.outage_keeps
    | with_reducible apply KeepsO.getD | with_reducible apply Keeps.ite
    | (with_reducible apply Keeps.forEach; rotate_left; intro s a) | simp only [Keeps.mk_iff] | split
    | (dsimp +zetaDelta only))

theorem State.setCombSt_keeps {z0 : State} (s : State) (h : Nat) (st : CombState) (hk : Keeps z0 s) :
    Keeps z0 (State.setCombSt s h st) := by
  unfold State.setCombSt
  repeat' (first
    | extract_lets | with_reducible assumption | with_reducible apply Keeps.refl | with_reducible apply True.intro
    | with_reducible apply State.modComb_keeps | with_reducible apply State.sensorChange_keeps
    | with_reducible apply State.combPortsDark_keeps | with_reducible apply KeepsO.getD
    | with_reducible apply Keeps.ite | (with_reducible apply Keeps.forEach; rotate_left; intro s a)
    | simp only [Keeps.mk_iff] | split | (dsimp +zetaDelta only))

theorem State.setBias_keeps {z0 : State} (s : State) (h v : Nat) (hk : Keeps z0 s) :
    Keeps z0 (State.setBias s h v) := by
  unfold State.setBias
  repeat' (first
    | extract_lets | with_reducible assumption | with_reducible apply Keeps.refl | with_reducible apply True.intro
    | with_reducible apply State.modComb_keeps | with_reducible apply State.event_keeps
    | with_reducible apply State.setAlert_keeps | with_reducible apply KeepsO.getD | with_reducible apply Keeps.ite
    | (with_reducible apply Keeps.forEach; rotate_left; intro s a) | simp only [Keeps.mk_iff] | split
    | (dsimp +zetaDelta only))

theorem State.startComb_keeps {z0 : State} (s : State) (h : Nat) (hk : Keeps z0 s) :
    Keeps z0 (State.startComb s h) := by
  unfold State.startComb
  repeat' (first
    | extract_lets | with_reducible assumption | with_reducible apply Keeps.refl | with_reducible apply True.intro
    | with_reducible apply State.setCombSt_keeps | with_reducible apply State.bump_keeps
    | with_reducible apply State.setBias_keeps | with_reducible apply KeepsO.getD | with_reducible apply Keeps.ite
    | (with_reducible apply Keeps.forEach; rotate_left; intro s a) | simp only [Keeps.mk_iff] | split
    | (dsimp +zetaDelta only))

theorem State.combOff_keeps {z0 : State} (s : State) (h : Nat) (hk : Keeps z0 s) :
    Keeps z0 (State.combOff s h) := by
  unfold State.combOff
  repeat' (first
    | extract_lets | with_reducible assumption | with_reducible apply Keeps.refl | with_reducible apply True.intro
    | with_reducible apply State.setCombSt_keeps | with_reducible apply State.modComb_keeps
    | with_reducible apply State.setBias_keeps | with_reducible apply KeepsO.getD | with_reducible apply Keeps.ite
    | (with_reducible apply Keeps.forEach; rotate_left; intro s a) | simp only [Keeps.mk_iff] | split
    | (dsimp +zetaDelta only))

theorem State.rampDown_keeps {z0 : State} (s : State) (h : Nat) (hk : Keeps z0 s) :
    Keeps z0 (State.rampDown s h) := by
  unfold State.rampDown
  repeat' (first
    | extract_lets | with_reducible assumption | with_reducible apply Keeps.refl | with_reducible apply True.intro
    | with_reducible apply State.setCombSt_keeps | with_reducible apply KeepsO.getD | with_reducible apply Keeps.ite
    | (with_reducible apply Keeps.forEach; rotate_left; intro s a) | simp only [Keeps.mk_iff] | split
    | (dsimp +zetaDelta only))

theorem State.setStale_keeps {z0 : State} (s : State) (l : Nat) (v : Bool) (hk : Keeps z0 s) :
    Keeps z0 (State.setStale s l v) := by
  unfold State.setStale
  repeat' (first
    | extract_lets | with_reducible assumption | with_reducible apply Keeps.refl | with_reducible apply True.intro
    | with_reducible apply State.setFld_keeps | with_reducible apply State.markChg_keeps
    | with_reducible apply State.setAlert_keeps | with_reducible apply KeepsO.getD | with_reducible apply Keeps.ite
    | (with_reducible apply Keeps.forEach; rotate_left; intro s a) | simp only [Keeps.mk_iff] | split
    | (dsimp +zetaDelta only))

theorem State.measureGains_keeps {z0 : State} (s : State) (l : Nat) (hk : Keeps z0 s) :
    Keeps z0 (State.measureGains s l) := by
  unfold State.measureGains
  repeat' (first
    | extract_lets | with_reducible assumption | with_reducible apply Keeps.refl | with_reducible apply True.intro
    | with_reducible apply State.drawn_keeps | with_reducible apply KeepsO.getD | with_reducible apply Keeps.ite
    | (with_reducible apply Keeps.forEach; rotate_left; intro s a) | simp only [Keeps.mk_iff] | split
    | (dsimp +zetaDelta only))

theorem State.startEpisode_keeps {z0 : State} (s : State) (l cause : Nat) (hk : Keeps z0 s) :
    Keeps z0 (State.startEpisode s l cause) := by
  unfold State.startEpisode
  repeat' (first
    | extract_lets | with_reducible assumption | with_reducible apply Keeps.refl | with_reducible apply True.intro
    | with_reducible apply State.modLat_keeps | with_reducible apply State.measureGains_keeps
    | with_reducible apply State.bump_keeps | with_reducible apply State.setFld_keeps
    | with_reducible apply KeepsO.getD | with_reducible apply Keeps.ite
    | (with_reducible apply Keeps.forEach; rotate_left; intro s a) | simp only [Keeps.mk_iff] | split
    | (dsimp +zetaDelta only))

theorem State.dropEpisode_keeps {z0 : State} (s : State) (l : Nat) (hk : Keeps z0 s) :
    Keeps z0 (State.dropEpisode s l) := by
  unfold State.dropEpisode
  repeat' (first
    | extract_lets | with_reducible assumption | with_reducible apply Keeps.refl | with_reducible apply True.intro
    | with_reducible apply State.modLat_keeps | with_reducible apply State.setStale_keeps
    | with_reducible apply KeepsO.getD | with_reducible apply Keeps.ite
    | (with_reducible apply Keeps.forEach; rotate_left; intro s a) | simp only [Keeps.mk_iff] | split
    | (dsimp +zetaDelta only))

theorem State.setStage_keeps {z0 : State} (s : State) (v : Nat) (hk : Keeps z0 s) :
    Keeps z0 (State.setStage s v) := by
  unfold State.setStage
  repeat' (first
    | extract_lets | with_reducible assumption | with_reducible apply Keeps.refl | with_reducible apply True.intro
    | with_reducible apply State.markChg_keeps | with_reducible apply State.sensorChange_keeps
    | with_reducible apply KeepsO.getD | with_reducible apply Keeps.ite
    | (with_reducible apply Keeps.forEach; rotate_left; intro s a) | simp only [Keeps.mk_iff] | split
    | (dsimp +zetaDelta only))

theorem State.commitSvn_keeps {z : State} (s : State) (hk : Keeps z s) : Keeps z s.commitSvn := by
  unfold State.commitSvn
  split
  · exact hk
  · split
    · next h =>
      simp only [Bool.and_eq_true, decide_eq_true_eq] at h
      exact State.journal_keeps _ _ _ (Keeps.setSec _ (Nat.le_refl _) (Nat.le_of_lt h.2) hk)
    · exact hk

theorem State.coldDone_keeps {z0 : State} (s : State) (hk : Keeps z0 s) :
    Keeps z0 (State.coldDone s) := by
  unfold State.coldDone
  repeat' (first
    | extract_lets | with_reducible assumption | with_reducible apply Keeps.refl | with_reducible apply True.intro
    | with_reducible apply State.halted_keeps | with_reducible apply State.outage_keeps
    | with_reducible apply KeepsO.getD | with_reducible apply Keeps.ite
    | (with_reducible apply Keeps.forEach; rotate_left; intro s a) | simp only [Keeps.mk_iff] | split
    | (dsimp +zetaDelta only))

theorem State.warmDone_keeps {z0 : State} (s : State) (hk : Keeps z0 s) :
    Keeps z0 (State.warmDone s) := by
  unfold State.warmDone
  repeat' (first
    | extract_lets | with_reducible assumption | with_reducible apply Keeps.refl | with_reducible apply True.intro
    | with_reducible apply State.markChg_keeps | with_reducible apply State.event_keeps
    | with_reducible apply State.outage_keeps | with_reducible apply State.startOutage_keeps
    | with_reducible apply KeepsO.getD | with_reducible apply Keeps.ite
    | (with_reducible apply Keeps.forEach; rotate_left; intro s a) | simp only [Keeps.mk_iff] | split
    | (dsimp +zetaDelta only))

theorem State.finishStart_keeps {z0 : State} (s : State) (hk : Keeps z0 s) :
    Keeps z0 (State.finishStart s) := by
  unfold State.finishStart
  repeat' (first
    | extract_lets | with_reducible assumption | with_reducible apply Keeps.refl | with_reducible apply True.intro
    | with_reducible apply State.setStage_keeps | with_reducible apply State.commitSvn_keeps
    | with_reducible apply State.warmDone_keeps | with_reducible apply State.coldDone_keeps
    | with_reducible apply KeepsO.getD | with_reducible apply Keeps.ite
    | (with_reducible apply Keeps.forEach; rotate_left; intro s a) | simp only [Keeps.mk_iff] | split
    | (dsimp +zetaDelta only))

theorem State.enterLat_keeps {z0 : State} (s : State) (l : Nat) (st : LatState) (phase cause : Nat) (hk : Keeps z0 s) :
    Keeps z0 (State.enterLat s l st phase cause) := by
  unfold State.enterLat
  repeat' (first
    | extract_lets | with_reducible assumption | with_reducible apply Keeps.refl | with_reducible apply True.intro
    | with_reducible apply State.setLat_keeps | with_reducible apply State.setFld_keeps
    | with_reducible apply State.sensorChange_keeps | with_reducible apply State.markChg_keeps
    | with_reducible apply State.setAlert_keeps | with_reducible apply State.dropEpisode_keeps
    | with_reducible apply State.endOutage_keeps | with_reducible apply State.finishStart_keeps
    | with_reducible apply KeepsO.getD | with_reducible apply Keeps.ite
    | (with_reducible apply Keeps.forEach; rotate_left; intro s a) | simp only [Keeps.mk_iff] | split
    | (dsimp +zetaDelta only))

theorem State.returnChunk_keeps {z0 : State} (s : State) (k : Chunk) (hk : Keeps z0 s) :
    Keeps z0 (State.returnChunk s k) := by
  unfold State.returnChunk
  repeat' (first
    | extract_lets | with_reducible assumption | with_reducible apply Keeps.refl | with_reducible apply True.intro
    | with_reducible apply State.modStep_keeps | with_reducible apply KeepsO.getD | with_reducible apply Keeps.ite
    | (with_reducible apply Keeps.forEach; rotate_left; intro s a) | simp only [Keeps.mk_iff] | split
    | (dsimp +zetaDelta only))

theorem State.unpin_keeps {z0 : State} (s : State) (l : Nat) (hk : Keeps z0 s) :
    Keeps z0 (State.unpin s l) := by
  unfold State.unpin
  repeat' (first
    | extract_lets | with_reducible assumption | with_reducible apply Keeps.refl | with_reducible apply True.intro
    | with_reducible apply KeepsO.getD | with_reducible apply Keeps.ite
    | (with_reducible apply Keeps.forEach; rotate_left; intro s a) | simp only [Keeps.mk_iff] | split
    | (dsimp +zetaDelta only))

theorem State.returnPieces_keeps {z0 : State} (s : State) (l : Nat) (shadow : Bool) (hk : Keeps z0 s) :
    Keeps z0 (State.returnPieces s l shadow) := by
  unfold State.returnPieces
  repeat' (first
    | extract_lets | with_reducible assumption | with_reducible apply Keeps.refl | with_reducible apply True.intro
    | with_reducible apply State.setLat_keeps | with_reducible apply State.returnChunk_keeps
    | with_reducible apply State.unpin_keeps | with_reducible apply KeepsO.getD | with_reducible apply Keeps.ite
    | (with_reducible apply Keeps.forEach; rotate_left; intro s a) | simp only [Keeps.mk_iff] | split
    | (dsimp +zetaDelta only))

theorem State.clearRings_keeps {z0 : State} (s : State) (l : Nat) (hk : Keeps z0 s) :
    Keeps z0 (State.clearRings s l) := by
  unfold State.clearRings
  repeat' (first
    | extract_lets | with_reducible assumption | with_reducible apply Keeps.refl | with_reducible apply True.intro
    | with_reducible apply KeepsO.getD | with_reducible apply Keeps.ite
    | (with_reducible apply Keeps.forEach; rotate_left; intro s a) | simp only [Keeps.mk_iff] | split
    | (dsimp +zetaDelta only))

theorem State.zeroHeaters_keeps {z0 : State} (s : State) (l : Nat) (now : Bool) (hk : Keeps z0 s) :
    Keeps z0 (State.zeroHeaters s l now) := by
  unfold State.zeroHeaters
  repeat' (first
    | extract_lets | with_reducible assumption | with_reducible apply Keeps.refl | with_reducible apply True.intro
    | with_reducible apply KeepsO.getD | with_reducible apply Keeps.ite
    | (with_reducible apply Keeps.forEach; rotate_left; intro s a) | simp only [Keeps.mk_iff] | split
    | (dsimp +zetaDelta only))

theorem State.lightUp_keeps {z0 : State} (s : State) (l cause : Nat) (hk : Keeps z0 s) :
    Keeps z0 (State.lightUp s l cause) := by
  unfold State.lightUp
  repeat' (first
    | extract_lets | with_reducible assumption | with_reducible apply Keeps.refl | with_reducible apply True.intro
    | with_reducible apply State.enterLat_keeps | with_reducible apply State.startComb_keeps
    | with_reducible apply KeepsO.getD | with_reducible apply Keeps.ite
    | (with_reducible apply Keeps.forEach; rotate_left; intro s a) | simp only [Keeps.mk_iff] | split
    | (dsimp +zetaDelta only))

theorem State.darken_keeps {z0 : State} (s : State) (l : Nat) (hk : Keeps z0 s) :
    Keeps z0 (State.darken s l) := by
  unfold State.darken
  repeat' (first
    | extract_lets | with_reducible assumption | with_reducible apply Keeps.refl | with_reducible apply True.intro
    | with_reducible apply State.modLat_keeps | with_reducible apply State.zeroHeaters_keeps
    | with_reducible apply State.rampDown_keeps | with_reducible apply KeepsO.getD | with_reducible apply Keeps.ite
    | (with_reducible apply Keeps.forEach; rotate_left; intro s a) | simp only [Keeps.mk_iff] | split
    | (dsimp +zetaDelta only))

theorem State.drainLat_keeps {z0 : State} (s : State) (l cause : Nat) (toLocked : Bool) (hk : Keeps z0 s) :
    Keeps z0 (State.drainLat s l cause toLocked) := by
  unfold State.drainLat
  repeat' (first
    | extract_lets | with_reducible assumption | with_reducible apply Keeps.refl | with_reducible apply True.intro
    | with_reducible apply State.returnPieces_keeps | with_reducible apply State.modLat_keeps
    | with_reducible apply State.enterLat_keeps | with_reducible apply KeepsO.getD | with_reducible apply Keeps.ite
    | (with_reducible apply Keeps.forEach; rotate_left; intro s a) | simp only [Keeps.mk_iff] | split
    | (dsimp +zetaDelta only))

theorem State.abandonSearch_keeps {z0 : State} (s : State) (l cause : Nat) (hk : Keeps z0 s) :
    Keeps z0 (State.abandonSearch s l cause) := by
  unfold State.abandonSearch
  repeat' (first
    | extract_lets | with_reducible assumption | with_reducible apply Keeps.refl | with_reducible apply True.intro
    | with_reducible apply State.modLat_keeps | with_reducible apply State.enterLat_keeps
    | with_reducible apply State.zeroHeaters_keeps | with_reducible apply State.rampDown_keeps
    | with_reducible apply KeepsO.getD | with_reducible apply Keeps.ite
    | (with_reducible apply Keeps.forEach; rotate_left; intro s a) | simp only [Keeps.mk_iff] | split
    | (dsimp +zetaDelta only))

theorem State.chooseSpans_keeps {z0 : State} (s : State) (l : Nat) (hk : Keeps z0 s) :
    Keeps z0 (State.chooseSpans s l) := by
  unfold State.chooseSpans
  repeat' (first
    | extract_lets | with_reducible assumption | with_reducible apply Keeps.refl | with_reducible apply True.intro
    | with_reducible apply State.setCluster_keeps | with_reducible apply KeepsO.getD
    | with_reducible apply Keeps.ite | (with_reducible apply Keeps.forEach; rotate_left; intro s a)
    | simp only [Keeps.mk_iff] | split | (dsimp +zetaDelta only))

theorem State.startCheck_keeps {z0 : State} (s : State) (l : Nat) (hk : Keeps z0 s) :
    Keeps z0 (State.startCheck s l) := by
  unfold State.startCheck
  repeat' (first
    | extract_lets | with_reducible assumption | with_reducible apply Keeps.refl | with_reducible apply True.intro
    | with_reducible apply State.modLat_keeps | with_reducible apply State.chooseSpans_keeps
    | with_reducible apply State.startEpisode_keeps | with_reducible apply KeepsO.getD
    | with_reducible apply Keeps.ite | (with_reducible apply Keeps.forEach; rotate_left; intro s a)
    | simp only [Keeps.mk_iff] | split | (dsimp +zetaDelta only))

theorem State.follow_keeps {z0 : State} (s : State) (l : Nat) (hk : Keeps z0 s) :
    Keeps z0 (State.follow s l) := by
  unfold State.follow
  repeat' (first
    | extract_lets | with_reducible assumption | with_reducible apply Keeps.refl | with_reducible apply True.intro
    | with_reducible apply State.endOutage_keeps | with_reducible apply State.lightUp_keeps
    | with_reducible apply State.abandonSearch_keeps | with_reducible apply State.drainLat_keeps
    | with_reducible apply State.startCheck_keeps | with_reducible apply KeepsO.getD
    | with_reducible apply Keeps.ite | (with_reducible apply Keeps.forEach; rotate_left; intro s a)
    | simp only [Keeps.mk_iff] | split | (dsimp +zetaDelta only))

theorem State.retarget_keeps {z0 : State} (s : State) (l cause : Nat) (hk : Keeps z0 s) :
    Keeps z0 (State.retarget s l cause) := by
  unfold State.retarget
  repeat' (first
    | extract_lets | with_reducible assumption | with_reducible apply Keeps.refl | with_reducible apply True.intro
    | with_reducible apply State.modLat_keeps | with_reducible apply State.follow_keeps
    | with_reducible apply KeepsO.getD | with_reducible apply Keeps.ite
    | (with_reducible apply Keeps.forEach; rotate_left; intro s a) | simp only [Keeps.mk_iff] | split
    | (dsimp +zetaDelta only))

theorem State.fenceLattice_keeps {z0 : State} (s : State) (l cause : Nat) (hk : Keeps z0 s) :
    Keeps z0 (State.fenceLattice s l cause) := by
  unfold State.fenceLattice
  repeat' (first
    | extract_lets | with_reducible assumption | with_reducible apply Keeps.refl | with_reducible apply True.intro
    | with_reducible apply State.event_keeps | with_reducible apply State.journal_keeps
    | with_reducible apply State.enterLat_keeps | with_reducible apply State.modLat_keeps
    | with_reducible apply State.abandonSearch_keeps | with_reducible apply State.drainLat_keeps
    | with_reducible apply KeepsO.getD | with_reducible apply Keeps.ite
    | (with_reducible apply Keeps.forEach; rotate_left; intro s a) | simp only [Keeps.mk_iff] | split
    | (dsimp +zetaDelta only))

theorem State.traceHit_keeps {z : State} (s : State) (b k : Nat) (p : Nat → Bool) (hk : Keeps z s) :
    Keeps z (s.traceHit b k p) := by
  unfold State.traceHit
  repeat' (first
    | extract_lets | with_reducible assumption | with_reducible apply Keeps.refl | with_reducible apply True.intro
    | with_reducible apply State.setTrace_keeps | with_reducible apply KeepsO.getD | with_reducible apply Keeps.ite
    | (with_reducible apply Keeps.forEach; rotate_left; intro s a) | simp only [Keeps.mk_iff] | split
    | (dsimp +zetaDelta only))

theorem State.lookback_keeps {z0 : State} (s : State) (l t0 : Nat) (hk : Keeps z0 s) :
    Keeps z0 (State.lookback s l t0) := by
  unfold State.lookback
  repeat' (first
    | extract_lets | with_reducible assumption | with_reducible apply Keeps.refl | with_reducible apply True.intro
    | with_reducible apply State.bump_keeps | with_reducible apply State.rewindThread_keeps
    | with_reducible apply State.modLat_keeps | with_reducible apply State.event_keeps
    | with_reducible apply State.setWarn_keeps | with_reducible apply KeepsO.getD | with_reducible apply Keeps.ite
    | (with_reducible apply Keeps.forEach; rotate_left; intro s a)
    | ((with_reducible apply Keeps.foldl) <;> [(intro r a); skip]) | simp only [Keeps.mk_iff] | split
    | (dsimp +zetaDelta only))

theorem State.startSelfTest_keeps {z0 : State} (s : State) (l chain : Nat) (hk : Keeps z0 s) :
    Keeps z0 (State.startSelfTest s l chain) := by
  unfold State.startSelfTest
  repeat' (first
    | extract_lets | with_reducible assumption | with_reducible apply Keeps.refl | with_reducible apply True.intro
    | with_reducible apply State.modLat_keeps | with_reducible apply KeepsO.getD | with_reducible apply Keeps.ite
    | (with_reducible apply Keeps.forEach; rotate_left; intro s a) | simp only [Keeps.mk_iff] | split
    | (dsimp +zetaDelta only))

theorem State.startSelfTests_keeps {z0 : State} (s : State) (l : Nat) (hk : Keeps z0 s) :
    Keeps z0 (State.startSelfTests s l) := by
  unfold State.startSelfTests
  repeat' (first
    | extract_lets | with_reducible assumption | with_reducible apply Keeps.refl | with_reducible apply True.intro
    | with_reducible apply State.startSelfTest_keeps | with_reducible apply KeepsO.getD
    | with_reducible apply Keeps.ite | (with_reducible apply Keeps.forEach; rotate_left; intro s a)
    | simp only [Keeps.mk_iff] | split | (dsimp +zetaDelta only))

theorem State.raiseCause_keeps {z0 : State} (s : State) (l : Nat) (c : Cause) (t0 : Nat) (hk : Keeps z0 s) :
    Keeps z0 (State.raiseCause s l c t0) := by
  unfold State.raiseCause
  repeat' (first
    | extract_lets | with_reducible assumption | with_reducible apply Keeps.refl | with_reducible apply True.intro
    | with_reducible apply State.modLat_keeps | with_reducible apply State.returnPieces_keeps
    | with_reducible apply State.enterLat_keeps | with_reducible apply State.startOutage_keeps
    | with_reducible apply State.bump_keeps | with_reducible apply State.lookback_keeps
    | with_reducible apply State.traceHit_keeps | with_reducible apply State.fenceLattice_keeps
    | with_reducible apply KeepsO.getD | with_reducible apply Keeps.ite
    | (with_reducible apply Keeps.forEach; rotate_left; intro s a) | simp only [Keeps.mk_iff] | split
    | (dsimp +zetaDelta only))

theorem State.raiseReadout_keeps {z0 : State} (s : State) (l : Nat) (chains : List Nat) (t0 : Nat) (hk : Keeps z0 s) :
    Keeps z0 (State.raiseReadout s l chains t0) := by
  unfold State.raiseReadout
  repeat' (first
    | extract_lets | with_reducible assumption | with_reducible apply Keeps.refl | with_reducible apply True.intro
    | with_reducible apply State.raiseCause_keeps | with_reducible apply State.startSelfTest_keeps
    | with_reducible apply KeepsO.getD | with_reducible apply Keeps.ite
    | (with_reducible apply Keeps.forEach; rotate_left; intro s a) | simp only [Keeps.mk_iff] | split
    | (dsimp +zetaDelta only))

theorem State.clearCause_keeps {z0 : State} (s : State) (l : Nat) (c : Cause) (hk : Keeps z0 s) :
    Keeps z0 (State.clearCause s l c) := by
  unfold State.clearCause
  repeat' (first
    | extract_lets | with_reducible assumption | with_reducible apply Keeps.refl | with_reducible apply True.intro
    | with_reducible apply State.setLat_keeps | with_reducible apply State.startEpisode_keeps
    | with_reducible apply KeepsO.getD | with_reducible apply Keeps.ite
    | (with_reducible apply Keeps.forEach; rotate_left; intro s a) | simp only [Keeps.mk_iff] | split
    | (dsimp +zetaDelta only))

theorem State.writeEn_keeps {z0 : State} (s : State) (l v : Nat) (hk : Keeps z0 s) :
    Keeps z0 (State.writeEn s l v) := by
  unfold State.writeEn
  repeat' (first
    | extract_lets | with_reducible assumption | with_reducible apply Keeps.refl | with_reducible apply True.intro
    | with_reducible apply State.setFld_keeps | with_reducible apply State.retarget_keeps
    | with_reducible apply KeepsO.getD | with_reducible apply Keeps.ite
    | (with_reducible apply Keeps.forEach; rotate_left; intro s a) | simp only [Keeps.mk_iff] | split
    | (dsimp +zetaDelta only))

theorem execLatCtrlWrite_keeps (p : Path) (l : Fin 8) (v : Word) (s : State) : KeepsOut s (execLatCtrlWrite p l v s) := by
  have hk := Keeps.refl s
  unfold execLatCtrlWrite
  repeat' (first
    | extract_lets | with_reducible assumption | with_reducible apply Keeps.refl | with_reducible apply True.intro
    | with_reducible apply State.refuse_keeps | with_reducible apply State.writeEn_keeps
    | with_reducible apply KeepsOut.mk | with_reducible apply KeepsOut.mkFault
    | with_reducible apply KeepsOut.mkRefused | with_reducible apply KeepsOut.ite | intro _
    | with_reducible apply KeepsO.getD | with_reducible apply Keeps.ite
    | (with_reducible apply Keeps.forEach; rotate_left; intro s a) | simp only [Keeps.mk_iff] | split
    | (dsimp +zetaDelta only))

theorem execLatFenceReq_keeps (p : Path) (l : Fin 8) (s : State) : KeepsOut s (execLatFenceReq p l s) := by
  have hk := Keeps.refl s
  unfold execLatFenceReq
  repeat' (first
    | extract_lets | with_reducible assumption | with_reducible apply Keeps.refl | with_reducible apply True.intro
    | with_reducible apply State.refuse_keeps | with_reducible apply State.fenceLattice_keeps
    | with_reducible apply KeepsOut.mk | with_reducible apply KeepsOut.mkFault
    | with_reducible apply KeepsOut.mkRefused | with_reducible apply KeepsOut.ite | intro _
    | with_reducible apply KeepsO.getD | with_reducible apply Keeps.ite
    | (with_reducible apply Keeps.forEach; rotate_left; intro s a) | simp only [Keeps.mk_iff] | split
    | (dsimp +zetaDelta only))

theorem State.serve_keeps {z0 : State} (s : State) (l cause : Nat) (hk : Keeps z0 s) :
    Keeps z0 (State.serve s l cause) := by
  unfold State.serve
  repeat' (first
    | extract_lets | with_reducible assumption | with_reducible apply Keeps.refl | with_reducible apply True.intro
    | with_reducible apply State.enterLat_keeps | with_reducible apply State.modLat_keeps
    | with_reducible apply KeepsO.getD | with_reducible apply Keeps.ite
    | (with_reducible apply Keeps.forEach; rotate_left; intro s a) | simp only [Keeps.mk_iff] | split
    | (dsimp +zetaDelta only))

theorem execSuspectTimeout_keeps (l : Fin 8) (s : State) : KeepsOut s (execSuspectTimeout l s) := by
  have hk := Keeps.refl s
  unfold execSuspectTimeout
  repeat' (first
    | extract_lets | with_reducible assumption | with_reducible apply Keeps.refl | with_reducible apply True.intro
    | with_reducible apply State.fenceLattice_keeps | with_reducible apply KeepsOut.mk
    | with_reducible apply KeepsOut.mkFault | with_reducible apply KeepsOut.mkRefused
    | with_reducible apply KeepsOut.ite | intro _ | with_reducible apply KeepsO.getD
    | with_reducible apply Keeps.ite | (with_reducible apply Keeps.forEach; rotate_left; intro s a)
    | simp only [Keeps.mk_iff] | split | (dsimp +zetaDelta only))

theorem execLinePowerRecoveryTimeout_keeps (l : Fin 8) (s : State) : KeepsOut s (execLinePowerRecoveryTimeout l s) := by
  have hk := Keeps.refl s
  unfold execLinePowerRecoveryTimeout
  repeat' (first
    | extract_lets | with_reducible assumption | with_reducible apply Keeps.refl | with_reducible apply True.intro
    | with_reducible apply State.fenceLattice_keeps | with_reducible apply KeepsOut.mk
    | with_reducible apply KeepsOut.mkFault | with_reducible apply KeepsOut.mkRefused
    | with_reducible apply KeepsOut.ite | intro _ | with_reducible apply KeepsO.getD
    | with_reducible apply Keeps.ite | (with_reducible apply Keeps.forEach; rotate_left; intro s a)
    | simp only [Keeps.mk_iff] | split | (dsimp +zetaDelta only))

theorem execReadoutSelfTestEnd_keeps (l : Fin 8) (chain : Fin 513) (pass : Bool) (s : State) : KeepsOut s (execReadoutSelfTestEnd l chain pass s) := by
  have hk := Keeps.refl s
  unfold execReadoutSelfTestEnd
  repeat' (first
    | extract_lets | with_reducible assumption | with_reducible apply Keeps.refl | with_reducible apply True.intro
    | with_reducible apply State.setLat_keeps | with_reducible apply State.clearCause_keeps
    | with_reducible apply State.fenceLattice_keeps | with_reducible apply KeepsOut.mk
    | with_reducible apply KeepsOut.mkFault | with_reducible apply KeepsOut.mkRefused
    | with_reducible apply KeepsOut.ite | intro _ | with_reducible apply KeepsO.getD
    | with_reducible apply Keeps.ite | (with_reducible apply Keeps.forEach; rotate_left; intro s a)
    | simp only [Keeps.mk_iff] | split | (dsimp +zetaDelta only))

theorem execReadoutRetestTimer_keeps (l : Fin 8) (chain : Fin 513) (s : State) : KeepsOut s (execReadoutRetestTimer l chain s) := by
  have hk := Keeps.refl s
  unfold execReadoutRetestTimer
  repeat' (first
    | extract_lets | with_reducible assumption | with_reducible apply Keeps.refl | with_reducible apply True.intro
    | with_reducible apply State.startSelfTest_keeps | with_reducible apply KeepsOut.mk
    | with_reducible apply KeepsOut.mkFault | with_reducible apply KeepsOut.mkRefused
    | with_reducible apply KeepsOut.ite | intro _ | with_reducible apply KeepsO.getD
    | with_reducible apply Keeps.ite | (with_reducible apply Keeps.forEach; rotate_left; intro s a)
    | simp only [Keeps.mk_iff] | split | (dsimp +zetaDelta only))

theorem State.tryCommit_keeps {z0 : State} (s : State) (b : Nat) (hk : Keeps z0 s) :
    Keeps z0 (State.tryCommit s b) := by
  unfold State.tryCommit
  repeat' (first
    | extract_lets | with_reducible assumption | with_reducible apply Keeps.refl | with_reducible apply True.intro
    | with_reducible apply State.modBay_keeps | with_reducible apply State.retarget_keeps
    | with_reducible apply KeepsO.getD | with_reducible apply Keeps.ite
    | (with_reducible apply Keeps.forEach; rotate_left; intro s a) | simp only [Keeps.mk_iff] | split
    | (dsimp +zetaDelta only))

theorem State.tryEndUpset_keeps {z0 : State} (s : State) (b : Nat) (hk : Keeps z0 s) :
    Keeps z0 (State.tryEndUpset s b) := by
  unfold State.tryEndUpset
  repeat' (first
    | extract_lets | with_reducible assumption | with_reducible apply Keeps.refl | with_reducible apply True.intro
    | with_reducible apply State.rewindThread_keeps | with_reducible apply State.modBay_keeps
    | with_reducible apply KeepsO.getD | with_reducible apply Keeps.ite
    | (with_reducible apply Keeps.forEach; rotate_left; intro s a) | simp only [Keeps.mk_iff] | split
    | (dsimp +zetaDelta only))

theorem State.loseHold_keeps {z0 : State} (s : State) (l : Nat) (hk : Keeps z0 s) :
    Keeps z0 (State.loseHold s l) := by
  unfold State.loseHold
  repeat' (first
    | extract_lets | with_reducible assumption | with_reducible apply Keeps.refl | with_reducible apply True.intro
    | with_reducible apply State.modLat_keeps | with_reducible apply State.event_keeps
    | with_reducible apply State.bump_keeps | with_reducible apply State.rewindThread_keeps
    | with_reducible apply KeepsO.getD | with_reducible apply Keeps.ite
    | (with_reducible apply Keeps.forEach; rotate_left; intro s a) | simp only [Keeps.mk_iff] | split
    | (dsimp +zetaDelta only))

theorem State.latDrained_keeps {z0 : State} (s : State) (l : Nat) (hk : Keeps z0 s) :
    Keeps z0 (State.latDrained s l) := by
  unfold State.latDrained
  repeat' (first
    | extract_lets | with_reducible assumption | with_reducible apply Keeps.refl | with_reducible apply True.intro
    | with_reducible apply State.setFld_keeps | with_reducible apply State.raise_keeps
    | with_reducible apply State.loseHold_keeps | with_reducible apply State.enterLat_keeps
    | with_reducible apply State.follow_keeps | with_reducible apply State.tryCommit_keeps
    | with_reducible apply State.tryEndUpset_keeps | with_reducible apply State.modLat_keeps
    | with_reducible apply State.darken_keeps | with_reducible apply KeepsO.getD | with_reducible apply Keeps.ite
    | (with_reducible apply Keeps.forEach; rotate_left; intro s a) | simp only [Keeps.mk_iff] | split
    | (dsimp +zetaDelta only))

theorem execDrainComplete_keeps (d : DrainOf) (s : State) : KeepsOut s (execDrainComplete d s) := by
  have hk := Keeps.refl s
  unfold execDrainComplete
  repeat' (first
    | extract_lets | with_reducible assumption | with_reducible apply Keeps.refl | with_reducible apply True.intro
    | with_reducible apply State.latDrained_keeps | with_reducible apply State.ctxDrained_keeps
    | with_reducible apply KeepsOut.mk | with_reducible apply KeepsOut.mkFault
    | with_reducible apply KeepsOut.mkRefused | with_reducible apply KeepsOut.ite | intro _
    | with_reducible apply KeepsO.getD | with_reducible apply Keeps.ite
    | (with_reducible apply Keeps.forEach; rotate_left; intro s a) | simp only [Keeps.mk_iff] | split
    | (dsimp +zetaDelta only))

theorem execDarkeningComplete_keeps (l : Fin 8) (s : State) : KeepsOut s (execDarkeningComplete l s) := by
  have hk := Keeps.refl s
  unfold execDarkeningComplete
  repeat' (first
    | extract_lets | with_reducible assumption | with_reducible apply Keeps.refl | with_reducible apply True.intro
    | with_reducible apply State.combOff_keeps | with_reducible apply State.clearRings_keeps
    | with_reducible apply State.zeroHeaters_keeps | with_reducible apply State.modLat_keeps
    | with_reducible apply State.enterLat_keeps | with_reducible apply State.tryEndUpset_keeps
    | with_reducible apply State.follow_keeps | with_reducible apply KeepsOut.mk
    | with_reducible apply KeepsOut.mkFault | with_reducible apply KeepsOut.mkRefused
    | with_reducible apply KeepsOut.ite | intro _ | with_reducible apply KeepsO.getD
    | with_reducible apply Keeps.ite | (with_reducible apply Keeps.forEach; rotate_left; intro s a)
    | simp only [Keeps.mk_iff] | split | (dsimp +zetaDelta only))

end Sys2Proof.Machine
end

