-- ==== Sys2Proof/Laws/KeepPorts.lean ====
section
/-! SUPPORT. What the definitions of Machine/Ports.lean keep (Keeps, Laws/Keep.lean). -/

set_option linter.all false

namespace Sys2Proof.Machine

theorem State.trainPort_keeps {z0 : State} (s : State) (p : Nat) (hk : Keeps z0 s) :
    Keeps z0 (State.trainPort s p) := by
  unfold State.trainPort
  repeat' (first
    | extract_lets | with_reducible assumption | with_reducible apply Keeps.refl | with_reducible apply True.intro
    | with_reducible apply State.setPort_keeps | with_reducible apply State.markChg_keeps
    | with_reducible apply KeepsO.getD | with_reducible apply Keeps.ite
    | (with_reducible apply Keeps.forEach; rotate_left; intro s a) | simp only [Keeps.mk_iff] | split
    | (dsimp +zetaDelta only))

theorem State.trainMoved_keeps {z0 : State} (s : State) (p : Nat) (hk : Keeps z0 s) :
    Keeps z0 (State.trainMoved s p) := by
  unfold State.trainMoved
  repeat' (first
    | extract_lets | with_reducible assumption | with_reducible apply Keeps.refl | with_reducible apply True.intro
    | with_reducible apply State.trainPort_keeps | with_reducible apply State.loseRetry_keeps
    | with_reducible apply KeepsO.getD | with_reducible apply Keeps.ite
    | (with_reducible apply Keeps.forEach; rotate_left; intro s a) | simp only [Keeps.mk_iff] | split
    | (dsimp +zetaDelta only))

theorem execLightDetected_keeps (p : Fin 8) (s : State) : KeepsOut s (execLightDetected p s) := by
  have hk := Keeps.refl s
  unfold execLightDetected
  repeat' (first
    | extract_lets | with_reducible assumption | with_reducible apply Keeps.refl | with_reducible apply True.intro
    | with_reducible apply State.trainMoved_keeps | with_reducible apply State.trainPort_keeps
    | with_reducible apply KeepsOut.mk | with_reducible apply KeepsOut.mkFault
    | with_reducible apply KeepsOut.mkRefused | with_reducible apply KeepsOut.ite | intro _
    | with_reducible apply KeepsO.getD | with_reducible apply Keeps.ite
    | (with_reducible apply Keeps.forEach; rotate_left; intro s a) | simp only [Keeps.mk_iff] | split
    | (dsimp +zetaDelta only))

theorem State.useProfile_keeps {z0 : State} (s : State) (k : Nat) (hk : Keeps z0 s) :
    Keeps z0 (State.useProfile s k) := by
  unfold State.useProfile
  repeat' (first
    | extract_lets | with_reducible assumption | with_reducible apply Keeps.refl | with_reducible apply True.intro
    | with_reducible apply State.giveCredit_keeps | with_reducible apply KeepsO.getD
    | with_reducible apply Keeps.ite | (with_reducible apply Keeps.forEach; rotate_left; intro s a)
    | simp only [Keeps.mk_iff] | split | (dsimp +zetaDelta only))

theorem State.finishProfile_keeps {z0 : State} (s : State) (hk : Keeps z0 s) :
    Keeps z0 (State.finishProfile s) := by
  unfold State.finishProfile
  repeat' (first
    | extract_lets | with_reducible assumption | with_reducible apply Keeps.refl | with_reducible apply True.intro
    | with_reducible apply State.useProfile_keeps | with_reducible apply State.openMc_keeps
    | with_reducible apply State.bump_keeps
    | with_reducible refine State.openFlow_keeps_some (e := by assumption) (hk := ?_) ..
    | with_reducible apply State.openFlow_keeps_map | with_reducible apply KeepsO.getD
    | with_reducible apply Keeps.ite | (with_reducible apply Keeps.forEach; rotate_left; intro s a)
    | simp only [Keeps.mk_iff] | split | (dsimp +zetaDelta only))

theorem State.checkProfile_keeps {z0 : State} (s : State) (hk : Keeps z0 s) :
    Keeps z0 (State.checkProfile s) := by
  unfold State.checkProfile
  repeat' (first
    | extract_lets | with_reducible assumption | with_reducible apply Keeps.refl | with_reducible apply True.intro
    | with_reducible apply State.finishProfile_keeps | with_reducible apply KeepsO.getD
    | with_reducible apply Keeps.ite | (with_reducible apply Keeps.forEach; rotate_left; intro s a)
    | simp only [Keeps.mk_iff] | split | (dsimp +zetaDelta only))

theorem State.movePort_keeps {z0 : State} (s : State) (p : Nat) (hk : Keeps z0 s) :
    Keeps z0 (State.movePort s p) := by
  unfold State.movePort
  repeat' (first
    | extract_lets | with_reducible assumption | with_reducible apply Keeps.refl | with_reducible apply True.intro
    | with_reducible apply State.modPort_keeps | with_reducible apply KeepsO.getD | with_reducible apply Keeps.ite
    | (with_reducible apply Keeps.forEach; rotate_left; intro s a) | simp only [Keeps.mk_iff] | split
    | (dsimp +zetaDelta only))

theorem State.writeProfile_keeps {z0 : State} (s : State) (path : Path) (v : Nat) (hk : Keeps z0 s) :
    Keeps z0 (State.writeProfile s path v) := by
  unfold State.writeProfile
  repeat' (first
    | extract_lets | with_reducible assumption | with_reducible apply Keeps.refl | with_reducible apply True.intro
    | with_reducible apply State.refuse_keeps | with_reducible apply State.setFld_keeps
    | with_reducible apply State.movePort_keeps | with_reducible apply State.checkProfile_keeps
    | with_reducible apply KeepsO.getD | with_reducible apply Keeps.ite
    | (with_reducible apply Keeps.forEach; rotate_left; intro s a) | simp only [Keeps.mk_iff] | split
    | (dsimp +zetaDelta only))

theorem execProfileChange_keeps (path : Path) (v : BitVec 2) (s : State) : KeepsOut s (execProfileChange path v s) := by
  have hk := Keeps.refl s
  unfold execProfileChange
  repeat' (first
    | extract_lets | with_reducible assumption | with_reducible apply Keeps.refl | with_reducible apply True.intro
    | with_reducible apply State.writeProfile_keeps | with_reducible apply KeepsOut.mk
    | with_reducible apply KeepsOut.mkFault | with_reducible apply KeepsOut.mkRefused
    | with_reducible apply KeepsOut.ite | intro _ | with_reducible apply KeepsO.getD
    | with_reducible apply Keeps.ite | (with_reducible apply Keeps.forEach; rotate_left; intro s a)
    | simp only [Keeps.mk_iff] | split | (dsimp +zetaDelta only))

theorem State.restartV1_keeps {z0 : State} (s : State) (p : Nat) (hk : Keeps z0 s) :
    Keeps z0 (State.restartV1 s p) := by
  unfold State.restartV1
  repeat' (first
    | extract_lets | with_reducible assumption | with_reducible apply Keeps.refl | with_reducible apply True.intro
    | with_reducible apply State.loseSent_keeps | with_reducible apply State.loseHeld_keeps
    | with_reducible apply KeepsO.getD | with_reducible apply Keeps.ite
    | (with_reducible apply Keeps.forEach; rotate_left; intro s a) | simp only [Keeps.mk_iff] | split
    | (dsimp +zetaDelta only))

theorem State.sendHello_keeps {z0 : State} (s : State) (p : Nat) (lanes : BitVec 8) (hk : Keeps z0 s) :
    Keeps z0 (State.sendHello s p lanes) := by
  unfold State.sendHello
  repeat' (first
    | extract_lets | with_reducible assumption | with_reducible apply Keeps.refl | with_reducible apply True.intro
    | with_reducible apply State.putOnFibre_keeps | with_reducible apply KeepsO.getD
    | with_reducible apply Keeps.ite | (with_reducible apply Keeps.forEach; rotate_left; intro s a)
    | simp only [Keeps.mk_iff] | split | (dsimp +zetaDelta only))

theorem execPortTrainingDone_keeps (p : Fin 8) (lanes : BitVec 8) (peerVer : Nat) (peerDev : BitVec 15) (peerPort : Fin 8) (credits : List Nat) (s : State) : KeepsOut s (execPortTrainingDone p lanes peerVer peerDev peerPort credits s) := by
  have hk := Keeps.refl s
  unfold execPortTrainingDone
  repeat' (first
    | extract_lets | with_reducible assumption | with_reducible apply Keeps.refl | with_reducible apply True.intro
    | with_reducible apply State.sendHello_keeps | with_reducible apply State.setPort_keeps
    | with_reducible apply State.restartV1_keeps | with_reducible apply State.markChg_keeps
    | with_reducible apply State.checkProfile_keeps | with_reducible apply State.pumpPort_keeps
    | with_reducible apply State.pumpMc_keeps | with_reducible apply KeepsOut.mk
    | with_reducible apply KeepsOut.mkFault | with_reducible apply KeepsOut.mkRefused
    | with_reducible apply KeepsOut.ite | intro _ | with_reducible apply KeepsO.getD
    | with_reducible apply Keeps.ite | (with_reducible apply Keeps.forEach; rotate_left; intro s a)
    | simp only [Keeps.mk_iff] | split | (dsimp +zetaDelta only))

theorem execPortTrainingTimeout_keeps (p : Fin 8) (s : State) : KeepsOut s (execPortTrainingTimeout p s) := by
  have hk := Keeps.refl s
  unfold execPortTrainingTimeout
  repeat' (first
    | extract_lets | with_reducible assumption | with_reducible apply Keeps.refl | with_reducible apply True.intro
    | with_reducible apply State.portDown_keeps | with_reducible apply State.checkProfile_keeps
    | with_reducible apply KeepsOut.mk | with_reducible apply KeepsOut.mkFault
    | with_reducible apply KeepsOut.mkRefused | with_reducible apply KeepsOut.ite | intro _
    | with_reducible apply KeepsO.getD | with_reducible apply Keeps.ite
    | (with_reducible apply Keeps.forEach; rotate_left; intro s a) | simp only [Keeps.mk_iff] | split
    | (dsimp +zetaDelta only))

theorem execPortTrainingRetry_keeps (p : Fin 8) (s : State) : KeepsOut s (execPortTrainingRetry p s) := by
  have hk := Keeps.refl s
  unfold execPortTrainingRetry
  repeat' (first
    | extract_lets | with_reducible assumption | with_reducible apply Keeps.refl | with_reducible apply True.intro
    | with_reducible apply State.trainPort_keeps | with_reducible apply KeepsOut.mk
    | with_reducible apply KeepsOut.mkFault | with_reducible apply KeepsOut.mkRefused
    | with_reducible apply KeepsOut.ite | intro _ | with_reducible apply KeepsO.getD
    | with_reducible apply Keeps.ite | (with_reducible apply Keeps.forEach; rotate_left; intro s a)
    | simp only [Keeps.mk_iff] | split | (dsimp +zetaDelta only))

theorem execCodewordReceived_keeps (p lane : Fin 8) (first : BitVec 7) (check : LineCheck) (s : State) : KeepsOut s (execCodewordReceived p lane first check s) := by
  have hk := Keeps.refl s
  unfold execCodewordReceived
  repeat' (first
    | extract_lets | with_reducible assumption | with_reducible apply Keeps.refl | with_reducible apply True.intro
    | with_reducible apply State.setPort_keeps | with_reducible apply State.corrected_keeps
    | with_reducible apply State.bump_keeps | with_reducible apply State.uncorrectable_keeps
    | with_reducible apply State.retrainLane_keeps | with_reducible apply KeepsOut.mk
    | with_reducible apply KeepsOut.mkFault | with_reducible apply KeepsOut.mkRefused
    | with_reducible apply KeepsOut.ite | intro _ | with_reducible apply KeepsO.getD
    | with_reducible apply Keeps.ite | (with_reducible apply Keeps.forEach; rotate_left; intro s a)
    | simp only [Keeps.mk_iff] | split | (dsimp +zetaDelta only))

theorem execLaneRetrainDone_keeps (p lane : Fin 8) (ok : Bool) (s : State) : KeepsOut s (execLaneRetrainDone p lane ok s) := by
  have hk := Keeps.refl s
  unfold execLaneRetrainDone
  repeat' (first
    | extract_lets | with_reducible assumption | with_reducible apply Keeps.refl | with_reducible apply True.intro
    | with_reducible apply State.setPort_keeps | with_reducible apply State.pumpPort_keeps
    | with_reducible apply State.pumpMc_keeps | with_reducible apply State.bump_keeps
    | with_reducible apply State.portDown_keeps | with_reducible apply KeepsOut.mk
    | with_reducible apply KeepsOut.mkFault | with_reducible apply KeepsOut.mkRefused
    | with_reducible apply KeepsOut.ite | intro _ | with_reducible apply KeepsO.getD
    | with_reducible apply Keeps.ite | (with_reducible apply Keeps.forEach; rotate_left; intro s a)
    | simp only [Keeps.mk_iff] | split | (dsimp +zetaDelta only))

theorem execRetryTimeout_keeps (p lane : Fin 8) (s : State) : KeepsOut s (execRetryTimeout p lane s) := by
  have hk := Keeps.refl s
  unfold execRetryTimeout
  repeat' (first
    | extract_lets | with_reducible assumption | with_reducible apply Keeps.refl | with_reducible apply True.intro
    | with_reducible apply State.replay_keeps | with_reducible apply KeepsOut.mk
    | with_reducible apply KeepsOut.mkFault | with_reducible apply KeepsOut.mkRefused
    | with_reducible apply KeepsOut.ite | intro _ | with_reducible apply KeepsO.getD
    | with_reducible apply Keeps.ite | (with_reducible apply Keeps.forEach; rotate_left; intro s a)
    | simp only [Keeps.mk_iff] | split | (dsimp +zetaDelta only))

theorem execHnxStall_keeps (p : Fin 8) (cls : Fin 4) (set : Fin 2) (s : State) : KeepsOut s (execHnxStall p cls set s) := by
  have hk := Keeps.refl s
  unfold execHnxStall
  repeat' (first
    | extract_lets | with_reducible assumption | with_reducible apply Keeps.refl | with_reducible apply True.intro
    | with_reducible apply State.setPort_keeps | with_reducible apply State.event_keeps
    | with_reducible apply State.bump_keeps | with_reducible apply KeepsOut.mk
    | with_reducible apply KeepsOut.mkFault | with_reducible apply KeepsOut.mkRefused
    | with_reducible apply KeepsOut.ite | intro _ | with_reducible apply KeepsO.getD
    | with_reducible apply Keeps.ite | (with_reducible apply Keeps.forEach; rotate_left; intro s a)
    | simp only [Keeps.mk_iff] | split | (dsimp +zetaDelta only))

theorem State.retrainPort_keeps {z0 : State} (s : State) (p : Nat) (hk : Keeps z0 s) :
    Keeps z0 (State.retrainPort s p) := by
  unfold State.retrainPort
  repeat' (first
    | extract_lets | with_reducible assumption | with_reducible apply Keeps.refl | with_reducible apply True.intro
    | with_reducible apply State.setPort_keeps | with_reducible apply State.trainPort_keeps
    | with_reducible apply KeepsO.getD | with_reducible apply Keeps.ite
    | (with_reducible apply Keeps.forEach; rotate_left; intro s a)
    | ((with_reducible apply Keeps.foldl) <;> [(intro r a); skip]) | simp only [Keeps.mk_iff] | split
    | (dsimp +zetaDelta only))

theorem execPortRetrain_keeps (path : Path) (p : Fin 8) (s : State) : KeepsOut s (execPortRetrain path p s) := by
  have hk := Keeps.refl s
  unfold execPortRetrain
  repeat' (first
    | extract_lets | with_reducible assumption | with_reducible apply Keeps.refl | with_reducible apply True.intro
    | with_reducible apply State.retrainPort_keeps | with_reducible apply KeepsOut.mk
    | with_reducible apply KeepsOut.mkFault | with_reducible apply KeepsOut.mkRefused
    | with_reducible apply KeepsOut.ite | intro _ | with_reducible apply KeepsO.getD
    | with_reducible apply Keeps.ite | (with_reducible apply Keeps.forEach; rotate_left; intro s a)
    | simp only [Keeps.mk_iff] | split | (dsimp +zetaDelta only))

theorem State.enablePort_keeps {z0 : State} (s : State) (p : Nat) (en : Bool) (hk : Keeps z0 s) :
    Keeps z0 (State.enablePort s p en) := by
  unfold State.enablePort
  repeat' (first
    | extract_lets | with_reducible assumption | with_reducible apply Keeps.refl | with_reducible apply True.intro
    | with_reducible apply State.setFld_keeps | with_reducible apply State.modPort_keeps
    | with_reducible apply State.portDown_keeps | with_reducible apply KeepsO.getD | with_reducible apply Keeps.ite
    | (with_reducible apply Keeps.forEach; rotate_left; intro s a) | simp only [Keeps.mk_iff] | split
    | (dsimp +zetaDelta only))

theorem State.writeFlt_keeps {z0 : State} (s : State) (path : Path) (v mode : Nat) (hk : Keeps z0 s) :
    Keeps z0 (State.writeFlt s path v mode) := by
  unfold State.writeFlt
  repeat' (first
    | extract_lets | with_reducible assumption | with_reducible apply Keeps.refl | with_reducible apply True.intro
    | with_reducible apply State.refuse_keeps | with_reducible apply State.setFld_keeps
    | with_reducible apply KeepsO.getD | with_reducible apply Keeps.ite
    | (with_reducible apply Keeps.forEach; rotate_left; intro s a) | simp only [Keeps.mk_iff] | split
    | (dsimp +zetaDelta only))

theorem execHnxInjDropWire_keeps (path : Path) (v : Word) (s : State) : KeepsOut s (execHnxInjDropWire path v s) := by
  have hk := Keeps.refl s
  unfold execHnxInjDropWire
  repeat' (first
    | extract_lets | with_reducible assumption | with_reducible apply Keeps.refl | with_reducible apply True.intro
    | with_reducible apply State.writeFlt_keeps | with_reducible apply KeepsOut.mk
    | with_reducible apply KeepsOut.mkFault | with_reducible apply KeepsOut.mkRefused
    | with_reducible apply KeepsOut.ite | intro _ | with_reducible apply KeepsO.getD
    | with_reducible apply Keeps.ite | (with_reducible apply Keeps.forEach; rotate_left; intro s a)
    | simp only [Keeps.mk_iff] | split | (dsimp +zetaDelta only))

theorem execHnxInjDropEarly_keeps (path : Path) (v : Word) (s : State) : KeepsOut s (execHnxInjDropEarly path v s) := by
  have hk := Keeps.refl s
  unfold execHnxInjDropEarly
  repeat' (first
    | extract_lets | with_reducible assumption | with_reducible apply Keeps.refl | with_reducible apply True.intro
    | with_reducible apply State.writeFlt_keeps | with_reducible apply KeepsOut.mk
    | with_reducible apply KeepsOut.mkFault | with_reducible apply KeepsOut.mkRefused
    | with_reducible apply KeepsOut.ite | intro _ | with_reducible apply KeepsO.getD
    | with_reducible apply Keeps.ite | (with_reducible apply Keeps.forEach; rotate_left; intro s a)
    | simp only [Keeps.mk_iff] | split | (dsimp +zetaDelta only))

theorem execHnxInjBitFlip_keeps (path : Path) (v : Word) (s : State) : KeepsOut s (execHnxInjBitFlip path v s) := by
  have hk := Keeps.refl s
  unfold execHnxInjBitFlip
  repeat' (first
    | extract_lets | with_reducible assumption | with_reducible apply Keeps.refl | with_reducible apply True.intro
    | with_reducible apply State.writeFlt_keeps | with_reducible apply KeepsOut.mk
    | with_reducible apply KeepsOut.mkFault | with_reducible apply KeepsOut.mkRefused
    | with_reducible apply KeepsOut.ite | intro _ | with_reducible apply KeepsO.getD
    | with_reducible apply Keeps.ite | (with_reducible apply Keeps.forEach; rotate_left; intro s a)
    | simp only [Keeps.mk_iff] | split | (dsimp +zetaDelta only))

theorem execHnxInjE2eFlip_keeps (path : Path) (v : Word) (s : State) : KeepsOut s (execHnxInjE2eFlip path v s) := by
  have hk := Keeps.refl s
  unfold execHnxInjE2eFlip
  repeat' (first
    | extract_lets | with_reducible assumption | with_reducible apply Keeps.refl | with_reducible apply True.intro
    | with_reducible apply State.writeFlt_keeps | with_reducible apply KeepsOut.mk
    | with_reducible apply KeepsOut.mkFault | with_reducible apply KeepsOut.mkRefused
    | with_reducible apply KeepsOut.ite | intro _ | with_reducible apply KeepsO.getD
    | with_reducible apply Keeps.ite | (with_reducible apply Keeps.forEach; rotate_left; intro s a)
    | simp only [Keeps.mk_iff] | split | (dsimp +zetaDelta only))

theorem execHnxInjReorder_keeps (path : Path) (v : Word) (s : State) : KeepsOut s (execHnxInjReorder path v s) := by
  have hk := Keeps.refl s
  unfold execHnxInjReorder
  repeat' (first
    | extract_lets | with_reducible assumption | with_reducible apply Keeps.refl | with_reducible apply True.intro
    | with_reducible apply State.writeFlt_keeps | with_reducible apply KeepsOut.mk
    | with_reducible apply KeepsOut.mkFault | with_reducible apply KeepsOut.mkRefused
    | with_reducible apply KeepsOut.ite | intro _ | with_reducible apply KeepsO.getD
    | with_reducible apply Keeps.ite | (with_reducible apply Keeps.forEach; rotate_left; intro s a)
    | simp only [Keeps.mk_iff] | split | (dsimp +zetaDelta only))

end Sys2Proof.Machine
end

