-- ==== Sys2Proof/Laws/KeepCxl.lean ====
section
/-! SUPPORT. What the definitions of Machine/Cxl.lean keep (Keeps, Laws/Keep.lean). -/

set_option linter.all false

namespace Sys2Proof.Machine

theorem State.answer_keeps {z0 : State} (s : State) (r : Reply) (hk : Keeps z0 s) :
    Keeps z0 (State.answer s r) := by
  unfold State.answer
  repeat' (first
    | extract_lets | with_reducible assumption | with_reducible apply Keeps.refl | with_reducible apply True.intro
    | with_reducible apply KeepsO.getD | with_reducible apply Keeps.ite
    | (with_reducible apply Keeps.forEach; rotate_left; intro s a) | simp only [Keeps.mk_iff] | split
    | (dsimp +zetaDelta only))

theorem State.atomicOp_keeps {z0 : State} (s : State) (a : Nat) (wide : Bool) (op : AtomicKind) (hk : Keeps z0 s) :
    Keeps z0 (State.atomicOp s a wide op) := by
  unfold State.atomicOp
  repeat' (first
    | extract_lets | with_reducible assumption | with_reducible apply Keeps.refl | with_reducible apply True.intro
    | with_reducible apply State.answer_keeps | with_reducible apply State.applyPart_keeps
    | with_reducible apply KeepsO.getD | with_reducible apply Keeps.ite
    | (with_reducible apply Keeps.forEach; rotate_left; intro s a) | simp only [Keeps.mk_iff] | split
    | (dsimp +zetaDelta only))

theorem State.applyHeld_keeps {z0 : State} (s : State) (h : HeldWrite) (hk : Keeps z0 s) :
    Keeps z0 (State.applyHeld s h) := by
  unfold State.applyHeld
  repeat' (first
    | extract_lets | with_reducible assumption | with_reducible apply Keeps.refl | with_reducible apply True.intro
    | with_reducible apply State.applyPart_keeps | with_reducible apply State.byThread_keeps
    | with_reducible apply State.casFor_keeps | with_reducible apply State.atomicOp_keeps
    | with_reducible apply State.signalAdd_keeps
    | with_reducible refine State.signalAdd_keeps_some (w := by assumption) (hk := ?_) ..
    | with_reducible apply State.consumeWord_keeps
    | with_reducible refine State.consumeWord_keeps_some (w := by assumption) (hk := ?_) ..
    | with_reducible apply State.casWord_keeps
    | with_reducible refine State.casWord_keeps_ok (w := by assumption) (hk := ?_) ..
    | with_reducible apply State.settleRun_keeps | with_reducible apply State.atomDone_keeps
    | with_reducible refine State.atomDone_keeps_ok (w := by assumption) (hk := ?_) ..
    | with_reducible refine State.atomDone_keeps_error (w := by assumption) (hk := ?_) ..
    | with_reducible apply State.atomRun_keeps | with_reducible apply KeepsE.mk
    | with_reducible apply KeepsE.mkError | with_reducible apply KeepsR.mk | with_reducible apply KeepsR.mkError
    | with_reducible apply KeepsR.mkPure | with_reducible apply KeepsR.readState
    | with_reducible apply KeepsR.readPair | with_reducible apply KeepsR.map | with_reducible apply KeepsR.read
    | with_reducible apply KeepsR.orFaultValue | (with_reducible apply KeepsR.orFault)
    | (with_reducible apply KeepsR.foldRun) <;> [(intro s a); skip] | with_reducible apply KeepsR.mapM
    | with_reducible apply KeepsR.ite | with_reducible apply KeepsR.bindState | with_reducible apply KeepsR.bindPair
    | with_reducible apply KeepsR.readAll | intro _ | with_reducible apply KeepsO.getD
    | with_reducible apply Keeps.ite | (with_reducible apply Keeps.forEach; rotate_left; intro s a)
    | simp only [Keeps.mk_iff] | split | (dsimp +zetaDelta only))

theorem State.releaseHeld_keeps {z0 : State} (s : State) (line : Nat) (hk : Keeps z0 s) :
    Keeps z0 (State.releaseHeld s line) := by
  unfold State.releaseHeld
  repeat' (first
    | extract_lets | with_reducible assumption | with_reducible apply Keeps.refl | with_reducible apply True.intro
    | with_reducible apply State.applyHeld_keeps | with_reducible apply KeepsO.getD | with_reducible apply Keeps.ite
    | (with_reducible apply Keeps.forEach; rotate_left; intro s a) | simp only [Keeps.mk_iff] | split
    | (dsimp +zetaDelta only))

theorem execCxlLinkTrained_keeps (rate width : Nat) (level : Fin 3) (bi : Bool) (s : State) : KeepsOut s (execCxlLinkTrained rate width level bi s) := by
  have hk := Keeps.refl s
  unfold execCxlLinkTrained
  repeat' (first
    | extract_lets | with_reducible assumption | with_reducible apply Keeps.refl | with_reducible apply True.intro
    | with_reducible apply State.event_keeps | with_reducible apply State.evalWaiters_keeps
    | with_reducible apply KeepsOut.mk | with_reducible apply KeepsOut.mkFault
    | with_reducible apply KeepsOut.mkRefused | with_reducible apply KeepsOut.ite | intro _
    | with_reducible apply KeepsO.getD | with_reducible apply Keeps.ite
    | (with_reducible apply Keeps.forEach; rotate_left; intro s a) | simp only [Keeps.mk_iff] | split
    | (dsimp +zetaDelta only))

theorem State.failHostStreams_keeps {z0 : State} (s : State) (hk : Keeps z0 s) :
    Keeps z0 (State.failHostStreams s) := by
  unfold State.failHostStreams
  repeat' (first
    | extract_lets | with_reducible assumption | with_reducible apply Keeps.refl | with_reducible apply True.intro
    | with_reducible apply State.streamFault_keeps | with_reducible apply KeepsO.getD
    | with_reducible apply Keeps.ite | (with_reducible apply Keeps.forEach; rotate_left; intro s a)
    | simp only [Keeps.mk_iff] | split | (dsimp +zetaDelta only))

theorem execLinkLoss_keeps (s : State) : KeepsOut s (execLinkLoss s) := by
  have hk := Keeps.refl s
  unfold execLinkLoss
  repeat' (first
    | extract_lets | with_reducible assumption | with_reducible apply Keeps.refl | with_reducible apply True.intro
    | with_reducible apply State.bump_keeps | with_reducible apply State.releaseHeld_keeps
    | with_reducible apply State.failHostStreams_keeps | with_reducible apply State.event_keeps
    | with_reducible apply KeepsOut.mk | with_reducible apply KeepsOut.mkFault
    | with_reducible apply KeepsOut.mkRefused | with_reducible apply KeepsOut.ite | intro _
    | with_reducible apply KeepsO.getD | with_reducible apply Keeps.ite
    | (with_reducible apply Keeps.forEach; rotate_left; intro s a) | simp only [Keeps.mk_iff] | split
    | (dsimp +zetaDelta only))

theorem execCxlLinkRecovery_keeps (s : State) : KeepsOut s (execCxlLinkRecovery s) := by
  have hk := Keeps.refl s
  unfold execCxlLinkRecovery
  repeat' (first
    | extract_lets | with_reducible assumption | with_reducible apply Keeps.refl | with_reducible apply True.intro
    | with_reducible apply State.bump_keeps | with_reducible apply KeepsOut.mk
    | with_reducible apply KeepsOut.mkFault | with_reducible apply KeepsOut.mkRefused
    | with_reducible apply KeepsOut.ite | intro _ | with_reducible apply KeepsO.getD
    | with_reducible apply Keeps.ite | (with_reducible apply Keeps.forEach; rotate_left; intro s a)
    | simp only [Keeps.mk_iff] | split | (dsimp +zetaDelta only))

theorem execCxlFlitError_keeps (replay : Bool) (s : State) : KeepsOut s (execCxlFlitError replay s) := by
  have hk := Keeps.refl s
  unfold execCxlFlitError
  repeat' (first
    | extract_lets | with_reducible assumption | with_reducible apply Keeps.refl | with_reducible apply True.intro
    | with_reducible apply State.replay_keeps | with_reducible apply State.bump_keeps
    | with_reducible apply State.injMade_keeps | with_reducible apply KeepsOut.mk
    | with_reducible apply KeepsOut.mkFault | with_reducible apply KeepsOut.mkRefused
    | with_reducible apply KeepsOut.ite | intro _ | with_reducible apply KeepsO.getD
    | with_reducible apply Keeps.ite | (with_reducible apply Keeps.forEach; rotate_left; intro s a)
    | simp only [Keeps.mk_iff] | split | (dsimp +zetaDelta only))

theorem execConfigRequest_keeps (off : BitVec 12) (wr : Option (BitVec 32)) (s : State) : KeepsOut s (execConfigRequest off wr s) := by
  have hk := Keeps.refl s
  unfold execConfigRequest
  repeat' (first
    | extract_lets | with_reducible assumption | with_reducible apply Keeps.refl | with_reducible apply True.intro
    | with_reducible apply State.answer_keeps | with_reducible apply KeepsOut.mk
    | with_reducible apply KeepsOut.mkFault | with_reducible apply KeepsOut.mkRefused
    | with_reducible apply KeepsOut.ite | intro _ | with_reducible apply KeepsO.getD
    | with_reducible apply Keeps.ite | (with_reducible apply Keeps.forEach; rotate_left; intro s a)
    | simp only [Keeps.mk_iff] | split | (dsimp +zetaDelta only))

theorem State.mediaRecord_keeps {z0 : State} (s : State) (a : Nat) (hk : Keeps z0 s) :
    Keeps z0 (State.mediaRecord s a) := by
  unfold State.mediaRecord
  repeat' (first
    | extract_lets | with_reducible assumption | with_reducible apply Keeps.refl | with_reducible apply True.intro
    | with_reducible apply State.cxlRecord_keeps | with_reducible apply KeepsO.getD | with_reducible apply Keeps.ite
    | (with_reducible apply Keeps.forEach; rotate_left; intro s a) | simp only [Keeps.mk_iff] | split
    | (dsimp +zetaDelta only))

theorem State.checkHost_keeps {z0 : State} (s : State) (line : Nat) (check : LineCheck) (hk : Keeps z0 s) :
    Keeps z0 (State.checkHost s line check) := by
  unfold State.checkHost
  repeat' (first
    | extract_lets | with_reducible assumption | with_reducible apply Keeps.refl | with_reducible apply True.intro
    | with_reducible apply State.beatRetried_keeps | with_reducible apply State.corrected_keeps
    | with_reducible apply State.uncorrectable_keeps | with_reducible apply KeepsO.getD
    | with_reducible apply Keeps.ite | (with_reducible apply Keeps.forEach; rotate_left; intro s a)
    | simp only [Keeps.mk_iff] | split | (dsimp +zetaDelta only))

theorem State.hostRead_keeps {z0 : State} (s : State) (a : Nat) (check : LineCheck) (hk : Keeps z0 s) :
    Keeps z0 (State.hostRead s a check) := by
  unfold State.hostRead
  repeat' (first
    | extract_lets | with_reducible assumption | with_reducible apply Keeps.refl | with_reducible apply True.intro
    | with_reducible apply State.checkHost_keeps | with_reducible apply State.injMade_keeps
    | with_reducible apply State.bump_keeps | with_reducible apply State.mediaRecord_keeps
    | with_reducible apply State.answer_keeps | with_reducible apply KeepsO.getD | with_reducible apply Keeps.ite
    | (with_reducible apply Keeps.forEach; rotate_left; intro s a) | simp only [Keeps.mk_iff] | split
    | (dsimp +zetaDelta only))

theorem execCxlMemRead_keeps (peer : Bool) (h : BitVec 48) (check : LineCheck) (s : State) : KeepsOut s (execCxlMemRead peer h check s) := by
  have hk := Keeps.refl s
  unfold execCxlMemRead
  repeat' (first
    | extract_lets | with_reducible assumption | with_reducible apply Keeps.refl | with_reducible apply True.intro
    | with_reducible apply State.poisonAnswer_keeps | with_reducible apply State.checkHost_keeps
    | with_reducible apply State.answer_keeps | with_reducible apply State.hostRead_keeps
    | with_reducible apply KeepsOut.mk | with_reducible apply KeepsOut.mkFault
    | with_reducible apply KeepsOut.mkRefused | with_reducible apply KeepsOut.ite | intro _
    | with_reducible apply KeepsO.getD | with_reducible apply Keeps.ite
    | (with_reducible apply Keeps.forEach; rotate_left; intro s a) | simp only [Keeps.mk_iff] | split
    | (dsimp +zetaDelta only))

theorem execCxlMemWrite_keeps (peer : Bool) (h : BitVec 48) (data : List Byte) (check : LineCheck) (s : State) : KeepsOut s (execCxlMemWrite peer h data check s) := by
  have hk := Keeps.refl s
  unfold execCxlMemWrite
  repeat' (first
    | extract_lets | with_reducible assumption | with_reducible apply Keeps.refl | with_reducible apply True.intro
    | with_reducible apply State.inactive_keeps | with_reducible apply State.checkHost_keeps
    | with_reducible apply State.writePart_keeps | with_reducible apply State.applyPart_keeps
    | with_reducible apply KeepsOut.mk | with_reducible apply KeepsOut.mkFault
    | with_reducible apply KeepsOut.mkRefused | with_reducible apply KeepsOut.ite | intro _
    | with_reducible apply KeepsO.getD | with_reducible apply Keeps.ite
    | (with_reducible apply Keeps.forEach; rotate_left; intro s a) | simp only [Keeps.mk_iff] | split
    | (dsimp +zetaDelta only))

theorem execCxlAtomicOp_keeps (h : BitVec 48) (wide : Bool) (op : AtomicKind) (s : State) : KeepsOut s (execCxlAtomicOp h wide op s) := by
  have hk := Keeps.refl s
  unfold execCxlAtomicOp
  repeat' (first
    | extract_lets | with_reducible assumption | with_reducible apply Keeps.refl | with_reducible apply True.intro
    | with_reducible apply State.poisonAnswer_keeps | with_reducible apply State.holdOp_keeps
    | with_reducible apply State.atomicOp_keeps | with_reducible apply KeepsOut.mk
    | with_reducible apply KeepsOut.mkFault | with_reducible apply KeepsOut.mkRefused
    | with_reducible apply KeepsOut.ite | intro _ | with_reducible apply KeepsO.getD
    | with_reducible apply Keeps.ite | (with_reducible apply Keeps.forEach; rotate_left; intro s a)
    | simp only [Keeps.mk_iff] | split | (dsimp +zetaDelta only))

theorem State.grantLine_keeps {z0 : State} (s : State) (line : Nat) (exclusive : Bool) (check : LineCheck) (hk : Keeps z0 s) :
    Keeps z0 (State.grantLine s line exclusive check) := by
  unfold State.grantLine
  repeat' (first
    | extract_lets | with_reducible assumption | with_reducible apply Keeps.refl | with_reducible apply True.intro
    | with_reducible apply State.setFld_keeps | with_reducible apply State.hostRead_keeps
    | with_reducible apply KeepsO.getD | with_reducible apply Keeps.ite
    | (with_reducible apply Keeps.forEach; rotate_left; intro s a) | simp only [Keeps.mk_iff] | split
    | (dsimp +zetaDelta only))

theorem execHostOwnershipRequest_keeps (h : BitVec 48) (exclusive : Bool) (check : LineCheck) (s : State) : KeepsOut s (execHostOwnershipRequest h exclusive check s) := by
  have hk := Keeps.refl s
  unfold execHostOwnershipRequest
  repeat' (first
    | extract_lets | with_reducible assumption | with_reducible apply Keeps.refl | with_reducible apply True.intro
    | with_reducible apply State.poisonAnswer_keeps | with_reducible apply State.grantLine_keeps
    | with_reducible apply State.sendInv_keeps | with_reducible apply KeepsOut.mk
    | with_reducible apply KeepsOut.mkFault | with_reducible apply KeepsOut.mkRefused
    | with_reducible apply KeepsOut.ite | intro _ | with_reducible apply KeepsO.getD
    | with_reducible apply Keeps.ite | (with_reducible apply Keeps.forEach; rotate_left; intro s a)
    | simp only [Keeps.mk_iff] | split | (dsimp +zetaDelta only))

theorem execRecallTimer_keeps (h : BitVec 48) (s : State) : KeepsOut s (execRecallTimer h s) := by
  have hk := Keeps.refl s
  unfold execRecallTimer
  repeat' (first
    | extract_lets | with_reducible assumption | with_reducible apply Keeps.refl | with_reducible apply True.intro
    | with_reducible apply State.sendInv_keeps | with_reducible apply State.bump_keeps
    | with_reducible apply KeepsOut.mk | with_reducible apply KeepsOut.mkFault
    | with_reducible apply KeepsOut.mkRefused | with_reducible apply KeepsOut.ite | intro _
    | with_reducible apply KeepsO.getD | with_reducible apply Keeps.ite
    | (with_reducible apply Keeps.forEach; rotate_left; intro s a) | simp only [Keeps.mk_iff] | split
    | (dsimp +zetaDelta only))

theorem State.grantWaiting_keeps {z : State} (s : State) (l : List (Nat × Bool)) (hk : Keeps z s) :
    Keeps z (s.grantWaiting l) := by
  induction l generalizing s with
  | nil => exact hk
  | cons g r ih =>
    unfold State.grantWaiting
    split
    · exact ih _ (State.grantLine_keeps _ _ _ _ (Keeps.mk' hk ..))
    · exact hk

theorem execBisnpResponse_keeps (h : BitVec 48) (modified : Option (List Byte)) (s : State) : KeepsOut s (execBisnpResponse h modified s) := by
  have hk := Keeps.refl s
  unfold execBisnpResponse
  repeat' (first
    | extract_lets | with_reducible assumption | with_reducible apply Keeps.refl | with_reducible apply True.intro
    | with_reducible apply State.applyPart_keeps | with_reducible apply State.releaseHeld_keeps
    | with_reducible apply State.grantWaiting_keeps | with_reducible apply KeepsOut.mk
    | with_reducible apply KeepsOut.mkFault | with_reducible apply KeepsOut.mkRefused
    | with_reducible apply KeepsOut.ite | intro _ | with_reducible apply KeepsO.getD
    | with_reducible apply Keeps.ite | (with_reducible apply Keeps.forEach; rotate_left; intro s a)
    | simp only [Keeps.mk_iff] | split | (dsimp +zetaDelta only))

theorem execBar2Read_keeps (x : BitVec 36) (s : State) : KeepsOut s (execBar2Read x s) := by
  have hk := Keeps.refl s
  unfold execBar2Read
  repeat' (first
    | extract_lets | with_reducible assumption | with_reducible apply Keeps.refl | with_reducible apply True.intro
    | with_reducible apply State.answer_keeps | with_reducible apply State.replicate_keeps
    | with_reducible refine State.replicate_keeps_some (w := by assumption) (hk := ?_) ..
    | with_reducible apply KeepsOut.mk | with_reducible apply KeepsOut.mkFault
    | with_reducible apply KeepsOut.mkRefused | with_reducible apply KeepsOut.ite | intro _
    | with_reducible apply KeepsO.getD | with_reducible apply Keeps.ite
    | (with_reducible apply Keeps.forEach; rotate_left; intro s a) | simp only [Keeps.mk_iff] | split
    | (dsimp +zetaDelta only))

theorem execBar2Write_keeps (x : BitVec 36) (v : Word) (s : State) : KeepsOut s (execBar2Write x v s) := by
  have hk := Keeps.refl s
  unfold execBar2Write
  repeat' (first
    | extract_lets | with_reducible assumption | with_reducible apply Keeps.refl | with_reducible apply True.intro
    | with_reducible apply State.event_keeps | with_reducible apply State.devWrite_keeps
    | with_reducible apply KeepsOut.mk | with_reducible apply KeepsOut.mkFault
    | with_reducible apply KeepsOut.mkRefused | with_reducible apply KeepsOut.ite | intro _
    | with_reducible apply KeepsO.getD | with_reducible apply Keeps.ite
    | (with_reducible apply Keeps.forEach; rotate_left; intro s a) | simp only [Keeps.mk_iff] | split
    | (dsimp +zetaDelta only))

theorem State.mailbox_keeps {z0 : State} (s : State) (r : Reply) (hk : Keeps z0 s) :
    Keeps z0 (State.mailbox s r) := by
  unfold State.mailbox
  repeat' (first
    | extract_lets | with_reducible assumption | with_reducible apply Keeps.refl | with_reducible apply True.intro
    | with_reducible apply State.answer_keeps | with_reducible apply State.signalVector_keeps
    | with_reducible apply KeepsO.getD | with_reducible apply Keeps.ite
    | (with_reducible apply Keeps.forEach; rotate_left; intro s a) | simp only [Keeps.mk_iff] | split
    | (dsimp +zetaDelta only))

theorem execIdentify_keeps (s : State) : KeepsOut s (execIdentify s) := by
  have hk := Keeps.refl s
  unfold execIdentify
  repeat' (first
    | extract_lets | with_reducible assumption | with_reducible apply Keeps.refl | with_reducible apply True.intro
    | with_reducible apply State.mailbox_keeps | with_reducible apply KeepsOut.mk
    | with_reducible apply KeepsOut.mkFault | with_reducible apply KeepsOut.mkRefused
    | with_reducible apply KeepsOut.ite | intro _ | with_reducible apply KeepsO.getD
    | with_reducible apply Keeps.ite | (with_reducible apply Keeps.forEach; rotate_left; intro s a)
    | simp only [Keeps.mk_iff] | split | (dsimp +zetaDelta only))

theorem execGetLog_keeps (id : Nat) (s : State) : KeepsOut s (execGetLog id s) := by
  have hk := Keeps.refl s
  unfold execGetLog
  repeat' (first
    | extract_lets | with_reducible assumption | with_reducible apply Keeps.refl | with_reducible apply True.intro
    | with_reducible apply State.mailbox_keeps | with_reducible apply KeepsOut.mk
    | with_reducible apply KeepsOut.mkFault | with_reducible apply KeepsOut.mkRefused
    | with_reducible apply KeepsOut.ite | intro _ | with_reducible apply KeepsO.getD
    | with_reducible apply Keeps.ite | (with_reducible apply Keeps.forEach; rotate_left; intro s a)
    | simp only [Keeps.mk_iff] | split | (dsimp +zetaDelta only))

theorem execGetEventRecords_keeps (log : EvLog) (s : State) : KeepsOut s (execGetEventRecords log s) := by
  have hk := Keeps.refl s
  unfold execGetEventRecords
  repeat' (first
    | extract_lets | with_reducible assumption | with_reducible apply Keeps.refl | with_reducible apply True.intro
    | with_reducible apply State.mailbox_keeps | with_reducible apply KeepsOut.mk
    | with_reducible apply KeepsOut.mkFault | with_reducible apply KeepsOut.mkRefused
    | with_reducible apply KeepsOut.ite | intro _ | with_reducible apply KeepsO.getD
    | with_reducible apply Keeps.ite | (with_reducible apply Keeps.forEach; rotate_left; intro s a)
    | simp only [Keeps.mk_iff] | split | (dsimp +zetaDelta only))

theorem execClearEventRecords_keeps (log : EvLog) (count : Nat) (s : State) : KeepsOut s (execClearEventRecords log count s) := by
  have hk := Keeps.refl s
  unfold execClearEventRecords
  repeat' (first
    | extract_lets | with_reducible assumption | with_reducible apply Keeps.refl | with_reducible apply True.intro
    | with_reducible apply State.mailbox_keeps | with_reducible apply KeepsOut.mk
    | with_reducible apply KeepsOut.mkFault | with_reducible apply KeepsOut.mkRefused
    | with_reducible apply KeepsOut.ite | intro _ | with_reducible apply KeepsO.getD
    | with_reducible apply Keeps.ite | (with_reducible apply Keeps.forEach; rotate_left; intro s a)
    | simp only [Keeps.mk_iff] | split | (dsimp +zetaDelta only))

theorem execGetEventInterruptPolicy_keeps (s : State) : KeepsOut s (execGetEventInterruptPolicy s) := by
  have hk := Keeps.refl s
  unfold execGetEventInterruptPolicy
  repeat' (first
    | extract_lets | with_reducible assumption | with_reducible apply Keeps.refl | with_reducible apply True.intro
    | with_reducible apply State.mailbox_keeps | with_reducible apply KeepsOut.mk
    | with_reducible apply KeepsOut.mkFault | with_reducible apply KeepsOut.mkRefused
    | with_reducible apply KeepsOut.ite | intro _ | with_reducible apply KeepsO.getD
    | with_reducible apply Keeps.ite | (with_reducible apply Keeps.forEach; rotate_left; intro s a)
    | simp only [Keeps.mk_iff] | split | (dsimp +zetaDelta only))

theorem execSetEventInterruptPolicy_keeps (info warn fail fatal : BitVec 8) (s : State) : KeepsOut s (execSetEventInterruptPolicy info warn fail fatal s) := by
  have hk := Keeps.refl s
  unfold execSetEventInterruptPolicy
  repeat' (first
    | extract_lets | with_reducible assumption | with_reducible apply Keeps.refl | with_reducible apply True.intro
    | with_reducible apply State.mailbox_keeps | with_reducible apply KeepsOut.mk
    | with_reducible apply KeepsOut.mkFault | with_reducible apply KeepsOut.mkRefused
    | with_reducible apply KeepsOut.ite | intro _ | with_reducible apply KeepsO.getD
    | with_reducible apply Keeps.ite | (with_reducible apply Keeps.forEach; rotate_left; intro s a)
    | simp only [Keeps.mk_iff] | split | (dsimp +zetaDelta only))

theorem execGetTimestamp_keeps (s : State) : KeepsOut s (execGetTimestamp s) := by
  have hk := Keeps.refl s
  unfold execGetTimestamp
  repeat' (first
    | extract_lets | with_reducible assumption | with_reducible apply Keeps.refl | with_reducible apply True.intro
    | with_reducible apply State.mailbox_keeps | with_reducible apply KeepsOut.mk
    | with_reducible apply KeepsOut.mkFault | with_reducible apply KeepsOut.mkRefused
    | with_reducible apply KeepsOut.ite | intro _ | with_reducible apply KeepsO.getD
    | with_reducible apply Keeps.ite | (with_reducible apply Keeps.forEach; rotate_left; intro s a)
    | simp only [Keeps.mk_iff] | split | (dsimp +zetaDelta only))

theorem execSetTimestamp_keeps (v : Word) (s : State) : KeepsOut s (execSetTimestamp v s) := by
  have hk := Keeps.refl s
  unfold execSetTimestamp
  repeat' (first
    | extract_lets | with_reducible assumption | with_reducible apply Keeps.refl | with_reducible apply True.intro
    | with_reducible apply State.mailbox_keeps | with_reducible apply KeepsOut.mk
    | with_reducible apply KeepsOut.mkFault | with_reducible apply KeepsOut.mkRefused
    | with_reducible apply KeepsOut.ite | intro _ | with_reducible apply KeepsO.getD
    | with_reducible apply Keeps.ite | (with_reducible apply Keeps.forEach; rotate_left; intro s a)
    | simp only [Keeps.mk_iff] | split | (dsimp +zetaDelta only))

theorem execTableAccess_keeps (handle : Nat) (s : State) : KeepsOut s (execTableAccess handle s) := by
  have hk := Keeps.refl s
  unfold execTableAccess
  repeat' (first
    | extract_lets | with_reducible assumption | with_reducible apply Keeps.refl | with_reducible apply True.intro
    | with_reducible apply State.answer_keeps | with_reducible apply KeepsOut.mk
    | with_reducible apply KeepsOut.mkFault | with_reducible apply KeepsOut.mkRefused
    | with_reducible apply KeepsOut.ite | intro _ | with_reducible apply KeepsO.getD
    | with_reducible apply Keeps.ite | (with_reducible apply Keeps.forEach; rotate_left; intro s a)
    | simp only [Keeps.mk_iff] | split | (dsimp +zetaDelta only))

theorem State.writeInj_keeps {z0 : State} (s : State) (path : Path) (mode count : Nat) (delay : Option Nat) (hk : Keeps z0 s) :
    Keeps z0 (State.writeInj s path mode count delay) := by
  unfold State.writeInj
  repeat' (first
    | extract_lets | with_reducible assumption | with_reducible apply Keeps.refl | with_reducible apply True.intro
    | with_reducible apply State.refuse_keeps | with_reducible apply State.setFld_keeps
    | with_reducible apply State.injMade_keeps | with_reducible apply KeepsO.getD | with_reducible apply Keeps.ite
    | (with_reducible apply Keeps.forEach; rotate_left; intro s a) | simp only [Keeps.mk_iff] | split
    | (dsimp +zetaDelta only))

theorem execComplianceRequest_keeps (inject : Bool) (code : Nat) (s : State) : KeepsOut s (execComplianceRequest inject code s) := by
  have hk := Keeps.refl s
  unfold execComplianceRequest
  repeat' (first
    | extract_lets | with_reducible assumption | with_reducible apply Keeps.refl | with_reducible apply True.intro
    | with_reducible apply State.refuse_keeps | with_reducible apply State.answer_keeps
    | with_reducible apply State.writeInj_keeps | with_reducible apply KeepsOut.mk
    | with_reducible apply KeepsOut.mkFault | with_reducible apply KeepsOut.mkRefused
    | with_reducible apply KeepsOut.ite | intro _ | with_reducible apply KeepsO.getD
    | with_reducible apply Keeps.ite | (with_reducible apply Keeps.forEach; rotate_left; intro s a)
    | simp only [Keeps.mk_iff] | split | (dsimp +zetaDelta only))

theorem execInjTxCrc_keeps (p : Path) (count : BitVec 16) (s : State) : KeepsOut s (execInjTxCrc p count s) := by
  have hk := Keeps.refl s
  unfold execInjTxCrc
  repeat' (first
    | extract_lets | with_reducible assumption | with_reducible apply Keeps.refl | with_reducible apply True.intro
    | with_reducible apply State.writeInj_keeps | with_reducible apply KeepsOut.mk
    | with_reducible apply KeepsOut.mkFault | with_reducible apply KeepsOut.mkRefused
    | with_reducible apply KeepsOut.ite | intro _ | with_reducible apply KeepsO.getD
    | with_reducible apply Keeps.ite | (with_reducible apply Keeps.forEach; rotate_left; intro s a)
    | simp only [Keeps.mk_iff] | split | (dsimp +zetaDelta only))

theorem execInjRxCrc_keeps (p : Path) (count : BitVec 16) (s : State) : KeepsOut s (execInjRxCrc p count s) := by
  have hk := Keeps.refl s
  unfold execInjRxCrc
  repeat' (first
    | extract_lets | with_reducible assumption | with_reducible apply Keeps.refl | with_reducible apply True.intro
    | with_reducible apply State.writeInj_keeps | with_reducible apply KeepsOut.mk
    | with_reducible apply KeepsOut.mkFault | with_reducible apply KeepsOut.mkRefused
    | with_reducible apply KeepsOut.ite | intro _ | with_reducible apply KeepsO.getD
    | with_reducible apply Keeps.ite | (with_reducible apply Keeps.forEach; rotate_left; intro s a)
    | simp only [Keeps.mk_iff] | split | (dsimp +zetaDelta only))

theorem execInjMemPoison_keeps (p : Path) (count : BitVec 16) (s : State) : KeepsOut s (execInjMemPoison p count s) := by
  have hk := Keeps.refl s
  unfold execInjMemPoison
  repeat' (first
    | extract_lets | with_reducible assumption | with_reducible apply Keeps.refl | with_reducible apply True.intro
    | with_reducible apply State.writeInj_keeps | with_reducible apply KeepsOut.mk
    | with_reducible apply KeepsOut.mkFault | with_reducible apply KeepsOut.mkRefused
    | with_reducible apply KeepsOut.ite | intro _ | with_reducible apply KeepsO.getD
    | with_reducible apply Keeps.ite | (with_reducible apply Keeps.forEach; rotate_left; intro s a)
    | simp only [Keeps.mk_iff] | split | (dsimp +zetaDelta only))

theorem execInjCreditHold_keeps (p : Path) (count delayUs : BitVec 16) (s : State) : KeepsOut s (execInjCreditHold p count delayUs s) := by
  have hk := Keeps.refl s
  unfold execInjCreditHold
  repeat' (first
    | extract_lets | with_reducible assumption | with_reducible apply Keeps.refl | with_reducible apply True.intro
    | with_reducible apply State.writeInj_keeps | with_reducible apply KeepsOut.mk
    | with_reducible apply KeepsOut.mkFault | with_reducible apply KeepsOut.mkRefused
    | with_reducible apply KeepsOut.ite | intro _ | with_reducible apply KeepsO.getD
    | with_reducible apply Keeps.ite | (with_reducible apply Keeps.forEach; rotate_left; intro s a)
    | simp only [Keeps.mk_iff] | split | (dsimp +zetaDelta only))

theorem execInjCreditHoldEnd_keeps (s : State) : KeepsOut s (execInjCreditHoldEnd s) := by
  have hk := Keeps.refl s
  unfold execInjCreditHoldEnd
  repeat' (first
    | extract_lets | with_reducible assumption | with_reducible apply Keeps.refl | with_reducible apply True.intro
    | with_reducible apply KeepsOut.mk | with_reducible apply KeepsOut.mkFault
    | with_reducible apply KeepsOut.mkRefused | with_reducible apply KeepsOut.ite | intro _
    | with_reducible apply KeepsO.getD | with_reducible apply Keeps.ite
    | (with_reducible apply Keeps.forEach; rotate_left; intro s a) | simp only [Keeps.mk_iff] | split
    | (dsimp +zetaDelta only))

theorem execInjCacheFail_keeps (p : Path) (count : BitVec 16) (s : State) : KeepsOut s (execInjCacheFail p count s) := by
  have hk := Keeps.refl s
  unfold execInjCacheFail
  repeat' (first
    | extract_lets | with_reducible assumption | with_reducible apply Keeps.refl | with_reducible apply True.intro
    | with_reducible apply State.writeInj_keeps | with_reducible apply KeepsOut.mk
    | with_reducible apply KeepsOut.mkFault | with_reducible apply KeepsOut.mkRefused
    | with_reducible apply KeepsOut.ite | intro _ | with_reducible apply KeepsO.getD
    | with_reducible apply Keeps.ite | (with_reducible apply Keeps.forEach; rotate_left; intro s a)
    | simp only [Keeps.mk_iff] | split | (dsimp +zetaDelta only))

theorem execScrubRead_keeps (b : Fin 4) (line : Nat) (check : LineCheck) (forced : Bool) (s : State) : KeepsOut s (execScrubRead b line check forced s) := by
  have hk := Keeps.refl s
  unfold execScrubRead
  repeat' (first
    | extract_lets | with_reducible assumption | with_reducible apply Keeps.refl | with_reducible apply True.intro
    | with_reducible apply State.beatRetried_keeps | with_reducible apply State.corrected_keeps
    | with_reducible apply State.uncorrectable_keeps | with_reducible apply State.setFld_keeps
    | with_reducible apply State.bump_keeps | with_reducible apply State.forced_keeps
    | with_reducible refine State.forced_keeps_some (w := by assumption) (hk := ?_) ..
    | with_reducible apply KeepsOut.mk | with_reducible apply KeepsOut.mkFault
    | with_reducible apply KeepsOut.mkRefused | with_reducible apply KeepsOut.ite | intro _
    | with_reducible apply KeepsO.getD | with_reducible apply Keeps.ite
    | (with_reducible apply Keeps.forEach; rotate_left; intro s a) | simp only [Keeps.mk_iff] | split
    | (dsimp +zetaDelta only))

end Sys2Proof.Machine
end

