-- ==== Sys2Proof/Laws/KeepHeaters.lean ====
section
/-! SUPPORT. What the definitions of Machine/Heaters.lean keep (Keeps, Laws/Keep.lean). -/

set_option linter.all false

namespace Sys2Proof.Machine

theorem State.setCoef_keeps {z0 : State} (s : State) (b cls bank w v : Nat) (hk : Keeps z0 s) :
    Keeps z0 (State.setCoef s b cls bank w v) := by
  unfold State.setCoef
  repeat' (first
    | extract_lets | with_reducible assumption | with_reducible apply Keeps.refl | with_reducible apply True.intro
    | with_reducible apply KeepsO.getD | with_reducible apply Keeps.ite
    | (with_reducible apply Keeps.forEach; rotate_left; intro s a) | simp only [Keeps.mk_iff] | split
    | (dsimp +zetaDelta only))

theorem State.issueCode_keeps {z0 : State} (s : State) (l r code : Nat) (hk : Keeps z0 s) :
    Keeps z0 (State.issueCode s l r code) := by
  unfold State.issueCode
  repeat' (first
    | extract_lets | with_reducible assumption | with_reducible apply Keeps.refl | with_reducible apply True.intro
    | with_reducible apply State.setRing_keeps | with_reducible apply State.setCluster_keeps
    | with_reducible apply State.bump_keeps | with_reducible apply KeepsO.getD | with_reducible apply Keeps.ite
    | (with_reducible apply Keeps.forEach; rotate_left; intro s a) | simp only [Keeps.mk_iff] | split
    | (dsimp +zetaDelta only))

theorem State.zeroHold_keeps {z0 : State} (s : State) (l : Nat) (hk : Keeps z0 s) :
    Keeps z0 (State.zeroHold s l) := by
  unfold State.zeroHold
  repeat' (first
    | extract_lets | with_reducible assumption | with_reducible apply Keeps.refl | with_reducible apply True.intro
    | with_reducible apply State.issueCode_keeps | with_reducible apply KeepsO.getD | with_reducible apply Keeps.ite
    | (with_reducible apply Keeps.forEach; rotate_left; intro s a) | simp only [Keeps.mk_iff] | split
    | (dsimp +zetaDelta only))

theorem execSpanHoldEnd_keeps (q : Fin 16384) (s : State) : KeepsOut s (execSpanHoldEnd q s) := by
  have hk := Keeps.refl s
  unfold execSpanHoldEnd
  repeat' (first
    | extract_lets | with_reducible assumption | with_reducible apply Keeps.refl | with_reducible apply True.intro
    | with_reducible apply State.setCluster_keeps | with_reducible apply KeepsOut.mk
    | with_reducible apply KeepsOut.mkFault | with_reducible apply KeepsOut.mkRefused
    | with_reducible apply KeepsOut.ite | intro _ | with_reducible apply KeepsO.getD
    | with_reducible apply Keeps.ite | (with_reducible apply Keeps.forEach; rotate_left; intro s a)
    | simp only [Keeps.mk_iff] | split | (dsimp +zetaDelta only))

theorem execHeaterTick_keeps (q : Fin 16384) (s : State) : KeepsOut s (execHeaterTick q s) := by
  have hk := Keeps.refl s
  unfold execHeaterTick
  repeat' (first
    | extract_lets | with_reducible assumption | with_reducible apply Keeps.refl | with_reducible apply True.intro
    | with_reducible apply State.setCluster_keeps | with_reducible apply KeepsOut.mk
    | with_reducible apply KeepsOut.mkFault | with_reducible apply KeepsOut.mkRefused
    | with_reducible apply KeepsOut.ite | intro _ | with_reducible apply KeepsO.getD
    | with_reducible apply Keeps.ite | (with_reducible apply Keeps.forEach; rotate_left; intro s a)
    | simp only [Keeps.mk_iff] | split | (dsimp +zetaDelta only))

theorem State.clearHeaters_keeps {z0 : State} (s : State) (hk : Keeps z0 s) :
    Keeps z0 (State.clearHeaters s) := by
  unfold State.clearHeaters
  repeat' (first
    | extract_lets | with_reducible assumption | with_reducible apply Keeps.refl | with_reducible apply True.intro
    | with_reducible apply KeepsO.getD | with_reducible apply Keeps.ite
    | (with_reducible apply Keeps.forEach; rotate_left; intro s a) | simp only [Keeps.mk_iff] | split
    | (dsimp +zetaDelta only))

end Sys2Proof.Machine
end

