-- ==== Sys2Proof/Laws/KeepLoops.lean ====
section
/-! SUPPORT. What the definitions of Machine/Loops.lean keep (Keeps, Laws/Keep.lean). -/

set_option linter.all false

namespace Sys2Proof.Machine

theorem State.traceSample_keeps {z0 : State} (s : State) (l r : Nat) (v : Int) (hk : Keeps z0 s) :
    Keeps z0 (State.traceSample s l r v) := by
  unfold State.traceSample
  repeat' (first
    | extract_lets | with_reducible assumption | with_reducible apply Keeps.refl | with_reducible apply True.intro
    | with_reducible apply State.setTrace_keeps | with_reducible apply KeepsO.getD | with_reducible apply Keeps.ite
    | (with_reducible apply Keeps.forEach; rotate_left; intro s a) | simp only [Keeps.mk_iff] | split
    | (dsimp +zetaDelta only))

theorem State.trigTrace_keeps {z0 : State} (s : State) (i : Nat) (hk : Keeps z0 s) :
    Keeps z0 (State.trigTrace s i) := by
  unfold State.trigTrace
  repeat' (first
    | extract_lets | with_reducible assumption | with_reducible apply Keeps.refl | with_reducible apply True.intro
    | with_reducible apply State.setTrace_keeps | with_reducible apply KeepsO.getD | with_reducible apply Keeps.ite
    | (with_reducible apply Keeps.forEach; rotate_left; intro s a) | simp only [Keeps.mk_iff] | split
    | (dsimp +zetaDelta only))

theorem execTraceTrigger_keeps (p : Path) (b : Fin 4) (ch : Fin 4) (s : State) : KeepsOut s (execTraceTrigger p b ch s) := by
  have hk := Keeps.refl s
  unfold execTraceTrigger
  repeat' (first
    | extract_lets | with_reducible assumption | with_reducible apply Keeps.refl | with_reducible apply True.intro
    | with_reducible apply State.holdWrite_keeps | with_reducible apply State.trigTrace_keeps
    | with_reducible apply KeepsOut.mk | with_reducible apply KeepsOut.mkFault
    | with_reducible apply KeepsOut.mkRefused | with_reducible apply KeepsOut.ite | intro _
    | with_reducible apply KeepsO.getD | with_reducible apply Keeps.ite
    | (with_reducible apply Keeps.forEach; rotate_left; intro s a) | simp only [Keeps.mk_iff] | split
    | (dsimp +zetaDelta only))

theorem State.settle_keeps {z0 : State} (s : State) (l : Nat) (hk : Keeps z0 s) :
    Keeps z0 (State.settle s l) := by
  unfold State.settle
  repeat' (first
    | extract_lets | with_reducible assumption | with_reducible apply Keeps.refl | with_reducible apply True.intro
    | with_reducible apply State.clearCause_keeps | with_reducible apply State.wrongLine_keeps
    | with_reducible apply State.excursion_keeps | with_reducible apply KeepsO.getD | with_reducible apply Keeps.ite
    | (with_reducible apply Keeps.forEach; rotate_left; intro s a) | simp only [Keeps.mk_iff] | split
    | (dsimp +zetaDelta only))

theorem State.excursion_keeps {z0 : State} (s : State) (l r t0 : Nat) (hk : Keeps z0 s) :
    Keeps z0 (State.excursion s l r t0) := by
  unfold State.excursion
  repeat' (first
    | extract_lets | with_reducible assumption | with_reducible apply Keeps.refl | with_reducible apply True.intro
    | with_reducible apply State.bump_keeps | with_reducible apply State.traceHit_keeps
    | with_reducible apply State.setRing_keeps | with_reducible apply State.modLat_keeps
    | with_reducible apply State.raiseCause_keeps | with_reducible apply KeepsO.getD
    | with_reducible apply Keeps.ite | (with_reducible apply Keeps.forEach; rotate_left; intro s a)
    | simp only [Keeps.mk_iff] | split | (dsimp +zetaDelta only))

theorem State.tryClearRise_keeps {z0 : State} (s : State) (l : Nat) (hk : Keeps z0 s) :
    Keeps z0 (State.tryClearRise s l) := by
  unfold State.tryClearRise
  repeat' (first
    | extract_lets | with_reducible assumption | with_reducible apply Keeps.refl | with_reducible apply True.intro
    | with_reducible apply State.clearCause_keeps | with_reducible apply KeepsO.getD
    | with_reducible apply Keeps.ite | (with_reducible apply Keeps.forEach; rotate_left; intro s a)
    | simp only [Keeps.mk_iff] | split | (dsimp +zetaDelta only))

theorem State.spanMove_keeps {z0 : State} (s : State) (l r : Nat) (u : Int) (hk : Keeps z0 s) :
    Keeps z0 (State.spanMove s l r u) := by
  unfold State.spanMove
  repeat' (first
    | extract_lets | with_reducible assumption | with_reducible apply Keeps.refl | with_reducible apply True.intro
    | with_reducible apply State.setCluster_keeps | with_reducible apply State.bump_keeps
    | with_reducible apply State.excursion_keeps | with_reducible apply KeepsO.getD | with_reducible apply Keeps.ite
    | (with_reducible apply Keeps.forEach; rotate_left; intro s a) | simp only [Keeps.mk_iff] | split
    | (dsimp +zetaDelta only))

theorem State.innerVisit_keeps {z0 : State} (s : State) (l r : Nat) (hk : Keeps z0 s) :
    Keeps z0 (State.innerVisit s l r) := by
  unfold State.innerVisit
  repeat' (first
    | extract_lets | with_reducible assumption | with_reducible apply Keeps.refl | with_reducible apply True.intro
    | with_reducible apply State.setRing_keeps | with_reducible apply State.spanMove_keeps
    | with_reducible apply State.issueCode_keeps | with_reducible apply State.traceSample_keeps
    | with_reducible apply State.tryClearRise_keeps | with_reducible apply KeepsO.getD
    | with_reducible apply Keeps.ite | (with_reducible apply Keeps.forEach; rotate_left; intro s a)
    | simp only [Keeps.mk_iff] | split | (dsimp +zetaDelta only))

theorem execInnerLoopVisit_keeps (l : Fin 8) (r : Fin 131072) (s : State) : KeepsOut s (execInnerLoopVisit l r s) := by
  have hk := Keeps.refl s
  unfold execInnerLoopVisit
  repeat' (first
    | extract_lets | with_reducible assumption | with_reducible apply Keeps.refl | with_reducible apply True.intro
    | with_reducible apply State.innerVisit_keeps | with_reducible apply KeepsOut.mk
    | with_reducible apply KeepsOut.mkFault | with_reducible apply KeepsOut.mkRefused
    | with_reducible apply KeepsOut.ite | intro _ | with_reducible apply KeepsO.getD
    | with_reducible apply Keeps.ite | (with_reducible apply Keeps.forEach; rotate_left; intro s a)
    | simp only [Keeps.mk_iff] | split | (dsimp +zetaDelta only))

theorem execFeedforwardVisit_keeps (l : Fin 8) (r : Fin 131072) (deltaT : Int) (s : State) : KeepsOut s (execFeedforwardVisit l r deltaT s) := by
  have hk := Keeps.refl s
  unfold execFeedforwardVisit
  repeat' (first
    | extract_lets | with_reducible assumption | with_reducible apply Keeps.refl | with_reducible apply True.intro
    | with_reducible apply State.setRing_keeps | with_reducible apply State.issueCode_keeps
    | with_reducible apply KeepsOut.mk | with_reducible apply KeepsOut.mkFault
    | with_reducible apply KeepsOut.mkRefused | with_reducible apply KeepsOut.ite | intro _
    | with_reducible apply KeepsO.getD | with_reducible apply Keeps.ite
    | (with_reducible apply Keeps.forEach; rotate_left; intro s a) | simp only [Keeps.mk_iff] | split
    | (dsimp +zetaDelta only))

theorem State.foldBay_keeps {z0 : State} (s : State) (b : Nat) (hk : Keeps z0 s) :
    Keeps z0 (State.foldBay s b) := by
  unfold State.foldBay
  repeat' (first
    | extract_lets | with_reducible assumption | with_reducible apply Keeps.refl | with_reducible apply True.intro
    | with_reducible apply KeepsO.getD | with_reducible apply Keeps.ite
    | (with_reducible apply Keeps.forEach; rotate_left; intro s a) | simp only [Keeps.mk_iff] | split
    | (dsimp +zetaDelta only))

theorem State.bankSwap_keeps {z0 : State} (s : State) (b v : Nat) (hk : Keeps z0 s) :
    Keeps z0 (State.bankSwap s b v) := by
  unfold State.bankSwap
  repeat' (first
    | extract_lets | with_reducible assumption | with_reducible apply Keeps.refl | with_reducible apply True.intro
    | with_reducible apply State.event_keeps | with_reducible apply State.setFld_keeps
    | with_reducible apply State.modBay_keeps | with_reducible apply KeepsO.getD | with_reducible apply Keeps.ite
    | (with_reducible apply Keeps.forEach; rotate_left; intro s a) | simp only [Keeps.mk_iff] | split
    | (dsimp +zetaDelta only))

theorem execBankSwap_keeps (p : Path) (b : Fin 4) (v : Word) (s : State) : KeepsOut s (execBankSwap p b v s) := by
  have hk := Keeps.refl s
  unfold execBankSwap
  repeat' (first
    | extract_lets | with_reducible assumption | with_reducible apply Keeps.refl | with_reducible apply True.intro
    | with_reducible apply State.holdWrite_keeps | with_reducible apply State.bankSwap_keeps
    | with_reducible apply KeepsOut.mk | with_reducible apply KeepsOut.mkFault
    | with_reducible apply KeepsOut.mkRefused | with_reducible apply KeepsOut.ite | intro _
    | with_reducible apply KeepsO.getD | with_reducible apply Keeps.ite
    | (with_reducible apply Keeps.forEach; rotate_left; intro s a) | simp only [Keeps.mk_iff] | split
    | (dsimp +zetaDelta only))

end Sys2Proof.Machine
end

