-- ==== Sys2Proof/Laws/KeepOptics.lean ====
section
/-! SUPPORT. What the definitions of Machine/Optics.lean keep (Keeps, Laws/Keep.lean). -/

set_option linter.all false

namespace Sys2Proof.Machine

theorem execCombRetry_keeps (h : Fin 10) (s : State) : KeepsOut s (execCombRetry h s) := by
  have hk := Keeps.refl s
  unfold execCombRetry
  repeat' (first
    | extract_lets | with_reducible assumption | with_reducible apply Keeps.refl | with_reducible apply True.intro
    | with_reducible apply State.startComb_keeps | with_reducible apply KeepsOut.mk
    | with_reducible apply KeepsOut.mkFault | with_reducible apply KeepsOut.mkRefused
    | with_reducible apply KeepsOut.ite | intro _ | with_reducible apply KeepsO.getD
    | with_reducible apply Keeps.ite | (with_reducible apply Keeps.forEach; rotate_left; intro s a)
    | simp only [Keeps.mk_iff] | split | (dsimp +zetaDelta only))

theorem State.lineDrop_keeps {z0 : State} (s : State) (h t0 : Nat) (hk : Keeps z0 s) :
    Keeps z0 (State.lineDrop s h t0) := by
  unfold State.lineDrop
  repeat' (first
    | extract_lets | with_reducible assumption | with_reducible apply Keeps.refl | with_reducible apply True.intro
    | with_reducible apply State.modComb_keeps | with_reducible apply State.bump_keeps
    | with_reducible apply State.raiseCause_keeps | with_reducible apply KeepsO.getD
    | with_reducible apply Keeps.ite | (with_reducible apply Keeps.forEach; rotate_left; intro s a)
    | simp only [Keeps.mk_iff] | split | (dsimp +zetaDelta only))

theorem execLinePowerComparator_keeps (h : Fin 10) (s : State) : KeepsOut s (execLinePowerComparator h s) := by
  have hk := Keeps.refl s
  unfold execLinePowerComparator
  repeat' (first
    | extract_lets | with_reducible assumption | with_reducible apply Keeps.refl | with_reducible apply True.intro
    | with_reducible apply State.lineDrop_keeps | with_reducible apply KeepsOut.mk
    | with_reducible apply KeepsOut.mkFault | with_reducible apply KeepsOut.mkRefused
    | with_reducible apply KeepsOut.ite | intro _ | with_reducible apply KeepsO.getD
    | with_reducible apply Keeps.ite | (with_reducible apply Keeps.forEach; rotate_left; intro s a)
    | simp only [Keeps.mk_iff] | split | (dsimp +zetaDelta only))

theorem execLinePowerSample_keeps (h : Fin 10) (powers : List Int) (s : State) : KeepsOut s (execLinePowerSample h powers s) := by
  have hk := Keeps.refl s
  unfold execLinePowerSample
  repeat' (first
    | extract_lets | with_reducible assumption | with_reducible apply Keeps.refl | with_reducible apply True.intro
    | with_reducible apply State.modComb_keeps | with_reducible apply State.lineDrop_keeps
    | with_reducible apply State.clearCause_keeps | with_reducible apply State.replicate_keeps
    | with_reducible refine State.replicate_keeps_some (w := by assumption) (hk := ?_) ..
    | with_reducible apply KeepsOut.mk | with_reducible apply KeepsOut.mkFault
    | with_reducible apply KeepsOut.mkRefused | with_reducible apply KeepsOut.ite | intro _
    | with_reducible apply KeepsO.getD | with_reducible apply Keeps.ite
    | (with_reducible apply Keeps.forEach; rotate_left; intro s a) | simp only [Keeps.mk_iff] | split
    | (dsimp +zetaDelta only))

theorem execBiasReevaluation_keeps (h : Fin 10) (weakest : Int) (bias : Nat) (after : Int) (s : State) : KeepsOut s (execBiasReevaluation h weakest bias after s) := by
  have hk := Keeps.refl s
  unfold execBiasReevaluation
  repeat' (first
    | extract_lets | with_reducible assumption | with_reducible apply Keeps.refl | with_reducible apply True.intro
    | with_reducible apply State.journal_keeps | with_reducible apply State.modComb_keeps
    | with_reducible apply State.setBias_keeps | with_reducible apply State.lineDrop_keeps
    | with_reducible apply KeepsOut.mk | with_reducible apply KeepsOut.mkFault
    | with_reducible apply KeepsOut.mkRefused | with_reducible apply KeepsOut.ite | intro _
    | with_reducible apply KeepsO.getD | with_reducible apply Keeps.ite
    | (with_reducible apply Keeps.forEach; rotate_left; intro s a) | simp only [Keeps.mk_iff] | split
    | (dsimp +zetaDelta only))

theorem State.buryRing_keeps {z0 : State} (s : State) (l r kind : Nat) (park : Option Nat) (hk : Keeps z0 s) :
    Keeps z0 (State.buryRing s l r kind park) := by
  unfold State.buryRing
  repeat' (first
    | extract_lets | with_reducible assumption | with_reducible apply Keeps.refl | with_reducible apply True.intro
    | with_reducible apply State.drawn_keeps | with_reducible apply State.modLat_keeps
    | with_reducible apply State.setRing_keeps | with_reducible apply State.excursion_keeps
    | with_reducible apply State.issueCode_keeps | with_reducible apply KeepsO.getD | with_reducible apply Keeps.ite
    | (with_reducible apply Keeps.forEach; rotate_left; intro s a) | simp only [Keeps.mk_iff] | split
    | (dsimp +zetaDelta only))

theorem State.declareDead_keeps {z0 : State} (s : State) (l r kind : Nat) (park : Option Nat) (hk : Keeps z0 s) :
    Keeps z0 (State.declareDead s l r kind park) := by
  unfold State.declareDead
  repeat' (first
    | extract_lets | with_reducible assumption | with_reducible apply Keeps.refl | with_reducible apply True.intro
    | with_reducible apply State.buryRing_keeps | with_reducible apply State.bump_keeps
    | with_reducible apply State.event_keeps | with_reducible apply State.settle_keeps
    | with_reducible apply State.fenceLattice_keeps | with_reducible apply KeepsO.getD
    | with_reducible apply Keeps.ite | (with_reducible apply Keeps.forEach; rotate_left; intro s a)
    | simp only [Keeps.mk_iff] | split | (dsimp +zetaDelta only))

theorem State.lockRing_keeps {z0 : State} (s : State) (l r : Nat) (hk : Keeps z0 s) :
    Keeps z0 (State.lockRing s l r) := by
  unfold State.lockRing
  repeat' (first
    | extract_lets | with_reducible assumption | with_reducible apply Keeps.refl | with_reducible apply True.intro
    | with_reducible apply State.drawn_keeps | with_reducible apply State.setRing_keeps
    | with_reducible apply KeepsO.getD | with_reducible apply Keeps.ite
    | (with_reducible apply Keeps.forEach; rotate_left; intro s a) | simp only [Keeps.mk_iff] | split
    | (dsimp +zetaDelta only))

theorem State.rampOn_keeps {z0 : State} (s : State) (l r drop : Nat) (hk : Keeps z0 s) :
    Keeps z0 (State.rampOn s l r drop) := by
  unfold State.rampOn
  repeat' (first
    | extract_lets | with_reducible assumption | with_reducible apply Keeps.refl | with_reducible apply True.intro
    | with_reducible apply State.setRing_keeps | with_reducible apply State.issueCode_keeps
    | with_reducible apply KeepsO.getD | with_reducible apply Keeps.ite
    | (with_reducible apply Keeps.forEach; rotate_left; intro s a) | simp only [Keeps.mk_iff] | split
    | (dsimp +zetaDelta only))

theorem State.rampStop_keeps {z0 : State} (s : State) (l r : Nat) (hk : Keeps z0 s) :
    Keeps z0 (State.rampStop s l r) := by
  unfold State.rampStop
  repeat' (first
    | extract_lets | with_reducible assumption | with_reducible apply Keeps.refl | with_reducible apply True.intro
    | with_reducible apply State.setRing_keeps | with_reducible apply State.issueCode_keeps
    | with_reducible apply KeepsO.getD | with_reducible apply Keeps.ite
    | (with_reducible apply Keeps.forEach; rotate_left; intro s a) | simp only [Keeps.mk_iff] | split
    | (dsimp +zetaDelta only))

theorem execSearchRampVisit_keeps (l : Fin 8) (r : Fin 131072) (drop : BitVec 14) (s : State) : KeepsOut s (execSearchRampVisit l r drop s) := by
  have hk := Keeps.refl s
  unfold execSearchRampVisit
  repeat' (first
    | extract_lets | with_reducible assumption | with_reducible apply Keeps.refl | with_reducible apply True.intro
    | with_reducible apply State.setRing_keeps | with_reducible apply State.rampOn_keeps
    | with_reducible apply State.rampStop_keeps | with_reducible apply State.declareDead_keeps
    | with_reducible apply KeepsOut.mk | with_reducible apply KeepsOut.mkFault
    | with_reducible apply KeepsOut.mkRefused | with_reducible apply KeepsOut.ite | intro _
    | with_reducible apply KeepsO.getD | with_reducible apply Keeps.ite
    | (with_reducible apply Keeps.forEach; rotate_left; intro s a) | simp only [Keeps.mk_iff] | split
    | (dsimp +zetaDelta only))

theorem execIdentityFrame_keeps (l : Fin 8) (r : Fin 131072) (samples : Vector (BitVec 14) 12) (s : State) : KeepsOut s (execIdentityFrame l r samples s) := by
  have hk := Keeps.refl s
  unfold execIdentityFrame
  repeat' (first
    | extract_lets | with_reducible assumption | with_reducible apply Keeps.refl | with_reducible apply True.intro
    | with_reducible apply State.drawn_keeps | with_reducible apply State.lockRing_keeps
    | with_reducible apply State.declareDead_keeps | with_reducible apply State.setRing_keeps
    | with_reducible apply KeepsOut.mk | with_reducible apply KeepsOut.mkFault
    | with_reducible apply KeepsOut.mkRefused | with_reducible apply KeepsOut.ite | intro _
    | with_reducible apply KeepsO.getD | with_reducible apply Keeps.ite
    | (with_reducible apply Keeps.forEach; rotate_left; intro s a) | simp only [Keeps.mk_iff] | split
    | (dsimp +zetaDelta only))

theorem execSearchComplete_keeps (l : Fin 8) (s : State) : KeepsOut s (execSearchComplete l s) := by
  have hk := Keeps.refl s
  unfold execSearchComplete
  repeat' (first
    | extract_lets | with_reducible assumption | with_reducible apply Keeps.refl | with_reducible apply True.intro
    | with_reducible apply State.setLat_keeps | with_reducible apply State.fenceLattice_keeps
    | with_reducible apply State.enterLat_keeps | with_reducible apply State.zeroHold_keeps
    | with_reducible apply State.chooseSpans_keeps | with_reducible apply State.follow_keeps
    | with_reducible apply KeepsOut.mk | with_reducible apply KeepsOut.mkFault
    | with_reducible apply KeepsOut.mkRefused | with_reducible apply KeepsOut.ite | intro _
    | with_reducible apply KeepsO.getD | with_reducible apply Keeps.ite
    | (with_reducible apply Keeps.forEach; rotate_left; intro s a) | simp only [Keeps.mk_iff] | split
    | (dsimp +zetaDelta only))

theorem execSearchTimeout_keeps (l : Fin 8) (s : State) : KeepsOut s (execSearchTimeout l s) := by
  have hk := Keeps.refl s
  unfold execSearchTimeout
  repeat' (first
    | extract_lets | with_reducible assumption | with_reducible apply Keeps.refl | with_reducible apply True.intro
    | with_reducible apply State.fenceLattice_keeps | with_reducible apply KeepsOut.mk
    | with_reducible apply KeepsOut.mkFault | with_reducible apply KeepsOut.mkRefused
    | with_reducible apply KeepsOut.ite | intro _ | with_reducible apply KeepsO.getD
    | with_reducible apply Keeps.ite | (with_reducible apply Keeps.forEach; rotate_left; intro s a)
    | simp only [Keeps.mk_iff] | split | (dsimp +zetaDelta only))

theorem execIdentityRoundDue_keeps (l : Fin 8) (s : State) : KeepsOut s (execIdentityRoundDue l s) := by
  have hk := Keeps.refl s
  unfold execIdentityRoundDue
  repeat' (first
    | extract_lets | with_reducible assumption | with_reducible apply Keeps.refl | with_reducible apply True.intro
    | with_reducible apply State.modLat_keeps | with_reducible apply KeepsOut.mk
    | with_reducible apply KeepsOut.mkFault | with_reducible apply KeepsOut.mkRefused
    | with_reducible apply KeepsOut.ite | intro _ | with_reducible apply KeepsO.getD
    | with_reducible apply Keeps.ite | (with_reducible apply Keeps.forEach; rotate_left; intro s a)
    | simp only [Keeps.mk_iff] | split | (dsimp +zetaDelta only))

theorem State.relock_keeps {z0 : State} (s : State) (l r : Nat) (hk : Keeps z0 s) :
    Keeps z0 (State.relock s l r) := by
  unfold State.relock
  repeat' (first
    | extract_lets | with_reducible assumption | with_reducible apply Keeps.refl | with_reducible apply True.intro
    | with_reducible apply State.setRing_keeps | with_reducible apply State.excursion_keeps
    | with_reducible apply State.issueCode_keeps | with_reducible apply KeepsO.getD | with_reducible apply Keeps.ite
    | (with_reducible apply Keeps.forEach; rotate_left; intro s a) | simp only [Keeps.mk_iff] | split
    | (dsimp +zetaDelta only))

theorem State.wrongLine_keeps {z0 : State} (s : State) (l r t0 : Nat) (hk : Keeps z0 s) :
    Keeps z0 (State.wrongLine s l r t0) := by
  unfold State.wrongLine
  repeat' (first
    | extract_lets | with_reducible assumption | with_reducible apply Keeps.refl | with_reducible apply True.intro
    | with_reducible apply State.event_keeps | with_reducible apply State.bump_keeps
    | with_reducible apply State.setRing_keeps | with_reducible apply State.raiseCause_keeps
    | with_reducible apply State.excursion_keeps | with_reducible apply State.declareDead_keeps
    | with_reducible apply State.relock_keeps | with_reducible apply KeepsO.getD | with_reducible apply Keeps.ite
    | (with_reducible apply Keeps.forEach; rotate_left; intro s a) | simp only [Keeps.mk_iff] | split
    | (dsimp +zetaDelta only))

theorem State.checkRing_keeps {z0 : State} (s : State) (l t0 : Nat) (readings : List (Nat × Int)) (lines : List (Nat × Nat)) (r : Nat) (hk : Keeps z0 s) :
    Keeps z0 (State.checkRing s l t0 readings lines r) := by
  unfold State.checkRing
  repeat' (first
    | extract_lets | with_reducible assumption | with_reducible apply Keeps.refl | with_reducible apply True.intro
    | with_reducible apply State.wrongLine_keeps | with_reducible apply State.setRing_keeps
    | with_reducible apply State.excursion_keeps | with_reducible apply State.lockRing_keeps
    | with_reducible apply State.declareDead_keeps | with_reducible apply KeepsO.getD
    | with_reducible apply Keeps.ite | (with_reducible apply Keeps.forEach; rotate_left; intro s a)
    | simp only [Keeps.mk_iff] | split | (dsimp +zetaDelta only))

theorem execIdentityRoundComplete_keeps (l : Fin 8) (readings : List (Nat × Int)) (lines : List (Nat × Nat)) (s : State) : KeepsOut s (execIdentityRoundComplete l readings lines s) := by
  have hk := Keeps.refl s
  unfold execIdentityRoundComplete
  repeat' (first
    | extract_lets | with_reducible assumption | with_reducible apply Keeps.refl | with_reducible apply True.intro
    | with_reducible apply State.checkRing_keeps | with_reducible apply State.modLat_keeps
    | with_reducible apply State.settle_keeps | with_reducible apply State.tryEndUpset_keeps
    | with_reducible apply KeepsOut.mk | with_reducible apply KeepsOut.mkFault
    | with_reducible apply KeepsOut.mkRefused | with_reducible apply KeepsOut.ite | intro _
    | with_reducible apply KeepsO.getD | with_reducible apply Keeps.ite
    | (with_reducible apply Keeps.forEach; rotate_left; intro s a) | simp only [Keeps.mk_iff] | split
    | (dsimp +zetaDelta only))

theorem execRelockRampStep_keeps (l : Fin 8) (r : Fin 131072) (drop : BitVec 14) (s : State) : KeepsOut s (execRelockRampStep l r drop s) := by
  have hk := Keeps.refl s
  unfold execRelockRampStep
  repeat' (first
    | extract_lets | with_reducible assumption | with_reducible apply Keeps.refl | with_reducible apply True.intro
    | with_reducible apply State.rampStop_keeps | with_reducible apply State.modLat_keeps
    | with_reducible apply State.declareDead_keeps | with_reducible apply State.rampOn_keeps
    | with_reducible apply KeepsOut.mk | with_reducible apply KeepsOut.mkFault
    | with_reducible apply KeepsOut.mkRefused | with_reducible apply KeepsOut.ite | intro _
    | with_reducible apply KeepsO.getD | with_reducible apply Keeps.ite
    | (with_reducible apply Keeps.forEach; rotate_left; intro s a) | simp only [Keeps.mk_iff] | split
    | (dsimp +zetaDelta only))

theorem execRelockTimeout_keeps (l : Fin 8) (r : Fin 131072) (s : State) : KeepsOut s (execRelockTimeout l r s) := by
  have hk := Keeps.refl s
  unfold execRelockTimeout
  repeat' (first
    | extract_lets | with_reducible assumption | with_reducible apply Keeps.refl | with_reducible apply True.intro
    | with_reducible apply State.declareDead_keeps | with_reducible apply KeepsOut.mk
    | with_reducible apply KeepsOut.mkFault | with_reducible apply KeepsOut.mkRefused
    | with_reducible apply KeepsOut.ite | intro _ | with_reducible apply KeepsO.getD
    | with_reducible apply Keeps.ite | (with_reducible apply Keeps.forEach; rotate_left; intro s a)
    | simp only [Keeps.mk_iff] | split | (dsimp +zetaDelta only))

end Sys2Proof.Machine
end

