-- ==== Sys2Proof/Laws/KeepMonitors.lean ====
section
/-! SUPPORT. What the definitions of Machine/Monitors.lean keep (Keeps, Laws/Keep.lean). -/

set_option linter.all false

namespace Sys2Proof.Machine

theorem State.receiveErr_keeps {z0 : State} (s : State) (l r : Nat) (e : Int) (mask : Bool) (hk : Keeps z0 s) :
    Keeps z0 (State.receiveErr s l r e mask) := by
  unfold State.receiveErr
  repeat' (first
    | extract_lets | with_reducible assumption | with_reducible apply Keeps.refl | with_reducible apply True.intro
    | with_reducible apply State.setRing_keeps | with_reducible apply State.excursion_keeps
    | with_reducible apply KeepsO.getD | with_reducible apply Keeps.ite
    | (with_reducible apply Keeps.forEach; rotate_left; intro s a) | simp only [Keeps.mk_iff] | split
    | (dsimp +zetaDelta only))

theorem State.heaterFault_keeps {z0 : State} (s : State) (l r fault t0 : Nat) (hk : Keeps z0 s) :
    Keeps z0 (State.heaterFault s l r fault t0) := by
  unfold State.heaterFault
  repeat' (first
    | extract_lets | with_reducible assumption | with_reducible apply Keeps.refl | with_reducible apply True.intro
    | with_reducible apply State.setRing_keeps | with_reducible apply State.bump_keeps
    | with_reducible apply State.raiseCause_keeps | with_reducible apply State.excursion_keeps
    | with_reducible apply State.declareDead_keeps | with_reducible apply KeepsO.getD
    | with_reducible apply Keeps.ite | (with_reducible apply Keeps.forEach; rotate_left; intro s a)
    | simp only [Keeps.mk_iff] | split | (dsimp +zetaDelta only))

theorem State.readBack_keeps {z0 : State} (s : State) (l r : Nat) (p : Int) (limit : Bool) (hk : Keeps z0 s) :
    Keeps z0 (State.readBack s l r p limit) := by
  unfold State.readBack
  repeat' (first
    | extract_lets | with_reducible assumption | with_reducible apply Keeps.refl | with_reducible apply True.intro
    | with_reducible apply State.setRing_keeps | with_reducible apply State.heaterFault_keeps
    | with_reducible apply KeepsO.getD | with_reducible apply Keeps.ite
    | (with_reducible apply Keeps.forEach; rotate_left; intro s a) | simp only [Keeps.mk_iff] | split
    | (dsimp +zetaDelta only))

theorem State.dropReqs_keeps {z0 : State} (s : State) (k n : Nat) (hk : Keeps z0 s) :
    Keeps z0 (State.dropReqs s k n) := by
  unfold State.dropReqs
  repeat' (first
    | extract_lets | with_reducible assumption | with_reducible apply Keeps.refl | with_reducible apply True.intro
    | with_reducible apply State.setConv_keeps | with_reducible apply KeepsO.getD | with_reducible apply Keeps.ite
    | (with_reducible apply Keeps.forEach; rotate_left; intro s a) | simp only [Keeps.mk_iff] | split
    | (dsimp +zetaDelta only))

theorem execMonitorConversion_keeps (k : Fin 1024) (slot : MonSlot) (s : State) : KeepsOut s (execMonitorConversion k slot s) := by
  have hk := Keeps.refl s
  unfold execMonitorConversion
  repeat' (first
    | extract_lets | with_reducible assumption | with_reducible apply Keeps.refl | with_reducible apply True.intro
    | with_reducible apply State.readBack_keeps | with_reducible apply State.dropReqs_keeps
    | with_reducible apply State.receiveErr_keeps | with_reducible apply State.heaterFault_keeps
    | with_reducible apply State.setConv_keeps | with_reducible apply State.event_keeps
    | with_reducible apply KeepsOut.mk | with_reducible apply KeepsOut.mkFault
    | with_reducible apply KeepsOut.mkRefused | with_reducible apply KeepsOut.ite | intro _
    | with_reducible apply KeepsO.getD | with_reducible apply Keeps.ite
    | (with_reducible apply Keeps.forEach; rotate_left; intro s a) | simp only [Keeps.mk_iff] | split
    | (dsimp +zetaDelta only))

theorem State.writeMonTest_keeps {z0 : State} (s : State) (p : Path) (b v : Nat) (hk : Keeps z0 s) :
    Keeps z0 (State.writeMonTest s p b v) := by
  unfold State.writeMonTest
  repeat' (first
    | extract_lets | with_reducible assumption | with_reducible apply Keeps.refl | with_reducible apply True.intro
    | with_reducible apply State.refuse_keeps | with_reducible apply State.setFld_keeps
    | with_reducible apply State.setFldAt_keeps | with_reducible apply State.modBay_keeps
    | with_reducible apply KeepsO.getD | with_reducible apply Keeps.ite
    | (with_reducible apply Keeps.forEach; rotate_left; intro s a) | simp only [Keeps.mk_iff] | split
    | (dsimp +zetaDelta only))

theorem execMonTestCont_keeps (p : Path) (b : Fin 4) (v : Word) (s : State) : KeepsOut s (execMonTestCont p b v s) := by
  have hk := Keeps.refl s
  unfold execMonTestCont
  repeat' (first
    | extract_lets | with_reducible assumption | with_reducible apply Keeps.refl | with_reducible apply True.intro
    | with_reducible apply State.holdWrite_keeps | with_reducible apply State.writeMonTest_keeps
    | with_reducible apply KeepsOut.mk | with_reducible apply KeepsOut.mkFault
    | with_reducible apply KeepsOut.mkRefused | with_reducible apply KeepsOut.ite | intro _
    | with_reducible apply KeepsO.getD | with_reducible apply Keeps.ite
    | (with_reducible apply Keeps.forEach; rotate_left; intro s a) | simp only [Keeps.mk_iff] | split
    | (dsimp +zetaDelta only))

theorem State.proofTrim_keeps {z : State} (s : State) (b : Nat) (e : Nat × BitVec 16) (hk : Keeps z s) : Keeps z (s.proofTrim b e).1 := by
  unfold State.proofTrim
  repeat' (first
    | extract_lets | with_reducible assumption | with_reducible apply Keeps.refl | with_reducible apply True.intro
    | with_reducible apply State.bump_keeps | with_reducible apply State.setRing_keeps
    | with_reducible apply State.drawn_keeps | with_reducible apply State.issueCode_keeps
    | with_reducible apply KeepsO.getD | with_reducible apply Keeps.ite
    | (with_reducible apply Keeps.forEach; rotate_left; intro s a) | simp only [Keeps.mk_iff] | split
    | (dsimp +zetaDelta only))

theorem State.proofTrim_keeps_eq {z : State} (s : State) (b : Nat) (e : Nat × BitVec 16) {q} (hk : Keeps z s) (w : s.proofTrim b e = q) : Keeps z q.1 := by
  subst w; exact State.proofTrim_keeps (hk := hk) ..

theorem execProofSlice_keeps (b : Fin 4) (errs : List (Nat × BitVec 16)) (s : State) : KeepsOut s (execProofSlice b errs s) := by
  have hk := Keeps.refl s
  unfold execProofSlice
  repeat' (first
    | extract_lets | with_reducible assumption | with_reducible apply Keeps.refl | with_reducible apply True.intro
    | with_reducible apply State.bump_keeps | with_reducible apply State.modBay_keeps
    | with_reducible apply State.proofTrim_keeps
    | with_reducible refine State.proofTrim_keeps_eq (w := by assumption) (hk := ?_) ..
    | with_reducible apply KeepsOut.mk | with_reducible apply KeepsOut.mkFault
    | with_reducible apply KeepsOut.mkRefused | with_reducible apply KeepsOut.ite | intro _
    | with_reducible apply KeepsO.getD | with_reducible apply Keeps.ite
    | (with_reducible apply Keeps.forEach; rotate_left; intro s a)
    | ((with_reducible apply Keeps.foldl) <;> [(intro r a); skip]) | simp only [Keeps.mk_iff] | split
    | (dsimp +zetaDelta only))

end Sys2Proof.Machine
end

