-- ==== Sys2Proof/Laws/KeepCalibration.lean ====
section
/-! SUPPORT. What the definitions of Machine/Calibration.lean keep (Keeps, Laws/Keep.lean). -/

set_option linter.all false

namespace Sys2Proof.Machine

theorem State.correct_keeps {z0 : State} (s : State) (l : Nat) (t : Int) (factory : Bool) (hk : Keeps z0 s) :
    Keeps z0 (State.correct s l t factory) := by
  unfold State.correct
  repeat' (first
    | extract_lets | with_reducible assumption | with_reducible apply Keeps.refl | with_reducible apply True.intro
    | with_reducible apply State.setLat_keeps | with_reducible apply State.bump_keeps
    | with_reducible apply State.setFld_keeps | with_reducible apply KeepsO.getD | with_reducible apply Keeps.ite
    | (with_reducible apply Keeps.forEach; rotate_left; intro s a) | simp only [Keeps.mk_iff] | split
    | (dsimp +zetaDelta only))

theorem State.takeTrims_keeps {z0 : State} (s : State) (l : Nat) (hk : Keeps z0 s) :
    Keeps z0 (State.takeTrims s l) := by
  unfold State.takeTrims
  repeat' (first
    | extract_lets | with_reducible assumption | with_reducible apply Keeps.refl | with_reducible apply True.intro
    | with_reducible apply State.correct_keeps | with_reducible apply KeepsO.getD | with_reducible apply Keeps.ite
    | (with_reducible apply Keeps.forEach; rotate_left; intro s a) | simp only [Keeps.mk_iff] | split
    | (dsimp +zetaDelta only))

theorem State.retune_keeps {z0 : State} (s : State) (l : Nat) (force : Bool) (hk : Keeps z0 s) :
    Keeps z0 (State.retune s l force) := by
  unfold State.retune
  repeat' (first
    | extract_lets | with_reducible assumption | with_reducible apply Keeps.refl | with_reducible apply True.intro
    | with_reducible apply State.correct_keeps | with_reducible apply State.takeTrims_keeps
    | with_reducible apply KeepsO.getD | with_reducible apply Keeps.ite
    | (with_reducible apply Keeps.forEach; rotate_left; intro s a) | simp only [Keeps.mk_iff] | split
    | (dsimp +zetaDelta only))

theorem execRampStep_keeps (l : Fin 8) (s : State) : KeepsOut s (execRampStep l s) := by
  have hk := Keeps.refl s
  unfold execRampStep
  repeat' (first
    | extract_lets | with_reducible assumption | with_reducible apply Keeps.refl | with_reducible apply True.intro
    | with_reducible apply State.setFld_keeps | with_reducible apply State.setLat_keeps
    | with_reducible apply KeepsOut.mk | with_reducible apply KeepsOut.mkFault
    | with_reducible apply KeepsOut.mkRefused | with_reducible apply KeepsOut.ite | intro _
    | with_reducible apply KeepsO.getD | with_reducible apply Keeps.ite
    | (with_reducible apply Keeps.forEach; rotate_left; intro s a) | simp only [Keeps.mk_iff] | split
    | (dsimp +zetaDelta only))

theorem execResidualPublish_keeps (l : Fin 8) (rms bias : BitVec 16) (s : State) : KeepsOut s (execResidualPublish l rms bias s) := by
  have hk := Keeps.refl s
  unfold execResidualPublish
  repeat' (first
    | extract_lets | with_reducible assumption | with_reducible apply Keeps.refl | with_reducible apply True.intro
    | with_reducible apply State.setFld_keeps | with_reducible apply State.raise_keeps
    | with_reducible apply State.startEpisode_keeps | with_reducible apply KeepsOut.mk
    | with_reducible apply KeepsOut.mkFault | with_reducible apply KeepsOut.mkRefused
    | with_reducible apply KeepsOut.ite | intro _ | with_reducible apply KeepsO.getD
    | with_reducible apply Keeps.ite | (with_reducible apply Keeps.forEach; rotate_left; intro s a)
    | simp only [Keeps.mk_iff] | split | (dsimp +zetaDelta only))

theorem execCalEpisodeStart_keeps (p : Path) (l : Fin 8) (s : State) : KeepsOut s (execCalEpisodeStart p l s) := by
  have hk := Keeps.refl s
  unfold execCalEpisodeStart
  repeat' (first
    | extract_lets | with_reducible assumption | with_reducible apply Keeps.refl | with_reducible apply True.intro
    | with_reducible apply State.startEpisode_keeps | with_reducible apply KeepsOut.mk
    | with_reducible apply KeepsOut.mkFault | with_reducible apply KeepsOut.mkRefused
    | with_reducible apply KeepsOut.ite | intro _ | with_reducible apply KeepsO.getD
    | with_reducible apply Keeps.ite | (with_reducible apply Keeps.forEach; rotate_left; intro s a)
    | simp only [Keeps.mk_iff] | split | (dsimp +zetaDelta only))

theorem execEpisodeInterval_keeps (l : Fin 8) (sweeps : Nat) (rms bias : BitVec 16) (maxTrim : Nat) (s : State) : KeepsOut s (execEpisodeInterval l sweeps rms bias maxTrim s) := by
  have hk := Keeps.refl s
  unfold execEpisodeInterval
  repeat' (first
    | extract_lets | with_reducible assumption | with_reducible apply Keeps.refl | with_reducible apply True.intro
    | with_reducible apply State.modLat_keeps | with_reducible apply State.setFld_keeps
    | with_reducible apply State.setStale_keeps | with_reducible apply KeepsOut.mk
    | with_reducible apply KeepsOut.mkFault | with_reducible apply KeepsOut.mkRefused
    | with_reducible apply KeepsOut.ite | intro _ | with_reducible apply KeepsO.getD
    | with_reducible apply Keeps.ite | (with_reducible apply Keeps.forEach; rotate_left; intro s a)
    | simp only [Keeps.mk_iff] | split | (dsimp +zetaDelta only))

theorem execEpisodeTimeout_keeps (l : Fin 8) (s : State) : KeepsOut s (execEpisodeTimeout l s) := by
  have hk := Keeps.refl s
  unfold execEpisodeTimeout
  repeat' (first
    | extract_lets | with_reducible assumption | with_reducible apply Keeps.refl | with_reducible apply True.intro
    | with_reducible apply State.setStale_keeps | with_reducible apply State.bump_keeps
    | with_reducible apply State.event_keeps | with_reducible apply KeepsOut.mk
    | with_reducible apply KeepsOut.mkFault | with_reducible apply KeepsOut.mkRefused
    | with_reducible apply KeepsOut.ite | intro _ | with_reducible apply KeepsO.getD
    | with_reducible apply Keeps.ite | (with_reducible apply Keeps.forEach; rotate_left; intro s a)
    | simp only [Keeps.mk_iff] | split | (dsimp +zetaDelta only))

theorem State.startSave_keeps {z0 : State} (s : State) (hk : Keeps z0 s) :
    Keeps z0 (State.startSave s) := by
  unfold State.startSave
  repeat' (first
    | extract_lets | with_reducible assumption | with_reducible apply Keeps.refl | with_reducible apply True.intro
    | with_reducible apply State.modLat_keeps | with_reducible apply KeepsO.getD | with_reducible apply Keeps.ite
    | (with_reducible apply Keeps.forEach; rotate_left; intro s a) | simp only [Keeps.mk_iff] | split
    | (dsimp +zetaDelta only))

theorem execCalSaveDue_keeps (s : State) : KeepsOut s (execCalSaveDue s) := by
  have hk := Keeps.refl s
  unfold execCalSaveDue
  repeat' (first
    | extract_lets | with_reducible assumption | with_reducible apply Keeps.refl | with_reducible apply True.intro
    | with_reducible apply State.startSave_keeps | with_reducible apply KeepsOut.mk
    | with_reducible apply KeepsOut.mkFault | with_reducible apply KeepsOut.mkRefused
    | with_reducible apply KeepsOut.ite | intro _ | with_reducible apply KeepsO.getD
    | with_reducible apply Keeps.ite | (with_reducible apply Keeps.forEach; rotate_left; intro s a)
    | simp only [Keeps.mk_iff] | split | (dsimp +zetaDelta only))

theorem execCalSaveRequest_keeps (p : Path) (s : State) : KeepsOut s (execCalSaveRequest p s) := by
  have hk := Keeps.refl s
  unfold execCalSaveRequest
  repeat' (first
    | extract_lets | with_reducible assumption | with_reducible apply Keeps.refl | with_reducible apply True.intro
    | with_reducible apply State.startSave_keeps | with_reducible apply KeepsOut.mk
    | with_reducible apply KeepsOut.mkFault | with_reducible apply KeepsOut.mkRefused
    | with_reducible apply KeepsOut.ite | intro _ | with_reducible apply KeepsO.getD
    | with_reducible apply Keeps.ite | (with_reducible apply Keeps.forEach; rotate_left; intro s a)
    | simp only [Keeps.mk_iff] | split | (dsimp +zetaDelta only))

theorem State.endSave_keeps {z0 : State} (s : State) (hk : Keeps z0 s) :
    Keeps z0 (State.endSave s) := by
  unfold State.endSave
  repeat' (first
    | extract_lets | with_reducible assumption | with_reducible apply Keeps.refl | with_reducible apply True.intro
    | with_reducible apply State.journal_keeps | with_reducible apply KeepsO.getD | with_reducible apply Keeps.ite
    | (with_reducible apply Keeps.forEach; rotate_left; intro s a) | simp only [Keeps.mk_iff] | split
    | (dsimp +zetaDelta only))

end Sys2Proof.Machine
end

