-- ==== Sys2Proof/Laws/KeepPower.lean ====
section
/-! SUPPORT. What the definitions of Machine/Power.lean keep (Keeps, Laws/Keep.lean). -/

set_option linter.all false

namespace Sys2Proof.Machine

theorem State.refusePower_keeps {z0 : State} (s : State) (b : Nat) (target : PState) (blk cause : Nat) (hk : Keeps z0 s) :
    Keeps z0 (State.refusePower s b target blk cause) := by
  unfold State.refusePower
  repeat' (first
    | extract_lets | with_reducible assumption | with_reducible apply Keeps.refl | with_reducible apply True.intro
    | with_reducible apply State.event_keeps | with_reducible apply State.bump_keeps
    | with_reducible apply State.setFld_keeps | with_reducible apply State.modBay_keeps
    | with_reducible apply State.resolvePower_keeps | with_reducible apply KeepsO.getD
    | with_reducible apply Keeps.ite | (with_reducible apply Keeps.forEach; rotate_left; intro s a)
    | simp only [Keeps.mk_iff] | split | (dsimp +zetaDelta only))

theorem State.zeroPantry_keeps {z : State} (s : State) (b : Nat) (hk : Keeps z s) : Keeps z (s.zeroPantry b) :=
  hk.trans ⟨rfl, Memory.wf_memClear _ _ _, id, id, Nat.le_refl _, Nat.le_refl _⟩

theorem State.formRequest_keeps {z0 : State} (s : State) (b : Nat) (q : PState) (hk : Keeps z0 s) :
    Keeps z0 (State.formRequest s b q) := by
  unfold State.formRequest
  repeat' (first
    | extract_lets | with_reducible assumption | with_reducible apply Keeps.refl | with_reducible apply True.intro
    | with_reducible apply State.refusePower_keeps | with_reducible apply State.modBay_keeps
    | with_reducible apply State.retarget_keeps | with_reducible apply State.tryCommit_keeps
    | with_reducible apply State.zeroPantry_keeps | with_reducible apply State.foldBay_keeps
    | with_reducible apply KeepsO.getD | with_reducible apply Keeps.ite
    | (with_reducible apply Keeps.forEach; rotate_left; intro s a) | simp only [Keeps.mk_iff] | split
    | (dsimp +zetaDelta only))

theorem State.riseRefuses_keeps {z0 : State} (s : State) (b : Nat) (hk : Keeps z0 s) :
    Keeps z0 (State.riseRefuses s b) := by
  unfold State.riseRefuses
  repeat' (first
    | extract_lets | with_reducible assumption | with_reducible apply Keeps.refl | with_reducible apply True.intro
    | with_reducible apply State.modBay_keeps | with_reducible apply State.refusePower_keeps
    | with_reducible apply State.retarget_keeps | with_reducible apply KeepsO.getD | with_reducible apply Keeps.ite
    | (with_reducible apply Keeps.forEach; rotate_left; intro s a) | simp only [Keeps.mk_iff] | split
    | (dsimp +zetaDelta only))

theorem State.writeIdle_keeps {z0 : State} (s : State) (p : Path) (b v : Nat) (hk : Keeps z0 s) :
    Keeps z0 (State.writeIdle s p b v) := by
  unfold State.writeIdle
  repeat' (first
    | extract_lets | with_reducible assumption | with_reducible apply Keeps.refl | with_reducible apply True.intro
    | with_reducible apply State.refuse_keeps | with_reducible apply State.setFld_keeps
    | with_reducible apply KeepsO.getD | with_reducible apply Keeps.ite
    | (with_reducible apply Keeps.forEach; rotate_left; intro s a) | simp only [Keeps.mk_iff] | split
    | (dsimp +zetaDelta only))

theorem execIdleStateWrite_keeps (p : Path) (b : Fin 4) (v : BitVec 3) (s : State) : KeepsOut s (execIdleStateWrite p b v s) := by
  have hk := Keeps.refl s
  unfold execIdleStateWrite
  repeat' (first
    | extract_lets | with_reducible assumption | with_reducible apply Keeps.refl | with_reducible apply True.intro
    | with_reducible apply State.writeIdle_keeps | with_reducible apply KeepsOut.mk
    | with_reducible apply KeepsOut.mkFault | with_reducible apply KeepsOut.mkRefused
    | with_reducible apply KeepsOut.ite | intro _ | with_reducible apply KeepsO.getD
    | with_reducible apply Keeps.ite | (with_reducible apply Keeps.forEach; rotate_left; intro s a)
    | simp only [Keeps.mk_iff] | split | (dsimp +zetaDelta only))

theorem State.setLimit_keeps {z0 : State} (s : State) (v : Nat) (hk : Keeps z0 s) :
    Keeps z0 (State.setLimit s v) := by
  unfold State.setLimit
  repeat' (first
    | extract_lets | with_reducible assumption | with_reducible apply Keeps.refl | with_reducible apply True.intro
    | with_reducible apply State.alertEdge_keeps | with_reducible apply KeepsO.getD | with_reducible apply Keeps.ite
    | (with_reducible apply Keeps.forEach; rotate_left; intro s a) | simp only [Keeps.mk_iff] | split
    | (dsimp +zetaDelta only))

theorem State.writeLimit_keeps {z0 : State} (s : State) (v : Nat) (hk : Keeps z0 s) :
    Keeps z0 (State.writeLimit s v) := by
  unfold State.writeLimit
  repeat' (first
    | extract_lets | with_reducible assumption | with_reducible apply Keeps.refl | with_reducible apply True.intro
    | with_reducible apply State.setFld_keeps | with_reducible apply State.alertEdge_keeps
    | with_reducible apply State.setLimit_keeps | with_reducible apply KeepsO.getD | with_reducible apply Keeps.ite
    | (with_reducible apply Keeps.forEach; rotate_left; intro s a) | simp only [Keeps.mk_iff] | split
    | (dsimp +zetaDelta only))

theorem execPowerLimitSet_keeps (p : Path) (v : BitVec 10) (s : State) : KeepsOut s (execPowerLimitSet p v s) := by
  have hk := Keeps.refl s
  unfold execPowerLimitSet
  repeat' (first
    | extract_lets | with_reducible assumption | with_reducible apply Keeps.refl | with_reducible apply True.intro
    | with_reducible apply State.refuse_keeps | with_reducible apply State.writeLimit_keeps
    | with_reducible apply KeepsOut.mk | with_reducible apply KeepsOut.mkFault
    | with_reducible apply KeepsOut.mkRefused | with_reducible apply KeepsOut.ite | intro _
    | with_reducible apply KeepsO.getD | with_reducible apply Keeps.ite
    | (with_reducible apply Keeps.forEach; rotate_left; intro s a) | simp only [Keeps.mk_iff] | split
    | (dsimp +zetaDelta only))

theorem State.limitDown_keeps {z0 : State} (s : State) (n : Nat) (hk : Keeps z0 s) :
    Keeps z0 (State.limitDown s n) := by
  unfold State.limitDown
  repeat' (first
    | extract_lets | with_reducible assumption | with_reducible apply Keeps.refl | with_reducible apply True.intro
    | with_reducible apply State.setLimit_keeps | with_reducible apply KeepsO.getD | with_reducible apply Keeps.ite
    | (with_reducible apply Keeps.forEach; rotate_left; intro s a) | simp only [Keeps.mk_iff] | split
    | (dsimp +zetaDelta only))

theorem State.throttleStep_keeps {z0 : State} (s : State) (hk : Keeps z0 s) :
    Keeps z0 (State.throttleStep s) := by
  unfold State.throttleStep
  repeat' (first
    | extract_lets | with_reducible assumption | with_reducible apply Keeps.refl | with_reducible apply True.intro
    | with_reducible apply State.limitDown_keeps | with_reducible apply State.bump_keeps
    | with_reducible apply KeepsO.getD | with_reducible apply Keeps.ite
    | (with_reducible apply Keeps.forEach; rotate_left; intro s a) | simp only [Keeps.mk_iff] | split
    | (dsimp +zetaDelta only))

theorem State.climbStep_keeps {z0 : State} (s : State) (hk : Keeps z0 s) :
    Keeps z0 (State.climbStep s) := by
  unfold State.climbStep
  repeat' (first
    | extract_lets | with_reducible assumption | with_reducible apply Keeps.refl | with_reducible apply True.intro
    | with_reducible apply State.setLimit_keeps | with_reducible apply KeepsO.getD | with_reducible apply Keeps.ite
    | (with_reducible apply Keeps.forEach; rotate_left; intro s a) | simp only [Keeps.mk_iff] | split
    | (dsimp +zetaDelta only))

theorem execPowerLimitStep_keeps (s : State) : KeepsOut s (execPowerLimitStep s) := by
  have hk := Keeps.refl s
  unfold execPowerLimitStep
  repeat' (first
    | extract_lets | with_reducible assumption | with_reducible apply Keeps.refl | with_reducible apply True.intro
    | with_reducible apply State.throttleStep_keeps | with_reducible apply State.climbStep_keeps
    | with_reducible apply KeepsOut.mk | with_reducible apply KeepsOut.mkFault
    | with_reducible apply KeepsOut.mkRefused | with_reducible apply KeepsOut.ite | intro _
    | with_reducible apply KeepsO.getD | with_reducible apply Keeps.ite
    | (with_reducible apply Keeps.forEach; rotate_left; intro s a) | simp only [Keeps.mk_iff] | split
    | (dsimp +zetaDelta only))

theorem execPackagePowerSample_keeps (w : Nat) (s : State) : KeepsOut s (execPackagePowerSample w s) := by
  have hk := Keeps.refl s
  unfold execPackagePowerSample
  repeat' (first
    | extract_lets | with_reducible assumption | with_reducible apply Keeps.refl | with_reducible apply True.intro
    | with_reducible apply State.raise_keeps | with_reducible apply KeepsOut.mk
    | with_reducible apply KeepsOut.mkFault | with_reducible apply KeepsOut.mkRefused
    | with_reducible apply KeepsOut.ite | intro _ | with_reducible apply KeepsO.getD
    | with_reducible apply Keeps.ite | (with_reducible apply Keeps.forEach; rotate_left; intro s a)
    | ((with_reducible apply Keeps.foldl) <;> [(intro r a); skip]) | simp only [Keeps.mk_iff] | split
    | (dsimp +zetaDelta only))

theorem execAllowanceEval_keeps (s : State) : KeepsOut s (execAllowanceEval s) := by
  have hk := Keeps.refl s
  unfold execAllowanceEval
  repeat' (first
    | extract_lets | with_reducible assumption | with_reducible apply Keeps.refl | with_reducible apply True.intro
    | with_reducible apply State.setFld_keeps | with_reducible apply KeepsOut.mk
    | with_reducible apply KeepsOut.mkFault | with_reducible apply KeepsOut.mkRefused
    | with_reducible apply KeepsOut.ite | intro _ | with_reducible apply KeepsO.getD
    | with_reducible apply Keeps.ite | (with_reducible apply Keeps.forEach; rotate_left; intro s a)
    | simp only [Keeps.mk_iff] | split | (dsimp +zetaDelta only))

theorem execHalfClockEnter_keeps (s : State) : KeepsOut s (execHalfClockEnter s) := by
  have hk := Keeps.refl s
  unfold execHalfClockEnter
  repeat' (first
    | extract_lets | with_reducible assumption | with_reducible apply Keeps.refl | with_reducible apply True.intro
    | with_reducible apply KeepsOut.mk | with_reducible apply KeepsOut.mkFault
    | with_reducible apply KeepsOut.mkRefused | with_reducible apply KeepsOut.ite | intro _
    | with_reducible apply KeepsO.getD | with_reducible apply Keeps.ite
    | (with_reducible apply Keeps.forEach; rotate_left; intro s a) | simp only [Keeps.mk_iff] | split
    | (dsimp +zetaDelta only))

theorem execHalfClockExit_keeps (s : State) : KeepsOut s (execHalfClockExit s) := by
  have hk := Keeps.refl s
  unfold execHalfClockExit
  repeat' (first
    | extract_lets | with_reducible assumption | with_reducible apply Keeps.refl | with_reducible apply True.intro
    | with_reducible apply KeepsOut.mk | with_reducible apply KeepsOut.mkFault
    | with_reducible apply KeepsOut.mkRefused | with_reducible apply KeepsOut.ite | intro _
    | with_reducible apply KeepsO.getD | with_reducible apply Keeps.ite
    | (with_reducible apply Keeps.forEach; rotate_left; intro s a) | simp only [Keeps.mk_iff] | split
    | (dsimp +zetaDelta only))

theorem State.sampleDomain_keeps {z0 : State} (s : State) (readings : List Sense) (d : Nat) (hk : Keeps z0 s) :
    Keeps z0 (State.sampleDomain s readings d) := by
  unfold State.sampleDomain
  repeat' (first
    | extract_lets | with_reducible assumption | with_reducible apply Keeps.refl | with_reducible apply True.intro
    | with_reducible apply State.setSensor_keeps | with_reducible apply State.event_keeps
    | with_reducible apply KeepsO.getD | with_reducible apply Keeps.ite
    | (with_reducible apply Keeps.forEach; rotate_left; intro s a) | simp only [Keeps.mk_iff] | split
    | (dsimp +zetaDelta only))

theorem State.raiseRise_keeps {z0 : State} (s : State) (b : Nat) (hk : Keeps z0 s) :
    Keeps z0 (State.raiseRise s b) := by
  unfold State.raiseRise
  repeat' (first
    | extract_lets | with_reducible assumption | with_reducible apply Keeps.refl | with_reducible apply True.intro
    | with_reducible apply State.modBay_keeps | with_reducible apply State.limitDown_keeps
    | with_reducible apply State.bump_keeps | with_reducible apply State.traceHit_keeps
    | with_reducible apply State.raiseCause_keeps | with_reducible apply State.riseRefuses_keeps
    | with_reducible apply KeepsO.getD | with_reducible apply Keeps.ite
    | (with_reducible apply Keeps.forEach; rotate_left; intro s a) | simp only [Keeps.mk_iff] | split
    | (dsimp +zetaDelta only))

theorem State.sampleRise_keeps {z : State} (before s : State) (b : Nat) (hk : Keeps z s) :
    Keeps z (State.sampleRise before s b) := by
  unfold State.sampleRise
  repeat' (first
    | extract_lets | with_reducible assumption | with_reducible apply Keeps.refl | with_reducible apply True.intro
    | with_reducible apply State.raiseRise_keeps | with_reducible apply State.modBay_keeps
    | with_reducible apply State.foldBay_keeps | with_reducible apply State.retune_keeps
    | with_reducible apply KeepsO.getD | with_reducible apply Keeps.ite
    | (with_reducible apply Keeps.forEach; rotate_left; intro s a) | simp only [Keeps.mk_iff] | split
    | (dsimp +zetaDelta only))

theorem State.picCause_keeps {z0 : State} (s : State) (b : Nat) (hk : Keeps z0 s) :
    Keeps z0 (State.picCause s b) := by
  unfold State.picCause
  repeat' (first
    | extract_lets | with_reducible assumption | with_reducible apply Keeps.refl | with_reducible apply True.intro
    | with_reducible apply State.raiseCause_keeps | with_reducible apply State.tryClearRise_keeps
    | with_reducible apply KeepsO.getD | with_reducible apply Keeps.ite
    | (with_reducible apply Keeps.forEach; rotate_left; intro s a) | simp only [Keeps.mk_iff] | split
    | (dsimp +zetaDelta only))

theorem State.halted_keeps {z0 : State} (s : State) (hk : Keeps z0 s) :
    Keeps z0 (State.halted s) := by
  unfold State.halted
  repeat' (first
    | extract_lets | with_reducible assumption | with_reducible apply Keeps.refl | with_reducible apply True.intro
    | with_reducible apply State.setCombSt_keeps | with_reducible apply State.modComb_keeps
    | with_reducible apply State.clearHeaters_keeps | with_reducible apply KeepsO.getD
    | with_reducible apply Keeps.ite | (with_reducible apply Keeps.forEach; rotate_left; intro s a)
    | simp only [Keeps.mk_iff] | split | (dsimp +zetaDelta only))

theorem State.stopDevice_keeps {z0 : State} (s : State) (hk : Keeps z0 s) :
    Keeps z0 (State.stopDevice s) := by
  unfold State.stopDevice
  repeat' (first
    | extract_lets | with_reducible assumption | with_reducible apply Keeps.refl | with_reducible apply True.intro
    | with_reducible apply State.halted_keeps | with_reducible apply KeepsO.getD | with_reducible apply Keeps.ite
    | (with_reducible apply Keeps.forEach; rotate_left; intro s a) | simp only [Keeps.mk_iff] | split
    | (dsimp +zetaDelta only))

theorem State.trip_keeps {z0 : State} (s : State) (d i : Nat) (hk : Keeps z0 s) :
    Keeps z0 (State.trip s d i) := by
  unfold State.trip
  repeat' (first
    | extract_lets | with_reducible assumption | with_reducible apply Keeps.refl | with_reducible apply True.intro
    | with_reducible apply State.event_keeps | with_reducible apply State.halted_keeps
    | with_reducible apply KeepsO.getD | with_reducible apply Keeps.ite
    | (with_reducible apply Keeps.forEach; rotate_left; intro s a) | simp only [Keeps.mk_iff] | split
    | (dsimp +zetaDelta only))

theorem State.sampleLevels_keeps {z0 : State} (s : State) (hk : Keeps z0 s) :
    Keeps z0 (State.sampleLevels s) := by
  unfold State.sampleLevels
  repeat' (first
    | extract_lets | with_reducible assumption | with_reducible apply Keeps.refl | with_reducible apply True.intro
    | with_reducible apply State.trip_keeps | with_reducible apply State.sensorChange_keeps
    | with_reducible apply KeepsO.getD | with_reducible apply Keeps.ite
    | (with_reducible apply Keeps.forEach; rotate_left; intro s a) | simp only [Keeps.mk_iff] | split
    | (dsimp +zetaDelta only))


theorem State.sampleIdle_keeps {z : State} (s : State) (readings : List Sense) (hk : Keeps z s) : Keeps z (s.sampleIdle readings) := by
  unfold State.sampleIdle
  extract_lets t p0 s1
  have h1 : Keeps z s1 := Keeps.mk' hk ..
  clear_value s1
  split
  · exact Keeps.ite h1 (Keeps.mk' h1 ..)
  · exact h1

theorem execThermalSample_keeps (readings : List Sense) (s : State) : KeepsOut s (execThermalSample readings s) := by
  unfold execThermalSample
  generalize s.onPhase 1000000 0 = ph
  split
  · exact True.intro
  · split
    · exact Keeps.refl s
    · split
      · exact State.sampleIdle_keeps _ _ (Keeps.refl s)
      · split
        · exact Keeps.refl s
        · extract_lets s1 s2 s3 s4 hot cool was p s5 q s6
          have h1 : Keeps s s1 := forEach_keeps (Keeps s ·) (upTo 23) (fun t d => t.sampleDomain readings d)
            (fun _ _ h => State.sampleDomain_keeps _ _ _ h) s (Keeps.refl s)
          have h2 : Keeps s s2 := Keeps.forEach h1 fun t b => State.sampleRise_keeps _ _ _ (Keeps.refl t)
          clear_value s2
          have h3 : Keeps s s3 := State.sampleLevels_keeps _ (State.updateWindow_keeps _
            (Keeps.forEach h2 fun t b => State.picCause_keeps _ _ (Keeps.refl t)))
          clear_value s3
          have h4 : Keeps s s4 := Keeps.forEach h3 fun t l => State.retune_keeps _ _ _ (Keeps.refl t)
          clear_value s4
          have h5 : Keeps s s5 := State.alertEdge_keeps _ _ (Keeps.mk' h4 ..)
          have h6 : Keeps s s6 := Keeps.ite (State.throttleStep_keeps _ h5) (Keeps.ite (Keeps.mk' h5 ..) h5)
          clear_value s6
          split
          · exact State.trip_keeps _ _ _ h6
          · exact h6

theorem execTelemetrySample_keeps (s : State) : KeepsOut s (execTelemetrySample s) := by
  have hk := Keeps.refl s
  unfold execTelemetrySample
  repeat' (first
    | extract_lets | with_reducible assumption | with_reducible apply Keeps.refl | with_reducible apply True.intro
    | with_reducible apply KeepsOut.mk | with_reducible apply KeepsOut.mkFault
    | with_reducible apply KeepsOut.mkRefused | with_reducible apply KeepsOut.ite | intro _
    | with_reducible apply KeepsO.getD | with_reducible apply Keeps.ite
    | (with_reducible apply Keeps.forEach; rotate_left; intro s a) | simp only [Keeps.mk_iff] | split
    | (dsimp +zetaDelta only))

theorem execReferenceLost_keeps (s : State) : KeepsOut s (execReferenceLost s) := by
  have hk := Keeps.refl s
  unfold execReferenceLost
  repeat' (first
    | extract_lets | with_reducible assumption | with_reducible apply Keeps.refl | with_reducible apply True.intro
    | with_reducible apply State.stopDevice_keeps | with_reducible apply KeepsOut.mk
    | with_reducible apply KeepsOut.mkFault | with_reducible apply KeepsOut.mkRefused
    | with_reducible apply KeepsOut.ite | intro _ | with_reducible apply KeepsO.getD
    | with_reducible apply Keeps.ite | (with_reducible apply Keeps.forEach; rotate_left; intro s a)
    | simp only [Keeps.mk_iff] | split | (dsimp +zetaDelta only))

theorem execRefMeasure_keeps (offset : BitVec 32) (s : State) : KeepsOut s (execRefMeasure offset s) := by
  have hk := Keeps.refl s
  unfold execRefMeasure
  repeat' (first
    | extract_lets | with_reducible assumption | with_reducible apply Keeps.refl | with_reducible apply True.intro
    | with_reducible apply State.setFld_keeps | with_reducible apply KeepsOut.mk
    | with_reducible apply KeepsOut.mkFault | with_reducible apply KeepsOut.mkRefused
    | with_reducible apply KeepsOut.ite | intro _ | with_reducible apply KeepsO.getD
    | with_reducible apply Keeps.ite | (with_reducible apply Keeps.forEach; rotate_left; intro s a)
    | simp only [Keeps.mk_iff] | split | (dsimp +zetaDelta only))

theorem execPllLossOfLock_keeps (i : Island) (s : State) : KeepsOut s (execPllLossOfLock i s) := by
  have hk := Keeps.refl s
  unfold execPllLossOfLock
  repeat' (first
    | extract_lets | with_reducible assumption | with_reducible apply Keeps.refl | with_reducible apply True.intro
    | with_reducible apply State.event_keeps | with_reducible apply State.bump_keeps
    | with_reducible apply State.raiseReadout_keeps | with_reducible apply KeepsOut.mk
    | with_reducible apply KeepsOut.mkFault | with_reducible apply KeepsOut.mkRefused
    | with_reducible apply KeepsOut.ite | intro _ | with_reducible apply KeepsO.getD
    | with_reducible apply Keeps.ite | (with_reducible apply Keeps.forEach; rotate_left; intro s a)
    | simp only [Keeps.mk_iff] | split | (dsimp +zetaDelta only))

theorem execPllRelocked_keeps (i : Island) (s : State) : KeepsOut s (execPllRelocked i s) := by
  have hk := Keeps.refl s
  unfold execPllRelocked
  repeat' (first
    | extract_lets | with_reducible assumption | with_reducible apply Keeps.refl | with_reducible apply True.intro
    | with_reducible apply State.startSelfTests_keeps | with_reducible apply KeepsOut.mk
    | with_reducible apply KeepsOut.mkFault | with_reducible apply KeepsOut.mkRefused
    | with_reducible apply KeepsOut.ite | intro _ | with_reducible apply KeepsO.getD
    | with_reducible apply Keeps.ite | (with_reducible apply Keeps.forEach; rotate_left; intro s a)
    | simp only [Keeps.mk_iff] | split | (dsimp +zetaDelta only))

theorem execAvsVoltageWrite_keeps (mv : Nat) (ack : Bool) (s : State) : KeepsOut s (execAvsVoltageWrite mv ack s) := by
  have hk := Keeps.refl s
  unfold execAvsVoltageWrite
  repeat' (first
    | extract_lets | with_reducible assumption | with_reducible apply Keeps.refl | with_reducible apply True.intro
    | with_reducible apply KeepsOut.mk | with_reducible apply KeepsOut.mkFault
    | with_reducible apply KeepsOut.mkRefused | with_reducible apply KeepsOut.ite | intro _
    | with_reducible apply KeepsO.getD | with_reducible apply Keeps.ite
    | (with_reducible apply Keeps.forEach; rotate_left; intro s a) | simp only [Keeps.mk_iff] | split
    | (dsimp +zetaDelta only))

theorem execAvsWriteRetry_keeps (ack : Bool) (s : State) : KeepsOut s (execAvsWriteRetry ack s) := by
  have hk := Keeps.refl s
  unfold execAvsWriteRetry
  repeat' (first
    | extract_lets | with_reducible assumption | with_reducible apply Keeps.refl | with_reducible apply True.intro
    | with_reducible apply KeepsOut.mk | with_reducible apply KeepsOut.mkFault
    | with_reducible apply KeepsOut.mkRefused | with_reducible apply KeepsOut.ite | intro _
    | with_reducible apply KeepsO.getD | with_reducible apply Keeps.ite
    | (with_reducible apply Keeps.forEach; rotate_left; intro s a) | simp only [Keeps.mk_iff] | split
    | (dsimp +zetaDelta only))

end Sys2Proof.Machine
end

