-- ==== Sys2Proof/Laws/KeepSecurity.lean ====
section
/-! SUPPORT. What the definitions of Machine/Security.lean keep (Keeps, Laws/Keep.lean). -/

set_option linter.all false

namespace Sys2Proof.Machine

theorem State.deriveKeys_keeps {z : State} (s : State) (hk : Keeps z s) : Keeps z s.deriveKeys :=
  Keeps.setSec _ (Nat.le_refl _) (Nat.le_refl _) hk

theorem State.drawNonce_keeps {z : State} (s : State) (hk : Keeps z s) : Keeps z s.drawNonce := by
  unfold State.drawNonce
  extract_lets w
  exact State.drawn_keeps _ _ (Keeps.setSec _ (Nat.le_refl _) (Nat.le_refl _) hk)

theorem execNewNonce_keeps (p : Path) (s : State) : KeepsOut s (execNewNonce p s) := by
  have hk := Keeps.refl s
  unfold execNewNonce
  repeat' (first
    | extract_lets | with_reducible assumption | with_reducible apply Keeps.refl | with_reducible apply True.intro
    | with_reducible apply State.drawNonce_keeps | with_reducible apply KeepsOut.mk
    | with_reducible apply KeepsOut.mkFault | with_reducible apply KeepsOut.mkRefused
    | with_reducible apply KeepsOut.ite | intro _ | with_reducible apply KeepsO.getD
    | with_reducible apply Keeps.ite | (with_reducible apply Keeps.forEach; rotate_left; intro s a)
    | simp only [Keeps.mk_iff] | split | (dsimp +zetaDelta only))

theorem execNonceExpiry_keeps (s : State) : KeepsOut s (execNonceExpiry s) :=
  KeepsOut.ite (Keeps.setSec _ (Nat.le_refl _) (Nat.le_refl _) (Keeps.refl s)) (Keeps.refl s)

theorem State.latchNonce_keeps {z : State} (s : State) (p : Path) (hk : Keeps z s) : Keeps z (s.latchNonce p) :=
  Keeps.setSec _ (Nat.le_refl _) (Nat.le_refl _) hk

theorem execNonceRead_keeps (p : Path) (s : State) : KeepsOut s (execNonceRead p s) := by
  have hk := Keeps.refl s
  unfold execNonceRead
  repeat' (first
    | extract_lets | with_reducible assumption | with_reducible apply Keeps.refl | with_reducible apply True.intro
    | with_reducible apply State.latchNonce_keeps | with_reducible apply State.answer_keeps
    | with_reducible apply KeepsOut.mk | with_reducible apply KeepsOut.mkFault
    | with_reducible apply KeepsOut.mkRefused | with_reducible apply KeepsOut.ite | intro _
    | with_reducible apply KeepsO.getD | with_reducible apply Keeps.ite
    | (with_reducible apply Keeps.forEach; rotate_left; intro s a) | simp only [Keeps.mk_iff] | split
    | (dsimp +zetaDelta only))

theorem State.endToken_keeps {z : State} (s : State) (hk : Keeps z s) : Keeps z s.endToken := by
  unfold State.endToken
  split
  · exact hk
  · extract_lets x s1 s2 s3
    refine State.journal_keeps _ _ _ (State.setFld_keeps _ _ _ _ (State.setFld_keeps _ _ _ _ ?_))
    have h1 : Keeps z s1 := Keeps.setSec _ (Nat.le_refl _) (Nat.le_refl _) hk
    have h2 : Keeps z s2 := Keeps.forEach h1 fun s l =>
      State.setFld_keeps _ _ _ _ (State.setFld_keeps _ _ _ _ (Keeps.refl s))
    exact Keeps.forEach h2 fun s b => State.setFld_keeps _ _ _ _ (Keeps.refl s)

theorem execTokenEnd_keeps (p : Path) (s : State) : KeepsOut s (execTokenEnd p s) := by
  have hk := Keeps.refl s
  unfold execTokenEnd
  repeat' (first
    | extract_lets | with_reducible assumption | with_reducible apply Keeps.refl | with_reducible apply True.intro
    | with_reducible apply State.endToken_keeps | with_reducible apply KeepsOut.mk
    | with_reducible apply KeepsOut.mkFault | with_reducible apply KeepsOut.mkRefused
    | with_reducible apply KeepsOut.ite | intro _ | with_reducible apply KeepsO.getD
    | with_reducible apply Keeps.ite | (with_reducible apply Keeps.forEach; rotate_left; intro s a)
    | simp only [Keeps.mk_iff] | split | (dsimp +zetaDelta only))

theorem execTokenExpiry_keeps (s : State) : KeepsOut s (execTokenExpiry s) := by
  have hk := Keeps.refl s
  unfold execTokenExpiry
  repeat' (first
    | extract_lets | with_reducible assumption | with_reducible apply Keeps.refl | with_reducible apply True.intro
    | with_reducible apply State.endToken_keeps | with_reducible apply KeepsOut.mk
    | with_reducible apply KeepsOut.mkFault | with_reducible apply KeepsOut.mkRefused
    | with_reducible apply KeepsOut.ite | intro _ | with_reducible apply KeepsO.getD
    | with_reducible apply Keeps.ite | (with_reducible apply Keeps.forEach; rotate_left; intro s a)
    | simp only [Keeps.mk_iff] | split | (dsimp +zetaDelta only))

theorem State.refuseToken_keeps {z : State} (s : State) (code : Nat) (sig : Verdict) (hk : Keeps z s) :
    Keeps z (s.refuseToken code sig) := by
  unfold State.refuseToken
  extract_lets s1 s2 fails
  have h : Keeps z s2 := State.bump_keeps _ _ _ _ (Keeps.setSec _ (Nat.le_refl _) (Nat.le_refl _) hk)
  exact Keeps.ite (State.sigFail_keeps _ _ _ h) h

theorem State.acceptDebug_keeps {z : State} (s : State) (hk : Keeps z s) : Keeps z s.acceptDebug :=
  Keeps.setSec _ (Nat.le_refl _) (Nat.le_refl _) hk

theorem State.acceptOwner_keeps {z : State} (s : State) (enrol : Bool) (hk : Keeps z s) : Keeps z (s.acceptOwner enrol) := by
  unfold State.acceptOwner
  extract_lets s1 s2
  refine Keeps.setSec _ (Nat.le_refl _) (Nat.le_refl _) (State.journal_keeps _ _ _ ?_)
  exact hk.trans ⟨rfl, id, id, id, Nat.le_succ _, Nat.le_refl _⟩

theorem State.submitToken_keeps {z : State} (s : State) (kind : Nat) (sig : Verdict) (d : Bool) (hk : Keeps z s) :
    Keeps z (s.submitToken kind sig d) := by
  unfold State.submitToken
  split
  · exact hk
  · split
    · extract_lets x s1 s2
      have h : Keeps z s2 := State.journal_keeps _ _ _ (Keeps.setSec _ (Nat.le_refl _) (Nat.le_refl _) hk)
      exact Keeps.ite (State.acceptDebug_keeps _ h) (State.acceptOwner_keeps _ _ h)
    · exact State.refuseToken_keeps _ _ _ hk

theorem execTokenDebug_keeps (p : Path) (sig : Verdict) (digestOk : Bool) (s : State) : KeepsOut s (execTokenDebug p sig digestOk s) := by
  have hk := Keeps.refl s
  unfold execTokenDebug
  repeat' (first
    | extract_lets | with_reducible assumption | with_reducible apply Keeps.refl | with_reducible apply True.intro
    | with_reducible apply State.submitToken_keeps | with_reducible apply KeepsOut.mk
    | with_reducible apply KeepsOut.mkFault | with_reducible apply KeepsOut.mkRefused
    | with_reducible apply KeepsOut.ite | intro _ | with_reducible apply KeepsO.getD
    | with_reducible apply Keeps.ite | (with_reducible apply Keeps.forEach; rotate_left; intro s a)
    | simp only [Keeps.mk_iff] | split | (dsimp +zetaDelta only))

theorem execOwnerEnrol_keeps (p : Path) (sig : Verdict) (digestOk : Bool) (s : State) : KeepsOut s (execOwnerEnrol p sig digestOk s) := by
  have hk := Keeps.refl s
  unfold execOwnerEnrol
  repeat' (first
    | extract_lets | with_reducible assumption | with_reducible apply Keeps.refl | with_reducible apply True.intro
    | with_reducible apply State.submitToken_keeps | with_reducible apply KeepsOut.mk
    | with_reducible apply KeepsOut.mkFault | with_reducible apply KeepsOut.mkRefused
    | with_reducible apply KeepsOut.ite | intro _ | with_reducible apply KeepsO.getD
    | with_reducible apply Keeps.ite | (with_reducible apply Keeps.forEach; rotate_left; intro s a)
    | simp only [Keeps.mk_iff] | split | (dsimp +zetaDelta only))

theorem execOwnerRelease_keeps (p : Path) (sig : Verdict) (digestOk : Bool) (s : State) : KeepsOut s (execOwnerRelease p sig digestOk s) := by
  have hk := Keeps.refl s
  unfold execOwnerRelease
  repeat' (first
    | extract_lets | with_reducible assumption | with_reducible apply Keeps.refl | with_reducible apply True.intro
    | with_reducible apply State.submitToken_keeps | with_reducible apply KeepsOut.mk
    | with_reducible apply KeepsOut.mkFault | with_reducible apply KeepsOut.mkRefused
    | with_reducible apply KeepsOut.ite | intro _ | with_reducible apply KeepsO.getD
    | with_reducible apply Keeps.ite | (with_reducible apply Keeps.forEach; rotate_left; intro s a)
    | simp only [Keeps.mk_iff] | split | (dsimp +zetaDelta only))

theorem State.clearFence_keeps {z0 : State} (s : State) (l : Nat) (hk : Keeps z0 s) :
    Keeps z0 (State.clearFence s l) := by
  unfold State.clearFence
  repeat' (first
    | extract_lets | with_reducible assumption | with_reducible apply Keeps.refl | with_reducible apply True.intro
    | with_reducible apply State.enterLat_keeps | with_reducible apply State.journal_keeps
    | with_reducible apply State.event_keeps | with_reducible apply State.modLat_keeps
    | with_reducible apply State.startOutage_keeps | with_reducible apply State.retarget_keeps
    | with_reducible apply KeepsO.getD | with_reducible apply Keeps.ite
    | (with_reducible apply Keeps.forEach; rotate_left; intro s a) | simp only [Keeps.mk_iff] | split
    | (dsimp +zetaDelta only))

theorem State.writeFenceClear_keeps {z0 : State} (s : State) (p : Path) (v : Nat) (hk : Keeps z0 s) :
    Keeps z0 (State.writeFenceClear s p v) := by
  unfold State.writeFenceClear
  repeat' (first
    | extract_lets | with_reducible assumption | with_reducible apply Keeps.refl | with_reducible apply True.intro
    | with_reducible apply State.refuse_keeps | with_reducible apply State.clearFence_keeps
    | with_reducible apply KeepsO.getD | with_reducible apply Keeps.ite
    | (with_reducible apply Keeps.forEach; rotate_left; intro s a) | simp only [Keeps.mk_iff] | split
    | (dsimp +zetaDelta only))

theorem execFenceClear_keeps (p : Path) (v : BitVec 8) (s : State) : KeepsOut s (execFenceClear p v s) := by
  have hk := Keeps.refl s
  unfold execFenceClear
  repeat' (first
    | extract_lets | with_reducible assumption | with_reducible apply Keeps.refl | with_reducible apply True.intro
    | with_reducible apply State.writeFenceClear_keeps | with_reducible apply KeepsOut.mk
    | with_reducible apply KeepsOut.mkFault | with_reducible apply KeepsOut.mkRefused
    | with_reducible apply KeepsOut.ite | intro _ | with_reducible apply KeepsO.getD
    | with_reducible apply Keeps.ite | (with_reducible apply Keeps.forEach; rotate_left; intro s a)
    | simp only [Keeps.mk_iff] | split | (dsimp +zetaDelta only))

theorem State.setSpdm_keeps {z0 : State} (s : State) (c : Conn) (x : Spdm) (hk : Keeps z0 s) :
    Keeps z0 (State.setSpdm s c x) := by
  unfold State.setSpdm
  repeat' (first
    | extract_lets | with_reducible assumption | with_reducible apply Keeps.refl | with_reducible apply True.intro
    | with_reducible apply KeepsO.getD | with_reducible apply Keeps.ite
    | (with_reducible apply Keeps.forEach; rotate_left; intro s a) | simp only [Keeps.mk_iff] | split
    | (dsimp +zetaDelta only))

theorem State.spdmRun_keeps {z : State} (s : State) (c : Conn) (ok : Spdm → Bool) (f : State → Spdm → State)
    (hf : ∀ z s x, Keeps z s → Keeps z (f s x)) (hk : Keeps z s) : Keeps z (s.spdmRun c ok f) := by
  unfold State.spdmRun
  repeat' (first
    | extract_lets | with_reducible assumption | with_reducible apply Keeps.refl | with_reducible apply True.intro
    | with_reducible apply State.answer_keeps | with_reducible apply State.setSpdm_keeps
    | with_reducible apply KeepsO.getD | with_reducible apply Keeps.ite
    | (with_reducible apply Keeps.forEach; rotate_left; intro s a) | with_reducible apply hf
    | simp only [Keeps.mk_iff] | split | (dsimp +zetaDelta only))

theorem State.attestReply_keeps {z0 : State} (s : State) (kind : Nat) (hk : Keeps z0 s) :
    Keeps z0 (State.attestReply s kind) := by
  unfold State.attestReply
  repeat' (first
    | extract_lets | with_reducible assumption | with_reducible apply Keeps.refl | with_reducible apply True.intro
    | with_reducible apply State.answer_keeps | with_reducible apply State.drawn_keeps
    | with_reducible apply KeepsO.getD | with_reducible apply Keeps.ite
    | (with_reducible apply Keeps.forEach; rotate_left; intro s a) | simp only [Keeps.mk_iff] | split
    | (dsimp +zetaDelta only))

theorem State.signedReply_keeps {z0 : State} (s : State) (d : List Byte) (hk : Keeps z0 s) :
    Keeps z0 (State.signedReply s d) := by
  unfold State.signedReply
  repeat' (first
    | extract_lets | with_reducible assumption | with_reducible apply Keeps.refl | with_reducible apply True.intro
    | with_reducible apply State.answer_keeps | with_reducible apply State.drawn_keeps
    | with_reducible apply KeepsO.getD | with_reducible apply Keeps.ite
    | (with_reducible apply Keeps.forEach; rotate_left; intro s a) | simp only [Keeps.mk_iff] | split
    | (dsimp +zetaDelta only))

theorem execGetVersion_keeps (c : Conn) (s : State) : KeepsOut s (execGetVersion c s) := by
  have hk := Keeps.refl s
  unfold execGetVersion
  repeat' (first
    | extract_lets | with_reducible assumption | with_reducible apply Keeps.refl | with_reducible apply True.intro
    | with_reducible apply State.spdmRun_keeps | intro _ | with_reducible apply State.setSpdm_keeps
    | with_reducible apply State.attestReply_keeps | with_reducible apply KeepsOut.mk
    | with_reducible apply KeepsOut.mkFault | with_reducible apply KeepsOut.mkRefused
    | with_reducible apply KeepsOut.ite | intro _ | with_reducible apply KeepsO.getD
    | with_reducible apply Keeps.ite | (with_reducible apply Keeps.forEach; rotate_left; intro s a)
    | simp only [Keeps.mk_iff] | split | (dsimp +zetaDelta only))

theorem execGetCapabilities_keeps (c : Conn) (s : State) : KeepsOut s (execGetCapabilities c s) := by
  have hk := Keeps.refl s
  unfold execGetCapabilities
  repeat' (first
    | extract_lets | with_reducible assumption | with_reducible apply Keeps.refl | with_reducible apply True.intro
    | with_reducible apply State.spdmRun_keeps | intro _ | with_reducible apply State.setSpdm_keeps
    | with_reducible apply State.attestReply_keeps | with_reducible apply KeepsOut.mk
    | with_reducible apply KeepsOut.mkFault | with_reducible apply KeepsOut.mkRefused
    | with_reducible apply KeepsOut.ite | intro _ | with_reducible apply KeepsO.getD
    | with_reducible apply Keeps.ite | (with_reducible apply Keeps.forEach; rotate_left; intro s a)
    | simp only [Keeps.mk_iff] | split | (dsimp +zetaDelta only))

theorem execNegotiateAlgorithms_keeps (c : Conn) (ed25519 sha384 : Bool) (s : State) : KeepsOut s (execNegotiateAlgorithms c ed25519 sha384 s) := by
  have hk := Keeps.refl s
  unfold execNegotiateAlgorithms
  repeat' (first
    | extract_lets | with_reducible assumption | with_reducible apply Keeps.refl | with_reducible apply True.intro
    | with_reducible apply State.spdmRun_keeps | intro _ | with_reducible apply State.setSpdm_keeps
    | with_reducible apply State.attestReply_keeps | with_reducible apply State.answer_keeps
    | with_reducible apply KeepsOut.mk | with_reducible apply KeepsOut.mkFault
    | with_reducible apply KeepsOut.mkRefused | with_reducible apply KeepsOut.ite | intro _
    | with_reducible apply KeepsO.getD | with_reducible apply Keeps.ite
    | (with_reducible apply Keeps.forEach; rotate_left; intro s a) | simp only [Keeps.mk_iff] | split
    | (dsimp +zetaDelta only))

theorem execGetDigests_keeps (c : Conn) (s : State) : KeepsOut s (execGetDigests c s) := by
  have hk := Keeps.refl s
  unfold execGetDigests
  repeat' (first
    | extract_lets | with_reducible assumption | with_reducible apply Keeps.refl | with_reducible apply True.intro
    | with_reducible apply State.spdmRun_keeps | intro _ | with_reducible apply State.setSpdm_keeps
    | with_reducible apply State.answer_keeps | with_reducible apply KeepsOut.mk
    | with_reducible apply KeepsOut.mkFault | with_reducible apply KeepsOut.mkRefused
    | with_reducible apply KeepsOut.ite | intro _ | with_reducible apply KeepsO.getD
    | with_reducible apply Keeps.ite | (with_reducible apply Keeps.forEach; rotate_left; intro s a)
    | simp only [Keeps.mk_iff] | split | (dsimp +zetaDelta only))

theorem execGetCertificate_keeps (c : Conn) (slot off len : Nat) (s : State) : KeepsOut s (execGetCertificate c slot off len s) := by
  have hk := Keeps.refl s
  unfold execGetCertificate
  repeat' (first
    | extract_lets | with_reducible assumption | with_reducible apply Keeps.refl | with_reducible apply True.intro
    | with_reducible apply State.spdmRun_keeps | intro _ | with_reducible apply State.setSpdm_keeps
    | with_reducible apply State.answer_keeps | with_reducible apply KeepsOut.mk
    | with_reducible apply KeepsOut.mkFault | with_reducible apply KeepsOut.mkRefused
    | with_reducible apply KeepsOut.ite | intro _ | with_reducible apply KeepsO.getD
    | with_reducible apply Keeps.ite | (with_reducible apply Keeps.forEach; rotate_left; intro s a)
    | simp only [Keeps.mk_iff] | split | (dsimp +zetaDelta only))

theorem execChallenge_keeps (c : Conn) (slot : Nat) (nonce : BitVec 256) (s : State) : KeepsOut s (execChallenge c slot nonce s) := by
  have hk := Keeps.refl s
  unfold execChallenge
  repeat' (first
    | extract_lets | with_reducible assumption | with_reducible apply Keeps.refl | with_reducible apply True.intro
    | with_reducible apply State.spdmRun_keeps | intro _ | with_reducible apply State.setSpdm_keeps
    | with_reducible apply State.signedReply_keeps | with_reducible apply State.answer_keeps
    | with_reducible apply KeepsOut.mk | with_reducible apply KeepsOut.mkFault
    | with_reducible apply KeepsOut.mkRefused | with_reducible apply KeepsOut.ite | intro _
    | with_reducible apply KeepsO.getD | with_reducible apply Keeps.ite
    | (with_reducible apply Keeps.forEach; rotate_left; intro s a) | simp only [Keeps.mk_iff] | split
    | (dsimp +zetaDelta only))

theorem execGetMeasurements_keeps (c : Conn) (index : Nat) (signed : Bool) (nonce : BitVec 256) (s : State) : KeepsOut s (execGetMeasurements c index signed nonce s) := by
  have hk := Keeps.refl s
  unfold execGetMeasurements
  repeat' (first
    | extract_lets | with_reducible assumption | with_reducible apply Keeps.refl | with_reducible apply True.intro
    | with_reducible apply State.spdmRun_keeps | intro _ | with_reducible apply State.setSpdm_keeps
    | with_reducible apply State.answer_keeps | with_reducible apply State.signedReply_keeps
    | with_reducible apply KeepsOut.mk | with_reducible apply KeepsOut.mkFault
    | with_reducible apply KeepsOut.mkRefused | with_reducible apply KeepsOut.ite | intro _
    | with_reducible apply KeepsO.getD | with_reducible apply Keeps.ite
    | (with_reducible apply Keeps.forEach; rotate_left; intro s a) | simp only [Keeps.mk_iff] | split
    | (dsimp +zetaDelta only))

theorem execGetPqChain_keeps (c : Conn) (off : BitVec 32) (len : BitVec 16) (s : State) : KeepsOut s (execGetPqChain c off len s) := by
  have hk := Keeps.refl s
  unfold execGetPqChain
  repeat' (first
    | extract_lets | with_reducible assumption | with_reducible apply Keeps.refl | with_reducible apply True.intro
    | with_reducible apply State.spdmRun_keeps | intro _ | with_reducible apply State.setSpdm_keeps
    | with_reducible apply State.answer_keeps | with_reducible apply KeepsOut.mk
    | with_reducible apply KeepsOut.mkFault | with_reducible apply KeepsOut.mkRefused
    | with_reducible apply KeepsOut.ite | intro _ | with_reducible apply KeepsO.getD
    | with_reducible apply Keeps.ite | (with_reducible apply Keeps.forEach; rotate_left; intro s a)
    | simp only [Keeps.mk_iff] | split | (dsimp +zetaDelta only))

theorem execCountersign_keeps (c : Conn) (s : State) : KeepsOut s (execCountersign c s) := by
  have hk := Keeps.refl s
  unfold execCountersign
  repeat' (first
    | extract_lets | with_reducible assumption | with_reducible apply Keeps.refl | with_reducible apply True.intro
    | with_reducible apply State.spdmRun_keeps | intro _ | with_reducible apply State.setSpdm_keeps
    | with_reducible apply State.answer_keeps | with_reducible apply State.drawn_keeps
    | with_reducible apply KeepsOut.mk | with_reducible apply KeepsOut.mkFault
    | with_reducible apply KeepsOut.mkRefused | with_reducible apply KeepsOut.ite | intro _
    | with_reducible apply KeepsO.getD | with_reducible apply Keeps.ite
    | (with_reducible apply Keeps.forEach; rotate_left; intro s a) | simp only [Keeps.mk_iff] | split
    | (dsimp +zetaDelta only))

theorem execChunkGet_keeps (c : Conn) (seq : Nat) (s : State) : KeepsOut s (execChunkGet c seq s) := by
  have hk := Keeps.refl s
  unfold execChunkGet
  repeat' (first
    | extract_lets | with_reducible assumption | with_reducible apply Keeps.refl | with_reducible apply True.intro
    | with_reducible apply State.spdmRun_keeps | intro _ | with_reducible apply State.setSpdm_keeps
    | with_reducible apply State.answer_keeps | with_reducible apply KeepsOut.mk
    | with_reducible apply KeepsOut.mkFault | with_reducible apply KeepsOut.mkRefused
    | with_reducible apply KeepsOut.ite | intro _ | with_reducible apply KeepsO.getD
    | with_reducible apply Keeps.ite | (with_reducible apply Keeps.forEach; rotate_left; intro s a)
    | simp only [Keeps.mk_iff] | split | (dsimp +zetaDelta only))

end Sys2Proof.Machine
end

