-- ==== Sys2Proof/Laws/KeepStart.lean ====
section
/-! SUPPORT. What the definitions of Machine/Start.lean keep (Keeps, Laws/Keep.lean). -/

set_option linter.all false

namespace Sys2Proof.Machine

theorem State.noteSig_keeps {z0 : State} (s : State) (kind fails : Nat) (hk : Keeps z0 s) :
    Keeps z0 (State.noteSig s kind fails) := by
  unfold State.noteSig
  repeat' (first
    | extract_lets | with_reducible assumption | with_reducible apply Keeps.refl | with_reducible apply True.intro
    | with_reducible apply State.sigFail_keeps | with_reducible apply KeepsO.getD | with_reducible apply Keeps.ite
    | (with_reducible apply Keeps.forEach; rotate_left; intro s a) | simp only [Keeps.mk_iff] | split
    | (dsimp +zetaDelta only))

theorem State.runFirmware_keeps {z0 : State} (s : State) (k : Nat) (fallback : Bool) (hk : Keeps z0 s) :
    Keeps z0 (State.runFirmware s k fallback) := by
  unfold State.runFirmware
  repeat' (first
    | extract_lets | with_reducible assumption | with_reducible apply Keeps.refl | with_reducible apply True.intro
    | with_reducible apply KeepsO.getD | with_reducible apply Keeps.ite
    | (with_reducible apply Keeps.forEach; rotate_left; intro s a) | simp only [Keeps.mk_iff] | split
    | (dsimp +zetaDelta only))

theorem State.bootFirmware_keeps {z : State} (s : State) (hk : Keeps z s) : Keeps z (s.bootFirmware).1 := by
  unfold State.bootFirmware
  repeat' (first
    | extract_lets | with_reducible assumption | with_reducible apply Keeps.refl | with_reducible apply True.intro
    | with_reducible apply State.noteSig_keeps | with_reducible apply State.runFirmware_keeps
    | with_reducible apply KeepsO.getD | with_reducible apply Keeps.ite
    | (with_reducible apply Keeps.forEach; rotate_left; intro s a) | simp only [Keeps.mk_iff] | split
    | (dsimp +zetaDelta only))

theorem State.bootFirmware_keeps_eq {z : State} (s : State) {q} (hk : Keeps z s) (w : s.bootFirmware = q) : Keeps z q.1 := by
  subst w; exact State.bootFirmware_keeps (hk := hk) ..

theorem State.readConfig_keeps {z : State} (s : State) (hk : Keeps z s) : Keeps z (s.readConfig).1 := by
  unfold State.readConfig
  repeat' (first
    | extract_lets | with_reducible assumption | with_reducible apply Keeps.refl | with_reducible apply True.intro
    | with_reducible apply State.noteSig_keeps | with_reducible apply KeepsO.getD | with_reducible apply Keeps.ite
    | (with_reducible apply Keeps.forEach; rotate_left; intro s a) | simp only [Keeps.mk_iff] | split
    | (dsimp +zetaDelta only))

theorem State.readConfig_keeps_eq {z : State} (s : State) {q} (hk : Keeps z s) (w : s.readConfig = q) : Keeps z q.1 := by
  subst w; exact State.readConfig_keeps (hk := hk) ..

theorem State.applyConfig_keeps {z : State} (s : State) (i : CfgImage) (hk : Keeps z s) : Keeps z (s.applyConfig i) := by
  unfold State.applyConfig
  extract_lets c warm old same s0 x s1 s2 s3 y s4 s5 s6 s7 new s8
  have h1 : Keeps z s1 := hk.trans ⟨rfl, id, id, id, Nat.le_refl _, Nat.le_refl _⟩
  have h2 : Keeps z s2 := Keeps.forEach h1 fun s l => State.setFld_keeps _ _ _ _ (Keeps.refl s)
  have h3 : Keeps z s3 := State.setFld_keeps _ _ _ _ h2
  have h4 : Keeps z s4 := Keeps.mk' h3 ..
  have h5 : Keeps z s5 := State.setFld_keeps _ _ _ _ (State.setFld_keeps _ _ _ _ h4)
  have h6 : Keeps z s6 := State.alertEdge_keeps _ _ (State.setFld_keeps _ _ _ _ h5)
  have h7 : Keeps z s7 := Keeps.forEach h6 fun s p => State.enablePort_keeps _ _ _ (Keeps.refl s)
  refine Keeps.ite h7 (State.useProfile_keeps _ _ (Keeps.ite (Keeps.forEach h7 fun s p => ?_) h7))
  extract_lets st
  exact Keeps.ite (Keeps.refl s) (State.trainPort_keeps _ _ (Keeps.refl s))

theorem State.stopThread_keeps {z0 : State} (s : State) (t : Nat) (hk : Keeps z0 s) :
    Keeps z0 (State.stopThread s t) := by
  unfold State.stopThread
  repeat' (first
    | extract_lets | with_reducible assumption | with_reducible apply Keeps.refl | with_reducible apply True.intro
    | with_reducible apply State.idleThread_keeps | with_reducible apply State.dropSteps_keeps
    | with_reducible apply State.setThread_keeps | with_reducible apply KeepsO.getD | with_reducible apply Keeps.ite
    | (with_reducible apply Keeps.forEach; rotate_left; intro s a) | simp only [Keeps.mk_iff] | split
    | (dsimp +zetaDelta only))

theorem State.stopWork_keeps {z0 : State} (s : State) (hk : Keeps z0 s) :
    Keeps z0 (State.stopWork s) := by
  unfold State.stopWork
  repeat' (first
    | extract_lets | with_reducible assumption | with_reducible apply Keeps.refl | with_reducible apply True.intro
    | with_reducible apply State.stopThread_keeps | with_reducible apply KeepsO.getD
    | with_reducible apply Keeps.ite | (with_reducible apply Keeps.forEach; rotate_left; intro s a)
    | simp only [Keeps.mk_iff] | split | (dsimp +zetaDelta only))

theorem State.resetBays_keeps {z0 : State} (s : State) (hk : Keeps z0 s) :
    Keeps z0 (State.resetBays s) := by
  unfold State.resetBays
  repeat' (first
    | extract_lets | with_reducible assumption | with_reducible apply Keeps.refl | with_reducible apply True.intro
    | with_reducible apply KeepsO.getD | with_reducible apply Keeps.ite
    | (with_reducible apply Keeps.forEach; rotate_left; intro s a) | simp only [Keeps.mk_iff] | split
    | (dsimp +zetaDelta only))

theorem State.darkLattice_keeps {z0 : State} (s : State) (l : Nat) (hk : Keeps z0 s) :
    Keeps z0 (State.darkLattice s l) := by
  unfold State.darkLattice
  repeat' (first
    | extract_lets | with_reducible assumption | with_reducible apply Keeps.refl | with_reducible apply True.intro
    | with_reducible apply State.enterLat_keeps | with_reducible apply State.modLat_keeps
    | with_reducible apply State.clearRings_keeps | with_reducible apply State.zeroHeaters_keeps
    | with_reducible apply KeepsO.getD | with_reducible apply Keeps.ite
    | (with_reducible apply Keeps.forEach; rotate_left; intro s a) | simp only [Keeps.mk_iff] | split
    | (dsimp +zetaDelta only))

theorem State.haltDevice_keeps {z : State} (s : State) (halt cause detail : Nat) (hk : Keeps z s) :
    Keeps z (s.haltDevice halt cause detail) := by
  unfold State.haltDevice
  extract_lets x s1 s2 s3 s4 s5 was y w s6 s7
  have h1 : Keeps z s1 := Keeps.mk' hk ..
  have h2 : Keeps z s2 := State.resetBays_keeps _ (State.stopWork_keeps _ h1)
  have h3 : Keeps z s3 := Keeps.forEach h2 fun s l => State.darkLattice_keeps _ _ (Keeps.refl s)
  have h4 : Keeps z s4 := Keeps.forEach h3 fun s h =>
    State.setBias_keeps _ _ _ (State.modComb_keeps _ _ _ (State.setCombSt_keeps _ _ _ (Keeps.refl s)))
  have h5 : Keeps z s5 := Keeps.forEach h4 fun s p =>
    Keeps.ite (Keeps.refl s) (State.portDown_keeps _ _ _ (Keeps.refl s))
  have h6 : Keeps z s6 := Keeps.mk' h5 ..
  have h7 : Keeps z s7 := State.setAlert_keeps _ _ (State.setStage_keeps _ _ h6)
  exact Keeps.ite (State.markChg_keeps _ _ h7) h7

theorem State.haltStart_keeps {z0 : State} (s : State) (cause detail : Nat) (hk : Keeps z0 s) :
    Keeps z0 (State.haltStart s cause detail) := by
  unfold State.haltStart
  repeat' (first
    | extract_lets | with_reducible assumption | with_reducible apply Keeps.refl | with_reducible apply True.intro
    | with_reducible apply State.haltDevice_keeps | with_reducible apply KeepsO.getD
    | with_reducible apply Keeps.ite | (with_reducible apply Keeps.forEach; rotate_left; intro s a)
    | simp only [Keeps.mk_iff] | split | (dsimp +zetaDelta only))

theorem State.haltInternal_keeps {z0 : State} (s : State) (hk : Keeps z0 s) :
    Keeps z0 (State.haltInternal s) := by
  unfold State.haltInternal
  repeat' (first
    | extract_lets | with_reducible assumption | with_reducible apply Keeps.refl | with_reducible apply True.intro
    | with_reducible apply State.event_keeps | with_reducible apply State.haltDevice_keeps
    | with_reducible apply KeepsO.getD | with_reducible apply Keeps.ite
    | (with_reducible apply Keeps.forEach; rotate_left; intro s a) | simp only [Keeps.mk_iff] | split
    | (dsimp +zetaDelta only))

theorem State.coldReset_keeps {z : State} (s : State) (hk : Keeps z s) : Keeps z s.coldReset :=
  hk.trans ⟨rfl, fun _ => rfl, id, fun _ => ⟨rfl, fun _ _ h => by simp [State.coldReset, State.reset] at h⟩, Nat.le_refl _,
    Nat.le_refl _⟩

theorem State.coldStart_keeps {z0 : State} (s : State) (hk : Keeps z0 s) :
    Keeps z0 (State.coldStart s) := by
  unfold State.coldStart
  repeat' (first
    | extract_lets | with_reducible assumption | with_reducible apply Keeps.refl | with_reducible apply True.intro
    | with_reducible apply State.coldReset_keeps | with_reducible apply State.deriveKeys_keeps
    | with_reducible apply KeepsO.getD | with_reducible apply Keeps.ite
    | (with_reducible apply Keeps.forEach; rotate_left; intro s a) | simp only [Keeps.mk_iff] | split
    | (dsimp +zetaDelta only))

theorem State.coldFirmware_keeps {z0 : State} (s : State) (hk : Keeps z0 s) :
    Keeps z0 (State.coldFirmware s) := by
  unfold State.coldFirmware
  repeat' (first
    | extract_lets | with_reducible assumption | with_reducible apply Keeps.refl | with_reducible apply True.intro
    | with_reducible apply State.replayJournal_keeps | with_reducible apply State.haltStart_keeps
    | with_reducible apply State.setStage_keeps | with_reducible apply State.drawNonce_keeps
    | with_reducible apply State.bootFirmware_keeps
    | with_reducible refine State.bootFirmware_keeps_eq (w := by assumption) (hk := ?_) ..
    | with_reducible apply KeepsO.getD | with_reducible apply Keeps.ite
    | (with_reducible apply Keeps.forEach; rotate_left; intro s a) | simp only [Keeps.mk_iff] | split
    | (dsimp +zetaDelta only))

theorem State.replayFences_keeps {z0 : State} (s : State) (hk : Keeps z0 s) :
    Keeps z0 (State.replayFences s) := by
  unfold State.replayFences
  repeat' (first
    | extract_lets | with_reducible assumption | with_reducible apply Keeps.refl | with_reducible apply True.intro
    | with_reducible apply State.enterLat_keeps | with_reducible apply KeepsO.getD | with_reducible apply Keeps.ite
    | (with_reducible apply Keeps.forEach; rotate_left; intro s a) | simp only [Keeps.mk_iff] | split
    | (dsimp +zetaDelta only))

theorem State.replayBias_keeps {z0 : State} (s : State) (hk : Keeps z0 s) :
    Keeps z0 (State.replayBias s) := by
  unfold State.replayBias
  repeat' (first
    | extract_lets | with_reducible assumption | with_reducible apply Keeps.refl | with_reducible apply True.intro
    | with_reducible apply State.modComb_keeps | with_reducible apply KeepsO.getD | with_reducible apply Keeps.ite
    | (with_reducible apply Keeps.forEach; rotate_left; intro s a) | simp only [Keeps.mk_iff] | split
    | (dsimp +zetaDelta only))

theorem State.replayState_keeps {z0 : State} (s : State) (hk : Keeps z0 s) :
    Keeps z0 (State.replayState s) := by
  unfold State.replayState
  repeat' (first
    | extract_lets | with_reducible assumption | with_reducible apply Keeps.refl | with_reducible apply True.intro
    | with_reducible apply State.replayFences_keeps | with_reducible apply State.replayBias_keeps
    | with_reducible apply State.modLat_keeps | with_reducible apply KeepsO.getD | with_reducible apply Keeps.ite
    | (with_reducible apply Keeps.forEach; rotate_left; intro s a) | simp only [Keeps.mk_iff] | split
    | (dsimp +zetaDelta only))

theorem State.coldJournal_keeps {z0 : State} (s : State) (hk : Keeps z0 s) :
    Keeps z0 (State.coldJournal s) := by
  unfold State.coldJournal
  repeat' (first
    | extract_lets | with_reducible assumption | with_reducible apply Keeps.refl | with_reducible apply True.intro
    | with_reducible apply State.replayState_keeps | with_reducible apply State.setStage_keeps
    | with_reducible apply KeepsO.getD | with_reducible apply Keeps.ite
    | (with_reducible apply Keeps.forEach; rotate_left; intro s a) | simp only [Keeps.mk_iff] | split
    | (dsimp +zetaDelta only))

theorem State.openPort_keeps {z0 : State} (s : State) (hk : Keeps z0 s) :
    Keeps z0 (State.openPort s) := by
  unfold State.openPort
  repeat' (first
    | extract_lets | with_reducible assumption | with_reducible apply Keeps.refl | with_reducible apply True.intro
    | with_reducible apply KeepsO.getD | with_reducible apply Keeps.ite
    | (with_reducible apply Keeps.forEach; rotate_left; intro s a) | simp only [Keeps.mk_iff] | split
    | (dsimp +zetaDelta only))

theorem State.startOptics_keeps {z0 : State} (s : State) (hk : Keeps z0 s) :
    Keeps z0 (State.startOptics s) := by
  unfold State.startOptics
  repeat' (first
    | extract_lets | with_reducible assumption | with_reducible apply Keeps.refl | with_reducible apply True.intro
    | with_reducible apply State.setStage_keeps | with_reducible apply State.retarget_keeps
    | with_reducible apply State.startComb_keeps | with_reducible apply KeepsO.getD | with_reducible apply Keeps.ite
    | (with_reducible apply Keeps.forEach; rotate_left; intro s a) | simp only [Keeps.mk_iff] | split
    | (dsimp +zetaDelta only))

theorem State.coldConfig_keeps {z0 : State} (s : State) (hk : Keeps z0 s) :
    Keeps z0 (State.coldConfig s) := by
  unfold State.coldConfig
  repeat' (first
    | extract_lets | with_reducible assumption | with_reducible apply Keeps.refl | with_reducible apply True.intro
    | with_reducible apply State.haltStart_keeps | with_reducible apply State.applyConfig_keeps
    | with_reducible apply State.setStage_keeps | with_reducible apply State.openPort_keeps
    | with_reducible apply State.startOptics_keeps | with_reducible apply State.finishStart_keeps
    | with_reducible apply State.readConfig_keeps
    | with_reducible refine State.readConfig_keeps_eq (w := by assumption) (hk := ?_) ..
    | with_reducible apply KeepsO.getD | with_reducible apply Keeps.ite
    | (with_reducible apply Keeps.forEach; rotate_left; intro s a) | simp only [Keeps.mk_iff] | split
    | (dsimp +zetaDelta only))

theorem State.lockLattice_keeps {z0 : State} (s : State) (l : Nat) (hk : Keeps z0 s) :
    Keeps z0 (State.lockLattice s l) := by
  unfold State.lockLattice
  repeat' (first
    | extract_lets | with_reducible assumption | with_reducible apply Keeps.refl | with_reducible apply True.intro
    | with_reducible apply State.loseHold_keeps | with_reducible apply State.modLat_keeps
    | with_reducible apply State.drainLat_keeps | with_reducible apply State.enterLat_keeps
    | with_reducible apply KeepsO.getD | with_reducible apply Keeps.ite
    | (with_reducible apply Keeps.forEach; rotate_left; intro s a) | simp only [Keeps.mk_iff] | split
    | (dsimp +zetaDelta only))

theorem State.warmContexts_keeps {z0 : State} (s : State) (hk : Keeps z0 s) :
    Keeps z0 (State.warmContexts s) := by
  unfold State.warmContexts
  repeat' (first
    | extract_lets | with_reducible assumption | with_reducible apply Keeps.refl | with_reducible apply True.intro
    | with_reducible apply State.ctxDrained_keeps | with_reducible apply State.modCtx_keeps
    | with_reducible apply State.threadMemoryFault_keeps | with_reducible apply State.makeReady_keeps
    | with_reducible apply State.refreshCtx_keeps | with_reducible apply KeepsO.getD
    | with_reducible apply Keeps.ite | (with_reducible apply Keeps.forEach; rotate_left; intro s a)
    | simp only [Keeps.mk_iff] | split | (dsimp +zetaDelta only))

theorem State.reissuePut_keeps {z0 : State} (s : State) (t : Nat) (hk : Keeps z0 s) :
    Keeps z0 (State.reissuePut s t) := by
  unfold State.reissuePut
  repeat' (first
    | extract_lets | with_reducible assumption | with_reducible apply Keeps.refl | with_reducible apply True.intro
    | with_reducible apply State.putWord_keeps | with_reducible apply State.modCtx_keeps
    | with_reducible apply KeepsO.getD | with_reducible apply Keeps.ite
    | (with_reducible apply Keeps.forEach; rotate_left; intro s a) | simp only [Keeps.mk_iff] | split
    | (dsimp +zetaDelta only))

theorem State.warmRestart_keeps {z : State} (s : State) (hk : Keeps z s) : Keeps z s.warmRestart := by
  unfold State.warmRestart
  extract_lets s1 s2 x y w p v s3 s4 s5 s6 s7 s8
  have h1 : Keeps z s1 := State.abandonBinds_keeps _ (Keeps.forEach hk fun s l => State.endOutage_keeps _ _ (Keeps.refl s))
  have h2 : Keeps z s2 := State.endToken_keeps _ h1
  clear_value s2
  have h3 : Keeps z s3 := h2.trans ⟨rfl, id, id, id, Nat.le_refl _, Nat.le_refl _⟩
  have h4 : Keeps z s4 := State.setStage_keeps _ _ h3
  have h5 : Keeps z s5 := Keeps.forEach h4 fun s l =>
    State.setStale_keeps _ _ _ (State.loseHold_keeps _ _ (Keeps.refl s))
  have h6 : Keeps z s6 := State.stopWork_keeps _ h5
  have h7 : Keeps z s7 := Keeps.forEach h6 fun s l => State.lockLattice_keeps _ _ (Keeps.refl s)
  have h8 : Keeps z s8 := State.resetWarmFields_keeps _ (State.resetBays_keeps _ h7)
  exact Keeps.forEach h8 fun s l => State.follow_keeps _ _ (Keeps.refl s)

theorem State.warmManagement_keeps {z0 : State} (s : State) (hk : Keeps z0 s) :
    Keeps z0 (State.warmManagement s) := by
  unfold State.warmManagement
  repeat' (first
    | extract_lets | with_reducible assumption | with_reducible apply Keeps.refl | with_reducible apply True.intro
    | with_reducible apply KeepsO.getD | with_reducible apply Keeps.ite
    | (with_reducible apply Keeps.forEach; rotate_left; intro s a) | simp only [Keeps.mk_iff] | split
    | (dsimp +zetaDelta only))

theorem State.warmFirmware_keeps {z0 : State} (s : State) (hk : Keeps z0 s) :
    Keeps z0 (State.warmFirmware s) := by
  unfold State.warmFirmware
  repeat' (first
    | extract_lets | with_reducible assumption | with_reducible apply Keeps.refl | with_reducible apply True.intro
    | with_reducible apply State.haltStart_keeps | with_reducible apply State.replayState_keeps
    | with_reducible apply State.setStage_keeps | with_reducible apply State.deriveKeys_keeps
    | with_reducible apply State.drawNonce_keeps | with_reducible apply State.bootFirmware_keeps
    | with_reducible refine State.bootFirmware_keeps_eq (w := by assumption) (hk := ?_) ..
    | with_reducible apply KeepsO.getD | with_reducible apply Keeps.ite
    | (with_reducible apply Keeps.forEach; rotate_left; intro s a) | simp only [Keeps.mk_iff] | split
    | (dsimp +zetaDelta only))

theorem State.zeroMoved_keeps {z : State} (s : State) (old new : Nat) (hk : Keeps z s) : Keeps z (s.zeroMoved old new) := by
  unfold State.zeroMoved
  extract_lets lo n
  refine Keeps.forEach hk fun s b => ?_
  extract_lets a
  exact ⟨rfl, Memory.wf_memClear _ _ _, id, id, Nat.le_refl _, Nat.le_refl _⟩

theorem State.changeHostMem_keeps {z0 : State} (s : State) (hk : Keeps z0 s) :
    Keeps z0 (State.changeHostMem s) := by
  unfold State.changeHostMem
  repeat' (first
    | extract_lets | with_reducible assumption | with_reducible apply Keeps.refl | with_reducible apply True.intro
    | with_reducible apply State.sendInv_keeps | with_reducible apply State.poisonAnswer_keeps
    | with_reducible apply KeepsO.getD | with_reducible apply Keeps.ite
    | (with_reducible apply Keeps.forEach; rotate_left; intro s a) | simp only [Keeps.mk_iff] | split
    | (dsimp +zetaDelta only))

theorem State.warmConfig_keeps {z0 : State} (s : State) (hk : Keeps z0 s) :
    Keeps z0 (State.warmConfig s) := by
  unfold State.warmConfig
  repeat' (first
    | extract_lets | with_reducible assumption | with_reducible apply Keeps.refl | with_reducible apply True.intro
    | with_reducible apply State.haltStart_keeps | with_reducible apply State.applyConfig_keeps
    | with_reducible apply State.setStage_keeps | with_reducible apply State.openPort_keeps
    | with_reducible apply State.warmContexts_keeps | with_reducible apply State.reissuePut_keeps
    | with_reducible apply State.startOptics_keeps | with_reducible apply State.finishStart_keeps
    | with_reducible apply State.readConfig_keeps
    | with_reducible refine State.readConfig_keeps_eq (w := by assumption) (hk := ?_) ..
    | with_reducible apply KeepsO.getD | with_reducible apply Keeps.ite
    | (with_reducible apply Keeps.forEach; rotate_left; intro s a) | simp only [Keeps.mk_iff] | split
    | (dsimp +zetaDelta only))

theorem State.warmRead_keeps {z0 : State} (s : State) (hk : Keeps z0 s) :
    Keeps z0 (State.warmRead s) := by
  unfold State.warmRead
  repeat' (first
    | extract_lets | with_reducible assumption | with_reducible apply Keeps.refl | with_reducible apply True.intro
    | with_reducible apply State.warmConfig_keeps | with_reducible apply State.changeHostMem_keeps
    | with_reducible apply State.readConfig_keeps
    | with_reducible refine State.readConfig_keeps_eq (w := by assumption) (hk := ?_) ..
    | with_reducible apply KeepsO.getD | with_reducible apply Keeps.ite
    | (with_reducible apply Keeps.forEach; rotate_left; intro s a) | simp only [Keeps.mk_iff] | split
    | (dsimp +zetaDelta only))

theorem State.warmMoved_keeps {z0 : State} (s : State) (hk : Keeps z0 s) :
    Keeps z0 (State.warmMoved s) := by
  unfold State.warmMoved
  repeat' (first
    | extract_lets | with_reducible assumption | with_reducible apply Keeps.refl | with_reducible apply True.intro
    | with_reducible apply State.warmConfig_keeps | with_reducible apply State.zeroMoved_keeps
    | with_reducible apply State.cxlRecord_keeps | with_reducible apply State.readConfig_keeps
    | with_reducible refine State.readConfig_keeps_eq (w := by assumption) (hk := ?_) ..
    | with_reducible apply KeepsO.getD | with_reducible apply Keeps.ite
    | (with_reducible apply Keeps.forEach; rotate_left; intro s a) | simp only [Keeps.mk_iff] | split
    | (dsimp +zetaDelta only))

theorem State.nextPhase_keeps {z0 : State} (s : State) (hk : Keeps z0 s) :
    Keeps z0 (State.nextPhase s) := by
  unfold State.nextPhase
  repeat' (first
    | extract_lets | with_reducible assumption | with_reducible apply Keeps.refl | with_reducible apply True.intro
    | with_reducible apply State.coldFirmware_keeps | with_reducible apply State.coldJournal_keeps
    | with_reducible apply State.coldConfig_keeps | with_reducible apply State.warmManagement_keeps
    | with_reducible apply State.warmFirmware_keeps | with_reducible apply State.warmRead_keeps
    | with_reducible apply State.warmMoved_keeps | with_reducible apply KeepsO.getD | with_reducible apply Keeps.ite
    | (with_reducible apply Keeps.forEach; rotate_left; intro s a) | simp only [Keeps.mk_iff] | split
    | (dsimp +zetaDelta only))

theorem State.catchUp_keeps {z0 : State} (s : State) (hk : Keeps z0 s) :
    Keeps z0 (State.catchUp s) := by
  unfold State.catchUp
  repeat' (first
    | extract_lets | with_reducible assumption | with_reducible apply Keeps.refl | with_reducible apply True.intro
    | with_reducible apply State.nextPhase_keeps | with_reducible apply KeepsO.getD | with_reducible apply Keeps.ite
    | (with_reducible apply Keeps.forEach; rotate_left; intro s a) | simp only [Keeps.mk_iff] | split
    | (dsimp +zetaDelta only))

theorem State.requestRestart_keeps {z0 : State} (s : State) (hk : Keeps z0 s) :
    Keeps z0 (State.requestRestart s) := by
  unfold State.requestRestart
  repeat' (first
    | extract_lets | with_reducible assumption | with_reducible apply Keeps.refl | with_reducible apply True.intro
    | with_reducible apply State.warmRestart_keeps | with_reducible apply State.event_keeps
    | with_reducible apply KeepsO.getD | with_reducible apply Keeps.ite
    | (with_reducible apply Keeps.forEach; rotate_left; intro s a) | simp only [Keeps.mk_iff] | split
    | (dsimp +zetaDelta only))

theorem State.writeRestart_keeps {z0 : State} (s : State) (p : Path) (v : Nat) (hk : Keeps z0 s) :
    Keeps z0 (State.writeRestart s p v) := by
  unfold State.writeRestart
  repeat' (first
    | extract_lets | with_reducible assumption | with_reducible apply Keeps.refl | with_reducible apply True.intro
    | with_reducible apply State.refuse_keeps | with_reducible apply State.requestRestart_keeps
    | with_reducible apply KeepsO.getD | with_reducible apply Keeps.ite
    | (with_reducible apply Keeps.forEach; rotate_left; intro s a) | simp only [Keeps.mk_iff] | split
    | (dsimp +zetaDelta only))

theorem execNvmRestart_keeps (p : Path) (s : State) : KeepsOut s (execNvmRestart p s) := by
  have hk := Keeps.refl s
  unfold execNvmRestart
  repeat' (first
    | extract_lets | with_reducible assumption | with_reducible apply Keeps.refl | with_reducible apply True.intro
    | with_reducible apply State.writeRestart_keeps | with_reducible apply KeepsOut.mk
    | with_reducible apply KeepsOut.mkFault | with_reducible apply KeepsOut.mkRefused
    | with_reducible apply KeepsOut.ite | intro _ | with_reducible apply KeepsO.getD
    | with_reducible apply Keeps.ite | (with_reducible apply Keeps.forEach; rotate_left; intro s a)
    | simp only [Keeps.mk_iff] | split | (dsimp +zetaDelta only))

theorem execCalSaveComplete_keeps (s : State) : KeepsOut s (execCalSaveComplete s) := by
  have hk := Keeps.refl s
  unfold execCalSaveComplete
  repeat' (first
    | extract_lets | with_reducible assumption | with_reducible apply Keeps.refl | with_reducible apply True.intro
    | with_reducible apply State.endSave_keeps | with_reducible apply State.requestRestart_keeps
    | with_reducible apply KeepsOut.mk | with_reducible apply KeepsOut.mkFault
    | with_reducible apply KeepsOut.mkRefused | with_reducible apply KeepsOut.ite | intro _
    | with_reducible apply KeepsO.getD | with_reducible apply Keeps.ite
    | (with_reducible apply Keeps.forEach; rotate_left; intro s a) | simp only [Keeps.mk_iff] | split
    | (dsimp +zetaDelta only))

theorem State.combReady_keeps {z0 : State} (s : State) (h : Nat) (hk : Keeps z0 s) :
    Keeps z0 (State.combReady s h) := by
  unfold State.combReady
  repeat' (first
    | extract_lets | with_reducible assumption | with_reducible apply Keeps.refl | with_reducible apply True.intro
    | with_reducible apply State.setCombSt_keeps | with_reducible apply State.modComb_keeps
    | with_reducible apply State.setLat_keeps | with_reducible apply State.clearRings_keeps
    | with_reducible apply State.setCluster_keeps | with_reducible apply KeepsO.getD
    | with_reducible apply Keeps.ite | (with_reducible apply Keeps.forEach; rotate_left; intro s a)
    | simp only [Keeps.mk_iff] | split | (dsimp +zetaDelta only))

theorem State.reach_keeps {z0 : State} (s : State) (h : Nat) (hk : Keeps z0 s) :
    Keeps z0 (State.reach s h) := by
  unfold State.reach
  repeat' (first
    | extract_lets | with_reducible assumption | with_reducible apply Keeps.refl | with_reducible apply True.intro
    | with_reducible apply State.catchUp_keeps | with_reducible apply KeepsO.getD | with_reducible apply Keeps.ite
    | (with_reducible apply Keeps.forEach; rotate_left; intro s a) | simp only [Keeps.mk_iff] | split
    | (dsimp +zetaDelta only))

theorem execHoneycombReady_keeps (h : Fin 10) (s : State) : KeepsOut s (execHoneycombReady h s) := by
  have hk := Keeps.refl s
  unfold execHoneycombReady
  repeat' (first
    | extract_lets | with_reducible assumption | with_reducible apply Keeps.refl | with_reducible apply True.intro
    | with_reducible apply State.reach_keeps | with_reducible apply State.combReady_keeps
    | with_reducible apply KeepsOut.mk | with_reducible apply KeepsOut.mkFault
    | with_reducible apply KeepsOut.mkRefused | with_reducible apply KeepsOut.ite | intro _
    | with_reducible apply KeepsO.getD | with_reducible apply Keeps.ite
    | (with_reducible apply Keeps.forEach; rotate_left; intro s a) | simp only [Keeps.mk_iff] | split
    | (dsimp +zetaDelta only))

theorem execHoneycombStartTimeout_keeps (h : Fin 10) (s : State) : KeepsOut s (execHoneycombStartTimeout h s) := by
  have hk := Keeps.refl s
  unfold execHoneycombStartTimeout
  repeat' (first
    | extract_lets | with_reducible assumption | with_reducible apply Keeps.refl | with_reducible apply True.intro
    | with_reducible apply State.reach_keeps | with_reducible apply State.setCombSt_keeps
    | with_reducible apply State.bump_keeps | with_reducible apply State.event_keeps
    | with_reducible apply State.fenceLattice_keeps | with_reducible apply KeepsOut.mk
    | with_reducible apply KeepsOut.mkFault | with_reducible apply KeepsOut.mkRefused
    | with_reducible apply KeepsOut.ite | intro _ | with_reducible apply KeepsO.getD
    | with_reducible apply Keeps.ite | (with_reducible apply Keeps.forEach; rotate_left; intro s a)
    | simp only [Keeps.mk_iff] | split | (dsimp +zetaDelta only))

theorem execCalCheckEnd_keeps (l : Fin 8) (s : State) : KeepsOut s (execCalCheckEnd l s) := by
  unfold execCalCheckEnd
  extract_lets s1 x s2
  have h1 : Keeps s s1 := State.catchUp_keeps _ (Keeps.refl s)
  clear_value s1
  have h2 : Keeps s s2 := Keeps.ite
    (State.event_keeps _ _ _ _ _ _ (State.bump_keeps _ _ _ _ (State.setStale_keeps _ _ _ h1))) h1
  clear_value s2
  split
  · split
    · exact State.serve_keeps _ _ _ h2
    · exact State.modLat_keeps _ _ _ h2
  · exact h1

theorem execPerstNDeassert_keeps (msSincePwrOk : Nat) (s : State) : KeepsOut s (execPerstNDeassert msSincePwrOk s) := by
  have hk := Keeps.refl s
  unfold execPerstNDeassert
  repeat' (first
    | extract_lets | with_reducible assumption | with_reducible apply Keeps.refl | with_reducible apply True.intro
    | with_reducible apply State.coldStart_keeps | with_reducible apply KeepsOut.mk
    | with_reducible apply KeepsOut.mkFault | with_reducible apply KeepsOut.mkRefused
    | with_reducible apply KeepsOut.ite | intro _ | with_reducible apply KeepsO.getD
    | with_reducible apply Keeps.ite | (with_reducible apply Keeps.forEach; rotate_left; intro s a)
    | simp only [Keeps.mk_iff] | split | (dsimp +zetaDelta only))

theorem execPerstDeferredEffect_keeps (s : State) : KeepsOut s (execPerstDeferredEffect s) := by
  have hk := Keeps.refl s
  unfold execPerstDeferredEffect
  repeat' (first
    | extract_lets | with_reducible assumption | with_reducible apply Keeps.refl | with_reducible apply True.intro
    | with_reducible apply State.coldStart_keeps | with_reducible apply KeepsOut.mk
    | with_reducible apply KeepsOut.mkFault | with_reducible apply KeepsOut.mkRefused
    | with_reducible apply KeepsOut.ite | intro _ | with_reducible apply KeepsO.getD
    | with_reducible apply Keeps.ite | (with_reducible apply Keeps.forEach; rotate_left; intro s a)
    | simp only [Keeps.mk_iff] | split | (dsimp +zetaDelta only))

theorem execPerstNAssert_keeps (s : State) : KeepsOut s (execPerstNAssert s) := by
  have hk := Keeps.refl s
  unfold execPerstNAssert
  repeat' (first
    | extract_lets | with_reducible assumption | with_reducible apply Keeps.refl | with_reducible apply True.intro
    | with_reducible apply State.endToken_keeps | with_reducible apply State.halted_keeps
    | with_reducible apply KeepsOut.mk | with_reducible apply KeepsOut.mkFault
    | with_reducible apply KeepsOut.mkRefused | with_reducible apply KeepsOut.ite | intro _
    | with_reducible apply KeepsO.getD | with_reducible apply Keeps.ite
    | (with_reducible apply Keeps.forEach; rotate_left; intro s a) | simp only [Keeps.mk_iff] | split
    | (dsimp +zetaDelta only))

theorem execPwrOkAssert_keeps (s : State) : KeepsOut s (execPwrOkAssert s) := by
  have hk := Keeps.refl s
  unfold execPwrOkAssert
  repeat' (first
    | extract_lets | with_reducible assumption | with_reducible apply Keeps.refl | with_reducible apply True.intro
    | with_reducible apply KeepsOut.mk | with_reducible apply KeepsOut.mkFault
    | with_reducible apply KeepsOut.mkRefused | with_reducible apply KeepsOut.ite | intro _
    | with_reducible apply KeepsO.getD | with_reducible apply Keeps.ite
    | (with_reducible apply Keeps.forEach; rotate_left; intro s a) | simp only [Keeps.mk_iff] | split
    | (dsimp +zetaDelta only))

theorem State.powerGone_keeps {z0 : State} (s : State) (hk : Keeps z0 s) :
    Keeps z0 (State.powerGone s) := by
  unfold State.powerGone
  repeat' (first
    | extract_lets | with_reducible assumption | with_reducible apply Keeps.refl | with_reducible apply True.intro
    | with_reducible apply State.stopDevice_keeps | with_reducible apply KeepsO.getD
    | with_reducible apply Keeps.ite | (with_reducible apply Keeps.forEach; rotate_left; intro s a)
    | simp only [Keeps.mk_iff] | split | (dsimp +zetaDelta only))

theorem execPwrOkDeassert_keeps (s : State) : KeepsOut s (execPwrOkDeassert s) := by
  have hk := Keeps.refl s
  unfold execPwrOkDeassert
  repeat' (first
    | extract_lets | with_reducible assumption | with_reducible apply Keeps.refl | with_reducible apply True.intro
    | with_reducible apply State.powerGone_keeps | with_reducible apply KeepsOut.mk
    | with_reducible apply KeepsOut.mkFault | with_reducible apply KeepsOut.mkRefused
    | with_reducible apply KeepsOut.ite | intro _ | with_reducible apply KeepsO.getD
    | with_reducible apply Keeps.ite | (with_reducible apply Keeps.forEach; rotate_left; intro s a)
    | simp only [Keeps.mk_iff] | split | (dsimp +zetaDelta only))

theorem execRailOutOfWindow_keeps (r : Rail) (s : State) : KeepsOut s (execRailOutOfWindow r s) := by
  have hk := Keeps.refl s
  unfold execRailOutOfWindow
  repeat' (first
    | extract_lets | with_reducible assumption | with_reducible apply Keeps.refl | with_reducible apply True.intro
    | with_reducible apply State.powerGone_keeps | with_reducible apply KeepsOut.mk
    | with_reducible apply KeepsOut.mkFault | with_reducible apply KeepsOut.mkRefused
    | with_reducible apply KeepsOut.ite | intro _ | with_reducible apply KeepsO.getD
    | with_reducible apply Keeps.ite | (with_reducible apply Keeps.forEach; rotate_left; intro s a)
    | simp only [Keeps.mk_iff] | split | (dsimp +zetaDelta only))

theorem execVddAuxPowerUp_keeps (clksel : Bool) (s : State) : KeepsOut s (execVddAuxPowerUp clksel s) := by
  have hk := Keeps.refl s
  unfold execVddAuxPowerUp
  repeat' (first
    | extract_lets | with_reducible assumption | with_reducible apply Keeps.refl | with_reducible apply True.intro
    | with_reducible apply KeepsOut.mk | with_reducible apply KeepsOut.mkFault
    | with_reducible apply KeepsOut.mkRefused | with_reducible apply KeepsOut.ite | intro _
    | with_reducible apply KeepsO.getD | with_reducible apply Keeps.ite
    | (with_reducible apply Keeps.forEach; rotate_left; intro s a) | simp only [Keeps.mk_iff] | split
    | (dsimp +zetaDelta only))

theorem execVddAuxLoss_keeps (s : State) : KeepsOut s (execVddAuxLoss s) := by
  have hk := Keeps.refl s
  unfold execVddAuxLoss
  repeat' (first
    | extract_lets | with_reducible assumption | with_reducible apply Keeps.refl | with_reducible apply True.intro
    | with_reducible apply State.powerGone_keeps | with_reducible apply KeepsOut.mk
    | with_reducible apply KeepsOut.mkFault | with_reducible apply KeepsOut.mkRefused
    | with_reducible apply KeepsOut.ite | intro _ | with_reducible apply KeepsO.getD
    | with_reducible apply Keeps.ite | (with_reducible apply Keeps.forEach; rotate_left; intro s a)
    | simp only [Keeps.mk_iff] | split | (dsimp +zetaDelta only))

theorem State.internalRestart_keeps {z0 : State} (s : State) (uk : UnitKind) (u : Nat) (hk : Keeps z0 s) :
    Keeps z0 (State.internalRestart s uk u) := by
  unfold State.internalRestart
  repeat' (first
    | extract_lets | with_reducible assumption | with_reducible apply Keeps.refl | with_reducible apply True.intro
    | with_reducible apply State.bump_keeps | with_reducible apply State.event_keeps
    | with_reducible apply State.warmRestart_keeps | with_reducible apply KeepsO.getD
    | with_reducible apply Keeps.ite | (with_reducible apply Keeps.forEach; rotate_left; intro s a)
    | simp only [Keeps.mk_iff] | split | (dsimp +zetaDelta only))

theorem State.upsetLattice_keeps {z0 : State} (s : State) (l : Nat) (hk : Keeps z0 s) :
    Keeps z0 (State.upsetLattice s l) := by
  unfold State.upsetLattice
  repeat' (first
    | extract_lets | with_reducible assumption | with_reducible apply Keeps.refl | with_reducible apply True.intro
    | with_reducible apply State.startOutage_keeps | with_reducible apply State.drainLat_keeps
    | with_reducible apply State.modLat_keeps | with_reducible apply KeepsO.getD | with_reducible apply Keeps.ite
    | (with_reducible apply Keeps.forEach; rotate_left; intro s a) | simp only [Keeps.mk_iff] | split
    | (dsimp +zetaDelta only))

theorem State.bayUpset_keeps {z0 : State} (s : State) (b : Nat) (i : BayIsland) (hk : Keeps z0 s) :
    Keeps z0 (State.bayUpset s b i) := by
  unfold State.bayUpset
  repeat' (first
    | extract_lets | with_reducible assumption | with_reducible apply Keeps.refl | with_reducible apply True.intro
    | with_reducible apply State.internalRestart_keeps | with_reducible apply State.event_keeps
    | with_reducible apply State.bump_keeps | with_reducible apply State.setWarn_keeps
    | with_reducible apply State.modBay_keeps | with_reducible apply State.upsetLattice_keeps
    | with_reducible apply State.tryEndUpset_keeps | with_reducible apply KeepsO.getD
    | with_reducible apply Keeps.ite | (with_reducible apply Keeps.forEach; rotate_left; intro s a)
    | simp only [Keeps.mk_iff] | split | (dsimp +zetaDelta only))

theorem State.islandError_keeps {z0 : State} (s : State) (i : Island) (hk : Keeps z0 s) :
    Keeps z0 (State.islandError s i) := by
  unfold State.islandError
  repeat' (first
    | extract_lets | with_reducible assumption | with_reducible apply Keeps.refl | with_reducible apply True.intro
    | with_reducible apply State.internalRestart_keeps | with_reducible apply State.bayUpset_keeps
    | with_reducible apply State.rasError_keeps | with_reducible apply State.haltInternal_keeps
    | with_reducible apply KeepsO.getD | with_reducible apply Keeps.ite
    | (with_reducible apply Keeps.forEach; rotate_left; intro s a) | simp only [Keeps.mk_iff] | split
    | (dsimp +zetaDelta only))

theorem State.reservedError_keeps {z0 : State} (s : State) (l line : Nat) (second : Option Nat) (hk : Keeps z0 s) :
    Keeps z0 (State.reservedError s l line second) := by
  unfold State.reservedError
  repeat' (first
    | extract_lets | with_reducible assumption | with_reducible apply Keeps.refl | with_reducible apply True.intro
    | with_reducible apply State.uncorrectable_keeps | with_reducible apply State.setPoison_keeps
    | with_reducible apply State.raiseReadout_keeps | with_reducible apply KeepsO.getD
    | with_reducible apply Keeps.ite | (with_reducible apply Keeps.forEach; rotate_left; intro s a)
    | simp only [Keeps.mk_iff] | split | (dsimp +zetaDelta only))

theorem State.internalErr_keeps {z0 : State} (s : State) (w : ErrWhere) (hk : Keeps z0 s) :
    Keeps z0 (State.internalErr s w) := by
  unfold State.internalErr
  repeat' (first
    | extract_lets | with_reducible assumption | with_reducible apply Keeps.refl | with_reducible apply True.intro
    | with_reducible apply State.haltInternal_keeps | with_reducible apply State.islandError_keeps
    | with_reducible apply State.reservedError_keeps | with_reducible apply KeepsO.getD
    | with_reducible apply Keeps.ite | (with_reducible apply Keeps.forEach; rotate_left; intro s a)
    | simp only [Keeps.mk_iff] | split | (dsimp +zetaDelta only))

theorem execInternalError_keeps (w : ErrWhere) (s : State) : KeepsOut s (execInternalError w s) := by
  have hk := Keeps.refl s
  unfold execInternalError
  repeat' (first
    | extract_lets | with_reducible assumption | with_reducible apply Keeps.refl | with_reducible apply True.intro
    | with_reducible apply State.internalErr_keeps | with_reducible apply KeepsOut.mk
    | with_reducible apply KeepsOut.mkFault | with_reducible apply KeepsOut.mkRefused
    | with_reducible apply KeepsOut.ite | intro _ | with_reducible apply KeepsO.getD
    | with_reducible apply Keeps.ite | (with_reducible apply Keeps.forEach; rotate_left; intro s a)
    | simp only [Keeps.mk_iff] | split | (dsimp +zetaDelta only))

theorem execHandshakeStall_keeps (i : Island) (s : State) : KeepsOut s (execHandshakeStall i s) := by
  have hk := Keeps.refl s
  unfold execHandshakeStall
  repeat' (first
    | extract_lets | with_reducible assumption | with_reducible apply Keeps.refl | with_reducible apply True.intro
    | with_reducible apply State.internalErr_keeps | with_reducible apply KeepsOut.mk
    | with_reducible apply KeepsOut.mkFault | with_reducible apply KeepsOut.mkRefused
    | with_reducible apply KeepsOut.ite | intro _ | with_reducible apply KeepsO.getD
    | with_reducible apply Keeps.ite | (with_reducible apply Keeps.forEach; rotate_left; intro s a)
    | simp only [Keeps.mk_iff] | split | (dsimp +zetaDelta only))

theorem execPllRelockTimeout_keeps (i : Island) (s : State) : KeepsOut s (execPllRelockTimeout i s) := by
  have hk := Keeps.refl s
  unfold execPllRelockTimeout
  repeat' (first
    | extract_lets | with_reducible assumption | with_reducible apply Keeps.refl | with_reducible apply True.intro
    | with_reducible apply State.internalErr_keeps | with_reducible apply KeepsOut.mk
    | with_reducible apply KeepsOut.mkFault | with_reducible apply KeepsOut.mkRefused
    | with_reducible apply KeepsOut.ite | intro _ | with_reducible apply KeepsO.getD
    | with_reducible apply Keeps.ite | (with_reducible apply Keeps.forEach; rotate_left; intro s a)
    | simp only [Keeps.mk_iff] | split | (dsimp +zetaDelta only))

end Sys2Proof.Machine
end

