-- ==== Sys2Proof/Laws/KeepTime.lean ====
section
/-! SUPPORT. What the definitions of Machine/Time.lean keep (Keeps, Laws/Keep.lean). -/

set_option linter.all false

namespace Sys2Proof.Machine

theorem idleTick_keeps {z0 : State} (s : State) (hk : Keeps z0 s) :
    Keeps z0 (idleTick s) := by
  unfold idleTick
  repeat' (first
    | extract_lets | with_reducible assumption | with_reducible apply Keeps.refl | with_reducible apply True.intro
    | with_reducible apply State.nextPhase_keeps | with_reducible apply KeepsO.getD | with_reducible apply Keeps.ite
    | (with_reducible apply Keeps.forEach; rotate_left; intro s a) | simp only [Keeps.mk_iff] | split
    | (dsimp +zetaDelta only))

end Sys2Proof.Machine
end

