-- ==== Sys2Proof/Laws/KeepRoute.lean ====
section
/-! SUPPORT. What the definitions of Machine/Route.lean keep (Keeps, Laws/Keep.lean). -/

set_option linter.all false

namespace Sys2Proof.Machine

theorem State.stepResult_keeps {z0 : State} (s : State) (t uid : Nat) (pred : Bool) (writes : List (Nat × Nat)) (hk : Keeps z0 s) :
    Keeps z0 (State.stepResult s t uid pred writes) := by
  unfold State.stepResult
  repeat' (first
    | extract_lets | with_reducible assumption | with_reducible apply Keeps.refl | with_reducible apply True.intro
    | with_reducible apply State.modThread_keeps | with_reducible apply State.modStep_keeps
    | with_reducible apply KeepsO.getD | with_reducible apply Keeps.ite
    | (with_reducible apply Keeps.forEach; rotate_left; intro s a) | simp only [Keeps.mk_iff] | split
    | (dsimp +zetaDelta only))

theorem gateEffect_keeps {z : State} (t : Nat) (s : State) (th : Thread) (w uid : Nat) (hk : Keeps z s) : KeepsR (fun s => s) z (gateEffect t s th w uid) := by
  unfold gateEffect
  repeat' (first
    | extract_lets | with_reducible assumption | with_reducible apply Keeps.refl | with_reducible apply True.intro
    | with_reducible apply State.bump_keeps | with_reducible apply State.stepResult_keeps
    | with_reducible apply State.writeVirt_keeps
    | with_reducible refine State.writeVirt_keeps_ok (w := by assumption) (hk := ?_) ..
    | with_reducible apply KeepsE.mk | with_reducible apply KeepsE.mkError | with_reducible apply KeepsR.mk
    | with_reducible apply KeepsR.mkError | with_reducible apply KeepsR.mkPure
    | with_reducible apply KeepsR.readState | with_reducible apply KeepsR.readPair | with_reducible apply KeepsR.map
    | with_reducible apply KeepsR.read | with_reducible apply KeepsR.orFaultValue
    | (with_reducible apply KeepsR.orFault) | (with_reducible apply KeepsR.foldRun) <;> [(intro s a); skip]
    | with_reducible apply KeepsR.mapM | with_reducible apply KeepsR.ite | with_reducible apply KeepsR.bindState
    | with_reducible apply KeepsR.bindPair | with_reducible apply KeepsR.readAll | intro _
    | with_reducible apply KeepsO.getD | with_reducible apply Keeps.ite
    | (with_reducible apply Keeps.forEach; rotate_left; intro s a) | simp only [Keeps.mk_iff] | split
    | (dsimp +zetaDelta only))

theorem gateEffect_keeps_ok {z : State} (t : Nat) (s : State) (th : Thread) (w uid : Nat) {u0 : State} (w : gateEffect t s th w uid = .ok u0) (hk : Keeps z s) : Keeps z ((fun s => s) u0) :=
  KeepsR.ok (gateEffect_keeps (hk := hk) ..) w

theorem gateEffect_keeps_error {z : State} (t : Nat) (s : State) (th : Thread) (w uid : Nat) {q : Nat × State} (w : gateEffect t s th w uid = .error q) (hk : Keeps z s) : Keeps z q.2 :=
  KeepsR.error (gateEffect_keeps (hk := hk) ..) w

theorem execGate_keeps (t : Fin 512) (s : State) : KeepsOut s (execGate t s) := by
  have hk := Keeps.refl s
  unfold execGate
  repeat' (first
    | extract_lets | with_reducible assumption | with_reducible apply Keeps.refl | with_reducible apply True.intro
    | with_reducible apply State.longStep_keeps | intro _ | with_reducible apply gateEffect_keeps
    | with_reducible refine gateEffect_keeps_ok (w := by assumption) (hk := ?_) ..
    | with_reducible refine gateEffect_keeps_error (w := by assumption) (hk := ?_) ..
    | with_reducible apply KeepsOut.mk | with_reducible apply KeepsOut.mkFault
    | with_reducible apply KeepsOut.mkRefused | with_reducible apply KeepsOut.ite | intro _
    | with_reducible apply KeepsO.getD | with_reducible apply Keeps.ite
    | (with_reducible apply Keeps.forEach; rotate_left; intro s a) | simp only [Keeps.mk_iff] | split
    | (dsimp +zetaDelta only))

theorem routeEffect_keeps {z : State} (t : Nat) (s : State) (th : Thread) (w uid : Nat) (hk : Keeps z s) : KeepsR (fun s => s) z (routeEffect t s th w uid) := by
  unfold routeEffect
  repeat' (first
    | extract_lets | with_reducible assumption | with_reducible apply Keeps.refl | with_reducible apply True.intro
    | with_reducible apply State.bump_keeps | with_reducible apply State.stepResult_keeps
    | with_reducible apply State.writeVirt_keeps
    | with_reducible refine State.writeVirt_keeps_ok (w := by assumption) (hk := ?_) ..
    | with_reducible apply KeepsE.mk | with_reducible apply KeepsE.mkError | with_reducible apply KeepsR.mk
    | with_reducible apply KeepsR.mkError | with_reducible apply KeepsR.mkPure
    | with_reducible apply KeepsR.readState | with_reducible apply KeepsR.readPair | with_reducible apply KeepsR.map
    | with_reducible apply KeepsR.read | with_reducible apply KeepsR.orFaultValue
    | (with_reducible apply KeepsR.orFault) | (with_reducible apply KeepsR.foldRun) <;> [(intro s a); skip]
    | with_reducible apply KeepsR.mapM | with_reducible apply KeepsR.ite | with_reducible apply KeepsR.bindState
    | with_reducible apply KeepsR.bindPair | with_reducible apply KeepsR.readAll | intro _
    | with_reducible apply KeepsO.getD | with_reducible apply Keeps.ite
    | (with_reducible apply Keeps.forEach; rotate_left; intro s a) | simp only [Keeps.mk_iff] | split
    | (dsimp +zetaDelta only))

theorem routeEffect_keeps_ok {z : State} (t : Nat) (s : State) (th : Thread) (w uid : Nat) {u0 : State} (w : routeEffect t s th w uid = .ok u0) (hk : Keeps z s) : Keeps z ((fun s => s) u0) :=
  KeepsR.ok (routeEffect_keeps (hk := hk) ..) w

theorem routeEffect_keeps_error {z : State} (t : Nat) (s : State) (th : Thread) (w uid : Nat) {q : Nat × State} (w : routeEffect t s th w uid = .error q) (hk : Keeps z s) : Keeps z q.2 :=
  KeepsR.error (routeEffect_keeps (hk := hk) ..) w

theorem execRoute_keeps (t : Fin 512) (s : State) : KeepsOut s (execRoute t s) := by
  have hk := Keeps.refl s
  unfold execRoute
  repeat' (first
    | extract_lets | with_reducible assumption | with_reducible apply Keeps.refl | with_reducible apply True.intro
    | with_reducible apply State.longStep_keeps | intro _ | with_reducible apply routeEffect_keeps
    | with_reducible refine routeEffect_keeps_ok (w := by assumption) (hk := ?_) ..
    | with_reducible refine routeEffect_keeps_error (w := by assumption) (hk := ?_) ..
    | with_reducible apply KeepsOut.mk | with_reducible apply KeepsOut.mkFault
    | with_reducible apply KeepsOut.mkRefused | with_reducible apply KeepsOut.ite | intro _
    | with_reducible apply KeepsO.getD | with_reducible apply Keeps.ite
    | (with_reducible apply Keeps.forEach; rotate_left; intro s a) | simp only [Keeps.mk_iff] | split
    | (dsimp +zetaDelta only))

theorem exitOne_keeps {z : State} (x : ExitIn) (p : Nat) (s : State) (l : List Nat) (hk : Keeps z s) : KeepsR Prod.fst z (exitOne x p (s, l)) := by
  unfold exitOne
  repeat' (first
    | extract_lets | with_reducible assumption | with_reducible apply Keeps.refl | with_reducible apply True.intro
    | with_reducible apply State.writeVirt_keeps
    | with_reducible refine State.writeVirt_keeps_ok (w := by assumption) (hk := ?_) ..
    | with_reducible apply KeepsE.mk | with_reducible apply KeepsE.mkError | with_reducible apply KeepsR.mk
    | with_reducible apply KeepsR.mkError | with_reducible apply KeepsR.mkPure
    | with_reducible apply KeepsR.readState | with_reducible apply KeepsR.readPair | with_reducible apply KeepsR.map
    | with_reducible apply KeepsR.read | with_reducible apply KeepsR.orFaultValue
    | (with_reducible apply KeepsR.orFault) | (with_reducible apply KeepsR.foldRun) <;> [(intro s a); skip]
    | with_reducible apply KeepsR.mapM | with_reducible apply KeepsR.ite | with_reducible apply KeepsR.bindState
    | with_reducible apply KeepsR.bindPair | with_reducible apply KeepsR.readAll | intro _
    | with_reducible apply KeepsO.getD | with_reducible apply Keeps.ite
    | (with_reducible apply Keeps.forEach; rotate_left; intro s a) | simp only [Keeps.mk_iff] | split
    | (dsimp +zetaDelta only))

theorem exitOne_keeps_ok {z : State} (x : ExitIn) (p : Nat) (s : State) (l : List Nat) {u0 : State × List Nat} (w : exitOne x p (s, l) = .ok u0) (hk : Keeps z s) : Keeps z (Prod.fst u0) :=
  KeepsR.ok (exitOne_keeps (hk := hk) ..) w

theorem exitOne_keeps_error {z : State} (x : ExitIn) (p : Nat) (s : State) (l : List Nat) {q : Nat × State} (w : exitOne x p (s, l) = .error q) (hk : Keeps z s) : Keeps z q.2 :=
  KeepsR.error (exitOne_keeps (hk := hk) ..) w

theorem exitAll_keeps {z : State} (x : ExitIn) (ps : List Nat) (r : State × List Nat) (hk : Keeps z r.1) :
    KeepsR Prod.fst z (exitAll x ps r) := by
  induction ps generalizing r with
  | nil => exact hk
  | cons p ps ih =>
    unfold exitAll
    split
    · next r' h => exact ih _ (KeepsR.ok (exitOne_keeps x p r.1 r.2 hk) h)
    · next e h => exact KeepsR.error (exitOne_keeps x p r.1 r.2 hk) h

theorem exitEffect_keeps {z : State} (t : Nat) (s : State) (th : Thread) (w uid : Nat) (hk : Keeps z s) : KeepsR (fun s => s) z (exitEffect t s th w uid) := by
  unfold exitEffect
  repeat' (first
    | extract_lets | with_reducible assumption | with_reducible apply Keeps.refl | with_reducible apply True.intro
    | with_reducible apply State.bump_keeps | with_reducible apply State.stepResult_keeps
    | with_reducible apply exitAll_keeps | with_reducible apply State.writeVirt_keeps
    | with_reducible refine State.writeVirt_keeps_ok (w := by assumption) (hk := ?_) ..
    | with_reducible apply KeepsE.mk | with_reducible apply KeepsE.mkError | with_reducible apply KeepsR.mk
    | with_reducible apply KeepsR.mkError | with_reducible apply KeepsR.mkPure
    | with_reducible apply KeepsR.readState | with_reducible apply KeepsR.readPair | with_reducible apply KeepsR.map
    | with_reducible apply KeepsR.read | with_reducible apply KeepsR.orFaultValue
    | (with_reducible apply KeepsR.orFault) | (with_reducible apply KeepsR.foldRun) <;> [(intro s a); skip]
    | with_reducible apply KeepsR.mapM | with_reducible apply KeepsR.ite | with_reducible apply KeepsR.bindState
    | with_reducible apply KeepsR.bindPair | with_reducible apply KeepsR.readAll | intro _
    | with_reducible apply KeepsO.getD | with_reducible apply Keeps.ite
    | (with_reducible apply Keeps.forEach; rotate_left; intro s a) | simp only [Keeps.mk_iff] | split
    | (dsimp +zetaDelta only))

theorem exitEffect_keeps_ok {z : State} (t : Nat) (s : State) (th : Thread) (w uid : Nat) {u0 : State} (w : exitEffect t s th w uid = .ok u0) (hk : Keeps z s) : Keeps z ((fun s => s) u0) :=
  KeepsR.ok (exitEffect_keeps (hk := hk) ..) w

theorem exitEffect_keeps_error {z : State} (t : Nat) (s : State) (th : Thread) (w uid : Nat) {q : Nat × State} (w : exitEffect t s th w uid = .error q) (hk : Keeps z s) : Keeps z q.2 :=
  KeepsR.error (exitEffect_keeps (hk := hk) ..) w

theorem execExit_keeps (t : Fin 512) (s : State) : KeepsOut s (execExit t s) := by
  have hk := Keeps.refl s
  unfold execExit
  repeat' (first
    | extract_lets | with_reducible assumption | with_reducible apply Keeps.refl | with_reducible apply True.intro
    | with_reducible apply State.longStep_keeps | intro _ | with_reducible apply exitEffect_keeps
    | with_reducible refine exitEffect_keeps_ok (w := by assumption) (hk := ?_) ..
    | with_reducible refine exitEffect_keeps_error (w := by assumption) (hk := ?_) ..
    | with_reducible apply KeepsOut.mk | with_reducible apply KeepsOut.mkFault
    | with_reducible apply KeepsOut.mkRefused | with_reducible apply KeepsOut.ite | intro _
    | with_reducible apply KeepsO.getD | with_reducible apply Keeps.ite
    | (with_reducible apply Keeps.forEach; rotate_left; intro s a) | simp only [Keeps.mk_iff] | split
    | (dsimp +zetaDelta only))

end Sys2Proof.Machine
end

