-- ==== Sys2Proof/Laws/KeepMatmul.lean ====
section
/-! SUPPORT. What the definitions of Machine/Matmul.lean keep (Keeps, Laws/Keep.lean). -/

set_option linter.all false

namespace Sys2Proof.Machine

theorem matmulEffect_keeps {z : State} (t : Nat) (s : State) (th : Thread) (w uid : Nat) (hk : Keeps z s) : KeepsR (fun s => s) z (matmulEffect t s th w uid) := by
  unfold matmulEffect
  repeat' (first
    | extract_lets | with_reducible assumption | with_reducible apply Keeps.refl | with_reducible apply True.intro
    | with_reducible apply State.modStep_keeps | with_reducible apply State.bump_keeps
    | with_reducible apply State.openMask_keeps | with_reducible apply KeepsE.mk
    | with_reducible apply KeepsE.mkError | with_reducible apply KeepsR.mk | with_reducible apply KeepsR.mkError
    | with_reducible apply KeepsR.mkPure | with_reducible apply KeepsR.readState
    | with_reducible apply KeepsR.readPair | with_reducible apply KeepsR.map | with_reducible apply KeepsR.read
    | with_reducible apply KeepsR.orFaultValue | (with_reducible apply KeepsR.orFault)
    | (with_reducible apply KeepsR.foldRun) <;> [(intro s a); skip] | with_reducible apply KeepsR.mapM
    | with_reducible apply KeepsR.ite | with_reducible apply KeepsR.bindState | with_reducible apply KeepsR.bindPair
    | with_reducible apply KeepsR.readAll | intro _ | with_reducible apply KeepsO.getD
    | with_reducible apply Keeps.ite | (with_reducible apply Keeps.forEach; rotate_left; intro s a)
    | simp only [Keeps.mk_iff] | split | (dsimp +zetaDelta only))

theorem matmulEffect_keeps_ok {z : State} (t : Nat) (s : State) (th : Thread) (w uid : Nat) {u0 : State} (w : matmulEffect t s th w uid = .ok u0) (hk : Keeps z s) : Keeps z ((fun s => s) u0) :=
  KeepsR.ok (matmulEffect_keeps (hk := hk) ..) w

theorem matmulEffect_keeps_error {z : State} (t : Nat) (s : State) (th : Thread) (w uid : Nat) {q : Nat × State} (w : matmulEffect t s th w uid = .error q) (hk : Keeps z s) : Keeps z q.2 :=
  KeepsR.error (matmulEffect_keeps (hk := hk) ..) w

theorem State.requestInputs_keeps {z0 : State} (s : State) (k : Chunk) (hk : Keeps z0 s) :
    Keeps z0 (State.requestInputs s k) := by
  unfold State.requestInputs
  repeat' (first
    | extract_lets | with_reducible assumption | with_reducible apply Keeps.refl | with_reducible apply True.intro
    | with_reducible apply State.addXfers_keeps | with_reducible apply State.modStep_keeps
    | with_reducible apply KeepsO.getD | with_reducible apply Keeps.ite
    | (with_reducible apply Keeps.forEach; rotate_left; intro s a) | simp only [Keeps.mk_iff] | split
    | (dsimp +zetaDelta only))

theorem writeRows_keeps {z : State} (s : State) (t uid : Nat) (a : Active) (lo v : Nat) (vals : List Nat) (hk : Keeps z s) : KeepsR (fun s => s) z (writeRows s t uid a lo v vals) := by
  unfold writeRows
  repeat' (first
    | extract_lets | with_reducible assumption | with_reducible apply Keeps.refl | with_reducible apply True.intro
    | with_reducible apply State.addXfers_keeps | with_reducible apply State.writeVirt_keeps
    | with_reducible refine State.writeVirt_keeps_ok (w := by assumption) (hk := ?_) ..
    | with_reducible apply KeepsE.mk | with_reducible apply KeepsE.mkError | with_reducible apply KeepsR.mk
    | with_reducible apply KeepsR.mkError | with_reducible apply KeepsR.mkPure
    | with_reducible apply KeepsR.readState | with_reducible apply KeepsR.readPair | with_reducible apply KeepsR.map
    | with_reducible apply KeepsR.read | with_reducible apply KeepsR.orFaultValue
    | (with_reducible apply KeepsR.orFault) | (with_reducible apply KeepsR.foldRun) <;> [(intro s a); skip]
    | with_reducible apply KeepsR.mapM | with_reducible apply KeepsR.ite | with_reducible apply KeepsR.bindState
    | with_reducible apply KeepsR.bindPair | with_reducible apply KeepsR.readAll | intro _
    | with_reducible apply KeepsO.getD | with_reducible apply Keeps.ite
    | (with_reducible apply Keeps.forEach; rotate_left; intro s a) | simp only [Keeps.mk_iff] | split
    | (dsimp +zetaDelta only))

theorem writeRows_keeps_ok {z : State} (s : State) (t uid : Nat) (a : Active) (lo v : Nat) (vals : List Nat) {u0 : State} (w : writeRows s t uid a lo v vals = .ok u0) (hk : Keeps z s) : Keeps z ((fun s => s) u0) :=
  KeepsR.ok (writeRows_keeps (hk := hk) ..) w

theorem writeRows_keeps_error {z : State} (s : State) (t uid : Nat) (a : Active) (lo v : Nat) (vals : List Nat) {q : Nat × State} (w : writeRows s t uid a lo v vals = .error q) (hk : Keeps z s) : Keeps z q.2 :=
  KeepsR.error (writeRows_keeps (hk := hk) ..) w

theorem State.takeRun_keeps {z : State} (s : State) (t uid : Nat) (r : StepRun) (hr : KeepsR (fun s => s) z r) :
    Keeps z (s.takeRun t uid r) := by
  unfold State.takeRun
  split
  · exact State.byThread_keeps _ _ _ hr
  · split
    · exact State.stepFault_keeps _ _ _ _ _ (State.byThread_keeps _ _ _ hr)
    · exact hr

theorem State.drainOut_keeps {z : State} (s : State) (t uid n : Nat) (hk : Keeps z s) : Keeps z (s.drainOut t uid n) := by
  induction n generalizing s with
  | zero => exact hk
  | succ n ih =>
    unfold State.drainOut
    split
    · exact hk
    · split
      · exact hk
      · extract_lets parts u
        split
        · exact hk
        · refine ih _ (State.modStep_keeps _ _ _ _ (State.takeRun_keeps _ _ _ _ (KeepsR.foldRun _ (fun s a => ?_) hk)))
          exact writeRows_keeps _ _ _ _ _ _ _ (Keeps.refl _)

theorem State.putRows_keeps {z0 : State} (s : State) (t uid lo : Nat) (out : List (Nat × List Nat)) (hk : Keeps z0 s) :
    Keeps z0 (State.putRows s t uid lo out) := by
  unfold State.putRows
  repeat' (first
    | extract_lets | with_reducible assumption | with_reducible apply Keeps.refl | with_reducible apply True.intro
    | with_reducible apply State.modStep_keeps | with_reducible apply State.drainOut_keeps
    | with_reducible apply KeepsO.getD | with_reducible apply Keeps.ite
    | (with_reducible apply Keeps.forEach; rotate_left; intro s a) | simp only [Keeps.mk_iff] | split
    | (dsimp +zetaDelta only))

theorem State.putZeros_keeps {z0 : State} (s : State) (t uid lo hi : Nat) (vs : List Nat) (hk : Keeps z0 s) :
    Keeps z0 (State.putZeros s t uid lo hi vs) := by
  unfold State.putZeros
  repeat' (first
    | extract_lets | with_reducible assumption | with_reducible apply Keeps.refl | with_reducible apply True.intro
    | with_reducible apply State.putRows_keeps | with_reducible apply State.replicate_keeps
    | with_reducible refine State.replicate_keeps_some (w := by assumption) (hk := ?_) ..
    | with_reducible apply KeepsO.getD | with_reducible apply Keeps.ite
    | (with_reducible apply Keeps.forEach; rotate_left; intro s a) | simp only [Keeps.mk_iff] | split
    | (dsimp +zetaDelta only))

theorem State.writeGroup_keeps {z0 : State} (s : State) (t : Nat) (a : Active) (g : Nat) (hk : Keeps z0 s) :
    Keeps z0 (State.writeGroup s t a g) := by
  unfold State.writeGroup
  repeat' (first
    | extract_lets | with_reducible assumption | with_reducible apply Keeps.refl | with_reducible apply True.intro
    | with_reducible apply State.modStep_keeps | with_reducible apply State.modLat_keeps
    | with_reducible apply State.putRows_keeps | with_reducible apply KeepsO.getD | with_reducible apply Keeps.ite
    | (with_reducible apply Keeps.forEach; rotate_left; intro s a) | simp only [Keeps.mk_iff] | split
    | (dsimp +zetaDelta only))

theorem State.writeGroups_keeps {z0 : State} (s : State) (t uid : Nat) (hk : Keeps z0 s) :
    Keeps z0 (State.writeGroups s t uid) := by
  unfold State.writeGroups
  repeat' (first
    | extract_lets | with_reducible assumption | with_reducible apply Keeps.refl | with_reducible apply True.intro
    | with_reducible apply State.writeGroup_keeps | with_reducible apply KeepsO.getD
    | with_reducible apply Keeps.ite | (with_reducible apply Keeps.forEach; rotate_left; intro s a)
    | simp only [Keeps.mk_iff] | split | (dsimp +zetaDelta only))

theorem State.mmFinish_keeps {z0 : State} (s : State) (t uid : Nat) (hk : Keeps z0 s) :
    Keeps z0 (State.mmFinish s t uid) := by
  unfold State.mmFinish
  repeat' (first
    | extract_lets | with_reducible assumption | with_reducible apply Keeps.refl | with_reducible apply True.intro
    | with_reducible apply State.writeGroups_keeps | with_reducible apply State.takeRun_keeps
    | with_reducible apply State.modStep_keeps | with_reducible apply State.regrant_keeps
    | with_reducible apply writeRows_keeps
    | with_reducible refine writeRows_keeps_ok (w := by assumption) (hk := ?_) ..
    | with_reducible refine writeRows_keeps_error (w := by assumption) (hk := ?_) ..
    | with_reducible apply KeepsE.mk | with_reducible apply KeepsE.mkError | with_reducible apply KeepsR.mk
    | with_reducible apply KeepsR.mkError | with_reducible apply KeepsR.mkPure
    | with_reducible apply KeepsR.readState | with_reducible apply KeepsR.readPair | with_reducible apply KeepsR.map
    | with_reducible apply KeepsR.read | with_reducible apply KeepsR.orFaultValue
    | (with_reducible apply KeepsR.orFault) | (with_reducible apply KeepsR.foldRun) <;> [(intro s a); skip]
    | with_reducible apply KeepsR.mapM | with_reducible apply KeepsR.ite | with_reducible apply KeepsR.bindState
    | with_reducible apply KeepsR.bindPair | with_reducible apply KeepsR.readAll | intro _
    | with_reducible apply KeepsO.getD | with_reducible apply Keeps.ite
    | (with_reducible apply Keeps.forEach; rotate_left; intro s a) | simp only [Keeps.mk_iff] | split
    | (dsimp +zetaDelta only))

theorem State.chooseCand_keeps {z : State} (s : State) (b : Nat) (l : List Cand) (hk : Keeps z s) : Keeps z (s.chooseCand b l).1 := by
  unfold State.chooseCand
  repeat' (first
    | extract_lets | with_reducible assumption | with_reducible apply Keeps.refl | with_reducible apply True.intro
    | with_reducible apply State.modCtx_keeps | with_reducible apply KeepsO.getD | with_reducible apply Keeps.ite
    | (with_reducible apply Keeps.forEach; rotate_left; intro s a)
    | ((with_reducible apply Keeps.foldl) <;> [(intro r a); skip]) | simp only [Keeps.mk_iff] | split
    | (dsimp +zetaDelta only))

theorem State.chooseCand_keeps_eq {z : State} (s : State) (b : Nat) (l : List Cand) {q} (hk : Keeps z s) (w : s.chooseCand b l = q) : Keeps z q.1 := by
  subst w; exact State.chooseCand_keeps (hk := hk) ..

theorem State.splitPiece_keeps {z : State} (s : State) (l : Nat) (k : Chunk) (hk : Keeps z s) : Keeps z (s.splitPiece l k).1 := by
  unfold State.splitPiece
  repeat' (first
    | extract_lets | with_reducible assumption | with_reducible apply Keeps.refl | with_reducible apply True.intro
    | with_reducible apply State.modStep_keeps | with_reducible apply State.event_keeps
    | with_reducible apply State.setFld_keeps | with_reducible apply KeepsO.getD | with_reducible apply Keeps.ite
    | (with_reducible apply Keeps.forEach; rotate_left; intro s a) | simp only [Keeps.mk_iff] | split
    | (dsimp +zetaDelta only))

theorem State.splitPiece_keeps_eq {z : State} (s : State) (l : Nat) (k : Chunk) {q} (hk : Keeps z s) (w : s.splitPiece l k = q) : Keeps z q.1 := by
  subst w; exact State.splitPiece_keeps (hk := hk) ..

theorem State.skipPass_keeps {z0 : State} (s : State) (l : Nat) (k : Chunk) (a : Active) (hk : Keeps z0 s) :
    Keeps z0 (State.skipPass s l k a) := by
  unfold State.skipPass
  repeat' (first
    | extract_lets | with_reducible assumption | with_reducible apply Keeps.refl | with_reducible apply True.intro
    | with_reducible apply State.modStep_keeps | with_reducible apply State.bump_keeps
    | with_reducible apply State.putZeros_keeps | with_reducible apply State.mmFinish_keeps
    | with_reducible apply KeepsO.getD | with_reducible apply Keeps.ite
    | (with_reducible apply Keeps.forEach; rotate_left; intro s a) | simp only [Keeps.mk_iff] | split
    | (dsimp +zetaDelta only))

theorem State.startLoad_keeps {z0 : State} (s : State) (k : Chunk) (a : Active) (hk : Keeps z0 s) :
    Keeps z0 (State.startLoad s k a) := by
  unfold State.startLoad
  repeat' (first
    | extract_lets | with_reducible assumption | with_reducible apply Keeps.refl | with_reducible apply True.intro
    | with_reducible apply State.addXfers_keeps | with_reducible apply State.regrant_keeps
    | with_reducible apply State.prefetch_keeps | with_reducible apply KeepsO.getD | with_reducible apply Keeps.ite
    | (with_reducible apply Keeps.forEach; rotate_left; intro s a) | simp only [Keeps.mk_iff] | split
    | (dsimp +zetaDelta only))

theorem State.takePiece_keeps {z0 : State} (s : State) (l : Nat) (k : Chunk) (a : Active) (hk : Keeps z0 s) :
    Keeps z0 (State.takePiece s l k a) := by
  unfold State.takePiece
  repeat' (first
    | extract_lets | with_reducible assumption | with_reducible apply Keeps.refl | with_reducible apply True.intro
    | with_reducible apply State.modStep_keeps | with_reducible apply State.modLat_keeps
    | with_reducible apply State.startLoad_keeps | with_reducible apply State.splitPiece_keeps
    | with_reducible refine State.splitPiece_keeps_eq (w := by assumption) (hk := ?_) ..
    | with_reducible apply KeepsO.getD | with_reducible apply Keeps.ite
    | (with_reducible apply Keeps.forEach; rotate_left; intro s a) | simp only [Keeps.mk_iff] | split
    | (dsimp +zetaDelta only))

theorem State.feed_keeps {z : State} (s : State) (l n : Nat) (hk : Keeps z s) : Keeps z (s.feed l n) := by
  induction n generalizing s with
  | zero => exact hk
  | succ n ih =>
    unfold State.feed
    split
    · exact hk
    · split
      next t c e =>
      have ht : Keeps z t := State.chooseCand_keeps_eq s (l / 2) _ (w := e) (hk := hk)
      split
      · exact ht
      · extract_lets k
        split
        · exact ht
        · extract_lets w
          split
          · split
            · exact ih _ (State.stepFault_keeps _ _ _ _ _ ht)
            · split
              · exact ih _ (State.skipPass_keeps _ _ _ _ ht)
              · exact State.takePiece_keeps _ _ _ _ ht
          · exact State.takePiece_keeps _ _ _ _ ht

theorem State.requestBay_keeps {z0 : State} (s : State) (b : Nat) (hk : Keeps z0 s) :
    Keeps z0 (State.requestBay s b) := by
  unfold State.requestBay
  repeat' (first
    | extract_lets | with_reducible assumption | with_reducible apply Keeps.refl | with_reducible apply True.intro
    | with_reducible apply State.requestInputs_keeps | with_reducible apply State.regrant_keeps
    | with_reducible apply KeepsO.getD | with_reducible apply Keeps.ite
    | (with_reducible apply Keeps.forEach; rotate_left; intro s a) | simp only [Keeps.mk_iff] | split
    | (dsimp +zetaDelta only))

theorem State.feedBay_keeps {z0 : State} (s : State) (b : Nat) (hk : Keeps z0 s) :
    Keeps z0 (State.feedBay s b) := by
  unfold State.feedBay
  repeat' (first
    | extract_lets | with_reducible assumption | with_reducible apply Keeps.refl | with_reducible apply True.intro
    | with_reducible apply State.requestBay_keeps | with_reducible apply State.feed_keeps
    | with_reducible apply KeepsO.getD | with_reducible apply Keeps.ite
    | (with_reducible apply Keeps.forEach; rotate_left; intro s a) | simp only [Keeps.mk_iff] | split
    | (dsimp +zetaDelta only))

theorem execMatmul_keeps (t : Fin 512) (s : State) : KeepsOut s (execMatmul t s) := by
  have hk := Keeps.refl s
  unfold execMatmul
  repeat' (first
    | extract_lets | with_reducible assumption | with_reducible apply Keeps.refl | with_reducible apply True.intro
    | with_reducible apply State.longStep_keeps | intro _ | with_reducible apply State.mmFinish_keeps
    | with_reducible apply State.feedBay_keeps | with_reducible apply matmulEffect_keeps
    | with_reducible refine matmulEffect_keeps_ok (w := by assumption) (hk := ?_) ..
    | with_reducible refine matmulEffect_keeps_error (w := by assumption) (hk := ?_) ..
    | with_reducible apply KeepsOut.mk | with_reducible apply KeepsOut.mkFault
    | with_reducible apply KeepsOut.mkRefused | with_reducible apply KeepsOut.ite | intro _
    | with_reducible apply KeepsO.getD | with_reducible apply Keeps.ite
    | (with_reducible apply Keeps.forEach; rotate_left; intro s a) | simp only [Keeps.mk_iff] | split
    | (dsimp +zetaDelta only))

theorem execShadowLoadComplete_keeps (l : Fin 8) (s : State) : KeepsOut s (execShadowLoadComplete l s) := by
  have hk := Keeps.refl s
  unfold execShadowLoadComplete
  repeat' (first
    | extract_lets | with_reducible assumption | with_reducible apply Keeps.refl | with_reducible apply True.intro
    | with_reducible apply State.modLat_keeps | with_reducible apply State.stepFault_keeps
    | with_reducible apply State.feedBay_keeps | with_reducible apply State.bump_keeps
    | with_reducible apply KeepsOut.mk | with_reducible apply KeepsOut.mkFault
    | with_reducible apply KeepsOut.mkRefused | with_reducible apply KeepsOut.ite | intro _
    | with_reducible apply KeepsO.getD | with_reducible apply Keeps.ite
    | (with_reducible apply Keeps.forEach; rotate_left; intro s a) | simp only [Keeps.mk_iff] | split
    | (dsimp +zetaDelta only))

end Sys2Proof.Machine
end

