-- ==== Sys2Proof/Laws/KeepBursts.lean ====
section
/-! SUPPORT. What the definitions of Machine/Bursts.lean keep (Keeps, Laws/Keep.lean). -/

set_option linter.all false

namespace Sys2Proof.Machine

theorem State.holdSums_keeps {z0 : State} (s : State) (l acc : Nat) (b : Burst) (out : List (Nat × List Nat)) (hk : Keeps z0 s) :
    Keeps z0 (State.holdSums s l acc b out) := by
  unfold State.holdSums
  repeat' (first
    | extract_lets | with_reducible assumption | with_reducible apply Keeps.refl | with_reducible apply True.intro
    | with_reducible apply State.modLat_keeps | with_reducible apply KeepsO.getD | with_reducible apply Keeps.ite
    | (with_reducible apply Keeps.forEach; rotate_left; intro s a)
    | ((with_reducible apply Keeps.foldl) <;> [(intro r a); skip]) | simp only [Keeps.mk_iff] | split
    | (dsimp +zetaDelta only))

theorem State.restoreSums_keeps {z0 : State} (s : State) (l : Nat) (hk : Keeps z0 s) :
    Keeps z0 (State.restoreSums s l) := by
  unfold State.restoreSums
  repeat' (first
    | extract_lets | with_reducible assumption | with_reducible apply Keeps.refl | with_reducible apply True.intro
    | with_reducible apply State.modLat_keeps | with_reducible apply KeepsO.getD | with_reducible apply Keeps.ite
    | (with_reducible apply Keeps.forEach; rotate_left; intro s a) | simp only [Keeps.mk_iff] | split
    | (dsimp +zetaDelta only))

theorem State.commitBurst_keeps {z0 : State} (s : State) (l t uid : Nat) (a : Active) (b : Burst) (out : List (Nat × List Nat)) (hk : Keeps z0 s) :
    Keeps z0 (State.commitBurst s l t uid a b out) := by
  unfold State.commitBurst
  repeat' (first
    | extract_lets | with_reducible assumption | with_reducible apply Keeps.refl | with_reducible apply True.intro
    | with_reducible apply State.modLat_keeps | with_reducible apply State.takeRun_keeps
    | with_reducible apply State.modStep_keeps | with_reducible apply State.putRows_keeps
    | with_reducible apply writeRows_keeps
    | with_reducible refine writeRows_keeps_ok (w := by assumption) (hk := ?_) ..
    | with_reducible refine writeRows_keeps_error (w := by assumption) (hk := ?_) ..
    | with_reducible apply KeepsE.mk | with_reducible apply KeepsE.mkError | with_reducible apply KeepsR.mk
    | with_reducible apply KeepsR.mkError | with_reducible apply KeepsR.mkPure
    | with_reducible apply KeepsR.readState | with_reducible apply KeepsR.readPair | with_reducible apply KeepsR.map
    | with_reducible apply KeepsR.read | with_reducible apply KeepsR.orFaultValue
    | (with_reducible apply KeepsR.orFault) | (with_reducible apply KeepsR.foldRun) <;> [(intro s a); skip]
    | with_reducible apply KeepsR.mapM | with_reducible apply KeepsR.ite | with_reducible apply KeepsR.bindState
    | with_reducible apply KeepsR.bindPair | with_reducible apply KeepsR.readAll | intro _
    | with_reducible apply KeepsO.getD | with_reducible apply Keeps.ite
    | (with_reducible apply Keeps.forEach; rotate_left; intro s a) | with_reducible apply State.takeRun_keeps
    | (with_reducible apply KeepsR.foldRun) <;> [(intro s a); skip] | with_reducible apply writeRows_keeps
    | simp only [Keeps.mk_iff] | split | (dsimp +zetaDelta only))

theorem State.noteClips_keeps {z0 : State} (s : State) (l : Nat) (r : Ran) (hk : Keeps z0 s) :
    Keeps z0 (State.noteClips s l r) := by
  unfold State.noteClips
  repeat' (first
    | extract_lets | with_reducible assumption | with_reducible apply Keeps.refl | with_reducible apply True.intro
    | with_reducible apply State.bump_keeps | with_reducible apply State.raiseReadout_keeps
    | with_reducible apply KeepsO.getD | with_reducible apply Keeps.ite
    | (with_reducible apply Keeps.forEach; rotate_left; intro s a) | simp only [Keeps.mk_iff] | split
    | (dsimp +zetaDelta only))

theorem State.resolve_keeps {z0 : State} (s : State) (l t uid : Nat) (a : Active) (b : Burst) (r : Ran) (hk : Keeps z0 s) :
    Keeps z0 (State.resolve s l t uid a b r) := by
  unfold State.resolve
  repeat' (first
    | extract_lets | with_reducible assumption | with_reducible apply Keeps.refl | with_reducible apply True.intro
    | with_reducible apply State.modStep_keeps | with_reducible apply State.bump_keeps
    | with_reducible apply State.holdSums_keeps | with_reducible apply State.commitBurst_keeps
    | with_reducible apply State.restoreSums_keeps | with_reducible apply State.event_keeps
    | with_reducible apply State.stepFault_keeps | with_reducible apply KeepsO.getD | with_reducible apply Keeps.ite
    | (with_reducible apply Keeps.forEach; rotate_left; intro s a) | simp only [Keeps.mk_iff] | split
    | (dsimp +zetaDelta only))

theorem execBurstResolve_keeps (l : Fin 8) (s : State) : KeepsOut s (execBurstResolve l s) := by
  have hk := Keeps.refl s
  unfold execBurstResolve
  repeat' (first
    | extract_lets | with_reducible assumption | with_reducible apply Keeps.refl | with_reducible apply True.intro
    | with_reducible apply State.modLat_keeps | with_reducible apply State.noteClips_keeps
    | with_reducible apply State.modStep_keeps | with_reducible apply State.stepFault_keeps
    | with_reducible apply State.feedBay_keeps | with_reducible apply State.resolve_keeps
    | with_reducible apply State.mmFinish_keeps | with_reducible apply KeepsOut.mk
    | with_reducible apply KeepsOut.mkFault | with_reducible apply KeepsOut.mkRefused
    | with_reducible apply KeepsOut.ite | intro _ | with_reducible apply KeepsO.getD
    | with_reducible apply Keeps.ite | (with_reducible apply Keeps.forEach; rotate_left; intro s a)
    | simp only [Keeps.mk_iff] | split | (dsimp +zetaDelta only))

theorem State.noteLit_keeps {z0 : State} (s : State) (l : Nat) (v : Bool) (hk : Keeps z0 s) :
    Keeps z0 (State.noteLit s l v) := by
  unfold State.noteLit
  repeat' (first
    | extract_lets | with_reducible assumption | with_reducible apply Keeps.refl | with_reducible apply True.intro
    | with_reducible apply State.modLat_keeps | with_reducible apply KeepsO.getD | with_reducible apply Keeps.ite
    | (with_reducible apply Keeps.forEach; rotate_left; intro s a) | simp only [Keeps.mk_iff] | split
    | (dsimp +zetaDelta only))

theorem State.withhold_keeps {z0 : State} (s : State) (l : Nat) (hk : Keeps z0 s) :
    Keeps z0 (State.withhold s l) := by
  unfold State.withhold
  repeat' (first
    | extract_lets | with_reducible assumption | with_reducible apply Keeps.refl | with_reducible apply True.intro
    | with_reducible apply State.bump_keeps | with_reducible apply State.noteLit_keeps
    | with_reducible apply KeepsO.getD | with_reducible apply Keeps.ite
    | (with_reducible apply Keeps.forEach; rotate_left; intro s a) | simp only [Keeps.mk_iff] | split
    | (dsimp +zetaDelta only))

theorem State.probeSlots_keeps {z0 : State} (s : State) (l n : Nat) (hk : Keeps z0 s) :
    Keeps z0 (State.probeSlots s l n) := by
  unfold State.probeSlots
  repeat' (first
    | extract_lets | with_reducible assumption | with_reducible apply Keeps.refl | with_reducible apply True.intro
    | with_reducible apply State.modLat_keeps | with_reducible apply KeepsO.getD | with_reducible apply Keeps.ite
    | (with_reducible apply Keeps.forEach; rotate_left; intro s a) | simp only [Keeps.mk_iff] | split
    | (dsimp +zetaDelta only))

theorem State.probe_keeps {z0 : State} (s : State) (l n : Nat) (hk : Keeps z0 s) :
    Keeps z0 (State.probe s l n) := by
  unfold State.probe
  repeat' (first
    | extract_lets | with_reducible assumption | with_reducible apply Keeps.refl | with_reducible apply True.intro
    | with_reducible apply State.probeSlots_keeps | with_reducible apply State.modLat_keeps
    | with_reducible apply State.takeTrims_keeps | with_reducible apply KeepsO.getD | with_reducible apply Keeps.ite
    | (with_reducible apply Keeps.forEach; rotate_left; intro s a) | simp only [Keeps.mk_iff] | split
    | (dsimp +zetaDelta only))

theorem State.sweep_keeps {z0 : State} (s : State) (l : Nat) (hk : Keeps z0 s) :
    Keeps z0 (State.sweep s l) := by
  unfold State.sweep
  repeat' (first
    | extract_lets | with_reducible assumption | with_reducible apply Keeps.refl | with_reducible apply True.intro
    | with_reducible apply State.probeSlots_keeps | with_reducible apply State.modLat_keeps
    | with_reducible apply State.takeTrims_keeps | with_reducible apply KeepsO.getD | with_reducible apply Keeps.ite
    | (with_reducible apply Keeps.forEach; rotate_left; intro s a) | simp only [Keeps.mk_iff] | split
    | (dsimp +zetaDelta only))

theorem State.measureParked_keeps {z0 : State} (s : State) (l : Nat) (hk : Keeps z0 s) :
    Keeps z0 (State.measureParked s l) := by
  unfold State.measureParked
  repeat' (first
    | extract_lets | with_reducible assumption | with_reducible apply Keeps.refl | with_reducible apply True.intro
    | with_reducible apply State.drawn_keeps | with_reducible apply State.modLat_keeps
    | with_reducible apply KeepsO.getD | with_reducible apply Keeps.ite
    | (with_reducible apply Keeps.forEach; rotate_left; intro s a) | simp only [Keeps.mk_iff] | split
    | (dsimp +zetaDelta only))

theorem State.identityBurst_keeps {z0 : State} (s : State) (l : Nat) (forced : Bool) (hk : Keeps z0 s) :
    Keeps z0 (State.identityBurst s l forced) := by
  unfold State.identityBurst
  repeat' (first
    | extract_lets | with_reducible assumption | with_reducible apply Keeps.refl | with_reducible apply True.intro
    | with_reducible apply State.noteLit_keeps | with_reducible apply State.modLat_keeps
    | with_reducible apply State.forced_keeps
    | with_reducible refine State.forced_keeps_some (w := by assumption) (hk := ?_) ..
    | with_reducible apply KeepsO.getD | with_reducible apply Keeps.ite
    | (with_reducible apply Keeps.forEach; rotate_left; intro s a) | simp only [Keeps.mk_iff] | split
    | (dsimp +zetaDelta only))

theorem State.idleBurst_keeps {z0 : State} (s : State) (l : Nat) (swapped : Bool) (hk : Keeps z0 s) :
    Keeps z0 (State.idleBurst s l swapped) := by
  unfold State.idleBurst
  repeat' (first
    | extract_lets | with_reducible assumption | with_reducible apply Keeps.refl | with_reducible apply True.intro
    | with_reducible apply State.identityBurst_keeps | with_reducible apply State.bump_keeps
    | with_reducible apply State.sweep_keeps | with_reducible apply State.probe_keeps
    | with_reducible apply State.noteLit_keeps | with_reducible apply KeepsO.getD | with_reducible apply Keeps.ite
    | (with_reducible apply Keeps.forEach; rotate_left; intro s a) | simp only [Keeps.mk_iff] | split
    | (dsimp +zetaDelta only))

theorem State.growDebts_keeps {z0 : State} (s : State) (l : Nat) (hk : Keeps z0 s) :
    Keeps z0 (State.growDebts s l) := by
  unfold State.growDebts
  repeat' (first
    | extract_lets | with_reducible assumption | with_reducible apply Keeps.refl | with_reducible apply True.intro
    | with_reducible apply State.modLat_keeps | with_reducible apply KeepsO.getD | with_reducible apply Keeps.ite
    | (with_reducible apply Keeps.forEach; rotate_left; intro s a) | simp only [Keeps.mk_iff] | split
    | (dsimp +zetaDelta only))

theorem State.fetchCarry_keeps {z0 : State} (s : State) (k : Chunk) (a : Active) (vs : List Nat) (hk : Keeps z0 s) :
    Keeps z0 (State.fetchCarry s k a vs) := by
  unfold State.fetchCarry
  repeat' (first
    | extract_lets | with_reducible assumption | with_reducible apply Keeps.refl | with_reducible apply True.intro
    | with_reducible apply State.addXfers_keeps | with_reducible apply KeepsO.getD | with_reducible apply Keeps.ite
    | (with_reducible apply Keeps.forEach; rotate_left; intro s a) | simp only [Keeps.mk_iff] | split
    | (dsimp +zetaDelta only))

theorem State.grantBurst_keeps {z0 : State} (s : State) (l : Nat) (k : Chunk) (a : Active) (p : Plane) (ins : List Launched) (cap : Nat) (hk : Keeps z0 s) :
    Keeps z0 (State.grantBurst s l k a p ins cap) := by
  unfold State.grantBurst
  repeat' (first
    | extract_lets | with_reducible assumption | with_reducible apply Keeps.refl | with_reducible apply True.intro
    | with_reducible apply State.drawn_keeps | with_reducible apply State.bump_keeps
    | with_reducible apply State.modCtx_keeps | with_reducible apply State.modStep_keeps
    | with_reducible apply State.fetchCarry_keeps | with_reducible apply State.modLat_keeps
    | with_reducible apply State.probe_keeps | with_reducible apply State.setFld_keeps
    | with_reducible apply State.setWarn_keeps | with_reducible apply State.noteLit_keeps
    | with_reducible apply KeepsO.getD | with_reducible apply Keeps.ite
    | (with_reducible apply Keeps.forEach; rotate_left; intro s a)
    | ((with_reducible apply Keeps.foldl) <;> [(intro r a); skip]) | simp only [Keeps.mk_iff] | split
    | (dsimp +zetaDelta only))

theorem State.tryBurst_keeps {z : State} (s : State) (l : Nat) (swapped : Bool) (hk : Keeps z s) : Keeps z (s.tryBurst l swapped).1 := by
  unfold State.tryBurst
  repeat' (first
    | extract_lets | with_reducible assumption | with_reducible apply Keeps.refl | with_reducible apply True.intro
    | with_reducible apply State.modLat_keeps | with_reducible apply State.stepFault_keeps
    | with_reducible apply State.bump_keeps | with_reducible apply State.consume_keeps
    | with_reducible apply State.putZeros_keeps | with_reducible apply State.mmFinish_keeps
    | with_reducible apply State.grantBurst_keeps | with_reducible apply KeepsO.getD
    | with_reducible apply Keeps.ite | (with_reducible apply Keeps.forEach; rotate_left; intro s a)
    | simp only [Keeps.mk_iff] | split | (dsimp +zetaDelta only))

theorem State.tryBurst_keeps_eq {z : State} (s : State) (l : Nat) (swapped : Bool) {q} (hk : Keeps z s) (w : s.tryBurst l swapped = q) : Keeps z q.1 := by
  subst w; exact State.tryBurst_keeps (hk := hk) ..

theorem State.swap_keeps {z0 : State} (s : State) (l : Nat) (hk : Keeps z0 s) :
    Keeps z0 (State.swap s l) := by
  unfold State.swap
  repeat' (first
    | extract_lets | with_reducible assumption | with_reducible apply Keeps.refl | with_reducible apply True.intro
    | with_reducible apply State.returnChunk_keeps | with_reducible apply State.bump_keeps
    | with_reducible apply State.setLat_keeps | with_reducible apply State.zeroHold_keeps
    | with_reducible apply State.measureParked_keeps | with_reducible apply State.fenceLattice_keeps
    | with_reducible apply KeepsO.getD | with_reducible apply Keeps.ite
    | (with_reducible apply Keeps.forEach; rotate_left; intro s a) | simp only [Keeps.mk_iff] | split
    | (dsimp +zetaDelta only))

theorem State.fitLoad_keeps {z0 : State} (s : State) (l : Nat) (hk : Keeps z0 s) :
    Keeps z0 (State.fitLoad s l) := by
  unfold State.fitLoad
  repeat' (first
    | extract_lets | with_reducible assumption | with_reducible apply Keeps.refl | with_reducible apply True.intro
    | with_reducible apply State.setLat_keeps | with_reducible apply State.returnChunk_keeps
    | with_reducible apply KeepsO.getD | with_reducible apply Keeps.ite
    | (with_reducible apply Keeps.forEach; rotate_left; intro s a) | simp only [Keeps.mk_iff] | split
    | (dsimp +zetaDelta only))

theorem State.forced_keeps {z : State} (s : State) (l : Nat) (hk : Keeps z s) : KeepsO z (s.forced l) := by
  unfold State.forced
  repeat' (first
    | extract_lets | with_reducible assumption | with_reducible apply Keeps.refl | with_reducible apply True.intro
    | with_reducible apply State.bump_keeps | with_reducible apply State.identityBurst_keeps
    | with_reducible apply State.modLat_keeps | with_reducible apply State.sweep_keeps
    | with_reducible apply State.noteLit_keeps | with_reducible apply State.probe_keeps
    | with_reducible apply KeepsO.mk | with_reducible apply KeepsO.mkNone | with_reducible apply KeepsO.ite
    | with_reducible apply KeepsO.getD | with_reducible apply Keeps.ite
    | (with_reducible apply Keeps.forEach; rotate_left; intro s a) | simp only [Keeps.mk_iff] | split
    | (dsimp +zetaDelta only))

theorem State.forced_keeps_some {z : State} (s : State) (l : Nat) {t : State} (w : s.forced l = some t) (hk : Keeps z s) : Keeps z t :=
  KeepsO.some (State.forced_keeps (hk := hk) ..) w

theorem State.serveBurst_keeps {z : State} (s : State) (l : Nat) (hk : Keeps z s) : Keeps z (s.serveBurst l) := by
  unfold State.serveBurst
  extract_lets s1 x rep
  have h1 : Keeps z s1 := State.fitLoad_keeps _ _ hk
  split
  · exact State.identityBurst_keeps _ _ _ h1
  · split
    · next t e =>
      split at e
      · cases e
      · exact State.forced_keeps_some _ _ (w := e) (hk := h1)
    · split
      · exact State.withhold_keeps _ _ h1
      · have h2 : Keeps z (s1.tryBurst l false).1 := State.tryBurst_keeps _ _ _ h1
        have h3 : Keeps z (((s1.tryBurst l false).1.swap l).tryBurst l true).1 :=
          State.tryBurst_keeps _ _ _ (State.swap_keeps _ _ h2)
        exact Keeps.ite h2 (Keeps.ite (State.withhold_keeps _ _ h2)
          (Keeps.ite (Keeps.ite h3 (State.idleBurst_keeps _ _ _ h3)) (State.idleBurst_keeps _ _ _ h2)))

theorem State.lockedBurst_keeps {z0 : State} (s : State) (l : Nat) (hk : Keeps z0 s) :
    Keeps z0 (State.lockedBurst s l) := by
  unfold State.lockedBurst
  repeat' (first
    | extract_lets | with_reducible assumption | with_reducible apply Keeps.refl | with_reducible apply True.intro
    | with_reducible apply State.noteLit_keeps | with_reducible apply State.serve_keeps
    | with_reducible apply State.feedBay_keeps | with_reducible apply State.follow_keeps
    | with_reducible apply State.withhold_keeps | with_reducible apply State.identityBurst_keeps
    | with_reducible apply State.sweep_keeps | with_reducible apply State.probe_keeps
    | with_reducible apply KeepsO.getD | with_reducible apply Keeps.ite
    | (with_reducible apply Keeps.forEach; rotate_left; intro s a) | simp only [Keeps.mk_iff] | split
    | (dsimp +zetaDelta only))

theorem State.resumeBurst_keeps {z0 : State} (s : State) (l cause : Nat) (hk : Keeps z0 s) :
    Keeps z0 (State.resumeBurst s l cause) := by
  unfold State.resumeBurst
  repeat' (first
    | extract_lets | with_reducible assumption | with_reducible apply Keeps.refl | with_reducible apply True.intro
    | with_reducible apply State.enterLat_keeps | with_reducible apply State.modLat_keeps
    | with_reducible apply State.serveBurst_keeps | with_reducible apply State.swap_keeps
    | with_reducible apply State.withhold_keeps | with_reducible apply State.idleBurst_keeps
    | with_reducible apply State.tryBurst_keeps
    | with_reducible refine State.tryBurst_keeps_eq (w := by assumption) (hk := ?_) ..
    | with_reducible apply KeepsO.getD | with_reducible apply Keeps.ite
    | (with_reducible apply Keeps.forEach; rotate_left; intro s a) | simp only [Keeps.mk_iff] | split
    | (dsimp +zetaDelta only))

theorem execBurstBoundary_keeps (l : Fin 8) (s : State) : KeepsOut s (execBurstBoundary l s) := by
  have hk := Keeps.refl s
  unfold execBurstBoundary
  repeat' (first
    | extract_lets | with_reducible assumption | with_reducible apply Keeps.refl | with_reducible apply True.intro
    | with_reducible apply State.modLat_keeps | with_reducible apply State.noteLit_keeps
    | with_reducible apply State.drainLat_keeps | with_reducible apply State.lockedBurst_keeps
    | with_reducible apply State.growDebts_keeps | with_reducible apply State.serveBurst_keeps
    | with_reducible apply State.feedBay_keeps | with_reducible apply State.fitLoad_keeps
    | with_reducible apply State.resumeBurst_keeps | with_reducible apply State.identityBurst_keeps
    | with_reducible apply State.withhold_keeps | with_reducible apply KeepsOut.mk
    | with_reducible apply KeepsOut.mkFault | with_reducible apply KeepsOut.mkRefused
    | with_reducible apply KeepsOut.ite | intro _ | with_reducible apply KeepsO.getD
    | with_reducible apply Keeps.ite | (with_reducible apply Keeps.forEach; rotate_left; intro s a)
    | simp only [Keeps.mk_iff] | split | (dsimp +zetaDelta only))

end Sys2Proof.Machine
end

