-- ==== Sys2Proof/Laws/KeepRegisters.lean ====
section
/-! SUPPORT. What the definitions of Machine/Registers.lean keep (Keeps, Laws/Keep.lean). -/

set_option linter.all false

namespace Sys2Proof.Machine

theorem State.writeFld_keeps {z : State} (s : State) (p inst : Nat) (f : Fld) (v : Nat) (ok : Nat → Bool) (hk : Keeps z s) :
    Keeps z (s.writeFld p inst f v ok) := by
  unfold State.writeFld
  repeat' (first
    | extract_lets | with_reducible assumption | with_reducible apply Keeps.refl | with_reducible apply True.intro
    | with_reducible apply State.setFldAt_keeps | with_reducible apply KeepsO.getD | with_reducible apply Keeps.ite
    | (with_reducible apply Keeps.forEach; rotate_left; intro s a) | simp only [Keeps.mk_iff] | split
    | (dsimp +zetaDelta only))

theorem State.writePlain_keeps {z0 : State} (s : State) (p inst v : Nat) (r : Reg) (hk : Keeps z0 s) :
    Keeps z0 (State.writePlain s p inst v r) := by
  unfold State.writePlain
  repeat' (first
    | extract_lets | with_reducible assumption | with_reducible apply Keeps.refl | with_reducible apply True.intro
    | with_reducible apply State.writeFld_keeps | with_reducible apply KeepsO.getD | with_reducible apply Keeps.ite
    | (with_reducible apply Keeps.forEach; rotate_left; intro s a) | simp only [Keeps.mk_iff] | split
    | (dsimp +zetaDelta only))

theorem State.writeAlert_keeps {z0 : State} (s : State) (v : Nat) (hk : Keeps z0 s) :
    Keeps z0 (State.writeAlert s v) := by
  unfold State.writeAlert
  repeat' (first
    | extract_lets | with_reducible assumption | with_reducible apply Keeps.refl | with_reducible apply True.intro
    | with_reducible apply State.setFld_keeps | with_reducible apply State.setAlert_keeps
    | with_reducible apply KeepsO.getD | with_reducible apply Keeps.ite
    | (with_reducible apply Keeps.forEach; rotate_left; intro s a) | simp only [Keeps.mk_iff] | split
    | (dsimp +zetaDelta only))

theorem State.writeChg_keeps {z0 : State} (s : State) (v : Nat) (hk : Keeps z0 s) :
    Keeps z0 (State.writeChg s v) := by
  unfold State.writeChg
  repeat' (first
    | extract_lets | with_reducible assumption | with_reducible apply Keeps.refl | with_reducible apply True.intro
    | with_reducible apply State.setFld_keeps | with_reducible apply KeepsO.getD | with_reducible apply Keeps.ite
    | (with_reducible apply Keeps.forEach; rotate_left; intro s a) | simp only [Keeps.mk_iff] | split
    | (dsimp +zetaDelta only))

theorem State.writeMask_keeps {z0 : State} (s : State) (v : Nat) (hk : Keeps z0 s) :
    Keeps z0 (State.writeMask s v) := by
  unfold State.writeMask
  repeat' (first
    | extract_lets | with_reducible assumption | with_reducible apply Keeps.refl | with_reducible apply True.intro
    | with_reducible apply State.setFld_keeps | with_reducible apply State.signalVector_keeps
    | with_reducible apply KeepsO.getD | with_reducible apply Keeps.ite
    | (with_reducible apply Keeps.forEach; rotate_left; intro s a) | simp only [Keeps.mk_iff] | split
    | (dsimp +zetaDelta only))

theorem execEvtAlertClear_keeps (p : Path) (v : Word) (s : State) : KeepsOut s (execEvtAlertClear p v s) := by
  have hk := Keeps.refl s
  unfold execEvtAlertClear
  repeat' (first
    | extract_lets | with_reducible assumption | with_reducible apply Keeps.refl | with_reducible apply True.intro
    | with_reducible apply State.writeAlert_keeps | with_reducible apply KeepsOut.mk
    | with_reducible apply KeepsOut.mkFault | with_reducible apply KeepsOut.mkRefused
    | with_reducible apply KeepsOut.ite | intro _ | with_reducible apply KeepsO.getD
    | with_reducible apply Keeps.ite | (with_reducible apply Keeps.forEach; rotate_left; intro s a)
    | simp only [Keeps.mk_iff] | split | (dsimp +zetaDelta only))

theorem execDevStatusChgClear_keeps (p : Path) (v : Word) (s : State) : KeepsOut s (execDevStatusChgClear p v s) := by
  have hk := Keeps.refl s
  unfold execDevStatusChgClear
  repeat' (first
    | extract_lets | with_reducible assumption | with_reducible apply Keeps.refl | with_reducible apply True.intro
    | with_reducible apply State.writeChg_keeps | with_reducible apply KeepsOut.mk
    | with_reducible apply KeepsOut.mkFault | with_reducible apply KeepsOut.mkRefused
    | with_reducible apply KeepsOut.ite | intro _ | with_reducible apply KeepsO.getD
    | with_reducible apply Keeps.ite | (with_reducible apply Keeps.forEach; rotate_left; intro s a)
    | simp only [Keeps.mk_iff] | split | (dsimp +zetaDelta only))

theorem execDevStatusMaskWrite_keeps (p : Path) (v : Word) (s : State) : KeepsOut s (execDevStatusMaskWrite p v s) := by
  have hk := Keeps.refl s
  unfold execDevStatusMaskWrite
  repeat' (first
    | extract_lets | with_reducible assumption | with_reducible apply Keeps.refl | with_reducible apply True.intro
    | with_reducible apply State.writeMask_keeps | with_reducible apply KeepsOut.mk
    | with_reducible apply KeepsOut.mkFault | with_reducible apply KeepsOut.mkRefused
    | with_reducible apply KeepsOut.ite | intro _ | with_reducible apply KeepsO.getD
    | with_reducible apply Keeps.ite | (with_reducible apply Keeps.forEach; rotate_left; intro s a)
    | simp only [Keeps.mk_iff] | split | (dsimp +zetaDelta only))

theorem State.sendHeldVectors_keeps {z0 : State} (s : State) (hk : Keeps z0 s) :
    Keeps z0 (State.sendHeldVectors s) := by
  unfold State.sendHeldVectors
  repeat' (first
    | extract_lets | with_reducible assumption | with_reducible apply Keeps.refl | with_reducible apply True.intro
    | with_reducible apply State.signalVector_keeps | with_reducible apply KeepsO.getD
    | with_reducible apply Keeps.ite | (with_reducible apply Keeps.forEach; rotate_left; intro s a)
    | simp only [Keeps.mk_iff] | split | (dsimp +zetaDelta only))

theorem State.setVecMask_keeps {z0 : State} (s : State) (k : Nat) (m : Bool) (hk : Keeps z0 s) :
    Keeps z0 (State.setVecMask s k m) := by
  unfold State.setVecMask
  repeat' (first
    | extract_lets | with_reducible assumption | with_reducible apply Keeps.refl | with_reducible apply True.intro
    | with_reducible apply State.sendHeldVectors_keeps | with_reducible apply KeepsO.getD
    | with_reducible apply Keeps.ite | (with_reducible apply Keeps.forEach; rotate_left; intro s a)
    | simp only [Keeps.mk_iff] | split | (dsimp +zetaDelta only))

theorem execMsixUnmask_keeps (vector : Option (Fin 8)) (s : State) : KeepsOut s (execMsixUnmask vector s) := by
  have hk := Keeps.refl s
  unfold execMsixUnmask
  repeat' (first
    | extract_lets | with_reducible assumption | with_reducible apply Keeps.refl | with_reducible apply True.intro
    | with_reducible apply State.setVecMask_keeps | with_reducible apply State.sendHeldVectors_keeps
    | with_reducible apply KeepsOut.mk | with_reducible apply KeepsOut.mkFault
    | with_reducible apply KeepsOut.mkRefused | with_reducible apply KeepsOut.ite | intro _
    | with_reducible apply KeepsO.getD | with_reducible apply Keeps.ite
    | (with_reducible apply Keeps.forEach; rotate_left; intro s a) | simp only [Keeps.mk_iff] | split
    | (dsimp +zetaDelta only))

theorem State.writeLatCtrl_keeps {z0 : State} (s : State) (p : Path) (l v : Nat) (hk : Keeps z0 s) :
    Keeps z0 (State.writeLatCtrl s p l v) := by
  unfold State.writeLatCtrl
  repeat' (first
    | extract_lets | with_reducible assumption | with_reducible apply Keeps.refl | with_reducible apply True.intro
    | with_reducible apply State.refuse_keeps | with_reducible apply State.writeEn_keeps
    | with_reducible apply State.fenceLattice_keeps | with_reducible apply KeepsO.getD
    | with_reducible apply Keeps.ite | (with_reducible apply Keeps.forEach; rotate_left; intro s a)
    | simp only [Keeps.mk_iff] | split | (dsimp +zetaDelta only))

theorem State.writePortCtrl_keeps {z0 : State} (s : State) (p : Path) (i v : Nat) (hk : Keeps z0 s) :
    Keeps z0 (State.writePortCtrl s p i v) := by
  unfold State.writePortCtrl
  repeat' (first
    | extract_lets | with_reducible assumption | with_reducible apply Keeps.refl | with_reducible apply True.intro
    | with_reducible apply State.writeFld_keeps | with_reducible apply State.enablePort_keeps
    | with_reducible apply State.retrainPort_keeps | with_reducible apply KeepsO.getD
    | with_reducible apply Keeps.ite | (with_reducible apply Keeps.forEach; rotate_left; intro s a)
    | simp only [Keeps.mk_iff] | split | (dsimp +zetaDelta only))

theorem State.writeCalCtrl_keeps {z0 : State} (s : State) (p : Path) (l v : Nat) (hk : Keeps z0 s) :
    Keeps z0 (State.writeCalCtrl s p l v) := by
  unfold State.writeCalCtrl
  repeat' (first
    | extract_lets | with_reducible assumption | with_reducible apply Keeps.refl | with_reducible apply True.intro
    | with_reducible apply State.refuse_keeps | with_reducible apply State.setFld_keeps
    | with_reducible apply State.writeFld_keeps | with_reducible apply State.startEpisode_keeps
    | with_reducible apply KeepsO.getD | with_reducible apply Keeps.ite
    | (with_reducible apply Keeps.forEach; rotate_left; intro s a) | simp only [Keeps.mk_iff] | split
    | (dsimp +zetaDelta only))

theorem State.writeBayCtrl_keeps {z0 : State} (s : State) (p : Path) (b v : Nat) (hk : Keeps z0 s) :
    Keeps z0 (State.writeBayCtrl s p b v) := by
  unfold State.writeBayCtrl
  repeat' (first
    | extract_lets | with_reducible assumption | with_reducible apply Keeps.refl | with_reducible apply True.intro
    | with_reducible apply State.refuse_keeps | with_reducible apply State.writeFld_keeps
    | with_reducible apply KeepsO.getD | with_reducible apply Keeps.ite
    | (with_reducible apply Keeps.forEach; rotate_left; intro s a) | simp only [Keeps.mk_iff] | split
    | (dsimp +zetaDelta only))

theorem State.writeTokenCtrl_keeps {z0 : State} (s : State) (v : Nat) (hk : Keeps z0 s) :
    Keeps z0 (State.writeTokenCtrl s v) := by
  unfold State.writeTokenCtrl
  repeat' (first
    | extract_lets | with_reducible assumption | with_reducible apply Keeps.refl | with_reducible apply True.intro
    | with_reducible apply State.drawn_keeps | with_reducible apply State.submitToken_keeps
    | with_reducible apply State.drawNonce_keeps | with_reducible apply State.endToken_keeps
    | with_reducible apply KeepsO.getD | with_reducible apply Keeps.ite
    | (with_reducible apply Keeps.forEach; rotate_left; intro s a) | simp only [Keeps.mk_iff] | split
    | (dsimp +zetaDelta only))

theorem State.writeTokenBuf_keeps {z : State} (s : State) (k v : Nat) (hk : Keeps z s) : Keeps z (s.writeTokenBuf k v) :=
  Keeps.setSec _ (Nat.le_refl _) (Nat.le_refl _) hk

theorem State.writeCoef_keeps {z0 : State} (s : State) (p : Path) (b key v : Nat) (hk : Keeps z0 s) :
    Keeps z0 (State.writeCoef s p b key v) := by
  unfold State.writeCoef
  repeat' (first
    | extract_lets | with_reducible assumption | with_reducible apply Keeps.refl | with_reducible apply True.intro
    | with_reducible apply State.refuse_keeps | with_reducible apply State.setCoef_keeps
    | with_reducible apply KeepsO.getD | with_reducible apply Keeps.ite
    | (with_reducible apply Keeps.forEach; rotate_left; intro s a) | simp only [Keeps.mk_iff] | split
    | (dsimp +zetaDelta only))

theorem State.writeTrace_keeps {z0 : State} (s : State) (b ch v : Nat) (hk : Keeps z0 s) :
    Keeps z0 (State.writeTrace s b ch v) := by
  unfold State.writeTrace
  repeat' (first
    | extract_lets | with_reducible assumption | with_reducible apply Keeps.refl | with_reducible apply True.intro
    | with_reducible apply State.setFld_keeps | with_reducible apply State.setTrace_keeps
    | with_reducible apply State.trigTrace_keeps | with_reducible apply KeepsO.getD | with_reducible apply Keeps.ite
    | (with_reducible apply Keeps.forEach; rotate_left; intro s a) | simp only [Keeps.mk_iff] | split
    | (dsimp +zetaDelta only))

theorem State.writeCluster_keeps {z0 : State} (s : State) (q v : Nat) (hk : Keeps z0 s) :
    Keeps z0 (State.writeCluster s q v) := by
  unfold State.writeCluster
  repeat' (first
    | extract_lets | with_reducible assumption | with_reducible apply Keeps.refl | with_reducible apply True.intro
    | with_reducible apply State.modCluster_keeps | with_reducible apply KeepsO.getD
    | with_reducible apply Keeps.ite | (with_reducible apply Keeps.forEach; rotate_left; intro s a)
    | simp only [Keeps.mk_iff] | split | (dsimp +zetaDelta only))

theorem State.writeUnit_keeps {z0 : State} (s : State) (p : Path) (b i sub sel v : Nat) (r : Reg) (hk : Keeps z0 s) :
    Keeps z0 (State.writeUnit s p b i sub sel v r) := by
  unfold State.writeUnit
  repeat' (first
    | extract_lets | with_reducible assumption | with_reducible apply Keeps.refl | with_reducible apply True.intro
    | with_reducible apply State.setFld_keeps | with_reducible apply State.refuse_keeps
    | with_reducible apply State.flushLarder_keeps | with_reducible apply State.writeFld_keeps
    | with_reducible apply State.bankSwap_keeps | with_reducible apply State.writeCoef_keeps
    | with_reducible apply State.modRing_keeps | with_reducible apply State.writeTrace_keeps
    | with_reducible apply State.writeCluster_keeps | with_reducible apply State.setFldAt_keeps
    | with_reducible apply State.writeMonTest_keeps | with_reducible apply KeepsO.getD
    | with_reducible apply Keeps.ite | (with_reducible apply Keeps.forEach; rotate_left; intro s a)
    | simp only [Keeps.mk_iff] | split | (dsimp +zetaDelta only))

theorem State.writeBay_keeps {z0 : State} (s : State) (p : Path) (b i sub v : Nat) (r : Reg) (hk : Keeps z0 s) :
    Keeps z0 (State.writeBay s p b i sub v r) := by
  unfold State.writeBay
  repeat' (first
    | extract_lets | with_reducible assumption | with_reducible apply Keeps.refl | with_reducible apply True.intro
    | with_reducible apply State.holdWrite_keeps | with_reducible apply State.writeUnit_keeps
    | with_reducible apply KeepsO.getD | with_reducible apply Keeps.ite
    | (with_reducible apply Keeps.forEach; rotate_left; intro s a) | simp only [Keeps.mk_iff] | split
    | (dsimp +zetaDelta only))

theorem State.applyHeldWrites_keeps {z0 : State} (s : State) (b : Nat) (hk : Keeps z0 s) :
    Keeps z0 (State.applyHeldWrites s b) := by
  unfold State.applyHeldWrites
  repeat' (first
    | extract_lets | with_reducible assumption | with_reducible apply Keeps.refl | with_reducible apply True.intro
    | with_reducible apply State.setBay_keeps | with_reducible apply State.writeUnit_keeps
    | with_reducible apply KeepsO.getD | with_reducible apply Keeps.ite
    | (with_reducible apply Keeps.forEach; rotate_left; intro s a) | simp only [Keeps.mk_iff] | split
    | (dsimp +zetaDelta only))

theorem State.writeTo_keeps {z0 : State} (s : State) (p : Path) (i sub v : Nat) (r : Reg) (hk : Keeps z0 s) :
    Keeps z0 (State.writeTo s p i sub v r) := by
  unfold State.writeTo
  repeat' (first
    | extract_lets | with_reducible assumption | with_reducible apply Keeps.refl | with_reducible apply True.intro
    | with_reducible apply State.writePlain_keeps | with_reducible apply State.writeLatCtrl_keeps
    | with_reducible apply State.writeCalCtrl_keeps | with_reducible apply State.writeBay_keeps
    | with_reducible apply State.writeBayCtrl_keeps | with_reducible apply State.writeFld_keeps
    | with_reducible apply State.refuse_keeps | with_reducible apply State.writeInj_keeps
    | with_reducible apply State.writePortCtrl_keeps | with_reducible apply State.writeProfile_keeps
    | with_reducible apply State.writeFlt_keeps | with_reducible apply State.startSave_keeps
    | with_reducible apply State.writeRestart_keeps | with_reducible apply State.writeCompact_keeps
    | with_reducible apply State.writeLimit_keeps | with_reducible apply State.writeTokenCtrl_keeps
    | with_reducible apply State.writeTokenBuf_keeps | with_reducible apply State.writeAlert_keeps
    | with_reducible apply State.writeFenceClear_keeps | with_reducible apply State.writeChg_keeps
    | with_reducible apply State.writeMask_keeps | with_reducible apply KeepsO.getD | with_reducible apply Keeps.ite
    | (with_reducible apply Keeps.forEach; rotate_left; intro s a) | simp only [Keeps.mk_iff] | split
    | (dsimp +zetaDelta only))

theorem State.writeMsix_keeps {z0 : State} (s : State) (k v : Nat) (hk : Keeps z0 s) :
    Keeps z0 (State.writeMsix s k v) := by
  unfold State.writeMsix
  repeat' (first
    | extract_lets | with_reducible assumption | with_reducible apply Keeps.refl | with_reducible apply True.intro
    | with_reducible apply State.setVecMask_keeps | with_reducible apply KeepsO.getD
    | with_reducible apply Keeps.ite | (with_reducible apply Keeps.forEach; rotate_left; intro s a)
    | simp only [Keeps.mk_iff] | split | (dsimp +zetaDelta only))

theorem State.writeReg_keeps {z0 : State} (s : State) (p : Path) (off v : Nat) (hk : Keeps z0 s) :
    Keeps z0 (State.writeReg s p off v) := by
  unfold State.writeReg
  repeat' (first
    | extract_lets | with_reducible assumption | with_reducible apply Keeps.refl | with_reducible apply True.intro
    | with_reducible apply State.writeMsix_keeps | with_reducible apply State.writeTo_keeps
    | with_reducible apply KeepsO.getD | with_reducible apply Keeps.ite
    | (with_reducible apply Keeps.forEach; rotate_left; intro s a) | simp only [Keeps.mk_iff] | split
    | (dsimp +zetaDelta only))

theorem execRegisterWrite_keeps (off : BitVec 26) (bytes : Nat) (v : Word) (s : State) : KeepsOut s (execRegisterWrite off bytes v s) := by
  have hk := Keeps.refl s
  unfold execRegisterWrite
  repeat' (first
    | extract_lets | with_reducible assumption | with_reducible apply Keeps.refl | with_reducible apply True.intro
    | with_reducible apply State.writeReg_keeps | with_reducible apply KeepsOut.mk
    | with_reducible apply KeepsOut.mkFault | with_reducible apply KeepsOut.mkRefused
    | with_reducible apply KeepsOut.ite | intro _ | with_reducible apply KeepsO.getD
    | with_reducible apply Keeps.ite | (with_reducible apply Keeps.forEach; rotate_left; intro s a)
    | simp only [Keeps.mk_iff] | split | (dsimp +zetaDelta only))

theorem execPowerRequest_keeps (b : Fin 4) (s : State) : KeepsOut s (execPowerRequest b s) := by
  have hk := Keeps.refl s
  unfold execPowerRequest
  repeat' (first
    | extract_lets | with_reducible assumption | with_reducible apply Keeps.refl | with_reducible apply True.intro
    | with_reducible apply State.formRequest_keeps | with_reducible apply State.applyHeldWrites_keeps
    | with_reducible apply State.resolvePower_keeps | with_reducible apply State.modBay_keeps
    | with_reducible apply KeepsOut.mk | with_reducible apply KeepsOut.mkFault
    | with_reducible apply KeepsOut.mkRefused | with_reducible apply KeepsOut.ite | intro _
    | with_reducible apply KeepsO.getD | with_reducible apply Keeps.ite
    | (with_reducible apply Keeps.forEach; rotate_left; intro s a) | simp only [Keeps.mk_iff] | split
    | (dsimp +zetaDelta only))

theorem execPowerTransitionComplete_keeps (b : Fin 4) (s : State) : KeepsOut s (execPowerTransitionComplete b s) := by
  have hk := Keeps.refl s
  unfold execPowerTransitionComplete
  repeat' (first
    | extract_lets | with_reducible assumption | with_reducible apply Keeps.refl | with_reducible apply True.intro
    | with_reducible apply State.modBay_keeps | with_reducible apply State.modLat_keeps
    | with_reducible apply State.markChg_keeps | with_reducible apply State.sensorChange_keeps
    | with_reducible apply State.resolvePower_keeps | with_reducible apply State.applyHeldWrites_keeps
    | with_reducible apply State.formRequest_keeps | with_reducible apply KeepsOut.mk
    | with_reducible apply KeepsOut.mkFault | with_reducible apply KeepsOut.mkRefused
    | with_reducible apply KeepsOut.ite | intro _ | with_reducible apply KeepsO.getD
    | with_reducible apply Keeps.ite | (with_reducible apply Keeps.forEach; rotate_left; intro s a)
    | simp only [Keeps.mk_iff] | split | (dsimp +zetaDelta only))

theorem execPowerRequestRetry_keeps (b : Fin 4) (s : State) : KeepsOut s (execPowerRequestRetry b s) := by
  have hk := Keeps.refl s
  unfold execPowerRequestRetry
  repeat' (first
    | extract_lets | with_reducible assumption | with_reducible apply Keeps.refl | with_reducible apply True.intro
    | with_reducible apply State.modBay_keeps | with_reducible apply State.formRequest_keeps
    | with_reducible apply State.applyHeldWrites_keeps | with_reducible apply KeepsOut.mk
    | with_reducible apply KeepsOut.mkFault | with_reducible apply KeepsOut.mkRefused
    | with_reducible apply KeepsOut.ite | intro _ | with_reducible apply KeepsO.getD
    | with_reducible apply Keeps.ite | (with_reducible apply Keeps.forEach; rotate_left; intro s a)
    | simp only [Keeps.mk_iff] | split | (dsimp +zetaDelta only))

end Sys2Proof.Machine
end

