-- ==== Sys2Proof/Laws/KeepManagement.lean ====
section
/-! SUPPORT. What the definitions of Machine/Management.lean keep (Keeps, Laws/Keep.lean). -/

set_option linter.all false

namespace Sys2Proof.Machine

theorem State.request_keeps {z : State} (s : State) (ep : Ep) (f : State → State)
    (hf : ∀ z s, Keeps z s → Keeps z (f s)) (hk : Keeps z s) : Keeps z (s.request ep f) := by
  unfold State.request
  repeat' (first
    | extract_lets | with_reducible assumption | with_reducible apply Keeps.refl | with_reducible apply True.intro
    | with_reducible apply State.answer_keeps | with_reducible apply KeepsO.getD | with_reducible apply Keeps.ite
    | (with_reducible apply Keeps.forEach; rotate_left; intro s a) | with_reducible apply hf
    | simp only [Keeps.mk_iff] | split | (dsimp +zetaDelta only))

theorem execMctpControl_keeps (ep : Ep) (setEid : Option (BitVec 8)) (s : State) : KeepsOut s (execMctpControl ep setEid s) := by
  have hk := Keeps.refl s
  unfold execMctpControl
  repeat' (first
    | extract_lets | with_reducible assumption | with_reducible apply Keeps.refl | with_reducible apply True.intro
    | with_reducible apply State.answer_keeps | with_reducible apply KeepsOut.mk
    | with_reducible apply KeepsOut.mkFault | with_reducible apply KeepsOut.mkRefused
    | with_reducible apply KeepsOut.ite | intro _ | with_reducible apply KeepsO.getD
    | with_reducible apply Keeps.ite | (with_reducible apply Keeps.forEach; rotate_left; intro s a)
    | simp only [Keeps.mk_iff] | split | (dsimp +zetaDelta only))

theorem execI3cAddressAssign_keeps (setdasa : Bool) (addr : BitVec 7) (s : State) : KeepsOut s (execI3cAddressAssign setdasa addr s) := by
  have hk := Keeps.refl s
  unfold execI3cAddressAssign
  repeat' (first
    | extract_lets | with_reducible assumption | with_reducible apply Keeps.refl | with_reducible apply True.intro
    | with_reducible apply KeepsOut.mk | with_reducible apply KeepsOut.mkFault
    | with_reducible apply KeepsOut.mkRefused | with_reducible apply KeepsOut.ite | intro _
    | with_reducible apply KeepsO.getD | with_reducible apply Keeps.ite
    | (with_reducible apply Keeps.forEach; rotate_left; intro s a) | simp only [Keeps.mk_iff] | split
    | (dsimp +zetaDelta only))

theorem execSubmitTokenCmd_keeps (ep : Ep) (bytes : List Byte) (sig : Verdict) (d : Bool) (s : State) :
    KeepsOut s (execSubmitTokenCmd ep bytes sig d s) := by
  refine State.request_keeps _ _ _ (fun z s hk => ?_) (Keeps.refl s)
  exact State.answer_keeps _ _ (State.submitToken_keeps _ _ _ _ (Keeps.setSec _ (Nat.le_refl _) (Nat.le_refl _) hk))

theorem execReadNonceCmd_keeps (ep : Ep) (s : State) : KeepsOut s (execReadNonceCmd ep s) := by
  have hk := Keeps.refl s
  unfold execReadNonceCmd
  repeat' (first
    | extract_lets | with_reducible assumption | with_reducible apply Keeps.refl | with_reducible apply True.intro
    | with_reducible apply State.request_keeps | intro _ | with_reducible apply State.answer_keeps
    | with_reducible apply KeepsOut.mk | with_reducible apply KeepsOut.mkFault
    | with_reducible apply KeepsOut.mkRefused | with_reducible apply KeepsOut.ite | intro _
    | with_reducible apply KeepsO.getD | with_reducible apply Keeps.ite
    | (with_reducible apply Keeps.forEach; rotate_left; intro s a) | simp only [Keeps.mk_iff] | split
    | (dsimp +zetaDelta only))

theorem execReadEventsCmd_keeps (ep : Ep) (seq : Word) (count : Nat) (s : State) : KeepsOut s (execReadEventsCmd ep seq count s) := by
  have hk := Keeps.refl s
  unfold execReadEventsCmd
  repeat' (first
    | extract_lets | with_reducible assumption | with_reducible apply Keeps.refl | with_reducible apply True.intro
    | with_reducible apply State.request_keeps | intro _ | with_reducible apply State.answer_keeps
    | with_reducible apply KeepsOut.mk | with_reducible apply KeepsOut.mkFault
    | with_reducible apply KeepsOut.mkRefused | with_reducible apply KeepsOut.ite | intro _
    | with_reducible apply KeepsO.getD | with_reducible apply Keeps.ite
    | (with_reducible apply Keeps.forEach; rotate_left; intro s a) | simp only [Keeps.mk_iff] | split
    | (dsimp +zetaDelta only))

theorem State.readCmd_keeps {z0 : State} (s : State) (p : Path) (off : Nat) (hk : Keeps z0 s) :
    Keeps z0 (State.readCmd s p off) := by
  unfold State.readCmd
  repeat' (first
    | extract_lets | with_reducible assumption | with_reducible apply Keeps.refl | with_reducible apply True.intro
    | with_reducible apply State.latchNonce_keeps | with_reducible apply State.answer_keeps
    | with_reducible apply KeepsO.getD | with_reducible apply Keeps.ite
    | (with_reducible apply Keeps.forEach; rotate_left; intro s a) | simp only [Keeps.mk_iff] | split
    | (dsimp +zetaDelta only))

theorem execReadRegisterCmd_keeps (ep : Ep) (off : BitVec 26) (s : State) : KeepsOut s (execReadRegisterCmd ep off s) := by
  have hk := Keeps.refl s
  unfold execReadRegisterCmd
  repeat' (first
    | extract_lets | with_reducible assumption | with_reducible apply Keeps.refl | with_reducible apply True.intro
    | with_reducible apply State.readCmd_keeps | with_reducible apply State.answer_keeps
    | with_reducible apply State.request_keeps | intro _ | with_reducible apply KeepsOut.mk
    | with_reducible apply KeepsOut.mkFault | with_reducible apply KeepsOut.mkRefused
    | with_reducible apply KeepsOut.ite | intro _ | with_reducible apply KeepsO.getD
    | with_reducible apply Keeps.ite | (with_reducible apply Keeps.forEach; rotate_left; intro s a)
    | simp only [Keeps.mk_iff] | split | (dsimp +zetaDelta only))

theorem execWriteRegisterCmd_keeps (ep : Ep) (off : BitVec 26) (v : Word) (s : State) : KeepsOut s (execWriteRegisterCmd ep off v s) := by
  have hk := Keeps.refl s
  unfold execWriteRegisterCmd
  repeat' (first
    | extract_lets | with_reducible assumption | with_reducible apply Keeps.refl | with_reducible apply True.intro
    | with_reducible apply State.answer_keeps | with_reducible apply State.request_keeps | intro _
    | with_reducible apply State.writeReg_keeps | with_reducible apply KeepsOut.mk
    | with_reducible apply KeepsOut.mkFault | with_reducible apply KeepsOut.mkRefused
    | with_reducible apply KeepsOut.ite | intro _ | with_reducible apply KeepsO.getD
    | with_reducible apply Keeps.ite | (with_reducible apply Keeps.forEach; rotate_left; intro s a)
    | simp only [Keeps.mk_iff] | split | (dsimp +zetaDelta only))

theorem execClearFenceCmd_keeps (ep : Ep) (l : Fin 8) (s : State) : KeepsOut s (execClearFenceCmd ep l s) := by
  have hk := Keeps.refl s
  unfold execClearFenceCmd
  repeat' (first
    | extract_lets | with_reducible assumption | with_reducible apply Keeps.refl | with_reducible apply True.intro
    | with_reducible apply State.request_keeps | intro _ | with_reducible apply State.clearFence_keeps
    | with_reducible apply State.answer_keeps | with_reducible apply KeepsOut.mk
    | with_reducible apply KeepsOut.mkFault | with_reducible apply KeepsOut.mkRefused
    | with_reducible apply KeepsOut.ite | intro _ | with_reducible apply KeepsO.getD
    | with_reducible apply Keeps.ite | (with_reducible apply Keeps.forEach; rotate_left; intro s a)
    | simp only [Keeps.mk_iff] | split | (dsimp +zetaDelta only))

theorem execWarmRestartCmd_keeps (ep : Ep) (s : State) : KeepsOut s (execWarmRestartCmd ep s) := by
  have hk := Keeps.refl s
  unfold execWarmRestartCmd
  repeat' (first
    | extract_lets | with_reducible assumption | with_reducible apply Keeps.refl | with_reducible apply True.intro
    | with_reducible apply State.request_keeps | intro _ | with_reducible apply State.requestRestart_keeps
    | with_reducible apply State.answer_keeps | with_reducible apply KeepsOut.mk
    | with_reducible apply KeepsOut.mkFault | with_reducible apply KeepsOut.mkRefused
    | with_reducible apply KeepsOut.ite | intro _ | with_reducible apply KeepsO.getD
    | with_reducible apply Keeps.ite | (with_reducible apply Keeps.forEach; rotate_left; intro s a)
    | simp only [Keeps.mk_iff] | split | (dsimp +zetaDelta only))

theorem execUpkeepPhaseCmd_keeps (ep : Ep) (s : State) : KeepsOut s (execUpkeepPhaseCmd ep s) := by
  have hk := Keeps.refl s
  unfold execUpkeepPhaseCmd
  repeat' (first
    | extract_lets | with_reducible assumption | with_reducible apply Keeps.refl | with_reducible apply True.intro
    | with_reducible apply State.request_keeps | intro _ | with_reducible apply State.answer_keeps
    | with_reducible apply KeepsOut.mk | with_reducible apply KeepsOut.mkFault
    | with_reducible apply KeepsOut.mkRefused | with_reducible apply KeepsOut.ite | intro _
    | with_reducible apply KeepsO.getD | with_reducible apply Keeps.ite
    | (with_reducible apply Keeps.forEach; rotate_left; intro s a) | simp only [Keeps.mk_iff] | split
    | (dsimp +zetaDelta only))

theorem execGetTid_keeps (ep : Ep) (s : State) : KeepsOut s (execGetTid ep s) := by
  have hk := Keeps.refl s
  unfold execGetTid
  repeat' (first
    | extract_lets | with_reducible assumption | with_reducible apply Keeps.refl | with_reducible apply True.intro
    | with_reducible apply State.answer_keeps | with_reducible apply State.request_keeps | intro _
    | with_reducible apply KeepsOut.mk | with_reducible apply KeepsOut.mkFault
    | with_reducible apply KeepsOut.mkRefused | with_reducible apply KeepsOut.ite | intro _
    | with_reducible apply KeepsO.getD | with_reducible apply Keeps.ite
    | (with_reducible apply Keeps.forEach; rotate_left; intro s a) | simp only [Keeps.mk_iff] | split
    | (dsimp +zetaDelta only))

theorem execGetSensorReading_keeps (ep : Ep) (id : Nat) (s : State) : KeepsOut s (execGetSensorReading ep id s) := by
  have hk := Keeps.refl s
  unfold execGetSensorReading
  repeat' (first
    | extract_lets | with_reducible assumption | with_reducible apply Keeps.refl | with_reducible apply True.intro
    | with_reducible apply State.answer_keeps | with_reducible apply State.request_keeps | intro _
    | with_reducible apply KeepsOut.mk | with_reducible apply KeepsOut.mkFault
    | with_reducible apply KeepsOut.mkRefused | with_reducible apply KeepsOut.ite | intro _
    | with_reducible apply KeepsO.getD | with_reducible apply Keeps.ite
    | (with_reducible apply Keeps.forEach; rotate_left; intro s a) | simp only [Keeps.mk_iff] | split
    | (dsimp +zetaDelta only))

theorem execSetEffecter_keeps (ep : Ep) (id v : Nat) (s : State) : KeepsOut s (execSetEffecter ep id v s) := by
  have hk := Keeps.refl s
  unfold execSetEffecter
  repeat' (first
    | extract_lets | with_reducible assumption | with_reducible apply Keeps.refl | with_reducible apply True.intro
    | with_reducible apply State.request_keeps | intro _ | with_reducible apply State.writeLimit_keeps
    | with_reducible apply State.answer_keeps | with_reducible apply KeepsOut.mk
    | with_reducible apply KeepsOut.mkFault | with_reducible apply KeepsOut.mkRefused
    | with_reducible apply KeepsOut.ite | intro _ | with_reducible apply KeepsO.getD
    | with_reducible apply Keeps.ite | (with_reducible apply Keeps.forEach; rotate_left; intro s a)
    | simp only [Keeps.mk_iff] | split | (dsimp +zetaDelta only))

theorem execPollPlatformEvent_keeps (ep : Ep) (s : State) : KeepsOut s (execPollPlatformEvent ep s) := by
  have hk := Keeps.refl s
  unfold execPollPlatformEvent
  repeat' (first
    | extract_lets | with_reducible assumption | with_reducible apply Keeps.refl | with_reducible apply True.intro
    | with_reducible apply State.request_keeps | intro _ | with_reducible apply State.answer_keeps
    | with_reducible apply KeepsOut.mk | with_reducible apply KeepsOut.mkFault
    | with_reducible apply KeepsOut.mkRefused | with_reducible apply KeepsOut.ite | intro _
    | with_reducible apply KeepsO.getD | with_reducible apply Keeps.ite
    | (with_reducible apply Keeps.forEach; rotate_left; intro s a) | simp only [Keeps.mk_iff] | split
    | (dsimp +zetaDelta only))

theorem State.setUpdate_keeps {z0 : State} (s : State) (u : Update) (hk : Keeps z0 s) :
    Keeps z0 (State.setUpdate s u) := by
  unfold State.setUpdate
  repeat' (first
    | extract_lets | with_reducible assumption | with_reducible apply Keeps.refl | with_reducible apply True.intro
    | with_reducible apply KeepsO.getD | with_reducible apply Keeps.ite
    | (with_reducible apply Keeps.forEach; rotate_left; intro s a) | simp only [Keeps.mk_iff] | split
    | (dsimp +zetaDelta only))

theorem State.leaveUpdate_keeps {z0 : State} (s : State) (hk : Keeps z0 s) :
    Keeps z0 (State.leaveUpdate s) := by
  unfold State.leaveUpdate
  repeat' (first
    | extract_lets | with_reducible assumption | with_reducible apply Keeps.refl | with_reducible apply True.intro
    | with_reducible apply KeepsO.getD | with_reducible apply Keeps.ite
    | (with_reducible apply Keeps.forEach; rotate_left; intro s a) | simp only [Keeps.mk_iff] | split
    | (dsimp +zetaDelta only))

theorem State.updateRun_keeps {z : State} (s : State) (ep : Ep) (agent : Nat) (ok : Update → Bool) (f : State → State)
    (hf : ∀ z s, Keeps z s → Keeps z (f s)) (hk : Keeps z s) : Keeps z (s.updateRun ep agent ok f) := by
  unfold State.updateRun
  refine State.request_keeps _ _ _ (fun z s hk => ?_) hk
  repeat' (first
    | with_reducible assumption | with_reducible apply hf | with_reducible apply State.answer_keeps | split)

theorem execRequestUpdate_keeps (ep : Ep) (agent component : Nat) (s : State) : KeepsOut s (execRequestUpdate ep agent component s) := by
  have hk := Keeps.refl s
  unfold execRequestUpdate
  repeat' (first
    | extract_lets | with_reducible assumption | with_reducible apply Keeps.refl | with_reducible apply True.intro
    | with_reducible apply State.request_keeps | intro _ | with_reducible apply State.answer_keeps
    | with_reducible apply KeepsOut.mk | with_reducible apply KeepsOut.mkFault
    | with_reducible apply KeepsOut.mkRefused | with_reducible apply KeepsOut.ite | intro _
    | with_reducible apply KeepsO.getD | with_reducible apply Keeps.ite
    | (with_reducible apply Keeps.forEach; rotate_left; intro s a) | simp only [Keeps.mk_iff] | split
    | (dsimp +zetaDelta only))

theorem State.setSpare_keeps {z : State} (s : State) (n : Nat) (i : Option Staged) (hk : Keeps z s) : Keeps z (s.setSpare n i) := by
  unfold State.setSpare
  split
  · extract_lets fw
    exact Keeps.mk' hk ..
  · extract_lets c s1
    exact Keeps.mk' (State.setFld_keeps _ _ _ _ hk) ..

theorem execFirmwareDataReceived_keeps (ep : Ep) (agent bytes : Nat) (image : Option Staged) (s : State) : KeepsOut s (execFirmwareDataReceived ep agent bytes image s) := by
  have hk := Keeps.refl s
  unfold execFirmwareDataReceived
  repeat' (first
    | extract_lets | with_reducible assumption | with_reducible apply Keeps.refl | with_reducible apply True.intro
    | with_reducible apply State.updateRun_keeps | intro _ | with_reducible apply State.setUpdate_keeps
    | with_reducible apply State.answer_keeps | with_reducible apply State.setSpare_keeps
    | with_reducible apply KeepsOut.mk | with_reducible apply KeepsOut.mkFault
    | with_reducible apply KeepsOut.mkRefused | with_reducible apply KeepsOut.ite | intro _
    | with_reducible apply KeepsO.getD | with_reducible apply Keeps.ite
    | (with_reducible apply Keeps.forEach; rotate_left; intro s a) | simp only [Keeps.mk_iff] | split
    | (dsimp +zetaDelta only))

theorem State.stagedSig_keeps {z0 : State} (s : State) (hk : Keeps z0 s) :
    Keeps z0 (State.stagedSig s) := by
  unfold State.stagedSig
  repeat' (first
    | extract_lets | with_reducible assumption | with_reducible apply Keeps.refl | with_reducible apply True.intro
    | with_reducible apply State.noteSig_keeps | with_reducible apply KeepsO.getD | with_reducible apply Keeps.ite
    | (with_reducible apply Keeps.forEach; rotate_left; intro s a) | simp only [Keeps.mk_iff] | split
    | (dsimp +zetaDelta only))

theorem execVerifyComplete_keeps (ep : Ep) (agent : Nat) (s : State) : KeepsOut s (execVerifyComplete ep agent s) := by
  have hk := Keeps.refl s
  unfold execVerifyComplete
  repeat' (first
    | extract_lets | with_reducible assumption | with_reducible apply Keeps.refl | with_reducible apply True.intro
    | with_reducible apply State.updateRun_keeps | intro _ | with_reducible apply State.stagedSig_keeps
    | with_reducible apply State.setUpdate_keeps | with_reducible apply State.answer_keeps
    | with_reducible apply KeepsOut.mk | with_reducible apply KeepsOut.mkFault
    | with_reducible apply KeepsOut.mkRefused | with_reducible apply KeepsOut.ite | intro _
    | with_reducible apply KeepsO.getD | with_reducible apply Keeps.ite
    | (with_reducible apply Keeps.forEach; rotate_left; intro s a) | simp only [Keeps.mk_iff] | split
    | (dsimp +zetaDelta only))

theorem execApplyComplete_keeps (ep : Ep) (agent : Nat) (s : State) : KeepsOut s (execApplyComplete ep agent s) := by
  have hk := Keeps.refl s
  unfold execApplyComplete
  repeat' (first
    | extract_lets | with_reducible assumption | with_reducible apply Keeps.refl | with_reducible apply True.intro
    | with_reducible apply State.updateRun_keeps | intro _ | with_reducible apply State.journal_keeps
    | with_reducible apply State.setFld_keeps | with_reducible apply State.setUpdate_keeps
    | with_reducible apply State.answer_keeps | with_reducible apply State.setSpare_keeps
    | with_reducible apply KeepsOut.mk | with_reducible apply KeepsOut.mkFault
    | with_reducible apply KeepsOut.mkRefused | with_reducible apply KeepsOut.ite | intro _
    | with_reducible apply KeepsO.getD | with_reducible apply Keeps.ite
    | (with_reducible apply Keeps.forEach; rotate_left; intro s a) | simp only [Keeps.mk_iff] | split
    | (dsimp +zetaDelta only))

theorem State.activate_keeps {z0 : State} (s : State) (hk : Keeps z0 s) :
    Keeps z0 (State.activate s) := by
  unfold State.activate
  repeat' (first
    | extract_lets | with_reducible assumption | with_reducible apply Keeps.refl | with_reducible apply True.intro
    | with_reducible apply State.journal_keeps | with_reducible apply State.leaveUpdate_keeps
    | with_reducible apply State.startSave_keeps | with_reducible apply State.requestRestart_keeps
    | with_reducible apply KeepsO.getD | with_reducible apply Keeps.ite
    | (with_reducible apply Keeps.forEach; rotate_left; intro s a) | simp only [Keeps.mk_iff] | split
    | (dsimp +zetaDelta only))

theorem execActivateFirmware_keeps (ep : Ep) (agent : Nat) (s : State) : KeepsOut s (execActivateFirmware ep agent s) := by
  have hk := Keeps.refl s
  unfold execActivateFirmware
  repeat' (first
    | extract_lets | with_reducible assumption | with_reducible apply Keeps.refl | with_reducible apply True.intro
    | with_reducible apply State.updateRun_keeps | intro _ | with_reducible apply State.activate_keeps
    | with_reducible apply State.leaveUpdate_keeps | with_reducible apply State.requestRestart_keeps
    | with_reducible apply State.answer_keeps | with_reducible apply KeepsOut.mk
    | with_reducible apply KeepsOut.mkFault | with_reducible apply KeepsOut.mkRefused
    | with_reducible apply KeepsOut.ite | intro _ | with_reducible apply KeepsO.getD
    | with_reducible apply Keeps.ite | (with_reducible apply Keeps.forEach; rotate_left; intro s a)
    | simp only [Keeps.mk_iff] | split | (dsimp +zetaDelta only))

theorem execCancelUpdate_keeps (ep : Ep) (agent : Nat) (s : State) : KeepsOut s (execCancelUpdate ep agent s) := by
  have hk := Keeps.refl s
  unfold execCancelUpdate
  repeat' (first
    | extract_lets | with_reducible assumption | with_reducible apply Keeps.refl | with_reducible apply True.intro
    | with_reducible apply State.updateRun_keeps | intro _ | with_reducible apply State.leaveUpdate_keeps
    | with_reducible apply State.answer_keeps | with_reducible apply KeepsOut.mk
    | with_reducible apply KeepsOut.mkFault | with_reducible apply KeepsOut.mkRefused
    | with_reducible apply KeepsOut.ite | intro _ | with_reducible apply KeepsO.getD
    | with_reducible apply Keeps.ite | (with_reducible apply Keeps.forEach; rotate_left; intro s a)
    | simp only [Keeps.mk_iff] | split | (dsimp +zetaDelta only))

theorem execUpdateAgentTimeout_keeps (s : State) : KeepsOut s (execUpdateAgentTimeout s) := by
  have hk := Keeps.refl s
  unfold execUpdateAgentTimeout
  repeat' (first
    | extract_lets | with_reducible assumption | with_reducible apply Keeps.refl | with_reducible apply True.intro
    | with_reducible apply State.leaveUpdate_keeps | with_reducible apply KeepsOut.mk
    | with_reducible apply KeepsOut.mkFault | with_reducible apply KeepsOut.mkRefused
    | with_reducible apply KeepsOut.ite | intro _ | with_reducible apply KeepsO.getD
    | with_reducible apply Keeps.ite | (with_reducible apply Keeps.forEach; rotate_left; intro s a)
    | simp only [Keeps.mk_iff] | split | (dsimp +zetaDelta only))

end Sys2Proof.Machine
end

