-- ==== Sys2Proof/Laws/Memory.lean ====
section
/-! SUPPORT. What a write of device memory can change while the host holds no line: the bytes stored, and what the error
protection, the larder copies and the watch units keep about them. -/

set_option linter.all false

namespace Sys2Proof.Machine

/-- Bytes `d` were stored at `a`; besides, only error marks, larder copies, counters and latched waits changed. -/
def Wrote (a : Nat) (d : List Byte) (s t : State) : Prop :=
  t = { s with mem := memStore s.mem a d, poison := t.poison, wordErr := t.wordErr, bays := t.bays, flds := t.flds,
               threads := t.threads }

/-- As `Wrote`, with nothing stored. -/
def Noted (s t : State) : Prop :=
  t = { s with poison := t.poison, wordErr := t.wordErr, bays := t.bays, flds := t.flds, threads := t.threads }

theorem Noted.refl (s : State) : Noted s s := rfl
theorem Noted.trans {a b c : State} (h : Noted a b) (g : Noted b c) : Noted a c := by unfold Noted at *; rw [g, h]
theorem Noted.forEach {α : Type} (l : List α) (f : State → α → State) (h : ∀ s a, Noted s (f s a)) :
    ∀ s, Noted s (Sys2Proof.Machine.forEach l f s) := by
  induction l with
  | nil => exact fun s => .refl s
  | cons a r ih => exact fun s => (h s a).trans (ih _)

theorem State.larderInvalidate_noted (s : State) (a : Nat) : Noted s (s.larderInvalidate a) := by
  unfold State.larderInvalidate
  dsimp only
  apply Noted.forEach
  intro s b
  exact rfl

theorem State.evalWaiters_noted (s : State) (p : Bool) (b : List Nat) (h : Bool) (a : Nat) :
    Noted s (s.evalWaiters p b h a) := by
  unfold State.evalWaiters
  dsimp only
  split
  · exact .refl _
  · exact rfl

theorem State.reportWrite_noted (s : State) (a n : Nat) : Noted s (s.reportWrite a n) :=
  Noted.forEach _ _ (fun _ _ => State.evalWaiters_noted ..) s

theorem State.applyPart_wrote (s : State) (a : Nat) (d : List Byte) : Wrote a d s (s.applyPart a d) := by
  have h : ∀ u : State, Noted (s.store a d) u → Wrote a d s (u.reportWrite a d.length) := by
    intro u hu
    have := hu.trans (u.reportWrite_noted a d.length)
    unfold Noted State.store at this
    unfold Wrote
    rw [this]
  unfold State.applyPart
  dsimp only
  apply h
  split
  · refine Noted.trans ?_ (State.larderInvalidate_noted ..)
    split
    · exact rfl
    · exact .refl _
  · exact rfl

theorem memStore_append (m : Tbl Byte) (a : Nat) (d e : List Byte) :
    memStore m a (d ++ e) = memStore (memStore m a d) (a + d.length) e := by
  induction d generalizing m a with
  | nil => rfl
  | cons b r ih =>
    show memStore (tset 0 m a b) (a + 1) (r ++ e) = _
    rw [ih, List.length_cons, show a + (r.length + 1) = a + 1 + r.length by omega]
    rfl

theorem State.writePart_wrote {s : State} (h : s.cxl.snoop = []) (a : Nat) (d : List Byte) :
    Wrote a d s (s.writePart a d) := by
  unfold State.writePart State.hostHolds
  rw [h]
  exact s.applyPart_wrote a d

/-- The parts of a write lie one behind the other. -/
theorem writeParts_wrote (l : List (Nat × List Byte)) : ∀ (a : Nat) (d : List Byte) (s : State), s.cxl.snoop = [] →
    (∀ k, k < l.length → (l.getD k (0, [])).1 = a + ((l.take k).flatMap (·.2)).length) → l.flatMap (·.2) = d →
    Wrote a d s (forEach l (fun s p => s.writePart p.1 p.2) s) := by
  induction l with
  | nil => intro a d s _ _ hd; subst hd; exact rfl
  | cons x r ih =>
    intro a d s hs hk hd
    have h0 := hk 0 (by simp)
    simp at h0
    have h1 := State.writePart_wrote hs x.1 x.2
    rw [h0] at h1
    have hs' : (s.writePart a x.2).cxl.snoop = [] := by rw [h1]; exact hs
    have h2 := ih (a + x.2.length) (r.flatMap (·.2)) (s.writePart a x.2) hs' (fun k hk' => by
      have := hk (k + 1) (by simpa using hk')
      simp at this
      simp; rw [this]; omega) rfl
    show Wrote a d s (forEach r _ (s.writePart x.1 x.2))
    rw [h0]
    unfold Wrote at *
    rw [h2, ← hd, List.flatMap_cons, memStore_append, h1]

theorem splitLines_spec (a : Nat) (d : List Byte) : (splitLines a d).flatMap (·.2) = d ∧
    ∀ k, k < (splitLines a d).length →
      ((splitLines a d).getD k (0, [])).1 = a + (((splitLines a d).take k).flatMap (·.2)).length := by
  induction d generalizing a with
  | nil => exact ⟨rfl, fun k hk => absurd hk (by simp [splitLines])⟩
  | cons b r ih =>
    obtain ⟨i1, i2⟩ := ih (a + 1)
    unfold splitLines
    split
    · rename_i e
      rw [e] at i1
      refine ⟨by simp at i1; simp [i1], fun k hk => ?_⟩
      have : k = 0 := by simpa using hk
      subst this; simp
    · rename_i a' d' rest e
      rw [e] at i1 i2
      split
      · refine ⟨by rw [List.flatMap_cons, i1]; rfl, fun k hk => ?_⟩
        cases k with
        | zero => simp
        | succ k =>
          have := i2 k (by simpa using hk)
          simp at this
          simp; rw [this]; omega
      · refine ⟨by simp at i1; simp [i1], fun k hk => ?_⟩
        cases k with
        | zero => simp
        | succ k =>
          have := i2 (k + 1) (by simpa using hk)
          simp at this
          simp; rw [this]; omega

/-- What a device write does while the host holds no line (R238). -/
theorem State.devWrite_wrote {s : State} (h : s.cxl.snoop = []) (a : Nat) (d : List Byte) :
    Wrote a d s (s.devWrite a d) :=
  writeParts_wrote _ a d s h (splitLines_spec a d).2 (splitLines_spec a d).1

theorem Wrote.mem {a : Nat} {d : List Byte} {s t : State} (h : Wrote a d s t) : t.mem = memStore s.mem a d := by rw [h]
theorem Wrote.bytes {a : Nat} {d : List Byte} {s t : State} (h : Wrote a d s t) : t.bytes a d.length = d := by
  unfold State.bytes; rw [h.mem]; exact memBytes_memStore ..
theorem Wrote.byte {a : Nat} {d : List Byte} {s t : State} (h : Wrote a d s t) (x : Nat)
    (hx : x < a ∨ a + d.length ≤ x) : t.byte x = s.byte x := by
  unfold State.byte; rw [h.mem]; exact tget_memStore_out _ _ _ _ hx

end Sys2Proof.Machine
end

