-- ==== Sys2Proof/Tests/Slice0.lean ====
section
/-! SUPPORT. Tests of one step each on small states: each row's operand check refuses an ill-formed command, and for each
statement a state and operands that meet its hypotheses together. -/

namespace Sys2Proof.Tests

open Sys2Proof Sys2Proof.Machine

set_option Elab.async false

set_option maxRecDepth 4000

/-! ## Small states -/

/-- A device that runs: started, its link in L0, the flash window open. -/
def tOn : State := { State.reset with
  boot := { State.reset.boot with on := true, stage := 5 }
  pins := { State.reset.pins with perst := false }
  cxl := { Cxl.reset with state := .l0, memActive := true, level := 2, bi := true, crs := false }
  jnl := { Journal.reset with windowOpen := true }
  power := { Power.reset with limit := 900 } }

/-- The running device with one lattice as given. -/
def tL (l : Nat) (x : Lattice) : State := { tOn with lats := [(l, x)] }

/-- A lattice in a state. -/
def tLat (st : LatState) : Lattice := { Lattice.reset with state := st }

/-- The running device with one bay as given. -/
def tB (b : Nat) (y : Bay) : State := { tOn with bays := [(b, y)] }

/-- A virtual page in the cellars. -/
def tLeaf : Leaf := { vpage := 0, page := 0x200000, target := 0, writable := true }

/-- A thread that stands before a step `w`: recipe and context in a page of its own. -/
def tStep (w : Nat) : State := { tOn with
  mem := memStore [] 0x2000C0 (leBytes 32 w)
  ctxs := [(0, { Ctx.reset with st := .running, nSteps := 2, leaves := [tLeaf] })]
  threads := [(511, { Thread.reset with st := .ready })] }

/-- The state of a step that begins. -/
def goOf : Begun → State
  | .go s _ => s
  | _ => State.reset

/-- A step begins with the word `w`. -/
def goes : Begun → Nat → Bool
  | .go _ v, w => v == w
  | _, _ => false

theorem goes_spec {b : Begun} {w : Nat} (h : goes b w = true) : b = .go (goOf b) w := by
  cases b <;> simp_all [goes, goOf]

/-- The state of an effect without a fault. -/
def okOf : Except (Nat × State) State → State
  | .ok s => s
  | .error e => e.2

def isOk : Except (Nat × State) State → Bool
  | .ok _ => true
  | .error _ => false

theorem isOk_spec {r : Except (Nat × State) State} (h : isOk r = true) : r = .ok (okOf r) := by
  cases r <;> simp_all [isOk, okOf]

/-- The code of an effect with a fault. -/
def errOf : Except (Nat × State) State → Nat
  | .ok _ => 0
  | .error e => e.1

theorem isErr_spec {r : Except (Nat × State) State} {k : Nat} (h : (!isOk r && errOf r == k) = true) :
    r = .error (k, okOf r) := by
  cases r <;> simp_all [isOk, okOf, errOf]
  rename_i e; obtain ⟨a, b⟩ := e; simp_all

/-- The next state of an outcome. -/
def nextOf : Out → State
  | .next s => s
  | _ => State.reset

def isNext : Out → Bool
  | .next _ => true
  | _ => false

theorem isNext_spec {r : Out} (h : isNext r = true) : r = .next (nextOf r) := by
  cases r <;> simp_all [isNext, nextOf]

theorem inv_on (q : List Instr) (h : q.all Instr.wf = true) : Inv { tOn with pending := q } :=
  ⟨h, rfl, rfl, rfl, fun i e h => by simp [tOn, State.reset] at h⟩

/-- A step in progress with word `w`. -/
def tActive (w : Nat) : Active :=
  { Active.start Thread.reset 5 0 w 0 0 0 with done := true }

/-- An event. -/
def tEvent : Event := {
  time := 7, seq := 0, code := 0x0101, severity := 1, plane := 0, unitKind := 1, unitId := 7, ctx := 65535,
  params := [] }

/-- A verdict where all holds. -/
def tGood : Verdict := ⟨true, true, true⟩

/-- A firmware image. -/
def tImage (svn : Nat) : FwImage := { version := 1, svn := svn, commit := false, fieldsOk := true, digest := [], verdict := tGood }

/-- The running device with an update in the state given by agent 9. -/
def tUpd (u : Update) (st : Option Staged) : State := { tOn with
  mgmt := { Mgmt.reset with update := u, agent := some 9, component := 1, staged := st } }

/-- A portal with 64 entries. -/
def tPo : Portal := {
  base := 0x10000, entries := 64, first := 0, leaseMs := 10, priority := 0, threads := 4, xfer := 1, share := 1,
  powerFloor := 0, permPower := false, permSigned := false, permFabric := false, permHost := false, attic := 0,
  regions := [] }

/-- A portal entry 63 of portal 0 whose CMD word holds `cmd`; claimed where `tag` is not 0. -/
def tPortal (cmd tag : Nat) (x : Ctx) : State := { tOn with
  cfg := { Configuration.unset with portals := [tPo] }
  mem := memStore (memStore [] (0x10000 + 64 * 63) (leBytes 8 tag)) (0x10000 + 64 * 63 + 0x28) (leBytes 8 cmd)
  ctxs := [(63, x)] }

/-- A port that carries frames: all lanes up, version 2, credits of each kind. -/
def tUp : Port := { Port.reset with
  state := .active, version := 2, lanesUp := 0xFF, peerDev := 1,
  credits := [9, 9, 9, 9, 9, 9, 9, 9] }

/-- A port that carries frames and has no credit. -/
def tNoCredit : Port := { tUp with credits := [0, 0, 0, 0, 0, 0, 0, 0] }

/-- A route through port 0. -/
def tRoute : List Seg := [{ port := 0, hops := 1 }]

/-- A fabric profile with a route to device 1 and one group. -/
def tProfile (g : List Group) : Profile :=
  { fibre := [0, 1, 2, 3, 4, 5, 6, 7], dateline := [], routes := [(1, tRoute)], groups := g, v1 := [] }

/-- The device of a fabric: port 7 receives, port 0 has no credit, window 15 is declared, device 1 is of the partition. -/
def tFab (g : List Group) (h : Hnx) : State := { tOn with
  cfg := { Configuration.unset with
    partition := [1]
    windows := List.replicate 15 { declared := false, base := 0, size := 0, canRead := false, canWrite := false, canCas := false, partition := [] } ++
      [{ declared := true, base := 0x1000, size := 0x1000, canRead := true, canWrite := true, canCas := true, partition := [1] }]
    profiles := [tProfile g] }
  ports := [(0, tNoCredit), (7, tUp)]
  hnx := h }

/-- A frame with its link CRC. -/
def tSeal (f : Frame) : Frame := { f with crc := linkCrc f }

/-- A frame of TYPE `ty` and class `cls` from device 1 to this device on flow 5, sequence 3, of window 15's end. -/
def tFrame (ty cls flag : Nat) (off tag : Nat) (d : List Byte) : Frame :=
  tSeal (mkFrame ty cls flag false 1 0 5 3 15 off tag d)

/-- A destination flow entry that expects sequence 3. -/
def tDst : DstFlow := {
  src := 1, flow := 5, group := none, o := 0, e := 3, skips := [], heldFrames := [], heldSigs := [], commits := 0,
  ackDue := false, rejected := [], used := 0, via := 7 }

/-- A source flow entry towards device 1. -/
def tSrc : SrcFlow := {
  dst := 1, flow := 5, mc := none, n := 8, u := 3, opened := 0, sync := false, unacked := [], lost := false,
  sigWait := [], used := 0, transfer := 0, backlog := [], waiting := [], members := [], repairs := [] }

/-- A sequenced frame that is not acknowledged. -/
def tSent : Sent := {
  fseq := 3, thread := 511, idx := 0, ctx := 0, pc := 0, uid := 5, answers := true, got := 0, len := 8, dst := 0,
  src := 0, data := [], window := 15, off := 0xFF8, tag := 0 }

/-- Group 9, of which this device is a member unless it relays. -/
def tGroup (up : Option Nat) (member : Bool) : Group :=
  { id := 9, upstream := up, down := [0], member := member, beneath := [(8, [1])], flows := [6] }

/-- A frame to group 9. -/
def tMc (ty : Nat) (tag : Nat) (d : List Byte) : Frame :=
  tSeal (mkFrame ty 3 0 false 1 (2 ^ 14 + 9) 5 3 15 0xFF8 tag d)

/-- A frame of TYPE `ty` without a payload, not sealed. -/
def testFrame (ty : Nat) : Frame := { hdr := BitVec.ofNat 256 ty, payload := [], crc := 0 }

theorem stalls_spec {b : Begun} (h : (match b with | .stall => true | _ => false) = true) : b = .stall := by
  cases b <;> simp_all

/-- A token of a kind and key class for nonce 1. -/
def tToken (kind cls dur keys : Nat) : List Byte :=
  leBytes 4 0x4B475431 ++ leBytes 2 1 ++ leBytes 1 cls ++ leBytes 1 kind ++ leBytes 8 (if kind = 0 then 3 else 0) ++
  leBytes 32 0 ++ leBytes 32 1 ++ leBytes 4 dur ++ leBytes 4 keys ++ leBytes 40 0

/-- The running device with nonce 1. -/
def tNonce : State := { tOn with sec := { Security.reset with nonce := some 1 } }

/-- A piece without rows, its plane, and a burst of it. -/
def tChunk : Chunk := {
  thread := 511, uid := 5, tile := 0, plane := 0, group := 0, lo := 0, hi := 0, all := [], todo := [], h := 0,
  rep := false, suspectRep := false, pin := none, id := 0 }

def tPlane : Plane := { thread := 511, uid := 5, tile := 0, plane := 0, lo := 0, hi := 0, rows := [] }

def tBurst : Burst := {
  chunk := tChunk, ins := [], plane := tPlane, ctx := 0, ranges := [], reads := 0, suspect := false, issued := 0,
  adds := [], word := 1, dead := [] }

/-- Lattice 7 loads that piece; its weight stream is stencil 0, one item at virtual address 0. -/
def tLoad : State := { tL 7 { tLat .serving with loading := some tChunk } with
  mem := memStore [] 0x210000 (leBytes 4 0xA0000000)
  ctxs := [(0, { Ctx.reset with st := .running, stencils := 0x10000, leaves := [tLeaf] })]
  threads := [(511, { Thread.reset with st := .ready, steps := [tActive 1] })] }

/-- A transfer of a line of device memory. -/
def tXfer : Xfer := {
  host := false, addr := 0x300000, page := 0, len := 64, pool := 64, hint := 0, piece := 0, first := 0, past := 0,
  waits := [], attic := 0 }

def tRec : JRec := { seq := 0, kind := .event, payload := [1], snap := false }

def tRamp (k : Nat) : Ramp := { goal := { temp := 10240, factory := false, folded := 0, swept := 0, randoms := 0 }, step := k, start := 0, count := 16, landed := true }

/-- A thread before a step `w`, with identifier 0 mapped to a device word and polled in its bay. -/
def tSync (w : Nat) : State := { tStep w with
  ctxs := [(0, { Ctx.reset with
    st := .running, nSteps := 2, leaves := [tLeaf]
    sync := [{ sid := 0, sig := .own false 0x300000, slots := [], polled := [3] }] })] }

def bindFails {α β : Type} : Except α β → Bool
  | .error _ => true
  | .ok _ => false

/-- Four equal profiles. -/
def tProfiles : State := { tOn with
  cfg := { Configuration.unset with profiles := [tProfile [], tProfile [], tProfile [], tProfile []] } }

/-- The frame that goes out on a port. -/
def sentAs : Fwd → Frame
  | .send _ f => f
  | _ => testFrame 0


/-- What `Arrives` asks, as one conjunction that can be decided. -/
theorem arrives_of {s : State} {p k : Nat} {f : Frame} (h : (s.boot.on = true ∧ (s.port p).state = .active) ∧
    (s.port p).upLanes.contains k = true ∧ ((s.port p).lane k).deaf = false ∧ f.crc = linkCrc f ∧ s.hnx.mcWait = [] ∧
    (fType f = 0 ∨ fFsn f = ((s.port p).lane k).expected) ∧ ∀ b ∈ s.hnx.branches, b.queue = []) : Arrives s p k f where
  on := h.1.1
  active := h.1.2
  lane := h.2.1
  hears := h.2.2.1
  crc := h.2.2.2.1
  waits := h.2.2.2.2.1
  next := h.2.2.2.2.2.1
  tree := h.2.2.2.2.2.2

theorem home_of {s : State} {p k : Nat} {f : Frame} (h : ((s.boot.on = true ∧ (s.port p).state = .active) ∧
    (s.port p).upLanes.contains k = true ∧ ((s.port p).lane k).deaf = false ∧ f.crc = linkCrc f ∧ s.hnx.mcWait = [] ∧
    (fType f = 0 ∨ fFsn f = ((s.port p).lane k).expected) ∧ ∀ b ∈ s.hnx.branches, b.queue = []) ∧
    (s.port p).version = 2 ∧ fDst f = s.cfg.device ∧ fE2e f = e2eOf f) : AtHome s p k f := ⟨arrives_of h.1, h.2⟩

/-- A stencil that emits one item at 256 times `n`. -/
def tSten (n : Nat) : List Byte := leBytes 4 (0x4040_0000 + n) ++ leBytes 4 0xA000_0000

/-- A thread before a step `w`, with stencils for the items at 0x20000, 0x21000, 0x22000 and 0x30000, and data at 0x20000. -/
def tProg (w : Nat) (d : List Byte) : State := { tOn with
  mem := memStore (memStore (memStore (memStore (memStore (memStore [] 0x2000C0 (leBytes 32 w)) 0x210000 (tSten 0x200))
    0x210040 (tSten 0x210)) 0x210080 (tSten 0x220)) 0x2100C0 (tSten 0x300)) 0x220000 d
  ctxs := [(0, { Ctx.reset with st := .running, nSteps := 3, stencils := 0x10000, leaves := [tLeaf] })]
  threads := [(511, { Thread.reset with st := .ready })] }

/-- A VEC step that adds two FP32 values. -/
def tVec : Nat := 2 + 2 ^ 32 + 2 ^ 124 + 2 * 2 ^ 136

/-- MOVE of 8 bytes, GATHER of a row of 8 bytes, and a step whose record stands at 0x20000. -/
def tMove : Nat := 3 + 8 * 2 ^ 32 + 2 ^ 64 + 2 ^ 108
def tGather : Nat := 4 + 8 * 2 ^ 32 + 0x20100 * 2 ^ 64 + 64 * 2 ^ 128 + 4 * 2 ^ 160 + 2 ^ 204
def tParam (o : Nat) : Nat := o + 0x20000 * 2 ^ 64

/-- The records of ROUTE, EXIT and GATE steps. -/
def tRouteRec : List Byte := leBytes 8 0x20100 ++ leBytes 8 0 ++ leBytes 8 0x20200 ++ leBytes 8 0x20400 ++
  leBytes 8 0x20500 ++ leBytes 4 1 ++ leBytes 2 2 ++ [1, 0] ++ leBytes 2 4 ++ leBytes 14 0
def tExitRec : List Byte := leBytes 8 0x20100 ++ leBytes 8 0x20200 ++ leBytes 8 0x20300 ++ leBytes 8 0x20400 ++
  leBytes 8 0x20500 ++ leBytes 8 0x20600 ++ leBytes 4 0x3F80_0000 ++ leBytes 4 4 ++ [1] ++ leBytes 7 0 ++
  List.replicate 192 0 ++ leBytes 4 1 ++ leBytes 4 4
def tGateRec : List Byte := leBytes 8 0x20100 ++ leBytes 8 0x20200 ++ leBytes 8 0x20300 ++ leBytes 4 1 ++ leBytes 2 1 ++
  [0, 0] ++ leBytes 4 0 ++ leBytes 4 0 ++ leBytes 24 0

/-- A MATMUL step of one vector, one row and one plane on both lattices. -/
def tMm : Nat := 1 + 3 * 2 ^ 16 + 2 ^ 36 + 2 ^ 46 + 2 ^ 64 + 2 ^ 96 + 0xFFF * 2 ^ 140 + 3 * 2 ^ 152 + 0xFFF * 2 ^ 164 +
  2 ^ 176 + 0xFFF * 2 ^ 188

/-- The result of a read, or what stands for none. -/
def got {α : Type} (d : α) : Except Nat α → α
  | .ok a => a
  | .error _ => d

/-- Whether a read answers. -/
def gets {α : Type} : Except Nat α → Bool
  | .ok _ => true
  | .error _ => false

theorem got_spec {α : Type} {d : α} {r : Except Nat α} (h : gets r = true) : r = .ok (got d r) := by
  cases r <;> simp_all [gets, got]

/-- What a VEC step works on, its streams read where they can be. -/
def vecInOf (x : State) (th : Thread) (w : Nat) : VecIn :=
  let c := x.ctx th.ctx
  { c := c, tin := .fp32, tout := .fp32, func := vecFunc w, count := vecCount w, imm := vecImm w, k := vecK w, mask := none,
    gran := vecGran w, a := got [] (vecStream x c th (vecA w) 4 (vecCount w)),
    b := got [] (vecStream x c th (vecB w) 4 (vecCount w)), out := got [] (vecStream x c th (vecOut w) 4 (vecCount w)) }

theorem vecIn_spec {x : State} {th : Thread} {w : Nat}
    (h : tyOf (vecTin w) = some .fp32 ∧ tyOf (vecTout w) = some .fp32 ∧
      vecFunc w ∉ [0x0B, 0x0C, 0x10, 0x11, 0x13, 0x14] ∧ vecMasken w = false ∧
      (vecNeeds (vecFunc w) .fp32 .fp32 (vecCount w) (vecImm w) (vecK w)).2.1 = vecCount w)
    (ha : gets (vecStream x (x.ctx th.ctx) th (vecA w) 4 (vecCount w)) = true)
    (hb : gets (vecStream x (x.ctx th.ctx) th (vecB w) 4 (vecCount w)) = true)
    (ho : gets (vecStream x (x.ctx th.ctx) th (vecOut w) 4 (vecCount w)) = true) : VecInput x th w (vecInOf x th w) :=
  { ctx := rfl, tin := h.1, tout := h.2.1, each := h.2.2.1, fields := ⟨rfl, rfl, rfl, rfl, rfl⟩,
    unmasked := ⟨h.2.2.2.1, rfl⟩, a := got_spec ha
    b := by
      show vecStream x (x.ctx th.ctx) th (vecB w) 4 _ = _
      rw [show (vecNeeds (vecInOf x th w).func (vecInOf x th w).tin (vecInOf x th w).tout (vecInOf x th w).count
        (vecInOf x th w).imm (vecInOf x th w).k).2.1 = vecCount w from h.2.2.2.2]
      exact got_spec hb
    out := got_spec ho }

/-- The parameters of an EXIT step, from its record and the list's header. -/
def exitOf (c : Ctx) (r h : List Byte) : ExitIn := {
  c := c, domain := recNat h 4 4, active := recNat r 0 8, conf := recNat r 8 8, src := recNat r 16 8,
  dst := recNat r 24 8, xmap := recNat r 32 8, thresh := recNat r 48 4, rb := recNat r 52 4, xid := recNat r 56 1 }

/-- What an EXIT leaves, where it does not fault. -/
def exitGot (r : Except (Nat × State) (State × List Nat)) : State × List Nat :=
  match r with
  | .ok a => a
  | .error e => (e.2, [])

def exits (r : Except (Nat × State) (State × List Nat)) : Bool :=
  match r with
  | .ok _ => true
  | .error _ => false

theorem exits_spec {r : Except (Nat × State) (State × List Nat)} (h : exits r = true) :
    r = .ok ((exitGot r).1, (exitGot r).2) := by
  cases r <;> simp_all [exits, exitGot]

/-- A portal entry whose CMD word asks for a BIND of a bundle of one recipe of one step, mapped by three tables. -/
def tBind : State := { tPortal (1 + 2 ^ 32) 1 Ctx.reset with
  cfg := { Configuration.unset with
    portals := [{ tPo with regions := [(0x400000, 0x200000)] }], storeBase := 0x1000_0000, storeMiB := 1 }
  mem := [(0x10028, 1 + 2 ^ 32), (0x10000, 1), (0x10020, 0x500000), (0x500000, 0x501001), (0x501000, 0x502001),
    (0x502000, 0x400001), (0x400000, 0x0001_0001_4B47_4231), (0x400008, 0x2000), (0x400080, 1), (0x400088, 0x1000),
    (0x400090, 0x1000), (0x401000, 0x1_0001_0001), (0x401018, 5), (0x401040, 0xC000_0000),
    (0x4010C0, 10)].foldl (fun m e => memStore m (if e.1 < 0x20000 then e.1 + 64 * 63 else e.1) (leBytes 8 e.2)) [] }

/-- What the BIND finds. -/
def boundOf (r : Except BindFail Bound) : Bound :=
  match r with
  | .ok b => b
  | .error _ => { recipe := { off := 0, threads := 0, steps := 0, stencils := 0, nStencil := 0, seed := 0, entries := [] },
                  leaves := [], tables := [], pages := ([], 0), decls := [], verified := none }

theorem bound_spec {r : Except BindFail Bound} (h : bindFails r = false) : r = .ok (boundOf r) := by
  cases r <;> simp_all [bindFails, boundOf]

/-- The refusal of a BIND. -/
def failOf (r : Except BindFail Bound) : BindFail :=
  match r with
  | .error f => f
  | .ok _ => BindFail.of 0
/-- The samples of a frame of line `d`, `x` of its bits turned over. -/
def tSamplesOf (d x : Nat) : Vector (BitVec 14) 12 := Vector.ofFn fun k => if bitOf (Nat.xor (identityWord d) x) k then 100 else 1
def tSamples (d : Nat) : Vector (BitVec 14) 12 := tSamplesOf d 0
def tGarbled : Vector (BitVec 14) 12 := tSamplesOf 5 3

/-- A settled ring, a lattice of such rings, and its search. -/
def tRing : Ring := { Ring.reset with st := .locked, passed := true, inWindow := some 0 }

def tRings (n : Nat) : List (Nat × Ring) := (List.range n).map fun i => (i, tRing)

def tSearch (r : List (Nat × Ring)) : State :=
  { (tL 0 { tLat .searching with phase := 1 }).setFld .latCtrlKeepLit 0 1 with time := 50000000, rings := r }

def tSettled : State := tSearch (tRings 131072)

theorem tRings_mem {n : Nat} {e : Nat × Ring} (h : e ∈ tRings n) : e.1 < n ∧ e.2 = tRing := by
  obtain ⟨i, hi, rfl⟩ := List.mem_map.1 h
  exact ⟨List.mem_range.1 hi, rfl⟩

theorem tRings_length (n : Nat) : (tRings n).length = n := by simp [tRings]

theorem tSearch_rings (r : List (Nat × Ring)) : (tSearch r).rings = r := rfl

theorem tSettled_rings : tSettled.rings = tRings 131072 := tSearch_rings _

theorem tSettled_any : tSettled.anyRing 0 (fun y => !y.settled tSettled.time) = false := by
  refine List.any_eq_false.2 fun e he => ?_
  rw [tSettled_rings] at he
  rw [(tRings_mem he).2]
  have h : tRing.settled tSettled.time = true := by decide
  simp [h]

theorem tSettled_open : tSettled.searchOpen 0 = false := by
  have h : (tRings 131072).filter (fun e => e.1 / 131072 == 0 && e.2.st != .off && e.2.st != .searching) =
      tRings 131072 := by
    refine List.filter_eq_self.2 fun e he => ?_
    rw [Nat.div_eq_of_lt (tRings_mem he).1, (tRings_mem he).2]
    rfl
  have p : (tSettled.lat 0).phase = 1 := by decide +kernel
  simp only [State.searchOpen, tSettled_rings, h, p, tRings_length]
  simp

/-- Lattice 7 loads a piece of one row. -/
def tRow : State := { tLoad with lats := [(7, { tLat .serving with loading := some { tChunk with hi := 1 } })] }

theorem tRow_reads (i : Nat) (h : i < 1) :
    tRow.readVirt (tRow.ctx (tRow.thread 511).ctx) (0 + 128 * (0 + i)) 128 =
      .ok (got [] (tRow.readVirt (tRow.ctx (tRow.thread 511).ctx) (0 + 128 * (0 + i)) 128)) := by
  obtain rfl : i = 0 := by omega
  exact got_spec (by decide +kernel)

/-- Five parts of a conjunction decided together. -/
theorem and_five {a b c d e r : Prop} (h : a ∧ b ∧ c ∧ d ∧ e) (k : r) : a ∧ b ∧ c ∧ d ∧ e ∧ r := by
  obtain ⟨ha, hb, hc, hd, he⟩ := h
  exact ⟨ha, hb, hc, hd, he, k⟩
/-! ## The operand checks -/

theorem test_wf_idle : exec (.idle 0 7 (testFrame 1)) tOn = .refused .illFormed := rfl
theorem test_wf_link : exec (.link 0 7 (testFrame 0)) tOn = .refused .illFormed := rfl
theorem test_wf_write : exec (.write 0 7 (testFrame 3)) tOn = .refused .illFormed := rfl
theorem test_wf_readReq : exec (.readReq 0 7 (testFrame 2) .clean) tOn = .refused .illFormed := rfl
theorem test_wf_readResp : exec (.readResp 0 7 (testFrame 5)) tOn = .refused .illFormed := rfl
theorem test_wf_casReq : exec (.casReq 0 7 (testFrame 4) .clean) tOn = .refused .illFormed := rfl
theorem test_wf_casResp : exec (.casResp 0 7 (testFrame 7)) tOn = .refused .illFormed := rfl
theorem test_wf_signal : exec (.signalFrame 0 7 (testFrame 6) .clean) tOn = .refused .illFormed := rfl
theorem test_wf_e2eAck : exec (.e2eAck 0 7 (testFrame 9)) tOn = .refused .illFormed := rfl
theorem test_wf_e2eNack : exec (.e2eNack 0 7 (testFrame 8)) tOn = .refused .illFormed := rfl
theorem test_wf_mcWrite : exec (.mcWrite 0 7 (testFrame 11)) tOn = .refused .illFormed := rfl
theorem test_wf_mcOpen : exec (.mcOpen 0 7 (testFrame 10)) tOn = .refused .illFormed := rfl
theorem test_wf_mcAck : exec (.mcAck 0 7 (testFrame 13)) tOn = .refused .illFormed := rfl
theorem test_wf_mcPrune : exec (.mcPrune 0 7 (testFrame 12)) tOn = .refused .illFormed := rfl
theorem test_wf_mcRepair : exec (.mcRepair 0 7 (testFrame 15)) tOn = .refused .illFormed := rfl
theorem test_wf_reserved : exec (.reservedFrame 0 7 (testFrame 14)) tOn = .refused .illFormed := rfl
theorem test_wf_thermalSample : (Instr.thermalSample (List.replicate 189 .isOpen)).wf = false := by decide +kernel
theorem test_wf_linePowerSample : (Instr.linePowerSample 9 (List.replicate 129 0)).wf = false := by decide +kernel

/-- A payload shorter than LEN says, and a LEN above 256 (R261). -/
theorem test_wf_len : (Instr.write 0 0 (fput (testFrame 2) 17 9 8)).wf = false ∧
    (Instr.write 0 0 { fput (testFrame 2) 17 9 257 with payload := List.replicate 264 0 }).wf = false ∧
    (Instr.write 0 0 { fput (testFrame 2) 17 9 9 with payload := List.replicate 16 0 }).wf = true := by decide +kernel

/-! ## The manual's worked examples -/

/-- 06_recipes_threads_contexts.md, R126: the four words of its MATMUL, read back as its fields. -/
theorem test_matmul_word :
    let w := 0x0040_2001_4203_0001 + 0x0000_0001_0000_03F8 * 2 ^ 64 + 0xF005_0040_0300_2001 * 2 ^ 128 + 0xF_FFFF * 2 ^ 192
    opOf w = some .matmul ∧ mmLset w = 3 ∧ mmPair w = 0 ∧ mmWimg w = 0 ∧ mmAcc w = 2 ∧ mmMode w = 0 ∧ mmG w = 4 ∧
      mmAuto w = true ∧ mmRows w = 512 ∧ mmCols w = 256 ∧ mmVectors w = 1016 ∧ mmPlanes w = 1 ∧
      [mmIn w, mmIscale w, mmWgt w, mmWscale w, mmOut w] = [1, 2, 3, 4, 5] ∧ mmCarry w = noStream ∧ mmMask w = noStream ∧
      mmMasken w = false := by decide +kernel

/-- 07_stencils_larder.md, "a gathered 4-D walk": with the list of view 0 naming tile 37, item 0 and item 16. -/
theorem test_stencil_walk :
    let ws := [0x4100_0041, 0x4000_0980, 0x5100_0040, 0x5080_8000, 0x3560_0002, 0x6800_0000, 0x4280_0D2F, 0x5280_0001,
      0x6400_0000, 0x5000_0008, 0x30A4_0000, 0x6000_0000, 0x4200_3600, 0x2040_0004, 0xA270_000F, 0x4000_0900]
    let list (p : Nat) : Except Nat Nat := .ok (if p = 0x40_8000_0000 then 2880 else if p = 0x40_8000_0008 then 37 else 0)
    ((genRun list { ctr := [0, 0, 0, 0], consumed := 0 } ws (some 17) genBound Gen.start).toOption.map fun g =>
      let l := itemsOf 128 g.out.reverse
      [l[0]?, l[1]?, l[16]?].map fun x => x.map fun i => (i.1, i.2.1)) =
    some [some (some 0x41_0007_D780, 2), some (some 0x41_0007_D800, 2), some (some 0x41_0007_E080, 2)] := by
  decide +kernel

/-- 08_cellar_pantry.md: the Line 2 portals' address, the global address of R184's example, and the leaf of its example. -/
theorem test_addresses : dpaOfHost 0x0008_0000_0000 = 0x0000_0002_0000_0000 ∧
    addrKind 0x8005_2000_0040_0000 = .global 5 2 0x40_0000 ∧
    ({ Ctx.reset with leaves := [{ vpage := 0x41_0000_0000 / (2 * mib), page := 0x4_8060_0000, target := 0,
                                   writable := true }] } : Ctx).pieces false 0x0000_0041_0007_D780 128 =
      .ok [{ host := false, addr := 0x4_8067_D780, page := 0x41_0000_0000 / (2 * mib), len := 128 }] := by decide +kernel

/-- 02_lattices.md, R27's example: weight 100 in its two planes, input −3 in its two slices. -/
theorem test_slices : codeIn true 0 100 = 6 ∧ codeIn true 1 100 = -4 ∧
    6 * (7 - 8) * 256 + 6 * 13 * 16 + (codeIn true 1 100 + 8) * (7 - 8) * 16 + (codeIn true 1 100 + 8) * 13 = (100 * -3 : Int) := by
  decide

/-- 03_formats_numerics.md, "one dot product in Q4 and in B16": the input elements under R60. -/
theorem test_b16_block :
    let b := toBlock .b16 [0x3FA6, 0x3F0D, 0xBF4D, 0x4006] 0
    b.codes = [42, 18, -26, 67] ∧ b.exp = 122 := by decide +kernel

/-- 04_accumulation.md, R82's example: 1,000 + 2⁻¹⁶ rounds up for draws below 16,384 and not for the draw 16,384. -/
theorem test_stochastic : srAdd 0x447A_0000 (.fin false 1 (-16)) 16383 = .ok 0x447A_0001 ∧
    srAdd 0x447A_0000 (.fin false 1 (-16)) 16384 = .ok 0x447A_0000 := by decide +kernel

/-- 15_calibration.md, R333's example: a correction from 2,448 to 2,320 in steps of −8. -/
theorem test_ramp : [1, 15, 16].map (rampValue 2448 2320) = [2440, 2328, 2320] := by decide

/-- 14_heater_dacs_monitors.md, "a span change in service": targets 3,823 and 1,638 become 956 and 410. -/
theorem test_span :
    let c := { Cluster.reset with
      hold := true, wantHigh := true
      taps := [(1, { Tap.reset with target := 3823 }), (2, { Tap.reset with target := 1638 })] }
    c.endHold.taps.map (fun t => t.2.target) = [956, 410] ∧ c.endHold.high = true := by decide +kernel

/-- 16_start_journal.md, R348 to R350: an erased device that is deasserted runs, at stage 0 of a cold start, and its next step
is the start's own. -/
theorem test_cold_start :
    let t := nextOf (step { State.reset with pending := [.perstNDeassert 100] })
    t.boot.on = true ∧ t.boot.stage = 0 ∧ t.pending = [] ∧ t.cxl.state = .training := by decide +kernel

/-! ## The statements' hypotheses -/

theorem witness_StepRunsTheFront :
    (∃ (s : State), s.pending = [] ∧ s.boot.on = false) ∧
    (∃ (s : State), s.pending = [] ∧ s.boot.on = true ∧ s.boot.phase = 0) ∧
    (∃ (s : State), s.pending = []) :=
  ⟨⟨State.reset, by decide +kernel⟩,
   ⟨tOn, by decide +kernel⟩,
   ⟨{ tOn with boot := { tOn.boot with phase := 7 } }, by decide +kernel⟩⟩

theorem witness_EveryCommandEnds :
    (∃ (c : Instr) (s : State), c.wf = true ∧ (∀ h, HostLine c h → h.toNat < s.hostMemSize)) ∧
    (∃ (c : Instr) (s : State), c.wf = true ∧ (∀ h, HostLine c h → h.toNat < s.hostMemSize)) ∧
    (∃ (c : Instr) (_s : State), c.wf = false) ∧
    (∃ (c : Instr) (h : BitVec 48) (s : State), HostLine c h ∧ s.hostMemSize ≤ h.toNat) ∧
    (∃ (c : Instr) (h : BitVec 48) (s : State), HostLine c h ∧ s.hostMemSize ≤ h.toNat) :=
  ⟨⟨.perstNAssert, State.reset, by decide +kernel, fun h hh => by simp [HostLine] at hh⟩,
   ⟨.cxlMemRead false 0xF_FFFF_FFFF .clean, tOn, by decide +kernel,
     fun h hh => by simp [HostLine] at hh; subst hh; decide⟩,
   ⟨.idle 7 7 (testFrame 1), tOn, by decide +kernel⟩,
   ⟨.cxlMemRead true 0x10_0000_0000 .clean, 0x10_0000_0000, tOn, Or.inl ⟨true, .clean, rfl⟩, by decide +kernel⟩,
   ⟨.recallTimer 0xFFFF_FFFF_FFFF, 0xFFFF_FFFF_FFFF, tOn, .inr (.inr (.inr (.inr (.inl rfl)))), by decide +kernel⟩⟩

theorem witness_ResetState :
    (∃ (f : Fld) (_i : Nat), f.reset < 2 ^ 64) :=
  ⟨.devScratchData, 0, by decide +kernel⟩

theorem witness_StepKeepsInvariant :
    (∃ (s : State) (t : State), Inv s ∧ step s = .next t) ∧
    (∃ (s : State) (_r : Refusal), Inv s) :=
  ⟨⟨{ tOn with pending := [.latFenceReq .i3c 7] }, nextOf (step { tOn with pending := [.latFenceReq .i3c 7] }),
     inv_on _ rfl, isNext_spec (by decide +kernel)⟩,
   ⟨{ tOn with pending := [.latFenceReq .i3c 7] }, .illFormed, inv_on _ rfl⟩⟩

theorem witness_FusesOnlyRise :
    (∃ (s : State) (t : State), step s = .next t) :=
  ⟨{ tOn with pending := [.latFenceReq .i3c 7] }, nextOf (step { tOn with pending := [.latFenceReq .i3c 7] }),
    isNext_spec (by decide +kernel)⟩

theorem witness_RefusedWrites :
    (∃ (p : Path) (off : Nat) (_v : Nat) (s : State), off < 2 ^ 26 ∧ off % 8 = 0 ∧ tget 0 s.refusedAt (off / 8 * 4 +
      pathNum p) = 0) ∧
    (∃ (p : Path) (off : Nat) (_v : Nat) (s : State), off < 2 ^ 26 ∧ off % 8 = 0 ∧ 0 < tget 0 s.refusedAt (off / 8 *
      4 + pathNum p) ∧ tget 0 s.refusedAt (off / 8 * 4 + pathNum p) - 1 + 1000000 ≤ s.time) ∧
    (∃ (p : Path) (off : Nat) (_v : Nat) (s : State), off < 2 ^ 26 ∧ off % 8 = 0 ∧ 0 < tget 0 s.refusedAt (off / 8 *
      4 + pathNum p) ∧ s.time < tget 0 s.refusedAt (off / 8 * 4 + pathNum p) - 1 + 1000000) :=
  ⟨⟨.vdm, 0x3FF_FFF8, 5, tOn, by decide +kernel⟩,
   ⟨.vdm, 0x3FF_FFF8, 5, { tOn with refusedAt := [(0x1FF_FFFE, 1)], time := 1000000 }, by decide +kernel⟩,
   ⟨.vdm, 0x3FF_FFF8, 5, { tOn with refusedAt := [(0x1FF_FFFE, 1)], time := 999999 }, by decide +kernel⟩⟩

theorem witness_SignalWords :
    (∃ (a : Nat) (n : Nat) (_bay : Nat) (s : State), s.cxl.snoop = [] ∧ s.readsBad a 8 = false ∧ 2 ^ 61 - 1 < countOf
      (s.readNat a 8) + n) ∧
    (∃ (a : Nat) (n : Nat) (_bay : Nat) (s : State), s.cxl.snoop = [] ∧ s.readsBad a 8 = false ∧ countOf (s.readNat a
      8) + n = 2 ^ 61 - 1) ∧
    (∃ (a : Nat) (_n : Nat) (_bay : Nat) (s : State), s.readsBad a 8 = true) ∧
    (∃ (a : Nat) (c : Nat) (_bay : Nat) (_x : Nat) (_sid : Nat) (s : State), s.cxl.snoop = [] ∧ s.readsBad a 8 =
      false ∧ 0 < c ∧ countOf (s.readNat a 8) = c) ∧
    (∃ (a : Nat) (c : Nat) (_bay : Nat) (_x : Nat) (_sid : Nat) (s : State), s.cxl.snoop = [] ∧ s.readsBad a 8 =
      false ∧ 0 < c ∧ countOf (s.readNat a 8) < c) ∧
    (∃ (a : Nat) (c : Nat) (_bay : Nat) (_x : Nat) (_sid : Nat) (s : State), s.readsBad a 8 = true ∧ 0 < c) :=
  ⟨⟨0x1000, 1, 3, { tOn with mem := memStore [] 0x1000 (leBytes 8 (2 ^ 61 - 1)) }, by decide +kernel⟩,
   ⟨0x1000, 0, 3, { tOn with mem := memStore [] 0x1000 (leBytes 8 (2 ^ 61 - 1)) }, by decide +kernel⟩,
   ⟨0x1000, 1, 3, { tOn with wordErr := [(0x200, true)] }, by decide +kernel⟩,
   ⟨0x1000, 2 ^ 61 - 1, 3, 4095, 1023, { tOn with mem := memStore [] 0x1000 (leBytes 8 (2 ^ 61 - 1)) }, by
     decide +kernel⟩,
   ⟨0x1000, 1, 3, 4095, 1023, tOn, by decide +kernel⟩,
   ⟨0x1000, 1, 3, 4095, 1023, { tOn with wordErr := [(0x200, true)] }, by decide +kernel⟩⟩

theorem witness_StatusRegisters :
    (∃ (k : Nat) (s : State), k < 10 ∧ s.flag (chgFld k) = false ∧ bitOf (s.fld .devStatusMaskEn) k = true) ∧
    (∃ (p : Path) (_v : Word) (s : State), s.served p = true ∧ s.flag (chgFld 9) = true) ∧
    (∃ (p : Path) (v : Word) (s : State), s.served p = true ∧ (∀ k < 10, bitOf v.toNat k = true → bitOf (s.fld
      .devStatusMaskEn) k = true ∨ s.flag (chgFld k) = false)) ∧
    (∃ (p : Path) (_v : Word) (s : State), s.served p = true ∧ (∀ l < 8, s.flag .calStatusStale l = false) ∧ (∀ h <
      10, (s.comb h).ageing = false) ∧ s.flag (alertFld 6) = true) ∧
    (∃ (k : Fin 8) (s : State), s.boot.on = true ∧ k.val ≠ 5 ∧ s.cxl.funcMask = false ∧ s.cxl.pba.getD k false = true
      ∧ (∀ j : Nat, j ≠ k.val → s.cxl.pba.getD j false = false) ∧ s.cxl.vecMask.length = 8 ∧ s.cxl.pba.length = 8) :=
  ⟨⟨9, tOn.setFld .devStatusMaskEn 0 1023, by decide +kernel⟩,
   ⟨.vdm, 0xFFFF_FFFF_FFFF_FFFF, tOn.setFld .devStatusChgRestartDone 0 1, by decide +kernel⟩,
   ⟨.i3c, 1023, tOn, by decide +kernel⟩,
   ⟨.bar0, 127, tOn.setFld .evtAlertHalt 0 1, by decide +kernel⟩,
   ⟨7, { tOn with cxl := { tOn.cxl with pba := [false, false, false, false, false, false, false, true] } },
     by decide +kernel, by decide +kernel, by decide +kernel, by decide +kernel,
     by intro j hj; rcases j with _ | _ | _ | _ | _ | _ | _ | _ | j <;> simp_all, by decide +kernel⟩⟩

theorem witness_RegisterAccess :
    (∃ (off : BitVec 26) (_v : Word) (s : State), s.linkUp = true ∧ off.toNat % 8 = 0 ∧ s.boot.reread = false ∧ regAt
      off.toNat = none ∧ (off.toNat < 0x80_0000 ∨ 0x82_0080 ≤ off.toNat)) ∧
    (∃ (off : BitVec 26) (_v : Word) (s : State), s.linkUp = true ∧ off.toNat % 8 = 0 ∧ s.boot.reread = false ∧ regAt
      off.toNat = none ∧ (off.toNat < 0x80_0000 ∨ 0x82_0080 ≤ off.toNat)) ∧
    (∃ (_v : Word) (s : State), s.linkUp = true ∧ s.boot.reread = false) ∧
    (∃ (off : BitVec 26) (n : Nat) (_v : Word) (_s : State), (n ≠ 8 ∨ off.toNat % 8 ≠ 0)) ∧
    (∃ (off : BitVec 26) (n : Nat) (_v : Word) (_s : State), (n ≠ 8 ∨ off.toNat % 8 ≠ 0)) ∧
    (∃ (ep : Ep) (off : BitVec 26) (_v : Word) (s : State), EpOpen s ep ∧ off.toNat % 8 = 0) ∧
    (∃ (ep : Ep) (off : BitVec 26) (_v : Word) (s : State), EpOpen s ep ∧ off.toNat % 8 = 0) ∧
    (∃ (ep : Ep) (off : BitVec 26) (s : State), EpOpen s ep ∧ off.toNat % 8 ≠ 0) ∧
    (∃ (ep : Ep) (s : State), EpOpen s ep ∧ s.fld .devRefusedCount = 2 ^ Fld.devRefusedCount.width - 1) ∧
    (∃ (ep : Ep) (_v : Word) (s : State), EpOpen s ep ∧ s.boot.reread = false) ∧
    (∃ (ep : Ep) (off : BitVec 26) (s : State), EpOpen s ep ∧ off.toNat % 8 = 0 ∧ off.toNat ≠ Reg.secNonce.addr 0 ∧
      (regAt off.toNat).all (fun e => e.1.fields.all fun f => !f.counts || decide (s.readReg (epPath ep) off.toNat /
      2 ^ f.lo % 2 ^ f.width ≠ 2 ^ f.width - 1)) = true) ∧
    (∃ (ep : Ep) (off : BitVec 26) (s : State), EpOpen s ep ∧ off.toNat % 8 = 0 ∧ off.toNat ≠ Reg.secNonce.addr 0 ∧
      (regAt off.toNat).all (fun e => e.1.fields.all fun f => !f.counts || decide (s.readReg (epPath ep) off.toNat /
      2 ^ f.lo % 2 ^ f.width ≠ 2 ^ f.width - 1)) = true) ∧
    (∃ (ep : Ep) (_off : BitVec 26) (_v : Word) (s : State), s.auxOnly ep = true) :=
  ⟨⟨0x3FF_FFF8, 1, tOn, by decide +kernel⟩,
   ⟨0 + 0x7F_FFF8, 1, tOn, by decide +kernel⟩,
   ⟨1, tOn, by decide +kernel⟩,
   ⟨0x3FF_FFFC, 8, 1, tOn, by decide +kernel⟩,
   ⟨0x3FF_FFF8, 4, 1, tOn, by decide +kernel⟩,
   ⟨.vdm, 0, 1, tOn, by decide +kernel⟩,
   ⟨.i3c, 0x3FF_FFF8, 1, tOn, by decide +kernel⟩,
   ⟨.vdm, 0x3FF_FFFF, tOn, by decide +kernel⟩,
   ⟨.i3c, tOn.setFld .devRefusedCount 0 0xFFFF_FFFF, by decide +kernel⟩,
   ⟨.vdm, 1, tOn, by decide +kernel⟩,
   ⟨.vdm, 0, tOn, by decide +kernel⟩,
   ⟨.i3c, 0x3FF_FFF8, tOn, by decide +kernel⟩,
   ⟨.i3c, 0, 1, State.reset, by decide +kernel⟩⟩

theorem witness_Platform :
    (∃ (e : BitVec 8) (s : State), EpOpen s .i3c ∧ e ≠ 0 ∧ e ≠ 255) ∧
    (∃ (e : BitVec 8) (s : State), EpOpen s .i3c ∧ e ≠ 0 ∧ e ≠ 255) ∧
    (∃ (e : BitVec 8) (s : State), EpOpen s .vdm ∧ e ≠ 0 ∧ e ≠ 255) ∧
    (∃ (_d : Bool) (_a : BitVec 7) (s : State), s.pins.aux = true) ∧
    (∃ (ep : Ep) (s : State), EpOpen s ep) ∧
    (∃ (ep : Ep) (_l : Fin 8) (s : State), EpOpen s ep) ∧
    (∃ (ep : Ep) (s : State), EpOpen s ep) ∧
    (∃ (ep : Ep) (e : Event) (r : List Event) (s : State), EpOpen s ep ∧ s.mgmt.events = e :: r) ∧
    (∃ (ep : Ep) (q : Nat × Nat) (r : List (Nat × Nat)) (s : State), EpOpen s ep ∧ s.mgmt.events = [] ∧ s.mgmt.states
      = q :: r) :=
  ⟨⟨1, tOn, by decide +kernel⟩,
   ⟨254, tOn, by decide +kernel⟩,
   ⟨254, tOn, by decide +kernel⟩,
   ⟨true, 127, State.reset, by decide +kernel⟩,
   ⟨.i3c, tOn, by decide +kernel⟩,
   ⟨.vdm, 7, tOn, by decide +kernel⟩,
   ⟨.vdm, tOn, by decide +kernel⟩,
   ⟨.vdm, tEvent, [], { tOn with mgmt := { Mgmt.reset with events := [tEvent] } }, by decide +kernel⟩,
   ⟨.i3c, (39, 6), [], { tOn with mgmt := { Mgmt.reset with states := [(39, 6)] } }, by decide +kernel⟩⟩

theorem witness_VendorCommands :
    (∃ (ep : Ep) (s : State), EpOpen s ep) ∧
    (∃ (ep : Ep) (seq : Word) (e : Event) (s : State), EpOpen s ep ∧ s.eventAt seq.toNat = some e) ∧
    (∃ (ep : Ep) (s : State), EpOpen s ep) ∧
    (∃ (ep : Ep) (b : List Byte) (v : Verdict) (_d : Bool) (s : State), EpOpen s ep ∧ b.length ≤ 8192 ∧ (v.ed = false
      ∨ v.ml = false)) ∧
    (∃ (ep : Ep) (b : List Byte) (v : Verdict) (_d : Bool) (s : State), EpOpen s ep ∧ b.length ≤ 8192 ∧ (v.ed = false
      ∨ v.ml = false)) ∧
    (∃ (ep : Ep) (b : List Byte) (v : Verdict) (d : Bool) (s : State) (u : State), EpOpen s ep ∧ b.length ≤ 8192 ∧ u
      = { s with sec := { s.sec with buf := memStore [] 0 b } } ∧ u.tokenKind = 0 ∧ u.checkToken v d = 0) ∧
    (∃ (ep : Ep) (l : Fin 8) (s : State), EpOpen s ep ∧ (s.lat l).state = .fenced ∧ s.flag .latCtrlEn l = false ∧
      s.flag .latCtrlKeepLit l = false) ∧
    (∃ (ep : Ep) (l : Fin 8) (s : State), EpOpen s ep ∧ (s.lat l).state ≠ .fenced) ∧
    (∃ (ep : Ep) (s : State), EpOpen s ep ∧ s.boot.stage = 5) :=
  ⟨⟨.vdm, tOn, by decide +kernel⟩,
   ⟨.i3c, 0, tEvent, { tOn with log := [tEvent], evHead := 1 }, by decide +kernel⟩,
   ⟨.vdm, tOn, by decide +kernel⟩,
   ⟨.vdm, [], ⟨true, false, true⟩, true, tOn, by decide +kernel⟩,
   ⟨.vdm, List.replicate 8192 0, ⟨false, true, true⟩, true, tOn, by decide +kernel⟩,
   ⟨.vdm, tToken 0 0 60 0, tGood, true, tNonce,
     { tNonce with sec := { tNonce.sec with buf := memStore [] 0 (tToken 0 0 60 0) } }, by decide +kernel,
     by decide +kernel, rfl, by decide +kernel⟩,
   ⟨.vdm, 7, ((tL 7 (tLat .fenced)).setFld .latCtrlEn 7 0).setFld .latCtrlKeepLit 7 0, by decide +kernel⟩,
   ⟨.i3c, 7, tOn, by decide +kernel⟩,
   ⟨.i3c, tOn, by decide +kernel⟩⟩

theorem witness_FirmwareUpdate :
    (∃ (ep : Ep) (_a : Nat) (k : Nat) (s : State), EpOpen s ep ∧ s.mgmt.update = .idle ∧ (k = 1 ∨ k = 2)) ∧
    (∃ (ep : Ep) (a : Nat) (n : Nat) (s : State), EpOpen s ep ∧ s.mgmt.update = .downloading ∧ s.mgmt.agent = some a
      ∧ s.jnl.windowOpen = true ∧ n ≤ 4096 ∧ s.flash.answers = true) ∧
    (∃ (ep : Ep) (a : Nat) (n : Nat) (_i : FwImage) (s : State), EpOpen s ep ∧ s.mgmt.update = .downloading ∧
      s.mgmt.agent = some a ∧ s.mgmt.component = 1 ∧ s.jnl.windowOpen = true ∧ n ≤ 4096 ∧ s.flash.answers = true) ∧
    (∃ (ep : Ep) (a : Nat) (i : FwImage) (s : State), EpOpen s ep ∧ s.mgmt.update = .verifying ∧ s.mgmt.agent = some
      a ∧ s.mgmt.staged = some (.firmware i) ∧ i.fieldsOk = true ∧ i.verdict.ed = true ∧ i.verdict.ml = true ∧
      i.verdict.digest = true ∧ s.sec.svn ≤ i.svn) ∧
    (∃ (ep : Ep) (a : Nat) (i : FwImage) (s : State), EpOpen s ep ∧ s.mgmt.update = .verifying ∧ s.mgmt.agent = some
      a ∧ s.mgmt.staged = some (.firmware i) ∧ i.svn < s.sec.svn ∧ i.verdict.ed = true ∧ i.verdict.ml = true) ∧
    (∃ (ep : Ep) (a : Nat) (i : FwImage) (s : State), EpOpen s ep ∧ s.mgmt.update = .applying ∧ s.mgmt.agent = some a
      ∧ s.mgmt.component = 1 ∧ s.mgmt.staged = some (.firmware i) ∧ s.jnl.windowOpen = true ∧ s.flash.answers = true
      ∧ s.boot.fwSlot = 0) ∧
    (∃ (ep : Ep) (a : Nat) (s : State), EpOpen s ep ∧ s.mgmt.update = .ready ∧ s.mgmt.agent = some a ∧
      s.mgmt.fwStaged = true ∧ s.boot.stage = 5) ∧
    (∃ (ep : Ep) (a : Nat) (s : State), EpOpen s ep ∧ s.mgmt.update ≠ .idle ∧ s.mgmt.agent = some a) ∧
    (∃ (s : State), s.boot.on = true ∧ s.boot.mgmtDown = false ∧ s.mgmt.update ≠ .idle) :=
  ⟨⟨.vdm, 9, 2, tOn, by decide +kernel⟩,
   ⟨.vdm, 9, 4096, tUpd .downloading none, by decide +kernel⟩,
   ⟨.i3c, 9, 4096, tImage 0, tUpd .downloading none, by decide +kernel⟩,
   ⟨.i3c, 9, tImage 1,
     { tUpd .verifying (some (.firmware (tImage 1))) with sec := { Security.reset with svn := 1 } }, by
     decide +kernel⟩,
   ⟨.i3c, 9, tImage 1,
     { tUpd .verifying (some (.firmware (tImage 1))) with sec := { Security.reset with svn := 2 } }, by
     decide +kernel⟩,
   ⟨.i3c, 9, tImage 1, tUpd .applying (some (.firmware (tImage 1))), by decide +kernel⟩,
   ⟨.i3c, 9, { tOn with mgmt := { Mgmt.reset with update := .ready, agent := some 9, fwStaged := true } }, by
     decide +kernel⟩,
   ⟨.vdm, 9, tUpd .applying (some (.firmware (tImage 1))), by decide +kernel⟩,
   ⟨tUpd .learning none, by decide +kernel⟩⟩

theorem witness_DeassertionStartsCold :
    (∃ (ms : Nat) (s : State), s.pins.perst = true ∧ s.mayStart = true ∧ 100 ≤ ms) ∧
    (∃ (ms : Nat) (s : State), s.pins.perst = true ∧ ¬ (s.mayStart = true ∧ 100 ≤ ms)) ∧
    (∃ (ms : Nat) (s : State), s.pins.perst = true ∧ ¬ (s.mayStart = true ∧ 100 ≤ ms)) ∧
    (∃ (s : State), s.pins.deferred = true ∧ s.pins.aux = true ∧ s.pins.pwrOk = true ∧ s.power.tripLatched = false) :=
  ⟨⟨100, State.reset, by decide +kernel⟩,
   ⟨99, State.reset, by decide +kernel⟩,
   ⟨100, { State.reset with pins := { State.reset.pins with railsOk := false } }, by decide +kernel⟩,
   ⟨{ State.reset with pins := { State.reset.pins with perst := false, deferred := true } }, by decide +kernel⟩⟩

theorem witness_SupplyPins :
    (∃ (s : State), s.pins.pwrOk = false ∧ s.pins.aux = true) ∧
    (∃ (_c : Bool) (s : State), s.pins.aux = false) ∧
    (∃ (s : State), s.boot.on = true) ∧
    (∃ (_r : Rail) (s : State), s.boot.on = true ∧ s.pins.pwrOk = true) ∧
    (∃ (s : State), s.boot.on = true ∧ s.pins.aux = true) ∧
    (∃ (s : State), s.boot.on = true ∧ s.pins.refArmed = true) ∧
    (∃ (s : State), s.boot.on = true ∧ s.pins.perst = false) :=
  ⟨⟨{ State.reset with pins := { State.reset.pins with pwrOk := false } }, by decide +kernel⟩,
   ⟨true, { State.reset with pins := { State.reset.pins with aux := false } }, by decide +kernel⟩,
   ⟨tOn, by decide +kernel⟩,
   ⟨.aux, tOn, by decide +kernel⟩,
   ⟨tOn, by decide +kernel⟩,
   ⟨tOn, by decide +kernel⟩,
   ⟨tOn, by decide +kernel⟩⟩

theorem witness_Fencing :
    (∃ (c : Instr) (l : Fin 8) (k : Nat) (s : State), (s.lat l).state = .suspect ∧ (s.lat l).fencePending = 0 ∧ ((∃
      p, c = .latFenceReq p l ∧ k = 11 ∧ s.served p = true ∧ hostAllowed p s.cfg.grantLattice = true) ∨ c =
      .suspectTimeout l ∧ k = 12 ∨ c = .linePowerRecoveryTimeout l ∧ k = 12 ∧ (s.lat l).held.any (fun e => e.1 ==
      .linePower) = true)) ∧
    (∃ (c : Instr) (l : Fin 8) (k : Nat) (s : State), (s.lat l).state = .suspect ∧ (s.lat l).fencePending = 0 ∧ ((∃
      p, c = .latFenceReq p l ∧ k = 11 ∧ s.served p = true ∧ hostAllowed p s.cfg.grantLattice = true) ∨ c =
      .suspectTimeout l ∧ k = 12 ∨ c = .linePowerRecoveryTimeout l ∧ k = 12 ∧ (s.lat l).held.any (fun e => e.1 ==
      .linePower) = true)) ∧
    (∃ (c : Instr) (l : Fin 8) (k : Nat) (s : State), (s.lat l).state = .suspect ∧ (s.lat l).fencePending = 0 ∧ ((∃
      p, c = .latFenceReq p l ∧ k = 11 ∧ s.served p = true ∧ hostAllowed p s.cfg.grantLattice = true) ∨ c =
      .suspectTimeout l ∧ k = 12 ∨ c = .linePowerRecoveryTimeout l ∧ k = 12 ∧ (s.lat l).held.any (fun e => e.1 ==
      .linePower) = true)) ∧
    (∃ (p : Path) (l : Fin 8) (s : State), s.served p = true ∧ hostAllowed p s.cfg.grantLattice = true ∧ (s.lat
      l).state = .dark ∧ (s.lat l).fencePending = 0 ∧ (s.lat l).outageFrom = none ∧ s.boot.stage = 5) ∧
    (∃ (p : Path) (_l : Fin 8) (s : State), s.served p = true ∧ hostAllowed p s.cfg.grantLattice = false) ∧
    (∃ (l : Fin 8) (s : State), (s.lat l).state = .searching ∧ (s.lat l).fencePending = 0 ∧ s.boot.stage = 5) ∧
    (∃ (p : Path) (l : Fin 8) (v : BitVec 8) (s : State), s.served p = true ∧ (isHost p = false ∨ s.tokenPerm 0 =
      true) ∧ v.toNat = 2 ^ l.val ∧ (s.lat l).state = .fenced ∧ s.flag .latCtrlEn l = false ∧ s.flag .latCtrlKeepLit
      l = false ∧ s.boot.stage = 5) ∧
    (∃ (_v : BitVec 8) (s : State), s.served .bar0 = true ∧ s.tokenPerm 0 = false) :=
  ⟨⟨.latFenceReq .i3c 7, 7, 11, tL 7 (tLat .suspect), by decide +kernel, by decide +kernel,
     .inl ⟨.i3c, rfl, rfl, by decide +kernel, by decide +kernel⟩⟩,
   ⟨.suspectTimeout 7, 7, 12, tL 7 (tLat .suspect), by decide +kernel, by decide +kernel, .inr (.inl ⟨rfl, rfl⟩)⟩,
   ⟨.linePowerRecoveryTimeout 0, 0, 12, tL 0 { tLat .suspect with held := [(.linePower, 0)] }, by decide +kernel,
     by decide +kernel, .inr (.inr ⟨rfl, rfl, by decide +kernel⟩)⟩,
   ⟨.vdm, 7, tOn, by decide +kernel⟩,
   ⟨.bar0, 7, tOn, by decide +kernel⟩,
   ⟨7, tL 7 (tLat .searching), by decide +kernel⟩,
   ⟨.i3c, 7, 0x80, ((tL 7 (tLat .fenced)).setFld .latCtrlEn 7 0).setFld .latCtrlKeepLit 7 0, by decide +kernel⟩,
   ⟨0xFF, tOn, by decide +kernel⟩⟩

theorem witness_LatticeControl :
    (∃ (p : Path) (l : Fin 8) (v : Word) (s : State), s.served p = true ∧ hostAllowed p s.cfg.grantLattice = true ∧
      (s.lat l).state = .serving ∧ (s.lat l).outageFrom = none ∧ s.flag .latCtrlEn l = true ∧ v.toNat % 2 = 0) ∧
    (∃ (p : Path) (l : Fin 8) (s : State), s.served p = true ∧ hostAllowed p s.cfg.grantLattice = true ∧ (s.lat
      l).state = .dark ∧ (s.bay (l / 2)).latPower = .run ∧ s.boot.stage = 5 ∧ s.flag .latCtrlEn l = false) ∧
    (∃ (p : Path) (_l : Fin 8) (_v : Word) (s : State), s.served p = true ∧ hostAllowed p s.cfg.grantLattice = false) :=
  ⟨⟨.i3c, 7, 2, (tL 7 (tLat .serving)).setFld .latCtrlEn 7 1, by decide +kernel⟩,
   ⟨.i3c, 7, tOn.setFld .latCtrlEn 7 0, by decide +kernel⟩,
   ⟨.bar0, 7, 3, tOn, by decide +kernel⟩⟩

theorem witness_BurstEvents :
    (∃ (l : Fin 8) (s : State), s.boot.on = true ∧ ((s.lat l).state = .dark ∨ (s.lat l).state = .searching ∨ (s.lat
      l).state = .draining ∨ (s.lat l).state = .fenced)) ∧
    (∃ (l : Fin 8) (s : State), s.boot.on = true ∧ ((s.lat l).state = .dark ∨ (s.lat l).state = .searching ∨ (s.lat
      l).state = .draining ∨ (s.lat l).state = .fenced)) ∧
    (∃ (l : Fin 8) (s : State), s.boot.on = true ∧ ((s.lat l).state = .serving ∨ (s.lat l).state = .suspect) ∧
      s.boot.stage = 5 ∧ (s.lat l).fencePending ≠ 0) ∧
    (∃ (l : Fin 8) (s : State), s.boot.on = true ∧ ((s.lat l).state = .serving ∨ (s.lat l).state = .suspect) ∧
      s.boot.stage = 5 ∧ (s.lat l).fencePending = 0 ∧ s.latTarget l = .locked) ∧
    (∃ (l : Fin 8) (s : State), s.boot.on = true ∧ (s.lat l).state = .serving ∧ (s.lat l).fencePending = 0 ∧
      s.latTarget l = .serving ∧ (s.bay (l / 2)).upset = false ∧ (∀ e ∈ s.threads, e.2.steps = []) ∧ (s.lat
      l).current = none ∧ (s.lat l).loading = none ∧ (s.lat l).guard = false ∧ (s.lat l).roundLeft = 0 ∧ s.time <
      (s.lat l).lastPass + 9999999000 ∧ (s.lat l).sweepDebt = 0 ∧ (s.lat l).probeDebt = 0 ∧ s.allows l = true ∧
      (s.lat l).roundDue = true) ∧
    (∃ (l : Fin 8) (s : State), s.boot.on = true ∧ (s.lat l).state = .serving ∧ (s.lat l).fencePending = 0 ∧
      s.latTarget l = .serving ∧ (s.bay (l / 2)).upset = false ∧ (∀ e ∈ s.threads, e.2.steps = []) ∧ (s.lat
      l).current = none ∧ (s.lat l).loading = none ∧ (s.lat l).guard = false ∧ (s.lat l).roundLeft = 0 ∧ s.time <
      (s.lat l).lastPass + 9999999000 ∧ (s.lat l).sweepDebt = 0 ∧ (s.lat l).probeDebt = 0 ∧ s.allows l = true ∧
      (s.lat l).roundDue = false) ∧
    (∃ (l : Fin 8) (s : State), s.boot.on = true ∧ (s.lat l).state = .suspect ∧ s.boot.stage = 5 ∧ (s.lat
      l).fencePending = 0 ∧ s.latTarget l = .serving ∧ (s.lat l).held = [] ∧ (s.lat l).dem = [] ∧ (∀ e ∈ s.threads,
      e.2.steps = []) ∧ (s.lat l).current = none ∧ (s.lat l).loading = none) ∧
    (∃ (l : Fin 8) (k : Chunk) (a : Active) (pl : Plane) (n : Bool) (m : Bool) (c : Nat) (s : State), (s.lat
      l).loading = some k ∧ (s.lat l).shadow = none ∧ (s.thread k.thread).step? k.uid = some a ∧ (s.bay (threadBay
      k.thread)).streams = [] ∧ loadPlane s (s.ctx (s.thread k.thread).ctx) a k = .ok (pl, n, c, m)) ∧
    (∃ (l : Fin 8) (k : Chunk) (a : Active) (p : Nat) (r : Nat) (s : State), (s.lat l).loading = some k ∧ (s.lat
      l).shadow = none ∧ (s.thread k.thread).step? k.uid = some a ∧ (s.bay (threadBay k.thread)).streams = [] ∧ mmAcc
      a.word.toNat = 0 ∧ mmWimg a.word.toNat = 0 ∧ q8Weights (mmPair a.word.toNat) = false ∧ k.plane = 0 ∧ imageVa s
      (s.ctx (s.thread k.thread).ctx) a k.tile = .ok p ∧ k.lo + r < k.hi ∧ k.hi ≤ 512 ∧ (∀ i < k.hi - k.lo, ∃ b,
      s.readVirt (s.ctx (s.thread k.thread).ctx) (p + 128 * (k.lo + i)) 128 = .ok b)) ∧
    (∃ (l : Fin 8) (b : Burst) (r : List Burst) (s : State), (s.lat l).inflight = b :: r ∧ (s.thread
      b.chunk.thread).st = .idle ∧ (∀ g ∈ b.ranges, g < 8)) ∧
    (∃ (l : Fin 8) (b : Burst) (r : List Burst) (a : Active) (s : State), (s.lat l).inflight = b :: r ∧ (s.thread
      b.chunk.thread).st ≠ .idle ∧ (s.thread b.chunk.thread).ctx = b.ctx ∧ (s.thread b.chunk.thread).steps = [a] ∧
      a.uid = b.chunk.uid ∧ b.suspect = true ∧ mmMode a.word.toNat = 0 ∧ threadBay b.chunk.thread = l / 2 ∧ (∀ g ∈
      b.ranges, g < 8) ∧ (∀ c, (s.ctx c).st ≠ .running ∧ (s.ctx c).st ≠ .waiting)) ∧
    (∃ (l : Fin 8) (s : State), (s.lat l).inflight = []) :=
  ⟨⟨7, tL 7 (tLat .dark), by decide +kernel⟩,
   ⟨7, tL 7 (tLat .fenced), by decide +kernel⟩,
   ⟨7, tL 7 { tLat .suspect with fencePending := 12 }, by decide +kernel⟩,
   ⟨7, ((tL 7 (tLat .serving)).setFld .latCtrlEn 7 0).setFld .latCtrlKeepLit 7 1, by decide +kernel⟩,
   ⟨7, (tL 7 { tLat .serving with roundDue := true }).setFld .latCtrlEn 7 1, by decide +kernel⟩,
   ⟨7, (tL 7 (tLat .serving)).setFld .latCtrlEn 7 1, by decide +kernel⟩,
   ⟨7, (tL 7 (tLat .suspect)).setFld .latCtrlEn 7 1, by decide +kernel⟩,
   ⟨7, tChunk, tActive 1, tPlane, false, false, 0, tLoad, rfl, rfl, by decide +kernel, rfl, by decide +kernel⟩,
   ⟨7, { tChunk with hi := 1 }, tActive 1, 0, 0, tRow, rfl, rfl, and_five (by decide +kernel) ⟨by decide +kernel,
     by decide +kernel, by decide +kernel, by decide +kernel, fun i hi => ⟨_, tRow_reads i hi⟩⟩⟩,
   ⟨7, tBurst, [], tL 7 { tLat .draining with inflight := [tBurst] }, by decide +kernel⟩,
   ⟨7, { tBurst with suspect := true }, [], tActive 1,
     { tL 7 { tLat .serving with inflight := [{ tBurst with suspect := true }] } with threads := [(511, { Thread.reset with st := .ready, steps := [tActive 1] })] },
     and_five (by decide +kernel) ⟨by decide +kernel, by decide +kernel, by decide +kernel, by decide +kernel, fun c
     => ⟨fun h => (nomatch h), fun h => (nomatch h)⟩⟩⟩,
   ⟨7, tOn, by decide +kernel⟩⟩

theorem witness_LatticeStates :
    (∃ (l : Fin 8) (s : State), (s.lat l).state = .draining ∧ (s.lat l).phase = 0 ∧ (s.lat l).inflight = [] ∧ (s.lat
      l).toLocked = true ∧ (s.lat l).fencePending = 0 ∧ s.latTarget l = .locked ∧ (s.lat l).group = none ∧ (s.bay (l
      / 2)).trans = none ∧ (s.bay (l / 2)).upset = false) ∧
    (∃ (l : Fin 8) (s : State), (s.lat l).state = .draining ∧ (s.lat l).phase = 0 ∧ (s.lat l).inflight = [] ∧ (s.lat
      l).toLocked = false ∧ (s.lat l).group = none ∧ (s.bay (l / 2)).trans = none ∧ (s.comb l).state = .ready) ∧
    (∃ (c : Fin 4096) (s : State), (s.ctx c).st = .draining ∧ s.ctxInFlight c = false ∧ (s.ctx c).pendingCmd = none ∧
      (s.ctx c).map = [] ∧ (s.ctx c).drainTo = 2) ∧
    (∃ (c : Fin 4096) (s : State), (s.ctx c).st = .draining ∧ s.ctxInFlight c = true) ∧
    (∃ (l : Fin 8) (s : State), (s.lat l).state = .draining ∧ (s.lat l).phase = 1 ∧ (s.lat l).fencePending ≠ 0 ∧
      (s.bay (l / 2)).upset = false ∧ (s.comb l).state ≠ .failed) ∧
    (∃ (l : Fin 8) (s : State), (s.lat l).state = .draining ∧ (s.lat l).phase = 1 ∧ (s.lat l).fencePending = 0 ∧
      (s.bay (l / 2)).upset = false ∧ s.flag .latCtrlEn l = false ∧ s.flag .latCtrlKeepLit l = false ∧ (s.comb
      l).state ≠ .failed) ∧
    (∃ (l : Fin 8) (s : State), s.boot.phase = 0 ∧ (s.lat l).state = .locked ∧ (s.lat l).phase = 1 ∧ (s.lat l).held =
      [] ∧ (s.lat l).episode = none ∧ s.latTarget l = .serving) ∧
    (∃ (l : Fin 8) (τ : Nat) (s : State), s.boot.phase = 0 ∧ s.boot.stage = 5 ∧ (s.lat l).state = .locked ∧ (s.lat
      l).phase = 1 ∧ (s.lat l).held = [] ∧ (s.lat l).episode = some τ ∧ s.flag .calStatusStale l = false ∧
      s.latTarget l = .serving ∧ (s.lat l).outageFrom = none) ∧
    (∃ (l : Fin 8) (c : Fin 513) (s : State), (s.lat l).selfTest = [(c.val, 1)] ∧ (s.lat l).state ≠ .suspect) ∧
    (∃ (l : Fin 8) (c : Fin 513) (d : Fin 513) (n : Nat) (s : State), c ≠ d ∧ (s.lat l).selfTest =
      [(c.val, 1), (d.val, n)]) ∧
    (∃ (l : Fin 8) (c : Fin 513) (s : State), (s.lat l).selfTest = [(c.val, 1)] ∧ (∀ e ∈ (s.lat l).selfFails, e.1 =
      c.val → e.2 + 1000000000 ≤ s.time)) ∧
    (∃ (l : Fin 8) (c : Fin 513) (τ : Nat) (s : State), (s.lat l).selfTest = [(c.val, 1)] ∧ (s.lat l).selfFails =
      [(c.val, τ)] ∧ s.time < τ + 1000000000 ∧ (s.lat l).state = .suspect ∧ (s.lat l).fencePending = 0) ∧
    (∃ (l : Fin 8) (c : Fin 513) (s : State), (s.lat l).selfTest = [(c.val, 2)] ∧ s.power.unlocked = []) ∧
    (∃ (l : Fin 8) (_c : Fin 513) (s : State), (s.lat l).selfTest = []) :=
  ⟨⟨7, (tL 7 { tLat .draining with toLocked := true }).setFld .latCtrlKeepLit 7 1, by decide +kernel⟩,
   ⟨7, { tL 7 (tLat .draining) with combs := [(7, { Comb.reset with state := .ready })] }, by decide +kernel⟩,
   ⟨4095, { tOn with ctxs := [(4095, { Ctx.reset with st := .draining, drainTo := 2 })] }, by decide +kernel⟩,
   ⟨4095,
     { tL 7 { tLat .serving with inflight := [{ tBurst with ctx := 4095 }] } with ctxs := [(4095, { Ctx.reset with st := .draining })] },
     by decide +kernel⟩,
   ⟨7, tL 7 { tLat .draining with phase := 1, fencePending := 12 }, by decide +kernel⟩,
   ⟨7, ((tL 7 { tLat .draining with phase := 1 }).setFld .latCtrlEn 7 0).setFld .latCtrlKeepLit 7 0, by
     decide +kernel⟩,
   ⟨7, (tL 7 { tLat .locked with phase := 1 }).setFld .latCtrlEn 7 1, by decide +kernel⟩,
   ⟨7, 0, (tL 7 { tLat .locked with phase := 1, episode := some 0 }).setFld .latCtrlEn 7 1, by decide +kernel⟩,
   ⟨7, 512, tL 7 { tLat .locked with selfTest := [(512, 1)], held := [(.readout, 0)] }, by decide +kernel⟩,
   ⟨7, 512, 3, 2, tL 7 { tLat .suspect with selfTest := [(512, 1), (3, 2)] }, by decide +kernel⟩,
   ⟨7, 512, { tL 7 { tLat .suspect with selfTest := [(512, 1)], selfFails := [(512, 0)] } with time := 1000000000 },
     by decide +kernel⟩,
   ⟨7, 512, 0,
     { tL 7 { tLat .suspect with selfTest := [(512, 1)], selfFails := [(512, 0)] } with time := 999999999 }, by
     decide +kernel⟩,
   ⟨7, 512, tL 7 { tLat .locked with selfTest := [(512, 2)] }, by decide +kernel⟩,
   ⟨7, 512, tOn, by decide +kernel⟩⟩

theorem witness_SearchEnds :
    (∃ (l : Fin 8) (s : State), (s.lat l).state = .searching ∧ (s.lat l).phase = 1 ∧ (s.lat l).dem = [] ∧
      s.searchOpen l = false ∧ s.anyRing l (fun y => !y.settled s.time) = false ∧ s.latTarget l = .locked) ∧
    (∃ (l : Fin 8) (s : State), (s.searchOpen l = true ∨ s.anyRing l (fun y => !y.settled s.time) = true)) ∧
    (∃ (l : Fin 8) (s : State), (s.lat l).state = .searching ∧ (s.lat l).fencePending = 0 ∧ s.boot.stage = 5 ∧
      (s.comb l).state = .ready) :=
  ⟨⟨0, tSettled, by decide +kernel, by decide +kernel, by decide +kernel, tSettled_open, tSettled_any,
     by decide +kernel⟩,
   ⟨7, tL 7 (tLat .searching), .inl (by decide +kernel)⟩,
   ⟨7, { tL 7 (tLat .searching) with combs := [(7, { Comb.reset with state := .ready })] }, by decide +kernel⟩⟩

theorem witness_Restarts :
    (∃ (p : Path) (s : State), s.served p = true ∧ hostAllowed p s.cfg.grantRestart = true ∧ s.boot.stage = 5) ∧
    (∃ (p : Path) (s : State), s.served p = true ∧ hostAllowed p s.cfg.grantRestart = true ∧ s.boot.stage < 5) ∧
    (∃ (p : Path) (s : State), s.served p = true ∧ hostAllowed p s.cfg.grantRestart = false) ∧
    (∃ (i : HubIsland) (s : State), i ≠ .management ∧ i ≠ .security ∧ s.boot.on = true ∧ s.boot.halt = 0 ∧
      s.boot.restarting = false ∧ s.boot.stage = 5) ∧
    (∃ (i : HubIsland) (s : State), (i = .management ∨ i = .security) ∧ s.boot.on = true ∧ s.boot.halt = 0 ∧
      s.boot.restarting = false ∧ s.boot.stage = 5) ∧
    (∃ (i : HubIsland) (s : State), i ≠ .management ∧ i ≠ .security ∧ s.boot.on = true ∧ s.boot.halt = 0 ∧
      s.boot.restarting = false ∧ s.boot.stage = 5) ∧
    (∃ (i : HubIsland) (s : State), (i = .management ∨ i = .security) ∧ s.boot.on = true ∧ s.boot.halt = 0 ∧
      s.boot.restarting = false ∧ s.boot.stage = 5) :=
  ⟨⟨.i3c, tOn, by decide +kernel⟩,
   ⟨.vdm, { tOn with boot := { tOn.boot with stage := 4 } }, by decide +kernel⟩,
   ⟨.bar0, tOn, by decide +kernel⟩,
   ⟨.deviceTime, tOn, by decide +kernel⟩,
   ⟨.security, tOn, by decide +kernel⟩,
   ⟨.deviceTime, tOn, by decide +kernel⟩,
   ⟨.security, tOn, by decide +kernel⟩⟩

theorem witness_JournalFlash :
    (∃ (s : State), s.boot.on = true ∧ s.jnl.windowOpen = true) ∧
    (∃ (s : State), s.boot.on = true ∧ s.jnl.windowOpen = true ∧ s.jnl.compacting = true) ∧
    (∃ (s : State), s.boot.on = true ∧ s.jnl.windowOpen = true ∧ s.jnl.erasing = true) ∧
    (∃ (c : Instr) (s : State), (c = .journalPageProgram ∨ c = .compactionSwitch ∨ c = .halfEraseDone) ∧
      s.jnl.windowOpen = false) ∧
    (∃ (c : Instr) (s : State), (c = .compactionStart ∧ s.boot.on = true ∧ 24 * hourNs ≤ s.sinceCompaction ∨ ∃ p, c =
      .jnlCompact p ∧ s.served p = true ∧ (s.jnl.lastCompact = none ∨ hourNs ≤ s.sinceCompaction)) ∧ s.jnl.compacting
      = false ∧ s.jnl.erasing = false) ∧
    (∃ (c : Instr) (s : State), (c = .compactionStart ∧ s.boot.on = true ∧ 24 * hourNs ≤ s.sinceCompaction ∨ ∃ p, c =
      .jnlCompact p ∧ s.served p = true ∧ (s.jnl.lastCompact = none ∨ hourNs ≤ s.sinceCompaction)) ∧ s.jnl.compacting
      = false ∧ s.jnl.erasing = false) ∧
    (∃ (p : Path) (s : State), s.served p = true ∧ s.jnl.lastCompact.isSome = true ∧ s.sinceCompaction < hourNs) :=
  ⟨⟨{ tOn with jnl := { Journal.reset with windowOpen := true, unwritten := [tRec] } }, by decide +kernel⟩,
   ⟨{ tOn with jnl := { tOn.jnl with compacting := true } }, by decide +kernel⟩,
   ⟨{ tOn with jnl := { tOn.jnl with erasing := true } }, by decide +kernel⟩,
   ⟨.halfEraseDone, { tOn with jnl := Journal.reset }, by decide +kernel⟩,
   ⟨.compactionStart, { tOn with time := 24 * hourNs }, .inl ⟨rfl, rfl, by decide +kernel⟩, by decide +kernel⟩,
   ⟨.jnlCompact .i3c, { tOn with time := hourNs, jnl := { tOn.jnl with lastCompact := some 0 } },
     .inr ⟨.i3c, rfl, by decide +kernel, by decide +kernel⟩, by decide +kernel⟩,
   ⟨.bar0, { tOn with time := hourNs - 1, jnl := { tOn.jnl with lastCompact := some 0 } }, by decide +kernel⟩⟩

theorem witness_FlashWindow :
    (∃ (v : Int) (s : State), s.boot.on = true ∧ s.cfg.flashTemp = .register ∧ -40 * 256 ≤ v ∧ v ≤ 150 * 256) ∧
    (∃ (v : Int) (s : State), s.boot.on = true ∧ s.cfg.flashTemp = .register ∧ -40 * 256 ≤ v ∧ v ≤ 150 * 256) ∧
    (∃ (s : State), s.boot.on = true ∧ s.cfg.flashTemp = .register) :=
  ⟨⟨-10240, { tOn with cfg := { Configuration.unset with flashTemp := .register } }, by decide +kernel⟩,
   ⟨38400, { tOn with cfg := { Configuration.unset with flashTemp := .register } }, by decide +kernel⟩,
   ⟨{ tOn with cfg := { Configuration.unset with flashTemp := .register } }, by decide +kernel⟩⟩

theorem witness_CalibrationSave :
    (∃ (c : Instr) (s : State), (c = .calSaveDue ∨ ∃ p, c = .calSaveRequest p ∧ s.served p = true) ∧ s.boot.on = true
      ∧ s.flash.calBusy = false) ∧
    (∃ (c : Instr) (s : State), (c = .calSaveDue ∨ ∃ p, c = .calSaveRequest p ∧ s.served p = true) ∧ s.boot.on = true
      ∧ s.flash.calBusy = false) ∧
    (∃ (s : State), s.flash.calBusy = true ∧ s.jnl.windowOpen = true ∧ s.boot.wantFwSave = false ∧ s.jnl.hold = [] ∧
      s.jnl.used + 1 ≤ halfSlots) ∧
    (∃ (s : State), s.flash.calBusy = true ∧ s.jnl.windowOpen = false) :=
  ⟨⟨.calSaveDue, tOn, .inl rfl, by decide +kernel⟩,
   ⟨.calSaveRequest .bar0, tOn, .inr ⟨.bar0, rfl, by decide +kernel⟩, by decide +kernel⟩,
   ⟨{ tOn with flash := { State.reset.flash with calBusy := true } }, by decide +kernel⟩,
   ⟨{ tOn with flash := { State.reset.flash with calBusy := true }, jnl := Journal.reset }, by decide +kernel⟩⟩

theorem witness_CalibrationTracking :
    (∃ (l : Fin 8) (r : Ramp) (rest : List Ramp) (s : State), (s.lat l).ramps = r :: rest ∧ r.step < 15) ∧
    (∃ (l : Fin 8) (r : Ramp) (rest : List Ramp) (s : State), (s.lat l).ramps = r :: rest ∧ 15 ≤ r.step) ∧
    (∃ (l : Fin 8) (rms : BitVec 16) (bias : BitVec 16) (s : State), (s.lat l).state = .serving ∧ s.flag
      .calStatusStale l = false ∧ (s.lat l).episode = none ∧ (2048 < rms.toNat ∨ 4096 < 20 * bias.toInt.natAbs) ∧
      s.fld .latResidPeak l < 2 ^ 16) ∧
    (∃ (l : Fin 8) (rms : BitVec 16) (bias : BitVec 16) (s : State), (s.lat l).state = .serving ∧ s.flag
      .calStatusStale l = false ∧ (s.lat l).episode = none ∧ (2048 < rms.toNat ∨ 4096 < 20 * bias.toInt.natAbs) ∧
      s.fld .latResidPeak l < 2 ^ 16) ∧
    (∃ (l : Fin 8) (_rms : BitVec 16) (_bias : BitVec 16) (s : State), ((s.lat l).state = .locked ∨ (s.lat l).state =
      .suspect) ∧ s.fld .latResidPeak l < 2 ^ 16) ∧
    (∃ (p : Path) (l : Fin 8) (s : State), s.served p = true ∧ (s.lat l).state = .serving ∧ (s.lat l).episode = none) :=
  ⟨⟨7, tRamp 14, [], tL 7 { tLat .serving with ramps := [tRamp 14] }, by decide +kernel⟩,
   ⟨7, tRamp 15, [], tL 7 { tLat .serving with ramps := [tRamp 15] }, by decide +kernel⟩,
   ⟨7, 2049, 0, tL 7 (tLat .serving), by decide +kernel⟩,
   ⟨7, 2048, 0xFF33, tL 7 (tLat .serving), by decide +kernel⟩,
   ⟨7, 0xFFFF, 0x8000, tL 7 (tLat .suspect), by decide +kernel⟩,
   ⟨.vdm, 7, tL 7 (tLat .serving), by decide +kernel⟩⟩

theorem witness_CalibrationEpisodes :
    (∃ (l : Fin 8) (sweeps : Nat) (maxTrim : Nat) (rms : BitVec 16) (bias : BitVec 16) (s : State), (s.lat
      l).episode.isSome = true ∧ 64 ≤ sweeps ∧ 100 * rms.toNat ≤ 45 * 4096 ∧ 100 * bias.toInt.natAbs ≤ 4 * 4096 ∧
      maxTrim ≤ 2 ∧ (s.lat l).episodeMet = true ∧ s.flag .calStatusStale l = false) ∧
    (∃ (l : Fin 8) (sweeps : Nat) (maxTrim : Nat) (rms : BitVec 16) (bias : BitVec 16) (s : State), (s.lat
      l).episode.isSome = true ∧ (sweeps < 64 ∨ 45 * 4096 < 100 * rms.toNat ∨ 4 * 4096 < 100 * bias.toInt.natAbs ∨ 2
      < maxTrim)) ∧
    (∃ (l : Fin 8) (sweeps : Nat) (maxTrim : Nat) (rms : BitVec 16) (bias : BitVec 16) (s : State), (s.lat
      l).episode.isSome = true ∧ (sweeps < 64 ∨ 45 * 4096 < 100 * rms.toNat ∨ 4 * 4096 < 100 * bias.toInt.natAbs ∨ 2
      < maxTrim)) ∧
    (∃ (l : Fin 8) (sweeps : Nat) (maxTrim : Nat) (rms : BitVec 16) (bias : BitVec 16) (s : State), (s.lat
      l).episode.isSome = true ∧ (sweeps < 64 ∨ 45 * 4096 < 100 * rms.toNat ∨ 4 * 4096 < 100 * bias.toInt.natAbs ∨ 2
      < maxTrim)) ∧
    (∃ (l : Fin 8) (sweeps : Nat) (maxTrim : Nat) (rms : BitVec 16) (bias : BitVec 16) (s : State), (s.lat
      l).episode.isSome = true ∧ (sweeps < 64 ∨ 45 * 4096 < 100 * rms.toNat ∨ 4 * 4096 < 100 * bias.toInt.natAbs ∨ 2
      < maxTrim)) ∧
    (∃ (l : Fin 8) (s : State), (s.lat l).episode.isSome = true ∧ s.flag .calStatusStale l = false) :=
  ⟨⟨7, 64, 2, 1843, 163, tL 7 { tLat .serving with episode := some 0, episodeMet := true }, by decide +kernel⟩,
   ⟨7, 63, 2, 0, 0, tL 7 { tLat .serving with episode := some 0 }, by decide +kernel⟩,
   ⟨7, 64, 2, 1844, 0, tL 7 { tLat .serving with episode := some 0 }, by decide +kernel⟩,
   ⟨7, 64, 2, 0, 164, tL 7 { tLat .serving with episode := some 0 }, by decide +kernel⟩,
   ⟨7, 64, 3, 0, 0, tL 7 { tLat .serving with episode := some 0 }, by decide +kernel⟩,
   ⟨7, tL 7 { tLat .serving with episode := some 0 }, by decide +kernel⟩⟩

theorem witness_PowerManagement :
    (∃ (s : State), s.boot.on = true ∧ s.onPhase 1000000 0 = true ∧ s.fld .seqGovAllow 0 ≤ 64) ∧
    (∃ (s : State), s.boot.on = true ∧ s.onPhase 1000000 0 = true ∧ s.fld .seqGovAllow 0 ≤ 64) ∧
    (∃ (s : State), s.boot.on = true ∧ heldFor s.time 10000000 s.power.eightAt = true ∧ s.power.limit *
      s.power.samples.length < s.power.samples.sum) ∧
    (∃ (s : State), heldFor s.time 1000000 s.power.underAt = true ∧ s.power.samples.sum + 25 * s.power.samples.length
      ≤ s.power.limit * s.power.samples.length) ∧
    (∃ (_w : Nat) (s : State), s.boot.on = true ∧ s.onPhase 100000 0 = true) ∧
    (∃ (s : State), s.boot.on = true ∧ s.power.stepDue ≤ s.time ∧ s.power.throttling = true ∧ 300 < s.power.limit) ∧
    (∃ (s : State), s.boot.on = true ∧ s.power.stepDue ≤ s.time ∧ s.power.throttling = false ∧ s.power.cool = true) ∧
    (∃ (s : State), s.boot.on = true ∧ s.onPhase 100000000 0 = true) :=
  ⟨⟨{ tOn with power := { Power.reset with limit := 300, avg := 300, samples := [301, 300], eightAt := some 0 }, time := 10000000 },
     by decide +kernel⟩,
   ⟨tOn, by decide +kernel⟩,
   ⟨State.setFld
     { tOn with power := { Power.reset with limit := 300, avg := 300, samples := [301, 300], eightAt := some 0 }, time := 10000000 }
     .seqGovAllow 0 8, by decide +kernel⟩,
   ⟨{ tOn with power := { Power.reset with limit := 900, samples := [875], half := true, underAt := some 0 }, time := 1000000 },
     by decide +kernel⟩,
   ⟨1000, tOn, by decide +kernel⟩,
   ⟨{ tOn with power := { Power.reset with limit := 301, throttling := true } }, by decide +kernel⟩,
   ⟨{ tOn with power := { Power.reset with limit := 900, cool := true } }, by decide +kernel⟩,
   ⟨tOn, by decide +kernel⟩⟩

theorem witness_PowerSettings :
    (∃ (c : Instr) (v : Nat) (s : State), ((∃ p w, c = .powerLimitSet p w ∧ v = w.toNat ∧ s.served p = true ∧
      hostAllowed p s.cfg.grantLattice = true) ∨ (∃ ep, c = .setEffecter ep 1 v ∧ s.auxOnly ep = false ∧ s.reaches ep
      = true ∧ s.boot.on = true ∧ s.boot.mgmtDown = false)) ∧ 300 ≤ v ∧ v ≤ 1000 ∧ v % 25 = 0) ∧
    (∃ (c : Instr) (v : Nat) (s : State), ((∃ p w, c = .powerLimitSet p w ∧ v = w.toNat ∧ s.served p = true ∧
      hostAllowed p s.cfg.grantLattice = true) ∨ (∃ ep, c = .setEffecter ep 1 v ∧ s.auxOnly ep = false ∧ s.reaches ep
      = true ∧ s.boot.on = true ∧ s.boot.mgmtDown = false)) ∧ 300 ≤ v ∧ v ≤ 1000 ∧ v % 25 = 0) ∧
    (∃ (p : Path) (_v : BitVec 10) (s : State), s.served p = true ∧ hostAllowed p s.cfg.grantLattice = false) ∧
    (∃ (p : Path) (_b : Fin 4) (v : BitVec 3) (s : State), s.served p = true ∧ hostAllowed p s.cfg.grantLattice =
      true ∧ v.toNat ≤ 4) :=
  ⟨⟨.powerLimitSet .vdm 300, 300, tOn, .inl ⟨.vdm, 300, rfl, rfl, by decide +kernel, by decide +kernel⟩,
     by decide +kernel⟩,
   ⟨.setEffecter .i3c 1 1000, 1000, tOn, .inr ⟨.i3c, rfl, by decide +kernel, by decide +kernel, rfl, rfl⟩,
     by decide +kernel⟩,
   ⟨.bar0, 300, tOn, by decide +kernel⟩,
   ⟨.i3c, 3, 4, tOn, by decide +kernel⟩⟩

theorem witness_Clocks :
    (∃ (_o : BitVec 32) (s : State), s.boot.on = true) ∧
    (∃ (i : Island) (s : State), s.boot.on = true ∧ s.power.unlocked.contains i = false ∧ readoutBay i = none) ∧
    (∃ (b : Fin 4) (s : State), s.boot.on = true ∧ s.power.unlocked.contains (.bay b .readout) = false ∧ (∀ l, l = 2
      * b.val ∨ l = 2 * b.val + 1 → (s.lat l).state = .locked)) ∧
    (∃ (i : Island) (s : State), s.power.unlocked.contains i = true ∧ readoutBay i = none) ∧
    (∃ (i : HubIsland) (s : State), s.power.unlocked.contains (.hub i) = true ∧ s.boot.on = true ∧ s.boot.halt ≠ 2 ∧
      s.boot.restarting = true) ∧
    (∃ (mv : Nat) (_ack : Bool) (s : State), s.boot.on = true ∧ 3 ≤ s.boot.stage ∧ s.boot.stage ≠ 15 ∧ 680 ≤ mv ∧ mv
      ≤ 820 ∧ mv % 5 = 0 ∧ mv ≤ s.power.avsMv + 20 ∧ s.power.avsMv ≤ mv + 20 ∧ s.power.avsWant = none ∧ s.avsReady =
      true) ∧
    (∃ (mv : Nat) (_ack : Bool) (s : State), s.boot.on = true ∧ 3 ≤ s.boot.stage ∧ s.boot.stage ≠ 15 ∧ 680 ≤ mv ∧ mv
      ≤ 820 ∧ mv % 5 = 0 ∧ mv ≤ s.power.avsMv + 20 ∧ s.power.avsMv ≤ mv + 20 ∧ s.power.avsWant = none ∧ s.avsReady =
      true) ∧
    (∃ (mv : Nat) (_ack : Bool) (s : State), s.boot.on = true ∧ 3 ≤ s.boot.stage ∧ s.boot.stage ≠ 15 ∧ 680 ≤ mv ∧ mv
      ≤ 820 ∧ mv % 5 = 0 ∧ mv ≤ s.power.avsMv + 20 ∧ s.power.avsMv ≤ mv + 20 ∧ s.power.avsWant = none ∧ s.avsReady =
      true) ∧
    (∃ (mv : Nat) (s : State), s.boot.on = true ∧ s.power.avsWant = some mv ∧ s.avsReady = true) :=
  ⟨⟨0xFFFF_FFFF, tOn, by decide +kernel⟩,
   ⟨.hub .deviceTime, tOn, by decide +kernel⟩,
   ⟨3, { tOn with lats := [(6, tLat .locked), (7, tLat .locked)] }, by decide +kernel, by decide +kernel,
     by rintro l (rfl | rfl) <;> decide +kernel⟩,
   ⟨.hub .relay, { tOn with power := { Power.reset with unlocked := [.hub .relay] } }, by decide +kernel⟩,
   ⟨.relay,
     { { tOn with power := { Power.reset with unlocked := [.hub .relay] } } with boot := { tOn.boot with restarting := true } },
     by decide +kernel⟩,
   ⟨680, true,
     { tOn with boot := { tOn.boot with stage := 3 }, power := { Power.reset with avsMv := 700, avsAt := some 0 }, time := 1000000 },
     by decide +kernel⟩,
   ⟨820, true,
     { tOn with boot := { tOn.boot with stage := 3 }, power := { Power.reset with avsMv := 800, avsAt := some 0 }, time := 1000000 },
     by decide +kernel⟩,
   ⟨680, true,
     { tOn with boot := { tOn.boot with stage := 3 }, power := { Power.reset with avsMv := 680, avsAt := some 0 }, time := 1000000 },
     by decide +kernel⟩,
   ⟨680, { tOn with power := { Power.reset with avsWant := some 680 } }, by decide +kernel⟩⟩

theorem witness_ThermalSample :
    (∃ (r : List Sense) (_s : State), r.length ≠ 190) ∧
    (∃ (r : List Sense) (s : State), r.length = 190 ∧ s.boot.on = true ∧ s.onPhase 1000000 0 = true) ∧
    (∃ (r : List Sense) (s : State), r.length = 190 ∧ s.boot.on = false ∧ s.powered = true) ∧
    (∃ (r : List Sense) (s : State), r.length = 190 ∧ s.powered = false) :=
  ⟨⟨List.replicate 189 .isOpen, tOn, by decide +kernel⟩,
   ⟨List.replicate 190 (.value 10240), tOn, by decide +kernel⟩,
   ⟨List.replicate 190 .isShort, State.reset, by decide +kernel⟩,
   ⟨List.replicate 190 .isShort, { State.reset with pins := { State.reset.pins with aux := false } }, by
     decide +kernel⟩⟩

theorem witness_BayPower :
    (∃ (b : Fin 4) (u : Transition) (q : PState) (s : State), s.boot.on = true ∧ (s.bay b).trans = some u ∧ (s.bay
      b).pendReq = none ∧ s.wanted b u.target = some q) ∧
    (∃ (b : Fin 4) (q : PState) (k : Nat) (c : Nat) (s : State), s.boot.on = true ∧ (s.bay b).trans = none ∧ (s.bay
      b).held = [] ∧ s.wanted b (s.bay b).power = some q ∧ (s.bay b).power.depth < q.depth ∧ s.refusal b q = some (k,
      c) ∧ s.busyThreads b = []) ∧
    (∃ (b : Fin 4) (q : PState) (s : State), s.boot.on = true ∧ (s.bay b).trans = none ∧ (s.bay b).held = [] ∧ (s.bay
      b).power ≠ .off ∧ (s.bay b).power ≠ .proof ∧ s.wanted b (s.bay b).power = some q ∧ q.depth < (s.bay
      b).power.depth ∧ (s.lat (2 * b)).state = .fenced ∧ (s.lat (2 * b + 1)).state = .fenced) ∧
    (∃ (b : Fin 4) (u : Transition) (s : State), (s.bay b).trans = some u ∧ u.committed = true ∧ (s.bay b).pendReq =
      none ∧ u.target ≠ .proof ∧ (s.bay b).held = [] ∧ s.latSettled (2 * b) u.target = true ∧ s.latSettled (2 * b +
      1) u.target = true ∧ (∀ k, (s.thread k).wait = none)) ∧
    (∃ (b : Fin 4) (s : State), (s.bay b).retryDue = true ∧ (s.bay b).trans = none ∧ s.busyThreads b = [] ∧ s.wanted
      b (s.bay b).power = none) ∧
    (∃ (b : Fin 4) (s : State), (s.bay b).power = .proof ∧ (s.bay b).heading = .proof ∧ s.sliceDue b = true) :=
  ⟨⟨3, { target := .dim, committed := true }, .run, (tB 3
     { Bay.reset with trans := some { target := .dim, committed := true } }).setFld .pwrBayCtrlIdleState 3 0, by
     decide +kernel⟩,
   ⟨3, .proof, 4, 2, (tB 3 { Bay.reset with rise := true }).setFld .pwrBayCtrlIdleState 3 2, by decide +kernel⟩,
   ⟨3, .run, State.setFld
     { tB 3 { Bay.reset with power := .dim } with lats := [(6, tLat .fenced), (7, tLat .fenced)] }
     .pwrBayCtrlIdleState 3 0, by decide +kernel⟩,
   ⟨3, { target := .off, committed := true }, tB 3
     { Bay.reset with power := .cold, trans := some { target := .off, committed := true } }, and_five
     (by decide +kernel) ⟨by decide +kernel, by decide +kernel, fun k => rfl⟩⟩,
   ⟨3, State.setFld (tB 3 { Bay.reset with retryDue := true }) .pwrBayCtrlIdleState 3 0, by decide +kernel⟩,
   ⟨3, tB 3 { Bay.reset with power := .proof }, by decide +kernel⟩⟩

theorem witness_StepsInProgress :
    (∃ (c : Instr) (t : Fin 512) (o : Op) (f : State → Thread → Nat → Nat → Except (Nat × State) State) (w : Nat) (s
      : State) (s1 : State) (u : State), LongStep c t o f ∧ s.begin t o = .go s1 w ∧ (o = .move → s.moveStalls t w =
      false) ∧ f (s1.listed t o w) (s1.thread t) w (s1.uidOf t) = .ok u) ∧
    (∃ (c : Instr) (t : Fin 512) (o : Op) (f : State → Thread → Nat → Nat → Except (Nat × State) State) (w : Nat) (s
      : State) (s1 : State) (u : State), LongStep c t o f ∧ s.begin t o = .go s1 w ∧ (o = .move → s.moveStalls t w =
      false) ∧ f (s1.listed t o w) (s1.thread t) w (s1.uidOf t) = .ok u) ∧
    (∃ (c : Instr) (t : Fin 512) (o : Op) (f : State → Thread → Nat → Nat → Except (Nat × State) State) (w : Nat) (s
      : State) (s1 : State) (u : State), LongStep c t o f ∧ s.begin t o = .go s1 w ∧ (o = .move → s.moveStalls t w =
      false) ∧ f (s1.listed t o w) (s1.thread t) w (s1.uidOf t) = .ok u) ∧
    (∃ (c : Instr) (t : Fin 512) (o : Op) (f : State → Thread → Nat → Nat → Except (Nat × State) State) (w : Nat) (k
      : Nat) (s : State) (s1 : State) (u : State), LongStep c t o f ∧ s.begin t o = .go s1 w ∧ (o = .move →
      s.moveStalls t w = false) ∧ f (s1.listed t o w) (s1.thread t) w (s1.uidOf t) = .error (k, u)) ∧
    (∃ (c : Instr) (t : Fin 512) (o : Op) (f : State → Thread → Nat → Nat → Except (Nat × State) State) (w : Nat) (k
      : Nat) (s : State) (s1 : State) (u : State), LongStep c t o f ∧ s.begin t o = .go s1 w ∧ (o = .move →
      s.moveStalls t w = false) ∧ f (s1.listed t o w) (s1.thread t) w (s1.uidOf t) = .error (k, u)) ∧
    (∃ (c : Instr) (t : Fin 512) (o : Op) (f : State → Thread → Nat → Nat → Except (Nat × State) State) (w : Nat) (k
      : Nat) (s : State) (s1 : State) (u : State), LongStep c t o f ∧ s.begin t o = .go s1 w ∧ (o = .move →
      s.moveStalls t w = false) ∧ f (s1.listed t o w) (s1.thread t) w (s1.uidOf t) = .error (k, u)) ∧
    (∃ (c : Instr) (t : Fin 512) (o : Op) (f : State → Thread → Nat → Nat → Except (Nat × State) State) (s : State),
      LongStep c t o f ∧ s.begin t o = .stall) ∧
    (∃ (c : Instr) (t : Fin 512) (o : Op) (f : State → Thread → Nat → Nat → Except (Nat × State) State) (s : State),
      LongStep c t o f ∧ s.hasNext t = false) ∧
    (∃ (t : Fin 512) (w : Nat) (v : VecIn) (es : List (Option Nat)) (s : State) (s1 : State) (x : State) (y : State),
      s.begin t .vec = .go s1 w ∧ x = s1.listed t .vec w ∧ VecInput x (s1.thread t) w v ∧ vecElements v x = .ok es ∧
      writeElems v.c v.func v.tout v.out es x = .ok y) ∧
    (∃ (t : Fin 512) (w : Nat) (va : Nat) (vb : Nat) (p : Nat) (q : Nat) (a : Item) (b : Item) (d : List Byte) (c :
      Ctx) (s : State) (s1 : State) (x : State) (y : State), s.begin t .move = .go s1 w ∧ s.moveStalls t w = false ∧
      x = s1.listed t .move w ∧ c = x.ctx (s1.thread t).ctx ∧ mvAtom w = false ∧ mvMasken w = false ∧ x.mcOf (mvFlow
      w) = none ∧ moveItems x c (s1.thread t) w = .ok ([a], [b]) ∧ a.1 = some va ∧ b.1 = some vb ∧ addrKind va = .own
      p ∧ addrKind vb = .own q ∧ x.readVirt c p (mvLen w) = .ok d ∧ x.writeVirt c q d = .ok y) ∧
    (∃ (t : Fin 512) (w : Nat) (n : Nat) (i : Item) (o : Item) (d : List Byte) (c : Ctx) (s : State) (s1 : State) (x
      : State) (y : State), s.begin t .gather = .go s1 w ∧ x = s1.listed t .gather w ∧ c = x.ctx (s1.thread t).ctx ∧
      gaPool w = false ∧ countItems x c (s1.thread t) (gaIdx w) = .ok 1 ∧ streamItems x c (s1.thread t) (gaIdx w) 4 4
      1 false = .ok [i] ∧ needStream (gaDst w) 1 = .ok () ∧ streamItems x c (s1.thread t) (gaDst w) (gaRowbytes w)
      (itemAlign (gaRowbytes w)) 1 false = .ok [o] ∧ gatherIndex x c i = .ok n ∧ gatherRow x c w n = .ok d ∧
      writeItem x c o d = .ok y ∧ (y.poison = [] ∧ y.wordErr = [])) ∧
    (∃ (t : Fin 512) (w : Nat) (n : Nat) (e : Nat) (k : Nat) (cap : Nat) (recs : Nat) (lists : Nat) (counts : Nat) (r
      : List Byte) (logits : List Nat) (chs : List (List (Nat × FV × Bool))) (a : Assign) (c : Ctx) (s : State) (s1 :
      State) (x : State) (y1 : State) (y2 : State) (y3 : State), s.begin t .route = .go s1 w ∧ x = s1.listed t .route
      w ∧ c = x.ctx (s1.thread t).ctx ∧ readRecord x c w 50 = .ok r ∧ n = recNat r 40 4 ∧ e = recNat r 44 2 ∧ k =
      recNat r 46 1 ∧ recNat r 47 1 = 0 ∧ cap = recNat r 48 2 ∧ recs = recNat r 16 8 ∧ lists = recNat r 24 8 ∧ counts
      = recNat r 32 8 ∧ 1 ≤ n ∧ n ≤ 65536 ∧ 1 ≤ k ∧ k ≤ 8 ∧ k ≤ e ∧ e ≤ 1024 ∧ 1 ≤ cap ∧ recs % 64 = 0 ∧ lists % 8 =
      0 ∧ counts % 8 = 0 ∧ recNat r 8 8 = 0 ∧ readFps x c (recNat r 0 8) (n * e) = .ok logits ∧ chs = (upTo n).map
      (fun i => choices k false (((logits.drop (i * e)).take e).map f32) []) ∧ a = assignAll cap k chs ∧ foldRun (fun
      s i => orFault s (s.writeVirt c (recs + 64 * i) (routeRecord a i (chs.getD i [])))) (upTo n) x = .ok y1 ∧
      foldRun (fun s (z : Nat × Nat × Nat × Nat) => orFault s (s.writeVirt c (lists + 4 * (cap * z.1 + z.2.1))
      (leBytes 4 (z.2.2.1 * 2 ^ 29 + z.2.2.2)))) a.entries y1 = .ok y2 ∧ foldRun (fun s i => orFault s (s.writeVirt c
      (counts + 4 * i) (leBytes 4 (min (tget 0 a.drops i) 0xFFFF * 2 ^ 16 + tget 0 a.counts i)))) (upTo e) y2 = .ok
      y3) ∧
    (∃ (t : Fin 512) (w : Nat) (count : Nat) (domain : Nat) (r : List Byte) (h : List Byte) (l : List Nat) (z :
      ExitIn) (c : Ctx) (s : State) (s1 : State) (x : State) (y1 : State) (y2 : State), s.begin t .exit = .go s1 w ∧
      x = s1.listed t .exit w ∧ c = x.ctx (s1.thread t).ctx ∧ readRecord x c w 57 = .ok r ∧ 4 ≤ recNat r 52 4 ∧
      recNat r 52 4 ≤ 65536 ∧ recNat r 52 4 % 4 = 0 ∧ recNat r 56 1 ≤ 254 ∧ recNat r 0 8 % 8 = 0 ∧ recNat r 40 8 % 8
      = 0 ∧ x.readVirt c (recNat r 0 8) 8 = .ok h ∧ count = recNat h 0 4 ∧ domain = recNat h 4 4 ∧ 1 ≤ domain ∧
      domain ≤ 65536 ∧ z = ⟨c, domain, recNat r 0 8, recNat r 8 8, recNat r 16 8, recNat r 24 8, recNat r 32 8,
      recNat r 48 4, recNat r 52 4, recNat r 56 1⟩ ∧ exitAll z (upTo count) (x, []) = .ok (y1, l) ∧ y1.writeVirt c
      (recNat r 40 8) (listBytes domain l) = .ok y2) ∧
    (∃ (t : Fin 512) (w : Nat) (n : Nat) (gw : Nat) (passMax : Nat) (r : List Byte) (scores : List Nat) (pass : List
      Nat) (c : Ctx) (s : State) (s1 : State) (x : State) (y1 : State) (y2 : State), s.begin t .gate = .go s1 w ∧ x =
      s1.listed t .gate w ∧ c = x.ctx (s1.thread t).ctx ∧ readRecord x c w 40 = .ok r ∧ n = recNat r 24 4 ∧ gw =
      recNat r 28 2 ∧ passMax = recNat r 36 4 ∧ 1 ≤ n ∧ n ≤ 16777216 ∧ 1 ≤ gw ∧ recNat r 30 1 ≤ 1 ∧ recNat r 31 1 = 0
      ∧ passMax ≤ n ∧ recNat r 8 8 % 8 = 0 ∧ recNat r 16 8 % 8 = 0 ∧ readFps x c (recNat r 0 8) n = .ok scores ∧ pass
      = gatePass n gw (recNat r 30 1 == 1) scores (recNat r 32 4) ∧ x.writeVirt c (recNat r 8 8) (maskBytes n pass) =
      .ok y1 ∧ y1.writeVirt c (recNat r 16 8) (listBytes n pass) = .ok y2) :=
  ⟨⟨.vec 511, 511, .vec, vecEffect 511, 2, tStep 2, goOf ((tStep 2).begin 511 .vec), okOf (vecEffect 511 ((goOf
     ((tStep 2).begin 511 .vec)).listed 511 .vec 2) ((goOf ((tStep 2).begin 511 .vec)).thread 511) 2 ((goOf ((tStep
     2).begin 511 .vec)).uidOf 511)), .inl ⟨rfl, rfl, rfl⟩, goes_spec (by decide +kernel), by decide +kernel,
     isOk_spec (by decide +kernel)⟩,
   ⟨.move 511, 511, .move, moveEffect 511, 3, tStep 3, goOf ((tStep 3).begin 511 .move), okOf (moveEffect 511 ((goOf
     ((tStep 3).begin 511 .move)).listed 511 .move 3) ((goOf ((tStep 3).begin 511 .move)).thread 511) 3 ((goOf
     ((tStep 3).begin 511 .move)).uidOf 511)), .inr (.inl ⟨rfl, rfl, rfl⟩), goes_spec (by decide +kernel),
     by decide +kernel, isOk_spec (by decide +kernel)⟩,
   ⟨.gather 511, 511, .gather, gatherEffect 511, 4, tStep 4, goOf ((tStep 4).begin 511 .gather), okOf (gatherEffect
     511 ((goOf ((tStep 4).begin 511 .gather)).listed 511 .gather 4) ((goOf ((tStep 4).begin 511 .gather)).thread
     511) 4 ((goOf ((tStep 4).begin 511 .gather)).uidOf 511)), .inr (.inr (.inl ⟨rfl, rfl, rfl⟩)),
     goes_spec (by decide +kernel), by decide +kernel, isOk_spec (by decide +kernel)⟩,
   ⟨.route 511, 511, .route, routeEffect 511, 5, 34, tStep 5, goOf ((tStep 5).begin 511 .route), okOf (routeEffect
     511 ((goOf ((tStep 5).begin 511 .route)).listed 511 .route 5) ((goOf ((tStep 5).begin 511 .route)).thread 511) 5
     ((goOf ((tStep 5).begin 511 .route)).uidOf 511)), .inr (.inr (.inr (.inl ⟨rfl, rfl, rfl⟩))),
     goes_spec (by decide +kernel), by decide +kernel, isErr_spec (by decide +kernel)⟩,
   ⟨.exit 511, 511, .exit, exitEffect 511, 6, 34, tStep 6, goOf ((tStep 6).begin 511 .exit), okOf (exitEffect 511
     ((goOf ((tStep 6).begin 511 .exit)).listed 511 .exit 6) ((goOf ((tStep 6).begin 511 .exit)).thread 511) 6 ((goOf
     ((tStep 6).begin 511 .exit)).uidOf 511)), .inr (.inr (.inr (.inr (.inl ⟨rfl, rfl, rfl⟩)))),
     goes_spec (by decide +kernel), by decide +kernel, isErr_spec (by decide +kernel)⟩,
   ⟨.gate 511, 511, .gate, gateEffect 511, 7, 34, tStep 7, goOf ((tStep 7).begin 511 .gate), okOf (gateEffect 511
     ((goOf ((tStep 7).begin 511 .gate)).listed 511 .gate 7) ((goOf ((tStep 7).begin 511 .gate)).thread 511) 7 ((goOf
     ((tStep 7).begin 511 .gate)).uidOf 511)), .inr (.inr (.inr (.inr (.inr (⟨rfl, rfl, rfl⟩))))),
     goes_spec (by decide +kernel), by decide +kernel, isErr_spec (by decide +kernel)⟩,
   ⟨.gate 511, 511, .gate, gateEffect 511, { tStep 7 with bays := [(3, { Bay.reset with power := .off })] }, .inr
     (.inr (.inr (.inr (.inr (⟨rfl, rfl, rfl⟩))))), stalls_spec (by decide +kernel)⟩,
   ⟨.gate 511, 511, .gate, gateEffect 511, tOn, .inr (.inr (.inr (.inr (.inr (⟨rfl, rfl, rfl⟩))))),
     by decide +kernel⟩,
   ⟨511, tVec, vecInOf ((goOf ((tProg tVec (leBytes 4 0x3F80_0000)).begin 511 .vec)).listed 511 .vec tVec) ((goOf
     ((tProg tVec (leBytes 4 0x3F80_0000)).begin 511 .vec)).thread 511) tVec, got [] (vecElements (vecInOf ((goOf
     ((tProg tVec (leBytes 4 0x3F80_0000)).begin 511 .vec)).listed 511 .vec tVec) ((goOf ((tProg tVec (leBytes 4
     0x3F80_0000)).begin 511 .vec)).thread 511) tVec) ((goOf ((tProg tVec (leBytes 4 0x3F80_0000)).begin 511
     .vec)).listed 511 .vec tVec)), tProg tVec (leBytes 4 0x3F80_0000), goOf ((tProg tVec (leBytes 4
     0x3F80_0000)).begin 511 .vec), ((goOf ((tProg tVec (leBytes 4 0x3F80_0000)).begin 511 .vec)).listed 511 .vec
     tVec), okOf (writeElems (vecInOf ((goOf ((tProg tVec (leBytes 4 0x3F80_0000)).begin 511 .vec)).listed 511 .vec
     tVec) ((goOf ((tProg tVec (leBytes 4 0x3F80_0000)).begin 511 .vec)).thread 511) tVec).c (vecInOf ((goOf ((tProg
     tVec (leBytes 4 0x3F80_0000)).begin 511 .vec)).listed 511 .vec tVec) ((goOf ((tProg tVec (leBytes 4
     0x3F80_0000)).begin 511 .vec)).thread 511) tVec).func (vecInOf ((goOf ((tProg tVec (leBytes 4
     0x3F80_0000)).begin 511 .vec)).listed 511 .vec tVec) ((goOf ((tProg tVec (leBytes 4 0x3F80_0000)).begin 511
     .vec)).thread 511) tVec).tout (vecInOf ((goOf ((tProg tVec (leBytes 4 0x3F80_0000)).begin 511 .vec)).listed 511
     .vec tVec) ((goOf ((tProg tVec (leBytes 4 0x3F80_0000)).begin 511 .vec)).thread 511) tVec).out (got []
     (vecElements (vecInOf ((goOf ((tProg tVec (leBytes 4 0x3F80_0000)).begin 511 .vec)).listed 511 .vec tVec) ((goOf
     ((tProg tVec (leBytes 4 0x3F80_0000)).begin 511 .vec)).thread 511) tVec) ((goOf ((tProg tVec (leBytes 4
     0x3F80_0000)).begin 511 .vec)).listed 511 .vec tVec))) ((goOf ((tProg tVec (leBytes 4 0x3F80_0000)).begin 511
     .vec)).listed 511 .vec tVec)), goes_spec (by decide +kernel), rfl,
     vecIn_spec (by decide +kernel) (by decide +kernel) (by decide +kernel) (by decide +kernel),
     got_spec (by decide +kernel), isOk_spec (by decide +kernel)⟩,
   ⟨511, tMove, 0x20000, 0x21000, 0x20000, 0x21000, ((got ([], []) (moveItems ((goOf ((tProg tMove (leBytes 8
     0x1234)).begin 511 .move)).listed 511 .move tMove) (((goOf ((tProg tMove (leBytes 8 0x1234)).begin 511
     .move)).listed 511 .move tMove).ctx 0) ((goOf ((tProg tMove (leBytes 8 0x1234)).begin 511 .move)).thread 511)
     tMove)).1.getD 0 (none, 0, 0)), ((got ([], []) (moveItems ((goOf ((tProg tMove (leBytes 8 0x1234)).begin 511
     .move)).listed 511 .move tMove) (((goOf ((tProg tMove (leBytes 8 0x1234)).begin 511 .move)).listed 511 .move
     tMove).ctx 0) ((goOf ((tProg tMove (leBytes 8 0x1234)).begin 511 .move)).thread 511) tMove)).2.getD 0 (none, 0,
     0)), got [] (((goOf ((tProg tMove (leBytes 8 0x1234)).begin 511 .move)).listed 511 .move tMove).readVirt (((goOf
     ((tProg tMove (leBytes 8 0x1234)).begin 511 .move)).listed 511 .move tMove).ctx 0) 0x20000 8), (((goOf ((tProg
     tMove (leBytes 8 0x1234)).begin 511 .move)).listed 511 .move tMove).ctx 0), tProg tMove (leBytes 8 0x1234), goOf
     ((tProg tMove (leBytes 8 0x1234)).begin 511 .move), ((goOf ((tProg tMove (leBytes 8 0x1234)).begin 511
     .move)).listed 511 .move tMove), got State.reset (((goOf ((tProg tMove (leBytes 8 0x1234)).begin 511
     .move)).listed 511 .move tMove).writeVirt (((goOf ((tProg tMove (leBytes 8 0x1234)).begin 511 .move)).listed 511
     .move tMove).ctx 0) 0x21000 (got [] (((goOf ((tProg tMove (leBytes 8 0x1234)).begin 511 .move)).listed 511 .move
     tMove).readVirt (((goOf ((tProg tMove (leBytes 8 0x1234)).begin 511 .move)).listed 511 .move tMove).ctx 0)
     0x20000 8))), goes_spec (by decide +kernel), by decide +kernel, rfl, rfl, rfl, rfl, by decide +kernel, by rfl,
     by decide +kernel, by decide +kernel, rfl, rfl, got_spec (by decide +kernel), got_spec (by decide +kernel)⟩,
   ⟨511, tGather, (got 9 (gatherIndex ((goOf ((tProg tGather []).begin 511 .gather)).listed 511 .gather tGather)
     (((goOf ((tProg tGather []).begin 511 .gather)).listed 511 .gather tGather).ctx 0) ((got [] (streamItems ((goOf
     ((tProg tGather []).begin 511 .gather)).listed 511 .gather tGather) (((goOf ((tProg tGather []).begin 511
     .gather)).listed 511 .gather tGather).ctx 0) ((goOf ((tProg tGather []).begin 511 .gather)).thread 511) (gaIdx
     tGather) 4 4 1 false)).getD 0 (none, 0, 0)))), ((got [] (streamItems ((goOf ((tProg tGather []).begin 511
     .gather)).listed 511 .gather tGather) (((goOf ((tProg tGather []).begin 511 .gather)).listed 511 .gather
     tGather).ctx 0) ((goOf ((tProg tGather []).begin 511 .gather)).thread 511) (gaIdx tGather) 4 4 1 false)).getD 0
     (none, 0, 0)), ((got [] (streamItems ((goOf ((tProg tGather []).begin 511 .gather)).listed 511 .gather tGather)
     (((goOf ((tProg tGather []).begin 511 .gather)).listed 511 .gather tGather).ctx 0) ((goOf ((tProg tGather
     []).begin 511 .gather)).thread 511) (gaDst tGather) (gaRowbytes tGather) (itemAlign (gaRowbytes tGather)) 1
     false)).getD 0 (none, 0, 0)), (got [] (gatherRow ((goOf ((tProg tGather []).begin 511 .gather)).listed 511
     .gather tGather) (((goOf ((tProg tGather []).begin 511 .gather)).listed 511 .gather tGather).ctx 0) tGather (got
     9 (gatherIndex ((goOf ((tProg tGather []).begin 511 .gather)).listed 511 .gather tGather) (((goOf ((tProg
     tGather []).begin 511 .gather)).listed 511 .gather tGather).ctx 0) ((got [] (streamItems ((goOf ((tProg tGather
     []).begin 511 .gather)).listed 511 .gather tGather) (((goOf ((tProg tGather []).begin 511 .gather)).listed 511
     .gather tGather).ctx 0) ((goOf ((tProg tGather []).begin 511 .gather)).thread 511) (gaIdx tGather) 4 4 1
     false)).getD 0 (none, 0, 0)))))), (((goOf ((tProg tGather []).begin 511 .gather)).listed 511 .gather
     tGather).ctx 0), tProg tGather [], goOf ((tProg tGather []).begin 511 .gather), ((goOf ((tProg tGather []).begin
     511 .gather)).listed 511 .gather tGather), got State.reset (writeItem ((goOf ((tProg tGather []).begin 511
     .gather)).listed 511 .gather tGather) (((goOf ((tProg tGather []).begin 511 .gather)).listed 511 .gather
     tGather).ctx 0) ((got [] (streamItems ((goOf ((tProg tGather []).begin 511 .gather)).listed 511 .gather tGather)
     (((goOf ((tProg tGather []).begin 511 .gather)).listed 511 .gather tGather).ctx 0) ((goOf ((tProg tGather
     []).begin 511 .gather)).thread 511) (gaDst tGather) (gaRowbytes tGather) (itemAlign (gaRowbytes tGather)) 1
     false)).getD 0 (none, 0, 0)) (got [] (gatherRow ((goOf ((tProg tGather []).begin 511 .gather)).listed 511
     .gather tGather) (((goOf ((tProg tGather []).begin 511 .gather)).listed 511 .gather tGather).ctx 0) tGather (got
     9 (gatherIndex ((goOf ((tProg tGather []).begin 511 .gather)).listed 511 .gather tGather) (((goOf ((tProg
     tGather []).begin 511 .gather)).listed 511 .gather tGather).ctx 0) ((got [] (streamItems ((goOf ((tProg tGather
     []).begin 511 .gather)).listed 511 .gather tGather) (((goOf ((tProg tGather []).begin 511 .gather)).listed 511
     .gather tGather).ctx 0) ((goOf ((tProg tGather []).begin 511 .gather)).thread 511) (gaIdx tGather) 4 4 1
     false)).getD 0 (none, 0, 0))))))), goes_spec (by decide +kernel), rfl, rfl, rfl, by rfl, by rfl, rfl, by rfl,
     got_spec (by decide +kernel), got_spec (by decide +kernel), got_spec (by decide +kernel), by decide +kernel⟩,
   ⟨511, tParam 5, 1, 2, 1, 4, 0x20200, 0x20400, 0x20500, (got [] (readRecord ((goOf ((tProg (tParam 5)
     tRouteRec).begin 511 .route)).listed 511 .route (tParam 5)) (((goOf ((tProg (tParam 5) tRouteRec).begin 511
     .route)).listed 511 .route (tParam 5)).ctx 0) (tParam 5) 50)), (got [] (readFps ((goOf ((tProg (tParam 5)
     tRouteRec).begin 511 .route)).listed 511 .route (tParam 5)) (((goOf ((tProg (tParam 5) tRouteRec).begin 511
     .route)).listed 511 .route (tParam 5)).ctx 0) (recNat (got [] (readRecord ((goOf ((tProg (tParam 5)
     tRouteRec).begin 511 .route)).listed 511 .route (tParam 5)) (((goOf ((tProg (tParam 5) tRouteRec).begin 511
     .route)).listed 511 .route (tParam 5)).ctx 0) (tParam 5) 50)) 0 8) (1 * 2))), ((upTo 1).map fun i => choices 1
     false ((((got [] (readFps ((goOf ((tProg (tParam 5) tRouteRec).begin 511 .route)).listed 511 .route (tParam 5))
     (((goOf ((tProg (tParam 5) tRouteRec).begin 511 .route)).listed 511 .route (tParam 5)).ctx 0) (recNat (got []
     (readRecord ((goOf ((tProg (tParam 5) tRouteRec).begin 511 .route)).listed 511 .route (tParam 5)) (((goOf
     ((tProg (tParam 5) tRouteRec).begin 511 .route)).listed 511 .route (tParam 5)).ctx 0) (tParam 5) 50)) 0 8) (1 *
     2))).drop (i * 2)).take 2).map f32) []), (assignAll 4 1 ((upTo 1).map fun i => choices 1 false ((((got []
     (readFps ((goOf ((tProg (tParam 5) tRouteRec).begin 511 .route)).listed 511 .route (tParam 5)) (((goOf ((tProg
     (tParam 5) tRouteRec).begin 511 .route)).listed 511 .route (tParam 5)).ctx 0) (recNat (got [] (readRecord ((goOf
     ((tProg (tParam 5) tRouteRec).begin 511 .route)).listed 511 .route (tParam 5)) (((goOf ((tProg (tParam 5)
     tRouteRec).begin 511 .route)).listed 511 .route (tParam 5)).ctx 0) (tParam 5) 50)) 0 8) (1 * 2))).drop (i *
     2)).take 2).map f32) [])), (((goOf ((tProg (tParam 5) tRouteRec).begin 511 .route)).listed 511 .route (tParam
     5)).ctx 0), tProg (tParam 5) tRouteRec, goOf ((tProg (tParam 5) tRouteRec).begin 511 .route), ((goOf ((tProg
     (tParam 5) tRouteRec).begin 511 .route)).listed 511 .route (tParam 5)), okOf (foldRun (fun r i => orFault r
     (r.writeVirt (((goOf ((tProg (tParam 5) tRouteRec).begin 511 .route)).listed 511 .route (tParam 5)).ctx 0)
     (0x20200 + 64 * i) (routeRecord (assignAll 4 1 ((upTo 1).map fun i => choices 1 false ((((got [] (readFps ((goOf
     ((tProg (tParam 5) tRouteRec).begin 511 .route)).listed 511 .route (tParam 5)) (((goOf ((tProg (tParam 5)
     tRouteRec).begin 511 .route)).listed 511 .route (tParam 5)).ctx 0) (recNat (got [] (readRecord ((goOf ((tProg
     (tParam 5) tRouteRec).begin 511 .route)).listed 511 .route (tParam 5)) (((goOf ((tProg (tParam 5)
     tRouteRec).begin 511 .route)).listed 511 .route (tParam 5)).ctx 0) (tParam 5) 50)) 0 8) (1 * 2))).drop (i *
     2)).take 2).map f32) [])) i (((upTo 1).map fun i => choices 1 false ((((got [] (readFps ((goOf ((tProg (tParam
     5) tRouteRec).begin 511 .route)).listed 511 .route (tParam 5)) (((goOf ((tProg (tParam 5) tRouteRec).begin 511
     .route)).listed 511 .route (tParam 5)).ctx 0) (recNat (got [] (readRecord ((goOf ((tProg (tParam 5)
     tRouteRec).begin 511 .route)).listed 511 .route (tParam 5)) (((goOf ((tProg (tParam 5) tRouteRec).begin 511
     .route)).listed 511 .route (tParam 5)).ctx 0) (tParam 5) 50)) 0 8) (1 * 2))).drop (i * 2)).take 2).map f32)
     []).getD i [])))) (upTo 1) ((goOf ((tProg (tParam 5) tRouteRec).begin 511 .route)).listed 511 .route (tParam
     5))), okOf (foldRun (fun r (z : Nat × Nat × Nat × Nat) => orFault r (r.writeVirt (((goOf ((tProg (tParam 5)
     tRouteRec).begin 511 .route)).listed 511 .route (tParam 5)).ctx 0) (0x20400 + 4 * (4 * z.1 + z.2.1)) (leBytes 4
     (z.2.2.1 * 2 ^ 29 + z.2.2.2)))) (assignAll 4 1 ((upTo 1).map fun i => choices 1 false ((((got [] (readFps ((goOf
     ((tProg (tParam 5) tRouteRec).begin 511 .route)).listed 511 .route (tParam 5)) (((goOf ((tProg (tParam 5)
     tRouteRec).begin 511 .route)).listed 511 .route (tParam 5)).ctx 0) (recNat (got [] (readRecord ((goOf ((tProg
     (tParam 5) tRouteRec).begin 511 .route)).listed 511 .route (tParam 5)) (((goOf ((tProg (tParam 5)
     tRouteRec).begin 511 .route)).listed 511 .route (tParam 5)).ctx 0) (tParam 5) 50)) 0 8) (1 * 2))).drop (i *
     2)).take 2).map f32) [])).entries (okOf (foldRun (fun r i => orFault r (r.writeVirt (((goOf ((tProg (tParam 5)
     tRouteRec).begin 511 .route)).listed 511 .route (tParam 5)).ctx 0) (0x20200 + 64 * i) (routeRecord (assignAll 4
     1 ((upTo 1).map fun i => choices 1 false ((((got [] (readFps ((goOf ((tProg (tParam 5) tRouteRec).begin 511
     .route)).listed 511 .route (tParam 5)) (((goOf ((tProg (tParam 5) tRouteRec).begin 511 .route)).listed 511
     .route (tParam 5)).ctx 0) (recNat (got [] (readRecord ((goOf ((tProg (tParam 5) tRouteRec).begin 511
     .route)).listed 511 .route (tParam 5)) (((goOf ((tProg (tParam 5) tRouteRec).begin 511 .route)).listed 511
     .route (tParam 5)).ctx 0) (tParam 5) 50)) 0 8) (1 * 2))).drop (i * 2)).take 2).map f32) [])) i (((upTo 1).map
     fun i => choices 1 false ((((got [] (readFps ((goOf ((tProg (tParam 5) tRouteRec).begin 511 .route)).listed 511
     .route (tParam 5)) (((goOf ((tProg (tParam 5) tRouteRec).begin 511 .route)).listed 511 .route (tParam 5)).ctx 0)
     (recNat (got [] (readRecord ((goOf ((tProg (tParam 5) tRouteRec).begin 511 .route)).listed 511 .route (tParam
     5)) (((goOf ((tProg (tParam 5) tRouteRec).begin 511 .route)).listed 511 .route (tParam 5)).ctx 0) (tParam 5)
     50)) 0 8) (1 * 2))).drop (i * 2)).take 2).map f32) []).getD i [])))) (upTo 1) ((goOf ((tProg (tParam 5)
     tRouteRec).begin 511 .route)).listed 511 .route (tParam 5))))), okOf (foldRun (fun r i => orFault r (r.writeVirt
     (((goOf ((tProg (tParam 5) tRouteRec).begin 511 .route)).listed 511 .route (tParam 5)).ctx 0) (0x20500 + 4 * i)
     (leBytes 4 (min (tget 0 (assignAll 4 1 ((upTo 1).map fun i => choices 1 false ((((got [] (readFps ((goOf ((tProg
     (tParam 5) tRouteRec).begin 511 .route)).listed 511 .route (tParam 5)) (((goOf ((tProg (tParam 5)
     tRouteRec).begin 511 .route)).listed 511 .route (tParam 5)).ctx 0) (recNat (got [] (readRecord ((goOf ((tProg
     (tParam 5) tRouteRec).begin 511 .route)).listed 511 .route (tParam 5)) (((goOf ((tProg (tParam 5)
     tRouteRec).begin 511 .route)).listed 511 .route (tParam 5)).ctx 0) (tParam 5) 50)) 0 8) (1 * 2))).drop (i *
     2)).take 2).map f32) [])).drops i) 0xFFFF * 2 ^ 16 + tget 0 (assignAll 4 1 ((upTo 1).map fun i => choices 1
     false ((((got [] (readFps ((goOf ((tProg (tParam 5) tRouteRec).begin 511 .route)).listed 511 .route (tParam 5))
     (((goOf ((tProg (tParam 5) tRouteRec).begin 511 .route)).listed 511 .route (tParam 5)).ctx 0) (recNat (got []
     (readRecord ((goOf ((tProg (tParam 5) tRouteRec).begin 511 .route)).listed 511 .route (tParam 5)) (((goOf
     ((tProg (tParam 5) tRouteRec).begin 511 .route)).listed 511 .route (tParam 5)).ctx 0) (tParam 5) 50)) 0 8) (1 *
     2))).drop (i * 2)).take 2).map f32) [])).counts i)))) (upTo 2) (okOf (foldRun (fun r (z : Nat × Nat × Nat × Nat)
     => orFault r (r.writeVirt (((goOf ((tProg (tParam 5) tRouteRec).begin 511 .route)).listed 511 .route (tParam
     5)).ctx 0) (0x20400 + 4 * (4 * z.1 + z.2.1)) (leBytes 4 (z.2.2.1 * 2 ^ 29 + z.2.2.2)))) (assignAll 4 1 ((upTo
     1).map fun i => choices 1 false ((((got [] (readFps ((goOf ((tProg (tParam 5) tRouteRec).begin 511
     .route)).listed 511 .route (tParam 5)) (((goOf ((tProg (tParam 5) tRouteRec).begin 511 .route)).listed 511
     .route (tParam 5)).ctx 0) (recNat (got [] (readRecord ((goOf ((tProg (tParam 5) tRouteRec).begin 511
     .route)).listed 511 .route (tParam 5)) (((goOf ((tProg (tParam 5) tRouteRec).begin 511 .route)).listed 511
     .route (tParam 5)).ctx 0) (tParam 5) 50)) 0 8) (1 * 2))).drop (i * 2)).take 2).map f32) [])).entries (okOf
     (foldRun (fun r i => orFault r (r.writeVirt (((goOf ((tProg (tParam 5) tRouteRec).begin 511 .route)).listed 511
     .route (tParam 5)).ctx 0) (0x20200 + 64 * i) (routeRecord (assignAll 4 1 ((upTo 1).map fun i => choices 1 false
     ((((got [] (readFps ((goOf ((tProg (tParam 5) tRouteRec).begin 511 .route)).listed 511 .route (tParam 5))
     (((goOf ((tProg (tParam 5) tRouteRec).begin 511 .route)).listed 511 .route (tParam 5)).ctx 0) (recNat (got []
     (readRecord ((goOf ((tProg (tParam 5) tRouteRec).begin 511 .route)).listed 511 .route (tParam 5)) (((goOf
     ((tProg (tParam 5) tRouteRec).begin 511 .route)).listed 511 .route (tParam 5)).ctx 0) (tParam 5) 50)) 0 8) (1 *
     2))).drop (i * 2)).take 2).map f32) [])) i (((upTo 1).map fun i => choices 1 false ((((got [] (readFps ((goOf
     ((tProg (tParam 5) tRouteRec).begin 511 .route)).listed 511 .route (tParam 5)) (((goOf ((tProg (tParam 5)
     tRouteRec).begin 511 .route)).listed 511 .route (tParam 5)).ctx 0) (recNat (got [] (readRecord ((goOf ((tProg
     (tParam 5) tRouteRec).begin 511 .route)).listed 511 .route (tParam 5)) (((goOf ((tProg (tParam 5)
     tRouteRec).begin 511 .route)).listed 511 .route (tParam 5)).ctx 0) (tParam 5) 50)) 0 8) (1 * 2))).drop (i *
     2)).take 2).map f32) []).getD i [])))) (upTo 1) ((goOf ((tProg (tParam 5) tRouteRec).begin 511 .route)).listed
     511 .route (tParam 5))))))), goes_spec (by decide +kernel), rfl, rfl, got_spec (by decide +kernel), and_five
     (by decide +kernel) (and_five (by decide +kernel) (and_five (by decide +kernel) ⟨by decide +kernel,
     by decide +kernel, by decide +kernel, by decide +kernel, got_spec (by decide +kernel), rfl, rfl,
     isOk_spec (by decide +kernel), isOk_spec (by decide +kernel), isOk_spec (by decide +kernel)⟩))⟩,
   ⟨511, tParam 6, 1, 4, (got [] (readRecord ((goOf ((tProg (tParam 6) tExitRec).begin 511 .exit)).listed 511 .exit
     (tParam 6)) (((goOf ((tProg (tParam 6) tExitRec).begin 511 .exit)).listed 511 .exit (tParam 6)).ctx 0) (tParam
     6) 57)), (got [] (((goOf ((tProg (tParam 6) tExitRec).begin 511 .exit)).listed 511 .exit (tParam 6)).readVirt
     (((goOf ((tProg (tParam 6) tExitRec).begin 511 .exit)).listed 511 .exit (tParam 6)).ctx 0) (recNat (got []
     (readRecord ((goOf ((tProg (tParam 6) tExitRec).begin 511 .exit)).listed 511 .exit (tParam 6)) (((goOf ((tProg
     (tParam 6) tExitRec).begin 511 .exit)).listed 511 .exit (tParam 6)).ctx 0) (tParam 6) 57)) 0 8) 8)), (exitGot
     (exitAll (exitOf (((goOf ((tProg (tParam 6) tExitRec).begin 511 .exit)).listed 511 .exit (tParam 6)).ctx 0) (got
     [] (readRecord ((goOf ((tProg (tParam 6) tExitRec).begin 511 .exit)).listed 511 .exit (tParam 6)) (((goOf
     ((tProg (tParam 6) tExitRec).begin 511 .exit)).listed 511 .exit (tParam 6)).ctx 0) (tParam 6) 57)) (got []
     (((goOf ((tProg (tParam 6) tExitRec).begin 511 .exit)).listed 511 .exit (tParam 6)).readVirt (((goOf ((tProg
     (tParam 6) tExitRec).begin 511 .exit)).listed 511 .exit (tParam 6)).ctx 0) (recNat (got [] (readRecord ((goOf
     ((tProg (tParam 6) tExitRec).begin 511 .exit)).listed 511 .exit (tParam 6)) (((goOf ((tProg (tParam 6)
     tExitRec).begin 511 .exit)).listed 511 .exit (tParam 6)).ctx 0) (tParam 6) 57)) 0 8) 8))) (upTo 1) (((goOf
     ((tProg (tParam 6) tExitRec).begin 511 .exit)).listed 511 .exit (tParam 6)), []))).2, (exitOf (((goOf ((tProg
     (tParam 6) tExitRec).begin 511 .exit)).listed 511 .exit (tParam 6)).ctx 0) (got [] (readRecord ((goOf ((tProg
     (tParam 6) tExitRec).begin 511 .exit)).listed 511 .exit (tParam 6)) (((goOf ((tProg (tParam 6) tExitRec).begin
     511 .exit)).listed 511 .exit (tParam 6)).ctx 0) (tParam 6) 57)) (got [] (((goOf ((tProg (tParam 6)
     tExitRec).begin 511 .exit)).listed 511 .exit (tParam 6)).readVirt (((goOf ((tProg (tParam 6) tExitRec).begin 511
     .exit)).listed 511 .exit (tParam 6)).ctx 0) (recNat (got [] (readRecord ((goOf ((tProg (tParam 6)
     tExitRec).begin 511 .exit)).listed 511 .exit (tParam 6)) (((goOf ((tProg (tParam 6) tExitRec).begin 511
     .exit)).listed 511 .exit (tParam 6)).ctx 0) (tParam 6) 57)) 0 8) 8))), (((goOf ((tProg (tParam 6)
     tExitRec).begin 511 .exit)).listed 511 .exit (tParam 6)).ctx 0), tProg (tParam 6) tExitRec, goOf ((tProg (tParam
     6) tExitRec).begin 511 .exit), ((goOf ((tProg (tParam 6) tExitRec).begin 511 .exit)).listed 511 .exit (tParam
     6)), (exitGot (exitAll (exitOf (((goOf ((tProg (tParam 6) tExitRec).begin 511 .exit)).listed 511 .exit (tParam
     6)).ctx 0) (got [] (readRecord ((goOf ((tProg (tParam 6) tExitRec).begin 511 .exit)).listed 511 .exit (tParam
     6)) (((goOf ((tProg (tParam 6) tExitRec).begin 511 .exit)).listed 511 .exit (tParam 6)).ctx 0) (tParam 6) 57))
     (got [] (((goOf ((tProg (tParam 6) tExitRec).begin 511 .exit)).listed 511 .exit (tParam 6)).readVirt (((goOf
     ((tProg (tParam 6) tExitRec).begin 511 .exit)).listed 511 .exit (tParam 6)).ctx 0) (recNat (got [] (readRecord
     ((goOf ((tProg (tParam 6) tExitRec).begin 511 .exit)).listed 511 .exit (tParam 6)) (((goOf ((tProg (tParam 6)
     tExitRec).begin 511 .exit)).listed 511 .exit (tParam 6)).ctx 0) (tParam 6) 57)) 0 8) 8))) (upTo 1) (((goOf
     ((tProg (tParam 6) tExitRec).begin 511 .exit)).listed 511 .exit (tParam 6)), []))).1, got State.reset ((exitGot
     (exitAll (exitOf (((goOf ((tProg (tParam 6) tExitRec).begin 511 .exit)).listed 511 .exit (tParam 6)).ctx 0) (got
     [] (readRecord ((goOf ((tProg (tParam 6) tExitRec).begin 511 .exit)).listed 511 .exit (tParam 6)) (((goOf
     ((tProg (tParam 6) tExitRec).begin 511 .exit)).listed 511 .exit (tParam 6)).ctx 0) (tParam 6) 57)) (got []
     (((goOf ((tProg (tParam 6) tExitRec).begin 511 .exit)).listed 511 .exit (tParam 6)).readVirt (((goOf ((tProg
     (tParam 6) tExitRec).begin 511 .exit)).listed 511 .exit (tParam 6)).ctx 0) (recNat (got [] (readRecord ((goOf
     ((tProg (tParam 6) tExitRec).begin 511 .exit)).listed 511 .exit (tParam 6)) (((goOf ((tProg (tParam 6)
     tExitRec).begin 511 .exit)).listed 511 .exit (tParam 6)).ctx 0) (tParam 6) 57)) 0 8) 8))) (upTo 1) (((goOf
     ((tProg (tParam 6) tExitRec).begin 511 .exit)).listed 511 .exit (tParam 6)), []))).1.writeVirt (((goOf ((tProg
     (tParam 6) tExitRec).begin 511 .exit)).listed 511 .exit (tParam 6)).ctx 0) (recNat (got [] (readRecord ((goOf
     ((tProg (tParam 6) tExitRec).begin 511 .exit)).listed 511 .exit (tParam 6)) (((goOf ((tProg (tParam 6)
     tExitRec).begin 511 .exit)).listed 511 .exit (tParam 6)).ctx 0) (tParam 6) 57)) 40 8) (listBytes 4 (exitGot
     (exitAll (exitOf (((goOf ((tProg (tParam 6) tExitRec).begin 511 .exit)).listed 511 .exit (tParam 6)).ctx 0) (got
     [] (readRecord ((goOf ((tProg (tParam 6) tExitRec).begin 511 .exit)).listed 511 .exit (tParam 6)) (((goOf
     ((tProg (tParam 6) tExitRec).begin 511 .exit)).listed 511 .exit (tParam 6)).ctx 0) (tParam 6) 57)) (got []
     (((goOf ((tProg (tParam 6) tExitRec).begin 511 .exit)).listed 511 .exit (tParam 6)).readVirt (((goOf ((tProg
     (tParam 6) tExitRec).begin 511 .exit)).listed 511 .exit (tParam 6)).ctx 0) (recNat (got [] (readRecord ((goOf
     ((tProg (tParam 6) tExitRec).begin 511 .exit)).listed 511 .exit (tParam 6)) (((goOf ((tProg (tParam 6)
     tExitRec).begin 511 .exit)).listed 511 .exit (tParam 6)).ctx 0) (tParam 6) 57)) 0 8) 8))) (upTo 1) (((goOf
     ((tProg (tParam 6) tExitRec).begin 511 .exit)).listed 511 .exit (tParam 6)), []))).2)),
     goes_spec (by decide +kernel), rfl, rfl, got_spec (by decide +kernel), and_five (by decide +kernel)
     ⟨by decide +kernel, got_spec (by decide +kernel), by decide +kernel, by decide +kernel, by decide +kernel,
     by decide +kernel, rfl, exits_spec (by decide +kernel), got_spec (by decide +kernel)⟩⟩,
   ⟨511, tParam 7, 1, 1, 0, (got [] (readRecord ((goOf ((tProg (tParam 7) tGateRec).begin 511 .gate)).listed 511
     .gate (tParam 7)) (((goOf ((tProg (tParam 7) tGateRec).begin 511 .gate)).listed 511 .gate (tParam 7)).ctx 0)
     (tParam 7) 40)), (got [] (readFps ((goOf ((tProg (tParam 7) tGateRec).begin 511 .gate)).listed 511 .gate (tParam
     7)) (((goOf ((tProg (tParam 7) tGateRec).begin 511 .gate)).listed 511 .gate (tParam 7)).ctx 0) (recNat (got []
     (readRecord ((goOf ((tProg (tParam 7) tGateRec).begin 511 .gate)).listed 511 .gate (tParam 7)) (((goOf ((tProg
     (tParam 7) tGateRec).begin 511 .gate)).listed 511 .gate (tParam 7)).ctx 0) (tParam 7) 40)) 0 8) 1)), (gatePass 1
     1 (recNat (got [] (readRecord ((goOf ((tProg (tParam 7) tGateRec).begin 511 .gate)).listed 511 .gate (tParam 7))
     (((goOf ((tProg (tParam 7) tGateRec).begin 511 .gate)).listed 511 .gate (tParam 7)).ctx 0) (tParam 7) 40)) 30 1
     == 1) (got [] (readFps ((goOf ((tProg (tParam 7) tGateRec).begin 511 .gate)).listed 511 .gate (tParam 7))
     (((goOf ((tProg (tParam 7) tGateRec).begin 511 .gate)).listed 511 .gate (tParam 7)).ctx 0) (recNat (got []
     (readRecord ((goOf ((tProg (tParam 7) tGateRec).begin 511 .gate)).listed 511 .gate (tParam 7)) (((goOf ((tProg
     (tParam 7) tGateRec).begin 511 .gate)).listed 511 .gate (tParam 7)).ctx 0) (tParam 7) 40)) 0 8) 1)) (recNat (got
     [] (readRecord ((goOf ((tProg (tParam 7) tGateRec).begin 511 .gate)).listed 511 .gate (tParam 7)) (((goOf
     ((tProg (tParam 7) tGateRec).begin 511 .gate)).listed 511 .gate (tParam 7)).ctx 0) (tParam 7) 40)) 32 4)),
     (((goOf ((tProg (tParam 7) tGateRec).begin 511 .gate)).listed 511 .gate (tParam 7)).ctx 0), tProg (tParam 7)
     tGateRec, goOf ((tProg (tParam 7) tGateRec).begin 511 .gate), ((goOf ((tProg (tParam 7) tGateRec).begin 511
     .gate)).listed 511 .gate (tParam 7)), got State.reset (((goOf ((tProg (tParam 7) tGateRec).begin 511
     .gate)).listed 511 .gate (tParam 7)).writeVirt (((goOf ((tProg (tParam 7) tGateRec).begin 511 .gate)).listed 511
     .gate (tParam 7)).ctx 0) (recNat (got [] (readRecord ((goOf ((tProg (tParam 7) tGateRec).begin 511
     .gate)).listed 511 .gate (tParam 7)) (((goOf ((tProg (tParam 7) tGateRec).begin 511 .gate)).listed 511 .gate
     (tParam 7)).ctx 0) (tParam 7) 40)) 8 8) (maskBytes 1 (gatePass 1 1 (recNat (got [] (readRecord ((goOf ((tProg
     (tParam 7) tGateRec).begin 511 .gate)).listed 511 .gate (tParam 7)) (((goOf ((tProg (tParam 7) tGateRec).begin
     511 .gate)).listed 511 .gate (tParam 7)).ctx 0) (tParam 7) 40)) 30 1 == 1) (got [] (readFps ((goOf ((tProg
     (tParam 7) tGateRec).begin 511 .gate)).listed 511 .gate (tParam 7)) (((goOf ((tProg (tParam 7) tGateRec).begin
     511 .gate)).listed 511 .gate (tParam 7)).ctx 0) (recNat (got [] (readRecord ((goOf ((tProg (tParam 7)
     tGateRec).begin 511 .gate)).listed 511 .gate (tParam 7)) (((goOf ((tProg (tParam 7) tGateRec).begin 511
     .gate)).listed 511 .gate (tParam 7)).ctx 0) (tParam 7) 40)) 0 8) 1)) (recNat (got [] (readRecord ((goOf ((tProg
     (tParam 7) tGateRec).begin 511 .gate)).listed 511 .gate (tParam 7)) (((goOf ((tProg (tParam 7) tGateRec).begin
     511 .gate)).listed 511 .gate (tParam 7)).ctx 0) (tParam 7) 40)) 32 4)))), got State.reset ((got State.reset
     (((goOf ((tProg (tParam 7) tGateRec).begin 511 .gate)).listed 511 .gate (tParam 7)).writeVirt (((goOf ((tProg
     (tParam 7) tGateRec).begin 511 .gate)).listed 511 .gate (tParam 7)).ctx 0) (recNat (got [] (readRecord ((goOf
     ((tProg (tParam 7) tGateRec).begin 511 .gate)).listed 511 .gate (tParam 7)) (((goOf ((tProg (tParam 7)
     tGateRec).begin 511 .gate)).listed 511 .gate (tParam 7)).ctx 0) (tParam 7) 40)) 8 8) (maskBytes 1 (gatePass 1 1
     (recNat (got [] (readRecord ((goOf ((tProg (tParam 7) tGateRec).begin 511 .gate)).listed 511 .gate (tParam 7))
     (((goOf ((tProg (tParam 7) tGateRec).begin 511 .gate)).listed 511 .gate (tParam 7)).ctx 0) (tParam 7) 40)) 30 1
     == 1) (got [] (readFps ((goOf ((tProg (tParam 7) tGateRec).begin 511 .gate)).listed 511 .gate (tParam 7))
     (((goOf ((tProg (tParam 7) tGateRec).begin 511 .gate)).listed 511 .gate (tParam 7)).ctx 0) (recNat (got []
     (readRecord ((goOf ((tProg (tParam 7) tGateRec).begin 511 .gate)).listed 511 .gate (tParam 7)) (((goOf ((tProg
     (tParam 7) tGateRec).begin 511 .gate)).listed 511 .gate (tParam 7)).ctx 0) (tParam 7) 40)) 0 8) 1)) (recNat (got
     [] (readRecord ((goOf ((tProg (tParam 7) tGateRec).begin 511 .gate)).listed 511 .gate (tParam 7)) (((goOf
     ((tProg (tParam 7) tGateRec).begin 511 .gate)).listed 511 .gate (tParam 7)).ctx 0) (tParam 7) 40)) 32
     4))))).writeVirt (((goOf ((tProg (tParam 7) tGateRec).begin 511 .gate)).listed 511 .gate (tParam 7)).ctx 0)
     (recNat (got [] (readRecord ((goOf ((tProg (tParam 7) tGateRec).begin 511 .gate)).listed 511 .gate (tParam 7))
     (((goOf ((tProg (tParam 7) tGateRec).begin 511 .gate)).listed 511 .gate (tParam 7)).ctx 0) (tParam 7) 40)) 16 8)
     (listBytes 1 (gatePass 1 1 (recNat (got [] (readRecord ((goOf ((tProg (tParam 7) tGateRec).begin 511
     .gate)).listed 511 .gate (tParam 7)) (((goOf ((tProg (tParam 7) tGateRec).begin 511 .gate)).listed 511 .gate
     (tParam 7)).ctx 0) (tParam 7) 40)) 30 1 == 1) (got [] (readFps ((goOf ((tProg (tParam 7) tGateRec).begin 511
     .gate)).listed 511 .gate (tParam 7)) (((goOf ((tProg (tParam 7) tGateRec).begin 511 .gate)).listed 511 .gate
     (tParam 7)).ctx 0) (recNat (got [] (readRecord ((goOf ((tProg (tParam 7) tGateRec).begin 511 .gate)).listed 511
     .gate (tParam 7)) (((goOf ((tProg (tParam 7) tGateRec).begin 511 .gate)).listed 511 .gate (tParam 7)).ctx 0)
     (tParam 7) 40)) 0 8) 1)) (recNat (got [] (readRecord ((goOf ((tProg (tParam 7) tGateRec).begin 511
     .gate)).listed 511 .gate (tParam 7)) (((goOf ((tProg (tParam 7) tGateRec).begin 511 .gate)).listed 511 .gate
     (tParam 7)).ctx 0) (tParam 7) 40)) 32 4)))), goes_spec (by decide +kernel), rfl, rfl,
     got_spec (by decide +kernel), and_five (by decide +kernel) (and_five (by decide +kernel) ⟨by decide +kernel,
     got_spec (by decide +kernel), rfl, got_spec (by decide +kernel), got_spec (by decide +kernel)⟩)⟩⟩

theorem witness_MatmulModeFence :
    (∃ (t : Fin 512) (w : Nat) (s : State) (s1 : State) (u : State), s.begin t .matmul = .go s1 w ∧ matmulEffect t
      (s1.listed t .matmul w) (s1.thread t) w (s1.uidOf t) = .ok u) ∧
    (∃ (t : Fin 512) (w : Nat) (s : State) (s1 : State), s.begin t .setmode = .go s1 w ∧ (s.thread t).pc + 1 <
      (s1.ctx (s1.thread t).ctx).nSteps) ∧
    (∃ (t : Fin 512) (w : Nat) (s : State) (s1 : State), s.begin t .fence = .go s1 w) ∧
    (∃ (t : Fin 512) (a : Active) (s : State), (s.thread t).steps.find? (fun a => opOf a.word.toNat == some .fence) =
      some a ∧ s.fenceHolds t (fnScope a.word.toNat) = true) ∧
    (∃ (t : Fin 512) (a : Active) (s : State), (s.thread t).steps.find? (fun a => opOf a.word.toNat == some .fence) =
      some a ∧ s.fenceHolds t (fnScope a.word.toNat) = false) ∧
    (∃ (t : Fin 512) (w : Nat) (n : Nat) (s : State) (s1 : State) (x : State), s.begin t .matmul = .go s1 w ∧ x =
      s1.listed t .matmul w ∧ MmInput x (s1.thread t) (s1.uidOf t) w n ∧ (s1.thread t).steps = [] ∧ (s1.lat (2 *
      threadBay t)).state = .dark ∧ (s1.lat (2 * threadBay t + 1)).state = .dark ∧ s1.poison = [] ∧ s1.wordErr = []) ∧
    (∃ (t : Fin 512) (w : Nat) (s : State) (s1 : State), s.begin t .fence = .go s1 w ∧ (∀ a ∈ (s1.thread t).steps,
      a.uid ≠ s1.uidOf t)) :=
  ⟨⟨511, 1, tStep 1, goOf ((tStep 1).begin 511 .matmul), okOf (matmulEffect 511 ((goOf ((tStep 1).begin 511
     .matmul)).listed 511 .matmul 1) ((goOf ((tStep 1).begin 511 .matmul)).thread 511) 1 ((goOf ((tStep 1).begin 511
     .matmul)).uidOf 511)), goes_spec (by decide +kernel), isOk_spec (by decide +kernel)⟩,
   ⟨511, 11, tStep 11, goOf ((tStep 11).begin 511 .setmode), goes_spec (by decide +kernel), by decide +kernel⟩,
   ⟨511, 10, tStep 10, goOf ((tStep 10).begin 511 .fence), goes_spec (by decide +kernel)⟩,
   ⟨511, tActive 0x2000A,
     { tOn with ctxs := [(0, { Ctx.reset with st := .running, nSteps := 2 })], threads := [(511, { Thread.reset with st := .stalled, steps := [tActive 0x2000A] })] },
     by decide +kernel⟩,
   ⟨511, tActive 0xA,
     { { tOn with threads := [(511, { Thread.reset with st := .ready, steps := [tActive 0xA] })] } with cxl := { tOn.cxl with held := [{ line := 0, addr := 0x48_0000_0000, op := .lost, thread := 512 }] } },
     by decide +kernel⟩,
   ⟨511, tMm, 1, tProg tMm [], goOf ((tProg tMm []).begin 511 .matmul), ((goOf ((tProg tMm []).begin 511
     .matmul)).listed 511 .matmul tMm), goes_spec (by decide +kernel), rfl, ⟨by decide, by decide, ⟨1, by rfl, by
     decide, by decide⟩, ⟨_, got_spec (d := []) (by decide +kernel)⟩, ⟨_, got_spec (d := []) (by decide +kernel)⟩,
     ⟨_, got_spec (d := []) (by decide +kernel)⟩⟩, by decide +kernel⟩,
   ⟨511, 10, tStep 10, goOf ((tStep 10).begin 511 .fence), goes_spec (by decide +kernel), by decide +kernel⟩⟩

theorem witness_SynchronisingSteps :
    (∃ (c : Instr) (t : Fin 512) (o : Op) (f : State → Thread → Nat → Except (Nat × State) State) (w : Nat) (s :
      State) (s1 : State) (u : State), InstantStep c t o s w f ∧ s.begin t o = .go s1 w ∧ f (s1.countIssue t)
      (s1.thread t) w = .ok u) ∧
    (∃ (c : Instr) (t : Fin 512) (o : Op) (f : State → Thread → Nat → Except (Nat × State) State) (w : Nat) (s :
      State) (s1 : State) (u : State), InstantStep c t o s w f ∧ s.begin t o = .go s1 w ∧ f (s1.countIssue t)
      (s1.thread t) w = .ok u) ∧
    (∃ (c : Instr) (t : Fin 512) (o : Op) (f : State → Thread → Nat → Except (Nat × State) State) (w : Nat) (s :
      State) (s1 : State) (u : State), InstantStep c t o s w f ∧ s.begin t o = .go s1 w ∧ f (s1.countIssue t)
      (s1.thread t) w = .ok u) ∧
    (∃ (c : Instr) (t : Fin 512) (o : Op) (f : State → Thread → Nat → Except (Nat × State) State) (w : Nat) (k : Nat)
      (s : State) (s1 : State) (u : State), InstantStep c t o s w f ∧ s.begin t o = .go s1 w ∧ f (s1.countIssue t)
      (s1.thread t) w = .error (k, u)) ∧
    (∃ (c : Instr) (t : Fin 512) (o : Op) (f : State → Thread → Nat → Except (Nat × State) State) (w : Nat) (k : Nat)
      (s : State) (s1 : State) (u : State), InstantStep c t o s w f ∧ s.begin t o = .go s1 w ∧ f (s1.countIssue t)
      (s1.thread t) w = .error (k, u)) ∧
    (∃ (t : Fin 512) (w : Waiting) (s : State), (s.thread t).wait = some w ∧ w.hit = true ∧ (s.thread t).st =
      .waiting ∧ (s.bay (threadBay t)).cache.contains (s.thread t).ctx = true ∧ (s.thread t).pc < (s.ctx (s.thread
      t).ctx).nSteps ∧ w.src = 0) ∧
    (∃ (t : Fin 512) (w : Waiting) (s : State), (s.thread t).wait = some w ∧ w.hit = true ∧ (s.thread t).st =
      .waiting ∧ (s.bay (threadBay t)).cache.contains (s.thread t).ctx = true ∧ (s.thread t).pc < (s.ctx (s.thread
      t).ctx).nSteps ∧ w.src = 0) ∧
    (∃ (t : Fin 512) (w : Waiting) (s : State), (s.thread t).wait = some w ∧ w.hit = false ∧ w.timeout ≠ 0 ∧
      s.takeDue t = none ∧ (s.bay (threadBay t)).cache.contains (s.thread t).ctx = true ∧ (s.thread t).pc < (s.ctx
      (s.thread t).ctx).nSteps) ∧
    (∃ (t : Fin 512) (w : Nat) (a : Nat) (e : SyncEntry) (s : State) (s1 : State), s.begin t .signal = .go s1 w ∧
      (s1.ctx (s1.thread t).ctx).syncOf (sgSid w) = some e ∧ e.sig = .own false a ∧ (s1.thread t).pend = [] ∧
      (s1.thread t).taken = [] ∧ sgN w ≠ 0 ∧ s1.readsBad a 8 = false ∧ s1.cxl.snoop = [] ∧ countOf (s1.readNat a 8) +
      sgN w < 2 ^ 61 ∧ (s1.thread t).pc + 1 < (s1.ctx (s1.thread t).ctx).nSteps) ∧
    (∃ (t : Fin 512) (w : Nat) (a : Nat) (h : Bool) (e : SyncEntry) (s : State) (s1 : State), s.begin t .wait = .go
      s1 w ∧ wtSrc w = 0 ∧ (s1.ctx (s1.thread t).ctx).syncOf (wtSid w) = some e ∧ e.sig = .own h a ∧ e.waitsIn
      (threadBay t) = true ∧ (h = false → s1.readsBad a 8 = false) ∧ (h = true → s1.injOn 5 = false) ∧ (s1.thread
      t).pc + 1 < (s1.ctx (s1.thread t).ctx).nSteps) ∧
    (∃ (t : Fin 512) (w : Nat) (a : Nat) (h : Bool) (e : SyncEntry) (s : State) (s1 : State), s.begin t .wait = .go
      s1 w ∧ wtSrc w = 0 ∧ (s1.ctx (s1.thread t).ctx).syncOf (wtSid w) = some e ∧ e.sig = .own h a ∧ e.waitsIn
      (threadBay t) = true ∧ (h = false → s1.readsBad a 8 = false) ∧ (h = true → s1.injOn 5 = false) ∧ (s1.thread
      t).pc + 1 < (s1.ctx (s1.thread t).ctx).nSteps) ∧
    (∃ (t : Fin 512) (w : Nat) (_k : LineCheck) (s : State) (s1 : State), s.begin t .branch = .go s1 w ∧ brCond w ≤ 4
      ∧ (s1.thread t).ctr.length = 4 ∧ (s1.thread t).pc + 1 < (s1.ctx (s1.thread t).ctx).nSteps ∧ brTarget w <
      (s1.ctx (s1.thread t).ctx).nSteps) ∧
    (∃ (t : Fin 512) (w : Nat) (_k : LineCheck) (s : State) (s1 : State), s.begin t .branch = .go s1 w ∧ brCond w ≤ 4
      ∧ (s1.thread t).ctr.length = 4 ∧ (s1.thread t).pc + 1 < (s1.ctx (s1.thread t).ctx).nSteps ∧ brTarget w <
      (s1.ctx (s1.thread t).ctx).nSteps) ∧
    (∃ (t : Fin 512) (w : Nat) (_k : LineCheck) (s : State) (s1 : State), s.begin t .branch = .go s1 w ∧ brCond w ≤ 4
      ∧ (s1.thread t).ctr.length = 4 ∧ (s1.thread t).pc + 1 < (s1.ctx (s1.thread t).ctx).nSteps ∧ brTarget w <
      (s1.ctx (s1.thread t).ctx).nSteps) ∧
    (∃ (t : Fin 512) (w : Nat) (_k : LineCheck) (s : State) (s1 : State), s.begin t .branch = .go s1 w ∧ brCond w ≤ 4
      ∧ (s1.thread t).ctr.length = 4 ∧ (s1.thread t).pc + 1 < (s1.ctx (s1.thread t).ctx).nSteps ∧ brTarget w <
      (s1.ctx (s1.thread t).ctx).nSteps) ∧
    (∃ (t : Fin 512) (w : Nat) (_k : LineCheck) (s : State) (s1 : State), s.begin t .branch = .go s1 w ∧ brCond w ≤ 4
      ∧ (s1.thread t).ctr.length = 4 ∧ (s1.thread t).pc + 1 < (s1.ctx (s1.thread t).ctx).nSteps ∧ brTarget w <
      (s1.ctx (s1.thread t).ctx).nSteps) ∧
    (∃ (t : Fin 512) (w : Nat) (_k : LineCheck) (s : State) (s1 : State), s.begin t .branch = .go s1 w ∧ brCond w = 5
      ∧ (s1.thread t).pend = [] ∧ (s1.thread t).taken = [] ∧ (s1.thread t).consumed ≤ (s1.ctx (s1.thread
      t).ctx).published) :=
  ⟨⟨.signal 511 .clean, 511, .signal, signalEffect 511 .clean, 8, tSync 8, goOf ((tSync 8).begin 511 .signal), okOf
     (signalEffect 511 .clean ((goOf ((tSync 8).begin 511 .signal)).countIssue 511) ((goOf ((tSync 8).begin 511
     .signal)).thread 511) 8), .inl ⟨.clean, rfl, rfl, rfl, by decide +kernel⟩, goes_spec (by decide +kernel),
     isOk_spec (by decide +kernel)⟩,
   ⟨.wait 511 .clean, 511, .wait, waitEffect 511 .clean, 9, tSync 9, goOf ((tSync 9).begin 511 .wait), okOf
     (waitEffect 511 .clean ((goOf ((tSync 9).begin 511 .wait)).countIssue 511) ((goOf ((tSync 9).begin 511
     .wait)).thread 511) 9), .inr (.inl ⟨.clean, rfl, rfl, rfl, by decide +kernel⟩), goes_spec (by decide +kernel),
     isOk_spec (by decide +kernel)⟩,
   ⟨.branch 511 .clean, 511, .branch, branchEffect 511 .clean, 12, tStep 12, goOf ((tStep 12).begin 511 .branch),
     okOf (branchEffect 511 .clean ((goOf ((tStep 12).begin 511 .branch)).countIssue 511) ((goOf ((tStep 12).begin
     511 .branch)).thread 511) 12), .inr (.inr ⟨.clean, rfl, rfl, rfl⟩), goes_spec (by decide +kernel),
     isOk_spec (by decide +kernel)⟩,
   ⟨.signal 511 .clean, 511, .signal, signalEffect 511 .clean, 8, 8, tStep 8, goOf ((tStep 8).begin 511 .signal),
     okOf (signalEffect 511 .clean ((goOf ((tStep 8).begin 511 .signal)).countIssue 511) ((goOf ((tStep 8).begin 511
     .signal)).thread 511) 8), .inl ⟨.clean, rfl, rfl, rfl, by decide +kernel⟩, goes_spec (by decide +kernel),
     isErr_spec (by decide +kernel)⟩,
   ⟨.wait 511 .clean, 511, .wait, waitEffect 511 .clean, 9, 8, tStep 9, goOf ((tStep 9).begin 511 .wait), okOf
     (waitEffect 511 .clean ((goOf ((tStep 9).begin 511 .wait)).countIssue 511) ((goOf ((tStep 9).begin 511
     .wait)).thread 511) 9), .inr (.inl ⟨.clean, rfl, rfl, rfl, by decide +kernel⟩), goes_spec (by decide +kernel),
     isErr_spec (by decide +kernel)⟩,
   ⟨511, { src := 0, sid := 0, target := 1, cons := true, timeout := 0, since := 0, hit := true, uid := 4 },
     { tSync 9 with bays := [(3, { Bay.reset with cache := [0] })], threads := [(511, { Thread.reset with st := .waiting, wait := some { src := 0, sid := 0, target := 1, cons := true, timeout := 0, since := 0, hit := true, uid := 4 } })] },
     by decide +kernel⟩,
   ⟨511, { src := 0, sid := 0, target := 1, cons := false, timeout := 0, since := 0, hit := true, uid := 4 },
     { tSync 9 with bays := [(3, { Bay.reset with cache := [0] })], threads := [(511, { Thread.reset with st := .waiting, wait := some { src := 0, sid := 0, target := 1, cons := false, timeout := 0, since := 0, hit := true, uid := 4 } })] },
     by decide +kernel⟩,
   ⟨511, { src := 0, sid := 0, target := 1, cons := false, timeout := 1, since := 0, hit := false, uid := 4 },
     { tSync 9 with bays := [(3, { Bay.reset with cache := [0] })], threads := [(511, { Thread.reset with st := .waiting, wait := some { src := 0, sid := 0, target := 1, cons := false, timeout := 1, since := 0, hit := false, uid := 4 } })] },
     by decide +kernel⟩,
   ⟨511, 8 + 2 ^ 64, 0x300000, { sid := 0, sig := .own false 0x300000, slots := [], polled := [3] }, tSync (8 + 2 ^
     64), goOf ((tSync (8 + 2 ^ 64)).begin 511 .signal), goes_spec (by decide +kernel), by decide +kernel⟩,
   ⟨511, 9 + 0 * 2 ^ 64, 0x300000, false, { sid := 0, sig := .own false 0x300000, slots := [], polled := [3] }, tSync
     (9 + 0 * 2 ^ 64), goOf ((tSync (9 + 0 * 2 ^ 64)).begin 511 .wait), goes_spec (by decide +kernel),
     by decide +kernel⟩,
   ⟨511, 9 + 1 * 2 ^ 64, 0x300000, false, { sid := 0, sig := .own false 0x300000, slots := [], polled := [3] }, tSync
     (9 + 1 * 2 ^ 64), goOf ((tSync (9 + 1 * 2 ^ 64)).begin 511 .wait), goes_spec (by decide +kernel),
     by decide +kernel⟩,
   ⟨511, 12 + 0 * 2 ^ 16 + 2 ^ 32, .clean, tStep (12 + 0 * 2 ^ 16 + 2 ^ 32), goOf ((tStep (12 + 0 * 2 ^ 16 + 2 ^
     32)).begin 511 .branch), goes_spec (by decide +kernel), by decide +kernel⟩,
   ⟨511, 12 + 1 * 2 ^ 16 + 2 ^ 32, .clean, tStep (12 + 1 * 2 ^ 16 + 2 ^ 32), goOf ((tStep (12 + 1 * 2 ^ 16 + 2 ^
     32)).begin 511 .branch), goes_spec (by decide +kernel), by decide +kernel⟩,
   ⟨511, 12 + 2 * 2 ^ 16 + 2 ^ 32, .clean, tStep (12 + 2 * 2 ^ 16 + 2 ^ 32), goOf ((tStep (12 + 2 * 2 ^ 16 + 2 ^
     32)).begin 511 .branch), goes_spec (by decide +kernel), by decide +kernel⟩,
   ⟨511, 12 + 3 * 2 ^ 16 + 2 ^ 32, .clean, tStep (12 + 3 * 2 ^ 16 + 2 ^ 32), goOf ((tStep (12 + 3 * 2 ^ 16 + 2 ^
     32)).begin 511 .branch), goes_spec (by decide +kernel), by decide +kernel⟩,
   ⟨511, 12 + 4 * 2 ^ 16 + 2 ^ 32, .clean, tStep (12 + 4 * 2 ^ 16 + 2 ^ 32), goOf ((tStep (12 + 4 * 2 ^ 16 + 2 ^
     32)).begin 511 .branch), goes_spec (by decide +kernel), by decide +kernel⟩,
   ⟨511, 12 + 5 * 2 ^ 16, .clean, tStep (12 + 5 * 2 ^ 16), goOf ((tStep (12 + 5 * 2 ^ 16)).begin 511 .branch),
     goes_spec (by decide +kernel), by decide +kernel⟩⟩

theorem witness_TaggedWordsAndCompletion :
    (∃ (t : Fin 512) (o : FeOp) (s : State), s.feOps.find? (fun o => o.thread == t.val && o.put) = some o ∧ s.isFull
      o.addr = false ∧ s.feOldest o.addr true = some o ∧ s.cxl.snoop = [] ∧ (s.thread t).pc < (s.ctx (s.thread
      t).ctx).nSteps) ∧
    (∃ (t : Fin 512) (o : FeOp) (s : State), s.feOps.find? (fun o => o.thread == t.val && o.put) = some o ∧ s.isFull
      o.addr = true) ∧
    (∃ (t : Fin 512) (o : FeOp) (s : State), s.feOps.find? (fun o => o.thread == t.val && !o.put) = some o ∧ s.isFull
      o.addr = true ∧ s.reservedTo o.addr = 0 ∧ s.feOldest o.addr false = some o ∧ s.readsBad o.addr 8 = false ∧
      (s.bay (threadBay t)).cache.contains (s.thread t).ctx = true ∧ (s.thread t).ctr.length = 4 ∧ (s.thread t).pc <
      (s.ctx (s.thread t).ctx).nSteps) ∧
    (∃ (t : Fin 512) (k : Nat) (a : Active) (s : State), (s.thread t).steps[k]? = some a ∧ s.stepFinished t a = true
      ∧ opOf a.word.toNat ≠ some .fence ∧ opOf a.word.toNat ≠ some .move ∧ (s.thread t).pc < (s.ctx (s.thread
      t).ctx).nSteps) ∧
    (∃ (t : Fin 512) (k : Nat) (s : State), (s.thread t).steps.length ≤ k) :=
  ⟨⟨511, { bay := 3, addr := 0x100, thread := 511, put := true, value := 1, since := 0 },
     { tSync 9 with bays := [(3, { Bay.reset with cache := [0] })], threads := [(511, { Thread.reset with st := .waiting })], feOps := [{ bay := 3, addr := 0x100, thread := 511, put := true, value := 1, since := 0 }], feFull := [] },
     by decide +kernel⟩,
   ⟨511, { bay := 3, addr := 0x100, thread := 511, put := true, value := 1, since := 0 },
     { tOn with feOps := [{ bay := 3, addr := 0x100, thread := 511, put := true, value := 1, since := 0 }], feFull := [(0x20, true)] },
     by decide +kernel⟩,
   ⟨511, { bay := 3, addr := 0x100, thread := 511, put := false, value := 1, since := 0 },
     { tSync 9 with bays := [(3, { Bay.reset with cache := [0] })], threads := [(511, { Thread.reset with st := .waiting })], feOps := [{ bay := 3, addr := 0x100, thread := 511, put := false, value := 1, since := 0 }], feFull := [(0x20, true)] },
     by decide +kernel⟩,
   ⟨511, 0, tActive 2,
     { tOn with ctxs := [(0, { Ctx.reset with st := .running, nSteps := 2 })], threads := [(511, { Thread.reset with st := .stalled, steps := [tActive 2] })] },
     by decide +kernel⟩,
   ⟨511, 1, { tOn with threads := [(511, { Thread.reset with st := .ready, steps := [tActive 2] })] }, by
     decide +kernel⟩⟩

theorem witness_StreamsAndLarder :
    (∃ (t : Fin 512) (e : XferEnd) (a : BitVec 48) (n : Nat) (_k : LineCheck) (s : State), (s.bay (threadBay
      t)).xferAt t none (e == .host) a.toNat n = none) ∧
    (∃ (t : Fin 512) (e : XferEnd) (a : BitVec 48) (n : Nat) (i : Nat) (x : Stream) (d : Xfer) (_k : LineCheck) (s :
      State), (s.bay (threadBay t)).xferAt t none (e == .host) a.toNat n = some (i, x, d) ∧ x.write = false ∧ d.waits
      ≠ []) ∧
    (∃ (b : Fin 4) (n : Nat) (f : Fill) (s : State), (s.bay b).fills.find? (fun f => f.line == n) = some f ∧ (s.bay
      b).streams = []) ∧
    (∃ (p : Path) (b : Fin 4) (s : State), s.served p = true ∧ (s.bay b).unitState.larderOn = true) ∧
    (∃ (b : Fin 4) (τ : Nat) (A : Nat) (d : Xfer) (x : Stream) (s : State), s.regrant b = s ∧ (s.bay b).lastFreed +
      20000 ≤ s.time ∧ (s.bay b).streams = [x] ∧ x.blockedSince = some τ ∧ τ + 20000 ≤ s.time ∧ x.held = [d] ∧ 0 <
      d.pool ∧ d.host = false ∧ d.len ≤ (s.ctx (s.thread x.thread).ctx).atticPages * (2 * mib) ∧ s.inAttic (s.thread
      x.thread).ctx = [] ∧ A = (s.ctx (s.thread x.thread).ctx).attic ∧ s.cxl.snoop = []) ∧
    (∃ (b : Fin 4) (s : State), s.time < (s.bay b).lastFreed + 20000 ∧ (s.bay b).streams = []) ∧
    (∃ (t : Fin 512) (a : BitVec 48) (i : Nat) (x : Stream) (d : Xfer) (s : State), (s.bay (threadBay t)).streams =
      [x] ∧ (s.bay (threadBay t)).xferAt t none false a.toNat d.len = some (0, x, d) ∧ x.write = true ∧ x.flight =
      [d] ∧ x.todo = [] ∧ x.held = [] ∧ x.spilled = [] ∧ i = threadBay t ∧ endHolds .cellar a.toNat = true ∧ s.poison
      = [] ∧ s.wordErr = []) :=
  ⟨⟨511, .host, 0, 1, .clean, tOn, by decide +kernel⟩,
   ⟨511, .cellar, 0x300000, 64, 0,
     { thread := 511, uid := 5, name := .sOut, write := false, begun := 0, depth := 0, todo := [], flight := [{ tXfer with waits := [3] }], held := [], spilled := [], blockedSince := none },
     { tXfer with waits := [3] }, .clean,
     { tB 3 { Bay.reset with streams := [{ thread := 511, uid := 5, name := .sOut, write := false, begun := 0, depth := 0, todo := [], flight := [{ tXfer with waits := [3] }], held := [], spilled := [], blockedSince := none }] } with time := 20000 },
     by decide +kernel⟩,
   ⟨3, 3, { line := 3, prot := true, install := true }, tB 3
     { Bay.reset with fills := [{ line := 3, prot := true, install := true }] }, by decide +kernel⟩,
   ⟨.vdm, 3, tB 3 { Bay.reset with power := .cold }, by decide +kernel⟩,
   ⟨3, 0, 0, tXfer,
     { thread := 511, uid := 5, name := .sOut, write := true, begun := 0, depth := 0, todo := [{ tXfer with len := 2 ^ 40, pool := 2 ^ 40 }], flight := [], held := [tXfer], spilled := [], blockedSince := some 0 },
     { tB 3 { Bay.reset with streams := [{ thread := 511, uid := 5, name := .sOut, write := true, begun := 0, depth := 0, todo := [{ tXfer with len := 2 ^ 40, pool := 2 ^ 40 }], flight := [], held := [tXfer], spilled := [], blockedSince := some 0 }] } with time := 20000, ctxs := [(0, { Ctx.reset with st := .running, qXfer := 0, atticPages := 1 })] },
     by decide +kernel, by decide +kernel⟩,
   ⟨3, { tB 3 Bay.reset with time := 19999 }, by decide +kernel⟩,
   ⟨511, 0x300000, 3,
     { thread := 511, uid := 5, name := .sOut, write := true, begun := 0, depth := 0, todo := [], flight := [tXfer], held := [], spilled := [], blockedSince := none },
     tXfer,
     { tB 3 { Bay.reset with streams := [{ thread := 511, uid := 5, name := .sOut, write := true, begun := 0, depth := 0, todo := [], flight := [tXfer], held := [], spilled := [], blockedSince := none }] } with time := 20000 },
     by decide +kernel⟩⟩

theorem witness_PortalCommands :
    (∃ (c : Instr) (p : Fin 256) (e : Fin 4096) (k : PortalCmd) (s : State), PortalRow c p e ∧ s.portalCmd p e = some
      k ∧ (k.op = 0 ∨ 5 < k.op) ∧ s.claimed p e = true) ∧
    (∃ (c : Instr) (p : Fin 256) (e : Fin 4096) (k : PortalCmd) (s : State), PortalRow c p e ∧ s.portalCmd p e = some
      k ∧ (k.op = 0 ∨ 5 < k.op) ∧ 5 < k.op ∧ s.claimed p e = false) ∧
    (∃ (p : Fin 256) (e : Fin 4096) (_a : Bool) (_b : Bool) (_n : Nat) (k : PortalCmd) (po : Portal) (s : State),
      s.portalCmd p e = some k ∧ k.op = 1 ∧ s.claimed p e = true ∧ s.cfg.portals[p.val]? = some po ∧ (s.ctx k.ctx).st
      ≠ .free) ∧
    (∃ (p : Fin 256) (e : Fin 4096) (a : Bool) (b : Bool) (n : Nat) (k : PortalCmd) (po : Portal) (s : State),
      s.portalCmd p e = some k ∧ k.op = 1 ∧ s.claimed p e = true ∧ s.cfg.portals[p.val]? = some po ∧ (s.ctx k.ctx).st
      = .free ∧ bindFails (s.bindCheck po (s.readNat (s.portalWord p e 0x20) 8) (s.readNat (s.portalWord p e 0x18) 8)
      k.arg a b n) = true) ∧
    (∃ (p : Fin 256) (e : Fin 4096) (k : PortalCmd) (s : State), s.portalCmd p e = some k ∧ k.op = 2 ∧ s.claimed p e
      = true ∧ (s.ctx k.ctx).st = .bound ∧ (s.ctx k.ctx).admitWait = false ∧ (s.ctx k.ctx).wantThreads.length ≤
      s.threadQuota p k.ctx) ∧
    (∃ (p : Fin 256) (e : Fin 4096) (a : Bool) (b : Bool) (n : Nat) (k : PortalCmd) (po : Portal) (d : Bound) (s :
      State), s.portalCmd p e = some k ∧ k.op = 1 ∧ s.claimed p e = true ∧ s.cfg.portals[p.val]? = some po ∧ (s.ctx
      k.ctx).st = .free ∧ s.bindCheck po (s.readNat (s.portalWord p e 0x20) 8) (s.readNat (s.portalWord p e 0x18) 8)
      k.arg a b n = .ok d ∧ d.recipe.seed ≠ 0) :=
  ⟨⟨.bind 0 63 true true 0 .clean .clean, 0, 63, { ctx := 63, op := 0, arg := 0, seq := 1 }, tPortal 4294967296 1
     Ctx.reset, .inl ⟨true, true, 0, .clean, .clean, rfl⟩, by decide +kernel⟩,
   ⟨.clearwarn 0 63, 0, 63, { ctx := 63, op := 6, arg := 0, seq := 1 }, tPortal 4294967302 0 Ctx.reset, .inr (.inr
     (.inr (.inr rfl))), by decide +kernel⟩,
   ⟨0, 63, true, true, 0, { ctx := 63, op := 1, arg := 0, seq := 1 }, tPo, tPortal 4294967297 1
     { Ctx.reset with st := .faulted }, by decide +kernel⟩,
   ⟨0, 63, true, true, 0, { ctx := 63, op := 1, arg := 0, seq := 1 }, tPo, tPortal 4294967297 1 Ctx.reset, by
     decide +kernel⟩,
   ⟨0, 63, { ctx := 63, op := 2, arg := 0, seq := 1 }, tPortal 4294967298 1
     { Ctx.reset with st := .bound, wantThreads := [(0, 0), (0, 1), (0, 2), (0, 3)] }, by decide +kernel⟩,
   ⟨0, 63, true, true, 0, { ctx := 63, op := 1, arg := 0, seq := 1 }, tBind.cfg.portals.getD 0 tPo, boundOf
     (tBind.bindCheck (tBind.cfg.portals.getD 0 tPo) (tBind.readNat (tBind.portalWord 0 63 0x20) 8) (tBind.readNat
     (tBind.portalWord 0 63 0x18) 8) 0 true true 0), tBind, and_five (by decide +kernel)
     ⟨bound_spec (by decide +kernel), by decide +kernel⟩⟩⟩

theorem witness_ContextLifecycle :
    (∃ (p : Fin 256) (e : Fin 4096) (c : Nat) (s : State), s.ctxOf p e = some c ∧ s.inService = true ∧ s.nextAdmitted
      = some c) ∧
    (∃ (r : Instr) (p : Fin 256) (e : Fin 4096) (op : Nat) (k : PortalCmd) (s : State), (r = .reset p e ∧ op = 3 ∨ r
      = .release p e ∧ op = 4) ∧ s.portalCmd p e = some k ∧ k.op = op ∧ s.claimed p e = true ∧ ((s.ctx k.ctx).st =
      .running ∨ (s.ctx k.ctx).st = .waiting)) ∧
    (∃ (r : Instr) (p : Fin 256) (e : Fin 4096) (op : Nat) (k : PortalCmd) (s : State), (r = .reset p e ∧ op = 3 ∨ r
      = .release p e ∧ op = 4) ∧ s.portalCmd p e = some k ∧ k.op = op ∧ s.claimed p e = true ∧ (s.ctx k.ctx).st =
      .faulted) ∧
    (∃ (r : Instr) (p : Fin 256) (e : Fin 4096) (op : Nat) (k : PortalCmd) (s : State), (r = .reset p e ∧ op = 3 ∨ r
      = .release p e ∧ op = 4) ∧ s.portalCmd p e = some k ∧ k.op = op ∧ s.claimed p e = true ∧ (s.ctx k.ctx).st =
      .bound ∧ s.ctxOf p e = some k.ctx) ∧
    (∃ (p : Fin 256) (e : Fin 4096) (k : PortalCmd) (s : State), s.portalCmd p e = some k ∧ k.op = 5 ∧ s.claimed p e
      = true) ∧
    (∃ (p : Fin 256) (e : Fin 4096) (c : Nat) (s : State), s.inService = true ∧ s.leaseOf p ≠ 0 ∧ s.ctxOf p e = some
      c ∧ s.claimed p e = true ∧ (s.entrySt (entryKey p e)).heartAt = none) ∧
    (∃ (p : Fin 256) (e : Fin 4096) (c : Nat) (τ : Nat) (s : State), s.inService = true ∧ s.leaseOf p ≠ 0 ∧ s.ctxOf p
      e = some c ∧ s.claimed p e = true ∧ (s.entrySt (entryKey p e)).heartAt = some τ ∧ (s.entrySt (entryKey p
      e)).heart.toNat = s.readNat (s.portalWord p e 0x38) 8 ∧ (s.ctx c).pendingCmd = none ∧ ((s.ctx c).st = .running
      ∨ (s.ctx c).st = .waiting)) ∧
    (∃ (p : Fin 256) (e : Fin 4096) (c : Nat) (b : Nat) (pc : Nat) (t : Nat) (ts : List Nat) (s : State), s.ctxOf p e
      = some c ∧ s.inService = true ∧ s.nextAdmitted = some c ∧ (s.ctx c).wantThreads = [(b, pc)] ∧ (s.ctx c).map =
      [] ∧ (s.ctx c).st = .bound ∧ b < 4 ∧ s.idleThreads b = t :: ts ∧ (s.bay b).cache.contains c = true) :=
  ⟨⟨0, 63, 63, { tPortal 0 1 { Ctx.reset with st := .bound, admitWait := true } with admitQueue := [63] }, by
     decide +kernel⟩,
   ⟨.reset 0 63, 0, 63, 3, { ctx := 63, op := 3, arg := 0, seq := 1 }, tPortal 4294967299 1
     { Ctx.reset with st := .waiting }, .inl ⟨rfl, rfl⟩, by decide +kernel⟩,
   ⟨.reset 0 63, 0, 63, 3, { ctx := 63, op := 3, arg := 0, seq := 1 }, tPortal 4294967299 1
     { Ctx.reset with st := .faulted }, .inl ⟨rfl, rfl⟩, by decide +kernel⟩,
   ⟨.release 0 63, 0, 63, 4, { ctx := 63, op := 4, arg := 0, seq := 1 }, tPortal 4294967300 1
     { Ctx.reset with st := .bound }, .inr ⟨rfl, rfl⟩, by decide +kernel⟩,
   ⟨0, 63, { ctx := 63, op := 5, arg := 0, seq := 1 }, tPortal 4294967301 1
     { Ctx.reset with st := .bound, warn := true }, by decide +kernel⟩,
   ⟨0, 63, 63, tPortal 0 1 { Ctx.reset with st := .bound }, by decide +kernel⟩,
   ⟨0, 63, 63, 0,
     { tPortal 0 1 { Ctx.reset with st := .running } with entries := [(63, { EntrySt.reset with heartAt := some 0 })] },
     by decide +kernel⟩,
   ⟨0, 63, 63, 3, 7, 384, (upTo 127).map (· + 385),
     { tPortal 0 1 { Ctx.reset with st := .bound, admitWait := true, wantThreads := [(3, 7)] } with admitQueue := [63], bays := [(3, { Bay.reset with cache := [63] })] },
     by decide +kernel⟩⟩

theorem witness_WatchedWords :
    (∃ (t : Fin 512) (a : BitVec 48) (w : Waiting) (s : State), s.threads = [(t.val, s.thread t)] ∧ (s.thread t).wait
      = some w ∧ w.src = 0 ∧ waitWord s (s.thread t) w = some (false, a.toNat / 8 * 8) ∧ waitPolled s (s.thread t) w
      (t / 128) = false ∧ s.readsBad (a.toNat / 8 * 8) 8 = false ∧ waitHolds (s.thread t) w (s.waitedCount false
      (a.toNat / 8 * 8)) = true) ∧
    (∃ (_l : BitVec 46) (d : List Byte) (_s : State), d.length = 64) ∧
    (∃ (src : BitVec 15) (flow : BitVec 12) (f : Frame) (a : Nat) (s : State), s.dstFlow src.toNat flow.toNat = none
      ∧ s.hnx.unopened.find? (fun f => fType f == 7 && fSrc f == src.toNat && fFlow f == flow.toNat) = some f ∧
      s.windowAddr (fSrc f) (fWindow f) (fOff f) 8 .write = some a ∧ s.readsBad a 8 = false ∧ bitOf (s.readNat a 8)
      61 = true ∧ s.hnx.parked = []) ∧
    (∃ (src : BitVec 15) (flow : BitVec 12) (s : State), s.dstFlow src.toNat flow.toNat = none ∧ s.hnx.unopened = []) ∧
    (∃ (b : Fin 4) (t : Fin 512) (a : Nat) (w : Waiting) (s : State), s.onPhase 20000 0 = true ∧ s.threads =
      [(t.val, s.thread t)] ∧ t / 128 = b.val ∧ (s.thread t).wait = some w ∧ w.src = 0 ∧ waitWord s (s.thread t) w =
      some (false, a) ∧ waitPolled s (s.thread t) w b = true ∧ s.readsBad a 8 = false ∧ waitHolds (s.thread t) w
      (s.waitedCount false a) = true) :=
  ⟨⟨511, 0x207, { src := 0, sid := 0, target := 1, cons := false, timeout := 0, since := 0, hit := false, uid := 4 },
     { tSync 9 with threads := [(511, { Thread.reset with st := .waiting, wait := some { src := 0, sid := 0, target := 1, cons := false, timeout := 0, since := 0, hit := false, uid := 4 } })], ctxs := [(0, { Ctx.reset with st := .waiting, sync := [{ sid := 0, sig := .own false 0x200, slots := [(3, 0)], polled := [] }] })], mem := memStore [] 0x200 (leBytes 8 1) },
     by decide +kernel⟩,
   ⟨0x3FFF_FFFF_FFFF, List.replicate 64 255, tOn, by decide +kernel⟩,
   ⟨1, 5, tFrame 7 1 0 0xFF8 0 (leBytes 8 1), 0x1FF8,
     { tFab [] { Hnx.reset with unopened := [tFrame 7 1 0 0xFF8 0 (leBytes 8 1)] } with mem := memStore [] 0x1FF8 (leBytes 8 (2 ^ 61)) },
     by decide +kernel⟩,
   ⟨1, 5, tOn, by decide +kernel⟩,
   ⟨3, 511, 0x200,
     { src := 0, sid := 0, target := 1, cons := false, timeout := 0, since := 0, hit := false, uid := 4 },
     { tSync 9 with threads := [(511, { Thread.reset with st := .waiting, wait := some { src := 0, sid := 0, target := 1, cons := false, timeout := 0, since := 0, hit := false, uid := 4 } })], ctxs := [(0, { Ctx.reset with st := .waiting, sync := [{ sid := 0, sig := .own false 0x200, slots := [], polled := [3] }] })], mem := memStore [] 0x200 (leBytes 8 1) },
     by decide +kernel⟩⟩

theorem witness_HostMemory :
    (∃ (h : BitVec 48) (d : List Byte) (s : State), h.toNat < s.hostMemSize ∧ s.linkUp = true ∧ s.cxl.memActive =
      true ∧ s.cxl.viral = false ∧ h.toNat % 64 = 0 ∧ d.length = 64) ∧
    (∃ (p : Bool) (h : BitVec 48) (_d : List Byte) (_c : LineCheck) (s : State), h.toNat < s.hostMemSize ∧ s.linkUp =
      true ∧ (p = true → s.cxl.level ≠ 0) ∧ s.cxl.memActive = false) ∧
    (∃ (p : Bool) (h : BitVec 48) (_d : List Byte) (_c : LineCheck) (s : State), h.toNat < s.hostMemSize ∧ s.linkUp =
      true ∧ (p = true → s.cxl.level ≠ 0) ∧ s.cxl.memActive = false) ∧
    (∃ (h : BitVec 48) (s : State), h.toNat < s.hostMemSize ∧ s.linkUp = true ∧ s.cxl.memActive = true ∧ s.poisoned
      (lineOf (dpaOfHost (h.toNat / 64 * 64))) = false ∧ s.injOn 3 = false) ∧
    (∃ (h : BitVec 48) (w : Bool) (_op : AtomicKind) (s : State), h.toNat < s.hostMemSize ∧ s.linkUp = true ∧
      s.cxl.level ≠ 0 ∧ h.toNat % (if w then 8 else 4) = 0 ∧ s.cxl.memActive = true ∧ s.hostHolds (lineOf (dpaOfHost
      h.toNat)) = false ∧ s.readsBad (dpaOfHost h.toNat) (if w then 8 else 4) = false) ∧
    (∃ (h : BitVec 48) (w : Bool) (_op : AtomicKind) (s : State), h.toNat < s.hostMemSize ∧ s.linkUp = true ∧
      s.cxl.level ≠ 0 ∧ h.toNat % (if w then 8 else 4) = 0 ∧ s.cxl.memActive = true ∧ s.hostHolds (lineOf (dpaOfHost
      h.toNat)) = false ∧ s.readsBad (dpaOfHost h.toNat) (if w then 8 else 4) = false) ∧
    (∃ (c : Instr) (h : BitVec 48) (s : State), s.hostMemSize ≤ h.toNat ∧ ((∃ p k, c = .cxlMemRead p h k) ∨ (∃ p d k,
      c = .cxlMemWrite p h d k) ∨ (∃ w o, c = .cxlAtomicOp h w o) ∨ (∃ x k, c = .hostOwnershipRequest h x k) ∨ c =
      .recallTimer h ∨ (∃ m, c = .bisnpResponse h m))) ∧
    (∃ (h : BitVec 48) (s : State), h.toNat < s.hostMemSize ∧ s.linkUp = true ∧ s.cxl.memActive = true ∧ s.cxl.level
      ≠ 0) ∧
    (∃ (h : BitVec 48) (d : List Byte) (s : State), h.toNat < s.hostMemSize ∧ s.linkUp = true ∧ s.cxl.memActive =
      true ∧ s.cxl.level ≠ 0 ∧ s.hostHolds (lineOf (dpaOfHost h.toNat)) = false ∧ h.toNat % 64 = 0 ∧ d.length = 64) ∧
    (∃ (h : BitVec 48) (_d : List Byte) (_c : LineCheck) (s : State), h.toNat < s.hostMemSize ∧ s.linkUp = true ∧
      s.cxl.level = 0) ∧
    (∃ (h : BitVec 48) (_c : LineCheck) (s : State), h.toNat < s.hostMemSize ∧ s.linkUp = true ∧ s.cxl.memActive =
      false) :=
  ⟨⟨0xF_FFFF_FFC0, List.replicate 64 255, tOn, by decide +kernel⟩,
   ⟨false, 0xF_FFFF_FFFF, [], .clean, { tOn with cxl := { tOn.cxl with memActive := false } }, by decide +kernel⟩,
   ⟨true, 0xF_FFFF_FFFF, [], .clean, { tOn with cxl := { tOn.cxl with memActive := false, level := 1 } }, by
     decide +kernel⟩,
   ⟨0xF_FFFF_FFFF, tOn, by decide +kernel⟩,
   ⟨0xF_FFFF_FFF8, true, .fetchAdd 1, { tOn with cxl := { tOn.cxl with level := 2 } }, by decide +kernel⟩,
   ⟨0xF_FFFF_FFFC, false, .cas 0 1, { tOn with cxl := { tOn.cxl with level := 2 } }, by decide +kernel⟩,
   ⟨.cxlMemRead false 0x10_0000_0000 .clean, 0x10_0000_0000, tOn, by decide +kernel, .inl ⟨false, .clean, rfl⟩⟩,
   ⟨0xF_FFFF_FFFF, { tOn with cxl := { tOn.cxl with level := 2 } }, by decide +kernel⟩,
   ⟨0xF_FFFF_FFC0, List.replicate 64 255, { tOn with cxl := { tOn.cxl with level := 2 } }, by decide +kernel⟩,
   ⟨0xF_FFFF_FFFF, [], .clean, { tOn with cxl := { tOn.cxl with level := 0 } }, by decide +kernel⟩,
   ⟨0xF_FFFF_FFFF, .clean, { tOn with cxl := { tOn.cxl with memActive := false } }, by decide +kernel⟩⟩

theorem witness_Coherence :
    (∃ (h : BitVec 48) (_x : Bool) (s : State), h.toNat < s.hostMemSize ∧ s.linkUp = true ∧ s.hdmDb = true ∧
      s.cxl.memActive = true ∧ s.hostHolds (lineOf (dpaOfHost h.toNat)) = false ∧ s.cxl.snoop.length + 1 < snoopSize
      ∧ s.poisoned (lineOf (dpaOfHost h.toNat)) = false ∧ s.injOn 3 = false) ∧
    (∃ (h : BitVec 48) (s : State), h.toNat < s.hostMemSize ∧ s.linkUp = true ∧ s.watchedLine (lineOf (dpaOfHost
      h.toNat)) = true ∧ (s.cxl.snoop.any fun x => x.line == lineOf (dpaOfHost h.toNat) && x.exclusive &&
      !x.recalled) = true) ∧
    (∃ (h : BitVec 48) (s : State), h.toNat < s.hostMemSize ∧ s.cxl.waitInv.contains (lineOf (dpaOfHost h.toNat)) =
      true ∧ s.cxl.held = [] ∧ s.cxl.grants = []) ∧
    (∃ (h : BitVec 48) (d : List Byte) (s : State), h.toNat < s.hostMemSize ∧ s.cxl.waitInv.contains (lineOf
      (dpaOfHost h.toNat)) = true ∧ s.cxl.held = [] ∧ s.cxl.grants = [] ∧ d.length = 64) :=
  ⟨⟨0xF_FFFF_FFFF, true, tOn, by decide +kernel⟩,
   ⟨0x100,
     { tB 3 { Bay.reset with slots := [(7, { Slot.reset with valid := true, addr := 0x100 })] } with cxl := { tOn.cxl with snoop := [{ line := 4, exclusive := true, recalled := false }] } },
     by decide +kernel⟩,
   ⟨0x100,
     { tOn with cxl := { tOn.cxl with snoop := [{ line := 4, exclusive := true, recalled := true }], waitInv := [4] } },
     by decide +kernel⟩,
   ⟨0x100, List.replicate 64 255,
     { tOn with cxl := { tOn.cxl with snoop := [{ line := 4, exclusive := true, recalled := true }], waitInv := [4] } },
     by decide +kernel⟩⟩

theorem witness_CxlLink :
    (∃ (r : Fin 5) (w : Nat) (l : Fin 3) (_bi : Bool) (s : State), s.boot.on = true ∧ s.cxl.state = .recovery ∧ (w =
      4 ∨ w = 8 ∨ w = 16) ∧ (l = 0 → r.val ≤ 2)) ∧
    (∃ (r : Nat) (w : Nat) (_l : Fin 3) (_bi : Bool) (s : State), s.boot.on = true ∧ s.cxl.state ≠ .l0 ∧ (w < 4 ∨ r <
      8)) ∧
    (∃ (r : Fin 5) (w : Nat) (l : Fin 3) (_bi : Bool) (s : State), s.boot.on = true ∧ s.cxl.state = .recovery ∧ (w =
      4 ∨ w = 8 ∨ w = 16) ∧ (l = 0 → r.val ≤ 2)) ∧
    (∃ (r : Nat) (w : Nat) (_l : Fin 3) (_bi : Bool) (s : State), s.boot.on = true ∧ s.cxl.state ≠ .l0 ∧ (w < 4 ∨ r <
      8)) ∧
    (∃ (s : State), s.boot.on = true ∧ s.cxl.state = .l0) ∧
    (∃ (s : State), s.linkUp = true ∧ s.injOn 1 = false ∧ s.injOn 2 = false) ∧
    (∃ (s : State), s.boot.on = true ∧ s.cxl.held = [] ∧ (∀ b < 4, (s.bay b).streams = [])) :=
  ⟨⟨4, 16, 2, true, { tOn with cxl := { tOn.cxl with state := .recovery } }, by decide +kernel⟩,
   ⟨128, 3, 2, true, { tOn with cxl := { tOn.cxl with state := .training } }, by decide +kernel⟩,
   ⟨2, 4, 0, true, { tOn with cxl := { tOn.cxl with state := .recovery } }, by decide +kernel⟩,
   ⟨7, 4, 0, true, { tOn with cxl := { tOn.cxl with state := .training } }, by decide +kernel⟩,
   ⟨tOn, by decide +kernel⟩,
   ⟨tOn, by decide +kernel⟩,
   ⟨tOn, by decide +kernel⟩⟩

theorem witness_HostWindows :
    (∃ (_o : BitVec 12) (_w : Option (BitVec 32)) (s : State), s.linkUp = true ∧ s.cxl.crs = true) ∧
    (∃ (_o : BitVec 12) (_v : BitVec 32) (s : State), s.linkUp = true ∧ s.cxl.crs = false) ∧
    (∃ (x : BitVec 36) (s : State), s.linkUp = true ∧ s.diagOpen = true ∧ diagNone (s.diagAddr x.toNat / 8 * 8) =
      false) ∧
    (∃ (_x : BitVec 36) (s : State), s.linkUp = true ∧ s.diagOpen = false) ∧
    (∃ (x : BitVec 36) (_v : Word) (s : State), s.linkUp = true ∧ s.diagOpen = true ∧ diagNone (s.diagAddr x.toNat /
      8 * 8) = false ∧ s.tokenPerm 0 = true ∧ s.hostHolds (lineOf (s.diagAddr x.toNat / 8 * 8)) = false) ∧
    (∃ (x : BitVec 36) (_v : Word) (s : State), s.tokenPerm 0 = false ∧ (s.diagOpen = false ∨ diagNone (s.diagAddr
      x.toNat / 8 * 8) = false)) ∧
    (∃ (s : State), s.boot.on = true ∧ s.jnl.windowOpen = true) ∧
    (∃ (s : State), s.boot.on = true ∧ s.jnl.windowOpen = false) :=
  ⟨⟨0xFFF, some 1, { tOn with cxl := { tOn.cxl with crs := true } }, by decide +kernel⟩,
   ⟨0xFFF, 1, tOn, by decide +kernel⟩,
   ⟨0xF_FFFF_FFFF, State.setFld { tOn with cfg := { Configuration.unset with grantDiag := true } } .cxlDiagCtrlEn 0
     1, by decide +kernel⟩,
   ⟨0, tOn, by decide +kernel⟩,
   ⟨0xF_FFFF_FFFF, 1, State.setFld
     { tOn with cfg := { Configuration.unset with grantDiag := true }, sec := { Security.reset with token := some { perms := 1, expiry := 9 } } }
     .cxlDiagCtrlEn 0 1, by decide +kernel⟩,
   ⟨0, 1, State.setFld { tOn with cfg := { Configuration.unset with grantDiag := true } } .cxlDiagCtrlEn 0 1, by
     decide +kernel⟩,
   ⟨{ tOn with jnl := { Journal.reset with windowOpen := true, unwritten := [tRec] } }, by decide +kernel⟩,
   ⟨{ tOn with jnl := Journal.reset }, by decide +kernel⟩⟩

theorem witness_Mailbox :
    (∃ (s : State), s.boot.on = true) ∧
    (∃ (_k : Nat) (s : State), s.boot.on = true) ∧
    (∃ (_g : EvLog) (s : State), s.boot.on = true) ∧
    (∃ (_g : EvLog) (_n : Nat) (s : State), s.boot.on = true) ∧
    (∃ (s : State), s.boot.on = true) ∧
    (∃ (_a : BitVec 8) (_b : BitVec 8) (_c : BitVec 8) (_d : BitVec 8) (s : State), s.boot.on = true) ∧
    (∃ (s : State), s.boot.on = true ∧ s.cxl.timestamp ≠ 0) ∧
    (∃ (_v : Word) (s : State), s.boot.on = true) ∧
    (∃ (k : Nat) (s : State), s.linkUp = true ∧ k < 6) ∧
    (∃ (k : Nat) (s : State), s.linkUp = true ∧ k < 6) ∧
    (∃ (_k : Nat) (s : State), s.linkUp = true) ∧
    (∃ (_k : Nat) (s : State), s.linkUp = true ∧ s.tokenPerm 1 = false) ∧
    (∃ (_k : Nat) (s : State), s.linkUp = true ∧ s.tokenPerm 1 = true) :=
  ⟨⟨tOn, by decide +kernel⟩,
   ⟨3, tOn, by decide +kernel⟩,
   ⟨.fatal, tOn, by decide +kernel⟩,
   ⟨.fatal, 1, tOn, by decide +kernel⟩,
   ⟨tOn, by decide +kernel⟩,
   ⟨255, 0, 1, 255, tOn, by decide +kernel⟩,
   ⟨{ tOn with cxl := { tOn.cxl with timestamp := 1 } }, by decide +kernel⟩,
   ⟨0xFFFF_FFFF_FFFF_FFFF, tOn, by decide +kernel⟩,
   ⟨0, tOn, by decide +kernel⟩,
   ⟨5, tOn, by decide +kernel⟩,
   ⟨0, tOn, by decide +kernel⟩,
   ⟨0, tOn, by decide +kernel⟩,
   ⟨0, { tOn with sec := { Security.reset with token := some { perms := 2, expiry := 9 } } }, by decide +kernel⟩⟩

theorem witness_InjectionAndScrub :
    (∃ (c : Instr) (m : Nat) (n : BitVec 16) (s : State), (c = .injTxCrc .bar0 n ∧ m = 1 ∨ c = .injRxCrc .bar0 n ∧ m
      = 2 ∨ c = .injMemPoison .bar0 n ∧ m = 3 ∨ c = .injCacheFail .bar0 n ∧ m = 5) ∧ s.boot.on = true ∧ s.tokenPerm 1
      = true) ∧
    (∃ (c : Instr) (m : Nat) (n : BitVec 16) (s : State), (c = .injTxCrc .bar0 n ∧ m = 1 ∨ c = .injRxCrc .bar0 n ∧ m
      = 2 ∨ c = .injMemPoison .bar0 n ∧ m = 3 ∨ c = .injCacheFail .bar0 n ∧ m = 5) ∧ s.boot.on = true ∧ s.tokenPerm 1
      = true) ∧
    (∃ (n : BitVec 16) (_d : BitVec 16) (s : State), s.boot.on = true ∧ s.tokenPerm 1 = true ∧ n ≠ 0) ∧
    (∃ (_n : BitVec 16) (_d : BitVec 16) (s : State), s.boot.on = true ∧ s.tokenPerm 1 = false) ∧
    (∃ (_b : Fin 4) (line : Nat) (_f : Bool) (s : State), s.boot.on = true ∧ line + 1 < stackLines) ∧
    (∃ (_b : Fin 4) (_f : Bool) (s : State), s.boot.on = true) ∧
    (∃ (_b : Fin 4) (line : Nat) (_f : Bool) (s : State), s.boot.on = true ∧ line < stackLines) :=
  ⟨⟨.injTxCrc .bar0 0xFFFF, 1, 0xFFFF,
     { tOn with sec := { Security.reset with token := some { perms := 2, expiry := 9 } } }, .inl ⟨rfl, rfl⟩,
     by decide +kernel⟩,
   ⟨.injCacheFail .bar0 0xFFFF, 5, 0xFFFF,
     { tOn with sec := { Security.reset with token := some { perms := 2, expiry := 9 } } }, .inr (.inr (.inr ⟨rfl,
     rfl⟩)), by decide +kernel⟩,
   ⟨1, 0xFFFF, { tOn with sec := { Security.reset with token := some { perms := 2, expiry := 9 } } }, by
     decide +kernel⟩,
   ⟨1, 1, tOn, by decide +kernel⟩,
   ⟨3, stackLines - 2, true, tOn, by decide +kernel⟩,
   ⟨3, true, tOn, by decide +kernel⟩,
   ⟨3, stackLines - 1, true, tOn, by decide +kernel⟩⟩

theorem witness_PortTraining :
    (∃ (p : Fin 8) (s : State), s.boot.on = true ∧ (s.port p).state = .dark ∧ (s.port p).moving = false ∧ s.flag
      .hnxPortCtrlEn p = true ∧ (s.comb (8 + p / 4)).state = .ready) ∧
    (∃ (p : Fin 8) (s : State), (s.port p).moving = false ∧ ((s.port p).state ≠ .dark ∨ (s.comb (8 + p / 4)).state ≠
      .ready)) ∧
    (∃ (p : Fin 8) (s : State), s.boot.on = true ∧ (s.port p).state = .failed) ∧
    (∃ (p : Fin 8) (_pp : Fin 8) (up : BitVec 8) (v : Nat) (_c0 : Nat) (_c1 : Nat) (_c2 : Nat) (_c3 : Nat) (_d :
      BitVec 15) (s : State), (s.port p).state = .training ∧ (s.port p).queue = [] ∧ s.hnx.busy = false ∧
      s.hnx.mcWait = [] ∧ (∀ b ∈ s.hnx.branches, b.queue = []) ∧ min v (s.fld .hnxPortCtrlMaxVer p) = 2 ∧ up ≠ 0) ∧
    (∃ (p : Fin 8) (_pp : Fin 8) (up : BitVec 8) (v : Nat) (_c0 : Nat) (_c1 : Nat) (_c2 : Nat) (_c3 : Nat) (_d :
      BitVec 15) (s : State), (s.port p).state = .training ∧ (s.port p).queue = [] ∧ s.hnx.busy = false ∧
      s.hnx.mcWait = [] ∧ (∀ b ∈ s.hnx.branches, b.queue = []) ∧ min v (s.fld .hnxPortCtrlMaxVer p) = 1 ∧ up &&& 0x0F
      ≠ 0 ∧ s.hnx.src = []) ∧
    (∃ (p : Fin 8) (s : State), s.boot.on = true ∧ (s.port p).moving = true ∧ (∀ k < 8, ((s.port p).lane k).retry =
      [])) ∧
    (∃ (p : Fin 8) (s : State), (s.port p).state = .training ∧ (s.port p).queue = [] ∧ s.hnx.busy = false) ∧
    (∃ (a : Path) (p : Fin 8) (s : State), s.served a = true ∧ ((s.port p).state = .active ∨ (s.port p).state =
      .failed)) :=
  ⟨⟨7, State.setFld { tOn with combs := [(9, { Comb.reset with state := .ready })] } .hnxPortCtrlEn 7 1, by
     decide +kernel⟩,
   ⟨7, tOn, by decide +kernel⟩,
   ⟨7, { tOn with ports := [(7, { Port.reset with state := .failed })] }, by decide +kernel⟩,
   ⟨7, 7, 0x80, 2, 1, 2, 3, 4, 0x7FFF, State.setFld
     { tOn with ports := [(7, { Port.reset with state := .training })] } .hnxPortCtrlMaxVer 7 2, by decide +kernel⟩,
   ⟨7, 7, 0xF8, 1, 1, 2, 3, 4, 0x7FFF, State.setFld
     { tOn with ports := [(7, { Port.reset with state := .training })] } .hnxPortCtrlMaxVer 7 2, by decide +kernel⟩,
   ⟨7, { tOn with ports := [(7, { Port.reset with moving := true })] }, by decide +kernel⟩,
   ⟨7, { tOn with ports := [(7, { Port.reset with state := .training })] }, by decide +kernel⟩,
   ⟨.i3c, 7, { tOn with ports := [(7, tUp)] }, by decide +kernel⟩⟩

theorem witness_LaneRecovery :
    (∃ (p : Fin 8) (k : Fin 8) (_o : BitVec 7) (s : State), (s.port p).state = .active ∧ (s.port p).upLanes.contains
      k.val = true ∧ ((s.port p).lane k).badWords = 14) ∧
    (∃ (p : Fin 8) (k : Fin 8) (_o : BitVec 7) (s : State), (s.port p).state = .active ∧ (s.port p).upLanes.contains
      k.val = true ∧ ((s.port p).lane k).badWords = 15) ∧
    (∃ (p : Fin 8) (k : Fin 8) (s : State), (s.port p).state = .active ∧ ((s.port p).lane k).retraining = true ∧
      (s.port p).queue = [] ∧ s.hnx.mcWait = [] ∧ (∀ b ∈ s.hnx.branches, b.queue = []) ∧ ((s.port p).lane
      k).retrainFails = 0) ∧
    (∃ (p : Fin 8) (k : Fin 8) (s : State), (s.port p).state = .active ∧ ((s.port p).lane k).retraining = true ∧
      (s.port p).queue = [] ∧ s.hnx.mcWait = [] ∧ (∀ b ∈ s.hnx.branches, b.queue = []) ∧ ((s.port p).lane
      k).retrainFails ≠ 0 ∧ (s.port p).lanesUp &&& ~~~(BitVec.ofNat 8 (2 ^ k.val)) ≠ 0) ∧
    (∃ (p : Fin 8) (k : Fin 8) (s : State), (s.port p).state = .active ∧ ((s.port p).lane k).retraining = true ∧
      (s.port p).queue = [] ∧ s.hnx.mcWait = [] ∧ (∀ b ∈ s.hnx.branches, b.queue = []) ∧ ((s.port p).lane
      k).retrainFails ≠ 0 ∧ (s.port p).lanesUp &&& ~~~(BitVec.ofNat 8 (2 ^ k.val)) = 0) ∧
    (∃ (p : Fin 8) (k : Fin 8) (s : State), (s.port p).state = .active ∧ (s.port p).upLanes.contains k.val = true ∧
      ((s.port p).lane k).retry ≠ [] ∧ ((s.port p).lane k).tries.any (fun n => decide (7 ≤ n)) = true) ∧
    (∃ (p : Fin 8) (k : Fin 8) (s : State), (s.port p).state = .active ∧ (s.port p).upLanes.contains k.val = true ∧
      ((s.port p).lane k).retry ≠ [] ∧ ((s.port p).lane k).tries.all (fun n => decide (n < 7)) = true) ∧
    (∃ (p : Fin 8) (k : Fin 8) (s : State), ((s.port p).lane k).retry = []) ∧
    (∃ (p : Fin 8) (c : Fin 4) (b : Fin 2) (s : State), (s.port p).state = .active ∧ (s.port p).version = 2 ∧ (s.port
      p).credits.getD (creditIdx c b) 0 = 0 ∧ (s.port p).stalled.getD (creditIdx c b) false = false) ∧
    (∃ (p : Fin 8) (c : Fin 4) (b : Fin 2) (s : State), (s.port p).credits.getD (creditIdx c b) 0 ≠ 0) :=
  ⟨⟨7, 7, 79, { tOn with ports := [(7, tUp.setLane 7 { Lane.reset with badWords := 14 })] }, by decide +kernel⟩,
   ⟨7, 7, 79, { tOn with ports := [(7, tUp.setLane 7 { Lane.reset with badWords := 15 })] }, by decide +kernel⟩,
   ⟨7, 7,
     { tOn with ports := [(7, Port.setLane { tUp with lanesUp := 0xFF } 7 { Lane.reset with retraining := true, retrainFails := 0 })] },
     by decide +kernel⟩,
   ⟨7, 7,
     { tOn with ports := [(7, Port.setLane { tUp with lanesUp := 0xFF } 7 { Lane.reset with retraining := true, retrainFails := 1 })] },
     by decide +kernel⟩,
   ⟨7, 7,
     { tOn with ports := [(7, Port.setLane { tUp with lanesUp := 0x80 } 7 { Lane.reset with retraining := true, retrainFails := 1 })] },
     by decide +kernel⟩,
   ⟨7, 7, { tOn with ports := [(7, tUp.setLane 7 { Lane.reset with retry := [testFrame 2], tries := [7] })] }, by
     decide +kernel⟩,
   ⟨7, 7, { tOn with ports := [(7, tUp.setLane 7 { Lane.reset with retry := [testFrame 2], tries := [6] })] }, by
     decide +kernel⟩,
   ⟨7, 7, { tOn with ports := [(7, tUp)] }, by decide +kernel⟩,
   ⟨7, 3, 1, { tOn with ports := [(7, tNoCredit)] }, by decide +kernel⟩,
   ⟨7, 3, 1, { tOn with ports := [(7, tUp)] }, by decide +kernel⟩⟩

theorem witness_FabricControl :
    (∃ (a : Path) (v : BitVec 2) (s : State), s.served a = true ∧ hostAllowed a s.cfg.grantFabric = true ∧
      (s.cfg.profiles[v.toNat]?).isSome = true ∧ s.hnx.busy = false ∧ (∀ x, s.cfg.profiles[v.toNat]? = some x → ∀ p <
      8, x.fibre.getD p p = ((s.activeProfile.map (·.fibre)).getD []).getD p p) ∧ (∀ p < 8, (s.port p).moving =
      false) ∧ (∀ e ∈ s.hnx.src, e.mc = none) ∧ s.hnx.mcWait = []) ∧
    (∃ (a : Path) (_v : BitVec 2) (s : State), s.served a = true ∧ hostAllowed a s.cfg.grantFabric = true ∧
      s.hnx.busy = true) ∧
    (∃ (a : Path) (_v : BitVec 2) (s : State), s.served a = true ∧ hostAllowed a s.cfg.grantFabric = false) ∧
    (∃ (c : Instr) (m : Nat) (a : Path) (v : Word) (s : State), (c = .hnxInjDropWire a v ∧ m = 1 ∨ c =
      .hnxInjDropEarly a v ∧ m = 2 ∨ c = .hnxInjBitFlip a v ∧ m = 3 ∨ c = .hnxInjE2eFlip a v ∧ m = 4 ∨ c =
      .hnxInjReorder a v ∧ m = 5) ∧ s.served a = true ∧ s.tokenPerm 1 = true) ∧
    (∃ (c : Instr) (m : Nat) (a : Path) (v : Word) (s : State), (c = .hnxInjDropWire a v ∧ m = 1 ∨ c =
      .hnxInjDropEarly a v ∧ m = 2 ∨ c = .hnxInjBitFlip a v ∧ m = 3 ∨ c = .hnxInjE2eFlip a v ∧ m = 4 ∨ c =
      .hnxInjReorder a v ∧ m = 5) ∧ s.served a = true ∧ s.tokenPerm 1 = true) ∧
    (∃ (a : Path) (_v : Word) (s : State), s.served a = true ∧ s.tokenPerm 1 = false) :=
  ⟨⟨.i3c, 3, tProfiles, by decide +kernel, by decide +kernel, by decide +kernel, by decide +kernel,
     by intro x hx; have h : x = tProfile [] := (Option.some.inj hx).symm; subst h; decide +kernel,
     by decide +kernel⟩,
   ⟨.i3c, 3, { tOn with hnx := { Hnx.reset with busy := true } }, by decide +kernel⟩,
   ⟨.bar0, 3, tOn, by decide +kernel⟩,
   ⟨.hnxInjDropWire .i3c 0xFFFF_FFFF_FFFF_FFFF, 1, .i3c, 0xFFFF_FFFF_FFFF_FFFF,
     { tOn with sec := { Security.reset with token := some { perms := 2, expiry := 9 } } }, .inl ⟨rfl, rfl⟩,
     by decide +kernel⟩,
   ⟨.hnxInjReorder .i3c 0xFFFF_FFFF_FFFF_FFFF, 5, .i3c, 0xFFFF_FFFF_FFFF_FFFF,
     { tOn with sec := { Security.reset with token := some { perms := 2, expiry := 9 } } }, .inr (.inr (.inr (.inr
     ⟨rfl, rfl⟩))), by decide +kernel⟩,
   ⟨.vdm, 0xFFFF_FFFF_FFFF_FFFF, tOn, by decide +kernel⟩⟩

theorem witness_FrameReception :
    (∃ (c : Instr) (p : Fin 8) (k : Fin 8) (f : Frame) (_s : State), FrameRow c p k f ∧ c.wf = false) ∧
    (∃ (c : Instr) (p : Fin 8) (k : Fin 8) (f : Frame) (s : State), FrameRow c p k f ∧ c.wf = true ∧ (s.port p).state
      ≠ .active ∧ (s.port p).state ≠ .training) ∧
    (∃ (c : Instr) (p : Fin 8) (k : Fin 8) (f : Frame) (s : State), FrameRow c p k f ∧ c.wf = true ∧ s.boot.on = true
      ∧ (s.port p).state = .active ∧ (s.port p).upLanes.contains k.val = true ∧ ((s.port p).lane k).owed = false ∧
      (f.crc ≠ linkCrc f ∨ fType f ≠ 0 ∧ fFsn f ≠ ((s.port p).lane k).expected)) ∧
    (∃ (c : Instr) (p : Fin 8) (k : Fin 8) (f : Frame) (s : State), FrameRow c p k f ∧ c.wf = true ∧ s.boot.on = true
      ∧ (s.port p).state = .active ∧ (s.port p).upLanes.contains k.val = true ∧ ((s.port p).lane k).owed = false ∧
      (f.crc ≠ linkCrc f ∨ fType f ≠ 0 ∧ fFsn f ≠ ((s.port p).lane k).expected)) ∧
    (∃ (p : Fin 8) (k : Fin 8) (f : Frame) (s : State), (Instr.idle p k f).wf = true ∧ Arrives s p k f ∧ (s.port
      p).queue = [] ∧ fNak f = false) ∧
    (∃ (p : Fin 8) (k : Fin 8) (f : Frame) (s : State), (Instr.link p k f).wf = true ∧ Arrives s p k f ∧ fNak f =
      false) ∧
    (∃ (c : Instr) (p : Fin 8) (k : Fin 8) (q : Nat) (f : Frame) (g : Frame) (s : State), UnicastRow c p k f ∧ c.wf =
      true ∧ Arrives s p k f ∧ (s.port p).version = 2 ∧ fDst f ≠ s.cfg.device ∧ s.routeFrame f = .send q g ∧ q ≠
      p.val ∧ (s.port q).version = 2 ∧ (s.port q).queue = [] ∧ (s.port q).canSend g = false) ∧
    (∃ (c : Instr) (p : Fin 8) (k : Fin 8) (f : Frame) (r : Nat) (s : State), UnicastRow c p k f ∧ c.wf = true ∧
      Arrives s p k f ∧ (s.port p).version = 2 ∧ fDst f ≠ s.cfg.device ∧ s.routeFrame f = .fail r none) ∧
    (∃ (p : Fin 8) (k : Fin 8) (f : Frame) (s : State), (Instr.reservedFrame p k f).wf = true ∧ Arrives s p k f) :=
  ⟨⟨.idle 7 7 (testFrame 1), 7, 7, testFrame 1, tOn, .inl rfl, by decide +kernel⟩,
   ⟨.idle 7 7 (testFrame 0), 7, 7, testFrame 0, tOn, .inl rfl, by decide +kernel⟩,
   ⟨.idle 7 7 (testFrame 0), 7, 7, testFrame 0, { tOn with ports := [(7, tUp)] }, .inl rfl, by decide +kernel⟩,
   ⟨.link 7 7 (tSeal (fput (testFrame 1) 29 18 1)), 7, 7, tSeal (fput (testFrame 1) 29 18 1),
     { tOn with ports := [(7, tUp)] }, .inr (.inl rfl), by decide +kernel⟩,
   ⟨7, 7, tSeal (testFrame 0), { tOn with ports := [(7, tUp)] }, by decide +kernel, arrives_of (by decide +kernel),
     by decide +kernel⟩,
   ⟨7, 7, tSeal (testFrame 1), { tOn with ports := [(7, tUp)] }, by decide +kernel, arrives_of (by decide +kernel),
     by decide +kernel⟩,
   ⟨.write 7 7 (tSeal (withRoute (mkFrame 2 2 0 false 2 1 5 3 15 0 0 [1]) tRoute)), 7, 7, 0, tSeal (withRoute
     (mkFrame 2 2 0 false 2 1 5 3 15 0 0 [1]) tRoute), sentAs ((tFab [] Hnx.reset).routeFrame (tSeal (withRoute
     (mkFrame 2 2 0 false 2 1 5 3 15 0 0 [1]) tRoute))), tFab [] Hnx.reset, .inl rfl, by decide +kernel,
     arrives_of (by decide +kernel), by decide +kernel, by decide +kernel, by decide +kernel, by decide +kernel⟩,
   ⟨.write 7 7 (tSeal (mkFrame 2 2 0 false 2 1 5 3 15 0 0 [1])), 7, 7, tSeal (mkFrame 2 2 0 false 2 1 5 3 15 0 0
     [1]), 1, tFab [] Hnx.reset, .inl rfl, by decide +kernel, arrives_of (by decide +kernel), by decide +kernel⟩,
   ⟨7, 7, tSeal (testFrame 15), { tOn with ports := [(7, tUp)] }, by decide +kernel, arrives_of (by decide +kernel)⟩⟩

theorem witness_RemoteAccess :
    (∃ (c : Instr) (p : Fin 8) (k : Fin 8) (f : Frame) (d : DstFlow) (a : Nat) (s : State), (c = .write p k f ∨ c =
      .mcRepair p k f) ∧ c.wf = true ∧ AtHome s p k f ∧ s.dstFlow (fSrc f) (fFlow f) = some d ∧ d.e = fSeq f ∧ fSync
      f = false ∧ d.heldFrames = [] ∧ d.heldSigs = [] ∧ s.windowAddr (fSrc f) (fWindow f) (fOff f) (fLen f) .write =
      some a ∧ s.cxl.snoop = []) ∧
    (∃ (c : Instr) (p : Fin 8) (k : Fin 8) (f : Frame) (d : DstFlow) (a : Nat) (s : State), (c = .write p k f ∨ c =
      .mcRepair p k f) ∧ c.wf = true ∧ AtHome s p k f ∧ s.dstFlow (fSrc f) (fFlow f) = some d ∧ d.e = fSeq f ∧ fSync
      f = false ∧ d.heldFrames = [] ∧ d.heldSigs = [] ∧ s.windowAddr (fSrc f) (fWindow f) (fOff f) (fLen f) .write =
      some a ∧ s.cxl.snoop = []) ∧
    (∃ (c : Instr) (p : Fin 8) (k : Fin 8) (f : Frame) (d : DstFlow) (s : State), (c = .write p k f ∨ c = .mcRepair p
      k f) ∧ c.wf = true ∧ AtHome s p k f ∧ s.dstFlow (fSrc f) (fFlow f) = some d ∧ d.e = fSeq f ∧ fSync f = false ∧
      d.heldFrames = [] ∧ d.heldSigs = [] ∧ s.windowAddr (fSrc f) (fWindow f) (fOff f) (fLen f) .write = none) ∧
    (∃ (p : Fin 8) (k : Fin 8) (f : Frame) (g : Frame) (d : DstFlow) (a : Nat) (n : Nat) (q : Nat) (r : List Seg) (s
      : State), (Instr.readReq p k f .clean).wf = true ∧ AtHome s p k f ∧ s.dstFlow (fSrc f) (fFlow f) = some d ∧ d.e
      = fSeq f ∧ fSync f = false ∧ d.heldFrames = [] ∧ d.heldSigs = [] ∧ d.group = none ∧ d.commits < 63 ∧ n = leNat
      ((fData f).take 8) % 8192 ∧ 0 < n ∧ n ≤ 256 ∧ s.windowAddr (fSrc f) (fWindow f) (fOff f) n .read = some a ∧
      s.routeTo (fSrc f) = some r ∧ s.routeFrame (withRoute (mkFrame 4 2 (boolNat (s.readsBad a n)) false
      s.cfg.device (fSrc f) (fFlow f) (fSeq f) (fWindow f) (fOff f) 0 (s.bytes a n)) r) = .send q g ∧ q ≠ p.val ∧
      (s.port q).version = 2 ∧ (s.port q).queue = [] ∧ (s.port q).canSend g = false) ∧
    (∃ (p : Fin 8) (k : Fin 8) (f : Frame) (d : DstFlow) (a : Nat) (s : State), (Instr.casReq p k f .clean).wf = true
      ∧ AtHome s p k f ∧ s.dstFlow (fSrc f) (fFlow f) = some d ∧ d.e = fSeq f ∧ fSync f = false ∧ d.heldFrames = [] ∧
      d.heldSigs = [] ∧ s.windowAddr (fSrc f) (fWindow f) (fOff f) 8 .cas = some a ∧ s.cxl.snoop = [] ∧ s.readsBad a
      8 = false) ∧
    (∃ (p : Fin 8) (k : Fin 8) (f : Frame) (d : DstFlow) (a : Nat) (s : State), (Instr.signalFrame p k f .clean).wf =
      true ∧ AtHome s p k f ∧ fClass f ≠ 3 ∧ fFlag f = false ∧ s.dstFlow (fSrc f) (fFlow f) = some d ∧ seqBefore
      (fSeq f) d.e = true ∧ d.rejected = [] ∧ s.windowAddr (fSrc f) (fWindow f) (fOff f) 8 .write = some a ∧
      s.cxl.snoop = [] ∧ s.readsBad a 8 = false ∧ countOf (s.readNat a 8) + leNat ((fData f).take 4) < 2 ^ 61) ∧
    (∃ (p : Fin 8) (k : Fin 8) (f : Frame) (d : DstFlow) (s : State), (Instr.signalFrame p k f .clean).wf = true ∧
      AtHome s p k f ∧ fClass f ≠ 3 ∧ fFlag f = false ∧ s.dstFlow (fSrc f) (fFlow f) = some d ∧ seqBefore (fSeq f)
      d.e = false) ∧
    (∃ (src : BitVec 15) (flow : BitVec 12) (f : Frame) (a : Nat) (s : State), s.dstFlow src.toNat flow.toNat = none
      ∧ (s.hnx.unopened.find? fun f => fType f == 7 && fSrc f == src.toNat && fFlow f == flow.toNat) = some f ∧
      s.windowAddr (fSrc f) (fWindow f) (fOff f) 8 .write = some a ∧ s.cxl.snoop = [] ∧ s.readsBad a 8 = false ∧
      bitOf (s.readNat a 8) 61 = false) ∧
    (∃ (src : BitVec 15) (flow : BitVec 12) (f : Frame) (d : DstFlow) (s : State), s.dstFlow src.toNat flow.toNat =
      some d ∧ d.heldFrames = [f] ∧ d.heldSigs = [] ∧ fType f = 2 ∧ d.group = none) ∧
    (∃ (src : BitVec 15) (flow : BitVec 12) (s : State), s.dstFlow src.toNat flow.toNat = none) :=
  ⟨⟨.write 7 7 (tFrame 2 2 0 0xFF8 0 [1, 2, 3, 4, 5, 6, 7, 8]), 7, 7, tFrame 2 2 0 0xFF8 0 [1, 2, 3, 4, 5, 6, 7, 8],
     tDst, 0x1FF8, tFab [] { Hnx.reset with dst := [tDst] }, .inl rfl, by decide +kernel,
     home_of (by decide +kernel), by decide +kernel⟩,
   ⟨.mcRepair 7 7 (tFrame 14 2 0 0xFF8 0 [1, 2, 3, 4, 5, 6, 7, 8]), 7, 7, tFrame 14 2 0 0xFF8 0
     [1, 2, 3, 4, 5, 6, 7, 8], tDst, 0x1FF8, tFab [] { Hnx.reset with dst := [tDst] }, .inr rfl, by decide +kernel,
     home_of (by decide +kernel), by decide +kernel⟩,
   ⟨.write 7 7 (tFrame 2 2 0 0xFF9 0 [1, 2, 3, 4, 5, 6, 7, 8]), 7, 7, tFrame 2 2 0 0xFF9 0 [1, 2, 3, 4, 5, 6, 7, 8],
     tDst, tFab [] { Hnx.reset with dst := [tDst] }, .inl rfl, by decide +kernel, home_of (by decide +kernel),
     by decide +kernel⟩,
   ⟨7, 7, tFrame 3 2 0 0xFF8 0 (leBytes 8 8), sentAs ((tFab [] { Hnx.reset with dst := [tDst] }).routeFrame
     (withRoute (mkFrame 4 2 0 false 0 1 5 3 15 0xFF8 0 (List.replicate 8 0)) tRoute)), tDst, 0x1FF8, 8, 0, tRoute,
     tFab [] { Hnx.reset with dst := [tDst] }, by decide +kernel, home_of (by decide +kernel), by decide +kernel⟩,
   ⟨7, 7, tFrame 5 2 0 0xFF8 0 (leBytes 8 0 ++ leBytes 8 7), tDst, 0x1FF8, tFab [] { Hnx.reset with dst := [tDst] },
     by decide +kernel, home_of (by decide +kernel), by decide +kernel⟩,
   ⟨7, 7, tFrame 7 1 0 0xFF8 0 (leBytes 8 1), { tDst with e := 4 }, 0x1FF8, tFab []
     { Hnx.reset with dst := [{ tDst with e := 4 }] }, by decide +kernel, home_of (by decide +kernel),
     by decide +kernel⟩,
   ⟨7, 7, tFrame 7 1 0 0xFF8 0 (leBytes 8 1), tDst, tFab [] { Hnx.reset with dst := [tDst] }, by decide +kernel,
     home_of (by decide +kernel), by decide +kernel⟩,
   ⟨1, 5, tFrame 7 1 0 0xFF8 0 (leBytes 8 1), 0x1FF8, tFab []
     { Hnx.reset with unopened := [tFrame 7 1 0 0xFF8 0 (leBytes 8 1)] }, by decide +kernel⟩,
   ⟨1, 5, tFrame 2 2 0 0xFF8 0 [1, 2, 3, 4, 5, 6, 7, 8],
     { tDst with heldFrames := [tFrame 2 2 0 0xFF8 0 [1, 2, 3, 4, 5, 6, 7, 8]], e := 2 }, tFab []
     { Hnx.reset with dst := [{ tDst with heldFrames := [tFrame 2 2 0 0xFF8 0 [1, 2, 3, 4, 5, 6, 7, 8]], e := 2 }] },
     by decide +kernel⟩,
   ⟨0x7FFF, 4095, tOn, by decide +kernel⟩⟩

theorem witness_FlowAnswers :
    (∃ (p : Fin 8) (k : Fin 8) (f : Frame) (e : SrcFlow) (s : State), (Instr.e2eAck p k f).wf = true ∧ AtHome s p k f
      ∧ s.boundGroup (fFlow f) = none ∧ s.srcFlow (fSrc f) (fFlow f) none = some e ∧ seqBefore (fSeq f) e.n = true ∧
      e.sigWait = [] ∧ (∀ b < 4, (s.bay b).streams = []) ∧ (∀ x ∈ s.threads, x.2.st ≠ .stalled) ∧ (∀ x ∈ s.hnx.src,
      x.backlog = [])) ∧
    (∃ (p : Fin 8) (k : Fin 8) (f : Frame) (s : State), (Instr.e2eNack p k f).wf = true ∧ AtHome s p k f ∧
      s.boundGroup (fFlow f) = none ∧ s.srcFlow (leNat ((fData f).drop 8) % 2 ^ 15) (fFlow f) none = none) ∧
    (∃ (p : Fin 8) (k : Fin 8) (f : Frame) (e : SrcFlow) (u : Sent) (s : State), (Instr.e2eNack p k f).wf = true ∧
      AtHome s p k f ∧ s.boundGroup (fFlow f) = none ∧ s.srcFlow (leNat ((fData f).drop 8) % 2 ^ 15) (fFlow f) none =
      some e ∧ ((e.unacked ++ e.waiting).filter fun u => decide ((u.fseq - BitVec.ofNat 32 (leNat ((fData f).take
      8))).toNat < leNat ((fData f).take 8) / 2 ^ 32 % 2 ^ 16)) = [u] ∧ leNat ((fData f).take 8) / 2 ^ 48 % 256 = 2 ∧
      u.answers = false ∧ e.backlog = []) ∧
    (∃ (dst : BitVec 15) (flow : BitVec 12) (e : SrcFlow) (u : Sent) (us : List Sent) (s : State), s.boundGroup
      flow.toNat = none ∧ s.srcFlow dst.toNat flow.toNat none = some e ∧ e.unacked = u :: us ∧ u.answers = false ∧
      e.backlog = [] ∧ e.sigWait = []) ∧
    (∃ (dst : BitVec 15) (flow : BitVec 12) (s : State), s.boundGroup flow.toNat = none ∧ s.srcFlow dst.toNat
      flow.toNat none = none) ∧
    (∃ (src : BitVec 15) (flow : BitVec 12) (d : DstFlow) (s : State), s.dstFlow src.toNat flow.toNat = some d ∧
      d.ackDue = false) ∧
    (∃ (src : BitVec 15) (flow : BitVec 12) (d : DstFlow) (s : State), s.dstFlow src.toNat flow.toNat = some d ∧
      d.ackDue = true) ∧
    (∃ (p : Fin 8) (k : Fin 8) (f : Frame) (e : SrcFlow) (u : Sent) (s : State), (Instr.readResp p k f).wf = true ∧
      AtHome s p k f ∧ s.srcFlow (fSrc f) (fFlow f) none = some e ∧ e.asked (fSeq f) = some u ∧ fFlag f = true ∧
      (s.ctx u.ctx).st = .running) ∧
    (∃ (p : Fin 8) (k : Fin 8) (f : Frame) (e : SrcFlow) (u : Sent) (s : State), (Instr.readResp p k f).wf = true ∧
      AtHome s p k f ∧ s.srcFlow (fSrc f) (fFlow f) none = some e ∧ e.asked (fSeq f) = some u ∧ fFlag f = false ∧
      u.len ≤ u.got + fLen f ∧ s.sentStep u = none ∧ (∀ b < 4, (s.bay b).streams = []) ∧ (∀ x ∈ s.threads, x.2.st ≠
      .stalled) ∧ (∀ x ∈ s.hnx.src, x.backlog = [])) ∧
    (∃ (p : Fin 8) (k : Fin 8) (f : Frame) (e : SrcFlow) (u : Sent) (a : Active) (va : Nat) (h : Nat) (s : State),
      (Instr.readResp p k f).wf = true ∧ AtHome s p k f ∧ s.srcFlow (fSrc f) (fFlow f) none = some e ∧ e.asked (fSeq
      f) = some u ∧ fFlag f = false ∧ s.sentStep u = some a ∧ a.atoms = [] ∧ u.dst ≠ 0 ∧ addrKind (u.dst - 1 + (fOff
      f - u.off)) = .own va ∧ 0 < fLen f ∧ (s.ctx u.ctx).pieces true va (fLen f) = .ok
      [{ host := true, addr := h, page := va / 2097152, len := fLen f }] ∧ (∀ x ∈ s.threads, x.2.wait = none)) ∧
    (∃ (p : Fin 8) (k : Fin 8) (f : Frame) (e : SrcFlow) (u : Sent) (a : Active) (d : Option Nat) (s : State),
      (Instr.casResp p k f).wf = true ∧ AtHome s p k f ∧ s.srcFlow (fSrc f) (fFlow f) none = some e ∧ e.asked (fSeq
      f) = some u ∧ fFlag f = false ∧ s.sentStep u = some a ∧ a.atoms = [(none, d)] ∧ (∀ b < 4, (s.bay b).streams =
      []) ∧ (∀ x ∈ s.threads, x.2.st ≠ .stalled) ∧ (∀ x ∈ s.hnx.src, x.backlog = [])) :=
  ⟨⟨7, 7, tFrame 8 0 0 0 0 (leBytes 8 0), tSrc, tFab [] { Hnx.reset with src := [tSrc] }, by decide +kernel,
     home_of (by decide +kernel), by decide +kernel⟩,
   ⟨7, 7, tFrame 9 0 0 0 0 (leBytes 8 (3 + 1 * 2 ^ 32 + 2 * 2 ^ 48) ++ leBytes 8 1), tFab [] Hnx.reset,
     by decide +kernel, home_of (by decide +kernel), by decide +kernel⟩,
   ⟨7, 7, tFrame 9 0 0 0 0 (leBytes 8 (3 + 1 * 2 ^ 32 + 2 * 2 ^ 48) ++ leBytes 8 1),
     { tSrc with unacked := [{ tSent with answers := false }] }, { tSent with answers := false }, tFab []
     { Hnx.reset with src := [{ tSrc with unacked := [{ tSent with answers := false }] }] }, by decide +kernel,
     home_of (by decide +kernel), by decide +kernel⟩,
   ⟨1, 5, { tSrc with unacked := [{ tSent with answers := false }] }, { tSent with answers := false }, [], tFab []
     { Hnx.reset with src := [{ tSrc with unacked := [{ tSent with answers := false }] }] }, by decide +kernel⟩,
   ⟨0x7FFF, 4095, tOn, by decide +kernel⟩,
   ⟨1, 5, { tDst with ackDue := false }, tFab [] { Hnx.reset with dst := [{ tDst with ackDue := false }] }, by
     decide +kernel⟩,
   ⟨1, 5, { tDst with ackDue := true }, tFab [] { Hnx.reset with dst := [{ tDst with ackDue := true }] }, by
     decide +kernel⟩,
   ⟨7, 7, tFrame 4 2 1 0xFF8 0 [1, 2, 3, 4, 5, 6, 7, 8], { tSrc with unacked := [tSent] }, tSent,
     { tFab [] { Hnx.reset with src := [{ tSrc with unacked := [tSent] }] } with ctxs := [(0, { Ctx.reset with st := .running })] },
     by decide +kernel, home_of (by decide +kernel), by decide +kernel⟩,
   ⟨7, 7, tFrame 4 2 0 0xFF8 0 [1, 2, 3, 4, 5, 6, 7, 8], { tSrc with unacked := [tSent] }, tSent, tFab []
     { Hnx.reset with src := [{ tSrc with unacked := [tSent] }] }, by decide +kernel, home_of (by decide +kernel),
     by decide +kernel⟩,
   ⟨7, 7, tFrame 4 2 0 0xFF8 0 [1, 2, 3, 4, 5, 6, 7, 8], { tSrc with unacked := [{ tSent with dst := 1 }] },
     { tSent with dst := 1 }, tActive 3, 0, 0x200000,
     { tFab [] { Hnx.reset with src := [{ tSrc with unacked := [{ tSent with dst := 1 }] }] } with ctxs := [(0, { Ctx.reset with st := .running, leaves := [{ vpage := 0, page := 0x200000, target := 3, writable := true }] })], threads := [(511, { Thread.reset with st := .ready, steps := [tActive 3] })] },
     by decide +kernel, home_of (by decide +kernel), by decide +kernel⟩,
   ⟨7, 7, tFrame 6 2 0 0xFF8 0 (leBytes 8 0), { tSrc with unacked := [tSent] }, tSent,
     { tActive 3 with atoms := [(none, some 1)] }, some 1,
     { tFab [] { Hnx.reset with src := [{ tSrc with unacked := [tSent] }] } with ctxs := [(0, { Ctx.reset with st := .running })], threads := [(511, { Thread.reset with st := .ready, steps := [{ tActive 3 with atoms := [(none, some 1)] }] })] },
     by decide +kernel, home_of (by decide +kernel), by decide +kernel⟩⟩

theorem witness_MulticastTree :
    (∃ (p : Fin 8) (k : Fin 8) (f : Frame) (g : Group) (s : State), (Instr.mcOpen p k f).wf = true ∧ Arrives s p k f
      ∧ (s.port p).version = 2 ∧ fE2e f = e2eOf f ∧ s.group? (fDst f % 1024) = some g ∧ g.member = true ∧
      s.hnx.branches = [] ∧ s.hnx.unopened = [] ∧ s.dstFlow (fSrc f) (fFlow f) = none ∧ s.hnx.dst.length < 16384) ∧
    (∃ (p : Fin 8) (k : Fin 8) (f : Frame) (g : Group) (d : DstFlow) (a : Nat) (s : State), (Instr.mcWrite p k f).wf
      = true ∧ Arrives s p k f ∧ (s.port p).version = 2 ∧ fE2e f = e2eOf f ∧ s.group? (fDst f % 1024) = some g ∧
      g.member = true ∧ s.hnx.branches = [] ∧ s.dstFlow (fSrc f) (fFlow f) = some d ∧ d.e = fSeq f ∧ d.heldFrames =
      [] ∧ d.heldSigs = [] ∧ s.windowAddr (fSrc f) (fWindow f) (fOff f) (fLen f) .write = some a ∧ s.cxl.snoop = []) ∧
    (∃ (p : Fin 8) (k : Fin 8) (f : Frame) (g : Group) (b : Branch) (s : State), (Instr.mcWrite p k f).wf = true ∧
      Arrives s p k f ∧ (s.port p).version = 2 ∧ s.group? (fDst f % 1024) = some g ∧ g.member = false ∧
      s.hnx.branches = [b] ∧ b.group = fDst f % 1024 ∧ b.skips f = false ∧ (s.port b.port).state ≠ .active ∧ (s.port
      b.port).version ≠ 1) ∧
    (∃ (p : Fin 8) (k : Fin 8) (f : Frame) (s : State), (Instr.mcAck p k f).wf = true ∧ Arrives s p k f ∧ (s.port
      p).version = 2 ∧ fE2e f = e2eOf f ∧ s.srcFlow 0 (fFlow f) (some (fTag f)) = none ∧ (∀ b < 4, (s.bay b).streams
      = [])) ∧
    (∃ (p : Fin 8) (k : Fin 8) (f : Frame) (g : Group) (up : Nat) (s : State), (Instr.mcPrune p k f).wf = true ∧
      Arrives s p k f ∧ (s.port p).version = 2 ∧ s.group? (fTag f) = some g ∧ g.upstream = some up ∧ up ≠ p.val ∧
      (s.port up).queue = [] ∧ (s.port up).canSend f = false) ∧
    (∃ (p : Fin 8) (k : Fin 8) (f : Frame) (g : Group) (e : SrcFlow) (u : Sent) (m : Nat) (s : State), (Instr.mcPrune
      p k f).wf = true ∧ Arrives s p k f ∧ (s.port p).version = 2 ∧ fE2e f = e2eOf f ∧ s.group? (fTag f) = some g ∧
      g.upstream = none ∧ s.srcFlow 0 (fFlow f) (some g.id) = some e ∧ (e.unacked.filter fun u => u.tag == leNat
      ((fData f).drop 8) % 16384 && seqUpTo (BitVec.ofNat 32 (leNat ((fData f).take 8))) u.fseq) = [u] ∧ u.src = 0 ∧
      groupUnder g (leNat ((fData f).take 8) / 2 ^ 32 % 2 ^ 15) (leNat ((fData f).take 8) / 2 ^ 48 % 8) = [m]) ∧
    (∃ (n : BitVec 10) (q : Fin 8) (g : Group) (b : Branch) (f : Frame) (up : Nat) (s : State), s.group? n.toNat =
      some g ∧ g.upstream = some up ∧ s.hnx.mcWait = [] ∧ (s.hnx.branches.find? fun b => b.group == n.toNat && b.port
      == q.val) = some b ∧ b.queue = [f] ∧ fType f = 10 ∧ (s.port q).canSend f = false) ∧
    (∃ (src : BitVec 15) (flow : BitVec 12) (f : Frame) (s : State), (s.hnx.unopened.find? fun f => fType f == 10 &&
      fSrc f == src.toNat && fFlow f == flow.toNat) = some f) ∧
    (∃ (src : BitVec 15) (flow : BitVec 12) (s : State), (∀ f ∈ s.hnx.unopened, ¬ (fType f = 10 ∧ fSrc f = src.toNat
      ∧ fFlow f = flow.toNat))) :=
  ⟨⟨7, 7, tMc 11 0 [], tGroup (some 7) true, tFab [tGroup (some 7) true] Hnx.reset, by decide +kernel,
     arrives_of (by decide +kernel), by decide +kernel⟩,
   ⟨7, 7, tMc 10 4 [1, 2, 3, 4, 5, 6, 7, 8], tGroup (some 7) true, { tDst with group := some 9 }, 0x1FF8, tFab
     [tGroup (some 7) true] { Hnx.reset with dst := [{ tDst with group := some 9 }] }, by decide +kernel,
     arrives_of (by decide +kernel), by decide +kernel⟩,
   ⟨7, 7, tMc 10 4 [1, 2, 3, 4, 5, 6, 7, 8], tGroup (some 7) false,
     { group := 9, port := 0, queue := [], pruned := [], lastAck := [] },
     { tFab [tGroup (some 7) false] { Hnx.reset with branches := [{ group := 9, port := 0, queue := [], pruned := [], lastAck := [] }] } with ports := [(7, tUp)] },
     by decide +kernel, arrives_of (by decide +kernel), by decide +kernel⟩,
   ⟨7, 7, tMc 12 9 [], tFab [tGroup (some 7) false] Hnx.reset, by decide +kernel, arrives_of (by decide +kernel),
     by decide +kernel⟩,
   ⟨7, 7, tMc 13 9 (leBytes 8 (3 + 1 * 2 ^ 32) ++ leBytes 8 0), tGroup (some 0) false, 0, tFab
     [tGroup (some 0) false] Hnx.reset, by decide +kernel, arrives_of (by decide +kernel), by decide +kernel⟩,
   ⟨7, 7, tMc 13 9 (leBytes 8 (3 + 1 * 2 ^ 32) ++ leBytes 8 0), tGroup none true,
     { tSrc with dst := 0, mc := some 9, unacked := [{ tSent with src := 0, answers := false }] },
     { tSent with src := 0, answers := false }, 1, tFab [tGroup none true]
     { Hnx.reset with src := [{ tSrc with dst := 0, mc := some 9, unacked := [{ tSent with src := 0, answers := false }] }] },
     by decide +kernel, arrives_of (by decide +kernel), by decide +kernel⟩,
   ⟨9, 0, tGroup (some 7) false,
     { group := 9, port := 0, queue := [tMc 10 4 [1, 2, 3, 4, 5, 6, 7, 8]], pruned := [], lastAck := [] }, tMc 10 4
     [1, 2, 3, 4, 5, 6, 7, 8], 7, tFab [tGroup (some 7) false]
     { Hnx.reset with branches := [{ group := 9, port := 0, queue := [tMc 10 4 [1, 2, 3, 4, 5, 6, 7, 8]], pruned := [], lastAck := [] }] },
     by decide +kernel⟩,
   ⟨1, 5, tMc 10 4 [1, 2, 3, 4, 5, 6, 7, 8], tFab [tGroup (some 7) false]
     { Hnx.reset with unopened := [tMc 10 4 [1, 2, 3, 4, 5, 6, 7, 8]] }, by decide +kernel⟩,
   ⟨0x7FFF, 4095, tOn, by decide +kernel⟩⟩

theorem witness_Honeycombs :
    (∃ (h : Fin 10) (s : State), 8 ≤ h.val ∧ (s.comb h).state = .starting) ∧
    (∃ (h : Fin 10) (s : State), h.val < 8 ∧ (s.comb h).state = .starting ∧ (s.lat h).state = .searching ∧ (s.lat
      h).phase = 0) ∧
    (∃ (h : Fin 10) (s : State), 8 ≤ h.val ∧ (s.comb h).state = .starting) ∧
    (∃ (h : Fin 10) (s : State), 8 ≤ h.val ∧ (s.comb h).state = .failed ∧ s.boot.on = true) ∧
    (∃ (_h : Fin 10) (p : List Int) (_s : State), p.length ≠ 128) ∧
    (∃ (h : Fin 10) (p : List Int) (s : State), p.length = 128 ∧ 8 ≤ h.val ∧ (s.comb h).state = .ready ∧ s.onPhase
      1000000000 0 = true ∧ s.cfg.lineSet.getD h [] = [] ∧ (∀ x ∈ p, -100 ≤ x)) ∧
    (∃ (h : Fin 10) (s : State), 8 ≤ h.val ∧ (s.comb h).state = .ready ∧ (s.comb h).lowPower = false) ∧
    (∃ (h : Fin 10) (_w : Int) (_a : Int) (_b : Nat) (s : State), 8 ≤ h.val ∧ (s.comb h).state = .ready ∧ s.onPhase
      864000000000000 0 = true) ∧
    (∃ (h : Fin 10) (_w : Int) (_a : Int) (_b : Nat) (s : State), 8 ≤ h.val ∧ (s.comb h).state = .ready ∧ s.onPhase
      864000000000000 0 = true) ∧
    (∃ (h : Fin 10) (p : List Int) (s : State), p.length = 128 ∧ 8 ≤ h.val ∧ (s.comb h).state = .ready ∧ s.onPhase
      1000000000 0 = true ∧ s.cfg.lineSet.getD h [] = [] ∧ (∃ x ∈ p, x < -100) ∧ (s.comb h).lowPower = false) ∧
    (∃ (_h : Fin 10) (p : List Int) (s : State), p.length = 128 ∧ s.onPhase 1000000000 0 = false) :=
  ⟨⟨8, { tOn with combs := [(8, { Comb.reset with state := .starting })] }, by decide +kernel⟩,
   ⟨7, { { tOn with combs := [(7, { Comb.reset with state := .starting })] } with lats := [(7, tLat .searching)] },
     by decide +kernel⟩,
   ⟨9, { tOn with combs := [(9, { Comb.reset with state := .starting })] }, by decide +kernel⟩,
   ⟨8, { tOn with combs := [(8, { Comb.reset with state := .failed })] }, by decide +kernel⟩,
   ⟨9, List.replicate 127 0, tOn, by decide +kernel⟩,
   ⟨9, List.replicate 128 (-100), { tOn with combs := [(9, { Comb.reset with state := .ready })] }, by
     decide +kernel⟩,
   ⟨9, { tOn with combs := [(9, { Comb.reset with state := .ready })] }, by decide +kernel⟩,
   ⟨9, 149, -1, 100, { tOn with combs := [(9, { Comb.reset with state := .ready })] }, by decide +kernel⟩,
   ⟨9, 301, 0, 100, { tOn with combs := [(9, { Comb.reset with state := .ready, bias := 7 })] }, by decide +kernel⟩,
   ⟨9, List.replicate 128 (-101), { tOn with combs := [(9, { Comb.reset with state := .ready })] }, by
     decide +kernel⟩,
   ⟨9, List.replicate 128 (-101),
     { { tOn with combs := [(9, { Comb.reset with state := .ready })] } with time := 9 }, by decide +kernel⟩⟩

theorem witness_ResonanceSearch :
    (∃ (l : Fin 8) (r : Fin 131072) (_d : BitVec 14) (s : State), (s.lat l).state = .searching ∧ (s.lat l).phase = 1
      ∧ (s.ringNow l r).st = .searching ∧ (s.ringNow l r).stopped = false ∧ (s.ringNow l r).code = 0) ∧
    (∃ (l : Fin 8) (r : Fin 131072) (d : BitVec 14) (s : State), (s.lat l).state = .searching ∧ (s.lat l).phase = 1 ∧
      (s.ringNow l r).st = .searching ∧ (s.ringNow l r).stopped = false ∧ (s.ringNow l r).code ≠ 0 ∧ (s.ringNow l
      r).rising = true ∧ d.toNat < (s.ringNow l r).prevDrop ∧ 4 * (s.ringNow l r).drop0 ≤ (s.ringNow l r).prevDrop) ∧
    (∃ (l : Fin 8) (r : Fin 131072) (_d : BitVec 14) (s : State), (s.lat l).state = .searching ∧ (s.lat l).phase = 1
      ∧ (s.ringNow l r).st = .searching ∧ (s.ringNow l r).stopped = false ∧ (s.ringNow l r).code = 4095 ∧ (s.ringNow
      l r).rising = false) ∧
    (∃ (l : Fin 8) (r : Fin 131072) (_d : BitVec 14) (s : State), (s.lat l).state = .searching ∧ (s.lat l).phase = 1
      ∧ (s.ringNow l r).st = .searching ∧ (s.ringNow l r).stopped = false ∧ (s.ringNow l r).code ≠ 0 ∧ (s.ringNow l
      r).code ≠ 4095 ∧ (s.ringNow l r).rising = false) ∧
    (∃ (l : Fin 8) (r : Fin 131072) (w : Vector (BitVec 14) 12) (s : State), (s.lat l).state = .searching ∧ (s.lat
      l).phase = 1 ∧ (s.ringNow l r).st = .searching ∧ (s.ringNow l r).stopped = true ∧ identityRead (frameWord
      (w.toList.map (·.toNat)) false) = some (r.val % 128) ∧ identityRead (frameWord (w.toList.map (·.toNat)) true) =
      some (r.val % 128)) ∧
    (∃ (l : Fin 8) (r : Fin 131072) (w : Vector (BitVec 14) 12) (s : State), (s.lat l).state = .searching ∧ (s.lat
      l).phase = 1 ∧ (s.ringNow l r).st = .searching ∧ (s.ringNow l r).stopped = true ∧ identityRead (frameWord
      (w.toList.map (·.toNat)) false) = none ∧ identityRead (frameWord (w.toList.map (·.toNat)) true) = none) ∧
    (∃ (l : Fin 8) (r : Fin 131072) (w : Vector (BitVec 14) 12) (s : State), (s.lat l).state = .searching ∧ (s.lat
      l).phase = 1 ∧ (s.ringNow l r).st = .searching ∧ (s.ringNow l r).stopped = true ∧ identityRead (frameWord
      (w.toList.map (·.toNat)) false) = some 126 ∧ identityRead (frameWord (w.toList.map (·.toNat)) true) = some 126) ∧
    (∃ (l : Fin 8) (r : Fin 131072) (w : Vector (BitVec 14) 12) (s : State), (s.lat l).state = .searching ∧ (s.lat
      l).phase = 1 ∧ (s.ringNow l r).st = .searching ∧ (s.ringNow l r).stopped = true ∧ identityRead (frameWord
      (w.toList.map (·.toNat)) false) = some 126 ∧ identityRead (frameWord (w.toList.map (·.toNat)) true) = some 126
      ∧ 126 < r.val % 128 + 120 ∧ (s.ringNow l r).maxima ≠ []) ∧
    (∃ (c : Instr) (l : Fin 8) (r : Fin 131072) (s : State), (s.lat l).state ≠ .searching ∧ ((∃ d, c =
      .searchRampVisit l r d) ∨ ∃ w, c = .identityFrame l r w)) :=
  ⟨⟨7, 131071, 0x3FFF,
     { tL 7 { tLat .searching with phase := 1 } with rings := [(1048575, { Ring.reset with st := .searching, code := 0, drop0 := 0, prevDrop := 0, rising := false, stopped := false })] },
     by decide +kernel⟩,
   ⟨7, 131071, 0,
     { tL 7 { tLat .searching with phase := 1 } with rings := [(1048575, { Ring.reset with st := .searching, code := 4095, drop0 := 1, prevDrop := 100, rising := true, stopped := false })] },
     by decide +kernel⟩,
   ⟨7, 131071, 0,
     { tL 7 { tLat .searching with phase := 1 } with rings := [(1048575, { Ring.reset with st := .searching, code := 4095, drop0 := 1, prevDrop := 0, rising := false, stopped := false })] },
     by decide +kernel⟩,
   ⟨7, 131071, 0,
     { tL 7 { tLat .searching with phase := 1 } with rings := [(1048575, { Ring.reset with st := .searching, code := 4094, drop0 := 1, prevDrop := 0, rising := false, stopped := false })] },
     by decide +kernel⟩,
   ⟨7, 131070, tSamples 126,
     { tL 7 { tLat .searching with phase := 1 } with rings := [(1048574, { Ring.reset with st := .searching, code := 100, stopped := true, maxima := [100] })] },
     by decide +kernel⟩,
   ⟨7, 131071, tGarbled,
     { tL 7 { tLat .searching with phase := 1 } with rings := [(1048575, { Ring.reset with st := .searching, code := 100, stopped := true, maxima := [100] })] },
     by decide +kernel⟩,
   ⟨7, 131071, tSamples 126,
     { tL 7 { tLat .searching with phase := 1 } with rings := [(1048575, { Ring.reset with st := .searching, code := 100, stopped := true, maxima := [100] })] },
     by decide +kernel⟩,
   ⟨7, 130952, tSamples 126,
     { tL 7 { tLat .searching with phase := 1 } with rings := [(1048456, { Ring.reset with st := .searching, code := 100, stopped := true, maxima := [100] })] },
     by decide +kernel⟩,
   ⟨.identityFrame 7 131071 tGarbled, 7, 131071, tL 7 (tLat .locked), by decide +kernel, .inr ⟨tGarbled, rfl⟩⟩⟩

theorem witness_IdentityRounds :
    (∃ (l : Fin 8) (s : State), ((s.lat l).state = .locked ∨ (s.lat l).state = .suspect ∨ ((s.lat l).state = .serving
      ∧ s.onPhase (s.fld .tmpCtrlIdPeriod (l.val / 2) * 1000000000) 0 = true))) ∧
    (∃ (l : Fin 8) (s : State), ((s.lat l).state = .locked ∨ (s.lat l).state = .suspect ∨ ((s.lat l).state = .serving
      ∧ s.onPhase (s.fld .tmpCtrlIdPeriod (l.val / 2) * 1000000000) 0 = true))) ∧
    (∃ (l : Fin 8) (s : State), (s.lat l).roundLeft = 3 ∧ (s.lat l).state = .serving ∧ s.rings = [] ∧ (s.bay (l /
      2)).upset = false) ∧
    (∃ (l : Fin 8) (r : Fin 131072) (d : BitVec 14) (s : State), (s.ringNow l r).st = .relocking ∧ (s.ringNow l
      r).stopped = false ∧ (s.ringNow l r).rising = true ∧ d.toNat < (s.ringNow l r).prevDrop) ∧
    (∃ (l : Fin 8) (r : Fin 131072) (_d : BitVec 14) (s : State), (s.ringNow l r).st = .relocking ∧ (s.ringNow l
      r).stopped = false ∧ (s.ringNow l r).rising = false ∧ (s.ringNow l r).code = 4095) ∧
    (∃ (l : Fin 8) (r : Fin 131072) (_d : BitVec 14) (s : State), (s.ringNow l r).st = .relocking ∧ (s.ringNow l
      r).stopped = false ∧ (s.ringNow l r).rising = false ∧ (s.ringNow l r).code = 4094) ∧
    (∃ (l : Fin 8) (r : Fin 131072) (s : State), (s.ringNow l r).st = .relocking ∧ (s.lat l).state ≠ .searching) ∧
    (∃ (l : Fin 8) (r : Fin 131072) (x : Ring) (s : State), (s.lat l).roundLeft = 3 ∧ (s.lat l).state = .serving ∧
      s.rings = [(ringKey l r, x)] ∧ s.ringState l r = .locked ∧ (s.bay (l / 2)).upset = false ∧ (toQ15 x.r -
      s.expectedSet l r (s.ringNow l r)).natAbs ≤ 856) ∧
    (∃ (l : Fin 8) (r : Fin 131072) (x : Ring) (e : Int) (s : State), (s.lat l).roundLeft = 3 ∧ (s.lat l).state =
      .serving ∧ s.rings = [(ringKey l r, x)] ∧ s.ringState l r = .locked ∧ (s.bay (l / 2)).upset = false ∧
      x.wrongTimes = [] ∧ e < -8) :=
  ⟨⟨7, tL 7 (tLat .suspect), by decide +kernel⟩,
   ⟨7, State.setFld (tL 7 (tLat .serving)) .tmpCtrlIdPeriod 3 10, by decide +kernel⟩,
   ⟨7, tL 7 { tLat .serving with roundLeft := 3 }, by decide +kernel⟩,
   ⟨7, 131071, 0,
     { tL 7 { tLat .serving with phase := 0 } with rings := [(1048575, { Ring.reset with st := .relocking, code := 4095, prevDrop := 100, rising := true, maxima := [7] })] },
     by decide +kernel⟩,
   ⟨7, 131071, 0,
     { tL 7 { tLat .serving with phase := 0 } with rings := [(1048575, { Ring.reset with st := .relocking, code := 4095, prevDrop := 0, rising := false, maxima := [7] })] },
     by decide +kernel⟩,
   ⟨7, 131071, 0,
     { tL 7 { tLat .serving with phase := 0 } with rings := [(1048575, { Ring.reset with st := .relocking, code := 4094, prevDrop := 0, rising := false, maxima := [7] })] },
     by decide +kernel⟩,
   ⟨7, 131071,
     { tL 7 { tLat .serving with phase := 0 } with rings := [(1048575, { Ring.reset with st := .relocking, code := 1, prevDrop := 0, rising := false, maxima := [7] })] },
     by decide +kernel⟩,
   ⟨7, 131071, { Ring.reset with st := .locked, r := 56098816, atPass := 0 },
     { tL 7 { tLat .serving with roundLeft := 3 } with rings := [(1048575, { Ring.reset with st := .locked, r := 56098816, atPass := 0 })] },
     by decide +kernel⟩,
   ⟨7, 131071, { Ring.reset with st := .locked, r := 56098816, atPass := 0 }, -9,
     { tL 7 { tLat .serving with roundLeft := 3 } with rings := [(1048575, { Ring.reset with st := .locked, r := 56098816, atPass := 0 })] },
     by decide +kernel⟩⟩

theorem witness_TemperAndHeaters :
    (∃ (l : Fin 8) (r : Fin 131072) (s : State), s.temperOn (l / 2) = true ∧ (s.bay (l / 2)).rise = false ∧
      s.searchOpen l = false ∧ s.onPhase 4915200 (300 * (rhoOf l r / 16)) = true ∧ s.traces = [] ∧ (∀ i, s.fld
      .tmpTraceCtrlMode i = 0) ∧ (s.ringNow l r).count % 8 ≠ rhoOf l r % 8 ∧ s.continuous (l.val / 2) (r.val % 256) =
      false ∧ (s.lat l).state = .locked ∧ s.ringState l r = .locked) ∧
    (∃ (l : Fin 8) (r : Fin 131072) (s : State), s.temperOn (l / 2) = true ∧ (s.bay (l / 2)).rise = false ∧
      s.searchOpen l = false ∧ s.onPhase 4915200 (300 * (rhoOf l r / 16)) = true ∧ s.traces = [] ∧ (∀ i, s.fld
      .tmpTraceCtrlMode i = 0) ∧ (s.ringNow l r).count % 8 ≠ rhoOf l r % 8 ∧ s.continuous (l.val / 2) (r.val % 256) =
      false ∧ (s.lat l).state = .locked ∧ s.ringState l r = .parked) ∧
    (∃ (l : Fin 8) (_r : Fin 131072) (s : State), (s.bay (l / 2)).rise = true) ∧
    (∃ (l : Fin 8) (r : Fin 131072) (_d : Int) (s : State), s.temperOn (l / 2) = true ∧ (s.bay (l / 2)).rise = true ∧
      s.onPhase 819200 (50 * (rhoOf l r / 16)) = true ∧ ((s.ringNow l r).st = .locked ∨ (s.ringNow l r).st =
      .parked)) ∧
    (∃ (p : Path) (b : Fin 4) (k : Nat) (s : State), s.served p = true ∧ k < 64 ∧ Block.down (s.bay b).unitState
      .temper = false ∧ s.swapBusy b k = false) ∧
    (∃ (p : Path) (b : Fin 4) (_v : Word) (s : State), s.served p = true ∧ Block.down (s.bay b).unitState .temper =
      true) ∧
    (∃ (p : Path) (b : Fin 4) (ch : Fin 4) (s : State), s.served p = true ∧ Block.down (s.bay b).unitState .temper =
      false ∧ s.fld .tmpTraceCtrlMode (b.val * 4 + ch.val) = 2 ∧ s.fld .tmpTraceCtrlTrigger (b.val * 4 + ch.val) = 0
      ∧ (s.trace (b.val * 4 + ch.val)).stopped = false ∧ (s.trace (b.val * 4 + ch.val)).remaining = none) ∧
    (∃ (p : Path) (b : Fin 4) (k : Nat) (s : State), s.served p = true ∧ k < 64 ∧ Block.down (s.bay b).unitState
      .temper = false ∧ s.swapBusy b k = true) ∧
    (∃ (p : Path) (b : Fin 4) (v : Word) (s : State), s.served p = true ∧ Block.down (s.bay b).unitState .monitor =
      false ∧ s.tokenPerm 0 = true ∧ s.convServing b (v.toNat % 256) = false) ∧
    (∃ (p : Path) (b : Fin 4) (_v : Word) (s : State), s.served p = true ∧ Block.down (s.bay b).unitState .monitor =
      false ∧ s.tokenPerm 0 = false) ∧
    (∃ (q : Fin 16384) (s : State), s.heatersOn (q / 4096) = true ∧ s.power.tripLatched = false ∧ s.onPhase 4096 0 =
      true ∧ (s.cluster q).queue = [] ∧ (s.cluster q).hold = false) :=
  ⟨⟨7, 131071,
     { tL 7 (tLat .locked) with rings := [(1048575, { Ring.reset with st := .locked, u := 100, atPass := 300 })], bays := [(3, { Bay.reset with power := .run, rise := false })], time := 491490 },
     and_five (by decide +kernel) ⟨fun _ => rfl, by decide +kernel⟩⟩,
   ⟨7, 131071,
     { tL 7 (tLat .locked) with rings := [(1048575, { Ring.reset with st := .parked, u := 100, atPass := 300 })], bays := [(3, { Bay.reset with power := .run, rise := false })], time := 491490 },
     and_five (by decide +kernel) ⟨fun _ => rfl, by decide +kernel⟩⟩,
   ⟨7, 131071, tB 3 { Bay.reset with rise := true }, by decide +kernel⟩,
   ⟨7, 131071, -1,
     { tL 7 (tLat .serving) with rings := [(1048575, { Ring.reset with st := .locked, u := 100, atPass := 300 })], bays := [(3, { Bay.reset with power := .run, rise := true })], time := 81915 },
     by decide +kernel⟩,
   ⟨.i3c, 3, 63, tOn, by decide +kernel⟩,
   ⟨.i3c, 3, 0xFF, tB 3 { Bay.reset with power := .proof }, by decide +kernel⟩,
   ⟨.vdm, 3, 3, State.setFld tOn .tmpTraceCtrlMode 15 2, by decide +kernel⟩,
   ⟨.i3c, 3, 63, tB 3 { Bay.reset with swaps := [(63, 1)] }, by decide +kernel⟩,
   ⟨.i3c, 3, 0x1FF, { tOn with sec := { Security.reset with token := some { perms := 1, expiry := 9 } } }, by
     decide +kernel⟩,
   ⟨.i3c, 3, 0x1FF, tOn, by decide +kernel⟩,
   ⟨16383, { tOn with clusters := [(16383, { Cluster.reset with taps := [(3, { Tap.reset with target := 9 })] })] },
     by decide +kernel⟩⟩

theorem witness_MonitorConversions :
    (∃ (k : Fin 1024) (_sl : MonSlot) (s : State), s.temperOn (k.val / 256) = false) ∧
    (∃ (k : Fin 1024) (m : Fin 1024) (_p : BitVec 16) (_g : Bool) (s : State), s.temperOn (k.val / 256) = true ∧
      s.continuous (k.val / 256) (k % 256) = false ∧ s.searchOpen (convRing k m).1 = false ∧ s.ringState (convRing k
      m).1 (convRing k m).2 = .locked ∧ (s.ring (ringKey (convRing k m).1 (convRing k m).2)).lowReads < 2 ∧ (s.ring
      (ringKey (convRing k m).1 (convRing k m).2)).shortReads < 2) ∧
    (∃ (k : Fin 1024) (m : Fin 1024) (_p : BitVec 16) (_g : Bool) (s : State), s.temperOn (k.val / 256) = true ∧
      s.continuous (k.val / 256) (k % 256) = false ∧ s.searchOpen (convRing k m).1 = false ∧ s.ringState (convRing k
      m).1 (convRing k m).2 = .locked ∧ (s.ring (ringKey (convRing k m).1 (convRing k m).2)).shortReads = 2) ∧
    (∃ (k : Fin 1024) (_m : Fin 1024) (_v : BitVec 14) (_pr : List (Fin 1024)) (s : State), s.temperOn (k.val / 256)
      = true ∧ s.continuous (k.val / 256) (k % 256) = false) ∧
    (∃ (k : Fin 1024) (m : Fin 1024) (e : BitVec 16) (s : State), s.temperOn (k.val / 256) = true ∧ s.continuous
      (k.val / 256) (k % 256) = false ∧ s.ringState (convRing k m).1 (convRing k m).2 = .locked ∧ (s.ringNow
      (convRing k m).1 (convRing k m).2).masked = false ∧ (e.toInt.natAbs : Int) < s.hop ((convRing k m).1 / 2)
      (s.ringNow (convRing k m).1 (convRing k m).2)) ∧
    (∃ (k : Fin 1024) (ch : Fin 4) (s : State), s.temperOn (k.val / 256) = true ∧ s.continuous (k.val / 256) (k %
      256) = false ∧ (s.conv k).refFault.contains ch = false) :=
  ⟨⟨1023, .drop 1023 0 [], tB 3 { Bay.reset with power := .cold }, by decide +kernel⟩,
   ⟨1023, 1023, 0x8000, true,
     { tL 7 (tLat .serving) with rings := [(1048575, { Ring.reset with st := .locked, shortReads := 1 })] }, by
     decide +kernel⟩,
   ⟨1023, 1023, 0x8000, true,
     { tL 7 (tLat .serving) with rings := [(1048575, { Ring.reset with st := .locked, shortReads := 2 })] }, by
     decide +kernel⟩,
   ⟨1023, 1023, 0, [1023], tL 7 (tLat .serving), by decide +kernel⟩,
   ⟨1023, 1023, 0xFFFF,
     { { tL 7 (tLat .serving) with rings := [(1048575, { Ring.reset with st := .locked, shortReads := 0 })] } with coefs := [(coefKey 3 0 0 7, 9)] },
     by decide +kernel⟩,
   ⟨1023, 3, tOn, by decide +kernel⟩⟩

theorem witness_NoncesAndTokenEnds :
    (∃ (p : Path) (s : State), s.served p = true) ∧
    (∃ (s : State), s.sec.nonceAt + 600000000000 ≤ s.time) ∧
    (∃ (p : Path) (n : BitVec 256) (s : State), s.served p = true ∧ s.sec.nonce = some n) ∧
    (∃ (c : Instr) (k : Token) (s : State), s.sec.token = some k ∧ (c = .tokenExpiry ∧ k.expiry ≤ s.time ∨ ∃ p, c =
      .tokenEnd p ∧ s.served p = true)) ∧
    (∃ (c : Instr) (k : Token) (s : State), s.sec.token = some k ∧ (c = .tokenExpiry ∧ k.expiry ≤ s.time ∨ ∃ p, c =
      .tokenEnd p ∧ s.served p = true)) ∧
    (∃ (c : Instr) (s : State), (c = .tokenExpiry ∨ ∃ p, c = .tokenEnd p ∧ s.served p = true) ∧ s.sec.token = none) :=
  ⟨⟨.vdm, tOn, by decide +kernel⟩,
   ⟨{ tNonce with time := 600000000000 }, by decide +kernel⟩,
   ⟨.vdm, 1, tNonce, by decide +kernel⟩,
   ⟨.tokenExpiry, { perms := 1, expiry := 9 },
     { { tOn with sec := { Security.reset with token := some { perms := 1, expiry := 9 } } } with time := 9 },
     by decide +kernel, .inl ⟨rfl, by decide⟩⟩,
   ⟨.tokenEnd .bar0, { perms := 1, expiry := 9 },
     { tOn with sec := { Security.reset with token := some { perms := 1, expiry := 9 } } }, by decide +kernel,
     .inr ⟨.bar0, rfl, by decide +kernel⟩⟩,
   ⟨.tokenExpiry, tOn, .inl rfl, by decide +kernel⟩⟩

theorem witness_Tokens :
    (∃ (c : Instr) (p : Path) (k : Nat) (v : Verdict) (d : Bool) (s : State), SubmitsKind c p k v d ∧ s.served p =
      true ∧ s.tokenKind = k ∧ s.checkToken v d = 0) ∧
    (∃ (c : Instr) (p : Path) (k : Nat) (n : Nat) (v : Verdict) (d : Bool) (s : State), SubmitsKind c p k v d ∧
      s.served p = true ∧ s.tokenKind = k ∧ s.checkToken v d = n + 1) ∧
    (∃ (c : Instr) (p : Path) (k : Nat) (v : Verdict) (d : Bool) (s : State), SubmitsKind c p k v d ∧ s.served p =
      true ∧ s.tokenKind = k ∧ s.checkToken v d = 0) ∧
    (∃ (c : Instr) (p : Path) (k : Nat) (v : Verdict) (d : Bool) (s : State), SubmitsKind c p k v d ∧ s.served p =
      true ∧ s.tokenKind = k ∧ s.checkToken v d = 0) ∧
    (∃ (c : Instr) (p : Path) (k : Nat) (n : Nat) (v : Verdict) (d : Bool) (s : State), SubmitsKind c p k v d ∧
      s.served p = true ∧ s.tokenKind = k ∧ s.checkToken v d = n + 1) ∧
    (∃ (v : Verdict) (_d : Bool) (_s : State), (v.ed = false ∨ v.ml = false)) :=
  ⟨⟨.tokenDebug .vdm tGood true, .vdm, 0, tGood, true,
     { tNonce with sec := { tNonce.sec with ownFuses := 0, buf := memStore [] 0 (tToken 0 0 60 0) } }, .inl ⟨rfl,
     rfl⟩, by decide +kernel⟩,
   ⟨.tokenDebug .vdm ⟨true, false, true⟩ true, .vdm, 0, 4, ⟨true, false, true⟩, true,
     { tNonce with sec := { tNonce.sec with ownFuses := 0, buf := memStore [] 0 (tToken 0 0 60 0) } }, .inl ⟨rfl,
     rfl⟩, by decide +kernel⟩,
   ⟨.ownerEnrol .vdm tGood true, .vdm, 1, tGood, true,
     { tNonce with sec := { tNonce.sec with ownFuses := 0, buf := memStore [] 0 (tToken 1 1 0 1984) } }, .inr (.inl
     ⟨rfl, rfl⟩), by decide +kernel⟩,
   ⟨.ownerRelease .vdm tGood true, .vdm, 2, tGood, true,
     { tNonce with sec := { tNonce.sec with ownFuses := 1, buf := memStore [] 0 (tToken 2 1 0 0) }, flash := { State.reset.flash with owner := some [1] } },
     .inr (.inr ⟨rfl, rfl⟩), by decide +kernel⟩,
   ⟨.ownerRelease .vdm ⟨true, false, true⟩ true, .vdm, 2, 4, ⟨true, false, true⟩, true,
     { tNonce with sec := { tNonce.sec with ownFuses := 1, buf := memStore [] 0 (tToken 2 1 0 0) }, flash := { State.reset.flash with owner := some [1] } },
     .inr (.inr ⟨rfl, rfl⟩), by decide +kernel⟩,
   ⟨⟨true, false, true⟩, true, tOn, by decide +kernel⟩⟩

theorem witness_SpdmSetup :
    (∃ (c : Conn) (s : State), ConnOpen s c) ∧
    (∃ (c : Conn) (s : State), ConnOpen s c ∧ (s.spdm c).versionGot = true) ∧
    (∃ (c : Conn) (s : State), ConnOpen s c ∧ (s.spdm c).capsGot = true) ∧
    (∃ (c : Conn) (a : Bool) (b : Bool) (s : State), ConnOpen s c ∧ (s.spdm c).capsGot = true ∧ (a && b) = false) ∧
    (∃ (c : Conn) (s : State), ConnOpen s c ∧ (s.spdm c).negotiated = true) ∧
    (∃ (c : Conn) (_off : Nat) (_len : Nat) (s : State), ConnOpen s c ∧ (s.spdm c).negotiated = true) ∧
    (∃ (c : Conn) (slot : Nat) (_off : Nat) (_len : Nat) (s : State), ConnOpen s c ∧ (s.spdm c).negotiated = true ∧
      slot ≠ 0) ∧
    (∃ (c : Conn) (_off : BitVec 32) (_len : BitVec 16) (s : State), ConnOpen s c ∧ (s.spdm c).negotiated = true) :=
  ⟨⟨.doe, tOn, by decide +kernel⟩,
   ⟨.vdm,
     { tOn with mgmt := { Mgmt.reset with spdm := [Spdm.reset, Spdm.reset, { Spdm.reset with versionGot := true }] } },
     by decide +kernel⟩,
   ⟨.vdm,
     { tOn with mgmt := { Mgmt.reset with spdm := [Spdm.reset, Spdm.reset, { Spdm.reset with capsGot := true }] } },
     by decide +kernel⟩,
   ⟨.vdm, true, false,
     { tOn with mgmt := { Mgmt.reset with spdm := [Spdm.reset, Spdm.reset, { Spdm.reset with capsGot := true }] } },
     by decide +kernel⟩,
   ⟨.vdm,
     { tOn with mgmt := { Mgmt.reset with spdm := [Spdm.reset, Spdm.reset, { Spdm.reset with negotiated := true }] } },
     by decide +kernel⟩,
   ⟨.vdm, 0, 65535,
     { tOn with mgmt := { Mgmt.reset with spdm := [Spdm.reset, Spdm.reset, { Spdm.reset with negotiated := true }] } },
     by decide +kernel⟩,
   ⟨.vdm, 1, 0, 1,
     { tOn with mgmt := { Mgmt.reset with spdm := [Spdm.reset, Spdm.reset, { Spdm.reset with negotiated := true }] } },
     by decide +kernel⟩,
   ⟨.vdm, 0xFFFF_FFFF, 0xFFFF,
     { tOn with mgmt := { Mgmt.reset with spdm := [Spdm.reset, Spdm.reset, { Spdm.reset with negotiated := true }] } },
     by decide +kernel⟩⟩

theorem witness_SpdmAttestation :
    (∃ (c : Conn) (_n : BitVec 256) (s : State), ConnOpen s c ∧ (s.spdm c).negotiated = true) ∧
    (∃ (c : Conn) (_sg : Bool) (_n : BitVec 256) (s : State), ConnOpen s c ∧ (s.spdm c).negotiated = true) ∧
    (∃ (c : Conn) (_sg : Bool) (_n : BitVec 256) (s : State), ConnOpen s c ∧ (s.spdm c).negotiated = true) ∧
    (∃ (c : Conn) (_n : BitVec 256) (s : State), ConnOpen s c ∧ (s.spdm c).negotiated = true) ∧
    (∃ (c : Conn) (i : Nat) (_sg : Bool) (_n : BitVec 256) (s : State), ConnOpen s c ∧ (s.spdm c).negotiated = true ∧
      5 < i ∧ i ≠ 0xFF) ∧
    (∃ (c : Conn) (i : Nat) (_sg : Bool) (_n : BitVec 256) (s : State), ConnOpen s c ∧ (s.spdm c).negotiated = true ∧
      5 < i ∧ i ≠ 0xFF) ∧
    (∃ (c : Conn) (s : State), ConnOpen s c ∧ (s.spdm c).signed = true) ∧
    (∃ (c : Conn) (s : State), ConnOpen s c ∧ (s.spdm c).large ≠ []) ∧
    (∃ (r : Instr) (c : Conn) (s : State), ConnOpen s c ∧ (r = .countersign c ∧ (s.spdm c).signed = false ∨ r =
      .getDigests c ∧ (s.spdm c).negotiated = false ∨ r = .getCapabilities c ∧ (s.spdm c).versionGot = false)) ∧
    (∃ (r : Instr) (c : Conn) (s : State), ConnOpen s c ∧ (r = .countersign c ∧ (s.spdm c).signed = false ∨ r =
      .getDigests c ∧ (s.spdm c).negotiated = false ∨ r = .getCapabilities c ∧ (s.spdm c).versionGot = false)) :=
  ⟨⟨.vdm, 1,
     { tOn with mgmt := { Mgmt.reset with spdm := [Spdm.reset, Spdm.reset, { Spdm.reset with negotiated := true }] } },
     by decide +kernel⟩,
   ⟨.vdm, true, 1,
     { tOn with mgmt := { Mgmt.reset with spdm := [Spdm.reset, Spdm.reset, { Spdm.reset with negotiated := true }] } },
     by decide +kernel⟩,
   ⟨.vdm, false, 1,
     { tOn with mgmt := { Mgmt.reset with spdm := [Spdm.reset, Spdm.reset, { Spdm.reset with negotiated := true }] } },
     by decide +kernel⟩,
   ⟨.vdm, 1,
     { tOn with mgmt := { Mgmt.reset with spdm := [Spdm.reset, Spdm.reset, { Spdm.reset with negotiated := true }] } },
     by decide +kernel⟩,
   ⟨.vdm, 6, true, 1,
     { tOn with mgmt := { Mgmt.reset with spdm := [Spdm.reset, Spdm.reset, { Spdm.reset with negotiated := true }] } },
     by decide +kernel⟩,
   ⟨.vdm, 254, true, 1,
     { tOn with mgmt := { Mgmt.reset with spdm := [Spdm.reset, Spdm.reset, { Spdm.reset with negotiated := true }] } },
     by decide +kernel⟩,
   ⟨.vdm,
     { tOn with mgmt := { Mgmt.reset with spdm := [Spdm.reset, Spdm.reset, { Spdm.reset with signed := true }] } },
     by decide +kernel⟩,
   ⟨.vdm,
     { tOn with mgmt := { Mgmt.reset with spdm := [Spdm.reset, Spdm.reset, { Spdm.reset with large := [1] }] } }, by
     decide +kernel⟩,
   ⟨.countersign .vdm, .vdm, tOn, by decide +kernel, .inl ⟨rfl, by decide +kernel⟩⟩,
   ⟨.getCapabilities .vdm, .vdm, tOn, by decide +kernel, .inr (.inr ⟨rfl, by decide +kernel⟩)⟩⟩

end Sys2Proof.Tests
end

section
/-! PROOFS. Register accesses by BAR0 and over management (R5, R424, R439, R441), and the machine right after reset (R7). -/

namespace Sys2Proof.Machine

/-! ## The machine right after reset -/

/-- A field that nothing has written reads its reset value (R7). -/
theorem State.fld_of_flds_nil {s : State} (hs : s.flds = []) (f : Fld) (i : Nat) (hf : f.reset < 2 ^ 64) :
    s.fld f i = f.reset := by
  simpa [State.fld, State.fldAt, hs, tget] using hf

theorem inv_reset : Inv State.reset where
  waiting := rfl
  mem := rfl
  hostMem := rfl
  log := ⟨rfl, fun _ _ h => by simp [State.reset] at h⟩

/-- Settles O3: every table of the reset state is empty, so that each unit reads its own reset value. -/
theorem resetState : Obligations.ResetState := by
  refine ⟨inv_reset, fun f i hf => State.fld_of_flds_nil rfl f i hf, ?lattices, ?ports, ?combs, rfl, rfl, ?memory, rfl, rfl,
    rfl⟩
  case lattices => exact fun _ => rfl
  case ports => exact fun _ => rfl
  case combs => exact fun _ => rfl
  case memory => exact fun _ => rfl

/-! ## Who is served -/

section
variable {s : State} {ep : Ep} (h : EpOpen s ep)
include h

theorem State.auxOnly_of_epOpen : s.auxOnly ep = false := by
  obtain ⟨hon, -, -⟩ := h
  simp [State.auxOnly, hon]

theorem State.reaches_of_epOpen : s.reaches ep = true := by
  obtain ⟨hon, -, ⟨rfl, haux⟩ | ⟨rfl, hl0⟩⟩ := h
  · simp [State.reaches, hon, haux]
  · simp [State.reaches, hon, hl0]

theorem State.request_of_epOpen (f : State → State) : s.request ep f = f s := by
  have hreach := State.reaches_of_epOpen h
  obtain ⟨-, hup, -⟩ := h
  simp [State.request, hreach, hup]

end

/-! ## Writes -/

/-- Every aligned word written on the link goes to the register of its offset (R5). -/
theorem exec_registerWrite_aligned (off : BitVec 26) (v : Word) (s : State) (hl : s.linkUp = true)
    (ha : off.toNat % 8 = 0) :
    exec (.registerWrite off 8 v) s = .next (s.writeReg .bar0 off.toNat v.toNat) := by
  change execRegisterWrite off 8 v s = _
  simp [execRegisterWrite, hl, ha]

/-- An access of another width or place does nothing (R5). -/
theorem exec_registerWrite_misfit (off : BitVec 26) (n : Nat) (v : Word) (s : State) (h : n ≠ 8 ∨ off.toNat % 8 ≠ 0) :
    exec (.registerWrite off n v) s = .next s := by
  change execRegisterWrite off n v s = _
  obtain h | h := h
  · simp [execRegisterWrite, h]
  · simp [execRegisterWrite, h]

theorem exec_writeRegisterCmd_aligned {ep : Ep} {s : State} (h : EpOpen s ep) (off : BitVec 26) (v : Word)
    (ha : off.toNat % 8 = 0) :
    exec (.writeRegisterCmd ep off v) s = .next { s.writeReg (epPath ep) off.toNat v.toNat with reply := .done } := by
  change execWriteRegisterCmd ep off v s = _
  simp [execWriteRegisterCmd, State.auxOnly_of_epOpen h, State.request_of_epOpen h, ha, State.answer]

theorem exec_writeRegisterCmd_auxOnly {ep : Ep} {s : State} (h : s.auxOnly ep = true) (off : BitVec 26) (v : Word) :
    exec (.writeRegisterCmd ep off v) s = .next { s with reply := .error plError } := by
  change execWriteRegisterCmd ep off v s = _
  simp [execWriteRegisterCmd, h, State.answer]

theorem State.writeReg_no_register (s : State) (p : Path) (off v : Nat) (hr : regAt off = none)
    (ho : off < 0x80_0000 ∨ 0x82_0080 ≤ off) : s.writeReg p off v = s := by
  have hregs : (decide (0x80_0000 ≤ off) && decide (off < 0x82_0000)) = false := by simp; omega
  have hmsix : (decide (0x82_0000 ≤ off) && decide (off < 0x82_0080)) = false := by simp; omega
  simp [State.writeReg, hregs, hmsix, hr]

/-- A word where no register lies goes nowhere. -/
theorem exec_registerWrite_no_register (off : BitVec 26) (v : Word) (s : State) (hl : s.linkUp = true)
    (ha : off.toNat % 8 = 0) (hr : regAt off.toNat = none) (ho : off.toNat < 0x80_0000 ∨ 0x82_0080 ≤ off.toNat) :
    exec (.registerWrite off 8 v) s = .next s := by
  rw [exec_registerWrite_aligned off v s hl ha, State.writeReg_no_register s _ _ _ hr ho]

theorem regAt_devScratch : regAt (Reg.devScratch.addr 0) = some (.devScratch, 0, 0) := by decide

/-- DEV_SCRATCH takes the whole word, whatever path writes it. -/
theorem State.writeReg_devScratch (s : State) (p : Path) (v : Nat) (hr : s.boot.reread = false) :
    s.writeReg p (Reg.devScratch.addr 0) v = s.setFld .devScratchData 0 v := by
  have hto : s.writeReg p (Reg.devScratch.addr 0) v = s.setFldAt .devScratchData 0 (pathNum p) (v / 2 ^ 0 % 2 ^ 64) := by
    simp only [State.writeReg, hr, regAt_devScratch]
    rfl
  rw [hto, State.setFld, State.setFldAt, State.setFldAt, Nat.pow_zero, Nat.div_one,
    show Fld.devScratchData.width = 64 from rfl, Nat.mod_mod]
  rfl

theorem exec_registerWrite_devScratch (v : Word) (s : State) (hl : s.linkUp = true) (hr : s.boot.reread = false) :
    exec (.registerWrite (BitVec.ofNat 26 (Reg.devScratch.addr 0)) 8 v) s =
      .next (s.setFld .devScratchData 0 v.toNat) := by
  rw [exec_registerWrite_aligned _ v s hl (by decide), ← State.writeReg_devScratch s .bar0 _ hr]
  rfl

theorem exec_writeRegisterCmd_devScratch {ep : Ep} {s : State} (h : EpOpen s ep) (v : Word) (hr : s.boot.reread = false) :
    exec (.writeRegisterCmd ep (BitVec.ofNat 26 (Reg.devScratch.addr 0)) v) s =
      .next { s.setFld .devScratchData 0 v.toNat with reply := .done } := by
  rw [exec_writeRegisterCmd_aligned h _ v (by decide), ← State.writeReg_devScratch s (epPath ep) _ hr]
  rfl

/-! ## Reads over management -/

theorem exec_readRegisterCmd_open {ep : Ep} {s : State} (h : EpOpen s ep) (off : BitVec 26) :
    exec (.readRegisterCmd ep off) s = .next (s.readCmd (epPath ep) off.toNat) := by
  change execReadRegisterCmd ep off s = _
  simp [execReadRegisterCmd, State.auxOnly_of_epOpen h, State.request_of_epOpen h]

/-- A read other than of SEC_NONCE0 changes nothing but the answer. -/
theorem State.readCmd_eq (s : State) (p : Path) (off : Nat) (hn : off ≠ Reg.secNonce.addr 0) :
    s.readCmd p off = { s with reply := counterReply off (s.readAccess p off 8) } := by
  simp [State.readCmd, hn, State.answer]

/-- A counter of the register at `off` stands at its largest value in the register's value `v` (R424). -/
def counterFull (off v : Nat) : Bool :=
  (regAt off).any fun e => e.1.fields.any fun f => f.counts && decide (v / 2 ^ f.lo % 2 ^ f.width = 2 ^ f.width - 1)

theorem counterReply_eq (off v : Nat) : counterReply off v =
    if counterFull off v then .saturated (BitVec.ofNat 64 v) else .value (BitVec.ofNat 64 v) := rfl

theorem counterFull_eq_false {off v : Nat} (h : (regAt off).all (fun e => e.1.fields.all fun f => !f.counts ||
    decide (v / 2 ^ f.lo % 2 ^ f.width ≠ 2 ^ f.width - 1)) = true) : counterFull off v = false := by
  unfold counterFull
  cases hr : regAt off with
  | none => rfl
  | some e =>
    simp only [hr, Option.all_some, List.all_eq_true, Bool.or_eq_true, Bool.not_eq_true', decide_eq_true_eq] at h
    simp only [Option.any_some, List.any_eq_false, Bool.and_eq_true, decide_eq_true_eq, not_and]
    exact fun f hf hc => (h f hf).resolve_left (by simp [hc])

theorem regAt_mem {off : Nat} {e : Reg × Nat × Nat} (h : regAt off = some e) : e.1 ∈ Reg.all := by
  simp only [regAt, Option.bind_eq_some_iff, Option.map_eq_some_iff] at h
  obtain ⟨_, -, r, hr, rfl⟩ := h
  exact List.mem_of_find?_eq_some hr

theorem counters_have_bits : ∀ r ∈ Reg.all, ∀ f ∈ r.fields, f.counts = true → 0 < f.width := by decide +kernel

/-- No counter is full where a register reads zeros. -/
theorem counterFull_zero (off : Nat) : counterFull off 0 = false := by
  refine counterFull_eq_false ?_
  simp only [Option.all_eq_true, List.all_eq_true, Bool.or_eq_true, Bool.not_eq_true', decide_eq_true_eq]
  intro e he f hf
  by_cases hc : f.counts = true
  · have hw : 2 ≤ 2 ^ f.width := Nat.le_self_pow (counters_have_bits _ (regAt_mem he) f hf hc).ne' 2
    right
    simp
    omega
  · exact .inl (by simpa using hc)

theorem exec_readRegisterCmd_unaligned {ep : Ep} {s : State} (h : EpOpen s ep) (off : BitVec 26)
    (ha : off.toNat % 8 ≠ 0) : exec (.readRegisterCmd ep off) s = .next { s with reply := .value 0 } := by
  have hn : off.toNat ≠ Reg.secNonce.addr 0 := fun e => ha (by rw [e]; rfl)
  simp [exec_readRegisterCmd_open h, State.readCmd_eq _ _ _ hn, counterReply_eq, State.readAccess, ha, counterFull_zero]

theorem exec_readRegisterCmd_aligned {ep : Ep} {s : State} (h : EpOpen s ep) (off : BitVec 26)
    (ha : off.toNat % 8 = 0) (hn : off.toNat ≠ Reg.secNonce.addr 0) :
    exec (.readRegisterCmd ep off) s =
      .next { s with reply := counterReply off.toNat (s.readReg (epPath ep) off.toNat) } := by
  simp [exec_readRegisterCmd_open h, State.readCmd_eq _ _ _ hn, State.readAccess, ha]

/-- A register none of whose counters is full answers its value, without the flag. -/
theorem exec_readRegisterCmd_value {ep : Ep} {s : State} (h : EpOpen s ep) (off : BitVec 26) (ha : off.toNat % 8 = 0)
    (hn : off.toNat ≠ Reg.secNonce.addr 0) (hf : counterFull off.toNat (s.readReg (epPath ep) off.toNat) = false) :
    exec (.readRegisterCmd ep off) s =
      .next { s with reply := .value (BitVec.ofNat 64 (s.readReg (epPath ep) off.toNat)) } := by
  simp [exec_readRegisterCmd_aligned h off ha hn, counterReply_eq, hf]

/-! ## DEV_REFUSED, whose fields the state holds as whole words -/

theorem regAt_devRefused : regAt (Reg.devRefused.addr 0) = some (.devRefused, 0, 0) := by decide

/-- The register's value is the sum of its fields' words in their places, which overlap where a word does not fit its
field. -/
theorem State.readReg_devRefused (s : State) (p : Path) (hr : s.boot.reread = false) :
    s.readReg p (Reg.devRefused.addr 0) =
      s.fld .devRefusedCount * 2 ^ 32 + s.fld .devRefusedPath * 2 ^ 30 + s.fld .devRefusedOffset := by
  have hreg : s.readReg p (Reg.devRefused.addr 0) = s.regValue (pathNum p) 0 0 .devRefused := by
    simp only [State.readReg, hr, regAt_devRefused]
    rfl
  have hsum : s.regValue (pathNum p) 0 0 .devRefused = 0 + s.fld .devRefusedCount * 2 ^ 32 +
      s.fld .devRefusedPath * 2 ^ 30 + s.fld .devRefusedOffset * 2 ^ 0 := rfl
  omega

theorem counterFull_devRefused (v : Nat) :
    counterFull (Reg.devRefused.addr 0) v = decide (v / 2 ^ 32 % 2 ^ 32 = 2 ^ 32 - 1) := by
  have hcount : Fld.devRefusedCount.counts = true := by decide
  have hpath : Fld.devRefusedPath.counts = false := by decide
  have hoffset : Fld.devRefusedOffset.counts = false := by decide
  simp only [counterFull, regAt_devRefused, Option.any_some, Reg.fields, List.any_cons, List.any_nil, hcount, hpath,
    hoffset, Bool.true_and, Bool.false_and, Bool.or_false]
  rfl

/-- The saturated flag (R424) where the path and the offset fit their fields, as every write of a field leaves them
(`State.setFldAt`), and in a configuration re-read, whose all ones show a full counter. -/
theorem exec_readRegisterCmd_devRefused_full {ep : Ep} {s : State} (h : EpOpen s ep)
    (hc : s.fld .devRefusedCount = 2 ^ Fld.devRefusedCount.width - 1) (hp : s.fld .devRefusedPath < 2 ^ 2)
    (ho : s.fld .devRefusedOffset < 2 ^ 26) :
    exec (.readRegisterCmd ep (BitVec.ofNat 26 (Reg.devRefused.addr 0))) s = .next { s with
      reply := .saturated (BitVec.ofNat 64 (s.readReg (epPath ep) (Reg.devRefused.addr 0))) } := by
  have hfull : s.readReg (epPath ep) (Reg.devRefused.addr 0) / 2 ^ 32 % 2 ^ 32 = 2 ^ 32 - 1 := by
    cases hr : s.boot.reread with
    | false =>
      rw [State.readReg_devRefused s _ hr, hc, show Fld.devRefusedCount.width = 32 from rfl]
      omega
    | true =>
      have hones : s.readReg (epPath ep) (Reg.devRefused.addr 0) = 2 ^ 64 - 1 := by
        simp only [State.readReg, hr]
        rfl
      omega
  rw [exec_readRegisterCmd_aligned h _ (by decide) (by decide),
    show (BitVec.ofNat 26 (Reg.devRefused.addr 0)).toNat = Reg.devRefused.addr 0 from rfl, counterReply_eq,
    counterFull_devRefused, hfull]
  rfl

/-- A running device whose count of refused writes is full, and whose word of DEV_REFUSED.OFFSET does not fit the field's
26 bits. -/
def offsetTooWide : State :=
  { State.reset with
    boot := { State.reset.boot with on := true }
    flds := [(Fld.devRefusedOffset.key 0 0, 2 ^ 32), (Fld.devRefusedCount.key 0 0, 2 ^ 32 - 1)] }

theorem epOpen_offsetTooWide : EpOpen offsetTooWide .i3c := ⟨rfl, rfl, .inl ⟨rfl, rfl⟩⟩

/-- The offset's excess carries into the count, which then reads 0. -/
theorem readReg_offsetTooWide : offsetTooWide.readReg .i3c (Reg.devRefused.addr 0) = 2 ^ 64 := by
  have hcount : offsetTooWide.fld .devRefusedCount = 2 ^ 32 - 1 := by decide
  have hpath : offsetTooWide.fld .devRefusedPath = 0 := by decide
  have hoffset : offsetTooWide.fld .devRefusedOffset = 2 ^ 32 := by decide
  rw [State.readReg_devRefused _ _ rfl, hcount, hpath, hoffset]
  rfl

theorem exec_readRegisterCmd_offsetTooWide :
    exec (.readRegisterCmd .i3c (BitVec.ofNat 26 (Reg.devRefused.addr 0))) offsetTooWide =
      .next { offsetTooWide with reply := .value 0 } := by
  have hshown : counterFull (Reg.devRefused.addr 0) (offsetTooWide.readReg .i3c (Reg.devRefused.addr 0)) = false := by
    rw [readReg_offsetTooWide, counterFull_devRefused]
    rfl
  rw [exec_readRegisterCmd_value epOpen_offsetTooWide _ (by decide) (by decide) (by exact hshown),
    show offsetTooWide.readReg (epPath .i3c) (BitVec.ofNat 26 (Reg.devRefused.addr 0)).toNat = 2 ^ 64 from
      readReg_offsetTooWide]
  rfl

/-- Refutes O9 in its clause on a saturated counter alone, which speaks of every state: in `offsetTooWide` the count of
DEV_REFUSED is full, but the register's value shows it as 0, so that the answer has no saturated flag. No write of a field
leaves such a word, and where the fields' words fit the clause holds (`exec_readRegisterCmd_devRefused_full`). -/
theorem not_registerAccess : ¬ Obligations.RegisterAccess := by
  unfold Obligations.RegisterAccess
  rintro ⟨-, -, -, -, -, -, -, hsaturated, -⟩
  have hclaimed := hsaturated .i3c offsetTooWide epOpen_offsetTooWide (by decide)
  rw [exec_readRegisterCmd_offsetTooWide] at hclaimed
  injection hclaimed with hstate
  have hreply := congrArg State.reply hstate
  contradiction

end Sys2Proof.Machine
end

section
/-! PROOFS. One step of the queue and device time (R15), the cold start (R349, R458), and what a warm restart writes to
a portal (R143). -/

namespace Sys2Proof.Machine

/-! ## One step -/

theorem step_of_no_command {s : State} (h : s.pending = []) : step s = .next (idleTick s) := by
  simp [step, h]

theorem idleTick_of_stopped {s : State} (h : s.boot.on = false) : idleTick s = s := by
  simp [idleTick, timeRuns, h]

/-- Outside a start, device time is all that passes. -/
theorem idleTick_of_running {s : State} (hon : s.boot.on = true) (hphase : s.boot.phase = 0) :
    idleTick s = { s with time := s.time + 1 } := by
  simp [idleTick, timeRuns, hon, State.nextPhase, hphase]

/-- Settles O1: an idle step's own clauses are the cases of `idleTick`, which keeps the queue as every operation does. -/
theorem stepRunsTheFront : Obligations.StepRunsTheFront := by
  refine ⟨fun _ _ => rfl, fun s hq hoff => ?stopped, fun s hq hon hphase => ?running, fun s hq => ?ends⟩
  case stopped => rw [step_of_no_command hq, idleTick_of_stopped hoff]
  case running => rw [step_of_no_command hq, idleTick_of_running hon hphase]
  case ends =>
    have hkept : (idleTick s).pending = s.pending := (idleTick_keeps s (Keeps.refl s)).pending
    exact ⟨idleTick s, step_of_no_command hq, hkept.trans hq⟩

/-! ## The cold start -/

/-- A cold start leaves the pins as they are, but for the deferral that it ends. -/
theorem State.coldStart_pins (s : State) :
    s.coldStart.pins = { s.pins with deferred := false, refArmed := true, xspiReset := false } := rfl

/-- What a cold start keeps of `s` it takes from flash, journal, fuses and host memory alone. -/
theorem State.startedCold_coldStart {s z : State} (hjnl : z.jnl = s.jnl) (hflash : z.flash = s.flash)
    (hsec : z.sec = s.sec) (hhost : z.hostMem = s.hostMem) : StartedCold s z.coldStart := by
  rw [StartedCold, ← hjnl, ← hflash, ← hsec, ← hhost]
  exact ⟨rfl, rfl, rfl, rfl, rfl, rfl, rfl, rfl, rfl, rfl, rfl, rfl, rfl, rfl, rfl, rfl⟩

theorem exec_perstNDeassert_in_time {ms : Nat} {s : State} (hp : s.pins.perst = true) (hstart : s.mayStart = true)
    (hms : 100 ≤ ms) :
    exec (.perstNDeassert ms) s = .next { s with pins := { s.pins with perst := false } }.coldStart := by
  change execPerstNDeassert ms s = _
  have hstart' : { s with pins := { s.pins with perst := false } }.mayStart = true := hstart
  simp [execPerstNDeassert, hp, hstart', hms]

theorem exec_perstNDeassert_too_early {ms : Nat} {s : State} (hp : s.pins.perst = true)
    (hearly : ¬ (s.mayStart = true ∧ 100 ≤ ms)) :
    exec (.perstNDeassert ms) s = .next { s with pins := { s.pins with perst := false, deferred := true } } := by
  change execPerstNDeassert ms s = _
  have hearly' : ¬ ({ s with pins := { s.pins with perst := false } }.mayStart = true ∧ 100 ≤ ms) := hearly
  simp [execPerstNDeassert, hp, hearly']

theorem exec_perstDeferredEffect_starts {s : State} (hdeferred : s.pins.deferred = true) (haux : s.pins.aux = true)
    (hok : s.pins.pwrOk = true) (htrip : s.power.tripLatched = false) :
    exec .perstDeferredEffect s = .next { s with pins := { s.pins with railsOk := true } }.coldStart := by
  change execPerstDeferredEffect s = _
  simp [execPerstDeferredEffect, State.mayStart, hdeferred, haux, hok, htrip]

/-- Settles O13: in time, and deferred, the device cold starts from `s` with other pins; too early it only waits. -/
theorem deassertionStartsCold : Obligations.DeassertionStartsCold := by
  refine ⟨fun ms s hp hstart hms => ?inTime, fun ms s hp hearly => exec_perstNDeassert_too_early hp hearly,
    fun s hdeferred haux hok htrip => ?deferred⟩
  case inTime =>
    exact ⟨_, exec_perstNDeassert_in_time hp hstart hms, State.startedCold_coldStart rfl rfl rfl rfl,
      by rw [State.coldStart_pins]⟩
  case deferred =>
    exact ⟨_, exec_perstDeferredEffect_starts hdeferred haux hok htrip, State.startedCold_coldStart rfl rfl rfl rfl,
      by rw [State.coldStart_pins]⟩

/-! ## A warm restart with a BIND in progress -/

/-- In STAGE 5 whoever may ask for a restart gets one at once (R350, R351). -/
theorem exec_nvmRestart_accepted {p : Path} {s : State} (hserved : s.served p = true)
    (hallowed : hostAllowed p s.cfg.grantRestart = true) (hstage : s.boot.stage = 5) :
    exec (.nvmRestart p) s = .next s.warmRestart := by
  have hon : s.boot.on = true := (Bool.and_eq_true_iff.mp hserved).1
  change execNvmRestart p s = _
  simp [execNvmRestart, State.writeRestart, State.requestRestart, hserved, hallowed, hon, hstage]

/-- A portal of one entry, at 16 MiB. -/
def oneEntryPortal : Portal :=
  { base := 16 * mib, entries := 1, first := 0, leaseMs := 0, priority := 0, threads := 1, xfer := 1, share := 1,
    powerFloor := 0, permPower := false, permSigned := false, permFabric := false, permHost := false, attic := 0,
    regions := [] }

/-- A device in STAGE 5 whose one portal entry is claimed (CLAIM is 1) and holds a BIND that has not been processed (CMD
is operation 1 with sequence 1; R144). -/
def bindInProgress : State :=
  { State.reset with
    boot := { State.reset.boot with on := true, stage := 5 }
    cfg := { Configuration.unset with portals := [oneEntryPortal] }
    mem := [(16 * mib, 1), (16 * mib + 0x28, 1), (16 * mib + 0x2C, 1)] }

theorem inv_bindInProgress : Inv bindInProgress where
  waiting := rfl
  mem := by decide
  hostMem := rfl
  log := ⟨rfl, fun _ _ h => by simp [bindInProgress, State.reset] at h⟩

/-- The portal is one a configuration may declare (R345, R346). -/
theorem oneEntryPortal_ok : Portal.ok oneEntryPortal = true := by decide

theorem bindInProgress_claimed_with_bind : bindInProgress.claimed 0 0 = true ∧
    bindInProgress.portalCmd 0 0 = some { ctx := 0, op := 1, arg := 0, seq := 1 } := by decide +kernel

/-- Byte 3 of the entry's STATUS word is the result of its last command (R144). -/
theorem byte_bindInProgress : bindInProgress.byte (16 * mib + 0x33) = 0 := by decide

-- The restart runs over all 512 threads.
set_option maxRecDepth 4000 in
/-- The restart writes RESTARTED there (R143; log entry 45). -/
theorem byte_warmRestart_bindInProgress :
    bindInProgress.warmRestart.byte (16 * mib + 0x33) = BitVec.ofNat 8 resRestarted := by decide +kernel

/-- Refutes O20 in its clause on NVM_RESTART, which leaves the device's memory as it was in every state: with
`bindInProgress` the restart abandons a BIND, whose result RESTARTED it writes to the portal's STATUS word (R143). -/
theorem not_restarts : ¬ Obligations.Restarts := by
  unfold Obligations.Restarts
  rintro ⟨hrestart, -⟩
  have hrestarted := hrestart .i3c bindInProgress rfl (by decide) rfl
  obtain ⟨t, hexec, -, -, -, -, -, -, -, -, -, -, hmem, -⟩ := hrestarted
  rw [exec_nvmRestart_accepted rfl (by decide) rfl] at hexec
  injection hexec with ht
  have hsame : t.byte (16 * mib + 0x33) = bindInProgress.byte (16 * mib + 0x33) := by rw [State.byte, hmem, State.byte]
  rw [← ht, byte_warmRestart_bindInProgress, byte_bindInProgress] at hsame
  exact absurd hsame (by decide)

end Sys2Proof.Machine
end

section
/-! PROOFS. What a lattice's entry into a state changes (R40), and what the reports that go with it leave alone: events, alerts,
status changes, outages, the end of a start (R349, R352, R410, R418 to R423, R442). -/

namespace Sys2Proof.Machine

/-! ## What reporting leaves alone -/

/-- The fields by which events, outages, status changes and alerts show (R410, R420, R423, R442), and CAL_STATUS.STALE. -/
def reportFields : List Fld :=
  [.calStatusStale, .evtErrCntWarnPlus, .jnlHoldDropped, .evtAvailUs] ++ (upTo 7).map alertFld ++ (upTo 10).map chgFld

/-- From `s` to `t` no more has happened than reporting: time, device memory, threads, bays and honeycombs are the same, a
lattice's own record has changed in its outage and its episode at most, and a field only where it is one of `reportFields`. -/
structure Spares (s t : State) : Prop where
  time : t.time = s.time
  mem : t.mem = s.mem
  threads : t.threads = s.threads
  bays : t.bays = s.bays
  combs : t.combs = s.combs
  lat : ∀ k, ∃ e m o, t.lat k = { s.lat k with episode := e, episodeMet := m, outageFrom := o }
  fld : ∀ (f : Fld) (i : Nat), f.place ∉ reportFields.map Fld.place → i < 4096 → t.fld f i = s.fld f i

namespace Spares

theorem refl (s : State) : Spares s s := ⟨rfl, rfl, rfl, rfl, rfl, fun _ => ⟨_, _, _, rfl⟩, fun _ _ _ _ => rfl⟩

theorem trans {s t u : State} (h : Spares s t) (g : Spares t u) : Spares s u where
  time := g.time.trans h.time
  mem := g.mem.trans h.mem
  threads := g.threads.trans h.threads
  bays := g.bays.trans h.bays
  combs := g.combs.trans h.combs
  lat k := by
    obtain ⟨e, m, o, ht⟩ := h.lat k
    obtain ⟨e', m', o', hu⟩ := g.lat k
    exact ⟨e', m', o', by rw [hu, ht]⟩
  fld f i hf hi := (g.fld f i hf hi).trans (h.fld f i hf hi)

/-- A change of other parts of the state. -/
theorem of_eq {s t : State} (htime : t.time = s.time) (hmem : t.mem = s.mem) (hthreads : t.threads = s.threads)
    (hbays : t.bays = s.bays) (hcombs : t.combs = s.combs) (hlats : t.lats = s.lats)
    (hfld : ∀ (f : Fld) (i : Nat), f.place ∉ reportFields.map Fld.place → i < 4096 → t.fld f i = s.fld f i) : Spares s t :=
  ⟨htime, hmem, hthreads, hbays, hcombs, fun k => ⟨_, _, _, by rw [State.lat_congr hlats k]⟩, hfld⟩

theorem flag {s t : State} (h : Spares s t) {f : Fld} {i : Nat} (hf : f.place ∉ reportFields.map Fld.place) (hi : i < 4096) :
    t.flag f i = s.flag f i := by rw [State.flag, h.fld f i hf hi, State.flag]

theorem latState {s t : State} (h : Spares s t) (k : Nat) : (t.lat k).state = (s.lat k).state := by
  obtain ⟨e, m, o, hk⟩ := h.lat k
  rw [hk]

theorem forEach {α : Type} {f : State → α → State} (hf : ∀ s a, Spares s (f s a)) (l : List α) (s : State) :
    Spares s (forEach l f s) := by
  induction l generalizing s with
  | nil => exact refl s
  | cons a l ih => exact (hf s a).trans (ih (f s a))

theorem ite {s t u : State} {c : Prop} [Decidable c] (ht : Spares s t) (hu : Spares s u) :
    Spares s (if c then t else u) := by split <;> assumption

end Spares

theorem Fld.key_ne_of_not_mem {f g : Fld} {i j : Nat} (hg : g.place ∉ reportFields.map Fld.place) (hf : f ∈ reportFields)
    (hi : i < 4096) (hj : j < 4096) : g.key j 0 ≠ f.key i 0 :=
  Fld.key_ne (fun h => hg (h ▸ List.mem_map_of_mem hf)) hi hj

theorem chgFld_mem (k : Nat) : chgFld k ∈ reportFields := by
  unfold chgFld
  split <;> decide

theorem alertFld_mem (k : Nat) : alertFld k ∈ reportFields := by
  unfold alertFld
  split <;> decide

theorem eventFields_subset :
    [Fld.evtErrCntWarnPlus, .jnlHoldDropped, .evtAlertError, .evtAlertJnlDrop, .devStatusChgAlert] ⊆ reportFields := by decide

theorem Fld.key_not_event {g : Fld} {j : Nat} (hg : g.place ∉ reportFields.map Fld.place) (hj : j < 4096) :
    g.key j 0 ∉ eventKeys :=
  Fld.key_event (fun h => hg (List.map_subset _ eventFields_subset h)) hj

namespace State

variable (s : State)

theorem setFld_spares {f : Fld} (i v : Nat) (hf : f ∈ reportFields) (hi : i < 4096) : Spares s (s.setFld f i v) :=
  .of_eq rfl rfl rfl rfl rfl rfl fun _ _ hg hj =>
    State.fld_setFld_ne _ _ _ _ _ _ (Fld.key_ne_of_not_mem hg hf hi hj)

theorem markChg_spares (k : Nat) : Spares s (s.markChg k) :=
  .of_eq (by simp) (by simp) (by simp) (by simp) (by simp) (by simp) fun _ _ hg hj =>
    State.fld_markChg (Fld.key_ne_of_not_mem hg (chgFld_mem k) (by decide) hj)

theorem setAlert_spares (k : Nat) : Spares s (s.setAlert k) :=
  .of_eq (by simp) (by simp) (by simp) (by simp) (by simp) (by simp) fun _ _ hg hj =>
    State.fld_setAlert (Fld.key_ne_of_not_mem hg (alertFld_mem k) (by decide) hj)
      (Fld.key_ne_of_not_mem hg (by decide) (by decide) hj)

theorem event_spares (ev : Ev) (uk : UnitKind) (u c : Nat) (ps : List Nat) : Spares s (s.event ev uk u c ps) :=
  .of_eq (by simp) (by simp) (by simp) (by simp) (by simp) (by simp) fun _ _ hg hj =>
    State.fld_event (Fld.key_not_event hg hj)

theorem journal_spares (k : JKind) (p : List Nat) : Spares s (s.journal k p) :=
  .of_eq (by simp) (by simp) (by simp) (by simp) (by simp) (by simp) fun _ _ hg hj =>
    State.fld_journal (Fld.key_not_event hg hj)

theorem sensorChange_spares (id v : Nat) : Spares s (s.sensorChange id v) :=
  .of_eq (by simp) (by simp) (by simp) (by simp) (by simp) (by simp) fun _ _ _ _ => State.fld_congr (by simp) _ _

theorem setBoot_spares (b : Boot) : Spares s { s with boot := b } :=
  .of_eq rfl rfl rfl rfl rfl rfl fun _ _ _ _ => rfl

/-- A change of one lattice's outage or episode. -/
theorem setLat_spares (l : Nat) (e o : Option Nat) (m : Bool) :
    Spares s (s.setLat l { s.lat l with episode := e, episodeMet := m, outageFrom := o }) where
  time := rfl
  mem := rfl
  threads := rfl
  bays := rfl
  combs := rfl
  lat k := by
    by_cases hk : k = l
    · exact hk ▸ ⟨e, m, o, by rw [lat_setLat_same]⟩
    · exact ⟨_, _, _, by rw [lat_setLat_ne _ _ _ _ hk]⟩
  fld _ _ _ _ := rfl

/-! ## Outages and the end of a start -/

theorem outage_spares (k : Nat) (uk : UnitKind) (u d w : Nat) : Spares s (s.outage k uk u d w) := by
  have hcount : Spares s ((s.event .evtOutage uk u noCtx [k, d, w]).bump .evtAvailUs 0 (w / 1000)) :=
    (s.event_spares ..).trans (setFld_spares _ _ _ (by decide) (by decide))
  unfold State.outage
  dsimp only
  split
  · exact hcount.trans (setAlert_spares ..)
  · exact hcount

theorem startOutage_spares (l : Nat) : Spares s (s.startOutage l) := s.setLat_spares l _ _ _

theorem endOutage_spares (l : Nat) : Spares s (s.endOutage l) := by
  have hnone : Spares s (s.modLat l fun x => { x with outageFrom := none }) := s.setLat_spares l _ _ _
  unfold State.endOutage
  split
  · exact .refl s
  · dsimp only
    split
    · exact hnone.trans (outage_spares ..)
    · exact hnone

theorem setStage_spares (v : Nat) : Spares s (s.setStage v) := by
  unfold State.setStage
  split
  · exact .refl s
  · exact (s.setBoot_spares _).trans ((markChg_spares ..).trans (sensorChange_spares ..))

theorem setSec_spares (x : Security) : Spares s { s with sec := x } :=
  .of_eq rfl rfl rfl rfl rfl rfl fun _ _ _ _ => rfl

theorem commitSvn_spares : Spares s s.commitSvn := by
  unfold State.commitSvn
  split
  · exact .refl s
  · split
    · exact (s.setSec_spares _).trans (journal_spares ..)
    · exact .refl s

theorem coldDone_spares : Spares s s.coldDone := by
  unfold State.coldDone
  dsimp only
  split
  · exact (s.setBoot_spares _).trans (outage_spares ..)
  · exact s.setBoot_spares _

theorem warmDone_spares : Spares s s.warmDone := by
  unfold State.warmDone
  dsimp only
  refine (((s.setBoot_spares _).trans (markChg_spares ..)).trans (event_spares ..)).trans
    ((outage_spares ..).trans (.forEach (fun s l => ?_) _ _))
  split
  · exact s.startOutage_spares l
  · exact .refl s

theorem finishStart_spares : Spares s s.finishStart := by
  have hstage : Spares s (s.setStage 5).commitSvn := (s.setStage_spares 5).trans (commitSvn_spares _)
  unfold State.finishStart
  split
  · exact .refl s
  · dsimp only
    split
    · exact hstage.trans (warmDone_spares _)
    · exact hstage.trans (coldDone_spares _)

/-! ## Entering a state -/

theorem setStale_spares (l : Nat) (v : Bool) (hl : l < 4096) : Spares s (s.setStale l v) := by
  have hset : Spares s ((s.setFld .calStatusStale l (boolNat v)).markChg 4) :=
    (s.setFld_spares l _ (by decide) hl).trans (markChg_spares ..)
  unfold State.setStale
  split
  · exact .refl s
  · dsimp only
    split
    · exact hset.trans (setAlert_spares ..)
    · exact hset

theorem dropEpisode_spares (l : Nat) (hl : l < 4096) : Spares s (s.dropEpisode l) :=
  (s.setLat_spares l _ _ _).trans (setStale_spares _ l _ hl)

end State

/-- A lattice's record as it enters a state at `time` (R40). -/
def Lattice.entered (x : Lattice) (st : LatState) (phase cause time : Nat) : Lattice :=
  let served := x.state == .serving || x.state == .suspect
  let serves := st == .serving || st == .suspect
  let keep := serves || st == .locked || (st == .draining && x.toLocked)
  { x with
    state := st, phase := phase, cause := cause, entryTime := time
    held := if keep then x.held else []
    selfTest := if keep then x.selfTest else []
    leftServing := if !keep then none else if served && !serves then some time else x.leftServing }

/-- What entering a state does besides reporting: the lattice has its new record, and as it locks its residual is 0. -/
def State.place (s : State) (l : Nat) (st : LatState) (phase cause : Nat) : State :=
  let t := s.setLat l ((s.lat l).entered st phase cause s.time)
  if st = .locked && (s.lat l).state ≠ .locked then t.setFld .latResidRms l 0 else t

theorem State.enterLat_spares (s : State) (l : Nat) (st : LatState) (phase cause : Nat) (hl : l < 4096) :
    Spares (s.place l st phase cause) (s.enterLat l st phase cause) := by
  unfold State.enterLat
  extract_lets x served serves keep t1 placed t3 t4 t5 t6 t7 t8
  change Spares placed _
  have hsensor : Spares placed t3 := .ite (sensorChange_spares ..) (.refl _)
  have hserving : Spares t3 t4 := .ite (markChg_spares ..) (.refl _)
  have hfenced : Spares t4 t5 := .ite (markChg_spares ..) (.refl _)
  have hsuspect : Spares t5 t6 := .ite (markChg_spares ..) (.refl _)
  have halert : Spares t6 t7 := .ite (setAlert_spares ..) (.refl _)
  have hepisode : Spares t7 t8 := .ite (dropEpisode_spares _ l hl) (.refl _)
  have houtage : Spares t8 (if st = .serving || st = .fenced then t8.endOutage l else t8) :=
    .ite (endOutage_spares ..) (.refl _)
  exact hsensor.trans <| hserving.trans <| hfenced.trans <| hsuspect.trans <| halert.trans <| hepisode.trans <|
    houtage.trans (finishStart_spares _)

/-! ## Targets and the state that follows them -/

theorem State.latTarget_congr {s t : State} {l : Nat} (hstate : (t.lat l).state = .fenced ↔ (s.lat l).state = .fenced)
    (hbays : t.bays = s.bays) (hen : t.flag .latCtrlEn l = s.flag .latCtrlEn l)
    (hkeep : t.flag .latCtrlKeepLit l = s.flag .latCtrlKeepLit l) : t.latTarget l = s.latTarget l := by
  simp only [State.latTarget, State.bay_congr hbays, hen, hkeep, hstate]

/-- EN asks for SERVING in a bay in RUN (R39). -/
theorem State.latTarget_of_run {s : State} {l : Nat} (hstate : (s.lat l).state ≠ .fenced)
    (hpower : (s.bay (l / 2)).latPower = .run) (hen : s.flag .latCtrlEn l = true) : s.latTarget l = .serving := by
  simp [State.latTarget, hstate, hpower, hen]

/-- Reporting leaves a lattice's target. -/
theorem Spares.latTarget {s t : State} (h : Spares s t) {l : Nat} (hl : l < 4096) : t.latTarget l = s.latTarget l :=
  State.latTarget_congr (by rw [h.latState]) h.bays (h.flag (by decide) hl) (h.flag (by decide) hl)

section
variable (s : State) (l : Nat) (st : LatState) (phase cause : Nat)

@[simp] theorem State.place_mem : (s.place l st phase cause).mem = s.mem := by unfold State.place; split <;> rfl
@[simp] theorem State.place_threads : (s.place l st phase cause).threads = s.threads := by
  unfold State.place; split <;> rfl
@[simp] theorem State.place_bays : (s.place l st phase cause).bays = s.bays := by unfold State.place; split <;> rfl

@[simp] theorem State.lat_place :
    (s.place l st phase cause).lat l = (s.lat l).entered st phase cause s.time := by
  unfold State.place
  split <;> simp

theorem State.fld_place {f : Fld} {i : Nat} (hf : f.place ≠ Fld.latResidRms.place) (hl : l < 4096) (hi : i < 4096) :
    (s.place l st phase cause).fld f i = s.fld f i := by
  unfold State.place
  split
  · exact State.fld_setFld_ne _ _ _ _ _ _ (Fld.key_ne hf)
  · rfl

theorem State.fld_place_locked (h : (s.lat l).state ≠ .locked) : (s.place l .locked phase cause).fld .latResidRms l = 0 := by
  have hset : ∀ t : State, (t.setFld .latResidRms l 0).fld .latResidRms l = 0 := fun t => by
    rw [State.fld_setFld_same _ _ _ _ (by decide)]
    rfl
  simp [State.place, h, hset]

/-- A lattice that is not fenced and does not become so keeps its target. -/
theorem State.latTarget_place (h : (s.lat l).state ≠ .fenced) (hst : st ≠ .fenced) (hl : l < 4096) :
    (s.place l st phase cause).latTarget l = s.latTarget l :=
  State.latTarget_congr (by simp [Lattice.entered, h, hst]) (s.place_bays ..)
    (by rw [State.flag, s.fld_place _ _ _ _ (by decide) hl hl, State.flag])
    (by rw [State.flag, s.fld_place _ _ _ _ (by decide) hl hl, State.flag])

end

theorem State.follow_serving {s : State} {l : Nat} (hstate : (s.lat l).state = .serving)
    (houtage : (s.lat l).outageFrom = none) : s.follow l = s := by
  simp [State.follow, hstate, State.endOutage, houtage]

/-- A LOCKED lattice whose target is LOCKED stays so. -/
theorem State.follow_locked {s : State} {l : Nat} (hstate : (s.lat l).state = .locked) (htarget : s.latTarget l = .locked) :
    s.follow l = s.endOutage l := by
  simp [State.follow, hstate, htarget]

/-- A DARK lattice whose target is SERVING starts its search once the device has come far enough (R40, R349). -/
theorem State.follow_dark {s : State} {l : Nat} (hstate : (s.lat l).state = .dark) (htarget : s.latTarget l = .serving)
    (hon : s.boot.on = true) (hstage : s.boot.stage = 5) : s.follow l = s.lightUp l (s.lat l).why := by
  simp [State.follow, hstate, htarget, hon, hstage]

end Sys2Proof.Machine
end

section
/-! PROOFS. LAT_CTRL (R39 to R41) and the end of a search (R40, R50, R294 to R296). -/

namespace Sys2Proof.Machine

/-! ## Writes of LAT_CTRL -/

theorem exec_latCtrlWrite_refused {p : Path} {l : Fin 8} {v : Word} {s : State} (hserved : s.served p = true)
    (hgrant : hostAllowed p s.cfg.grantLattice = false) :
    exec (.latCtrlWrite p l v) s = .next (s.refuse p (Reg.latCtrl.addr l) v.toNat) := by
  change execLatCtrlWrite p l v s = _
  simp [execLatCtrlWrite, hserved, hgrant]

theorem exec_latCtrlWrite_allowed {p : Path} {l : Fin 8} {v : Word} {s : State} (hserved : s.served p = true)
    (hgrant : hostAllowed p s.cfg.grantLattice = true) : exec (.latCtrlWrite p l v) s = .next (s.writeEn l v.toNat) := by
  change execLatCtrlWrite p l v s = _
  simp [execLatCtrlWrite, hserved, hgrant]

/-- EN as a write of EN and KEEP_LIT leaves it. -/
theorem State.flag_writtenEn (s : State) {l : Nat} (hl : l < 4096) (en keep : Nat) :
    ((s.setFld .latCtrlEn l en).setFld .latCtrlKeepLit l keep).flag .latCtrlEn l = (en % 2 != 0) := by
  rw [State.flag_setFld_ne _ _ _ _ _ _ (Fld.key_ne (by decide)), State.flag_setFld_same _ _ _ _ (by decide)]
  rfl

theorem State.flag_writtenKeepLit (s : State) (l keep : Nat) :
    (s.setFld .latCtrlKeepLit l keep).flag .latCtrlKeepLit l = (keep % 2 != 0) := by
  rw [State.flag_setFld_same _ _ _ _ (by decide)]
  rfl

/-- A write that clears EN: the target changes for cause 2 (R40). -/
theorem State.writeEn_clear {s : State} {l v : Nat} (hl : l < 4096) (hen : s.flag .latCtrlEn l = true) (hv : v % 2 = 0) :
    s.writeEn l v = ((s.setFld .latCtrlEn l 0).setFld .latCtrlKeepLit l (bitsOf v 1 1)).retarget l 2 := by
  simp [State.writeEn, hen, hv, State.flag_writtenEn _ hl]

/-- A write that sets EN: the target changes for cause 1 (R40). -/
theorem State.writeEn_set {s : State} {l : Nat} (hl : l < 4096) (hen : s.flag .latCtrlEn l = false) :
    s.writeEn l 1 = ((s.setFld .latCtrlEn l 1).setFld .latCtrlKeepLit l 0).retarget l 1 := by
  simp [State.writeEn, hen, bitsOf, State.flag_writtenEn _ hl]

/-! ## Honeycombs of lattices -/

theorem State.sensorChange_frame (s : State) (id v : Nat) : ∃ M, s.sensorChange id v = { s with mgmt := M } := by
  unfold State.sensorChange
  split
  · exact ⟨_, rfl⟩
  · exact ⟨_, rfl⟩

/-- A lattice's honeycomb has no ports to go dark with it (R254). -/
theorem State.setCombSt_of_ne {s : State} {h : Nat} {st : CombState} (hh : h < 8) (hst : (s.comb h).state ≠ st) :
    s.setCombSt h st = (s.modComb h fun x => { x with state := st }).sensorChange (48 + h) st.code := by
  simp [State.setCombSt, State.combPortsDark, hst, hh]

theorem State.setCombSt_frame (s : State) {h : Nat} (st : CombState) (hh : h < 8) :
    ∃ C M, s.setCombSt h st = { s with combs := C, mgmt := M } := by
  by_cases hst : (s.comb h).state = st
  · exact ⟨_, _, by rw [State.setCombSt, if_pos hst]⟩
  · obtain ⟨M, hM⟩ := (s.modComb h fun x => { x with state := st }).sensorChange_frame (48 + h) st.code
    exact ⟨_, M, by rw [State.setCombSt_of_ne hh hst, hM]; rfl⟩

/-- What the start of a lattice's honeycomb leaves as it is. -/
theorem State.startComb_frame (s : State) {h : Nat} (hh : h < 8) :
    (s.startComb h).lats = s.lats ∧ (s.startComb h).mem = s.mem ∧ (s.startComb h).sec = s.sec := by
  obtain ⟨C, M, hstart⟩ := s.setCombSt_frame .starting hh
  unfold State.startComb State.setBias
  rw [hstart]
  dsimp only
  split
  · simp
  · simp

theorem State.fld_startComb (s : State) {h : Nat} {f : Fld} {i : Nat}
    (hf : f.place ∉ (Fld.tmpCombEventsStarts :: reportFields).map Fld.place) (hh : h < 8) (hi : i < 4096) :
    (s.startComb h).fld f i = s.fld f i := by
  obtain ⟨C, M, hstart⟩ := s.setCombSt_frame .starting hh
  simp only [List.map_cons, List.mem_cons, not_or] at hf
  obtain ⟨hstarts, hreport⟩ := hf
  have hcount : ((s.setCombSt h .starting).bump .tmpCombEventsStarts h).fld f i = s.fld f i := by
    rw [State.fld_bump_ne _ _ _ _ _ _ (Fld.key_ne hstarts), hstart]
    rfl
  unfold State.startComb State.setBias
  dsimp only
  split
  · rw [((State.event_spares ..).trans (State.setAlert_spares ..)).fld f i hreport hi, ← hcount]
    rfl
  · exact hcount

theorem State.rampDown_of_ready {s : State} {h : Nat} (hh : h < 8) (hready : (s.comb h).state = .ready) :
    s.rampDown h =
      (s.modComb h fun x => { x with state := .rampingDown }).sensorChange (48 + h) CombState.rampingDown.code := by
  have hne : (s.comb h).state ≠ .rampingDown := by simp [hready]
  simp [State.rampDown, hready, State.setCombSt_of_ne hh hne]

/-! ## Searches that begin -/

/-- A lattice that serves neither before nor after, and is not fenced, enters SEARCHING or DRAINING without a status change,
an alert or the end of an outage. -/
theorem State.enterLat_unlit {s : State} {l : Nat} {st : LatState} {phase cause : Nat}
    (hx : (s.lat l).state = .dark ∧ st = .searching ∨ (s.lat l).state = .searching ∧ st = .draining)
    (hstage : s.boot.stage ≠ 4) : s.enterLat l st phase cause =
      (s.setLat l ((s.lat l).entered st phase cause s.time)).sensorChange (32 + l) st.code := by
  unfold State.enterLat
  obtain ⟨hstate, rfl⟩ | ⟨hstate, rfl⟩ := hx
  · simp [hstate, Lattice.entered, State.finishStart, hstage]
  · simp [hstate, Lattice.entered, State.finishStart, hstage]

/-- A DARK lattice lights up: it enters SEARCHING, and nothing else of the lattices, device memory or the security state
changes. -/
theorem State.lightUp_dark {s : State} {l : Nat} (cause : Nat) (hl : l < 8) (hstate : (s.lat l).state = .dark)
    (hstage : s.boot.stage ≠ 4) :
    (s.lightUp l cause).lats = (s.setLat l ((s.lat l).entered .searching 0 cause s.time)).lats ∧
    (s.lightUp l cause).mem = s.mem ∧ (s.lightUp l cause).sec = s.sec := by
  unfold State.lightUp
  rw [State.enterLat_unlit (.inl ⟨hstate, rfl⟩) hstage]
  obtain ⟨hlats, hmem, hsec⟩ := State.startComb_frame ((s.setLat l
    ((s.lat l).entered .searching 0 cause s.time)).sensorChange (32 + l) LatState.searching.code) hl
  rw [hlats, hmem, hsec]
  simp

theorem State.fld_lightUp_dark {s : State} {l cause : Nat} {f : Fld} (hl : l < 8) (hstate : (s.lat l).state = .dark)
    (hstage : s.boot.stage ≠ 4) (hf : f.place ∉ (Fld.tmpCombEventsStarts :: reportFields).map Fld.place) :
    (s.lightUp l cause).fld f l = s.fld f l := by
  unfold State.lightUp
  rw [State.enterLat_unlit (.inl ⟨hstate, rfl⟩) hstage, State.fld_startComb _ hf hl (by omega)]
  exact State.fld_congr (by simp) f l

theorem State.on_of_served {s : State} {p : Path} (h : s.served p = true) : s.boot.on = true :=
  (Bool.and_eq_true_iff.mp h).1

/-- Settles O16: EN and KEEP_LIT are written, and the lattice follows its new target where it needs no burst boundary. -/
theorem latticeControl : Obligations.LatticeControl := by
  refine ⟨fun p l v s hserved hgrant hstate houtage hen hv => ?clear,
    fun p l s hserved hgrant hstate hpower hstage hen => ?set,
    fun p l v s hserved hgrant => exec_latCtrlWrite_refused hserved hgrant⟩
  case clear =>
    rw [exec_latCtrlWrite_allowed hserved hgrant, State.writeEn_clear (by omega) hen hv, State.retarget,
      State.follow_serving (by simpa using hstate) (by simpa using houtage)]
  case set =>
    refine ⟨_, exec_latCtrlWrite_allowed hserved hgrant, ?_⟩
    rw [show (1 : Word).toNat = 1 from rfl, State.writeEn_set (by omega) hen, State.retarget]
    set u := State.modLat _ _ _ with hu
    have hdark : (u.lat l).state = .dark := by simp [hu, hstate]
    have hon : u.boot.on = true := by simpa [hu] using State.on_of_served hserved
    have hsteady : u.boot.stage = 5 := by simpa [hu] using hstage
    have hset : u.flag .latCtrlEn l = true := by simp [hu, State.flag_writtenEn _ (show l.val < 4096 by omega)]
    have hclear : u.flag .latCtrlKeepLit l = false := by simp [hu, State.flag_writtenKeepLit]
    have htarget : u.latTarget l = .serving := State.latTarget_of_run (by simp [hdark]) (by simpa [hu] using hpower) hset
    have hstarted : u.boot.stage ≠ 4 := by simp [hsteady]
    rw [State.follow_dark hdark htarget hon hsteady]
    obtain ⟨hlats, hmem, hsec⟩ := State.lightUp_dark (u.lat l).why l.isLt hdark hstarted
    refine ⟨?_, ?_, ?_, hmem.trans rfl, hsec.trans rfl⟩
    · rw [State.flag, State.fld_lightUp_dark l.isLt hdark hstarted (by decide), ← State.flag, hset]
    · rw [State.flag, State.fld_lightUp_dark l.isLt hdark hstarted (by decide), ← State.flag, hclear]
    · rw [State.lat_congr hlats, State.lat_setLat_same]
      rfl

/-! ## Searches that end -/

/-- Before every ring is settled SEARCH_COMPLETE changes nothing. -/
theorem exec_searchComplete_open {l : Fin 8} {s : State}
    (h : s.searchOpen l = true ∨ s.anyRing l (fun y => !y.settled s.time) = true) : exec (.searchComplete l) s = .next s := by
  change execSearchComplete l s = _
  obtain h | h := h
  · simp [execSearchComplete, h]
  · simp [execSearchComplete, h]

/-- Without dead rings R50 has nothing to handle, and its limits are kept. -/
theorem Lattice.resolveDead_of_none {x : Lattice} (h : x.dem = []) : x.resolveDead = x := by
  cases x
  simp_all [Lattice.resolveDead]

theorem Lattice.deadOk_of_none {x : Lattice} (h : x.dem = []) : x.deadOk = true := by
  simp [Lattice.deadOk, Lattice.maskedRows, maskRows, maskWorst, h]

/-- A settled search enters LOCKED and follows the lattice's target. -/
theorem exec_searchComplete_settled {l : Fin 8} {s : State} (hstate : (s.lat l).state = .searching)
    (hphase : (s.lat l).phase = 1) (hdem : (s.lat l).dem = []) (hopen : s.searchOpen l = false)
    (hrings : s.anyRing l (fun y => !y.settled s.time) = false) :
    exec (.searchComplete l) s = .next (((((s.modLat l fun x => { x with lastPass := s.time }).enterLat l .locked 0
      4).zeroHold l).chooseSpans l).follow l) := by
  change execSearchComplete l s = _
  have hok : Lattice.deadOk { s.lat l with lastPass := s.time } = true := Lattice.deadOk_of_none hdem
  unfold execSearchComplete
  dsimp only
  rw [if_pos (by simp [hstate, hphase, hopen, hrings]), Lattice.resolveDead_of_none hdem, if_neg (by simp [hok])]
  rfl

/-- No row is masked, so no ring is zero-held. -/
theorem State.zeroHold_of_none {s : State} {l : Nat} (h : (s.lat l).dem = []) : s.zeroHold l = s := by
  simp [State.zeroHold, Lattice.maskedRows, h, forEach]

theorem State.chooseSpans_spares (s : State) (l : Nat) : Spares s (s.chooseSpans l) := by
  unfold State.chooseSpans
  refine .forEach (fun s k => ?_) _ _
  dsimp only
  exact .ite (.refl s) (.of_eq rfl rfl rfl rfl rfl rfl fun _ _ _ _ => rfl)

/-- A search that ends with a LOCKED target: besides reporting and span requests the lattice is LOCKED from here on. -/
theorem State.endSearch_spares {s : State} {l : Nat} (hl : l < 4096) (hstate : (s.lat l).state = .searching)
    (hdem : (s.lat l).dem = []) (htarget : s.latTarget l = .locked) :
    Spares (s.place l .locked 0 4) ((((s.enterLat l .locked 0 4).zeroHold l).chooseSpans l).follow l) := by
  have hlocks : Spares (s.place l .locked 0 4) (s.enterLat l .locked 0 4) := s.enterLat_spares l .locked 0 4 hl
  have hundead : ((s.enterLat l .locked 0 4).lat l).dem = [] := by
    obtain ⟨e, m, o, hlat⟩ := hlocks.lat l
    rw [hlat, s.lat_place]
    exact hdem
  rw [State.zeroHold_of_none hundead]
  have hspans : Spares (s.place l .locked 0 4) ((s.enterLat l .locked 0 4).chooseSpans l) :=
    hlocks.trans (State.chooseSpans_spares _ l)
  have hlocked : (((s.enterLat l .locked 0 4).chooseSpans l).lat l).state = .locked := by
    rw [hspans.latState, s.lat_place]
    rfl
  have hstays : ((s.enterLat l .locked 0 4).chooseSpans l).latTarget l = .locked := by
    rw [hspans.latTarget hl, s.latTarget_place _ _ _ _ (by simp [hstate]) (by simp) hl, htarget]
  rw [State.follow_locked hlocked hstays]
  exact hspans.trans (State.endOutage_spares _ l)

/-- A fenced search is abandoned (R40, R48). -/
theorem State.fenceLattice_searching {s : State} {l cause : Nat} (hstate : (s.lat l).state = .searching)
    (hfence : (s.lat l).fencePending = 0) : s.fenceLattice l cause =
      ((((s.event .latFenced .lattice l noCtx []).journal .fence [l, cause, s.time]).modLat l fun x =>
        { x with fencePending := cause }).abandonSearch l cause) := by
  simp [State.fenceLattice, hstate, hfence]

/-- Darkening sets heater targets and ramps the honeycomb down, no more of the lattices, threads and device memory. -/
theorem State.zeroHeaters_rampDown_frame {s : State} {l : Nat} (now : Bool) (hl : l < 8) (hready : (s.comb l).state = .ready) :
    ((s.zeroHeaters l now).rampDown l).lats = s.lats ∧ (((s.zeroHeaters l now).rampDown l).comb l).state = .rampingDown ∧
    ((s.zeroHeaters l now).rampDown l).mem = s.mem ∧ ((s.zeroHeaters l now).rampDown l).threads = s.threads := by
  rw [State.rampDown_of_ready (s := s.zeroHeaters l now) hl hready]
  simp [State.zeroHeaters]

/-- An abandoned search darkens: DRAINING in its second phase, its honeycomb ramping down. -/
theorem State.abandonSearch_ready {s : State} {l : Nat} (cause : Nat) (hl : l < 8) (hstate : (s.lat l).state = .searching)
    (hstage : s.boot.stage ≠ 4) (hready : (s.comb l).state = .ready) :
    (s.abandonSearch l cause).lat l = ({ s.lat l with toLocked := false } : Lattice).entered .draining 1 cause s.time ∧
    ((s.abandonSearch l cause).comb l).state = .rampingDown ∧ (s.abandonSearch l cause).mem = s.mem ∧
    (s.abandonSearch l cause).threads = s.threads := by
  have hsearching : ((s.modLat l fun x => { x with toLocked := false }).lat l).state = .searching := by simpa using hstate
  have hdrains := State.enterLat_unlit (phase := 1) (cause := cause) (.inr ⟨hsearching, rfl⟩) hstage
  obtain ⟨hlats, hcomb, hmem, hthreads⟩ := State.zeroHeaters_rampDown_frame
    (s := (s.modLat l fun x => { x with toLocked := false }).enterLat l .draining 1 cause) false hl
    (by simpa [hdrains] using hready)
  refine ⟨(State.lat_congr hlats l).trans ?_, hcomb, hmem.trans ?_, hthreads.trans ?_⟩
  all_goals simp [hdrains]

/-- Settles O19: a settled search enters LOCKED and only reports besides; one out of time is fenced, which abandons it. -/
theorem searchEnds : Obligations.SearchEnds := by
  refine ⟨fun l s hstate hphase hdem hopen hrings htarget => ?complete, fun l s h => exec_searchComplete_open h,
    fun l s hstate hfence hstage hready => ?timeout⟩
  case complete =>
    have hl : l.val < 4096 := by omega
    refine ⟨_, exec_searchComplete_settled hstate hphase hdem hopen hrings, ?_⟩
    set u := s.modLat l fun x => { x with lastPass := s.time } with hu
    have hsearching : (u.lat l).state = .searching := by simp [hu, hstate]
    have hlocked : u.latTarget l = .locked :=
      (State.latTarget_congr (s := s) (t := u) (by simp [hu]) rfl rfl rfl).trans htarget
    have hend := State.endSearch_spares hl hsearching (by simpa [hu] using hdem) hlocked
    obtain ⟨e, m, o, hlat⟩ := hend.lat l
    rw [u.lat_place] at hlat
    refine ⟨by rw [hlat]; rfl, by rw [hlat]; rfl, by rw [hlat]; rfl, ?_, ?_, ?_, ?_⟩
    · rw [hlat]
      simp [Lattice.entered, hu]
    · rw [hend.fld _ _ (by decide) hl, u.fld_place_locked _ _ _ (by simp [hsearching])]
    · rw [hend.mem, u.place_mem]
      rfl
    · rw [hend.threads, u.place_threads]
      rfl
  case timeout =>
    have hexec : exec (.searchTimeout l) s = .next (s.fenceLattice l 12) := by
      change execSearchTimeout l s = _
      simp [execSearchTimeout, hstate]
    refine ⟨_, hexec, ?_⟩
    rw [State.fenceLattice_searching hstate hfence]
    obtain ⟨hlat, hcomb, hmem, hthreads⟩ := State.abandonSearch_ready 12 l.isLt
      (s := ((s.event .latFenced .lattice l noCtx []).journal .fence [l, 12, s.time]).modLat l fun x =>
        { x with fencePending := 12 }) (by simpa using hstate) (by simp [hstage]) (by simpa using hready)
    refine ⟨?_, ?_, ?_, ?_, hcomb, by simp [hmem], by simp [hthreads]⟩
    all_goals rw [hlat]; simp [Lattice.entered]

end Sys2Proof.Machine
end

section
/-! PROOFS. Where three statements on lattices fail: clearing a fence in an outage (R410, R417), a burst that comes back for
repeat while a stream meets poison (R188, R192), and a drained context whose STATUS word is waited on (R144, R212). -/

namespace Sys2Proof.Machine

/-- The state a command answers, if it completes. -/
def nextState : Out → Option State
  | .next t => some t
  | _ => none

theorem Completes.nextState {c : Instr} {s : State} {P : State → Prop} (h : Completes c s P) :
    ∃ t, nextState (exec c s) = some t ∧ P t := by
  obtain ⟨t, hexec, hP⟩ := h
  exact ⟨t, by rw [hexec]; rfl, hP⟩

/-- What a completed command's state shows, known by running it. -/
theorem nextState_view {α : Type} {o : Out} {t : State} {f : State → α} {v : α} (ht : nextState o = some t)
    (hv : (nextState o).map f = some v) : f t = v := by simpa [ht] using hv

/-! ## A fence cleared in an outage -/

/-- Lattice 0 is FENCED, its outage of 1 ms still open, EN and KEEP_LIT 0. -/
def fencedInOutage : State :=
  { State.reset with
    boot := { State.reset.boot with on := true, stage := 5 }
    time := 1000000
    flds := [(Fld.latCtrlEn.key 0 0, 0), (Fld.latCtrlKeepLit.key 0 0, 0)]
    lats := [(0, { Lattice.reset with state := .fenced, outageFrom := some 0 })] }

theorem fencedInOutage_spec : fencedInOutage.served .i3c = true ∧ (fencedInOutage.lat 0).state = .fenced ∧
    fencedInOutage.flag .latCtrlEn 0 = false ∧ fencedInOutage.flag .latCtrlKeepLit 0 = false := by decide +kernel

/-- With the fence gone the lattice's target is DARK: its outage ends, and EVT_OUTAGE is logged after EVT_FENCE_CLEAR. -/
theorem fenceClear_fencedInOutage : (nextState (exec (.fenceClear .i3c 1) fencedInOutage)).map
    (fun t => (t.log.map (·.code)).head?) = some (some 0x0704) := by decide +kernel

/-- Refutes O15 in its clause on FENCE_CLEAR, which in every state has EVT_FENCE_CLEAR (0x0705) as the newest entry: in
`fencedInOutage` the end of the lattice's outage is logged after it (R410). -/
theorem not_fencing : ¬ Obligations.Fencing := by
  unfold Obligations.Fencing
  rintro ⟨-, -, -, -, hclear, -⟩
  obtain ⟨hserved, hfenced, hen, hkeep⟩ := fencedInOutage_spec
  obtain ⟨t, ht, -, -, -, hnewest⟩ :=
    (hclear .i3c 0 1 fencedInOutage hserved (.inl rfl) rfl hfenced hen hkeep rfl).nextState
  have houtage : (t.log.map (·.code)).head? = some 0x0704 := nextState_view ht fenceClear_fencedInOutage
  exact absurd (hnewest.symm.trans houtage) (by decide)

/-! ## A burst of SUSPECT that comes back -/

/-- A burst of step 5 of thread 0, lit by a lattice that has become SUSPECT since. -/
def suspectBurst : Burst :=
  { chunk := { thread := 0, uid := 5, tile := 0, plane := 0, group := 0, lo := 0, hi := 0, all := [], todo := [], h := 0,
               rep := false, suspectRep := false, pin := none, id := 0 }
    ins := []
    plane := { thread := 0, uid := 5, tile := 0, plane := 0, lo := 0, hi := 0, rows := [] }
    ctx := 0, ranges := [], reads := 0, suspect := true, issued := 0, adds := [], word := 1, dead := [] }

/-- The MATMUL in progress that issued it. -/
def suspectStep : Active := { Active.start Thread.reset 5 0 1 0 0 0 with done := false, inflight := 1 }

/-- The step's stream of weights has a line of virtual page 0 still to read, whose translation is in no cache. -/
def weightStream : Stream :=
  { thread := 0, uid := 5, name := .sWgt, write := false, begun := 0, depth := 0
    todo := [{ host := false, addr := 0, page := 0, len := 64, pool := 64, hint := 2, piece := 0, first := 0, past := 0,
               waits := [], attic := 0 }]
    flight := [], held := [], spilled := [], blockedSince := none }

/-- The context drains as the burst comes back, and the entries its translation walks are poisoned. -/
def poisonedWalk : State :=
  { State.reset with
    boot := { State.reset.boot with on := true, stage := 5 }
    poison := [(0, true)]
    lats := [(0, { Lattice.reset with state := .suspect, inflight := [suspectBurst] })]
    ctxs := [(0, { Ctx.reset with st := .draining })]
    threads := [(0, { Thread.reset with st := .ready, steps := [suspectStep] })]
    bays := [(0, { Bay.reset with streams := [weightStream] })] }

theorem poisonedWalk_ctx (c : Nat) : (poisonedWalk.ctx c).st ≠ .running ∧ (poisonedWalk.ctx c).st ≠ .waiting := by
  by_cases hc : 0 = c
  · simp [poisonedWalk, State.ctx, tget, hc]
  · simp [poisonedWalk, State.ctx, tget, hc, Ctx.reset]

/-- The bay's streams move on as the burst resolves; the translation meets poison, and the step stops with MEMORY. -/
theorem burstResolve_poisonedWalk :
    (nextState (exec (.burstResolve 0) poisonedWalk)).map (fun t => (t.thread 0).steps) = some [] := by decide +kernel

/-- Refutes O17 in its clause on a burst of SUSPECT, which in every state leaves the step with one more piece to repeat: in
`poisonedWalk` a stream of the step faults it at the same time (R123, R192), and no step is left. -/
theorem not_burstEvents : ¬ Obligations.BurstEvents := by
  unfold Obligations.BurstEvents
  rintro ⟨-, -, -, -, -, -, -, -, hrepeat, -⟩
  obtain ⟨t, ht, -, -, x, hsteps, -⟩ := (hrepeat 0 suspectBurst [] suspectStep poisonedWalk rfl (by decide) rfl rfl rfl rfl
    (by decide) rfl (by decide) poisonedWalk_ctx).nextState
  have hgone : (t.thread 0).steps = [] := nextState_view ht burstResolve_poisonedWalk
  exact absurd (hgone.symm.trans hsteps) (by simp)

/-! ## A drained context whose STATUS word is waited on -/

/-- Context 0 has faulted and drained; its portal entry's STATUS word is at the portal's base + 0x30 (R144). Thread 0 of
context 1 waits for a count of 1 in a signal word that its sync map places there. -/
def statusWatched : State :=
  { State.reset with
    boot := { State.reset.boot with on := true, stage := 5 }
    cfg := { Configuration.unset with portals := [oneEntryPortal] }
    ctxs := [(0, { Ctx.reset with st := .draining, drainTo := 2 }), (1, { Ctx.reset with
      st := .waiting, map := [(0, 0)]
      sync := [{ sid := 0, sig := .own false (16 * mib + 0x30), slots := [], polled := [] }] })]
    threads := [(0, { Thread.reset with
      st := .waiting, ctx := 1
      wait := some { src := 0, sid := 0, target := 1, cons := false, timeout := 0, since := 0, hit := false, uid := 0 } })] }

theorem statusWatched_spec : (statusWatched.ctx 0).st = .draining ∧ statusWatched.ctxInFlight 0 = false ∧
    (statusWatched.ctx 0).pendingCmd = none ∧ (statusWatched.ctx 0).map = [] ∧ (statusWatched.ctx 0).drainTo = 2 ∧
    (statusWatched.thread 0).wait.any (·.hit) = false := by decide +kernel

/-- The write of the context's state to STATUS is reported to the watch units, and latches the wait. -/
theorem drainComplete_statusWatched : (nextState (exec (.drainComplete (.context 0)) statusWatched)).map
    (fun t => (t.thread 0).wait.any (·.hit)) = some true := by decide +kernel

/-- Refutes O18 in its clause on a drained context, which leaves the threads of every state as they were: in `statusWatched`
the drain's end latches the wait of a thread on the STATUS word that it writes (R212, R217). -/
theorem not_latticeStates : ¬ Obligations.LatticeStates := by
  unfold Obligations.LatticeStates
  rintro ⟨-, -, hdrained, -⟩
  obtain ⟨hst, hflight, hcmd, hmap, hto, hmissed⟩ := statusWatched_spec
  obtain ⟨t, ht, -, -, -, hthreads⟩ := (hdrained 0 statusWatched hst hflight hcmd hmap hto).nextState
  have hlatched : (t.thread 0).wait.any (·.hit) = true := nextState_view ht drainComplete_statusWatched
  rw [State.thread_congr hthreads, hmissed] at hlatched
  contradiction

end Sys2Proof.Machine
end

section
/-! PROOFS. What a write of the device to its own memory can change, held or done (R172, R192, R212, R238), and with it what
the portal's STATUS word, the end of a portal command and a context's fault leave alone (R124, R144). -/

namespace Sys2Proof.Machine

/-! ## What device writes leave alone -/

/-- From `s` to `t` the device has written to its own memory at most: bytes, error marks, held writes and the larders' counter
of invalidated lines may differ, of a thread its wait, of a bay its larder copies and their fills. -/
structure Delivers (s t : State) : Prop where
  rest : ∃ mem poison wordErr bays flds threads cxl, t = { s with
    mem := mem, poison := poison, wordErr := wordErr, bays := bays, flds := flds, threads := threads, cxl := cxl }
  thread : ∀ k, ∃ w, t.thread k = { s.thread k with wait := w }
  bay : ∀ b, ∃ l f, t.bay b = { s.bay b with larder := l, fills := f }
  fld : ∀ (f : Fld) (i : Nat), f.place ≠ Fld.bayLarderInvalLines.place → i < 4096 → t.fld f i = s.fld f i

namespace Delivers

theorem refl (s : State) : Delivers s s :=
  ⟨⟨_, _, _, _, _, _, _, rfl⟩, fun _ => ⟨_, rfl⟩, fun _ => ⟨_, _, rfl⟩, fun _ _ _ _ => rfl⟩

theorem trans {s t u : State} (h : Delivers s t) (g : Delivers t u) : Delivers s u where
  rest := by
    obtain ⟨_, _, _, _, _, _, _, ht⟩ := h.rest
    obtain ⟨_, _, _, _, _, _, _, hu⟩ := g.rest
    exact ⟨_, _, _, _, _, _, _, by rw [hu, ht]⟩
  thread k := by
    obtain ⟨_, ht⟩ := h.thread k
    obtain ⟨w, hu⟩ := g.thread k
    exact ⟨w, by rw [hu, ht]⟩
  bay b := by
    obtain ⟨_, _, ht⟩ := h.bay b
    obtain ⟨l, f, hu⟩ := g.bay b
    exact ⟨l, f, by rw [hu, ht]⟩
  fld f i hf hi := (g.fld f i hf hi).trans (h.fld f i hf hi)

theorem forEach {α : Type} {f : State → α → State} (l : List α) (hf : ∀ s, ∀ a ∈ l, Delivers s (f s a)) (s : State) :
    Delivers s (forEach l f s) := by
  induction l generalizing s with
  | nil => exact refl s
  | cons a l ih => exact (hf s a (by simp)).trans (ih (fun s x hx => hf s x (by simp [hx])) _)

section
variable {s t : State} (h : Delivers s t)
include h

theorem ctxs : t.ctxs = s.ctxs := by obtain ⟨_, _, _, _, _, _, _, rfl⟩ := h.rest; rfl
theorem entries : t.entries = s.entries := by obtain ⟨_, _, _, _, _, _, _, rfl⟩ := h.rest; rfl
theorem lats : t.lats = s.lats := by obtain ⟨_, _, _, _, _, _, _, rfl⟩ := h.rest; rfl
theorem admitQueue : t.admitQueue = s.admitQueue := by obtain ⟨_, _, _, _, _, _, _, rfl⟩ := h.rest; rfl
theorem ctx (c : Nat) : t.ctx c = s.ctx c := State.ctx_congr h.ctxs c
theorem entrySt (k : Nat) : t.entrySt k = s.entrySt k := by simp only [State.entrySt, h.entries]

end

end Delivers

/-- A table whose entries are changed each under its own key reads the changed value. -/
theorem tget_map {α : Type} {d : α} {f : Nat × α → Nat × α} (R : α → α → Prop) (hd : R d d) (hkey : ∀ e, (f e).1 = e.1)
    (hR : ∀ e, R e.2 (f e).2) (t : Tbl α) (k : Nat) : R (tget d t k) (tget d (t.map f) k) := by
  induction t with
  | nil => exact hd
  | cons e r ih =>
    simp only [List.map_cons, tget, hkey]
    split
    · exact hR e
    · exact ih

namespace State

variable (s : State)

/-- A change of bytes, error marks and held writes. -/
theorem setMem_delivers (mem : Tbl Byte) (poison wordErr : Tbl Bool) (cxl : Cxl) :
    Delivers s { s with mem := mem, poison := poison, wordErr := wordErr, cxl := cxl } :=
  ⟨⟨_, _, _, _, _, _, _, rfl⟩, fun _ => ⟨_, rfl⟩, fun _ => ⟨_, _, rfl⟩, fun _ _ _ _ => rfl⟩

theorem larderInvalidate_delivers (a : Nat) : Delivers s (s.larderInvalidate a) := by
  refine .forEach _ (fun s b hb => ?_) s
  have hb : b < 4 := by simpa [upTo] using hb
  refine ⟨⟨_, _, _, _, _, _, _, rfl⟩, fun _ => ⟨_, rfl⟩, fun j => ?_, fun f i hf hi => ?_⟩
  · by_cases hj : j = b
    · subst hj
      exact ⟨_, _, by rw [State.bay_bump, State.bay_setBay_same]⟩
    · exact ⟨_, _, by rw [State.bay_bump, State.bay_setBay_ne _ _ _ _ hj]⟩
  · rw [State.fld_bump_ne _ _ _ _ _ _ (Fld.key_ne hf)]
    rfl

theorem evalWaiters_delivers (p : Bool) (bays : List Nat) (host : Bool) (a : Nat) :
    Delivers s (s.evalWaiters p bays host a) := by
  unfold State.evalWaiters
  dsimp only
  split
  · exact .refl s
  · refine ⟨⟨_, _, _, _, _, _, _, rfl⟩, fun k => ?_, fun _ => ⟨_, _, rfl⟩, fun _ _ _ _ => rfl⟩
    refine tget_map (fun x y : Thread => ∃ w, y = { x with wait := w }) ⟨_, rfl⟩ (fun e => ?_) (fun e => ?_) s.threads k
    · split
      · split <;> rfl
      · rfl
    · split
      · split <;> exact ⟨_, rfl⟩
      · exact ⟨_, rfl⟩

theorem applyPart_delivers (a : Nat) (d : List Byte) : Delivers s (s.applyPart a d) := by
  have hreport : ∀ t : State, Delivers t (t.reportWrite a d.length) := fun t =>
    .forEach _ (fun s x _ => s.evalWaiters_delivers ..) t
  have hstore : Delivers s (s.store a d) := s.setMem_delivers _ s.poison s.wordErr s.cxl
  unfold State.applyPart
  dsimp only
  refine .trans ?_ (hreport _)
  split
  · refine .trans ?_ (larderInvalidate_delivers ..)
    split
    · exact hstore.trans (setMem_delivers ..)
    · exact hstore
  · exact hstore.trans (setMem_delivers ..)

theorem writePart_delivers (a : Nat) (d : List Byte) : Delivers s (s.writePart a d) := by
  unfold State.writePart
  split
  · exact s.setMem_delivers _ _ _ _
  · exact s.applyPart_delivers a d

theorem writeWord_delivers (a v : Nat) : Delivers s (s.writeWord false a v) :=
  .forEach _ (fun s p _ => s.writePart_delivers p.1 p.2) s

/-! ## Contexts, their portals and faults -/

theorem putStatus_delivers (c : Nat) : Delivers s (s.putStatus c) := by
  unfold State.putStatus
  split
  · exact .refl s
  · exact s.writeWord_delivers ..

/-- A context that changes state is the only one that does, and no more than writes come with it (R144). -/
theorem setCtxSt_delivers {c : Nat} {st : CtxState} (h : (s.ctx c).st ≠ st) :
    Delivers (s.modCtx c fun x => { x with st := st }) (s.setCtxSt c st) := by
  rw [State.setCtxSt, if_neg h]
  exact putStatus_delivers ..

/-- What a portal entry keeps of a command that is done (R144, R146). -/
def commandDone (p e : Nat) (seq : Option Nat) (result : Nat) : State :=
  s.setEntry (entryKey p e) { s.entrySt (entryKey p e) with
    lastSeq := seq.orElse fun _ => (s.entrySt (entryKey p e)).lastSeq, result := result }

theorem finishCmd_delivers (p e : Nat) (seq : Option Nat) (result : Nat) :
    Delivers (s.commandDone p e seq result) (s.finishCmd p e seq result) := by
  unfold State.finishCmd
  dsimp only
  split
  · exact .refl _
  · exact putStatus_delivers ..

section
variable (p e : Nat) (seq : Option Nat) (result : Nat)

@[simp] theorem finishCmd_ctxs : (s.finishCmd p e seq result).ctxs = s.ctxs := (s.finishCmd_delivers p e seq result).ctxs
@[simp] theorem ctx_finishCmd (c : Nat) : (s.finishCmd p e seq result).ctx c = s.ctx c :=
  (s.finishCmd_delivers p e seq result).ctx c
@[simp] theorem finishCmd_lats : (s.finishCmd p e seq result).lats = s.lats := (s.finishCmd_delivers p e seq result).lats
@[simp] theorem finishCmd_admitQueue : (s.finishCmd p e seq result).admitQueue = s.admitQueue :=
  (s.finishCmd_delivers p e seq result).admitQueue

theorem fld_finishCmd {f : Fld} {i : Nat} (hf : f.place ≠ Fld.bayLarderInvalLines.place) (hi : i < 4096) :
    (s.finishCmd p e seq result).fld f i = s.fld f i := (s.finishCmd_delivers p e seq result).fld f i hf hi

theorem entrySt_finishCmd : (s.finishCmd p e seq result).entrySt (entryKey p e) = { s.entrySt (entryKey p e) with
    lastSeq := seq.orElse fun _ => (s.entrySt (entryKey p e)).lastSeq, result := result } := by
  rw [(s.finishCmd_delivers p e seq result).entrySt, commandDone, State.entrySt_setEntry_same]

@[simp] theorem lastSeq_finishCmd (n : Nat) : ((s.finishCmd p e (some n) result).entrySt (entryKey p e)).lastSeq = some n := by
  rw [entrySt_finishCmd]
  rfl

@[simp] theorem result_finishCmd : ((s.finishCmd p e seq result).entrySt (entryKey p e)).result = result := by
  rw [entrySt_finishCmd]

end

end State
end Sys2Proof.Machine
end

section
/-! PROOFS. Portal commands (R144 to R147): which row answers a command, what BIND, START, RESET, RELEASE and CLEARWARN leave of
their context and its portal entry. -/

namespace Sys2Proof.Machine

/-! ## Which row answers -/

section
variable {s : State} {p e : Nat} {k : PortalCmd} (hcmd : s.portalCmd p e = some k)
include hcmd

/-- A row acts on its own operation in a claimed entry. -/
theorem State.portalRun_own {op : Nat} {f : PortalCmd → State} (hop : k.op = op) (hknown : 1 ≤ op ∧ op ≤ 5)
    (hclaimed : s.claimed p e = true) : s.portalRun p e op f = f k := by
  have h0 : op ≠ 0 := by omega
  have h5 : ¬ 5 < op := by omega
  simp [State.portalRun, hcmd, hclaimed, hop, h0, h5]

/-- Every row answers an operation that R144 does not list (log entry 25), as not claimed while CLAIM is 0. -/
theorem State.portalRun_unknown {op : Nat} {f : PortalCmd → State} (hunknown : k.op = 0 ∨ 5 < k.op) :
    s.portalRun p e op f =
      s.finishCmd p e (some k.seq) (if s.claimed p e then resUnknown else resNotClaimed) := by
  have hunknown : (k.op = 0 || decide (5 < k.op)) = true := by simpa using hunknown
  cases hclaimed : s.claimed p e with
  | false => simp only [State.portalRun, hcmd, hclaimed, hunknown, Bool.not_true, Bool.and_false, Bool.not_false,
      Bool.false_eq_true, if_true, if_false]
  | true => simp only [State.portalRun, hcmd, hclaimed, hunknown, Bool.not_true, Bool.and_false, Bool.false_eq_true,
      if_true, if_false]

end

/-- The five rows run the portal's command. -/
theorem PortalRow.exec_eq {c : Instr} {p : Fin 256} {e : Fin 4096} (h : PortalRow c p e) (s : State) :
    ∃ op f, exec c s = .next (s.portalRun p e op f) := by
  obtain ⟨_, _, _, _, _, rfl⟩ | rfl | rfl | rfl | rfl := h
  all_goals exact ⟨_, _, rfl⟩

/-! ## BIND -/

theorem State.bindReads_clean (s : State) (po : Portal) (root va : Nat) : s.bindReads po root va .clean .clean = s := by
  have hclean : ∀ a, s.checkAt a .clean .fabric = s := fun _ => rfl
  unfold State.bindReads
  simp only [hclean, ite_self]
  split <;> rfl

section
variable {s : State} {p : Fin 256} {e : Fin 4096} {k : PortalCmd} {po : Portal} {a b : Bool} {n : Nat}
  (hcmd : s.portalCmd p e = some k) (hop : k.op = 1) (hclaimed : s.claimed p e = true)
  (hportal : s.cfg.portals[p.val]? = some po)
include hcmd hop hclaimed hportal

theorem exec_bind_busy (hst : (s.ctx k.ctx).st ≠ .free) :
    exec (.bind p e a b n .clean .clean) s = .next (s.finishCmd p e (some k.seq) resBusy) := by
  change execBind p e a b n .clean .clean s = _
  simp [execBind, State.portalRun_own hcmd hop (by decide) hclaimed, hportal, hst]

theorem exec_bind_refused {f : BindFail} (hst : (s.ctx k.ctx).st = .free)
    (hcheck : s.bindCheck po (s.readNat (s.portalWord p e 0x20) 8) (s.readNat (s.portalWord p e 0x18) 8) k.arg a b n =
      .error f) : exec (.bind p e a b n .clean .clean) s = .next (s.bindRefuse p e k.ctx k.seq f) := by
  change execBind p e a b n .clean .clean s = _
  simp [execBind, State.portalRun_own hcmd hop (by decide) hclaimed, hportal, hst, State.bindReads_clean, hcheck]

theorem exec_bind_accepted {d : Bound} (hst : (s.ctx k.ctx).st = .free)
    (hcheck : s.bindCheck po (s.readNat (s.portalWord p e 0x20) 8) (s.readNat (s.portalWord p e 0x18) 8) k.arg a b n =
      .ok d) : exec (.bind p e a b n .clean .clean) s =
        .next (s.bindAccept p e k.ctx k.seq po (s.readNat (s.portalWord p e 0x18) 8) d) := by
  change execBind p e a b n .clean .clean s = _
  simp [execBind, State.portalRun_own hcmd hop (by decide) hclaimed, hportal, hst, State.bindReads_clean, hcheck]

end

/-- A refused signature counts and is recorded (R392), no more. -/
theorem State.sigFail_frame (s : State) (kind fails : Nat) : (s.sigFail kind fails).ctxs = s.ctxs ∧
    (s.sigFail kind fails).fld .ctxEventCntRefused = s.fld .ctxEventCntRefused := by
  refine ⟨by simp [State.sigFail], ?_⟩
  rw [State.sigFail, State.fld_journal (by decide), State.fld_bump_ne _ _ _ _ _ _ (by decide)]

/-- A refused BIND as its context and its portal entry keep it (R123, R147). -/
theorem State.bindRefuse_spec (s : State) (p e c seq : Nat) (f : BindFail) :
    (s.bindRefuse p e c seq f).ctx c =
      { s.ctx c with fault := f.code, faultStep := f.step, faultThread := f.thread } ∧
    ((s.bindRefuse p e c seq f).entrySt (entryKey p e)).lastSeq = some seq ∧
    ((s.bindRefuse p e c seq f).entrySt (entryKey p e)).result = f.result ∧
    (s.bindRefuse p e c seq f).fld .ctxEventCntRefused =
      min (s.fld .ctxEventCntRefused + 1) (2 ^ Fld.ctxEventCntRefused.width - 1) := by
  have hcount : ∀ u : State, (u.bump .ctxEventCntRefused).fld .ctxEventCntRefused =
      min (u.fld .ctxEventCntRefused + 1) (2 ^ Fld.ctxEventCntRefused.width - 1) := fun u =>
    State.fld_bump_same _ _ _ _ (by decide)
  unfold State.bindRefuse
  dsimp only
  split
  · refine ⟨by simp, by simp, by simp, ?_⟩
    rw [State.fld_finishCmd _ _ _ _ _ (by decide) (by decide), hcount]
    rfl
  · obtain ⟨hctxs, hrefused⟩ := State.sigFail_frame ((s.modCtx c fun x =>
      { x with fault := f.code, faultStep := f.step, faultThread := f.thread }).bump .ctxEventCntRefused) 2 f.fail
    refine ⟨by simp [State.ctx_congr hctxs], by simp, by simp, ?_⟩
    rw [State.fld_finishCmd _ _ _ _ _ (by decide) (by decide), hrefused, hcount]
    rfl

/-! The sync map (R208) is all of a context that mapping its identifiers changes. -/

theorem mapWait_ctxs (c sid : Nat) (host : Bool) (addr : Nat) (r : State × SyncEntry) (b : Nat) :
    (mapWait c sid host addr r b).1.ctxs = r.1.ctxs := by
  unfold mapWait
  dsimp only
  split
  · rfl
  · split
    · rfl
    · exact State.bump_ctxs ..

theorem foldl_mapWait_ctxs (c sid : Nat) (host : Bool) (addr : Nat) (bays : List Nat) (r : State × SyncEntry) :
    (bays.foldl (mapWait c sid host addr) r).1.ctxs = r.1.ctxs := by
  induction bays generalizing r with
  | nil => rfl
  | cons b bays ih => exact (ih _).trans (mapWait_ctxs ..)

theorem State.ctx_mapSync (s : State) (c : Nat) (bays : List Nat) (d : SyncDecl) :
    ∃ l, (s.mapSync c bays d).ctx c = { s.ctx c with sync := l } := by
  unfold State.mapSync
  split
  · exact ⟨_, rfl⟩
  · dsimp only
    split
    · split
      · exact ⟨_, by rw [State.ctx_modCtx_same, State.ctx_congr (foldl_mapWait_ctxs ..)]⟩
      · exact ⟨_, by rw [State.ctx_modCtx_same]⟩
    · exact ⟨_, by rw [State.ctx_modCtx_same]⟩

theorem State.ctx_mapSyncs (c : Nat) (bays : List Nat) (ds : List SyncDecl) (s : State) :
    ∃ l, (forEach ds (fun s d => s.mapSync c bays d) s).ctx c = { s.ctx c with sync := l } := by
  induction ds generalizing s with
  | nil => exact ⟨_, rfl⟩
  | cons d ds ih =>
    obtain ⟨_, hfirst⟩ := s.ctx_mapSync c bays d
    obtain ⟨l, hrest⟩ := ih (s.mapSync c bays d)
    exact ⟨l, hrest.trans (by rw [hfirst])⟩

theorem State.ctx_mapAll (s : State) (c : Nat) (bays : List Nat) (ds : List SyncDecl) :
    ∃ l, (s.mapAll c bays ds).ctx c = { s.ctx c with sync := l } := by
  obtain ⟨l, hmapped⟩ := State.ctx_mapSyncs c bays ds s
  refine ⟨l, (forEach_view (fun u => u.ctx c) _ _ (fun u b => ?_) _).trans hmapped⟩
  dsimp only
  split
  · rfl
  · exact State.ctx_congr (State.event_ctxs ..) c

/-- An accepted BIND leaves the context as its portal and recipe give it, with its sync map, and answers OK (R147). -/
theorem State.bindAccept_spec (s : State) (p e c seq : Nat) (po : Portal) (va : Nat) (d : Bound) :
    (∃ l, (s.bindAccept p e c seq po va d).ctx c = { s.boundCtx p e c po va d with sync := l }) ∧
    ((s.bindAccept p e c seq po va d).entrySt (entryKey p e)).lastSeq = some seq ∧
    ((s.bindAccept p e c seq po va d).entrySt (entryKey p e)).result = resOk := by
  unfold State.bindAccept
  extract_lets x drawn sec verified bound short
  have hbound : bound.ctx c = x := (verified.releaseSlots c).ctx_setCtx_same c x
  have hshort : short.ctx c = x := by
    simp only [short]
    split
    · rw [State.ctx_congr (State.event_ctxs ..), hbound]
    · exact hbound
  obtain ⟨l, hmapped⟩ := short.ctx_mapAll c (baysOf d.recipe.entries) d.decls
  exact ⟨⟨l, by rw [State.ctx_finishCmd, hmapped, hshort]⟩, State.lastSeq_finishCmd .., State.result_finishCmd ..⟩

/-! ## START -/

theorem exec_start_waits {s : State} {p : Fin 256} {e : Fin 4096} {k : PortalCmd} (hcmd : s.portalCmd p e = some k)
    (hop : k.op = 2) (hclaimed : s.claimed p e = true) (hst : (s.ctx k.ctx).st = .bound)
    (hfirst : (s.ctx k.ctx).admitWait = false) (hquota : (s.ctx k.ctx).wantThreads.length ≤ s.threadQuota p k.ctx) :
    exec (.start p e) s = .next ({ s.modCtx k.ctx (fun x => { x with admitWait := true }) with
      admitQueue := s.admitQueue ++ [k.ctx] }.finishCmd p e (some k.seq) resOk) := by
  change execStart p e s = _
  simp [execStart, State.portalRun_own hcmd hop (by decide) hclaimed, hst, hfirst, hquota]

/-- Settles O36: each row answers by `finishCmd`, and what it did before that is its context's record. -/
theorem portalCommands : Obligations.PortalCommands := by
  refine ⟨fun c p e k s hrow hcmd hunknown => ?unknown,
    fun p e a b n k po s hcmd hop hclaimed hportal => ⟨fun hst => ?busy, fun f hst hcheck => ?refused⟩,
    fun p e k s hcmd hop hclaimed hst hfirst hquota => ?start,
    fun p e a b n k po d s hcmd hop hclaimed hportal hst hcheck hseed => ?accepted⟩
  case unknown =>
    obtain ⟨op, f, hexec⟩ := hrow.exec_eq s
    rw [State.portalRun_unknown hcmd hunknown] at hexec
    exact ⟨_, hexec, by simp, by simp, by simp, fun h => by simp [h], fun h => by simp [h]⟩
  case busy => exact ⟨_, exec_bind_busy hcmd hop hclaimed hportal hst, by simp, by simp, by simp⟩
  case refused => exact ⟨_, exec_bind_refused hcmd hop hclaimed hportal hst hcheck, State.bindRefuse_spec ..⟩
  case start =>
    refine ⟨_, exec_start_waits hcmd hop hclaimed hst hfirst hquota, by simp, ?_, by simp, by simp⟩
    rw [State.ctx_finishCmd]
    exact s.ctx_modCtx_same k.ctx fun x => { x with admitWait := true }
  case accepted =>
    obtain ⟨⟨l, hctx⟩, hseq, hresult⟩ := s.bindAccept_spec p e k.ctx k.seq po (s.readNat (s.portalWord p e 0x18) 8) d
    refine ⟨_, exec_bind_accepted hcmd hop hclaimed hportal hst hcheck, ?_⟩
    dsimp only
    rw [hctx]
    exact ⟨rfl, rfl, rfl, rfl, by simp [State.boundCtx, hseed], rfl, rfl, rfl, rfl, rfl, rfl, rfl, rfl, rfl, rfl, hseq,
      hresult⟩

end Sys2Proof.Machine
end

section
/-! PROOFS. Contexts from START to RELEASE (R141, R142, R148, R149, R151): what the end of a context's work does at once, what a
drain waits for, and the threads that a START creates. -/

namespace Sys2Proof.Machine

/-! ## RESET, RELEASE and lease expiry -/

section
variable {s : State} {p e c op : Nat} {seq : Option Nat} (hworks : (s.ctx c).st = .running ∨ (s.ctx c).st = .waiting)
include hworks

theorem State.st_ne_draining : (s.ctx c).st ≠ .draining := by
  obtain hst | hst := hworks
  · simp [hst]
  · simp [hst]

/-- The end of a working context is a drain first, toward BOUND for RESET and toward FREE otherwise (R141). -/
theorem State.runEnd_working :
    s.runEnd p e c op seq = s.drainCtx c (if op = 3 then 1 else 0) (some (op, seq)) := by
  obtain hst | hst := hworks
  · simp [State.runEnd, hst]
  · simp [State.runEnd, hst]

/-- Such a drain is no more than a change of the context, and writes. -/
theorem State.runEnd_delivers : Delivers ((s.modCtx c fun x =>
    { x with drainTo := if op = 3 then 1 else 0, pendingCmd := some (op, seq) }).modCtx c fun x =>
      { x with st := .draining }) (s.runEnd p e c op seq) := by
  rw [State.runEnd_working hworks]
  exact State.setCtxSt_delivers _ (by simpa using State.st_ne_draining hworks)

theorem State.ctx_runEnd_working : (s.runEnd p e c op seq).ctx c = { s.ctx c with
    st := .draining, drainTo := (if op = 3 then 1 else 0), pendingCmd := some (op, seq) } := by
  rw [(State.runEnd_delivers hworks).ctx, State.ctx_modCtx_same, State.ctx_modCtx_same]

end

/-- A context given back is FREE again, with nothing kept (R141). -/
theorem State.ctx_freeCtx (s : State) (c : Nat) : (s.freeCtx c).ctx c = Ctx.reset := by
  unfold State.freeCtx
  extract_lets released unqueued cleared
  have hcleared : cleared.ctx c = Ctx.reset := by
    rw [(State.putStatus_delivers _ c).ctx]
    exact unqueued.ctx_setCtx_same c Ctx.reset
  split
  · exact hcleared
  · exact ((State.writeWord_delivers ..).ctx c).trans hcleared

/-- What RESET makes of a FAULTED context at once (R141). -/
theorem State.runEnd_reset_faulted {s : State} {p e c : Nat} {seq : Option Nat} (hst : (s.ctx c).st = .faulted) :
    s.runEnd p e c 3 seq =
      (((s.dropXlats c).modCtx c fun x => { x with stepExt := 0 }).setCtxSt c .bound).finishCmd p e seq resOk := by
  simp [State.runEnd, State.endContext, hst, resOk]

/-- RELEASE of a BOUND or FAULTED context frees it at once (R141). -/
theorem State.runEnd_release {s : State} {p e c : Nat} {seq : Option Nat}
    (hst : (s.ctx c).st = .faulted ∨ (s.ctx c).st = .bound) :
    s.runEnd p e c 4 seq = (s.freeCtx c).finishCmd p e seq resOk := by
  obtain hst | hst := hst
  · simp [State.runEnd, State.endContext, hst, resOk]
  · simp [State.runEnd, State.endContext, hst, resOk]

theorem State.dropXlats_ctxs (s : State) (c : Nat) : (s.dropXlats c).ctxs = s.ctxs := by
  refine forEach_view (fun u => u.ctxs) _ _ (fun u b => ?_) s
  rfl

theorem State.ctx_resetFaulted {s : State} {c : Nat} (hst : (s.ctx c).st = .faulted) :
    (((s.dropXlats c).modCtx c fun x => { x with stepExt := 0 }).setCtxSt c .bound).ctx c =
      { s.ctx c with st := .bound, stepExt := 0 } := by
  have hdropped : (s.dropXlats c).ctx c = s.ctx c := State.ctx_congr (s.dropXlats_ctxs c) c
  rw [(State.setCtxSt_delivers _ (by simp [hdropped, hst])).ctx]
  simp [hdropped]

section
variable {s : State} {p : Fin 256} {e : Fin 4096} {k : PortalCmd} (hcmd : s.portalCmd p e = some k)
  (hclaimed : s.claimed p e = true)
include hcmd hclaimed

/-- RESET is operation 3 and RELEASE operation 4 (R144). -/
theorem exec_reset_or_release {r : Instr} {op : Nat} (hr : r = .reset p e ∧ op = 3 ∨ r = .release p e ∧ op = 4)
    (hop : k.op = op) : exec r s = .next (s.runEnd p e k.ctx op (some k.seq)) := by
  obtain ⟨rfl, rfl⟩ | ⟨rfl, rfl⟩ := hr
  · change execReset p e s = _
    rw [execReset, State.portalRun_own hcmd hop (by decide) hclaimed]
  · change execRelease p e s = _
    rw [execRelease, State.portalRun_own hcmd hop (by decide) hclaimed]

theorem exec_clearwarn (hop : k.op = 5) : exec (.clearwarn p e) s =
    .next ((s.modCtx k.ctx fun x => { x with warn := false }).finishCmd p e (some k.seq) resOk) := by
  change execClearwarn p e s = _
  rw [execClearwarn, State.portalRun_own hcmd hop (by decide) hclaimed]

end

/-! ## Heartbeats -/

/-- A lease that has run out is counted, and its entry's heartbeat is no longer timed (R148). -/
def State.leaseEnded (s : State) (p e : Nat) : State :=
  (s.bump .ctxEventCntLeases).setEntry (entryKey p e) { s.entrySt (entryKey p e) with heartAt := none }

@[simp] theorem State.ctx_leaseEnded (s : State) (p e c : Nat) : (s.leaseEnded p e).ctx c = s.ctx c := rfl

theorem State.fld_leaseEnded (s : State) (p e : Nat) : (s.leaseEnded p e).fld .ctxEventCntLeases =
    min (s.fld .ctxEventCntLeases + 1) (2 ^ Fld.ctxEventCntLeases.width - 1) := by
  rw [State.leaseEnded, State.fld_setEntry, State.fld_bump_same _ _ _ _ (by decide)]

section
variable {s : State} {p : Fin 256} {e : Fin 4096} {c : Nat} (hservice : s.inService = true) (hlease : s.leaseOf p ≠ 0)
  (hctx : s.ctxOf p e = some c) (hclaimed : s.claimed p e = true)
include hservice hlease hctx hclaimed

/-- The first heartbeat of a claimed entry is noted with the time (R148). -/
theorem exec_heartSample_first (hfirst : (s.entrySt (entryKey p e)).heartAt = none) : exec (.heartSample p e) s =
    .next (s.setEntry (entryKey p e) { s.entrySt (entryKey p e) with
      heart := BitVec.ofNat 64 (s.readNat (s.portalWord p e 0x38) 8), heartAt := some s.time }) := by
  change execHeartSample p e s = _
  simp [execHeartSample, hservice, hlease, hctx, hclaimed, hfirst]

/-- A heartbeat that stood still ends the lease, and the context's work with it (R148). -/
theorem exec_leaseExpiry_still {τ : Nat} (hnoted : (s.entrySt (entryKey p e)).heartAt = some τ)
    (hstill : (s.entrySt (entryKey p e)).heart.toNat = s.readNat (s.portalWord p e 0x38) 8)
    (hcmd : (s.ctx c).pendingCmd = none) (hworks : (s.ctx c).st = .running ∨ (s.ctx c).st = .waiting) :
    exec (.leaseExpiry p e) s = .next ((s.leaseEnded p e).runEnd p e c 9 none) := by
  change execLeaseExpiry p e s = _
  simp [execLeaseExpiry, hservice, hlease, hctx, hclaimed, hnoted, hstill, hcmd, State.st_ne_draining hworks,
    State.leaseEnded]

end

/-! ## START that is admitted -/

/-- What the threads of a START leave of their context's record. -/
def Ctx.binding (x : Ctx) : Bool × List Nat × List Leaf × Word := (x.admitWait, x.endedL, x.leaves, x.seed)

/-- From `s` to `t` the admission queue and what `Ctx.binding` shows of every context are the same. -/
structure KeepsBinding (s t : State) : Prop where
  queue : t.admitQueue = s.admitQueue
  binding : ∀ c, (t.ctx c).binding = (s.ctx c).binding

namespace KeepsBinding

theorem refl (s : State) : KeepsBinding s s := ⟨rfl, fun _ => rfl⟩

theorem trans {s t u : State} (h : KeepsBinding s t) (g : KeepsBinding t u) : KeepsBinding s u :=
  ⟨g.queue.trans h.queue, fun c => (g.binding c).trans (h.binding c)⟩

theorem of_ctxs {s t : State} (hqueue : t.admitQueue = s.admitQueue) (hctxs : t.ctxs = s.ctxs) : KeepsBinding s t :=
  ⟨hqueue, fun c => by rw [State.ctx_congr hctxs]⟩

theorem modCtx (s : State) (c : Nat) {f : Ctx → Ctx} (hf : ∀ x, (f x).binding = x.binding) : KeepsBinding s (s.modCtx c f) :=
  ⟨rfl, fun j => by
    by_cases hj : j = c
    · rw [hj, State.ctx_modCtx_same, hf]
    · rw [State.ctx_modCtx_ne _ _ _ _ hj]⟩

end KeepsBinding

theorem Delivers.keepsBinding {s t : State} (h : Delivers s t) : KeepsBinding s t := .of_ctxs h.admitQueue h.ctxs

theorem Delivers.idleThreads {s t : State} (h : Delivers s t) (b : Nat) : t.idleThreads b = s.idleThreads b := by
  refine List.filter_congr fun k _ => ?_
  obtain ⟨_, hk⟩ := h.thread k
  rw [hk]

namespace State

/-- A context that faults keeps its binding (R124). -/
theorem ctxFault_keepsBinding (s : State) (c code step thread : Nat) (uk : UnitKind) (uid ctr : Nat) :
    KeepsBinding s (s.ctxFault c code step thread uk uid ctr) := by
  unfold State.ctxFault
  extract_lets x live faulted counted
  split
  · have hfaulted : KeepsBinding s faulted := .modCtx s c fun _ => rfl
    have hlogged : KeepsBinding faulted (counted.event .ctxFault uk uid c [code, step, ctr]) :=
      .of_ctxs (by simp [counted]) (by simp [counted])
    exact (hfaulted.trans hlogged).trans (putStatus_delivers _ c).keepsBinding
  · exact .refl s

/-- Room in a bay's cache is the bay's alone (R139). -/
theorem cacheCtx_there {s t : State} {b c : Nat} (h : s.cacheCtx b c = .there t) : ∃ y, t = s.setBay b y := by
  unfold State.cacheCtx at h
  dsimp only at h
  split at h
  · cases h
    exact ⟨_, rfl⟩
  · split at h
    · cases h
    · split at h
      · cases h
        exact ⟨_, rfl⟩
      · split at h
        · cases h
        · cases h
          exact ⟨_, rfl⟩

theorem makeReady_keepsBinding (s : State) (t : Nat) : KeepsBinding s (s.makeReady t) := by
  unfold State.makeReady
  split
  · next u hu =>
    obtain ⟨y, rfl⟩ := cacheCtx_there hu
    exact .of_ctxs rfl rfl
  · exact .of_ctxs rfl rfl
  · have hwaits : KeepsBinding s (s.modThread t fun th => { th with st := .waiting }) := .of_ctxs rfl rfl
    exact hwaits.trans (ctxFault_keepsBinding ..)

/-- The slot of a ready word is its bay's (R210). -/
theorem takeReadySlot_frame (s : State) (b c : Nat) : ∃ bays, s.takeReadySlot b c = { s with bays := bays } := by
  unfold State.takeReadySlot
  dsimp only
  split
  · exact ⟨_, rfl⟩
  · split
    · exact ⟨_, rfl⟩
    · exact ⟨_, rfl⟩

theorem createThread_keepsBinding (s : State) (c i t pc : Nat) : KeepsBinding s (s.createThread c i t pc) := by
  unfold State.createThread
  extract_lets fresh ready listed
  have hfresh : ∀ x, KeepsBinding s (s.setThread t x) := fun _ => .of_ctxs rfl rfl
  have hready : KeepsBinding s ready := (hfresh _).trans (makeReady_keepsBinding _ t)
  have hlisted : KeepsBinding ready listed := .modCtx ready c fun _ => rfl
  obtain ⟨_, hslot⟩ := listed.takeReadySlot_frame (threadBay t) c
  rw [hslot]
  exact (hready.trans hlisted).trans (.of_ctxs rfl rfl)

theorem createThreads_keepsBinding (s : State) (c : Nat) : KeepsBinding s (s.createThreads c) := by
  refine forEach_keeps (KeepsBinding s) _ _ (fun u w hu => ?_) s (.refl s)
  split
  · exact hu
  · exact hu.trans (createThread_keepsBinding ..)

/-- A context that a bay's cache holds has its thread READY at once (R139). -/
theorem makeReady_cached {s : State} {t : Nat} (h : (s.bay (threadBay t)).cache.contains (s.thread t).ctx = true) :
    ∃ y, s.makeReady t = (s.setBay (threadBay t) y).modThread t fun th => { th with st := .ready } := by
  rw [State.makeReady, State.cacheCtx, if_pos h]
  exact ⟨_, rfl⟩

end State

/-- The restart record of a thread that stands at its entry step (R142). -/
def Restart.atEntry (pc : Nat) : Restart :=
  { step := pc, pred := false, putPending := false, putStep := 0, ctr := [0, 0, 0, 0], consumed := 0 }

/-- A context's record with one more thread, number `i`, on physical thread `t` (R142, R151). -/
def Ctx.withThread (x : Ctx) (i t pc : Nat) : Ctx :=
  { x.setRestart i (.atEntry pc) with map := x.map ++ [(i, t)] }

theorem Ctx.restart_setRestart (x : Ctx) (i : Nat) (r : Restart) : (x.setRestart i r).restart i = some r := by
  have hother : (x.restarts.filter fun e => e.1 != i).find? (fun e => e.1 == i) = none := by
    rw [List.find?_eq_none]
    intro e he
    simpa using (List.mem_filter.mp he).2
  simp [Ctx.restart, Ctx.setRestart, List.find?_append, hother]

namespace State

/-- A thread created where its bay's cache holds the context (R142, R151). -/
theorem createThread_cached {s : State} {c i t pc : Nat} (h : (s.bay (threadBay t)).cache.contains c = true) :
    (s.createThread c i t pc).thread t = { Thread.reset with st := .ready, ctx := c, idx := i, pc := pc } ∧
    (s.createThread c i t pc).ctx c = (s.ctx c).withThread i t pc := by
  unfold State.createThread
  extract_lets fresh ready listed
  obtain ⟨y, hready⟩ : ∃ y, ready = _ := State.makeReady_cached (s := s.setThread t
    { Thread.reset with st := .waiting, ctx := c, idx := i, pc := pc }) (t := t) (by simpa using h)
  obtain ⟨_, hslot⟩ := listed.takeReadySlot_frame (threadBay t) c
  rw [hslot]
  constructor
  · change ready.thread t = _
    rw [hready, State.thread_modThread_same, State.thread_setBay, State.thread_setThread_same]
  · change (ready.modCtx c fun x => x.withThread i t pc).ctx c = _
    simp [hready]

/-- A context that asks for one thread has it on the lowest IDLE one of its bay (log entry 19). -/
theorem createThreads_one {s : State} {c b pc t : Nat} {ts : List Nat} (hwant : (s.ctx c).wantThreads = [(b, pc)])
    (hidle : s.idleThreads b = t :: ts) : s.createThreads c = s.createThread c 0 t pc := by
  simp [State.createThreads, hwant, forEach, hidle]

theorem threadBay_of_idle {s : State} {b t : Nat} {ts : List Nat} (h : s.idleThreads b = t :: ts) : threadBay t = b := by
  have hmem : t ∈ s.idleThreads b := by simp [h]
  simp only [State.idleThreads, upTo, List.mem_filter, List.mem_map, List.mem_range] at hmem
  obtain ⟨⟨i, hi, rfl⟩, -⟩ := hmem
  simp only [threadBay]
  omega

theorem bound_of_nextAdmitted {s : State} {c : Nat} (h : s.nextAdmitted = some c) : (s.ctx c).st = .bound := by
  have hadmissible : s.admissible c = true := List.find?_some h
  simp only [State.admissible, Bool.and_eq_true, beq_iff_eq] at hadmissible
  obtain ⟨⟨⟨hst, -⟩, -⟩, -⟩ := hadmissible
  exact hst

/-- A START leaves the admission queue, and what its context's last threads left is dropped (R151). -/
def dequeued (s : State) (c : Nat) : State :=
  { s with admitQueue := s.admitQueue.filter (· != c) }.modCtx c fun x =>
    { x with admitWait := false, endedL := [], restarts := [] }

/-- Then the context is RUNNING. -/
def admitted (s : State) (c : Nat) : State := (s.dequeued c).modCtx c fun x => { x with st := .running }

theorem ctx_admitted (s : State) (c : Nat) : (s.admitted c).ctx c =
    { s.ctx c with admitWait := false, endedL := [], restarts := [], st := .running } := by
  rw [admitted, State.ctx_modCtx_same, dequeued, State.ctx_modCtx_same]
  rfl

end State

/-- The next admissible START creates its context's threads; the rest is writes (R144, R151). -/
theorem exec_startAdmitted {p : Fin 256} {e : Fin 4096} {c : Nat} {s : State} (hctx : s.ctxOf p e = some c)
    (hservice : s.inService = true) (hnext : s.nextAdmitted = some c) :
    ∃ u, Delivers (s.admitted c) u ∧ exec (.startAdmitted p e) s = .next (u.createThreads c) := by
  have hst : ((s.dequeued c).ctx c).st = .bound := by
    have hbound : (s.ctx c).st = .bound := State.bound_of_nextAdmitted hnext
    rw [State.dequeued, State.ctx_modCtx_same]
    exact hbound
  refine ⟨_, State.setCtxSt_delivers (s.dequeued c) (st := .running) (by simp [hst]), ?_⟩
  change execStartAdmitted p e s = _
  simp [execStartAdmitted, hctx, hservice, hnext, State.dequeued]

/-- Settles O37: a drain and a START change their context's record and write; what is done at once is the record's new value. -/
theorem contextLifecycle : Obligations.ContextLifecycle := by
  refine ⟨fun p e c s hctx hservice hnext => ?admitted, fun r p e op k s hr hcmd hop hclaimed =>
      ⟨fun hworks => ?drains, fun hst => ?faulted, fun hst hrelease _ => ?bound⟩,
    fun p e k s hcmd hop hclaimed => ?clearwarn,
    fun p e c s hservice hlease hctx hclaimed hfirst => exec_heartSample_first hservice hlease hctx hclaimed hfirst,
    fun p e c τ s hservice hlease hctx hclaimed hnoted hstill hcmd hworks => ?lease,
    fun p e c b pc t ts s hctx hservice hnext hwant hmap _ _ hidle hcached => ?oneThread⟩
  case admitted =>
    obtain ⟨u, hu, hexec⟩ := exec_startAdmitted hctx hservice hnext
    obtain ⟨hqueue, hbinding⟩ := hu.keepsBinding.trans (u.createThreads_keepsBinding c)
    have hctx := hbinding c
    rw [State.ctx_admitted] at hctx
    simp only [Ctx.binding, Prod.mk.injEq] at hctx
    obtain ⟨hwait, hended, hleaves, hseed⟩ := hctx
    exact ⟨_, hexec, hqueue, hwait, hended, hleaves, hseed⟩
  case drains => exact ⟨_, exec_reset_or_release hcmd hclaimed hr hop, State.ctx_runEnd_working hworks⟩
  case faulted =>
    refine ⟨_, exec_reset_or_release hcmd hclaimed hr hop, ?_⟩
    obtain ⟨-, rfl⟩ | ⟨-, rfl⟩ := hr
    · rw [State.runEnd_reset_faulted hst]
      simp [State.ctx_resetFaulted hst]
    · rw [State.runEnd_release (.inl hst)]
      simp [State.ctx_freeCtx, Ctx.reset]
  case bound =>
    subst hrelease
    refine ⟨_, exec_reset_or_release hcmd hclaimed hr hop, ?_⟩
    rw [State.runEnd_release (.inr hst)]
    simp [State.ctx_freeCtx]
  case clearwarn => exact ⟨_, exec_clearwarn hcmd hclaimed hop, by simp, fun c hc => by simp [hc], by simp, by simp⟩
  case lease =>
    have hends : ((s.leaseEnded p e).ctx c).st = .running ∨ ((s.leaseEnded p e).ctx c).st = .waiting := by
      simpa using hworks
    have hwrites := State.runEnd_delivers (p := p) (e := e) (op := 9) (seq := none) hends
    refine ⟨_, exec_leaseExpiry_still hservice hlease hctx hclaimed hnoted hstill hcmd hworks, ?_, ?_, ?_⟩
    · rw [State.ctx_runEnd_working hends, State.ctx_leaseEnded]
      rfl
    · rw [hwrites.entrySt]
      simp [State.leaseEnded]
    · rw [hwrites.fld _ _ (by decide) (by decide), State.fld_modCtx, State.fld_modCtx, State.fld_leaseEnded]
  case oneThread =>
    obtain ⟨u, hu, hexec⟩ := exec_startAdmitted hctx hservice hnext
    have huctx : u.ctx c = { s.ctx c with admitWait := false, endedL := [], restarts := [], st := .running } :=
      (hu.ctx c).trans (s.ctx_admitted c)
    have huidle : u.idleThreads b = t :: ts := (hu.idleThreads b).trans hidle
    have hucached : (u.bay (threadBay t)).cache.contains c = true := by
      obtain ⟨_, _, hbay⟩ := hu.bay b
      rw [State.threadBay_of_idle hidle, hbay]
      exact hcached
    obtain ⟨hthread, hcreated⟩ := State.createThread_cached (i := 0) (pc := pc) hucached
    refine ⟨_, hexec, ?_⟩
    rw [State.createThreads_one (by rw [huctx]; exact hwant) huidle]
    refine ⟨by rw [hcreated, huctx]; rfl, ?_, hthread, ?_⟩
    · rw [hcreated, huctx]
      simp [Ctx.withThread, Ctx.setRestart, hmap]
    · rw [hcreated]
      exact Ctx.restart_setRestart ..

end Sys2Proof.Machine
end

section
/-! PROOFS. Where three statements on steps fail: each says that device memory keeps its bytes, or holds those the step wrote
and no more, where the context's state changes and its portal's STATUS word shows it (R124, R141, R144; log entry 18). -/

namespace Sys2Proof.Machine

/-- The low byte of the STATUS word of context 0 in `oneEntryPortal`: its state and WARN (R144). -/
def statusByte : Nat := 16 * mib + 0x30

/-! ## A WAIT that is satisfied -/

/-- Context 0 is WAITING on its one thread, and a value that satisfies the thread's WAIT has come. -/
def waitLatched : State :=
  { State.reset with
    boot := { State.reset.boot with on := true, stage := 5 }
    cfg := { Configuration.unset with portals := [oneEntryPortal] }
    ctxs := [(0, { Ctx.reset with st := .waiting, nSteps := 2, map := [(0, 0)] })]
    bays := [(0, { Bay.reset with cache := [0] })]
    threads := [(0, { Thread.reset with
      st := .waiting, pc := 1
      wait := some { src := 0, sid := 0, target := 1, cons := false, timeout := 0, since := 0, hit := true, uid := 0 } })] }

/-- The thread is READY again, so that its context is RUNNING (R141), and STATUS shows the code of RUNNING. -/
theorem waitSatisfied_waitLatched : (nextState (exec (.waitSatisfied 0) waitLatched)).map (·.byte statusByte) =
    some (BitVec.ofNat 8 CtxState.running.code) := by decide +kernel

/-- Refutes O33 in its clause on a WAIT that is satisfied, which keeps device memory in every state: in `waitLatched` the
context leaves WAITING with its thread, and the STATUS word of its portal entry is written. -/
theorem not_synchronisingSteps : ¬ Obligations.SynchronisingSteps := by
  unfold Obligations.SynchronisingSteps
  rintro ⟨-, -, hsatisfied, -⟩
  obtain ⟨t, ht, -, -, -, hmem, -⟩ :=
    (hsatisfied 0 _ waitLatched rfl rfl rfl (by decide) (by decide) rfl).nextState
  have hwritten : t.byte statusByte = BitVec.ofNat 8 CtxState.running.code := nextState_view ht waitSatisfied_waitLatched
  rw [State.byte_congr hmem] at hwritten
  exact absurd hwritten (by decide)

/-! ## A FENCE that completes -/

/-- A FENCE in progress, alone among its thread's steps. -/
def fenceStep : Active := { Active.start Thread.reset 0 0 0x0A 0 0 0 with done := false }

/-- Context 0 is WAITING: its one thread had no room in its bay's cache, and has since found it and issued a FENCE. -/
def fenceOfWaiting : State :=
  { State.reset with
    boot := { State.reset.boot with on := true, stage := 5 }
    cfg := { Configuration.unset with portals := [oneEntryPortal] }
    ctxs := [(0, { Ctx.reset with st := .waiting, nSteps := 2, map := [(0, 0)] })]
    bays := [(0, { Bay.reset with cache := [0] })]
    threads := [(0, { Thread.reset with st := .ready, pc := 1, steps := [fenceStep] })] }

/-- As the FENCE completes the context is RUNNING (R141), and STATUS shows it. -/
theorem fenceComplete_fenceOfWaiting : (nextState (exec (.fenceComplete 0) fenceOfWaiting)).map (·.byte statusByte) =
    some (BitVec.ofNat 8 CtxState.running.code) := by decide +kernel

/-- Refutes O32 in its clause on FENCE_COMPLETE, which keeps device memory in every state where nothing holds the FENCE: in
`fenceOfWaiting` the context goes from WAITING to RUNNING, and the STATUS word of its portal entry is written. -/
theorem not_matmulModeFence : ¬ Obligations.MatmulModeFence := by
  unfold Obligations.MatmulModeFence
  rintro ⟨-, -, -, hfence, -⟩
  obtain ⟨hcompletes, -⟩ := hfence 0 fenceStep fenceOfWaiting rfl
  obtain ⟨t, ht, -, -, hmem⟩ := (hcompletes (by decide) (by decide)).nextState
  have hwritten : t.byte statusByte = BitVec.ofNat 8 CtxState.running.code :=
    nextState_view ht fenceComplete_fenceOfWaiting
  rw [State.byte_congr hmem] at hwritten
  exact absurd hwritten (by decide)

/-! ## A MOVE whose data no bay can translate -/

/-- The state and the step word a step begins with. -/
def Begun.started : Begun → Option (State × Nat)
  | .go s w => some (s, w)
  | _ => none

theorem Begun.eq_go {b : Begun} {s : State} {w : Nat} (h : b.started = some (s, w)) : b = .go s w := by
  cases b <;> simp_all [Begun.started]

/-- What an effect without a fault shows, known by running it. -/
theorem ok_view {ε α : Type} {r : Except ε State} {f : State → α} {v : α} (h : r.toOption.map f = some v) :
    ∃ y, r = .ok y ∧ f y = v := by
  cases r with
  | error e => simp [Except.toOption] at h
  | ok y => exact ⟨y, rfl, by simpa [Except.toOption] using h⟩

/-- A MOVE of one pair of 64 bytes; S_SRC and S_DST are both stencil 0. -/
def moveWord : Nat := 0x03 + 64 * 2 ^ 32 + 1 * 2 ^ 64

/-- Stencil 0 as a program of two words (R154): ADD makes the address 16 MiB, the first of virtual page 8, and EMIT emits
one item. -/
def pageEightStencil : Nat := 0xA0000000 * 2 ^ 32 + 0x40C00001

/-- A thread stands before the MOVE. The copy's leaf table holds the leaf of page 0, where recipe and stencils lie, in its first
line, which the bay has read, and that of page 8 in its second, which is poisoned (R186, R192). -/
def moveOffPage : State :=
  { State.reset with
    boot := { State.reset.boot with on := true, stage := 5 }
    cfg := { Configuration.unset with portals := [oneEntryPortal] }
    mem := memStore (memStore [] 0x2000C0 (leBytes 32 moveWord)) 0x201000 (leBytes 8 pageEightStencil)
    poison := [((0x0004_0080_2000 + 8 * 8) / 64, true)]
    ctxs := [(0, { Ctx.reset with
      st := .running, nSteps := 2, map := [(0, 0)], stencils := 0x1000, nStencil := 1, qXfer := 1
      copy := [(0x0004_0080_0000, 0), (0x0004_0080_1000, 1), (0x0004_0080_2000, 513)]
      leaves := [{ vpage := 0, page := 0x200000, target := 0, writable := true },
        { vpage := 8, page := 0x400000, target := 0, writable := true }] })]
    bays := [(0, { Bay.reset with cache := [0], xlats := [(0, 0)] })]
    threads := [(0, { Thread.reset with st := .ready })] }

theorem begin_moveOffPage : moveOffPage.begin 0 .move = .go moveOffPage moveWord :=
  Begun.eq_go (by decide +kernel)

/-- The state its effect starts from. -/
def moveListed : State := moveOffPage.listed 0 .move moveWord

/-- The pair's one source and destination. -/
def pageEightItem : Item := (some (16 * mib), 0, 0)

theorem moveItems_moveListed :
    moveItems moveListed (moveListed.ctx 0) (moveOffPage.thread 0) moveWord = .ok ([pageEightItem], [pageEightItem]) := by
  decide +kernel

theorem readVirt_moveListed :
    moveListed.readVirt (moveListed.ctx 0) (16 * mib) (mvLen moveWord) = .ok (List.replicate 64 0) := by decide +kernel

/-- The pair's write goes through, and is not to the portal's STATUS word. -/
theorem writeVirt_moveListed : (moveListed.writeVirt (moveListed.ctx 0) (16 * mib) (List.replicate 64 0)).toOption.map
    (·.byte statusByte) = some 0 := by decide +kernel

/-- The step's stream of page 8 meets the poison, so that the context faults with MEMORY and drains (R124, R192). -/
theorem move_moveOffPage : (nextState (exec (.move 0) moveOffPage)).map (·.byte statusByte) =
    some (BitVec.ofNat 8 CtxState.draining.code) := by decide +kernel

/-- Refutes O31 in its clause on a MOVE of one pair within the device, which in every state leaves in memory what the pair's
write leaves: in `moveOffPage` the step's stream then faults its context, whose portal's STATUS word is written. -/
theorem not_stepsInProgress : ¬ Obligations.StepsInProgress := by
  unfold Obligations.StepsInProgress
  rintro ⟨-, -, -, -, -, hmove, -⟩
  obtain ⟨y, hwrite, hkept⟩ := ok_view writeVirt_moveListed
  obtain ⟨t, ht, hmem, -⟩ := (hmove 0 moveWord (16 * mib) (16 * mib) (16 * mib) (16 * mib) pageEightItem pageEightItem
    (List.replicate 64 0) (moveListed.ctx 0) moveOffPage moveOffPage moveListed y begin_moveOffPage (by decide +kernel) rfl
    rfl (by decide) (by decide) (by decide) moveItems_moveListed rfl rfl (by decide) (by decide) readVirt_moveListed
    hwrite).nextState
  have hwritten : t.byte statusByte = BitVec.ofNat 8 CtxState.draining.code := nextState_view ht move_moveOffPage
  rw [State.byte_congr hmem, hkept] at hwritten
  exact absurd hwritten (by decide)

end Sys2Proof.Machine
end

section
/-! PROOFS. Where the statement on streams and the larder fails: the end of a transfer sets the waiting frames of its context
going (R138), and a request that cannot leave the device faults its step, which the context's STATUS word shows (R124, R144,
R269, R276). -/

namespace Sys2Proof.Machine

/-- The write in flight: one line of the cellar. -/
def lineWrite : Xfer :=
  { host := false, addr := 0x300000, page := 0, len := 64, pool := 64, hint := 0, piece := 0, first := 0, past := 0
    waits := [], attic := 0 }

/-- The stream it belongs to, which has nothing else to do. -/
def lineWriteStream : Stream :=
  { thread := 0, uid := 0, name := .sDst, write := true, begun := 0, depth := 0, todo := [], flight := [lineWrite]
    held := [], spilled := [], blockedSince := none }

/-- The READ_REQ of the thread's second step: 64 bytes of window 0 of device 1 (R262). -/
def readRequest : Sent :=
  { fseq := 0, thread := 0, idx := 0, ctx := 0, pc := 1, uid := 1, answers := true, got := 0, len := 64, dst := 0, src := 0
    data := [], window := 0, off := 0, tag := 0 }

/-- Its flow, where the request waits for the context's quota (R138, R273). -/
def readFlow : SrcFlow :=
  { dst := 1, flow := 0, mc := none, n := 1, u := 0, opened := 0, sync := true, unacked := [readRequest], lost := false
    sigWait := [], used := 0, transfer := 0, backlog := [mkFrame 3 2 0 false 0 1 0 0 0 0 0 (leBytes 8 64)], waiting := []
    members := [], repairs := [] }

/-- Context 0 may have one transfer outstanding, and its thread's line write is that one; the READ_REQ waits. No profile
gives a route to device 1. -/
def requestBehindWrite : State :=
  { State.reset with
    boot := { State.reset.boot with on := true, stage := 5 }
    cfg := { Configuration.unset with portals := [oneEntryPortal] }
    ctxs := [(0, { Ctx.reset with st := .running, nSteps := 3, map := [(0, 0)], qXfer := 1, permFabric := true })]
    bays := [(0, { Bay.reset with cache := [0], streams := [lineWriteStream] })]
    threads := [(0, { Thread.reset with
      st := .stalled, pc := 2, steps := [Active.start Thread.reset 0 0 0x03 0 0 0, Active.start Thread.reset 1 1 0x03 0 0 0] })]
    hnx := { Hnx.reset with src := [readFlow] } }

/-- The write completes, the request is sent and lost for want of a route, and its step's MEMORY fault drains the context. -/
theorem transferComplete_requestBehindWrite :
    (nextState (exec (.transferComplete 0 .cellar 0x300000 64 .clean) requestBehindWrite)).map (·.byte statusByte) =
      some (BitVec.ofNat 8 CtxState.draining.code) := by decide +kernel

/-- Refutes O35 in its clause on a write that completes, which keeps device memory in every state without an error in memory:
in `requestBehindWrite` the quota the write gives back lets a READ_REQ go that cannot leave the device, and the STATUS word
of the faulted context's portal entry is written. -/
theorem not_streamsAndLarder : ¬ Obligations.StreamsAndLarder := by
  unfold Obligations.StreamsAndLarder
  rintro ⟨-, -, -, -, -, -, -, hwrite⟩
  obtain ⟨t, ht, hmem, -⟩ := (hwrite 0 0x300000 0 lineWriteStream lineWrite requestBehindWrite rfl (by decide) rfl rfl rfl
    rfl rfl rfl (by decide) rfl rfl).nextState
  have hwritten : t.byte statusByte = BitVec.ofNat 8 CtxState.draining.code :=
    nextState_view ht transferComplete_requestBehindWrite
  rw [State.byte_congr hmem] at hwritten
  exact absurd hwritten (by decide)

end Sys2Proof.Machine
end

section
/-! PROOFS. Host-managed memory as the host port and its peers reach it (R180, R235, R238, R249). -/

namespace Sys2Proof.Machine

/-! ## Lines beyond host-managed memory -/

/-- Each of the six rows that name a line looks first whether the line exists (R180). -/
theorem exec_beyond_hostMem {c : Instr} {h : BitVec 48} {s : State} (hline : HostLine c h) (hsize : s.hostMemSize ≤ h.toNat) :
    exec c s = .fault .outsideHostManaged := by
  obtain ⟨p, k, rfl⟩ | ⟨p, d, k, rfl⟩ | ⟨w, o, rfl⟩ | ⟨x, k, rfl⟩ | rfl | ⟨m, rfl⟩ := hline <;> exact if_pos hsize

/-! ## What a write leaves -/

theorem Wrote.hostMem {a : Nat} {d : List Byte} {s t : State} (h : Wrote a d s t) : t.hostMem = s.hostMem := by rw [h]
theorem Wrote.sec {a : Nat} {d : List Byte} {s t : State} (h : Wrote a d s t) : t.sec = s.sec := by rw [h]
theorem Wrote.lats {a : Nat} {d : List Byte} {s t : State} (h : Wrote a d s t) : t.lats = s.lats := by rw [h]

/-! ## Numbers in memory -/

theorem leNat_lt (l : List Byte) : leNat l < 256 ^ l.length := by
  induction l with
  | nil => decide
  | cons b r ih =>
    have hb : b.toNat < 256 := b.isLt
    rw [leNat, List.length_cons, Nat.pow_succ]
    omega

theorem State.readNat_lt (s : State) (a n : Nat) : s.readNat a n < 256 ^ n := by
  simpa [State.readNat, State.bytes] using leNat_lt (s.bytes a n)

theorem atomicNew_lt {n old : Nat} (op : AtomicKind) (hold : old < 256 ^ n) : atomicNew n old op < 256 ^ n := by
  have hcut : ∀ x, x % 2 ^ (8 * n) < 256 ^ n := fun x => by
    rw [Nat.pow_mul]
    exact Nat.mod_lt _ (by positivity)
  cases op with
  | fetchAdd v => exact hcut _
  | swap v => exact hcut _
  | cas cmp new =>
    change (if old = cmp.toNat % 2 ^ (8 * n) then new.toNat % 2 ^ (8 * n) else old) < _
    split
    · exact hcut _
    · exact hold

/-- A number stored in `n` bytes that hold it reads back. -/
theorem Wrote.readNat {a n v : Nat} {s t : State} (h : Wrote a (leBytes n v) s t) (hv : v < 256 ^ n) : t.readNat a n = v := by
  have hbytes := h.bytes
  rw [length_leBytes] at hbytes
  rw [State.readNat, hbytes, leNat_leBytes, Nat.mod_eq_of_lt hv]

/-! ## Who is admitted -/

theorem State.admits_host {s : State} (hlink : s.linkUp = true) : s.admits false = true := by simp [State.admits, hlink]

theorem State.admits_peer {s : State} (hlink : s.linkUp = true) (hlevel : s.cxl.level ≠ 0) : s.admits true = true := by
  simp [State.admits, hlink, hlevel]

theorem State.admits_of {s : State} {p : Bool} (hlink : s.linkUp = true) (hlevel : p = true → s.cxl.level ≠ 0) :
    s.admits p = true := by
  cases p with
  | false => exact State.admits_host hlink
  | true => exact State.admits_peer hlink (hlevel rfl)

theorem State.not_admits_peer {s : State} (hlevel : s.cxl.level = 0) : s.admits true = false := by simp [State.admits, hlevel]

/-! ## Reads, writes and AtomicOps -/

section
variable {h : BitVec 48} {s : State} (hsize : h.toNat < s.hostMemSize)
include hsize

theorem exec_cxlMemWrite_line {p : Bool} {d : List Byte} (c : LineCheck) (hadmits : s.admits p = true)
    (hactive : s.cxl.memActive = true) (hhost : p = false → s.cxl.viral = false)
    (hpeer : p = true → s.hostHolds (lineOf (dpaOfHost h.toNat)) = false) (haligned : h.toNat % 64 = 0)
    (hlength : d.length = 64) : exec (.cxlMemWrite p h d c) s = .next (s.applyPart (dpaOfHost h.toNat) d) := by
  have hwhole : d.take (64 - h.toNat % 64) = d := List.take_of_length_le (by omega)
  change execCxlMemWrite p h d c s = _
  cases p with
  | false => simp [execCxlMemWrite, Nat.not_le.mpr hsize, hadmits, hactive, hhost rfl, hwhole, hlength]
  | true =>
    simp [execCxlMemWrite, Nat.not_le.mpr hsize, hadmits, hactive, hwhole, hlength, State.writePart, hpeer rfl]

theorem exec_cxlMemWrite_inactive {p : Bool} (d : List Byte) (c : LineCheck) (hadmits : s.admits p = true)
    (hactive : s.cxl.memActive = false) : exec (.cxlMemWrite p h d c) s = .next s.inactive := by
  change execCxlMemWrite p h d c s = _
  simp [execCxlMemWrite, Nat.not_le.mpr hsize, hadmits, hactive]

theorem exec_cxlMemRead_host (c : LineCheck) (hlink : s.linkUp = true) (hactive : s.cxl.memActive = true) :
    exec (.cxlMemRead false h c) s = .next (s.hostRead (dpaOfHost (h.toNat / 64 * 64)) c) := by
  change execCxlMemRead false h c s = _
  simp [execCxlMemRead, Nat.not_le.mpr hsize, State.admits_host hlink, hactive]

theorem exec_cxlMemRead_peer (hadmits : s.admits true = true) (hactive : s.cxl.memActive = true) :
    exec (.cxlMemRead true h .clean) s = .next (s.answer (.data (s.bytes (dpaOfHost (h.toNat / 64 * 64)) 64)
      (s.poisoned (lineOf (dpaOfHost (h.toNat / 64 * 64)))))) := by
  change execCxlMemRead true h .clean s = _
  simp [execCxlMemRead, Nat.not_le.mpr hsize, hadmits, hactive, State.checkHost]

theorem exec_cxlMemRead_inactive {p : Bool} (c : LineCheck) (hadmits : s.admits p = true) (hactive : s.cxl.memActive = false) :
    exec (.cxlMemRead p h c) s = .next (s.poisonAnswer (!p) 64) := by
  change execCxlMemRead p h c s = _
  simp [execCxlMemRead, Nat.not_le.mpr hsize, hadmits, hactive]

theorem exec_cxlAtomicOp_free {w : Bool} (op : AtomicKind) (hadmits : s.admits true = true)
    (haligned : h.toNat % (if w then 8 else 4) = 0) (hactive : s.cxl.memActive = true)
    (hfree : s.hostHolds (lineOf (dpaOfHost h.toNat)) = false) :
    exec (.cxlAtomicOp h w op) s = .next (s.atomicOp (dpaOfHost h.toNat) w op) := by
  change execCxlAtomicOp h w op s = _
  simp [execCxlAtomicOp, Nat.not_le.mpr hsize, hadmits, hactive, haligned, hfree]

theorem exec_peer_not_admitted (hlevel : s.cxl.level = 0) (d : List Byte) (c : LineCheck) :
    exec (.cxlMemRead true h c) s = .next s ∧ exec (.cxlMemWrite true h d c) s = .next s := by
  change execCxlMemRead true h c s = _ ∧ execCxlMemWrite true h d c s = _
  simp [execCxlMemRead, execCxlMemWrite, Nat.not_le.mpr hsize, State.not_admits_peer hlevel]

end

/-- A read of a line without poison, none injected, answers its bytes. -/
theorem State.hostRead_sound {s : State} {a : Nat} (hsound : s.poisoned (lineOf a) = false) (hinject : s.injOn 3 = false) :
    s.hostRead a .clean = s.answer (.data (s.bytes a 64) false) := by
  simp [State.hostRead, State.checkHost, hsound, hinject]

theorem State.readNat_answer (s : State) (r : Reply) (a n : Nat) : (s.answer r).readNat a n = s.readNat a n := rfl
theorem State.byte_answer (s : State) (r : Reply) (a : Nat) : (s.answer r).byte a = s.byte a := rfl
theorem State.reply_answer (s : State) (r : Reply) : (s.answer r).reply = r := rfl

/-- On a sound word the old value is answered, and the new one stored where it stood. -/
theorem State.atomicOp_sound {s : State} {a n : Nat} {w : Bool} (op : AtomicKind) (hn : (if w then 8 else 4) = n)
    (hsound : s.readsBad a n = false) : (s.atomicOp a w op).readNat a n = atomicNew n (s.readNat a n) op ∧
      (s.atomicOp a w op).reply = .data (leBytes n (s.readNat a n)) false ∧
      ∀ x, (x < a ∨ a + n ≤ x) → (s.atomicOp a w op).byte x = s.byte x := by
  have hwrote := s.applyPart_wrote a (leBytes n (atomicNew n (s.readNat a n) op))
  have hop : s.atomicOp a w op = (s.applyPart a (leBytes n (atomicNew n (s.readNat a n) op))).answer
      (.data (leBytes n (s.readNat a n)) false) := by simp [State.atomicOp, hn, hsound]
  rw [hop, State.readNat_answer, State.reply_answer]
  refine ⟨hwrote.readNat (atomicNew_lt op (s.readNat_lt a n)), rfl, fun x hx => ?_⟩
  rw [State.byte_answer, hwrote.byte x (by rwa [length_leBytes])]

/-- A poisoned answer to the host is counted twice, and its data is free (R249). -/
theorem State.poisonAnswer_host (s : State) (n : Nat) :
    (∃ d, d.length = n ∧ (s.poisonAnswer true n).reply = .data d true) ∧
    (s.poisonAnswer true n).fld .cxlHdmCntInactive = min (s.fld .cxlHdmCntInactive + 1) (2 ^ Fld.cxlHdmCntInactive.width - 1) ∧
    (s.poisonAnswer true n).fld .cxlHdmCntPoisonRd = min (s.fld .cxlHdmCntPoisonRd + 1) (2 ^ Fld.cxlHdmCntPoisonRd.width - 1) ∧
    (s.poisonAnswer true n).mem = s.mem ∧ (s.poisonAnswer true n).hostMem = s.hostMem := by
  have hflds : (s.poisonAnswer true n).flds = ((s.bump .cxlHdmCntInactive).bump .cxlHdmCntPoisonRd).flds := rfl
  refine ⟨⟨_, ?_, rfl⟩, ?inactive, ?poison, rfl, rfl⟩
  · simp [upTo]
  case inactive =>
    rw [State.fld_congr hflds, State.fld_bump_ne _ _ _ _ _ _ (by decide), State.fld_bump_same _ _ _ _ (by decide)]
  case poison =>
    rw [State.fld_congr hflds, State.fld_bump_same _ _ _ _ (by decide), State.fld_bump_ne _ _ _ _ _ _ (by decide)]

/-- Settles O39: each command is one operation of the model at the device address, and what that leaves is the operation's. -/
theorem hostMemory : Obligations.HostMemory := by
  refine ⟨fun h d s hsize hlink hactive hviral haligned hlength => ?write,
    fun p h d c s hsize hlink hlevel hactive =>
      exec_cxlMemWrite_inactive hsize d c (State.admits_of hlink hlevel) hactive,
    fun h s hsize hlink hactive hsound hinject => ?read,
    fun h w op s hsize hlink hlevel haligned hactive hfree hsound => ?atomic,
    fun c h s hsize hline => exec_beyond_hostMem hline hsize,
    fun h s hsize hlink hactive hlevel => ?peerRead,
    fun h d s hsize hlink hactive hlevel hfree haligned hlength => ?peerWrite,
    fun h d c s hsize hlink hlevel => exec_peer_not_admitted hsize hlevel d c,
    fun h c s hsize hlink hactive => ?inactive⟩
  case write =>
    have hwrote := s.applyPart_wrote (dpaOfHost h.toNat) d
    exact ⟨_, exec_cxlMemWrite_line hsize .clean (State.admits_host hlink) hactive (fun _ => hviral) nofun haligned hlength,
      hlength ▸ hwrote.bytes, hlength ▸ hwrote.byte, hwrote.hostMem, hwrote.sec, hwrote.lats⟩
  case read =>
    rw [exec_cxlMemRead_host hsize .clean hlink hactive, State.hostRead_sound hsound hinject]
    rfl
  case atomic =>
    exact ⟨_, exec_cxlAtomicOp_free hsize op (State.admits_peer hlink hlevel) haligned hactive hfree,
      State.atomicOp_sound op rfl hsound⟩
  case peerRead => exact ⟨_, exec_cxlMemRead_peer hsize (State.admits_peer hlink hlevel) hactive, rfl, rfl⟩
  case peerWrite =>
    have hwrote := s.applyPart_wrote (dpaOfHost h.toNat) d
    exact ⟨_, exec_cxlMemWrite_line hsize .clean (State.admits_peer hlink hlevel) hactive nofun (fun _ => hfree) haligned
      hlength, hlength ▸ hwrote.bytes, hlength ▸ hwrote.byte⟩
  case inactive => exact ⟨_, exec_cxlMemRead_inactive hsize c (State.admits_host hlink) hactive, s.poisonAnswer_host 64⟩

end Sys2Proof.Machine
end

section
/-! PROOFS. Every command completes but where its operands stop it (R180, R261, R290, R377): its meaning is followed branch by
branch. -/

namespace Sys2Proof.Machine

/-- A frame's row and a sample's refuse operands that don't fit them; of every other row all operands fit. -/
theorem exec_of_not_wf {c : Instr} (s : State) (hwf : c.wf = false) : exec c s = .refused .illFormed := by
  cases c
  case idle | link | write | readReq | readResp | casReq | casResp | signalFrame | e2eAck | e2eNack | mcWrite | mcOpen |
      mcAck | mcPrune | mcRepair | reservedFrame | thermalSample | linePowerSample =>
    exact if_pos (by simp [hwf])
  all_goals cases hwf

/-- The answer is a next state. -/
def Ends (o : Out) : Prop := ∃ t, o = .next t

theorem ends_next (t : State) : Ends (.next t) := ⟨t, rfl⟩

/-- Within host-managed memory a row that names a line answers in each of its branches. -/
theorem exec_ends_of_hostLine {c : Instr} {h : BitVec 48} {s : State} (hline : HostLine c h) (hsize : h.toNat < s.hostMemSize) :
    Ends (exec c s) := by
  have hin : ¬ s.hostMemSize ≤ h.toNat := Nat.not_le.mpr hsize
  obtain ⟨p, k, rfl⟩ | ⟨p, d, k, rfl⟩ | ⟨w, o, rfl⟩ | ⟨x, k, rfl⟩ | rfl | ⟨m, rfl⟩ := hline
  all_goals
    simp only [exec, execCxlMemRead, execCxlMemWrite, execCxlAtomicOp, execHostOwnershipRequest, execRecallTimer,
      execBisnpResponse, if_neg hin]
    repeat' split
  all_goals exact ends_next _

/-- Any other command that fits its row: one whose operands are checked has passed the check, and where a meaning
distinguishes cases, each of them answers a next state. -/
theorem exec_ends_of_no_hostLine {c : Instr} (s : State) (hline : ∀ h, ¬ HostLine c h) (hwf : c.wf = true) :
    Ends (exec c s) := by
  cases c
  case cxlMemRead | cxlMemWrite | cxlAtomicOp | hostOwnershipRequest | recallTimer | bisnpResponse =>
    simp [HostLine] at hline
  case idle | link | write | readReq | readResp | casReq | casResp | signalFrame | e2eAck | e2eNack | mcWrite | mcOpen |
      mcAck | mcPrune | mcRepair | reservedFrame | thermalSample | linePowerSample =>
    simp only [exec, execIdle, execLink, execWrite, execReadReq, execReadResp, execCasReq, execCasResp,
      execSignalFrame, execE2eAck, execE2eNack, execMcWrite, execMcOpen, execMcAck, execMcPrune, execMcRepair,
      execReservedFrame, execThermalSample, execLinePowerSample, hwf, Bool.not_true, Bool.false_eq_true, if_false]
    repeat' split
    all_goals exact ends_next _
  all_goals
    simp only [exec, execPerstNDeassert, execPerstNAssert, execPerstDeferredEffect, execPwrOkAssert, execRailOutOfWindow,
      execVddAuxPowerUp, execVddAuxLoss, execNvmRestart, execBurstBoundary, execShadowLoadComplete, execBurstResolve,
      execDrainComplete, execDarkeningComplete, execLatFenceReq, execLatCtrlWrite, execSearchComplete, execSearchTimeout,
      execCalCheckEnd, execSuspectTimeout, execLinePowerRecoveryTimeout, execReadoutSelfTestEnd, execMove, execSignal,
      execWait, execWaitSatisfied, execWaitTimeout, execPutComplete, execTakeReserve, execFenceComplete, execStepComplete,
      execTransferComplete, execLarderFillComplete, execBlockedStreamCheck, execStartAdmitted, execHeartSample,
      execLeaseExpiry, execHeldSignalTimeout, execAllowanceEval, execHalfClockEnter, execHalfClockExit,
      execPackagePowerSample, execScrubRead, execCxlLinkTrained, execLinkLoss, execConfigRequest, execBar2Read,
      execBar2Write, execGlobalPersistentFlush, execClearEventRecords, execSetEventInterruptPolicy, execSetTimestamp,
      execTableAccess, execComplianceRequest, execLightDetected, execPortTrainingDone, execPortTrainingTimeout,
      execPortTrainingRetry, execCodewordReceived, execLaneRetrainDone, execRetryTimeout, execE2eAckTimer,
      execFlowTimeout, execHeldFrameTimeout, execMcWriteHoldTimeout, execMcStall, execHnxStall, execPortRetrain,
      execProfileChange, execHoneycombStartTimeout, execCombRetry, execLinePowerComparator, execBiasReevaluation,
      execIdentityFrame, execSearchRampVisit, execIdentityRoundDue, execIdentityRoundComplete, execRelockRampStep,
      execRelockTimeout, execInnerLoopVisit, execFeedforwardVisit, execMonitorConversion, execHeaterTick, execBankSwap,
      execTraceTrigger, execMonTestCont, execRampStep, execResidualPublish, execCalEpisodeStart, execEpisodeInterval,
      execEpisodeTimeout, execCalSaveRequest, execCalSaveComplete, execJournalPageProgram, execCompactionStart,
      execJnlCompact, execCompactionSwitch, execHalfEraseDone, execFlashTempRead, execPowerRequest,
      execPowerTransitionComplete, execPowerRequestRetry, execProofSlice, execIdleStateWrite, execPowerLimitSet,
      execPowerLimitStep, execTelemetrySample, execReferenceLost, execRefMeasure, execPllLossOfLock, execPllRelockTimeout,
      execAvsVoltageWrite, execAvsWriteRetry, execTokenDebug, execOwnerEnrol, execOwnerRelease, execNewNonce,
      execTokenEnd, execTokenExpiry, execNonceExpiry, execNonceRead, execFenceClear, execMctpControl, execReadRegisterCmd,
      execWriteRegisterCmd, execLarderFlush, execEvtAlertClear, execDevStatusChgClear, execDevStatusMaskWrite,
      execMsixUnmask, execRegisterWrite, execPllRelocked, execCxlLinkRecovery, execCxlFlitError]
    repeat' split
  all_goals exact ends_next _

/-- Settles O2: which of the three answers a command has is told by its operands alone. -/
theorem everyCommandEnds : Obligations.EveryCommandEnds := by
  refine ⟨fun c s hwf hsize => ?_, fun c s hwf => exec_of_not_wf s hwf,
    fun c h s hline hsize => exec_beyond_hostMem hline hsize⟩
  by_cases hhost : ∃ h, HostLine c h
  · obtain ⟨h, hline⟩ := hhost
    exact exec_ends_of_hostLine hline (hsize h hline)
  · exact exec_ends_of_no_hostLine s (not_exists.mp hhost) hwf

end Sys2Proof.Machine
end

section
/-! PROOFS. Where two statements on memory that others use too fail: a TAKE that reserves its word wakes its context, whose
STATUS word is written (R141, R144, R219), and a signal that is applied makes room for one that waits in a receive buffer
(R225). -/

namespace Sys2Proof.Machine

/-! ## A TAKE that wakes its context -/

/-- The first tagged word of bay 0's pantry (R179, R198). -/
def taggedWord : Nat := 0x0080_0000_0000

/-- The TAKE of thread 0 that waits for it. -/
def waitingTake : FeOp := { bay := 0, addr := taggedWord, thread := 0, put := false, value := 0, since := 0 }

/-- Context 0 is WAITING on its one thread, whose TAKE waits for `taggedWord`; the word has become full, with value 7. -/
def takeOfFullWord : State :=
  { State.reset with
    boot := { State.reset.boot with on := true, stage := 5 }
    cfg := { Configuration.unset with portals := [oneEntryPortal], feWords := [1] }
    mem := [(taggedWord, 7)]
    feFull := [(taggedWord / 8, true)]
    feOps := [waitingTake]
    ctxs := [(0, { Ctx.reset with st := .waiting, nSteps := 2, map := [(0, 0)] })]
    bays := [(0, { Bay.reset with cache := [0] })]
    threads := [(0, { Thread.reset with
      st := .waiting, pc := 1
      wait := some { src := 0, sid := 0, target := 0, cons := false, timeout := 0, since := 0, hit := false, uid := 0 } })] }

theorem tagged_takeOfFullWord : takeOfFullWord.tagged taggedWord = true := by decide +kernel

/-- The thread is READY again, so that its context is RUNNING (R141), and STATUS shows the code of RUNNING. -/
theorem takeReserve_takeOfFullWord : (nextState (exec (.takeReserve 0) takeOfFullWord)).map (·.byte statusByte) =
    some (BitVec.ofNat 8 CtxState.running.code) := by decide +kernel

/-- Refutes O34 in its clause on a TAKE that reserves its word, which keeps device memory in every state: in
`takeOfFullWord` the context leaves WAITING with its thread, and the STATUS word of its portal entry is written. -/
theorem not_taggedWordsAndCompletion : ¬ Obligations.TaggedWordsAndCompletion := by
  unfold Obligations.TaggedWordsAndCompletion
  rintro ⟨-, -, htake, -⟩
  obtain ⟨t, ht, -, -, -, -, -, -, -, hmem⟩ := (htake 0 waitingTake takeOfFullWord rfl (by decide) (by decide) (by decide)
    (by decide) rfl rfl (by decide)).nextState
  have hwritten : t.byte statusByte = BitVec.ofNat 8 CtxState.running.code := nextState_view ht takeReserve_takeOfFullWord
  rw [State.byte_congr hmem] at hwritten
  exact absurd hwritten (by decide)

/-! ## A held signal that makes room for a parked one -/

/-- A SIGNAL of 1 from device 1 on a flow of it, to offset 0 of window 0, of class 1 and with `q` for its FSEQ (R261, R262). -/
def remoteSignal (flow q : Nat) : Frame :=
  { hdr := BitVec.ofNat 256 (7 + 1 * 2 ^ 4 + 4 * 2 ^ 9 + 1 * 2 ^ 88 + flow * 2 ^ 118 + q * 2 ^ 130)
    payload := [1, 0, 0, 0, 0, 0, 0, 0], crc := 0 }

/-- Window 0, which device 1 may write: the first 4 KiB above 16 MiB (R190). -/
def openWindow : FabWindow :=
  { declared := true, base := 16 * mib, size := 4096, canRead := true, canWrite := true, canCas := false, partition := [1] }

/-- The device holds as many remote signals as it may (R225), those of flow 0 of device 1, which has not opened; one more, of
flow 1, waits in the receive buffer of port 0. -/
def signalsAtLimit : State :=
  { State.reset with
    boot := { State.reset.boot with on := true, stage := 5 }
    cfg := { Configuration.unset with partition := [1], windows := [openWindow] }
    hnx := { Hnx.reset with unopened := List.replicate 4096 (remoteSignal 0 0), parked := [(0, remoteSignal 1 0)] } }

theorem heldSignals_signalsAtLimit : signalsAtLimit.heldSignals = 4096 := by decide +kernel

/-- One held signal is delivered with LOST, and the waiting one leaves its receive buffer. -/
theorem heldSignalTimeout_signalsAtLimit :
    (nextState (exec (.heldSignalTimeout 1 0) signalsAtLimit)).map (·.hnx.parked) = some [] := by decide +kernel

/-- Refutes O49 in its clause on HELD_SIGNAL_TIMEOUT, by which nothing but the signal delivered leaves the fabric's state: in
`signalsAtLimit` the place it leaves goes to the signal that waited in a receive buffer (R225). -/
theorem not_remoteAccess : ¬ Obligations.RemoteAccess := by
  unfold Obligations.RemoteAccess
  rintro ⟨-, -, -, -, -, -, htimeout, -⟩
  obtain ⟨t, ht, hfabric, -⟩ := (htimeout 1 0 (remoteSignal 0 0) (16 * mib) signalsAtLimit rfl (by decide +kernel)
    (by decide +kernel) rfl rfl (by decide)).nextState
  have hparked : t.hnx.parked = [] := nextState_view ht heldSignalTimeout_signalsAtLimit
  rw [hfabric] at hparked
  exact absurd hparked (List.cons_ne_nil _ _)

end Sys2Proof.Machine
end

section
/-! PROOFS. Signal words (R201 to R203): what an addition and a consume leave of the word and of the rest of the state. -/

namespace Sys2Proof.Machine

/-! ## Flags and COUNT of a word (R201) -/

/-- The word with flags `f`, from SAT in its bit 2 to LOST in its bit 0, and COUNT `c`. -/
def signalWord (f c : Nat) : Nat := f * 2 ^ 61 + c

/-- Every word is that of its flags and its COUNT. -/
theorem signalWord_parts (w : Nat) : signalWord (w / 2 ^ 61) (countOf w) = w := Nat.div_add_mod' w (2 ^ 61)

section
variable {f c : Nat} (hc : c < 2 ^ 61)
include hc

theorem countOf_signalWord : countOf (signalWord f c) = c := by
  unfold countOf signalWord
  omega

theorem bitOf_signalWord (k : Nat) : bitOf (signalWord f c) (61 + k) = bitOf f k := by
  have hflags : signalWord f c / 2 ^ 61 = f := by
    unfold signalWord
    omega
  rw [bitOf, bitOf, Nat.pow_add, ← Nat.div_div_eq_div_mul, hflags]

theorem signalWord_lt (hf : f < 8) : signalWord f c < 256 ^ 8 := by
  unfold signalWord
  omega

end

theorem bitOf_flags (w k : Nat) : bitOf w (61 + k) = bitOf (w / 2 ^ 61) k := by
  rw [bitOf, bitOf, Nat.pow_add, ← Nat.div_div_eq_div_mul]

theorem State.flags_lt (s : State) (a : Nat) : s.readNat a 8 / 2 ^ 61 < 8 := by
  have hword := s.readNat_lt a 8
  omega

theorem countOf_lt (w : Nat) : countOf w < 2 ^ 61 := Nat.mod_lt _ (by decide)

/-- Flags `f` with SAT set. -/
def withSat (f : Nat) : Nat := f % 4 + 4

/-- Flags `f` with UND set. -/
def withUnd (f : Nat) : Nat := f % 2 + f / 4 * 4 + 2

theorem withSat_flags : ∀ f < 8, withSat f < 8 ∧ bitOf (withSat f) 2 = true ∧ bitOf (withSat f) 1 = bitOf f 1 ∧
    bitOf (withSat f) 0 = bitOf f 0 := by decide

theorem withUnd_flags : ∀ f < 8, withUnd f < 8 ∧ bitOf (withUnd f) 2 = bitOf f 2 ∧ bitOf (withUnd f) 1 = true ∧
    bitOf (withUnd f) 0 = bitOf f 0 := by decide

/-! ## What a write of the word leaves -/

/-- From `s` to `t` the word at `a` has got flags `f` and COUNT `c`; no other byte of memory has changed. -/
structure SetsWord (a f c : Nat) (s t : State) : Prop where
  count : countOf (t.readNat a 8) = c
  flag : ∀ k, bitOf (t.readNat a 8) (61 + k) = bitOf f k
  byte : ∀ x, (x < a ∨ a + 8 ≤ x) → t.byte x = s.byte x
  hostMem : t.hostMem = s.hostMem

/-- What a log entry and its counter add to a write changes no memory. -/
theorem SetsWord.logged {a f c : Nat} {s t : State} (h : SetsWord a f c s t) (g : Fld) (i : Nat) (ev : Ev) (uk : UnitKind)
    (u x : Nat) (ps : List Nat) : SetsWord a f c s ((t.bump g i).event ev uk u x ps) where
  count := by simpa using h.count
  flag := by simpa using h.flag
  byte y hy := (State.byte_congr (by simp) y).trans (h.byte y hy)
  hostMem := by simpa using h.hostMem

section
variable {a : Nat} {s : State} (hsnoop : s.cxl.snoop = [])
include hsnoop

theorem State.writeWord_wrote (v : Nat) : Wrote a (leBytes 8 v) s (s.writeWord false a v) :=
  State.devWrite_wrote hsnoop a (leBytes 8 v)

theorem State.writeWord_evHead (v : Nat) : (s.writeWord false a v).evHead = s.evHead := by
  rw [State.writeWord_wrote hsnoop v]

theorem State.writeWord_setsWord {f c : Nat} (hf : f < 8) (hc : c < 2 ^ 61) :
    SetsWord a f c s (s.writeWord false a (signalWord f c)) := by
  have hwrote : Wrote a (leBytes 8 (signalWord f c)) s _ := State.writeWord_wrote hsnoop _
  have hread : (s.writeWord false a (signalWord f c)).readNat a 8 = signalWord f c := hwrote.readNat (signalWord_lt hc hf)
  exact {
    count := by rw [hread, countOf_signalWord hc]
    flag := fun k => by rw [hread, bitOf_signalWord hc]
    byte := fun x hx => hwrote.byte x (by rwa [length_leBytes])
    hostMem := hwrote.hostMem }

theorem State.hostHolds_of_no_snoop (line : Nat) : s.hostHolds line = false := by simp [State.hostHolds, hsnoop]

/-! ## The operations, case by case -/

variable (hsound : s.readsBad a 8 = false)
include hsound

/-- An addition that COUNT has room for. -/
theorem State.signalAdd_fits {n : Nat} (bay : Nat) (hn : countOf (s.readNat a 8) + n < 2 ^ 61) :
    s.signalAdd false a n bay =
      some (s.writeWord false a (signalWord (s.readNat a 8 / 2 ^ 61) (countOf (s.readNat a 8) + n))) := by
  simp only [State.signalAdd, hsound, State.hostHolds_of_no_snoop hsnoop, State.word, Bool.not_false, Bool.and_false,
    Bool.false_eq_true, if_false, if_neg (Nat.not_le.mpr hn), signalWord]

/-- An addition beyond the largest COUNT (R202). -/
theorem State.signalAdd_saturates {n : Nat} (bay : Nat) (hn : 2 ^ 61 ≤ countOf (s.readNat a 8) + n) :
    s.signalAdd false a n bay =
      some (((s.writeWord false a (signalWord (withSat (s.readNat a 8 / 2 ^ 61)) (2 ^ 61 - 1))).bump .wchEventCntSat bay).event
        .wchSat .bay bay noCtx []) := by
  have hword : s.readNat a 8 / 2 ^ 61 * 2 ^ 61 % 2 ^ 63 + 2 ^ 63 + (2 ^ 61 - 1) =
      signalWord (withSat (s.readNat a 8 / 2 ^ 61)) (2 ^ 61 - 1) := by
    unfold signalWord withSat
    omega
  simp only [State.signalAdd, hsound, State.hostHolds_of_no_snoop hsnoop, State.word, Bool.not_false, Bool.and_false,
    Bool.false_eq_true, if_false, if_pos hn, hword]

variable {c : Nat} (hpos : 0 < c)
include hpos

/-- A consume of no more than COUNT. -/
theorem State.consumeWord_takes (bay x sid : Nat) (hc : c ≤ countOf (s.readNat a 8)) :
    s.consumeWord false a c bay x sid =
      some (s.writeWord false a (signalWord (s.readNat a 8 / 2 ^ 61) (countOf (s.readNat a 8) - c))) := by
  have hword : s.readNat a 8 - c = signalWord (s.readNat a 8 / 2 ^ 61) (countOf (s.readNat a 8) - c) := by
    have hparts := signalWord_parts (s.readNat a 8)
    unfold signalWord at *
    omega
  simp only [State.consumeWord, hsound, State.hostHolds_of_no_snoop hsnoop, State.word, hpos.ne', Bool.not_false,
    Bool.and_false, Bool.false_eq_true, if_false, if_pos hc, hword]

/-- A consume of more than COUNT (R203). -/
theorem State.consumeWord_underflows (bay x sid : Nat) (hc : countOf (s.readNat a 8) < c) :
    s.consumeWord false a c bay x sid =
      some (((s.writeWord false a (signalWord (withUnd (s.readNat a 8 / 2 ^ 61)) 0)).bump .wchEventCntUnd bay).event
        .wchUnderflow .bay bay x [sid, c]) := by
  have hword : (s.readNat a 8 / 2 ^ 61 % 2 + s.readNat a 8 / 2 ^ 63 * 4 + 2) * 2 ^ 61 =
      signalWord (withUnd (s.readNat a 8 / 2 ^ 61)) 0 := by
    unfold signalWord withUnd
    omega
  simp only [State.consumeWord, hsound, State.hostHolds_of_no_snoop hsnoop, State.word, hpos.ne', Bool.not_false,
    Bool.and_false, Bool.false_eq_true, if_false, if_neg (Nat.not_le.mpr hc), hword]

end

/-! ## Both operations on a poisoned word -/

theorem State.signalAdd_poisoned {a : Nat} {s : State} (hbad : s.readsBad a 8 = true) (n bay : Nat) :
    s.signalAdd false a n bay = none := by simp [State.signalAdd, hbad]

theorem State.consumeWord_poisoned {a c : Nat} {s : State} (hbad : s.readsBad a 8 = true) (hpos : 0 < c) (bay x sid : Nat) :
    s.consumeWord false a c bay x sid = none := by simp [State.consumeWord, hbad, hpos.ne']

/-- Settles O7: whether COUNT has room for the addition, or enough for the consume, decides which word is written and whether
an event is logged after it. -/
theorem signalWords : Obligations.SignalWords := by
  refine ⟨fun a n bay s hsnoop hsound => ?signal, fun a n bay s hbad => State.signalAdd_poisoned hbad n bay,
    fun a c bay x sid s hsnoop hsound hpos => ?consume,
    fun a c bay x sid s hbad hpos => State.consumeWord_poisoned hbad hpos bay x sid, fun _ _ _ _ _ _ => rfl⟩
  case signal =>
    have hf := s.flags_lt a
    rw [bitOf_flags _ 2, bitOf_flags _ 1, bitOf_flags _ 0]
    by_cases hn : countOf (s.readNat a 8) + n < 2 ^ 61
    · have hsets := State.writeWord_setsWord (a := a) hsnoop hf hn
      refine ⟨_, State.signalAdd_fits hsnoop hsound bay hn, ?_, ?_, hsets.flag 1, hsets.flag 0, hsets.byte, hsets.hostMem,
        ?_, fun hsat => by omega⟩
      · rw [hsets.count]
        omega
      · rw [hsets.flag 2, decide_eq_false (by omega), Bool.or_false]
      · rw [State.writeWord_evHead hsnoop, if_neg (by omega)]
    · have hsat : 2 ^ 61 ≤ countOf (s.readNat a 8) + n := Nat.not_lt.mp hn
      obtain ⟨hf', h2, h1, h0⟩ := withSat_flags _ hf
      have hsets := (State.writeWord_setsWord (a := a) hsnoop hf' (c := 2 ^ 61 - 1) (by decide)).logged .wchEventCntSat bay
        .wchSat .bay bay noCtx []
      refine ⟨_, State.signalAdd_saturates hsnoop hsound bay hsat, ?_, ?_, (hsets.flag 1).trans h1, (hsets.flag 0).trans h0,
        hsets.byte, hsets.hostMem, ?_, fun _ => State.event_newest ..⟩
      · rw [hsets.count]
        omega
      · rw [hsets.flag 2, h2, decide_eq_true (by omega), Bool.or_true]
      · rw [State.event_evHead, State.bump_evHead, State.writeWord_evHead hsnoop, if_pos (by omega)]
  case consume =>
    have hf := s.flags_lt a
    rw [bitOf_flags _ 2, bitOf_flags _ 1, bitOf_flags _ 0]
    by_cases hc : c ≤ countOf (s.readNat a 8)
    · have hsets := State.writeWord_setsWord (a := a) hsnoop hf (c := countOf (s.readNat a 8) - c)
        (lt_of_le_of_lt (Nat.sub_le _ _) (countOf_lt _))
      refine ⟨_, State.consumeWord_takes hsnoop hsound hpos bay x sid hc, ?_, hsets.flag 2, hsets.flag 0, ?_, hsets.byte,
        hsets.hostMem, ?_, fun hund => absurd hc (Nat.not_le.mpr hund)⟩
      · rw [hsets.count, if_pos hc]
      · rw [hsets.flag 1, decide_eq_false (Nat.not_lt.mpr hc), Bool.or_false]
      · rw [State.writeWord_evHead hsnoop, if_neg (Nat.not_lt.mpr hc)]
    · have hund : countOf (s.readNat a 8) < c := Nat.not_le.mp hc
      obtain ⟨hf', h2, h1, h0⟩ := withUnd_flags _ hf
      have hsets := (State.writeWord_setsWord (a := a) hsnoop hf' (c := 0) (by decide)).logged .wchEventCntUnd bay
        .wchUnderflow .bay bay x [sid, c]
      refine ⟨_, State.consumeWord_underflows hsnoop hsound hpos bay x sid hund, ?_, (hsets.flag 2).trans h2,
        (hsets.flag 0).trans h0, ?_, hsets.byte, hsets.hostMem, ?_, fun _ => ?_⟩
      · rw [hsets.count, if_neg hc]
      · rw [hsets.flag 1, h1, decide_eq_true hund, Bool.or_true]
      · rw [State.event_evHead, State.bump_evHead, State.writeWord_evHead hsnoop, if_pos hund]
      · rw [State.event_log]
        rfl

end Sys2Proof.Machine
end

section
/-! PROOFS. Watched and polled words (R211 to R213, R217): what an evaluation of waits can change and when it latches one; and a
remote signal held too long (R224). -/

namespace Sys2Proof.Machine

/-! ## What an evaluation changes -/

/-- From `s` to `t` waits may have been latched, and nothing else has changed. -/
def Evaluated (s t : State) : Prop := t = { s with threads := t.threads }

theorem Evaluated.refl (s : State) : Evaluated s s := rfl

theorem Evaluated.trans {s t u : State} (h : Evaluated s t) (g : Evaluated t u) : Evaluated s u := by
  unfold Evaluated at *
  rw [g, h]

theorem Evaluated.forEach {α : Type} {f : State → α → State} (hf : ∀ s a, Evaluated s (f s a)) (l : List α) (s : State) :
    Evaluated s (forEach l f s) :=
  forEach_keeps (Evaluated s) l f (fun t a ht => ht.trans (hf t a)) s (.refl s)

/-- Evaluations after bytes were stored in host memory. -/
theorem Evaluated.of_hostStore {s t : State} {a : Nat} {d : List Byte} (h : Evaluated (s.hostStore a d) t) :
    t = { s with threads := t.threads, hostMem := t.hostMem } ∧ t.hostMem = memStore s.hostMem a d := by
  constructor
  · rw [h]
    rfl
  · rw [h]
    rfl

theorem State.evalWaiters_evaluated (s : State) (polled : Bool) (bays : List Nat) (host : Bool) (a : Nat) :
    Evaluated s (s.evalWaiters polled bays host a) := by
  unfold State.evalWaiters
  dsimp only
  split
  · exact .refl s
  · exact rfl

/-! ## When a wait is latched -/

/-- The wait of the one thread that waits is latched where the value of its word satisfies it. -/
theorem State.evalWaiters_latches {s : State} {t a : Nat} {w : Waiting} {polled host : Bool} {bays : List Nat}
    (hthreads : s.threads = [(t, s.thread t)]) (hwait : (s.thread t).wait = some w) (hsrc : w.src = 0)
    (hbay : t / 128 ∈ bays) (hword : waitWord s (s.thread t) w = some (host, a))
    (hpolled : waitPolled s (s.thread t) w (t / 128) = polled) (hsound : host = false → s.readsBad a 8 = false)
    (hholds : waitHolds (s.thread t) w (s.waitedCount host a) = true) :
    ((s.evalWaiters polled bays host a).thread t).wait = some { w with hit := true } := by
  have hread : (!host && s.readsBad a 8) = false := by
    cases host with
    | false => simp [hsound rfl]
    | true => rfl
  have hlatched : (s.evalWaiters polled bays host a).threads = [(t, { s.thread t with wait := some { w with hit := true } })] := by
    unfold State.evalWaiters
    simp only [hread, Bool.false_eq_true, if_false]
    generalize s.thread t = th at *
    rw [hthreads]
    simp [hwait, hsrc, hbay, hword, hpolled, hholds]
  simp [State.thread, hlatched, tget]

theorem bay_mem_allBays (t : Fin 512) : t.val / 128 ∈ allBays := by
  simp only [allBays, List.mem_cons, List.not_mem_nil, or_false]
  omega

/-- The one word a bay polls where one thread waits, by a POLLED mapping (R211). -/
theorem State.polledWords_of_one {s : State} {t a b : Nat} {w : Waiting} (hthreads : s.threads = [(t, s.thread t)])
    (hbay : t / 128 = b) (hwait : (s.thread t).wait = some w) (hword : waitWord s (s.thread t) w = some (false, a))
    (hpolled : waitPolled s (s.thread t) w b = true) : s.polledWords b = [(false, a)] := by
  unfold State.polledWords
  generalize s.thread t = th at *
  rw [hthreads]
  simp [hbay, hwait, hword, hpolled, List.eraseDups_cons]

/-! ## A remote signal held too long -/

/-- The state once the held signal `f` has been taken. -/
def State.takenUnopened (s : State) (f : Frame) : State :=
  { s with hnx := { s.hnx with unopened := s.hnx.unopened.erase f } }

/-- A word that shows LOST already is not written (R224). -/
theorem State.deliverLost_again {s : State} {a : Nat} (hlost : bitOf (s.readNat a 8) 61 = true) (src flow : Nat) :
    s.deliverLost a src flow = (s.bump .wchHoldCntLostRx).event .wchLost .device 0 noCtx [src, flow] := by
  simp [State.deliverLost, State.word, hlost]

/-- A signal to a sound word in an open window is delivered there with LOST. -/
theorem State.applySignal_lost {s : State} {f : Frame} {a : Nat}
    (hwindow : s.windowAddr (fSrc f) (fWindow f) (fOff f) 8 .write = some a) (hsound : s.readsBad a 8 = false) :
    s.applySignal f true .clean = s.deliverLost a (fSrc f) (fFlow f) := by
  simp [State.applySignal, hwindow, hsound, State.checkAt]

/-- With nothing in a receive buffer there is nothing to take (R225). -/
theorem State.takeParked_of_none {s : State} (hparked : s.hnx.parked = []) : s.takeParked = s := by
  simp [State.takeParked, hparked, State.unpark]

/-- HELD_SIGNAL_TIMEOUT on a flow that has not opened takes the first signal held for it. -/
theorem exec_heldSignalTimeout_unopened {src : BitVec 15} {flow : BitVec 12} {f : Frame} {s : State}
    (hclosed : s.dstFlow src.toNat flow.toNat = none)
    (hfirst : s.hnx.unopened.find? (fun f => fType f == 7 && fSrc f == src.toNat && fFlow f == flow.toNat) = some f) :
    exec (.heldSignalTimeout src flow) s = .next ((s.takenUnopened f).applySignal f true .clean).takeParked := by
  change execHeldSignalTimeout src flow s = _
  simp only [execHeldSignalTimeout, hclosed, hfirst]
  rfl

theorem exec_heldSignalTimeout_none_held {src : BitVec 15} {flow : BitVec 12} {s : State}
    (hclosed : s.dstFlow src.toNat flow.toNat = none) (hnone : s.hnx.unopened = []) :
    exec (.heldSignalTimeout src flow) s = .next s := by
  change execHeldSignalTimeout src flow s = _
  simp only [execHeldSignalTimeout, hclosed, hnone, List.find?_nil]

/-- Settles O38: each of the commands is evaluations of waits, which change no more than threads and latch the wait that its
word satisfies; HELD_SIGNAL_TIMEOUT is one delivery with LOST. -/
theorem watchedWords : Obligations.WatchedWords := by
  refine ⟨fun a s => ⟨_, rfl, s.evalWaiters_evaluated ..⟩,
    fun t a w s hthreads hwait hsrc hword hpolled hsound hholds => ⟨_, rfl, ?written⟩,
    fun b s => ⟨_, rfl, ?poll⟩, fun l d s hlength => ⟨_, rfl, ?invalidated⟩,
    fun src flow f a s hclosed hfirst hwindow hsound hlost hparked => ?late,
    fun src flow s hclosed hnone => exec_heldSignalTimeout_none_held hclosed hnone,
    fun b t a w s hphase hthreads hbay hwait hsrc hword hpolled hsound hholds => ⟨_, rfl, ?polled⟩⟩
  case written =>
    exact State.evalWaiters_latches hthreads hwait hsrc (bay_mem_allBays t) hword hpolled (fun _ => hsound) hholds
  case poll =>
    change Evaluated s _
    split
    · exact .forEach (fun s p => s.evalWaiters_evaluated ..) _ s
    · exact .refl s
  case invalidated =>
    have hwhole : d.take 64 = d := List.take_of_length_le hlength.le
    have hevals : Evaluated (s.hostStore (l.toNat * 64) (d.take 64)) _ :=
      .forEach (fun s i => s.evalWaiters_evaluated false allBays true (l.toNat * 64 + 8 * i)) (upTo 8) _
    obtain ⟨hrest, hmem⟩ := hevals.of_hostStore
    refine ⟨hrest, ?_, fun a ha => ?_⟩
    · rw [State.hostBytes, hmem, hwhole, ← hlength]
      exact memBytes_memStore ..
    · rw [State.hostByte, hmem, hwhole]
      exact tget_memStore_out _ _ _ _ (by rwa [hlength])
  case late =>
    have hdeliver : (s.takenUnopened f).applySignal f true .clean =
        ((s.takenUnopened f).bump .wchHoldCntLostRx).event .wchLost .device 0 noCtx [fSrc f, fFlow f] := by
      rw [State.applySignal_lost (s := s.takenUnopened f) hwindow hsound,
        State.deliverLost_again (s := s.takenUnopened f) hlost]
    refine ⟨_, exec_heldSignalTimeout_unopened hclosed hfirst, ?_⟩
    rw [hdeliver, State.takeParked_of_none (by simpa [State.takenUnopened] using hparked)]
    refine ⟨by simp [State.takenUnopened], by simp [State.takenUnopened], ?_, ?_⟩
    · rw [State.fld_event (Fld.key_event (by decide)), State.fld_bump_same _ _ _ _ (by decide)]
      rfl
    · rw [State.event_log]
      rfl
  case polled =>
    have hwords : s.polledWords b = [(false, a)] := State.polledWords_of_one hthreads hbay hwait hword hpolled
    rw [hphase, if_pos rfl, hwords]
    exact State.evalWaiters_latches hthreads hwait hsrc (by simp [hbay]) hword (hbay ▸ hpolled) (fun _ => hsound) hholds

end Sys2Proof.Machine
end

section
/-! PROOFS. Where the statement on the answers to flows fails: the flow's timeout finds a request whose answer is not complete
older than the write that is not acknowledged (R276). -/

namespace Sys2Proof.Machine

/-- A frame that step 5 of thread 0, of context 0, has sent as number `q` of its flow. -/
def sentAs (q : BitVec 32) (answers : Bool) : Sent :=
  { fseq := q, thread := 0, idx := 0, ctx := 0, pc := 0, uid := 5, answers := answers, got := 0, len := 8, dst := 0, src := 0,
    data := [], window := 0, off := 0, tag := 0 }

/-- Flow 5 toward device 1: its READ_REQ, numbered 0, is acknowledged and not yet answered, its WRITE, numbered 1, is not
acknowledged. -/
def unansweredFlow : SrcFlow :=
  { dst := 1, flow := 5, mc := none, n := 2, u := 1, opened := 0, sync := false, unacked := [sentAs 1 false], lost := false,
    sigWait := [], used := 0, transfer := 0, backlog := [], waiting := [sentAs 0 true], members := [], repairs := [] }

/-- The running device that has sent both. -/
def requestOlder : State :=
  { State.reset with
    boot := { State.reset.boot with on := true, stage := 5 }
    cfg := { Configuration.unset with device := 2 }
    ctxs := [(0, { Ctx.reset with st := .running, nSteps := 2, map := [(0, 0)] })]
    threads := [(0, { Thread.reset with st := .ready, pc := 1 })]
    hnx := { Hnx.reset with src := [unansweredFlow] } }

/-- The timeout is the request's: its step faults with MEMORY (0x40), and no frame is lost. -/
theorem flowTimeout_requestOlder : (nextState (exec (.flowTimeout 1 5) requestOlder)).map
    (fun t => (t.fld .hnxFlowCntLostTx, (t.ctx 0).fault)) = some (0, 0x40) := by decide +kernel

/-- Refutes O50 in its clause on FLOW_TIMEOUT, by which the oldest frame without an acknowledgement is lost and counted
whatever else its flow waits for: in `requestOlder` a request without its answer is older, so that FLOW_TIMEOUT faults the
request's step (R276) and counts nothing. -/
theorem not_flowAnswers : ¬ Obligations.FlowAnswers := by
  unfold Obligations.FlowAnswers
  rintro ⟨-, -, -, htimeout, -⟩
  obtain ⟨t, ht, hcounted, -⟩ := (htimeout 1 5 unansweredFlow (sentAs 1 false) [] requestOlder (by decide +kernel)
    (by decide +kernel) rfl rfl rfl rfl).nextState
  have hseen : (t.fld .hnxFlowCntLostTx, (t.ctx 0).fault) = (0, 0x40) := nextState_view ht flowTimeout_requestOlder
  obtain ⟨hnone, -⟩ := Prod.mk.inj hseen
  rw [hnone] at hcounted
  exact absurd hcounted (by decide)

end Sys2Proof.Machine
end

section
/-! PROOFS. The package power limit and the burst allowance (R230, R374 to R376): the averaged power against L, what one
evaluation grants the bays, and which part of the power record each of the commands writes. -/

namespace Sys2Proof.Machine

/-! ## The averaged power against L -/

theorem State.overLimit_iff (s : State) :
    s.overLimit = true ↔ s.power.limit * s.power.samples.length < s.power.samples.sum := by
  simp [State.overLimit, List.sum_eq_foldl]

theorem State.wellUnder_iff (s : State) : s.wellUnder = true ↔
    s.power.samples.sum + 25 * s.power.samples.length ≤ s.power.limit * s.power.samples.length := by
  simp [State.wellUnder, List.sum_eq_foldl]

/-! ## The allowance (R230) -/

/-- The allowance that an evaluation grants. -/
def State.nextAllowance (s : State) : Nat :=
  if s.overLimit then max 8 (s.fld .seqGovAllow 0 - 4)
  else if s.wellUnder then min 64 (s.fld .seqGovAllow 0 + 1)
  else s.fld .seqGovAllow 0

theorem State.nextAllowance_of_over {s : State}
    (hover : s.power.limit * s.power.samples.length < s.power.samples.sum) :
    s.nextAllowance = max 8 (s.fld .seqGovAllow 0 - 4) :=
  if_pos (s.overLimit_iff.mpr hover)

theorem State.nextAllowance_of_under {s : State}
    (hunder : s.power.samples.sum + 25 * s.power.samples.length ≤ s.power.limit * s.power.samples.length) :
    s.nextAllowance = min 64 (s.fld .seqGovAllow 0 + 1) := by
  have hover : ¬ s.overLimit = true := by rw [s.overLimit_iff]; omega
  rw [State.nextAllowance, if_neg hover, if_pos (s.wellUnder_iff.mpr hunder)]

theorem State.nextAllowance_of_near {s : State}
    (hnotOver : s.power.samples.sum ≤ s.power.limit * s.power.samples.length)
    (hnotUnder : s.power.limit * s.power.samples.length < s.power.samples.sum + 25 * s.power.samples.length) :
    s.nextAllowance = s.fld .seqGovAllow 0 := by
  have hover : ¬ s.overLimit = true := by rw [s.overLimit_iff]; omega
  have hunder : ¬ s.wellUnder = true := by rw [s.wellUnder_iff]; omega
  rw [State.nextAllowance, if_neg hover, if_neg hunder]

theorem State.nextAllowance_le {s : State} (hmax : s.fld .seqGovAllow 0 ≤ 64) : s.nextAllowance ≤ 64 := by
  unfold State.nextAllowance
  split
  · omega
  · split <;> omega

/-- Bay `b` is granted the allowance `a`, and notes it where it is the smallest yet. -/
def State.grantAllowance (a : Nat) (s : State) (b : Nat) : State :=
  (s.setFld .seqGovAllow b a).setFld .seqGovMinAllow b (min a (s.fld .seqGovMinAllow b))

theorem State.fld_grantAllowance_same {a b : Nat} (s : State) (ha : a ≤ 64) (hb : b < 4096) :
    (s.grantAllowance a b).fld .seqGovAllow b = a := by
  rw [State.grantAllowance, State.fld_setFld_ne _ _ _ _ _ _ (Fld.key_ne (by decide)),
    State.fld_setFld_same _ _ _ _ (by decide)]
  exact Nat.mod_eq_of_lt (by simp only [Fld.seqGovAllow]; omega)

theorem State.fld_grantAllowance_ne {a b c : Nat} (s : State) (hb : b < 4096) (hc : c < 4096) (hne : b ≠ c) :
    (s.grantAllowance a c).fld .seqGovAllow b = s.fld .seqGovAllow b := by
  have hkey : Fld.seqGovAllow.key b 0 ≠ Fld.seqGovAllow.key c 0 := by
    unfold Fld.key
    omega
  rw [State.grantAllowance, State.fld_setFld_ne _ _ _ _ _ _ (Fld.key_ne (by decide)),
    State.fld_setFld_ne _ _ _ _ _ _ hkey]

theorem forEach_upTo_succ (f : State → Nat → State) (n : Nat) (s : State) :
    forEach (upTo (n + 1)) f s = f (forEach (upTo n) f s) n := by
  simp [forEach, upTo, List.range_succ, List.foldl_append]

theorem State.forEach_grantAllowance_frame (a : Nat) (l : List Nat) (s : State) :
    ∃ F, forEach l (State.grantAllowance a) s = { s with flds := F } := by
  refine forEach_keeps (fun t => ∃ F, t = { s with flds := F }) l _ ?_ s ⟨_, rfl⟩
  rintro _ b ⟨F, rfl⟩
  exact ⟨_, rfl⟩

/-- Each of the first `n` bays has the allowance once all of them have been granted it. -/
theorem State.fld_forEach_grantAllowance {a n b : Nat} (s : State) (ha : a ≤ 64) (hn : n ≤ 4096) (hb : b < n) :
    (forEach (upTo n) (State.grantAllowance a) s).fld .seqGovAllow b = a := by
  induction n with
  | zero => omega
  | succ n ih =>
    rw [forEach_upTo_succ]
    by_cases hlast : b = n
    · subst hlast
      exact State.fld_grantAllowance_same _ ha hn
    · rw [State.fld_grantAllowance_ne _ (by omega) hn hlast, ih (by omega) (by omega)]

/-- The state in which an evaluation grants its allowance: it has noted since when that is 8. -/
def State.eightNoted (s : State) : State :=
  { s with power := { s.power with eightAt := since s.time (s.nextAllowance == 8) s.power.eightAt } }

theorem exec_allowanceEval {s : State} (hon : s.boot.on = true) (hphase : s.onPhase 1000000 0 = true) :
    exec .allowanceEval s = .next (forEach (upTo 4) (State.grantAllowance s.nextAllowance) s.eightNoted) := by
  change execAllowanceEval s = _
  rw [execAllowanceEval]
  simp only [hon, hphase, Bool.not_true, Bool.or_self, Bool.false_eq_true, if_false]
  rfl

/-! ## Half clock (R376) -/

theorem exec_halfClockEnter {s : State} (hon : s.boot.on = true)
    (hheld : heldFor s.time 10000000 s.power.eightAt = true) (hover : s.overLimit = true) :
    exec .halfClockEnter s = .next { s with power := { s.power with half := true } } :=
  if_pos (by simp [hon, hheld, hover])

theorem exec_halfClockExit {s : State} (hheld : heldFor s.time 1000000 s.power.underAt = true)
    (hunder : s.wellUnder = true) :
    exec .halfClockExit s = .next { s with power := { s.power with half := false } } :=
  if_pos (by simp [hheld, hunder])

/-! ## Samples of the package power -/

/-- The power record once the sample `w` stands among the last 100, with their average. -/
def Power.sampled (p : Power) (w : Nat) : Power :=
  { p with
    samples := (w :: p.samples).take 100
    avg := ((w :: p.samples).take 100).sum / ((w :: p.samples).take 100).length }

/-- The state once that sample has been taken and it is noted since when the average is well under L. -/
def State.powerSampled (s : State) (w : Nat) : State :=
  { s with power := { s.power.sampled w with
      underAt := since s.time { s with power := s.power.sampled w }.wellUnder s.power.underAt } }

theorem exec_packagePowerSample {w : Nat} {s : State} (hon : s.boot.on = true) (hphase : s.onPhase 100000 0 = true) :
    exec (.packagePowerSample w) s = .next ((s.powerSampled w).raise .pwrPkgPeakW 0 (s.power.sampled w).avg) := by
  change execPackagePowerSample w s = _
  simp only [execPackagePowerSample, hon, hphase, Bool.not_true, Bool.or_self, Bool.false_eq_true, if_false,
    ← List.sum_eq_foldl]
  rfl

/-! ## Steps of L (R375) -/

theorem exec_powerLimitStep_of_throttling {s : State} (hon : s.boot.on = true) (hdue : s.power.stepDue ≤ s.time)
    (hhot : s.power.throttling = true) : exec .powerLimitStep s = .next s.throttleStep := by
  change execPowerLimitStep s = _
  simp [execPowerLimitStep, hon, hdue, hhot]

theorem exec_powerLimitStep_of_cool {s : State} (hon : s.boot.on = true) (hdue : s.power.stepDue ≤ s.time)
    (hhot : s.power.throttling = false) (hcool : s.power.cool = true) :
    exec .powerLimitStep s = .next s.climbStep := by
  change execPowerLimitStep s = _
  simp [execPowerLimitStep, hon, hdue, hhot, hcool]

/-- The next step of L is due `ns` from now. -/
def State.stepDueIn (s : State) (ns : Nat) : State := { s with power := { s.power with stepDue := s.time + ns } }

/-- Above 300 W there is a step down to take, and it is counted. -/
theorem State.throttleStep_of_above {s : State} (habove : 300 < s.power.limit) :
    s.throttleStep = ((s.stepDueIn 5000000).limitDown 1).bump .pwrEventCntStepsDown :=
  if_neg (Nat.not_le.mpr habove)

@[simp] theorem State.setLimit_power (s : State) (v : Nat) : (s.setLimit v).power = { s.power with limit := v } :=
  State.alertEdge_power ..

@[simp] theorem State.setLimit_lats (s : State) (v : Nat) : (s.setLimit v).lats = s.lats := State.alertEdge_lats ..

@[simp] theorem State.setLimit_mem (s : State) (v : Nat) : (s.setLimit v).mem = s.mem := State.alertEdge_mem ..

/-- A new L changes no field but the flag that says ALERT_N has been asserted (R383). -/
theorem State.fld_setLimit {s : State} {v : Nat} {g : Fld} {j : Nat} (h : g.key j 0 ≠ Fld.devStatusChgAlert.key 0 0) :
    (s.setLimit v).fld g j = s.fld g j :=
  State.fld_alertEdge h

/-! ## Telemetry (R14) -/

theorem exec_telemetrySample {s : State} (hon : s.boot.on = true) (hphase : s.onPhase 100000000 0 = true) :
    exec .telemetrySample s =
      .next { s with mgmt := { s.mgmt with telemetry := [s.power.avg, s.power.limit, s.fld .evtAvailUs] } } :=
  if_neg (by simp [State.powered, hon, hphase])

/-- Settles O26: an evaluation is one grant to each bay, by where the averaged power lies; every other command writes its
part of the power record, or the telemetry. -/
theorem powerManagement : Obligations.PowerManagement := by
  refine ⟨fun s hon hphase hmax => .of (exec_allowanceEval hon hphase) ⟨?grantFrame, fun b hb => ?granted⟩,
    fun s hon hheld hover => exec_halfClockEnter hon hheld (s.overLimit_iff.mpr hover),
    fun s hheld hunder => exec_halfClockExit hheld (s.wellUnder_iff.mpr hunder),
    fun w s hon hphase => .of (exec_packagePowerSample hon hphase)
      ⟨rfl, rfl, State.fld_setFld_same (s.powerSampled w) _ _ _ (by decide)⟩,
    fun s hon hdue hhot habove => .of (exec_powerLimitStep_of_throttling hon hdue hhot) ?down,
    fun s hon hdue hhot hcool => .of (exec_powerLimitStep_of_cool hon hdue hhot hcool) ?up,
    fun s hon hphase => exec_telemetrySample hon hphase⟩
  case grantFrame =>
    obtain ⟨F, hF⟩ := State.forEach_grantAllowance_frame s.nextAllowance (upTo 4) s.eightNoted
    rw [hF]
    rfl
  case granted =>
    rw [State.fld_forEach_grantAllowance _ (State.nextAllowance_le hmax) (by decide) hb]
    exact ⟨State.nextAllowance_of_over, State.nextAllowance_of_under, State.nextAllowance_of_near⟩
  case down =>
    have hcounted : (((s.stepDueIn 5000000).limitDown 1).bump .pwrEventCntStepsDown).fld .pwrEventCntStepsDown =
        min (s.fld .pwrEventCntStepsDown + 1) (2 ^ 32 - 1) := by
      rw [State.fld_bump_same _ _ _ _ (by decide), State.limitDown, State.fld_setLimit (Fld.key_ne (by decide))]
      rfl
    rw [State.throttleStep_of_above habove]
    exact ⟨State.setLimit_power .., hcounted, State.setLimit_lats .., State.setLimit_mem ..⟩
  case up =>
    exact ⟨State.setLimit_lats .., State.setLimit_mem .., State.setLimit_power ..⟩

end Sys2Proof.Machine
end

section
/-! PROOFS. Coherence of host-managed memory (R238 to R240): a line the host takes enters the snoop filter, a watched one is
recalled once, and the host's response writes back what it held. -/

namespace Sys2Proof.Machine

theorem lineOf_mul_64 (line : Nat) : lineOf (line * 64) = line := Nat.mul_div_cancel line (by decide)

/-! ## Lines the host takes -/

/-- A line nobody holds becomes the filter's youngest entry while one more does not fill it, and its bytes are answered. -/
theorem State.grantLine_fresh {s : State} {line : Nat} (exclusive : Bool) (hfree : s.hostHolds line = false)
    (hroom : s.cxl.snoop.length + 1 < snoopSize) (hsound : s.poisoned line = false) (hinject : s.injOn 3 = false) :
    s.grantLine line exclusive .clean =
      ({ s with cxl := { s.cxl with snoop := s.cxl.snoop ++ [{ line := line, exclusive := exclusive, recalled := false }] } }
        : State).answer (.data (s.bytes (line * 64) 64) false) := by
  have hnotFull : ¬ snoopSize ≤ s.cxl.snoop.length + 1 := by omega
  simp only [State.grantLine, hfree, Bool.false_eq_true, if_false, List.length_append, List.length_singleton, hnotFull]
  exact State.hostRead_sound (by rwa [lineOf_mul_64]) hinject

theorem exec_hostOwnershipRequest_fresh {h : BitVec 48} {s : State} (exclusive : Bool) (check : LineCheck)
    (hsize : h.toNat < s.hostMemSize) (hlink : s.linkUp = true) (hdb : s.hdmDb = true) (hactive : s.cxl.memActive = true)
    (hroom : s.cxl.snoop.length < snoopSize) : exec (.hostOwnershipRequest h exclusive check) s =
      .next (s.grantLine (lineOf (dpaOfHost h.toNat)) exclusive check) := by
  change execHostOwnershipRequest h exclusive check s = _
  simp [execHostOwnershipRequest, Nat.not_le.mpr hsize, hlink, hdb, hactive, hroom]

/-! ## Recalls (R239) -/

/-- The host holds the line exclusive and has not been asked for it back. -/
def State.heldExclusive (s : State) (line : Nat) : Bool :=
  s.cxl.snoop.any fun x => x.line == line && x.exclusive && !x.recalled

/-- A snoop filter's entry once its line is asked back. -/
def Snooped.askedFor (line : Nat) (x : Snooped) : Snooped := if x.line = line then { x with recalled := true } else x

/-- The state once the line is asked back. -/
def State.askBack (s : State) (line : Nat) : State :=
  ({ s with cxl := { s.cxl with snoop := s.cxl.snoop.map (Snooped.askedFor line) } }.sendInv line).bump .cxlHdmCntRecalls

theorem exec_recallTimer {h : BitVec 48} {s : State} (hsize : h.toNat < s.hostMemSize) :
    exec (.recallTimer h) s = .next (if s.linkUp && s.watchedLine (lineOf (dpaOfHost h.toNat)) &&
      s.heldExclusive (lineOf (dpaOfHost h.toNat)) then s.askBack (lineOf (dpaOfHost h.toNat)) else s) := by
  have hbound : ¬ s.hostMemSize ≤ h.toNat := Nat.not_le.mpr hsize
  change execRecallTimer h s = _
  rw [execRecallTimer, if_neg hbound]
  exact (apply_ite Host.Outcome.next _ _ _).symm

/-- A line that has been asked back is not asked for again. -/
theorem State.heldExclusive_askBack (s : State) (line : Nat) : (s.askBack line).heldExclusive line = false := by
  have hasked : ∀ x : Snooped, ((x.askedFor line).line == line && (x.askedFor line).exclusive &&
      !(x.askedFor line).recalled) = false := fun x => by
    by_cases hline : x.line = line <;> simp [Snooped.askedFor, hline]
  change (s.cxl.snoop.map (Snooped.askedFor line)).any _ = false
  rw [List.any_map, List.any_eq_false]
  exact fun x _ => by simpa using hasked x

theorem State.mem_waitInv_sendInv (s : State) (line : Nat) : line ∈ (s.sendInv line).cxl.waitInv := by
  change line ∈ if s.cxl.waitInv.contains line then s.cxl.waitInv else s.cxl.waitInv ++ [line]
  split
  case isTrue hsent => simpa using hsent
  case isFalse => simp

theorem State.recalls_askBack (s : State) (line : Nat) :
    (s.askBack line).fld .cxlHdmCntRecalls = min (s.fld .cxlHdmCntRecalls + 1) (2 ^ 32 - 1) :=
  State.fld_bump_same _ _ _ _ (by decide)

/-! ## The host's response -/

/-- The state once the host has let the line go. -/
def State.letGo (s : State) (line : Nat) : State :=
  { s with cxl := { s.cxl with
    snoop := s.cxl.snoop.filter fun x => x.line != line, waitInv := s.cxl.waitInv.filter (· != line) } }

/-- The data that comes with a response is written. -/
def State.writeBack (s : State) (line : Nat) : Option (List Byte) → State
  | some d => s.applyPart (line * 64) (d.take 64)
  | none => s

theorem Wrote.cxl {a : Nat} {d : List Byte} {s t : State} (h : Wrote a d s t) : t.cxl = s.cxl := by rw [h]

theorem State.writeBack_cxl (s : State) (line : Nat) (modified : Option (List Byte)) :
    (s.writeBack line modified).cxl = s.cxl := by
  cases modified with
  | none => rfl
  | some d => exact (s.applyPart_wrote _ _).cxl

theorem State.hostHolds_letGo (s : State) (line : Nat) : (s.letGo line).hostHolds line = false := by
  simp [State.letGo, State.hostHolds]

theorem State.releaseHeld_of_none {s : State} (hheld : s.cxl.held = []) (line : Nat) : s.releaseHeld line = s := by
  rw [State.releaseHeld, hheld]
  change ({ s with cxl := { s.cxl with held := [] } } : State) = s
  rw [← hheld]

theorem State.grantWaiting_nil (s : State) : s.grantWaiting [] = s := by rw [State.grantWaiting]

/-- With no device write held and no request waiting, a response is the host's data written back. -/
theorem exec_bisnpResponse {h : BitVec 48} {line : Nat} {s : State} (modified : Option (List Byte))
    (hsize : h.toNat < s.hostMemSize) (hline : lineOf (dpaOfHost h.toNat) = line)
    (hsent : s.cxl.waitInv.contains line = true) (hheld : s.cxl.held = []) (hgrants : s.cxl.grants = []) :
    exec (.bisnpResponse h modified) s = .next ((s.letGo line).writeBack line modified) := by
  have hbound : ¬ s.hostMemSize ≤ h.toNat := Nat.not_le.mpr hsize
  have hcxl := (s.letGo line).writeBack_cxl line modified
  have hrelease := State.releaseHeld_of_none ((congrArg Cxl.held hcxl).trans hheld) line
  have hgrant : ((s.letGo line).writeBack line modified).cxl.grants = [] := (congrArg Cxl.grants hcxl).trans hgrants
  have hrun : exec (.bisnpResponse h modified) s = .next
      ((((s.letGo line).writeBack line modified).releaseHeld line).grantWaiting
        (((s.letGo line).writeBack line modified).releaseHeld line).cxl.grants) := by
    change execBisnpResponse h modified s = _
    simp only [execBisnpResponse, hbound, hline, hsent, if_false, Bool.not_true, Bool.false_eq_true]
    cases modified <;> rfl
  rw [hrun, hrelease, hgrant, State.grantWaiting_nil]

/-- Settles O40: each command is one operation on the snoop filter; a recall leaves nothing to recall, and a response is a
write where it brings data. -/
theorem coherence : Obligations.Coherence := by
  refine ⟨fun h x s hsize hlink hdb hactive hfree hroom hsound hinject => ?take,
    fun h s hsize hlink hwatched hheld => ?askBack,
    fun h s hsize hsent hheld hgrants => exec_bisnpResponse none hsize rfl hsent hheld hgrants,
    fun h d s hsize hsent hheld hgrants hlength => ?back⟩
  case take =>
    rw [exec_hostOwnershipRequest_fresh x .clean hsize hlink hdb hactive (by omega),
      State.grantLine_fresh x hfree hroom hsound hinject]
    rfl
  case askBack =>
    have hdone : exec (.recallTimer h) s = .next (s.askBack (lineOf (dpaOfHost h.toNat))) := by
      rw [exec_recallTimer hsize, hlink, hwatched, show s.heldExclusive _ = true from hheld]
      rfl
    refine ⟨_, hdone, rfl, State.mem_waitInv_sendInv _ _, State.recalls_askBack _ _, ?_⟩
    rw [exec_recallTimer (s := s.askBack _) hsize, State.heldExclusive_askBack, Bool.and_false, if_neg Bool.false_ne_true]
  case back =>
    have hwrote := (s.letGo (lineOf (dpaOfHost h.toNat))).applyPart_wrote (lineOf (dpaOfHost h.toNat) * 64) d
    have hwhole : d.take 64 = d := List.take_of_length_le (by omega)
    refine .of (exec_bisnpResponse (some d) hsize rfl hsent hheld hgrants) ?_
    rw [State.writeBack, hwhole]
    exact ⟨hlength ▸ hwrote.bytes, by rw [State.hostHolds, hwrote.cxl]; exact s.hostHolds_letGo _⟩

end Sys2Proof.Machine
end

section
/-! PROOFS. The CXL link (R236, R248, R250, R251, R253): training and recovery, and what a loss of the link leaves of the port
once the event it logs has been reported. -/

namespace Sys2Proof.Machine

/-! ## What reporting leaves of the CXL port -/

/-- From `x` to `y` the port has reported at most: its event logs and the MSI-X vectors pending and sent may differ. -/
def Cxl.Reports (x y : Cxl) : Prop :=
  ∃ logs overflow pba sent, y = { x with logs := logs, overflow := overflow, pba := pba, sent := sent }

namespace Cxl.Reports

theorem refl (x : Cxl) : x.Reports x := ⟨_, _, _, _, rfl⟩

theorem trans {x y z : Cxl} (h : x.Reports y) (g : y.Reports z) : x.Reports z := by
  obtain ⟨_, _, _, _, rfl⟩ := h
  obtain ⟨_, _, _, _, rfl⟩ := g
  exact ⟨_, _, _, _, rfl⟩

theorem ite {c : Prop} [Decidable c] {x : Cxl} {s t : State} (hs : x.Reports s.cxl) (ht : x.Reports t.cxl) :
    x.Reports (if c then s else t).cxl := by split <;> assumption

end Cxl.Reports

namespace State

variable (s : State)

theorem signalVector_reports (v : Nat) : s.cxl.Reports (s.signalVector v).cxl :=
  .ite ⟨_, _, _, _, rfl⟩ ⟨_, _, _, _, rfl⟩

theorem cxlRecord_reports (k : Nat) (r : List Byte) : s.cxl.Reports (s.cxlRecord k r).cxl := by
  unfold State.cxlRecord
  extract_lets log port added
  have hadded : s.cxl.Reports added.cxl := ⟨_, _, _, _, rfl⟩
  exact .ite ⟨_, _, _, _, rfl⟩ (.ite (hadded.trans (added.signalVector_reports _)) hadded)

theorem markChg_reports (k : Nat) : s.cxl.Reports (s.markChg k).cxl := by
  unfold State.markChg
  extract_lets was changed
  exact .ite (changed.signalVector_reports 5) (.refl _)

theorem alertEdge_reports (s0 : State) : s.cxl.Reports (s0.alertEdge s).cxl := by
  unfold State.alertEdge
  exact .ite (s.markChg_reports 0) (.refl _)

theorem setAlert_reports (k : Nat) : s.cxl.Reports (s.setAlert k).cxl := alertEdge_reports (s.setFld (alertFld k) 0 1) s

theorem journal_reports (k : JKind) (p : List Nat) : s.cxl.Reports (s.journal k p).cxl := by
  unfold State.journal
  extract_lets record
  exact .ite (.refl _) (.ite (setAlert_reports (s.bump .jnlHoldDropped) 4) (.refl _))

theorem spread_reports (e : Event) : s.cxl.Reports (s.spread e).cxl := by
  unfold State.spread
  extract_lets counted kept recorded mgmt told
  have hkept : s.cxl.Reports kept.cxl := .ite (.refl _) (counted.journal_reports ..)
  have hrecorded : kept.cxl.Reports recorded.cxl := cxlRecord_reports ..
  have htold : recorded.cxl.Reports told.cxl := .ite (.refl _) (.refl _)
  exact (hkept.trans (hrecorded.trans htold)).trans (.ite (told.setAlert_reports 0) (.refl _))

theorem event_reports (ev : Ev) (uk : UnitKind) (u c : Nat) (ps : List Nat) :
    s.cxl.Reports (s.event ev uk u c ps).cxl := by
  unfold State.event
  extract_lets entry logged
  exact .ite (logged.spread_reports entry) (.refl _)

end State

/-! ## Training, recovery and flit errors -/

theorem rateCode_eq (r : Fin 5) : rateCode (8 * 2 ^ r.val) = some r.val := by
  revert r
  decide

/-- A link that trains again after recovery reads no watched line again. -/
theorem exec_cxlLinkTrained_recovered {r : Fin 5} {w : Nat} {l : Fin 3} (bi : Bool) {s : State} (hon : s.boot.on = true)
    (hstate : s.cxl.state = .recovery) (hwidth : w = 4 ∨ w = 8 ∨ w = 16) (hlevel : l = 0 → r.val ≤ 2) :
    exec (.cxlLinkTrained (8 * 2 ^ r.val) w l bi) s = .next { s with cxl := { s.cxl with
      state := .l0, rate := r.val, width := w, level := l, bi := bi && decide (1 ≤ l.val) } } := by
  have htrains : (decide (w < 4) || decide (8 * 2 ^ r.val < 8)) = false := by
    have := Nat.one_le_two_pow (n := r.val)
    simp only [Bool.or_eq_false_iff, decide_eq_false_iff_not]
    omega
  have hwide : [4, 8, 16].contains w = true := by simpa using hwidth
  have hrate : (decide (l = 0) && decide (32 < 8 * 2 ^ r.val)) = false := by
    have := fun h => Nat.pow_le_pow_right (n := 2) (by decide) (hlevel h)
    simp only [Bool.and_eq_false_iff, decide_eq_false_iff_not]
    omega
  change execCxlLinkTrained _ w l bi s = _
  simp only [execCxlLinkTrained, hon, hstate, rateCode_eq, hwide, hrate, htrains]
  rfl

theorem exec_cxlLinkTrained_degraded {r w : Nat} (l : Fin 3) (bi : Bool) {s : State} (hon : s.boot.on = true)
    (hstate : s.cxl.state ≠ .l0) (hslow : w < 4 ∨ r < 8) : exec (.cxlLinkTrained r w l bi) s =
      .next ({ s with cxl := { s.cxl with state := .training } }.event .cxlLinkDegraded .device 0 noCtx []) := by
  change execCxlLinkTrained r w l bi s = _
  simp [execCxlLinkTrained, hon, hstate, hslow]

theorem exec_cxlLinkRecovery {s : State} (hon : s.boot.on = true) (hstate : s.cxl.state = .l0) :
    exec .cxlLinkRecovery s =
      .next ({ s with cxl := { s.cxl with state := .recovery, aerCorr := true } }.bump .cxlLinkCntRetrain) := by
  change execCxlLinkRecovery s = _
  simp [execCxlLinkRecovery, hon, hstate]

/-- Injections are told by the fields of CXL_INJ_CTRL. -/
theorem State.injOn_congr {s t : State} (hmode : t.fld .cxlInjCtrlMode = s.fld .cxlInjCtrlMode)
    (hcount : t.fld .cxlInjCtrlCount = s.fld .cxlInjCtrlCount) (m : Nat) : t.injOn m = s.injOn m := by
  rw [State.injOn, hmode, hcount, State.injOn]

theorem exec_cxlFlitError_replay {s : State} (hlink : s.linkUp = true) (htx : s.injOn 1 = false) (hrx : s.injOn 2 = false) :
    exec (.cxlFlitError true) s = .next ({ s with cxl := { s.cxl with aerCorr := true } }.bump .cxlLinkCntReplay) := by
  have hinj : ∀ m, (({ s with cxl := { s.cxl with aerCorr := true } } : State).bump .cxlLinkCntReplay).injOn m = s.injOn m :=
    State.injOn_congr (State.fld_bump_ne _ _ _ _ _ _ (by decide)) (State.fld_bump_ne _ _ _ _ _ _ (by decide))
  change execCxlFlitError true s = _
  simp [execCxlFlitError, hlink, hinj, htx, hrx]

/-! ## Loss of the link (R248, R249) -/

/-- The port as a hot reset leaves it. -/
def Cxl.lost (x : Cxl) : Cxl :=
  { x with
    state := .down, rate := 0, width := 0, level := 0, bi := false, snoop := [], waitInv := [], grants := [],
    viral := false, cfgSpace := [], regs := [], msix := [], creditHeld := false, vecMask := Cxl.reset.vecMask,
    funcMask := false, pba := Cxl.reset.pba, rasUnc := false, rasHeader := [], aerCorr := false }

/-- The state once the loss is counted and the port reset. -/
def State.linkLost (s : State) : State := { s.bump .cxlLinkCntDown with cxl := s.cxl.lost }

theorem forEach_eq_self {α : Type} {l : List α} {f : State → α → State} {s : State} (h : ∀ a ∈ l, f s a = s) :
    forEach l f s = s := by
  induction l with
  | nil => rfl
  | cons a l ih =>
    change forEach l f (f s a) = s
    rw [h a (by simp)]
    exact ih fun b hb => h b (by simp [hb])

theorem State.failHostStreams_of_none {s : State} (hstreams : ∀ b < 4, (s.bay b).streams = []) : s.failHostStreams = s :=
  forEach_eq_self fun b hb => by
    rw [hstreams b (by simpa [upTo] using hb)]
    rfl

/-- With no write held for the host and no transfer in flight, a loss of the link is the port's reset and its event. -/
theorem exec_linkLoss {s : State} (hon : s.boot.on = true) (hheld : s.cxl.held = [])
    (hstreams : ∀ b < 4, (s.bay b).streams = []) :
    exec .linkLoss s = .next (s.linkLost.event .cxlLinkDown .device 0 noCtx []) := by
  have hrun : exec .linkLoss s = .next (s.linkLost.failHostStreams.event .cxlLinkDown .device 0 noCtx []) := by
    change execLinkLoss s = _
    simp only [execLinkLoss, hon, hheld, Bool.not_true, Bool.false_eq_true, if_false]
    rfl
  rw [hrun, State.failHostStreams_of_none (s := s.linkLost) hstreams]

/-- Settles O41: what a lost link leaves of the port is its reset, which the report of the loss does not touch. -/
theorem cxlLink : Obligations.CxlLink := by
  refine ⟨fun r w l bi s hon hstate hwidth hlevel => ?trained,
    fun r w l bi s hon hstate hslow => exec_cxlLinkTrained_degraded l bi hon hstate hslow,
    fun s hon hstate => exec_cxlLinkRecovery hon hstate,
    fun s hlink htx hrx => exec_cxlFlitError_replay hlink htx hrx,
    fun s hon hheld hstreams => .of (exec_linkLoss hon hheld hstreams) ?lost,
    fun s => rfl⟩
  case trained =>
    have hbi : decide (1 ≤ l.val) = decide (l ≠ 0) := decide_eq_decide.mpr (by
      rw [Ne, Fin.ext_iff]
      exact Nat.one_le_iff_ne_zero)
    rw [exec_cxlLinkTrained_recovered bi hon hstate hwidth hlevel, hbi]
  case lost =>
    obtain ⟨logs, overflow, pba, sent, hport⟩ := s.linkLost.event_reports .cxlLinkDown .device 0 noCtx []
    have hcount : (s.linkLost.event .cxlLinkDown .device 0 noCtx []).fld .cxlLinkCntDown =
        min (s.fld .cxlLinkCntDown + 1) (2 ^ 16 - 1) := by
      rw [(s.linkLost.event_spares ..).fld _ _ (by decide) (by decide)]
      exact s.fld_bump_same .cxlLinkCntDown 0 1 (by decide)
    rw [hport]
    exact ⟨rfl, rfl, rfl, rfl, rfl, rfl, rfl, rfl, rfl, hcount, State.event_evHead .., State.event_newest ..,
      State.event_mem .., State.event_hostMem .., State.event_lats .., State.event_threads .., State.event_sec ..⟩

end Sys2Proof.Machine
end

section
/-! PROOFS. What the host reaches beside its memory: configuration space (R242), the diagnostic window (R244), and a Global
Persistent Flush of the journal (R245). -/

namespace Sys2Proof.Machine

/-! ## Configuration space -/

theorem exec_configRequest_retried {o : BitVec 12} (w : Option (BitVec 32)) {s : State} (hlink : s.linkUp = true)
    (hcrs : s.cxl.crs = true) : exec (.configRequest o w) s = .next { s with reply := .crs } := by
  change execConfigRequest o w s = _
  simp only [execConfigRequest, hlink, hcrs]
  rfl

theorem exec_configRequest_write {o : BitVec 12} (v : BitVec 32) {s : State} (hlink : s.linkUp = true)
    (hcrs : s.cxl.crs = false) : exec (.configRequest o (some v)) s = .next { s with
      cxl := { s.cxl with cfgSpace := tset 0 s.cxl.cfgSpace (o.toNat / 4) v }, reply := .done } := by
  change execConfigRequest o (some v) s = _
  simp only [execConfigRequest, hlink, hcrs]
  rfl

/-! ## The diagnostic window -/

section
variable {x : BitVec 36} {s : State}

theorem exec_bar2Read_open (hlink : s.linkUp = true) (hopen : s.diagOpen = true)
    (hreached : diagNone (s.diagAddr x.toNat / 8 * 8) = false) : exec (.bar2Read x) s = .next { s with
      reply := .data (s.bytes (s.diagAddr x.toNat / 8 * 8) 8) (s.readsBad (s.diagAddr x.toNat / 8 * 8) 8) } := by
  change execBar2Read x s = _
  simp only [execBar2Read, hlink, hopen, hreached]
  rfl

theorem exec_bar2Read_closed (hlink : s.linkUp = true) (hclosed : s.diagOpen = false) :
    exec (.bar2Read x) s = .next { s with reply := .data (List.replicate 8 0xFF) false } := by
  change execBar2Read x s = _
  simp only [execBar2Read, hlink, hclosed]
  rfl

theorem exec_bar2Write_open (v : Word) (hlink : s.linkUp = true) (hopen : s.diagOpen = true)
    (hreached : diagNone (s.diagAddr x.toNat / 8 * 8) = false) (htoken : s.tokenPerm 0 = true) :
    exec (.bar2Write x v) s = .next (s.devWrite (s.diagAddr x.toNat / 8 * 8) (leBytes 8 v.toNat)) := by
  change execBar2Write x v s = _
  simp [execBar2Write, hlink, hopen, hreached, htoken]

/-- Without a debug token no write acts; only one beyond the map would be logged. -/
theorem exec_bar2Write_no_token (v : Word) (htoken : s.tokenPerm 0 = false)
    (hunlogged : s.diagOpen = false ∨ diagNone (s.diagAddr x.toNat / 8 * 8) = false) :
    exec (.bar2Write x v) s = .next s := by
  change execBar2Write x v s = _
  obtain hclosed | hreached := hunlogged
  · simp [execBar2Write, hclosed]
  · simp [execBar2Write, hreached, htoken]

end

/-- Bytes that lie in one line are one part. -/
theorem splitLines_within {a : Nat} {d : List Byte} (hsome : d ≠ []) (hwithin : a % 64 + d.length ≤ 64) :
    splitLines a d = [(a, d)] := by
  induction d generalizing a with
  | nil => exact absurd rfl hsome
  | cons b r ih =>
    by_cases hlast : r = []
    · subst hlast
      rfl
    · have hlength : 0 < r.length := List.length_pos_iff.mpr hlast
      rw [List.length_cons] at hwithin
      have hnext : splitLines (a + 1) r = [(a + 1, r)] := ih hlast (by omega)
      have hinner : a % 64 ≠ 63 := by omega
      simp [splitLines, hnext, hinner]

/-- A device write within a line that the host does not hold is done at once. -/
theorem State.devWrite_within {s : State} {a : Nat} {d : List Byte} (hsome : d ≠ []) (hwithin : a % 64 + d.length ≤ 64)
    (hfree : s.hostHolds (lineOf a) = false) : s.devWrite a d = s.applyPart a d := by
  rw [State.devWrite, splitLines_within hsome hwithin]
  change s.writePart a d = _
  rw [State.writePart, hfree, if_neg Bool.false_ne_true]

/-! ## The flush -/

/-- What fits and the rest are the hold buffer, in order. -/
theorem takeFit_append (n : Nat) (l : List JRec) : (takeFit n l).1 ++ (takeFit n l).2 = l := by
  induction l generalizing n with
  | nil => rfl
  | cons r l ih =>
    unfold takeFit
    split
    · exact congrArg (r :: ·) (ih _)
    · rfl

/-- A batch that is written and committed loses and reorders no record. -/
theorem Journal.commit_drain (j : Journal) :
    j.drain.commit.recs ++ j.drain.commit.hold = j.recs ++ j.unwritten ++ j.hold := by
  change j.recs ++ (j.unwritten ++ (takeFit j.room j.hold).1) ++ (takeFit j.room j.hold).2 = _
  rw [List.append_assoc, List.append_assoc, takeFit_append, List.append_assoc]

theorem exec_globalPersistentFlush_open {s : State} (hon : s.boot.on = true) (hopen : s.jnl.windowOpen = true) :
    exec .globalPersistentFlush s = .next { s with jnl := s.jnl.drain.commit, reply := .done } := by
  change execGlobalPersistentFlush s = _
  simp [execGlobalPersistentFlush, hon, hopen]

theorem exec_globalPersistentFlush_closed {s : State} (hon : s.boot.on = true) (hclosed : s.jnl.windowOpen = false) :
    exec .globalPersistentFlush s = .next { s with reply := .done } := by
  change execGlobalPersistentFlush s = _
  simp [execGlobalPersistentFlush, hon, hclosed]

/-- Settles O42: a window's write lies in one line, so it is one write of the device; a flush keeps the records in order. -/
theorem hostWindows : Obligations.HostWindows := by
  refine ⟨fun o w s hlink hcrs => exec_configRequest_retried w hlink hcrs,
    fun o v s hlink hcrs => exec_configRequest_write v hlink hcrs,
    fun x s hlink hopen hreached => exec_bar2Read_open hlink hopen hreached,
    fun x s hlink hclosed => exec_bar2Read_closed hlink hclosed,
    fun x v s hlink hopen hreached htoken hfree => .of (exec_bar2Write_open v hlink hopen hreached htoken) ?write,
    fun x v s htoken hunlogged => exec_bar2Write_no_token v htoken hunlogged,
    fun s hon hopen => .of (exec_globalPersistentFlush_open hon hopen) ⟨rfl, rfl, s.jnl.commit_drain⟩,
    fun s hon hclosed => exec_globalPersistentFlush_closed hon hclosed⟩
  case write =>
    have hsome : leBytes 8 v.toNat ≠ [] := List.cons_ne_nil _ _
    have hwithin : s.diagAddr x.toNat / 8 * 8 % 64 + (leBytes 8 v.toNat).length ≤ 64 := by
      rw [length_leBytes]
      omega
    have hwrote := s.applyPart_wrote (s.diagAddr x.toNat / 8 * 8) (leBytes 8 v.toNat)
    rw [State.devWrite_within hsome hwithin hfree]
    exact ⟨by simpa only [length_leBytes] using hwrote.bytes, by simpa only [length_leBytes] using hwrote.byte⟩

end Sys2Proof.Machine
end

section
/-! PROOFS. Injection by CXL_INJ_CTRL under its token (R253), and patrol scrub (R192, R193). -/

namespace Sys2Proof.Machine

/-! ## Writes of CXL_INJ_CTRL -/

/-- The refusal fields are all that a refused write changes. -/
theorem State.fld_refuse_ne {s : State} {p : Path} {off v : Nat} {g : Fld} {j : Nat}
    (hg : g.place ∉ [Fld.devRefusedCount, .devRefusedOffset, .devRefusedPath].map Fld.place) (hj : j < 4096 := by decide) :
    (s.refuse p off v).fld g j = s.fld g j := by
  simp only [List.map, List.mem_cons, List.not_mem_nil, or_false, not_or] at hg
  obtain ⟨hcount, hoffset, hpath⟩ := hg
  rw [State.fld_refuse, State.fld_setFld_ne _ _ _ _ _ _ (Fld.key_ne hpath),
    State.fld_setFld_ne _ _ _ _ _ _ (Fld.key_ne hoffset), State.fld_bump_ne _ _ _ _ _ _ (Fld.key_ne hcount)]

theorem State.refuse_cxl (s : State) (p : Path) (off v : Nat) : (s.refuse p off v).cxl = s.cxl := by
  obtain ⟨_, _, _, _, h⟩ := s.refuse_frame p off v
  rw [h]

/-- CXL_INJ_CTRL with a mode and a count. -/
def State.injSet (s : State) (mode count : Nat) : State :=
  (s.setFld .cxlInjCtrlCount 0 count).setFld .cxlInjCtrlMode 0 mode

theorem State.injMode_injSet {s : State} {mode : Nat} (count : Nat) (hmode : mode < 8) :
    (s.injSet mode count).fld .cxlInjCtrlMode = mode :=
  (State.fld_setFld_same _ _ _ _ (by decide)).trans (Nat.mod_eq_of_lt hmode)

theorem State.injCount_injSet {s : State} {count : Nat} (mode : Nat) (hcount : count < 2 ^ 16) :
    (s.injSet mode count).fld .cxlInjCtrlCount = count := by
  rw [State.injSet, State.fld_setFld_ne _ _ _ _ _ _ (by decide), State.fld_setFld_same _ _ _ _ (by decide)]
  exact Nat.mod_eq_of_lt hcount

/-- CXL_INJ_CTRL with MODE 4, a count and a delay. -/
def State.creditHoldSet (s : State) (count delay : Nat) : State :=
  ((s.setFld .cxlInjCtrlCount 0 count).setFld .cxlInjCtrlDelayUs 0 delay).setFld .cxlInjCtrlMode 0 4

/-- The state once the first of the counted credit holds has begun. -/
def State.creditsHeld (s : State) (count delay : Nat) : State :=
  { (s.creditHoldSet count delay).injMade with cxl := { s.cxl with creditHeld := true } }

theorem State.setFld_frame (s : State) (f : Fld) (i v : Nat) : ∃ flds, s.setFld f i v = { s with flds := flds } :=
  ⟨_, rfl⟩

theorem State.creditsHeld_frame (s : State) (count delay : Nat) : ∃ flds,
    s.creditsHeld count delay = { s with flds := flds, cxl := { s.cxl with creditHeld := true } } := by
  have hset : ∃ F, s.creditHoldSet count delay = { s with flds := F } := ⟨_, rfl⟩
  obtain ⟨F, hF⟩ := hset
  obtain ⟨G, hG⟩ := (s.creditHoldSet count delay).setFld_frame .cxlInjCtrlCount 0
    ((s.creditHoldSet count delay).fld .cxlInjCtrlCount - 1)
  rw [State.creditsHeld, State.injMade, hG, hF]
  exact ⟨G, rfl⟩

section
variable {s : State} {count delay : Nat}

theorem State.injMode_creditHoldSet : (s.creditHoldSet count delay).fld .cxlInjCtrlMode = 4 :=
  State.fld_setFld_same _ _ _ _ (by decide)

theorem State.injCount_creditHoldSet (hcount : count < 2 ^ 16) :
    (s.creditHoldSet count delay).fld .cxlInjCtrlCount = count := by
  rw [State.creditHoldSet, State.fld_setFld_ne _ _ _ _ _ _ (by decide), State.fld_setFld_ne _ _ _ _ _ _ (by decide),
    State.fld_setFld_same _ _ _ _ (by decide)]
  exact Nat.mod_eq_of_lt hcount

theorem State.injDelay_creditHoldSet (hdelay : delay < 2 ^ 16) :
    (s.creditHoldSet count delay).fld .cxlInjCtrlDelayUs = delay := by
  rw [State.creditHoldSet, State.fld_setFld_ne _ _ _ _ _ _ (by decide), State.fld_setFld_same _ _ _ _ (by decide)]
  exact Nat.mod_eq_of_lt hdelay

/-- A hold leaves its mode and its delay, and one less to make (R253). -/
theorem State.creditsHeld_fields (hcount : count < 2 ^ 16) (hdelay : delay < 2 ^ 16) :
    (s.creditsHeld count delay).fld .cxlInjCtrlMode = 4 ∧
    (s.creditsHeld count delay).fld .cxlInjCtrlDelayUs = delay ∧
    (s.creditsHeld count delay).fld .cxlInjCtrlCount = count - 1 := by
  have hflds : ∀ g, (s.creditsHeld count delay).fld g = (s.creditHoldSet count delay).injMade.fld g :=
    fun g => State.fld_congr rfl g 0
  have hleft : count - 1 < 2 ^ Fld.cxlInjCtrlCount.width := Nat.lt_of_le_of_lt (Nat.sub_le _ _) hcount
  refine ⟨?_, ?_, ?_⟩
  · rw [hflds, State.injMade, State.fld_setFld_ne _ _ _ _ _ _ (by decide), State.injMode_creditHoldSet]
  · rw [hflds, State.injMade, State.fld_setFld_ne _ _ _ _ _ _ (by decide), State.injDelay_creditHoldSet hdelay]
  · rw [hflds, State.injMade, State.fld_setFld_same _ _ _ _ (by decide), State.injCount_creditHoldSet hcount,
      Nat.mod_eq_of_lt hleft]

end

section
variable {s : State} (hon : s.boot.on = true)
include hon

/-- Under a token a mode that withholds no credits is set, with its count, and nothing else happens. -/
theorem State.writeInj_of_token {mode : Nat} (count : Nat) (htoken : s.tokenPerm 1 = true) (hmode : mode < 6)
    (hcredits : mode ≠ 4) : s.writeInj .bar0 mode count none = s.injSet mode count := by
  have hnamed : ¬ 5 < mode := by omega
  have hnone : (s.injSet mode count).injOn 4 = false := by
    simp [State.injOn, State.injMode_injSet count (show mode < 8 by omega), hcredits]
  have hwrite : s.writeInj .bar0 mode count none = if (s.injSet mode count).injOn 4 then
      { (s.injSet mode count).injMade with cxl := { s.cxl with creditHeld := true } } else s.injSet mode count := by
    simp only [State.writeInj, hon, htoken, if_neg hnamed]
    rfl
  rw [hwrite, hnone, if_neg Bool.false_ne_true]

/-- A count of credit holds begins the first at once. -/
theorem State.writeInj_creditHold {count : Nat} (delay : Nat) (htoken : s.tokenPerm 1 = true) (hsome : count ≠ 0)
    (hcount : count < 2 ^ 16) : s.writeInj .bar0 4 count (some delay) = s.creditsHeld count delay := by
  have hinjects : (s.creditHoldSet count delay).injOn 4 = true := by
    simp [State.injOn, State.injMode_creditHoldSet, State.injCount_creditHoldSet hcount, Nat.pos_of_ne_zero hsome]
  have hwrite : s.writeInj .bar0 4 count (some delay) = if (s.creditHoldSet count delay).injOn 4 then
      s.creditsHeld count delay else s.creditHoldSet count delay := by
    simp only [State.writeInj, hon, htoken]
    rfl
  rw [hwrite, if_pos hinjects]

theorem State.writeInj_refused (mode count : Nat) (delay : Option Nat) (htoken : s.tokenPerm 1 = false) :
    s.writeInj .bar0 mode count delay =
      s.refuse .bar0 (Reg.cxlInjCtrl.addr 0) (mode + count * 2 ^ 16 + delay.getD 0 * 2 ^ 32) := by
  simp only [State.writeInj, hon, htoken]
  rfl

end

/-- The rows of CXL_INJ_CTRL whose injections wait for the traffic they spoil, with their modes. -/
def InjectionRow (c : Instr) (n : BitVec 16) (m : Nat) : Prop :=
  c = .injTxCrc .bar0 n ∧ m = 1 ∨ c = .injRxCrc .bar0 n ∧ m = 2 ∨ c = .injMemPoison .bar0 n ∧ m = 3 ∨
    c = .injCacheFail .bar0 n ∧ m = 5

theorem InjectionRow.exec {c : Instr} {n : BitVec 16} {m : Nat} (h : InjectionRow c n m) (s : State) :
    Machine.exec c s = .next (s.writeInj .bar0 m n.toNat none) ∧ m < 6 ∧ m ≠ 4 := by
  obtain ⟨rfl, rfl⟩ | ⟨rfl, rfl⟩ | ⟨rfl, rfl⟩ | ⟨rfl, rfl⟩ := h <;> exact ⟨rfl, by decide, by decide⟩

/-- Each of the five rows is a write of CXL_INJ_CTRL. -/
theorem exec_injection {c : Instr} {n d : BitVec 16} (s : State) (h : c ∈ [Instr.injTxCrc .bar0 n, .injRxCrc .bar0 n,
    .injMemPoison .bar0 n, .injCreditHold .bar0 n d, .injCacheFail .bar0 n]) :
    ∃ mode delay, exec c s = .next (s.writeInj .bar0 mode n.toNat delay) := by
  simp only [List.mem_cons, List.not_mem_nil, or_false] at h
  obtain rfl | rfl | rfl | rfl | rfl := h <;> exact ⟨_, _, rfl⟩

/-! ## Patrol scrub -/

/-- The scrub status of stack `b` after its line `line`. -/
def State.scrubbed (s : State) (b line : Nat) (forced : Bool) : State :=
  if line + 1 = stackLines then
    ((s.setFld .celScrubStatusForced b (boolNat forced)).bump .celScrubStatusPasses b).setFld .celScrubStatusProgress b 0
  else (s.setFld .celScrubStatusForced b (boolNat forced)).setFld .celScrubStatusProgress b ((line + 1) * 65536 / stackLines)

theorem State.scrubbed_frame (s : State) (b line : Nat) (forced : Bool) :
    ∃ flds, s.scrubbed b line forced = { s with flds := flds } := by
  unfold State.scrubbed
  split <;> exact ⟨_, rfl⟩

section
variable {b : Fin 4} {line : Nat} {s : State} (forced : Bool) (hon : s.boot.on = true) (hline : line < stackLines)
include hon hline

theorem exec_scrubRead_clean : exec (.scrubRead b line .clean forced) s = .next (s.scrubbed b line forced) := by
  change execScrubRead b line .clean forced s = _
  simp only [execScrubRead, hon, Nat.not_le.mpr hline, decide_false]
  exact (apply_ite Host.Outcome.next _ _ _).symm

theorem exec_scrubRead_uncorrectable : exec (.scrubRead b line .uncorrectable forced) s =
    .next ((s.uncorrectable (b.val * stackLines + line) .scrub).scrubbed b line forced) := by
  change execScrubRead b line .uncorrectable forced s = _
  simp only [execScrubRead, hon, Nat.not_le.mpr hline, decide_false]
  exact (apply_ite Host.Outcome.next _ _ _).symm

end

/-- An uncorrectable error poisons its line and no other, and is logged (R192). -/
theorem State.uncorrectable_outcome (s : State) (line : Nat) (src : UeReader) :
    (s.uncorrectable line src).poison = tset false s.poison line true ∧
    (s.uncorrectable line src).evHead = s.evHead + 1 ∧
    ((s.uncorrectable line src).log.map (·.code)).head? = some (Ev.code .celUe) ∧
    (s.uncorrectable line src).mem = s.mem :=
  ⟨State.event_poison .., State.event_evHead .., State.event_newest .., State.event_mem ..⟩

/-- Settles O44: every injection is one write of CXL_INJ_CTRL, which a token lets through; a scrub read of a stack's line is
what its error protection does and a new scrub status. -/
theorem injectionAndScrub : Obligations.InjectionAndScrub := by
  refine ⟨fun c m n s hrow hon htoken => ?set, fun n d s hon htoken hsome => .of rfl ?hold,
    fun n d s hon htoken c hc => ?refused, fun b line f s hon hline => ?next, fun b f s hon => ?last,
    fun b line f s hon hline => .of (exec_scrubRead_uncorrectable f hon hline) ?poisoned⟩
  case set =>
    obtain ⟨hexec, hmode, hcredits⟩ := InjectionRow.exec hrow s
    rw [hexec, State.writeInj_of_token hon _ htoken hmode hcredits, State.injSet]
  case hold =>
    have hcount : n.toNat ≠ 0 := fun h => hsome (BitVec.eq_of_toNat_eq h)
    rw [State.writeInj_creditHold hon _ htoken hcount n.isLt]
    obtain ⟨flds, hframe⟩ := s.creditsHeld_frame n.toNat d.toNat
    exact ⟨by rw [hframe], State.creditsHeld_fields n.isLt d.isLt⟩
  case refused =>
    obtain ⟨mode, delay, hexec⟩ := exec_injection s hc
    rw [State.writeInj_refused hon _ _ _ htoken] at hexec
    exact .of hexec ⟨State.refuse_cxl .., State.fld_refuse_ne (by decide), State.fld_refuse_ne (by decide),
      State.refuse_count ..⟩
  case next =>
    rw [exec_scrubRead_clean f hon (by omega), State.scrubbed, if_neg hline.ne]
  case last =>
    have hlines : stackLines - 1 + 1 = stackLines := Nat.sub_add_cancel (by decide)
    rw [exec_scrubRead_clean f hon (by omega), State.scrubbed, if_pos hlines]
  case poisoned =>
    obtain ⟨F, hF⟩ := (s.uncorrectable (b.val * stackLines + line) .scrub).scrubbed_frame b line f
    obtain ⟨hpoison, hhead, hnewest, hmem⟩ := s.uncorrectable_outcome (b.val * stackLines + line) .scrub
    rw [hF]
    refine ⟨?_, fun k hk => ?_, hhead, hnewest, hmem⟩
    · change tget false (s.uncorrectable _ _).poison _ = true
      rw [hpoison, tget_tset_same]
    · change tget false (s.uncorrectable _ _).poison k = _
      rw [hpoison, tget_tset_ne _ _ _ _ _ hk]
      rfl

end Sys2Proof.Machine
end

section
/-! PROOFS. The commands of the mailbox and of the two DOE mailboxes (R235, R241, R251 to R253). -/

namespace Sys2Proof.Machine

/-! ## The mailbox -/

/-- A mailbox command of a device that is on answers and signals vector 0 (R252). -/
theorem State.mailbox_of_on {s : State} (hon : s.boot.on = true) (r : Reply) : s.mailbox r = (s.answer r).signalVector 0 :=
  if_pos hon

/-- The same of a command that changes the port. -/
theorem State.mailbox_setCxl {s : State} (hon : s.boot.on = true) (x : Cxl) (r : Reply) :
    ({ s with cxl := x } : State).mailbox r = ({ s with reply := r, cxl := x } : State).signalVector 0 :=
  if_pos hon

section
variable {s : State} (hon : s.boot.on = true)
include hon

theorem exec_clearEventRecords (g : EvLog) (n : Nat) : exec (.clearEventRecords g n) s =
    .next (({ s with cxl := { s.cxl with
      logs := s.cxl.logs.set (evLogNum g) ((s.cxl.logs.getD (evLogNum g) []).drop n),
      overflow := s.cxl.overflow.set (evLogNum g) false } } : State).mailbox .done) := by
  change execClearEventRecords g n s = _
  simp only [execClearEventRecords, hon]
  rfl

theorem exec_setEventInterruptPolicy (a b c d : BitVec 8) : exec (.setEventInterruptPolicy a b c d) s =
    .next (({ s with cxl := { s.cxl with policy := [a, b, c, d] } } : State).mailbox .done) := by
  change execSetEventInterruptPolicy a b c d s = _
  simp only [execSetEventInterruptPolicy, hon]
  rfl

theorem exec_setTimestamp (v : Word) : exec (.setTimestamp v) s =
    .next (({ s with cxl := { s.cxl with timestamp := v, timestampAt := s.time } } : State).mailbox .done) := by
  change execSetTimestamp v s = _
  simp only [execSetTimestamp, hon]
  rfl

end

theorem exec_getTimestamp_set {s : State} (hset : s.cxl.timestamp ≠ 0) : exec .getTimestamp s =
    .next (s.mailbox (.value (s.cxl.timestamp + BitVec.ofNat 64 (s.time - s.cxl.timestampAt)))) := by
  change execGetTimestamp s = _
  rw [execGetTimestamp, if_neg hset]

/-! ## The CDAT over DOE (R241) -/

/-- The answer to an access of the CDAT's entry `k`, which is `e`: the handle of the next, then the entry. -/
def tableAnswer (k : Nat) (e : List Byte) : List Byte := [0, 0] ++ leBytes 2 (if k = 5 then 0xFFFF else k + 1) ++ e

theorem take_tableAnswer (k : Nat) (e : List Byte) :
    (tableAnswer k e).take 4 = [0, 0] ++ leBytes 2 (if k = 5 then 0xFFFF else k + 1) := rfl

/-- The header and the entries of the CDAT by their handles. -/
def cdatEntry (size : Nat) : Nat → List Byte
  | 0 => cdatHeader size
  | 1 => cdatRange size
  | 2 => cdatFigure 1 100
  | 3 => cdatFigure 2 100
  | 4 => cdatFigure 4 250
  | _ => cdatFigure 5 250

theorem exec_tableAccess {k : Nat} {s : State} (hlink : s.linkUp = true) (hk : k < 6) :
    exec (.tableAccess k) s = .next (s.answer (.data (tableAnswer k (cdatEntry s.hostMemSize k)) false)) := by
  change execTableAccess k s = _
  simp only [execTableAccess, hlink]
  obtain rfl | rfl | rfl | rfl | rfl | rfl : k = 0 ∨ k = 1 ∨ k = 2 ∨ k = 3 ∨ k = 4 ∨ k = 5 := by omega
  all_goals rfl

theorem length_cdatEntries (size : Nat) : (cdatEntries size).flatten.length = 120 := by
  simp [cdatEntries, cdatRange, cdatFigure]

/-- The header gives the length of the whole table. -/
theorem cdatHeader_length_field (k size : Nat) : ((tableAnswer k (cdatHeader size)).drop 4).take 4 = leBytes 4 136 := by
  have hfield : (cdatHeader size).take 4 = leBytes 4 (16 + (cdatEntries size).flatten.length) := rfl
  rwa [length_cdatEntries] at hfield

theorem cdatRange_fields (k size : Nat) :
    ((tableAnswer k (cdatRange size)).drop 12).take 16 = leBytes 8 0 ++ leBytes 8 size := rfl

theorem cdatFigure_fields (k v : Nat) (kind : Byte) : ((tableAnswer k (cdatFigure kind v)).drop 4).getD 6 0 = kind ∧
    ((tableAnswer k (cdatFigure kind v)).drop 20).take 2 = leBytes 2 v := ⟨rfl, rfl⟩

/-! ## Compliance requests -/

theorem exec_complianceRequest_plain {s : State} (k : Nat) (hlink : s.linkUp = true) :
    exec (.complianceRequest false k) s = .next { s with reply := .data (Config.specData 5 k) false } := by
  change execComplianceRequest false k s = _
  simp only [execComplianceRequest, hlink]
  rfl

theorem exec_complianceRequest_refused {s : State} (k : Nat) (hlink : s.linkUp = true) (htoken : s.tokenPerm 1 = false) :
    exec (.complianceRequest true k) s = .next ((s.refuse .bar0 (Reg.cxlInjCtrl.addr 0) k).answer (.error 1)) := by
  change execComplianceRequest true k s = _
  simp only [execComplianceRequest, hlink, htoken]
  rfl

/-- What an injection request leaves of the device: CXL_INJ_CTRL written where the request's code names an injection. -/
def State.complied (s : State) (k : Nat) : State :=
  match Config.injection k with
  | some (m, n) => s.writeInj .bar0 m n.toNat none
  | none => s

theorem exec_complianceRequest_injection {s : State} (k : Nat) (hlink : s.linkUp = true) (htoken : s.tokenPerm 1 = true) :
    exec (.complianceRequest true k) s = .next ((s.complied k).answer (.data (Config.specData 5 k) false)) := by
  change execComplianceRequest true k s = _
  simp only [execComplianceRequest, hlink, htoken, State.complied]
  cases Config.injection k <;> rfl

theorem State.boot_on_of_linkUp {s : State} (hlink : s.linkUp = true) : s.boot.on = true := (Bool.and_eq_true_iff.mp hlink).1

theorem State.writeInj_mems (s : State) (m n : Nat) :
    (s.writeInj .bar0 m n none).mem = s.mem ∧ (s.writeInj .bar0 m n none).hostMem = s.hostMem := by
  unfold State.writeInj
  extract_lets v counted delayed set
  have hset : set.mem = s.mem ∧ set.hostMem = s.hostMem := by
    simp only [set]
    split <;> exact ⟨rfl, rfl⟩
  split
  · exact ⟨rfl, rfl⟩
  · split
    · exact ⟨State.refuse_mem .., State.refuse_hostMem ..⟩
    · split <;> exact hset

theorem State.complied_mems (s : State) (k : Nat) : (s.complied k).mem = s.mem ∧ (s.complied k).hostMem = s.hostMem := by
  unfold State.complied
  split
  · exact s.writeInj_mems ..
  · exact ⟨rfl, rfl⟩

/-- Settles O43: an answer signals vector 0 in whatever state it leaves; an entry's fields stand at their places in it; an
injection request is a write of CXL_INJ_CTRL. -/
theorem mailbox : Obligations.Mailbox := by
  refine ⟨fun s hon => congrArg _ (State.mailbox_of_on hon _), fun k s hon => congrArg _ (State.mailbox_of_on hon _),
    fun g s hon => congrArg _ (State.mailbox_of_on hon _),
    fun g n s hon => (exec_clearEventRecords hon g n).trans (congrArg _ (State.mailbox_setCxl hon _ _)),
    fun s hon => congrArg _ (State.mailbox_of_on hon _),
    fun a b c d s hon => (exec_setEventInterruptPolicy hon a b c d).trans (congrArg _ (State.mailbox_setCxl hon _ _)),
    fun s hon hset => (exec_getTimestamp_set hset).trans (congrArg _ (State.mailbox_of_on hon _)),
    fun v s hon => (exec_setTimestamp hon v).trans (congrArg _ (State.mailbox_setCxl hon _ _)),
    fun k s hlink hk => .of (exec_tableAccess hlink hk)
      ⟨rfl, _, rfl, take_tableAnswer _ _, ?header, ?range, ?latency, ?bandwidth⟩,
    fun k s hlink => exec_complianceRequest_plain k hlink,
    fun k s hlink htoken => .of (exec_complianceRequest_refused k hlink htoken) ?refused,
    fun k s hlink htoken => .of (exec_complianceRequest_injection k hlink htoken)
      ⟨rfl, (s.complied_mems k).1, (s.complied_mems k).2, ?plain, ?injects⟩⟩
  case header =>
    rintro rfl
    exact cdatHeader_length_field ..
  case range =>
    rintro rfl
    exact cdatRange_fields ..
  case latency =>
    rintro (rfl | rfl) <;> exact cdatFigure_fields ..
  case bandwidth =>
    rintro (rfl | rfl) <;> exact cdatFigure_fields ..
  case refused =>
    exact ⟨rfl, State.refuse_mem .., State.refuse_hostMem .., State.fld_refuse_ne (by decide),
      State.fld_refuse_ne (by decide), State.refuse_count ..⟩
  case plain =>
    intro hnone
    change (s.complied k).flds = _
    rw [State.complied, hnone]
  case injects =>
    intro m n hsome hcredits
    have hwrite : s.complied k = s.injSet m n.toNat := by
      rw [State.complied, hsome]
      exact State.writeInj_of_token (State.boot_on_of_linkUp hlink) _ htoken m.isLt hcredits
    rw [hwrite]
    exact ⟨State.injMode_injSet _ (by omega), State.injCount_injSet _ n.isLt⟩

end Sys2Proof.Machine
end

section
/-! PROOFS. The lanes of a Henxo port (R256, R260, R264, R270): what transmission leaves of a lane that is retrained, what
a replay puts on the fibre, and what frames lost with a port leave alone. -/

namespace Sys2Proof.Machine

/-! ## A frame on the fibre -/

/-- A header write above TYPE keeps the type (R261). -/
theorem fType_fput (f : Frame) {lo : Nat} (hi v : Nat) (hlo : 4 ≤ lo) : fType (fput f hi lo v) = fType f := by
  obtain ⟨k, rfl⟩ := Nat.exists_eq_add_of_le hlo
  have hpow : 2 ^ (4 + k) = 16 * 2 ^ k := Nat.pow_add 2 4 k
  have hcut : bitsOf f.hdr.toNat hi (4 + k) * 2 ^ (4 + k) ≤ f.hdr.toNat :=
    (Nat.mul_le_mul_right _ (Nat.mod_le _ _)).trans (Nat.div_mul_le_self _ _)
  have hput : putBits f.hdr.toNat hi (4 + k) v % 16 = f.hdr.toNat % 16 := by
    unfold putBits
    rw [hpow] at hcut ⊢
    generalize bitsOf f.hdr.toNat hi (4 + k) = b at *
    generalize v % 2 ^ (hi - (4 + k) + 1) = c
    rw [Nat.mul_left_comm] at hcut ⊢
    rw [Nat.mul_left_comm c]
    omega
  simp only [fType, fbits, fput, bitsOf, BitVec.toNat_ofNat]
  omega

theorem fType_crc (f : Frame) (c : Word) : fType { f with crc := c } = fType f := rfl

section
variable (s : State) (p k : Nat) (f : Frame) (nak : Bool)

/-- What a port is after a frame goes out on a lane: it is the newest of the frames sent, and the lane owes nothing (R264). -/
theorem State.port_putOnFibre : ∃ g owed, (s.putOnFibre p k f nak).port p =
    { (s.port p).setLane k { (s.port p).lane k with owed := false } with out := (k, g) :: (s.port p).out, owed := owed } := by
  unfold State.putOnFibre
  dsimp only
  split <;> exact ⟨_, _, State.port_setPort_same ..⟩

theorem State.port_putOnFibre_ne {q : Nat} (h : q ≠ p) : (s.putOnFibre p k f nak).port q = s.port q := by
  unfold State.putOnFibre
  dsimp only
  split <;> exact State.port_setPort_ne _ _ _ _ h

/-- Of the fields only the port's count of frames sent may change. -/
theorem State.fld_putOnFibre {g : Fld} {i : Nat} (hg : g.place ≠ Fld.hnxTxFramesCount.place) (hp : p < 4096) (hi : i < 4096) :
    (s.putOnFibre p k f nak).fld g i = s.fld g i := by
  unfold State.putOnFibre
  dsimp only
  split
  · rfl
  · rw [State.fld_bump_ne _ _ _ _ _ _ (Fld.key_ne hg)]
    rfl

/-- An IDLE frame is not counted. -/
theorem State.fld_sendIdle (g : Fld) (i : Nat) : (s.sendIdle p k nak).fld g i = s.fld g i := by
  unfold State.sendIdle State.putOnFibre
  dsimp only
  rw [if_pos ?idle]
  case idle =>
    rw [fType_crc]
    simp only [fType_fput, Nat.reduceLeDiff]
    rfl
  rfl

end

/-! ## Transmission on other lanes -/

/-- A choice among the entries of a list, made by keeping or replacing the one chosen so far, is one of them. -/
theorem foldl_choice {α : Type} {P : α → Prop} {g : Option α → α → Option α}
    (hg : ∀ b e, g b e = b ∨ g b e = some e) (l : List α) (b : Option α) (hb : ∀ e ∈ b, P e) (hl : ∀ e ∈ l, P e) :
    ∀ e ∈ l.foldl g b, P e := by
  induction l generalizing b with
  | nil => exact hb
  | cons a l ih =>
    refine ih _ (fun e he => ?_) fun e he => hl e (by simp [he])
    obtain hkeep | hnew := hg b a
    · exact hb e (hkeep ▸ he)
    · obtain rfl : a = e := by simpa [hnew] using he
      exact hl a (by simp)

/-- A lane that is picked for a frame is not in retraining (R267). -/
theorem Port.pickLane_retraining {x : Port} {f : Frame} {k : Nat} (h : x.pickLane f = some k) :
    (x.lane k).retraining = false := by
  have hup : ∀ j ∈ x.upLanes, (x.lane j).retraining = false := fun j hj => by
    obtain ⟨-, hup⟩ := List.mem_filter.mp hj
    simp only [Bool.and_eq_true, Bool.not_eq_true'] at hup
    obtain ⟨⟨-, hfree⟩, -⟩ := hup
    exact hfree
  unfold Port.pickLane at h
  obtain ⟨hpicked, -⟩ := Option.filter_eq_some_iff.mp h
  split at hpicked
  · exact hup k (List.mem_of_getElem? hpicked)
  · obtain ⟨e, hleast, rfl⟩ := Option.map_eq_some_iff.mp hpicked
    refine foldl_choice (P := fun e => (x.lane e.1).retraining = false) (fun b e => ?_) _ none (by simp) (fun e he => ?_) e
      hleast
    · split
      · split
        · exact .inr rfl
        · exact .inl rfl
      · exact .inr rfl
    · obtain ⟨j, hj, rfl⟩ := List.mem_map.mp he
      exact hup j hj

/-- What sending frames counts (R287). -/
def sendFields : List Fld := [.hnxTxFramesCount, .fltHnxCtrlCount, .fltHnxCntDone]

/-- From `s` to `t` lane `k` of port `p` keeps its retry buffer and whether it is retrained, and no field changes but those of
`sendFields`. -/
structure SparesLane (p k : Nat) (s t : State) : Prop where
  retry : ((t.port p).lane k).retry = ((s.port p).lane k).retry
  retraining : ((t.port p).lane k).retraining = ((s.port p).lane k).retraining
  fld : ∀ (f : Fld) (i : Nat), f.place ∉ sendFields.map Fld.place → i < 4096 → t.fld f i = s.fld f i

namespace SparesLane

variable {p k : Nat}

theorem refl (s : State) : SparesLane p k s s := ⟨rfl, rfl, fun _ _ _ _ => rfl⟩

theorem trans {s t u : State} (h : SparesLane p k s t) (g : SparesLane p k t u) : SparesLane p k s u :=
  ⟨g.retry.trans h.retry, g.retraining.trans h.retraining, fun f i hf hi => (g.fld f i hf hi).trans (h.fld f i hf hi)⟩

theorem forEach {α : Type} {f : State → α → State} (hf : ∀ s a, SparesLane p k s (f s a)) (l : List α) (s : State) :
    SparesLane p k s (forEach l f s) := by
  induction l generalizing s with
  | nil => exact refl s
  | cons a l ih => exact (hf s a).trans (ih _)

/-- A change of the port and of nothing that this speaks of. -/
theorem setPort {s : State} {x : Port} (hretry : (x.lane k).retry = ((s.port p).lane k).retry)
    (hretraining : (x.lane k).retraining = ((s.port p).lane k).retraining) : SparesLane p k s (s.setPort p x) :=
  ⟨by rwa [State.port_setPort_same], by rwa [State.port_setPort_same], fun _ _ _ _ => rfl⟩

/-- A change of another lane. -/
theorem setLane (s : State) {j : Nat} (hj : j ≠ k) (l : Lane) : SparesLane p k s (s.setPort p ((s.port p).setLane j l)) :=
  .setPort (by rw [Port.lane_setLane, if_neg hj.symm]) (by rw [Port.lane_setLane, if_neg hj.symm])

theorem setFld (s : State) {f : Fld} {i : Nat} (v : Nat) (hf : f ∈ sendFields) (hi : i < 4096) :
    SparesLane p k s (s.setFld f i v) :=
  ⟨rfl, rfl, fun _ _ hg hj => State.fld_setFld_ne _ _ _ _ _ _ (Fld.key_ne (fun h => hg (h ▸ List.mem_map_of_mem hf)) hi hj)⟩

theorem bump (s : State) {f : Fld} {i : Nat} (n : Nat) (hf : f ∈ sendFields) (hi : i < 4096) :
    SparesLane p k s (s.bump f i n) := setFld s _ hf hi

/-- Lane `j` may be lane `k` itself: what it owes is all that changes of it. -/
theorem lane_putOnFibre (s : State) (r j : Nat) (f : Frame) (nak : Bool) :
    (((s.putOnFibre r j f nak).port p).lane k).retry = ((s.port p).lane k).retry ∧
    (((s.putOnFibre r j f nak).port p).lane k).retraining = ((s.port p).lane k).retraining := by
  by_cases hr : p = r
  · subst hr
    obtain ⟨g, owed, hport⟩ := s.port_putOnFibre p j f nak
    have hlane : ((s.putOnFibre p j f nak).port p).lane k =
        ((s.port p).setLane j { (s.port p).lane j with owed := false }).lane k := by rw [hport]; rfl
    rw [hlane, Port.lane_setLane]
    split
    · next h => exact h ▸ ⟨rfl, rfl⟩
    · exact ⟨rfl, rfl⟩
  · rw [s.port_putOnFibre_ne r j f nak hr]
    exact ⟨rfl, rfl⟩

theorem sendIdle (s : State) (r j : Nat) (nak : Bool) : SparesLane p k s (s.sendIdle r j nak) :=
  ⟨(lane_putOnFibre ..).1, (lane_putOnFibre ..).2, fun f i _ _ => s.fld_sendIdle r j nak f i⟩

/-- A credit goes back on any port (R266). -/
theorem giveCredit (s : State) (r i : Nat) : SparesLane p k s (s.giveCredit r i) := by
  have howed : SparesLane p k s (s.modPort r fun x => { x with owed := x.owed.set i (x.owed.getD i 0 + 1) }) := by
    by_cases hr : r = p
    · subst hr
      exact .setPort rfl rfl
    · have hport := State.port_modPort_ne s r p (fun x => { x with owed := x.owed.set i (x.owed.getD i 0 + 1) }) (Ne.symm hr)
      exact ⟨by rw [hport], by rw [hport], fun _ _ _ _ => rfl⟩
  unfold State.giveCredit
  dsimp only
  split
  · split
    · exact howed.trans (sendIdle ..)
    · exact howed
  · exact howed

section
variable (hp : p < 4096)
include hp

theorem putOnFibre (s : State) (j : Nat) (f : Frame) (nak : Bool) : SparesLane p k s (s.putOnFibre p j f nak) :=
  ⟨(lane_putOnFibre ..).1, (lane_putOnFibre ..).2, fun g i hg hi =>
    s.fld_putOnFibre p j f nak (fun h => hg (h ▸ List.mem_map_of_mem (by decide))) hp hi⟩

theorem launch (s : State) {j : Nat} (hj : j ≠ k) (f : Frame) (mode : Nat) : SparesLane p k s (s.launch p j f mode) := by
  have hflip : ∀ t : State, SparesLane p k t (t.modPort p Port.flipLast) := fun t => by
    have hlanes : ((t.port p).flipLast).lanes = (t.port p).lanes := by
      unfold Port.flipLast
      split <;> rfl
    exact .setPort (by rw [Port.lane, hlanes]; rfl) (by rw [Port.lane, hlanes]; rfl)
  unfold State.launch
  extract_lets x l f keep kept
  have hkept : SparesLane p k s kept := .setLane s hj _
  split
  · exact hkept.trans (.setLane kept hj _)
  · split
    · exact hkept.trans ((putOnFibre hp ..).trans (hflip _))
    · exact hkept.trans (putOnFibre hp ..)

omit hp in
theorem injSelect (s : State) (j : Nat) (f : Frame) : SparesLane p k s (s.injSelect p j f).1 := by
  have hcount : ∀ n, SparesLane p k s (s.modPort p fun x => { x with injCount := n }) := fun n => .setPort rfl rfl
  unfold State.injSelect
  split
  · exact refl s
  · extract_lets n
    split
    · have hfields : ∀ t v, SparesLane p k t ((t.setFld .fltHnxCtrlCount 0 v).bump .fltHnxCntDone) := fun t v =>
        (setFld t v (by decide) (by decide)).trans (bump _ 1 (by decide) (by decide))
      exact (hcount 0).trans (hfields _ _)
    · exact hcount n

theorem injRelease (s : State) {j : Nat} (hj : j ≠ k) : SparesLane p k s (s.injRelease p j) := by
  unfold State.injRelease
  extract_lets x h ready due taken
  have htaken : SparesLane p k s taken := .setPort rfl rfl
  have hsent : ∀ (t : State) (e : Nat × Nat × Frame), SparesLane p k t (t.launch p j e.2.2 0) := fun t e =>
    launch hp t hj e.2.2 0
  exact htaken.trans (forEach hsent due taken)

theorem transmit (s : State) {j : Nat} (hj : j ≠ k) (f : Frame) : SparesLane p k s (s.transmit p j f) := by
  unfold State.transmit
  extract_lets r mode
  have hr : SparesLane p k s r.1 := injSelect s j f
  split
  · exact hr
  · split
    · exact hr.trans (.setPort rfl rfl)
    · exact hr.trans ((launch hp _ hj ..).trans (injRelease hp _ hj))

/-- A lane in retraining is not sent on, so it is spared (R260). -/
theorem pump (n : Nat) (s : State) (hout : ((s.port p).lane k).retraining = true) : SparesLane p k s (s.pump p n) := by
  induction n generalizing s with
  | zero => exact refl s
  | succ n ih =>
    unfold State.pump
    extract_lets x
    split
    · exact refl s
    · split
      · exact refl s
      · split
        · exact refl s
        · next q _ j hpicked =>
          extract_lets f c i taken sent settled
          have hj : j ≠ k := by
            rintro rfl
            rw [Port.pickLane_retraining hpicked] at hout
            exact Bool.false_ne_true hout
          have hsent : SparesLane p k s sent :=
            .trans (t := s.setPort p taken) (.setPort rfl rfl) (transmit hp _ hj _)
          have hsettled : SparesLane p k s settled := by
            simp only [settled]
            split
            · exact hsent
            · exact hsent.trans (giveCredit ..)
          exact hsettled.trans (ih settled (hsettled.retraining.trans hout))

end

end SparesLane

/-- A lane in retraining holds no frame: what it held has gone to the other lanes (R260). -/
theorem State.retrainLane_outcome (s : State) {p : Nat} (k : Nat) (hp : p < 4096) :
    (((s.retrainLane p k).port p).lane k).retraining = true ∧ (((s.retrainLane p k).port p).lane k).retry = [] ∧
    (s.retrainLane p k).fld .hnxLaneCntRetrains p =
      min (s.fld .hnxLaneCntRetrains p + 1) (2 ^ Fld.hnxLaneCntRetrains.width - 1) ∧
    ∀ (f : Fld) (i : Nat), f.place ∉ (.hnxLaneCntRetrains :: sendFields).map Fld.place → i < 4096 →
      (s.retrainLane p k).fld f i = s.fld f i := by
  unfold State.retrainLane
  extract_lets lane out
  have hlane : ((out.bump .hnxLaneCntRetrains p).port p).lane k =
      { Lane.reset with retraining := true, retrainFails := ((s.port p).lane k).retrainFails } := by
    rw [State.port_bump, State.port_modPort_same, Port.lane_setLane, if_pos rfl]
  have hpump : SparesLane p k (out.bump .hnxLaneCntRetrains p) ((out.bump .hnxLaneCntRetrains p).pumpPort p) :=
    .pump hp _ _ (by rw [hlane])
  refine ⟨by rw [hpump.retraining, hlane], by rw [hpump.retry, hlane]; rfl, ?_, fun f i hf hi => ?_⟩
  · rw [hpump.fld _ _ (by decide) hp]
    exact State.fld_bump_same _ _ _ _ (by decide)
  · rw [List.map_cons, List.mem_cons, not_or] at hf
    rw [hpump.fld f i hf.2 hi, State.fld_bump_ne _ _ _ _ _ _ (Fld.key_ne hf.1)]
    rfl

/-! ## Replays (R264) -/

/-- A number that each update of a repeat raises by 1 up to `M`. -/
theorem forEach_count {α : Type} {f : State → α → State} {v : State → Nat} {M : Nat}
    (hf : ∀ s a, v (f s a) = min (v s + 1) M) (l : List α) (s : State) (hl : l ≠ []) :
    v (forEach l f s) = min (v s + l.length) M := by
  induction l generalizing s with
  | nil => exact absurd rfl hl
  | cons a l ih =>
    change v (forEach l f (f s a)) = _
    obtain rfl | hmore := eq_or_ne l []
    · exact hf s a
    · rw [ih _ hmore, hf, List.length_cons]
      omega

/-- Frames go out again on a lane, and are counted. -/
def State.resend (s : State) (p k : Nat) (l : List Frame) : State :=
  forEach l (fun s f => (s.putOnFibre p k f false).bump .hnxRetryCntReplayed p) s

section
variable (s : State) (p k : Nat) (l : List Frame)

theorem State.resend_cons (f : Frame) :
    s.resend p k (f :: l) = ((s.putOnFibre p k f false).bump .hnxRetryCntReplayed p).resend p k l := by
  simp only [State.resend, forEach, List.foldl_cons]

theorem State.resend_port : ∃ owed fs, ((s.resend p k l).port p).lane k = { (s.port p).lane k with owed := owed } ∧
    ((s.resend p k l).port p).out = fs ++ (s.port p).out ∧ fs.length = l.length ∧ ∀ e ∈ fs, e.1 = k := by
  induction l generalizing s with
  | nil => exact ⟨((s.port p).lane k).owed, [], rfl, rfl, rfl, by simp⟩
  | cons f l ih =>
    rw [State.resend_cons]
    obtain ⟨g, owed, hport⟩ := s.port_putOnFibre p k f false
    obtain ⟨owed', fs, hlane, hout, hlength, hfs⟩ := ih ((s.putOnFibre p k f false).bump .hnxRetryCntReplayed p)
    have hsent : (((s.putOnFibre p k f false).port p).lane k) = { (s.port p).lane k with owed := false } := by
      rw [hport]
      exact (Port.lane_setLane ..).trans (if_pos rfl)
    refine ⟨owed', fs ++ [(k, g)], ?_, ?_, by simp [hlength], ?_⟩
    · rw [hlane, State.port_bump, hsent]
    · rw [hout, State.port_bump, hport, List.append_assoc, List.singleton_append]
    · simpa [or_imp, forall_and] using hfs

variable {p} (hp : p < 4096)
include hp

theorem State.resend_count (hl : l ≠ []) : (s.resend p k l).fld .hnxRetryCntReplayed p =
    min (s.fld .hnxRetryCntReplayed p + l.length) (2 ^ Fld.hnxRetryCntReplayed.width - 1) := by
  refine forEach_count (v := fun t => t.fld .hnxRetryCntReplayed p) (fun t f => ?_) l s hl
  rw [State.fld_bump_same _ _ _ _ (by decide), t.fld_putOnFibre p k f false (by decide) hp hp]

theorem State.fld_resend {g : Fld} {i : Nat} (hg : g.place ∉ [Fld.hnxRetryCntReplayed, .hnxTxFramesCount].map Fld.place)
    (hi : i < 4096) : (s.resend p k l).fld g i = s.fld g i := by
  simp only [List.map_cons, List.map_nil, List.mem_cons, List.not_mem_nil, or_false, not_or] at hg
  refine forEach_view (fun t => t.fld g i) l _ (fun t f => ?_) s
  exact (State.fld_bump_ne _ _ _ _ _ _ (Fld.key_ne hg.1)).trans (t.fld_putOnFibre p k f false hg.2 hp hi)

end

/-- The state after a replay of a lane: every frame of its retry buffer has gone out once more. -/
def State.replayed (s : State) (p k : Nat) : State :=
  (s.resend p k ((s.port p).lane k).retry).modPort p fun x =>
    x.setLane k { x.lane k with tries := ((s.port p).lane k).tries.map (· + 1) }

/-- A replay that is the eighth of a frame retrains the lane (R260). -/
theorem State.replay_eq {s : State} {p k : Nat} (hretry : ((s.port p).lane k).retry ≠ []) : s.replay p k =
    if ((s.port p).lane k).tries.any (fun n => decide (8 ≤ n + 1)) then (s.replayed p k).retrainLane p k
    else s.replayed p k := by
  unfold State.replay
  extract_lets l sent tried
  rw [if_neg (by simpa using hretry)]
  rfl

section
variable {s : State} {p k : Nat} (hretry : ((s.port p).lane k).retry ≠ [])
include hretry

theorem State.replay_again (htries : ((s.port p).lane k).tries.all (fun n => decide (n < 7)) = true) :
    s.replay p k = s.replayed p k := by
  rw [State.replay_eq hretry, if_neg]
  simp only [List.all_eq_true, List.any_eq_true, decide_eq_true_eq, not_exists, not_and] at htries ⊢
  intro n hn
  have := htries n hn
  omega

theorem State.replay_eighth (htries : ((s.port p).lane k).tries.any (fun n => decide (7 ≤ n)) = true) :
    s.replay p k = (s.replayed p k).retrainLane p k := by
  rw [State.replay_eq hretry, if_pos]
  simpa only [Nat.reduceLeDiff, Nat.add_le_add_iff_right] using htries

end

theorem State.fld_replayed (s : State) {p : Nat} (k : Nat) (g : Fld) (i : Nat) :
    (s.replayed p k).fld g i = (s.resend p k ((s.port p).lane k).retry).fld g i := rfl

theorem State.replayed_port (s : State) (p k : Nat) : ((s.replayed p k).port p).lane k =
    { (s.resend p k ((s.port p).lane k).retry |>.port p).lane k with tries := ((s.port p).lane k).tries.map (· + 1) } ∧
    ((s.replayed p k).port p).out = ((s.resend p k ((s.port p).lane k).retry).port p).out := by
  rw [State.replayed, State.port_modPort_same]
  exact ⟨(Port.lane_setLane ..).trans (if_pos rfl), rfl⟩

/-! ## Frames lost with their port (R260, R276) -/

/-- From `s` to `t` the ports, and whether DEV_STATUS_CHG.HNX is set, are the same. -/
structure SparesPorts (s t : State) : Prop where
  ports : t.ports = s.ports
  chg : t.fld .devStatusChgHnx = s.fld .devStatusChgHnx

namespace SparesPorts

theorem refl (s : State) : SparesPorts s s := ⟨rfl, rfl⟩

theorem trans {s t u : State} (h : SparesPorts s t) (g : SparesPorts t u) : SparesPorts s u :=
  ⟨g.ports.trans h.ports, g.chg.trans h.chg⟩

theorem ite {s t u : State} {c : Prop} [Decidable c] (ht : SparesPorts s t) (hu : SparesPorts s u) :
    SparesPorts s (if c then t else u) := by split <;> assumption

theorem forEach {α : Type} {f : State → α → State} (hf : ∀ s a, SparesPorts s (f s a)) (l : List α) (s : State) :
    SparesPorts s (forEach l f s) := by
  induction l generalizing s with
  | nil => exact refl s
  | cons a l ih => exact (hf s a).trans (ih _)

end SparesPorts

theorem Delivers.sparesPorts {s t : State} (h : Delivers s t) : SparesPorts s t where
  ports := by
    obtain ⟨_, _, _, _, _, _, _, rfl⟩ := h.rest
    rfl
  chg := h.fld _ _ (by decide) (by decide)

namespace State

variable (s : State)

theorem bump_sparesPorts {f : Fld} (hf : f.place ≠ Fld.devStatusChgHnx.place) : SparesPorts s (s.bump f) :=
  ⟨rfl, State.fld_bump_ne _ _ _ _ _ _ (Fld.key_ne hf.symm)⟩

theorem event_sparesPorts (ev : Ev) (uk : UnitKind) (u c : Nat) (ps : List Nat) : SparesPorts s (s.event ev uk u c ps) :=
  ⟨by simp, State.fld_event (Fld.key_event (by decide))⟩

theorem ctxFault_sparesPorts (c code step thread : Nat) (uk : UnitKind) (uid ctr : Nat) :
    SparesPorts s (s.ctxFault c code step thread uk uid ctr) := by
  unfold State.ctxFault
  extract_lets x live faulted counted
  have hcounted : SparesPorts s counted := .trans (t := faulted) ⟨rfl, rfl⟩ (bump_sparesPorts faulted (by decide))
  exact .ite ((hcounted.trans (event_sparesPorts ..)).trans (putStatus_delivers _ c).sparesPorts) (.refl s)

theorem dropSteps_sparesPorts (t : Nat) (uid : Option Nat) : SparesPorts s (s.dropSteps t uid) :=
  ⟨by simp [State.dropSteps, State.dropStreams], State.fld_congr (by simp [State.dropSteps, State.dropStreams]) _ _⟩

theorem sentFault_sparesPorts (u : Sent) (code : Nat) : SparesPorts s (s.sentFault u code) := by
  unfold State.sentFault
  extract_lets faulted
  have hfaulted : SparesPorts s faulted := ctxFault_sparesPorts ..
  exact .ite (hfaulted.trans (dropSteps_sparesPorts ..)) hfaulted

theorem setSrcFlow_sparesPorts (e : SrcFlow) : SparesPorts s (s.setSrcFlow e) := ⟨rfl, State.fld_congr rfl _ _⟩

theorem dropLate_sparesPorts (dst flow : Nat) (q : BitVec 32) : SparesPorts s (s.dropLate dst flow q) :=
  ⟨rfl, State.fld_congr rfl _ _⟩

theorem loseSent_sparesPorts (e : SrcFlow) (u : Sent) : SparesPorts s (s.loseSent e u) := by
  unfold State.loseSent
  extract_lets entry dropped counted logged
  have hdropped : SparesPorts s dropped := s.setSrcFlow_sparesPorts _
  have hcounted : SparesPorts s counted :=
    (hdropped.trans (dropped.dropLate_sparesPorts ..)).trans (bump_sparesPorts _ (by decide))
  exact .ite (hcounted.trans (sentFault_sparesPorts ..)) ((hcounted.trans (event_sparesPorts ..)).trans ⟨rfl, rfl⟩)

theorem ownFailed_sparesPorts (f : Frame) : SparesPorts s (s.ownFailed f) := by
  unfold State.ownFailed
  split
  · exact .refl s
  · dsimp only
    split
    · exact .refl s
    · split
      · exact .refl s
      · exact loseSent_sparesPorts ..

theorem loseRetry_sparesPorts (x : Port) : SparesPorts s (s.loseRetry x) :=
  .forEach (fun s f => .ite (s.ownFailed_sparesPorts f) (.refl s)) _ s

/-- An ACTIVE port that goes down with nothing waiting for it (R254, R260). -/
theorem portDown_outcome {p : Nat} (st : PortState) (hactive : (s.port p).state = .active) (hqueue : (s.port p).queue = []) :
    ((s.portDown p st).port p).state = st ∧ ((s.portDown p st).port p).lanesUp = 0 ∧
    (s.portDown p st).flag .devStatusChgHnx = true := by
  unfold State.portDown
  extract_lets x reset down marked lost
  have hmarked : marked = down.markChg 6 := if_pos hactive
  have hlost : SparesPorts marked lost := marked.loseRetry_sparesPorts x
  have hempty : x.queue = [] := hqueue
  have hport : lost.port p = { Port.reset with state := st, peerDev := x.peerDev, peerPort := x.peerPort, out := x.out } := by
    rw [State.port_congr hlost.ports, hmarked, State.port_markChg]
    exact State.port_setPort_same ..
  rw [hempty, forEach, List.foldl_nil]
  change (lost.port p).state = st ∧ (lost.port p).lanesUp = 0 ∧ lost.flag .devStatusChgHnx = true
  refine ⟨by rw [hport], by rw [hport]; rfl, ?_⟩
  have hset : lost.fld .devStatusChgHnx = 1 := hlost.chg.trans (hmarked ▸ State.fld_markChg_same down 6)
  rw [State.flag, hset]
  rfl

end State

/-! ## The commands -/

theorem exec_retryTimeout {p k : Fin 8} {s : State} (hactive : (s.port p).state = .active)
    (hup : (s.port p).upLanes.contains k.val = true) : exec (.retryTimeout p k) s = .next (s.replay p k) := by
  change execRetryTimeout p k s = _
  simp only [execRetryTimeout, hactive, hup]
  rfl

theorem exec_retryTimeout_nothing {p k : Fin 8} {s : State} (hnone : ((s.port p).lane k).retry = []) :
    exec (.retryTimeout p k) s = .next s := by
  have hreplay : s.replay p k = s := by
    rw [State.replay, hnone]
    rfl
  change execRetryTimeout p k s = _
  simp only [execRetryTimeout, hreplay, ite_self]

/-- The port without one of its lanes, which stays down (R260). -/
def Port.withoutLane (x : Port) (k : Fin 8) : Port :=
  { x.setLane k { Lane.reset with heldDown := true } with lanesUp := x.lanesUp &&& ~~~(BitVec.ofNat 8 (2 ^ k.val)) }

/-- A codeword that can't be decoded, counted, on a lane (R256). -/
def State.codewordLost (s : State) (p k : Nat) : State :=
  (s.setPort p ((s.port p).setLane k { (s.port p).lane k with
    badWords := ((s.port p).lane k).badWords + 1, deaf := true })).bump .hnxLaneCntFecUncorr p

section
variable {p k : Fin 8} {s : State} (o : BitVec 7) (hactive : (s.port p).state = .active)
include hactive

section
variable (hup : (s.port p).upLanes.contains k.val = true)
include hup

theorem exec_codewordReceived_clean : exec (.codewordReceived p k o .clean) s = .next (s.setPort p
    ((s.port p).setLane k { (s.port p).lane k with
      badWords := 0, deaf := ((s.port p).lane k).deaf && decide (80 ≤ o.toNat) })) := by
  change execCodewordReceived p k o .clean s = _
  simp only [execCodewordReceived, hactive, hup]
  rfl

theorem exec_codewordReceived_corrected : exec (.codewordReceived p k o .corrected) s = .next ((s.setPort p
    ((s.port p).setLane k { (s.port p).lane k with
      badWords := 0, deaf := ((s.port p).lane k).deaf && decide (80 ≤ o.toNat) })).bump .hnxLaneCntFecCorr p) := by
  change execCodewordReceived p k o .corrected s = _
  simp only [execCodewordReceived, hactive, hup]
  rfl

theorem exec_codewordReceived_uncorrectable : exec (.codewordReceived p k o .uncorrectable) s = .next
    (if 16 ≤ ((s.port p).lane k).badWords + 1 then (s.codewordLost p k).retrainLane p k else s.codewordLost p k) := by
  change execCodewordReceived p k o .uncorrectable s = _
  simp only [execCodewordReceived, hactive, hup]
  rfl

end

section
variable (hretraining : ((s.port p).lane k).retraining = true)
include hretraining

theorem exec_laneRetrainDone_up (hqueue : (s.port p).queue = []) (hcalm : s.Calm) :
    exec (.laneRetrainDone p k true) s = .next (s.setPort p ((s.port p).setLane k Lane.reset)) := by
  have hpump : (s.setPort p ((s.port p).setLane k Lane.reset)).pumpPort p =
      s.setPort p ((s.port p).setLane k Lane.reset) := by
    have hnone : ((s.setPort p ((s.port p).setLane k Lane.reset)).port p).queue = [] := by
      rw [State.port_setPort_same]
      exact hqueue
    rw [State.pumpPort, hnone]
    rfl
  change execLaneRetrainDone p k true s = _
  simp only [execLaneRetrainDone, hactive, hretraining, hpump, State.pumpMc_calm (hcalm.tx (State.setPort_hnx ..))]
  rfl

theorem exec_laneRetrainDone_failedOnce (hfails : ((s.port p).lane k).retrainFails = 0) :
    exec (.laneRetrainDone p k false) s = .next ((s.setPort p
      ((s.port p).setLane k { (s.port p).lane k with retrainFails := 1 })).bump .hnxLaneCntRetrains p) := by
  change execLaneRetrainDone p k false s = _
  simp only [execLaneRetrainDone, hactive, hretraining, hfails]
  rfl

theorem exec_laneRetrainDone_failedTwice (hfails : ((s.port p).lane k).retrainFails ≠ 0) :
    exec (.laneRetrainDone p k false) s = .next (if (s.port p).lanesUp &&& ~~~(BitVec.ofNat 8 (2 ^ k.val)) = 0 then
      (s.setPort p ((s.port p).withoutLane k)).portDown p .failed else s.setPort p ((s.port p).withoutLane k)) := by
  change execLaneRetrainDone p k false s = _
  simp only [execLaneRetrainDone, hactive, hretraining, hfails]
  exact (apply_ite Host.Outcome.next _ _ _).symm

end

end

section
variable {p : Fin 8} {c : Fin 4} {b : Fin 2} {s : State}

/-- A class of either set is logged once on a version 2 link (R270). -/
theorem exec_hnxStall_noCredit (hactive : (s.port p).state = .active) (hversion : (s.port p).version = 2)
    (hcredit : (s.port p).credits.getD (creditIdx c b) 0 = 0)
    (hstalled : (s.port p).stalled.getD (creditIdx c b) false = false) : exec (.hnxStall p c b) s =
      .next (((s.setPort p { s.port p with stalled := (s.port p).stalled.set (creditIdx c b) true }).event .hnxStall .port p
        noCtx [c.val]).bump .hnxPortEvtStalls p) := by
  change execHnxStall p c b s = _
  simp only [execHnxStall, hactive, hversion, hcredit, hstalled]
  rfl

theorem exec_hnxStall_credit (hcredit : (s.port p).credits.getD (creditIdx c b) 0 ≠ 0) :
    exec (.hnxStall p c b) s = .next s := by
  have hheld : decide ((s.port p).credits.getD (creditIdx c b) 0 ≠ 0) = true := decide_eq_true hcredit
  change execHnxStall p c b s = _
  simp only [execHnxStall, hheld, Bool.or_true, Bool.true_or, if_true]

end

/-- Settles O46: a lane that is retrained is left alone by what its port then sends; a replay puts each frame of the retry
buffer on the fibre once, and its eighth retrains the lane; frames that a port loses as it fails leave the ports alone. -/
theorem laneRecovery : Obligations.LaneRecovery := by
  refine ⟨fun p k o s hactive hup =>
      ⟨exec_codewordReceived_clean o hactive hup, exec_codewordReceived_corrected o hactive hup, fun hbad => ?counted,
        fun hbad => .of (exec_codewordReceived_uncorrectable o hactive hup) ?sixteenth⟩,
    fun p k s hactive hretraining hqueue hwaits htree =>
      ⟨exec_laneRetrainDone_up hactive hretraining hqueue ⟨hwaits, htree⟩,
        exec_laneRetrainDone_failedOnce hactive hretraining, fun hfails hup => ?down,
        fun hfails hup => .of (exec_laneRetrainDone_failedTwice hactive hretraining hfails) ?failed⟩,
    fun p k s hactive hup hretry htries => .of (exec_retryTimeout hactive hup) ?replayed,
    fun p k s => exec_retryTimeout_nothing, fun p c b s => exec_hnxStall_noCredit, fun p c b s => exec_hnxStall_credit,
    fun p k s hactive hup hretry htries => .of (exec_retryTimeout hactive hup) ?eighth⟩
  case counted =>
    rw [exec_codewordReceived_uncorrectable o hactive hup, if_neg (by omega)]
    rfl
  case sixteenth =>
    rw [if_pos (by omega)]
    obtain ⟨hretraining, hempty, hcount, hfld⟩ := (s.codewordLost p k).retrainLane_outcome k (p := p) (by omega)
    refine ⟨hretraining, hempty, hcount.trans ?_, (hfld _ _ (by decide) (by omega)).trans ?_⟩
    · rw [State.codewordLost, State.fld_bump_ne _ _ _ _ _ _ (Fld.key_ne (by decide))]
      rfl
    · exact State.fld_bump_same _ _ _ _ (by decide)
  case down =>
    rw [exec_laneRetrainDone_failedTwice hactive hretraining hfails, if_neg hup]
    rfl
  case failed =>
    rw [if_pos hup]
    exact State.portDown_outcome _ .failed (by rw [State.port_setPort_same]; exact hactive)
      (by rw [State.port_setPort_same]; exact hqueue)
  case replayed =>
    have hframe := (TxAt.replay p s k).eq
    rw [State.replay_again hretry htries] at hframe ⊢
    obtain ⟨owed, fs, hlane, hout, hlength, hfs⟩ := s.resend_port p k ((s.port p).lane k).retry
    obtain ⟨hlane', hout'⟩ := s.replayed_port p k
    rw [hlane] at hlane'
    refine ⟨hframe, by rw [hlane'], by rw [hlane'], ⟨fs, hout'.trans hout, hlength, hfs⟩, ?_⟩
    exact s.resend_count k _ (by omega) hretry
  case eighth =>
    have hmem := (TxAt.replay p s k).mem
    rw [State.replay_eighth hretry htries] at hmem ⊢
    obtain ⟨hretraining, hempty, hcount, -⟩ := (s.replayed p k).retrainLane_outcome k (p := p) (by omega)
    refine ⟨hretraining, hempty, hcount.trans ?_, hmem⟩
    rw [State.fld_replayed, State.fld_resend _ _ _ (by omega) (by decide) (by omega)]
    rfl

end Sys2Proof.Machine
end

section
/-! PROOFS. Where four statements on the fabric fail: a port that times out in training with frames in its retry buffers (R260),
a profile change that opens a bound flow (R280, R286), a frame on a lane that is deaf after a codeword it discarded (R256), and
MC_PRUNE where the link upstream is a version 1 link (R259). -/

namespace Sys2Proof.Machine

/-! ## A training port that still holds a frame -/

/-- The WRITE numbered 1, without data, of flow 5 from device 0 to device 1 (R261, R262). -/
def keptWrite : Frame :=
  { hdr := BitVec.ofNat 256 (2 + 2 * 2 ^ 4 + 1 * 2 ^ 103 + 5 * 2 ^ 118 + 1 * 2 ^ 130), payload := [], crc := 0 }

/-- Device 0, whose port 0 trains while the retry buffer of lane 0 holds a frame that `unansweredFlow` waits to have
acknowledged. -/
def trainingWithRetry : State :=
  { State.reset with
    boot := { State.reset.boot with on := true, stage := 5 }
    ports := [(0, { Port.reset with state := .training, lanes := [(0, { Lane.reset with retry := [keptWrite], tries := [0] })] })]
    hnx := { Hnx.reset with src := [unansweredFlow] } }

/-- The frame is lost beyond retry, and counted. -/
theorem portTrainingTimeout_trainingWithRetry : (nextState (exec (.portTrainingTimeout 0) trainingWithRetry)).map
    (·.fld .hnxFlowCntLostTx) = some 1 := by decide +kernel

/-- Refutes O45 in its clause on PORT_TRAINING_TIMEOUT, by which nothing but the port's own record changes. Its hypotheses ask
for an empty queue and say nothing of the retry buffers: in `trainingWithRetry` the port that becomes FAILED loses what they
held (R260). -/
theorem not_portTraining : ¬ Obligations.PortTraining := by
  unfold Obligations.PortTraining
  rintro ⟨-, -, -, -, -, htimeout, -⟩
  have hlost := portTrainingTimeout_trainingWithRetry
  rw [htimeout 0 trainingWithRetry (by decide) (by decide) rfl] at hlost
  exact absurd hlost (by decide)

/-! ## A profile with a bound flow -/

/-- A profile whose one group has its source here and binds flow 6 (R279). -/
def boundProfile : Profile :=
  { fibre := [], dateline := [], routes := [], v1 := []
    groups := [{ id := 9, upstream := none, down := [], member := false, beneath := [], flows := [6] }] }

/-- The running device, with that profile to choose. -/
def profileOffered : State :=
  { State.reset with
    boot := { State.reset.boot with on := true, stage := 5 }
    cfg := { Configuration.unset with profiles := [boundProfile] } }

/-- The bound flow has been opened. -/
theorem profileChange_profileOffered : (nextState (exec (.profileChange .i3c 0) profileOffered)).map
    (·.hnx.src.map fun e => (e.flow, e.mc)) = some [(6, some 9)] := by decide +kernel

/-- Refutes O47 in its clause on a profile that is selected, by which no source entry is opened: with `boundProfile` the source
opens the flow bound to its group, to send MC_OPEN on it (R280, R286). -/
theorem not_fabricControl : ¬ Obligations.FabricControl := by
  unfold Obligations.FabricControl
  rintro ⟨hselected, -⟩
  obtain ⟨t, ht, -, -, -, -, hsrc, -⟩ := (hselected .i3c 0 profileOffered rfl rfl rfl rfl (by decide) (by decide) (by decide)
    rfl).nextState
  have hopened : (t.hnx.src.map fun e => (e.flow, e.mc)) = [(6, some 9)] := nextState_view ht profileChange_profileOffered
  rw [hsrc] at hopened
  exact absurd hopened (by decide)

/-! ## A deaf lane -/

/-- An IDLE frame whose link CRC is wrong. -/
def brokenIdle : Frame := { hdr := 0, payload := [], crc := 0 }

/-- Port 0 is ACTIVE with lane 0 up, which has discarded a codeword and decoded none since. -/
def deafLane : State :=
  { State.reset with
    boot := { State.reset.boot with on := true, stage := 5 }
    ports := [(0, { Port.reset with
      state := .active, version := 2, lanesUp := 1, lanes := [(0, { Lane.reset with badWords := 1, deaf := true })] })] }

/-- The frame overlaps the discarded codeword: no NAK answers it. -/
theorem idle_deafLane : (nextState (exec (.idle 0 0 brokenIdle) deafLane)).map (fun t => (t.port 0).out) = some [] := by
  decide +kernel

/-- Refutes O48 in its clause on a frame with a bad link CRC, which any lane that is up answers with a NAK: the lane of
`deafLane` takes no frame at all before a codeword that it can decode (R256). -/
theorem not_frameReception : ¬ Obligations.FrameReception := by
  unfold Obligations.FrameReception
  rintro ⟨-, -, hdiscarded, -⟩
  have hsilent := idle_deafLane
  rw [hdiscarded (.idle 0 0 brokenIdle) 0 0 brokenIdle deafLane (.inl rfl) (by decide) rfl (by decide) (by decide) (by decide)
    (.inl (by decide +kernel))] at hsilent
  exact absurd hsilent (by decide +kernel)

/-! ## A version 1 link upstream -/

/-- MC_PRUNE for group 9 (R262). -/
def pruneOfGroup : Frame :=
  let f : Frame := { hdr := BitVec.ofNat 256 (13 + 9 * 2 ^ 210), payload := [], crc := 0 }
  { f with crc := linkCrc f }

/-- Group 9 at a device that relays it: port 0 leads on, port 1 upstream. -/
def relayedGroup : Group := { id := 9, upstream := some 1, down := [0], member := false, beneath := [], flows := [] }

/-- That device; port 0 has a version 2 link, port 1 a version 1 link. -/
def upstreamV1 : State :=
  { State.reset with
    boot := { State.reset.boot with on := true, stage := 5 }
    cfg := { Configuration.unset with profiles := [{ boundProfile with groups := [relayedGroup] }] }
    ports := [(0, { Port.reset with state := .active, version := 2, lanesUp := 1 }),
              (1, { Port.reset with state := .active, version := 1, lanesUp := 1 })] }

theorem pruneOfGroup_arrives : Arrives upstreamV1 0 0 pruneOfGroup where
  on := rfl
  active := by decide
  lane := by decide
  hears := by decide
  crc := by decide +kernel
  next := .inr (by decide +kernel)
  waits := rfl
  tree := by decide

/-- Nothing waits to go upstream. -/
theorem mcPrune_upstreamV1 : (nextState (exec (.mcPrune 0 0 pruneOfGroup) upstreamV1)).map (fun t => (t.port 1).queue) =
    some [] := by decide +kernel

/-- Refutes O51 in its clause on MC_PRUNE at a device that is not the source, which passes it upstream over any link: a frame of
its TYPE is never sent on a version 1 link (R259), which the one of `upstreamV1` is. -/
theorem not_multicastTree : ¬ Obligations.MulticastTree := by
  unfold Obligations.MulticastTree
  rintro ⟨-, -, -, -, hpassed, -⟩
  obtain ⟨t, ht, -, hwaits⟩ := (hpassed 0 0 pruneOfGroup relayedGroup 1 upstreamV1 (by decide +kernel) pruneOfGroup_arrives
    (by decide) (by decide +kernel) rfl (by decide) (by decide) (by decide +kernel)).nextState
  have hnone : (t.port 1).queue = [] := nextState_view ht mcPrune_upstreamV1
  exact List.cons_ne_nil _ _ (hwaits.symm.trans hnone)

end Sys2Proof.Machine
end

section
/-! PROOFS. Honeycombs (R288, R290, R291): starts that end, power samples, and the bias as it ages. Those of the fabric, 8
and 9, have no lattice to act on. -/

namespace Sys2Proof.Machine

/-! ## States of honeycombs -/

/-- A honeycomb that comes to light has no ports that go dark with it (R254). -/
theorem State.setCombSt_lit {s : State} {h : Nat} {st : CombState} (hst : (s.comb h).state ≠ st)
    (hlit : st = .ready ∨ st = .starting) :
    s.setCombSt h st = (s.modComb h fun x => { x with state := st }).sensorChange (48 + h) st.code := by
  simp [State.setCombSt, hst, hlit]

theorem State.reach_of_starting {s : State} {h : Nat} (hst : (s.comb h).state = .starting) : s.reach h = s := by
  simp [State.reach, hst]

/-- A honeycomb that is READY, its spacing locked (R288). -/
def Comb.readied (x : Comb) : Comb := { x with state := .ready, spacing := true, lowPower := false }

/-- A honeycomb that is ready, before its lattice acts on it. -/
def State.readied (s : State) (h : Nat) : State :=
  (s.setCombSt h .ready).modComb h fun x => { x with spacing := true, lowPower := false }

/-- A lattice whose search begins, its rings forgotten and its map of dead elements empty. -/
def State.searched (s : State) (l : Nat) : State := (s.setLat l { s.lat l with phase := 1, dem := [] }).clearRings l

theorem State.lat_searched (s : State) (l : Nat) : (s.searched l).lat l = { s.lat l with phase := 1, dem := [] } :=
  State.lat_setLat_same ..

theorem State.comb_searched (s : State) (l h : Nat) : (s.searched l).comb h = s.comb h := rfl

theorem State.readied_outcome {s : State} {h : Nat} (hst : (s.comb h).state = .starting) :
    s.readied h = { s with combs := (s.readied h).combs, mgmt := (s.readied h).mgmt } ∧
    (s.readied h).comb h = (s.comb h).readied ∧ ∀ k ≠ h, (s.readied h).comb k = s.comb k := by
  unfold State.readied
  rw [State.setCombSt_lit (by simp [hst]) (.inl rfl)]
  refine ⟨?_, by simp [Comb.readied], fun k hk => by simp [hk]⟩
  obtain ⟨M, hM⟩ := (s.modComb h fun x => { x with state := .ready }).sensorChange_frame (48 + h) CombState.ready.code
  rw [hM]
  rfl

/-! ## HONEYCOMB_READY and its timeout -/

section
variable {h : Fin 10} {s : State} (hst : (s.comb h).state = .starting)
include hst

theorem exec_honeycombReady_fabric (hfabric : 8 ≤ h.val) : exec (.honeycombReady h) s = .next (s.readied h) := by
  change execHoneycombReady h s = _
  simp [execHoneycombReady, State.reach_of_starting hst, State.combReady, hst, State.readied, Nat.not_lt.mpr hfabric]

/-- The lattice of a honeycomb that is ready begins its search: every cluster is asked for span HIGH (R296). -/
theorem exec_honeycombReady_lattice (hh : h.val < 8) (hsearch : (s.lat h).state = .searching) (hphase : (s.lat h).phase = 0) :
    exec (.honeycombReady h) s = .next (forEach (upTo 2048) (fun u k =>
      u.setCluster (h * 2048 + k) ((u.cluster (h * 2048 + k)).ask true)) ((s.readied h).searched h)) := by
  have hlat : (s.readied h).lat h = s.lat h := State.lat_congr (by rw [(State.readied_outcome hst).1]) _
  change execHoneycombReady h s = _
  unfold execHoneycombReady State.combReady
  rw [State.reach_of_starting hst, if_neg (by simp [hst])]
  extract_lets u x v
  have hx : x = s.lat h := hlat
  rw [if_pos (by simp [hx, hh, hsearch, hphase])]
  rfl

theorem exec_honeycombStartTimeout_fabric (hfabric : 8 ≤ h.val) : exec (.honeycombStartTimeout h) s =
    .next (((s.setCombSt h .failed).bump .tmpCombEventsStartFail h).event .tmpCombFail .comb h noCtx []) := by
  change execHoneycombStartTimeout h s = _
  simp [execHoneycombStartTimeout, State.reach_of_starting hst, hst, Nat.not_lt.mpr hfabric]

end

/-- Span requests change clusters alone. -/
theorem State.forEach_ask_frame (f : Nat → Nat) (l : List Nat) (s : State) :
    ∃ C, forEach l (fun u k => u.setCluster (f k) ((u.cluster (f k)).ask true)) s = { s with clusters := C } := by
  induction l generalizing s with
  | nil => exact ⟨_, rfl⟩
  | cons k l ih =>
    obtain ⟨C, hC⟩ := ih (s.setCluster (f k) ((s.cluster (f k)).ask true))
    exact ⟨C, hC⟩

/-! ## Bias and ageing (R291) -/

/-- A honeycomb's record at bias `v`. -/
def Comb.biased (x : Comb) (h v : Nat) : Comb :=
  { x with bias := v, wear := if Config.maxBias h = 0 then 0 else min 100 (v * 100 / Config.maxBias h),
           ageing := decide (0 < v) && decide (90 * Config.maxBias h ≤ 100 * v) }

/-- AGEING is set. -/
def Comb.ages (x : Comb) (h v : Nat) : Bool := (x.biased h v).ageing && !x.ageing

theorem State.setBias_eq (s : State) (h v : Nat) : s.setBias h v = if (s.comb h).ages h v then
    ((s.setComb h ((s.comb h).biased h v)).event .tmpCombAgeing .comb h noCtx []).setAlert 3
    else s.setComb h ((s.comb h).biased h v) := rfl

/-- What a change of bias leaves of the honeycombs, and what it leaves alone. -/
theorem State.setBias_outcome (s : State) (h v : Nat) : (s.setBias h v).comb h = (s.comb h).biased h v ∧
    (∀ k ≠ h, (s.setBias h v).comb k = s.comb k) ∧ (s.setBias h v).lats = s.lats ∧ (s.setBias h v).rings = s.rings ∧
    (s.setBias h v).mem = s.mem ∧
    ∀ (f : Fld) (i : Nat), f.place ∉ reportFields.map Fld.place → i < 4096 → (s.setBias h v).fld f i = s.fld f i := by
  rw [State.setBias_eq]
  split
  · refine ⟨by simp, fun k hk => by simp [hk], by simp, by simp, by simp, fun f i hf hi => ?_⟩
    rw [((State.event_spares ..).trans (State.setAlert_spares ..)).fld f i hf hi, State.fld_setComb]
  · exact ⟨by simp, fun k hk => by simp [hk], rfl, rfl, rfl, fun _ _ _ _ => rfl⟩

theorem exec_combRetry_failed {h : Fin 10} {s : State} (hfabric : 8 ≤ h.val) (hst : (s.comb h).state = .failed)
    (hon : s.boot.on = true) : exec (.combRetry h) s = .next (s.startComb h) := by
  change execCombRetry h s = _
  simp [execCombRetry, hfabric, hst, hon]

/-- A honeycomb that had failed starts: but for its bias, it is STARTING and its starts are counted. -/
theorem State.startComb_failed {s : State} {h : Nat} (hst : (s.comb h).state = .failed) :
    ∃ u : State, s.startComb h = u.setBias h (s.comb h).held ∧ u.comb h = { s.comb h with state := .starting } ∧
      (∀ k ≠ h, u.comb k = s.comb k) ∧ u.lats = s.lats ∧ u.mem = s.mem ∧
      u.fld .tmpCombEventsStarts h = min (s.fld .tmpCombEventsStarts h + 1) (2 ^ Fld.tmpCombEventsStarts.width - 1) := by
  refine ⟨_, by rw [State.startComb, State.setCombSt_lit (by simp [hst]) (.inr rfl)], by simp, fun k hk => by simp [hk],
    by simp, by simp, ?_⟩
  rw [State.fld_bump_same _ _ _ _ (by decide), State.fld_congr (s := s) (by simp)]

/-! ## Line power (R290) -/

/-- A drop at a honeycomb of the fabric: noted, and counted when it begins. -/
theorem State.lineDrop_fabric {s : State} {h : Nat} (hfabric : 8 ≤ h) (t0 : Nat) : s.lineDrop h t0 =
    if (s.comb h).lowPower then s.setComb h { s.comb h with lowPower := true }
    else (s.setComb h { s.comb h with lowPower := true }).bump .tmpCombEventsDrops h := by
  simp [State.lineDrop, Nat.not_lt.mpr hfabric, State.modComb]

theorem exec_linePowerComparator_fabric {h : Fin 10} {s : State} (hfabric : 8 ≤ h.val) (hst : (s.comb h).state = .ready)
    (hlow : (s.comb h).lowPower = false) : exec (.linePowerComparator h) s =
      .next ((s.setComb h { s.comb h with lowPower := true }).bump .tmpCombEventsDrops h) := by
  change execLinePowerComparator h s = _
  simp [execLinePowerComparator, hst, State.lineDrop_fabric hfabric, hlow]

/-- A honeycomb's record with a power sample. -/
def Comb.sampled (x : Comb) (p : List Int) (time : Nat) : Comb := { x with powers := p, lastSample := time }

section
variable {h : Fin 10} {p : List Int} {s : State}

theorem exec_linePowerSample_short (hlen : p.length ≠ 128) : exec (.linePowerSample h p) s = .refused .illFormed := by
  change execLinePowerSample h p s = _
  simp [execLinePowerSample, Instr.wf, hlen]

theorem exec_linePowerSample_offPhase (hlen : p.length = 128) (hphase : s.onPhase 1000000000 0 = false) :
    exec (.linePowerSample h p) s = .next s := by
  change execLinePowerSample h p s = _
  simp [execLinePowerSample, Instr.wf, hlen, hphase]

/-- Against set values of 0, a line has dropped where its reading is more than 1 dB below (R290). -/
theorem any_dropped_iff (hlen : p.length = 128) :
    ((p.zip (List.replicate 128 (0 : Int))).any fun e => decide (e.1 < e.2 - 100)) = true ↔ ∃ x ∈ p, x < -100 := by
  have hzip : p.zip (List.replicate p.length (0 : Int)) = p.map fun x => (x, 0) := by
    simpa using List.zip_map' (f := id) (g := fun _ => (0 : Int)) (l := p)
  rw [← hlen, hzip]
  simp

theorem exec_linePowerSample_fabric (hlen : p.length = 128) (hfabric : 8 ≤ h.val) (hst : (s.comb h).state = .ready)
    (hphase : s.onPhase 1000000000 0 = true) (hsets : s.cfg.lineSet.getD h [] = []) :
    exec (.linePowerSample h p) s = .next (if ∃ x ∈ p, x < -100 then
      (s.setComb h ((s.comb h).sampled p s.time)).lineDrop h (s.comb h).lastSample
      else (s.setComb h ((s.comb h).sampled p s.time)).modComb h fun x => { x with lowPower := false }) := by
  change execLinePowerSample h p s = _
  unfold execLinePowerSample
  rw [if_neg (by simp [Instr.wf, hlen]), if_neg (by simp [hst, hphase])]
  extract_lets t0 u sets v
  have hcomb : u.comb h = (s.comb h).sampled p s.time := State.comb_setComb_same ..
  have hnone : sets = [] := hsets
  rw [if_neg (by simp [hcomb, Comb.sampled, hst]), if_neg (Nat.not_lt.mpr hfabric), hnone]
  simp only [List.nil_append, List.length_nil, Nat.sub_zero, any_dropped_iff hlen]
  split <;> rfl

end

theorem tdel_tset {α : Type} [DecidableEq α] (d v : α) (t : Tbl α) (k : Nat) : tdel (tset d t k v) k = tdel t k := by
  have hins : ∀ u : Tbl α, tdel (tins k v u) k = tdel u k := fun u => by
    induction u with
    | nil => simp [tins, tdel]
    | cons e u ih =>
      have ih : (tins k v u).filter (fun e => e.1 != k) = u.filter fun e => e.1 != k := ih
      simp only [tins]
      split
      · simp [tdel]
      · simp [tdel, List.filter_cons, ih]
  have hdel : tdel (tdel t k) k = tdel t k := List.filter_filter.trans (by simp [tdel])
  unfold tset
  split
  · exact hdel
  · rw [hins, hdel]

/-- Of two writes at a key the later one stands. -/
theorem tset_tset {α : Type} [DecidableEq α] (d v w : α) (t : Tbl α) (k : Nat) :
    tset d (tset d t k v) k w = tset d t k w := by
  rw [tset, tdel_tset, tset]

theorem State.setComb_setComb (s : State) (h : Nat) (x y : Comb) : (s.setComb h x).setComb h y = s.setComb h y :=
  congrArg (fun C => { s with combs := C }) (tset_tset ..)

/-! ## Re-evaluation of the bias (R291) -/

/-- A honeycomb whose bias goes to `new`: journalled where it has changed. -/
def State.rebiased (s : State) (h new : Nat) : State :=
  if new = (s.comb h).bias then s
  else ((s.journal .laserBias [h, new]).modComb h fun x => { x with held := new }).setBias h new

theorem exec_biasReevaluation_ready {h : Fin 10} {s : State} (w a : Int) (b : Nat) (hst : (s.comb h).state = .ready)
    (hphase : s.onPhase 864000000000000 0 = true) :
    exec (.biasReevaluation h w b a) s = .next (
      let u := s.rebiased h (newBias (Config.maxBias h) (s.comb h).bias b w)
      if Config.maxBias h ≤ newBias (Config.maxBias h) (s.comb h).bias b w ∧ a < 0 then u.lineDrop h (u.comb h).lastSample
      else u) := by
  change execBiasReevaluation h w b a s = _
  unfold execBiasReevaluation State.rebiased
  rw [if_neg (by simp [hst, hphase])]
  simp only [Bool.and_eq_true, decide_eq_true_eq]
  split <;> rfl

/-- A honeycomb of the fabric that may have a line power drop, from `u` on: its LOW_POWER, the count of drops, no more. -/
theorem State.lineDrop_fabric_outcome {u t : State} {h : Nat} (hfabric : 8 ≤ h) (hh : h < 10) {c : Prop} [Decidable c]
    {t0 : Nat} (ht : t = if c then u.lineDrop h t0 else u) :
    (∃ C F, t = { u with combs := C, flds := F }) ∧
    t.comb h = { u.comb h with lowPower := decide c || (u.comb h).lowPower } ∧
    t.flag .evtAlertAgeing = u.flag .evtAlertAgeing := by
  rw [State.lineDrop_fabric hfabric] at ht
  subst ht
  split
  next hc =>
    have hflag : ∀ v : State, (v.bump .tmpCombEventsDrops h).flag .evtAlertAgeing = v.flag .evtAlertAgeing := fun v => by
      rw [State.flag, State.fld_bump_ne _ _ _ _ _ _ (Fld.key_ne (by decide)), State.flag]
    split
    · exact ⟨⟨_, _, rfl⟩, by simp [hc], rfl⟩
    · exact ⟨⟨_, _, rfl⟩, by simp [hc], hflag _⟩
  next hc => exact ⟨⟨_, _, rfl⟩, by simp [hc], rfl⟩

theorem State.flag_setAlert_same (s : State) (k : Nat) : (s.setAlert k).flag (alertFld k) = true := by
  have hplace : (alertFld k).place ≠ Fld.devStatusChgAlert.place := by
    unfold alertFld
    split <;> decide
  have hwidth : (alertFld k).width = 1 := by
    unfold alertFld
    split <;> rfl
  rw [State.flag, State.setAlert, State.fld_alertEdge (Fld.key_ne hplace),
    State.fld_setFld_same _ _ _ _ (by rw [hwidth]; decide), hwidth]
  rfl

/-- Where the bias is left, and what a re-evaluation leaves alone. -/
theorem State.rebiased_outcome (s : State) (h new : Nat) :
    ((s.rebiased h new).comb h).state = (s.comb h).state ∧ ((s.rebiased h new).comb h).bias = new ∧
    (s.rebiased h new).lats = s.lats ∧ (s.rebiased h new).rings = s.rings ∧ (s.rebiased h new).mem = s.mem ∧
    (new = (s.comb h).bias → (s.rebiased h new).jnl = s.jnl) := by
  unfold State.rebiased
  split
  next hsame => exact ⟨rfl, hsame.symm, rfl, rfl, rfl, fun _ => rfl⟩
  next hnew =>
    obtain ⟨hcomb, -, hlats, hrings, hmem, -⟩ :=
      ((s.journal .laserBias [h, new]).modComb h fun x => { x with held := new }).setBias_outcome h new
    refine ⟨by rw [hcomb]; simp [Comb.biased], by rw [hcomb]; rfl, hlats.trans ?_, hrings.trans ?_, hmem.trans ?_,
      fun hsame => absurd hsame hnew⟩
    all_goals simp

/-- A bias that has changed is journalled; AGEING follows it, and is an event where it was not set before. -/
theorem State.rebiased_changed {s : State} {h new : Nat} (hnew : new ≠ (s.comb h).bias) :
    ((s.rebiased h new).comb h).ageing = ((s.comb h).biased h new).ageing ∧
    ((s.comb h).ages h new = false → (s.rebiased h new).jnl = (s.journal .laserBias [h, new]).jnl) ∧
    ((s.comb h).ages h new = true → (s.rebiased h new).evHead = s.evHead + 1 ∧
      (s.rebiased h new).flag .evtAlertAgeing = true ∧ ((s.rebiased h new).log.map (·.code)).head? = some 0x0402) := by
  rw [State.rebiased, if_neg hnew]
  set u := (s.journal .laserBias [h, new]).modComb h fun x => { x with held := new } with hu
  have hcomb : u.comb h = { s.comb h with held := new } := by simp [hu]
  have hages : (u.comb h).ages h new = (s.comb h).ages h new := by rw [hcomb]; rfl
  refine ⟨by rw [(u.setBias_outcome h new).1, hcomb]; rfl, fun hquiet => ?_, fun hage => ?_⟩
  · rw [State.setBias_eq, if_neg (by simp [hages, hquiet])]
    simp [hu]
  · rw [State.setBias_eq, if_pos (by rw [hages, hage])]
    refine ⟨by simp [hu], State.flag_setAlert_same _ 3, ?_⟩
    rw [State.setAlert_log, State.event_newest]
    rfl

/-- Settles O52: of a honeycomb that starts, fails, is sampled or changes its bias little but its own record changes; the
lattice of one that is ready begins its search. -/
theorem honeycombs : Obligations.Honeycombs := by
  refine ⟨fun h s hfabric hst => ?ready, fun h s hh hst hsearch hphase => ?search,
    fun h s hfabric hst => exec_honeycombStartTimeout_fabric hst hfabric,
    fun h s hfabric hst hon => ?retry,
    fun h p s hlen => exec_linePowerSample_short hlen,
    fun h p s hlen hfabric hst hphase hsets hclear => ?clear,
    fun h s hfabric hst hlow => exec_linePowerComparator_fabric hfabric hst hlow,
    fun h w a b s hfabric hst hphase => ?bias,
    fun h p s hlen hfabric hst hphase hsets hdrop hlow => ?drop,
    fun h p s hlen hphase => exec_linePowerSample_offPhase hlen hphase⟩
  case ready =>
    obtain ⟨hframe, hcomb, hothers⟩ := State.readied_outcome hst
    exact ⟨_, exec_honeycombReady_fabric hst hfabric, hframe, hcomb, hothers⟩
  case search =>
    refine ⟨_, exec_honeycombReady_lattice hst hh hsearch hphase, ?_⟩
    obtain ⟨C, hC⟩ := State.forEach_ask_frame (h.val * 2048 + ·) (upTo 2048) ((s.readied h).searched h)
    rw [hC]
    obtain ⟨hframe, hcomb, -⟩ := State.readied_outcome hst
    have hlat : (s.readied h).lat h = s.lat h := State.lat_congr (by rw [hframe]) _
    have hbegun : ((s.readied h).searched h).lat h = { s.lat h with phase := 1, dem := [] } := by
      rw [State.lat_searched, hlat]
    have hready : ((s.readied h).searched h).comb h = (s.comb h).readied := by rw [State.comb_searched, hcomb]
    refine ⟨congrArg Comb.state hready, ?_, congrArg Lattice.phase hbegun, congrArg Lattice.dem hbegun⟩
    exact (congrArg Lattice.state hbegun).trans hsearch
  case retry =>
    refine ⟨_, exec_combRetry_failed hfabric hst hon, ?_⟩
    obtain ⟨u, hstart, hcomb, hothers, hlats, hmem, hcount⟩ := State.startComb_failed hst
    obtain ⟨hcomb', hothers', hlats', -, hmem', hfld⟩ := u.setBias_outcome h (s.comb h).held
    rw [hstart, hcomb', hcomb]
    exact ⟨rfl, rfl, (hfld _ _ (by decide) (by omega)).trans hcount, fun k hk => (hothers' k hk).trans (hothers k hk),
      hlats'.trans hlats, hmem'.trans hmem⟩
  case clear =>
    refine ⟨_, exec_linePowerSample_fabric hlen hfabric hst hphase hsets, ?_⟩
    rw [if_neg (by simpa using hclear)]
    exact ⟨rfl, by simp [Comb.sampled]⟩
  case drop =>
    rw [exec_linePowerSample_fabric hlen hfabric hst hphase hsets, if_pos hdrop, State.lineDrop_fabric hfabric]
    simp only [State.comb_setComb_same]
    rw [if_neg (by simp [Comb.sampled, hlow]), State.setComb_setComb]
    rfl
  case bias =>
    refine ⟨_, exec_biasReevaluation_ready w a b hst hphase, ?_⟩
    dsimp only
    set new := newBias (Config.maxBias h) (s.comb h).bias b w with hdef
    set u := s.rebiased h new with hu
    set t := if Config.maxBias h ≤ new ∧ a < 0 then u.lineDrop h (u.comb h).lastSample else u with ht
    obtain ⟨⟨C, F, hframe⟩, hcomb, hflag⟩ := State.lineDrop_fabric_outcome hfabric h.isLt ht
    clear_value t
    obtain ⟨hstate, hbias, hlats, hrings, hmem, hsame⟩ := s.rebiased_outcome h new
    have hbias : (t.comb h).bias = new := by rw [hcomb]; exact hbias
    have hageing : (t.comb h).ageing = (u.comb h).ageing := by rw [hcomb]
    refine ⟨by rw [hcomb]; exact hstate.trans hst, by rw [hframe]; exact hlats, by rw [hframe]; exact hrings,
      by rw [hframe]; exact hmem, ?value, fun hold => ?kept, fun hnew => ?changed, fun hweak hafter htop => ?low⟩
    case value => rw [hbias, hdef, newBias, min_comm b (s.comb h).bias, min_comm b (Config.maxBias h)]
    case kept =>
      rw [hframe]
      exact hsame (hbias.symm.trans hold)
    case changed =>
      rw [hbias] at hnew
      obtain ⟨haged, hquiet, hevent⟩ := State.rebiased_changed hnew
      rw [hbias, hageing, haged]
      refine ⟨rfl, fun hwas => ?_, fun hages hwas => ?_⟩
      · rw [hframe]
        refine hquiet ?_
        rw [Comb.ages, Bool.and_eq_false_imp]
        simpa using hwas
      · obtain ⟨hhead, halert, hlog⟩ := hevent (by simp [Comb.ages, hages, hwas])
        exact ⟨by rw [hframe]; exact hhead, hflag.trans halert, by rw [hframe]; exact hlog⟩
    case low =>
      have hreached : Config.maxBias h ≤ new := by
        simp only [hdef, newBias, if_pos hweak]
        omega
      rw [hcomb]
      simp [hreached, hafter]

end Sys2Proof.Machine
end

section
/-! PROOFS. A ring's record and its heater code (R294, R295, R314, R316): what issuing a code, a ramp's visit and a death
leave of the ring, and of everything else. -/

namespace Sys2Proof.Machine

/-! ## Rings in the state they are in -/

/-- The row of a ring is masked in a lattice that is lit and past its search, so that the ring is zero-held (R295). -/
def State.zeroRow (s : State) (l r : Nat) : Bool :=
  (s.lat l).state.lit && (s.lat l).state ≠ .searching && (s.lat l).maskedRows.contains (r / 256)

theorem State.ringState_eq (s : State) (l r : Nat) : s.ringState l r =
    if s.zeroRow l r then .zeroHeld else if (s.ring (ringKey l r)).st ≠ .off then (s.ring (ringKey l r)).st
    else if (s.lat l).state = .searching && (s.lat l).phase = 1 then .searching else .off := rfl

theorem State.zeroRow_of_ringState {s : State} {l r : Nat} (h : s.ringState l r ≠ .zeroHeld) : s.zeroRow l r = false := by
  rw [State.ringState_eq] at h
  by_contra hrow
  simp [hrow] at h

@[simp] theorem State.ringNow_st (s : State) (l r : Nat) : (s.ringNow l r).st = s.ringState l r := rfl

/-- A record written with a state of its own is what the ring then shows, but in a masked row. -/
theorem State.ringNow_setRing {s : State} {l r : Nat} {x : Ring} (hrow : s.zeroRow l r = false) (hx : x.st ≠ .off) :
    (s.setRing (ringKey l r) x).ringNow l r = x := by
  have hown : (s.setRing (ringKey l r) x).ring (ringKey l r) = x := State.ring_setRing_same ..
  have hst : (s.setRing (ringKey l r) x).ringState l r = x.st := by
    rw [State.ringState_eq, show (s.setRing (ringKey l r) x).zeroRow l r = s.zeroRow l r from rfl, hrow, hown]
    simp [hx]
  rw [State.ringNow, hst, hown]

/-! ## Issuing a code -/

/-- The counts of pushes merged and held (R316). -/
def pushCounts : List Fld := [.htrEventCntMerges, .htrEventCntHeld]

/-- From `s` to `t` a ring's record has become `x` and a code has been issued for its heater: besides them the ring's cluster
and the counts of its bay's pushes may differ, no more. -/
structure Drives (l r : Nat) (x : Ring) (s t : State) : Prop where
  frame : t = { s with rings := t.rings, clusters := t.clusters, flds := t.flds }
  ring : t.ring (ringKey l r) = x
  others : ∀ k ≠ ringKey l r, t.ring k = s.ring k
  fld : ∀ (f : Fld) (i : Nat), f.place ∉ pushCounts.map Fld.place → l < 4096 → i < 4096 → t.fld f i = s.fld f i

theorem State.setRing_drives (s : State) (l r : Nat) (x : Ring) : Drives l r x s (s.setRing (ringKey l r) x) where
  frame := rfl
  ring := State.ring_setRing_same ..
  others _ hk := State.ring_setRing_ne _ _ _ _ hk
  fld _ _ _ _ _ := rfl

/-- A change of clusters and counts alone. -/
theorem Drives.trans_push {l r : Nat} {x : Ring} {s t u : State} (h : Drives l r x s t)
    (hframe : u = { t with clusters := u.clusters, flds := u.flds })
    (hfld : ∀ (f : Fld) (i : Nat), f.place ∉ pushCounts.map Fld.place → l < 4096 → i < 4096 → u.fld f i = t.fld f i) :
    Drives l r x s u where
  frame := by rw [hframe, h.frame]
  ring := (State.ring_congr (congrArg State.rings hframe) _).trans h.ring
  others k hk := (State.ring_congr (congrArg State.rings hframe) k).trans (h.others k hk)
  fld f i hf hl hi := (hfld f i hf hl hi).trans (h.fld f i hf hl hi)

theorem Drives.trans {l r : Nat} {x y : Ring} {s t u : State} (h : Drives l r x s t) (g : Drives l r y t u) :
    Drives l r y s u where
  frame := by rw [g.frame, h.frame]
  ring := g.ring
  others k hk := (g.others k hk).trans (h.others k hk)
  fld f i hf hl hi := (g.fld f i hf hl hi).trans (h.fld f i hf hl hi)

theorem Drives.lats {l r : Nat} {x : Ring} {s t : State} (h : Drives l r x s t) : t.lats = s.lats := by rw [h.frame]

theorem State.issueCode_drives (s : State) (l r c : Nat) :
    Drives l r { s.ringNow l r with code := c } s (s.issueCode l r c) := by
  unfold State.issueCode
  extract_lets src coded q cl e p queued
  have hcoded : Drives l r { s.ringNow l r with code := c } s coded := s.setRing_drives l r _
  have hqueued : Drives l r { s.ringNow l r with code := c } s queued := hcoded.trans_push rfl fun _ _ _ _ _ => rfl
  have hcounted : ∀ g ∈ pushCounts, Drives l r { s.ringNow l r with code := c } s (queued.bump g (l / 2)) := fun g hg =>
    hqueued.trans_push rfl fun f i hf _ _ =>
      State.fld_bump_ne _ _ _ _ _ _ (Fld.key_ne fun h => hf (h ▸ List.mem_map_of_mem hg))
  split
  · exact hcoded
  · split
    · exact hqueued
    · exact hcounted _ (by decide)
    · exact hcounted _ (by decide)

/-- A record is written and a code issued for it. -/
theorem State.setRing_issueCode_drives {s : State} {l r : Nat} {x : Ring} (c : Nat) (hrow : s.zeroRow l r = false)
    (hx : x.st ≠ .off) : Drives l r { x with code := c } s ((s.setRing (ringKey l r) x).issueCode l r c) := by
  have hissue := (s.setRing (ringKey l r) x).issueCode_drives l r c
  rw [State.ringNow_setRing hrow hx] at hissue
  exact (s.setRing_drives l r x).trans hissue

/-! ## Ramps (R294) -/

/-- A ring's record as a visit that reads `d` lets its ramp go on. -/
def Ring.rampedOn (x : Ring) (d : Nat) : Ring :=
  { x with rising := x.prevCode != x.code && (decide (x.prevDrop < d) || (x.rising && d == x.prevDrop)),
           prevDrop := d, prevCode := x.code }

/-- A ring's record as its ramp stops at a maximum. -/
def Ring.rampStopped (x : Ring) : Ring := { x with stopped := true, rising := false, maxima := x.prevCode :: x.maxima }

section
variable {s : State} {l r : Nat} (hrow : s.zeroRow l r = false) (hlit : s.ringState l r ≠ .off)
include hrow hlit

theorem State.rampOn_drives (d : Nat) :
    Drives l r { (s.ringNow l r).rampedOn d with code := min 4095 ((s.ringNow l r).code + 16) } s (s.rampOn l r d) :=
  State.setRing_issueCode_drives (x := (s.ringNow l r).rampedOn d) _ hrow hlit

theorem State.rampStop_drives :
    Drives l r { (s.ringNow l r).rampStopped with code := (s.ringNow l r).prevCode } s (s.rampStop l r) :=
  State.setRing_issueCode_drives (x := (s.ringNow l r).rampStopped) _ hrow hlit

end

/-! ## Dead rings (R302) -/

/-- A dead ring's entry in the map of dead elements, pending. -/
def State.deadEntry (s : State) (r kind : Nat) (park : Option Nat) : DeadRing :=
  { row := r / 256, col := r % 256, kind := kind, handling := 2,
    parkW := signed 8 (Config.unstated s.free).toNat, canPark := park.isSome }

/-- The state with that entry in the lattice's map, in place of any other of the ring. -/
def State.withDead (s : State) (l r kind : Nat) (park : Option Nat) : State :=
  (s.drawn 1).modLat l fun x => { x with
    dem := (x.dem.filter fun d => !(d.row == r / 256 && d.col == r % 256)) ++ [s.deadEntry r kind park] }

/-- A pending entry masks no row. -/
theorem State.zeroRow_withDead {s : State} {l r : Nat} (kind : Nat) (park : Option Nat) (hrow : s.zeroRow l r = false) :
    (s.withDead l r kind park).zeroRow l r = false := by
  simp only [State.zeroRow, Bool.and_eq_false_iff] at hrow ⊢
  refine hrow.imp_left (Or.imp ?_ ?_) |>.imp_right ?_
  · simp [State.withDead]
  · simp [State.withDead]
  · simp only [State.withDead, Lattice.maskedRows, State.lat_modLat_same, State.lat_drawn, List.contains_eq_mem,
      decide_eq_false_iff_not, List.mem_dedup, List.mem_map, List.mem_filter, List.mem_append, List.mem_singleton]
    rintro hnot ⟨d, ⟨⟨hd, -⟩ | rfl, hmask⟩, hr⟩
    · exact hnot ⟨d, ⟨hd, hmask⟩, hr⟩
    · simp [DeadRing.isMask, State.deadEntry] at hmask

/-- A ring that can be parked is PARKED at that code, any other dead at code 0 (R294, R295). -/
def DiedTo (park : Option Nat) (x : Ring) : Prop :=
  (∀ c, park = some c → x.st = .parked ∧ x.code = c) ∧ (park = none → x.st = .deadUnparked ∧ x.code = 0)

theorem State.buryRing_drives {s : State} {l r : Nat} (kind : Nat) (park : Option Nat) (hrow : s.zeroRow l r = false) :
    ∃ x, DiedTo park x ∧ Drives l r x (s.withDead l r kind park) (s.buryRing l r kind park) := by
  have hdead : (s.withDead l r kind park).zeroRow l r = false := State.zeroRow_withDead kind park hrow
  cases park with
  | some c => exact ⟨_, ⟨by rintro _ ⟨⟩; exact ⟨rfl, rfl⟩, nofun⟩, State.setRing_issueCode_drives c hdead (by simp)⟩
  | none => exact ⟨_, ⟨nofun, fun _ => ⟨rfl, rfl⟩⟩, State.setRing_issueCode_drives 0 hdead (by simp)⟩

end Sys2Proof.Machine
end

section
/-! PROOFS. The resonance search (R294 to R297): the visits of a ramp, and the identity frames of a ring stopped at a
maximum. -/

namespace Sys2Proof.Machine

/-! ## Rings that die in a search -/

theorem State.declareDead_searching {s : State} {l : Nat} (hstate : (s.lat l).state = .searching) (r kind : Nat)
    (park : Option Nat) : s.declareDead l r kind park = s.buryRing l r kind park := by
  simp [State.declareDead, hstate]

/-- The map of dead elements of a lattice has an entry of a ring (R302). -/
def Lattice.listsDead (x : Lattice) (r : Nat) (p : DeadRing → Bool) : Bool :=
  x.dem.any fun e => e.row == r / 256 && e.col == r % 256 && p e

theorem State.listsDead_withDead {s : State} {l r kind : Nat} {park : Option Nat} {p : DeadRing → Bool}
    (hp : p (s.deadEntry r kind park) = true) : ((s.withDead l r kind park).lat l).listsDead r p = true := by
  simp only [Lattice.listsDead, State.withDead, State.lat_modLat_same, List.any_append, List.any_cons]
  simp [State.deadEntry] at hp ⊢
  simp [hp]

/-- A ring buried in a search: what is left of it, its entry, and nothing else but a free value taken. -/
theorem State.buryRing_outcome {s : State} {l r : Nat} (kind : Nat) (park : Option Nat) (hrow : s.zeroRow l r = false) :
    DiedTo park ((s.buryRing l r kind park).ring (ringKey l r)) ∧
    (∀ p : DeadRing → Bool, p (s.deadEntry r kind park) = true →
      ((s.buryRing l r kind park).lat l).listsDead r p = true) ∧
    s.buryRing l r kind park = { s with
      rings := (s.buryRing l r kind park).rings, clusters := (s.buryRing l r kind park).clusters,
      flds := (s.buryRing l r kind park).flds, lats := (s.buryRing l r kind park).lats, free := s.free + 1 } := by
  obtain ⟨x, hx, hdrives⟩ := State.buryRing_drives kind park hrow
  have hlats : (s.buryRing l r kind park).lats = (s.withDead l r kind park).lats := hdrives.lats
  refine ⟨hdrives.ring ▸ hx, fun p hp => ?_, ?_⟩
  · rw [State.lat_congr hlats]
    exact State.listsDead_withDead hp
  · rw [hlats]
    exact hdrives.frame

/-! ## Visits of a ramp (R294) -/

/-- A ring's record as the first visit of its ramp finds it. -/
def Ring.rampStarted (x : Ring) (d : Nat) : Ring := { x with drop0 := d, prevCode := 0, maxima := [] }

section
variable {l : Fin 8} {r : Fin 131072} {s : State} (hstate : (s.lat l).state = .searching) (hphase : (s.lat l).phase = 1)
  (hst : (s.ringNow l r).st = .searching)
include hstate

omit hphase hst in
theorem State.zeroRow_of_searching (r : Nat) : s.zeroRow l r = false := by simp [State.zeroRow, hstate]

include hphase hst

/-- What a visit of a ring whose ramp goes on does, by its code and what it has read. -/
theorem exec_searchRampVisit_ramping (d : BitVec 14) (hstopped : (s.ringNow l r).stopped = false) :
    exec (.searchRampVisit l r d) s = .next (
      if (s.ringNow l r).code = 0 then (s.setRing (ringKey l r) ((s.ringNow l r).rampStarted d.toNat)).rampOn l r d.toNat
      else if (s.ringNow l r).atMaximum d.toNat (4 * (s.ringNow l r).drop0) then s.rampStop l r
      else if (s.ringNow l r).code = 4095 then
        s.buryRing l r (if (s.ringNow l r).maxima.isEmpty then 4 else 0) (parkCode (s.ringNow l r).maxima)
      else s.rampOn l r d.toNat) := by
  change execSearchRampVisit l r d s = _
  unfold execSearchRampVisit
  dsimp only
  have hown : s.ringState l r = .searching := hst
  rw [if_neg (by simp [hstate, hphase, hown, hstopped]), State.declareDead_searching hstate]
  repeat' split
  all_goals rfl

omit hphase in
/-- The first visit of a ramp notes the drop power, and the code goes to 16. -/
theorem State.rampStart_drives (d : Nat) (hcode : (s.ringNow l r).code = 0) :
    Drives l r { s.ringNow l r with
      drop0 := d, prevDrop := d, prevCode := 0, rising := false, maxima := [], code := 16 } s
      ((s.setRing (ringKey l r) ((s.ringNow l r).rampStarted d)).rampOn l r d) := by
  have hrow := State.zeroRow_of_searching hstate r
  have hlit : (s.ringNow l r).st ≠ .off := by rw [hst]; decide
  have hnow : (s.setRing (ringKey l r) ((s.ringNow l r).rampStarted d)).ringNow l r = (s.ringNow l r).rampStarted d :=
    State.ringNow_setRing hrow hlit
  have hon := State.rampOn_drives (s := s.setRing (ringKey l r) ((s.ringNow l r).rampStarted d)) (l := l) (r := r) hrow
    (by rw [← State.ringNow_st, hnow]; exact hlit) d
  have hrecord : { ((s.ringNow l r).rampStarted d).rampedOn d with
        code := min 4095 (((s.ringNow l r).rampStarted d).code + 16) } =
      { s.ringNow l r with drop0 := d, prevDrop := d, prevCode := 0, rising := false, maxima := [], code := 16 } := by
    simp [Ring.rampedOn, Ring.rampStarted, hcode]
  rw [hnow, hrecord] at hon
  exact (s.setRing_drives l r _).trans hon

/-! ## Identity frames (R293, R294) -/

/-- What an identity frame of a ring stopped at a maximum does, by the line that its word reads as. -/
theorem exec_identityFrame_stopped {w : Vector (BitVec 14) 12} {o : Option Nat}
    (hstopped : (s.ringNow l r).stopped = true) (hlow : identityRead (frameWord (w.toList.map (·.toNat)) false) = o)
    (hhigh : identityRead (frameWord (w.toList.map (·.toNat)) true) = o) :
    exec (.identityFrame l r w) s = .next (match o with
      | none => s.drawn 1
      | some c => if c = r.val % 128 then (s.drawn 1).lockRing l r
        else if r.val % 128 < c ∧ c < r.val % 128 + 120 then
          (s.drawn 1).buryRing l r 0 (parkCode (s.ringNow l r).maxima)
        else (s.drawn 1).setRing (ringKey l r) { s.ringNow l r with stopped := false }) := by
  have hread : ∀ flat, identityRead (frameWord (w.toList.map (·.toNat)) flat) = o := Bool.forall_bool.mpr ⟨hlow, hhigh⟩
  change execIdentityFrame l r w s = _
  unfold execIdentityFrame
  dsimp only
  have hown : s.ringState l r = .searching := hst
  rw [if_neg (by simp [hstate, hphase, hown, hstopped]), hread]
  cases o with
  | none => rfl
  | some c =>
    dsimp only
    rw [State.declareDead_searching (s := s.drawn 1) hstate]
    simp only [Bool.and_eq_true, decide_eq_true_eq]
    repeat' split
    all_goals rfl

end

/-- A ring that locks keeps its code, and its set-point and output start there. -/
theorem State.lockRing_outcome (s : State) (l r : Nat) :
    ((s.lockRing l r).ring (ringKey l r)).st = .locked ∧ ((s.lockRing l r).ring (ringKey l r)).stopped = false ∧
    ((s.lockRing l r).ring (ringKey l r)).code = (s.ringNow l r).code ∧
    ((s.lockRing l r).ring (ringKey l r)).u = powerOf (s.ringHigh l r) (s.ringNow l r).code ∧
    ((s.lockRing l r).ring (ringKey l r)).r = powerOf (s.ringHigh l r) (s.ringNow l r).code * 65536 ∧
    s.lockRing l r = { s with rings := (s.lockRing l r).rings, free := s.free + 1 } := by
  unfold State.lockRing
  dsimp only
  rw [State.ring_setRing_same]
  exact ⟨rfl, rfl, rfl, rfl, rfl, rfl⟩

/-- Outside a search neither a ramp's visit nor an identity frame does anything. -/
theorem exec_search_closed {c : Instr} {l : Fin 8} {r : Fin 131072} {s : State} (hstate : (s.lat l).state ≠ .searching)
    (hc : (∃ d, c = .searchRampVisit l r d) ∨ ∃ w, c = .identityFrame l r w) : exec c s = .next s := by
  obtain ⟨d, rfl⟩ | ⟨w, rfl⟩ := hc
  · change execSearchRampVisit l r d s = _
    simp [execSearchRampVisit, hstate]
  · change execIdentityFrame l r w s = _
    simp [execIdentityFrame, hstate]

/-- Settles O53: each visit and each frame is one case of what the ring's code, its readings and its line decide. -/
theorem resonanceSearch : Obligations.ResonanceSearch := by
  refine ⟨fun l r d s hstate hphase hst hstopped => ?visit, fun l r w s hstate hphase hst hstopped => ?frame,
    fun c l r s hstate hc => exec_search_closed hstate hc⟩
  case visit =>
    have hrow := State.zeroRow_of_searching hstate r
    have hlit : s.ringState l r ≠ .off := by rw [← State.ringNow_st, hst]; decide
    have hexec := exec_searchRampVisit_ramping hstate hphase hst d hstopped
    refine ⟨fun hcode => ?start, fun hcode hrising hdrop hfloor => ?maximum, fun hcode hrising => ?top,
      fun hcode htop hrising => ?on⟩
    case start =>
      rw [if_pos hcode] at hexec
      have hdrives := State.rampStart_drives hstate hst d.toNat hcode
      exact ⟨_, hexec, hdrives.ring, hdrives.frame, hdrives.others⟩
    case maximum =>
      have hdrives := State.rampStop_drives hrow hlit
      rw [if_neg hcode, if_pos (by simp [Ring.atMaximum, hrising, hdrop, hfloor])] at hexec
      exact ⟨_, hexec, hdrives.ring, hdrives.frame⟩
    case top =>
      rw [if_neg (by omega), if_neg (by simp [Ring.atMaximum, hrising]), if_pos hcode] at hexec
      obtain ⟨⟨hparked, hdead⟩, hlisted, hframe⟩ := State.buryRing_outcome
        (if (s.ringNow l r).maxima.isEmpty then 4 else 0) (parkCode (s.ringNow l r).maxima) hrow
      exact ⟨_, hexec, hparked, hdead, hlisted (fun e => e.kind == _) (beq_self_eq_true _), hframe⟩
    case on =>
      rw [if_neg hcode, if_neg (by simp [Ring.atMaximum, hrising]), if_neg htop] at hexec
      have hdrives := State.rampOn_drives hrow hlit d.toNat
      refine ⟨_, hexec, hdrives.ring.trans ?_, hdrives.frame⟩
      simp [Ring.rampedOn, hrising]
  case frame =>
    have hrow := State.zeroRow_of_searching hstate r
    refine ⟨fun hlow hhigh => ?own, fun hlow hhigh => ?unread, fun k hlow hhigh hk => ?before,
      fun k hlow hhigh hk hnear hmax => ?beyond⟩
    all_goals have hexec := exec_identityFrame_stopped hstate hphase hst hstopped hlow hhigh
    case own =>
      dsimp only at hexec
      rw [if_pos rfl] at hexec
      obtain ⟨hlocked, hramp, hcode, hu, hr, hframe⟩ := (s.drawn 1).lockRing_outcome l r
      refine ⟨_, hexec, hlocked, hramp, hcode, hu, hr, ?_⟩
      rw [hframe]
      rfl
    case unread => exact hexec
    case before =>
      dsimp only at hexec
      rw [if_neg (by omega), if_neg (by omega)] at hexec
      exact hexec
    case beyond =>
      dsimp only at hexec
      rw [if_neg (by omega), if_pos ⟨hk, hnear⟩] at hexec
      obtain ⟨c, hc⟩ : ∃ c, parkCode (s.ringNow l r).maxima = some c := by
        unfold parkCode
        split
        · contradiction
        · exact ⟨_, rfl⟩
        · exact ⟨_, rfl⟩
      obtain ⟨⟨hparked, -⟩, hlisted, -⟩ :=
        State.buryRing_outcome (s := s.drawn 1) 0 (parkCode (s.ringNow l r).maxima) hrow
      obtain ⟨hst, hcode⟩ := hparked c hc
      refine ⟨_, hexec, hst, by rw [hcode, hc], ?_⟩
      simpa only [Lattice.listsDead, Bool.and_assoc] using
        hlisted (fun e => e.kind == 0 && e.canPark) (by simp [State.deadEntry, hc])

end Sys2Proof.Machine
end

section
/-! PROOFS. What SUSPECT, fences and rewound threads leave of the rings (R40, R44, R45, R48): the temper engines' records, the
maps of dead elements and the counts of dead rings and wrong lines are not theirs to change. -/

namespace Sys2Proof.Machine

/-- The counts of dead rings and of wrong-line locks (R301, R302). -/
def ringCounts : List Fld := [.tmpEventCntDead, .tmpEventCntWrongLine]

/-- From `s` to `t` no ring's record, no map of dead elements and neither count of `ringCounts` has changed. -/
structure KeepsRings (s t : State) : Prop where
  rings : t.rings = s.rings
  dem : ∀ k, (t.lat k).dem = (s.lat k).dem
  fld : ∀ (f : Fld) (i : Nat), f ∈ ringCounts → i < 4096 → t.fld f i = s.fld f i

namespace KeepsRings

theorem refl (s : State) : KeepsRings s s := ⟨rfl, fun _ => rfl, fun _ _ _ _ => rfl⟩

theorem trans {s t u : State} (h : KeepsRings s t) (g : KeepsRings t u) : KeepsRings s u :=
  ⟨g.rings.trans h.rings, fun k => (g.dem k).trans (h.dem k), fun f i hf hi => (g.fld f i hf hi).trans (h.fld f i hf hi)⟩

theorem ite {s t u : State} {c : Prop} [Decidable c] (ht : KeepsRings s t) (hu : KeepsRings s u) :
    KeepsRings s (if c then t else u) := by split <;> assumption

theorem forEach {α : Type} {f : State → α → State} (hf : ∀ s a, KeepsRings s (f s a)) (l : List α) (s : State) :
    KeepsRings s (forEach l f s) :=
  forEach_keeps (KeepsRings s) l f (fun u a hu => hu.trans (hf u a)) s (.refl s)

/-- A change of other parts of the state. -/
theorem of_eq {s t : State} (hrings : t.rings = s.rings) (hlats : t.lats = s.lats) (hflds : t.flds = s.flds) :
    KeepsRings s t :=
  ⟨hrings, fun k => by rw [State.lat_congr hlats], fun f i _ _ => State.fld_congr hflds f i⟩

theorem setLat (s : State) (l : Nat) {x : Lattice} (hx : x.dem = (s.lat l).dem) : KeepsRings s (s.setLat l x) where
  rings := rfl
  dem k := by
    by_cases hk : k = l
    · rw [hk, State.lat_setLat_same, hx]
    · rw [State.lat_setLat_ne _ _ _ _ hk]
  fld _ _ _ _ := rfl

theorem modLat (s : State) (l : Nat) {f : Lattice → Lattice} (hf : (f (s.lat l)).dem = (s.lat l).dem) :
    KeepsRings s (s.modLat l f) := setLat s l hf

theorem setFld (s : State) {f : Fld} {i : Nat} (v : Nat) (hf : f.place ∉ ringCounts.map Fld.place) (hi : i < 4096) :
    KeepsRings s (s.setFld f i v) :=
  ⟨rfl, fun _ => rfl, fun _ _ hg hj => State.fld_setFld_ne _ _ _ _ _ _
    (Fld.key_ne (fun h => hf (h ▸ List.mem_map_of_mem hg)) hi hj)⟩

theorem bump (s : State) {f : Fld} {i : Nat} (n : Nat) (hf : f.place ∉ ringCounts.map Fld.place) (hi : i < 4096) :
    KeepsRings s (s.bump f i n) := setFld s _ hf hi

end KeepsRings

theorem ringCounts_not_reported : ∀ f ∈ ringCounts, f.place ∉ reportFields.map Fld.place := by decide

theorem ringCounts_not_invalidated : ∀ f ∈ ringCounts, f.place ≠ Fld.bayLarderInvalLines.place := by decide

theorem Spares.keepsRings {s t : State} (h : Spares s t) (hrings : t.rings = s.rings) : KeepsRings s t where
  rings := hrings
  dem k := by
    obtain ⟨e, m, o, hk⟩ := h.lat k
    rw [hk]
  fld f i hf hi := h.fld f i (ringCounts_not_reported f hf) hi

theorem Delivers.keepsRings {s t : State} (h : Delivers s t) : KeepsRings s t where
  rings := by
    obtain ⟨_, _, _, _, _, _, _, rfl⟩ := h.rest
    rfl
  dem k := by rw [State.lat_congr h.lats]
  fld f i hf hi := h.fld f i (ringCounts_not_invalidated f hf) hi

namespace State

variable (s : State)

/-! ## Entering a state (R40) -/

@[simp] theorem endOutage_rings (l : Nat) : (s.endOutage l).rings = s.rings := by
  unfold State.endOutage
  split
  · rfl
  · dsimp only
    split <;> simp

@[simp] theorem commitSvn_rings : s.commitSvn.rings = s.rings := by
  unfold State.commitSvn
  split
  · rfl
  · split <;> simp

@[simp] theorem setStage_rings (v : Nat) : (s.setStage v).rings = s.rings := by
  unfold State.setStage
  split <;> simp

@[simp] theorem coldDone_rings : s.coldDone.rings = s.rings := by
  unfold State.coldDone
  dsimp only
  split <;> simp

@[simp] theorem warmDone_rings : s.warmDone.rings = s.rings := by
  unfold State.warmDone
  refine (forEach_keeps (fun u => u.rings = s.rings) _ _ (fun u l hu => ?_) _ (by simp))
  split
  · exact hu
  · exact hu

@[simp] theorem finishStart_rings : s.finishStart.rings = s.rings := by
  unfold State.finishStart
  dsimp only
  split
  · rfl
  · split <;> simp

@[simp] theorem dropEpisode_rings (l : Nat) : (s.dropEpisode l).rings = s.rings := by
  unfold State.dropEpisode State.setStale
  dsimp only
  split
  · rfl
  · split <;> simp

@[simp] theorem enterLat_rings (l : Nat) (st : LatState) (phase cause : Nat) :
    (s.enterLat l st phase cause).rings = s.rings := by
  simp [State.enterLat, apply_ite State.rings]

theorem place_keepsRings (l : Nat) (st : LatState) (phase cause : Nat) (hl : l < 4096) :
    KeepsRings s (s.place l st phase cause) := by
  have hset : KeepsRings s (s.setLat l ((s.lat l).entered st phase cause s.time)) :=
    .setLat s l rfl
  exact .ite (hset.trans (.setFld _ _ (by decide) hl)) hset

theorem enterLat_keepsRings (l : Nat) (st : LatState) (phase cause : Nat) (hl : l < 4096) :
    KeepsRings s (s.enterLat l st phase cause) := by
  have hplace := s.place_keepsRings l st phase cause hl
  exact hplace.trans ((s.enterLat_spares l st phase cause hl).keepsRings (by rw [enterLat_rings, hplace.rings]))

theorem startOutage_keepsRings (l : Nat) : KeepsRings s (s.startOutage l) := .modLat s l rfl

theorem event_keepsRings (ev : Ev) (uk : UnitKind) (u c : Nat) (ps : List Nat) : KeepsRings s (s.event ev uk u c ps) :=
  (s.event_spares ev uk u c ps).keepsRings (by simp)

theorem journal_keepsRings (k : JKind) (p : List Nat) : KeepsRings s (s.journal k p) :=
  (s.journal_spares k p).keepsRings (by simp)

/-! ## Pieces, drains and fences (R42, R48) -/

theorem returnChunk_keepsRings (k : Chunk) : KeepsRings s (s.returnChunk k) := .of_eq rfl rfl rfl

theorem returnPieces_keepsRings (l : Nat) (shadow : Bool) : KeepsRings s (s.returnPieces l shadow) := by
  unfold State.returnPieces
  extract_lets x left loaded current
  have hleft : KeepsRings s left := .setLat s l rfl
  have hloaded : KeepsRings left loaded := by
    unfold loaded
    split
    · exact left.returnChunk_keepsRings _
    · exact .refl left
  have hcurrent : KeepsRings loaded current := by
    unfold current
    split
    · exact loaded.returnChunk_keepsRings _
    · exact .refl loaded
  clear_value current
  exact ((hleft.trans hloaded).trans hcurrent).trans (.of_eq rfl rfl rfl)

theorem drainLat_keepsRings (l cause : Nat) (toLocked : Bool) (hl : l < 4096) : KeepsRings s (s.drainLat l cause toLocked) :=
  ((s.returnPieces_keepsRings l toLocked).trans (.modLat _ l rfl)).trans (enterLat_keepsRings _ l _ _ _ hl)

theorem zeroHeaters_keepsRings (l : Nat) (now : Bool) : KeepsRings s (s.zeroHeaters l now) := .of_eq rfl rfl rfl

theorem rampDown_keepsRings {l : Nat} (hl : l < 8) : KeepsRings s (s.rampDown l) := by
  obtain ⟨C, M, hset⟩ := s.setCombSt_frame .rampingDown hl
  unfold State.rampDown
  rw [hset]
  exact .ite (.refl s) (.of_eq rfl rfl rfl)

theorem abandonSearch_keepsRings {l : Nat} (cause : Nat) (hl : l < 8) : KeepsRings s (s.abandonSearch l cause) := by
  have hdrains := (KeepsRings.modLat s l (f := fun x => { x with toLocked := false }) rfl).trans
    (enterLat_keepsRings _ l .draining 1 cause (by omega))
  exact (hdrains.trans (zeroHeaters_keepsRings _ l false)).trans (rampDown_keepsRings _ hl)

theorem fenceLattice_keepsRings {l : Nat} (cause : Nat) (hl : l < 8) : KeepsRings s (s.fenceLattice l cause) := by
  unfold State.fenceLattice
  extract_lets x logged noted
  have hnoted : KeepsRings s noted := (s.event_keepsRings ..).trans (logged.journal_keepsRings ..)
  have hpending : KeepsRings noted (noted.modLat l fun x => { x with fencePending := cause }) := .modLat noted l rfl
  refine .ite (.refl s) (hnoted.trans ?_)
  split
  · exact noted.enterLat_keepsRings l _ _ _ (by omega)
  · exact hpending.trans (abandonSearch_keepsRings _ cause hl)
  · exact hpending.trans (drainLat_keepsRings _ l cause false (by omega))
  · exact hpending

/-! ## Rewound threads (R45) -/

theorem dropSteps_keepsRings (t : Nat) (uid : Option Nat) : KeepsRings s (s.dropSteps t uid) := by
  have hdem : ∀ (l : List Nat) (L : Tbl Lattice) (k : Nat), (tget Lattice.reset (l.foldl (fun ls l =>
      tset Lattice.reset ls l ((tget Lattice.reset ls l).dropStep t uid)) L) k).dem = (tget Lattice.reset L k).dem := by
    intro l
    induction l with
    | nil => exact fun _ _ => rfl
    | cons j l ih =>
      intro L k
      rw [List.foldl_cons, ih, tget_tset]
      split
      next hk => rw [hk]; rfl
      next => rfl
  unfold State.dropSteps
  generalize upTo 8 = ls
  extract_lets unloaded freed forgotten
  have hunloaded : KeepsRings s unloaded := ⟨rfl, fun k => hdem ls s.lats k, fun _ _ _ _ => rfl⟩
  clear_value unloaded
  exact hunloaded.trans (.of_eq rfl rfl rfl)

theorem releaseTakes_keepsRings (t : Nat) : KeepsRings s (s.releaseTakes t) :=
  (KeepsRings.forEach (fun s a => .of_eq (t := s.setReserved a 0) rfl rfl rfl) _ s).trans (.of_eq rfl rfl rfl)

theorem setCtxSt_keepsRings (c : Nat) (st : CtxState) : KeepsRings s (s.setCtxSt c st) :=
  .ite (.refl s) (.trans (t := s.modCtx c fun x => { x with st := st }) (.of_eq rfl rfl rfl)
    (putStatus_delivers _ c).keepsRings)

theorem refreshCtx_keepsRings (c : Nat) : KeepsRings s (s.refreshCtx c) :=
  .ite (.ite (s.setCtxSt_keepsRings ..) (.ite (s.setCtxSt_keepsRings ..) (s.setCtxSt_keepsRings ..))) (.refl s)

theorem setWarn_keepsRings (c : Nat) : KeepsRings s (s.setWarn c) :=
  .ite (.refl s) (.trans (t := s.modCtx c fun x => { x with warn := true }) (.of_eq rfl rfl rfl)
    (putStatus_delivers _ c).keepsRings)

theorem ctxFault_keepsRings (c code step thread : Nat) (uk : UnitKind) (uid ctr : Nat) :
    KeepsRings s (s.ctxFault c code step thread uk uid ctr) := by
  unfold State.ctxFault
  extract_lets x live faulted counted
  have hcounted : KeepsRings s counted :=
    .trans (t := faulted) (.of_eq rfl rfl rfl) (.bump faulted 1 (by decide) (by decide))
  exact .ite ((hcounted.trans (counted.event_keepsRings ..)).trans (putStatus_delivers _ c).keepsRings) (.refl s)

theorem makeReady_keepsRings (t : Nat) : KeepsRings s (s.makeReady t) := by
  unfold State.makeReady
  split
  · next u hu =>
    obtain ⟨y, rfl⟩ := cacheCtx_there hu
    exact .of_eq rfl rfl rfl
  · exact .of_eq rfl rfl rfl
  · exact .trans (t := s.modThread t fun th => { th with st := .waiting }) (.of_eq rfl rfl rfl) (ctxFault_keepsRings ..)

theorem rewindThread_keepsRings (t : Nat) : KeepsRings s (s.rewindThread t) := by
  unfold State.rewindThread
  extract_lets th
  split
  · exact .refl s
  next bad left ready _ r _ =>
    have hleft : KeepsRings s left :=
      ((s.dropSteps_keepsRings t none).trans (releaseTakes_keepsRings _ t)).trans (.of_eq rfl rfl rfl)
    have hready : KeepsRings left ready := .ite (left.ctxFault_keepsRings ..) (left.makeReady_keepsRings t)
    clear_value ready
    extract_lets restored
    have hrestored : KeepsRings ready restored := .of_eq rfl rfl rfl
    exact ((hleft.trans hready).trans hrestored).trans (restored.refreshCtx_keepsRings _)

/-! ## SUSPECT (R44, R45) -/

theorem lookback_keepsRings {l : Nat} (t0 : Nat) (hl : l < 4096) : KeepsRings s (s.lookback l t0) := by
  unfold State.lookback
  extract_lets hit live back reps counted rewound noted late logged
  have hrewound : KeepsRings counted rewound :=
    .forEach (fun s t => (s.rewindThread_keepsRings t).trans (.bump _ 1 (by decide) hl)) _ _
  have hlogged : KeepsRings s logged :=
    (((KeepsRings.bump s reps (by decide) hl).trans hrewound).trans (.modLat rewound l rfl)).trans (.modLat noted l rfl)
  refine hlogged.trans (.forEach (fun s c => ?_) _ _)
  exact ((s.event_keepsRings ..).trans (.bump _ 1 (by decide) hl)).trans (setWarn_keepsRings ..)

theorem traceHit_keepsRings (b k : Nat) (p : Nat → Bool) : KeepsRings s (s.traceHit b k p) :=
  .forEach (fun s _ => by dsimp only; exact .ite (.of_eq rfl rfl rfl) (.refl s)) _ s

theorem raiseCause_keepsRings {l : Nat} (c : Cause) (t0 : Nat) (hl : l < 8) : KeepsRings s (s.raiseCause l c t0) := by
  have hlook : l < 4096 := by omega
  unfold State.raiseCause
  extract_lets x hold
  have hhold : ∀ s, KeepsRings s (hold s) := fun s => .modLat s l rfl
  clear_value hold
  split
  next returned recent entered counted held seen _ _ =>
    have hreturned : KeepsRings s returned := s.returnPieces_keepsRings l true
    have hentered : KeepsRings returned entered := .modLat returned l rfl
    have hcounted : KeepsRings entered counted :=
      ((entered.enterLat_keepsRings l .suspect 0 c.code hlook).trans (startOutage_keepsRings _ l)).trans
        (.bump _ 1 (by decide) hlook)
    have hseen : KeepsRings held seen := (held.lookback_keepsRings t0 hlook).trans (traceHit_keepsRings ..)
    have hall : KeepsRings s seen :=
      (((hreturned.trans hentered).trans hcounted).trans (hhold counted)).trans hseen
    exact .ite (hall.trans (seen.fenceLattice_keepsRings 12 hl)) hall
  · exact (hhold s).trans (lookback_keepsRings _ t0 hlook)
  · exact hhold s
  · exact .ite (hhold s) (.refl s)
  · exact .refl s

end State

/-- From `s` to `t` causes of SUSPECT have cleared, no more (R44): of a lattice's record only what it holds of causes and of
its self-tests may differ, and from when its calibration check counts its time. -/
structure ClearsCauses (s t : State) : Prop where
  frame : t = { s with lats := t.lats }
  lat : ∀ k, ∃ h e c, t.lat k = { s.lat k with held := h, selfTest := e, checkStart := c }

namespace ClearsCauses

theorem refl (s : State) : ClearsCauses s s := ⟨rfl, fun _ => ⟨_, _, _, rfl⟩⟩

theorem trans {s t u : State} (h : ClearsCauses s t) (g : ClearsCauses t u) : ClearsCauses s u where
  frame := by rw [g.frame, h.frame]
  lat k := by
    obtain ⟨_, _, _, ht⟩ := h.lat k
    obtain ⟨p, e, c, hu⟩ := g.lat k
    exact ⟨p, e, c, by rw [hu, ht]⟩

theorem keepsRings {s t : State} (h : ClearsCauses s t) : KeepsRings s t where
  rings := by rw [h.frame]
  dem k := by
    obtain ⟨_, _, _, hk⟩ := h.lat k
    rw [hk]
  fld f i _ _ := State.fld_congr (by rw [h.frame]) f i

end ClearsCauses

namespace State

variable (s : State)

/-- But for the rate of rise, whose end starts an episode (R337). -/
theorem clearCause_clears (l : Nat) {c : Cause} (hc : c ≠ .rateOfRise) : ClearsCauses s (s.clearCause l c) := by
  have hset : ∀ h e k, ClearsCauses s (s.setLat l { s.lat l with held := h, selfTest := e, checkStart := k }) := fun h e k =>
    ⟨rfl, fun j => by
      by_cases hj : j = l
      · exact ⟨h, e, k, by rw [hj, lat_setLat_same]⟩
      · exact ⟨_, _, _, by rw [lat_setLat_ne _ _ _ _ hj]⟩⟩
  unfold State.clearCause
  dsimp only
  split
  · rw [if_neg (by simp [hc])]
    exact hset _ _ _
  · exact .refl s

theorem settle_clears (l : Nat) : ClearsCauses s (s.settle l) := by
  have hclears : ∀ (c : Cause) (p : Prop) [Decidable p] (u : State), c ≠ .rateOfRise →
      ClearsCauses u (if p then u else u.clearCause l c) := fun c p _ u hc => by
    split
    · exact .refl u
    · exact u.clearCause_clears l hc
  exact (hclears .wrongLine _ s (by decide)).trans (hclears .excursion _ _ (by decide))

theorem tryEndUpset_of_none {b : Nat} (h : (s.bay b).upset = false) : s.tryEndUpset b = s := by
  simp [State.tryEndUpset, h]

theorem tryEndUpset_keepsRings (b : Nat) : KeepsRings s (s.tryEndUpset b) := by
  unfold State.tryEndUpset
  extract_lets rewound
  have hrewound : KeepsRings s rewound := by
    refine .forEach (fun s t => ?_) _ s
    exact .ite (s.rewindThread_keepsRings t) (.refl s)
  clear_value rewound
  exact .ite (.refl s) (hrewound.trans (.of_eq rfl rfl rfl))

end State
end Sys2Proof.Machine
end

section
/-! PROOFS. Identity rounds and relock ramps (R297 to R299, R301): when a round is due, what it finds at its end, and the rings
that a relock leaves dead. -/

namespace Sys2Proof.Machine

/-! ## Rings that die in service (R301, R302) -/

/-- A ring declared dead is parked or at code 0 whatever becomes of its lattice; in service it is counted. -/
theorem State.declareDead_outcome {s : State} {l r : Nat} (kind : Nat) (park : Option Nat) (hl : l < 8)
    (hrow : s.zeroRow l r = false) : DiedTo park ((s.declareDead l r kind park).ring (ringKey l r)) ∧
      ((s.lat l).state ≠ .searching → (s.declareDead l r kind park).fld .tmpEventCntDead (l / 2) =
        min (s.fld .tmpEventCntDead (l / 2) + 1) (2 ^ Fld.tmpEventCntDead.width - 1)) := by
  obtain ⟨x, hx, hburied⟩ := State.buryRing_drives kind park hrow
  unfold State.declareDead
  extract_lets search buried logged settled
  split
  next hsearch => exact ⟨hburied.ring ▸ hx, fun h => absurd (by simpa [search] using hsearch) h⟩
  next =>
    have hlogged : KeepsRings (buried.bump .tmpEventCntDead (l / 2)) logged := State.event_keepsRings ..
    have hend : KeepsRings (buried.bump .tmpEventCntDead (l / 2))
        (if (settled.lat l).deadOk then settled else settled.fenceLattice l 12) :=
      (hlogged.trans (logged.settle_clears l).keepsRings).trans (.ite (.refl settled) (settled.fenceLattice_keepsRings 12 hl))
    refine ⟨?_, fun _ => ?_⟩
    · rw [State.ring_congr hend.rings]
      exact hburied.ring ▸ hx
    · rw [hend.fld _ _ (by decide) (by omega), State.fld_bump_same _ _ _ _ (by decide),
        hburied.fld _ _ (by decide) (by omega) (by omega)]
      rfl

/-! ## Relock ramps (R301) -/

section
variable {l : Fin 8} {r : Fin 131072} {s : State} (hst : (s.ringNow l r).st = .relocking)
include hst

theorem State.zeroRow_of_relocking : s.zeroRow l r = false :=
  State.zeroRow_of_ringState (by rw [← State.ringNow_st, hst]; decide)

/-- What a visit of a ring whose relock ramp goes on does, by its code and what it has read. -/
theorem exec_relockRampStep_ramping (d : BitVec 14) (hstopped : (s.ringNow l r).stopped = false) :
    exec (.relockRampStep l r d) s = .next (
      if (s.ringNow l r).atMaximum d.toNat 0 then (s.rampStop l r).modLat l fun y => { y with roundDue := true }
      else if (s.ringNow l r).code = 4095 then s.declareDead l r 0 (parkCode (s.ringNow l r).maxima)
      else s.rampOn l r d.toNat) := by
  change execRelockRampStep l r d s = _
  unfold execRelockRampStep
  dsimp only
  have hown : s.ringState l r = .relocking := hst
  rw [if_neg (by simp [hown, hstopped])]
  repeat' split
  all_goals rfl

theorem exec_relockTimeout_relocking :
    exec (.relockTimeout l r) s = .next (s.declareDead l r 1 (parkCode (s.ringNow l r).maxima)) := by
  change execRelockTimeout l r s = _
  unfold execRelockTimeout
  dsimp only
  rw [if_pos hst]

end

/-! ## Identity rounds (R298, R299) -/

theorem exec_identityRoundDue_open {l : Fin 8} {s : State} (h : (s.lat l).state = .locked ∨ (s.lat l).state = .suspect ∨
      ((s.lat l).state = .serving ∧ s.onPhase (s.fld .tmpCtrlIdPeriod (l.val / 2) * 1000000000) 0 = true)) :
    exec (.identityRoundDue l) s = .next (s.setLat l { s.lat l with roundDue := true }) := by
  change execIdentityRoundDue l s = _
  unfold execIdentityRoundDue
  obtain h | h | ⟨h, hphase⟩ := h
  · rw [h]
    rfl
  · rw [h]
    rfl
  · rw [h]
    dsimp only
    rw [if_pos hphase]
    rfl

/-- The rings of a lattice that have a record. -/
def State.ringsOf (s : State) (l : Nat) : List Nat :=
  (s.rings.filter fun e => e.1 / 131072 == l).map fun e => e.1 % 131072

theorem State.ringsOf_one {s : State} {l r : Nat} {x : Ring} (hr : r < 131072) (hrings : s.rings = [(ringKey l r, x)]) :
    s.ringsOf l = [r] := by
  have hlat : ringKey l r / 131072 = l := by unfold ringKey; omega
  have hring : ringKey l r % 131072 = r := by unfold ringKey; omega
  simp [State.ringsOf, hrings, hlat, hring]

/-- A round that is over (R299). -/
def State.roundOver (s : State) (l : Nat) : State :=
  s.modLat l fun x => { x with roundLeft := 0, roundDue := s.anyRing l (fun y => y.st == .relocking && y.stopped),
                               lastPass := s.time }

theorem exec_identityRoundComplete_over {l : Fin 8} {s : State} (readings : List (Nat × Int)) (lines : List (Nat × Nat))
    (hleft : (s.lat l).roundLeft = 3) : exec (.identityRoundComplete l readings lines) s =
      .next ((((forEach (s.ringsOf l) (fun u r => u.checkRing l (s.lat l).lastPass readings lines r) s).roundOver l).settle
        l).tryEndUpset (l.val / 2)) := by
  change execIdentityRoundComplete l readings lines s = _
  unfold execIdentityRoundComplete
  dsimp only
  rw [if_neg (by simp [hleft])]
  rfl

/-- What the end of a round leaves besides the rings' own records. -/
theorem State.roundOver_keepsRings (s : State) (l : Nat) : KeepsRings s (((s.roundOver l).settle l).tryEndUpset (l / 2)) :=
  ((KeepsRings.modLat s l rfl).trans (State.settle_clears _ l).keepsRings).trans (State.tryEndUpset_keepsRings _ _)

theorem State.roundOver_outcome {s : State} {l : Nat} (hupset : (s.bay (l / 2)).upset = false) :
    let t := ((s.roundOver l).settle l).tryEndUpset (l / 2)
    (t.lat l).roundLeft = 0 ∧ (t.lat l).lastPass = s.time ∧ (t.lat l).state = (s.lat l).state ∧ t.mem = s.mem ∧
      t.threads = s.threads := by
  have hsettled := (s.roundOver l).settle_clears l
  obtain ⟨h, e, c, hlat⟩ := hsettled.lat l
  have hbay : (((s.roundOver l).settle l).bay (l / 2)).upset = false := by
    rw [State.bay_congr (s := s) (by rw [hsettled.frame]; rfl), hupset]
  dsimp only
  rw [State.tryEndUpset_of_none _ hbay, hlat, State.roundOver, State.lat_modLat_same]
  refine ⟨rfl, rfl, rfl, ?_, ?_⟩
  · exact (congrArg State.mem hsettled.frame).trans rfl
  · exact (congrArg State.threads hsettled.frame).trans rfl

/-- The end of a round in a lattice with one ring on record checks that ring. -/
theorem exec_identityRoundComplete_one {l : Fin 8} {r : Fin 131072} {s : State} {x : Ring} (readings : List (Nat × Int))
    (hleft : (s.lat l).roundLeft = 3) (hrings : s.rings = [(ringKey l r, x)]) :
    exec (.identityRoundComplete l readings []) s =
      .next ((((s.checkRing l (s.lat l).lastPass readings [] r).roundOver l).settle l).tryEndUpset (l.val / 2)) := by
  rw [exec_identityRoundComplete_over readings [] hleft, State.ringsOf_one r.isLt hrings]
  rfl

/-! ## What a round finds (R298) -/

/-- A locked ring's record as it passes the identity check at temperature `temp`. -/
def Ring.passedAt (x : Ring) (temp : Int) : Ring :=
  { x with excursion := none, marked := false, passed := true, atPass := toQ15 x.r, temp := temp }

theorem State.checkRing_passes {s : State} {l r : Nat} (t0 : Nat) (lines : List (Nat × Nat)) (hst : s.ringState l r = .locked)
    (hnear : (toQ15 (s.ringNow l r).r - s.expectedSet l r (s.ringNow l r)).natAbs ≤ 856) :
    s.checkRing l t0 [] lines r = s.setRing (ringKey l r) ((s.ringNow l r).passedAt (s.ringTemp l r)) := by
  unfold State.checkRing
  dsimp only
  rw [State.ringNow_st, hst]
  dsimp only
  rw [if_neg (by simp only [List.any_nil, Bool.false_or, decide_eq_true_eq]; omega)]
  rw [Ring.passedAt, State.ringNow_st, hst]

theorem State.checkRing_dark {s : State} {l r t0 : Nat} {e : Int} (lines : List (Nat × Nat)) (hst : s.ringState l r = .locked)
    (hdark : e < -8) : s.checkRing l t0 [(r, e)] lines r = s.wrongLine l r t0 := by
  unfold State.checkRing
  dsimp only
  rw [State.ringNow_st, hst]
  dsimp only
  rw [if_pos (by simp [hdark])]

/-- A ring whose relock begins at code `c`. -/
def Ring.relockedAt (x : Ring) (c : Nat) : Ring :=
  { x with st := .relocking, excursion := none, stopped := false, rising := false, prevCode := c, maxima := [], e := none }

theorem State.relock_drives {s : State} {l r : Nat} (hrow : s.zeroRow l r = false) :
    ∃ c, Drives l r { (s.ringNow l r).relockedAt c with code := c } s (s.relock l r) :=
  ⟨_, State.setRing_issueCode_drives (x := (s.ringNow l r).relockedAt _) _ hrow (by simp [Ring.relockedAt])⟩

/-- The row of a ring that is not zero-held in service is not masked, and stays so with the map of dead elements. -/
theorem State.zeroRow_of_dem {s t : State} {l r : Nat} (hst : s.ringState l r ≠ .zeroHeld)
    (hserving : (s.lat l).state = .serving) (hdem : (t.lat l).dem = (s.lat l).dem) : t.zeroRow l r = false := by
  have hrow := State.zeroRow_of_ringState hst
  have hmask : (s.lat l).maskedRows.contains (r / 256) = false := by
    simpa [State.zeroRow, hserving, LatState.lit] using hrow
  have hsame : (t.lat l).maskedRows = (s.lat l).maskedRows := by rw [Lattice.maskedRows, hdem, Lattice.maskedRows]
  rw [State.zeroRow, hsame, hmask, Bool.and_false]

/-- The first wrong-line lock of a ring in service: noted with its time, counted, and the ring relocks. -/
theorem State.wrongLine_outcome {s : State} {l r : Nat} (t0 : Nat) (hl : l < 8) (hserving : (s.lat l).state = .serving)
    (hst : s.ringState l r = .locked) (hnone : (s.ringNow l r).wrongTimes = []) :
    ((s.wrongLine l r t0).ring (ringKey l r)).st = .relocking ∧
    ((s.wrongLine l r t0).ring (ringKey l r)).wrongTimes = [s.time] ∧
    (s.wrongLine l r t0).fld .tmpEventCntWrongLine (l / 2) =
      min (s.fld .tmpEventCntWrongLine (l / 2) + 1) (2 ^ Fld.tmpEventCntWrongLine.width - 1) := by
  unfold State.wrongLine
  extract_lets x counted times search noted raised
  have htimes : times = [s.time] := by simp [times, x, hnone, counted]
  have hsearch : search = false := by simp [search, counted, hserving]
  have hraised : KeepsRings noted raised := by
    simp only [raised, hsearch]
    exact noted.raiseCause_keepsRings .wrongLine _ hl
  have hrow : raised.zeroRow l r = false :=
    State.zeroRow_of_dem (by rw [hst]; decide) hserving ((hraised.dem l).trans (by simp [noted, counted]))
  obtain ⟨c, hrelocks⟩ := State.relock_drives hrow
  have hown : raised.ring (ringKey l r) = noted.ring (ringKey l r) := State.ring_congr hraised.rings _
  have hnoted : (noted.ring (ringKey l r)).wrongTimes = times := by rw [State.ring_setRing_same]
  rw [if_neg (by simp [hsearch, htimes])]
  refine ⟨by rw [hrelocks.ring]; rfl, ?_, ?_⟩
  · rw [hrelocks.ring]
    exact (congrArg Ring.wrongTimes hown).trans (hnoted.trans htimes)
  · rw [hrelocks.fld _ _ (by decide) (by omega) (by omega), hraised.fld _ _ (by decide) (by omega)]
    change counted.fld .tmpEventCntWrongLine (l / 2) = _
    rw [State.fld_bump_same _ _ _ _ (by decide), State.fld_event (Fld.key_event (by decide))]

/-- Settles O54: a round's end checks each ring on record, and neither what it does after that nor the SUSPECT entry, the fence
or the rewound threads that a failure brings touch the rings' records again (`KeepsRings`). -/
theorem identityRounds : Obligations.IdentityRounds := by
  refine ⟨fun l s h => exec_identityRoundDue_open h, fun l s hleft hstate hrings hupset => ?empty,
    fun l r d s hst hstopped => ?ramp, fun l r s hst hstate => ?timeout,
    fun l r x s hleft hstate hrings hst hupset hnear => ?passes,
    fun l r x e s hleft hstate hrings hst hupset hnone hdark => ?dark⟩
  case empty =>
    have hnoRings : s.ringsOf l = [] := by simp [State.ringsOf, hrings]
    obtain ⟨hleft', hpass, hstate', hmem, hthreads⟩ := State.roundOver_outcome (s := s) (l := l) hupset
    refine ⟨_, exec_identityRoundComplete_over [] [] hleft, ?_⟩
    rw [hnoRings]
    exact ⟨hleft', hpass, hstate'.trans hstate, hmem, hthreads⟩
  case ramp =>
    have hrow := State.zeroRow_of_relocking hst
    have hlit : s.ringState l r ≠ .off := by rw [← State.ringNow_st, hst]; decide
    have hexec := exec_relockRampStep_ramping hst d hstopped
    refine ⟨fun hrising hdrop => ?maximum, fun hrising hcode => ?top, fun hrising hcode => ?on⟩
    case maximum =>
      rw [if_pos (by simp [Ring.atMaximum, hrising, hdrop])] at hexec
      exact ⟨_, hexec, (State.rampStop_drives hrow hlit).ring, by rw [State.lat_modLat_same]⟩
    case top =>
      rw [if_neg (by simp [Ring.atMaximum, hrising]), if_pos hcode] at hexec
      obtain ⟨⟨hparked, hdead⟩, -⟩ := State.declareDead_outcome 0 (parkCode (s.ringNow l r).maxima) l.isLt hrow
      exact ⟨_, hexec, hparked, hdead⟩
    case on =>
      rw [if_neg (by simp [Ring.atMaximum, hrising]), if_neg hcode] at hexec
      have hdrives := State.rampOn_drives hrow hlit d.toNat
      refine ⟨_, hexec, hdrives.ring.trans ?_, hdrives.frame⟩
      simp [Ring.rampedOn, hrising]
  case timeout =>
    obtain ⟨⟨hparked, hdead⟩, hcount⟩ := State.declareDead_outcome 1 (parkCode (s.ringNow l r).maxima) l.isLt
      (State.zeroRow_of_relocking hst)
    exact ⟨_, exec_relockTimeout_relocking hst, hparked, hdead, hcount hstate⟩
  case passes =>
    have hown : s.ring (ringKey l r) = x := by simp [State.ring, hrings, tget]
    refine ⟨_, exec_identityRoundComplete_one [] hleft hrings, ?_⟩
    rw [State.checkRing_passes _ _ hst (by simpa [State.ringNow, hown] using hnear)]
    set u := s.setRing (ringKey l r) ((s.ringNow l r).passedAt (s.ringTemp l r)) with hu
    have hring : u.ring (ringKey l r) = (s.ringNow l r).passedAt (s.ringTemp l r) := State.ring_setRing_same ..
    obtain ⟨-, hpass, -⟩ := State.roundOver_outcome (s := u) (l := l) hupset
    rw [State.ring_congr (u.roundOver_keepsRings l).rings, hring]
    exact ⟨rfl, by rw [← hown]; rfl, rfl, rfl, hpass⟩
  case dark =>
    have hown : s.ring (ringKey l r) = x := by simp [State.ring, hrings, tget]
    refine ⟨_, exec_identityRoundComplete_one _ hleft hrings, ?_⟩
    rw [State.checkRing_dark _ hst hdark]
    obtain ⟨hrelocks, htimes, hcount⟩ :=
      State.wrongLine_outcome (s.lat l).lastPass l.isLt hstate hst (by rw [← hnone, ← hown]; rfl)
    have hover := (s.wrongLine l r (s.lat l).lastPass).roundOver_keepsRings l
    rw [State.ring_congr hover.rings, hover.fld _ _ (by decide) (by omega)]
    exact ⟨hrelocks, htimes, hcount⟩

end Sys2Proof.Machine
end

section
/-! PROOFS. Heater ticks (R315, R317): what a tick does to the taps of a cluster that lists each of them once, and where the
statement on the temper engines and heaters fails, in a cluster that lists a tap twice. -/

namespace Sys2Proof.Machine

/-! ## A tick without a pop or a hold -/

/-- An applied code after a tick that finds nothing to pop: the limiter's move where it is due (R317). -/
def Cluster.nextCode (c : Cluster) (e : Tap) : Nat :=
  if c.req then 0 else if c.tick + 1 < c.rate then e.code else slew c.step e.code e.target

/-- A tap after such a tick. -/
def Cluster.nextTap (c : Cluster) (e : Tap) : Tap :=
  let t := sineTable ((c.phase + BitVec.ofNat 24 c.ftw).toNat / 2 ^ 16)
  { e with code := c.nextCode e, out := ditherOut c.den c.high t c.amp (c.nextCode e) }

theorem Cluster.tickOnce_taps {c : Cluster} (hqueue : c.queue = []) (hhold : c.hold = false) (time : Nat) :
    (c.tickOnce time).taps = (c.taps.map fun e => (e.1, c.nextTap e.2)).filter fun e => e.2 ≠ Tap.reset := by
  have hpop : c.pop time = c := by simp [Cluster.pop, hqueue]
  unfold Cluster.tickOnce
  rw [hpop]
  by_cases hreq : c.req = true
  · simp [hreq, Cluster.nextTap, Cluster.nextCode]
  · by_cases hrate : c.rate ≤ c.tick + 1
    · simp [hreq, hhold, hrate, Nat.not_lt.mpr hrate, Cluster.nextTap, Cluster.nextCode]
    · simp [hreq, hhold, hrate, Nat.not_le.mp hrate, Cluster.nextTap, Cluster.nextCode]

theorem Cluster.nextTap_reset (c : Cluster) : c.nextTap Tap.reset = Tap.reset := by
  have hcode : c.nextCode Tap.reset = 0 := by simp [Cluster.nextCode, slew, Tap.reset]
  rw [Cluster.nextTap, hcode]
  rfl

theorem tget_of_lt {α : Type} [DecidableEq α] {d : α} {t : Tbl α} {lo i : Nat} (hwf : twfFrom d lo t = true) (hi : i < lo) :
    tget d t i = d := by
  induction t generalizing lo with
  | nil => rfl
  | cons e t ih =>
    simp only [twfFrom, Bool.and_eq_true, decide_eq_true_eq] at hwf
    rw [tget, if_neg (by omega), ih hwf.2 (by omega)]

/-- In a canonical table a change of every entry, with those dropped that become the default, reads as the change. -/
theorem tget_map_filter {α : Type} [DecidableEq α] {d : α} {f : α → α} (hf : f d = d) {t : Tbl α} {lo : Nat}
    (hwf : twfFrom d lo t = true) (i : Nat) :
    tget d ((t.map fun e => (e.1, f e.2)).filter fun e => e.2 ≠ d) i = f (tget d t i) := by
  induction t generalizing lo with
  | nil => exact hf.symm
  | cons e t ih =>
    simp only [twfFrom, Bool.and_eq_true, decide_eq_true_eq] at hwf
    have ih := ih hwf.2
    by_cases hi : e.1 = i
    · by_cases hd : f e.2 = d
      · simp only [List.map_cons, List.filter_cons, hd, ne_eq, not_true_eq_false, decide_false, tget, if_pos hi]
        exact ih.trans (by rw [tget_of_lt hwf.2 (by omega), hf])
      · simp [hd, tget, hi]
    · by_cases hd : f e.2 = d
      · simpa [hd, tget, hi] using ih
      · simpa [hd, tget, hi] using ih

/-- Where a cluster's table of taps is canonical, every tap's code after the tick is the limiter's (R317). -/
theorem Cluster.tickOnce_codes {c : Cluster} (hqueue : c.queue = []) (hhold : c.hold = false)
    (hwf : twf Tap.reset c.taps = true) (time i : Nat) : (tget Tap.reset (c.tickOnce time).taps i).code = c.nextCode (tget Tap.reset c.taps i) := by
  rw [Cluster.tickOnce_taps hqueue hhold, tget_map_filter c.nextTap_reset hwf]
  rfl

/-! ## A tap listed twice -/

/-- A cluster that lists tap 0 twice, first as at reset, then at code 5; its limiter moves at every other tick. -/
def tapTwice : Cluster := { Cluster.reset with rate := 2, taps := [(0, Tap.reset), (0, { Tap.reset with code := 5 })] }

/-- A running device with that cluster in a bay in RUN. -/
def tapListedTwice : State :=
  { State.reset with
    boot := { State.reset.boot with on := true, stage := 5 }
    bays := [(0, { Bay.reset with power := .run })]
    clusters := [(0, tapTwice)] }

theorem tapListedTwice_ticks : tapListedTwice.heatersOn 0 = true ∧ tapListedTwice.power.tripLatched = false ∧
    tapListedTwice.onPhase 4096 0 = true ∧ tapListedTwice.cluster 0 = tapTwice := by decide

/-- The tick drops the first entry, which is as at reset, and the tap then reads as the second. -/
theorem heaterTick_tapListedTwice : (nextState (exec (.heaterTick 0) tapListedTwice)).map
    (fun t => (tget Tap.reset (t.cluster 0).taps 0).code) = some 5 := by decide +kernel

/-- Refutes O55 in its clause on the codes after a heater tick, which speaks of every state: in `tapListedTwice` a tap at
code 0 reads code 5 after a tick that moves no code. A write of a tap keeps the table canonical (`twf_tset`), and where it is
canonical the clause holds (`Cluster.tickOnce_codes`). -/
theorem not_temperAndHeaters : ¬ Obligations.TemperAndHeaters := by
  unfold Obligations.TemperAndHeaters
  rintro ⟨-, -, -, -, -, -, -, -, htick, -⟩
  obtain ⟨hon, htrip, hphase, hcluster⟩ := tapListedTwice_ticks
  obtain ⟨t, ht, -, -, -, -, -, -, hcodes⟩ := (htick 0 tapListedTwice hon htrip hphase (by decide) (by decide)).nextState
  have hread : (tget Tap.reset (t.cluster 0).taps 0).code = 5 := nextState_view ht heaterTick_tapListedTwice
  exact absurd (hread.symm.trans (hcodes 0)) (by decide)

end Sys2Proof.Machine
end

section
/-! PROOFS. What every step keeps (R395, R418): the invariant, and fuses that only rise. -/

namespace Sys2Proof.Machine

/-- Every command keeps what its meaning keeps (R395, R418). -/
theorem exec_keeps (c : Instr) (s : State) : KeepsOut s (exec c s) :=
  match c with
  | .perstNDeassert msSincePwrOk => execPerstNDeassert_keeps msSincePwrOk s
  | .perstNAssert => execPerstNAssert_keeps s
  | .perstDeferredEffect => execPerstDeferredEffect_keeps s
  | .pwrOkAssert => execPwrOkAssert_keeps s
  | .pwrOkDeassert => execPwrOkDeassert_keeps s
  | .railOutOfWindow r => execRailOutOfWindow_keeps r s
  | .vddAuxPowerUp clksel => execVddAuxPowerUp_keeps clksel s
  | .vddAuxLoss => execVddAuxLoss_keeps s
  | .nvmRestart p => execNvmRestart_keeps p s
  | .internalError w => execInternalError_keeps w s
  | .handshakeStall j => execHandshakeStall_keeps j s
  | .burstBoundary l => execBurstBoundary_keeps l s
  | .shadowLoadComplete l => execShadowLoadComplete_keeps l s
  | .burstResolve l => execBurstResolve_keeps l s
  | .drainComplete d => execDrainComplete_keeps d s
  | .darkeningComplete l => execDarkeningComplete_keeps l s
  | .latFenceReq p l => execLatFenceReq_keeps p l s
  | .latCtrlWrite p l v => execLatCtrlWrite_keeps p l v s
  | .searchComplete l => execSearchComplete_keeps l s
  | .searchTimeout l => execSearchTimeout_keeps l s
  | .calCheckEnd l => execCalCheckEnd_keeps l s
  | .suspectTimeout l => execSuspectTimeout_keeps l s
  | .linePowerRecoveryTimeout l => execLinePowerRecoveryTimeout_keeps l s
  | .readoutSelfTestEnd l chain pass => execReadoutSelfTestEnd_keeps l chain pass s
  | .readoutRetestTimer l chain => execReadoutRetestTimer_keeps l chain s
  | .matmul t => execMatmul_keeps t s
  | .vec t => execVec_keeps t s
  | .move t => execMove_keeps t s
  | .gather t => execGather_keeps t s
  | .route t => execRoute_keeps t s
  | .exit t => execExit_keeps t s
  | .gate t => execGate_keeps t s
  | .signal t check => execSignal_keeps t check s
  | .wait t check => execWait_keeps t check s
  | .waitSatisfied t => execWaitSatisfied_keeps t s
  | .waitTimeout t => execWaitTimeout_keeps t s
  | .putComplete t => execPutComplete_keeps t s
  | .takeReserve t => execTakeReserve_keeps t s
  | .fence t => execFence_keeps t s
  | .fenceComplete t => execFenceComplete_keeps t s
  | .setmode t => execSetmode_keeps t s
  | .branch t check => execBranch_keeps t check s
  | .stepComplete t k => execStepComplete_keeps t k s
  | .transferComplete t src addr bytes check => execTransferComplete_keeps t src addr bytes check s
  | .larderFillComplete b line check => execLarderFillComplete_keeps b line check s
  | .blockedStreamCheck b => execBlockedStreamCheck_keeps b s
  | .bind p e ed ml keyIndex table bundle => execBind_keeps p e ed ml keyIndex table bundle s
  | .start p e => execStart_keeps p e s
  | .startAdmitted p e => execStartAdmitted_keeps p e s
  | .reset p e => execReset_keeps p e s
  | .release p e => execRelease_keeps p e s
  | .clearwarn p e => execClearwarn_keeps p e s
  | .heartSample p e => execHeartSample_keeps p e s
  | .leaseExpiry p e => execLeaseExpiry_keeps p e s
  | .watchedWordWrite addr => execWatchedWordWrite_keeps addr s
  | .polledWordRead b => execPolledWordRead_keeps b s
  | .hostLineInvalidate line data => execHostLineInvalidate_keeps line data s
  | .heldSignalTimeout src flow => execHeldSignalTimeout_keeps src flow s
  | .allowanceEval => execAllowanceEval_keeps s
  | .halfClockEnter => execHalfClockEnter_keeps s
  | .halfClockExit => execHalfClockExit_keeps s
  | .packagePowerSample watts => execPackagePowerSample_keeps watts s
  | .scrubRead b line check forced => execScrubRead_keeps b line check forced s
  | .cxlLinkTrained rate width level bi => execCxlLinkTrained_keeps rate width level bi s
  | .linkLoss => execLinkLoss_keeps s
  | .configRequest off wr => execConfigRequest_keeps off wr s
  | .cxlMemRead peer h check => execCxlMemRead_keeps peer h check s
  | .cxlMemWrite peer h data check => execCxlMemWrite_keeps peer h data check s
  | .cxlAtomicOp h wide op => execCxlAtomicOp_keeps h wide op s
  | .hostOwnershipRequest h exclusive check => execHostOwnershipRequest_keeps h exclusive check s
  | .recallTimer h => execRecallTimer_keeps h s
  | .bisnpResponse h modified => execBisnpResponse_keeps h modified s
  | .bar2Read x => execBar2Read_keeps x s
  | .bar2Write x v => execBar2Write_keeps x v s
  | .globalPersistentFlush => execGlobalPersistentFlush_keeps s
  | .identify => execIdentify_keeps s
  | .getLog id => execGetLog_keeps id s
  | .getEventRecords log => execGetEventRecords_keeps log s
  | .clearEventRecords log count => execClearEventRecords_keeps log count s
  | .getEventInterruptPolicy => execGetEventInterruptPolicy_keeps s
  | .setEventInterruptPolicy info warn fail fatal => execSetEventInterruptPolicy_keeps info warn fail fatal s
  | .getTimestamp => execGetTimestamp_keeps s
  | .setTimestamp v => execSetTimestamp_keeps v s
  | .tableAccess handle => execTableAccess_keeps handle s
  | .complianceRequest inject code => execComplianceRequest_keeps inject code s
  | .injTxCrc p count => execInjTxCrc_keeps p count s
  | .injRxCrc p count => execInjRxCrc_keeps p count s
  | .injMemPoison p count => execInjMemPoison_keeps p count s
  | .injCreditHold p count delayUs => execInjCreditHold_keeps p count delayUs s
  | .injCreditHoldEnd => execInjCreditHoldEnd_keeps s
  | .injCacheFail p count => execInjCacheFail_keeps p count s
  | .lightDetected p => execLightDetected_keeps p s
  | .portTrainingDone p lanes peerVer peerDev peerPort credits => execPortTrainingDone_keeps p lanes peerVer peerDev peerPort credits s
  | .portTrainingTimeout p => execPortTrainingTimeout_keeps p s
  | .portTrainingRetry p => execPortTrainingRetry_keeps p s
  | .codewordReceived p lane first check => execCodewordReceived_keeps p lane first check s
  | .laneRetrainDone p lane ok => execLaneRetrainDone_keeps p lane ok s
  | .retryTimeout p lane => execRetryTimeout_keeps p lane s
  | .idle p lane f => execIdle_keeps p lane f s
  | .link p lane f => execLink_keeps p lane f s
  | .write p lane f => execWrite_keeps p lane f s
  | .readReq p lane f check => execReadReq_keeps p lane f check s
  | .readResp p lane f => execReadResp_keeps p lane f s
  | .casReq p lane f check => execCasReq_keeps p lane f check s
  | .casResp p lane f => execCasResp_keeps p lane f s
  | .signalFrame p lane f check => execSignalFrame_keeps p lane f check s
  | .e2eAck p lane f => execE2eAck_keeps p lane f s
  | .e2eNack p lane f => execE2eNack_keeps p lane f s
  | .mcWrite p lane f => execMcWrite_keeps p lane f s
  | .mcOpen p lane f => execMcOpen_keeps p lane f s
  | .mcAck p lane f => execMcAck_keeps p lane f s
  | .mcPrune p lane f => execMcPrune_keeps p lane f s
  | .mcRepair p lane f => execMcRepair_keeps p lane f s
  | .reservedFrame p lane f => execReservedFrame_keeps p lane f s
  | .e2eAckTimer src flow => execE2eAckTimer_keeps src flow s
  | .flowTimeout dst flow => execFlowTimeout_keeps dst flow s
  | .heldFrameTimeout src flow => execHeldFrameTimeout_keeps src flow s
  | .mcWriteHoldTimeout src flow => execMcWriteHoldTimeout_keeps src flow s
  | .mcStall group port => execMcStall_keeps group port s
  | .hnxStall p cls set => execHnxStall_keeps p cls set s
  | .portRetrain path p => execPortRetrain_keeps path p s
  | .profileChange path v => execProfileChange_keeps path v s
  | .hnxInjDropWire path v => execHnxInjDropWire_keeps path v s
  | .hnxInjDropEarly path v => execHnxInjDropEarly_keeps path v s
  | .hnxInjBitFlip path v => execHnxInjBitFlip_keeps path v s
  | .hnxInjE2eFlip path v => execHnxInjE2eFlip_keeps path v s
  | .hnxInjReorder path v => execHnxInjReorder_keeps path v s
  | .honeycombStartTimeout h => execHoneycombStartTimeout_keeps h s
  | .combRetry h => execCombRetry_keeps h s
  | .linePowerComparator h => execLinePowerComparator_keeps h s
  | .linePowerSample h powers => execLinePowerSample_keeps h powers s
  | .biasReevaluation h weakestInHand bias after => execBiasReevaluation_keeps h weakestInHand bias after s
  | .identityFrame l r samples => execIdentityFrame_keeps l r samples s
  | .searchRampVisit l r drop => execSearchRampVisit_keeps l r drop s
  | .identityRoundDue l => execIdentityRoundDue_keeps l s
  | .identityRoundComplete l readings lines => execIdentityRoundComplete_keeps l readings lines s
  | .relockRampStep l r drop => execRelockRampStep_keeps l r drop s
  | .relockTimeout l r => execRelockTimeout_keeps l r s
  | .innerLoopVisit l r => execInnerLoopVisit_keeps l r s
  | .spanHoldEnd q => execSpanHoldEnd_keeps q s
  | .feedforwardVisit l r deltaT => execFeedforwardVisit_keeps l r deltaT s
  | .monitorConversion k slot => execMonitorConversion_keeps k slot s
  | .heaterTick q => execHeaterTick_keeps q s
  | .bankSwap p b v => execBankSwap_keeps p b v s
  | .traceTrigger p b ch => execTraceTrigger_keeps p b ch s
  | .monTestCont p b v => execMonTestCont_keeps p b v s
  | .rampStep l => execRampStep_keeps l s
  | .residualPublish l rms bias => execResidualPublish_keeps l rms bias s
  | .calEpisodeStart p l => execCalEpisodeStart_keeps p l s
  | .episodeInterval l sweeps rms bias maxTrim => execEpisodeInterval_keeps l sweeps rms bias maxTrim s
  | .episodeTimeout l => execEpisodeTimeout_keeps l s
  | .calSaveDue => execCalSaveDue_keeps s
  | .calSaveRequest p => execCalSaveRequest_keeps p s
  | .calSaveComplete => execCalSaveComplete_keeps s
  | .journalPageProgram => execJournalPageProgram_keeps s
  | .compactionStart => execCompactionStart_keeps s
  | .jnlCompact p => execJnlCompact_keeps p s
  | .compactionSwitch => execCompactionSwitch_keeps s
  | .halfEraseDone => execHalfEraseDone_keeps s
  | .flashTempRead r => execFlashTempRead_keeps r s
  | .powerRequest b => execPowerRequest_keeps b s
  | .powerTransitionComplete b => execPowerTransitionComplete_keeps b s
  | .powerRequestRetry b => execPowerRequestRetry_keeps b s
  | .proofSlice b errs => execProofSlice_keeps b errs s
  | .idleStateWrite p b v => execIdleStateWrite_keeps p b v s
  | .powerLimitSet p v => execPowerLimitSet_keeps p v s
  | .thermalSample readings => execThermalSample_keeps readings s
  | .powerLimitStep => execPowerLimitStep_keeps s
  | .telemetrySample => execTelemetrySample_keeps s
  | .referenceLost => execReferenceLost_keeps s
  | .refMeasure offset => execRefMeasure_keeps offset s
  | .pllLossOfLock j => execPllLossOfLock_keeps j s
  | .pllRelockTimeout j => execPllRelockTimeout_keeps j s
  | .avsVoltageWrite mv ack => execAvsVoltageWrite_keeps mv ack s
  | .avsWriteRetry ack => execAvsWriteRetry_keeps ack s
  | .tokenDebug p sig digestOk => execTokenDebug_keeps p sig digestOk s
  | .ownerEnrol p sig digestOk => execOwnerEnrol_keeps p sig digestOk s
  | .ownerRelease p sig digestOk => execOwnerRelease_keeps p sig digestOk s
  | .newNonce p => execNewNonce_keeps p s
  | .tokenEnd p => execTokenEnd_keeps p s
  | .tokenExpiry => execTokenExpiry_keeps s
  | .nonceExpiry => execNonceExpiry_keeps s
  | .nonceRead p => execNonceRead_keeps p s
  | .getVersion c => execGetVersion_keeps c s
  | .getCapabilities c => execGetCapabilities_keeps c s
  | .negotiateAlgorithms c ed25519 sha384 => execNegotiateAlgorithms_keeps c ed25519 sha384 s
  | .getDigests c => execGetDigests_keeps c s
  | .getCertificate c slot off len => execGetCertificate_keeps c slot off len s
  | .challenge c slot nonce => execChallenge_keeps c slot nonce s
  | .getMeasurements c index signed nonce => execGetMeasurements_keeps c index signed nonce s
  | .chunkGet c seq => execChunkGet_keeps c seq s
  | .getPqChain c off len => execGetPqChain_keeps c off len s
  | .countersign c => execCountersign_keeps c s
  | .fenceClear p v => execFenceClear_keeps p v s
  | .mctpControl ep setEid => execMctpControl_keeps ep setEid s
  | .i3cAddressAssign setdasa addr => execI3cAddressAssign_keeps setdasa addr s
  | .submitTokenCmd ep bytes sig digestOk => execSubmitTokenCmd_keeps ep bytes sig digestOk s
  | .readNonceCmd ep => execReadNonceCmd_keeps ep s
  | .readEventsCmd ep seq count => execReadEventsCmd_keeps ep seq count s
  | .readRegisterCmd ep off => execReadRegisterCmd_keeps ep off s
  | .writeRegisterCmd ep off v => execWriteRegisterCmd_keeps ep off v s
  | .clearFenceCmd ep l => execClearFenceCmd_keeps ep l s
  | .warmRestartCmd ep => execWarmRestartCmd_keeps ep s
  | .upkeepPhaseCmd ep => execUpkeepPhaseCmd_keeps ep s
  | .getTid ep => execGetTid_keeps ep s
  | .getSensorReading ep id => execGetSensorReading_keeps ep id s
  | .setEffecter ep id v => execSetEffecter_keeps ep id v s
  | .pollPlatformEvent ep => execPollPlatformEvent_keeps ep s
  | .requestUpdate ep agent component => execRequestUpdate_keeps ep agent component s
  | .firmwareDataReceived ep agent bytes image => execFirmwareDataReceived_keeps ep agent bytes image s
  | .verifyComplete ep agent => execVerifyComplete_keeps ep agent s
  | .applyComplete ep agent => execApplyComplete_keeps ep agent s
  | .activateFirmware ep agent => execActivateFirmware_keeps ep agent s
  | .cancelUpdate ep agent => execCancelUpdate_keeps ep agent s
  | .updateAgentTimeout => execUpdateAgentTimeout_keeps s
  | .larderFlush p b => execLarderFlush_keeps p b s
  | .larderFlushDone b => execLarderFlushDone_keeps b s
  | .evtAlertClear p v => execEvtAlertClear_keeps p v s
  | .devStatusChgClear p v => execDevStatusChgClear_keeps p v s
  | .devStatusMaskWrite p v => execDevStatusMaskWrite_keeps p v s
  | .msixUnmask vector => execMsixUnmask_keeps vector s
  | .registerWrite off bytes v => execRegisterWrite_keeps off bytes v s
  | .honeycombReady h => execHoneycombReady_keeps h s
  | .pllRelocked j => execPllRelocked_keeps j s
  | .cxlLinkRecovery => execCxlLinkRecovery_keeps s
  | .cxlFlitError replay => execCxlFlitError_keeps replay s

theorem step_of_command {c : Instr} {rest : List Instr} {s : State} (h : s.pending = c :: rest) :
    step s = exec c { s with pending := rest } := by
  simp [step, h]

/-- A step does to the state with the front of its queue taken what `Keeps` allows. -/
theorem step_keeps {s t : State} (h : step s = .next t) : Keeps { s with pending := s.pending.tail } t := by
  cases hq : s.pending with
  | nil =>
    rw [step_of_no_command hq, Host.Outcome.next.injEq] at h
    subst h
    have hkept := idleTick_keeps s (Keeps.refl s)
    exact { hkept with pending := by rw [hkept.pending, hq]; rfl }
  | cons c rest => exact (exec_keeps c _).next (step_of_command hq ▸ h)

theorem Inv.tail {s : State} (h : Inv s) : Inv { s with pending := s.pending.tail } :=
  { h with waiting := List.all_eq_true.mpr fun _ hc => List.all_eq_true.mp h.waiting _ (List.mem_of_mem_tail hc) }

theorem Keeps.inv {s t : State} (h : Keeps s t) (hs : Inv s) : Inv t :=
  ⟨h.pending ▸ hs.waiting, h.mem hs.mem, h.hostMem hs.hostMem, h.log hs.log⟩

theorem exec_not_refused {c : Instr} (s : State) (hwf : c.wf = true) (r : Refusal) : exec c s ≠ .refused r := by
  obtain ⟨hends, -, hfaults⟩ := everyCommandEnds
  by_cases hin : ∀ h, HostLine c h → h.toNat < s.hostMemSize
  · obtain ⟨t, ht⟩ := hends c s hwf hin
    simp [ht]
  · push Not at hin
    obtain ⟨h, hline, hout⟩ := hin
    simp [hfaults c h s hline hout]

/-- Settles O4: each command's meaning keeps the invariant's parts (`exec_keeps`), and a waiting one fits its row. -/
theorem stepKeepsInvariant : Obligations.StepKeepsInvariant := by
  refine ⟨fun s t hs ht => (step_keeps ht).inv hs.tail, fun s r hs => ?_⟩
  cases hq : s.pending with
  | nil => simp [step_of_no_command hq]
  | cons c rest =>
    have hwf : c.wf = true := List.all_eq_true.mp hs.waiting c (by simp [hq])
    rw [step_of_command hq]
    exact exec_not_refused _ hwf r

/-- Settles O5: what a step keeps says it of the state with the front of its queue taken, whose fuses are the state's. -/
theorem fusesOnlyRise : Obligations.FusesOnlyRise := fun _ _ h =>
  have hkept := step_keeps h
  ⟨hkept.own, hkept.svn, hkept.pending⟩

end Sys2Proof.Machine
end

section
/-! PROOFS. SPDM (R403 to R405): what is asked of a connection in its order, and out of it. -/

namespace Sys2Proof.Machine

/-! ## Who is answered -/

section
variable {s : State} {c : Conn} (h : ConnOpen s c)
include h

/-- On an open connection a request in its order is run with the place of COUNTERSIGN given up. -/
theorem State.spdmRun_in_order {ok : Spdm → Bool} (hok : ok (s.spdm c) = true) (f : State → Spdm → State) :
    s.spdmRun c ok f = f s { s.spdm c with signed := false } := by
  obtain ⟨hon, hup, hconn⟩ := h
  have hreached : (c != .i3c && s.cxl.state != .l0) = false := by obtain rfl | hl0 := hconn <;> simp [*]
  simp [State.spdmRun, hon, hup, hreached, hok]

/-- Out of order it is answered with an error. -/
theorem State.spdmRun_out_of_order {ok : Spdm → Bool} (hok : ok (s.spdm c) = false) (f : State → Spdm → State) :
    s.spdmRun c ok f =
      { s.setSpdm c { s.spdm c with signed := false } with reply := .error spdmUnexpected } := by
  obtain ⟨hon, hup, hconn⟩ := h
  have hreached : (c != .i3c && s.cxl.state != .l0) = false := by obtain rfl | hl0 := hconn <;> simp [*]
  simp [State.spdmRun, hon, hup, hreached, hok, State.answer]

/-! ## Setting up -/

theorem exec_getVersion : exec (.getVersion c) s =
    .next { s.setSpdm c { Spdm.reset with versionGot := true } with
      reply := .data (Config.attest 0 s.free) false, free := s.free + 1 } := by
  change execGetVersion c s = _
  rw [execGetVersion, State.spdmRun_in_order h rfl]
  rfl

theorem exec_getCapabilities (hversion : (s.spdm c).versionGot = true) : exec (.getCapabilities c) s =
    .next { s.setSpdm c { s.spdm c with signed := false, capsGot := true } with
      reply := .data (Config.attest 1 s.free) false, free := s.free + 1 } := by
  change execGetCapabilities c s = _
  rw [execGetCapabilities, State.spdmRun_in_order h hversion]
  rfl

theorem exec_negotiateAlgorithms_agreed (hcaps : (s.spdm c).capsGot = true) :
    exec (.negotiateAlgorithms c true true) s =
      .next { s.setSpdm c { s.spdm c with signed := false, negotiated := true } with
        reply := .data (Config.attest 2 s.free) false, free := s.free + 1 } := by
  change execNegotiateAlgorithms c true true s = _
  rw [execNegotiateAlgorithms, State.spdmRun_in_order h hcaps]
  rfl

theorem exec_negotiateAlgorithms_refused (hcaps : (s.spdm c).capsGot = true) {a b : Bool} (hab : (a && b) = false) :
    exec (.negotiateAlgorithms c a b) s =
      .next { s.setSpdm c { s.spdm c with signed := false } with reply := .error spdmInvalid } := by
  change execNegotiateAlgorithms c a b s = _
  rw [execNegotiateAlgorithms, State.spdmRun_in_order h hcaps, hab]
  rfl

/-! ## Certificates -/

section
variable (hagreed : (s.spdm c).negotiated = true)
include hagreed

theorem exec_getDigests : exec (.getDigests c) s =
    .next { s.setSpdm c { s.spdm c with signed := false } with reply := .data (Config.attest 3 0) false } := by
  change execGetDigests c s = _
  rw [execGetDigests, State.spdmRun_in_order h hagreed]
  rfl

theorem exec_getCertificate (slot off len : Nat) : exec (.getCertificate c slot off len) s =
    .next { s.setSpdm c { s.spdm c with signed := false } with
      reply := if slot = 0 then .data (((Config.attest 4 0).drop off).take len) false else .error spdmInvalid } := by
  change execGetCertificate c slot off len s = _
  rw [execGetCertificate, State.spdmRun_in_order h hagreed]
  rfl

theorem exec_getPqChain (off : BitVec 32) (len : BitVec 16) : exec (.getPqChain c off len) s =
    .next { s.setSpdm c { s.spdm c with signed := false } with
      reply := .data (((Config.attest 7 0).drop off.toNat).take len.toNat) false } := by
  change execGetPqChain c off len s = _
  rw [execGetPqChain, State.spdmRun_in_order h hagreed]
  rfl

/-! ## Signed responses and measurements -/

theorem exec_challenge_slot0 (n : BitVec 256) : exec (.challenge c 0 n) s =
    .next { s.setSpdm c { s.spdm c with signed := true } with
      reply := .data (Config.attest 5 s.free ++ Config.edSign s.sec.edKey s.free) false, free := s.free + 1 } := by
  change execChallenge c 0 n s = _
  rw [execChallenge, State.spdmRun_in_order h hagreed]
  rfl

/-- Index 0 asks for the number of blocks, which a signed response signs. -/
theorem exec_getMeasurements_count (signed : Bool) (n : BitVec 256) : exec (.getMeasurements c 0 signed n) s =
    .next { s.setSpdm c { s.spdm c with signed := signed } with
      reply := .data (5 :: if signed then Config.edSign s.sec.edKey s.free else []) false,
      free := s.free + if signed then 1 else 0 } := by
  change execGetMeasurements c 0 signed n s = _
  rw [execGetMeasurements, State.spdmRun_in_order h hagreed]
  cases signed <;> rfl

theorem exec_getMeasurements_none (signed : Bool) (n : BitVec 256) {i : Nat} (hi : 5 < i) (hall : i ≠ 0xFF) :
    exec (.getMeasurements c i signed n) s =
      .next { s.setSpdm c { s.spdm c with signed := false } with reply := .error spdmInvalid } := by
  change execGetMeasurements c i signed n s = _
  have h0 : i ≠ 0 := by omega
  have h4 : ¬ i ≤ 4 := by omega
  have h5 : i ≠ 5 := by omega
  rw [execGetMeasurements, State.spdmRun_in_order h hagreed]
  simp only [h0, h4, h5, hall, if_false]
  rfl

theorem exec_getMeasurements_block5 (n : BitVec 256) : exec (.getMeasurements c 5 false n) s =
    .next { s.setSpdm c { s.spdm c with signed := false } with reply := .data s.block5 false } := by
  change execGetMeasurements c 5 false n s = _
  rw [execGetMeasurements, State.spdmRun_in_order h hagreed]
  rfl

end

/-! ## Large responses -/

theorem exec_countersign_signed (hsigned : (s.spdm c).signed = true) : exec (.countersign c) s =
    .next { s.setSpdm c { s.spdm c with signed := false, large := Config.mlSign s.sec.mlKey s.free, chunk := 0 } with
      reply := .error spdmLarge, free := s.free + 1 } := by
  change execCountersign c s = _
  rw [execCountersign, State.spdmRun_in_order h hsigned]
  rfl

theorem exec_chunkGet_next (hlarge : (s.spdm c).large ≠ []) : exec (.chunkGet c (s.spdm c).chunk) s =
    .next { s.setSpdm c { s.spdm c with
        large := (s.spdm c).large.drop (Config.chunkSize.val + 1),
        chunk := if ((s.spdm c).large.drop (Config.chunkSize.val + 1)).isEmpty then 0 else (s.spdm c).chunk + 1 } with
      reply := .data ((s.spdm c).large.take (Config.chunkSize.val + 1)) false } := by
  change execChunkGet c (s.spdm c).chunk s = _
  rw [execChunkGet, State.spdmRun_in_order h (by simpa using hlarge)]
  simp [State.answer]

end

/-! ## Measurement block 5 -/

theorem State.length_block5 (s : State) : s.block5.length = 16 := by simp [State.block5]

/-- Bytes 3 to 10 are the token's permissions. -/
theorem State.block5_perms (s : State) :
    leNat ((s.block5.drop 3).take 8) = (s.sec.token.map fun k => k.perms.toNat).getD 0 := by
  have hbytes : (s.block5.drop 3).take 8 = leBytes 8 ((s.sec.token.map fun k => k.perms.toNat).getD 0) := rfl
  rw [hbytes, leNat_leBytes]
  refine Nat.mod_eq_of_lt ?_
  cases s.sec.token with
  | none => decide
  | some k => exact k.perms.isLt

/-- Settles O59: each request in its order is run, and what it answers is one equation. -/
theorem spdmSetup : Obligations.SpdmSetup := by
  refine ⟨fun c s h => exec_getVersion h, fun c s h => exec_getCapabilities h,
    fun c s h => exec_negotiateAlgorithms_agreed h, fun c a b s h hcaps => exec_negotiateAlgorithms_refused h hcaps,
    fun c s h => exec_getDigests h, fun c off len s h hagreed => exec_getCertificate h hagreed 0 off len,
    fun c slot off len s h hagreed hslot => ?_, fun c off len s h hagreed => exec_getPqChain h hagreed off len⟩
  rw [exec_getCertificate h hagreed, if_neg hslot]

/-- Settles O60: a request out of its order is only refused; block 5 is sixteen bytes of known places. -/
theorem spdmAttestation : Obligations.SpdmAttestation := by
  refine ⟨fun c n s h hagreed => exec_challenge_slot0 h hagreed n,
    fun c sg n s h hagreed => exec_getMeasurements_count h hagreed sg n,
    fun c i sg n s h hagreed => exec_getMeasurements_none h hagreed sg n,
    fun c s h => exec_countersign_signed h, fun c s h => exec_chunkGet_next h, fun r c s h hr => ?outOfOrder,
    fun c n s h hagreed => .of (exec_getMeasurements_block5 h hagreed n)
      ⟨rfl, s.block5, rfl, s.length_block5, rfl, rfl, ?flag, s.block5_perms⟩⟩
  case outOfOrder =>
    obtain ⟨rfl, hno⟩ | ⟨rfl, hno⟩ | ⟨rfl, hno⟩ := hr
    all_goals exact congrArg _ (State.spdmRun_out_of_order h hno _)
  case flag =>
    change BitVec.ofNat 8 (boolNat s.sec.token.isSome) = _
    cases s.sec.token <;> rfl

end Sys2Proof.Machine
end

section
/-! PROOFS. Nonces and tokens (R396 to R401), and journal records that are no EVENT (R356). -/

namespace Sys2Proof.Machine

/-! ## Records other than events -/

/-- A record that is no EVENT is never dropped: it is the newest of the batch or of the hold buffer (R356, R361). -/
theorem State.journal_appends (s : State) {k : JKind} (hk : k ≠ .event) (p : List Nat) :
    ∃ r u h n, r.kind = k ∧ r.payload = p ∧
      s.journal k p = { s with jnl := { s.jnl with unwritten := u, hold := h, next := n } } ∧
      (u = s.jnl.unwritten ++ [r] ∧ h = s.jnl.hold ∨ u = s.jnl.unwritten ∧ h = s.jnl.hold ++ [r]) := by
  unfold State.journal
  extract_lets r
  by_cases hbatch : (s.jnl.windowOpen && s.jnl.hold.isEmpty && decide (s.jnl.used + r.slots ≤ halfSlots)) = true
  · rw [if_pos hbatch]
    exact ⟨r, _, _, _, rfl, rfl, rfl, .inl ⟨rfl, rfl⟩⟩
  · rw [if_neg hbatch, if_neg (by simp [hk])]
    exact ⟨r, _, _, _, rfl, rfl, rfl, .inr ⟨rfl, rfl⟩⟩

theorem State.journal_frame (s : State) {k : JKind} (hk : k ≠ .event) (p : List Nat) :
    ∃ j, s.journal k p = { s with jnl := j } := by
  obtain ⟨-, u, h, n, -, -, hjournal, -⟩ := s.journal_appends hk p
  exact ⟨_, hjournal⟩

theorem State.fld_journal_record (s : State) {k : JKind} (hk : k ≠ .event) (p : List Nat) (f : Fld) (i : Nat) :
    (s.journal k p).fld f i = s.fld f i := by
  obtain ⟨j, hj⟩ := s.journal_frame hk p
  rw [hj]
  rfl

/-! ## The nonce (R399, R441) -/

theorem exec_newNonce {p : Path} {s : State} (hserved : s.served p = true) : exec (.newNonce p) s = .next s.drawNonce :=
  if_pos hserved

theorem exec_nonceExpiry_old {s : State} (hold : s.sec.nonceAt + 600000000000 ≤ s.time) :
    exec .nonceExpiry s = .next { s with sec := { s.sec with nonce := none } } :=
  if_pos (by simpa [State.nonceOld] using hold)

theorem exec_nonceRead_valid {p : Path} {n : BitVec 256} {s : State} (hserved : s.served p = true)
    (hnonce : s.sec.nonce = some n) : exec (.nonceRead p) s = .next { s with
      sec := { s.sec with latched := s.sec.latched.set (pathNum p) n }, reply := .value (n.truncate 64) } := by
  change execNonceRead p s = _
  simp [execNonceRead, hserved, State.latchNonce, State.answer, hnonce]

/-! ## The end of a token (R401) -/

/-- DEBUG's fields of a lattice are switched off. -/
def State.disarmLattice (s : State) (l : Nat) : State := (s.setFld .rowCtrlSrFixed l 0).setFld .calCtrlUseFactory l 0

/-- Every write that a debug token had enabled is switched off. -/
def State.disarm (s : State) : State :=
  ((forEach (upTo 4) (fun s b => s.setFld .monTestCont b 0) (forEach (upTo 8) State.disarmLattice s)).setFld
    .cxlInjCtrlMode 0 0).setFld .fltHnxCtrlMode 0 0

theorem State.endToken_none {s : State} (h : s.sec.token = none) : s.endToken = s := by simp [State.endToken, h]

theorem State.endToken_some {s : State} {k : Token} (h : s.sec.token = some k) :
    s.endToken = ({ s with sec := { s.sec with token := none } } : State).disarm.journal .tokenEnd [] :=
  if_neg (by simp [h])

/-- A view that the updates of units 0 to n − 1 leave alone. -/
theorem forEach_upTo_view {β : Type} (v : State → β) {f : State → Nat → State} {n : Nat}
    (hf : ∀ s, ∀ i < n, v (f s i) = v s) (s : State) : v (forEach (upTo n) f s) = v s := by
  induction n with
  | zero => rfl
  | succ n ih => rw [forEach_upTo_succ, hf _ n (Nat.lt_succ_self n), ih fun s i hi => hf s i (Nat.lt_succ_of_lt hi)]

/-- What writing the fields of unit `i` leaves in `g i` stays while those of the units above are written. -/
theorem State.fld_forEach_upTo {f : State → Nat → State} {g : Fld} {v n : Nat}
    (hsame : ∀ s, ∀ i < n, (f s i).fld g i = v) (hne : ∀ s, ∀ i < n, ∀ j < i, (f s i).fld g j = s.fld g j) (s : State) :
    ∀ i < n, (forEach (upTo n) f s).fld g i = v := by
  induction n with
  | zero => exact fun i hi => absurd hi (Nat.not_lt_zero i)
  | succ n ih =>
    intro i hi
    rw [forEach_upTo_succ]
    obtain rfl | hlt := Nat.eq_or_lt_of_le (Nat.lt_succ_iff.mp hi)
    · exact hsame _ _ (Nat.lt_succ_self _)
    · rw [hne _ n (Nat.lt_succ_self n) i hlt]
      exact ih (fun s i hi => hsame s i (by omega)) (fun s i hi => hne s i (by omega)) i hlt

theorem Fld.key_ne_unit (f : Fld) {i j : Nat} (h : j ≠ i) : f.key j 0 ≠ f.key i 0 := by
  unfold Fld.key
  omega

theorem State.disarm_frame (s : State) : ∃ F, s.disarm = { s with flds := F } := by
  have hlats : ∃ F, forEach (upTo 8) State.disarmLattice s = { s with flds := F } :=
    forEach_keeps (fun t => ∃ F, t = { s with flds := F }) _ _ (by rintro _ l ⟨F, rfl⟩; exact ⟨_, rfl⟩) s ⟨_, rfl⟩
  have hbays : ∃ F, forEach (upTo 4) (fun s b => s.setFld .monTestCont b 0) (forEach (upTo 8) State.disarmLattice s) =
      { s with flds := F } :=
    forEach_keeps (fun t => ∃ F, t = { s with flds := F }) _ _ (by rintro _ b ⟨F, rfl⟩; exact ⟨_, rfl⟩) _ hlats
  obtain ⟨F, hF⟩ := hbays
  rw [State.disarm, hF]
  exact ⟨_, rfl⟩

section
variable (s : State)

theorem State.fld_disarm_lattice {f : Fld} {l : Nat} (hf : f.place ∉ [Fld.monTestCont, .cxlInjCtrlMode, .fltHnxCtrlMode].map Fld.place)
    (hl : l < 8) : s.disarm.fld f l = (forEach (upTo 8) State.disarmLattice s).fld f l := by
  simp only [List.map, List.mem_cons, List.not_mem_nil, or_false, not_or] at hf
  obtain ⟨hmon, hcxl, hhnx⟩ := hf
  rw [State.disarm, State.fld_setFld_ne _ _ _ _ _ _ (Fld.key_ne hhnx), State.fld_setFld_ne _ _ _ _ _ _ (Fld.key_ne hcxl)]
  exact forEach_upTo_view (State.fld · f l) (fun s b hb => State.fld_setFld_ne _ _ _ _ _ _ (Fld.key_ne hmon)) _

theorem State.fld_disarm_srFixed {l : Nat} (hl : l < 8) : s.disarm.fld .rowCtrlSrFixed l = 0 := by
  have hother : ∀ (u : State) (i j : Nat), i < 8 → j < 8 →
      (u.disarmLattice i).fld .rowCtrlSrFixed j = (u.setFld .rowCtrlSrFixed i 0).fld .rowCtrlSrFixed j :=
    fun u i j hi hj => State.fld_setFld_ne _ _ _ _ _ _ (Fld.key_ne (by decide))
  rw [s.fld_disarm_lattice (by decide) hl]
  refine State.fld_forEach_upTo (fun u i hi => ?_) (fun u i hi j hj => ?_) s l hl
  · rw [hother u i i hi hi, State.fld_setFld_same _ _ _ _ (by decide), Nat.zero_mod]
  · rw [hother u i j hi (by omega), State.fld_setFld_ne _ _ _ _ _ _ (Fld.key_ne_unit _ (by omega))]

theorem State.fld_disarm_useFactory {l : Nat} (hl : l < 8) : s.disarm.fld .calCtrlUseFactory l = 0 := by
  rw [s.fld_disarm_lattice (by decide) hl]
  refine State.fld_forEach_upTo (fun u i hi => ?_) (fun u i hi j hj => ?_) s l hl
  · rw [State.disarmLattice, State.fld_setFld_same _ _ _ _ (by decide), Nat.zero_mod]
  · rw [State.disarmLattice, State.fld_setFld_ne _ _ _ _ _ _ (Fld.key_ne_unit _ (by omega)),
      State.fld_setFld_ne _ _ _ _ _ _ (Fld.key_ne (by decide))]

theorem State.fld_disarm_testCont {b : Nat} (hb : b < 4) : s.disarm.fld .monTestCont b = 0 := by
  rw [State.disarm, State.fld_setFld_ne _ _ _ _ _ _ (Fld.key_ne (by decide)),
    State.fld_setFld_ne _ _ _ _ _ _ (Fld.key_ne (by decide))]
  refine State.fld_forEach_upTo (fun u i hi => ?_) (fun u i hi j hj => ?_) _ b hb
  · rw [State.fld_setFld_same _ _ _ _ (by decide), Nat.zero_mod]
  · rw [State.fld_setFld_ne _ _ _ _ _ _ (Fld.key_ne_unit _ (by omega))]

theorem State.fld_disarm_cxlInj : s.disarm.fld .cxlInjCtrlMode = 0 := by
  rw [State.disarm, State.fld_setFld_ne _ _ _ _ _ _ (Fld.key_ne (by decide)), State.fld_setFld_same _ _ _ _ (by decide),
    Nat.zero_mod]

theorem State.fld_disarm_hnxInj : s.disarm.fld .fltHnxCtrlMode = 0 := by
  rw [State.disarm, State.fld_setFld_same _ _ _ _ (by decide), Nat.zero_mod]

end

theorem exec_token_ends {c : Instr} {k : Token} {s : State} (hk : s.sec.token = some k)
    (hc : c = .tokenExpiry ∧ k.expiry ≤ s.time ∨ ∃ p, c = .tokenEnd p ∧ s.served p = true) :
    exec c s = .next s.endToken := by
  obtain ⟨rfl, hold⟩ | ⟨p, rfl, hserved⟩ := hc
  · exact if_pos (by simpa [hk] using hold)
  · exact if_pos hserved

theorem exec_token_ends_none {c : Instr} {s : State} (hk : s.sec.token = none)
    (hc : c = .tokenExpiry ∨ ∃ p, c = .tokenEnd p ∧ s.served p = true) : exec c s = .next s := by
  obtain rfl | ⟨p, rfl, hserved⟩ := hc
  · exact if_neg (by simp [hk])
  · exact (if_pos hserved).trans (by rw [State.endToken_none hk])

/-- Settles O57: a token's end is the fields written 0 and then one record, which is no EVENT. -/
theorem noncesAndTokenEnds : Obligations.NoncesAndTokenEnds := by
  refine ⟨fun p s hserved => exec_newNonce hserved, fun s hold => exec_nonceExpiry_old hold,
    fun p n s hserved hnonce => exec_nonceRead_valid hserved hnonce,
    fun c k s hk hc => .of (exec_token_ends hk hc) ?ends, fun c s hc hk => exec_token_ends_none hk hc⟩
  case ends =>
    rw [State.endToken_some hk]
    set z : State := { s with sec := { s.sec with token := none } }
    have hfld : ∀ f i, (z.disarm.journal .tokenEnd []).fld f i = z.disarm.fld f i :=
      State.fld_journal_record _ (by decide) _
    obtain ⟨F, hF⟩ := z.disarm_frame
    obtain ⟨r, u, h, n, hkind, -, hjournal, hplace⟩ := z.disarm.journal_appends (k := .tokenEnd) (by decide) []
    refine ⟨?frame, fun l hl => ⟨(hfld ..).trans (z.fld_disarm_srFixed hl), (hfld ..).trans (z.fld_disarm_useFactory hl)⟩,
      fun b hb => (hfld ..).trans (z.fld_disarm_testCont hb), (hfld ..).trans z.fld_disarm_cxlInj,
      (hfld ..).trans z.fld_disarm_hnxInj, ?recs, ?record⟩
    case frame => rw [hjournal, hF]
    case recs => rw [hjournal, hF]
    case record =>
      rw [hjournal]
      obtain ⟨hu, -⟩ | ⟨-, hh⟩ := hplace
      · exact .inl (by simp [hu, hkind])
      · exact .inr (by simp [hh, hkind])

/-! ## Tokens (R396, R400) -/

theorem exec_submits {c : Instr} {p : Path} {k : Nat} {v : Verdict} {d : Bool} {s : State} (hc : SubmitsKind c p k v d)
    (hserved : s.served p = true) : exec c s = .next (s.submitToken k v d) := by
  obtain ⟨rfl, rfl⟩ | ⟨rfl, rfl⟩ | ⟨rfl, rfl⟩ := hc
  all_goals exact if_pos hserved

section
variable {s : State} {k : Nat} {v : Verdict} {d : Bool} (hon : s.boot.on = true) (hkind : s.tokenKind = k)
include hon hkind

/-- A token whose checks pass uses up its nonce, is recorded, and then does what its kind does. -/
theorem State.submitToken_accepted (hpass : s.checkToken v d = 0) : ∃ j,
    let t : State := { s with sec := { s.sec with tokenResult := 0, nonce := none }, jnl := j }
    s.submitToken k v d = if k = 0 then t.acceptDebug else t.acceptOwner (k == 1) := by
  obtain ⟨j, hj⟩ := ({ s with sec := { s.sec with tokenResult := 0, nonce := none } } : State).journal_frame
    (k := .tokenAccept) (by decide) [k, s.tokenNat 8 8, s.tokenNat 80 4]
  refine ⟨j, ?_⟩
  dsimp only at hj ⊢
  rw [← hj]
  simp only [State.submitToken, hon, hkind, hpass, Bool.not_true, ne_eq, not_true_eq_false, decide_false,
    Bool.false_and, Bool.or_self, Bool.false_eq_true, if_false]
  rfl

theorem State.submitToken_refused {n : Nat} (hfail : s.checkToken v d = n + 1) :
    s.submitToken k v d = s.refuseToken (n + 1) v := by
  simp [State.submitToken, hon, hkind, hfail]

end

/-- A refused token leaves its code and the counts, and a record where a signature failed (R392, R400). -/
theorem State.refuseToken_spec (s : State) (n : Nat) (v : Verdict) :
    (s.refuseToken n v).sec = { s.sec with tokenResult := n } ∧ (s.refuseToken n v).flash = s.flash ∧
    (s.refuseToken n v).fld .secFailCntToken =
      min (s.fld .secFailCntToken + 1) (2 ^ Fld.secFailCntToken.width - 1) := by
  unfold State.refuseToken
  extract_lets _ t fails
  have hcount : t.fld .secFailCntToken = min (s.fld .secFailCntToken + 1) (2 ^ Fld.secFailCntToken.width - 1) :=
    State.fld_bump_same _ _ _ _ (by decide)
  split
  · refine ⟨State.journal_sec .., State.journal_flash .., ?_⟩
    rw [State.sigFail, State.fld_journal_record _ (by decide), State.fld_bump_ne _ _ _ _ _ _ (by decide), hcount]
  · exact ⟨rfl, rfl, hcount⟩

/-- The owner's fuse, keys and record are all that an enrolment or a release changes besides the verified bundles (R396). -/
theorem State.acceptOwner_spec (s : State) (enrol : Bool) : ∃ j, s.acceptOwner enrol = { s with
    sec := { s.sec with ownFuses := s.sec.ownFuses + 1, verified := [] }
    flash := { s.flash with owner := if enrol then some (memBytes s.sec.buf 128 1984) else none }
    jnl := j } := by
  unfold State.acceptOwner
  extract_lets _ _ t u
  obtain ⟨j, hj⟩ := t.journal_frame (k := if enrol then .ownerEnrol else .ownerRelease) (by cases enrol <;> decide)
    [t.sec.ownFuses]
  change u = _ at hj
  clear_value u
  subst hj
  exact ⟨j, rfl⟩

theorem State.checkToken_of_bad_signature {v : Verdict} (s : State) (d : Bool) (hv : v.ed = false ∨ v.ml = false) :
    s.checkToken v d ≠ 0 := by
  have hsig : (!(v.ed && v.ml)) = true := by obtain h | h := hv <;> simp [h]
  unfold State.checkToken
  rw [hsig, Bool.true_or]
  repeat' split
  all_goals simp_all

/-- Settles O58: an accepted token's state is the sum of three updates, by its kind; a refused one's is its code and its counts. -/
theorem tokens : Obligations.Tokens := by
  refine ⟨fun c p k v d s hc hserved hkind hpass => .of (exec_submits hc hserved) ?accepted,
    fun c p k n v d s hc hserved hkind hfail => .of (exec_submits hc hserved) ?refused,
    fun v d s hv => s.checkToken_of_bad_signature d hv⟩
  case accepted =>
    obtain ⟨j, hj⟩ := State.submitToken_accepted (State.on_of_served hserved) hkind hpass
    rw [hj]
    by_cases hk : k = 0
    · rw [if_pos hk]
      exact ⟨rfl, rfl, rfl, rfl, fun _ => ⟨rfl, rfl, rfl⟩, fun h => absurd hk h⟩
    · rw [if_neg hk]
      dsimp only
      obtain ⟨j', hj'⟩ := State.acceptOwner_spec
        { s with sec := { s.sec with tokenResult := 0, nonce := none }, jnl := j } (k == 1)
      rw [hj']
      exact ⟨rfl, rfl, rfl, rfl, fun h => absurd h hk, fun _ => ⟨rfl, rfl, by simp⟩⟩
  case refused =>
    rw [State.submitToken_refused (State.on_of_served hserved) hkind hfail]
    exact s.refuseToken_spec (n + 1) v

end Sys2Proof.Machine
end

section
/-! PROOFS. Refused writes (R437), bits written 1 (R423, R442), and MSI-X messages that are held (R252). -/

namespace Sys2Proof.Machine

/-! ## Refused writes (R437) -/

/-- OFFSET takes the offset of an aligned register. -/
theorem State.refuse_offset (s : State) (p : Path) {off : Nat} (v : Nat) (hoff : off < 2 ^ 26) (ha : off % 8 = 0) :
    (s.refuse p off v).fld .devRefusedOffset = off := by
  rw [State.fld_refuse, State.fld_setFld_ne _ _ _ _ _ _ (by decide), State.fld_setFld_same _ _ _ _ (by decide),
    Nat.div_mul_cancel (Nat.dvd_of_mod_eq_zero ha)]
  exact Nat.mod_eq_of_lt hoff

/-- The refused write once it is counted and recorded. -/
def State.refusalNoted (s : State) (p : Path) (off : Nat) : State :=
  ((s.bump .devRefusedCount).setFld .devRefusedOffset 0 (off / 8 * 8)).setFld .devRefusedPath 0 (pathNum p)

theorem State.refusalNoted_frame (s : State) (p : Path) (off : Nat) :
    ∃ F, s.refusalNoted p off = { s with flds := F } := by
  obtain ⟨F, hF⟩ := s.bump_frame .devRefusedCount 0 1
  obtain ⟨G, hG⟩ := ({ s with flds := F } : State).setFld_frame .devRefusedOffset 0 (off / 8 * 8)
  obtain ⟨H, hH⟩ := ({ s with flds := G } : State).setFld_frame .devRefusedPath 0 (pathNum p)
  exact ⟨H, by rw [State.refusalNoted, hF, hG, hH]⟩

/-- A refusal of a register and path within 1 ms of a logged one is only counted; any other is logged and its time noted. -/
theorem State.refuse_eq (s : State) (p : Path) (off v : Nat) : s.refuse p off v =
    if tget 0 s.refusedAt (off / 8 * 4 + pathNum p) = 0 ∨
        tget 0 s.refusedAt (off / 8 * 4 + pathNum p) - 1 + 1000000 ≤ s.time then
      ({ s.refusalNoted p off with
        refusedAt := tset 0 s.refusedAt (off / 8 * 4 + pathNum p) (s.time + 1) } : State).event
          .refusedWrite .device 0 noCtx [off, pathNum p, v]
    else s.refusalNoted p off := by
  have ht : (s.refusalNoted p off).time = s.time := by obtain ⟨F, hF⟩ := s.refusalNoted_frame p off; rw [hF]
  have hr : (s.refusalNoted p off).refusedAt = s.refusedAt := by obtain ⟨F, hF⟩ := s.refusalNoted_frame p off; rw [hF]
  unfold State.refuse
  change (if decide (tget 0 (s.refusalNoted p off).refusedAt _ = 0) ||
      decide (tget 0 (s.refusalNoted p off).refusedAt _ - 1 + 1000000 ≤ (s.refusalNoted p off).time) then
    ({ s.refusalNoted p off with
      refusedAt := tset 0 (s.refusalNoted p off).refusedAt _ ((s.refusalNoted p off).time + 1) } : State).event _ _ _ _ _
    else s.refusalNoted p off) = _
  simp only [ht, hr, Bool.or_eq_true, decide_eq_true_eq]

/-- Settles O6: what a refused write leaves in the fields is the three writes of DEV_REFUSED; whether it is logged is told by
the note of the last time. -/
theorem refusedWrites : Obligations.RefusedWrites := by
  refine fun p off v s hoff ha => ⟨s.refuse_count p off v, s.refuse_offset p v hoff ha, s.refuse_path p off v,
    fun g j hj hg => State.fld_refuse_ne hg hj, fun h => ?logged, fun h hsoon => ?counted⟩
  case logged =>
    obtain ⟨F, hF⟩ := s.refusalNoted_frame p off
    rw [State.refuse_eq, if_pos h, hF]
    exact ⟨State.event_evHead .., by rw [State.event_refusedAt, tget_tset_same], _, State.event_log .., rfl, rfl, rfl, rfl⟩
  case counted =>
    obtain ⟨F, hF⟩ := s.refusalNoted_frame p off
    rw [State.refuse_eq, if_neg (by omega), hF]
    exact ⟨rfl, rfl⟩

/-! ## Bits written 1 (R423, R442) -/

/-- The fields of `g k` for the bits k that `v` sets are cleared. -/
def State.clearBits (g : Nat → Fld) (n v : Nat) (s : State) : State :=
  forEach ((upTo n).filter (bitOf v ·)) (fun s k => s.setFld (g k) 0 0) s

theorem State.clearBits_frame (g : Nat → Fld) (n v : Nat) (s : State) : ∃ F, s.clearBits g n v = { s with flds := F } :=
  forEach_keeps (fun t => ∃ F, t = { s with flds := F }) _ _ (by rintro _ k ⟨F, rfl⟩; exact ⟨_, rfl⟩) s ⟨_, rfl⟩

theorem State.clearBits_succ (g : Nat → Fld) (n v : Nat) (s : State) : s.clearBits g (n + 1) v =
    if bitOf v n then (s.clearBits g n v).setFld (g n) 0 0 else s.clearBits g n v := by
  rw [clearBits, clearBits, upTo, upTo, List.range_succ, List.filter_append]
  by_cases h : bitOf v n = true
  · simp [forEach, h, List.foldl_append]
  · simp [forEach, h]

theorem State.flag_clearBits_ne {g : Nat → Fld} {n : Nat} (v : Nat) (s : State) {f : Fld} {i : Nat}
    (hf : ∀ k < n, f.key i 0 ≠ (g k).key 0 0) : (s.clearBits g n v).flag f i = s.flag f i := by
  induction n with
  | zero => rfl
  | succ n ih =>
    have hlow := ih fun k hk => hf k (Nat.lt_succ_of_lt hk)
    rw [clearBits_succ]
    split
    · rw [State.flag_setFld_ne _ _ _ _ _ _ (hf n (Nat.lt_succ_self n)), hlow]
    · exact hlow

/-- Where the fields are distinct one-bit fields, those written 1 are cleared and no others. -/
theorem State.flag_clearBits {g : Nat → Fld} {n : Nat} (v : Nat) (s : State)
    (hg : ∀ i < n, ∀ j < n, i ≠ j → (g i).key 0 0 ≠ (g j).key 0 0) (hw : ∀ i < n, (g i).width ≤ 64) :
    ∀ k < n, (s.clearBits g n v).flag (g k) = (s.flag (g k) && !bitOf v k) := by
  induction n with
  | zero => exact fun k hk => absurd hk (Nat.not_lt_zero k)
  | succ n ih =>
    intro k hk
    rw [clearBits_succ]
    obtain rfl | hlt := Nat.eq_or_lt_of_le (Nat.lt_succ_iff.mp hk)
    · have hlow : (s.clearBits g k v).flag (g k) = s.flag (g k) :=
        State.flag_clearBits_ne v s fun i hi => hg k hk i (by omega) (by omega)
      split
      · rw [State.flag_setFld_same _ _ _ _ (hw k hk)]
        simp [*]
      · simp [*]
    · have hlow := ih (fun i hi j hj => hg i (by omega) j (by omega)) (fun i hi => hw i (by omega)) k hlt
      split
      · rw [State.flag_setFld_ne _ _ _ _ _ _ (hg k hk n (Nat.lt_succ_self n) (by omega)), hlow]
      · exact hlow

theorem chgFld_key_ne : ∀ i < 10, ∀ j < 10, i ≠ j → (chgFld i).key 0 0 ≠ (chgFld j).key 0 0 := by decide

theorem chgFld_width (k : Nat) : (chgFld k).width = 1 := by unfold chgFld; split <;> rfl

theorem alertFld_key_ne : ∀ i < 7, ∀ j < 7, i ≠ j → (alertFld i).key 0 0 ≠ (alertFld j).key 0 0 := by decide

theorem alertFld_width (k : Nat) : (alertFld k).width = 1 := by unfold alertFld; split <;> rfl

/-! ## DEV_STATUS_CHG and its mask (R442) -/

/-- An enabled change bit that goes from 0 to 1 signals vector 5. -/
theorem State.markChg_enabled {k : Nat} {s : State} (hclear : s.flag (chgFld k) = false)
    (hen : bitOf (s.fld .devStatusMaskEn) k = true) : s.markChg k = (s.setFld (chgFld k) 0 1).signalVector 5 := by
  have hmask : (s.setFld (chgFld k) 0 1).fld .devStatusMaskEn = s.fld .devStatusMaskEn :=
    State.fld_setFld_ne _ _ _ _ _ _ (Fld.key_ne_of_not_mem (by decide) (chgFld_mem k) (by decide) (by decide))
  exact if_pos (by simp [hclear, hmask, hen])

/-- A write of the mask in which every newly enabled bit is clear only sets the mask. -/
theorem State.writeMask_quiet {v : Nat} {s : State}
    (h : ∀ k < 10, bitOf v k = true → bitOf (s.fld .devStatusMaskEn) k = true ∨ s.flag (chgFld k) = false) :
    s.writeMask v = s.setFld .devStatusMaskEn 0 (v % 1024) := by
  have hflag : ∀ k, (s.setFld .devStatusMaskEn 0 (v % 1024)).flag (chgFld k) = s.flag (chgFld k) := fun k =>
    State.flag_setFld_ne _ _ _ _ _ _
      (Fld.key_ne_of_not_mem (f := chgFld k) (g := .devStatusMaskEn) (by decide) (chgFld_mem k) (by decide) (by decide)).symm
  have hnone : ((upTo 10).filter fun k => bitOf v k && !bitOf (s.fld .devStatusMaskEn) k &&
      (s.setFld .devStatusMaskEn 0 (v % 1024)).flag (chgFld k)) = [] := by
    refine List.filter_eq_nil_iff.mpr fun k hk => ?_
    have hquiet := h k (List.mem_range.mp hk)
    rw [hflag]
    grind
  unfold State.writeMask
  dsimp only
  rw [hnone]
  rfl

/-! ## EVT_ALERT (R423) -/

/-- With no lattice stale and no honeycomb ageing a write of EVT_ALERT clears the bits written 1. -/
theorem State.writeAlert_quiet {v : Nat} {s : State} (hstale : ∀ l < 8, s.flag .calStatusStale l = false)
    (hageing : ∀ h < 10, (s.comb h).ageing = false) : s.writeAlert v = s.clearBits alertFld 7 v := by
  have hcombs : (s.clearBits alertFld 7 v).combs = s.combs := by
    obtain ⟨F, hF⟩ := s.clearBits_frame alertFld 7 v
    rw [hF]
  have hkey : ∀ k, Fld.place (alertFld k) ≠ Fld.calStatusStale.place := fun k => by
    unfold alertFld
    split <;> decide
  have hnoStale : ((upTo 8).any fun l => (s.clearBits alertFld 7 v).flag .calStatusStale l) = false := by
    refine List.any_eq_false.mpr fun l hl => ?_
    have hl : l < 8 := List.mem_range.mp hl
    rw [State.flag_clearBits_ne v s fun k _ => Fld.key_ne (hkey k).symm, hstale l hl]
    decide
  have hnoAgeing : ((upTo 10).any fun h => ((s.clearBits alertFld 7 v).comb h).ageing) = false := by
    refine List.any_eq_false.mpr fun h hh => ?_
    simp [State.comb_congr hcombs, hageing h (List.mem_range.mp hh)]
  have hsame : (if (upTo 8).any fun l => (s.clearBits alertFld 7 v).flag .calStatusStale l then
      (s.clearBits alertFld 7 v).setAlert 2 else s.clearBits alertFld 7 v) = s.clearBits alertFld 7 v :=
    if_neg (by simp [hnoStale])
  unfold State.writeAlert
  extract_lets t u
  have hu : u = s.clearBits alertFld 7 v := hsame
  rw [hu, if_neg (by simp [hnoAgeing])]

/-! ## MSI-X (R252) -/

/-- One vector's turn as held messages are sent. -/
def State.sendHeldVector (s : State) (k : Nat) : State :=
  if !s.cxl.pba.getD k false || s.cxl.funcMask || s.cxl.vecMask.getD k true then s
  else
    let s : State := { s with cxl := { s.cxl with pba := s.cxl.pba.set k false } }
    let set := (upTo 10).any fun i => bitOf (s.fld .devStatusMaskEn) i && s.flag (chgFld i)
    if k = 5 && !set then s else s.signalVector k

theorem State.sendHeldVectors_eq (s : State) : s.sendHeldVectors = forEach (upTo 8) State.sendHeldVector s := rfl

theorem State.sendHeldVector_of_not_held {s : State} {k : Nat} (h : s.cxl.pba.getD k false = false) : s.sendHeldVector k = s :=
  if_pos (by rw [h]; rfl)

theorem State.sendHeldVector_of_held {s : State} {k : Nat} (h5 : k ≠ 5) (hheld : s.cxl.pba.getD k false = true)
    (hfunc : s.cxl.funcMask = false) (hmask : s.cxl.vecMask.getD k true = false) :
    s.sendHeldVector k = { s with cxl := { s.cxl with
      pba := s.cxl.pba.set k false, sent := s.cxl.sent.set k (s.cxl.sent.getD k 0 + 1) } } := by
  have hsignal : ∀ p : List Bool, ({ s with cxl := { s.cxl with pba := p } } : State).signalVector k =
      { s with cxl := { s.cxl with pba := p, sent := s.cxl.sent.set k (s.cxl.sent.getD k 0 + 1) } } :=
    fun _ => if_neg (by simp only [hfunc, hmask]; decide)
  rw [State.sendHeldVector, if_neg (by simp only [hheld, hfunc, hmask]; decide)]
  dsimp only
  rw [if_neg (by simp [h5]), hsignal]

/-- A repeat in which one unit alone has something to do. -/
theorem forEach_only {α : Type} {l : List α} {f : State → α → State} {s : State} {k : α} (hk : k ∈ l) (hl : l.Nodup)
    (hbefore : ∀ a ∈ l, a ≠ k → f s a = s) (hafter : ∀ a ∈ l, a ≠ k → f (f s k) a = f s k) : forEach l f s = f s k := by
  obtain ⟨front, back, rfl⟩ := List.append_of_mem hk
  have happ : forEach (front ++ k :: back) f s = forEach back f (f (forEach front f s) k) := by
    simp [forEach, List.foldl_append]
  rw [List.nodup_append] at hl
  obtain ⟨-, hback, hfront⟩ := hl
  rw [happ, forEach_eq_self fun a ha => hbefore a (by simp [ha]) (hfront a ha k (by simp)),
    forEach_eq_self fun a ha => hafter a (by simp [ha]) fun h => (List.nodup_cons.mp hback).1 (h ▸ ha)]

/-- Where a vector's mask clears, its message that was held is sent, and no other is held. -/
theorem State.setVecMask_held {k : Nat} {s : State} (hk : k < 8) (h5 : k ≠ 5) (hfunc : s.cxl.funcMask = false)
    (hheld : s.cxl.pba.getD k false = true) (hother : ∀ j, j ≠ k → s.cxl.pba.getD j false = false)
    (hmasks : s.cxl.vecMask.length = 8) :
    s.setVecMask k false = { s with cxl := { s.cxl with
      vecMask := s.cxl.vecMask.set k false, pba := s.cxl.pba.set k false,
      sent := s.cxl.sent.set k (s.cxl.sent.getD k 0 + 1) } } := by
  rw [State.setVecMask, State.sendHeldVectors_eq]
  set z : State := { s with cxl := { s.cxl with vecMask := s.cxl.vecMask.set k false } }
  have hsent := z.sendHeldVector_of_held h5 hheld hfunc (by simp [z, List.getD, hk, hmasks])
  have hlater : ∀ j, j ≠ k → (z.sendHeldVector k).cxl.pba.getD j false = false := fun j hj => by
    have hkept := hother j hj
    rw [hsent]
    simp only [List.getD, List.getElem?_set_ne hj.symm] at hkept ⊢
    exact hkept
  have honly : forEach (upTo 8) State.sendHeldVector z = z.sendHeldVector k :=
    forEach_only (List.mem_range.mpr hk) List.nodup_range
      (fun j _ hj => State.sendHeldVector_of_not_held (hother j hj))
      fun j _ hj => State.sendHeldVector_of_not_held (hlater j hj)
  rw [honly, hsent]

theorem exec_msixUnmask_vector {k : Fin 8} {s : State} (hon : s.boot.on = true) :
    exec (.msixUnmask (some k)) s = .next (s.setVecMask k false) := if_neg (by simp [hon])

/-- Settles O8: a write clears the fields of its bits one after another; where nothing has to be signalled or set again,
that is all. -/
theorem statusRegisters : Obligations.StatusRegisters := by
  refine ⟨fun k s _ hclear hen => State.markChg_enabled hclear hen,
    fun p v s hserved => .of (if_pos hserved) ⟨?chgFrame, ?chgBits⟩,
    fun p v s hserved hquiet => (if_pos hserved).trans (congrArg _ (State.writeMask_quiet hquiet)),
    fun p v s hserved hstale hageing =>
      .of ((if_pos hserved).trans (congrArg _ (State.writeAlert_quiet hstale hageing))) ⟨?alertFrame, ?alertBits⟩,
    fun k s hon h5 hmask hheld hother hmasks _ => .of (exec_msixUnmask_vector hon)
      (State.setVecMask_held k.isLt h5 hmask hheld hother hmasks)⟩
  case chgFrame =>
    obtain ⟨F, hF⟩ := s.clearBits_frame chgFld 10 v.toNat
    rw [show s.writeChg v.toNat = _ from hF]
  case chgBits => exact s.flag_clearBits v.toNat chgFld_key_ne fun k _ => by rw [chgFld_width k]; decide
  case alertFrame =>
    obtain ⟨F, hF⟩ := s.clearBits_frame alertFld 7 v.toNat
    rw [hF]
  case alertBits => exact s.flag_clearBits v.toNat alertFld_key_ne fun k _ => by rw [alertFld_width k]; decide

end Sys2Proof.Machine
end

section
/-! PROOFS. MCTP and PLDM over an endpoint (R425 to R427), and where the statement on vendor commands fails (R417, R430). -/

namespace Sys2Proof.Machine

/-! ## Where the statement on vendor commands fails -/

theorem epOpen_fencedInOutage : EpOpen fencedInOutage .i3c := ⟨rfl, rfl, .inl ⟨rfl, rfl⟩⟩

/-- CLEAR_FENCE over an endpoint ends the lattice's outage as FENCE_CLEAR does. -/
theorem clearFenceCmd_fencedInOutage : (nextState (exec (.clearFenceCmd .i3c 0) fencedInOutage)).map
    (fun t => (t.log.map (·.code)).head?) = some (some 0x0704) := by decide +kernel

/-- Refutes O11 in its clause on CLEAR_FENCE, which in every state has EVT_FENCE_CLEAR (0x0705) as the newest entry: in
`fencedInOutage` the end of the lattice's outage is logged after it (R410). -/
theorem not_vendorCommands : ¬ Obligations.VendorCommands := by
  unfold Obligations.VendorCommands
  rintro ⟨-, -, -, -, -, hclear, -⟩
  obtain ⟨-, hfenced, hen, hkeep⟩ := fencedInOutage_spec
  obtain ⟨t, ht, -, -, -, -, hnewest, -⟩ :=
    (hclear .i3c 0 fencedInOutage epOpen_fencedInOutage hfenced hen hkeep).nextState
  have houtage : (t.log.map (·.code)).head? = some 0x0704 := nextState_view ht clearFenceCmd_fencedInOutage
  exact absurd (hnewest.symm.trans houtage) (by decide)

/-! ## Addresses and readings (R425 to R427) -/

/-- The management record with an endpoint's identifier assigned. -/
def Mgmt.assigned (m : Mgmt) (ep : Ep) (e : BitVec 8) : Mgmt :=
  match ep with
  | .i3c => { m with eidI3c := e }
  | .vdm => { m with eidVdm := e }

section
variable {s : State} {ep : Ep} (h : EpOpen s ep)
include h

theorem exec_mctpControl_set {e : BitVec 8} (h0 : e ≠ 0) (h255 : e ≠ 255) : exec (.mctpControl ep (some e)) s =
    .next { s with mgmt := s.mgmt.assigned ep e, reply := .done } := by
  change execMctpControl ep (some e) s = _
  have hmay : (decide (e = 0) || decide (e = 255)) = false := by simpa using And.intro h0 h255
  cases ep <;> simp only [execMctpControl, State.reaches_of_epOpen h, hmay, Bool.true_or, Bool.not_true,
    Bool.false_eq_true, if_false] <;> rfl

theorem exec_getTid : exec (.getTid ep) s = .next { s with reply := .data (Config.specData 21 0) false } := by
  change execGetTid ep s = _
  simp [execGetTid, State.auxOnly_of_epOpen h, State.request_of_epOpen h, State.answer]

theorem exec_getSensorReading (id : Nat) : exec (.getSensorReading ep id) s = .next { s with
    reply := match s.sensorValue id with
      | none => .error plNoSensor
      | some v => .value (BitVec.ofInt 64 v) } := by
  change execGetSensorReading ep id s = _
  simp only [execGetSensorReading, State.auxOnly_of_epOpen h, State.request_of_epOpen h, State.answer,
    Bool.false_eq_true, if_false]
  cases s.sensorValue id <;> rfl

theorem exec_pollPlatformEvent_event {e : Event} {r : List Event} (he : s.mgmt.events = e :: r) :
    exec (.pollPlatformEvent ep) s =
      .next { s with mgmt := { s.mgmt with events := r }, reply := .data e.bytes false } := by
  change execPollPlatformEvent ep s = _
  simp [execPollPlatformEvent, State.request_of_epOpen h, he, State.answer]

theorem exec_pollPlatformEvent_change {q : Nat × Nat} {r : List (Nat × Nat)} (he : s.mgmt.events = [])
    (hq : s.mgmt.states = q :: r) : exec (.pollPlatformEvent ep) s =
      .next { s with mgmt := { s.mgmt with states := r }, reply := .data (leBytes 2 q.1 ++ leBytes 1 q.2) false } := by
  change execPollPlatformEvent ep s = _
  simp [execPollPlatformEvent, State.request_of_epOpen h, he, hq, State.answer]

end

/-- Sensors 32 to 39 are the states of the lattices. -/
theorem State.sensorValue_lattice (s : State) (l : Fin 8) : s.sensorValue (32 + l) = some ((s.lat l).state.code : Int) := by
  have hl := l.isLt
  unfold State.sensorValue
  dsimp only
  rw [if_neg (by simp; omega), if_neg (by omega), if_neg (by omega), if_pos (by simp; omega), Nat.add_sub_cancel_left]

/-- Settles O10: over an open endpoint each command is its answer and the one part of the management record it sets. -/
theorem platform : Obligations.Platform := by
  refine ⟨fun e s h h0 h255 => exec_mctpControl_set h h0 h255, fun e s h h0 h255 => exec_mctpControl_set h h0 h255,
    fun d a s haux => congrArg _ (if_pos haux), fun ep s h => exec_getTid h, fun ep l s h => ?lattice,
    fun ep s h => exec_getSensorReading h 26, fun ep e r s h he => exec_pollPlatformEvent_event h he,
    fun ep q r s h he hq => exec_pollPlatformEvent_change h he hq⟩
  case lattice => rw [exec_getSensorReading h, s.sensorValue_lattice]

end Sys2Proof.Machine
end

section
/-! PROOFS. Calibration saves (R331) and firmware update (R428, R429). -/

namespace Sys2Proof.Machine

/-! ## Calibration saves (R331) -/

/-- A lattice's adapted set as a save takes it. -/
def Lattice.folded (x : Lattice) : Lattice :=
  match x.newest with
  | none => x
  | some t => { x with folds := x.folds ++ [(x.swept, x.randoms, t.temp)], swept := 0, randoms := 0 }

/-- The state in which every lattice's trims have been folded into its working sets. -/
def State.foldTrims (s : State) : State := forEach (upTo 8) (fun s l => s.modLat l Lattice.folded) s

theorem State.foldTrims_frame (s : State) : ∃ L, s.foldTrims = { s with lats := L } :=
  (State.forEach_modLat (fun _ => Lattice.folded) 8 s).1

theorem State.lat_foldTrims (s : State) (l : Nat) :
    s.foldTrims.lat l = if l < 8 then (s.lat l).folded else s.lat l :=
  (State.forEach_modLat (fun _ => Lattice.folded) 8 s).2 l

theorem State.startSave_begins {s : State} (hon : s.boot.on = true) (hidle : s.flash.calBusy = false) :
    s.startSave = { s.foldTrims with flash := { s.foldTrims.flash with calBusy := true } } :=
  if_neg (by simp [hon, hidle])

/-- In the running device a save is under way after it is asked for, which changes the lattices' records at most. -/
theorem State.startSave_frame {s : State} (hon : s.boot.on = true) :
    ∃ L, s.startSave = { s with lats := L, flash := { s.flash with calBusy := true } } := by
  cases hbusy : s.flash.calBusy with
  | true =>
    refine ⟨s.lats, (if_pos (by simp [hbusy])).trans ?_⟩
    rw [← hbusy]
  | false =>
    obtain ⟨L, hL⟩ := s.foldTrims_frame
    refine ⟨L, ?_⟩
    rw [State.startSave_begins hon hbusy, hL]

/-! ## Firmware update (R428, R429) -/

section
variable {s : State} {ep : Ep} (h : EpOpen s ep)
include h

theorem exec_requestUpdate_idle (agent : Nat) {k : Nat} (hidle : s.mgmt.update = .idle) (hk : k = 1 ∨ k = 2) :
    exec (.requestUpdate ep agent k) s = .next { s with
      mgmt := { s.mgmt with update := .learning, agent := some agent, component := k }, reply := .done } := by
  have hcomponent : (decide (k ≠ 1) && decide (k ≠ 2)) = false := by obtain rfl | rfl := hk <;> rfl
  change execRequestUpdate ep agent k s = _
  rw [execRequestUpdate, State.request_of_epOpen h, if_neg (by simp [hidle]), if_neg (by rw [hcomponent]; decide)]
  rfl

/-- The agent's requests are served in update mode, where the update state accepts them. -/
theorem State.updateRun_of_agent {agent : Nat} {ok : Update → Bool} (hmode : s.mgmt.update ≠ .idle)
    (hagent : s.mgmt.agent = some agent) (hok : ok s.mgmt.update = true) (f : State → State) :
    s.updateRun ep agent ok f = f s := by
  simp [State.updateRun, State.request_of_epOpen h, hmode, hagent, hok]

section
variable {a : Nat} (hagent : s.mgmt.agent = some a)
include hagent

/-- While data arrive, in the write window, the slot not in use has been erased already. -/
theorem exec_firmwareDataReceived {n : Nat} (image : Option Staged) (hstate : s.mgmt.update = .downloading)
    (hopen : s.jnl.windowOpen = true) (hn : n ≤ 4096) (hanswers : s.flash.answers = true) :
    exec (.firmwareDataReceived ep a n image) s = .next (match image with
      | none => { s with mgmt := { s.mgmt with update := .downloading }, reply := .done }
      | some _ => { s with
          mgmt := { s.mgmt with update := .verifying, staged := stagedFor s.mgmt.component image }, reply := .done }) := by
  change execFirmwareDataReceived ep a n image s = _
  rw [execFirmwareDataReceived, State.updateRun_of_agent h (by simp [hstate]) hagent (by simp [hstate]),
    if_neg (by simp [hopen, hanswers, hn])]
  simp only [hstate]
  cases image <;> rfl

theorem exec_verifyComplete_good {i : FwImage} (hstate : s.mgmt.update = .verifying)
    (hstaged : s.mgmt.staged = some (.firmware i)) (hsig : i.verdict.ed = true ∧ i.verdict.ml = true) :
    exec (.verifyComplete ep a) s = .next (
      if fwCause s.sec.svn (some i) = 0 then { s with mgmt := { s.mgmt with update := .applying }, reply := .done }
      else { s with mgmt := { s.mgmt with update := .learning, staged := none }, reply := .error plError }) := by
  obtain ⟨hed, hml⟩ := hsig
  have hnoted : s.stagedSig = s := by simp [State.stagedSig, hstaged, State.noteSig, Verdict.fails, boolNat, hed, hml]
  have hok : s.stagedOk = (fwCause s.sec.svn (some i) == 0) := by simp [State.stagedOk, hstaged]
  change execVerifyComplete ep a s = _
  rw [execVerifyComplete, State.updateRun_of_agent h (by simp [hstate]) hagent (by simp [hstate]), hnoted]
  dsimp only
  rw [hok]
  by_cases hc : fwCause s.sec.svn (some i) = 0
  · rw [if_pos hc, if_pos (by simp [hc])]
    rfl
  · rw [if_neg hc, if_neg (by simp [hc])]
    rfl

theorem exec_applyComplete_firmware {i : FwImage} (hstate : s.mgmt.update = .applying) (hcomponent : s.mgmt.component = 1)
    (hstaged : s.mgmt.staged = some (.firmware i)) (hopen : s.jnl.windowOpen = true) (hanswers : s.flash.answers = true)
    (hslot : s.boot.fwSlot = 0) : exec (.applyComplete ep a) s = .next { s with
      flash := { s.flash with fwB := some i }, mgmt := { s.mgmt with update := .ready, fwStaged := true },
      reply := .done } := by
  have hspare : s.setSpare s.mgmt.component s.mgmt.staged = { s with flash := { s.flash with fwB := some i } } := by
    rw [hcomponent, hstaged]
    simp [State.setSpare, hslot]
  change execApplyComplete ep a s = _
  rw [execApplyComplete, State.updateRun_of_agent h (by simp [hstate]) hagent (by simp [hstate]),
    if_neg (by simp [hopen, hanswers])]
  dsimp only
  rw [hspare]
  dsimp only
  rw [hstaged]
  rfl

theorem exec_cancelUpdate_agent (hmode : s.mgmt.update ≠ .idle) : exec (.cancelUpdate ep a) s = .next { s.leaveUpdate with
    reply := .done } := by
  change execCancelUpdate ep a s = _
  rw [execCancelUpdate, State.updateRun_of_agent h hmode hagent rfl]
  rfl

theorem exec_activateFirmware_staged (hstate : s.mgmt.update = .ready) (hstaged : s.mgmt.fwStaged = true) :
    exec (.activateFirmware ep a) s = .next { s.activate with reply := .value 1 } := by
  change execActivateFirmware ep a s = _
  rw [execActivateFirmware, State.updateRun_of_agent h (by simp [hstate]) hagent (by simp [hstate])]
  simp only [hstaged, if_true]
  rfl

end

end

/-- Activation in service leaves update mode and begins the save that comes before the restart. -/
theorem State.activate_in_service {s : State} (hon : s.boot.on = true) (hstage : s.boot.stage = 5) : ∃ j L,
    s.activate = { s.leaveUpdate with
      jnl := j, lats := L, boot := { s.boot with wantFwSave := true }, flash := { s.flash with calBusy := true } } := by
  obtain ⟨j, hj⟩ := s.journal_frame (k := .fwActivate) (by decide) [1 - s.boot.fwSlot,
    ((s.fwOf (1 - s.boot.fwSlot)).map fun x => x.version.toNat).getD 0,
    ((s.fwOf (1 - s.boot.fwSlot)).map (·.svn)).getD 0]
  obtain ⟨L, hL⟩ := State.startSave_frame (s := ({ s with jnl := j } : State).leaveUpdate) hon
  refine ⟨j, L, ?_⟩
  unfold State.activate
  dsimp only
  rw [hj, hL]
  exact if_pos hstage

/-- Settles O12: each request of the agent is one equation; activation's save comes before its restart. -/
theorem firmwareUpdate : Obligations.FirmwareUpdate := by
  refine ⟨fun ep a k s h hidle hk => exec_requestUpdate_idle h a hidle hk,
    fun ep a n s h hstate hagent hopen hn hans => exec_firmwareDataReceived h hagent none hstate hopen hn hans,
    fun ep a n i s h hstate hagent hcomponent hopen hn hans => ?staged,
    fun ep a i s h hstate hagent hst hfields hed hml hdigest hsvn => ?verified,
    fun ep a i s h hstate hagent hst hsvn hed hml => ?older,
    fun ep a i s h hstate hagent hcomponent hst hopen hans hslot =>
      exec_applyComplete_firmware h hagent hstate hcomponent hst hopen hans hslot,
    fun ep a s h hstate hagent hst hstage => .of (exec_activateFirmware_staged h hagent hstate hst) ?activated,
    fun ep a s h hmode hagent => exec_cancelUpdate_agent h hagent hmode, fun s hon hup hmode => ?silent⟩
  case staged =>
    rw [exec_firmwareDataReceived h hagent _ hstate hopen hn hans]
    simp [stagedFor, hcomponent]
  case verified =>
    rw [exec_verifyComplete_good h hagent hstate hst ⟨hed, hml⟩, if_pos]
    simp [fwCause, hfields, hed, hml, hdigest, Nat.not_lt.mpr hsvn]
  case older =>
    rw [exec_verifyComplete_good h hagent hstate hst ⟨hed, hml⟩, if_neg]
    simp only [fwCause, hed, hml, if_pos hsvn]
    repeat' split
    all_goals decide
  case activated =>
    obtain ⟨j, L, hactivate⟩ := State.activate_in_service h.1 hstage
    rw [hactivate]
    exact ⟨rfl, rfl, rfl, rfl, rfl, rfl, rfl⟩
  case silent =>
    change execUpdateAgentTimeout s = _
    simp [execUpdateAgentTimeout, hon, hup, hmode, State.leaveUpdate]

end Sys2Proof.Machine
end

section
/-! PROOFS. Pins and rails (R319, R385, R387, R461): what rises brings up, and what falls stops. -/

namespace Sys2Proof.Machine

/-! ## What going dark leaves -/

/-- An entry of a table has what every listed value and the default have. -/
theorem tget_of_forall {α : Type} {d : α} {P : α → Prop} {t : Tbl α} (hd : P d) (ht : ∀ e ∈ t, P e.2) (k : Nat) :
    P (tget d t k) := by
  induction t with
  | nil => exact hd
  | cons e r ih =>
    rw [tget]
    split
    · exact ht e (by simp)
    · exact ih fun x hx => ht x (by simp [hx])

/-- Every tap is at code 0 in span LOW (R319). -/
theorem State.cluster_clearHeaters (s : State) (q : Nat) :
    (s.clearHeaters.cluster q).taps = [] ∧ (s.clearHeaters.cluster q).high = false := by
  refine tget_of_forall (P := fun c : Cluster => c.taps = [] ∧ c.high = false) ⟨rfl, rfl⟩ (fun e he => ?_) q
  obtain ⟨x, -, rfl⟩ := List.mem_map.mp (List.mem_filter.mp he).1
  exact ⟨rfl, rfl⟩

/-- Every port is as at reset. -/
def State.PortsReset (s : State) : Prop := ∀ p, s.port p = Port.reset

/-- A port as at reset that goes dark has nothing to lose. -/
theorem State.portDown_of_reset {s : State} (h : s.PortsReset) (p : Nat) :
    s.portDown p .dark = s.setPort p Port.reset := by
  have hretry : ((upTo 8).flatMap fun k => (Port.reset.lane k).retry) = [] := rfl
  simp only [State.portDown, State.loseRetry, h p, hretry]
  rfl

/-- The ports of a honeycomb, all as at reset, go dark with it and stay so. -/
theorem State.combPortsDark_of_reset {s : State} (h : s.PortsReset) (c : Nat) :
    ∃ P, s.combPortsDark c = { s with ports := P } ∧ (s.combPortsDark c).PortsReset := by
  have hdark : ∀ u : State, u.PortsReset → ∀ p, (u.setPort p Port.reset).PortsReset := fun u hu p q => by
    by_cases hq : q = p
    · rw [hq, State.port_setPort_same]
    · rw [State.port_setPort_ne _ _ _ _ hq, hu q]
  have hstays : (∃ P, s.combPortsDark c = { s with ports := P }) ∧ (s.combPortsDark c).PortsReset := by
    unfold State.combPortsDark
    split
    · exact ⟨⟨_, rfl⟩, h⟩
    · refine forEach_keeps (fun u => (∃ P, u = { s with ports := P }) ∧ u.PortsReset) _ _ ?_ s ⟨⟨_, rfl⟩, h⟩
      rintro u i ⟨⟨P, rfl⟩, hu⟩
      dsimp only
      rw [if_neg (by rw [hu]; decide), State.portDown_of_reset hu]
      exact ⟨⟨_, rfl⟩, hdark _ hu _⟩
  obtain ⟨⟨P, hP⟩, hreset⟩ := hstays
  exact ⟨P, hP, hreset⟩

/-- One honeycomb goes off (R385). -/
def State.haltComb (s : State) (h : Nat) : State :=
  (s.setCombSt h .off).modComb h fun x => { x with spacing := false, lowPower := false }

theorem State.haltComb_of_reset {s : State} (hs : s.PortsReset) (h : Nat) :
    (∃ C M P, s.haltComb h = { s with combs := C, mgmt := M, ports := P }) ∧ (s.haltComb h).PortsReset ∧
    ((s.haltComb h).comb h).state = .off ∧ ∀ k ≠ h, (s.haltComb h).comb k = s.comb k := by
  by_cases hoff : (s.comb h).state = .off
  · have hsame : s.haltComb h = s.modComb h fun x => { x with spacing := false, lowPower := false } := by
      rw [State.haltComb, State.setCombSt, if_pos hoff]
    rw [hsame]
    exact ⟨⟨_, _, _, rfl⟩, hs, by simp [hoff], fun k hk => by simp [hk]⟩
  · obtain ⟨M, hM⟩ := (s.modComb h fun x => { x with state := .off }).sensorChange_frame (48 + h) CombState.off.code
    have hreset : State.PortsReset
        ((s.modComb h fun x => { x with state := .off }).sensorChange (48 + h) CombState.off.code) := by
      rw [hM]
      exact hs
    obtain ⟨P, hP, hdark⟩ := State.combPortsDark_of_reset hreset h
    rw [hM] at hP hdark
    have hset : s.setCombSt h .off = { (s.modComb h fun x => { x with state := .off }) with mgmt := M, ports := P } := by
      rw [State.setCombSt, if_neg hoff]
      dsimp only
      rw [if_neg (by decide), hM, hP]
    rw [State.haltComb, hset]
    rw [hP] at hdark
    refine ⟨⟨_, _, _, rfl⟩, hdark, ?_, fun k hk => ?_⟩
    · rw [State.modComb, State.comb_setComb_same]
      change ((s.modComb h fun x => { x with state := .off }).comb h).state = _
      rw [State.modComb, State.comb_setComb_same]
    · rw [State.modComb, State.comb_setComb_ne _ _ _ _ hk]
      change (s.modComb h fun x => { x with state := .off }).comb k = _
      rw [State.modComb, State.comb_setComb_ne _ _ _ _ hk]

/-- Honeycombs 0 to n − 1 go off. -/
theorem State.haltCombs_of_reset {s : State} (hs : s.PortsReset) (n : Nat) :
    (∃ C M P, forEach (upTo n) State.haltComb s = { s with combs := C, mgmt := M, ports := P }) ∧
    (forEach (upTo n) State.haltComb s).PortsReset ∧
    ∀ h < n, ((forEach (upTo n) State.haltComb s).comb h).state = .off := by
  induction n with
  | zero => exact ⟨⟨_, _, _, rfl⟩, hs, fun h hh => absurd hh (Nat.not_lt_zero h)⟩
  | succ n ih =>
    obtain ⟨⟨C, M, P, hframe⟩, hports, hoff⟩ := ih
    obtain ⟨⟨C', M', P', hstep⟩, hports', hoff', hother⟩ := State.haltComb_of_reset hports n
    rw [forEach_upTo_succ]
    refine ⟨⟨C', M', P', by rw [hstep, hframe]⟩, hports', fun h hh => ?_⟩
    obtain rfl | hlt := Nat.eq_or_lt_of_le (Nat.lt_succ_iff.mp hh)
    · exact hoff'
    · rw [hother h (Nat.ne_of_lt hlt)]
      exact hoff h hlt

/-- What the halt of a device leaves of its state besides honeycombs, heaters and management: what it was doing is gone. -/
def State.still (s : State) : State :=
  { s with
    hnx := Hnx.reset, ports := [], lats := [], threads := [], ctxs := [], entries := [], admitQueue := [], issued := []
    bays := [], feOps := [], feOwner := [], rings := [], convs := [], traces := []
    cxl := { s.cxl with state := .down, memActive := false }
    boot := { s.boot with on := false, restarting := false, mgmtDown := false, reread := false } }

theorem State.halted_spec (s : State) : ∃ C M,
    s.halted = { s.still with combs := C, mgmt := M, clusters := s.clearHeaters.clusters } ∧
    ∀ h < 10, (tget Comb.reset C h).state = .off := by
  obtain ⟨⟨C, M, P, hframe⟩, -, hoff⟩ :=
    State.haltCombs_of_reset (s := ({ s with ports := [], hnx := Hnx.reset } : State).clearHeaters) (fun _ => rfl) 10
  refine ⟨C, M, ?_, fun h hh => ?_⟩
  · unfold State.halted
    extract_lets z u
    have hu : u = _ := hframe
    clear_value u
    subst hu
    rfl
  · have hcomb := hoff h hh
    rwa [hframe] at hcomb

/-- The device has stopped (R385), whatever else then changes in its pins, its boot record and its power record. -/
theorem State.stopDevice_spec (s : State) : ∃ z, s.stopDevice = z ∧ Stopped s z ∧ z.power = s.power := by
  obtain ⟨C, M, hhalted, hoff⟩ := s.halted_spec
  unfold State.stopDevice
  rw [hhalted]
  exact ⟨_, rfl, ⟨rfl, rfl, rfl, hoff, s.cluster_clearHeaters, rfl, rfl, rfl, rfl, rfl, rfl, rfl⟩, rfl⟩

/-- Once a token has ended there is none; besides that only fields and the journal have changed (R401). -/
theorem State.endToken_frame (s : State) :
    ∃ F j, s.endToken = { s with sec := { s.sec with token := none }, flds := F, jnl := j } := by
  cases hk : s.sec.token with
  | none =>
    refine ⟨s.flds, s.jnl, (State.endToken_none hk).trans ?_⟩
    rw [← hk]
  | some k =>
    obtain ⟨F, hF⟩ := ({ s with sec := { s.sec with token := none } } : State).disarm_frame
    obtain ⟨j, hj⟩ := ({ s with sec := { s.sec with token := none } } : State).disarm.journal_frame (k := .tokenEnd)
      (by decide) []
    exact ⟨F, j, by rw [State.endToken_some hk, hj, hF]⟩

/-! ## Pins and rails -/

theorem exec_pwrOkAssert {s : State} (hok : s.pins.pwrOk = false) (haux : s.pins.aux = true) :
    exec .pwrOkAssert s = .next { s with pins := { s.pins with pwrOk := true, railsOk := true, refArmed := true },
                                         power := { s.power with avsMv := 750 } } :=
  if_neg (by simp [hok, haux])

theorem exec_vddAuxPowerUp (c : Bool) {s : State} (haux : s.pins.aux = false) :
    exec (.vddAuxPowerUp c) s = .next { s with pins := { s.pins with aux := true },
                                               power := { s.power with clkExt := c }, mgmt := Mgmt.reset } :=
  if_neg (by simp [haux])

theorem State.powerGone_of_on {s : State} (hon : s.boot.on = true) : s.powerGone = s.stopDevice := if_pos hon

/-- A state in which the device is stopped stays so under changes of the boot record's flags, the pins and the power record. -/
theorem Stopped.of_eq {s t u : State} (h : Stopped s t) (hboot : u.boot.on = t.boot.on) (hrest : u = { t with
    pins := u.pins, boot := u.boot, power := u.power }) : Stopped s u := by
  rw [hrest]
  obtain ⟨hon, hlater⟩ := h
  exact ⟨hboot.trans hon, hlater⟩

theorem exec_railOutOfWindow (r : Rail) {s : State} (hon : s.boot.on = true) (hok : s.pins.pwrOk = true) :
    exec (.railOutOfWindow r) s = .next { s.stopDevice with pins := { s.stopDevice.pins with railsOk := false } } := by
  change execRailOutOfWindow r s = _
  simp [execRailOutOfWindow, hok, State.powerGone_of_on hon]

theorem exec_vddAuxLoss {s : State} (hon : s.boot.on = true) (haux : s.pins.aux = true) :
    exec .vddAuxLoss s = .next { s.stopDevice with
      pins := { s.stopDevice.pins with aux := false, railsOk := false, pwrOk := false, refArmed := false, xspiReset := true }
      boot := { s.stopDevice.boot with faultN := false, halt := 0 }
      power := { s.stopDevice.power with tripLatched := false, tripDomain := 0, tripSensor := 0, tripTime := 0 } } := by
  change execVddAuxLoss s = _
  simp [execVddAuxLoss, haux, State.powerGone_of_on hon]

theorem exec_referenceLost {s : State} (harmed : s.pins.refArmed = true) :
    exec .referenceLost s = .next { s.stopDevice with
      power := { s.stopDevice.power with refOk := false }
      boot := { s.stopDevice.boot with faultN := true, halt := 3 }
      pins := { s.stopDevice.pins with refArmed := false } } := by
  change execReferenceLost s = _
  simp [execReferenceLost, harmed]

theorem exec_perstNAssert {s : State} (hon : s.boot.on = true) (hp : s.pins.perst = false) :
    exec .perstNAssert s = .next { s.endToken.halted with
      pins := { s.endToken.halted.pins with perst := true, deferred := false, xspiReset := true } } := by
  have hstill : s.endToken.boot.on = true := by
    obtain ⟨F, j, hended⟩ := s.endToken_frame
    rwa [hended]
  change execPerstNAssert s = _
  simp [execPerstNAssert, hp, hstill]

theorem exec_pwrOkDeassert {s : State} (hon : s.boot.on = true) :
    exec .pwrOkDeassert s = .next { s.stopDevice with
      pins := { s.stopDevice.pins with pwrOk := false, refArmed := false } } := by
  change execPwrOkDeassert s = _
  simp [execPwrOkDeassert, State.powerGone_of_on hon]

/-- Settles O14: what falls stops the device, and then writes pins, boot flags and the power record; PERST_N halts it after its
token's end. -/
theorem supplyPins : Obligations.SupplyPins := by
  refine ⟨fun s hok haux => exec_pwrOkAssert hok haux, fun c s haux => exec_vddAuxPowerUp c haux,
    fun s hon => .of (exec_pwrOkDeassert hon) ?pwrOk, fun r s hon hok => .of (exec_railOutOfWindow r hon hok) ?rail,
    fun s hon haux => .of (exec_vddAuxLoss hon haux) ?aux, fun s hon harmed => .of (exec_referenceLost harmed) ?reference,
    fun s hon hp => .of (exec_perstNAssert hon hp) ?perst⟩
  case pwrOk =>
    obtain ⟨z, hz, hstopped, -⟩ := s.stopDevice_spec
    rw [hz]
    exact ⟨hstopped.of_eq rfl rfl, rfl⟩
  case rail =>
    obtain ⟨z, hz, hstopped, hpower⟩ := s.stopDevice_spec
    rw [hz]
    exact ⟨hstopped.of_eq rfl rfl, rfl, hpower⟩
  case aux =>
    obtain ⟨z, hz, hstopped, -⟩ := s.stopDevice_spec
    rw [hz]
    exact ⟨hstopped.of_eq rfl rfl, rfl, rfl, rfl, rfl⟩
  case reference =>
    obtain ⟨z, hz, hstopped, -⟩ := s.stopDevice_spec
    rw [hz]
    exact ⟨hstopped.of_eq rfl rfl, rfl, rfl, rfl⟩
  case perst =>
    obtain ⟨C, M, hhalted, hoff⟩ := s.endToken.halted_spec
    obtain ⟨F, j, hended⟩ := s.endToken_frame
    have hheaters := s.endToken.cluster_clearHeaters
    rw [hhalted]
    rw [hended] at hheaters ⊢
    exact ⟨rfl, rfl, rfl, fun _ => rfl, fun _ => rfl, hoff, hheaters, rfl, rfl, rfl, rfl, rfl⟩

end Sys2Proof.Machine
end

section
/-! PROOFS. The journal in flash (R354, R358, R361) and its write window (R360). -/

namespace Sys2Proof.Machine

/-! ## Page programs, compactions and erases (R354, R358) -/

theorem exec_journalPageProgram_open {s : State} (hon : s.boot.on = true) (hopen : s.jnl.windowOpen = true) :
    exec .journalPageProgram s = .next { s with jnl := s.jnl.drain.commit } := if_pos (by simp [hon, hopen])

/-- The journal once the other half is active and the old one is left to be erased. -/
def Journal.switched (j : Journal) : Journal :=
  { j.commit with recs := j.commit.other, other := [], tornIn := 0, half := 1 - j.half, compacting := false, erasing := true }

theorem exec_compactionSwitch_open {s : State} (hon : s.boot.on = true) (hopen : s.jnl.windowOpen = true)
    (hcompacting : s.jnl.compacting = true) :
    exec .compactionSwitch s = .next { s with jnl := s.jnl.switched.drain } := if_neg (by simp [hon, hopen, hcompacting])

/-- What is held goes to the batch of the new half as far as it has room, in order. -/
theorem Journal.switched_drain_held (j : Journal) :
    j.switched.drain.unwritten ++ j.switched.drain.hold = j.hold := by
  change [] ++ (takeFit _ j.hold).1 ++ (takeFit _ j.hold).2 = _
  rw [List.nil_append, takeFit_append]

theorem Journal.switched_recs {j : Journal} (hcompacting : j.compacting = true) :
    j.switched.recs = j.other ++ j.unwritten := if_pos hcompacting

theorem exec_halfEraseDone_open {s : State} (hon : s.boot.on = true) (hopen : s.jnl.windowOpen = true)
    (herasing : s.jnl.erasing = true) : exec .halfEraseDone s = .next { s with jnl := { s.jnl with
      erasing := false
      erases0 := if s.jnl.half = 1 then s.jnl.erases0 + 1 else s.jnl.erases0
      erases1 := if s.jnl.half = 0 then s.jnl.erases1 + 1 else s.jnl.erases1 } } :=
  if_neg (by simp [hon, hopen, herasing])

/-- Nothing is programmed, switched or erased while the write window is closed (R360). -/
theorem exec_flash_closed {c : Instr} {s : State}
    (hc : c = .journalPageProgram ∨ c = .compactionSwitch ∨ c = .halfEraseDone) (hclosed : s.jnl.windowOpen = false) :
    exec c s = .next s := by
  obtain rfl | rfl | rfl := hc
  · exact if_neg (by simp [hclosed])
  · exact if_pos (by simp [hclosed])
  · exact if_pos (by simp [hclosed])

/-- A compaction that is due, or asked for outside the hour, starts (R358). -/
theorem exec_compacts {c : Instr} {s : State} (hc : c = .compactionStart ∧ s.boot.on = true ∧ 24 * hourNs ≤ s.sinceCompaction ∨
      ∃ p, c = .jnlCompact p ∧ s.served p = true ∧ (s.jnl.lastCompact = none ∨ hourNs ≤ s.sinceCompaction)) :
    exec c s = .next s.compact := by
  obtain ⟨rfl, hon, hdue⟩ | ⟨p, rfl, hserved, hlate⟩ := hc
  · have hour : hourNs = 3600000000000 := rfl
    have hquarter : ¬ 4 * s.sinceCompaction < hourNs := by omega
    have hhour : ¬ s.sinceCompaction < hourNs := by omega
    exact if_pos (by simp [hon, hdue, hquarter, hhour])
  · refine (if_pos hserved).trans (congrArg _ (if_neg ?_))
    obtain hnone | hlate := hlate
    · simp [hnone]
    · simp [Nat.not_lt.mpr hlate]

/-- The snapshot stands behind a SNAP_BEGIN and holds every state record in force. -/
theorem State.compact_spec {s : State} (hidle : s.jnl.compacting = false) (herased : s.jnl.erasing = false) :
    ∃ F x n, s.compact = { s with flds := F, jnl := { s.jnl with
        compacting := true, lastCompact := some s.time, other := x, next := n } } ∧
      (x.map (·.kind)).head? = some .snapBegin ∧ ∀ r ∈ inForce s.jnl.recs, { r with snap := true } ∈ x := by
  unfold State.compact
  rw [if_neg (by simp [hidle, herased])]
  extract_lets
  exact ⟨_, _, _, rfl, rfl, fun r hr =>
    List.mem_append_left _ (List.mem_append_right _ (List.mem_map.mpr ⟨r, List.mem_append_left _ hr, rfl⟩))⟩

theorem exec_jnlCompact_early {p : Path} {s : State} (hserved : s.served p = true) (hdone : s.jnl.lastCompact.isSome = true)
    (hearly : s.sinceCompaction < hourNs) : exec (.jnlCompact p) s = .next (s.refuse p (Reg.jnlCtrl.addr 0) 1) :=
  (if_pos hserved).trans (congrArg _ (if_pos (by simp [hdone, hearly])))

/-- Settles O21: every step of the journal is one update of it; the batch and the hold buffer keep their order as they drain. -/
theorem journalFlash : Obligations.JournalFlash := by
  refine ⟨fun s hon hopen => .of (exec_journalPageProgram_open hon hopen) ⟨rfl, rfl, Journal.commit_drain _, rfl⟩,
    fun s hon hopen hcompacting => .of (exec_compactionSwitch_open hon hopen hcompacting)
      ⟨rfl, Journal.switched_recs hcompacting, Journal.switched_drain_held _, rfl, rfl, rfl, rfl, rfl⟩,
    fun s hon hopen herasing => .of (exec_halfEraseDone_open hon hopen herasing) ⟨rfl, ?half1, ?half0⟩,
    fun c s hc hclosed => exec_flash_closed hc hclosed, fun c s hc hidle herased => .of (exec_compacts hc) ?compacts,
    fun p s hserved hdone hearly => .of (exec_jnlCompact_early hserved hdone hearly)
      ⟨?jnl, State.refuse_count .., State.refuse_path ..⟩⟩
  case half1 => exact fun h => by simp [h]
  case half0 => exact fun h => by simp [h]
  case compacts =>
    obtain ⟨F, x, n, hcompact, hbegin, hforce⟩ := State.compact_spec hidle herased
    rw [hcompact]
    exact ⟨rfl, rfl, rfl, rfl, rfl, hbegin, hforce⟩
  case jnl =>
    obtain ⟨F, at_, log, head, hrefused⟩ := s.refuse_frame p (Reg.jnlCtrl.addr 0) 1
    rw [hrefused]

/-! ## The write window (R360) -/

/-- An evaluation of the window changes the journal's part alone: as the window opens, what is held goes to the batch. -/
theorem State.updateWindow_frame (s : State) : ∃ x h, s.updateWindow = { s with jnl := { s.jnl with
    hubMax := s.hubMax, windowOpen := s.hubInWindow && s.flashInRating, unwritten := x, hold := h } } := by
  unfold State.updateWindow
  dsimp only
  split
  · exact ⟨_, _, rfl⟩
  · exact ⟨_, _, rfl⟩

/-- A reading of the flash temperature in range is taken. -/
theorem exec_flashTempRead_good {v : Int} {s : State} (hon : s.boot.on = true) (hsource : s.cfg.flashTemp = .register)
    (hlo : -40 * 256 ≤ v) (hhi : v ≤ 150 * 256) : exec (.flashTempRead (some v)) s =
      .next ({ s with jnl := { s.jnl with flashTemp := v, sensorBad := false } } : State).updateWindow := by
  change execFlashTempRead (some v) s = _
  have hok : (decide (-40 * 256 ≤ v) && decide (v ≤ 150 * 256)) = true := by
    rw [Bool.and_eq_true, decide_eq_true_eq, decide_eq_true_eq]
    exact ⟨hlo, hhi⟩
  simp only [execFlashTempRead, hon, hsource, Option.any_some, hok]
  rfl

/-- A source that does not answer is logged, and counts as outside the rating. -/
theorem exec_flashTempRead_none {s : State} (hon : s.boot.on = true) (hsource : s.cfg.flashTemp = .register) :
    exec (.flashTempRead none) s = .next (({ s with jnl := { s.jnl with sensorBad := true } } : State).event .nvmTempSensor
      .device 0 noCtx []).updateWindow := by
  change execFlashTempRead none s = _
  simp only [execFlashTempRead, hon, hsource]
  rfl

/-- Settles O22: the window's evaluation is its definition; a bad source is noted in the journal's part before it. -/
theorem flashWindow : Obligations.FlashWindow := by
  refine ⟨fun v s hon hsource hlo hhi => .of (exec_flashTempRead_good hon hsource hlo hhi) ?good,
    fun s hon hsource => .of (exec_flashTempRead_none hon hsource) ?bad⟩
  case good =>
    obtain ⟨x, h, hwindow⟩ :=
      ({ s with jnl := { s.jnl with flashTemp := v, sensorBad := false } } : State).updateWindow_frame
    rw [hwindow]
    refine ⟨rfl, rfl, rfl, rfl, ?_⟩
    change (s.hubInWindow && State.flashInRating { s with jnl := _ }) = true ↔ _
    simp [State.flashInRating, hsource]
  case bad =>
    set z : State := { s with jnl := { s.jnl with sensorBad := true } }
    obtain ⟨x, h, n, hjnl⟩ := z.event_jnl .nvmTempSensor .device 0 noCtx []
    have hbad : (z.event .nvmTempSensor .device 0 noCtx []).jnl.sensorBad = true := by rw [hjnl]
    have hrating : (z.event .nvmTempSensor .device 0 noCtx []).flashInRating = false := by
      rw [State.flashInRating, State.event_cfg, show z.cfg = s.cfg from rfl, hsource, hbad]
      rfl
    obtain ⟨x', h', hwindow⟩ := (z.event .nvmTempSensor .device 0 noCtx []).updateWindow_frame
    rw [hwindow, hrating, Bool.and_false]
    exact ⟨hbad, rfl, State.event_evHead .., State.event_newest ..⟩

end Sys2Proof.Machine
end

section
/-! PROOFS. Calibration (R329 to R339): saves, ramps, published residuals and episodes. -/

namespace Sys2Proof.Machine

/-! ## Saves (R331) -/

theorem exec_saves {c : Instr} {s : State} (hc : c = .calSaveDue ∨ ∃ p, c = .calSaveRequest p ∧ s.served p = true) :
    exec c s = .next s.startSave := by
  obtain rfl | ⟨p, rfl, hserved⟩ := hc
  · rfl
  · exact if_pos hserved

/-- A save that no firmware activation waits for is completed by its end alone. -/
theorem exec_calSaveComplete {s : State} (hwant : s.boot.wantFwSave = false) :
    exec .calSaveComplete s = .next s.endSave := if_neg (by simp [hwant])

/-- The save's copy once it is complete. -/
def State.savedFlash (s : State) : Flash :=
  { s.flash with
    calBusy := false, calCopy := 1 - s.flash.calCopy, calTime := s.time % 2 ^ 48
    calFolds := (upTo 8).map fun l => (s.lat l).folds, calOther := s.flash.calFolds }

theorem State.endSave_open {s : State} (hbusy : s.flash.calBusy = true) (hopen : s.jnl.windowOpen = true) :
    s.endSave = ({ s with flash := s.savedFlash } : State).journal .calCopy [1 - s.flash.calCopy, s.time] :=
  if_neg (by simp [hbusy, hopen])

/-- With nothing held and room in the half, a record goes to the batch (R356). -/
theorem State.journal_batched {s : State} (k : JKind) (p : List Nat) (hopen : s.jnl.windowOpen = true)
    (hhold : s.jnl.hold = []) (hroom : s.jnl.used + (if k = .event then 2 else 1) ≤ halfSlots) :
    s.journal k p = { s with jnl := { s.jnl with
      unwritten := s.jnl.unwritten ++ [{ seq := s.jnl.next, kind := k, payload := p, snap := false }]
      next := s.jnl.next + if k = .event then 2 else 1 } } :=
  if_pos (by
    simp only [hopen, hhold, List.isEmpty_nil, Bool.and_self, Bool.true_and, decide_eq_true_eq]
    exact hroom)

/-- Settles O23: a save folds each lattice's trims by itself; its end is a new copy and one record. -/
theorem calibrationSave : Obligations.CalibrationSave := by
  refine ⟨fun c s hc hon hidle => .of (exec_saves hc) ?starts,
    fun s hbusy hopen hwant hhold hroom => .of (exec_calSaveComplete hwant) ?ends,
    fun s hbusy hclosed => ?closed⟩
  case starts =>
    obtain ⟨L, hL⟩ := s.foldTrims_frame
    have hstart := State.startSave_begins hon hidle
    have hlat : ∀ l, s.startSave.lat l = if l < 8 then (s.lat l).folded else s.lat l := fun l =>
      (State.lat_congr (s := s.foldTrims) (by rw [hstart]) l).trans (s.lat_foldTrims l)
    refine ⟨by rw [hstart, hL], fun l hl => ⟨fun hnone => ?_, fun x hx => ?_⟩, fun l hl => ?_⟩
    · rw [hlat, if_pos hl, Lattice.folded, hnone]
    · rw [hlat, if_pos hl, Lattice.folded, hx]
    · rw [hlat, if_neg (Nat.not_lt.mpr hl)]
  case ends =>
    rw [State.endSave_open hbusy hopen,
      State.journal_batched (s := { s with flash := s.savedFlash }) .calCopy _ hopen hhold hroom]
    exact ⟨rfl, rfl, by simp, rfl⟩
  case closed =>
    have hsame : s.endSave = s := if_pos (by simp [hclosed])
    change execCalSaveComplete s = _
    simp [execCalSaveComplete, hsame]

/-! ## Tracking (R329, R332) -/

section
variable {l : Fin 8} {r : Ramp} {rest : List Ramp} {s : State} (hramps : (s.lat l).ramps = r :: rest)
include hramps

theorem exec_rampStep_next (hstep : r.step < 15) :
    exec (.rampStep l) s = .next ((s.setFld .calStatusRampStep l (r.step + 1)).setLat l
      { s.lat l with ramps := { r with step := r.step + 1 } :: rest }) := by
  change execRampStep l s = _
  simp [execRampStep, hramps, Nat.not_le.mpr hstep]

theorem exec_rampStep_last (hstep : 15 ≤ r.step) :
    exec (.rampStep l) s = .next ((s.setFld .calStatusRampStep l (r.step + 1)).setLat l
      { s.lat l with ramps := [], tables := some r.goal }) := by
  change execRampStep l s = _
  simp [execRampStep, hramps, hstep]

end

/-! ## Residuals and episodes (R337, R338) -/

/-- The residuals' fields with what is published, and the peak of RMS. -/
def State.published (s : State) (l : Nat) (rms bias : BitVec 16) : State :=
  ((s.setFld .latResidRms l rms.toNat).setFld .latResidBias l bias.toNat).raise .latResidPeak l rms.toNat

section
variable (s : State) {l : Nat} (hl : l < 4096) (rms bias : BitVec 16)
include hl

theorem State.fld_published_rms : (s.published l rms bias).fld .latResidRms l = rms.toNat := by
  rw [State.published, State.fld_raise_ne _ _ _ _ _ _ (Fld.key_ne (by decide)),
    State.fld_setFld_ne _ _ _ _ _ _ (Fld.key_ne (by decide)), State.fld_setFld_same _ _ _ _ (by decide)]
  exact Nat.mod_eq_of_lt rms.isLt

theorem State.fld_published_bias : (s.published l rms bias).fld .latResidBias l = bias.toNat := by
  rw [State.published, State.fld_raise_ne _ _ _ _ _ _ (Fld.key_ne (by decide)), State.fld_setFld_same _ _ _ _ (by decide)]
  exact Nat.mod_eq_of_lt bias.isLt

theorem State.fld_published_peak (hpeak : s.fld .latResidPeak l < 2 ^ 16) :
    (s.published l rms bias).fld .latResidPeak l = max (s.fld .latResidPeak l) rms.toNat := by
  have hwas : ((s.setFld .latResidRms l rms.toNat).setFld .latResidBias l bias.toNat).fld .latResidPeak l =
      s.fld .latResidPeak l := by
    rw [State.fld_setFld_ne _ _ _ _ _ _ (Fld.key_ne (by decide)), State.fld_setFld_ne _ _ _ _ _ _ (Fld.key_ne (by decide))]
  have hrms := rms.isLt
  rw [State.published, State.fld_raise_same _ _ _ _ (by decide) (by rw [hwas]; exact hpeak), hwas,
    show 2 ^ Fld.latResidPeak.width - 1 = 65535 from rfl, Nat.min_eq_left (by omega)]

end

/-- The state in which an episode has been started for `cause`. -/
def State.episodeBegun (s : State) (l cause : Nat) : State :=
  ((s.modLat l fun x => { x with episode := some s.time, episodeMet := false }).bump .calEventCntEpisodes l).setFld
    .calStatusCause l cause

theorem State.startEpisode_serving {s : State} {l : Nat} (cause : Nat) (hstate : (s.lat l).state = .serving)
    (hidle : (s.lat l).episode = none) : s.startEpisode l cause = s.episodeBegun l cause := by
  simp [State.startEpisode, hstate, hidle, State.episodeBegun]

theorem exec_calEpisodeStart_serving {p : Path} {l : Fin 8} {s : State} (hserved : s.served p = true)
    (hstate : (s.lat l).state = .serving) (hidle : (s.lat l).episode = none) :
    exec (.calEpisodeStart p l) s = .next (s.episodeBegun l 4) := by
  rw [← State.startEpisode_serving 4 hstate hidle]
  exact if_pos hserved

theorem exec_residualPublish_lit {l : Fin 8} (rms bias : BitVec 16) {s : State}
    (hstate : (s.lat l).state = .locked ∨ (s.lat l).state = .suspect) :
    exec (.residualPublish l rms bias) s = .next (s.published l rms bias) := by
  change execResidualPublish l rms bias s = _
  obtain hst | hst := hstate <;> simp [execResidualPublish, hst, State.published]

theorem exec_residualPublish_beyond {l : Fin 8} {rms bias : BitVec 16} {s : State} (hstate : (s.lat l).state = .serving)
    (hfresh : s.flag .calStatusStale l = false) (hidle : (s.lat l).episode = none)
    (hbeyond : 2048 < rms.toNat ∨ 4096 < 20 * bias.toInt.natAbs) :
    exec (.residualPublish l rms bias) s = .next ((s.published l rms bias).episodeBegun l 2) := by
  have hstale : (s.published l rms bias).flag .calStatusStale l = false := by
    rw [State.flag, State.published, State.fld_raise_ne _ _ _ _ _ _ (Fld.key_ne (by decide)),
      State.fld_setFld_ne _ _ _ _ _ _ (Fld.key_ne (by decide)),
      State.fld_setFld_ne _ _ _ _ _ _ (Fld.key_ne (by decide))]
    exact hfresh
  have hlat : (s.published l rms bias).lat l = s.lat l := by simp [State.published]
  have hfar : (decide (2048 < rms.toNat) || decide (4096 < 20 * bias.toInt.natAbs)) = true := by simpa using hbeyond
  change execResidualPublish l rms bias s = _
  rw [← State.startEpisode_serving (s := s.published l rms bias) 2 (by rwa [hlat]) (by rwa [hlat])]
  simp only [execResidualPublish, hstate]
  refine if_pos ?_
  rw [hfar, Bool.and_true, Bool.and_eq_true, Bool.not_eq_true']
  exact ⟨decide_eq_true ((congrArg _ hlat).trans hstate), hstale⟩

theorem State.lat_episodeBegun (s : State) (l cause : Nat) :
    (s.episodeBegun l cause).lat l = { s.lat l with episode := some s.time, episodeMet := false } := by
  rw [State.episodeBegun, State.lat_setFld, State.lat_bump, State.modLat, State.lat_setLat_same]

theorem State.lat_episodeBegun_ne (s : State) {l k : Nat} (cause : Nat) (hk : k ≠ l) :
    (s.episodeBegun l cause).lat k = s.lat k := by
  rw [State.episodeBegun, State.lat_setFld, State.lat_bump, State.modLat, State.lat_setLat_ne _ _ _ _ hk]

theorem State.episodeBegun_frame (s : State) (l cause : Nat) :
    ∃ F L, s.episodeBegun l cause = { s with flds := F, lats := L } := by
  obtain ⟨F, hF⟩ := (s.modLat l fun x => { x with episode := some s.time, episodeMet := false }).bump_frame
    .calEventCntEpisodes l 1
  obtain ⟨G, hG⟩ := ({ (s.modLat l fun x => { x with episode := some s.time, episodeMet := false }) with flds := F } :
    State).setFld_frame .calStatusCause l cause
  exact ⟨G, _, by rw [State.episodeBegun, hF, hG]; rfl⟩

theorem State.published_frame (s : State) (l : Nat) (rms bias : BitVec 16) :
    ∃ F, s.published l rms bias = { s with flds := F } := by
  obtain ⟨F, hF⟩ := s.setFld_frame .latResidRms l rms.toNat
  obtain ⟨G, hG⟩ := ({ s with flds := F } : State).setFld_frame .latResidBias l bias.toNat
  obtain ⟨H, hH⟩ := ({ s with flds := G } : State).raise_frame .latResidPeak l rms.toNat
  exact ⟨H, by rw [State.published, hF, hG, hH]⟩

theorem State.fld_episodeBegun (s : State) {l cause : Nat} {f : Fld} {i : Nat} (hl : l < 4096) (hi : i < 4096)
    (hcount : f.place ≠ Fld.calEventCntEpisodes.place) (hcause : f.place ≠ Fld.calStatusCause.place) :
    (s.episodeBegun l cause).fld f i = s.fld f i := by
  rw [State.episodeBegun, State.fld_setFld_ne _ _ _ _ _ _ (Fld.key_ne hcause),
    State.fld_bump_ne _ _ _ _ _ _ (Fld.key_ne hcount)]
  rfl

theorem State.fld_episodeBegun_cause (s : State) (l : Nat) {cause : Nat} (hcause : cause < 2 ^ Fld.calStatusCause.width) :
    (s.episodeBegun l cause).fld .calStatusCause l = cause := by
  rw [State.episodeBegun, State.fld_setFld_same _ _ _ _ (by decide)]
  exact Nat.mod_eq_of_lt hcause

theorem State.fld_episodeBegun_count (s : State) {l : Nat} (cause : Nat) (hl : l < 4096) :
    (s.episodeBegun l cause).fld .calEventCntEpisodes l =
      min (s.fld .calEventCntEpisodes l + 1) (2 ^ Fld.calEventCntEpisodes.width - 1) := by
  rw [State.episodeBegun, State.fld_setFld_ne _ _ _ _ _ _ (Fld.key_ne (by decide)),
    State.fld_bump_same _ _ _ _ (by decide)]
  rfl

/-- Settles O24: what is published and what an episode's start notes are fields of their own beside the lattice's record. -/
theorem calibrationTracking : Obligations.CalibrationTracking := by
  refine ⟨fun l r rest s hramps hstep => exec_rampStep_next hramps hstep,
    fun l r rest s hramps hstep => exec_rampStep_last hramps hstep,
    fun l rms bias s hstate hfresh hidle hbeyond hpeak =>
      .of (exec_residualPublish_beyond hstate hfresh hidle hbeyond) ?beyond,
    fun l rms bias s hstate hpeak => .of (exec_residualPublish_lit rms bias hstate) ?lit,
    fun p l s hserved hstate hidle =>
      .of (exec_calEpisodeStart_serving hserved hstate hidle) ?asked⟩
  case beyond =>
    have hl : l.val < 4096 := by omega
    obtain ⟨F, hF⟩ := s.published_frame l rms bias
    obtain ⟨G, L, hG⟩ := (s.published l rms bias).episodeBegun_frame l 2
    refine ⟨by rw [hG, hF], ?_, ?_, ?_, State.fld_episodeBegun_cause _ _ (by decide), ?_, fun k hk => ?_⟩
    · rw [State.fld_episodeBegun _ hl hl (by decide) (by decide), s.fld_published_rms hl]
    · rw [State.fld_episodeBegun _ hl hl (by decide) (by decide), s.fld_published_bias hl]
    · rw [State.fld_episodeBegun _ hl hl (by decide) (by decide), s.fld_published_peak hl _ _ hpeak]
    · rw [State.lat_episodeBegun, hF]
      rfl
    · rw [State.lat_episodeBegun_ne _ _ hk, hF]
      rfl
  case lit =>
    have hl : l.val < 4096 := by omega
    obtain ⟨F, hF⟩ := s.published_frame l rms bias
    exact ⟨by rw [hF], s.fld_published_rms hl .., s.fld_published_bias hl .., s.fld_published_peak hl _ _ hpeak⟩
  case asked =>
    obtain ⟨F, L, hF⟩ := s.episodeBegun_frame l 4
    exact ⟨by rw [hF], State.fld_episodeBegun_cause _ _ (by decide), State.lat_episodeBegun ..,
      State.fld_episodeBegun_count _ _ (by omega)⟩

/-! ## Episodes that end, and those that don't (R338, R339) -/

/-- An interval meets the limits of R338. -/
def intervalMet (sweeps : Nat) (rms bias : BitVec 16) (maxTrim : Nat) : Bool :=
  decide (64 ≤ sweeps) && decide (100 * rms.toNat ≤ 45 * 4096) && decide (100 * bias.toInt.natAbs ≤ 4 * 4096) &&
    decide (maxTrim ≤ 2)

section
variable {l : Fin 8} {sweeps maxTrim : Nat} {rms bias : BitVec 16} {s : State} (hruns : (s.lat l).episode.isSome = true)
include hruns

theorem exec_episodeInterval_second (hmet : intervalMet sweeps rms bias maxTrim = true)
    (hbefore : (s.lat l).episodeMet = true) : exec (.episodeInterval l sweeps rms bias maxTrim) s = .next
      (((s.setLat l { s.lat l with episode := none, episodeMet := false }).setFld .calConvergedTime l s.time).setStale l
        false) := by
  have hboth : (intervalMet sweeps rms bias maxTrim && (s.lat l).episodeMet) = true := by rw [hmet, hbefore]; rfl
  exact (if_neg (by simpa [Option.isSome_iff_ne_none] using hruns)).trans (if_pos hboth)

theorem exec_episodeInterval_bad (hbad : intervalMet sweeps rms bias maxTrim = false) :
    exec (.episodeInterval l sweeps rms bias maxTrim) s = .next (s.setLat l { s.lat l with episodeMet := false }) := by
  have hnot : ¬ (intervalMet sweeps rms bias maxTrim && (s.lat l).episodeMet) = true := by simp [hbad]
  refine (if_neg (by simpa [Option.isSome_iff_ne_none] using hruns)).trans ((if_neg hnot).trans ?_)
  rw [← hbad]
  rfl

theorem exec_episodeTimeout_stale (hfresh : s.flag .calStatusStale l = false) : exec (.episodeTimeout l) s =
    .next (((s.setStale l true).bump .calEventCntStale l).event .calStale .lattice l noCtx []) :=
  if_neg (by simpa [Option.isSome_iff_ne_none, hfresh] using hruns)

end

theorem State.setStale_same {s : State} {l : Nat} {v : Bool} (h : s.flag .calStatusStale l = v) : s.setStale l v = s :=
  if_pos h

theorem State.setStale_true {s : State} {l : Nat} (h : s.flag .calStatusStale l = false) :
    s.setStale l true = ((s.setFld .calStatusStale l 1).markChg 4).setAlert 2 :=
  if_neg (by simp [h])

/-- Settles O25: the time a converged episode notes, and the flags and counts of one that is not, are fields of their own. -/
theorem calibrationEpisodes : Obligations.CalibrationEpisodes := by
  refine ⟨fun l sweeps maxTrim rms bias s hruns hsweeps hrms hbias htrim hbefore hfresh => ?second,
    fun l sweeps maxTrim rms bias s hruns hbad => exec_episodeInterval_bad hruns ?bad,
    fun l s hruns hfresh => .of (exec_episodeTimeout_stale hruns hfresh) ?stale⟩
  case second =>
    rw [exec_episodeInterval_second hruns (by simp [intervalMet, *]) hbefore, State.setStale_same]
    rw [State.flag_setFld_ne _ _ _ _ _ _ (Fld.key_ne (by decide))]
    exact hfresh
  case bad =>
    simp only [intervalMet, Bool.and_eq_false_iff, decide_eq_false_iff_not]
    omega
  case stale =>
    have hl : l.val < 4096 := by omega
    rw [State.setStale_true hfresh]
    refine ⟨?flag, by simp, ?count, by simp, State.event_newest .., ?change⟩
    case flag =>
      rw [State.flag_event (Fld.key_event (by decide)), State.flag, State.fld_bump_ne _ _ _ _ _ _ (Fld.key_ne (by decide)),
        State.fld_setAlert (Fld.key_ne (by decide)) (Fld.key_ne (by decide)), State.fld_markChg (Fld.key_ne (by decide)),
        State.fld_setFld_same _ _ _ _ (by decide)]
      rfl
    case count =>
      rw [State.fld_event (Fld.key_event (by decide)), State.fld_bump_same _ _ _ _ (by decide),
        State.fld_setAlert (Fld.key_ne (by decide)) (Fld.key_ne (by decide)), State.fld_markChg (Fld.key_ne (by decide)),
        State.fld_setFld_ne _ _ _ _ _ _ (Fld.key_ne (by decide))]
    case change =>
      rw [State.flag_event (Fld.key_event (by decide)), State.flag, State.fld_bump_ne _ _ _ _ _ _ (Fld.key_ne (by decide)),
        State.fld_setAlert (Fld.key_ne (by decide)) (Fld.key_ne (by decide)),
        show Fld.devStatusChgStale = chgFld 4 from rfl, State.fld_markChg_same]
      rfl

end Sys2Proof.Machine
end

section
/-! PROOFS. Power settings (R365, R374), and where the statement on clocks fails (R388, R413). -/

namespace Sys2Proof.Machine

/-! ## PWR_LIMIT.SET and IDLE_STATE (R365, R374) -/

/-- SET takes `v`, and L falls to it where it is lower. -/
def State.limitSet (s : State) (v : Nat) : State :=
  if v < s.power.limit then (s.setFld .pwrLimitSet 0 v).setLimit v else s.setFld .pwrLimitSet 0 v

/-- What a write of SET leaves once it is accepted. -/
structure TookLimit (s : State) (v : Nat) (t : State) : Prop where
  set : t.fld .pwrLimitSet = v
  power : t.power = { s.power with limit := min s.power.limit v }
  lats : t.lats = s.lats
  mem : t.mem = s.mem
  sec : t.sec = s.sec

theorem State.writeLimit_of_ok (s : State) {v : Nat} (hlow : 300 ≤ v) (hhigh : v ≤ 1000) (hstep : v % 25 = 0) :
    s.writeLimit v = s.alertEdge (s.limitSet v) :=
  if_neg (by simp [hstep]; omega)

theorem State.fld_setFld_pwrLimitSet (s : State) {v : Nat} (hv : v ≤ 1000) : (s.setFld .pwrLimitSet 0 v).fld .pwrLimitSet = v := by
  rw [State.fld_setFld_same _ _ _ _ (by decide)]
  exact Nat.mod_eq_of_lt (Nat.lt_of_le_of_lt hv (by decide))

theorem State.limitSet_took (s : State) {v : Nat} (hv : v ≤ 1000) : TookLimit s v (s.limitSet v) := by
  have hset := s.fld_setFld_pwrLimitSet hv
  unfold State.limitSet
  split
  next hlt =>
    exact {
      set := by rw [State.fld_setLimit (by decide), hset]
      power := by rw [State.setLimit_power, Nat.min_eq_right hlt.le]; rfl
      lats := State.setLimit_lats ..
      mem := State.setLimit_mem ..
      sec := State.alertEdge_sec .. }
  next hge => exact { set := hset, power := by rw [Nat.min_eq_left (Nat.not_lt.mp hge)]; rfl, lats := rfl, mem := rfl, sec := rfl }

theorem State.writeLimit_took (s : State) {v : Nat} (hlow : 300 ≤ v) (hhigh : v ≤ 1000) (hstep : v % 25 = 0) :
    TookLimit s v (s.writeLimit v) := by
  obtain ⟨hset, hpower, hlats, hmem, hsec⟩ := s.limitSet_took hhigh
  rw [s.writeLimit_of_ok hlow hhigh hstep]
  exact {
    set := by rw [State.fld_alertEdge (by decide), hset]
    power := by rw [State.alertEdge_power, hpower]
    lats := by rw [State.alertEdge_lats, hlats]
    mem := by rw [State.alertEdge_mem, hmem]
    sec := by rw [State.alertEdge_sec, hsec] }

theorem TookLimit.answer {s t : State} {v : Nat} (h : TookLimit s v t) (r : Reply) : TookLimit s v (t.answer r) :=
  ⟨h.set, h.power, h.lats, h.mem, h.sec⟩

theorem exec_powerLimitSet_allowed {p : Path} {s : State} (w : BitVec 10) (hserved : s.served p = true)
    (hgrant : hostAllowed p s.cfg.grantLattice = true) :
    exec (.powerLimitSet p w) s = .next (s.writeLimit w.toNat) := by
  change execPowerLimitSet p w s = _
  simp [execPowerLimitSet, hserved, hgrant]

theorem exec_powerLimitSet_denied {p : Path} {s : State} (w : BitVec 10) (hserved : s.served p = true)
    (hgrant : hostAllowed p s.cfg.grantLattice = false) :
    exec (.powerLimitSet p w) s = .next (s.refuse p (Reg.pwrLimit.addr 0) w.toNat) := by
  change execPowerLimitSet p w s = _
  simp [execPowerLimitSet, hserved, hgrant]

/-- Effecter 1 is SET (R427). -/
theorem exec_setEffecter_limit {ep : Ep} {s : State} (v : Nat) (hreach : s.reaches ep = true) (hup : s.boot.mgmtDown = false) :
    exec (.setEffecter ep 1 v) s = .next ((s.writeLimit v).answer .done) := by
  change execSetEffecter ep 1 v s = _
  simp [execSetEffecter, State.request, hreach, hup]

theorem exec_idleStateWrite_allowed {p : Path} {s : State} (b : Fin 4) {v : BitVec 3} (hserved : s.served p = true)
    (hgrant : hostAllowed p s.cfg.grantLattice = true) (hv : v.toNat ≤ 4) :
    exec (.idleStateWrite p b v) s = .next (s.setFld .pwrBayCtrlIdleState b v.toNat) := by
  change execIdleStateWrite p b v s = _
  simp [execIdleStateWrite, State.writeIdle, hserved, hgrant, Nat.not_lt.mpr hv]

/-- Settles O27: every accepted write of SET, from a register or the effecter, is `State.writeLimit`; a host without its grant
is refused, and what is refused leaves L and SET. -/
theorem powerSettings : Obligations.PowerSettings := by
  refine ⟨fun c v s hc hlow hhigh hstep => ?accepted, fun p v s hserved hgrant => ?denied,
    fun p b v s hserved hgrant hv => exec_idleStateWrite_allowed b hserved hgrant hv⟩
  case accepted =>
    have took := s.writeLimit_took hlow hhigh hstep
    obtain ⟨p, w, rfl, rfl, hserved, hgrant⟩ | ⟨ep, rfl, -, hreach, -, hup⟩ := hc
    · exact .of (exec_powerLimitSet_allowed w hserved hgrant) ⟨took.set, took.power, took.lats, took.mem, took.sec⟩
    · obtain ⟨hset, hpower, hlats, hmem, hsec⟩ := took.answer .done
      exact .of (exec_setEffecter_limit v hreach hup) ⟨hset, hpower, hlats, hmem, hsec⟩
  case denied =>
    refine .of (exec_powerLimitSet_denied v hserved hgrant) ⟨?_, State.fld_refuse_ne (by decide) (by decide), s.refuse_count ..⟩
    obtain ⟨F, at_, log, evHead, ht⟩ := s.refuse_frame p (Reg.pwrLimit.addr 0) v.toNat
    rw [ht]

/-! ## A lock lost for good in a warm restart (R388, R395, R413) -/

/-- Firmware that commits security version 1. -/
def committingFirmware : FwImage :=
  { version := 1, svn := 1, commit := true, fieldsOk := true, digest := [],
    verdict := { ed := true, ml := true, digest := true } }

/-- A warm restart in STAGE 4 that waits for lattice 0, which its step 2 made LOCKED, to serve again; the firmware in use will
commit its security version once it does, and the PLL of the relay has lost its lock. -/
def restartAwaitsLattice : State :=
  { State.reset with
    boot := { State.reset.boot with on := true, stage := 4, kind := 2, restarting := true, outageFrom := some 0 }
    flash := { State.reset.flash with fwA := some committingFirmware }
    flds := (State.reset.setFld .latCtrlEn 0 1).flds
    lats := [(0, { Lattice.reset with state := .locked, cause := 13 })]
    power := { Power.reset with unlocked := [.hub .relay] } }

theorem inv_restartAwaitsLattice : Inv restartAwaitsLattice where
  waiting := rfl
  mem := rfl
  hostMem := rfl
  log := ⟨rfl, fun _ _ h => by simp [restartAwaitsLattice, State.reset] at h⟩

theorem startWaits_restartAwaitsLattice : restartAwaitsLattice.startWaits 0 = true := by decide

/-- A halt as far as its darkened lattices (R414). -/
def State.haltDark (s : State) : State :=
  forEach (upTo 8) (fun s l => s.darkLattice l)
    ({ s with boot := { s.boot with phase := 0, restarting := false, mgmtDown := false, reread := false } } :
      State).stopWork.resetBays

/-- What a halt does after that leaves the security version committed. -/
theorem State.svn_haltDevice (s : State) (halt cause detail : Nat) :
    s.haltDark.sec.svn ≤ (s.haltDevice halt cause detail).sec.svn := by
  unfold State.haltDevice
  extract_lets _ _ _ dark combs ports was _ _ halted staged
  have hcombs : Keeps dark combs := .forEach (.refl dark) fun s h =>
    State.setBias_keeps _ _ _ (State.modComb_keeps _ _ _ (State.setCombSt_keeps _ _ _ (.refl s)))
  have hports : Keeps dark ports := .forEach hcombs fun s p => .ite (.refl s) (State.portDown_keeps _ _ _ (.refl s))
  have hhalted : Keeps dark halted := .mk' hports ..
  have hstaged : Keeps dark staged := State.setAlert_keeps _ _ (State.setStage_keeps _ _ hhalted)
  have hdone : Keeps dark (if was = 0 then staged.markChg 8 else staged) := .ite (State.markChg_keeps _ _ hstaged) hstaged
  have hdark : s.haltDark = dark := rfl
  rw [hdark]
  exact hdone.svn

/-- The state in which the halt is logged. -/
def State.haltLogged (s : State) : State := s.event .evtHalt .device 0 noCtx []

theorem State.sec_setBoot (s : State) (b : Boot) : ({ s with boot := b } : State).sec = s.sec := rfl

theorem State.haltInternal_sec (s : State) : s.haltInternal.sec = (s.haltLogged.haltDevice 2 0 0).sec :=
  State.sec_setBoot _ _

-- The halt runs over all 512 threads.
set_option maxRecDepth 4000 in
/-- The halt darkens lattice 0, with which the start waits for none: the security version is committed in the halt. -/
theorem svn_haltDark_restartAwaitsLattice : restartAwaitsLattice.haltLogged.haltDark.sec.svn = 1 := by decide +kernel

theorem exec_pllRelockTimeout_restarting {i : HubIsland} {s : State} (hlost : s.power.unlocked.contains (.hub i) = true)
    (hon : s.boot.on = true) (hhalt : s.boot.halt ≠ 2) (hrestart : s.boot.restarting = true) :
    exec (.pllRelockTimeout (.hub i)) s = .next s.haltInternal := by
  change execPllRelockTimeout (.hub i) s = _
  simp only [execPllRelockTimeout, if_pos hlost, State.internalErr, hon, hhalt, hrestart]
  rfl

/-- Refutes O28 in its clause on a lock not regained in a restart, which leaves `sec` as it was in every state: the halt of
`restartAwaitsLattice` makes its last awaited lattice DARK, which ends the start, and the end of a start commits the
firmware's security version (R395). -/
theorem not_clocks : ¬ Obligations.Clocks := by
  unfold Obligations.Clocks
  rintro ⟨-, -, -, -, htimeout, -⟩
  obtain ⟨t, hexec, -, -, -, hsec⟩ := htimeout .relay restartAwaitsLattice rfl rfl (by decide) rfl
  rw [exec_pllRelockTimeout_restarting rfl rfl (by decide) rfl] at hexec
  injection hexec with ht
  have hraised : 1 ≤ t.sec.svn := by
    calc 1 = restartAwaitsLattice.haltLogged.haltDark.sec.svn := svn_haltDark_restartAwaitsLattice.symm
      _ ≤ (restartAwaitsLattice.haltLogged.haltDevice 2 0 0).sec.svn := State.svn_haltDevice ..
      _ = t.sec.svn := by rw [← ht, State.haltInternal_sec]
  rw [hsec] at hraised
  exact absurd hraised (by decide)

end Sys2Proof.Machine
end

section
/-! PROOFS. Thermal samples (R377 to R382): open sensors, memory, and where the statement fails (R366, R368). -/

namespace Sys2Proof.Machine

/-! ## Canonical tables -/

theorem tdel_of_lt {α : Type} [DecidableEq α] {d : α} {t : Tbl α} {lo k : Nat} (hwf : twfFrom d lo t = true) (hk : k < lo) :
    tdel t k = t := by
  refine List.filter_eq_self.mpr ?_
  induction t generalizing lo with
  | nil => exact fun _ h => absurd h (List.not_mem_nil)
  | cons e r ih =>
    obtain ⟨j, v⟩ := e
    simp only [twfFrom, Bool.and_eq_true, decide_eq_true_eq] at hwf
    obtain ⟨⟨hlo, -⟩, hr⟩ := hwf
    intro x hx
    obtain rfl | hx := List.mem_cons.mp hx
    · simp; omega
    · exact ih hr (by omega) x hx

theorem tins_of_lt {α : Type} [DecidableEq α] {d : α} {t : Tbl α} {lo k : Nat} (v : α) (hwf : twfFrom d lo t = true)
    (hk : k < lo) : tins k v t = (k, v) :: t := by
  cases t with
  | nil => rfl
  | cons e r =>
    obtain ⟨j, w⟩ := e
    simp only [twfFrom, Bool.and_eq_true, decide_eq_true_eq] at hwf
    exact if_pos (by omega)

/-- Writing what a canonical table holds leaves it. -/
theorem tset_tget_self {α : Type} [DecidableEq α] {d : α} {t : Tbl α} {lo : Nat} (hwf : twfFrom d lo t = true) (k : Nat) :
    tset d t k (tget d t k) = t := by
  induction t generalizing lo with
  | nil => exact if_pos rfl
  | cons e r ih =>
    obtain ⟨j, v⟩ := e
    simp only [twfFrom, Bool.and_eq_true, decide_eq_true_eq, Bool.not_eq_true', decide_eq_false_iff_not] at hwf
    obtain ⟨⟨-, hv⟩, hr⟩ := hwf
    by_cases hj : j = k
    · subst hj
      have hdel : tdel ((j, v) :: r) j = r := by rw [tdel, List.filter_cons_of_neg (by simp)]; exact tdel_of_lt hr (by omega)
      rw [tget, if_pos rfl, tset, if_neg hv, hdel, tins_of_lt v hr (by omega)]
    · have hrest := ih hr
      have hdel : tdel ((j, v) :: r) k = (j, v) :: tdel r k := List.filter_cons_of_pos (by simpa using hj)
      rw [tget, if_neg hj, tset, hdel]
      rw [tset] at hrest
      by_cases hd : tget d r k = d
      · rw [if_pos hd] at hrest ⊢
        rw [hrest]
      · rw [if_neg hd] at hrest ⊢
        have hjk : j < k := by
          by_contra hlt
          exact hd (tget_of_lt hr (by omega))
        rw [tins, if_neg (by omega), hrest]

/-- A table of consecutive keys reads as the function that gave it. -/
theorem tget_map_range' {α : Type} {d : α} (f : Nat → α) {a n k : Nat} (hlo : a ≤ k) (hhi : k < a + n) :
    tget d ((List.range' a n).map fun i => (i, f i)) k = f k := by
  induction n generalizing a with
  | zero => omega
  | succ n ih =>
    rw [List.range'_succ, List.map_cons, tget]
    split
    next h => rw [h]
    next h => exact ih (by omega) (by omega)

theorem twfFrom_map_range' {α : Type} [DecidableEq α] {d : α} {f : Nat → α} (hf : ∀ i, f i ≠ d) (a n : Nat) :
    twfFrom d a ((List.range' a n).map fun i => (i, f i)) = true := by
  induction n generalizing a with
  | zero => rfl
  | succ n ih =>
    rw [List.range'_succ, List.map_cons, twfFrom, ih (a + 1)]
    simp [hf]

/-! ## Sensors that stay open (R380, R381) -/

theorem State.setSensor_self {s : State} (hwf : twf Sensor.reset s.sensors = true) (i : Nat) :
    s.setSensor i (s.sensor i) = s := by
  rw [State.setSensor, State.sensor, tset_tget_self hwf]

/-- A sensor known to be open that reads as `t`. -/
def Sensor.opened (t : Int) : Sensor := { Sensor.reset with kind := 1, reading := t }

theorem Sensor.opened_ne_reset (t : Int) : Sensor.opened t ≠ Sensor.reset := fun h =>
  absurd (congrArg Sensor.kind h) (by simp [Sensor.opened, Sensor.reset])

/-- What a domain's sample does about its sensor `k`. -/
def State.sampleSensor (s : State) (readings : List Sense) (D : ThermalDomain) (vals : List (Option Int)) (k : Nat) : State :=
  let x := s.sensor (D.first + k)
  let x' := x.sample k (readings.getD (D.first + k) .isOpen) vals
  let s := s.setSensor (D.first + k) x'
  if x'.kind ≠ 0 && x.kind = 0 then s.event .thmSensorBroken .sensor (D.first + k) noCtx [x'.kind] else s

/-- The readings of a domain's sensors. -/
def ThermalDomain.values (D : ThermalDomain) (readings : List Sense) : List (Option Int) :=
  D.sensors.map fun i => senseVal (readings.getD i .isOpen)

/-- Where a domain's sensors, once each is sampled, read as their substitutes already, its sample is no more than that. -/
theorem State.sampleDomain_eq {s t : State} {readings : List Sense} {d : Nat}
    (hsampled : forEach (upTo (domainOf d).count)
      (fun s k => s.sampleSensor readings (domainOf d) ((domainOf d).values readings) k) s = t)
    (hwf : twf Sensor.reset t.sensors = true)
    (hread : ∀ i ∈ (domainOf d).sensors, substitute (domainOf d)
      ((domainOf d).sensors.filter fun i => (t.sensor i).kind != 0).length (t.sensor i) = t.sensor i) :
    s.sampleDomain readings d = t := by
  unfold State.sampleDomain
  extract_lets D vals sampled broken
  have ht : sampled = t := hsampled
  unfold broken
  rw [ht]
  exact forEach_eq_self fun i hi => by rw [hread i hi, State.setSensor_self hwf]

/-- The sample of an open sensor, open before, leaves the state. -/
theorem State.sampleSensor_opened {s : State} {readings : List Sense} {D : ThermalDomain} {k : Nat} {t : Int}
    (vals : List (Option Int)) (hwf : twf Sensor.reset s.sensors = true)
    (hopen : readings.getD (D.first + k) .isOpen = .isOpen) (hx : s.sensor (D.first + k) = .opened t) :
    s.sampleSensor readings D vals k = s := by
  have hsame : (Sensor.opened t).sample k .isOpen vals = .opened t := rfl
  unfold State.sampleSensor
  dsimp only
  rw [hopen, hx, hsame, if_neg (by simp [Sensor.opened]), ← hx, State.setSensor_self hwf]

theorem substitute_opened (D : ThermalDomain) {broken : Nat} (h : 2 ≤ broken) :
    substitute D broken (.opened D.trip) = .opened D.trip := by
  rw [substitute, if_neg (show (Sensor.opened D.trip).kind ≠ 0 by simp [Sensor.opened]), if_pos h]
  rfl

/-! ## What follows the causes of a sample leaves memory alone -/

/-- A sample as far as the causes that its sensors raise. -/
def State.causesSampled (s : State) (readings : List Sense) : State :=
  forEach (upTo 4) (fun t b => t.picCause b)
    (forEach (upTo 4) (fun t b => s.sampleRise t b) ((upTo 23).foldl (fun t d => t.sampleDomain readings d) s))

section
variable (s : State)

theorem State.sampleLevels_mem : s.sampleLevels.mem = s.mem :=
  forEach_view State.mem _ _ (fun s d => by
    extract_lets D t n lv old counted
    split
    · rfl
    · exact State.sensorChange_mem ..) s

theorem State.updateWindow_mem : s.updateWindow.mem = s.mem := by
  obtain ⟨x, h, hwindow⟩ := s.updateWindow_frame
  rw [hwindow]

theorem State.correct_mem (l : Nat) (t : Int) (factory : Bool) : (s.correct l t factory).mem = s.mem := by
  unfold State.correct
  extract_lets x g
  split
  · rfl
  · rw [State.setLat_mem, State.setFld_mem, State.bump_mem]

theorem State.takeTrims_mem (l : Nat) : (s.takeTrims l).mem = s.mem := by
  unfold State.takeTrims
  split
  · split
    · rfl
    · exact s.correct_mem ..
  · rfl

theorem State.retune_mem (l : Nat) (force : Bool) : (s.retune l force).mem = s.mem := by
  unfold State.retune
  dsimp only
  split
  · rfl
  · split
    · exact s.correct_mem ..
    · split
      · exact s.correct_mem ..
      · split
        · exact s.takeTrims_mem l
        · rfl

theorem State.retuneAll_mem : (forEach (upTo 8) (fun t l => t.retune l false) s).mem = s.mem :=
  forEach_view State.mem _ _ (fun u l => u.retune_mem l false) s

theorem State.throttleStep_mem : s.throttleStep.mem = s.mem := by
  unfold State.throttleStep
  dsimp only
  split
  · rfl
  · rw [State.bump_mem, State.limitDown, State.setLimit_mem]

theorem State.trip_mem (d i : Nat) : (s.trip d i).mem = s.mem := by
  have hhalted : ∀ u : State, u.halted.mem = u.mem := fun u => by
    obtain ⟨C, M, hhalted, -⟩ := u.halted_spec
    rw [hhalted]
    rfl
  unfold State.trip
  extract_lets src latched logged committed
  have hlogged : logged.mem = s.mem := State.event_mem latched ..
  rw [hhalted]
  unfold committed
  split
  · exact hlogged
  · exact hlogged

end

/-! ## Causes at lattices that do not serve -/

/-- From `s` to `t` memory is the same, and the state of every lattice. -/
structure Idles (s t : State) : Prop where
  mem : t.mem = s.mem
  state : ∀ k, (t.lat k).state = (s.lat k).state

theorem Idles.refl (s : State) : Idles s s := ⟨rfl, fun _ => rfl⟩

theorem Idles.trans {s t u : State} (h : Idles s t) (g : Idles t u) : Idles s u :=
  ⟨g.mem.trans h.mem, fun k => (g.state k).trans (h.state k)⟩

theorem Idles.setLat (s : State) (l : Nat) {x : Lattice} (hx : x.state = (s.lat l).state) : Idles s (s.setLat l x) where
  mem := rfl
  state k := by
    by_cases hk : k = l
    · rw [hk, State.lat_setLat_same, hx]
    · rw [State.lat_setLat_ne _ _ _ _ hk]

/-- No lattice serves, nor is SUSPECT. -/
def State.NoneServes (s : State) : Prop := ∀ k, (s.lat k).state ≠ .serving ∧ (s.lat k).state ≠ .suspect

section
variable {s : State} (hnone : s.NoneServes)
include hnone

theorem Idles.noneServes {t : State} (h : Idles s t) : t.NoneServes := fun k => h.state k ▸ hnone k

theorem State.raiseCause_idles (l : Nat) (c : Cause) (t0 : Nat) : Idles s (s.raiseCause l c t0) := by
  obtain ⟨hserving, hsuspect⟩ := hnone l
  unfold State.raiseCause
  extract_lets x hold
  have hhold : Idles s (hold s) := .setLat s l rfl
  clear_value hold
  split
  next h => exact absurd h hserving
  next h => exact absurd h hsuspect
  next => exact hhold
  next =>
    split
    · exact hhold
    · exact .refl s
  next => exact .refl s

theorem State.tryClearRise_idles (l : Nat) : Idles s (s.tryClearRise l) := by
  have hclear : Idles s (s.clearCause l .rateOfRise) := by
    unfold State.clearCause
    extract_lets x
    split
    · rw [if_neg (by simp [x, (hnone l).2])]
      exact .setLat s l rfl
    · exact .refl s
  unfold State.tryClearRise
  extract_lets b
  split
  · exact .refl s
  · exact hclear

theorem State.picCause_idles (b : Nat) : Idles s (s.picCause b) :=
  forEach_keeps (Idles s) _ _ (fun u l hu => by
    have hquiet := hu.noneServes hnone
    refine hu.trans ?_
    split
    · split
      · exact .refl u
      · exact State.raiseCause_idles hquiet l _ _
    · exact State.tryClearRise_idles hquiet l) s (.refl s)

theorem State.picCauses_mem : (forEach (upTo 4) (fun t b => t.picCause b) s).mem = s.mem := by
  have hidles : Idles s (forEach (upTo 4) (fun t b => t.picCause b) s) :=
    forEach_keeps (Idles s) _ _ (fun u b hu => hu.trans (State.picCause_idles (hu.noneServes hnone) b)) s (.refl s)
  exact hidles.mem

end

theorem exec_thermalSample_mem {readings : List Sense} {s t : State} (hlen : readings.length = 190) (hon : s.boot.on = true)
    (hphase : s.onPhase 1000000 0 = true) (hexec : exec (.thermalSample readings) s = .next t) :
    t.mem = (s.causesSampled readings).mem := by
  have hpowered : s.powered = true := by rw [State.powered, hon, Bool.true_or]
  have hwf : (Instr.thermalSample readings).wf = true := beq_iff_eq.mpr hlen
  change execThermalSample readings s = _ at hexec
  unfold execThermalSample at hexec
  rw [if_neg (by simp [hwf]), if_neg (by simp [hpowered]), if_neg (by simp [hon]), if_neg (by simp [hphase])] at hexec
  extract_lets s1 s2 leveled retuned hot cool was src noted src' paced at hexec
  have hleveled : leveled.mem = (s.causesSampled readings).mem :=
    (State.sampleLevels_mem _).trans (State.updateWindow_mem _)
  have hretuned : retuned.mem = leveled.mem := leveled.retuneAll_mem
  clear_value retuned
  have hnoted : noted.mem = retuned.mem := State.alertEdge_mem ..
  have hpaced : paced.mem = noted.mem := by
    unfold paced
    split
    · exact noted.throttleStep_mem
    · split <;> rfl
  have hall : paced.mem = (s.causesSampled readings).mem := hpaced.trans (hnoted.trans (hretuned.trans hleveled))
  clear_value paced
  split at hexec
  next d i _ =>
    rw [← Host.Outcome.next.inj hexec, State.trip_mem, hall]
  next => rw [← Host.Outcome.next.inj hexec, hall]

/-! ## A rise that resolves a power wait (R366, R368, R378) -/

/-- A sensor that measured and rose by more than 0.4 °C in the last sample. -/
def roseBefore : Sensor := { Sensor.reset with has := true, rose := true }

/-- A thread of context 0 that WAITs with SRC = 2 for its bay to be in PROOF. -/
def waitsForProof : Thread :=
  { Thread.reset with
    st := .waiting, pc := 1, mode := 2
    wait := some { src := 2, sid := 0, target := 0, cons := false, timeout := 0, since := 0, hit := false, uid := 0 } }

/-- The sensors but the first, all open. -/
def openSensors : Tbl Sensor := (List.range' 1 189).map fun i => (i, .opened (domainOf (domainOfSensor i)).trip)

/-- A device in STAGE 5 whose bay 0 is on its way to PROOF and waits for lattice 0 to drain. Context 0 is WAITING, as the
STATUS word of its portal entry says, and its one thread waits for the transition. Sensor 0 is as given, the others are
open. -/
def towardProof (x : Sensor) : State :=
  { State.reset with
    boot := { State.reset.boot with on := true, stage := 5 }
    cfg := { Configuration.unset with portals := [oneEntryPortal] }
    mem := [(16 * mib, 1), (16 * mib + 0x30, 3)]
    ctxs := [(0, { Ctx.reset with st := .waiting, nSteps := 2, map := [(0, 0)] })]
    threads := [(0, waitsForProof)]
    lats := [(0, { Lattice.reset with state := .draining, toLocked := true })]
    bays := [(0, { Bay.reset with trans := some { target := .proof, committed := false } })]
    sensors := (0, x) :: openSensors }

/-- Sensor 0 rose in the last sample. -/
def risingTowardProof : State := towardProof roseBefore

theorem inv_risingTowardProof : Inv risingTowardProof where
  waiting := rfl
  mem := by decide
  hostMem := rfl
  log := ⟨rfl, fun _ _ h => by simp [risingTowardProof, towardProof, State.reset] at h⟩

theorem byte_risingTowardProof : risingTowardProof.byte (16 * mib + 0x30) = 3 := by decide

/-- Sensor 0 has risen by 200/256 °C; the others are open. -/
def risenReadings : List Sense := .value 200 :: List.replicate 189 .isOpen

theorem length_risenReadings : risenReadings.length = 190 := by
  rw [risenReadings, List.length_cons, List.length_replicate]

theorem risenReadings_open {i : Nat} (hi : i ≠ 0) : risenReadings.getD i .isOpen = .isOpen := by
  obtain ⟨j, rfl⟩ := Nat.exists_eq_succ_of_ne_zero hi
  rw [risenReadings, List.getD_cons_succ, List.getD_eq_getElem?_getD, List.getElem?_getD_replicate_default_eq]

/-- Sensor 0 as its sample leaves it. -/
def roseAgain : Sensor :=
  { Sensor.reset with
    raw := 200, has := true, reading := 200, span := List.replicate 20 (200, 200), clean := 1, rose := true }

section
variable {x : Sensor} (hx : x ≠ Sensor.reset)
include hx

theorem twf_towardProof : twf Sensor.reset (towardProof x).sensors = true := by
  have hopen : twfFrom Sensor.reset 1 openSensors = true := twfFrom_map_range' (fun _ => Sensor.opened_ne_reset _) 1 189
  change twfFrom Sensor.reset 0 ((0, x) :: openSensors) = true
  simp [twfFrom, hx, hopen]

omit hx in
theorem sensor_towardProof {i : Nat} (hlo : i ≠ 0) (hhi : i < 190) :
    (towardProof x).sensor i = .opened (domainOf (domainOfSensor i)).trip := by
  change tget Sensor.reset ((0, x) :: openSensors) i = _
  rw [tget, if_neg hlo.symm]
  exact tget_map_range' (k := i) (fun i => Sensor.opened (domainOf (domainOfSensor i)).trip) (by omega) (by omega)

end

theorem sensors_of_domain : ∀ d < 23, ∀ i ∈ (domainOf d).sensors, i < 190 ∧ domainOfSensor i = d ∧ (i = 0 → d = 0) := by
  decide +kernel

section
variable {x : Sensor} (hx : x ≠ Sensor.reset) {d : Nat} (hd : d < 23)
include hd

theorem sensor_domain {i : Nat} (hi : i ∈ (domainOf d).sensors) (hi0 : i ≠ 0) :
    (towardProof x).sensor i = .opened (domainOf d).trip := by
  obtain ⟨hlt, hown, -⟩ := sensors_of_domain d hd i hi
  exact hown ▸ sensor_towardProof hi0 hlt

/-- Where at least two of a domain's sensors are open, those that are read as their substitute. -/
theorem substitute_towardProof (hopen : 2 ≤ ((domainOf d).sensors.filter (· != 0)).length) (hkind : x.kind = 0) :
    ∀ i ∈ (domainOf d).sensors, substitute (domainOf d)
      ((domainOf d).sensors.filter fun i => ((towardProof x).sensor i).kind != 0).length ((towardProof x).sensor i) =
        (towardProof x).sensor i := by
  intro i hi
  have hbroken : (domainOf d).sensors.filter (fun i => ((towardProof x).sensor i).kind != 0) =
      (domainOf d).sensors.filter (· != 0) := by
    refine List.filter_congr fun j hj => ?_
    by_cases hj0 : j = 0
    · subst hj0
      simp [show (towardProof x).sensor 0 = x from rfl, hkind]
    · simp [sensor_domain hd hj hj0, hj0, Sensor.opened]
  rw [hbroken]
  by_cases hi0 : i = 0
  · subst hi0
    exact if_pos hkind
  · rw [sensor_domain hd hi hi0, substitute_opened _ hopen]

include hx

theorem sampleSensor_open {k : Nat} (hk : k < (domainOf d).count) (hi0 : (domainOf d).first + k ≠ 0) :
    (towardProof x).sampleSensor risenReadings (domainOf d) ((domainOf d).values risenReadings) k = towardProof x :=
  State.sampleSensor_opened _ (twf_towardProof hx) (risenReadings_open hi0)
    (sensor_domain hd (List.mem_map.mpr ⟨k, List.mem_range.mpr hk, Nat.add_comm ..⟩) hi0)

end

theorem open_ge_two : ∀ d < 23, 2 ≤ ((domainOf d).sensors.filter (· != 0)).length := by decide +kernel

theorem setSensor_towardProof (x : Sensor) {y : Sensor} (hy : y ≠ Sensor.reset) :
    (towardProof x).setSensor 0 y = towardProof y := by
  have hopen : twfFrom Sensor.reset 1 openSensors = true := twfFrom_map_range' (fun _ => Sensor.opened_ne_reset _) 1 189
  have hset : tset Sensor.reset ((0, x) :: openSensors) 0 y = (0, y) :: openSensors := by
    rw [tset, if_neg hy, show tdel ((0, x) :: openSensors) 0 = tdel openSensors 0 from rfl, tdel_of_lt hopen Nat.one_pos,
      tins_of_lt y hopen Nat.one_pos]
  change ({ towardProof x with sensors := tset Sensor.reset ((0, x) :: openSensors) 0 y } : State) = _
  rw [hset]
  rfl

/-- Sensor 0's own sample: it rises again. -/
theorem sampleSensor_rising :
    risingTowardProof.sampleSensor risenReadings (domainOf 0) ((domainOf 0).values risenReadings) 0 = towardProof roseAgain := by
  have hsample : roseBefore.sample 0 (.value 200) ((domainOf 0).values risenReadings) = roseAgain := by decide +kernel
  unfold State.sampleSensor
  extract_lets x x' t
  have hx' : x' = roseAgain := hsample
  unfold t
  rw [hx', if_neg (by simp [roseAgain, Sensor.reset])]
  exact setSensor_towardProof roseBefore (by decide)

theorem sampled_first_domain : risingTowardProof.sampleDomain risenReadings 0 = towardProof roseAgain := by
  have hloop := forEach_only (s := risingTowardProof) (l := upTo (domainOf 0).count)
    (f := fun s k => s.sampleSensor risenReadings (domainOf 0) ((domainOf 0).values risenReadings) k) (k := 0) (by decide)
    List.nodup_range
    (fun k hk hk0 => sampleSensor_open (by decide) (by decide) (List.mem_range.mp hk) (by simpa [domainOf] using hk0))
    (fun k hk hk0 => by
      rw [sampleSensor_rising]
      exact sampleSensor_open (by decide) (by decide) (List.mem_range.mp hk) (by simpa [domainOf] using hk0))
  rw [sampleSensor_rising] at hloop
  exact State.sampleDomain_eq hloop (twf_towardProof (by decide))
    (substitute_towardProof (by decide) (open_ge_two 0 (by decide)) rfl)

theorem sampled_other_domain {d : Nat} (hd : d < 23) (hne : d ≠ 0) :
    (towardProof roseAgain).sampleDomain risenReadings d = towardProof roseAgain := by
  refine State.sampleDomain_eq (forEach_eq_self fun k hk => ?_) (twf_towardProof (by decide))
    (substitute_towardProof hd (open_ge_two d hd) rfl)
  refine sampleSensor_open (by decide) hd (List.mem_range.mp hk) fun h => ?_
  obtain ⟨-, -, hzero⟩ := sensors_of_domain d hd _ (List.mem_map.mpr ⟨k, hk, Nat.add_comm ..⟩)
  exact hne (hzero h)

theorem sampled_risingTowardProof :
    (upTo 23).foldl (fun t d => t.sampleDomain risenReadings d) risingTowardProof = towardProof roseAgain := by
  have hdomains : upTo 23 = 0 :: List.range' 1 22 := by decide
  rw [hdomains, List.foldl_cons, sampled_first_domain]
  refine forEach_eq_self (f := fun t d => t.sampleDomain risenReadings d) fun d hd => ?_
  have hrange := List.mem_range'_1.mp hd
  exact sampled_other_domain (by omega) (by omega)

/-- The device once bay 0's flag is raised. -/
def riseRefused : State := (towardProof roseAgain).raiseRise 0

theorem sampleRise_rising : risingTowardProof.sampleRise (towardProof roseAgain) 0 = riseRefused := by
  unfold State.sampleRise
  extract_lets rising any both y
  have hboth : both = true := List.any_eq_true.mpr ⟨0, by decide, rfl⟩
  rw [if_pos (show (!y.rise) = true from rfl), if_pos hboth]
  rfl

theorem riseRefused_quiet : ∀ b < 4, b ≠ 0 → (riseRefused.bay b).rise = false := by decide +kernel

theorem sampleRise_open {b : Nat} (hb : b < 4) (hb0 : b ≠ 0) :
    risingTowardProof.sampleRise riseRefused b = riseRefused := by
  have hrange : ∀ b < 4, b ≠ 0 → ∀ i ∈ baySensors b, i ≠ 0 ∧ i < 190 := by decide +kernel
  have hclosed : ∀ i ∈ baySensors b, (risingTowardProof.sensor i).kind ≠ 0 := fun i hi => by
    obtain ⟨hi0, hlt⟩ := hrange b hb hb0 i hi
    have hopen : risingTowardProof.sensor i = .opened _ := sensor_towardProof hi0 hlt
    rw [hopen]
    simp [Sensor.opened]
  unfold State.sampleRise
  extract_lets rising any both y
  have hrise : (!y.rise) = true := by simp only [y, riseRefused_quiet b hb hb0, Bool.not_false]
  have hboth : both = false := List.any_eq_false.mpr fun i hi => by simp [rising, hclosed i hi]
  rw [if_pos hrise, if_neg (by rw [hboth]; decide)]

theorem noneServes_riseRefused : riseRefused.NoneServes := by
  have hlats : ∀ e ∈ riseRefused.lats, e.2.state ≠ .serving ∧ e.2.state ≠ .suspect := by decide +kernel
  exact fun k => tget_of_forall (P := fun x : Lattice => x.state ≠ .serving ∧ x.state ≠ .suspect) (by decide) hlats k

/-- The second sample that rises refuses the transition (R368), the wait resolves with predicate 0 (R366), and STATUS shows
the context RUNNING (R144). -/
theorem byte_riseRefused : riseRefused.byte (16 * mib + 0x30) = 2 := by decide +kernel

theorem mem_causesSampled : (risingTowardProof.causesSampled risenReadings).mem = riseRefused.mem := by
  have hbays : upTo 4 = 0 :: List.range' 1 3 := by decide
  have hrest : forEach (List.range' 1 3) (fun t b => risingTowardProof.sampleRise t b) riseRefused = riseRefused :=
    forEach_eq_self fun b hb => by
      have hrange := List.mem_range'_1.mp hb
      exact sampleRise_open (by omega) (by omega)
  have hrises : forEach (upTo 4) (fun t b => risingTowardProof.sampleRise t b) (towardProof roseAgain) = riseRefused := by
    rw [hbays, forEach, List.foldl_cons, sampleRise_rising]
    exact hrest
  rw [State.causesSampled, sampled_risingTowardProof, hrises, State.picCauses_mem noneServes_riseRefused]

/-- Refutes O29 in its clause on a sample of the running device, which leaves the device's memory as it was in every state:
in `risingTowardProof` the bay's flag of rising temperature is raised, which refuses the transition that a thread waits for,
and the STATUS word of the thread's context, in the portal's memory, goes from WAITING to RUNNING. -/
theorem not_thermalSample : ¬ Obligations.ThermalSample := by
  unfold Obligations.ThermalSample
  rintro ⟨-, hsample, -⟩
  obtain ⟨t, hexec, -, -, -, hmem, -⟩ := hsample risenReadings risingTowardProof length_risenReadings rfl (by decide)
  have hcauses := exec_thermalSample_mem length_risenReadings rfl (by decide) hexec
  have hsame : riseRefused.byte (16 * mib + 0x30) = risingTowardProof.byte (16 * mib + 0x30) := by
    rw [State.byte, ← mem_causesSampled, ← hcauses, hmem, State.byte]
  rw [byte_riseRefused, byte_risingTowardProof] at hsame
  exact absurd hsame (by decide)

end Sys2Proof.Machine
end

section
/-! PROOFS. Fields that a cause of SUSPECT, a fence and a rewound thread leave alone (R44, R45, R48). -/

namespace Sys2Proof.Machine

/-- The fields that a cause of SUSPECT, a fence and what they bring with them write (R44, R45, R48): besides what reporting
writes, the counts of entries, rewinds, repeats and faults, and the residual of a lattice that locks. -/
def suspectFields : List Fld :=
  reportFields ++ [.latResidRms, .latSuspectCntEntries, .latSuspectCntRepeats, .latRewindCntRewinds, .latRewindCntLate,
    .ctxEventCntFaults, .bayLarderInvalLines]

/-- From `s` to `t` a field has changed only where it is one of `suspectFields`. -/
structure KeepsFlds (s t : State) : Prop where
  fld : ∀ (f : Fld) (i : Nat), f.place ∉ suspectFields.map Fld.place → i < 4096 → t.fld f i = s.fld f i

namespace KeepsFlds

theorem refl (s : State) : KeepsFlds s s := ⟨fun _ _ _ _ => rfl⟩

theorem trans {s t u : State} (h : KeepsFlds s t) (g : KeepsFlds t u) : KeepsFlds s u :=
  ⟨fun f i hf hi => (g.fld f i hf hi).trans (h.fld f i hf hi)⟩

theorem ite {s t u : State} {c : Prop} [Decidable c] (ht : KeepsFlds s t) (hu : KeepsFlds s u) :
    KeepsFlds s (if c then t else u) := by split <;> assumption

theorem forEach {α : Type} {f : State → α → State} (hf : ∀ s a, KeepsFlds s (f s a)) (l : List α) (s : State) :
    KeepsFlds s (forEach l f s) :=
  forEach_keeps (KeepsFlds s) l f (fun u a hu => hu.trans (hf u a)) s (.refl s)

/-- A change of other parts of the state. -/
theorem of_flds {s t : State} (h : t.flds = s.flds) : KeepsFlds s t := ⟨fun f i _ _ => State.fld_congr h f i⟩

theorem modLat (s : State) (l : Nat) (f : Lattice → Lattice) : KeepsFlds s (s.modLat l f) := of_flds rfl

theorem setFld (s : State) {f : Fld} {i : Nat} (v : Nat) (hf : f ∈ suspectFields) (hi : i < 4096) :
    KeepsFlds s (s.setFld f i v) :=
  ⟨fun _ _ hg hj => State.fld_setFld_ne _ _ _ _ _ _ (Fld.key_ne (fun h => hg (h ▸ List.mem_map_of_mem hf)) hi hj)⟩

theorem bump (s : State) {f : Fld} {i : Nat} (n : Nat) (hf : f ∈ suspectFields) (hi : i < 4096) :
    KeepsFlds s (s.bump f i n) := setFld s _ hf hi

end KeepsFlds

theorem Spares.keepsFlds {s t : State} (h : Spares s t) : KeepsFlds s t :=
  ⟨fun f i hf hi => h.fld f i (fun hr => hf (List.map_subset _ (List.subset_append_left ..) hr)) hi⟩

theorem Delivers.keepsFlds {s t : State} (h : Delivers s t) : KeepsFlds s t :=
  ⟨fun f i hf hi => h.fld f i (fun hp => hf (hp ▸ List.mem_map_of_mem (by decide))) hi⟩

namespace State

variable (s : State)

/-! ## States entered, pieces and fences (R40, R42, R48) -/

theorem enterLat_keepsFlds (l : Nat) (st : LatState) (phase cause : Nat) (hl : l < 4096) :
    KeepsFlds s (s.enterLat l st phase cause) := by
  have hset : KeepsFlds s (s.setLat l ((s.lat l).entered st phase cause s.time)) := .of_flds rfl
  have hplace : KeepsFlds s (s.place l st phase cause) := .ite (hset.trans (.setFld _ _ (by decide) hl)) hset
  exact hplace.trans (s.enterLat_spares l st phase cause hl).keepsFlds

theorem event_keepsFlds (ev : Ev) (uk : UnitKind) (u c : Nat) (ps : List Nat) : KeepsFlds s (s.event ev uk u c ps) :=
  (s.event_spares ev uk u c ps).keepsFlds

theorem returnPieces_keepsFlds (l : Nat) (shadow : Bool) : KeepsFlds s (s.returnPieces l shadow) := by
  have hchunk : ∀ (u : State) (k : Option Chunk), KeepsFlds u (match k with | some k => u.returnChunk k | none => u) :=
    fun u k => by cases k <;> exact .of_flds rfl
  unfold State.returnPieces
  extract_lets x left loaded current
  have hloaded : KeepsFlds s loaded := .trans (t := left) (.of_flds rfl) (hchunk ..)
  have hcurrent : KeepsFlds s current := hloaded.trans (hchunk ..)
  clear_value current
  exact hcurrent.trans (.of_flds rfl)

theorem drainLat_keepsFlds (l cause : Nat) (toLocked : Bool) (hl : l < 4096) : KeepsFlds s (s.drainLat l cause toLocked) :=
  ((s.returnPieces_keepsFlds l toLocked).trans (.modLat _ l _)).trans (enterLat_keepsFlds _ l _ _ _ hl)

theorem zeroHeaters_keepsFlds (l : Nat) (now : Bool) : KeepsFlds s (s.zeroHeaters l now) := .of_flds rfl

theorem rampDown_keepsFlds {l : Nat} (hl : l < 8) : KeepsFlds s (s.rampDown l) := by
  obtain ⟨C, M, hset⟩ := s.setCombSt_frame .rampingDown hl
  unfold State.rampDown
  rw [hset]
  exact .ite (.refl s) (.of_flds rfl)

theorem abandonSearch_keepsFlds {l : Nat} (cause : Nat) (hl : l < 8) : KeepsFlds s (s.abandonSearch l cause) := by
  have hdrains := (KeepsFlds.modLat s l fun x => { x with toLocked := false }).trans
    (enterLat_keepsFlds _ l .draining 1 cause (by omega))
  exact (hdrains.trans (zeroHeaters_keepsFlds _ l false)).trans (rampDown_keepsFlds _ hl)

theorem fenceLattice_keepsFlds {l : Nat} (cause : Nat) (hl : l < 8) : KeepsFlds s (s.fenceLattice l cause) := by
  unfold State.fenceLattice
  extract_lets x logged noted
  have hnoted : KeepsFlds s noted := (s.event_keepsFlds ..).trans (logged.journal_spares ..).keepsFlds
  have hpending : KeepsFlds noted (noted.modLat l fun x => { x with fencePending := cause }) := .modLat noted l _
  refine .ite (.refl s) (hnoted.trans ?_)
  split
  · exact noted.enterLat_keepsFlds l _ _ _ (by omega)
  · exact hpending.trans (abandonSearch_keepsFlds _ cause hl)
  · exact hpending.trans (drainLat_keepsFlds _ l cause false (by omega))
  · exact hpending

/-! ## Rewound threads (R45) -/

theorem ctxFault_keepsFlds (c code step thread : Nat) (uk : UnitKind) (uid ctr : Nat) :
    KeepsFlds s (s.ctxFault c code step thread uk uid ctr) := by
  unfold State.ctxFault
  extract_lets x live faulted counted
  have hcounted : KeepsFlds s counted :=
    .trans (t := faulted) (.of_flds rfl) (.bump faulted 1 (by decide) (by decide))
  exact .ite ((hcounted.trans (counted.event_keepsFlds ..)).trans (putStatus_delivers _ c).keepsFlds) (.refl s)

theorem makeReady_keepsFlds (t : Nat) : KeepsFlds s (s.makeReady t) := by
  unfold State.makeReady
  split
  next u hu =>
    obtain ⟨y, rfl⟩ := cacheCtx_there hu
    exact .of_flds rfl
  next => exact .of_flds rfl
  next => exact .trans (t := s.modThread t fun th => { th with st := .waiting }) (.of_flds rfl) (ctxFault_keepsFlds ..)

theorem setCtxSt_keepsFlds (c : Nat) (st : CtxState) : KeepsFlds s (s.setCtxSt c st) :=
  .ite (.refl s) (.trans (t := s.modCtx c fun x => { x with st := st }) (.of_flds rfl) (putStatus_delivers _ c).keepsFlds)

theorem refreshCtx_keepsFlds (c : Nat) : KeepsFlds s (s.refreshCtx c) :=
  .ite (.ite (s.setCtxSt_keepsFlds ..) (.ite (s.setCtxSt_keepsFlds ..) (s.setCtxSt_keepsFlds ..))) (.refl s)

theorem setWarn_keepsFlds (c : Nat) : KeepsFlds s (s.setWarn c) :=
  .ite (.refl s) (.trans (t := s.modCtx c fun x => { x with warn := true }) (.of_flds rfl) (putStatus_delivers _ c).keepsFlds)

theorem releaseTakes_keepsFlds (t : Nat) : KeepsFlds s (s.releaseTakes t) :=
  (KeepsFlds.forEach (fun s a => .of_flds (t := s.setReserved a 0) rfl) _ s).trans (.of_flds rfl)

theorem withdrawTagged_keepsFlds (t : Nat) (puts : Bool) : KeepsFlds s (s.withdrawTagged t puts) := .of_flds rfl

theorem dropSteps_keepsFlds (t : Nat) (uid : Option Nat) : KeepsFlds s (s.dropSteps t uid) := by
  unfold State.dropSteps
  generalize upTo 8 = ls
  exact .of_flds rfl

theorem rewindThread_keepsFlds (t : Nat) : KeepsFlds s (s.rewindThread t) := by
  unfold State.rewindThread
  extract_lets th
  split
  next => exact .refl s
  next bad left ready _ r _ =>
    have hleft : KeepsFlds s left := ((s.dropSteps_keepsFlds t none).trans (releaseTakes_keepsFlds _ t)).trans
      (withdrawTagged_keepsFlds _ t false)
    have hready : KeepsFlds left ready := .ite (left.ctxFault_keepsFlds ..) (left.makeReady_keepsFlds t)
    clear_value ready
    extract_lets restored
    have hrestored : KeepsFlds ready restored := .of_flds rfl
    exact ((hleft.trans hready).trans hrestored).trans (restored.refreshCtx_keepsFlds _)

/-! ## SUSPECT (R44, R45) -/

theorem lookback_keepsFlds {l : Nat} (t0 : Nat) (hl : l < 4096) : KeepsFlds s (s.lookback l t0) := by
  unfold State.lookback
  extract_lets hit live back reps counted rewound noted late logged
  have hrewound : KeepsFlds counted rewound :=
    .forEach (fun s t => (s.rewindThread_keepsFlds t).trans (.bump _ 1 (by decide) hl)) _ _
  have hlogged : KeepsFlds s logged :=
    (((KeepsFlds.bump s reps (by decide) hl).trans hrewound).trans (.modLat rewound l _)).trans (.modLat noted l _)
  refine hlogged.trans (.forEach (fun s c => ?_) _ _)
  exact ((s.event_keepsFlds ..).trans (.bump _ 1 (by decide) hl)).trans (setWarn_keepsFlds ..)

theorem traceHit_keepsFlds (b k : Nat) (p : Nat → Bool) : KeepsFlds s (s.traceHit b k p) :=
  .forEach (fun s _ => by dsimp only; exact .ite (.of_flds rfl) (.refl s)) _ s

theorem raiseCause_keepsFlds {l : Nat} (c : Cause) (t0 : Nat) (hl : l < 8) : KeepsFlds s (s.raiseCause l c t0) := by
  have hlook : l < 4096 := by omega
  unfold State.raiseCause
  extract_lets x hold
  have hhold : ∀ s, KeepsFlds s (hold s) := fun s => .of_flds rfl
  clear_value hold
  split
  next returned recent entered counted held seen _ _ =>
    have hentered : KeepsFlds s entered := (s.returnPieces_keepsFlds l true).trans (.of_flds rfl)
    have houtage : KeepsFlds entered ((entered.enterLat l .suspect 0 c.code).startOutage l) :=
      (entered.enterLat_keepsFlds l .suspect 0 c.code hlook).trans (startOutage_spares _ l).keepsFlds
    have hcounted : KeepsFlds entered counted := houtage.trans (.bump _ 1 (by decide) hlook)
    have hseen : KeepsFlds held seen := (held.lookback_keepsFlds t0 hlook).trans (traceHit_keepsFlds ..)
    have hall : KeepsFlds s seen := ((hentered.trans hcounted).trans (hhold counted)).trans hseen
    exact .ite (hall.trans (seen.fenceLattice_keepsFlds 12 hl)) hall
  next => exact (hhold s).trans (lookback_keepsFlds _ t0 hlook)
  next => exact hhold s
  next => exact .ite (hhold s) (.refl s)
  next => exact .refl s

end State
end Sys2Proof.Machine
end

section
/-! PROOFS. Monitor conversions (R324 to R327). -/

namespace Sys2Proof.Machine

/-! ## Read-back (R324, R327) -/

theorem convRing_lat (k m : Fin 1024) : (convRing k m).1 < 8 := by
  change k.val / 256 * 2 + (m.val * 256 + k.val % 256) / 131072 < 8
  omega

/-- A read-back below half of what the ring's code gives, at a code that should show it. -/
def State.readsLow (s : State) (l r : Nat) (p : Int) : Bool :=
  decide (64 ≤ (s.tap l r).code) && decide (2 * p < powerOf (s.cluster (clusterOf l r)).high (s.tap l r).code)

/-- A ring's record with a read-back taken. -/
def State.readBackTaken (s : State) (l r : Nat) (p : Int) (limit : Bool) : Ring :=
  let x := s.ringNow l r
  { x with
    p := p, lowReads := if s.readsLow l r p then x.lowReads + 1 else 0, shortReads := if limit then x.shortReads + 1 else 0,
    badSince := if x.lowReads = 0 && x.shortReads = 0 then s.time else x.badSince }

section
variable {s : State} {l r : Nat}

/-- Two bad read-backs are no fault yet. -/
theorem State.readBack_of_few (p : Int) (limit : Bool) (hlow : (s.ringNow l r).lowReads < 2)
    (hshort : (s.ringNow l r).shortReads < 2) :
    s.readBack l r p limit = s.setRing (ringKey l r) (s.readBackTaken l r p limit) := by
  unfold State.readBack
  extract_lets x code nominal low lowReads shortReads fresh t0 read
  have hfewShort : ¬ 3 ≤ shortReads := by
    simp only [shortReads, x]
    split <;> omega
  have hfewLow : ¬ 3 ≤ lowReads := by
    simp only [lowReads, x]
    split <;> omega
  rw [if_neg hfewShort, if_neg hfewLow]
  rfl

/-- The third in a row that says the heater is short is a fault. -/
theorem State.readBack_third_short (p : Int) (hshort : (s.ringNow l r).shortReads = 2) :
    s.readBack l r p true = (s.setRing (ringKey l r) (s.readBackTaken l r p true)).heaterFault l r 2
      (s.readBackTaken l r p true).badSince := by
  unfold State.readBack
  extract_lets x code nominal low lowReads shortReads fresh t0 read
  have hthree : 3 ≤ shortReads := by simp [shortReads, x, hshort]
  rw [if_pos hthree]
  rfl

/-- The row of a ring that is not zero-held is not masked once a cause is raised: that lights no lattice, and masks no row. -/
theorem State.zeroRow_raiseCause (c : Cause) (t0 : Nat) (hl : l < 8) (hrow : s.zeroRow l r = false)
    (hsearch : (s.lat l).state ≠ .searching) : (s.raiseCause l c t0).zeroRow l r = false := by
  by_cases hmask : (s.lat l).maskedRows.contains (r / 256) = true
  · have hdark : (s.lat l).state.lit = false := by
      rw [State.zeroRow, hmask, decide_eq_true hsearch] at hrow
      simpa using hrow
    have hnothing : s.raiseCause l c t0 = s := by
      unfold State.raiseCause
      cases hst : (s.lat l).state <;> simp_all [LatState.lit]
    rw [hnothing, hrow]
  · have hdem := (s.raiseCause_keepsRings c t0 hl).dem l
    have hsame : ((s.raiseCause l c t0).lat l).maskedRows = (s.lat l).maskedRows := by
      rw [Lattice.maskedRows, hdem, Lattice.maskedRows]
    rw [State.zeroRow, hsame, Bool.eq_false_of_not_eq_true hmask, Bool.and_false]

/-- A ring that dies with nowhere to park is dead at code 0. -/
theorem State.buryRing_unparked_drives (kind : Nat) (hrow : s.zeroRow l r = false) :
    Drives l r { s.ringNow l r with st := .deadUnparked, stopped := true, excursion := none, code := 0 }
      (s.withDead l r kind none) (s.buryRing l r kind none) :=
  State.setRing_issueCode_drives (x := { s.ringNow l r with st := .deadUnparked, stopped := true, excursion := none }) 0
    (State.zeroRow_withDead kind none hrow) (by simp)

theorem ClearsCauses.keepsFlds {s t : State} (h : ClearsCauses s t) : KeepsFlds s t := .of_flds (by rw [h.frame])

/-- What its lattice does about a dead ring leaves its record alone, and the counts of heater faults. -/
theorem State.declareDead_buries (kind : Nat) (park : Option Nat) (hl : l < 8) :
    (s.declareDead l r kind park).rings = (s.buryRing l r kind park).rings ∧ ∀ i < 4096,
      (s.declareDead l r kind park).fld .htrEventCntFaults i = (s.buryRing l r kind park).fld .htrEventCntFaults i := by
  unfold State.declareDead
  extract_lets search buried logged settled
  split
  next => exact ⟨rfl, fun _ _ => rfl⟩
  next =>
    have hrings : KeepsRings (buried.bump .tmpEventCntDead (l / 2))
        (if (settled.lat l).deadOk then settled else settled.fenceLattice l 12) :=
      ((State.event_keepsRings ..).trans (logged.settle_clears l).keepsRings).trans
        (.ite (.refl settled) (settled.fenceLattice_keepsRings 12 hl))
    have hflds : KeepsFlds (buried.bump .tmpEventCntDead (l / 2))
        (if (settled.lat l).deadOk then settled else settled.fenceLattice l 12) :=
      ((State.event_keepsFlds ..).trans (logged.settle_clears l).keepsFlds).trans
        (.ite (.refl settled) (settled.fenceLattice_keepsFlds 12 hl))
    refine ⟨hrings.rings, fun i hi => ?_⟩
    rw [hflds.fld _ _ (by decide) hi, State.fld_bump_ne _ _ _ _ _ _ (Fld.key_ne (by decide) (by omega) hi)]

/-- A heater fault of a ring that is not zero-held: recorded, counted, the ring dead and not parkable (R327). -/
theorem State.heaterFault_outcome (fault t0 : Nat) (hl : l < 8) (hrow : s.zeroRow l r = false) :
    ((s.heaterFault l r fault t0).ring (ringKey l r)).fault = fault ∧
    ((s.heaterFault l r fault t0).ring (ringKey l r)).st = .deadUnparked ∧
    ((s.heaterFault l r fault t0).ring (ringKey l r)).code = 0 ∧
    (s.heaterFault l r fault t0).fld .htrEventCntFaults (l / 2) =
      min (s.fld .htrEventCntFaults (l / 2) + 1) (2 ^ Fld.htrEventCntFaults.width - 1) := by
  unfold State.heaterFault
  extract_lets x noted counted raised
  have hcounted : counted.zeroRow l r = false := hrow
  have hraised : raised.zeroRow l r = false ∧ KeepsRings counted raised ∧ KeepsFlds counted raised := by
    unfold raised
    split
    next => exact ⟨hcounted, .refl _, .refl _⟩
    next hsearch =>
      exact ⟨State.zeroRow_raiseCause _ _ hl hcounted hsearch, counted.raiseCause_keepsRings _ _ hl,
        counted.raiseCause_keepsFlds _ _ hl⟩
  clear_value raised
  obtain ⟨hraisedRow, hrings, hflds⟩ := hraised
  have hdrives := State.buryRing_unparked_drives (fault + 1) hraisedRow
  obtain ⟨hburied, hcount⟩ := State.declareDead_buries (s := raised) (l := l) (r := r) (fault + 1) none hl
  have hown : raised.ring (ringKey l r) = { s.ringNow l r with fault := fault } := by
    rw [State.ring_congr hrings.rings]
    exact State.ring_setRing_same ..
  rw [State.ring_congr hburied, hdrives.ring]
  refine ⟨(congrArg Ring.fault hown : _), rfl, rfl, ?_⟩
  rw [hcount _ (by omega), hdrives.fld _ _ (by decide) (by omega) (by omega)]
  change raised.fld .htrEventCntFaults (l / 2) = _
  rw [hflds.fld _ _ (by decide) (by omega), State.fld_bump_same _ _ _ _ (by decide)]
  rfl

end

/-! ## Conversions (R324 to R326) -/

/-- Ring `m`, the only one that presents, is converter `k`'s last accepted. -/
def State.accepts (s : State) (k m : Fin 1024) : State := (s.setConv k { s.conv k with last := m }).dropReqs k 0

theorem State.accepts_frame (s : State) (k m : Fin 1024) : ∃ C, s.accepts k m = { s with convs := C } := ⟨_, rfl⟩

theorem State.conv_accepts (s : State) (k m : Fin 1024) :
    (s.accepts k m).conv k = { s.conv k with last := m, drops := min 65535 (s.conv k).drops } := by
  rw [State.accepts, State.dropReqs, State.conv_setConv_same, State.conv_setConv_same]
  rfl

section
variable {s : State} {k : Fin 1024} (hon : s.temperOn (k.val / 256) = true)
  (honce : s.continuous (k.val / 256) (k % 256) = false)

theorem exec_monitorConversion_off (sl : MonSlot) (hoff : s.temperOn (k.val / 256) = false) :
    exec (.monitorConversion k sl) s = .next s := by
  change execMonitorConversion k sl s = _
  simp [execMonitorConversion, hoff]

include hon honce

theorem exec_monitorConversion_readBack {m : Fin 1024} (p : BitVec 16) (limit : Bool)
    (hclosed : s.searchOpen (convRing k m).1 = false)
    (hlocked : s.ringState (convRing k m).1 (convRing k m).2 = .locked) :
    exec (.monitorConversion k (.readBack m p limit)) s =
      .next (s.readBack (convRing k m).1 (convRing k m).2 p.toInt limit) := by
  change execMonitorConversion k (.readBack m p limit) s = _
  simp [execMonitorConversion, hon, honce, hclosed, hlocked]

theorem exec_monitorConversion_drop (m : Fin 1024) (v : BitVec 14) (pr : List (Fin 1024)) :
    exec (.monitorConversion k (.drop m v pr)) s = .next (s.dropReqs k (s.presents k pr).length) := by
  change execMonitorConversion k (.drop m v pr) s = _
  simp [execMonitorConversion, hon, honce]

/-- A ring that presents alone is accepted. -/
theorem exec_monitorConversion_ringSlot {m : Fin 1024} (e : BitVec 16)
    (hlocked : s.ringState (convRing k m).1 (convRing k m).2 = .locked)
    (hunmasked : (s.ringNow (convRing k m).1 (convRing k m).2).masked = false) :
    exec (.monitorConversion k (.ringSlot [m] e)) s =
      .next ((s.accepts k m).receiveErr (convRing k m).1 (convRing k m).2 e.toInt true) := by
  have hpresents : (s.presents k [m]).dedup = [m] := by simp [State.presents, hlocked, hunmasked]
  change execMonitorConversion k (.ringSlot [m] e) s = _
  unfold execMonitorConversion
  simp only [hon, honce, hpresents]
  rfl

/-- A reference first found out of tolerance is flagged and logged. -/
theorem exec_monitorConversion_reference {ch : Fin 4} (hfirst : (s.conv k).refFault.contains ch = false) :
    exec (.monitorConversion k (.reference ch true [])) s = .next (((s.dropReqs k 0).setConv k
      { (s.dropReqs k 0).conv k with refFault := (s.conv k).refFault ++ [ch] }).event .monRefFault .converter k noCtx []) := by
  have hkept : ((s.dropReqs k 0).conv k).refFault = (s.conv k).refFault := by rw [State.dropReqs, State.conv_setConv_same]
  change execMonitorConversion k (.reference ch true []) s = _
  unfold execMonitorConversion
  simp [hon, honce, State.presents, hkept, -List.contains_eq_mem, hfirst]

end

/-- An ERR within HOP is taken, and no more (R325). -/
theorem State.receiveErr_within {s : State} {l r : Nat} {e : Int} (mask : Bool)
    (hwithin : (e.natAbs : Int) < s.hop (l / 2) (s.ringNow l r)) :
    ∃ w, s.receiveErr l r e mask = s.setRing (ringKey l r) { s.ringNow l r with
      e := some e, lockErr := e, inWindow := w,
      masked := (s.ringNow l r).masked || mask || decide (s.window (l / 2) (s.ringNow l r).clsNow < e.natAbs) } := by
  refine ⟨_, if_neg fun h => ?_⟩
  have hbeyond : s.hop (l / 2) (s.ringNow l r) ≤ (e.natAbs : Int) := of_decide_eq_true (Bool.and_eq_true_iff.mp h).1
  exact absurd hwithin (Int.not_lt.mpr hbeyond)

/-- Settles O56: each slot is one update of the ring's or the converter's record; a heater's third bad read-back goes on to
`State.heaterFault`. -/
theorem monitorConversions : Obligations.MonitorConversions := by
  refine ⟨fun k sl s hoff => exec_monitorConversion_off sl hoff, fun k m p g s hon honce hclosed hlocked =>
      ⟨fun hlow hshort => .of (exec_monitorConversion_readBack hon honce p g hclosed hlocked) ?few,
        fun hshort hg => ?third⟩,
    fun k m v pr s hon honce => exec_monitorConversion_drop hon honce m v pr,
    fun k m e s hon honce hlocked hunmasked hwithin =>
      .of (exec_monitorConversion_ringSlot hon honce e hlocked hunmasked) ?ring,
    fun k ch s hon honce hfirst => .of (exec_monitorConversion_reference hon honce hfirst) ?reference⟩
  case few =>
    rw [State.readBack_of_few p.toInt g hlow hshort, State.ring_setRing_same]
    exact ⟨rfl, rfl, rfl, by simp only [State.readBackTaken, State.readsLow, Bool.and_eq_true, decide_eq_true_eq]; rfl⟩
  case third =>
    subst hg
    have hexec := exec_monitorConversion_readBack hon honce p true hclosed hlocked
    rw [State.readBack_third_short p.toInt hshort] at hexec
    have hrow : s.zeroRow (convRing k m).1 (convRing k m).2 = false := State.zeroRow_of_ringState (by rw [hlocked]; decide)
    exact .of hexec (State.heaterFault_outcome 2 _ (convRing_lat k m) hrow)
  case ring =>
    have hconv := s.conv_accepts k m
    obtain ⟨C, hC⟩ := s.accepts_frame k m
    rw [hC] at hconv ⊢
    obtain ⟨w, htaken⟩ := State.receiveErr_within (s := { s with convs := C }) true hwithin
    rw [htaken]
    refine ⟨rfl, congrArg Conv.last hconv, congrArg Conv.drops hconv, ?_, ?_, ?_⟩
    · rw [State.ring_setRing_same]
    · rw [State.ring_setRing_same]
    · rw [State.ring_setRing_same]
      simp
  case reference =>
    refine ⟨?_, State.event_evHead .., State.event_newest .., by simp [State.dropReqs], by simp [State.dropReqs]⟩
    simp [State.conv_setConv_same]

end Sys2Proof.Machine
end

section
/-! PROOFS. Where the statement on bay power fails (R366, R369). -/

namespace Sys2Proof.Machine

/-! ## A refused request and a wait of an IDLE thread (R366, R369) -/

/-- An IDLE thread of context 0 whose record still holds a WAIT with SRC = 2 for COLD. -/
def idleWaitsForCold : Thread :=
  { Thread.reset with
    mode := 3
    wait := some { src := 2, sid := 0, target := 0, cons := false, timeout := 0, since := 0, hit := false, uid := 0 } }

/-- A running device whose bay 0, its threads all IDLE, is to go to COLD by IDLE_STATE while its flag of rising temperature is
raised, which refuses that (R368). One of its threads still has a wait, and the entry of that thread's context is poisoned. -/
def idleBayRises : State :=
  { State.reset with
    boot := { State.reset.boot with on := true, stage := 5 }
    flds := (State.reset.setFld .pwrBayCtrlIdleState 0 3).flds
    poison := [(Configuration.unset.ctxBase / 64, true)]
    ctxs := [(0, { Ctx.reset with st := .running, map := [(0, 0)] })]
    threads := [(0, idleWaitsForCold)]
    bays := [(0, { Bay.reset with rise := true })] }

theorem inv_idleBayRises : Inv idleBayRises where
  waiting := rfl
  mem := rfl
  hostMem := rfl
  log := ⟨rfl, fun _ _ h => by simp [idleBayRises, State.reset] at h⟩

-- The resolution of waits runs over the 128 threads of the bay.
set_option maxRecDepth 4000 in
/-- Two events are logged: PWR_REFUSED, and the fault of the context whose entry cannot be read (R192). -/
theorem log_powerRequest_idleBayRises :
    (nextState (exec (.powerRequest 0) idleBayRises)).map (fun t => (t.evHead, t.log.map (·.code))) =
      some (2, [0x0201, 0x0601]) := by decide +kernel

/-- Refutes O30 in its clause on a refused request, which logs one event in every state whose bay has only IDLE threads and
asks nothing of their waits: the refusal resolves the wait that is left in `idleBayRises`, and making that thread READY faults
its context. -/
theorem not_bayPower : ¬ Obligations.BayPower := by
  unfold Obligations.BayPower
  rintro ⟨-, hrefused, -⟩
  have hone := hrefused 0 .cold 4 2 idleBayRises rfl rfl rfl (by decide) (by decide) (by decide) (by decide)
  obtain ⟨t, hexec, -, -, -, -, -, hhead⟩ := hone.nextState
  have htwo : t.evHead = 2 := congrArg Prod.fst (nextState_view hexec log_powerRequest_idleBayRises)
  rw [hhead] at htwo
  exact absurd htwo (by decide)

end Sys2Proof.Machine
end
